-- ==== Sys2Proof/Word.lean ====
section
/-!
DEFINITION. The words of the machine and the sparse maps that hold its arrays. A sparse map is a list of
(index, value) pairs with strictly rising indices; an index that is not listed holds the array's default value.
-/
namespace Sys2Proof

abbrev Byte := BitVec 8
abbrev Half := BitVec 16
abbrev Word := BitVec 32
abbrev DWord := BitVec 64

/-- An array held as the list of its entries that differ from the array's default value. -/
abbrev Store (α : Type) := List (Nat × α)

end Sys2Proof
end

