-- ==== Sys2Proof/Config.lean ====
section
/-!
DEFINITION. What the specification leaves to the implementation: values that no file gives. Each is an opaque
constant, so a statement about it holds whatever it is (assumption log 7).
-/
namespace Sys2Proof.Config

/-- The low bits of an element that a relaxed set writes (R291): the value drawn for the n-th free choice. -/
opaque relaxedBits : Nat → Word

/-- A 32-bit value that the specification leaves open: the n-th free choice of the module. -/
opaque freeWord : Nat → Word

/-- HMAC-SHA-384 of the given bytes under the station's key, first 16 bytes (R466). The manual names the function by
its standard and does not give it. -/
opaque hmacTag : List Byte → List Byte → BitVec 128

/-- The fused identity of the module, 32 bytes (R15, R462). -/
opaque fusedIdentity : List Byte

/-- The port's MAC address, derived from the fused identity (R464). -/
opaque portMac : BitVec 48

/-- The SHA-384 digest and the security version of the accepted firmware image (R461, R462). -/
opaque imageMeasurement : List Byte

/-- The public halves of the two device keys, which travel in an attestation answer (R462). -/
opaque devicePublicKeys : List Byte

/-- The two signatures over the bytes of an attestation answer that stand before them (R462). -/
opaque attestationSignatures : List Byte → List Byte

/-- Byte n of the save image of a context (R402: the layout is the module's own). -/
opaque saveImageByte : Nat → Nat → Byte

/-- The junction temperature and module power that status page 0 reports (R464). -/
opaque sensorReading : Nat → Half

end Sys2Proof.Config
end

