-- ==== Sys2Proof/Syntax.lean ====
section
/-!
DEFINITION. The steps of the AZV1-M: one constructor for each row of spec/opcode_table.json. The rows of the instruction
set carry the operand fields of their 64-bit word (R155, R162). The other rows name the thing that the step happens to;
what arrives from outside with a step (a command record, R387, a frame, R463, a request) stands in `Inputs`.
-/
namespace Sys2Proof

/-- The fields of a format F word other than OP (R155). The constructor of `Instr` stands for OP, for the operation
number in FN and for the values of M, D or IMM16 that the tables use to tell two rows apart. -/
structure Fields where
  g : BitVec 4
  gn : Bool
  d : BitVec 6
  a : BitVec 6
  b : BitVec 6
  c : BitVec 6
  fn : BitVec 8
  m : BitVec 3
  imm : BitVec 16
  deriving DecidableEq, Repr

/-- One slot of a format P word (R162). -/
structure Slot where
  op : BitVec 6
  g : BitVec 4
  d : BitVec 5
  i : Bool
  src : BitVec 15
  deriving DecidableEq, Repr

/-- A command record as the module takes it from a tenant's ring (R384, R387): 64 bytes, the first at the head. -/
structure Cmd where
  tenant : Nat
  queue : Nat
  index : Nat
  bytes : List Byte
  deriving DecidableEq, Repr

/-- A frame of the module's own layer-2 protocol (R463): kind, source station, identifier, the payload without the
tag, and the 16-byte tag that ends a management request (R466). -/
structure L2Frame where
  kind : Byte
  src : BitVec 48
  rqid : Word
  payload : List Byte
  tag : BitVec 128
  deriving DecidableEq, Repr

/-- A heartbeat (R442): its sequence number and its health byte. -/
structure Beat where
  seq : BitVec 16
  health : Byte
  deriving DecidableEq, Repr

/-- Heartbeats of a tile in a period (R442, R443) that are not the one that it owes: those that one neighbour gets from it, or, with no
neighbour named, those that it sends to all. -/
structure BeatObs where
  core : Nat
  hearer : Option Nat
  beats : List Beat
  deriving DecidableEq, Repr

/-- What the patrol scrub finds in a word (R103): nothing, one wrong bit, or an uncorrectable word. -/
inductive ScrubFind where
  | clean | single | double
  deriving DecidableEq, Repr

/-- What a peer asks for (R476). -/
inductive PeerKind where
  | read | write | atomic
  deriving DecidableEq, Repr

/-- An RDMA request at the host port (R468): `data` for a WRITE, `len` for a READ. -/
structure RdmaReq where
  tenant : Nat
  rkey : Word
  offset : Nat
  data : List Byte
  len : Nat
  deriving DecidableEq, Repr

/-- A request of a peer module (R476). -/
structure PeerReq where
  module : Nat
  tenant : Nat
  kind : PeerKind
  addr : Nat
  data : List Byte
  len : Nat
  deriving DecidableEq, Repr

/-- The arrays whose words bit errors strike (R20, R47, R103, R105). -/
inductive MemArray where
  | pool | slice | hbm | loadCache
  deriving DecidableEq, Repr

/-- A bit error that stands in a word of an array: of the pool or the load cache of a core, at a byte of the pool or at a physical
address; one wrong bit, or two, which no code corrects. -/
structure Upset where
  array : MemArray
  core : Nat
  addr : Nat
  double : Bool
  deriving DecidableEq, Repr

/-- What stands at the module's inputs when a step happens to it: the command record being taken, the layer-2 frame, the
RDMA or peer request, the payload of a gaze frame, the odd heartbeats of a period, the ports that failed to train, and
the failure code of a bring-up step; the bit errors that strike the arrays just before it; and the chunks of a copy that a peer
refused. -/
structure Inputs where
  record : Cmd
  frame : L2Frame
  rdma : RdmaReq
  peer : PeerReq
  gaze : List Byte
  beats : List BeatObs
  ports : List Nat
  code : Byte
  upsets : List Upset
  refused : List Nat
  deriving DecidableEq, Repr

/-- Nothing at the inputs. -/
def Inputs.none : Inputs where
  record := { tenant := 0, queue := 0, index := 0, bytes := [] }
  frame := { kind := 0, src := 0, rqid := 0, payload := [], tag := 0 }
  rdma := { tenant := 0, rkey := 0, offset := 0, data := [], len := 0 }
  peer := { module := 0, tenant := 0, kind := .read, addr := 0, data := [], len := 0 }
  gaze := []
  beats := []
  ports := []
  code := 0
  upsets := []
  refused := []

inductive Instr where
  -- integer arithmetic, major 0x00 (R184)
  | iadd (x : Fields) | isub (x : Fields) | iaddc (x : Fields) | ineg (x : Fields) | iabs (x : Fields)
  | imin (x : Fields) | imax (x : Fields) | imul (x : Fields) | imulh (x : Fields) | imad (x : Fields)
  | imadw (x : Fields)
  -- logic and shifts, major 0x01 (R185)
  | and (x : Fields) | or (x : Fields) | xor (x : Fields) | andn (x : Fields) | not (x : Fields)
  | shl (x : Fields) | shr (x : Fields) | sar (x : Fields) | rot (x : Fields)
  -- bit fields and bytes, major 0x02 (R186)
  | bfx (x : Fields) | bfi (x : Fields) | popc (x : Fields) | clz (x : Fields) | brev (x : Fields)
  | prmb (x : Fields)
  -- compare, predicates, select, major 0x03 (R189 to R192)
  | icmp (x : Fields) | pset (x : Fields) | pmovR (x : Fields) | pmovP (x : Fields) | sel (x : Fields)
  -- moves, addresses, system values, major 0x04 (R193 to R198)
  | mov (x : Fields) | moviLo (x : Fields) | moviHi (x : Fields) | moviS (x : Fields) | movk (x : Fields)
  | movx (x : Fields) | movxs (x : Fields) | lea (x : Fields) | leaN (x : Fields) | widf (x : Fields)
  | sysr (x : Fields)
  -- branches and calls, major 0x20 (R199 to R202)
  | bra (x : Fields) | brx (x : Fields) | call (x : Fields) | callx (x : Fields) | ret (x : Fields)
  -- sheaves, major 0x21 (R203, R204)
  | shfb (x : Fields) | shfe (x : Fields)
  -- traps, windows, system, major 0x22 (R205 to R213)
  | trap (x : Fields) | tret (x : Fields) | tretN (x : Fields) | nop (x : Fields) | yield (x : Fields)
  | exit (x : Fields) | pulse (x : Fields) | safept (x : Fields) | wspill (x : Fields) | wfill (x : Fields)
  | csrr (x : Fields) | csrw (x : Fields)
  -- tile walker, major 0x23 (R214, R215)
  | twnx (x : Fields) | twlk (x : Fields)
  -- FP32 arithmetic, majors 0x30 and 0x31 (R222 to R226)
  | fadd (x : Fields) | fsub (x : Fields) | fmul (x : Fields) | fma (x : Fields) | fmin (x : Fields)
  | fmax (x : Fields) | fminx (x : Fields) | fmaxx (x : Fields)
  | fabs (x : Fields) | fneg (x : Fields) | fclass (x : Fields) | frnd (x : Fields) | frcp (x : Fields)
  | fsqrt (x : Fields) | frsq (x : Fields) | fexp2 (x : Fields) | flog2 (x : Fields) | fsin (x : Fields)
  | fcos (x : Fields)
  -- compare, conversion, packed pairs, dot products, key (R227 to R236, R232)
  | fcmp (x : Fields) | cvt (x : Fields) | cvtBs (x : Fields)
  | hadd2 (x : Fields) | hsub2 (x : Fields) | hmul2 (x : Fields) | hfma2 (x : Fields)
  | dot4 (x : Fields) | dot8 (x : Fields) | dot2h (x : Fields) | qsc (x : Fields) | fkey (x : Fields)
  -- winnow, tithe, approximate forms, major 0x37 (R237 to R242)
  | wnw (x : Fields) | wnwCt (x : Fields) | titheS (x : Fields) | titheC (x : Fields)
  | apxexp2 (x : Fields) | apxrcp (x : Fields)
  -- global and scratchpad memory, majors 0x48 to 0x4A (R249 to R252)
  | ld (x : Fields) | st (x : Fields) | lds (x : Fields) | sts (x : Fields) | ldt (x : Fields)
  | ldk (x : Fields)
  -- atomics, major 0x4B (R253 to R256)
  | atomAdd (x : Fields) | atomSub (x : Fields) | atomMinN (x : Fields) | atomMaxN (x : Fields)
  | atomAnd (x : Fields) | atomOr (x : Fields) | atomXor (x : Fields) | atomXchg (x : Fields)
  | atomCas (x : Fields) | atomInc (x : Fields) | atomDec (x : Fields) | atomMinS (x : Fields)
  | atomMaxS (x : Fields) | afadd (x : Fields) | amxf (x : Fields) | amxi (x : Fields)
  | red (x : Fields) | redFadd (x : Fields) | redAmxf (x : Fields) | redAmxi (x : Fields)
  -- fences and hints, major 0x4C (R257 to R259)
  | fence (x : Fields) | pref (x : Fields) | evict (x : Fields)
  -- copies, major 0x60 (R260 to R263)
  | bcpG2s (x : Fields) | bcpS2g (x : Fields) | bcpS2s (x : Fields) | bcps (x : Fields) | bcpq (x : Fields)
  | bcpm (x : Fields) | bcpUnpk4s (x : Fields) | bcpUnpk4f (x : Fields) | bcpUnpk8s (x : Fields)
  | bcpUnpk8f (x : Fields)
  -- queues, major 0x61 (R264 to R266)
  | qdef (x : Fields) | qpopE (x : Fields) | qpopF (x : Fields) | qpushF (x : Fields) | qpushE (x : Fields)
  | qstat (x : Fields)
  -- messages, timelines, barriers, collectives, majors 0x62 to 0x65 (R267 to R276)
  | send (x : Fields) | recv (x : Fields) | recvw (x : Fields)
  | tcw (x : Fields) | tcwT (x : Fields) | tlw (x : Fields) | tlwT (x : Fields) | tladv (x : Fields)
  | bari (x : Fields) | bara (x : Fields) | barw (x : Fields) | coll (x : Fields)
  -- matrix, majors 0x70 to 0x72 (R279 to R297)
  | cvdef (x : Fields) | mmaR (x : Fields) | mmaS (x : Fields) | mmaPR (x : Fields) | mmaPS (x : Fields)
  | mmaz (x : Fields) | maccr (x : Fields) | maccw (x : Fields) | maccl (x : Fields) | maccs (x : Fields)
  | mscl (x : Fields) | mqnt (x : Fields) | mamax (x : Fields)
  -- graphics, majors 0x78 to 0x7A (R299 to R310)
  | mvtx (x : Fields) | mprim (x : Fields) | memit (x : Fields) | vamp (x : Fields) | vwarpX (x : Fields)
  | vwarpY (x : Fields) | gzlt (x : Fields) | smpl (x : Fields) | tileo (x : Fields) | lens (x : Fields)
  | serq (x : Fields)
  -- texture and rays, majors 0x7B and 0x7C (R311 to R320)
  | texB (x : Fields) | texT (x : Fields) | texA (x : Fields) | texg (x : Fields) | texq (x : Fields)
  | ryl (x : Fields) | rylV (x : Fields) | ryt (x : Fields) | ryrM (x : Fields) | ryrH (x : Fields)
  | rys (x : Fields) | ryh (x : Fields) | ryx (x : Fields)
  -- format P (R162 to R166)
  | pairWord (p q : Slot)
  -- ends of waits and of asynchronous work, named by thread slot, operation, line or unit
  | twnxAnswer (thread : Nat)
  | loadDataReturn (op : Nat) (peerData : List Byte)
  | writeQueueApply (line : Nat)
  | bcpqSlotTaken (op : Nat)
  | copyCompletion (op : Nat)
  | bcpmCompletion (op : Nat)
  | blockedPopRelease (thread : Nat)
  | messageArrival (msg : Nat)
  | tlwChangeNoticed (thread : Nat)
  | mmaSetCompletion (op : Nat)
  | accOpCompletion (op : Nat)
  | amplifyProject (core : Nat)
  | rasterTest (die : Nat)
  | coverageDelivery (die : Nat)
  | tileWriteCompletion (op : Nat)
  | traversalCompletion (op : Nat)
  | translationMiss (die : Nat)
  | walkCompletion (walk : Nat)
  -- fabric and core hardware
  | bridgeFlitRetry (passes : Bool)
  | scanoutBurstRetry (ctx slot : Nat) (failedRetries : Nat)
  | portGuardPeriod (core beats : Nat)
  | patrolScrub (core word : Nat) (find : ScrubFind)
  | thresherIssue (core : Nat)
  | groupCompletion (group : Nat)
  | threadDrainEnd (thread : Nat)
  -- queues, launches, scheduling, saving, watchdog
  | widxNotice (tenant queue : Nat)
  | launchCompletion (launch : Nat)
  | tlbinvCompletion (ctx : Nat)
  | collectiveCompletion (op : Nat) (peerInputs : List (List Byte))
  | balancePeriod (ctx slot : Nat)
  | safePointSave (ctx : Nat) | forcedSave (ctx : Nat) | saveCompletion (ctx : Nat)
  | restoreCompletion (ctx : Nat) | watchdogFire (ctx : Nat)
  -- errors, the fault queue, vote and determinism
  | lateErrorTrap (thread : Nat) | faultRecordWrite (tenant : Nat)
  | faultRidxNotice (tenant : Nat) | rsmNotice (tenant : Nat)
  | selfTestEnd (core : Nat) (pass : Bool)
  | replayDivergence (ctx : Nat)
  -- display
  | stripLatch (ctx slot : Nat) | stripDeadline (ctx slot : Nat) | displayRowEmit (ctx slot : Nat)
  | reservationStopRequest (ctx slot : Nat) | scanoutWindowStart (ctx slot : Nat)
  | scanoutWindowEnd (ctx slot : Nat)
  -- peers and power
  | peerFlitReplay (port : Nat) (passes : Bool) | peerPortDown (port : Nat)
  | hotspotThrottle (core quad level : Nat)
  -- commands (R388): the record is `Inputs.record`
  | launch | relay | ctxload | ctxupd | ctxsave | ctxres | ctxdisc | tlbinv | pipe
  | metadataExport | metadataImport | viewSetBind | viewSetUnbind | collective | viewSetStatus
  -- frames at the host port and peer requests: what arrives is in `Inputs`
  | rdmaWrite | rdmaRead | peerRequest | gazeFrame
  | discoveryRequest | statusRequest | attestationRequest | frameDropped
  | claim | windowWrite | commandQueueSetup | faultQueueSetup | nodeRange | contextRange
  | destinations | moduleNumber | peerRoute | peerPortRetrain | clearCounters | moduleReset
  | managementAuthFail
  -- periods, pins, bring-up, power
  | placementPass | ueReportPeriod | faultQueueFramePeriod | heartbeatPeriod
  | resetNRise | resetNLow | pwrgoodRise | pwrgoodFall | thermalShutdown
  | bringUpStepEnd | bringUpStepTimeout
  deriving DecidableEq, Repr

end Sys2Proof
end

