-- ==== Sys2Proof/Machine/Shape.lean ====
section
/-!
DEFINITION. The rows of the instruction tables: for each format F instruction its major opcode, its operation number, the
bits of FN, M and IMM16 it admits, and what each selector field names (R157 to R160, R179, R219, R243, R279, R299). The
register scoreboard (R118), renaming (R125) and poison (R425) read the operands from the same rows.
-/
namespace Sys2Proof.Machine

/-- How an instruction reads an operand word, which decides the poison value it would receive (R425). -/
inductive PFmt where
  | int | f32 | f16 | bf16 | e4m3 | e5m2
  deriving DecidableEq, Repr

/-- What a selector field names. A width is a number of consecutive registers: 1, 2 (R159) or 4 (R245). -/
inductive Role where
  | none
  | raw
  | pred
  | src (n : Nat) (f : PFmt)
  | dst (n : Nat)
  | rmw (n : Nat)
  | stat
  deriving DecidableEq, Repr

/-- One row of an instruction table. `fn` is the operation number, `fnMask` the FN bits beyond it that the row admits,
`ms` the values of M, `imm` the bits of IMM16 that may be set. -/
structure Row where
  op : Nat
  fn : Nat
  fnMask : Nat := 0
  d : Role := .none
  a : Role := .none
  b : Role := .none
  c : Role := .none
  ms : List Nat := [0]
  imm : Nat := 0
  deriving DecidableEq, Repr

def s1 : Role := .src 1 .int
def s2 : Role := .src 2 .int
def s4 : Role := .src 4 .int
def f1 : Role := .src 1 .f32
def rounding : List Nat := [0, 1, 2, 3, 4]
def anyScope : List Nat := [0, 1, 2, 3, 4]

end Sys2Proof.Machine

namespace Sys2Proof.Fields
open Sys2Proof.Machine

/-- FN bit 7: the immediate form (R179), or FTZ in majors 0x30 to 0x32 (R219). -/
def immForm (x : Fields) : Bool := x.fn.getLsbD 7
/-- FN bit 6: the saturating form (R179). -/
def sat (x : Fields) : Bool := x.fn.getLsbD 6
def ftz (x : Fields) : Bool := x.fn.getLsbD 7
/-- The integer type of M (R180): its width in bits and whether it is signed. -/
def width (x : Fields) : Nat := 8 * 2 ^ (x.m.toNat % 4)
def signed (x : Fields) : Bool := x.m.toNat < 4
/-- Registers that an operand "by type" takes (R181). -/
def regs (x : Fields) : Nat := if x.m.toNat % 4 = 3 then 2 else 1
/-- The kind k of major 0x35 (R234). -/
def kind (x : Fields) : Nat := x.fn.toNat / 64
/-- The size code of LD and ST (R249): log2 of the size in bytes, plus one. -/
def sizeCode (x : Fields) : Nat := x.fn.toNat % 8
/-- Registers that a size code's data takes (R249). -/
def sizeRegs (code : Nat) : Nat := if code = 4 then 2 else if code = 5 then 4 else 1
/-- FN bit 5 of major 0x4B (R253): W64, or RA. -/
def w64 (x : Fields) : Bool := x.fn.getLsbD 5
def atomRegs (x : Fields) : Nat := if x.w64 then 2 else 1
/-- The order of an atomic, FN bits 7:6 (R253). -/
def order (x : Fields) : Nat := x.fn.toNat / 64
/-- CVT's destination and source format codes (R228). -/
def dstFmt (x : Fields) : Nat := x.fn.toNat / 16
def srcFmt (x : Fields) : Nat := x.fn.toNat % 16
/-- The bits hi:lo of IMM16. -/
def immBits (x : Fields) (hi lo : Nat) : Nat := (x.imm.toNat / 2 ^ lo) % 2 ^ (hi + 1 - lo)
/-- The long offset of R161, as a signed number of words. -/
def longOffset (x : Fields) : Int :=
  (BitVec.ofNat 28 (x.b.toNat * 2 ^ 22 + x.c.toNat * 2 ^ 16 + x.imm.toNat)).toInt

end Sys2Proof.Fields

namespace Sys2Proof.Slot

/-- A pair opcode that writes its destination (R163). -/
def writes (p : Slot) : Bool := p.op != 0 && p.op != 20
/-- R163: the opcodes that read D. -/
def readsD (p : Slot) : Bool := !(p.op == 0 || p.op == 1 || p.op == 19 || p.op == 21)
/-- The register A of a slot (I = 0; bits 14:10). A MOVK slot names a uniform register there, not a window register. -/
def a (p : Slot) : Nat := p.src.toNat / 1024
def readsA (p : Slot) : Bool := !p.i && p.op != 0 && p.op != 21
def isMem (p : Slot) : Bool := p.op == 19 || p.op == 20

/-- R162, R163: one slot's own encoding. -/
def ok (p : Slot) : Bool :=
  if p.op == 0 then p.d == 0 && !p.i && p.src == 0
  else p.op.toNat ≤ 23 && (p.i || p.src.toNat % 1024 == 0) && (p.op != 21 || (!p.i && p.a ≤ 15))

end Sys2Proof.Slot

namespace Sys2Proof.Machine
open Sys2Proof.Fields

/-- Width in bits of a CVT format code (R228); 0 for the reserved code. -/
def cvtWidth : Nat → Nat
  | 0 => 32 | 1 => 16 | 2 => 16 | 3 => 8 | 4 => 8 | 5 => 4 | 6 => 8 | 7 => 16 | 8 => 32 | 9 => 64
  | 10 => 8 | 11 => 16 | 12 => 32 | 13 => 64 | 14 => 4 | _ => 0

def cvtRegs (code : Nat) : Nat := if cvtWidth code = 64 then 2 else 1

def cvtPoison : Nat → PFmt
  | 0 => .f32 | 1 => .f16 | 2 => .bf16 | 3 => .e4m3 | 4 => .e5m2 | _ => .int

/-- A two-operand row of majors 0x00 to 0x03 whose B may be an immediate (R182). -/
def rowImm (op fn mask : Nat) (d a b c : Role) (ms : List Nat) (x : Fields) : Row :=
  { op := op, fn := fn, fnMask := mask, d := d, a := a, b := if x.immForm then .none else b, c := c, ms := ms,
    imm := if x.immForm then 0xFFFF else 0 }

def allTypes : List Nat := [0, 1, 2, 3, 4, 5, 6, 7]

/-- R184: `t` the admitted types, `mask` the admitted I and SAT bits. -/
def rowArith (fn mask : Nat) (ms : List Nat) (c : Role) (x : Fields) : Row :=
  rowImm 0x00 fn mask (.dst x.regs) (.src x.regs .int) (.src x.regs .int) c ms x

/-- R185: AND to ANDN take B by type; the shifts take one register. -/
def rowLogic (fn : Nat) (x : Fields) : Row :=
  rowImm 0x01 fn 0x80 (.dst x.regs) (.src x.regs .int) (.src x.regs .int) .none [6, 7] x
def rowShift (fn : Nat) (x : Fields) : Row :=
  rowImm 0x01 fn 0x80 (.dst x.regs) (.src x.regs .int) s1 .none [6, 7] x

/-- R222: two FP32 operands. -/
def rowF2 (fn : Nat) (ms : List Nat) : Row := { op := 0x30, fn := fn, fnMask := 0x80, d := .dst 1, a := f1, b := f1, ms := ms }
/-- R224: one FP32 operand. -/
def rowF1 (fn mask : Nat) (ms : List Nat) : Row := { op := 0x31, fn := fn, fnMask := mask, d := .dst 1, a := f1, ms := ms }
/-- R233: packed pairs. -/
def rowH (fn : Nat) (three : Bool) (x : Fields) : Row :=
  let p := Role.src 1 (if x.sat then .bf16 else .f16)
  { op := 0x34, fn := fn, fnMask := 0x40, d := .dst 1, a := p, b := p, c := if three then p else .none, ms := rounding }
/-- The element format of operand A (bit 0) or B (bit 1) of DOT4's floating kind (R234). -/
def dotFmt (x : Fields) (bit : Nat) : PFmt :=
  if x.kind = 3 then (if x.imm.getLsbD bit then .e5m2 else .e4m3) else .int
/-- R253: the integer atomics. -/
def rowAtom (fn : Nat) (cas : Bool) (x : Fields) : Row :=
  { op := 0x4B, fn := fn, fnMask := 0xE0, d := .dst x.atomRegs, a := s2, b := .src x.atomRegs .int,
    c := if cas then .src x.atomRegs .int else .none, ms := if x.order = 0 then [0] else anyScope, imm := 0xFFFF }
def rowAtomX (fn mask n : Nat) (x : Fields) : Row :=
  { op := 0x4B, fn := fn, fnMask := mask, d := .dst n, a := s2, b := .src n .int,
    ms := if x.order = 0 then [0] else anyScope, imm := 0xFFFF }
/-- R260: a copy; `a` and `b` the source and destination operands. -/
def rowCopy (fn : Nat) (m : Nat) (a b : Role) (imm : Nat) : Row :=
  { op := 0x60, fn := fn, d := .stat, a := a, b := b, c := s2, ms := [m], imm := imm }
/-- R283: the MMA forms. -/
def rowMma (fn : Nat) (c : Role) (imm : Nat) : Row := { op := 0x70, fn := fn, a := s1, b := s4, c := c, imm := imm }

/-- The row of a format F instruction, and its fields; `none` for the other constructors. -/
def rowOf : Instr → Option (Row × Fields)
  | .iadd x => some (rowArith 1 0xC0 allTypes .none x, x)
  | .isub x => some (rowArith 2 0xC0 allTypes .none x, x)
  | .iaddc x => some (rowArith 3 0x80 [6, 7] .pred x, x)
  | .ineg x => some ({ op := 0, fn := 4, fnMask := 0x40, d := .dst x.regs, a := .src x.regs .int, ms := [0, 1, 2, 3] }, x)
  | .iabs x => some ({ op := 0, fn := 5, fnMask := 0x40, d := .dst x.regs, a := .src x.regs .int, ms := [0, 1, 2, 3] }, x)
  | .imin x => some (rowArith 6 0x80 allTypes .none x, x)
  | .imax x => some (rowArith 7 0x80 allTypes .none x, x)
  | .imul x => some (rowArith 8 0xC0 allTypes .none x, x)
  | .imulh x => some (rowArith 9 0x80 [2, 3, 6, 7] .none x, x)
  | .imad x => some (rowArith 10 0xC0 allTypes (.src x.regs .int) x, x)
  | .imadw x => some (rowImm 0x00 11 0xC0 (.dst 2) s1 s1 s2 [2, 6] x, x)
  | .and x => some (rowLogic 1 x, x)
  | .or x => some (rowLogic 2 x, x)
  | .xor x => some (rowLogic 3 x, x)
  | .andn x => some (rowLogic 4 x, x)
  | .not x => some ({ op := 1, fn := 5, d := .dst x.regs, a := .src x.regs .int, ms := [6, 7] }, x)
  | .shl x => some (rowShift 6 x, x)
  | .shr x => some (rowShift 7 x, x)
  | .sar x => some (rowShift 8 x, x)
  | .rot x => some (rowShift 9 x, x)
  | .bfx x => some ({ rowImm 0x02 1 0x80 (.dst 1) s1 s1 .none [2, 6] x with imm := if x.immForm then 0x7FF else 0 }, x)
  | .bfi x => some ({ rowImm 0x02 2 0x80 (.rmw 1) s1 s1 .none [6] x with imm := if x.immForm then 0x7FF else 0 }, x)
  | .popc x => some ({ op := 2, fn := 3, d := .dst 1, a := .src x.regs .int, ms := [6, 7] }, x)
  | .clz x => some ({ op := 2, fn := 4, d := .dst 1, a := .src x.regs .int, ms := [6, 7] }, x)
  | .brev x => some ({ op := 2, fn := 5, d := .dst x.regs, a := .src x.regs .int, ms := [6, 7] }, x)
  | .prmb x => some ({ op := 2, fn := 6, d := .dst 1, a := s1, b := s1, ms := [6], imm := 0xFFFF }, x)
  | .icmp x => some (rowImm 0x03 1 0x80 .pred (.src x.regs .int) (.src x.regs .int) .raw allTypes x, x)
  | .pset x => some ({ op := 3, fn := 2, d := .pred, a := .pred, b := .pred, imm := 0xF }, x)
  | .pmovR x => some ({ op := 3, fn := 3, d := .dst 1 }, x)
  | .pmovP x => some ({ op := 3, fn := 4, a := s1, imm := 0xFFF }, x)
  | .sel x => some (rowImm 0x03 5 0x80 (.dst x.regs) (.src x.regs .int) (.src x.regs .int) .pred [6, 7] x, x)
  | .mov x => some ({ op := 4, fn := 1, d := .dst x.regs, a := .src x.regs .int, ms := [6, 7] }, x)
  | .moviLo x => some ({ op := 4, fn := 2, d := .dst 1, ms := [0], imm := 0xFFFF }, x)
  | .moviHi x => some ({ op := 4, fn := 2, d := .rmw 1, ms := [1], imm := 0xFFFF }, x)
  | .moviS x => some ({ op := 4, fn := 2, d := .dst 1, ms := [2], imm := 0xFFFF }, x)
  | .movk x => some ({ op := 4, fn := 3, d := .dst 1, a := s1, imm := 0xFFFF }, x)
  | .movx x => some ({ op := 4, fn := 4, d := .dst 1, a := s1 }, x)
  | .movxs x => some ({ op := 4, fn := 5, a := s1, b := s1 }, x)
  | .lea x => some ({ op := 4, fn := 6, d := .dst 2, a := s2, b := s1, ms := [0, 1, 2, 3, 4], imm := 0xFFFF }, x)
  | .leaN x => some ({ op := 4, fn := 7, d := .dst 2, a := s2, b := s1, ms := [0, 1, 2, 3, 4], imm := 0xFFFF }, x)
  | .widf x => some ({ op := 4, fn := 8, d := .dst (if x.m = 1 then 2 else 1), ms := [0, 1], imm := 7 }, x)
  | .sysr x => some ({ op := 4, fn := 9, d := .dst 1, imm := 7 }, x)
  | .bra x => some ({ op := 0x20, fn := 1, b := .raw, c := .raw, imm := 0xFFFF }, x)
  | .brx x => some ({ op := 0x20, fn := 2, a := s2 }, x)
  | .call x => some ({ op := 0x20, fn := 3, b := .raw, c := .raw, imm := 0xFFFF }, x)
  | .callx x => some ({ op := 0x20, fn := 4, a := s2 }, x)
  | .ret x => some ({ op := 0x20, fn := 5 }, x)
  | .shfb x => some ({ op := 0x21, fn := 1, a := .pred, b := if x.m = 2 then .none else .pred, ms := [2, 3, 4], imm := 0xFFFF }, x)
  | .shfe x => some ({ op := 0x21, fn := 2 }, x)
  | .trap x => some ({ op := 0x22, fn := 1, imm := 0xFFFF }, x)
  | .tret x => some ({ op := 0x22, fn := 2, ms := [0] }, x)
  | .tretN x => some ({ op := 0x22, fn := 2, ms := [1] }, x)
  | .nop x => some ({ op := 0x22, fn := 3 }, x)
  | .yield x => some ({ op := 0x22, fn := 4 }, x)
  | .exit x => some ({ op := 0x22, fn := 5 }, x)
  | .pulse x => some ({ op := 0x22, fn := 6 }, x)
  | .safept x => some ({ op := 0x22, fn := 7 }, x)
  | .wspill x => some ({ op := 0x22, fn := 8 }, x)
  | .wfill x => some ({ op := 0x22, fn := 9 }, x)
  | .csrr x => some ({ op := 0x22, fn := 10, d := .dst (if x.m = 1 then 2 else 1), ms := [0, 1], imm := 0xFFF }, x)
  | .csrw x => some ({ op := 0x22, fn := 11, a := .src (if x.m = 1 then 2 else 1) .int, ms := [0, 1], imm := 0xFFF }, x)
  | .twnx x => some ({ op := 0x23, fn := 2, d := .pred, b := .dst 2 }, x)
  | .twlk x => some ({ op := 0x23, fn := 1, d := .dst 2, a := s2, ms := [0, 1] }, x)
  | .fadd x => some (rowF2 1 rounding, x)
  | .fsub x => some (rowF2 2 rounding, x)
  | .fmul x => some (rowF2 3 rounding, x)
  | .fma x => some ({ rowF2 4 rounding with c := f1 }, x)
  | .fmin x => some (rowF2 5 [0], x)
  | .fmax x => some (rowF2 6 [0], x)
  | .fminx x => some (rowF2 7 [0], x)
  | .fmaxx x => some (rowF2 8 [0], x)
  | .fabs x => some (rowF1 1 0 [0], x)
  | .fneg x => some (rowF1 2 0 [0], x)
  | .fclass x => some (rowF1 3 0 [0], x)
  | .frnd x => some (rowF1 4 0x80 rounding, x)
  | .frcp x => some (rowF1 5 0x80 rounding, x)
  | .fsqrt x => some (rowF1 6 0x80 rounding, x)
  | .frsq x => some (rowF1 7 0x80 [0], x)
  | .fexp2 x => some (rowF1 8 0x80 [0], x)
  | .flog2 x => some (rowF1 9 0x80 [0], x)
  | .fsin x => some (rowF1 10 0x80 [0], x)
  | .fcos x => some (rowF1 11 0x80 [0], x)
  | .fcmp x => some ({ op := 0x32, fn := 1, fnMask := 0x80, d := .pred, a := f1, b := f1, c := .raw }, x)
  | .cvt x => some ({ op := 0x33, fn := 0, fnMask := 0xFF,
                      d := if cvtWidth x.dstFmt < 32 then .rmw 1 else .dst (cvtRegs x.dstFmt),
                      a := .src (cvtRegs x.srcFmt) (cvtPoison x.srcFmt), ms := rounding, imm := 0x1F83 }, x)
  | .cvtBs x => some ({ op := 0x33, fn := 0, fnMask := 0xFF, d := if cvtWidth x.dstFmt < 32 then .rmw 1 else .dst 1,
                        a := .src 1 (cvtPoison x.srcFmt), c := s1, imm := 0x1F86 }, x)
  | .hadd2 x => some (rowH 1 false x, x)
  | .hsub2 x => some (rowH 2 false x, x)
  | .hmul2 x => some (rowH 3 false x, x)
  | .hfma2 x => some (rowH 4 true x, x)
  | .dot4 x => some ({ op := 0x35, fn := 1, fnMask := 0xC0, d := .dst 1, a := .src 1 (dotFmt x 0), b := .src 1 (dotFmt x 1),
                       c := if x.kind = 3 then f1 else s1, ms := if x.kind = 3 then rounding else [0], imm := if x.kind = 3 then 3 else 4 }, x)
  | .dot8 x => some ({ op := 0x35, fn := 2, fnMask := 0xC0, d := .dst 1, a := s1, b := s1,
                       c := if x.kind = 3 then f1 else s1, ms := if x.kind = 3 then rounding else [0], imm := if x.kind = 3 then 0 else 4 }, x)
  | .dot2h x =>
      let p := Role.src 1 (if x.kind = 1 then .bf16 else .f16)
      some ({ op := 0x35, fn := 3, fnMask := 0x40, d := .dst 1, a := p, b := p, c := f1, ms := rounding }, x)
  | .qsc x => some ({ op := 0x35, fn := 4, d := .dst 1, a := f1, b := s1, ms := rounding }, x)
  | .fkey x => some ({ op := 0x36, fn := 1, d := .dst 2, a := .src 1 .f16, b := s1, imm := 1 }, x)
  | .wnw x => some ({ op := 0x37, fn := 1, d := .pred, a := s1, b := .dst 1, c := s1, imm := 0xFFFF }, x)
  | .wnwCt x => some ({ op := 0x37, fn := 2, d := .pred, a := s1, b := .dst 1, imm := 0xFFFF }, x)
  | .titheS x => some ({ op := 0x37, fn := 3, d := .pred, a := s1, b := s1, c := s1 }, x)
  | .titheC x => some ({ op := 0x37, fn := 4, a := s1, b := s1 }, x)
  | .apxexp2 x => some ({ op := 0x37, fn := 5, d := .dst 1, a := f1 }, x)
  | .apxrcp x => some ({ op := 0x37, fn := 6, d := .dst 1, a := f1 }, x)
  | .ld x => some ({ op := 0x48, fn := 0, fnMask := 0x1F, d := .dst (sizeRegs x.sizeCode), a := s2,
                     ms := if x.fn.getLsbD 4 then anyScope else [0], imm := 0xFFFF }, x)
  | .st x => some ({ op := 0x49, fn := 0, fnMask := 0x27, a := s2, b := .src (sizeRegs x.sizeCode) .int,
                     ms := if x.fn.getLsbD 5 then anyScope else [0], imm := 0xFFFF }, x)
  | .lds x => some ({ op := 0x4A, fn := 1, fnMask := 0x40, d := .dst (sizeRegs x.m.toNat), a := s1, ms := [1, 2, 3, 4, 5], imm := 0xFFFF }, x)
  | .sts x => some ({ op := 0x4A, fn := 2, a := s1, b := .src (sizeRegs x.m.toNat) .int, ms := [1, 2, 3, 4, 5], imm := 0xFFFF }, x)
  | .ldt x => some ({ op := 0x4A, fn := 3, fnMask := 0x40, d := .dst 1, a := s1, b := s1, c := s1, imm := 0xF }, x)
  | .ldk x => some ({ op := 0x4A, fn := 4, d := .dst 1, a := s1, imm := 0xFFFF }, x)
  | .atomAdd x => some (rowAtom 1 false x, x)
  | .atomSub x => some (rowAtom 2 false x, x)
  | .atomMinN x => some (rowAtom 3 false x, x)
  | .atomMaxN x => some (rowAtom 4 false x, x)
  | .atomAnd x => some (rowAtom 5 false x, x)
  | .atomOr x => some (rowAtom 6 false x, x)
  | .atomXor x => some (rowAtom 7 false x, x)
  | .atomXchg x => some (rowAtom 8 false x, x)
  | .atomCas x => some (rowAtom 9 true x, x)
  | .atomInc x => some (rowAtom 10 false x, x)
  | .atomDec x => some (rowAtom 11 false x, x)
  | .atomMinS x => some (rowAtom 12 false x, x)
  | .atomMaxS x => some (rowAtom 13 false x, x)
  | .afadd x => some (rowAtomX 16 0xE0 1 x, x)
  | .amxf x => some (rowAtomX 17 0xC0 1 x, x)
  | .amxi x => some (rowAtomX 0x32 0xC0 2 x, x)
  | .red x => some ({ rowAtom (x.fn.toNat % 32) (x.fn.toNat % 32 == 9) x with d := .raw }, x)
  | .redFadd x => some ({ rowAtomX 16 0xE0 1 x with d := .raw }, x)
  | .redAmxf x => some ({ rowAtomX 17 0xC0 1 x with d := .raw }, x)
  | .redAmxi x => some ({ rowAtomX 0x32 0xC0 2 x with d := .raw }, x)
  | .fence x => some ({ op := 0x4C, fn := 1, a := s2, b := s1, ms := anyScope, imm := 7 }, x)
  | .pref x => some ({ op := 0x4C, fn := 2, fnMask := 0xC0, a := s2, ms := [0, 1], imm := 0xFFFF }, x)
  | .evict x => some ({ op := 0x4C, fn := 3, fnMask := 0xC0, a := s2, ms := [0, 1], imm := 0xFFFF }, x)
  | .bcpG2s x => some (rowCopy 1 0 s2 s1 3, x)
  | .bcpS2g x => some (rowCopy 1 1 s1 s2 3, x)
  | .bcpS2s x => some (rowCopy 1 2 s1 s1 3, x)
  | .bcps x => some (rowCopy 2 0 s1 s1 0x1C3, x)
  | .bcpq x => some ({ rowCopy 3 0 (if x.m = 0 then s2 else s1) .none 0x3F with ms := [0, 2] }, x)
  | .bcpm x => some ({ rowCopy 4 0 (if x.m = 0 then s2 else s1) .none 0x3FFF with ms := [0, 2] }, x)
  | .bcpUnpk4s x => some (rowCopy 5 0 s2 s1 3, x)
  | .bcpUnpk4f x => some (rowCopy 6 0 s2 s1 3, x)
  | .bcpUnpk8s x => some (rowCopy 7 0 s2 s1 3, x)
  | .bcpUnpk8f x => some (rowCopy 8 0 s2 s1 3, x)
  | .qdef x => some ({ op := 0x61, fn := 1, a := s1, b := s1, imm := 0xFF }, x)
  | .qpopE x => some ({ op := 0x61, fn := 2, d := .dst 1, imm := 0xF }, x)
  | .qpopF x => some ({ op := 0x61, fn := 3, d := .dst 1, imm := 0xF }, x)
  | .qpushF x => some ({ op := 0x61, fn := 4, a := s1, imm := 0xF }, x)
  | .qpushE x => some ({ op := 0x61, fn := 5, a := s1, imm := 0xF }, x)
  | .qstat x => some ({ op := 0x61, fn := 6, d := .dst 1, imm := 0xF }, x)
  | .send x => some ({ op := 0x62, fn := 1, a := s1, b := s2, imm := 0xFFFF }, x)
  | .recv x => some ({ op := 0x62, fn := 2, d := .dst 2, imm := 0xFFFF }, x)
  | .recvw x => some ({ op := 0x62, fn := 3, d := .dst 2, c := .dst 1, imm := 0xFFFF }, x)
  | .tcw x => some ({ op := 0x63, fn := 1, b := s2, imm := 3 }, x)
  | .tcwT x => some ({ op := 0x63, fn := 2, d := .pred, b := s2, imm := 3 }, x)
  | .tlw x => some ({ op := 0x63, fn := 3, a := s2, b := s2, ms := [1, 2, 3, 4], imm := 1 }, x)
  | .tlwT x => some ({ op := 0x63, fn := 4, d := .pred, a := s2, b := s2, ms := [1, 2, 3, 4] }, x)
  | .tladv x => some ({ op := 0x63, fn := 5, a := s2, b := s2, ms := [1, 2, 3, 4] }, x)
  | .bari x => some ({ op := 0x64, fn := 1, a := s1, imm := 0xF }, x)
  | .bara x => some ({ op := 0x64, fn := 2, d := .dst 1, imm := 0xF }, x)
  | .barw x => some ({ op := 0x64, fn := 3, d := .pred, a := s1, c := .dst 1, imm := 0xF }, x)
  | .coll x => some ({ op := 0x65, fn := 1, d := .stat, a := s2, imm := 3 }, x)
  | .cvdef x => some ({ op := 0x70, fn := 1, a := s1, imm := 7 }, x)
  | .mmaR x => some (rowMma 2 s4 0x787F, x)
  | .mmaS x => some (rowMma 3 .none 0x7FFF, x)
  | .mmaPR x => some (rowMma 4 s4 0x787F, x)
  | .mmaPS x => some (rowMma 5 .none 0x7FFF, x)
  | .mmaz x => some ({ op := 0x71, fn := 1, imm := 0xF }, x)
  | .maccr x => some ({ op := 0x71, fn := 2, d := .dst 4, a := s1, imm := 0xF }, x)
  | .maccw x => some ({ op := 0x71, fn := 3, a := s1, b := s4, imm := 0xF }, x)
  | .maccl x => some ({ op := 0x71, fn := 4, imm := 0xFFFF }, x)
  | .maccs x => some ({ op := 0x71, fn := 5, imm := 0xFFFF }, x)
  | .mscl x => some ({ op := 0x72, fn := 1, a := s1, ms := [0, 1], imm := 0xFF }, x)
  | .mqnt x => some ({ op := 0x72, fn := 2, a := s2, b := s1, ms := [0, 1, 2, 3, 4], imm := 0xFF }, x)
  | .mamax x => some ({ op := 0x72, fn := 3, a := s2, imm := 0xF }, x)
  | .mvtx x => some ({ op := 0x78, fn := 1, a := s1, b := s1, c := s4 }, x)
  | .mprim x => some ({ op := 0x78, fn := 2, a := s1, b := s1, c := s1 }, x)
  | .memit x => some ({ op := 0x78, fn := 3, a := s1, b := s1, c := s1, imm := 0x1FFC }, x)
  | .vamp x => some ({ op := 0x79, fn := 1, a := s1, b := s1, imm := 3 }, x)
  | .vwarpX x => some ({ op := 0x79, fn := 2, d := .dst 4, a := s1, b := s1, ms := [0], imm := 3 }, x)
  | .vwarpY x => some ({ op := 0x79, fn := 2, d := .dst 4, a := s1, b := s1, ms := [1], imm := 3 }, x)
  | .gzlt x => some ({ op := 0x79, fn := 3, d := .dst 4, a := s1, imm := 3 }, x)
  | .smpl x => some ({ op := 0x79, fn := 4, d := .dst 2, a := s1, b := s1, imm := 3 }, x)
  | .tileo x => some ({ op := 0x7A, fn := 1, d := .stat, a := s1, b := s1, imm := 0xF }, x)
  | .lens x => some ({ op := 0x7A, fn := 2, d := .stat, a := s1, b := s1, imm := 0xF }, x)
  | .serq x => some ({ op := 0x7A, fn := 3, d := .dst 1, a := s1, b := s1, imm := 3 }, x)
  | .texB x => some ({ op := 0x7B, fn := 1, d := .dst 4, a := s1, b := .src 2 .f32, ms := [0], imm := 0xF }, x)
  | .texT x => some ({ op := 0x7B, fn := 1, d := .dst 4, a := s1, b := .src 2 .f32, c := f1, ms := [1], imm := 0xF }, x)
  | .texA x => some ({ op := 0x7B, fn := 1, d := .dst 4, a := s1, b := .src 2 .f32, c := .src 2 .f32, ms := [2], imm := 0xF }, x)
  | .texg x => some ({ op := 0x7B, fn := 2, d := .dst 4, a := s1, b := .src 2 .f32, ms := [0, 1, 2, 3], imm := 0xF }, x)
  | .texq x => some ({ op := 0x7B, fn := 3, d := .dst 4, a := s1, b := s1, imm := 0xF }, x)
  | .ryl x => some ({ op := 0x7C, fn := 1, a := s1, imm := 1 }, x)
  | .rylV x => some ({ op := 0x7C, fn := 2, a := s1, b := s1, c := s1, imm := 7 }, x)
  | .ryt x => some ({ op := 0x7C, fn := 3, d := .dst 1, a := s1 }, x)
  | .ryrM x => some ({ op := 0x7C, fn := 4, d := .dst 1, a := s1, ms := [0] }, x)
  | .ryrH x => some ({ op := 0x7C, fn := 4, d := .dst 1, a := s1, b := f1, c := s1, ms := [1] }, x)
  | .rys x => some ({ op := 0x7C, fn := 5, d := .dst 4, a := s1 }, x)
  | .ryh x => some ({ op := 0x7C, fn := 6, d := .dst 4, a := s1 }, x)
  | .ryx x => some ({ op := 0x7C, fn := 7, a := s1 }, x)
  | _ => none

/-- R159: the selectors that name a 64-bit pair; a read-only pair is no destination (R158). -/
def pairSel (write : Bool) (s : Nat) : Bool :=
  (s < 48 && s % 2 == 0) || s == 48 || (!write && (s == 50 || s == 56))

/-- R158 to R160, R245: whether a selector field may hold `s` in this role. -/
def Role.ok (r : Role) (s : BitVec 6) : Bool :=
  match r with
  | .none => s == 0
  | .raw => true
  | .pred => s.toNat < 12
  | .stat => s.toNat < 32
  | .src 1 _ => s.toNat < 60
  | .src 2 _ => pairSel false s.toNat
  | .src _ _ => s.toNat < 32 && s.toNat % 4 == 0
  | .dst 1 | .rmw 1 => s.toNat < 49
  | .dst 2 | .rmw 2 => pairSel true s.toNat
  | .dst _ | .rmw _ => s.toNat < 32 && s.toNat % 4 == 0

/-- R170, R171: the width in registers of the control and status register at an address, if it is listed. -/
def csrRegs : Nat → Option Nat
  | 0x000 => some 1 | 0x010 => some 2 | 0x011 => some 1 | 0x020 => some 1 | 0x021 => some 1 | 0x022 => some 2
  | 0x023 => some 2 | 0x030 => some 1 | 0x031 => some 1 | 0x032 => some 1 | 0x040 => some 1 | 0x041 => some 2
  | 0x050 => some 1 | 0x051 => some 1 | 0x052 => some 2 | 0x060 => some 1 | _ => none

def csrOk (x : Fields) : Bool := csrRegs x.imm.toNat == some (x.m.toNat + 1)

/-- R187: the immediate form of BFX and BFI. -/
def bitFieldOk (x : Fields) : Bool :=
  !x.immForm || (1 ≤ x.immBits 10 5 && x.immBits 10 5 ≤ 32 && x.immBits 4 0 + x.immBits 10 5 ≤ 32)

/-- R231: exactly one side is FP32 and the other a block-scaled element format. -/
def blockFmt (c : Nat) : Bool := c == 3 || c == 4 || c == 5 || c == 6 || c == 14

/-- R229: element numbers below the elements of a register. -/
def cvtElems (code : Nat) : Nat := if cvtWidth code = 0 then 0 else max 1 (32 / cvtWidth code)

/-- The checks of a word beyond its row: what the instruction's own rule says makes the word illegal. -/
def extraOk : Instr → Bool
  | .bfx x | .bfi x => bitFieldOk x
  | .icmp x => x.c.toNat ≤ 5
  | .widf x => x.imm.toNat ≤ 5
  | .shfb x => x.g == 15 && !x.gn && decide (1 + 3 * x.m.toNat ≤ x.imm.toNat)
  | .shfe x => !x.gn
  | .csrr x | .csrw x => csrOk x
  | .fcmp x => x.c.toNat ≤ 7
  | .cvt x => cvtWidth x.dstFmt != 0 && cvtWidth x.srcFmt != 0 &&
      x.immBits 12 10 < cvtElems x.dstFmt && x.immBits 9 7 < cvtElems x.srcFmt &&
      (!x.imm.getLsbD 1 || x.dstFmt == 0 || x.srcFmt == 0) && (!x.imm.getLsbD 0 || x.dstFmt == 4) && !x.imm.getLsbD 2
  | .cvtBs x => ((x.dstFmt == 0 && blockFmt x.srcFmt) || (x.srcFmt == 0 && blockFmt x.dstFmt)) &&
      x.immBits 12 10 < cvtElems x.dstFmt && x.immBits 9 7 < cvtElems x.srcFmt && x.imm.getLsbD 2
  | .wnw x | .wnwCt x => x.imm != 0
  | .ld x => 1 ≤ x.sizeCode && x.sizeCode ≤ 5 && (!x.fn.getLsbD 3 || x.sizeCode ≤ 2)
  | .st x => 1 ≤ x.sizeCode && x.sizeCode ≤ 5
  | .lds x => !x.sat || x.m.toNat ≤ 2
  | .atomAdd x | .atomSub x | .atomMinN x | .atomMaxN x | .atomAnd x | .atomOr x | .atomXor x | .atomXchg x
  | .atomCas x | .atomInc x | .atomDec x | .atomMinS x | .atomMaxS x | .afadd x | .amxf x | .amxi x => x.d != 48
  | .red x => x.d == 48 && (x.order == 0 || x.order == 2) && 1 ≤ x.fn.toNat % 32 && x.fn.toNat % 32 ≤ 13
  | .redFadd x | .redAmxf x | .redAmxi x => x.d == 48 && (x.order == 0 || x.order == 2)
  | .fence x => x.imm != 0
  | .send x => x.imm != 0xFFFF
  | .mmaS x | .mmaPS x => x.immBits 10 7 ≤ 13
  | .mscl x => x.immBits 3 0 != x.immBits 7 4
  | .mqnt x | .mamax x => x.immBits 0 0 == 0
  | .memit x => 4 ≤ x.imm.toNat && x.imm.toNat ≤ 4096
  | .texB x | .texT x | .texA x | .texg x | .texq x => x.imm.toNat % 2 == 0 && x.imm.toNat ≤ 12
  | _ => true

/-- R157 to R160, R168: a format F word's fields fit its row. -/
def Row.ok (r : Row) (x : Fields) : Bool :=
  x.fn.toNat &&& (0xFF - r.fnMask) == r.fn && r.d.ok x.d && r.a.ok x.a && r.b.ok x.b && r.c.ok x.c &&
  r.ms.contains x.m.toNat && x.imm.toNat &&& (0xFFFF - r.imm) == 0

/-- The window registers that the two slots read, each counted once for each read (R165). `ren` renames a selector. -/
def pairReads (p q : Slot) (ren : Nat → Nat) : List Nat :=
  let r (z : Slot) := (if z.readsD then [ren z.d.toNat] else []) ++ (if z.readsA then [ren z.a] else [])
  r p ++ r q

/-- R165: no bank is read more than twice, and two written registers differ. -/
def pairRegsOk (p q : Slot) (ren : Nat → Nat) : Bool :=
  !(p.writes && q.writes && ren p.d.toNat == ren q.d.toNat) &&
  [0, 1, 2, 3].all fun bank => ((pairReads p q ren).filter fun n => n % 4 == bank).length ≤ 2

/-- R162 to R165: a format P word. Inside a sheaf the register rules apply to renamed numbers and are tested lane by lane. -/
def pairOk (p q : Slot) : Bool := p.ok && q.ok && !(p.isMem && q.isMem)

/-- R168: the encoding checks that do not depend on where the word executes. -/
def legalWord (i : Instr) : Bool :=
  match rowOf i with
  | some (r, x) => r.ok x && !(x.gn && x.g == 15) && extraOk i
  | none => match i with
    | .pairWord p q => pairOk p q
    | _ => false

/-- Whether a constructor is a 64-bit instruction word; the others are events, commands and requests. -/
def isWord (i : Instr) : Bool :=
  match rowOf i with
  | some _ => true
  | none => match i with
    | .pairWord _ _ => true
    | _ => false

end Sys2Proof.Machine
end

