-- ==== Sys2Proof/WellFormed.lean ====
section
/-!
DEFINITION. Which instruction words the encoding admits (R155 to R168). The checks themselves are `Machine.legalWord`.
-/
namespace Sys2Proof

/-- The instruction is a word of the instruction set and breaks none of the encoding rules of R168 that do not depend on
where it executes. -/
def wellFormed (i : Instr) : Bool := Machine.legalWord i

end Sys2Proof
end

