-- ==== Sys2Proof/Decode.lean ====
section
/-!
DEFINITION. Decoding and encoding: the 64-bit instruction word (R155, R162, R167, R168), the 64-byte command record by its
opcode (R387, R388), and the management request by its operation number (R467). Each decoder is total and answers `none`
for what the tables do not list.
-/
namespace Sys2Proof

/-- R155: the fields of a format F word. -/
def fieldsOf (w : BitVec 64) : Fields where
  g := w.extractLsb' 52 4
  gn := w.getLsbD 51
  d := w.extractLsb' 45 6
  a := w.extractLsb' 39 6
  b := w.extractLsb' 33 6
  c := w.extractLsb' 27 6
  fn := w.extractLsb' 19 8
  m := w.extractLsb' 16 3
  imm := w.extractLsb' 0 16

def opOf (w : BitVec 64) : BitVec 7 := w.extractLsb' 56 7

/-- R162: one slot of a format P word. -/
def slotOf (z : BitVec 31) : Slot where
  op := z.extractLsb' 25 6
  g := z.extractLsb' 21 4
  d := z.extractLsb' 16 5
  i := z.getLsbD 15
  src := z.extractLsb' 0 15

/-- Major 0x00: the constructor that the operation number names. -/
def ctor00 (x : Fields) : Option (Fields → Instr) :=
  match x.fn.toNat % 64 with
  | 1 => some .iadd
  | 2 => some .isub
  | 3 => some .iaddc
  | 4 => some .ineg
  | 5 => some .iabs
  | 6 => some .imin
  | 7 => some .imax
  | 8 => some .imul
  | 9 => some .imulh
  | 10 => some .imad
  | 11 => some .imadw
  | _ => none

/-- Major 0x01: the constructor that the operation number names. -/
def ctor01 (x : Fields) : Option (Fields → Instr) :=
  match x.fn.toNat % 64 with
  | 1 => some .and
  | 2 => some .or
  | 3 => some .xor
  | 4 => some .andn
  | 5 => some .not
  | 6 => some .shl
  | 7 => some .shr
  | 8 => some .sar
  | 9 => some .rot
  | _ => none

/-- Major 0x02: the constructor that the operation number names. -/
def ctor02 (x : Fields) : Option (Fields → Instr) :=
  match x.fn.toNat % 64 with
  | 1 => some .bfx
  | 2 => some .bfi
  | 3 => some .popc
  | 4 => some .clz
  | 5 => some .brev
  | 6 => some .prmb
  | _ => none

/-- Major 0x03: the constructor that the operation number names. -/
def ctor03 (x : Fields) : Option (Fields → Instr) :=
  match x.fn.toNat % 64 with
  | 1 => some .icmp
  | 2 => some .pset
  | 3 => some .pmovR
  | 4 => some .pmovP
  | 5 => some .sel
  | _ => none

/-- Major 0x04: the constructor that the operation number names. -/
def ctor04 (x : Fields) : Option (Fields → Instr) :=
  match x.fn.toNat % 64 with
  | 1 => some .mov
  | 2 => match x.m.toNat with | 0 => some .moviLo | 1 => some .moviHi | 2 => some .moviS | _ => none
  | 3 => some .movk
  | 4 => some .movx
  | 5 => some .movxs
  | 6 => some .lea
  | 7 => some .leaN
  | 8 => some .widf
  | 9 => some .sysr
  | _ => none

/-- Major 0x20: the constructor that the operation number names. -/
def ctor20 (x : Fields) : Option (Fields → Instr) :=
  match x.fn.toNat % 64 with
  | 1 => some .bra
  | 2 => some .brx
  | 3 => some .call
  | 4 => some .callx
  | 5 => some .ret
  | _ => none

/-- Major 0x21: the constructor that the operation number names. -/
def ctor21 (x : Fields) : Option (Fields → Instr) :=
  match x.fn.toNat % 64 with
  | 1 => some .shfb
  | 2 => some .shfe
  | _ => none

/-- Major 0x22: the constructor that the operation number names. -/
def ctor22 (x : Fields) : Option (Fields → Instr) :=
  match x.fn.toNat % 64 with
  | 1 => some .trap
  | 2 => match x.m.toNat with | 0 => some .tret | 1 => some .tretN | _ => none
  | 3 => some .nop
  | 4 => some .yield
  | 5 => some .exit
  | 6 => some .pulse
  | 7 => some .safept
  | 8 => some .wspill
  | 9 => some .wfill
  | 10 => some .csrr
  | 11 => some .csrw
  | _ => none

/-- Major 0x23: the constructor that the operation number names. -/
def ctor23 (x : Fields) : Option (Fields → Instr) :=
  match x.fn.toNat % 64 with
  | 1 => some .twlk
  | 2 => some .twnx
  | _ => none

/-- Major 0x30: the constructor that the operation number names. -/
def ctor30 (x : Fields) : Option (Fields → Instr) :=
  match x.fn.toNat % 64 with
  | 1 => some .fadd
  | 2 => some .fsub
  | 3 => some .fmul
  | 4 => some .fma
  | 5 => some .fmin
  | 6 => some .fmax
  | 7 => some .fminx
  | 8 => some .fmaxx
  | _ => none

/-- Major 0x31: the constructor that the operation number names. -/
def ctor31 (x : Fields) : Option (Fields → Instr) :=
  match x.fn.toNat % 64 with
  | 1 => some .fabs
  | 2 => some .fneg
  | 3 => some .fclass
  | 4 => some .frnd
  | 5 => some .frcp
  | 6 => some .fsqrt
  | 7 => some .frsq
  | 8 => some .fexp2
  | 9 => some .flog2
  | 10 => some .fsin
  | 11 => some .fcos
  | _ => none

/-- Major 0x32: the constructor that the operation number names. -/
def ctor32 (x : Fields) : Option (Fields → Instr) :=
  match x.fn.toNat % 64 with
  | 1 => some .fcmp
  | _ => none

/-- Major 0x34: the constructor that the operation number names. -/
def ctor34 (x : Fields) : Option (Fields → Instr) :=
  match x.fn.toNat % 64 with
  | 1 => some .hadd2
  | 2 => some .hsub2
  | 3 => some .hmul2
  | 4 => some .hfma2
  | _ => none

/-- Major 0x35: the constructor that the operation number names. -/
def ctor35 (x : Fields) : Option (Fields → Instr) :=
  match x.fn.toNat % 64 with
  | 1 => some .dot4
  | 2 => some .dot8
  | 3 => some .dot2h
  | 4 => some .qsc
  | _ => none

/-- Major 0x36: the constructor that the operation number names. -/
def ctor36 (x : Fields) : Option (Fields → Instr) :=
  match x.fn.toNat % 64 with
  | 1 => some .fkey
  | _ => none

/-- Major 0x37: the constructor that the operation number names. -/
def ctor37 (x : Fields) : Option (Fields → Instr) :=
  match x.fn.toNat % 64 with
  | 1 => some .wnw
  | 2 => some .wnwCt
  | 3 => some .titheS
  | 4 => some .titheC
  | 5 => some .apxexp2
  | 6 => some .apxrcp
  | _ => none

/-- Major 0x4a: the constructor that the operation number names. -/
def ctor4A (x : Fields) : Option (Fields → Instr) :=
  match x.fn.toNat % 64 with
  | 1 => some .lds
  | 2 => some .sts
  | 3 => some .ldt
  | 4 => some .ldk
  | _ => none

/-- Major 0x4c: the constructor that the operation number names. -/
def ctor4C (x : Fields) : Option (Fields → Instr) :=
  match x.fn.toNat % 64 with
  | 1 => some .fence
  | 2 => some .pref
  | 3 => some .evict
  | _ => none

/-- Major 0x60: the constructor that the operation number names. -/
def ctor60 (x : Fields) : Option (Fields → Instr) :=
  match x.fn.toNat % 64 with
  | 1 => match x.m.toNat with | 0 => some .bcpG2s | 1 => some .bcpS2g | 2 => some .bcpS2s | _ => none
  | 2 => some .bcps
  | 3 => some .bcpq
  | 4 => some .bcpm
  | 5 => some .bcpUnpk4s
  | 6 => some .bcpUnpk4f
  | 7 => some .bcpUnpk8s
  | 8 => some .bcpUnpk8f
  | _ => none

/-- Major 0x61: the constructor that the operation number names. -/
def ctor61 (x : Fields) : Option (Fields → Instr) :=
  match x.fn.toNat % 64 with
  | 1 => some .qdef
  | 2 => some .qpopE
  | 3 => some .qpopF
  | 4 => some .qpushF
  | 5 => some .qpushE
  | 6 => some .qstat
  | _ => none

/-- Major 0x62: the constructor that the operation number names. -/
def ctor62 (x : Fields) : Option (Fields → Instr) :=
  match x.fn.toNat % 64 with
  | 1 => some .send
  | 2 => some .recv
  | 3 => some .recvw
  | _ => none

/-- Major 0x63: the constructor that the operation number names. -/
def ctor63 (x : Fields) : Option (Fields → Instr) :=
  match x.fn.toNat % 64 with
  | 1 => some .tcw
  | 2 => some .tcwT
  | 3 => some .tlw
  | 4 => some .tlwT
  | 5 => some .tladv
  | _ => none

/-- Major 0x64: the constructor that the operation number names. -/
def ctor64 (x : Fields) : Option (Fields → Instr) :=
  match x.fn.toNat % 64 with
  | 1 => some .bari
  | 2 => some .bara
  | 3 => some .barw
  | _ => none

/-- Major 0x65: the constructor that the operation number names. -/
def ctor65 (x : Fields) : Option (Fields → Instr) :=
  match x.fn.toNat % 64 with
  | 1 => some .coll
  | _ => none

/-- Major 0x70: the constructor that the operation number names. -/
def ctor70 (x : Fields) : Option (Fields → Instr) :=
  match x.fn.toNat % 64 with
  | 1 => some .cvdef
  | 2 => some .mmaR
  | 3 => some .mmaS
  | 4 => some .mmaPR
  | 5 => some .mmaPS
  | _ => none

/-- Major 0x71: the constructor that the operation number names. -/
def ctor71 (x : Fields) : Option (Fields → Instr) :=
  match x.fn.toNat % 64 with
  | 1 => some .mmaz
  | 2 => some .maccr
  | 3 => some .maccw
  | 4 => some .maccl
  | 5 => some .maccs
  | _ => none

/-- Major 0x72: the constructor that the operation number names. -/
def ctor72 (x : Fields) : Option (Fields → Instr) :=
  match x.fn.toNat % 64 with
  | 1 => some .mscl
  | 2 => some .mqnt
  | 3 => some .mamax
  | _ => none

/-- Major 0x78: the constructor that the operation number names. -/
def ctor78 (x : Fields) : Option (Fields → Instr) :=
  match x.fn.toNat % 64 with
  | 1 => some .mvtx
  | 2 => some .mprim
  | 3 => some .memit
  | _ => none

/-- Major 0x79: the constructor that the operation number names. -/
def ctor79 (x : Fields) : Option (Fields → Instr) :=
  match x.fn.toNat % 64 with
  | 1 => some .vamp
  | 2 => match x.m.toNat with | 0 => some .vwarpX | 1 => some .vwarpY | _ => none
  | 3 => some .gzlt
  | 4 => some .smpl
  | _ => none

/-- Major 0x7a: the constructor that the operation number names. -/
def ctor7A (x : Fields) : Option (Fields → Instr) :=
  match x.fn.toNat % 64 with
  | 1 => some .tileo
  | 2 => some .lens
  | 3 => some .serq
  | _ => none

/-- Major 0x7b: the constructor that the operation number names. -/
def ctor7B (x : Fields) : Option (Fields → Instr) :=
  match x.fn.toNat % 64 with
  | 1 => match x.m.toNat with | 0 => some .texB | 1 => some .texT | 2 => some .texA | _ => none
  | 2 => some .texg
  | 3 => some .texq
  | _ => none

/-- Major 0x7c: the constructor that the operation number names. -/
def ctor7C (x : Fields) : Option (Fields → Instr) :=
  match x.fn.toNat % 64 with
  | 1 => some .ryl
  | 2 => some .rylV
  | 3 => some .ryt
  | 4 => match x.m.toNat with | 0 => some .ryrM | 1 => some .ryrH | _ => none
  | 5 => some .rys
  | 6 => some .ryh
  | 7 => some .ryx
  | _ => none

/-- Major 0x4B (R253 to R256): a destination of zr names the forms that return nothing. -/
def ctor4B (x : Fields) : Option (Fields → Instr) :=
  if x.d = 48 then
    match x.fn.toNat % 32 with
    | 16 => some .redFadd
    | 17 => some .redAmxf
    | 18 => some .redAmxi
    | _ => some .red
  else
    match x.fn.toNat % 32 with
    | 1 => some .atomAdd
    | 2 => some .atomSub
    | 3 => some .atomMinN
    | 4 => some .atomMaxN
    | 5 => some .atomAnd
    | 6 => some .atomOr
    | 7 => some .atomXor
    | 8 => some .atomXchg
    | 9 => some .atomCas
    | 10 => some .atomInc
    | 11 => some .atomDec
    | 12 => some .atomMinS
    | 13 => some .atomMaxS
    | 16 => some .afadd
    | 17 => some .amxf
    | 18 => some .amxi
    | _ => none

/-- The constructor that a format F word names, by its major opcode (R167); `none` for an unassigned one. -/
def ctorOf (op : Nat) (x : Fields) : Option (Fields → Instr) :=
  match op with
  | 0x00 => ctor00 x
  | 0x01 => ctor01 x
  | 0x02 => ctor02 x
  | 0x03 => ctor03 x
  | 0x04 => ctor04 x
  | 0x20 => ctor20 x
  | 0x21 => ctor21 x
  | 0x22 => ctor22 x
  | 0x23 => ctor23 x
  | 0x30 => ctor30 x
  | 0x31 => ctor31 x
  | 0x32 => ctor32 x
  | 0x34 => ctor34 x
  | 0x35 => ctor35 x
  | 0x36 => ctor36 x
  | 0x37 => ctor37 x
  | 0x4a => ctor4A x
  | 0x4c => ctor4C x
  | 0x60 => ctor60 x
  | 0x61 => ctor61 x
  | 0x62 => ctor62 x
  | 0x63 => ctor63 x
  | 0x64 => ctor64 x
  | 0x65 => ctor65 x
  | 0x70 => ctor70 x
  | 0x71 => ctor71 x
  | 0x72 => ctor72 x
  | 0x78 => ctor78 x
  | 0x79 => ctor79 x
  | 0x7a => ctor7A x
  | 0x7b => ctor7B x
  | 0x7c => ctor7C x
  | 0x33 => some (if x.imm.getLsbD 2 then .cvtBs else .cvt)
  | 0x48 => some .ld
  | 0x49 => some .st
  | 0x4B => ctor4B x
  | _ => none

/-- The instruction before its encoding checks. -/
def rawDecode (w : BitVec 64) : Option Instr :=
  if w.getLsbD 63 then
    if w.getLsbD 0 then none else some (.pairWord (slotOf (w.extractLsb' 32 31)) (slotOf (w.extractLsb' 1 31)))
  else (ctorOf (opOf w).toNat (fieldsOf w)).map fun k => k (fieldsOf w)

/-- R168: the instruction of a word, or `none` for an illegal word. The guard rules that depend on whether the word stands
inside a sheaf are judged where the word executes. -/
def decodeWord (w : BitVec 64) : Option Instr :=
  match rawDecode w with
  | some i => if wellFormed i then some i else none
  | none => none

/-- The word of eight bytes, the first byte lowest (R153); `none` unless there are eight. -/
def decodeBytes (bs : List Byte) : Option Instr :=
  match bs with
  | [b0, b1, b2, b3, b4, b5, b6, b7] => decodeWord (b7 ++ b6 ++ b5 ++ b4 ++ b3 ++ b2 ++ b1 ++ b0)
  | _ => none

/-- Commands by opcode (R388); `none` for a reserved opcode. -/
def decodeRecord (bytes : List Byte) : Option Instr :=
  match (bytes.headD 0).toNat with
  | 0x01 => some .launch
  | 0x02 => some .relay
  | 0x03 => some .ctxload
  | 0x04 => some .ctxupd
  | 0x05 => some .ctxsave
  | 0x06 => some .ctxres
  | 0x07 => some .ctxdisc
  | 0x08 => some .tlbinv
  | 0x09 => some .pipe
  | 0x0A => some .metadataExport
  | 0x0B => some .metadataImport
  | 0x0C => some .viewSetBind
  | 0x0D => some .viewSetUnbind
  | 0x0E => some .collective
  | 0x0F => some .viewSetStatus
  | _ => none

/-- Management operations by number (R467); `none` for the numbers that the table does not list. -/
def decodeManagement (payload : List Byte) : Option Instr :=
  match (payload.headD 0).toNat with
  | 0x01 => some .claim
  | 0x02 => some .windowWrite
  | 0x03 => some .commandQueueSetup
  | 0x04 => some .faultQueueSetup
  | 0x05 => some .nodeRange
  | 0x06 => some .contextRange
  | 0x07 => some .destinations
  | 0x08 => some .moduleNumber
  | 0x09 => some .peerRoute
  | 0x0A => some .peerPortRetrain
  | 0x0B => some .clearCounters
  | 0x0C => some .moduleReset
  | _ => none

/-- The byte of weight 256^k in w. -/
def byteOfNat (w k : Nat) : Byte := BitVec.ofNat 8 (w / 256 ^ k)

/-- The instruction or command whose bits are w: 64-bit words, and 64-byte command records. -/
def decodeTableWord (nbits w : Nat) : Option Instr :=
  if nbits ≤ 64 then decodeWord (BitVec.ofNat 64 w)
  else decodeRecord ((List.range 64).map (byteOfNat w))

/-- R155: the word of an operation and its fields. -/
def encodeF (op : Nat) (x : Fields) : BitVec 64 :=
  0#1 ++ BitVec.ofNat 7 op ++ x.g ++ BitVec.ofBool x.gn ++ x.d ++ x.a ++ x.b ++ x.c ++ x.fn ++ x.m ++ x.imm

/-- R162: the bits of a slot. -/
def encodeSlot (z : Slot) : BitVec 31 := z.op ++ z.g ++ z.d ++ BitVec.ofBool z.i ++ z.src

/-- The word of an instruction; `none` for a step that is no instruction word. -/
def encode (i : Instr) : Option (BitVec 64) :=
  match Machine.rowOf i with
  | some (r, x) => some (encodeF r.op x)
  | none => match i with
    | .pairWord p q => some (1#1 ++ encodeSlot p ++ encodeSlot q ++ 0#1)
    | _ => none

end Sys2Proof
end

