-- ==== Sys2Proof/Machine/Store.lean ====
section
/-!
DEFINITION. Sparse maps as lists with strictly rising indices: lookup, insertion, removal, and the forms with a default
value, which list no entry equal to the default.
-/
namespace Sys2Proof.Store

/-- The value listed at k. -/
def get {α : Type} : Store α → Nat → Option α
  | [], _ => none
  | (i, v) :: m, k => if k < i then none else if k = i then some v else get m k

/-- The map with v at k. -/
def put {α : Type} : Store α → Nat → α → Store α
  | [], k, v => [(k, v)]
  | (i, u) :: m, k, v => if k < i then (k, v) :: (i, u) :: m else if k = i then (k, v) :: m else (i, u) :: put m k v

/-- The map without k. -/
def del {α : Type} : Store α → Nat → Store α
  | [], _ => []
  | (i, u) :: m, k => if k < i then (i, u) :: m else if k = i then m else (i, u) :: del m k

/-- The value at k, or the default. -/
def rd {α : Type} (d : α) (m : Store α) (k : Nat) : α := (get m k).getD d

/-- Write v at k; writing the default removes the entry. -/
def wr {α : Type} [DecidableEq α] (d : α) (m : Store α) (k : Nat) (v : α) : Store α :=
  if v = d then del m k else put m k v

/-- Apply f to the value at k, if there is one. -/
def upd {α : Type} (m : Store α) (k : Nat) (f : α → α) : Store α :=
  match get m k with
  | some v => put m k (f v)
  | none => m

def vals {α : Type} (m : Store α) : List α := m.map Prod.snd
def keys {α : Type} (m : Store α) : List Nat := m.map Prod.fst

/-- The indices rise strictly, all at or above lo. -/
def rising {α : Type} (lo : Nat) : Store α → Bool
  | [] => true
  | (i, _) :: m => decide (lo ≤ i) && rising (i + 1) m

/-- The first index at or above lo that is not listed. -/
def free {α : Type} (lo : Nat) : Store α → Nat
  | [] => lo
  | (i, _) :: m => if i < lo then free lo m else if i = lo then free (lo + 1) m else lo

/-- Remove the indices lo to lo + n - 1. -/
def clear {α : Type} (m : Store α) (lo n : Nat) : Store α := m.filter fun e => e.1 < lo || lo + n ≤ e.1

end Sys2Proof.Store
end

