-- ==== Sys2Proof/Machine/Bits.lean ====
section
/-!
DEFINITION. Byte order and bit fields: little-endian numbers (R2), fields of numbers, sign extension.
-/
namespace Sys2Proof.Machine

/-- The number of a little-endian byte string (R2). -/
def ofBytes : List Byte → Nat
  | [] => 0
  | b :: bs => b.toNat + 256 * ofBytes bs

/-- The n low bytes of v, the least significant first (R2). -/
def toBytes : Nat → Nat → List Byte
  | 0, _ => []
  | n + 1, v => BitVec.ofNat 8 v :: toBytes n (v / 256)

/-- bits(v, hi, lo) as R4 writes it. -/
def bits (v hi lo : Nat) : Nat := (v / 2 ^ lo) % 2 ^ (hi + 1 - lo)
def bit (v n : Nat) : Bool := v.testBit n

/-- sext(v, n): the n low bits of v as a two's complement number. -/
def sext (v n : Nat) : Int :=
  let u := v % 2 ^ n
  if u < 2 ^ (n - 1) then (u : Int) else (u : Int) - (2 ^ n : Nat)

/-- r mod 2^n of an integer. -/
def modPow (r : Int) (n : Nat) : Nat := (r % ((2 ^ n : Nat) : Int)).toNat

def word (v : Nat) : Word := BitVec.ofNat 32 v
def dword (v : Nat) : DWord := BitVec.ofNat 64 v
/-- A 32-bit field of a byte string at byte offset o, and other sizes. -/
def field (bs : List Byte) (o n : Nat) : Nat := ofBytes ((bs.drop o).take n)
/-- The bytes lo to hi - 1 are all zero. -/
def zeros (bs : List Byte) (lo hi : Nat) : Bool := ((bs.drop lo).take (hi - lo)).all fun b => b == 0

def ceilDiv (a b : Nat) : Nat := (a + b - 1) / b
def alignUp (a b : Nat) : Nat := ceilDiv a b * b
def boolNat (b : Bool) : Nat := if b then 1 else 0

/-- Saturating 32-bit count (R426). -/
def satAdd (w : Word) (n : Nat) : Word := word (min (w.toNat + n) 0xFFFFFFFF)

/-- Insert into an ascending list, once. -/
def insertNat (n : Nat) : List Nat → List Nat
  | [] => [n]
  | k :: l => if n < k then n :: k :: l else if n = k then k :: l else k :: insertNat n l

/-- Replace the element at position k. -/
def setAt {α : Type} (l : List α) (k : Nat) (v : α) : List α := l.set k v

end Sys2Proof.Machine
end

