-- ==== Sys2Proof/Machine/Flags.lean ====
section
/-!
DEFINITION. Floating-point formats, rounding and the IEEE flags (R134 to R140), exact sums and products, and the
operations that the memory, matrix and floating-point families share. Flags are numbers as in FFLAGS: NV 16, DZ 8, OF 4,
UF 2, NX 1.
-/
namespace Sys2Proof.Machine

/-- R134: a format: fraction bits, exponent bits, bias, the largest finite value as maxM * 2^maxX, its default NaN (R135),
and whether it has infinities. -/
structure Fmt where
  f : Nat
  e : Nat
  bias : Nat
  maxM : Nat
  maxX : Int
  qnan : Nat
  inf : Bool
  deriving DecidableEq, Repr

def fp32 : Fmt := { f := 23, e := 8, bias := 127, maxM := 0xFFFFFF, maxX := 104, qnan := 0x7FC00000, inf := true }
def fp16 : Fmt := { f := 10, e := 5, bias := 15, maxM := 0x7FF, maxX := 5, qnan := 0x7E00, inf := true }
def bf16 : Fmt := { f := 7, e := 8, bias := 127, maxM := 0xFF, maxX := 120, qnan := 0x7FC0, inf := true }
def e4m3 : Fmt := { f := 3, e := 4, bias := 7, maxM := 14, maxX := 5, qnan := 0x7F, inf := false }
def e5m2 : Fmt := { f := 2, e := 5, bias := 15, maxM := 7, maxX := 13, qnan := 0x7E, inf := true }
def e2m1 : Fmt := { f := 1, e := 2, bias := 1, maxM := 3, maxX := 1, qnan := 0, inf := false }

def Fmt.width (t : Fmt) : Nat := 1 + t.e + t.f
def Fmt.signBit (t : Fmt) : Nat := 2 ^ (t.e + t.f)
def Fmt.infBits (t : Fmt) : Nat := (2 ^ t.e - 1) * 2 ^ t.f
/-- Bits of the largest finite value. -/
def Fmt.maxBits (t : Fmt) : Nat :=
  if t.inf then t.infBits - 1 else if t.e = 4 then 0x7E else 2 ^ (t.e + t.f) - 1

/-- The value of an encoding: NaN, infinity, or (-1)^neg * m * 2^x. -/
inductive FP where
  | nan (sig : Bool)
  | inf (neg : Bool)
  | fin (neg : Bool) (m : Nat) (x : Int)
  deriving DecidableEq, Repr

def FP.isNan : FP → Bool
  | .nan _ => true
  | _ => false
def FP.isSig : FP → Bool
  | .nan s => s
  | _ => false
def FP.isZero : FP → Bool
  | .fin _ m _ => m == 0
  | _ => false
def FP.isInf : FP → Bool
  | .inf _ => true
  | _ => false
/-- The sign of a value; a NaN counts as positive. -/
def FP.neg : FP → Bool
  | .nan _ => false
  | .inf n => n
  | .fin n _ _ => n

/-- R134: read an encoding. -/
def Fmt.decode (t : Fmt) (b : Nat) : FP :=
  let neg := b.testBit (t.e + t.f)
  let ex := bits b (t.e + t.f - 1) t.f
  let fr := b % 2 ^ t.f
  if t.inf && ex == 2 ^ t.e - 1 then
    if fr = 0 then .inf neg else .nan (!fr.testBit (t.f - 1))
  else if t.e = 4 && ex == 15 && fr == 7 then .nan false
  else if ex = 0 then .fin neg fr (1 - (t.bias : Int) - t.f)
  else .fin neg (2 ^ t.f + fr) ((ex : Int) - t.bias - t.f)

/-- Number of bits of n. -/
def bitLen (n : Nat) : Nat := if n = 0 then 0 else n.log2 + 1

/-- R138: the rounding modes. -/
inductive RMode where
  | rne | rz | ru | rd | rna
  deriving DecidableEq, Repr

def RMode.ofM : Nat → RMode
  | 0 => .rne
  | 1 => .rz
  | 2 => .ru
  | 3 => .rd
  | _ => .rna

/-- Whether a magnitude q rounds up: `rem` of `den` is what lies below q, `sticky` adds something positive below that. -/
def roundsUp (mode : RMode) (neg odd : Bool) (rem den : Nat) (sticky : Bool) : Bool :=
  let exact := rem == 0 && !sticky
  let above := decide (den < 2 * rem) || (decide (den = 2 * rem) && sticky)
  let half := decide (den = 2 * rem) && !sticky
  match mode with
  | .rne => above || (half && odd)
  | .rz => false
  | .ru => !neg && !exact
  | .rd => neg && !exact
  | .rna => above || half

/-- Round m * 2^x (a little more under `sticky`) to a multiple of 2^l: the quotient and whether it is inexact. -/
def roundAt (mode : RMode) (neg : Bool) (m : Nat) (x l : Int) (sticky : Bool) : Nat × Bool :=
  if l ≤ x then
    let q := m * 2 ^ (x - l).toNat
    (if roundsUp mode neg (q % 2 == 1) 0 1 sticky then q + 1 else q, sticky)
  else
    let d := 2 ^ (l - x).toNat
    let q := m / d
    (if roundsUp mode neg (q % 2 == 1) (m % d) d sticky then q + 1 else q, m % d != 0 || sticky)

/-- R139: the encoding of an overflow. -/
def Fmt.overflow (t : Fmt) (mode : RMode) (neg : Bool) : Nat :=
  let big := if t.inf then
      match mode with
      | .rne | .rna => t.infBits
      | .rz => t.maxBits
      | .ru => if neg then t.maxBits else t.infBits
      | .rd => if neg then t.infBits else t.maxBits
    else t.maxBits
  big + (if neg then t.signBit else 0)

/-- R138, R139, R140: round the magnitude m * 2^x, m not 0, with a sign: the encoding and the flags. -/
def Fmt.roundMag (t : Fmt) (mode : RMode) (neg : Bool) (m : Nat) (x : Int) (sticky : Bool) : Nat × Nat :=
  let top : Int := (bitLen m : Int) - 1 + x
  let emin : Int := 1 - (t.bias : Int)
  let l : Int := max (top - t.f) (emin - t.f)
  let (q, inexact) := roundAt mode neg m x l sticky
  let sgn := if neg then t.signBit else 0
  let tooBig := if t.maxX ≤ l then decide (t.maxM < q * 2 ^ (l - t.maxX).toNat)
    else decide (t.maxM * 2 ^ (t.maxX - l).toNat < q)
  if tooBig then (t.overflow mode neg, 5)
  else
    let tiny := decide (top < emin) &&
      !(decide (top = emin - 1) && decide ((roundAt mode neg m x (top - t.f) sticky).1 = 2 ^ (t.f + 1)))
    let fl := if inexact then (if tiny then 3 else 1) else 0
    if q < 2 ^ t.f then (sgn + q, fl)
    else
      let (q, l) := if q = 2 ^ (t.f + 1) then (2 ^ t.f, l + 1) else (q, l)
      (sgn + (l + t.bias + t.f).toNat * 2 ^ t.f + (q - 2 ^ t.f), fl)

/-- Round the exact v * 2^x; `zneg` is the sign of a zero. -/
def Fmt.round (t : Fmt) (mode : RMode) (zneg : Bool) (v : Int) (x : Int) : Nat × Nat :=
  if v = 0 then ((if zneg then t.signBit else 0), 0)
  else t.roundMag mode (decide (v < 0)) v.natAbs x false

def FP.int : FP → Int
  | .fin n m _ => if n then -(m : Int) else m
  | _ => 0
def FP.ex : FP → Int
  | .fin _ _ x => x
  | _ => 0

/-- The exact sum of v * 2^x and w * 2^y. -/
def dyAdd (v x w y : Int) : Int × Int :=
  if x ≤ y then (v + w * 2 ^ (y - x).toNat, x) else (v * 2 ^ (x - y).toNat + w, y)

/-- R136: the sign of an exact zero sum of addends with signs a and b, where `zeros` says that both are zeros. -/
def zeroSign (mode : RMode) (a b zeros : Bool) : Bool := if zeros && a == b then a else mode == .rd

/-- R135, R136: the rounded sum of two values. -/
def Fmt.add (t : Fmt) (mode : RMode) (a b : FP) : Nat × Nat :=
  if a.isNan || b.isNan then (t.qnan, if a.isSig || b.isSig then 16 else 0)
  else match a, b with
  | .inf m, .inf n => if m = n then (t.infBits + (if m then t.signBit else 0), 0) else (t.qnan, 16)
  | .inf m, _ => (t.infBits + (if m then t.signBit else 0), 0)
  | _, .inf n => (t.infBits + (if n then t.signBit else 0), 0)
  | a, b =>
    let (v, x) := dyAdd a.int a.ex b.int b.ex
    t.round mode (zeroSign mode a.neg b.neg (a.isZero && b.isZero)) v x

/-- -x; a NaN stays as it is. -/
def FP.negate : FP → FP
  | .nan s => .nan s
  | .inf n => .inf (!n)
  | .fin n m x => .fin (!n) m x

/-- The exact product, when neither factor is special or both can be multiplied; `none` for infinity times zero. -/
def FP.times (a b : FP) : Option FP :=
  match a, b with
  | .fin m p x, .fin n q y => some (.fin (m != n) (p * q) (x + y))
  | a, b => if a.isNan || b.isNan then some (.nan (a.isSig || b.isSig))
      else if a.isZero || b.isZero then none else some (.inf (a.neg != b.neg))

/-- R135, R136: the rounded product. -/
def Fmt.mul (t : Fmt) (mode : RMode) (a b : FP) : Nat × Nat :=
  match a.times b with
  | none => (t.qnan, 16)
  | some (.nan s) => (t.qnan, if s then 16 else 0)
  | some (.inf n) => (t.infBits + (if n then t.signBit else 0), 0)
  | some p => t.round mode p.neg p.int p.ex

/-- a * b + c with one rounding (R136). A quiet NaN c with infinity times zero is still invalid. -/
def Fmt.fma (t : Fmt) (mode : RMode) (a b c : FP) : Nat × Nat :=
  match a.times b with
  | none => (t.qnan, 16)
  | some p => t.add mode p c

/-- FP32 addition under RNE on encodings (R255, R335): no flag. -/
def addRne (a b : Nat) : Nat := (fp32.add .rne (fp32.decode a) (fp32.decode b)).1
def mulRne (a b : Nat) : Nat := (fp32.mul .rne (fp32.decode a) (fp32.decode b)).1
def negBits (a : Nat) : Nat := if a < 0x80000000 then a + 0x80000000 else a - 0x80000000
def subRne (a b : Nat) : Nat := addRne a (negBits b)

/-- The quotient rounded: a / b of finite a, b with b not zero. -/
def Fmt.divFin (t : Fmt) (mode : RMode) (a b : FP) : Nat × Nat :=
  match a, b with
  | .fin m p x, .fin n q y =>
    if p = 0 then ((if m != n then t.signBit else 0), 0)
    else
      let sh := bitLen q + t.f + 4
      t.roundMag mode (m != n) (p * 2 ^ sh / q) (x - y - sh) (p * 2 ^ sh % q != 0)
  | _, _ => (t.qnan, 0)

/-- Division (R135, R136, R140). -/
def Fmt.div (t : Fmt) (mode : RMode) (a b : FP) : Nat × Nat :=
  let sg := if a.neg != b.neg then t.signBit else 0
  if a.isNan || b.isNan then (t.qnan, if a.isSig || b.isSig then 16 else 0)
  else if a.isInf then (if b.isInf then (t.qnan, 16) else (t.infBits + sg, 0))
  else if b.isInf then (sg, 0)
  else if b.isZero then (if a.isZero then (t.qnan, 16) else (t.infBits + sg, 8))
  else t.divFin mode a b

def divRne (a b : Nat) : Nat := (fp32.div .rne (fp32.decode a) (fp32.decode b)).1

/-- Order of two finite or infinite values as numbers: -1, 0 or 1. -/
def FP.cmp (a b : FP) : Int :=
  match a, b with
  | .inf m, .inf n => if m = n then 0 else if m then -1 else 1
  | .inf m, _ => if m then -1 else 1
  | _, .inf n => if n then 1 else -1
  | a, b =>
    let (v, _) := dyAdd a.int a.ex (-b.int) b.ex
    if v < 0 then -1 else if v = 0 then 0 else 1

/-- R57: a word and pending addends combined in one step. -/
def combineAddends (word : Nat) (addends : List Nat) : Nat :=
  let vs := (word :: addends).map fp32.decode
  if vs.any FP.isNan then fp32.qnan
  else if vs.any (fun v => v == .inf false) && vs.any (fun v => v == .inf true) then fp32.qnan
  else if vs.any (fun v => v == .inf false) then fp32.infBits
  else if vs.any (fun v => v == .inf true) then fp32.infBits + fp32.signBit
  else
    let (v, x) := vs.foldl (fun acc p => dyAdd acc.1 acc.2 p.int p.ex) (0, 0)
    (fp32.round .rne (vs.all fun p => p.isZero && p.neg) v x).1

/-- Exact floor and RNE rounding of v * 2^x to an integer. -/
def floorDy (v x : Int) : Int := if 0 ≤ x then v * 2 ^ x.toNat else v / 2 ^ (-x).toNat

/-- Round a finite value to an integer by a mode: the integer and whether it is inexact. -/
def FP.toInt (mode : RMode) : FP → Int × Bool
  | .fin n m x =>
    let (q, ix) := roundAt mode n m x 0 false
    (if n then -(q : Int) else q, ix)
  | _ => (0, false)

end Sys2Proof.Machine
end

