-- ==== Sys2Proof/Machine/Types.lean ====
section
/-!
DEFINITION. The records that the machine's state is made of: threads, groups, memory objects, operations in flight,
tenants, contexts and launches, each with the rule that names it.
-/
namespace Sys2Proof.Machine

/-- Where a result lands: a stack word of a thread (R117), a uniform register, or nowhere (zr). -/
inductive Dst where
  | stack (i : Nat)
  | uniform (i : Nat)
  | zero
  deriving DecidableEq, Repr

/-- What a thread that stalls at issue waits for: something that its next tries show, a slot of a multicast queue (R77), or a place in a
copy engine (R66). -/
inductive Stall where
  | issue | slot | engine
  deriving DecidableEq, Repr

/-- Why a thread waits (R107). `stall n`: at issue; it tries again once the machine has moved on from move n. The other
reasons name what ends them. `ray`: for its traversal (R320). `page`: translation of an access that the instruction repeats whole. `kept`: the
accesses that a resumption reissues (R423). -/
inductive Wait where
  | stall (move : Nat) (why : Stall)
  | page
  | kept
  | pop (queue : Nat) (filled : Bool) (dst : Dst)
  | barrier (bar : Nat) (token : Word) (pred : Nat) (dst : Dst)
  | timeline (tc : Nat) (value : Nat)
  | word (addr value : Nat) (host peer : Bool) (test : Option Nat)
  | message
  | sign (cv : Nat)
  | walker
  | latch (slot : Nat)
  | ray (op : Nat)
  | safePoint
  deriving DecidableEq, Repr

/-- R107: the states of an occupied thread slot; a slot with no thread is Free. `parked seq` names its record. -/
inductive TState where
  | ready
  | waiting (w : Wait)
  | parked (seq : Nat)
  | draining
  deriving DecidableEq, Repr

/-- R123, R126, R130: the sheaf state of a thread. The sheaf counter is the program counter less `base`. -/
structure Sheaf where
  base : Nat
  stop : Nat
  paths : Nat
  path : Nat
  tables : List DWord
  deriving DecidableEq, Repr

/-- The kinds of global access that a thread keeps while it awaits translation (R246, R248, R254). -/
inductive AccKind where
  | load | store | atomic
  deriving DecidableEq, Repr

/-- An access piece (R246): bytes va to va + data or length - 1, bytes `off` onward of operation `op`; `id` rises in program order.
`code`, `ra` and the operands belong to an atomic (R253). A piece that a thread keeps is `queued` while it awaits its walk, and `stopped`
from a fault on until the thread's resumption (R248). -/
structure Access where
  id : Nat
  kind : AccKind
  pc : Nat
  va : Nat
  size : Nat
  op : Nat
  off : Nat
  data : List Byte
  code : Nat
  ra : Bool
  returns : Bool
  cas : List Byte
  ordered : Bool
  acquires : Bool
  total : Nat
  queued : Bool
  stopped : Bool
  deriving DecidableEq, Repr

/-- A thread (R107 to R119). `bad` are its stack words that are uncorrectable, `weak` those with one wrong bit (R103). `peerBuf` are bytes that a peer has sent for the instruction that it repeats, `wordBuf` those of the
instruction's own word (R154). `heldBy` are the operations with scoreboard entries when its access first waited for them (R99). -/
structure Thread where
  gid : Nat
  tid : Nat
  st : TState
  pc : Nat
  words : Nat
  stack : Store Word
  wb : Nat
  sb : Nat
  preds : BitVec 12
  fflags : Word
  wsp : DWord
  errst : Word
  tcause : Word
  tepc : DWord
  tval : DWord
  clkHi : Word
  sheaf : Option Sheaf
  susp : Option Sheaf
  pend : List Nat
  bad : List Nat
  weak : List Nat
  kept : List Access
  ahead : Nat
  late : Option Nat
  since : Nat
  reload : Bool
  peerBuf : List Byte
  wordBuf : List Byte
  heldBy : Option (List Nat)
  deriving DecidableEq, Repr

/-- R73: the state of a queue slot. -/
inductive SlotSt where
  | free | filled | held | engine
  deriving DecidableEq, Repr

/-- R76: a place in a queue's order of engine requests: the operation, the slot it has taken, and whether it only waits to
append. -/
structure EngReq where
  op : Nat
  slot : Option Nat
  finished : Bool
  deriving DecidableEq, Repr

/-- R73 to R77: a scratchpad queue. `engines` is the order of engine requests still to append; `sent` counts the sender's
BCPMs; `credits` are its free-slot counters, by member; `ring` are the slots that have landed on a receiver and are not yet
released, oldest first. -/
structure Queue where
  base : Nat
  size : Nat
  n : Nat
  mcast : Bool
  sender : Nat
  free : List Nat
  filled : List Nat
  slots : List SlotSt
  engines : List EngReq
  sent : Nat
  credits : List Nat
  ring : List Nat
  deriving DecidableEq, Repr

/-- R79: an engine timeline counter: operations issued, its value, and the numbers completed above the value. -/
structure Timeline where
  issued : Nat
  value : Nat
  done : List Nat
  deriving DecidableEq, Repr

/-- R271: a barrier. -/
structure Barrier where
  expected : Nat
  arrivals : Nat
  phase : Word
  deriving DecidableEq, Repr

/-- R268: a message, and a posted receive of a thread: its tag, its destination and sender registers as stack words or
uniform registers (R118), and whether the thread waits in RECVW. -/
structure Msg where
  tag : Nat
  payload : DWord
  sender : Nat
  deriving DecidableEq, Repr

/-- A posted receive (R268): its thread, its tag, and where payload and sender go. -/
structure Post where
  thread : Nat
  tag : Nat
  dst : List Dst
  from? : Option Dst
  deriving DecidableEq, Repr

/-- What one thread stages for a set (R284): its word's FN and IMM16, the format word, the layout words, the B and C quads, and
the move in which it signed. -/
structure Signer where
  thread : Nat
  tid : Nat
  gather : Nat
  fn : Nat
  imm : Nat
  fmt : Word
  lay : List Word
  b : List Word
  c : List Word
  deriving DecidableEq, Repr

/-- R280: a defined convergence register: the member count, the signers, whether it is broken, and whether that was by a format
divergence whose traps are still due; the sets issued since CVDEF (R330). -/
structure Conv where
  count : Nat
  signers : List Signer
  broken : Bool
  diverged : Bool
  sets : Nat
  deriving DecidableEq, Repr

/-- R289: an accumulator tile: its elements, the operations pending on it, and the OPEN bit. -/
structure Tile where
  elems : Store Word
  pending : Nat
  opened : Bool
  deriving DecidableEq, Repr

/-- A resident group (R106). `kfrom` holds, for a uniform register that several lanes of one gather are still to write, the highest lane
column that has written it (R113); `spBad` and `spWeak` are scratchpad words with errors (R103). -/
structure Group where
  ctx : Nat
  core : Nat
  launch : Nat
  gang : Nat
  member : Nat
  gangSize : Nat
  threads : Nat
  stackWords : Nat
  part : Word
  rows : List Nat
  regBase : Nat
  regLen : Nat
  spBase : Nat
  spLen : Nat
  accBase : Nat
  tileCount : Nat
  fields : List Nat
  widths : List Nat
  k : Store Word
  kpend : List Nat
  kfrom : Store Nat
  kbad : List Nat
  sp : Store Byte
  spBad : List Nat
  spWeak : List Nat
  tiles : Store Tile
  queues : Store Queue
  tcs : List Timeline
  bars : Store Barrier
  cvs : Store Conv
  posts : List Post
  msgs : List (Msg × DWord)
  lseed : DWord
  args : List Word
  code : Nat
  prod : Option (Nat × Nat)
  thr : Option (Nat × Nat)
  stage : Option (Nat × Nat)
  live : Nat
  placed : Nat
  leaving : Bool
  deriving DecidableEq, Repr

/-- An entry of a core's range scoreboard (R96, R97), in the order of the list that holds it (R98). -/
structure SbEntry where
  op : Nat
  core : Nat
  gid : Nat
  lo : Nat
  hi : Nat
  write : Bool
  empty : Bool
  deriving DecidableEq, Repr

/-- R33: a cached leaf: the structure that holds it, the context, the page and the entry with its level. -/
structure TlbEntry where
  unit : Nat
  ctx : Nat
  va : Nat
  bits : Nat
  level : Nat
  entry : DWord
  deriving DecidableEq, Repr

/-- R33: a cached table pointer of a die's walk cache. -/
structure WalkEnt where
  die : Nat
  ctx : Nat
  level : Nat
  key : Nat
  entry : DWord
  deriving DecidableEq, Repr

/-- R38: the access kinds of ACC. -/
inductive AccessKind where
  | load | store | atomic | fetch | copySrc | copyDst | ray | texture
  deriving DecidableEq, Repr

/-- Who waits for a walk (R36, R41): a thread with the kept access that `kept` names, a thread that repeats its instruction, or, where
`unit` is a copy engine's, the copy that `thread` numbers. -/
structure Waiter where
  thread : Nat
  unit : Nat
  kind : AccessKind
  va : Nat
  size : Nat
  pc : Nat
  ordered : Bool
  kept : Option Nat
  deriving DecidableEq, Repr

/-- R36: an entry of a die's miss queue; `running` once a walker has taken it (R37). -/
structure Miss where
  die : Nat
  ctx : Nat
  tenant : Nat
  vpn : Nat
  waiters : List Waiter
  running : Bool
  deriving DecidableEq, Repr

/-- R56: a pending write, atomic or reduction of a home slice, in arrival order. `op` is the operation that the prior value
returns to; `cl`, `wp` and `ep` are the attributes of the leaf (R48). -/
structure Pending where
  pa : Nat
  size : Nat
  code : Nat
  data : List Byte
  cas : List Byte
  ra : Bool
  returns : Bool
  op : Nat
  off : Nat
  cmp : Bool
  ctx : Nat
  launch : Nat
  who : DWord
  va : Nat
  cl : Nat
  wp : Nat
  ep : Nat
  deriving DecidableEq, Repr

/-- R51: a request that an input port of a crossbar holds for an output port. -/
structure PortReq where
  input : Nat
  output : Nat
  req : Pending
  deriving DecidableEq, Repr

/-- R454: an accession-log record to be written: the context, the kind, the launch it names, WHO, X and Y. -/
structure LogRec where
  ctx : Nat
  kind : Nat
  head : Nat
  who : Nat
  x : Nat
  y : Nat
  deriving DecidableEq, Repr

/-- R46: the tag of a slice line that is present: its priority, whether HBM lacks it, and when it was last used. -/
structure LineTag where
  prio : Nat
  dirty : Bool
  used : Nat
  deriving DecidableEq, Repr

/-- A piece that a peer has not answered: the port that it took (R475) and the ordering kind of its page (R26). -/
structure Remote where
  port : Nat
  page : Nat
  acc : Access
  deriving DecidableEq, Repr

/-- R249, R254: a load, or an atomic that returns: the bytes that have arrived, the pieces still out, those of a peer, and the address of
a poisoned piece. A store or atomic that returns nothing is one of size 0 while a peer has not performed it. -/
structure LoadOp where
  size : Nat
  sx : Bool
  data : List Byte
  left : Nat
  remote : List Remote
  poison : Option Nat
  atomic : Option Nat
  deriving DecidableEq, Repr

/-- What a walk finds (R27, R40). -/
inductive WalkEnd where
  | leaf (va bits level : Nat) (entry : DWord)
  | fault (cause level : Nat) (entry : DWord)
  deriving DecidableEq, Repr

/-- R260, R261: a copy. `form` is the operation number; `srcG` and `dstG` say which sides are global; `slot` is the queue
slot taken, `dsts` the places that a BCPQ or BCPM then writes, by member (R77); `pages` are the ends of its translations (R36), by twice
the page number, plus 1 on the destination side; `lost` the chunks whose peer's port went down (R474). -/
structure CopyOp where
  form : Nat
  srcG : Bool
  dstG : Bool
  src : Nat
  dst : Nat
  rows : Nat
  rowBytes : Nat
  sstr : Nat
  dstr : Nat
  queue : Nat
  mask : Nat
  member : Nat
  slot : Option Nat
  dsts : List Nat
  engine : Nat
  pages : Store WalkEnd
  lost : List Nat
  deriving DecidableEq, Repr

/-- R286, R287: an issued set: its op, format word, tile and window, the layout of A for a .S form, the bytes of A and B; L of R291 where
relaxed bits are in effect at issue, and whether the set is then a selected tithe item (R330). -/
structure MmaOp where
  op : Nat
  fmt : Word
  cv : Nat
  tile : Nat
  rb : Nat
  cb : Nat
  lay : List Word
  aBytes : List Byte
  bBytes : List Byte
  relaxed : Option Nat
  tithed : Bool
  deriving DecidableEq, Repr

/-- The asynchronous accumulator operations (R294 to R296). -/
inductive AccForm where
  | load | store | fold | quantise
  deriving DecidableEq, Repr

/-- R294 to R296: an accumulator operation in flight: its tile and window, the layout, MSCL's partial tile, scale bytes and L (R291), and
MQNT's amax words, scale-byte address and format. -/
structure AccOp where
  form : AccForm
  tile : Nat
  other : Nat
  rb : Nat
  cb : Nat
  m : Nat
  n : Nat
  lay : List Word
  base : Nat
  words : List Word
  fmt : Nat
  relaxed : Option Nat
  deriving DecidableEq, Repr

/-- R308, R346: TILEO (`lens` false) and LENS: the frame is that of the strip's most recent latch at issue. -/
structure TileOp where
  slot : Nat
  view : Nat
  strip : Nat
  col : Nat
  base : Nat
  lens : Bool
  frame : Nat
  deriving DecidableEq, Repr

/-- R318: a traversal: its block's offset, the block as it was read at issue, whether RYR issued it, and the t and user value of RYR.H. -/
structure TravOp where
  block : Nat
  start : List Byte
  resume : Bool
  report : Option (Nat × Nat)
  deriving DecidableEq, Repr

/-- R69, R43: why a chunk fails: its CODE, and for a translation failure its cause, level, entry, address and access kind. -/
structure ChunkFail where
  code : Nat
  xl : Option (Nat × Nat × DWord × Nat × Nat)
  deriving DecidableEq, Repr

/-- R276, R477: a collective: the bytes of its body, why they could not be read, and the tenant's record it came from when it is a
command. -/
structure CollOp where
  desc : List Byte
  fail : Option ChunkFail
  record : Option Cmd
  ctx : Nat
  deriving DecidableEq, Repr

/-- Bytes that a peer will send to an instruction of a thread (R111, R276, R313, R320): how many, the address and size of the access, and
the port that the request took (R475). -/
structure RemoteRead where
  bytes : Nat
  va : Nat
  size : Nat
  kind : AccessKind
  port : Nat
  deriving DecidableEq, Repr

/-- What an operation in flight does. `fetch` waits for bytes that a peer holds: its thread then issues its instruction again with
them (R313, R320). `sts` is a store of the thresher slot (R97). -/
inductive OpKind where
  | load (l : LoadOp)
  | value (vals : List Word) (poison : Option Nat)
  | copy (c : CopyOp)
  | mma (m : MmaOp)
  | acc (a : AccOp)
  | tile (t : TileOp)
  | trav (t : TravOp)
  | fetch (r : RemoteRead)
  | coll (c : CollOp)
  | sts (offset : Nat) (bytes : List Byte)
  deriving DecidableEq, Repr

/-- An operation in flight (R117): the thread that issued it, its group, where its result or status word lands, and the
number that it holds on a timeline counter (R79). -/
structure AOp where
  thread : Nat
  gid : Nat
  core : Nat
  pc : Nat
  dst : List Dst
  tc : Option (Nat × Nat)
  kind : OpKind
  deriving DecidableEq, Repr

/-- R38: a fault record as detected: its 64 bytes and the fields that the module still uses. -/
structure FRec where
  seq : Nat
  type : Nat
  ctx : Nat
  bytes : List Byte
  deriving DecidableEq, Repr

/-- R421: a tenant's fault queue, set up once `k` is not 0. `kinds` are the records on which threads may be parked. `held` are the records detected and not written, in SEQ order.
`rsm` is the resume index as taken, `rsmRead` what RSM last read as (R423). -/
structure FaultQ where
  base : Nat
  k : Nat
  ctrl : Nat
  widx : Nat
  ridx : Nat
  rsm : Nat
  rsmRead : Nat
  seq : Nat
  held : List FRec
  drops : Word
  advanced : Bool
  kinds : Store FRec
  deriving DecidableEq, Repr

/-- R384: a command queue. `running` are the records taken and not completed; `waiting` those not started yet: held by BAR (R387), or
nodes whose counter is not 0 (R394). -/
structure CmdQ where
  base : Nat
  k : Nat
  ctrl : Nat
  ridx : Nat
  running : List Nat
  waiting : List Cmd
  deriving DecidableEq, Repr

/-- R29, R384, R421, R467, R469: what the module holds for a tenant. -/
structure Tenant where
  windows : Store (BitVec 128)
  queues : Store CmdQ
  fq : FaultQ
  nodeFirst : Nat
  nodeCount : Nat
  ctxFirst : Nat
  ctxCount : Nat
  dest : List Byte
  gazeKey : List Byte
  evseq : Word
  deriving DecidableEq, Repr

/-- R399: the states of a context. -/
inductive CtxState where
  | free | idle | active | stopping | saving | saved | restoring | discarding
  deriving DecidableEq, Repr

/-- R403 to R405: a declared pipeline: the minimum, maximum and target of each stage. -/
structure Pipe where
  gfx : Bool
  mins : List Nat
  maxs : List Nat
  targets : List Nat
  since : Nat
  period : Nat
  deriving DecidableEq, Repr

/-- R454, R455: the accession log of a run: positions, counts, STATE bits, the records consumed ahead of RPOS. -/
structure Log where
  wpos : Nat
  rpos : Nat
  raign : Nat
  drops : Nat
  state : Nat
  ahead : List Nat
  deriving DecidableEq, Repr

/-- A saved group with its threads and its scoreboard entries (R102, R402). -/
structure SavedGroup where
  gid : Nat
  group : Group
  threads : List Thread
  board : List SbEntry
  deriving DecidableEq, Repr

/-- R397: a context: its descriptor, its state and what the module keeps for it. -/
structure Ctx where
  st : CtxState
  tenant : Nat
  cfl : Byte
  root : DWord
  apxctl : Word
  tseed : Word
  tcnt : DWord
  fpten : Word
  errpol : Word
  wdper : Word
  detmode : Word
  save : DWord
  logb : DWord
  winSamples : Nat
  winExcur : Nat
  pipes : Store Pipe
  progress : Nat
  entered : Nat
  stop : Option Nat
  watchdog : Bool
  pendingCmds : List Cmd
  log : Log
  deriving DecidableEq, Repr

/-- R393 to R396, R408, R409: a launch. `ready` is the clock at which it became ready; `next` the lowest unplaced gang; `passes` and
`claims` go by gang; `noted` are the gangs aborted (R447). -/
structure Launch where
  ctx : Nat
  record : Cmd
  header : List Byte
  args : List Word
  gangs : Nat
  next : Nat
  finished : Nat
  ready : Option Nat
  walker : Nat
  passes : Store Nat
  claims : Store Nat
  noted : List Nat
  seed : DWord
  status : Nat
  deriving DecidableEq, Repr

/-- R394: a task-graph node in use: its counter and the record that occupies it. -/
structure Node where
  counter : Nat
  record : Cmd
  deriving DecidableEq, Repr

/-- R339: a strip's latch: the frame, the counter at the latch, the gaze, each view's x breakpoints and the y breakpoints. -/
structure Latch where
  frame : Nat
  clock : Nat
  gx : Word
  gy : Word
  xb : List (List Nat)
  yb : List Nat
  deriving DecidableEq, Repr

/-- R342: a routing list. -/
structure Route where
  frame : Nat
  strip : Nat
  die : Nat
  groups : List Nat
  deriving DecidableEq, Repr

/-- R332 to R351: a bound view set. `first` is its first frame, `latchNo` and `deadNo` the next latch and deadline as frame * NS +
strip, `row` the next display row as frame * EY + Y, `window` the frame of the present or next scanout window. `latches`, the
earlier ones in `old` and `shown` go by strip, `yframes` by frame. `done` are the completed tiles (frame, view, strip, column), `serq` what SERQ has queued
(frame, view, strip). `held` are the cores that the reservation holds. -/
structure ViewSet where
  tenant : Nat
  desc : List Byte
  views : List (List Byte)
  gx : Word
  gy : Word
  q : Word
  first : Nat
  latchNo : Nat
  deadNo : Nat
  row : Nat
  window : Nat
  latches : Store Latch
  old : Store (List Latch)
  yframes : Store (List Nat)
  routes : List Route
  done : List (Nat × Nat × Nat × Nat)
  serq : List (Nat × Nat × Nat)
  shown : Store Latch
  held : List Nat
  stopSent : Bool
  inWindow : Bool
  unbind : Option Cmd
  miss : Word
  pdrop : Word
  gdrop : Word
  derr : Word
  rshort : Word
  late : Word
  deriving DecidableEq, Repr

/-- R304: a meshlet in the amplifier's input. -/
structure Meshlet where
  ctx : Nat
  slot : Nat
  mask : Nat
  bytes : List Byte
  deriving DecidableEq, Repr

/-- R335, R340: a snapped primitive at a die's raster engines, and the strip that it is tested against next. -/
structure Prim where
  die : Nat
  ctx : Nat
  slot : Nat
  view : Nat
  meshlet : Word
  index : Nat
  pts : List (Int × Int)
  strip : Nat
  deriving DecidableEq, Repr

/-- R341, R76: a coverage record that waits for a slot, or for the bytes of the slot that it has `taken`: a group, a handle and its number in
the queue's order. -/
structure Cover where
  die : Nat
  ctx : Nat
  slot : Nat
  frame : Nat
  view : Nat
  strip : Nat
  col : Nat
  bytes : List Byte
  taken : Option (Nat × Nat × Nat)
  deriving DecidableEq, Repr

/-- R443 to R449: what one neighbour holds about a tile; `heard` is the sequence number of the last beat that it got from it. -/
structure Nbr where
  accuse : Bool
  heard : BitVec 16
  silent : Nat
  pgx : Nat
  clean : Nat
  appealClean : Nat
  admitted : Bool
  deriving DecidableEq, Repr

/-- R445 to R450: the vote state of a tile; `nbrs` in the order of ascending core number. `seq` is the sequence number
of its next beat, `pgx` what its beats of this period report of the last (R442), `pgxNext` what its port guard has reported of this one. -/
structure TileVote where
  seq : BitVec 16
  nbrs : List Nbr
  ndeac : Nat
  perm : Bool
  appeal : Bool
  fenced : Bool
  gen : Nat
  pgx : Bool
  pgxNext : Bool
  appealAt : Nat
  deriving DecidableEq, Repr

/-- R426: uncorrectable events of one source and core in the current period, to be folded into one record for the tenant that owned the
context. -/
structure UEvent where
  source : Nat
  core : Nat
  ctx : Nat
  tenant : Nat
  thread : Option Nat
  wid : DWord
  pc : Nat
  addr : Nat
  count : Nat
  deriving DecidableEq, Repr

/-- A frame or a request that left the module (R464, R469, R471, R474): its destination and its payload. -/
inductive Sent where
  | answer (dst : BitVec 48) (kind : Byte) (rqid : Word) (payload : List Byte)
  | event (tenant : Nat) (payload : List Byte)
  | nak (tenant : Nat) (rkey : Word)
  | ack (tenant : Nat)
  | readData (tenant : Nat) (data : List Byte)
  | peerData (module : Nat) (data : List Byte)
  | peerRefused (module : Nat)
  | peerWrite (module : Nat) (addr : Nat) (data : List Byte)
  | peerAtomic (module : Nat) (addr : Nat) (code : Nat) (data cas : List Byte)
  | scanout (tenant : Nat) (payload : List Byte)
  | row (output : Nat) (pixels : List Byte)
  deriving DecidableEq, Repr

/-- The threads that issue together (R120), as thread keys in ascending lane column; `core` and `quad` are their quadrant. -/
structure Gather where
  core : Nat
  quad : Nat
  lanes : List Nat
  deriving DecidableEq, Repr

/-- A tile-walker claim that awaits its answer (R214). -/
structure Claim where
  thread : Nat
  launch : Nat
  pred : Nat
  dst : List Dst
  deriving DecidableEq, Repr

/-- A stop request for one gang (R400): its launch and number, the time of a forced save, and whether its save has begun. -/
structure GangStop where
  launch : Nat
  gang : Nat
  deadline : Nat
  saving : Bool
  deriving DecidableEq, Repr

/-- R104: the lines of a core's load cache hold 128 bytes. -/
abbrev LcLine := List Byte

end Sys2Proof.Machine
end

