-- ==== Sys2Proof/Machine/State.lean ====
section
/-!
DEFINITION. The state of the module, the reasons a step can stop, and the state after reset. Every field is plain data.
-/
namespace Sys2Proof.Machine

/-- The whole module. Threads are keyed by slot: 2,048·core + 512·quadrant + slot, and the thresher slot of core c by
393,216 + c. -/
structure State where
  /-- Occupied thread slots (R107). -/
  threads : Store Thread
  /-- Resident groups, by the number the module gave each at placement (R106). -/
  groups : Store Group
  /-- The group that each core's thresher slot serves (R131). -/
  thresher : Store Nat
  /-- The current partition word of each core (R89); 0 when not listed. -/
  partWord : Store Word
  /-- The range scoreboards (R96), all cores, in entry order. -/
  board : List SbEntry
  /-- Operations in flight (R117). -/
  ops : Store AOp
  /-- HBM bytes as stored, with the compression metadata in its range (R18, R59). -/
  hbm : List Host.Cell
  /-- Poisoned 32-byte sectors, by sector number, with the source code of R426 that found them: 3 HBM (R20), 4 slice (R47). -/
  poison : Store Nat
  /-- Bit errors that stand in the arrays, apart from the words marked uncorrectable (R47, R103, R105). -/
  upsets : List Upset
  /-- Lines present in the slices, by line number (R46). -/
  lines : Store LineTag
  /-- The count of slice accesses, for least recent use (R46). -/
  lineUses : Nat
  /-- Requests that input ports of the crossbars hold, oldest first, and each output's inputs in the order in which it last granted
  them (R51). -/
  portHeld : List PortReq
  grants : Store (List Nat)
  /-- Pending writes, atomics and reductions of the home slices, in arrival order (R56). -/
  wq : List Pending
  /-- Load-cache lines of each core, keyed 2^45·core + line number (R104). -/
  loadCache : Store LcLine
  /-- Scanout memory (R21). -/
  scanout : List Host.Cell
  /-- Cached translations (R33), newest first, and the walk caches. -/
  tlb : List TlbEntry
  walkCache : List WalkEnt
  /-- Misses on their way to a die's miss queue, oldest first, and the miss queues of both dies (R36). -/
  enroute : List Miss
  misses : List Miss
  /-- The clock of the last translation fault, and its place in that clock's order (R42). -/
  lastDetect : Option (Nat × Nat)
  /-- Messages on their way: the target group, the message and the sending thread's work identifier (R268, R455). -/
  mail : Store (Nat × Msg × DWord)
  /-- Tile-walker claims not yet answered, in arrival order (R214). -/
  claims : List Claim
  /-- Stop requests for single gangs (R400). -/
  gangStops : List GangStop
  /-- Accession-log records of choices just made (R454). -/
  logPending : List LogRec
  tenants : Store Tenant
  ctxs : Store Ctx
  /-- Groups of saved contexts and gangs (R402). -/
  saved : List SavedGroup
  launches : Store Launch
  nodes : Store Node
  /-- Launches refused or completed leave their record here until BAR and SUCC have been served. -/
  graphErrors : Word
  views : Store ViewSet
  amplifier : Store (List Meshlet)
  prims : List Prim
  covers : List Cover
  /-- Groups towards whose q0 a push has had to wait since the last balance (R405). -/
  pushWaited : List Nat
  vote : Store TileVote
  fenceGen : Word
  orphan : Store Word
  /-- The clock at the end of bring-up, the heartbeat periods since then (R442), and port-guard counts (R53). -/
  epoch : Nat
  periods : Nat
  /-- The last placement pass, in periods of 100 ns since the end of bring-up (R408). -/
  passNo : Nat
  guardOver : Store Nat
  throt : Store Word
  /-- Counters of R426, by source code 1 to 7; 8 and 9 are CESRAM and CEHBM. -/
  errors : Store Word
  uevents : List UEvent
  mauth : Word
  rxdrop : Word
  pdown : Word
  nakCount : Word
  peerRefusals : Word
  mailDrops : Word
  bridgeStopped : Bool
  bridgeRetries : Nat
  /-- R466: the management station and its key. -/
  station : Option (BitVec 48)
  stationKey : List Byte
  /-- R473 to R475. -/
  moduleNumber : Nat
  walkedPeer : Bool
  peerRoutes : Store Nat
  portsDown : List Nat
  portReplays : Store Nat
  /-- R458 to R460, R479. -/
  pwrgood : Bool
  resetN : Bool
  ready : Bool
  upStep : Nat
  failCode : Byte
  portUp : Bool
  halted : Bool
  /-- The core-clock counter (R116, R38). -/
  now : Nat
  /-- What stands at the module's inputs. -/
  inputs : Inputs
  /-- What has left the module, newest first. -/
  sent : List Sent
  /-- The model's own: what happens next, the gather under issue and whether it has been chosen, the count of moves, and the
  next identifiers and free choice. -/
  agenda : List (Instr × Inputs)
  gather : Option Gather
  armed : Bool
  /-- The visits that the patrol scrub has made since the end of bring-up (R103). -/
  patrolled : Nat
  /-- Pool words with errors that the instruction under issue has counted (R103). -/
  sensed : List Nat
  moves : Nat
  nextOp : Nat
  nextGid : Nat
  nextChoice : Nat
  deriving DecidableEq, Repr

/-- Why the machine stops with a fault. -/
inductive Fault where
  /-- Raised when an instruction is executed with no gather, or with a gather that names no resident thread. The hardware
  has no such situation; a claim about it is about nothing. Safe. -/
  | noGather
  deriving DecidableEq, Repr

/-- Why the machine has no meaning for a step. -/
inductive Refusal where
  /-- An instruction whose arm has no meaning yet. Raised by the dispatch only. Safe. -/
  | notModelled (mnemonic : String)
  deriving DecidableEq, Repr

/-- Right after reset (R458 to R460): the pins high, the ready flag clear, bring-up at its first step, nothing resident,
every register of R397 to R450 at its stated reset value, and nothing listed in memory. -/
def State.reset : State where
  threads := []
  groups := []
  thresher := []
  partWord := []
  board := []
  ops := []
  hbm := []
  poison := []
  upsets := []
  lines := []
  lineUses := 0
  portHeld := []
  grants := []
  wq := []
  loadCache := []
  scanout := []
  tlb := []
  walkCache := []
  enroute := []
  misses := []
  lastDetect := none
  mail := []
  claims := []
  gangStops := []
  logPending := []
  tenants := []
  ctxs := []
  saved := []
  launches := []
  nodes := []
  graphErrors := 0
  views := []
  amplifier := []
  prims := []
  covers := []
  pushWaited := []
  vote := []
  fenceGen := 0
  orphan := []
  epoch := 0
  periods := 0
  passNo := 0
  guardOver := []
  throt := []
  errors := []
  uevents := []
  mauth := 0
  rxdrop := 0
  pdown := 0
  nakCount := 0
  peerRefusals := 0
  mailDrops := 0
  bridgeStopped := false
  bridgeRetries := 0
  station := none
  stationKey := []
  moduleNumber := 0
  walkedPeer := false
  peerRoutes := []
  portsDown := []
  portReplays := []
  pwrgood := true
  resetN := true
  ready := false
  upStep := 1
  failCode := 0
  portUp := false
  halted := false
  now := 0
  inputs := Inputs.none
  sent := []
  agenda := []
  gather := none
  armed := false
  patrolled := 0
  sensed := []
  moves := 0
  nextOp := 0
  nextGid := 1
  nextChoice := 0

end Sys2Proof.Machine
end

