-- ==== Sys2Proof/Machine/Operands.lean ====
section
/-!
DEFINITION. Thread slots, register windows, renaming, and every form in which an instruction names an operand (R106, R109,
R113, R116, R125, R126, R158, R159, R245).
-/
namespace Sys2Proof.Machine

/-- The key of the thresher slot of a core. -/
def thresherKey (core : Nat) : Nat := 393216 + core
def isThresher (key : Nat) : Bool := decide (393216 ≤ key)
def coreOf (key : Nat) : Nat := if isThresher key then key - 393216 else key / 2048
/-- R106, R116: the quadrant and the slot within it; 0 and 0x200 for the thresher slot (R132, R422). -/
def quadOf (key : Nat) : Nat := if isThresher key then 0 else key / 512 % 4
def slotNo (key : Nat) : Nat := if isThresher key then 0x200 else key % 512
def dieOf (core : Nat) : Nat := core / 96
/-- R9: the module region of a core. -/
def regionOf (core : Nat) : Nat := core / 96 * 12 + core % 96 % 12 / 4 + 3 * (core % 96 / 12 / 2)
/-- R106: the lane column of a thread. -/
def columnOf (tid : Nat) : Nat := tid / 4 % 32
/-- R106: the key of thread t of a group whose rows in the four quadrants are `rows`, ceil(T/128) consecutive entries for
each quadrant in turn. -/
def threadKey (core threads : Nat) (rows : List Nat) (tid : Nat) : Nat :=
  let per := ceilDiv threads 128
  let row := rows.getD ((tid % 4) * per + tid / 128) 0
  2048 * core + 512 * (tid % 4) + 32 * row + columnOf tid

/-- An active lane as its instruction sees it at issue: its thread and its group. -/
structure Lane where
  key : Nat
  th : Thread
  g : Group
  now : Nat
  deriving DecidableEq, Repr

/-- R109: the stack word of window register n. -/
def Thread.physical (th : Thread) (n : Nat) : Nat := (th.wb + n) % th.words

/-- R124: entry e of path p's rename table. -/
def tableEntry (tables : List DWord) (p e : Nat) : Nat := bits (tables.getD (3 * p + e / 12) 0).toNat (5 * (e % 12) + 4) (5 * (e % 12))

/-- R125: the window register that selector n names in this thread. -/
def Thread.rename (th : Thread) (n : Nat) : Nat :=
  match th.sheaf with
  | some s => if n < 32 then tableEntry s.tables s.path n else n
  | none => n

/-- Cumulative work-identifier position of field i. -/
def widShift (widths : List Nat) (i : Nat) : Nat := (widths.take i).foldl (· + ·) 0

/-- R197, R393: the work identifier of thread tid: fields F0 to F5 packed by their widths, the first lowest. -/
def Group.wid (g : Group) (tid : Nat) : DWord :=
  dword (((tid :: g.fields).zipIdx.map fun p => p.1 * 2 ^ widShift g.widths p.2).foldl (· + ·) 0)

def Lane.wid (v : Lane) : DWord := if isThresher v.key then 0 else v.g.wid v.th.tid
def Lane.core (v : Lane) : Nat := coreOf v.key

/-- R116, R132: the read-only selectors. -/
def Lane.system (v : Lane) (n : Nat) : Word :=
  let t := isThresher v.key
  match n with
  | 49 => if t then 0xFFFFFFFF else word v.th.tid
  | 50 => word v.wid.toNat
  | 51 => word (v.wid.toNat / 2 ^ 32)
  | 52 => match v.th.sheaf with
      | some s => word s.path
      | none => 0
  | 53 => word v.core
  | 54 => word (quadOf v.key)
  | 55 => if t then 0 else word v.g.member
  | 56 => word v.now
  | 57 => v.th.clkHi
  | 58 => word v.g.ctx
  | 59 => if t then 0 else word (columnOf v.th.tid)
  | _ => 0

/-- A stack word, not renamed. -/
def Lane.stackWord (v : Lane) (n : Nat) : Word := Store.rd 0 v.th.stack (v.th.physical n)

/-- R158: the register that a selector reads, when the selector has been renamed. -/
def Lane.readRaw (v : Lane) (n : Nat) : Word :=
  if n < 32 then v.stackWord n else if n < 48 then Store.rd 0 v.g.k (n - 32) else v.system n

/-- read32(sel). -/
def Lane.r32 (v : Lane) (s : BitVec 6) : Word := v.readRaw (v.th.rename s.toNat)

/-- R159: read64(sel); clk.lo reads the whole counter and wid.lo the whole identifier. -/
def Lane.r64 (v : Lane) (s : BitVec 6) : DWord :=
  let n := v.th.rename s.toNat
  if n = 56 then dword v.now
  else if n = 50 then v.wid
  else if n = 48 then 0
  else v.readRaw (n + 1) ++ v.readRaw n

/-- R245: the four registers of a quad. -/
def Lane.r128 (v : Lane) (s : BitVec 6) : List Word :=
  let n := v.th.rename s.toNat
  [v.readRaw n, v.readRaw (n + 1), v.readRaw (n + 2), v.readRaw (n + 3)]

def Lane.pred (v : Lane) (s : BitVec 6) : Bool := v.th.preds.getLsbD s.toNat

/-- The value of a selector as `n` registers, as an unsigned number. -/
def Lane.rd (v : Lane) (n : Nat) (s : BitVec 6) : Nat :=
  if n = 2 then (v.r64 s).toNat
  else if n = 4 then ofBytes ((v.r128 s).flatMap fun w => toBytes 4 w.toNat)
  else (v.r32 s).toNat

/-- Replace a thread. -/
def State.setThread (s : State) (key : Nat) (th : Thread) : State := { s with threads := Store.put s.threads key th }
def State.updThread (s : State) (key : Nat) (f : Thread → Thread) : State :=
  { s with threads := Store.upd s.threads key f }
def State.updGroup (s : State) (gid : Nat) (f : Group → Group) : State := { s with groups := Store.upd s.groups gid f }
def State.updCtx (s : State) (c : Nat) (f : Ctx → Ctx) : State := { s with ctxs := Store.upd s.ctxs c f }

/-- A whole-word write ends the word's bit errors (R103) and clears its pending bit (R117). -/
def Thread.putWord (th : Thread) (i : Nat) (v : Word) : Thread :=
  { th with stack := Store.wr 0 th.stack i v, bad := th.bad.filter (· != i), weak := th.weak.filter (· != i), pend := th.pend.filter (· != i) }
def Group.putUniform (g : Group) (i : Nat) (v : Word) : Group :=
  { g with k := Store.wr 0 g.k i v, kbad := g.kbad.filter (· != i), kpend := g.kpend.filter (· != i) }

/-- R117: where a renamed selector lands. -/
def Lane.place (v : Lane) (n : Nat) : Dst :=
  if n < 32 then .stack (v.th.physical n) else if n < 48 then .uniform (n - 32) else .zero

/-- The places of an operand of n registers. -/
def Lane.places (v : Lane) (n : Nat) (s : BitVec 6) : List Dst :=
  let r := v.th.rename s.toNat
  if r = 48 then List.replicate n .zero
  else (List.range n).map fun i => v.place (r + i)

/-- Write a value where it lands. -/
def State.putDst (s : State) (key gid : Nat) (d : Dst) (x : Word) : State :=
  match d with
  | .stack i => s.updThread key fun th => th.putWord i x
  | .uniform i => s.updGroup gid fun g => g.putUniform i x
  | .zero => s

def State.putDsts (s : State) (key gid : Nat) (ds : List Dst) (xs : List Word) : State :=
  (ds.zip xs).foldl (fun s p => s.putDst key gid p.1 p.2) s

/-- R117: mark the words of an asynchronous destination pending. -/
def State.pendDst (s : State) (key gid : Nat) (d : Dst) : State :=
  match d with
  | .stack i => s.updThread key fun th => { th with pend := insertNat i th.pend }
  | .uniform i => s.updGroup gid fun g => { g with kpend := insertNat i g.kpend }
  | .zero => s
def State.pendDsts (s : State) (key gid : Nat) (ds : List Dst) : State :=
  ds.foldl (fun s d => s.pendDst key gid d) s

/-- R113: whether an operation or a posted receive of a group is still to write a uniform register. -/
def State.uniformOut (s : State) (gid i : Nat) : Bool :=
  (s.ops.any fun o => o.2.gid == gid && o.2.dst.contains (.uniform i)) ||
  ((Store.get s.groups gid).map fun g => g.posts.any fun p => (p.dst ++ p.from?.toList).contains (.uniform i)).getD false

/-- R113, R117: a lane's asynchronous result reaches a uniform register: of the lanes of its gather, the highest column stands, and the
register is pending until the last of them. -/
def Group.landUniform (g : Group) (i column : Nat) (v : Word) (more : Bool) : Group :=
  let top := Store.rd 0 g.kfrom i
  let g := if top ≤ column then { g with k := Store.wr 0 g.k i v, kbad := g.kbad.filter (· != i) } else g
  if more then { g with kfrom := Store.put g.kfrom i (max top column) }
  else { g with kfrom := Store.del g.kfrom i, kpend := g.kpend.filter (· != i) }
/-- An asynchronous result lands, once its operation no longer stands among those in flight. -/
def State.landDst (s : State) (key gid : Nat) (d : Dst) (x : Word) : State :=
  match d with
  | .uniform i => s.updGroup gid fun g => g.landUniform i (key % 32) x (s.uniformOut gid i)
  | d => s.putDst key gid d x
def State.landDsts (s : State) (key gid : Nat) (ds : List Dst) (xs : List Word) : State :=
  (ds.zip xs).foldl (fun s p => s.landDst key gid p.1 p.2) s

/-- The pending bit of a place clears without a write (R423), unless another lane is still to write the place. -/
def State.unpendDst (s : State) (key gid : Nat) (d : Dst) : State :=
  match d with
  | .stack i => s.updThread key fun th => { th with pend := th.pend.filter (· != i) }
  | .uniform i => if s.uniformOut gid i then s else s.updGroup gid fun g =>
      { g with kpend := g.kpend.filter (· != i), kfrom := Store.del g.kfrom i }
  | .zero => s

/-- The words of a number, least significant first (R3). -/
def wordsOf (n v : Nat) : List Word := (List.range n).map fun i => word (v / 2 ^ (32 * i))

/-- Write an operand of n registers with a number. -/
def Lane.wr (v : Lane) (s : State) (n : Nat) (sel : BitVec 6) (x : Nat) : State :=
  s.putDsts v.key v.th.gid (v.places n sel) (wordsOf n x)

def Lane.wr32 (v : Lane) (s : State) (sel : BitVec 6) (x : Word) : State :=
  s.putDst v.key v.th.gid (v.place (v.th.rename sel.toNat)) x

def Lane.wrWords (v : Lane) (s : State) (sel : BitVec 6) (xs : List Word) : State :=
  s.putDsts v.key v.th.gid (v.places xs.length sel) xs

/-- Predicate write (R115). -/
def Thread.setPred (th : Thread) (p : Nat) (b : Bool) : Thread :=
  { th with preds := if b then th.preds ||| BitVec.ofNat 12 (2 ^ p) else th.preds &&& ~~~ BitVec.ofNat 12 (2 ^ p) }
def Lane.wrPred (v : Lane) (s : State) (sel : BitVec 6) (b : Bool) : State :=
  s.updThread v.key fun th => th.setPred sel.toNat b

/-- Raise IEEE flags (R140). -/
def Lane.raiseFlags (v : Lane) (s : State) (fl : Nat) : State :=
  s.updThread v.key fun th => { th with fflags := th.fflags ||| word fl }

/-- Registers that an operand role takes. -/
def Role.regs : Role → Nat
  | .src n _ => n
  | .dst n => n
  | .rmw n => n
  | .stat => 1
  | _ => 0

def Role.reads : Role → Bool
  | .src _ _ => true
  | .rmw _ => true
  | _ => false

/-- R125, R245: a renamed pair base is even and a renamed quad base a multiple of 4. -/
def Lane.baseOk (v : Lane) (r : Role) (s : BitVec 6) : Bool :=
  match v.th.sheaf with
  | none => true
  | some _ =>
    if s.toNat < 32 then
      match r.regs with
      | 2 => v.th.rename s.toNat % 2 == 0
      | 4 => v.th.rename s.toNat % 4 == 0
      | _ => true
    else true

/-- The operands of a row with their selectors. -/
def Row.operands (r : Row) (x : Fields) : List (Role × BitVec 6) := [(r.d, x.d), (r.a, x.a), (r.b, x.b), (r.c, x.c)]

/-- The places of the registers that a word names, all of them (R118). -/
def Lane.rowPlaces (v : Lane) (r : Row) (x : Fields) : List Dst :=
  (r.operands x).flatMap fun o => v.places o.1.regs o.2

/-- The places that a word reads, each with the format it is read in (R425). -/
def Lane.rowReads (v : Lane) (r : Row) (x : Fields) : List (Dst × PFmt) :=
  (r.operands x).flatMap fun o =>
    if o.1.reads then (v.places o.1.regs o.2).map fun d => (d, match o.1 with
      | .src _ f => f
      | _ => .int) else []

/-- R118: whether a place is pending. -/
def isPending (th : Thread) (g : Group) : Dst → Bool
  | .stack i => th.pend.contains i
  | .uniform i => g.kpend.contains i
  | .zero => false

/-- Whether a place holds an uncorrectable word (R103). -/
def isBad (th : Thread) (g : Group) : Dst → Bool
  | .stack i => th.bad.contains i
  | .uniform i => g.kbad.contains i
  | .zero => false

/-- R103: whether a place holds a word with one wrong bit, which its read corrects. -/
def isWeak (th : Thread) : Dst → Bool
  | .stack i => th.weak.contains i
  | _ => false

/-- R425: the poison value of a word read in a format. -/
def PFmt.poison : PFmt → Word
  | .int => 0
  | .f32 => 0x7FC00000
  | .f16 => 0x7E007E00
  | .bf16 => 0x7FC07FC0
  | .e4m3 => 0x7F7F7F7F
  | .e5m2 => 0x7E7E7E7E

/-- The lane with the poison value in place of an uncorrectable word (R425). -/
def Lane.poisoned (v : Lane) (d : Dst) (f : PFmt) : Lane :=
  match d with
  | .stack i => { v with th := { v.th with stack := Store.wr 0 v.th.stack i f.poison } }
  | .uniform i => { v with g := { v.g with k := Store.wr 0 v.g.k i f.poison } }
  | .zero => v

/-- Whether an operand names clk.lo, whose read latches clk.hi (R116). -/
def readsClock (r : Row) (x : Fields) : Bool := (r.operands x).any fun o => o.1.reads && o.2 == 56

end Sys2Proof.Machine
end

