-- ==== Sys2Proof/Machine/Memory.lean ====
section
/-!
DEFINITION. The bytes of HBM: home slices and their lines (R45 to R48), poison, compression (R59 to R62), the crossbars (R51), the
write queues with the atomics (R56 to R58, R253), the load caches (R104, R105), and the raw accesses (R62). A write is put into the
one coherent memory when its home slice applies it, so write-back moves no byte (R49).
-/
namespace Sys2Proof.Machine

def dieSize : Nat := 0x3000000000
def metaOffset : Nat := 0x2FE8000000

/-- R18: an address in an HBM range, metadata apart. -/
def inHbm (a : Nat) : Bool := decide (a < 2 * dieSize) && decide (a % dieSize < metaOffset)
/-- R19. -/
def dieOfAddr (a : Nat) : Nat := a / dieSize
/-- R19: the stack within its die, and the module stack number. -/
def stackOf (a : Nat) : Nat := bits a 9 8 ^^^ bits a 19 18 ^^^ bits a 29 28
def moduleStack (a : Nat) : Nat := 4 * dieOfAddr a + stackOf a
/-- R45: the home slice within its die. -/
def homeSlice (a : Nat) : Nat := (a % dieSize / 256) % 48
/-- R18: where the code of the block at a lies, and whether it is the high half of the byte. -/
def codeAddr (a : Nat) : Nat := dieOfAddr a * dieSize + metaOffset + (a % dieSize) / 512

/-- A memory lists rising addresses and no byte equal to what an unlisted address reads as, 0 (R12, R459). -/
def Memory.wf (m : List Host.Cell) : Bool := Store.rising 0 m && m.all fun c => c.2 != 0

/-- A byte as stored in HBM. -/
def State.stored (s : State) (a : Nat) : Byte := Store.rd 0 s.hbm a
def State.setStored (s : State) (a : Nat) (b : Byte) : State := { s with hbm := Store.wr 0 s.hbm a b }
def State.storedBytes (s : State) (a n : Nat) : List Byte := (List.range n).map fun i => s.stored (a + i)
/-- Store consecutive bytes from a on. -/
def setBytes (m : List Host.Cell) : Nat → List Byte → List Host.Cell
  | _, [] => m
  | a, b :: bs => setBytes (Store.wr 0 m a b) (a + 1) bs
def State.setStoredBytes (s : State) (a : Nat) (bs : List Byte) : State := { s with hbm := setBytes s.hbm a bs }

/-- R18, R59: the metadata code of the block that holds a. -/
def State.code (s : State) (a : Nat) : Nat :=
  let b := (s.stored (codeAddr a)).toNat
  if a.testBit 8 then b / 16 else b % 16
def State.setCode (s : State) (a c : Nat) : State :=
  let b := (s.stored (codeAddr a)).toNat
  s.setStored (codeAddr a) (BitVec.ofNat 8 (if a.testBit 8 then b % 16 + 16 * c else b / 16 * 16 + c))

/-- R59: bytes of the elements and of the deltas of a base-and-delta form. -/
def deltaForm : Nat → Option (Nat × Nat)
  | 3 => some (8, 1)
  | 4 => some (4, 1)
  | 5 => some (8, 2)
  | 6 => some (4, 2)
  | 7 => some (8, 4)
  | _ => none

/-- R59: expand the stored bytes of a code; `none` for a reserved code. -/
def expand (code : Nat) (st : List Byte) : Option (List Byte) :=
  match code with
  | 0 => some (st.take 256)
  | 1 => some (List.replicate 256 0)
  | 2 => some ((List.range 64).flatMap fun _ => st.take 4)
  | c => match deltaForm c with
    | some (e, d) =>
      let base := field st 0 e
      some ((List.range (256 / e)).flatMap fun i => toBytes e (modPow (base + sext (field st (e + i * d) d) (8 * d)) (8 * e)))
    | none => none

/-- R60: the stored bytes of a block under a code, when the code reproduces the block. -/
def packAs (code : Nat) (bs : List Byte) : Option (List Byte) :=
  match code with
  | 0 => some bs
  | 1 => if bs.all (· == 0) then some [] else none
  | 2 => if (List.range 64).all fun i => (bs.drop (4 * i)).take 4 == bs.take 4 then some (bs.take 4) else none
  | c => match deltaForm c with
    | some (e, d) =>
      let base := field bs 0 e
      let ds := (List.range (256 / e)).map fun i => sext (modPow ((field bs (e * i) e : Int) - base) (8 * e)) (8 * e)
      let lim : Int := 2 ^ (8 * d - 1)
      if ds.all fun v => decide (-lim ≤ v) && decide (v < lim)
      then some (toBytes e base ++ ds.flatMap fun v => toBytes d (modPow v (8 * d))) else none
    | none => none

/-- R60: codes by fewest sectors, the lowest code first on a tie. -/
def codeOrder : List Nat := [1, 2, 3, 4, 5, 6, 7, 0]

/-- R60: the code chosen for a block and its stored bytes. -/
def pack (bs : List Byte) : Nat × List Byte :=
  (codeOrder.findSome? fun c => (packAs c bs).map fun st => (c, st)).getD (0, bs)

/-- R59: the expanded bytes of the block at a (a multiple of 256); `none` for a reserved code. -/
def State.block (s : State) (a : Nat) : Option (List Byte) := expand (s.code a) (s.storedBytes a 256)

/-- The byte at physical address a, as a translated access through a leaf with the given CMP reads it (R61). -/
def State.byteAt (s : State) (cmp : Bool) (a : Nat) : Byte :=
  if cmp then ((s.block (a / 256 * 256)).getD (List.replicate 256 0)).getD (a % 256) 0 else s.stored a
def State.bytesAt (s : State) (cmp : Bool) (a n : Nat) : List Byte :=
  if cmp then
    if a / 256 = (a + n - 1) / 256 then
      (((s.block (a / 256 * 256)).getD (List.replicate 256 0)).drop (a % 256)).take n
    else (List.range n).map fun i => s.byteAt cmp (a + i)
  else s.storedBytes a n

/-- R47, R58: whether a sector that the bytes meet is poisoned. -/
def meetsSector (a n p : Nat) : Bool := decide (a / 32 ≤ p) && decide (p ≤ (a + n - 1) / 32)
def State.isPoisoned (s : State) (a n : Nat) : Bool := s.poison.any fun p => meetsSector a n p.1
/-- R426: the source code of the first poisoned sector that the bytes meet. -/
def State.poisonSource (s : State) (a n : Nat) : Nat := ((s.poison.find? fun p => meetsSector a n p.1).map Prod.snd).getD 3

/-- R47: a write that covers a whole sector clears its poison. -/
def clearPoison (ps : Store Nat) (a n : Nat) : Store Nat := ps.filter fun p => !(decide (a ≤ 32 * p.1) && decide (32 * p.1 + 32 ≤ a + n))

/-- Whether a bit error lies in a word that the bytes meet. -/
def Upset.meets (u : Upset) (a n : Nat) : Bool := decide (u.addr < a + n) && decide (a < u.addr + 4)
/-- A write of the whole word of a slice or of HBM ends its bit errors. -/
def clearUpsets (us : List Upset) (a n : Nat) : List Upset :=
  us.filter fun u => !((u.array == .slice || u.array == .hbm) && decide (a ≤ u.addr) && decide (u.addr + 4 ≤ a + n))

/-- Write bytes that lie in one 256-byte block. Under CMP the block is expanded, merged and packed again (R61). DESIGN CHOICE (log 44):
of the last sector of a form, the bytes beyond the stored ones keep what HBM held. -/
def State.writeIn (s : State) (cmp : Bool) (a : Nat) (bs : List Byte) : State :=
  let s := { s with poison := clearPoison s.poison a bs.length, upsets := clearUpsets s.upsets a bs.length }
  if cmp then
    let base := a / 256 * 256
    let old := (s.block base).getD (List.replicate 256 0)
    let (c, st) := pack (old.take (a % 256) ++ bs ++ old.drop (a % 256 + bs.length))
    (s.setStoredBytes base st).setCode base c
  else s.setStoredBytes a bs

/-- Write bytes across block boundaries; `fuel` bounds the number of blocks. -/
def State.writeFuel : Nat → State → Bool → Nat → List Byte → State
  | 0, s, _, _, _ => s
  | fuel + 1, s, cmp, a, bs =>
    if bs.isEmpty then s
    else
      let n := 256 - a % 256
      State.writeFuel fuel (s.writeIn cmp a (bs.take n)) cmp (a + n) (bs.drop n)

def State.writeBytes (s : State) (cmp : Bool) (a : Nat) (bs : List Byte) : State :=
  State.writeFuel (bs.length / 256 + 2) s cmp a bs

/-- The work identifier of the thread in a slot; 0 for the thresher slot (R133). -/
def State.threadWid (s : State) (key : Nat) : DWord :=
  if isThresher key then 0
  else match Store.get s.threads key with
    | none => 0
    | some th => ((Store.get s.groups th.gid).map fun (g : Group) => g.wid th.tid).getD 0

/-- R426: count an uncorrectable event and keep it for the report of its period. -/
def State.countError (s : State) (source core ctx : Nat) (thread : Option Nat) (pc addr : Nat) : State :=
  let s := { s with errors := Store.wr 0 s.errors source (satAdd (Store.rd 0 s.errors source) 1) }
  match Store.get s.ctxs ctx with
  | none => s
  | some c =>
    let same (e : UEvent) : Bool := e.source == source && e.core == core && e.ctx == ctx && e.tenant == c.tenant
    if !c.errpol.getLsbD 1 then s
    else if s.uevents.any same then { s with uevents := s.uevents.map fun e => if same e then { e with count := e.count + 1 } else e }
    else { s with uevents := s.uevents ++
      [{ source := source, core := core, ctx := ctx, tenant := c.tenant, thread := thread, wid := (thread.map s.threadWid).getD 0, pc := pc,
         addr := addr, count := 1 }] }

/-- R426: counters with no source code: 8 CESRAM, 9 CEHBM. -/
def State.countCorrected (s : State) (n : Nat) : State := { s with errors := Store.wr 0 s.errors n (satAdd (Store.rd 0 s.errors n) 1) }

/-- R47, R425: a poison value is delivered; it counts by the array that held the bad word. -/
def State.countPoison (s : State) (a n core ctx : Nat) (thread : Option Nat) (pc : Nat) : State :=
  s.countError (s.poisonSource a n) core ctx thread pc a

/-- R20, R47: the bytes are read out of a slice, or out of HBM where their line is absent: single-bit errors are corrected and counted;
an uncorrectable word poisons its sector. -/
def State.sense (s : State) (a n : Nat) : State :=
  let here (u : Upset) : Bool := Upset.meets u a n &&
    match u.array with
    | .slice => (Store.get s.lines (u.addr / 128)).isSome
    | .hbm => (Store.get s.lines (u.addr / 128)).isNone
    | _ => false
  (s.upsets.filter here).foldl (fun s u =>
    if u.double then { s with poison := Store.put s.poison (u.addr / 32) (if u.array = .slice then 4 else 3), upsets := s.upsets.erase u }
    else s.countCorrected (if u.array = .slice then 8 else 9)) s

/-- The blocks at the ends of a range. -/
def endBlocks (a n : Nat) : List Nat := [a / 256 * 256, (a + n - 1) / 256 * 256].eraseDups
/-- R59: a block with a reserved code. -/
def State.reserved (s : State) (cmp : Bool) (a n : Nat) : Bool := cmp && (endBlocks a n).any fun b => 8 ≤ s.code b
/-- R59: a slice that reads blocks of which one has a reserved code poisons its eight sectors and counts one error. -/
def State.checkBlocks (s : State) (bs : List Nat) (core ctx : Nat) (thread : Option Nat) (pc : Nat) : State :=
  bs.foldl (fun s b =>
    if 8 ≤ s.code b && !((List.range 8).all fun k => (Store.get s.poison (b / 32 + k)).isSome) then
      ({ s with poison := (List.range 8).foldl (fun ps k => Store.put ps (b / 32 + k) 4) s.poison }).countError 4 core ctx thread pc b
    else s) s
def State.checkCode (s : State) (cmp : Bool) (a n core ctx : Nat) (thread : Option Nat) (pc : Nat) : State :=
  if cmp then s.checkBlocks (endBlocks a n) core ctx thread pc else s
/-- R61, R59: a write reads the blocks that it does not cover. -/
def State.checkMerge (s : State) (cmp : Bool) (a n core ctx : Nat) (thread : Option Nat) (pc : Nat) : State :=
  if cmp then s.checkBlocks ((endBlocks a n).filter fun b => decide (b < a) || decide (a + n < b + 256)) core ctx thread pc else s

/-- R46: the set of a line in its slice: 1,024 sets of 16 ways. DESIGN CHOICE (log 45): the manual gives no index; consecutive lines of
a slice take consecutive sets. -/
def sliceSet (line : Nat) : Nat := (128 * line % dieSize / 256 / 48 * 2 + line % 2) % 1024
def sameSet (l m : Nat) : Bool :=
  dieOfAddr (128 * l) == dieOfAddr (128 * m) && homeSlice (128 * l) == homeSlice (128 * m) && sliceSet l == sliceSet m

/-- R46, R47: a line leaves its slice; a dirty one is written back, with its uncorrectable words as poison. -/
def State.dropLine (s : State) (line : Nat) : State :=
  let mine (u : Upset) : Bool := u.array == .slice && u.addr / 128 == line
  let dirty := ((Store.get s.lines line).map LineTag.dirty).getD false
  { s with lines := Store.del s.lines line, upsets := s.upsets.filter fun u => !mine u,
           poison := (s.upsets.filter fun u => mine u && u.double && dirty).foldl (fun ps u => Store.put ps (u.addr / 32) 4) s.poison }

/-- R46: the way that a full set gives up: the lowest priority, and of these the least recently used. -/
def victim : List (Nat × LineTag) → Option Nat
  | [] => none
  | e :: es => some (es.foldl (fun (b : Nat × LineTag) f =>
      if f.2.prio < b.2.prio || (f.2.prio == b.2.prio && decide (f.2.used < b.2.used)) then f else b) e).1

/-- SLICE_EVICTION (R46): a line takes a way of its set. -/
def State.allocate (s : State) (line prio : Nat) (dirty : Bool) : State :=
  let set := s.lines.filter fun e => sameSet e.1 line && e.1 != line
  let s := if set.length < 16 then s
    else match victim set with
      | some v => s.dropLine v
      | none => s
  { s with lines := Store.put s.lines line { prio := prio, dirty := dirty, used := s.lineUses }, lineUses := s.lineUses + 1 }

/-- R46, R48: an access through a leaf uses its line, or allocates it; a write-back store leaves it dirty. The priority changes when the
line is filled or written. -/
def State.touchLine (s : State) (line cl wp ep : Nat) (store : Bool) : State :=
  match Store.get s.lines line with
  | some t => { s with lines := Store.put s.lines line { prio := if store then ep else t.prio, used := s.lineUses,
                                                         dirty := t.dirty || (store && wp == 0 && cl != 0) },
                       lineUses := s.lineUses + 1 }
  | none => if cl = 0 || (store && wp == 2) then s else s.allocate line ep (store && wp == 0)
/-- The lines that n bytes from a on meet. -/
def linesOf (a n : Nat) : List Nat := (List.range ((a + n - 1) / 128 - a / 128 + 1)).map (a / 128 + ·)
def State.touchLines (s : State) (a n cl wp ep : Nat) (store : Bool) : State :=
  (linesOf a n).foldl (fun s l => s.touchLine l cl wp ep store) s

/-- R253: the new word of an integer atomic of n bits. -/
def atomicValue (code n old b c : Nat) : Nat :=
  match code with
  | 1 => (old + b) % 2 ^ n
  | 2 => (old + 2 ^ n - b) % 2 ^ n
  | 3 => min old b
  | 4 => max old b
  | 5 => old &&& b
  | 6 => old ||| b
  | 7 => old ^^^ b
  | 8 => b
  | 9 => if old = b then c else old
  | 10 => if b ≤ old then 0 else old + 1
  | 11 => if old = 0 || b < old then b else old - 1
  | 12 => if sext old n ≤ sext b n then old else b
  | 13 => if sext old n ≤ sext b n then b else old
  | 16 => addRne old b
  | 17 => max old (b % 2 ^ 31)
  | 18 => max old b
  | _ => old

/-- R58, R425: what an atomic on a poisoned sector returns. -/
def atomicPoison (code : Nat) : Nat := if code = 16 then 0x7FC00000 else 0

/-- Bytes of operation `op` from `off` on have arrived, poisoned or not. -/
def State.arrive (s : State) (op off : Nat) (bs : List Byte) (poison : Option Nat) : State :=
  { s with ops := Store.upd s.ops op fun o =>
      match o.kind with
      | .load l => { o with kind := .load { l with
          data := l.data.take off ++ bs ++ l.data.drop (off + bs.length), left := l.left - 1,
          poison := if l.poison.isSome then l.poison else poison } }
      | _ => o }

/-- R451: the mode of a context: 0 SEEDED, 1 FREE, 2 RECORD, 3 REPLAY. -/
def Ctx.mode (c : Ctx) : Nat := bits c.detmode.toNat 1 0
def State.mode (s : State) (c : Nat) : Nat := ((Store.get s.ctxs c).map Ctx.mode).getD 0

/-- R454: bytes 7:0 of a record: KIND is added when it is written; QUEUE and the record index of a launch. -/
def State.logHead (s : State) (launch : Nat) : Nat :=
  match Store.get s.launches launch with
  | some l => l.record.queue * 2 ^ 8 + l.record.index % 2 ^ 48 * 2 ^ 16
  | none => 0

/-- R454: a choice made in a RECORD context is to be logged. -/
def State.logChoice (s : State) (r : LogRec) : State :=
  if s.mode r.ctx = 2 then { s with logPending := s.logPending ++ [r] } else s

/-- R454: the arrival of an atomic at its word: kind 2 for an FP addend, kind 5 for another returning atomic. -/
def State.logAtomic (s : State) (p : Pending) (old : Nat) : State :=
  if p.code = 16 then
    s.logChoice { ctx := p.ctx, kind := 2, head := s.logHead p.launch, who := p.who.toNat, x := p.va, y := 0 }
  else if p.returns then
    s.logChoice { ctx := p.ctx, kind := 5, head := s.logHead p.launch, who := p.who.toNat, x := p.va, y := old }
  else s

/-- The thread that a pending operation answers, for its error reports: core, thread, program counter. -/
def State.asker (s : State) (p : Pending) : Nat × Option Nat × Nat :=
  match Store.get s.ops p.op with
  | some o => (o.core, some o.thread, o.pc)
  | none => (0xFFFF, none, 0)

/-- R45 to R48, R59: what a slice does with the line of a pending operation before it applies it. -/
def State.reach (s : State) (p : Pending) : State :=
  let w := s.asker p
  let s := if p.code = 0 then s else s.sense p.pa p.size
  (s.checkMerge p.cmp p.pa p.size w.1 p.ctx w.2.1 w.2.2).touchLines p.pa p.size p.cl p.wp p.ep true

/-- Apply one pending write or atomic to the word it names (R56 to R58). -/
def State.applyOne (s : State) (p : Pending) : State :=
  let w := s.asker p
  let s := s.reach p
  if p.code = 0 then s.writeBytes p.cmp p.pa p.data
  else if s.isPoisoned p.pa p.size then
    let s := s.countPoison p.pa p.size w.1 p.ctx w.2.1 w.2.2
    let s := s.logAtomic p (atomicPoison p.code)
    if p.returns then s.arrive p.op p.off (toBytes p.size (atomicPoison p.code)) (some p.pa) else s
  else
    let old := ofBytes (s.bytesAt p.cmp p.pa p.size)
    let s := s.writeBytes p.cmp p.pa (toBytes p.size (atomicValue p.code (8 * p.size) old (ofBytes p.data) (ofBytes p.cas)))
    let s := s.logAtomic p old
    if p.returns then s.arrive p.op p.off (toBytes p.size old) none else s

/-- R57: the addends with .RA of one word that may share a step with the first: those before any other operation on it. -/
def pullAddends (pa : Nat) : List Pending → List Nat × List Pending
  | [] => ([], [])
  | p :: ps =>
    if p.code == 16 && p.ra && !p.returns && p.pa == pa then
      let r := pullAddends pa ps
      (ofBytes p.data :: r.1, r.2)
    else if p.pa < pa + 4 && pa < p.pa + p.size then ([], p :: ps)
    else
      let r := pullAddends pa ps
      (r.1, p :: r.2)

/-- Apply pending operations in arrival order, merging addends with .RA (R57). -/
def State.applyAll : Nat → State → List Pending → State
  | 0, s, _ => s
  | _, s, [] => s
  | fuel + 1, s, p :: ps =>
    let u := s.reach p
    if p.code == 16 && p.ra && !p.returns && !u.isPoisoned p.pa 4 then
      let r := pullAddends p.pa ps
      let w := combineAddends (ofBytes (u.bytesAt p.cmp p.pa 4)) (ofBytes p.data :: r.1)
      State.applyAll fuel (u.writeBytes p.cmp p.pa (toBytes 4 w)) r.2
    else State.applyAll fuel (s.applyOne p) ps

/-- R56: whether a pending operation lies in a 128-byte line. -/
def Pending.inLine (p : Pending) (line : Nat) : Bool := decide (p.pa / 128 ≤ line) && decide (line ≤ (p.pa + p.size - 1) / 128)

/-- R56: a slice applies the entry of one line. -/
def State.applyEntry (s : State) (line : Nat) : State :=
  let mine := s.wq.filter fun p => p.inLine line
  State.applyAll mine.length { s with wq := s.wq.filter fun p => !p.inLine line } mine

/-- R50: the input ports by number: cores, copy engines, bridge ports and service ports; and the die of each. -/
def enginePort (e : Nat) : Nat := 192 + e
def bridgeIn (die b : Nat) : Nat := 224 + 4 * die + b
def servicePort (die n : Nat) : Nat := 232 + 8 * die + n
def portDie (i : Nat) : Nat :=
  if i < 192 then i / 96 else if i < 224 then (i - 192) / 16 else if i < 232 then (i - 224) / 4 else (i - 232) / 8
/-- R50: the output ports by number: the slices of both dies, then the bridge ports. -/
def sliceOut (a : Nat) : Nat := 48 * dieOfAddr a + homeSlice a
def bridgeOut (die b : Nat) : Nat := 96 + 4 * die + b
/-- R54: the first output of a request to address a. DESIGN CHOICE (log 46): home slice n is reached over bridge port n mod 4. -/
def firstOut (input a : Nat) : Nat := if portDie input = dieOfAddr a then sliceOut a else bridgeOut (portDie input) (homeSlice a % 4)

/-- R56: the lines that hold an entry of a slice's write queue, the oldest first. -/
def State.entries (s : State) (out : Nat) : List Nat := ((s.wq.filter fun p => sliceOut p.pa == out).map fun p => p.pa / 128).eraseDups
/-- R56: a slice with 64 entries takes no write to a new line. -/
def State.admits (s : State) (r : PortReq) : Bool :=
  decide (96 ≤ r.output) || (s.entries r.output).contains (r.req.pa / 128) || decide ((s.entries r.output).length < 64)
/-- R52: the oldest request of each input for an output. -/
def portHeads (out : Nat) : List PortReq → List PortReq
  | [] => []
  | r :: rs => if r.output = out then r :: (portHeads out rs).filter fun q => q.input != r.input else portHeads out rs
/-- R51: the input granted least recently. DESIGN CHOICE (log 46): inputs never granted come first, the lowest number first. -/
def leastRecent (order ins : List Nat) : Option Nat :=
  match ins.filter fun i => !order.contains i with
  | i :: is => some (is.foldl min i)
  | [] => order.find? fun i => ins.contains i
/-- R51: an input becomes the most recently granted at an output. -/
def State.noteGrant (s : State) (out input : Nat) : State :=
  { s with grants := Store.put s.grants out (((Store.get s.grants out).getD []).filter (· != input) ++ [input]) }
/-- R51, R54: the grants of a request that is performed at once. -/
def State.pass (s : State) (input a : Nat) : State :=
  if portDie input = dieOfAddr a then s.noteGrant (sliceOut a) input
  else (s.noteGrant (firstOut input a) input).noteGrant (sliceOut a) (bridgeIn (dieOfAddr a) (homeSlice a % 4))
/-- R51: an output grants one request: into the slice's write queue, or over the bridge to the other crossbar. -/
def State.grant (s : State) (out : Nat) : State :=
  let hs := (portHeads out s.portHeld).filter s.admits
  match (leastRecent ((Store.get s.grants out).getD []) (hs.map PortReq.input)).bind fun i => hs.find? fun r => r.input == i with
  | none => s
  | some r =>
    let s := ({ s with portHeld := s.portHeld.erase r }).noteGrant out r.input
    if out < 96 then { s with wq := s.wq ++ [r.req] }
    else { s with portHeld := s.portHeld ++
      [{ input := bridgeIn (dieOfAddr r.req.pa) (homeSlice r.req.pa % 4), output := sliceOut r.req.pa, req := r.req }] }
/-- R56: a full write queue applies its oldest entry. -/
def State.makeRoom (s : State) (out : Nat) : State :=
  match s.entries out with
  | l :: ls => if 63 ≤ ls.length then s.applyEntry l else s
  | [] => s
/-- Grant until no request that `want` picks is held; `fuel` bounds the grants. -/
def State.pull (want : PortReq → Bool) : Nat → State → State
  | 0, s => s
  | fuel + 1, s =>
    match s.portHeld.find? want with
    | none => s
    | some r => State.pull want fuel ((s.makeRoom r.output).grant r.output)
def State.pullAll (s : State) (want : PortReq → Bool) : State := State.pull want (2 * s.portHeld.length) s

/-- Everything held or pending for one line is applied. -/
def State.drainLine (s : State) (line : Nat) : State := (s.pullAll fun r => r.req.inLine line).applyEntry line

/-- Everything pending is applied: what a release, a fence or a completion waits for (R367, R258, R378). -/
def State.drainAll (s : State) : State :=
  let s := s.pullAll fun _ => true
  State.applyAll s.wq.length { s with wq := [] } s.wq

/-- Reads see the writes that are pending for their lines (R360). -/
def State.drainFor (s : State) (a n : Nat) : State :=
  if s.wq.isEmpty && s.portHeld.isEmpty then s else (linesOf a n).foldl (fun s l => s.drainLine l) s

/-- Cut bytes from a on at line boundaries. -/
def lineParts : Nat → Nat → List Byte → List (Nat × List Byte)
  | 0, _, _ => []
  | fuel + 1, a, bs =>
    if bs.isEmpty then []
    else
      let n := 128 - a % 128
      (a, bs.take n) :: lineParts fuel (a + n) (bs.drop n)
/-- R51: a request joins those that its input port holds. -/
def State.request (s : State) (input : Nat) (p : Pending) : State :=
  { s with portHeld := s.portHeld ++ [{ input := input, output := firstOut input p.pa, req := p }] }

/-- The 256-byte blocks that n bytes from a on meet, as their lines. -/
def blockLines (a n : Nat) : List Nat := (List.range (2 * ((a + n - 1) / 256 - a / 256 + 1))).map (a / 256 * 2 + ·)
/-- R62: dirty copies are written back and kept. -/
def State.writeBack (s : State) (ls : List Nat) : State :=
  ls.foldl (fun s l => { s with lines := Store.upd s.lines l fun t => { t with dirty := false } }) s

/-- R62: a raw read sees the stored bytes; the slice writes its dirty copies of the blocks back first. -/
def State.rawRead (s : State) (a n : Nat) : State × List Byte × Bool :=
  let ls := blockLines a n
  let s := (ls.foldl State.drainLine s).writeBack ls
  let s := s.sense a n
  (s, s.storedBytes a n, s.isPoisoned a n)

/-- R62: a raw write leaves the blocks' codes as they are and drops the slice's copies of the blocks. -/
def State.rawWrite (s : State) (a : Nat) (bs : List Byte) : State :=
  let ls := blockLines a bs.length
  let s := ls.foldl State.dropLine (ls.foldl State.drainLine s)
  ({ s with poison := clearPoison s.poison a bs.length, upsets := clearUpsets s.upsets a bs.length }).setStoredBytes a bs

/-- Key of a core's load-cache line. -/
def lcKey (core line : Nat) : Nat := core * 2 ^ 45 + line

/-- R105: a core's whole load cache is invalidated. -/
def State.invalidateCache (s : State) (core : Nat) : State :=
  { s with loadCache := Store.clear s.loadCache (core * 2 ^ 45) (2 ^ 45) }

/-- The bit errors of a core's load cache that a write of n bytes from a on, or a refill of those bytes, ends. -/
def clearCached (us : List Upset) (core a n : Nat) : List Upset :=
  us.filter fun u => !(u.array == .loadCache && u.core == core && decide (a ≤ u.addr) && decide (u.addr + 4 ≤ a + n))
/-- R104: a store of the core itself updates its copy of the line. -/
def State.updateCache (s : State) (core a : Nat) (bs : List Byte) : State :=
  (List.range bs.length).foldl (fun s i =>
    { s with loadCache := Store.upd s.loadCache (lcKey core ((a + i) / 128)) fun l => setAt l ((a + i) % 128) (bs.getD i 0) })
    { s with upsets := clearCached s.upsets core a bs.length }

/-- R360: a core's copies of lines that its own atomic changes are given up, so that the thread reads its own value. -/
def State.dropCopies (s : State) (core a n : Nat) : State :=
  { s with loadCache := Store.clear s.loadCache (lcKey core (a / 128)) ((a + n - 1) / 128 - a / 128 + 1) }

/-- R104: lines that one load cache holds, 256 KiB of 128 bytes. -/
def loadCacheLines : Nat := 2048

/-- R104: fill a line. A full cache gives up the line with the lowest address (log 12). -/
def State.fillCache (s : State) (core line : Nat) (bs : List Byte) : State :=
  let mine := s.loadCache.filter fun e => e.1 / 2 ^ 45 == core
  let s := if mine.length < loadCacheLines then s
    else { s with loadCache := Store.del s.loadCache ((mine.map Prod.fst).headD 0) }
  { s with loadCache := Store.put s.loadCache (lcKey core line) bs, upsets := clearCached s.upsets core (128 * line) 128 }

end Sys2Proof.Machine
end

