-- ==== Sys2Proof/Machine/Faults.lean ====
section
/-!
DEFINITION. Tenants, event frames (R469), and the fault queue: the records (R38, R422), their SEQ, the ring and what is held
or dropped (R421).
-/
namespace Sys2Proof.Machine

/-- A tenant that no management request has named yet (R467, R421). -/
def Tenant.fresh : Tenant where
  windows := []
  queues := []
  fq := { base := 0, k := 0, ctrl := 0, widx := 0, ridx := 0, rsm := 0, rsmRead := 0, seq := 0, held := [], drops := 0, advanced := false,
          kinds := [] }
  nodeFirst := 0
  nodeCount := 0
  ctxFirst := 0
  ctxCount := 0
  dest := []
  gazeKey := []
  evseq := 0

def State.tenant (s : State) (t : Nat) : Tenant := (Store.get s.tenants t).getD Tenant.fresh
def State.setTenant (s : State) (t : Nat) (v : Tenant) : State := { s with tenants := Store.put s.tenants t v }

/-- The tenant of a context (R397). -/
def State.tenantOf (s : State) (c : Nat) : Nat := ((Store.get s.ctxs c).map Ctx.tenant).getD 0

/-- R469: send an event frame of a tenant; one with no destination only counts. -/
def State.sendEvent (s : State) (t evt status queue ctx node index value : Nat) : State :=
  let v := s.tenant t
  let payload := toBytes 1 evt ++ toBytes 1 status ++ toBytes 1 t ++ toBytes 1 queue ++ toBytes 2 ctx ++ toBytes 2 node ++
    toBytes 8 index ++ toBytes 8 value ++ toBytes 4 v.evseq.toNat ++ toBytes 8 s.now ++ toBytes 28 0
  let s := s.setTenant t { v with evseq := v.evseq + 1 }
  if v.dest.isEmpty then s else { s with sent := .event t payload :: s.sent }

/-- R30: the range of a window. -/
def windowBase (w : BitVec 128) : Nat := bits w.toNat 51 21 * 2 ^ 21
def windowLen (w : BitVec 128) : Nat := (bits w.toNat 81 64 + 1) * 2 ^ 21
def Tenant.window (t : Tenant) (n : Nat) : BitVec 128 := Store.rd 0 t.windows n

/-- R31: the bytes lie in one enabled window of the tenant that lets contexts translate into it. -/
def State.inDevWindow (s : State) (t a n : Nat) : Bool :=
  (s.tenant t).windows.any fun w =>
    w.2.getLsbD 0 && w.2.getLsbD 1 && decide (windowBase w.2 ≤ a) && decide (a + n ≤ windowBase w.2 + windowLen w.2)

/-- The fields of a fault record that vary (R38). `parks` says that threads park on it. -/
structure RecInit where
  type : Nat
  cause : Nat
  ctx : Nat
  core : Nat
  flags : Nat
  acc : Nat
  slot : Nat
  count : Nat
  wid : DWord
  pc : Nat
  fva : Nat
  entry : Nat
  deriving DecidableEq, Repr

/-- R38: the 64 bytes of a record. -/
def RecInit.bytes (r : RecInit) (seq time : Nat) : List Byte :=
  toBytes 1 r.type ++ toBytes 1 r.cause ++ toBytes 2 r.ctx ++ toBytes 2 r.core ++ toBytes 1 r.flags ++ toBytes 1 r.acc ++
  toBytes 2 r.slot ++ toBytes 2 0 ++ toBytes 4 r.count ++ toBytes 8 seq ++ toBytes 8 r.wid.toNat ++ toBytes 8 r.pc ++
  toBytes 8 r.fva ++ toBytes 8 r.entry ++ toBytes 8 time

/-- R421: write the oldest held record if the ring has a free slot, then advance WIDX as a release at module scope. -/
def State.writeHeld (s : State) (t : Nat) : State :=
  let v := s.tenant t
  let q := v.fq
  match q.held with
  | [] => s
  | r :: rest =>
    if q.k = 0 || 2 ^ q.k ≤ q.widx - q.ridx then s
    else
      let s := (s.rawWrite (q.base + 64 * (r.seq % 2 ^ q.k)) r.bytes).drainAll
      let s := s.rawWrite q.ctrl (toBytes 8 (r.seq + 1))
      let s := s.rawWrite (q.ctrl + 24) (toBytes 8 rest.length ++ toBytes 4 q.drops.toNat)
      s.setTenant t { v with fq := { q with held := rest, widx := r.seq + 1, advanced := true } }

/-- R421: a detected record takes the next SEQ and joins those held; it is written at once when nothing is held before it
and a slot is free. -/
def State.enqueueRecord (s : State) (t : Nat) (r : RecInit) : State × Nat :=
  let v := s.tenant t
  let q := v.fq
  let f : FRec := { seq := q.seq, type := r.type, ctx := r.ctx, bytes := r.bytes q.seq s.now }
  let q := { q with seq := q.seq + 1, held := q.held ++ [f],
                    kinds := if r.flags.testBit 2 then Store.put q.kinds f.seq f else q.kinds }
  let s := s.setTenant t { v with fq := q }
  let s := if q.held.length = 1 then s.writeHeld t else s
  let v := s.tenant t
  let s := if v.fq.held.isEmpty || v.fq.k = 0 then s else s.rawWrite (v.fq.ctrl + 24) (toBytes 8 v.fq.held.length)
  (s, f.seq)

/-- R421: one more record dropped. -/
def State.dropRecord (s : State) (t : Nat) : State :=
  let v := s.tenant t
  let d := satAdd v.fq.drops 1
  let s := s.setTenant t { v with fq := { v.fq with drops := d } }
  if v.fq.k = 0 then s else s.rawWrite (v.fq.ctrl + 32) (toBytes 4 d.toNat)

/-- R421: add n to COUNT and ENTRY of a held record of type 0x03. -/
def FRec.grow (r : FRec) (n : Nat) : FRec :=
  { r with bytes := r.bytes.take 12 ++ toBytes 4 (field r.bytes 12 4 + n) ++ (r.bytes.drop 16).take 32 ++
      toBytes 8 (field r.bytes 48 8 + n) ++ r.bytes.drop 56 }

/-- R421: detect a record. The answer is the SEQ that its threads park on; `none` when it was dropped. -/
def State.report (s : State) (t : Nat) (r : RecInit) : State × Option Nat :=
  let q := (s.tenant t).fq
  if 256 ≤ q.held.length && r.type == 7 then (s.dropRecord t, none)
  else if 256 ≤ q.held.length && r.type == 3 then
    match (q.held.filter fun f => f.type == 3).getLast? with
    | some f =>
      let s := s.dropRecord t
      let v := s.tenant t
      (s.setTenant t { v with fq := { v.fq with held := v.fq.held.map fun h => if h.seq == f.seq then h.grow r.count else h } },
        some f.seq)
    | none => let a := s.enqueueRecord t r; (a.1, some a.2)
  else let a := s.enqueueRecord t r; (a.1, some a.2)

/-- The context number, core, FLAGS, SLOT, WID and PC of a record that names a thread (R38, R422). -/
def State.namedRecord (s : State) (key type cause acc level count : Nat) (parks ord : Bool) (pc fva entry : Nat) : RecInit :=
  let th := Store.get s.threads key
  let g := th.bind fun t => Store.get s.groups t.gid
  { type := type, cause := cause, ctx := (g.map Group.ctx).getD 0, core := coreOf key,
    flags := quadOf key + 4 * boolNat parks + 8 * boolNat ord + 16 * level, acc := acc, slot := slotNo key, count := count,
    wid := if isThresher key then 0 else match th, g with
      | some t, some g => g.wid t.tid
      | _, _ => 0,
    pc := pc, fva := fva, entry := entry }

end Sys2Proof.Machine
end

