-- ==== Sys2Proof/Machine/Translate.lean ====
section
/-!
DEFINITION. Translation: canonical addresses (R22), the walk (R24 to R31), the caches (R33, R34), the miss queues (R36, R37),
and what a thread does with an access that has translated (R246 to R256).
-/
namespace Sys2Proof.Machine

/-- R22: an address that the context's mode admits. -/
def Ctx.canonical (c : Ctx) (va : Nat) : Bool := decide (va < if c.root.getLsbD 63 then 2 ^ 57 else 2 ^ 48)

/-- R24: the page size of a leaf at a level, as a power of two. -/
def pageBits (level : Nat) (c : Bool) : Nat :=
  match level with
  | 0 => if c then 16 else 12
  | 1 => if c then 28 else 21
  | _ => 32

/-- The physical base of a leaf's frame: of this module (R26), or of a peer (R23). -/
def frameAddr (e : DWord) : Nat :=
  if e.getLsbD 59 then bits e.toNat 45 19 * 4096 else bits e.toNat 58 19 * 4096

/-- R27: a leaf with a format error, apart from the check of its frame against the HBM ranges. -/
def leafBad (level : Nat) (e : DWord) : Bool :=
  let n := e.toNat
  let c := n.testBit 60
  let g := n.testBit 59
  let cl := bits n 3 2
  let wp := bits n 5 4
  bits n 63 61 != 0 || bits n 18 13 != 0 || bits n 10 9 == 3 || wp == 3 || cl == 3 ||
  decide (3 ≤ level) || (level == 2 && !c) ||
  decide (bits n 58 19 % 2 ^ (pageBits level c - 12) ≠ 0) ||
  (cl == 0 && wp != 0) || (n.testBit 6 && (cl == 0 || g)) || (g && (cl == 2 || bits n 48 46 != 0))

/-- R26, R27: a table pointer has only V and FRAME. -/
def pointerBad (level : Nat) (e : DWord) : Bool :=
  level == 0 || e.toNat % 2 ^ 19 != 1 || bits e.toNat 63 59 != 0

/-- R23: whether a leaf names another module. -/
def State.isPeer (s : State) (e : DWord) : Bool := e.getLsbD 59 && bits e.toNat 58 49 != s.moduleNumber

/-- R28: a page table that a tenant's walks may read. -/
def State.tableOk (s : State) (tenant table : Nat) : Bool := inHbm table && s.inDevWindow tenant table 4096

/-- R55: a request from an input port to the other die's memory while the bridge is stopped. -/
def State.portCut (s : State) (input a : Nat) : Bool := s.bridgeStopped && portDie input != dieOfAddr a

/-- The crossbar input of a die's walkers, and of the module's own accesses to memory. DESIGN CHOICE (log 46): service port 0. -/
def walkerPort (die : Nat) : Nat := servicePort die 0
/-- R35: the entry that a walker of a die reads. DESIGN CHOICE (log 47): one that lies in a poisoned sector, or behind the stopped bridge,
reads as 0, the poison value of an integer. -/
def State.tableEntry (s : State) (die a : Nat) : DWord :=
  if s.portCut (walkerPort die) a then 0
  else
    let s := (s.drainFor a 8).sense a 8
    if s.isPoisoned a 8 then 0 else dword (ofBytes (s.bytesAt false a 8))

/-- R24 to R31: walk from a table at `level`, `prev` the entry that named it. `fuel` bounds the levels. -/
def State.walkFrom (s : State) (die tenant : Nat) : Nat → Nat → Nat → DWord → Nat → WalkEnd
  | 0, level, _, prev, _ => .fault 5 level prev
  | fuel + 1, level, table, prev, va =>
    if !s.tableOk tenant table then .fault 5 level prev
    else
      let e := s.tableEntry die (table + 8 * bits va (20 + 9 * level) (12 + 9 * level))
      if !e.getLsbD 0 then .fault 1 level e
      else if e.getLsbD 1 then
        if leafBad level e then .fault 4 level e
        else
          let b := pageBits level (e.getLsbD 60)
          if s.isPeer e then .leaf (va / 2 ^ b * 2 ^ b) b level e
          else if !inHbm (frameAddr e) then .fault 4 level e
          else if !s.inDevWindow tenant (frameAddr e) (2 ^ b) then .fault 5 level e
          else .leaf (va / 2 ^ b * 2 ^ b) b level e
      else if pointerBad level e then .fault 4 level e
      else State.walkFrom s die tenant fuel (level - 1) (frameAddr e) e va

/-- R33: the table pointer of the lowest level that the die's walk cache holds for an address. -/
def State.cachedPointer (s : State) (die ctx va : Nat) : Option WalkEnt :=
  [1, 2, 3, 4].findSome? fun l =>
    s.walkCache.find? fun w => w.die == die && w.ctx == ctx && w.level == l && w.key == va / 2 ^ (12 + 9 * l)

/-- R24: a whole walk for a context, from the walk cache's pointer or from the root. -/
def State.walk (s : State) (die ctx va : Nat) : WalkEnd :=
  match Store.get s.ctxs ctx with
  | none => .fault 1 4 0
  | some c =>
    match s.cachedPointer die ctx va with
    | some w => s.walkFrom die c.tenant 5 (w.level - 1) (frameAddr w.entry) w.entry va
    | none => s.walkFrom die c.tenant 5 (if c.root.getLsbD 63 then 4 else 3) (bits c.root.toNat 51 12 * 4096) 0 va

/-- The table pointers that a walk meets, for the walk cache (R33); one whose table is refused is not kept (R34). -/
def State.pointers (s : State) (die ctx tenant : Nat) : Nat → Nat → Nat → Nat → List WalkEnt
  | 0, _, _, _ => []
  | fuel + 1, level, table, va =>
    let a := table + 8 * bits va (20 + 9 * level) (12 + 9 * level)
    let e := s.tableEntry die a
    if s.tableOk tenant table && e.getLsbD 0 && !e.getLsbD 1 && !pointerBad level e && s.tableOk tenant (frameAddr e) then
      { die := die, ctx := ctx, level := level, key := va / 2 ^ (12 + 9 * level), entry := e } ::
        State.pointers s die ctx tenant fuel (level - 1) (frameAddr e) va
    else []

/-- The entries that a walk reads, from a table on. -/
def State.trailFrom (s : State) (die tenant : Nat) : Nat → Nat → Nat → Nat → List Nat
  | 0, _, _, _ => []
  | fuel + 1, level, table, va =>
    let a := table + 8 * bits va (20 + 9 * level) (12 + 9 * level)
    if !s.tableOk tenant table then []
    else
      let e := s.tableEntry die a
      a :: (if e.getLsbD 0 && !e.getLsbD 1 && !pointerBad level e then State.trailFrom s die tenant fuel (level - 1) (frameAddr e) va else [])
def State.trail (s : State) (die ctx va : Nat) : List Nat :=
  match Store.get s.ctxs ctx with
  | none => []
  | some c =>
    match s.cachedPointer die ctx va with
    | some w => s.trailFrom die c.tenant 5 (w.level - 1) (frameAddr w.entry) va
    | none => s.trailFrom die c.tenant 5 (if c.root.getLsbD 63 then 4 else 3) (bits c.root.toNat 51 12 * 4096) va
/-- R35, R46, R47: what a walk leaves in the slices: each entry is read through its home slice, at the slice-only level. DESIGN CHOICE
(log 47): its line takes priority 0, and a poisoned entry counts. -/
def State.walked (s : State) (die ctx va : Nat) : State :=
  (s.trail die ctx va).foldl (fun s a =>
    if s.portCut (walkerPort die) a then s.countError 4 0xFFFF ctx none 0 a
    else
      let s := (((s.drainFor a 8).pass (walkerPort die) a).sense a 8).touchLines a 8 1 0 0 false
      if s.isPoisoned a 8 then s.countPoison a 8 0xFFFF ctx none 0 else s) s

/-- Fill the die's walk cache with the pointers of a walk, at most 1,024 entries a die (R33). DESIGN CHOICE (log 48): a full one gives up
the oldest. -/
def State.fillWalkCache (s : State) (die ctx va : Nat) : State :=
  match Store.get s.ctxs ctx with
  | none => s
  | some c =>
    let new := s.pointers die ctx c.tenant 5 (if c.root.getLsbD 63 then 4 else 3) (bits c.root.toNat 51 12 * 4096) va
    let kept := s.walkCache.filter fun w => !(new.any fun n => n.die == w.die && n.ctx == w.ctx && n.level == w.level && n.key == w.key)
    let mine := kept.filter fun w => w.die == die
    let others := kept.filter fun w => w.die != die
    { s with walkCache := new ++ mine.take (1024 - new.length) ++ others }

/-- A translated page as an access uses it (R26). `peer` names the other module that holds it. -/
structure Xlat where
  pa : Nat
  peer : Option Nat
  cl : Nat
  wp : Nat
  ep : Nat
  kind : Nat
  cmp : Bool
  w : Bool
  x : Bool
  deriving DecidableEq, Repr

/-- The translation of an address by a leaf. -/
def State.xlat (s : State) (bitsN : Nat) (e : DWord) (va : Nat) : Xlat where
  pa := frameAddr e + va % 2 ^ bitsN
  peer := if s.isPeer e then some (bits e.toNat 58 49) else none
  cl := bits e.toNat 3 2
  wp := bits e.toNat 5 4
  ep := bits e.toNat 8 7
  kind := bits e.toNat 10 9
  cmp := e.getLsbD 6
  w := e.getLsbD 11
  x := e.getLsbD 12

/-- R33: the caching structures by number: data of quadrant q of core c, instruction of a core, second level of a core,
and copy engine. -/
def dataUnit (core quad : Nat) : Nat := 4 * core + quad
def fetchUnit (core : Nat) : Nat := 1000 + core
def levelTwo (core : Nat) : Nat := 2000 + core
def engineUnit (e : Nat) : Nat := 3000 + e
def unitEntries (u : Nat) : Nat := if u < 1000 then 64 else if u < 2000 then 32 else if u < 3000 then 2048 else 64

def AccessKind.code : AccessKind → Nat
  | .load => 0 | .store => 1 | .atomic => 2 | .fetch => 3 | .copySrc => 4 | .copyDst => 5 | .ray => 6 | .texture => 7

/-- Whether a leaf permits an access of a kind (R26, R41). -/
def Xlat.permits (x : Xlat) : AccessKind → Bool
  | .store | .atomic | .copyDst => x.w
  | .fetch => x.x
  | _ => true
/-- R40: the cause of a refused permission. -/
def AccessKind.denied : AccessKind → Nat
  | .fetch => 3
  | _ => 2

def TlbEntry.covers (e : TlbEntry) (unit ctx va : Nat) : Bool :=
  e.unit == unit && e.ctx == ctx && e.va / 2 ^ e.bits == va / 2 ^ e.bits

/-- Who makes an access to this module's memory: the crossbar input, and what an error report names (R426). -/
structure Asker where
  input : Nat
  core : Nat
  ctx : Nat
  thread : Option Nat
  pc : Nat
  deriving DecidableEq, Repr
/-- The module's own accesses on behalf of a context. -/
def moduleAsker (die ctx : Nat) : Asker := { input := walkerPort die, core := 0xFFFF, ctx := ctx, thread := none, pc := 0 }

/-- What a translated read comes to: its bytes, a poisoned sector, a block with a reserved code (R59), or the stopped bridge (R55). -/
inductive PageRead where
  | bytes (bs : List Byte)
  | poison
  | reserved
  | cut
  deriving DecidableEq, Repr

/-- R45, R47, R48, R55, R59, R61: a read of n bytes of one page of this module at their home slices. Bad data counts here. -/
def State.readPage (s : State) (w : Asker) (x : Xlat) (n : Nat) : State × PageRead :=
  if s.portCut w.input x.pa then (s, .cut)
  else
    let s := ((s.drainFor x.pa n).pass w.input x.pa).sense x.pa n
    let bad := s.reserved x.cmp x.pa n
    let was := s.isPoisoned x.pa n
    let s := (s.checkCode x.cmp x.pa n w.core w.ctx w.thread w.pc).touchLines x.pa n x.cl x.wp x.ep false
    if bad then (if was then s.countPoison x.pa n w.core w.ctx w.thread w.pc else s, .reserved)
    else if was then (s.countPoison x.pa n w.core w.ctx w.thread w.pc, .poison)
    else (s, .bytes (s.bytesAt x.cmp x.pa n))

/-- R45, R48, R61: a write to one page of this module that is performed at once at its home slices; nothing when the bridge is stopped. -/
def State.writePage (s : State) (w : Asker) (x : Xlat) (bs : List Byte) : State :=
  if s.portCut w.input x.pa then s
  else
    let s := (s.drainFor x.pa bs.length).pass w.input x.pa
    let s := s.checkMerge x.cmp x.pa bs.length w.core w.ctx w.thread w.pc
    (s.touchLines x.pa bs.length x.cl x.wp x.ep true).writeBytes x.cmp x.pa bs

/-- The bytes of a read; zeros where it found bad data. -/
def PageRead.orZeros (r : PageRead) (n : Nat) : List Byte :=
  match r with
  | .bytes bs => bs
  | _ => List.replicate n 0

/-- R33: put a leaf into a structure. DESIGN CHOICE (log 48): the manual names no replacement; a full structure gives up its oldest. -/
def State.fillTlb (s : State) (e : TlbEntry) : State :=
  let rest := s.tlb.filter fun t => !(t.unit == e.unit && t.ctx == e.ctx && t.va == e.va && t.bits == e.bits)
  let n := (rest.filter fun t => t.unit == e.unit).length
  let rest := if n < unitEntries e.unit then rest
    else match (rest.filter fun t => t.unit == e.unit).getLast? with
      | some o => rest.filter (· != o)
      | none => rest
  { s with tlb := e :: rest }

/-- Translate with the caches: the unit's own, then its core's second level. An entry that does not permit the access is no
hit, so the access walks (R34, R41). -/
def State.lookup (s : State) (unit core ctx va : Nat) (kind : AccessKind) : State × Option Xlat :=
  match s.tlb.find? fun e => e.covers unit ctx va with
  | some e =>
    let x := s.xlat e.bits e.entry va
    (s, if x.permits kind then some x else none)
  | none =>
    match s.tlb.find? fun e => e.covers (levelTwo core) ctx va with
    | some e =>
      let x := s.xlat e.bits e.entry va
      if x.permits kind then (s.fillTlb { e with unit := unit }, some x) else (s, none)
    | none => (s, none)

/-- An access on its way to the die's miss queue (R36); a thread's waiter is entered once. -/
def State.sendMiss (s : State) (core ctx va : Nat) (w : Waiter) : State :=
  { s with enroute := s.enroute ++ [{ die := dieOf core, ctx := ctx, tenant := s.tenantOf ctx, vpn := va / 4096,
                                      waiters := [w], running := false }] }

/-- R37: walkers of the die take queued walks in order of arrival; while another tenant waits, no tenant holds more than 16.
`left` are the walks still to be seen, `taken` those seen. -/
def assignWalkers (die : Nat) : List Miss → List Miss → List Miss
  | taken, [] => taken
  | taken, m :: left =>
    if m.die != die || m.running then assignWalkers die (taken ++ [m]) left
    else
      let all := taken ++ m :: left
      let busy := (all.filter fun x => x.die == die && x.running).length
      let mine := (all.filter fun x => x.die == die && x.running && x.tenant == m.tenant).length
      let others := all.any fun x => x.die == die && !x.running && x.tenant != m.tenant
      let start := decide (busy < 64) && !(others && decide (16 ≤ mine))
      assignWalkers die (taken ++ [{ m with running := start }]) left

/-- R36, R37: the oldest miss of a die enters its queue, merging with one for the same page of the same context. -/
def State.takeMiss (s : State) (die : Nat) : State :=
  match s.enroute.find? fun m => m.die == die with
  | none => s
  | some m =>
    let s := { s with enroute := s.enroute.erase m }
    let same (x : Miss) : Bool := x.die == die && x.ctx == m.ctx && x.vpn == m.vpn
    if s.misses.any same then
      { s with misses := s.misses.map fun x => if same x then { x with waiters := x.waiters ++ m.waiters } else x }
    else if 2048 ≤ (s.misses.filter fun x => x.die == die).length then { s with enroute := m :: s.enroute }
    else { s with misses := assignWalkers die [] (s.misses ++ [m]) }

/-- R35, R43: a translation that the module makes at once: the walk's end for one access. -/
def State.engineXlat (s : State) (die ctx va : Nat) (kind : AccessKind) : State × Except (Nat × Nat × DWord) Xlat :=
  let res := s.walk die ctx va
  let s := s.walked die ctx va
  match res with
  | .fault c l e => (s, .error (c, l, e))
  | .leaf _ b l e =>
    let s := if e.getLsbD 59 then { s with walkedPeer := true } else s
    let x := s.xlat b e va
    (s, if x.permits kind then .ok x else .error (kind.denied, l, e))

/-- R36: the end of a translation for a copy. -/
def State.setPage (s : State) (op key : Nat) (w : WalkEnd) : State :=
  { s with ops := Store.upd s.ops op fun o => match o.kind with
      | .copy c => { o with kind := .copy { c with pages := Store.put c.pages key w } }
      | _ => o }
def pageKey (va : Nat) (dst : Bool) : Nat := 2 * (va / 4096) + boolNat dst
/-- R41: a walk's end as an access of a kind may use it. -/
def State.permitted (s : State) (w : WalkEnd) (va : Nat) (kind : AccessKind) : WalkEnd :=
  match w with
  | .fault c l e => .fault c l e
  | .leaf a b l e => if (s.xlat b e va).permits kind then .leaf a b l e else .fault kind.denied l e
/-- R33, R36: a copy engine asks for a page: its translation cache answers, or the miss goes to the queue of its die. -/
def State.askPage (s : State) (op ctx engine va : Nat) (dst : Bool) : State :=
  let kind : AccessKind := if dst then .copyDst else .copySrc
  match s.tlb.find? fun e => e.covers (engineUnit engine) ctx va && (s.xlat e.bits e.entry va).permits kind with
  | some e => s.setPage op (pageKey va dst) (.leaf e.va e.bits e.level e.entry)
  | none =>
    let w : Waiter := { thread := op, unit := engineUnit engine, kind := kind, va := va / 4096 * 4096, size := 0, pc := 0, ordered := false,
                        kept := none }
    { s with enroute := s.enroute ++ [{ die := engine / 16, ctx := ctx, tenant := s.tenantOf ctx, vpn := va / 4096, waiters := [w],
                                        running := false }] }

/-- R473, R475: the up ports of the mask that routes to a module. -/
def State.upPorts (s : State) (m : Nat) : List Nat :=
  (List.range 16).filter fun p => (Store.rd 0 s.peerRoutes m).testBit p && !s.portsDown.contains p
def State.reachable (s : State) (m : Nat) : Bool := !(s.upPorts m).isEmpty
/-- R475: the port that an access to a remote address takes. -/
def State.peerPort (s : State) (m a : Nat) : Nat := (s.upPorts m).getD (bits a 21 12 % (s.upPorts m).length) 0

/-- What stops a fetch: a translation that misses, or bytes that a peer holds. -/
inductive FetchStop where
  | miss (va : Nat)
  | peer (va port n : Nat)
  deriving DecidableEq, Repr

/-- Bytes read with instruction-fetch translation and rights (R154), page by page. Poisoned data reads as zeros, which is no
instruction (R167). `buf` are bytes that a peer has sent. -/
def State.fetchBytes : Nat → State → Asker → Nat → Nat → List Byte → State × Except FetchStop (List Byte)
  | 0, s, _, _, _, _ => (s, .ok [])
  | fuel + 1, s, w, va, n, buf =>
    let m := min n (4096 - va % 4096)
    let r := s.lookup (fetchUnit w.core) w.core w.ctx va .fetch
    match r.2 with
    | none => (r.1, .error (.miss va))
    | some x =>
      let rest (s : State) (bs buf : List Byte) : State × Except FetchStop (List Byte) :=
        if n ≤ m then (s, .ok bs)
        else
          let q := State.fetchBytes fuel s w (va + m) (n - m) buf
          (q.1, q.2.map fun more => bs ++ more)
      match x.peer with
      | some p =>
        if !r.1.reachable p then (r.1, .error (.miss va))
        else if m ≤ buf.length then rest r.1 (buf.take m) (buf.drop m)
        else (r.1, .error (.peer va (r.1.peerPort p x.pa) m))
      | none =>
        let q := r.1.readPage w x m
        rest q.1 (q.2.orZeros m) buf

end Sys2Proof.Machine
end

