-- ==== Sys2Proof/Machine/Determinism.lean ====
section
/-!
DEFINITION. The accession log (R451 to R455): writing the choices of a RECORD run, and finding whose turn it is in a REPLAY run.
-/
namespace Sys2Proof.Machine

/-- R454: the log area's size in bytes. -/
def Ctx.logSize (c : Ctx) : Nat := 2 ^ bits c.detmode.toNat 20 16

/-- A module access of a context's log (R454): the physical place of `n` bytes at a virtual address, all in one page. -/
def State.logPlace (s : State) (ctx va : Nat) (kind : AccessKind) : State × Option Xlat :=
  let r := s.engineXlat 0 ctx va kind
  match r.2 with
  | .ok x => if x.peer.isSome then (r.1, none) else (r.1, some x)
  | .error _ => (r.1, none)

def State.updLog (s : State) (ctx : Nat) (f : Log → Log) : State := s.updCtx ctx fun c => { c with log := f c.log }

/-- R454: write the header fields as they stand. -/
def State.writeLogHeader (s : State) (ctx : Nat) : State :=
  match Store.get s.ctxs ctx with
  | none => s
  | some c =>
    let r := s.logPlace ctx c.logb.toNat .store
    match r.2 with
    | none => r.1.updLog ctx fun l => { l with state := l.state ||| 2 }
    | some x => r.1.writePage (moduleAsker 0 ctx) x (toBytes 8 c.log.wpos ++ toBytes 8 c.log.rpos ++
        toBytes 8 c.log.raign ++ toBytes 8 c.log.drops ++ toBytes 1 c.log.state)

/-- R454: the event frame of a log. -/
def State.logEvent (s : State) (ctx : Nat) : State :=
  match Store.get s.ctxs ctx with
  | none => s
  | some c => s.sendEvent c.tenant 5 0 0 ctx 0xFFFF 0 c.log.state

/-- R454: write one record, or count it as dropped. -/
def State.writeLog (s : State) (r : LogRec) : State :=
  match Store.get s.ctxs r.ctx with
  | none => s
  | some c =>
    if c.log.state.testBit 0 then s
    else if c.logSize < 64 + c.log.wpos + 32 then
      ((s.updLog r.ctx fun l => { l with state := l.state ||| 1, drops := min (l.drops + 1) (2 ^ 64 - 1) }).writeLogHeader r.ctx).logEvent r.ctx
    else
      let t := s.logPlace r.ctx (c.logb.toNat + 64 + c.log.wpos) .store
      match t.2 with
      | none => (t.1.updLog r.ctx fun l => { l with state := l.state ||| 2, drops := min (l.drops + 1) (2 ^ 64 - 1) }).writeLogHeader r.ctx
      | some x =>
        let s := t.1.writePage (moduleAsker 0 r.ctx) x
          (toBytes 8 (r.kind + r.head) ++ toBytes 8 r.who ++ toBytes 8 r.x ++ toBytes 8 r.y)
        (s.updLog r.ctx fun l => { l with wpos := l.wpos + 32 }).writeLogHeader r.ctx

/-- Write the records of the choices just made, in their order. -/
def State.flushLog (s : State) : State := s.logPending.foldl (fun s r => s.writeLog r) { s with logPending := [] }

/-- A record as replay reads it (R454). -/
structure LogEntry where
  kind : Nat
  head : Nat
  who : Nat
  x : Nat
  y : Nat
  deriving DecidableEq, Repr

/-- R455: a kind that exists and zeros where R454 gives zeros. -/
def LogEntry.ok (e : LogEntry) : Bool :=
  decide (1 ≤ e.kind) && decide (e.kind ≤ 7) &&
  match e.kind with
  | 1 => e.y == 0
  | 2 => e.y == 0
  | 3 => decide (e.x < 2 ^ 19)
  | 4 => decide (e.head < 2 ^ 16) && bits e.x 7 3 == 0 && decide (e.x < 2 ^ 11) && e.y == 0
  | 6 => decide (e.x < 2 ^ 11) && e.y == 0
  | 7 => decide (e.x < 16)
  | _ => true

/-- Read record j of a context's log; `none` when the read fails translation or finds bad data. -/
def State.readLog (s : State) (ctx j : Nat) : State × Option LogEntry :=
  match Store.get s.ctxs ctx with
  | none => (s, none)
  | some c =>
    let t := s.logPlace ctx (c.logb.toNat + 64 + 32 * j) .load
    match t.2 with
    | none => (t.1, none)
    | some x =>
      let q := t.1.readPage (moduleAsker 0 ctx) x 32
      match q.2 with
      | .bytes bs =>
        let h := field bs 0 8
        (q.1, some { kind := h % 256, head := h / 256 * 256, who := field bs 8 8, x := field bs 16 8, y := field bs 24 8 })
      | _ => (q.1, none)

/-- R455: set DIV, which ends all forcing of the run, and send its frame. -/
def State.diverge (s : State) (ctx : Nat) : State :=
  ((s.updLog ctx fun l => { l with state := l.state ||| 8 }).writeLogHeader ctx).logEvent ctx

/-- The first record from j on that is not consumed and lies in a stream (R455): its number, none when there is none, or a bad
record. `fuel` is the number of records to look at. -/
def State.scanLog (inStream : LogEntry → Bool) (ahead : List Nat) (ctx : Nat) : Nat → Nat → State → State × Except Unit (Option (Nat × LogEntry))
  | 0, _, s => (s, .ok none)
  | fuel + 1, j, s =>
    if ahead.contains j then State.scanLog inStream ahead ctx fuel (j + 1) s
    else
      let r := s.readLog ctx j
      match r.2 with
      | none => (r.1, .error ())
      | some e => if !e.ok then (r.1, .error ())
          else if inStream e then (r.1, .ok (some (j, e)))
          else State.scanLog inStream ahead ctx fuel (j + 1) r.1

/-- R454: RPOS after records below it have been consumed. -/
def advanceRpos : Nat → Nat → List Nat → Nat × List Nat
  | 0, j, ahead => (j, ahead)
  | fuel + 1, j, ahead => if ahead.contains j then advanceRpos fuel (j + 1) (ahead.filter (· != j)) else (j, ahead)

/-- R454, R455: consume record j; END is set when RPOS reaches WPOS. -/
def State.consume (s : State) (ctx j : Nat) : State :=
  (s.updLog ctx fun l =>
    let a := insertNat j l.ahead
    let r := advanceRpos a.length (l.rpos / 32) a
    { l with rpos := 32 * r.1, ahead := r.2, state := if 32 * r.1 = l.wpos then l.state ||| 4 else l.state }).writeLogHeader ctx

/-- Whether replay forces the choices of a context: REPLAY mode, with neither END nor DIV. -/
def State.forcing (s : State) (ctx : Nat) : Bool :=
  match Store.get s.ctxs ctx with
  | some c => c.mode == 3 && !c.log.state.testBit 2 && !c.log.state.testBit 3
  | none => false

/-- R455: the next record of a stream, with `none` when choices of the context are not forced. A stream with no record left,
a bad record, or one more than 65,536 records ahead sets DIV. -/
def State.nextRecord (s : State) (ctx : Nat) (inStream : LogEntry → Bool) : State × Option (Nat × LogEntry) :=
  if !s.forcing ctx then (s, none)
  else
    match Store.get s.ctxs ctx with
    | none => (s, none)
    | some c =>
      let n := c.log.wpos / 32 - c.log.rpos / 32
      let r := State.scanLog inStream c.log.ahead ctx (min n 65536) (c.log.rpos / 32) s
      match r.2 with
      | .ok (some e) => (r.1, some e)
      | .ok none => (r.1.diverge ctx, none)
      | .error _ => (r.1.diverge ctx, none)

/-- R455: whether a choice may be made now: it is not forced, or it is the next of its stream, which is then consumed. -/
def State.takeTurn (s : State) (ctx : Nat) (inStream mine : LogEntry → Bool) : State × Bool :=
  let r := s.nextRecord ctx inStream
  match r.2 with
  | none => (r.1, true)
  | some (j, e) => if mine e then (r.1.consume ctx j, true) else (r.1, false)

/-- R455: the streams. -/
def wordStream (va : Nat) (e : LogEntry) : Bool := (e.kind == 2 || e.kind == 5) && e.x == va
def walkerStream (head : Nat) (e : LogEntry) : Bool := e.kind == 1 && e.head == head
def portStream (head who : Nat) (e : LogEntry) : Bool := e.kind == 3 && e.head == head && e.who == who
/-- The group of a work identifier: its fields above F0. -/
def sameGroup (w0 who : Nat) (wid : DWord) : Bool := who / 2 ^ w0 == wid.toNat / 2 ^ w0
def listStream (g : Group) (head q : Nat) (filled : Bool) (e : LogEntry) : Bool :=
  e.kind == 6 && e.head == head && sameGroup (g.widths.getD 0 0) e.who (g.wid 0) && bits e.x 10 6 == q + 16 * boolNat filled
def barrierStream (g : Group) (head b : Nat) (e : LogEntry) : Bool :=
  e.kind == 7 && e.head == head && sameGroup (g.widths.getD 0 0) e.who (g.wid 0) && e.x == b

end Sys2Proof.Machine
end

