-- ==== Sys2Proof/Machine/Access.lean ====
section
/-!
DEFINITION. What becomes of an access once it has translated: loads, stores and atomics of threads (R246 to R256), the accesses
that a thread keeps (R248), and poison that lands (R425).
-/
namespace Sys2Proof.Machine

/-- R55: a request from a core's die to the other die's memory while the bridge is stopped. -/
def State.bridgeCut (s : State) (core a : Nat) : Bool := s.portCut core a

/-- R246: the pieces of an access, cut at 4 KiB boundaries: address, length, offset in the access. -/
def pieces (va n : Nat) : List (Nat × Nat × Nat) :=
  let first := 4096 - va % 4096
  if n ≤ first then [(va, n, 0)] else [(va, first, 0), (va + first, n - first, first)]

/-- R105: an uncorrectable word of a core's load cache discards its line, which is counted. -/
def State.senseCache (s : State) (core a n : Nat) : State :=
  let mine (u : Upset) : Bool := u.array == .loadCache && u.core == core && Upset.meets u a n
  let hit := s.upsets.filter fun u => mine u && (Store.get s.loadCache (lcKey core (u.addr / 128))).isSome
  (hit.foldl (fun s u =>
    if u.double then { s with errors := Store.wr 0 s.errors 5 (satAdd (Store.rd 0 s.errors 5) 1),
                              loadCache := Store.del s.loadCache (lcKey core (u.addr / 128)) }
    else s.countCorrected 8) { s with upsets := s.upsets.filter fun u => !mine u })
/-- R104: the bytes that a core's load cache holds, when it holds every line of them. -/
def State.cached (s : State) (core a n : Nat) : Option (List Byte) :=
  ((linesOf a n).mapM fun l => Store.get s.loadCache (lcKey core l)).map fun ls => (ls.flatten.drop (a % 128)).take n
/-- R48, R104: the lines of an access through a CL = 2 leaf join the core's load cache; a line with a poisoned sector does not. -/
def State.fillLines (s : State) (core : Nat) (x : Xlat) (n : Nat) : State :=
  (linesOf x.pa n).foldl (fun s l =>
    if s.isPoisoned (128 * l) 128 || s.reserved x.cmp (128 * l) 128 then s
    else s.fillCache core l ((s.drainLine l).bytesAt x.cmp (128 * l) 128)) s

/-- A load piece is performed: its bytes, and the address of a poisoned sector (R48, R104, R248). One to an SO page is read at its home
slice (R363), as is a `fresh` one. -/
def State.performLoad (s : State) (core ctx key pc : Nat) (x : Xlat) (n : Nat) (fresh : Bool) : State × List Byte × Option Nat :=
  let near := x.cl = 2 && !fresh && x.kind != 0
  let s := if near then s.senseCache core x.pa n else s
  match if near then s.cached core x.pa n else none with
  | some bs => (s, bs, none)
  | none =>
    let r := s.readPage { input := core, core := core, ctx := ctx, thread := some key, pc := pc } x n
    match r.2 with
    | .bytes bs => (if x.cl = 2 then r.1.fillLines core x n else r.1, bs, none)
    | .cut => (r.1.countError 4 core ctx (some key) pc x.pa, List.replicate n 0, some x.pa)
    | _ => (r.1, List.replicate n 0, some x.pa)

/-- A store piece is requested of its home slice (R51, R56), line by line. DESIGN CHOICE (log 49): one that meets the stopped bridge is
lost. -/
def State.performStore (s : State) (core ctx : Nat) (x : Xlat) (bs : List Byte) : State :=
  if s.bridgeCut core x.pa then s
  else
    (lineParts (bs.length / 128 + 2) x.pa bs).foldl (fun s p => s.request core
      { pa := p.1, size := p.2.length, code := 0, data := p.2, cas := [], ra := false, returns := false, op := 0, off := 0, cmp := x.cmp,
        ctx := ctx, launch := 0, who := 0, va := 0, cl := x.cl, wp := x.wp, ep := x.ep }) (s.updateCache core x.pa bs)

/-- A piece of an operation that a peer will answer (R23, R474). -/
def State.remotePiece (s : State) (port page : Nat) (a : Access) : State :=
  { s with ops := Store.upd s.ops a.op fun o => match o.kind with
      | .load l => { o with kind := .load { l with remote := l.remote ++ [{ port := port, page := page, acc := a }], left := l.left - 1 } }
      | _ => o }
/-- A piece that returns nothing, and that a peer has not performed (R358, R474). -/
def State.awaitPeer (s : State) (key gid port page : Nat) (a : Access) : State :=
  let l : LoadOp := { size := 0, sx := false, data := [], left := 0, remote := [{ port := port, page := page, acc := a }], poison := none,
                      atomic := none }
  let o : AOp := { thread := key, gid := gid, core := coreOf key, pc := a.pc, dst := [], tc := none, kind := .load l }
  { s with nextOp := s.nextOp + 1, ops := Store.put s.ops s.nextOp o }

/-- An atomic piece of this module's memory joins the write queue of its home slice (R254, R56). -/
def State.performAtomic (s : State) (key : Nat) (g : Group) (a : Access) (x : Xlat) : State :=
  if s.bridgeCut (coreOf key) x.pa then
    let s := s.countError 4 (coreOf key) g.ctx (some key) a.pc x.pa
    if a.returns then s.arrive a.op a.off (toBytes a.size (atomicPoison a.code)) (some x.pa) else s
  else
    (s.dropCopies (coreOf key) x.pa a.size).request (coreOf key)
      { pa := x.pa, size := a.size, code := a.code, data := a.data, cas := a.cas, ra := a.ra, returns := a.returns,
        op := a.op, off := a.off, cmp := x.cmp, ctx := g.ctx, launch := g.launch,
        who := if isThresher key then 0 else g.wid (((Store.get s.threads key).map Thread.tid).getD 0), va := a.va,
        cl := x.cl, wp := x.wp, ep := x.ep }

/-- A piece of this module's memory is performed. An access to an SO page is performed at its home slice before the thread's
next one (R363). -/
def State.performLocal (s : State) (key : Nat) (g : Group) (a : Access) (x : Xlat) : State :=
  let s := if a.ordered then s.drainAll else s
  let s := if a.acquires then s.invalidateCache (coreOf key) else s
  let s := match a.kind with
    | .load =>
      let r := s.performLoad (coreOf key) g.ctx key a.pc x a.size a.acquires
      r.1.arrive a.op a.off r.2.1 r.2.2
    | .store => s.performStore (coreOf key) g.ctx x a.data
    | .atomic => s.performAtomic key g a x
  if x.kind = 0 then s.drainFor x.pa a.size else s

/-- An access piece of a thread that has translated is performed, or sent to the peer that will perform it. -/
def State.performAccess (s : State) (key : Nat) (g : Group) (a : Access) (x : Xlat) : State :=
  match x.peer with
  | some m =>
    let s := if a.ordered then s.drainAll else s
    let port := s.peerPort m x.pa
    match a.kind with
    | .load => s.remotePiece port x.kind a
    | .store => { s with sent := .peerWrite m x.pa a.data :: s.sent }.awaitPeer key (((Store.get s.threads key).map Thread.gid).getD 0) port x.kind a
    | .atomic =>
      let s := { s with sent := .peerAtomic m x.pa a.code a.data a.cas :: s.sent }
      if a.returns then s.remotePiece port x.kind a
      else s.awaitPeer key (((Store.get s.threads key).map Thread.gid).getD 0) port x.kind a
  | none => s.performLocal key g a x

/-- Whether a peer holds a piece of a thread that meets a test. -/
def State.peerHolds (s : State) (key : Nat) (p : Remote → Bool) : Bool :=
  s.ops.any fun e => e.2.thread == key && match e.2.kind with
    | .load l => l.remote.any p
    | _ => false
/-- R26: the ordering kind UO. -/
def kindUO : Nat := 2
/-- R368: an acquire of a thread has not been performed. -/
def State.acquiring (s : State) (key : Nat) : Bool := s.peerHolds key fun r => r.acc.acquires
/-- R367: SO and RC accesses of a thread that a release waits for. -/
def State.releasing (s : State) (key : Nat) : Bool := s.peerHolds key fun r => r.page != kindUO
/-- R371: accesses of a thread that a fencing synchronisation waits for. -/
def State.fencing (s : State) (key : Nat) : Bool := s.peerHolds key fun _ => true

/-- R246: two pieces share a byte. -/
def Access.meets (a b : Access) : Bool := decide (a.va < b.va + b.size) && decide (b.va < a.va + a.size)
/-- Whether an access through a leaf must wait for earlier ones of its thread: those that the thread still keeps, `before`, and those at
peers (R256, R360, R363, R367, R368, R377). -/
def State.holds (s : State) (key : Nat) (before : List Access) (a : Access) (x : Xlat) : Bool :=
  before.any a.meets ||
  (x.kind != kindUO && (s.acquiring key || before.any fun b => b.acquires || (b.ordered && b.kind == .atomic))) ||
  (x.kind == 0 && (!before.isEmpty || s.peerHolds key fun r => r.page == 0)) ||
  (a.ordered && (!before.isEmpty || s.releasing key))

def Thread.isParked (th : Thread) : Bool :=
  match th.st with
  | .parked _ => true
  | _ => false

def Access.accessKind (a : Access) : AccessKind :=
  match a.kind with
  | .load => .load
  | .store => .store
  | .atomic => .atomic

/-- R455: whether an atomic of a REPLAY context may go to its word: its record is the next of the word's stream, and is then
consumed. Other accesses always may. -/
def State.accessTurn (s : State) (key : Nat) (g : Group) (a : Access) : State × Bool :=
  if a.kind = .atomic && s.mode g.ctx == 3 && (a.code == 16 || a.returns) then
    let tid := ((Store.get s.threads key).map Thread.tid).getD 0
    s.takeTurn g.ctx (wordStream a.va) fun e =>
      e.kind == (if a.code = 16 then 2 else 5) && e.who == (g.wid tid).toNat && e.head == s.logHead g.launch
  else (s, true)

/-- Translate and perform a thread's kept accesses from the i-th on, in program order. One that misses is sent to the miss queue; one that
must wait for an earlier one stays (R248); the others are performed. -/
def State.advanceKept (key : Nat) : Nat → Nat → State → State
  | 0, _, s => s
  | fuel + 1, i, s =>
    match Store.get s.threads key with
    | none => s
    | some th =>
      match th.kept[i]?, Store.get s.groups th.gid with
      | some a, some g =>
        if a.queued || a.stopped then State.advanceKept key fuel (i + 1) s
        else
          let unit := dataUnit (coreOf key) (quadOf key)
          let r := s.lookup unit (coreOf key) g.ctx a.va a.accessKind
          match r.2.filter fun x => (x.peer.map r.1.reachable).getD true with
          | some x =>
            if r.1.holds key (th.kept.take i) a x then State.advanceKept key fuel (i + 1) r.1
            else
              let t := r.1.accessTurn key g a
              if !t.2 then State.advanceKept key fuel (i + 1) t.1
              else
                let kept := th.kept.eraseIdx i
                let s := t.1.setThread key { th with kept := kept, ahead := if kept.isEmpty then 0 else th.ahead }
                State.advanceKept key fuel i (s.performAccess key g a x)
          | none =>
            let s := r.1.setThread key { th with kept := th.kept.set i { a with queued := true } }
            State.advanceKept key fuel (i + 1) (s.sendMiss (coreOf key) g.ctx a.va
              { thread := key, unit := unit, kind := a.accessKind, va := a.va, size := a.total, pc := a.pc,
                ordered := a.ordered && a.kind == .atomic, kept := some a.id })
      | _, _ => s

/-- R425: a poison value has been delivered to a thread by global memory: SERR is set, and with ERRPOL.TRAP the thread will
trap late, unless it is draining. -/
def State.poisonLanded (s : State) (key : Nat) (addr : Nat) : State :=
  s.updThread key fun th =>
    let traps := (((Store.get s.groups th.gid).bind fun (g : Group) => Store.get s.ctxs g.ctx).map
      fun (c : Ctx) => c.errpol.getLsbD 0).getD false
    { th with errst := th.errst ||| 1, late := if traps && th.st != .draining then some addr else th.late }

/-- The number of accesses that a thread keeps. -/
def State.keptCount (s : State) (key : Nat) : Nat := ((Store.get s.threads key).map fun t => t.kept.length).getD 0
def State.advance (s : State) (key : Nat) : State := State.advanceKept key (s.keptCount key) 0 s

/-- R248, R423: a thread's kept accesses go on; one that waits for them alone goes on when none is left. -/
def State.resumeKept (s : State) (key : Nat) : State :=
  (s.advance key).updThread key fun th => if th.kept.isEmpty && th.st == .waiting .kept then { th with st := .ready, since := s.now } else th

/-- log2 of an access size for ACC (R38). DESIGN CHOICE (log 50): 4, the greatest value of the field, for an access above 16 bytes. -/
def sizeLog (n : Nat) : Nat := if n ≤ 1 then 0 else if n = 2 then 1 else if n = 4 then 2 else if n = 8 then 3 else 4

end Sys2Proof.Machine
end

