-- ==== Sys2Proof/Machine/Ops.lean ====
section
/-!
DEFINITION. Taking a trap and returning from one (R416 to R420, R130), and issuing an instruction for a gather in the order
of checks of R169: the shared operation that every instruction's meaning goes through.
-/
namespace Sys2Proof.Machine

/-- What an instruction does in one lane (or once for its gather): it completes, it goes to another address, it leaves the
thread as the given state has it, it traps (R417), leaving the state as it was or as given, it waits at the instruction, or it awaits a translation (R41). -/
inductive Act where
  | done (s : State)
  | jump (s : State) (pc : Nat)
  | raw (s : State)
  | trap (cause tval : Nat)
  | trapIn (s : State) (cause tval : Nat)
  | wait (s : State) (w : Wait)
  | miss (s : State) (va : Nat) (kind : AccessKind) (size : Nat)

/-- R417: the trap causes. -/
def causeIllegal : Nat := 0x01
def causeCanonical : Nat := 0x02
def causeMisaligned : Nat := 0x03
def causeCopyRight : Nat := 0x04
def causeBounds : Nat := 0x05
def causeIndex : Nat := 0x06
def causeSheaf : Nat := 0x07
def causeBroken : Nat := 0x08
def causeFormat : Nat := 0x09
def causeSoftware : Nat := 0x0A
def causeTimeline : Nat := 0x0B
def causeTexture : Nat := 0x0C
def causeOverflow : Nat := 0x0D
def causeUnderflow : Nat := 0x0E
def causeFloat : Nat := 0x0F
def causeTranslation : Nat := 0x10
def causeUncorrectable : Nat := 0x11

def Act.illegal : Act := .trap causeIllegal 0

/-- One more move of the machine has been made; stalled threads try again (R107). -/
def State.moved (s : State) : State := { s with moves := s.moves + 1 }

/-- The outcome of a step in which something happened: choices just made are logged (R454), and accesses that REPLAY held at
their source try again (R455). -/
def State.settle (s : State) : State :=
  let s := if s.logPending.isEmpty then s else s.flushLog
  if s.ctxs.any fun c => c.2.mode == 3 then s.threads.foldl (fun s e => if e.2.kept.isEmpty then s else s.advance e.1) s else s
def happen (s : State) : Host.Outcome State Fault Refusal := .next s.settle.moved

/-- A progress event of a context (R428). -/
def State.progress (s : State) (c : Nat) : State := s.updCtx c fun x => { x with progress := s.now }

def Thread.inHandler (th : Thread) : Bool := th.tcause.getLsbD 8

/-- R418: TCAUSE for a trap: the cause, INH in a handler, SHF inside a sheaf. -/
def trapCause (th : Thread) (cause : Nat) (inh : Bool) : Word :=
  word (cause + 256 * boolNat inh + 512 * boolNat th.sheaf.isSome)

/-- R416, R418: the trap registers as a trap that parks the thread leaves them; a thread in a handler keeps its own (R420). -/
def Thread.trapped (th : Thread) (cause tval pc : Nat) : Thread :=
  if th.inHandler then th
  else { th with tcause := trapCause th cause false, tepc := dword pc, tval := dword tval }

/-- R418, R419, R130: enter a handler at `target`: INH set, the sheaf suspended. -/
def Thread.enterHandler (th : Thread) (cause tval pc target now : Nat) : Thread :=
  { th with tcause := trapCause th cause true, tepc := dword pc, tval := dword tval, pc := target, susp := th.sheaf,
            sheaf := none, st := .ready, since := now, peerBuf := [], wordBuf := [], heldBy := none }

/-- R419: where the vector of a cause lies below CODE; `none` for the causes with no vector. -/
def vectorOffset (cause : Nat) : Option Nat :=
  if cause = causeSoftware then some 8 else if cause = causeOverflow || cause = causeUnderflow then some 16 else none

/-- R419: what the vector of a cause says: a handler's address, the fault queue, or that its read awaits translation. -/
inductive VectorRead where
  | handler (pc : Nat)
  | queue
  | wait (f : FetchStop)
  deriving DecidableEq, Repr

def State.readVector (s : State) (key : Nat) (th : Thread) (g : Group) (cause : Nat) : State × VectorRead :=
  match vectorOffset cause with
  | none => (s, .queue)
  | some o =>
    if th.inHandler || isThresher key then (s, .queue)
    else
      let core := coreOf key
      let r := s.fetchBytes 1 { input := core, core := core, ctx := g.ctx, thread := some key, pc := th.pc } (g.code - o) 8 th.peerBuf
      match r.2 with
      | .error f => (r.1, .wait f)
      | .ok bs =>
        let v := ofBytes bs
        (r.1, if v = 0 || v % 8 ≠ 0 then .queue else .handler v)

/-- A thread waits for the translation of an access that its instruction will repeat (R41). -/
def State.awaitPage (s : State) (key : Nat) (va : Nat) (kind : AccessKind) (size : Nat) : State :=
  match Store.get s.threads key with
  | none => s
  | some th =>
    let ctx := ((Store.get s.groups th.gid).map Group.ctx).getD 0
    let unit := match kind with
      | .fetch => fetchUnit (coreOf key)
      | _ => dataUnit (coreOf key) (quadOf key)
    (s.setThread key { th with st := .waiting .page }).sendMiss (coreOf key) ctx va
      { thread := key, unit := unit, kind := kind, va := va, size := size, pc := th.pc, ordered := false, kept := none }

/-- A thread waits for bytes that a peer will send to its instruction, which is then issued again with them. -/
def State.awaitBytes (s : State) (key : Nat) (r : RemoteRead) : State :=
  match Store.get s.threads key with
  | none => s
  | some th =>
    let o : AOp := { thread := key, gid := th.gid, core := coreOf key, pc := th.pc, dst := [], tc := none, kind := .fetch r }
    { s with threads := Store.put s.threads key { th with st := .waiting .page }, nextOp := s.nextOp + 1, ops := Store.put s.ops s.nextOp o }
/-- What stopped a fetch of a thread is awaited (R41, R154, R474). -/
def State.awaitFetch (s : State) (key : Nat) (f : FetchStop) (size : Nat) : State :=
  match f with
  | .miss va => s.awaitPage key va .fetch size
  | .peer va port n => s.awaitBytes key { bytes := n, va := va, size := size, kind := .fetch, port := port }

/-- R133, R416: a trap in the thresher slot stops it for the served group; it keeps its place until what it issued has landed. -/
def State.stopThresher (s : State) (key : Nat) : State :=
  match Store.get s.threads key with
  | none => s
  | some th =>
    if th.pend.isEmpty && th.kept.isEmpty then { s with threads := Store.del s.threads key } else s.setThread key { th with st := .draining }

/-- One lane's trap: cause, TVAL, and the thread. -/
structure LaneTrap where
  key : Nat
  cause : Nat
  tval : Nat
  deriving DecidableEq, Repr

/-- R422: the lane with the lowest work identifier of a list. -/
def State.lowestWid (s : State) (ts : List LaneTrap) : Option LaneTrap :=
  ts.foldl (fun best t =>
    let w (k : Nat) := match Store.get s.threads k with
      | some (th : Thread) => ((Store.get s.groups th.gid).map fun (g : Group) => (g.wid th.tid).toNat).getD 0
      | none => 0
    match best with
    | none => some t
    | some b => if w t.key < w b.key then some t else some b) none

/-- R422: the parking traps of one cause in one gather: one record, which names the lowest work identifier; every lane
parks on it. DEDUCED (log 51): a non-canonical address takes the type 0x06 record of R417; the record that R22 denies it is the walk's. -/
def State.parkAll (s : State) (cause : Nat) (ts : List LaneTrap) : State :=
  match s.lowestWid ts with
  | none => s
  | some n =>
    match Store.get s.threads n.key with
    | none => s
    | some th =>
      let inh := th.inHandler
      let thr := isThresher n.key
      let float := cause == causeFloat && !inh
      let pc := th.pc
      let ctx := ((Store.get s.groups th.gid).map Group.ctx).getD 0
      let fpten := ((Store.get s.ctxs ctx).map fun c => c.fpten.toNat).getD 0
      let count := if thr then 0 else ts.length
      let r := s.namedRecord n.key (if float then 3 else 6) (if float then n.tval &&& fpten else cause) 0 15 count (!thr) false pc
        (if float then 0 else n.tval) (if float then ts.length - 1 else (trapCause th cause inh).toNat)
      let a := s.report (s.tenantOf ctx) r
      let s := a.1
      if thr then s.stopThresher n.key
      else ts.foldl (fun s t => s.updThread t.key fun th =>
        { (th.trapped cause t.tval th.pc) with st := .parked (a.2.getD 0), heldBy := none }) s

/-- Deliver the traps of one cause: to the handler that the vector names, else to the fault queue (R419 to R422). TAKING AN
EXCEPTION is this operation for every instruction. -/
def State.deliver (s : State) (cause : Nat) (ts : List LaneTrap) : State :=
  let r := ts.foldl (fun (acc : State × List LaneTrap) t =>
    match Store.get acc.1.threads t.key with
    | none => acc
    | some th =>
      match Store.get acc.1.groups th.gid with
      | none => acc
      | some g =>
        let v := acc.1.readVector t.key th g cause
        match v.2 with
        | .handler pc => (v.1.setThread t.key (th.enterHandler cause t.tval th.pc pc v.1.now), acc.2)
        | .wait f => (v.1.awaitFetch t.key f 8, acc.2)
        | .queue => (v.1, acc.2 ++ [t])) (s, [])
  r.1.parkAll cause r.2

/-- The traps of a gather, cause by cause in ascending code; a floating-point trap leaves its flags in FFLAGS (R424). -/
def State.takeTraps (s : State) (ts : List LaneTrap) : State :=
  let s := ts.foldl (fun s t => if t.cause = causeFloat then
    s.updThread t.key fun th => { th with fflags := th.fflags ||| word t.tval } else s) s
  (List.range 0x12).foldl (fun s c =>
    let mine := ts.filter fun t => t.cause == c
    if mine.isEmpty then s else s.deliver c mine) s

/-- R207, R418, R130: return from a handler to `target`: INH clears and the suspended sheaf resumes. -/
def Thread.leaveHandler (th : Thread) (target : Nat) : Thread :=
  { th with tcause := th.tcause &&& ~~~(0x100 : Word), sheaf := th.susp, susp := none, pc := target }

/-- R131: after the body's last instruction the thresher slot goes on at its entry. -/
def nextPc (key : Nat) (g : Option Group) (pc : Nat) : Nat :=
  if isThresher key then
    match g.bind Group.thr with
    | some (entry, len) => if pc + 8 = entry + 8 * len then entry else pc + 8
    | none => pc + 8
  else pc + 8

/-- The thread goes on at `pc`, Ready, its age restarted (R121). `ahead` counts from the first access that it keeps (R248). -/
def Thread.goto (th : Thread) (pc now : Nat) : Thread :=
  { th with pc := pc, st := .ready, since := now, ahead := if th.kept.isEmpty then 0 else th.ahead + 1, peerBuf := [], wordBuf := [], heldBy := none }

/-- The lane has completed its instruction and goes on at the next. -/
def State.retire (s : State) (key : Nat) : State :=
  s.updThread key fun th => th.goto (nextPc key (Store.get s.groups th.gid) th.pc) s.now

/-- R156, R126: whether a lane is active under a guard. -/
def Lane.active (v : Lane) (g : BitVec 4) (gn : Bool) : Bool :=
  match v.th.sheaf with
  | some sh => g.getLsbD sh.path
  | none => g == 15 || (v.th.preds.getLsbD g.toNat == !gn)

/-- R156, R168: a guard field that is illegal where the lane stands. -/
def Lane.guardBad (v : Lane) (g : BitVec 4) (gn : Bool) : Bool :=
  match v.th.sheaf with
  | some _ => gn
  | none => decide (12 ≤ g.toNat) && (g != 15 || gn)

/-- R67: the producer threads of a group, and the thresher slot. DESIGN CHOICE (log 52): the slot of a group with no producer range copies
too (R132). -/
def Lane.producer (v : Lane) : Bool :=
  isThresher v.key || match v.g.prod with
    | some (a, b) => decide (a ≤ v.th.tid) && decide (v.th.tid ≤ b)
    | none => false

/-- How an instruction issues: its operands, the further registers it reads, what makes its gather wait at issue beside the
register scoreboard, the context rule of R169 step 3, and its effect. `once` marks the instructions that act once for a gather
(R292); `ruleFirst` those whose rule comes before their encoding (R263); `bad` are encoding checks that depend on where a lane stands or what its group has (R165, R283); `reads` refines the formats in which the
operands are read (R425); `spoil` is what a trap of a lane does besides (R284), and `after` the traps that the instruction causes
in other lanes (R285). -/
structure Spec where
  row : Row
  x : Fields
  extra : Lane → List (Dst × PFmt) := fun _ => []
  stall : State → List Lane → Bool := fun _ _ => false
  why : State → List Lane → Stall := fun _ _ => .issue
  rule : Lane → Option Nat := fun _ => none
  ruleFirst : Bool := false
  once : Bool := false
  bad : Lane → Bool := fun _ => false
  reads : Lane → List (Dst × PFmt) → List (Dst × PFmt) := fun _ l => l
  spoil : Lane → State → State := fun _ s => s
  after : State → State × List LaneTrap := fun s => (s, [])
  lane : Lane → State → Act

/-- R132: majors and forms that the thresher slot may issue. DEDUCED (log 53): NOP keeps its meaning there (R218). -/
def thresherMay (i : Instr) : Bool :=
  match i with
  | .pairWord p q => [p, q].all fun z => z.op.toNat ≤ 12 || 19 ≤ z.op.toNat
  | .lds _ | .sts _ | .ld _ | .qpopE _ | .qpopF _ | .qpushF _ | .qpushE _ => true
  | .bcpUnpk4s _ | .bcpUnpk4f _ | .bcpUnpk8s _ | .bcpUnpk8f _ => true
  | .nop _ => true
  | i => match rowOf i with
    | some (r, _) => r.op < 0x20
    | none => false

/-- R133: a word that writes a uniform register. -/
def writesUniform (r : Row) (x : Fields) : Bool :=
  (r.operands x).any fun o => match o.1 with
    | .dst _ | .rmw _ => decide (32 ≤ o.2.toNat) && decide (o.2.toNat < 48)
    | _ => false

/-- The lanes of a gather as they stand; `none` when a named thread is not resident. -/
def State.lanesOf (s : State) : List Nat → Option (List Lane)
  | [] => some []
  | k :: ks =>
    match Store.get s.threads k with
    | none => none
    | some th =>
      match Store.get s.groups th.gid, s.lanesOf ks with
      | some g, some vs => some ({ key := k, th := th, g := g, now := s.now } :: vs)
      | _, _ => none

/-- The lanes of the gather under issue; `none` when there is no gather. -/
def State.gatherLanes (s : State) : Option (List Lane) :=
  match s.gather with
  | none => none
  | some g => if g.lanes.isEmpty then none else s.lanesOf g.lanes

/-- The gather waits at issue (R107): each of its threads tries again after a later move, at age 0 (R121). -/
def State.stallAll (s : State) (vs : List Lane) (why : Stall) : State :=
  vs.foldl (fun s v => s.updThread v.key fun th => { th with st := .waiting (.stall s.moves why), since := s.now }) s

/-- R99: the scoreboard entries against which a plain access of a thread is tested are those that stand when it issues. -/
def State.noteHolders (s : State) (vs : List Lane) : State :=
  vs.foldl (fun s v => s.updThread v.key fun th =>
    { th with heldBy := some (th.heldBy.getD ((s.board.filter fun e => e.core == v.core && !e.empty).map SbEntry.op)) }) s

/-- The context of a lane. -/
def State.ctxOf (s : State) (v : Lane) : Option Ctx := Store.get s.ctxs v.g.ctx

/-- R248: a thread with accesses that await translation issues only majors 0x48, 0x49 and 0x4B, at most 8 of them. -/
def Lane.heldBack (v : Lane) (op : Nat) : Bool :=
  !v.th.kept.isEmpty && !((op == 0x48 || op == 0x49 || op == 0x4B) && decide (v.th.ahead ≤ 8))

/-- The pool byte offset of a lane's stack word or 0 for a uniform register: the address of R426 for SRAM. -/
def Lane.poolByte (v : Lane) : Dst → Nat
  | .stack i => v.g.regBase * 1024 + v.th.tid * v.th.words * 4 + 4 * i
  | _ => 0

/-- R103: single-bit errors in the words that a lane reads are corrected and counted. -/
def State.correct (s : State) (v : Lane) (reads : List (Dst × PFmt)) : State :=
  (reads.filter fun d => isWeak v.th d.1).foldl (fun s _ => s.countCorrected 8) s
/-- R425: deliver the poison value of every uncorrectable word that the lane reads; with ERRPOL.TRAP the lane traps. -/
def deliverPoison (v : Lane) (s : State) (reads : List (Dst × PFmt)) : Lane × State × Option Nat :=
  let s := s.correct v reads
  let hit := reads.filter fun d => isBad v.th v.g d.1
  match hit with
  | [] => (v, s, none)
  | d :: _ =>
    let s := hit.foldl (fun s d => s.countError 1 v.core v.g.ctx (some v.key) v.th.pc (v.poolByte d.1)) s
    let s := s.updThread v.key fun th => { th with errst := th.errst ||| 1 }
    let v' := hit.foldl (fun v d => v.poisoned d.1 d.2) v
    let traps := ((s.ctxOf v).map fun c => c.errpol.getLsbD 0).getD false
    (v', s, if traps then some (v.poolByte d.1) else none)

/-- R116: a lane's read of clk.lo latches the upper half. -/
def State.latchClock (s : State) (v : Lane) (clk : Bool) : State :=
  if clk then s.updThread v.key fun th => { th with clkHi := word (v.now / 2 ^ 32) } else s
/-- A thread enters a wait. -/
def State.waitIn (s : State) (key : Nat) (w : Wait) : State := s.updThread key fun th => { th with st := .waiting w, since := s.now }

/-- Apply what an instruction did in a lane: the state, and the trap if it trapped. -/
def State.apply (s : State) (v : Lane) (clk : Bool) (a : Act) : State × List LaneTrap :=
  match a with
  | .done s => ((s.retire v.key).latchClock v clk, [])
  | .jump s pc => ((s.updThread v.key fun th => th.goto pc s.now).latchClock v clk, [])
  | .raw s => (s, [])
  | .trap c t => (s, [{ key := v.key, cause := c, tval := t }])
  | .trapIn s c t => (s, [{ key := v.key, cause := c, tval := t }])
  | .wait s w => ((s.waitIn v.key w).latchClock v clk, [])
  | .miss s va kind size => (s.awaitPage v.key va kind size, [])

/-- One active lane: its operand checks (R169 step 5), poison, and its effect. -/
def laneStep (p : Spec) (v : Lane) (s : State) : State × List LaneTrap :=
  if !((p.row.operands p.x).all fun o => v.baseOk o.1 o.2) then
    (p.spoil v s, [{ key := v.key, cause := causeIllegal, tval := 0 }])
  else
    let r := deliverPoison v s (p.reads v (v.rowReads p.row p.x) ++ p.extra v)
    match r.2.2 with
    | some a => (p.spoil v r.2.1, [{ key := v.key, cause := causeUncorrectable, tval := a }])
    | none => r.2.1.apply v (readsClock p.row p.x) (p.lane r.1 r.2.1)

/-- All active lanes in ascending lane column. -/
def runLanes (p : Spec) (vs : List Lane) (s : State) : State × List LaneTrap :=
  vs.foldl (fun acc v => let r := laneStep p v acc.1; (r.1, acc.2 ++ r.2)) (s, [])

/-- An instruction that acts once for its gather: the lowest lane column acts, and every active lane shares the outcome. A lane with a
renamed pair base that is odd traps by itself (R125). DESIGN CHOICE (log 54): the lowest of the others then acts. -/
def runOnce (p : Spec) (all : List Lane) (s : State) : State × List LaneTrap :=
  let ok (v : Lane) : Bool := (p.row.operands p.x).all fun o => v.baseOk o.1 o.2
  let odd : List LaneTrap := (all.filter fun v => !ok v).map fun v => { key := v.key, cause := causeIllegal, tval := 0 }
  match all.filter ok with
  | [] => (s, odd)
  | v :: rest =>
    let vs := v :: rest
    let clk := readsClock p.row p.x
    let r := deliverPoison v s (v.rowReads p.row p.x ++ p.extra v)
    match r.2.2 with
    | some a => (r.2.1, { key := v.key, cause := causeUncorrectable, tval := a } :: odd)
    | none =>
      match p.lane r.1 r.2.1 with
      | .trap c t => (r.2.1, vs.map (fun v => { key := v.key, cause := c, tval := t }) ++ odd)
      | .trapIn s c t => (s, vs.map (fun v => { key := v.key, cause := c, tval := t }) ++ odd)
      | .done s => ((vs.foldl (fun s v => s.retire v.key) s).latchClock v clk, odd)
      | .jump s _ => ((vs.foldl (fun s v => s.retire v.key) s).latchClock v clk, odd)
      | .raw s => (s, odd)
      | .wait s w => ((vs.foldl (fun s v => s.waitIn v.key w) s).latchClock v clk, odd)
      | .miss s va kind size => (vs.foldl (fun s v => s.awaitPage v.key va kind size) s, odd)

/-- The core clock advances as a gather issues (R116). -/
def State.tick (s : State) : State := { s with now := s.now + 1, armed := false, gather := none, sensed := [] }

/-- Every thread of the gather takes the illegal-instruction trap (R168, R169 step 2). -/
def State.trapGather (s : State) (vs : List Lane) (cause : Nat) : State :=
  s.takeTraps (vs.map fun v => { key := v.key, cause := cause, tval := 0 })

/-- R425: the lanes whose late error trap falls due in place of this issue. -/
def State.lateTraps (s : State) (vs : List Lane) : State :=
  let due := vs.filter fun v => v.th.late.isSome
  (due.foldl (fun s v => s.updThread v.key fun th => { th with late := none }) s).takeTraps
    (due.map fun v => { key := v.key, cause := causeUncorrectable, tval := v.th.late.getD 0 })

/-- The traps of R169 step 3: thresher limits (R132, R133), and in active lanes the sheaf rules (R127) and copy rights (R67). -/
def ruleTraps (i : Instr) (p : Spec) (vs : List Lane) : List LaneTrap :=
  vs.filterMap fun v =>
    if isThresher v.key && (!thresherMay i || writesUniform p.row p.x) then some { key := v.key, cause := causeIllegal, tval := 0 }
    else if v.active p.x.g p.x.gn then (p.rule v).map fun c => { key := v.key, cause := c, tval := 0 }
    else none

/-- R168: what a word that is no legal encoding does. A copy's active lanes without rights take the trap of R67 instead (R263). -/
def State.trapIllegal (s : State) (p : Spec) (vs : List Lane) : State :=
  s.takeTraps (vs.map fun v =>
    { key := v.key, tval := 0, cause := if p.ruleFirst && v.active p.x.g p.x.gn then (p.rule v).getD causeIllegal else causeIllegal })

/-- R169: issue an instruction for the gather. -/
def issue (i : Instr) (p : Spec) (s : State) : Host.Outcome State Fault Refusal :=
  match s.gatherLanes with
  | none => .fault .noGather
  | some vs =>
    let s := s.tick
    if vs.any fun v => v.th.late.isSome then happen (s.lateTraps vs)
    else if !wellFormed i || vs.any (fun v => v.guardBad p.x.g p.x.gn || p.bad v) then happen (s.trapIllegal p vs)
    else
      let ruled := ruleTraps i p vs
      let free := vs.filter fun v => !ruled.any fun t => t.key == v.key
      let act := free.filter fun v => v.active p.x.g p.x.gn
      let idle := free.filter fun v => !v.active p.x.g p.x.gn
      let pend := act.any fun v => v.heldBack p.row.op ||
        ((v.rowPlaces p.row p.x) ++ (p.extra v).map Prod.fst).any fun d => isPending v.th v.g d
      if pend then .next (s.stallAll vs .issue)
      else if p.stall s act then .next ((s.noteHolders act).stallAll vs (p.why s act))
      else
        let s := idle.foldl (fun s v => s.retire v.key) s
        let r := if p.once then runOnce p act s else runLanes p act s
        let a := p.after r.1
        happen (a.1.takeTraps (ruled ++ r.2 ++ a.2))

/-- The word at the program counter is no instruction: the illegal-instruction trap for every thread of the gather (R168). -/
def issueIllegal (s : State) : Host.Outcome State Fault Refusal :=
  match s.gatherLanes with
  | none => .fault .noGather
  | some vs =>
    let s := s.tick
    if vs.any fun v => v.th.late.isSome then happen (s.lateTraps vs) else happen (s.trapGather vs causeIllegal)

/-- The spec of a format F instruction: its row and fields with an effect. -/
def specOf (i : Instr) (lane : Lane → State → Act) : Spec :=
  match rowOf i with
  | some (r, x) => { row := r, x := x, lane := lane }
  | none => { row := { op := 0, fn := 0 }, x := ⟨0, false, 0, 0, 0, 0, 0, 0, 0⟩, lane := lane }

/-- R221, R424: complete a floating-point instruction that raised flags: an enabled flag traps with nothing written, else the
flags join FFLAGS. -/
def Lane.floatDone (v : Lane) (s : State) (fl : Nat) (write : State → State) : Act :=
  let fpten := ((s.ctxOf v).map fun c => c.fpten.toNat).getD 0
  if fl &&& fpten != 0 then .trapIn s causeFloat fl else .done (v.raiseFlags (write s) fl)

end Sys2Proof.Machine
end

