-- ==== Sys2Proof/Machine/Scratch.lean ====
section
/-!
DEFINITION. The scratchpad: plain accesses (R90, R99, R250), layout words and bank permutation (R92 to R94), the range
scoreboard (R96 to R101), and operations in flight (R117).
-/
namespace Sys2Proof.Machine

/-- Pool address of a group's scratchpad offset (R96). -/
def Group.pool (g : Group) (o : Nat) : Nat := g.spBase * 1024 + o
def Group.spRead (g : Group) (o n : Nat) : List Byte := (List.range n).map fun i => Store.rd 0 g.sp (o + i)
/-- A write of a whole word ends its bit errors (R103). -/
def Group.spWrite (g : Group) (o : Nat) (bs : List Byte) : Group :=
  let keep (w : Nat) : Bool := !(decide (o ≤ 4 * w) && decide (4 * w + 4 ≤ o + bs.length))
  { g with sp := setBytes g.sp o bs, spBad := g.spBad.filter keep, spWeak := g.spWeak.filter keep }
/-- R103: words all of whose bytes lie at the given offsets have been written whole. -/
def Group.spRenew (g : Group) (os : List Nat) : Group :=
  let keep (w : Nat) : Bool := !((List.range 4).all fun i => os.contains (4 * w + i))
  { g with spBad := g.spBad.filter keep, spWeak := g.spWeak.filter keep }
/-- R425: scratchpad bytes, those of uncorrectable words as 0. -/
def Group.spSound (g : Group) (o n : Nat) : List Byte :=
  (List.range n).map fun i => if g.spBad.contains ((o + i) / 4) then 0 else Store.rd 0 g.sp (o + i)
/-- R103: an uncorrectable word among n bytes from o on. -/
def Group.spPoisoned (g : Group) (o n : Nat) : Bool := g.spBad.any fun w => decide (o / 4 ≤ w) && decide (w ≤ (o + n - 1) / 4)

def State.group (s : State) (gid : Nat) : Option Group := Store.get s.groups gid
def State.spRead (s : State) (gid o n : Nat) : List Byte := ((s.group gid).map fun g => g.spRead o n).getD []
def State.spWrite (s : State) (gid o : Nat) (bs : List Byte) : State := s.updGroup gid fun g => g.spWrite o bs

/-- R96: two closed intervals share a byte. -/
def overlaps (lo hi lo' hi' : Nat) : Bool := decide (lo ≤ hi') && decide (lo' ≤ hi)

/-- R99: an entry that a plain access of a lane to pool bytes lo to hi waits for: one that stood when the access issued; `store` waits for
reads too. An acquire that has not been performed holds it as well (R368). -/
def State.boardBlocks (s : State) (v : Lane) (lo hi : Nat) (store : Bool) : Bool :=
  s.acquiring v.key || s.board.any fun e =>
    e.core == v.core && !e.empty && (store || e.write) && ((v.th.heldBy.map fun l => l.contains e.op).getD true) && overlaps e.lo e.hi lo hi

/-- R99: whether an operation is held by an earlier entry. -/
def State.opHeld (s : State) (op : Nat) : Bool :=
  (s.board.filter fun e => e.op == op && !e.empty).any fun mine =>
    ((s.board.takeWhile fun e => e != mine).any fun e =>
      e.op != op && e.core == mine.core && !e.empty && (e.write || mine.write) && overlaps e.lo e.hi mine.lo mine.hi)

/-- R100: entries free on a core. -/
def State.boardFree (s : State) (core : Nat) : Nat := 64 - (s.board.filter fun e => e.core == core).length
/-- The entries of an operation leave the scoreboard. -/
def State.dropEntries (s : State) (op : Nat) : State := { s with board := s.board.filter fun e => e.op != op }
def State.enter (s : State) (e : SbEntry) : State := { s with board := s.board ++ [e] }

/-- A new operation in flight and its number. -/
def State.newOp (s : State) (o : AOp) : State × Nat :=
  ({ s with nextOp := s.nextOp + 1, ops := Store.put s.ops s.nextOp o }, s.nextOp)
def State.endOp (s : State) (op : Nat) : State := { s with ops := Store.del s.ops op }

/-- R92: the bank permutation. -/
def permute (mode o : Nat) : Nat :=
  match mode with
  | 1 => o ^^^ (bits o 9 7 * 16)
  | 2 => o ^^^ (bits o 10 8 * 16)
  | 3 => o ^^^ (bits o 11 9 * 16)
  | 4 => o ^^^ (bits o 8 7 * 32)
  | 5 => o ^^^ (bits o 9 8 * 32)
  | 6 => o ^^^ (bits o 11 7 * 4)
  | 7 => o ^^^ (bits o 12 8 * 4)
  | _ => o

/-- R93: a layout word. -/
structure Layout where
  stride2 : Nat
  stride1 : Nat
  stride0 : Nat
  esize : Nat
  mode : Nat
  base : Nat
  deriving DecidableEq, Repr

def Layout.of (ws : List Word) : Layout :=
  let w := (ws.getD 0 0).toNat + (ws.getD 1 0).toNat * 2 ^ 32 + (ws.getD 2 0).toNat * 2 ^ 64
  { stride2 := bits w 95 73, stride1 := bits w 72 50, stride0 := bits w 49 27, esize := bits w 26 25, mode := bits w 24 21,
    base := bits w 20 0 }

/-- The three uniform registers of a layout word. -/
def Group.layoutWords (g : Group) (n : Nat) : List Word := (List.range 3).map fun i => Store.rd 0 g.k (n + i)
def layoutPlaces (n : Nat) : List (Dst × PFmt) := if 13 < n then [] else (List.range 3).map fun i => (.uniform (n + i), .int)

/-- R94: a legal layout word. -/
def Layout.legal (l : Layout) (n : Nat) : Bool :=
  let m := if l.esize = 1 then 2 else if l.esize = 2 then 4 else 1
  decide (n ≤ 13) && decide (l.mode ≤ 7) && l.base % m == 0 && l.stride0 % m == 0 && l.stride1 % m == 0 && l.stride2 % m == 0 &&
  (l.esize != 3 || l.stride0 == 0)

/-- Bytes of an element; a half byte counts as the byte that holds it. -/
def Layout.bytes (l : Layout) : Nat := if l.esize = 1 then 2 else if l.esize = 2 then 4 else 1
/-- R93: the logical offset of element (i, j, k). -/
def Layout.logical (l : Layout) (i j k : Nat) : Nat :=
  if l.esize = 3 then l.base + i / 2 + j * l.stride1 + k * l.stride2
  else l.base + i * l.stride0 + j * l.stride1 + k * l.stride2
/-- R93: elements are at physical offsets; a mode permutes 4-byte words, so each byte of an element is mapped on its own. -/
def Layout.byteOffsets (l : Layout) (i j k : Nat) : List Nat :=
  (List.range l.bytes).map fun b => permute l.mode (l.logical i j k + b)

/-- Read element (i, j, k) as an unsigned number. -/
def Group.element (g : Group) (l : Layout) (i j k : Nat) : Nat :=
  let v := ofBytes ((l.byteOffsets i j k).map fun o => Store.rd 0 g.sp o)
  if l.esize = 3 then (if i % 2 = 0 then v % 16 else v / 16) else v

/-- Write element (i, j, k). -/
def Group.setElement (g : Group) (l : Layout) (i j k v : Nat) : Group :=
  let v := if l.esize = 3 then
      let o := permute l.mode (l.logical i j k)
      let b := (Store.rd 0 g.sp o).toNat
      if i % 2 = 0 then b / 16 * 16 + v % 16 else b % 16 + v % 16 * 16
    else v
  (l.byteOffsets i j k).zipIdx.foldl (fun g p => g.spWrite p.1 [BitVec.ofNat 8 (v / 256 ^ p.2)]) g
/-- Write elements, given as indices and value. -/
def Group.setElements (g : Group) (l : Layout) (es : List (Nat × Nat × Nat × Nat)) : Group :=
  let h := es.foldl (fun g e => g.setElement l e.1 e.2.1 e.2.2.1 e.2.2.2) g
  if h.spBad.isEmpty && h.spWeak.isEmpty then h else h.spRenew (es.flatMap fun e => l.byteOffsets e.1 e.2.1 e.2.2.1)

/-- R96: the hull of an n0 by n1 block of elements, widened to whole lines under a mode: the lowest and highest offset. -/
def Layout.hull (l : Layout) (n0 n1 : Nat) : Nat × Nat :=
  let lo := l.base
  let hi := l.logical (n0 - 1) (n1 - 1) 0 + l.bytes - 1
  if l.mode = 0 then (lo, hi) else (lo / 128 * 128, hi / 128 * 128 + 127)

/-- R417: TVAL of a scratchpad-bounds trap: the lowest offset refused, modulo 2^64 when it is negative. -/
def boundsTval (len : Nat) (o : Int) : Nat := if o < 0 then modPow o 64 else max o.toNat len

/-- R90, R250: a plain access of n bytes at an exact offset: the trap it takes, if any. -/
def Group.plainTrap (g : Group) (o : Int) (n : Nat) : Option (Nat × Nat) :=
  if o % (n : Int) ≠ 0 then some (causeMisaligned, modPow o 64)
  else if o < 0 || ((g.spLen : Int) < o + n) then some (causeBounds, boundsTval g.spLen o)
  else none

/-- R99: a plain access of a lane waits. -/
def State.plainWaits (s : State) (v : Lane) (o : Int) (n : Nat) (store : Bool) : Bool :=
  (v.g.plainTrap o n).isNone && s.boardBlocks v (v.g.pool o.toNat) (v.g.pool (o.toNat + n - 1)) store

/-- R103: the errors in the words of a group's scratchpad that a read meets are counted, each once for an instruction. -/
def State.senseScratch (s : State) (gid ctx : Nat) (thread : Option Nat) (pc o n : Nat) : State :=
  match s.group gid with
  | none => s
  | some g =>
    let hit := ((g.spBad ++ g.spWeak).filter fun w => decide (o / 4 ≤ w) && decide (w ≤ (o + n - 1) / 4)).eraseDups
    hit.foldl (fun s w =>
      if s.sensed.contains (g.pool (4 * w)) then s
      else
        let s := { s with sensed := g.pool (4 * w) :: s.sensed }
        if g.spBad.contains w then s.countError 2 g.core ctx thread pc (g.pool (4 * w)) else s.countCorrected 8) s
/-- R103: the same for a read by an operation in flight. -/
def State.readScratch (s : State) (o : AOp) (gid lo n : Nat) : State :=
  { s with sensed := [] }.senseScratch gid (((s.group o.gid).map Group.ctx).getD 0) (some o.thread) o.pc lo n

/-- R103, R425: an operation in flight reads ranges of its group's scratchpad, each an offset and a length. An uncorrectable word sets SERR
of the thread that issued it. -/
def State.readOperand (s : State) (o : AOp) (rs : List (Nat × Nat)) : State :=
  match s.group o.gid with
  | none => s
  | some g =>
    if g.spBad.isEmpty && g.spWeak.isEmpty then s
    else
      let s := rs.foldl (fun s r => s.senseScratch o.gid g.ctx (some o.thread) o.pc r.1 r.2) { s with sensed := [] }
      if rs.any fun r => g.spPoisoned r.1 r.2 then
        s.updThread o.thread fun th => if th.gid = o.gid then { th with errst := th.errst ||| 1 } else th
      else s

/-- R103, R425: a plain read of ranges of scratchpad, each an offset and a length, then what is done with the group as it stands. With
ERRPOL.TRAP an uncorrectable word traps; else its bytes are 0 and SERR is set. -/
def Lane.plainRead (v : Lane) (s : State) (rs : List (Nat × Nat)) (k : State → Group → Act) : Act :=
  let g := (s.group v.th.gid).getD v.g
  let s := rs.foldl (fun s r => s.senseScratch v.th.gid v.g.ctx (some v.key) v.th.pc r.1 r.2) s
  match rs.find? fun r => g.spPoisoned r.1 r.2 with
  | none => k s g
  | some r =>
    let s := s.updThread v.key fun th => { th with errst := th.errst ||| 1 }
    let w := (g.spBad.find? fun w => decide (r.1 / 4 ≤ w) && decide (w ≤ (r.1 + r.2 - 1) / 4)).getD 0
    if ((s.ctxOf v).map fun c => c.errpol.getLsbD 0).getD false then .trapIn s causeUncorrectable (g.pool (4 * w)) else k s g
/-- R103, R425: a plain load of scratchpad bytes. -/
def Lane.plainLoad (v : Lane) (s : State) (o n : Nat) (k : State → List Byte → Act) : Act :=
  v.plainRead s [(o, n)] fun s g => k s (g.spSound o n)

/-- R97, R99: a held store of the thresher slot is performed once nothing earlier holds it. -/
def State.performSts (s : State) (op : Nat) : State :=
  match Store.get s.ops op with
  | none => s
  | some o =>
    match o.kind with
    | .sts a bs => if s.opHeld op || (s.group o.gid).isNone then s else ((s.spWrite o.gid a bs).endOp op).dropEntries op
    | _ => s
def AOp.isSts (o : AOp) : Bool :=
  match o.kind with
  | .sts _ _ => true
  | _ => false
/-- R101: the stores of thresher slots that the last retirement has set free are performed. -/
def State.releaseSts (s : State) : State := (s.ops.filter fun o => o.2.isSts).foldl (fun s o => s.performSts o.1) s
/-- R101: the entries of an operation retire. -/
def State.retireEntries (s : State) (op : Nat) : State := (s.dropEntries op).releaseSts
/-- R97, R250: a store to scratchpad: at once, or for the thresher slot under its scoreboard entry. -/
def Lane.scratchStore (v : Lane) (s : State) (o : Nat) (bs : List Byte) : State :=
  if isThresher v.key then
    let r := s.newOp { thread := v.key, gid := v.th.gid, core := v.core, pc := v.th.pc, dst := [], tc := none, kind := .sts o bs }
    (r.1.enter { op := r.2, core := v.core, gid := v.th.gid, lo := v.g.pool o, hi := v.g.pool (o + bs.length - 1), write := true,
                 empty := false }).performSts r.2
  else s.spWrite v.th.gid o bs

/-- R250: the exact scratchpad offset of LDS and STS. -/
def Lane.spOffset (v : Lane) (x : Fields) : Int := ((v.r32 x.a).toNat : Int) + sext x.imm.toNat 16

/-- R249: bytes of a size code. -/
def sizeBytes (code : Nat) : Nat := 2 ^ (code - 1)

/-- R249: a loaded value in its destination registers: extended to 32 bits when it is narrower. -/
def extendLoad (n : Nat) (sx : Bool) (v : Nat) : Nat := if sx && n < 4 then modPow (sext v (8 * n)) 32 else v

end Sys2Proof.Machine
end

