-- ==== Sys2Proof/Machine/LoadStore.lean ====
section
/-!
DEFINITION. Loads, stores, scratchpad accesses, atomics, fences and hints (majors 0x48 to 0x4C, R243 to R259), and the events
that end them: returning data, write queues, misses, walks, late error traps (R36, R37, R56, R117, R425).
-/
namespace Sys2Proof.Machine

/-- R246: the address of a global access. -/
def Lane.address (v : Lane) (x : Fields) : Nat := modPow ((v.r64 x.a).toNat + sext x.imm.toNat 16) 64

/-- R246, R249, R253: the checks of a global access of n bytes, then what is done with it. -/
def State.checkGlobal (s : State) (v : Lane) (a n : Nat) (aligned : Bool) (k : Act) : Act :=
  if aligned && a % n ≠ 0 then .trap causeMisaligned a
  else if !(((s.ctxOf v).map fun c => c.canonical a && c.canonical (a + n - 1)).getD false) then .trap causeCanonical a
  else k

/-- An access of a thread, before its pieces are cut. -/
def Lane.blankAccess (v : Lane) (kind : AccKind) (n op : Nat) : Access where
  id := 0
  kind := kind
  pc := v.th.pc
  va := 0
  size := 0
  op := op
  off := 0
  data := []
  code := 0
  ra := false
  returns := false
  cas := []
  ordered := false
  acquires := false
  total := n
  queued := false
  stopped := false

/-- R248: the pieces of an access join the thread's accesses in program order, and those that may be are performed. -/
def State.present (s : State) (key : Nat) (as : List Access) : State :=
  let as := as.zipIdx.map fun p => { p.1 with id := s.nextOp + p.2 }
  ({ s with nextOp := s.nextOp + as.length }.updThread key fun th => { th with kept := th.kept ++ as }).advance key

/-- A load operation of a lane with its destination pending (R117). -/
def Lane.newLoad (v : Lane) (s : State) (n parts : Nat) (sx : Bool) (dst : List Dst) (atomic : Option Nat) : State × Nat :=
  let r := s.newOp { thread := v.key, gid := v.th.gid, core := v.core, pc := v.th.pc, dst := dst, tc := none,
                     kind := .load { size := n, sx := sx, data := List.replicate n 0, left := parts, remote := [], poison := none,
                                     atomic := atomic } }
  (r.1.pendDsts v.key v.th.gid dst, r.2)

/-- R249: LD in a lane. -/
def Lane.load (v : Lane) (x : Fields) (s : State) : Act :=
  let n := sizeBytes x.sizeCode
  let a := v.address x
  let acq := x.fn.getLsbD 4
  s.checkGlobal v a n acq <|
    let ps := pieces a n
    let r := v.newLoad s n ps.length (x.fn.getLsbD 3) (v.places (Fields.sizeRegs x.sizeCode) x.d) none
    .done (r.1.present v.key (ps.map fun p =>
      { v.blankAccess .load n r.2 with va := p.1, size := p.2.1, off := p.2.2, acquires := acq && x.m.toNat != 0 }))
def execLd (x : Fields) (s : State) := issue (.ld x) (specOf (.ld x) fun v s => v.load x s) s

/-- R249: ST in a lane. DESIGN CHOICE (log 55): of plain stores of one gather to one location, that of the highest lane column stands. -/
def Lane.store (v : Lane) (x : Fields) (s : State) : Act :=
  let n := sizeBytes x.sizeCode
  let a := v.address x
  let rel := x.fn.getLsbD 5
  s.checkGlobal v a n rel <|
    let data := toBytes n (v.rd (Fields.sizeRegs x.sizeCode) x.b)
    .done (s.present v.key ((pieces a n).map fun p =>
      { v.blankAccess .store n 0 with va := p.1, size := p.2.1, data := (data.drop p.2.2).take p.2.1, ordered := rel }))
def execSt (x : Fields) (s : State) := issue (.st x) (specOf (.st x) fun v s => v.store x s) s

/-- R250: LDS in a lane. -/
def Lane.loadScratch (v : Lane) (x : Fields) (s : State) : Act :=
  let n := sizeBytes x.m.toNat
  let o := v.spOffset x
  match v.g.plainTrap o n with
  | some t => .trap t.1 t.2
  | none => v.plainLoad s o.toNat n fun s bs => .done (v.wr s (Fields.sizeRegs x.m.toNat) x.d (extendLoad n x.sat (ofBytes bs)))
def scratchWaits (x : Fields) (store : Bool) (s : State) (vs : List Lane) : Bool :=
  vs.any fun v => s.plainWaits v (v.spOffset x) (sizeBytes x.m.toNat) store
def execLds (x : Fields) (s : State) :=
  issue (.lds x) { specOf (.lds x) (fun v s => v.loadScratch x s) with stall := scratchWaits x false } s

/-- R250: STS in a lane. -/
def Lane.storeScratch (v : Lane) (x : Fields) (s : State) : Act :=
  let n := sizeBytes x.m.toNat
  let o := v.spOffset x
  match v.g.plainTrap o n with
  | some t => .trap t.1 t.2
  | none => .done (v.scratchStore s o.toNat (toBytes n (v.rd (Fields.sizeRegs x.m.toNat) x.b)))
/-- R97, R100: the thresher slot's STS needs a free scoreboard entry. -/
def entryWaits (s : State) (vs : List Lane) : Bool := vs.any fun v => isThresher v.key && s.boardFree v.core == 0
def execSts (x : Fields) (s : State) :=
  issue (.sts x) { specOf (.sts x) (fun v s => v.storeScratch x s) with
                   stall := fun s vs => scratchWaits x true s (vs.filter fun v => !isThresher v.key) || entryWaits s vs } s

/-- R251: the layout word and element of LDT. -/
def Lane.ldtLayout (v : Lane) (x : Fields) : Layout := Layout.of (v.g.layoutWords (x.immBits 3 0))
def Lane.ldtByte (v : Lane) (x : Fields) : List Nat :=
  (v.ldtLayout x).byteOffsets (v.r32 x.a).toNat (v.r32 x.b).toNat (v.r32 x.c).toNat
/-- R251: LDT in a lane. -/
def Lane.loadTensor (v : Lane) (x : Fields) (s : State) : Act :=
  let l := v.ldtLayout x
  let os := v.ldtByte x
  if !l.legal (x.immBits 3 0) then .illegal
  else if os.any fun o => v.g.spLen ≤ o then .trap causeBounds ((os.filter fun o => v.g.spLen ≤ o).foldl min (2 ^ 64 - 1))
  else
    v.plainLoad s (os.foldl min (os.headD 0)) os.length fun s _ =>
      let g := (s.group v.th.gid).getD v.g
      let e := if g.spPoisoned (os.foldl min (os.headD 0)) os.length then 0
        else g.element l (v.r32 x.a).toNat (v.r32 x.b).toNat (v.r32 x.c).toNat
      let w := if l.esize = 3 then 4 else 8 * l.bytes
      .done (v.wr s 1 x.d (if x.sat && w < 32 then modPow (sext e w) 32 else e))
/-- R96, R99: the bytes of the element, widened to whole lines under a mode. -/
def ldtWaits (x : Fields) (s : State) (vs : List Lane) : Bool :=
  vs.any fun v =>
    let l := v.ldtLayout x
    let os := v.ldtByte x
    let lo := os.foldl min (os.headD 0)
    let hi := lo + os.length - 1
    l.legal (x.immBits 3 0) && os.all (fun o => decide (o < v.g.spLen)) &&
      s.boardBlocks v (v.g.pool (if l.mode = 0 then lo else lo / 128 * 128)) (v.g.pool (if l.mode = 0 then hi else hi / 128 * 128 + 127)) false
def execLdt (x : Fields) (s : State) :=
  issue (.ldt x) { specOf (.ldt x) (fun v s => v.loadTensor x s) with
                   extra := fun _ => layoutPlaces (x.immBits 3 0), stall := ldtWaits x } s

/-- R252: LDK; the word arrives as returning data. -/
def execLdk (x : Fields) (s : State) := issue (.ldk x) (specOf (.ldk x) fun v s =>
  let n := (v.r32 x.a).toNat + x.imm.toNat
  if v.g.args.length ≤ n then .trap causeIndex n
  else
    let dst := v.places 1 x.d
    let r := s.newOp { thread := v.key, gid := v.th.gid, core := v.core, pc := v.th.pc, dst := dst, tc := none,
                       kind := .value [v.g.args.getD n 0] none }
    .done (r.1.pendDsts v.key v.th.gid dst)) s

/-- R253: bytes of an atomic's operand. -/
def atomBytes (x : Fields) : Nat :=
  let op := x.fn.toNat % 32
  if op = 18 then 8 else if op = 16 || op = 17 then 4 else if x.w64 then 8 else 4

/-- R452: .RA is ignored in RECORD and REPLAY, and counted. -/
def State.ignoreRa (s : State) (c : Nat) (ra : Bool) : State × Bool :=
  if ra && 2 ≤ s.mode c then (s.updLog c fun l => { l with raign := l.raign + 1 }, false) else (s, ra)

/-- R253 to R256: an atomic of operation `code` in a lane. `returns`: D receives the prior value. -/
def Lane.atomic (v : Lane) (x : Fields) (returns : Bool) (s : State) : Act :=
  let n := atomBytes x
  let code := x.fn.toNat % 32
  let a := v.address x
  s.checkGlobal v a n true <|
    let regs := n / 4
    let ra := s.ignoreRa v.g.ctx (code == 16 && x.w64)
    let r := if returns then v.newLoad ra.1 n 1 false (v.places regs x.d) (some code) else (ra.1, 0)
    .done (r.1.present v.key [{ v.blankAccess .atomic n r.2 with
                                va := a, size := n, data := toBytes n (v.rd regs x.b), code := code, ra := ra.2, returns := returns,
                                cas := if code = 9 then toBytes n (v.rd regs x.c) else [], ordered := x.order != 0,
                                acquires := x.order % 2 == 1 && x.m.toNat != 0 }])

def atomSpec (i : Instr) (x : Fields) : Spec := specOf i fun v s => v.atomic x true s
def redSpec (i : Instr) (x : Fields) : Spec := specOf i fun v s => v.atomic x false s
def execAtomAdd (x : Fields) (s : State) := issue (.atomAdd x) (atomSpec (.atomAdd x) x) s
def execAtomSub (x : Fields) (s : State) := issue (.atomSub x) (atomSpec (.atomSub x) x) s
def execAtomMinN (x : Fields) (s : State) := issue (.atomMinN x) (atomSpec (.atomMinN x) x) s
def execAtomMaxN (x : Fields) (s : State) := issue (.atomMaxN x) (atomSpec (.atomMaxN x) x) s
def execAtomAnd (x : Fields) (s : State) := issue (.atomAnd x) (atomSpec (.atomAnd x) x) s
def execAtomOr (x : Fields) (s : State) := issue (.atomOr x) (atomSpec (.atomOr x) x) s
def execAtomXor (x : Fields) (s : State) := issue (.atomXor x) (atomSpec (.atomXor x) x) s
def execAtomXchg (x : Fields) (s : State) := issue (.atomXchg x) (atomSpec (.atomXchg x) x) s
def execAtomCas (x : Fields) (s : State) := issue (.atomCas x) (atomSpec (.atomCas x) x) s
def execAtomInc (x : Fields) (s : State) := issue (.atomInc x) (atomSpec (.atomInc x) x) s
def execAtomDec (x : Fields) (s : State) := issue (.atomDec x) (atomSpec (.atomDec x) x) s
def execAtomMinS (x : Fields) (s : State) := issue (.atomMinS x) (atomSpec (.atomMinS x) x) s
def execAtomMaxS (x : Fields) (s : State) := issue (.atomMaxS x) (atomSpec (.atomMaxS x) x) s
def execAfadd (x : Fields) (s : State) := issue (.afadd x) (atomSpec (.afadd x) x) s
def execAmxf (x : Fields) (s : State) := issue (.amxf x) (atomSpec (.amxf x) x) s
def execAmxi (x : Fields) (s : State) := issue (.amxi x) (atomSpec (.amxi x) x) s
def execRed (x : Fields) (s : State) := issue (.red x) (redSpec (.red x) x) s
def execRedFadd (x : Fields) (s : State) := issue (.redFadd x) (redSpec (.redFadd x) x) s
def execRedAmxf (x : Fields) (s : State) := issue (.redAmxf x) (redSpec (.redAmxf x) x) s
def execRedAmxi (x : Fields) (s : State) := issue (.redAmxi x) (redSpec (.redAmxi x) x) s

/-- R258: the global rows that a copy touches meet a range. -/
def CopyOp.meets (c : CopyOp) (lo len : Nat) : Bool :=
  (List.range c.rows).any fun r =>
    let w := if 5 ≤ c.form then 2 * c.rowBytes else c.rowBytes
    (c.srcG && overlaps (c.src + 16 * r * c.sstr) (c.src + 16 * r * c.sstr + c.rowBytes - 1) lo (lo + len - 1)) ||
    (c.dstG && overlaps (c.dst + 16 * r * c.dstr) (c.dst + 16 * r * c.dstr + w - 1) lo (lo + len - 1))

/-- R477: the body of a collective. -/
structure Coll where
  op : Nat
  dt : Nat
  red : Nat
  nrank : Nat
  rank : Nat
  src : Nat
  dst : Nat
  count : Nat
  mlist : Nat
  deriving DecidableEq, Repr

def Coll.of (b : List Byte) : Coll where
  op := field b 8 1
  dt := field b 9 1
  red := field b 10 1
  nrank := field b 12 2
  rank := field b 14 2
  src := field b 16 8
  dst := field b 24 8
  count := field b 32 8
  mlist := field b 40 8

/-- Bytes of an element, of a block, of the local input and of the local output. -/
def Coll.elem (c : Coll) : Nat := if c.dt = 1 then 2 else 4
def Coll.block (c : Coll) : Nat := c.count * c.elem
def Coll.inLen (c : Coll) : Nat := if c.op = 1 then c.block else c.nrank * c.block
def Coll.outLen (c : Coll) : Nat := if c.op = 0 then c.block else c.nrank * c.block
/-- R258: the global footprint of a collective meets a range: its input, its output and its module list. -/
def Coll.meets (c : Coll) (lo len : Nat) : Bool :=
  [(c.src, c.inLen), (c.dst, c.outLen), (c.mlist, 2 * c.nrank)].any fun r => overlaps r.1 (r.1 + r.2 - 1) lo (lo + len - 1)

/-- R258: whether a piece that a peer has not performed is of a class that a fence names. -/
def Remote.fenced (r : Remote) (cls : BitVec 16) (lo len : Nat) : Bool :=
  let load := r.acc.kind == .load || r.acc.returns
  ((cls.getLsbD 0 && load) || (cls.getLsbD 1 && r.acc.kind != .load)) && overlaps r.acc.va (r.acc.va + r.acc.size - 1) lo (lo + len - 1)
/-- R258: what a fence of a lane still waits for: copies and collectives of the thread for class A, pieces that a peer has not performed for
classes L and S. -/
def State.fenceWaits (s : State) (v : Lane) (x : Fields) : Bool :=
  let len := (v.r32 x.b).toNat
  let all := len == 0xFFFFFFFF
  let lo := if all then 0 else (v.r64 x.a).toNat
  let n := if all then 2 ^ 64 else len
  len != 0 && s.ops.any fun e => e.2.thread == v.key && match e.2.kind with
    | .copy c => x.imm.getLsbD 2 && c.meets lo n
    | .coll c => x.imm.getLsbD 2 && (Coll.of c.desc).meets lo n
    | .load l => l.remote.any fun r => r.fenced x.imm lo n
    | _ => false
/-- R257, R258: FENCE in a lane. -/
def Lane.fence (v : Lane) (x : Fields) (s : State) : Act :=
  if (v.r32 x.b).toNat = 0 then .done s
  else
    let s := s.drainAll
    .done (if x.imm.getLsbD 0 && x.m.toNat != 0 then s.invalidateCache v.core else s)
def execFence (x : Fields) (s : State) :=
  issue (.fence x) { specOf (.fence x) (fun v s => v.fence x s) with stall := fun s vs => vs.any fun v => s.fenceWaits v x } s

/-- R259: a hint that translates is applied to its line, one that does not is dropped. -/
def Lane.hint (v : Lane) (x : Fields) (s : State) (k : State → Xlat → State) : Act :=
  let a := v.address x
  if !(((s.ctxOf v).map fun c => c.canonical a).getD false) then .done s
  else
    let r := s.lookup (dataUnit v.core (quadOf v.key)) v.core v.g.ctx a .load
    match r.2 with
    | some t => if t.peer.isSome || r.1.bridgeCut v.core t.pa then .done r.1 else .done (k r.1 t)
    | none => .done r.1
def execPref (x : Fields) (s : State) := issue (.pref x) (specOf (.pref x) fun v s => v.hint x s fun s t =>
  let line := t.pa / 128
  let s := ((s.drainLine line).sense (128 * line) 128).checkCode t.cmp (128 * line) 128 v.core v.g.ctx (some v.key) v.th.pc
  let dirty := ((Store.get s.lines line).map LineTag.dirty).getD false
  let s := if t.cl = 0 then s else s.allocate line x.kind dirty
  if x.m = 1 && t.cl = 2 then s.fillLines v.core { t with pa := 128 * line } 128 else s) s
def execEvict (x : Fields) (s : State) := issue (.evict x) (specOf (.evict x) fun v s => v.hint x s fun s t =>
  { s with lines := Store.upd s.lines (t.pa / 128) fun l => { l with prio := x.kind, dirty := l.dirty && x.m != 1 } }) s

/-- Put the bytes of a peer into the pieces that it holds, in their order. -/
def fillRemote (data : List Byte) : List (Nat × Nat) → List Byte → List Byte
  | [], _ => data
  | (o, n) :: rs, bs => fillRemote (data.take o ++ bs.take n ++ data.drop (o + n)) rs (bs.drop n)

/-- R117, R249, R254, R425: the value that a load or atomic delivers. -/
def LoadOp.value (l : LoadOp) (data : List Byte) : Nat :=
  match l.poison, l.atomic with
  | some _, some c => atomicPoison c
  | some _, none => 0
  | none, _ => extendLoad l.size l.sx (ofBytes data)

/-- R51: one grant at the slice that holds an address, and at the bridge port by which the other die reaches it. -/
def State.beat (s : State) (a : Nat) : State := (s.grant (bridgeOut (1 - dieOfAddr a) (homeSlice a % 4))).grant (sliceOut a)
/-- WRITE_QUEUE_APPLY (R51, R56): the slice takes what its port grants, and applies the entry of a line. -/
def execWriteQueueApply (line : Nat) (s : State) : Host.Outcome State Fault Refusal :=
  if (s.wq.any fun p => p.inLine line) || s.portHeld.any fun r => r.req.inLine line then happen ((s.beat (128 * line)).applyEntry line)
  else .next s

/-- TRANSLATION_MISS (R36). -/
def execTranslationMiss (die : Nat) (s : State) : Host.Outcome State Fault Refusal :=
  if s.enroute.any fun m => m.die == die then happen (s.takeMiss die) else .next s

/-- R37: what a walk's end is for one waiter: its page, or the cause, level and entry of its fault (R40). -/
def State.judge (s : State) (w : Waiter) : WalkEnd → Except (Nat × Nat × DWord) TlbEntry
  | .fault c l e => .error (c, l, e)
  | .leaf va b l e =>
    let x := s.xlat b e w.va
    if !x.permits w.kind then .error (w.kind.denied, l, e)
    else if !((x.peer.map s.reachable).getD true) then .error (6, 15, 0)
    else .ok { unit := w.unit, ctx := 0, va := va, bits := b, level := l, entry := e }

/-- A waiter whose access translates: the caches are filled and the thread goes on. -/
def State.serve (s : State) (core ctx : Nat) (w : Waiter) (e : TlbEntry) : State :=
  let s := (s.fillTlb { e with unit := levelTwo core, ctx := ctx }).fillTlb { e with ctx := ctx }
  match Store.get s.threads w.thread with
  | none => s
  | some th =>
    match w.kept with
    | some i => (s.setThread w.thread { th with kept := th.kept.map fun a => if a.id = i then { a with queued := false } else a }).resumeKept w.thread
    | none => if th.st = .waiting .page then s.setThread w.thread { th with st := .ready, since := s.now } else s

/-- R248: the waiters of a thread for accesses after a place in its program order are withdrawn. -/
def Waiter.after (w : Waiter) (key id : Nat) : Bool := w.thread == key && ((w.kept.map fun i => decide (id < i)).getD false)
def State.withdraw (s : State) (key id : Nat) : State :=
  let clean (ms : List Miss) : List Miss := ms.map fun m => { m with waiters := m.waiters.filter fun w => !w.after key id }
  { s with enroute := clean s.enroute, misses := clean s.misses }
/-- R248: an access of a thread fails: it stops where it stands, with every later one when the thread parks for it. -/
def Thread.stopAt (th : Thread) (id : Nat) (later : Bool) : Thread :=
  { th with kept := th.kept.map fun a => if a.id = id || (later && decide (id < a.id)) then { a with queued := false, stopped := true } else a }

/-- R320: bytes that a peer is to send to a traversal. -/
def AOp.readsRay (o : AOp) : Bool :=
  match o.kind with
  | .fetch r => r.kind == .ray
  | _ => false
/-- A thread's wait is broken off, so that its instruction runs again whole when the thread goes on: what it left behind is withdrawn. -/
def State.breakWait (s : State) (key : Nat) (th : Thread) : State :=
  match th.st with
  | .waiting .message =>
    let mine := ((s.group th.gid).map fun g => g.posts.filter fun p => p.thread == key && p.from?.isSome).getD []
    let s := mine.foldl (fun s p => (p.dst ++ p.from?.toList).foldl (fun s d => s.unpendDst key th.gid d) s) s
    s.updGroup th.gid fun g => { g with posts := g.posts.filter fun p => !(p.thread == key && p.from?.isSome) }
  | .waiting (.sign cv) =>
    s.updGroup th.gid fun g => { g with cvs := Store.upd g.cvs cv fun c => { c with signers := c.signers.filter fun q => q.thread != key } }
  | .waiting .walker => { s with claims := s.claims.filter fun c => c.thread != key }
  | .waiting (.ray op) =>
    let dst := ((Store.get s.ops op).map AOp.dst).getD []
    let s := { s with ops := s.ops.filter fun o => !(o.1 == op || (o.2.thread == key && o.2.readsRay)) }
    dst.foldl (fun s d => s.unpendDst key th.gid d) (s.retireEntries op)
  | _ => s

/-- R41, R248: the waiters of one cause park on one record; a thread that is parked already is not counted. -/
def State.parkFault (s : State) (ctx : Nat) (c : Nat × Nat × DWord) (ws : List Waiter) : State :=
  match ws with
  | [] => s
  | w :: _ =>
    let parks (w : Waiter) : Bool := match Store.get s.threads w.thread with
      | some th => !th.isParked
      | none => false
    let mine := (ws.filter parks).map Waiter.thread |>.eraseDups
    let r := s.namedRecord w.thread 1 c.1 (w.kind.code + 16 * sizeLog w.size) c.2.1 mine.length (!mine.isEmpty) w.ordered w.pc w.va
      c.2.2.toNat
    let a := s.report (s.tenantOf ctx) r
    let s := ws.foldl (fun s w => match w.kept with
      | some i =>
        let later := mine.contains w.thread
        (if later then s.withdraw w.thread i else s).updThread w.thread fun th => th.stopAt i later
      | none => s) a.1
    mine.foldl (fun s k =>
      let w := (ws.find? fun w => w.thread == k)
      let s := ((Store.get s.threads k).map fun th => s.breakWait k th).getD s
      s.updThread k fun th =>
        { (th.trapped causeTranslation ((w.map Waiter.va).getD 0) ((w.map Waiter.pc).getD 0)) with st := .parked (a.2.getD 0), heldBy := none }) s

/-- R248: an access takes its place in program order. -/
def placeAccess (a : Access) : List Access → List Access
  | [] => [a]
  | b :: l => if a.id < b.id then a :: b :: l else b :: placeAccess a l
/-- R40, R474, R476: pieces of a load, store or atomic fail at a peer or on the way to it: they are kept again, and the thread parks. -/
def State.failPieces (s : State) (op : Nat) (o : AOp) (l : LoadOp) (out : List Access) : State :=
  let rest := l.remote.filter fun r => !out.contains r.acc
  let s := if l.size = 0 && rest.isEmpty then s.endOp op
    else { s with ops := Store.put s.ops op { o with kind := .load { l with remote := rest, left := if l.size = 0 then 0 else l.left + out.length } } }
  match Store.get s.threads o.thread, out with
  | some th, a :: _ =>
    let ctx := ((s.group th.gid).map Group.ctx).getD 0
    let s := s.updThread o.thread fun th =>
      { th with kept := out.foldl (fun l a => placeAccess { a with queued := false, stopped := true } l) th.kept }
    s.parkFault ctx (6, 15, 0) [{ thread := o.thread, unit := dataUnit (coreOf o.thread) (quadOf o.thread), kind := a.accessKind, va := a.va,
                                  size := a.total, pc := a.pc, ordered := a.ordered && a.kind == .atomic, kept := some a.id }]
  | _, _ => s
/-- R40, R474: a read of an instruction that waits for a peer's bytes fails: the thread parks at the instruction. -/
def State.failRead (s : State) (op : Nat) (o : AOp) (r : RemoteRead) : State :=
  let ctx := ((s.group o.gid).map Group.ctx).getD 0
  let s := (s.endOp op).updThread o.thread fun th => { th with peerBuf := [], wordBuf := [] }
  s.parkFault ctx (6, 15, 0) [{ thread := o.thread, unit := dataUnit (coreOf o.thread) (quadOf o.thread), kind := r.kind, va := r.va, size := r.size,
                                pc := o.pc, ordered := false, kept := none }]

/-- Bytes that a peer sends for a piece. -/
def Remote.bytes (r : Remote) : Nat := if r.acc.kind = .load || r.acc.returns then r.acc.size else 0
/-- The peers of an operation have performed its pieces and sent `peer`: an acquire among them is performed (R105, R368), and accesses that
the thread kept back for it go on. -/
def State.peersDone (s : State) (op : Nat) (o : AOp) (l : LoadOp) (peer : List Byte) : State :=
  let data := fillRemote l.data ((l.remote.filter fun r => r.bytes != 0).map fun r => (r.acc.off, r.acc.size)) peer
  let s := { s with ops := Store.put s.ops op { o with kind := .load { l with data := data, remote := [] } } }
  if l.remote.any fun r => r.acc.acquires then s.invalidateCache o.core else s
/-- A load or atomic all of whose pieces are performed delivers its value (R117, R425). -/
def State.landLoad (s : State) (op : Nat) (o : AOp) (l : LoadOp) : State :=
  let s := (s.endOp op).landDsts o.thread o.gid o.dst (wordsOf o.dst.length (l.value l.data))
  match l.poison with
  | some a => s.poisonLanded o.thread a
  | none => s

/-- LOAD_DATA_RETURN: the data of an operation all of whose pieces are performed is written and its pending bits clear (R117).
`peer` are the bytes of the pieces that a peer holds; a failure code at the inputs is the peer's refusal (R476). -/
def execLoadDataReturn (op : Nat) (peer : List Byte) (s : State) : Host.Outcome State Fault Refusal :=
  match Store.get s.ops op with
  | none => .next s
  | some o =>
    match o.kind with
    | .load l =>
      if s.inputs.code ≠ 0 && !l.remote.isEmpty then happen (s.failPieces op o l (l.remote.map Remote.acc))
      else if peer.length ≠ (l.remote.map Remote.bytes).foldl (· + ·) 0 || (l.left ≠ 0 && l.remote.isEmpty) then .next s
      else
        let s := s.peersDone op o l peer
        let s := if l.left ≠ 0 then s
          else match (Store.get s.ops op).map AOp.kind with
            | some (.load l) => s.landLoad op o l
            | _ => s
        happen (if l.remote.isEmpty then s else s.resumeKept o.thread)
    | .value vs p =>
      let s := (s.endOp op).landDsts o.thread o.gid o.dst vs
      happen (match p with
        | some a => s.poisonLanded o.thread a
        | none => s)
    | .fetch r =>
      if s.inputs.code ≠ 0 then happen (s.failRead op o r)
      else if peer.length ≠ r.bytes then .next s
      else happen ((s.endOp op).updThread o.thread fun th =>
        let th := if r.kind = .fetch && r.va = o.pc && th.wordBuf.isEmpty && !th.reload then { th with wordBuf := th.wordBuf ++ peer } else { th with peerBuf := th.peerBuf ++ peer }
        match th.st with
          | .waiting (.ray _) => th
          | _ => { th with st := .ready, since := s.now })
    | _ => .next s

/-- R42: the place of a walk's detection among those of one clock: by die, then core, engines last; by its opener. -/
def Miss.rank (m : Miss) : Nat :=
  match m.waiters with
  | [] => 1000 * m.die
  | w :: _ => 1000 * m.die + if 3000 ≤ w.unit then w.unit - 3000 + 500 else coreOf w.thread
/-- R42: a detection of a lower place comes before one already made in this clock, so it is made in a later clock. -/
def State.detects (s : State) (m : Miss) : Bool :=
  match s.lastDetect with
  | some (t, r) => s.now != t || decide (r ≤ m.rank)
  | none => true
/-- R33, R36: a walk's end for a copy engine. -/
def State.serveEngine (s : State) (ctx : Nat) (w : Waiter) (res : WalkEnd) : State :=
  let s := match res with
    | .leaf va b l e => s.fillTlb { unit := w.unit, ctx := ctx, va := va, bits := b, level := l, entry := e }
    | .fault _ _ _ => s
  s.setPage w.thread (pageKey w.va (w.kind == .copyDst)) (s.permitted res w.va w.kind)

/-- WALK_COMPLETION (R37, R41, R42): the walk numbered in its place in the queues ends and is delivered to every waiter. -/
def execWalkCompletion (walk : Nat) (s : State) : Host.Outcome State Fault Refusal :=
  match s.misses[walk]? with
  | none => .next s
  | some m =>
    let va := m.vpn * 4096
    let res := s.walk m.die m.ctx va
    let judged := (m.waiters.filter fun w => w.unit < 3000).map fun w => (w, s.judge w res)
    let causes := (judged.filterMap fun j => match j.2 with
      | .error c => some c
      | .ok _ => none).eraseDups
    if !m.running || (!causes.isEmpty && !s.detects m) then .next s
    else
      let s := (s.walked m.die m.ctx va).fillWalkCache m.die m.ctx va
      let s := { s with misses := assignWalkers m.die [] (s.misses.eraseIdx walk),
                        lastDetect := if causes.isEmpty then s.lastDetect else some (s.now, m.rank) }
      let s := match res with
        | .leaf _ _ _ e => if e.getLsbD 59 then { s with walkedPeer := true } else s
        | .fault _ _ _ => s
      let s := (m.waiters.filter fun w => decide (3000 ≤ w.unit)).foldl (fun s w => s.serveEngine m.ctx w res) s
      let s := judged.foldl (fun s j => match j.2 with
        | .ok e => s.serve (coreOf j.1.thread) m.ctx j.1 e
        | .error _ => s) s
      happen (causes.foldl (fun s c => s.parkFault m.ctx c ((judged.filter fun j => match j.2 with
        | .error d => d == c
        | .ok _ => false).map Prod.fst)) s)

/-- LATE_ERROR_TRAP (R425): a thread at an instruction boundary takes the trap that its poison left due. -/
def execLateErrorTrap (thread : Nat) (s : State) : Host.Outcome State Fault Refusal :=
  match Store.get s.threads thread with
  | none => .next s
  | some th =>
    let boundary := match th.st with
      | .ready => true
      | .waiting (.stall _ _) => true
      | _ => false
    match th.late with
    | some a =>
      if boundary then
        happen ((s.setThread thread { th with late := none, st := .ready }).takeTraps
          [{ key := thread, cause := causeUncorrectable, tval := a }])
      else .next s
    | none => .next s

end Sys2Proof.Machine
end

