-- ==== Sys2Proof/Machine/Copy.lean ====
section
/-!
DEFINITION. Copies (R64 to R72, R76 to R78, R260 to R263): their checks, what they take at issue, and what their ends do.
-/
namespace Sys2Proof.Machine

/-- R64: the engine of a core's copies. -/
def engineOf (core : Nat) : Nat := 16 * dieOf core + core % 96 % 16

/-- R65: the group that is member m of a group's gang. -/
def State.memberGid (s : State) (g : Group) (m : Nat) : Option Nat :=
  (s.groups.find? fun e => e.2.ctx == g.ctx && e.2.launch == g.launch && e.2.gang == g.gang && e.2.member == m).map Prod.fst

/-- Cut n bytes from `start` on at multiples of 256: offsets and lengths. -/
def split256 : Nat → Nat → Nat → Nat → List (Nat × Nat)
  | 0, _, _, _ => []
  | fuel + 1, start, off, n =>
    if n = 0 then []
    else
      let m := min n (256 - (start + off) % 256)
      (off, m) :: split256 fuel start (off + m) (n - m)

/-- A part of a copy that lies in one row and one chunk: the chunk's key, source, destination, source bytes. -/
structure Seg where
  key : Nat
  src : Nat
  dst : Nat
  len : Nat
  deriving DecidableEq, Repr

/-- R262: destination bytes of a source byte. -/
def CopyOp.mul (c : CopyOp) : Nat := if 5 ≤ c.form then 2 else 1
/-- R261, R68: the parts of row r. -/
def CopyOp.rowSegs (c : CopyOp) (r : Nat) : List Seg :=
  let src := c.src + 16 * r * c.sstr
  let dst := c.dst + 16 * r * c.dstr
  let base := if c.srcG then src else if c.dstG then dst else r * c.rowBytes
  (split256 (c.rowBytes / 256 + 2) base 0 c.rowBytes).map fun p =>
    { key := (base + p.1) / 256, src := src + p.1, dst := dst + p.1 * c.mul, len := p.2 }
def CopyOp.segs (c : CopyOp) : List Seg := (List.range c.rows).flatMap fun r => c.rowSegs r
/-- R68: the chunks, in the order in which the copy enumerates their first bytes. -/
def CopyOp.chunks (c : CopyOp) : List (List Seg) :=
  let ss := c.segs
  (ss.map Seg.key).eraseDups.map fun k => ss.filter fun g => g.key == k

/-- The length of a footprint of rows from its first byte: R96's hull. -/
def hullLen (rows rowLen stride : Nat) : Nat := (rows - 1) * 16 * stride + rowLen
def CopyOp.srcLen (c : CopyOp) : Nat := hullLen c.rows c.rowBytes c.sstr
def CopyOp.dstLen (c : CopyOp) : Nat := hullLen c.rows (c.rowBytes * c.mul) c.dstr

/-- R260, R261: the copy that a lane asks for. -/
def Lane.copyOf (v : Lane) (x : Fields) (form : Nat) (srcG dstG : Bool) : CopyOp :=
  let sh := (v.r64 x.c).toNat
  let rows := bits sh 31 21 + 1
  { form := form, srcG := srcG, dstG := dstG,
    src := if srcG then (v.r64 x.a).toNat else (v.r32 x.a).toNat,
    dst := if form = 3 || form = 4 then 0 else if dstG then (v.r64 x.b).toNat else (v.r32 x.b).toNat,
    rows := rows, rowBytes := bits sh 20 0,
    sstr := if rows = 1 then 0 else bits sh 47 32, dstr := if rows = 1 then 0 else bits sh 63 48,
    queue := x.immBits 5 2, mask := x.immBits 13 6, member := x.immBits 8 6, slot := none, dsts := [], engine := engineOf v.core,
    pages := [], lost := [] }

/-- R263 step 2: a shape, length or chunk count that is illegal. -/
def CopyOp.badShape (c : CopyOp) : Bool :=
  let row := c.rowBytes * c.mul
  c.rowBytes == 0 || (decide (1 < c.rows) && decide (16 * c.dstr < row)) || decide (2 ^ 20 < row * c.rows) ||
  decide (8191 < (c.segs.map Seg.key).eraseDups.length)

/-- R263 step 3: the first row of a global side whose ends are not canonical. -/
def rowsBad (c : Option Ctx) (start rows stride len : Nat) : Option Nat :=
  (List.range rows).findSome? fun r =>
    let a := start + 16 * r * stride
    if (c.map fun c => c.canonical a && c.canonical (a + len - 1)).getD false then none else some a

/-- R77: the receivers of a multicast and whether its rules hold. -/
def maskMembers (mask : Nat) : List Nat := (List.range 8).filter fun m => mask.testBit m
def State.multicastOk (s : State) (g : Group) (c : CopyOp) (q : Queue) : Bool :=
  q.mcast && q.sender == g.member && c.mask != 0 && decide (c.mask < 2 ^ g.gangSize) &&
  (maskMembers c.mask).all fun m =>
    match (s.memberGid g m).bind fun r => s.group r with
    | some t => match Store.get t.queues c.queue with
        | some p => p.mcast && p.size == q.size && p.n == q.n && p.sender == q.sender
        | none => false
    | none => false

/-- R263: the trap that a copy takes at issue, in the order of the rule's steps. -/
def State.copyTrap (s : State) (v : Lane) (c : CopyOp) : Option (Nat × Nat) :=
  let g := (s.group v.th.gid).getD v.g
  if c.badShape then some (causeIllegal, 0)
  else
    let ctx := s.ctxOf v
    match (if c.srcG then rowsBad ctx c.src c.rows c.sstr c.rowBytes else none),
          (if c.dstG then rowsBad ctx c.dst c.rows c.dstr c.rowBytes else none) with
    | some a, _ => some (causeCanonical, a)
    | none, some a => some (causeCanonical, a)
    | none, none =>
      let target := (s.memberGid g c.member).bind fun r => s.group r
      let room := if c.form = 2 then (target.map Group.spLen).getD (2 ^ 32) else g.spLen
      let srcBad := !c.srcG && decide (g.spLen < c.src + c.srcLen)
      let dstBad := !c.dstG && c.form != 3 && c.form != 4 && decide (room < c.dst + c.dstLen)
      if srcBad then some (causeBounds, boundsTval g.spLen c.src)
      else if dstBad then some (causeBounds, boundsTval room c.dst)
      else if c.form = 1 && !c.srcG && !c.dstG && overlaps c.src (c.src + c.srcLen - 1) c.dst (c.dst + c.dstLen - 1) then
        some (causeIllegal, 0)
      else if c.form = 2 && target.isNone then some (causeIllegal, 0)
      else if c.form = 3 || c.form = 4 then
        match Store.get g.queues c.queue with
        | none => some (causeIllegal, 0)
        | some q =>
          if q.size < c.dstLen then some (causeIllegal, 0)
          else if c.form = 4 && !s.multicastOk g c q then some (causeIllegal, 0) else none
      else none

/-- R97: the scoreboard entries of a copy, the issuing core's first: core, group, interval, whether it writes, whether it is
still empty. -/
def State.copyEntries (s : State) (v : Lane) (c : CopyOp) (op : Nat) : List SbEntry :=
  let g := (s.group v.th.gid).getD v.g
  let entry (core gid : Nat) (g : Group) (o len : Nat) (w e : Bool) : SbEntry :=
    { op := op, core := core, gid := gid, lo := g.pool o, hi := g.pool (o + len - 1), write := w, empty := e }
  let src := if c.srcG then [] else [entry v.core v.th.gid g c.src c.srcLen false false]
  let at' (m : Nat) (f : Nat → Group → List SbEntry) : List SbEntry :=
    match s.memberGid g m with
    | some r => ((s.group r).map fun t => f r t).getD []
    | none => []
  src ++ (match c.form with
    | 2 => at' c.member fun r t => [entry t.core r t c.dst c.dstLen true false]
    | 3 => [entry v.core v.th.gid g 0 c.dstLen true true]
    | 4 => match Store.get g.queues c.queue with
        | some q => (maskMembers c.mask).flatMap fun m => at' m fun r t => match Store.get t.queues c.queue with
            | some p => [entry t.core r t (p.base + q.sent % q.n * p.size) p.size true false]
            | none => []
        | none => []
    | _ => if c.dstG then [] else [entry v.core v.th.gid g c.dst c.dstLen true false])

/-- R66: the cores with a thread that waits for a place in an engine. -/
def State.engineQueue (s : State) (e : Nat) : List Nat :=
  ((s.threads.filter fun t =>
    (match t.2.st with
      | .waiting (.stall _ .engine) => true
      | _ => false) && engineOf (coreOf t.1) == e && ((s.group t.2.gid).bind fun g => Store.get s.ctxs g.ctx).map Ctx.st == some .active).map
    fun t => coreOf t.1).eraseDups
/-- R66: where an engine keeps the order in which it last accepted its cores. -/
def engineKey (e : Nat) : Nat := 1000 + e
/-- The copies that the lanes of a gather would issue. -/
def State.copiesOf (s : State) (vs : List Lane) (mk : Lane → CopyOp) : List (Lane × CopyOp) :=
  (vs.map fun v => (v, mk v)).filter fun p => (s.copyTrap p.1 p.2).isNone
/-- R66: the engine of a gather has no place for its copies, or another core comes before. -/
def State.engineFull (s : State) (cs : List (Lane × CopyOp)) : Bool :=
  match cs with
  | [] => false
  | (v, c) :: _ =>
    let busy := (s.ops.filter fun o => (s.group o.2.gid).isSome && match o.2.kind with
      | .copy d => d.engine == c.engine
      | _ => false).length
    let waiting := s.engineQueue c.engine
    decide (64 < busy + cs.length) ||
      (!waiting.isEmpty && leastRecent ((Store.get s.grants (engineKey c.engine)).getD []) ((v.core :: waiting).eraseDups) != some v.core)
/-- R77: a multicast queue has no free slot on some receiver. -/
def State.slotsShort (s : State) (cs : List (Lane × CopyOp)) : Bool :=
  cs.any fun p => p.2.form == 4 && match (s.group p.1.th.gid).bind fun g => Store.get g.queues p.2.queue with
    | some q =>
      let same := (cs.filter fun r => r.2.form == 4 && r.1.th.gid == p.1.th.gid && r.2.queue == p.2.queue)
      (maskMembers p.2.mask).any fun m =>
        decide (q.credits.getD m 0 < (same.filter fun r => (maskMembers r.2.mask).contains m).length)
    | none => false
/-- R100: a core has too few scoreboard entries. -/
def State.entriesShort (s : State) (cs : List (Lane × CopyOp)) : Bool :=
  let es := cs.flatMap fun p => s.copyEntries p.1 p.2 0
  (es.map SbEntry.core).eraseDups.any fun core => decide (s.boardFree core < (es.filter fun e => e.core == core).length)
/-- R66, R77, R100: the copies of a gather wait for engine places, scoreboard entries and multicast units. -/
def State.copyWaits (s : State) (vs : List Lane) (mk : Lane → CopyOp) : Bool :=
  let cs := s.copiesOf vs mk
  s.entriesShort cs || s.slotsShort cs || s.engineFull cs
/-- What they wait for. -/
def State.copyStall (s : State) (vs : List Lane) (mk : Lane → CopyOp) : Stall :=
  let cs := s.copiesOf vs mk
  if s.slotsShort cs then .slot else if s.entriesShort cs then .issue else .engine

/-- R79: the next operation number of a group's counter. -/
def Group.takeNumber (g : Group) (tc : Nat) : Group × Nat :=
  let t := g.tcs.getD tc { issued := 0, value := 0, done := [] }
  ({ g with tcs := g.tcs.set tc { t with issued := t.issued + 1 } }, t.issued + 1)
def State.takeNumber (s : State) (gid tc : Nat) : State × Nat :=
  match s.group gid with
  | none => (s, 0)
  | some g => let r := g.takeNumber tc; ({ s with groups := Store.put s.groups gid r.1 }, r.2)

/-- R77: a slot leaves a receiver's free list for an engine; slots are released in the order in which they were sent. -/
def Queue.reserve (q : Queue) (h : Nat) : Queue :=
  { q with free := q.free.filter (· != h), slots := q.slots.set h .engine, ring := q.ring ++ [h] }
def Group.updQueue (g : Group) (n : Nat) (f : Queue → Queue) : Group := { g with queues := Store.upd g.queues n f }

/-- R405: a push towards a group's q0 waits for a free slot. -/
def State.pushBlocked (s : State) (gid : Nat) : Bool :=
  match (s.group gid).bind fun g => Store.get g.queues 0 with
  | some q => decide (q.free.length < (q.engines.filter fun e => e.slot.isNone).length)
  | none => false
def State.notePush (s : State) (gid : Nat) : State :=
  if s.pushBlocked gid then { s with pushWaited := insertNat gid s.pushWaited } else s

/-- R76, R77: a copy's place in its queue, and the slot of a multicast. -/
def State.takePlace (s : State) (v : Lane) (c : CopyOp) (op : Nat) : State × CopyOp :=
  match c.form with
  | 3 => ((s.updGroup v.th.gid fun g => g.updQueue c.queue fun q => { q with engines := q.engines ++ [⟨op, none, false⟩] }).notePush v.th.gid, c)
  | 4 =>
    match (s.group v.th.gid).bind fun g => (Store.get g.queues c.queue).map fun q => (g, q) with
    | none => (s, c)
    | some (g, q) =>
      let h := q.sent % q.n
      let place (m : Nat) : Nat := match ((s.memberGid g m).bind fun r => s.group r).bind fun t => Store.get t.queues c.queue with
        | some p => p.base + h * p.size
        | none => 0
      let s' := s.updGroup v.th.gid fun g => g.updQueue c.queue fun q =>
        { q with sent := q.sent + 1,
                 credits := q.credits.zipIdx.map fun p => if c.mask.testBit p.2 then p.1 - 1 else p.1 }
      let s' := (maskMembers c.mask).foldl (fun s m => match s.memberGid g m with
        | some r => s.updGroup r fun g => g.updQueue c.queue fun q => q.reserve h
        | none => s) s'
      (s', { c with slot := some h, dsts := (List.range 8).map place })
  | _ => (s, c)

/-- R35, R64: the pages that a copy reads and writes: an address in each, and whether it is on the destination side. -/
def CopyOp.pageList (c : CopyOp) : List (Nat × Bool) :=
  let ends (a n : Nat) : List Nat := [a / 4096 * 4096, (a + n - 1) / 4096 * 4096]
  (c.segs.flatMap fun g => (if c.srcG then (ends g.src g.len).map fun a => (a, false) else []) ++
    (if c.dstG then (ends g.dst (g.len * c.mul)).map fun a => (a, true) else [])).eraseDups
/-- R36: the translations that a copy asks its engine for. -/
def State.askPages (s : State) (op ctx : Nat) (c : CopyOp) : State :=
  c.pageList.foldl (fun s p => s.askPage op ctx c.engine p.1 p.2) s

/-- R67, R76, R79, R97: a lane's copy is issued. -/
def Lane.copy (v : Lane) (x : Fields) (c : CopyOp) (s : State) : Act :=
  match s.copyTrap v c with
  | some t => .trap t.1 t.2
  | none =>
    let dst := v.places 1 x.d
    let n := s.takeNumber v.th.gid (x.immBits 1 0)
    let es := n.1.copyEntries v c n.1.nextOp
    let p := n.1.takePlace v c n.1.nextOp
    let r := p.1.newOp { thread := v.key, gid := v.th.gid, core := v.core, pc := v.th.pc, dst := dst,
                         tc := some (x.immBits 1 0, n.2), kind := .copy p.2 }
    let s := ({ r.1 with board := r.1.board ++ es }.noteGrant (engineKey c.engine) v.core).pendDsts v.key v.th.gid dst
    .done (s.askPages r.2 v.g.ctx p.2)

/-- R67. -/
def copyRight (v : Lane) : Option Nat := if v.producer then none else some causeCopyRight
def copySpec (i : Instr) (x : Fields) (form : Nat) (srcG dstG : Bool) : Spec :=
  { specOf i (fun v s => v.copy x (v.copyOf x form srcG dstG) s) with
    rule := copyRight, ruleFirst := true, stall := fun s vs => s.copyWaits vs fun v => v.copyOf x form srcG dstG,
    why := fun s vs => s.copyStall vs fun v => v.copyOf x form srcG dstG }
def execBcpG2s (x : Fields) (s : State) := issue (.bcpG2s x) (copySpec (.bcpG2s x) x 1 true false) s
def execBcpS2g (x : Fields) (s : State) := issue (.bcpS2g x) (copySpec (.bcpS2g x) x 1 false true) s
def execBcpS2s (x : Fields) (s : State) := issue (.bcpS2s x) (copySpec (.bcpS2s x) x 1 false false) s
def execBcps (x : Fields) (s : State) := issue (.bcps x) (copySpec (.bcps x) x 2 false false) s
def execBcpq (x : Fields) (s : State) := issue (.bcpq x) (copySpec (.bcpq x) x 3 (x.m == 0) false) s
def execBcpm (x : Fields) (s : State) := issue (.bcpm x) (copySpec (.bcpm x) x 4 (x.m == 0) false) s
def execBcpUnpk4s (x : Fields) (s : State) := issue (.bcpUnpk4s x) (copySpec (.bcpUnpk4s x) x 5 true false) s
def execBcpUnpk4f (x : Fields) (s : State) := issue (.bcpUnpk4f x) (copySpec (.bcpUnpk4f x) x 6 true false) s
def execBcpUnpk8s (x : Fields) (s : State) := issue (.bcpUnpk8s x) (copySpec (.bcpUnpk8s x) x 7 true false) s
def execBcpUnpk8f (x : Fields) (s : State) := issue (.bcpUnpk8f x) (copySpec (.bcpUnpk8f x) x 8 true false) s

/-- R262: source bytes widened. FP4 code n has the E4M3 encoding of the same value; a NaN gives 0x7E00. -/
def e2m1AsE4m3 (n : Nat) : Nat := (e4m3.round .rne (n.testBit 3) (e2m1.decode n).int (e2m1.decode n).ex).1
def e4m3AsFp16 (b : Nat) : Nat :=
  match e4m3.decode b with
  | .fin n m x => (fp16.round .rne n (FP.fin n m x).int x).1
  | _ => 0x7E00
def unpack (form : Nat) (bs : List Byte) : List Byte :=
  match form with
  | 5 => bs.flatMap fun b => [BitVec.ofInt 8 (sext b.toNat 4), BitVec.ofInt 8 (sext (b.toNat / 16) 4)]
  | 6 => bs.flatMap fun b => [BitVec.ofNat 8 (e2m1AsE4m3 (b.toNat % 16)), BitVec.ofNat 8 (e2m1AsE4m3 (b.toNat / 16))]
  | 7 => bs.flatMap fun b => toBytes 2 (modPow (sext b.toNat 8) 16)
  | 8 => bs.flatMap fun b => toBytes 2 (e4m3AsFp16 b.toNat)
  | _ => bs

/-- R36, R43: the translation of an address that a copy asked for. One that it has not waited for is walked at once. -/
def State.copyXlat (s : State) (ctx : Nat) (c : CopyOp) (va : Nat) (dst : Bool) : State × Except (Nat × Nat × DWord) Xlat :=
  match Store.get c.pages (pageKey va dst) with
  | some (.leaf _ b _ e) => (s, .ok (s.xlat b e va))
  | some (.fault k l e) => (s, .error (k, l, e))
  | none => s.engineXlat (c.engine / 16) ctx va (if dst then .copyDst else .copySrc)
/-- How a copy engine asks for memory. -/
def AOp.asker (o : AOp) (c : CopyOp) (ctx : Nat) : Asker := { input := enginePort c.engine, core := o.core, ctx := ctx, thread := some o.thread, pc := o.pc }
/-- R40, R70, R476: whether the peer refused chunk i. -/
def State.refuses (s : State) (i : Nat) : Bool := s.inputs.code != 0 || s.inputs.refused.contains i

/-- The source bytes of a part of chunk i. `peer` are the bytes that peers send, in order. -/
def State.copyRead (s : State) (o : AOp) (c : CopyOp) (ctx i : Nat) (g : Seg) (peer : List Byte) :
    State × Except ChunkFail (List Byte) × List Byte :=
  if c.srcG then
    let r := s.copyXlat ctx c g.src false
    match r.2 with
    | .error e => (r.1, .error ⟨1, some (e.1, e.2.1, e.2.2, g.src, 4)⟩, peer)
    | .ok x =>
      match x.peer with
      | some m =>
        if !r.1.reachable m || c.lost.contains i then (r.1, .error ⟨6, none⟩, peer)
        else if s.refuses i then (r.1, .error ⟨1, some (6, 15, 0, g.src, 4)⟩, peer)
        else (r.1, .ok (peer.take g.len), peer.drop g.len)
      | none =>
        let q := r.1.readPage (o.asker c ctx) x g.len
        match q.2 with
        | .bytes bs => (q.1, .ok bs, peer)
        | .poison => (q.1, .error ⟨4, none⟩, peer)
        | .reserved => (q.1, .error ⟨3, none⟩, peer)
        | .cut => (q.1, .error ⟨6, none⟩, peer)
  else
    match s.group o.gid with
    | none => (s, .ok (List.replicate g.len 0), peer)
    | some gr =>
      let s := s.readScratch o o.gid g.src g.len
      if gr.spPoisoned g.src g.len then (s, .error ⟨4, none⟩, peer) else (s, .ok (gr.spRead g.src g.len), peer)

/-- Where a part of chunk i is written: a translated address, or scratchpad. -/
def State.copyTarget (s : State) (o : AOp) (c : CopyOp) (ctx i : Nat) (g : Seg) : State × Except ChunkFail (Option Xlat) :=
  if !c.dstG then (s, .ok none)
  else
    let r := s.copyXlat ctx c g.dst true
    match r.2 with
    | .error e => (r.1, .error ⟨2, some (e.1, e.2.1, e.2.2, g.dst, 5)⟩)
    | .ok x =>
      match x.peer with
      | some m =>
        if !r.1.reachable m || c.lost.contains i then (r.1, .error ⟨6, none⟩)
        else if s.refuses i then (r.1, .error ⟨2, some (6, 15, 0, g.dst, 5)⟩)
        else (r.1, .ok (some x))
      | none => if r.1.portCut (o.asker c ctx).input x.pa then (r.1, .error ⟨6, none⟩) else (r.1, .ok (some x))

/-- Write a part: to the scratchpads of `spots`, each a group and the offset that the part's offset counts from, to a peer, or at its
home slice (R71). -/
def State.copyWrite (s : State) (w : Asker) (spots : List (Nat × Nat)) (g : Seg) (x : Option Xlat) (bs : List Byte) : State :=
  match x with
  | none => spots.foldl (fun s r => s.spWrite r.1 (r.2 + g.dst) bs) s
  | some x =>
    match x.peer with
    | some m => { s with sent := .peerWrite m x.pa bs :: s.sent }
    | none => s.writePage w x bs

/-- A part as read and placed. -/
structure Moved where
  seg : Seg
  x : Option Xlat
  bytes : List Byte
  deriving DecidableEq, Repr

/-- Read and place the parts of chunk i; the first failure of the chunk stops it. DESIGN CHOICE (log 56): a part is read before its
destination is looked at, so of two failures of one part the source's is reported. -/
def State.gatherChunk (s : State) (o : AOp) (c : CopyOp) (ctx i : Nat) : List Seg → List Byte →
    State × Except ChunkFail (List Moved) × List Byte
  | [], peer => (s, .ok [], peer)
  | g :: gs, peer =>
    let r := s.copyRead o c ctx i g peer
    match r.2.1 with
    | .error f => (r.1, .error f, r.2.2)
    | .ok bs =>
      let t := r.1.copyTarget o c ctx i g
      match t.2 with
      | .error f => (t.1, .error f, r.2.2)
      | .ok x =>
        let q := State.gatherChunk t.1 o c ctx i gs r.2.2
        (q.1, q.2.1.map fun ms => { seg := g, x := x, bytes := unpack c.form bs } :: ms, q.2.2)

/-- What the chunks of a copy came to: the failures by chunk index, in order. -/
structure CopyRun where
  s : State
  peer : List Byte
  index : Nat
  fails : List (Nat × ChunkFail)

/-- Bytes that peers send for chunk i. -/
def State.chunkPeer (s : State) (ctx : Nat) (c : CopyOp) (i : Nat) (gs : List Seg) : Nat :=
  if !c.srcG || s.refuses i || c.lost.contains i then 0
  else (gs.map fun g => match (s.copyXlat ctx c g.src false).2 with
    | .ok x => if (x.peer.map s.reachable).getD false then g.len else 0
    | .error _ => 0).foldl (· + ·) 0
/-- R70: move one chunk; a chunk that fails leaves its destination bytes unwritten. -/
def CopyRun.chunk (r : CopyRun) (o : AOp) (c : CopyOp) (ctx : Nat) (spots : List (Nat × Nat)) (gs : List Seg) : CopyRun :=
  let q := r.s.gatherChunk o c ctx r.index gs r.peer
  let peer := r.peer.drop (r.s.chunkPeer ctx c r.index gs)
  match q.2.1 with
  | .error f => { s := q.1, peer := peer, index := r.index + 1, fails := r.fails ++ [(r.index, f)] }
  | .ok ms => { s := ms.foldl (fun s m => s.copyWrite (o.asker c ctx) spots m.seg m.x m.bytes) q.1, peer := peer, index := r.index + 1,
                fails := r.fails }

/-- R69: the status word. -/
def statusWord (code first nfail : Nat) : Word := word (code * 2 ^ 28 + first * 2 ^ 15 + nfail * 4)
/-- R69, R276: a count or index that its 13 bits cannot hold is a free value. -/
def State.statusField (s : State) (n : Nat) : State × Nat :=
  if n < 8192 then (s, n) else ({ s with nextChoice := s.nextChoice + 1 }, (Config.freeWord s.nextChoice).toNat % 8192)

/-- R43: the record of the lowest chunk that failed translation. -/
def State.copyRecord (s : State) (o : AOp) (c : CopyOp) (ctx : Nat) (wid : DWord) (fails : List (Nat × ChunkFail)) : State :=
  match fails.findSome? fun f => f.2.xl with
  | none => s
  | some (cause, level, entry, va, acc) =>
    (s.report (s.tenantOf ctx)
      { type := 2, cause := cause, ctx := ctx, core := 0xFFFF, flags := 16 * level, acc := acc + 112, slot := c.engine, count := 0,
        wid := wid, pc := o.pc, fva := va, entry := entry.toNat }).1

/-- R79: operation n has completed. -/
def Timeline.complete (t : Timeline) (n : Nat) : Timeline :=
  let d := insertNat n t.done
  let r := advanceRpos d.length (t.value + 1) d
  { t with value := r.1 - 1, done := r.2 }

/-- The value of a group's counter. -/
def State.tcValue (s : State) (gid tc : Nat) : Nat := ((s.group gid).map fun g => (g.tcs.getD tc ⟨0, 0, []⟩).value).getD 0
/-- A progress event of a group's context (R428). -/
def State.groupProgress (s : State) (gid : Nat) : State :=
  match s.group gid with
  | some g => s.progress g.ctx
  | none => s

/-- R80: TCW waiters of a group whose value is reached return, with the core's load cache invalidated (R105). -/
def State.wakeTimeline (s : State) (gid tc : Nat) : State :=
  let value := s.tcValue gid tc
  s.threads.foldl (fun s e => match e.2.st with
    | .waiting (.timeline t n) =>
      if e.2.gid == gid && t == tc && decide (n ≤ value) then (s.invalidateCache (coreOf e.1)).retire e.1 else s
    | _ => s) s

/-- R71: an operation completes: its entries retire, its status word is written, its number is complete. -/
def State.complete (s : State) (op : Nat) (o : AOp) (status : List Word) : State :=
  let s := ((s.endOp op).retireEntries op).landDsts o.thread o.gid o.dst status
  match o.tc with
  | none => s
  | some (tc, n) =>
    let old := s.tcValue o.gid tc
    let s := s.updGroup o.gid fun g => { g with tcs := g.tcs.set tc ((g.tcs.getD tc ⟨0, 0, []⟩).complete n) }
    (if old < s.tcValue o.gid tc then s.groupProgress o.gid else s).wakeTimeline o.gid tc

/-- R76: finished engine requests at the head of a queue's order append their slots to the filled list. -/
def appendFinished : Nat → Queue → Queue
  | 0, q => q
  | fuel + 1, q =>
    match q.engines with
    | { op := _, slot := some h, finished := true } :: rest =>
      appendFinished fuel { q with engines := rest, filled := q.filled ++ [h], slots := q.slots.set h .filled }
    | _ => q
def Queue.finish (q : Queue) (op : Nat) : Queue :=
  appendFinished q.engines.length { q with engines := q.engines.map fun e => if e.op == op then { e with finished := true } else e }

/-- The identifier of the thread that issued an operation. -/
def State.widOf (s : State) (key gid : Nat) : DWord :=
  if isThresher key then 0 else match Store.get s.threads key, s.group gid with
    | some t, some g => g.wid t.tid
    | _, _ => 0

/-- R71, R78: the bytes move, chunk by chunk, and the copy completes. `spots` receive scratchpad writes, `lost` receivers are gone; a
`quiet` copy writes no record (R398). -/
def State.runCopy (s : State) (op : Nat) (o : AOp) (c : CopyOp) (spots : List (Nat × Nat)) (lost : Nat) (quiet : Bool) : State :=
  let ctx := ((s.group o.gid).map Group.ctx).getD 0
  let wid := s.widOf o.thread o.gid
  let cs := c.chunks
  let r := cs.foldl (fun r gs => CopyRun.chunk r o c ctx spots gs) { s := s, peer := s.inputs.peer.data, index := 0, fails := [] }
  let s := if quiet then r.s else r.s.copyRecord o c ctx wid r.fails
  let good := (cs.length - r.fails.length) * lost
  let first := if lost = 0 then r.fails.head?.map fun f => (f.1, f.2.code)
    else some (0, ((r.fails.find? fun f => f.1 == 0).map fun f => f.2.code).getD 5)
  match first with
  | some (i, code) => let n := s.statusField (r.fails.length + good); n.1.complete op o [statusWord code i n.2]
  | none => s.complete op o [0]

/-- Bytes that a peer must send before a copy can complete. -/
def State.peerBytes (s : State) (ctx : Nat) (c : CopyOp) : Nat :=
  (c.chunks.zipIdx.map fun p => s.chunkPeer ctx c p.2 p.1).foldl (· + ·) 0

/-- Whether a copy may move its bytes now: its pages have translated, nothing earlier holds it (R99) and what peers send is at the inputs. -/
def State.copyReady (s : State) (op : Nat) (o : AOp) (c : CopyOp) : Bool :=
  (c.pageList.all fun p => (Store.get c.pages (pageKey p.1 p.2)).isSome) && !s.opHeld op &&
    s.inputs.peer.data.length == s.peerBytes (((s.group o.gid).map Group.ctx).getD 0) c

/-- BCPQ_SLOT_TAKEN (R76, R97, R99): the first request without a slot takes the oldest free handle, and its interval is set. -/
def execBcpqSlotTaken (op : Nat) (s : State) : Host.Outcome State Fault Refusal :=
  match Store.get s.ops op with
  | none => .next s
  | some o =>
    match o.kind with
    | .copy c =>
      match (s.group o.gid).bind fun g => (Store.get g.queues c.queue).map fun q => (g, q) with
      | none => .next s
      | some (g, q) =>
        match q.engines.find? (fun e => e.slot.isNone), q.free with
        | some e, h :: rest =>
          if c.form ≠ 3 || e.op ≠ op then .next s
          else
            let a := q.base + h * q.size
            let q' := { q with free := rest, slots := q.slots.set h .engine,
                               engines := q.engines.map fun r => if r.op == op then { r with slot := some h } else r }
            let s := s.updGroup o.gid fun g => { g with queues := Store.put g.queues c.queue q' }
            let s := { s with
              ops := Store.put s.ops op { o with kind := .copy { c with slot := some h, dsts := [a] } }
              board := s.board.map fun b => if b.op == op && b.empty then
                { b with lo := g.pool a, hi := g.pool (a + q.size - 1), empty := false } else b }
            happen s
        | _, _ => .next s
    | _ => .next s

/-- COPY_COMPLETION (R71): of every copy but a multicast. DESIGN CHOICE (log 57): to a member whose group has ended, all chunks fail with
CODE 5. -/
def execCopyCompletion (op : Nat) (s : State) : Host.Outcome State Fault Refusal :=
  match Store.get s.ops op with
  | none => .next s
  | some o =>
    match o.kind with
    | .copy c =>
      if c.form = 4 || (c.form = 3 && c.slot.isNone) || !s.copyReady op o c then .next s
      else
        let target := if c.form = 2 then ((s.group o.gid).bind fun g => s.memberGid g c.member) else some o.gid
        let s := s.runCopy op o c (target.toList.map fun r => (r, c.dsts.headD 0)) (if target.isNone then 1 else 0) false
        happen (if c.form = 3 then s.updGroup o.gid fun g => g.updQueue c.queue fun q => q.finish op else s)
    | _ => .next s

/-- BCPM_COMPLETION (R78): the slot is appended on every receiver. DESIGN CHOICE (log 57): a receiver whose group has ended counts as
fenced. -/
def execBcpmCompletion (op : Nat) (s : State) : Host.Outcome State Fault Refusal :=
  match Store.get s.ops op with
  | none => .next s
  | some o =>
    match o.kind, s.group o.gid with
    | .copy c, some g =>
      if c.form ≠ 4 || !s.copyReady op o c then .next s
      else
        let spots := (maskMembers c.mask).filterMap fun m => (s.memberGid g m).map fun r => (r, c.dsts.getD m 0)
        let h := c.slot.getD 0
        let s := s.runCopy op o c spots ((maskMembers c.mask).length - spots.length) false
        happen (spots.foldl (fun s r => s.updGroup r.1 fun g => g.updQueue c.queue fun q =>
          { q with filled := q.filled ++ [h], slots := q.slots.set h .filled }) s)
    | _, _ => .next s

end Sys2Proof.Machine
end

