-- ==== Sys2Proof/Machine/View.lean ====
section
/-!
DEFINITION. View sets: their descriptor and records (R332, R334), the warped sample grid and its times (R336, R337), the latch
(R338, R339), and the instructions that read them: VWARP, GZLT, SMPL, SERQ, TILEO, LENS (R300, R305 to R310).
-/
namespace Sys2Proof.Machine

/-- The key of a context's view-set slot. -/
def viewKey (ctx slot : Nat) : Nat := 4 * ctx + slot
def State.view (s : State) (ctx slot : Nat) : Option ViewSet := Store.get s.views (viewKey ctx slot)
def State.updView (s : State) (ctx slot : Nat) (f : ViewSet → ViewSet) : State :=
  { s with views := Store.upd s.views (viewKey ctx slot) f }

namespace ViewSet

/-- R332: the fields of the descriptor. -/
def nview (v : ViewSet) : Nat := field v.desc 0 1
def gsrc (v : ViewSet) : Nat := field v.desc 1 1
def out (v : ViewSet) : Nat := field v.desc 2 1
def res (v : ViewSet) : Nat := field v.desc 3 1
def ex (v : ViewSet) : Nat := field v.desc 4 2
def ey (v : ViewSet) : Nat := field v.desc 6 2
def dly (v : ViewSet) : Nat := field v.desc 8 4
def per (v : ViewSet) : Nat := field v.desc 12 4
def lt (v : ViewSet) : Nat := field v.desc 16 4
def t0 (v : ViewSet) : Nat := field v.desc 24 8
def mwin (v : ViewSet) : Nat := field v.desc 33 1
def moff (v : ViewSet) : Nat := field v.desc 48 8
def soff (v : ViewSet) : Nat := field v.desc 56 8
def strips (v : ViewSet) : Nat := ceilDiv v.ey 32
def columns (v : ViewSet) : Nat := ceilDiv v.ex 32
/-- R334: a view record. -/
def record (v : ViewSet) (n : Nat) : List Byte := v.views.getD n []
/-- R334: the 8-byte template of an axis (0 for x, 1 for y). -/
def template (v : ViewSet) (n axis : Nat) : List Byte := ((v.record n).drop (112 + 8 * axis)).take 8
def extent (v : ViewSet) (axis : Nat) : Nat := if axis = 0 then v.ex else v.ey
def lensed (v : ViewSet) (n : Nat) : Bool := (field (v.record n) 136 1).testBit 0
/-- R332: the scanout offsets of a tile of frame f, of its 32-byte warp record, and the end of the set's area. -/
def tileAt (v : ViewSet) (f n strip col : Nat) : Nat :=
  v.soff + (f % 2 * v.nview * v.strips * v.columns + (n * v.strips + strip) * v.columns + col) * 4096
def recordAt (v : ViewSet) (f n strip : Nat) : Nat :=
  v.soff + 2 * v.nview * v.strips * v.columns * 4096 + (f % 2 * v.nview * v.strips + n * v.strips + strip) * 32
def areaEnd (v : ViewSet) : Nat := v.soff + 2 * v.nview * v.strips * v.columns * 4096 + 2 * v.nview * v.strips * 32

end ViewSet

/-- R336: one axis of a view: its extent, its pitch codes and its breakpoints. -/
structure Axis where
  ext : Nat
  codes : Nat
  breaks : List Nat
  deriving DecidableEq, Repr

namespace Axis

def pitch (a : Axis) (k : Nat) : Nat := bits a.codes (2 * k + 1) (2 * k) + 1
def start (a : Axis) (k : Nat) : Nat := a.breaks.getD k 0
def stop (a : Axis) (k : Nat) : Nat := (a.breaks[k + 1]?).getD a.ext
def count (a : Axis) (k : Nat) : Nat := (a.stop k - a.start k) / a.pitch k
/-- R336: J_k, the samples below segment k, and C, all of them. -/
def below (a : Axis) (k : Nat) : Nat := ((List.range k).map a.count).foldl (· + ·) 0
def total (a : Axis) : Nat := a.below a.breaks.length
/-- The segment that holds sample i. -/
def segment (a : Axis) (i : Nat) : Option Nat :=
  (List.range a.breaks.length).find? fun k => decide (a.below k ≤ i) && decide (i < a.below k + a.count k)
/-- R336: the position of sample i in 16.8. -/
def pos (a : Axis) (i : Nat) : Option Nat :=
  (a.segment i).map fun k => 256 * a.start k + 128 * a.pitch k * (2 * (i - a.below k) + 1)
/-- R337: the lower edge of sample i; the extent when it does not exist. -/
def edge (a : Axis) (i : Nat) : Nat :=
  match a.segment i with
  | some k => a.start k + (i - a.below k) * a.pitch k
  | none => a.ext

end Axis

/-- R339: c of an extent E and a gaze coordinate. -/
def gazeCentre (e : Nat) (g : Word) : Nat :=
  match fp32.decode g.toNat with
  | .fin n m x => if n then 0 else min (floorDy m x).toNat e
  | _ => e / 2

/-- R339: the breakpoints of a template for a gaze coordinate. -/
def breakpoints (e : Nat) (tpl : List Byte) (g : Word) : List Nat :=
  let n := field tpl 0 1 % 8
  let c := gazeCentre e g
  (List.range (n - 1)).foldl (fun (bs : List Nat) i =>
    let t := 12 * (((c : Int) + sext (field tpl (2 + 2 * i) 2) 16 + 6) / 12)
    bs ++ [(min (max t (((bs.getLast?).getD 0 + 12 : Nat) : Int)) ((e : Int) - 12 * (n - (i + 1) : Nat))).toNat]) [0]

/-- The x axis of view n under a latch, and the y axis. -/
def Latch.xAxis (l : Latch) (v : ViewSet) (n : Nat) : Axis :=
  { ext := v.ex, codes := field (v.template n 0) 1 1, breaks := l.xb.getD n [0] }
def ViewSet.yAxis (v : ViewSet) (yb : List Nat) : Axis := { ext := v.ey, codes := field (v.template 0 1) 1 1, breaks := yb }
def Latch.yAxis (l : Latch) (v : ViewSet) : Axis := v.yAxis l.yb

namespace ViewSet

/-- R337: a time ns after T0 as a counter value, rounded down. -/
def clock (v : ViewSet) (ns : Int) : Int := v.t0 + ns * 11 / 10
/-- R337: B(n) of a strip's latch and deadline: a strip with no samples takes those of the highest strip that has some. -/
def stripRow (v : ViewSet) (yb : List Nat) (n : Nat) : Nat :=
  let y := v.yAxis yb
  y.edge (32 * min n ((y.total - 1) / 32))
/-- The y breakpoints of a frame; before its first latch only strip 0 is asked for, whose row is 0 whatever they are. -/
def yBreaks (v : ViewSet) (f : Nat) : List Nat := (Store.get v.yframes f).getD [0]
/-- R337: S(f, n) and L(f, n) as counter values. -/
def deadline (v : ViewSet) (f n : Nat) : Int := v.clock (f * v.per + v.stripRow (v.yBreaks f) n * v.lt)
def latchTime (v : ViewSet) (f n : Nat) : Int := v.clock (f * v.per + v.stripRow (v.yBreaks f) n * v.lt - 1000 * v.dly)
/-- R348: the time of display row Y of frame f. -/
def rowTime (v : ViewSet) (f y : Nat) : Int := v.clock (f * v.per + y * v.lt)

end ViewSet

/-- R305: one axis's image of a warp record. -/
def warpImage (a : Axis) (seq : Nat) : List Word :=
  let b (k : Nat) : Nat := (a.breaks[k]?).getD 0xFFFF
  [word (b 1 * 65536 + b 0), word (b 3 * 65536 + b 2), word (a.ext * 65536 + a.breaks.length * 256 + a.codes), word seq]
/-- R337: the latch sequence number of a strip. -/
def latchSeq (v : ViewSet) (f n : Nat) : Nat := (f * v.strips + n) % 2 ^ 32

/-- R300: the view set that a word names, unless its slot is not bound. -/
def State.viewOf (s : State) (v : Lane) (slot : Nat) : Option ViewSet := s.view v.g.ctx slot

/-- R300, R307: a tile word: bits 2:0 view, 15:8 tile column, 23:16 strip, all else 0. -/
def tileView (w : Nat) : Nat := w % 8
def tileCol (w : Nat) : Nat := bits w 15 8
def tileStrip (w : Nat) : Nat := bits w 23 16
def tileWordBad (v : ViewSet) (w : Nat) : Bool :=
  bits w 7 3 != 0 || bits w 31 24 != 0 || decide (v.columns ≤ tileCol w) || decide (v.strips ≤ tileStrip w)

/-- The view set's latch of a strip, for which the lane waits in external wait until it is there (R305 to R307). -/
def Lane.latched (s : State) (vs : ViewSet) (slot strip : Nat) (k : Latch → Act) : Act :=
  match Store.get vs.latches strip with
  | some l => k l
  | none => .wait s (.latch slot)

/-- R305: VWARP of an axis. -/
def Lane.warp (v : Lane) (x : Fields) (axis : Nat) (s : State) : Act :=
  let slot := x.immBits 1 0
  match s.viewOf v slot with
  | none => .illegal
  | some vs =>
    let n := (v.r32 x.a).toNat
    let strip := (v.r32 x.b).toNat
    if vs.nview ≤ n then .illegal
    else if vs.strips ≤ strip then .trap causeIndex strip
    else Lane.latched s vs slot strip fun l =>
      .done (v.wrWords s x.d (warpImage (if axis = 0 then l.xAxis vs n else l.yAxis vs) (latchSeq vs l.frame strip)))
def execVwarpX (x : Fields) (s : State) := issue (.vwarpX x) (specOf (.vwarpX x) fun v s => v.warp x 0 s) s
def execVwarpY (x : Fields) (s : State) := issue (.vwarpY x) (specOf (.vwarpY x) fun v s => v.warp x 1 s) s

/-- R306: GZLT. -/
def Lane.gazeOf (v : Lane) (x : Fields) (s : State) : Act :=
  let slot := x.immBits 1 0
  match s.viewOf v slot with
  | none => .illegal
  | some vs =>
    let strip := (v.r32 x.a).toNat
    if vs.strips ≤ strip then .trap causeIndex strip
    else Lane.latched s vs slot strip fun l =>
      .done (v.wrWords s x.d [l.gx, l.gy, word l.clock, word (latchSeq vs l.frame strip)])
def execGzlt (x : Fields) (s : State) := issue (.gzlt x) (specOf (.gzlt x) fun v s => v.gazeOf x s) s

/-- R307: the position of sample n of a tile, or none beyond the extent. -/
def samplePos (vs : ViewSet) (l : Latch) (tile n : Nat) : Option (Nat × Nat) :=
  match (l.xAxis vs (tileView tile)).pos (32 * tileCol tile + n % 32), (l.yAxis vs).pos (32 * tileStrip tile + n / 32) with
  | some px, some py => some (px, py)
  | _, _ => none

/-- R300, R307: the checks of a tile word and a sample index, a further check of the instruction, then the latch of the tile's
strip. -/
def Lane.sample (v : Lane) (slot tile n : Nat) (s : State) (check : Option (Nat × Nat)) (k : ViewSet → Option (Nat × Nat) → Act) : Act :=
  match s.viewOf v slot with
  | none => .illegal
  | some vs =>
    if vs.nview ≤ tileView tile then .illegal
    else if tileWordBad vs tile then .trap causeIndex tile
    else if 1024 ≤ n then .trap causeIndex n
    else match check with
      | some t => .trap t.1 t.2
      | none => Lane.latched s vs slot (tileStrip tile) fun l => k vs (samplePos vs l tile n)
def execSmpl (x : Fields) (s : State) := issue (.smpl x) (specOf (.smpl x) fun v s =>
  v.sample (x.immBits 1 0) (v.r32 x.a).toNat (v.r32 x.b).toNat s none fun _ p =>
    .done (v.wrWords s x.d (match p with
      | some (px, py) => [word px, word py]
      | none => [0xFFFFFFFF, 0xFFFFFFFF]))) s

/-- R310: DONE: the completed tiles of one view's strip. The field has 8 bits: a count of 256 does not fit in it, and the
specification does not say what it then holds. -/
def State.tilesDone (s : State) (vs : ViewSet) (f view strip : Nat) : State × Nat :=
  let n := (vs.done.filter fun d => d.1 == f && d.2.1 == view && d.2.2.1 == strip).length
  if n < 256 then (s, n) else ({ s with nextChoice := s.nextChoice + 1 }, (Config.freeWord s.nextChoice).toNat % 256)

/-- R310: the current frame of a strip is that of its most recent latch; before the first there is only a next one. -/
def ViewSet.frames (vs : ViewSet) (strip : Nat) : List Nat :=
  match Store.get vs.latches strip with
  | some l => [l.frame, l.frame + 1]
  | none => [vs.first]
def ViewSet.isQueued (vs : ViewSet) (f view strip : Nat) : Bool := vs.serq.contains (f, view, strip)

/-- R310, R352: SERQ. -/
def Lane.queueStrip (v : Lane) (x : Fields) (s : State) : Act :=
  let slot := x.immBits 1 0
  match s.viewOf v slot with
  | none => .illegal
  | some vs =>
    let w := (v.r32 x.a).toNat
    let f := (v.r32 x.b).toNat
    let strip := tileStrip w
    if vs.nview ≤ tileView w then .illegal
    else if bits w 15 3 != 0 || bits w 31 24 != 0 || decide (vs.strips ≤ strip) then .trap causeIndex w
    else
      let d := s.tilesDone vs f (tileView w) strip
      let current := ((Store.get vs.latches strip).map Latch.frame) == some f
      let state := if !(vs.frames strip).contains f then 3
        else if vs.isQueued f (tileView w) strip then 1
        else if current && decide (vs.deadline f strip ≤ (v.now : Int)) then 2 else 0
      let s := if state = 0 then d.1.updView v.g.ctx slot fun vs => { vs with serq := vs.serq ++ [(f, tileView w, strip)] } else d.1
      .done (v.wr32 s x.d (word (d.2 * 256 + state)))
def execSerq (x : Fields) (s : State) := issue (.serq x) (specOf (.serq x) fun v s => v.queueStrip x s) s

/-- R309: TILEO and LENS requests of a core in flight. -/
def State.lensLoad (s : State) (core : Nat) : Nat :=
  (s.ops.filter fun o => o.2.core == core && match o.2.kind with
    | .tile _ => true
    | _ => false).length

/-- R308, R346: the trap that TILEO or LENS takes. -/
def Lane.tileTrap (v : Lane) (x : Fields) (lens : Bool) (s : State) : Option (Nat × Nat) :=
  match s.viewOf v (x.immBits 1 0) with
  | none => some (causeIllegal, 0)
  | some vs =>
    let base := (v.r32 x.a).toNat
    let w := (v.r32 x.b).toNat
    if vs.nview ≤ tileView w || vs.lensed (tileView w) != lens then some (causeIllegal, 0)
    else if tileWordBad vs w then some (causeIndex, w)
    else if base % 128 ≠ 0 then some (causeMisaligned, base)
    else if v.g.spLen < base + 4096 then some (causeBounds, boundsTval v.g.spLen base)
    else none
/-- R309: requests that a core's lens queue holds. -/
def lensRoom : Nat := 16
/-- R308, R309, R346: TILEO and LENS. -/
def Lane.tileOut (v : Lane) (x : Fields) (lens : Bool) (s : State) : Act :=
  let slot := x.immBits 1 0
  match v.tileTrap x lens s, s.viewOf v slot with
  | some t, _ => .trap t.1 t.2
  | none, none => .illegal
  | none, some vs =>
    let base := (v.r32 x.a).toNat
    let w := (v.r32 x.b).toNat
    if lensRoom ≤ s.lensLoad v.core then .wait s (.stall s.moves .issue)
    else
      let dst := v.places 1 x.d
      let n := s.takeNumber v.th.gid (x.immBits 3 2)
      let f := ((Store.get vs.latches (tileStrip w)).map Latch.frame).getD vs.first
      let r := n.1.newOp { thread := v.key, gid := v.th.gid, core := v.core, pc := v.th.pc, dst := dst, tc := some (x.immBits 3 2, n.2),
                           kind := .tile { slot := slot, view := tileView w, strip := tileStrip w, col := tileCol w, base := base,
                                           lens := lens, frame := f } }
      let s := r.1.enter { op := r.2, core := v.core, gid := v.th.gid, lo := v.g.pool base, hi := v.g.pool (base + 4095), write := false,
                           empty := false }
      .done (s.pendDsts v.key v.th.gid dst)
/-- R100, R309: the tiles of a gather wait for scoreboard entries for all of them, and for the core's lens queue. -/
def tilesWait (x : Fields) (lens : Bool) (s : State) (vs : List Lane) : Bool :=
  match vs.filter fun v => (v.tileTrap x lens s).isNone with
  | [] => false
  | v :: us => decide (s.boardFree v.core < us.length + 1) || decide (lensRoom ≤ s.lensLoad v.core)
def tileSpec (i : Instr) (x : Fields) (lens : Bool) : Spec :=
  { specOf i (fun v s => v.tileOut x lens s) with rule := copyRight, stall := tilesWait x lens }
def execTileo (x : Fields) (s : State) := issue (.tileo x) (tileSpec (.tileo x) x false) s
def execLens (x : Fields) (s : State) := issue (.lens x) (tileSpec (.lens x) x true) s

/-- R333: no TILEO or LENS of the set is in flight. -/
def State.viewQuiet (s : State) (ctx slot : Nat) : Bool :=
  !(s.ops.any fun o => match o.2.kind with
    | .tile t => t.slot == slot && ((s.group o.2.gid).map Group.ctx) == some ctx
    | _ => false)

/-- Threads of a context that wait for a latch of a slot. -/
def State.latchWaiters (s : State) (ctx slot : Nat) : List Nat :=
  (s.threads.filter fun e => e.2.st == .waiting (.latch slot) && ((s.group e.2.gid).map Group.ctx) == some ctx).map Prod.fst

/-- R333, R300: the slot becomes unbound: every thread that waits for one of its latches takes the illegal-instruction trap, and
what the raster engines still hold of the set is dropped. -/
def State.unbindView (s : State) (ctx slot : Nat) : State :=
  let ws := s.latchWaiters ctx slot
  let s := { s with views := Store.del s.views (viewKey ctx slot),
                    prims := s.prims.filter fun p => !(p.ctx == ctx && p.slot == slot),
                    covers := s.covers.filter fun p => !(p.ctx == ctx && p.slot == slot),
                    amplifier := s.amplifier.map fun (e : Nat × List Meshlet) => (e.1, e.2.filter fun m => !(m.ctx == ctx && m.slot == slot)) }
  ws.foldl (fun s k => s.takeTraps [{ key := k, cause := causeIllegal, tval := 0 }]) s

/-- TILE_WRITE_COMPLETION (R308, R309, R346): the tile is written whole before the status word. DEDUCED (log 61): a tile whose strip's
deadline has passed is never shown, so its bytes do not reach scanout memory. -/
def State.writeTile (s : State) (op : Nat) (o : AOp) (t : TileOp) (g : Group) (vs : ViewSet) : State :=
  let late := decide (vs.deadline t.frame t.strip < (s.now : Int)) || decide (t.frame * vs.strips + t.strip < vs.deadNo)
  let count (s : State) : State := if late then s.updView g.ctx t.slot fun v => { v with late := satAdd v.late 1 } else s
  let finish (s : State) (code : Nat) : State :=
    ((count s).complete op o [if code = 0 then 0 else statusWord code 0 1]).progress g.ctx
  if s.bridgeStopped && dieOf o.core == 1 then finish s 6
  else if g.spPoisoned t.base 4096 then finish (s.readScratch o o.gid t.base 4096) 4
  else if late then finish (s.readScratch o o.gid t.base 4096) 0
  else
    let s := s.readScratch o o.gid t.base 4096
    let s := { s with scanout := setBytes s.scanout (vs.tileAt t.frame t.view t.strip t.col) (g.spRead t.base 4096) }
    let d := (t.frame, t.view, t.strip, t.col)
    finish (s.updView g.ctx t.slot fun v => { v with done := if v.done.contains d then v.done else v.done ++ [d] }) 0
def execTileWriteCompletion (op : Nat) (s : State) : Host.Outcome State Fault Refusal :=
  match Store.get s.ops op with
  | none => .next s
  | some o =>
    match o.kind, s.group o.gid with
    | .tile t, some g =>
      match s.view g.ctx t.slot with
      | none => .next s
      | some vs => if s.opHeld op then .next s else happen (s.writeTile op o t g vs)
    | _, _ => .next s

end Sys2Proof.Machine
end

