-- ==== Sys2Proof/Machine/Mesh.lean ====
section
/-!
DEFINITION. Meshlets (R302 to R304), the view amplifier (R335), the raster engines (R340, R341) and the routing of their records
(R342, R405).
-/
namespace Sys2Proof.Machine

/-- R303: a plain scratchpad store of a meshlet instruction at base + off, or its trap: `index` is the word that is out of range. -/
def Lane.meshTrap (v : Lane) (base off n : Nat) (index : Option Nat) : Option (Nat × Nat) :=
  match index with
  | some i => some (causeIndex, i)
  | none =>
    if base % 16 ≠ 0 then some (causeMisaligned, base)
    else if v.g.spLen < base + off + n then some (causeBounds, boundsTval v.g.spLen (base + off : Nat))
    else none

/-- What a meshlet store writes: its offset from the base, its bytes, and an index that is out of range. -/
structure MeshStore where
  off : Nat
  bytes : List Byte
  index : Option Nat
  deriving DecidableEq, Repr

def Lane.mvtx (v : Lane) (x : Fields) : MeshStore :=
  let n := (v.r32 x.b).toNat
  { off := 16 + 16 * n, bytes := quad (v.r128 x.c), index := if 255 < n then some n else none }
where
  quad (ws : List Word) : List Byte := ws.flatMap fun w => toBytes 4 w.toNat
def Lane.mprim (v : Lane) (x : Fields) : MeshStore :=
  let n := (v.r32 x.b).toNat
  let w := (v.r32 x.c).toNat
  { off := 4112 + 4 * n, bytes := toBytes 4 w,
    index := if 255 < n then some n else if 2 ^ 24 ≤ w then some w else none }
/-- R303: the counts word of MEMIT. -/
def countsBad (w : Nat) : Bool :=
  bits w 15 9 != 0 || bits w 31 25 != 0 || bits w 8 0 == 0 || decide (256 < bits w 8 0) || decide (256 < bits w 24 16)
def Lane.memit (v : Lane) (x : Fields) : MeshStore :=
  let w := (v.r32 x.b).toNat
  { off := 0, bytes := toBytes 2 (bits w 8 0) ++ toBytes 2 (bits w 24 16) ++ toBytes 4 (v.r32 x.c).toNat ++ toBytes 2 x.imm.toNat ++
      toBytes 2 0 ++ toBytes 4 v.wid.toNat,
    index := if countsBad w then some w else none }

/-- R303, R99: the three meshlet stores. -/
def Lane.meshStore (v : Lane) (x : Fields) (m : MeshStore) (s : State) : Act :=
  match v.meshTrap (v.r32 x.a).toNat m.off m.bytes.length m.index with
  | some t => .trap t.1 t.2
  | none => .done (s.spWrite v.th.gid ((v.r32 x.a).toNat + m.off) m.bytes)
def meshWaits (x : Fields) (f : Lane → MeshStore) (s : State) (vs : List Lane) : Bool :=
  vs.any fun v =>
    let m := f v
    let o := v.g.pool ((v.r32 x.a).toNat + m.off)
    (v.meshTrap (v.r32 x.a).toNat m.off m.bytes.length m.index).isNone && s.boardBlocks v o (o + m.bytes.length - 1) true
def meshSpec (i : Instr) (x : Fields) (f : Lane → MeshStore) : Spec :=
  { specOf i (fun v s => v.meshStore x (f v) s) with stall := meshWaits x f }
def execMvtx (x : Fields) (s : State) := issue (.mvtx x) (meshSpec (.mvtx x) x fun v => v.mvtx x) s
def execMprim (x : Fields) (s : State) := issue (.mprim x) (meshSpec (.mprim x) x fun v => v.mprim x) s
def execMemit (x : Fields) (s : State) := issue (.memit x) (meshSpec (.memit x) x fun v => v.memit x) s

/-- R302: a header whose NV or NP breaks its range. -/
def headerBad (h : List Byte) : Bool := field h 0 2 == 0 || decide (256 < field h 0 2) || decide (256 < field h 2 2)
/-- R304: the scratchpad ranges that VAMP reads: offset and length; only the header when that is to be dropped. -/
def meshRanges (base : Nat) (h : List Byte) : List (Nat × Nat) :=
  if headerBad h then [(base, 16)]
  else [(base, 16), (base + 16, 16 * field h 0 2), (base + 4112, 4 * field h 2 2), (field h 4 4, field h 0 2 * field h 8 2)].filter
    fun r => r.2 != 0

/-- R304, R301: the checks of VAMP: its trap, or the ranges that it reads. -/
def Lane.vampRanges (v : Lane) (x : Fields) (s : State) : Except (Nat × Nat) (List (Nat × Nat)) :=
  match s.viewOf v (x.immBits 1 0) with
  | none => .error (causeIllegal, 0)
  | some vs =>
    let base := (v.r32 x.a).toNat
    let w := (v.r32 x.b).toNat
    if w % 256 = 0 || 2 ^ vs.nview ≤ w % 256 then .error (causeIllegal, 0)
    else if 256 ≤ w then .error (causeIndex, w)
    else if base % 16 ≠ 0 then .error (causeMisaligned, base)
    else if v.g.spLen < base + 16 then .error (causeBounds, boundsTval v.g.spLen base)
    else
      let rs := meshRanges base (s.spRead v.th.gid base 16)
      match (rs.filter fun r => decide (v.g.spLen < r.1 + r.2)).map fun r => boundsTval v.g.spLen r.1 with
      | [] => .ok rs
      | t :: ts => .error (causeBounds, ts.foldl min t)

/-- R304: plain loads of the ranges one after the other, their bytes joined. -/
def Lane.plainLoads (v : Lane) (k : State → List Byte → Act) : List (Nat × Nat) → List Byte → State → Act
  | [], bs, s => k s bs
  | r :: rs, bs, s => v.plainLoad s r.1 r.2 fun s b => Lane.plainLoads v k rs (bs ++ b) s

/-- R304: VAMP: the meshlet enters the core's amplifier, once that has a place. -/
def Lane.amplify (v : Lane) (x : Fields) (s : State) : Act :=
  match v.vampRanges x s with
  | .error t => .trap t.1 t.2
  | .ok rs =>
    if 4 ≤ (Store.rd [] s.amplifier v.core).length then .wait s (.stall s.moves .issue)
    else v.plainLoads (fun s bs =>
      let m : Meshlet := { ctx := v.g.ctx, slot := x.immBits 1 0, mask := (v.r32 x.b).toNat, bytes := bs }
      .done { s with amplifier := Store.put s.amplifier v.core (Store.rd [] s.amplifier v.core ++ [m]) }) rs [] s
def execVamp (x : Fields) (s : State) := issue (.vamp x) { specOf (.vamp x) (fun v s => v.amplify x s) with
  stall := fun s vs => vs.any fun v =>
    let base := (v.r32 x.a).toNat
    let blocked (rs : List (Nat × Nat)) : Bool := rs.any fun r => s.boardBlocks v (v.g.pool r.1) (v.g.pool (r.1 + r.2 - 1)) false
    (base % 16 == 0 && decide (base + 16 ≤ v.g.spLen) && blocked [(base, 16)]) || match v.vampRanges x s with
      | .ok rs => blocked rs
      | .error _ => false } s

/-- R335: row r of MAT times a position: the sum ((m0 x + m1 y) + m2 z) + m3 w, every step rounded. -/
def matRow (mat p : List Byte) (r : Nat) : Nat :=
  let t (c : Nat) : Nat := mulRne (field mat (16 * r + 4 * c) 4) (field p (4 * c) 4)
  addRne (addRne (addRne (t 0) (t 1)) (t 2)) (t 3)
/-- The FP32 encoding of a small whole number. -/
def natBits (n : Nat) : Nat := (fp32.round .rne false n 0).1
/-- R335: round x * 256 to an integer; none for a NaN or an infinity, and out of range. -/
def snap (w : Nat) : Option Int :=
  match fp32.decode w with
  | .fin n m x =>
    let q := ((FP.fin n m (x + 8)).toInt .rne).1
    if -(2 ^ 23) ≤ q && q ≤ 2 ^ 23 - 1 then some q else none
  | _ => none
/-- R335: a vertex transformed and snapped; none when it makes its primitive be dropped. -/
def ViewSet.project (vs : ViewSet) (n : Nat) (p : List Byte) : Option (Int × Int) :=
  let mat := vs.record n
  let q := (List.range 4).map fun r => matRow mat p r
  let hx := natBits (vs.ex / 2)
  let hy := natBits (vs.ey / 2)
  let w := fp32.decode (q.getD 3 0)
  if q.any (fun c => (fp32.decode c).isNan || (fp32.decode c).isInf) || w.neg || w.isZero then none
  else
    match snap (addRne (mulRne (divRne (q.getD 0 0) (q.getD 3 0)) hx) hx),
          snap (subRne hy (mulRne (divRne (q.getD 1 0) (q.getD 3 0)) hy)) with
    | some a, some b => some (a, b)
    | _, _ => none

/-- R340: the value of the edge from u to v at p. -/
def edgeValue (u v p : Int × Int) : Int := (v.1 - u.1) * (p.2 - u.2) - (v.2 - u.2) * (p.1 - u.1)
def topLeft (u v : Int × Int) : Bool := decide (v.2 - u.2 < 0) || (v.2 == u.2 && decide (u.1 < v.1))

/-- R335: primitive i of a meshlet in view n, snapped; none when it is dropped. -/
def Meshlet.prim (m : Meshlet) (vs : ViewSet) (n i : Nat) : Option (List (Int × Int)) :=
  let nv := field m.bytes 0 2
  let w := field m.bytes (16 + 16 * nv + 4 * i) 4
  let ix := [w % 256, bits w 15 8, bits w 23 16]
  if ix.any fun k => nv ≤ k then none
  else
    match ix.filterMap fun k => vs.project n ((m.bytes.drop (16 + 16 * k)).take 16) with
    | [a, b, c] => if edgeValue a b c = 0 then none else some [a, b, c]
    | _ => none

/-- AMPLIFY_PROJECT (R304, R335): the amplifier of a core takes its oldest meshlet and hands the snapped primitives to the raster
engines of its die, in ascending primitive and view. -/
def execAmplifyProject (core : Nat) (s : State) : Host.Outcome State Fault Refusal :=
  match Store.rd [] s.amplifier core with
  | [] => .next s
  | m :: rest =>
    let s := { s with amplifier := Store.wr [] s.amplifier core rest }
    match s.view m.ctx m.slot with
    | none => happen s
    | some vs =>
      if headerBad m.bytes then happen (s.updView m.ctx m.slot fun v => { v with pdrop := satAdd v.pdrop 1 })
      else
        let all := (List.range (field m.bytes 2 2)).flatMap fun i =>
          ((List.range 8).filter fun n => m.mask.testBit n).map fun n => (i, n, m.prim vs n i)
        let new := all.filterMap fun p => p.2.2.map fun pts =>
          ({ die := dieOf core, ctx := m.ctx, slot := m.slot, view := p.2.1, meshlet := word (field m.bytes 12 4), index := p.1,
             pts := pts, strip := 0 } : Prim)
        let s := s.updView m.ctx m.slot fun v => { v with pdrop := satAdd v.pdrop (all.length - new.length) }
        happen { s with prims := s.prims ++ new }

/-- R340: whether a primitive covers a sample. -/
def covers (pts : List (Int × Int)) (p : Int × Int) : Bool :=
  match pts with
  | [a, b, c] =>
    let (b, c) := if edgeValue a b c < 0 then (c, b) else (b, c)
    [(a, b), (b, c), (c, a)].all fun e =>
      let v := edgeValue e.1 e.2 p
      decide (0 < v) || (v == 0 && topLeft e.1 e.2)
  | _ => false

/-- R341: the coverage mask of a primitive in a tile. -/
def Prim.mask (p : Prim) (vs : ViewSet) (l : Latch) (strip col : Nat) : Nat :=
  (List.range 1024).foldl (fun m n =>
    match (l.xAxis vs p.view).pos (32 * col + n % 32), (l.yAxis vs).pos (32 * strip + n / 32) with
    | some x, some y => if covers p.pts (x, y) then m + 2 ^ n else m
    | _, _ => m) 0
/-- R341: the coverage records of a primitive in a strip. -/
def Prim.records (p : Prim) (vs : ViewSet) (l : Latch) (strip : Nat) : List Cover :=
  (List.range vs.columns).filterMap fun col =>
    let m := p.mask vs l strip col
    if m = 0 then none
    else some { die := p.die, ctx := p.ctx, slot := p.slot, frame := l.frame, view := p.view, strip := strip, col := col,
                bytes := toBytes 4 p.meshlet.toNat ++ toBytes 2 p.index ++ toBytes 1 p.view ++ toBytes 1 0 ++ toBytes 1 col ++
                  toBytes 1 strip ++ toBytes 2 0 ++ toBytes 4 l.frame ++ toBytes 128 m, taken := none }

/-- R340: the bounding box of a primitive touches no sample row of a strip under a y axis. -/
def Prim.misses (p : Prim) (y : Axis) (strip : Nat) : Bool :=
  (List.range 32).all fun r => match y.pos (32 * strip + r) with
    | some q => p.pts.all (fun t => decide (t.2 < (q : Int))) || p.pts.all fun t => decide ((q : Int) < t.2)
    | none => true

/-- R340: the latch that a primitive's test of a strip uses. A strip that has not been latched is waited for, unless the y record of
the frame that will first latch it already shows that the primitive does not touch it. -/
def Prim.latch (p : Prim) (vs : ViewSet) (strip : Nat) : Option (Option Latch) :=
  match Store.get vs.latches strip with
  | some l => some (some l)
  | none => match Store.get vs.yframes vs.first with
    | some yb => if p.misses (vs.yAxis yb) strip then some none else none
    | none => none

/-- The oldest element of a list that meets a test, and the list with f applied to it, or without it. -/
def changeFirst {α : Type} (t : α → Bool) (f : α → Option α) : List α → List α
  | [] => []
  | a :: l => if t a then (f a).toList ++ l else a :: changeFirst t f l

/-- RASTER_TEST (R340): the engines of a die test their oldest primitive against its next strip. -/
def execRasterTest (die : Nat) (s : State) : Host.Outcome State Fault Refusal :=
  match s.prims.find? fun p => p.die == die with
  | none => .next s
  | some p =>
    match s.view p.ctx p.slot with
    | none => happen { s with prims := changeFirst (fun q => q.die == die) (fun _ => none) s.prims }
    | some vs =>
      match p.latch vs p.strip with
      | none => .next s
      | some l =>
        let new := match l with
          | some l => p.records vs l p.strip
          | none => []
        let next (q : Prim) : Option Prim := if q.strip + 1 < vs.strips then some { q with strip := q.strip + 1 } else none
        happen { s with prims := changeFirst (fun q => q.die == die) next s.prims, covers := s.covers ++ new }

/-- R342: the stage-3 groups of a context's graphics pipeline on a die, in the order of the rule. -/
def State.stageGroups (s : State) (ctx die : Nat) : List Nat :=
  let gfx (slot : Nat) : Bool := match (Store.get s.ctxs ctx).bind fun c => Store.get c.pipes slot with
    | some p => p.gfx
    | none => false
  let mine := s.groups.filter fun e => e.2.ctx == ctx && !e.2.leaving && dieOf e.2.core == die && match e.2.stage with
    | some (slot, 3) => gfx slot
    | _ => false
  (mine.foldl (fun (m : Store Nat) e => Store.put m (e.2.core * 4096 + e.2.rows.headD 0) e.1) []).map Prod.snd

/-- R342: the lists of a strip for both dies; none while no stage-3 group is resident. -/
def State.routesFor (s : State) (ctx f strip : Nat) : List Route :=
  let lists := [0, 1].map fun d => s.stageGroups ctx d
  if lists.all List.isEmpty then []
  else lists.zipIdx.map fun p => { frame := f, strip := strip, die := p.2, groups := p.1 }

/-- R342: the list in use for a die's records of a strip. -/
def ViewSet.route (vs : ViewSet) (f strip die : Nat) : List Nat :=
  let at' (d : Nat) : List Nat := ((vs.routes.find? fun r => r.frame == f && r.strip == strip && r.die == d).map Route.groups).getD []
  if (at' die).isEmpty then at' (1 - die) else at' die

/-- R342: fix the list of a strip at the first delivery after a stage-3 group has been placed. -/
def State.fixRoute (s : State) (c : Cover) : State :=
  match s.view c.ctx c.slot with
  | some vs =>
    if vs.routes.any fun r => r.frame == c.frame && r.strip == c.strip then s
    else s.updView c.ctx c.slot fun v => { v with routes := v.routes ++ s.routesFor c.ctx c.frame c.strip }
  | none => s

/-- R405: a record is discarded: its group is to leave, or has gone, and its strip's deadline has passed. -/
def State.coverStale (s : State) (vs : ViewSet) (c : Cover) (gid : Nat) : Bool :=
  let past := decide (c.frame * vs.strips + c.strip < vs.deadNo)
  let g := (s.group gid).orElse fun _ => (s.saved.find? fun v => v.gid == gid).map SavedGroup.group
  past && (g.map Group.leaving).getD true

/-- R341, R76: a record takes the oldest free slot of a group's q0, in the order of the engines' requests. -/
def State.takeCover (s : State) (c : Cover) (gid : Nat) (g : Group) : Option State :=
  match Store.get g.queues 0 with
  | none => none
  | some q =>
    match q.free, q.engines.any fun e => e.slot.isNone with
    | h :: rest, false =>
      let q := { q with free := rest, slots := q.slots.set h .engine, engines := q.engines ++ [⟨s.nextOp, some h, false⟩] }
      some { s with groups := Store.put s.groups gid { g with queues := Store.put g.queues 0 q }, nextOp := s.nextOp + 1,
                    covers := changeFirst (fun q => q.die == c.die) (fun q => some { q with taken := some (gid, h, s.nextOp) }) s.covers }
    | _, _ => none
/-- R341, R374: the record is written into its slot, once no scoreboard entry stands over the slot's bytes, and is pushed. -/
def State.pushCover (s : State) (c : Cover) (gid h op : Nat) (g : Group) : Option State :=
  match Store.get g.queues 0 with
  | none => none
  | some q =>
    let a := q.base + h * q.size
    if s.board.any fun e => e.core == g.core && !e.empty && overlaps e.lo e.hi (g.pool a) (g.pool (a + q.size - 1)) then none
    else some { s with groups := Store.put s.groups gid { g.spWrite a c.bytes with queues := Store.put g.queues 0 (q.finish op) } }

/-- R393: the gang of a group as its launch and number. -/
def Group.inGang (g : Group) (launch gang : Nat) : Bool := g.launch == launch && g.gang == gang
/-- 25 µs, in core clocks (R8, R400). -/
def stopClocks : Nat := 27500
/-- R400: a stop request for one gang; of two the earlier deadline stands. -/
def State.stopGangBy (s : State) (g : Group) (deadline : Nat) : State :=
  if s.gangStops.any fun t => g.inGang t.launch t.gang then
    { s with gangStops := s.gangStops.map fun t => if g.inGang t.launch t.gang then { t with deadline := min t.deadline deadline } else t }
  else { s with gangStops := s.gangStops ++ [{ launch := g.launch, gang := g.gang, deadline := deadline, saving := false }] }
def State.stopGang (s : State) (g : Group) : State := s.stopGangBy g (s.now + stopClocks)

/-- R342: the group that a coverage record goes to. -/
def State.coverTarget (s : State) (c : Cover) : Option Nat :=
  (s.view c.ctx c.slot).bind fun vs =>
    (vs.route c.frame c.strip c.die)[(c.col * vs.nview + c.view) % (vs.route c.frame c.strip c.die).length]?
/-- R405: a group that is to leave may be stopped: the deadline of every strip whose list names it has passed, and no record is left for it. -/
def State.mayLeave (s : State) (gid : Nat) (g : Group) : Bool :=
  g.leaving && ((List.range 4).all fun k => match s.view g.ctx k with
    | none => true
    | some vs => vs.routes.all fun r => !r.groups.contains gid || decide (r.frame * vs.strips + r.strip < vs.deadNo)) &&
  !(s.covers.any fun c => c.ctx == g.ctx && s.coverTarget c == some gid)
/-- R405: stop the groups of a context that may leave. -/
def State.releaseLeaving (s : State) (ctx : Nat) : State :=
  (s.groups.filter fun e => e.2.ctx == ctx && s.mayLeave e.1 e.2).foldl (fun s e => s.stopGang e.2) s

/-- COVERAGE_DELIVERY (R341, R342, R405, R428): the oldest coverage record of a die takes a slot, is delivered, or waits. -/
def execCoverageDelivery (die : Nat) (s : State) : Host.Outcome State Fault Refusal :=
  match s.covers.find? fun c => c.die == die with
  | none => .next s
  | some c =>
    let drop (s : State) : State := { s with covers := changeFirst (fun q => q.die == die) (fun _ => none) s.covers }
    match c.taken with
    | some (gid, h, op) =>
      (match s.group gid with
      | none => if s.saved.any fun v => v.gid == gid then .next s else happen (drop s)
      | some g =>
        match s.pushCover c gid h op g with
        | some s => happen (((drop s).progress c.ctx).releaseLeaving c.ctx)
        | none => .next s)
    | none =>
      let s := s.fixRoute c
      match s.view c.ctx c.slot with
      | none => happen (drop s)
      | some vs =>
        match s.coverTarget c with
        | none => .next s
        | some gid =>
          if s.coverStale vs c gid then happen ((drop (s.updView c.ctx c.slot fun v => { v with late := satAdd v.late 1 })).releaseLeaving c.ctx)
          else
            match s.group gid with
            | none => .next s
            | some g =>
              match s.takeCover c gid g with
              | some s => happen s
              | none => if s.pushWaited.contains gid then .next s else happen { s with pushWaited := insertNat gid s.pushWaited }

end Sys2Proof.Machine
end

