-- ==== Sys2Proof/Machine/Display.lean ====
section
/-!
DEFINITION. The display path: gaze frames (R338, R470), strip latches and deadlines (R339, R347, R352), display rows through the lens
unit (R348, R349, R471), and scanout bursts (R21).
-/
namespace Sys2Proof.Machine

/-- R338: the gaze that a latch reads: the register, or the mailbox of the window as one raw read. -/
def State.readGaze (s : State) (ctx slot : Nat) (vs : ViewSet) : State × Word × Word :=
  if vs.gsrc = 0 then (s, vs.gx, vs.gy)
  else
    let r := s.rawRead (windowBase ((s.tenant vs.tenant).window vs.mwin) + vs.moff) 8
    let gaze (i : Nat) : Word := if r.2.2 then word fp32.qnan else word (field r.2.1 (4 * i) 4)
    (if r.2.2 then r.1.updView ctx slot fun v => { v with gdrop := satAdd v.gdrop 1 } else r.1, gaze 0, gaze 1)

/-- R339: the records of one latch as they stand in the record area. -/
def ViewSet.writeRecords (vs : ViewSet) (l : Latch) (strip : Nat) (m : List Host.Cell) : List Host.Cell :=
  (List.range vs.nview).foldl (fun m n =>
    let ws := warpImage (l.xAxis vs n) (latchSeq vs l.frame strip) ++ warpImage (l.yAxis vs) (latchSeq vs l.frame strip)
    setBytes m (vs.recordAt l.frame n strip) (ws.flatMap fun w => toBytes 4 w.toNat)) m

/-- R337: the time of the next latch. -/
def ViewSet.nextLatch (vs : ViewSet) : Int := vs.latchTime (vs.latchNo / vs.strips) (vs.latchNo % vs.strips)
def ViewSet.nextDeadline (vs : ViewSet) : Int := vs.deadline (vs.deadNo / vs.strips) (vs.deadNo % vs.strips)
def ViewSet.nextRow (vs : ViewSet) : Int := vs.rowTime (vs.row / vs.ey) (vs.row % vs.ey)

/-- R339, R342: the latch of strip n of frame f. -/
def State.latchStrip (s : State) (ctx slot : Nat) (vs : ViewSet) (f n : Nat) : State :=
  let g := s.readGaze ctx slot vs
  let yb := if n = 0 then breakpoints vs.ey (vs.template 0 1) g.2.2 else vs.yBreaks f
  let l : Latch := { frame := f, clock := (vs.latchTime f n).toNat, gx := g.2.1, gy := g.2.2, yb := yb,
                     xb := (List.range vs.nview).map fun v => breakpoints vs.ex (vs.template v 0) g.2.1 }
  let s := { g.1 with scanout := vs.writeRecords l n g.1.scanout }
  let routes := s.routesFor ctx f n
  let s := s.updView ctx slot fun v => { v with
    latches := Store.put v.latches n l
    old := Store.put v.old n (((Store.get v.latches n).toList ++ (Store.get v.old n).getD []).take 2)
    latchNo := v.latchNo + 1
    yframes := (if n = 0 then Store.put v.yframes f yb else v.yframes).filter fun e => decide (f < e.1 + 2)
    routes := (v.routes.filter fun r => decide (f < r.frame + 2) || s.covers.any fun c =>
      c.ctx == ctx && c.slot == slot && c.frame == r.frame && c.strip == r.strip) ++ routes
    done := v.done.filter fun d => decide (f < d.1 + 2)
    serq := v.serq.filter fun q => decide (f < q.1 + 2) }
  (s.latchWaiters ctx slot).foldl (fun s k => s.updThread k fun th => { th with st := .ready, since := s.now }) s

/-- STRIP_LATCH (R337, R339): the next latch of a set, at its time or later. -/
def execStripLatch (ctx slot : Nat) (s : State) : Host.Outcome State Fault Refusal :=
  match s.view ctx slot with
  | none => .next s
  | some vs =>
    if (s.now : Int) < vs.nextLatch then .next s
    else happen (s.latchStrip ctx slot vs (vs.latchNo / vs.strips) (vs.latchNo % vs.strips))

/-- R346: whether strip n of frame f is complete: SERQ has queued it for every view and every tile column that holds samples is
done. -/
def ViewSet.complete (vs : ViewSet) (f n : Nat) : Bool :=
  match Store.get vs.latches n with
  | none => false
  | some l => l.frame == f && (List.range vs.nview).all fun v =>
      vs.isQueued f v n && (List.range (ceilDiv (l.xAxis vs v).total 32)).all fun c => vs.done.contains (f, v, n, c)

/-- R347: the latch of strip n of frame f. -/
def ViewSet.latchAt (vs : ViewSet) (f n : Nat) : Option Latch :=
  ((Store.get vs.latches n).toList ++ (Store.get vs.old n).getD []).find? fun l => l.frame == f
/-- R347: what is shown of a strip from a deadline on: the strip when it is complete, else that of the frame before. -/
def ViewSet.showAt (vs : ViewSet) (f n : Nat) : Store Latch :=
  match vs.latchAt (if vs.complete f n then f else f - 1) n with
  | some l => if vs.complete f n || vs.first < f then Store.put vs.shown n l else vs.shown
  | none => vs.shown
/-- STRIP_DEADLINE (R347, R352): a complete strip is shown; else the previous frame's stands and MISS counts. What completes at the
deadline counts, so the event comes after it; rows before it come first. -/
def execStripDeadline (ctx slot : Nat) (s : State) : Host.Outcome State Fault Refusal :=
  match s.view ctx slot with
  | none => .next s
  | some vs =>
    if vs.latchNo ≤ vs.deadNo || (s.now : Int) ≤ vs.nextDeadline || vs.nextRow < vs.nextDeadline then .next s
    else
      let f := vs.deadNo / vs.strips
      let n := vs.deadNo % vs.strips
      let s := s.updView ctx slot fun v => { v with
        deadNo := v.deadNo + 1
        shown := v.showAt f n
        miss := if v.complete f n then v.miss else satAdd v.miss 1 }
      happen (s.releaseLeaving ctx)

/-- A pixel as its red, green and blue bytes. -/
abbrev Pixel := List Nat
def black : Pixel := [0, 0, 0]
/-- R344: a lerp of unorm channels. -/
def lerpUnorm (a b : Int) (w : Nat) : Int := a + ((b - a) * w + 128) / 256
def Pixel.lerp (a b : Pixel) (w : Nat) : Pixel := (List.range 3).map fun i => (lerpUnorm (a.getD i 0) (b.getD i 0) w).toNat

/-- R348: sample (column, row) of the shown strips of view n. -/
def State.samplePixel (s : State) (vs : ViewSet) (n col row : Nat) : Pixel :=
  match Store.get vs.shown (row / 32) with
  | none => black
  | some l =>
    let a := vs.tileAt l.frame n (row / 32) (col / 32) + 128 * (row % 32) + 4 * (col % 32)
    (List.range 3).map fun i => (Store.rd 0 s.scanout (a + i)).toNat

/-- R348: pixel (x, y) with no lens. -/
def State.plainPixel (s : State) (vs : ViewSet) (n x y : Nat) : Pixel :=
  match Store.get vs.shown (y / 32) with
  | none => black
  | some l => if x < (l.xAxis vs n).total && y < (l.yAxis vs).total then s.samplePixel vs n x y else black

/-- R348: sigma of a source coordinate on an axis: 256 J_k + floor((u - 256 b_k) / s_k) - 128. -/
def Axis.sigma (a : Axis) (u : Nat) : Int :=
  let k := (((List.range a.breaks.length).filter fun k => decide (256 * a.start k ≤ u)).getLast?).getD 0
  (256 * a.below k + (u - 256 * a.start k) / a.pitch k : Nat) - 128
/-- A sample number clamped to those that exist. -/
def clampTo (i : Int) (n : Nat) : Nat := min i.toNat (n - 1)

/-- R348: mesh vertex (i, j) of view n: the source x and y in 16.8. -/
def State.meshVertex (s : State) (vs : ViewSet) (n i j : Nat) : Int × Int :=
  let a := field (vs.record n) 128 8 + 8 * (j * (vs.columns + 1) + i)
  let rd (o : Nat) : Int := sext (ofBytes ((List.range 4).map fun k => Store.rd 0 s.scanout (a + o + k))) 32
  (rd 0, rd 4)
/-- R348: the bilinear mesh coordinate. -/
def meshCoord (p00 p10 p01 p11 : Int) (wx wy : Nat) : Int :=
  ((256 - wx : Nat) * (256 - wy : Nat) * p00 + wx * (256 - wy : Nat) * p10 + (256 - wx : Nat) * wy * p01 + wx * wy * p11 + 32768) / 65536

/-- R348: one sample row at a source x: the two clamped columns with the row's own weight. -/
def State.rowSample (s : State) (vs : ViewSet) (n u row : Nat) : Pixel :=
  match Store.get vs.shown (row / 32) with
  | none => black
  | some l =>
    let a := l.xAxis vs n
    let sx := a.sigma u
    Pixel.lerp (s.samplePixel vs n (clampTo (sx / 256) a.total) row) (s.samplePixel vs n (clampTo (sx / 256 + 1) a.total) row) (sx % 256).toNat

/-- R348: pixel (x, y) of frame f through the lens. -/
def State.lensPixel (s : State) (vs : ViewSet) (n x y f : Nat) : Pixel :=
  let v (i j : Nat) : Int × Int := s.meshVertex vs n (x / 32 + i) (y / 32 + j)
  let wx := 8 * (x % 32) + 4
  let wy := 8 * (y % 32) + 4
  let u := meshCoord (v 0 0).1 (v 1 0).1 (v 0 1).1 (v 1 1).1 wx wy
  let w := meshCoord (v 0 0).2 (v 1 0).2 (v 0 1).2 (v 1 1).2 wx wy
  if u < 0 || (256 * vs.ex : Nat) ≤ u || w < 0 || (256 * vs.ey : Nat) ≤ w then black
  else
    let ya := vs.yAxis (vs.yBreaks f)
    let sy := ya.sigma w.toNat
    Pixel.lerp (s.rowSample vs n u.toNat (clampTo (sy / 256) ya.total)) (s.rowSample vs n u.toNat (clampTo (sy / 256 + 1) ya.total))
      (sy % 256).toNat

/-- R348, R349: display row y of frame f, the views side by side. -/
def State.displayRow (s : State) (vs : ViewSet) (f y : Nat) : List Pixel :=
  (List.range vs.nview).flatMap fun n => (List.range vs.ex).map fun x =>
    if vs.lensed n then s.lensPixel vs n x y f else s.plainPixel vs n x y

/-- R347, R471: the row comes from a strip that was replaced. -/
def ViewSet.replaced (vs : ViewSet) (f strip : Nat) : Bool :=
  decide (f * vs.strips + strip < vs.deadNo) && ((Store.get vs.shown strip).map Latch.frame) != some f

/-- R471: the scanout frames of a row, 2,688 pixels each. -/
def scanoutFrames (vs : ViewSet) (slot f y : Nat) (px : List Pixel) : List (List Byte) :=
  (List.range (ceilDiv px.length 2688)).map fun i =>
    let part := (px.drop (2688 * i)).take 2688
    toBytes 1 vs.tenant ++ toBytes 1 (slot + 4 * boolNat (vs.replaced f (y / 32))) ++ toBytes 2 y ++ toBytes 4 f ++
      toBytes 2 (2688 * i) ++ toBytes 2 part.length ++ toBytes 1 (y / 32) ++ toBytes 3 0 ++ part.flatMap fun p => p.map (BitVec.ofNat 8)

/-- R349, R471: a row leaves: at a DisplayPort output, or as frames to the tenant's destination. -/
def State.emitRow (s : State) (slot : Nat) (vs : ViewSet) (f y : Nat) : State :=
  let px := s.displayRow vs f y
  if vs.out < 2 then { s with sent := .row vs.out (px.flatMap fun p => p.map (BitVec.ofNat 8)) :: s.sent }
  else if (s.tenant vs.tenant).dest.isEmpty then s
  else { s with sent := ((scanoutFrames vs slot f y px).map fun p => Sent.scanout vs.tenant p).reverse ++ s.sent }

/-- DISPLAY_ROW_EMIT (R348, R349): the next row, once its time has come and every deadline up to it has been served. -/
def execDisplayRowEmit (ctx slot : Nat) (s : State) : Host.Outcome State Fault Refusal :=
  match s.view ctx slot with
  | none => .next s
  | some vs =>
    if (s.now : Int) < vs.nextRow || vs.nextDeadline ≤ vs.nextRow then .next s
    else happen ((s.emitRow slot vs (vs.row / vs.ey) (vs.row % vs.ey)).updView ctx slot fun v => { v with row := v.row + 1 })

/-- SCANOUT_BURST_RETRY (R21): a burst fails and is retried; when the fourth retry fails too, DERR counts and the data stands. DEDUCED
(log 67): the data as last read is what scanout memory holds. -/
def execScanoutBurstRetry (ctx slot failedRetries : Nat) (s : State) : Host.Outcome State Fault Refusal :=
  if failedRetries < 4 then .next s
  else
    match s.view ctx slot with
    | none => .next s
    | some _ => happen (s.updView ctx slot fun v => { v with derr := satAdd v.derr 1 })

/-- R338: a gaze sample replaces the register when its sequence number is ahead. -/
def ViewSet.takeGaze (v : ViewSet) (q x y : Word) : ViewSet :=
  let d := (q - v.q).toNat
  if v.gsrc = 0 && decide (1 ≤ d) && decide (d < 2 ^ 31) then { v with q := q, gx := x, gy := y } else { v with gdrop := satAdd v.gdrop 1 }

/-- R470: the view set in a slot of a tenant's contexts that a gaze frame names: bound with GSRC = 0 if there is one. -/
def State.gazeTarget (s : State) (t slot : Nat) : Option Nat :=
  let mine := s.views.filter fun e => e.2.tenant == t && e.1 % 4 == slot
  ((mine.find? fun e => e.2.gsrc == 0).map Prod.fst).orElse fun _ => (mine.head?).map Prod.fst

/-- GAZE_FRAME (R338, R470): tenant, slot, key, q', x', y' of the payload at the inputs. -/
def execGazeFrame (s : State) : Host.Outcome State Fault Refusal :=
  let p := s.inputs.gaze
  let rx (s : State) : State := { s with rxdrop := satAdd s.rxdrop 1 }
  if !s.portUp then .next s
  else if !s.ready then happen (rx s)
  else
    match s.gazeTarget (field p 0 1) (field p 1 1) with
    | none => happen (rx s)
    | some k =>
      let key := field (s.tenant (field p 0 1)).gazeKey 0 2
      let ok := p.length == 20 && field p 2 2 == key && zeros p 16 20
      happen { s with views := Store.upd s.views k fun v =>
        if ok then v.takeGaze (word (field p 4 4)) (word (field p 8 4)) (word (field p 12 4)) else { v with gdrop := satAdd v.gdrop 1 } }

end Sys2Proof.Machine
end

