-- ==== Sys2Proof/Machine/Transcend.lean ====
section
/-!
DEFINITION. The exact mathematical functions of R224 and R225, each rounded once: reciprocal, square roots, 2^a, log2 a, sine and
cosine. The last four are computed in fixed point to far more bits than the worst case of FP32 needs (log 9).
-/
namespace Sys2Proof.Machine

/-- The floor of the square root of n: the bits of the root below 2^k, from the highest on, added to r. -/
def sqrtFrom : Nat → Nat → Nat → Nat
  | 0, _, r => r
  | k + 1, n, r => sqrtFrom k n (if (r + 2 ^ k) * (r + 2 ^ k) ≤ n then r + 2 ^ k else r)
def isqrt (n : Nat) : Nat := sqrtFrom (bitLen n / 2 + 1) n 0

/-- Round(√a) of a = m * 2^x, m not 0. -/
def sqrtMag (mode : RMode) (m : Nat) (x : Int) : Nat × Nat :=
  let up : Int := 64 + x % 2
  let n := m * 2 ^ up.toNat
  let q := isqrt n
  fp32.roundMag mode false q ((x - up) / 2) (q * q != n)

/-- Round(1 / √a) of a = m * 2^x, m not 0: the root of 2^k / m, where k - x is even. -/
def rsqrtMag (m : Nat) (x : Int) : Nat × Nat :=
  let k : Int := 120 + x % 2
  let q := isqrt (2 ^ k.toNat / m)
  fp32.roundMag .rne false q ((-x - k) / 2) (q * q * m != 2 ^ k.toNat)

/-- Fraction bits of the fixed-point numbers. -/
def fixBits : Nat := 768
def fixOne : Int := 2 ^ fixBits
def fixMul (a b : Int) : Int := a * b / fixOne

/-- The sum over j from k on of (-1)^j p / (2j + 1), p shrinking by `sq` each time. -/
def atanTail (sq : Nat) : Nat → Nat → Int → Int
  | 0, _, _ => 0
  | fuel + 1, k, p => p / (2 * k + 1 : Nat) - atanTail sq fuel (k + 1) (p / (sq : Int))
/-- Machin: π = 16 atan(1/5) - 4 atan(1/239). -/
def fixPi : Int := 16 * atanTail 25 180 0 (fixOne / 5) - 4 * atanTail 57121 60 0 (fixOne / 239)

/-- The sum over j from k on of p z^(2j) / (2j + 1): atanh z for p = z, k = 0, `sq` = z². -/
def atanhTail (sq : Int) : Nat → Nat → Int → Int
  | 0, _, _ => 0
  | fuel + 1, k, p => p / (2 * k + 1 : Nat) + atanhTail sq fuel (k + 1) (fixMul p sq)
/-- ln m of 1 ≤ m < 2 in fixed point. -/
def fixLn (m : Int) : Int :=
  let z := (m - fixOne) * fixOne / (m + fixOne)
  2 * atanhTail (fixMul z z) 260 0 z
def fixLn2 : Int := 2 * atanhTail (fixOne / 9) 260 0 (fixOne / 3)

/-- The sum over j from k on of t^j / j!, p being t^k / k!. -/
def expTail (t : Int) : Nat → Nat → Int → Int
  | 0, _, _ => 0
  | fuel + 1, k, p => p + expTail t fuel (k + 1) (fixMul p t / (k + 1 : Nat))
/-- The sum over j from k on, by steps of 2, of (-1)^((j-k)/2) t^j / j!: the cosine from k = 0, the sine from k = 1. -/
def trigTail (sq : Int) : Nat → Nat → Int → Int
  | 0, _, _ => 0
  | fuel + 1, k, p => p - trigTail sq fuel (k + 2) (fixMul p sq / ((k + 1) * (k + 2) : Nat))
def fixCos (r : Int) : Int := trigTail (fixMul r r) 120 0 fixOne
def fixSin (r : Int) : Int := trigTail (fixMul r r) 120 1 r

/-- A finite value as a fixed-point number; FP32 values have no bit below 2^-149. -/
def FP.fixed : FP → Int
  | .fin n m x => (if n then -1 else 1) * ((m : Int) * 2 ^ (x + fixBits).toNat)
  | _ => 0

/-- Round a fixed-point number that stands for an inexact value. -/
def roundFixed (v : Int) : Nat × Nat := fp32.roundMag .rne (decide (v < 0)) v.natAbs (-(fixBits : Int)) true

/-- Round(2^a) of a finite a. -/
def exp2Fin (a : FP) : Nat × Nat :=
  let v := a.fixed
  let n := v / fixOne
  let f := v % fixOne
  if 200 ≤ n then fp32.roundMag .rne false 1 200 true
  else if n < -200 then fp32.roundMag .rne false 1 (-200) true
  else if f = 0 then fp32.roundMag .rne false 1 n false
  else
    let t := fixMul f fixLn2
    fp32.roundMag .rne false (expTail t 200 0 fixOne).natAbs (n - fixBits) true

/-- Round(log2 a) of a = m * 2^x, m not 0. -/
def log2Fin (m : Nat) (x : Int) : Nat × Nat :=
  let e : Int := (bitLen m : Int) - 1 + x
  if m = 2 ^ (bitLen m - 1) then fp32.round .rne false e 0
  else
    let f : Int := (m : Int) * 2 ^ (fixBits - (bitLen m - 1))
    roundFixed (e * fixOne + fixLn f * fixOne / fixLn2)

/-- Round(sin a), or Round(cos a), of a finite a that is not zero. -/
def trigFin (cos : Bool) (a : FP) : Nat × Nat :=
  let v := a.fixed
  let w : Int := v.natAbs
  let half := fixPi / 2
  let q := w / half
  let r := w - q * fixPi / 2
  let k := (if cos then q + 1 else q) % 4
  let u := if k % 2 = 0 then fixSin r else fixCos r
  let u := if 2 ≤ k then -u else u
  roundFixed (if !cos && decide (v < 0) then -u else u)

end Sys2Proof.Machine
end

