-- ==== Sys2Proof/Machine/FloatOps.lean ====
section
/-!
DEFINITION. The values of the floating-point, conversion and packed instructions (R222 to R242), each a function of operand bits to
the result's bits and the flags.
-/
namespace Sys2Proof.Machine

/-- R137: an FP32 operand under .FTZ. -/
def flushIn (ftz : Bool) (b : Nat) : Nat := if ftz && bits b 30 23 == 0 then b / 2 ^ 31 * 2 ^ 31 else b
/-- R137: a result under .FTZ. -/
def flushOut (ftz : Bool) (r : Nat × Nat) : Nat × Nat :=
  if ftz && bits r.1 30 23 == 0 && r.1 % 2 ^ 23 != 0 then (r.1 / 2 ^ 31 * 2 ^ 31, r.2 ||| 3) else r
def f32In (ftz : Bool) (b : Nat) : FP := fp32.decode (flushIn ftz b)

def opFadd (ftz : Bool) (m : RMode) (a b : Nat) : Nat × Nat := flushOut ftz (fp32.add m (f32In ftz a) (f32In ftz b))
def opFsub (ftz : Bool) (m : RMode) (a b : Nat) : Nat × Nat := flushOut ftz (fp32.add m (f32In ftz a) (f32In ftz b).negate)
def opFmul (ftz : Bool) (m : RMode) (a b : Nat) : Nat × Nat := flushOut ftz (fp32.mul m (f32In ftz a) (f32In ftz b))
def opFma (ftz : Bool) (m : RMode) (a b c : Nat) : Nat × Nat :=
  flushOut ftz (fp32.fma m (f32In ftz a) (f32In ftz b) (f32In ftz c))

/-- R223: the order of FP32 encodings that are no NaN, with -0 below +0. -/
def orderKey (b : Nat) : Int := if b.testBit 31 then -((b % 2 ^ 31 : Nat) : Int) - 1 else b
/-- R223: minimum or maximum (`hi`), a NaN winning under `keep`. -/
def opMinMax (hi keep ftz : Bool) (a b : Nat) : Nat × Nat :=
  let a := flushIn ftz a
  let b := flushIn ftz b
  let x := fp32.decode a
  let y := fp32.decode b
  let fl := if x.isSig || y.isSig then 16 else 0
  if (x.isNan && y.isNan) || (keep && (x.isNan || y.isNan)) then (fp32.qnan, fl)
  else if x.isNan then (b, fl)
  else if y.isNan then (a, fl)
  else if hi then (if orderKey a ≤ orderKey b then b else a, fl)
  else (if orderKey a ≤ orderKey b then a else b, fl)

/-- R226: the class mask. -/
def classBits (b : Nat) : Nat :=
  let neg := b.testBit 31
  let ex := bits b 30 23
  let fr := b % 2 ^ 23
  let k := if ex = 255 then (if fr = 0 then (if neg then 0 else 7) else if fr.testBit 22 then 9 else 8)
    else if ex = 0 then (if fr = 0 then (if neg then 3 else 4) else if neg then 2 else 5)
    else if neg then 1 else 6
  2 ^ k

/-- R224: FRND; a zero result keeps the sign, and rounding is not reported. -/
def opFrnd (ftz : Bool) (m : RMode) (a : Nat) : Nat × Nat :=
  match f32In ftz a with
  | .nan s => (fp32.qnan, if s then 16 else 0)
  | .inf n => (fp32.infBits + (if n then fp32.signBit else 0), 0)
  | .fin n k x => ((fp32.round .rne n ((FP.fin n k x).toInt m).1 0).1, 0)

/-- R225: FRCP to FCOS; special operands first. -/
def opFrcp (ftz : Bool) (m : RMode) (a : Nat) : Nat × Nat := flushOut ftz (fp32.div m (.fin false 1 0) (f32In ftz a))
def opFsqrt (ftz : Bool) (m : RMode) (a : Nat) : Nat × Nat :=
  match f32In ftz a with
  | .nan s => (fp32.qnan, if s then 16 else 0)
  | .inf n => if n then (fp32.qnan, 16) else (fp32.infBits, 0)
  | .fin n k x => if k = 0 then ((if n then fp32.signBit else 0), 0) else if n then (fp32.qnan, 16) else flushOut ftz (sqrtMag m k x)
def opFrsq (ftz : Bool) (a : Nat) : Nat × Nat :=
  match f32In ftz a with
  | .nan s => (fp32.qnan, if s then 16 else 0)
  | .inf n => if n then (fp32.qnan, 16) else (0, 0)
  | .fin n k x =>
    if k = 0 then (fp32.infBits + (if n then fp32.signBit else 0), 8)
    else if n then (fp32.qnan, 16) else flushOut ftz (rsqrtMag k x)
def opFexp2 (ftz : Bool) (a : Nat) : Nat × Nat :=
  match f32In ftz a with
  | .nan s => (fp32.qnan, if s then 16 else 0)
  | .inf n => (if n then 0 else fp32.infBits, 0)
  | .fin n k x => flushOut ftz (exp2Fin (.fin n k x))
def opFlog2 (ftz : Bool) (a : Nat) : Nat × Nat :=
  match f32In ftz a with
  | .nan s => (fp32.qnan, if s then 16 else 0)
  | .inf n => if n then (fp32.qnan, 16) else (fp32.infBits, 0)
  | .fin n k x =>
    if k = 0 then (fp32.infBits + fp32.signBit, 8) else if n then (fp32.qnan, 16) else flushOut ftz (log2Fin k x)
def opTrig (cos ftz : Bool) (a : Nat) : Nat × Nat :=
  match f32In ftz a with
  | .nan s => (fp32.qnan, if s then 16 else 0)
  | .inf _ => (fp32.qnan, 16)
  | .fin n k x =>
    if k = 0 then (if cos then 0x3F800000 else if n then fp32.signBit else 0, 0)
    else flushOut ftz (trigFin cos (.fin n k x))

/-- R227: a comparison: its outcome and the flags. -/
def opFcmp (ftz : Bool) (cc : Nat) (a b : Nat) : Bool × Nat :=
  let x := f32In ftz a
  let y := f32In ftz b
  let un := x.isNan || y.isNan
  let fl := if 2 ≤ cc && cc ≤ 5 then (if un then 16 else 0) else if x.isSig || y.isSig then 16 else 0
  if un then (cc == 1 || cc == 6, fl)
  else
    let o := x.cmp y
    (match cc with
      | 0 => o == 0
      | 1 => o != 0
      | 2 => decide (o < 0)
      | 3 => decide (o ≤ 0)
      | 4 => decide (0 < o)
      | 5 => decide (0 ≤ o)
      | 7 => true
      | _ => false, fl)

/-- R228: the floating-point format of a CVT code. -/
def cvtFloat : Nat → Option Fmt
  | 0 => some fp32 | 1 => some fp16 | 2 => some bf16 | 3 => some e4m3 | 4 => some e5m2 | 5 => some e2m1 | _ => none
def cvtSigned (code : Nat) : Bool := (6 ≤ code && code ≤ 9) || code == 14
/-- The range of an integer format. -/
def intMin (code : Nat) : Int := if cvtSigned code then -(2 ^ (cvtWidth' code - 1) : Nat) else 0
where cvtWidth' : Nat → Nat
  | 6 => 8 | 7 => 16 | 8 => 32 | 9 => 64 | 10 => 8 | 11 => 16 | 12 => 32 | 13 => 64 | 14 => 4 | _ => 0
def intMax (code : Nat) : Int :=
  (2 ^ (if cvtSigned code then intMin.cvtWidth' code - 1 else intMin.cvtWidth' code) : Nat) - 1
def clampCode (code : Nat) (v : Int) : Int := max (intMin code) (min (intMax code) v)
def intBits (code : Nat) (v : Int) : Nat := modPow v (intMin.cvtWidth' code)

/-- A source element as a value. -/
def cvtValue (code b : Nat) : FP :=
  match cvtFloat code with
  | some t => t.decode b
  | none =>
    let v : Int := if cvtSigned code then sext b (intMin.cvtWidth' code) else b
    .fin (decide (v < 0)) v.natAbs 0

/-- R142: a value converted to a format. `inf` is the .INF modifier. -/
def convertTo (dst : Nat) (inf : Bool) (m : RMode) (v : FP) : Nat × Nat :=
  match cvtFloat dst with
  | some t =>
    let sat := dst == 3 || dst == 5 || (dst == 4 && !inf)
    let sg (n : Bool) : Nat := if n then t.signBit else 0
    match v with
    | .nan s => (t.qnan, if s || dst == 5 then 16 else 0)
    | .inf n => if sat then (t.maxBits + sg n, 5) else (t.infBits + sg n, 0)
    | .fin n 0 _ => (sg n, 0)
    | .fin n k x =>
      let r := t.roundMag m n k x false
      if sat && r.2.testBit 2 then (t.maxBits + sg n, 5) else r
  | none =>
    match v with
    | .nan _ => (0, 16)
    | .inf n => (intBits dst (if n then intMin dst else intMax dst), 16)
    | v =>
      let r := v.toInt m
      if clampCode dst r.1 = r.1 then (intBits dst r.1, if r.2 then 1 else 0) else (intBits dst (clampCode dst r.1), 16)

/-- R230: CVT without .BS on element bits. -/
def opCvt (dst src : Nat) (ftz inf : Bool) (m : RMode) (b : Nat) : Nat × Nat :=
  let b := if src = 0 then flushIn ftz b else b
  match cvtFloat src, cvtFloat dst with
  | none, none =>
    let v : Int := if cvtSigned src then sext b (intMin.cvtWidth' src) else b
    (intBits dst (clampCode dst v), 0)
  | some t, _ =>
    let v := t.decode b
    if src = dst then (if v.isNan then (t.qnan, if v.isSig then 16 else 0) else (b, 0))
    else flushOut (ftz && dst == 0) (convertTo dst inf m v)
  | none, some _ => flushOut (ftz && dst == 0) (convertTo dst inf m (cvtValue src b))

/-- v * 2^n exactly. -/
def FP.scale (v : FP) (n : Int) : FP :=
  match v with
  | .fin s m x => .fin s m (x + n)
  | v => v

/-- R146: an element quantised with a scale byte, under RNE. DEDUCED (log 60): in a NaN block (R143) an element is a NaN, so the flags are
those of R135 and R142 for one. -/
def quantise (dst scale : Nat) (x : FP) : Nat × Nat :=
  convertTo dst false .rne (if scale = 255 then .nan x.isSig else x.scale (127 - (scale : Int)))
/-- R231: CVT with .BS. -/
def opCvtBs (dst src : Nat) (ftz : Bool) (b scale : Nat) : Nat × Nat :=
  if src = 0 then quantise dst scale (fp32.decode (flushIn ftz b))
  else
    let v := cvtValue src b
    if scale = 255 then (fp32.qnan, if v.isSig then 16 else 0)
    else match v with
      | .nan s => (fp32.qnan, if s then 16 else 0)
      | .inf n => (fp32.infBits + (if n then fp32.signBit else 0), 0)
      | v => flushOut ftz (fp32.round .rne v.neg v.int (v.ex + scale - 127))

/-- Element n of width w of a register (R141). -/
def elemOf (w n b : Nat) : Nat := b / 2 ^ (w * n) % 2 ^ w
/-- R141: element n of width w of a register replaced. -/
def putElem (w n b v : Nat) : Nat := b - elemOf w n b * 2 ^ (w * n) + v % 2 ^ w * 2 ^ (w * n)

/-- R233: both halves of packed operands. -/
def packed (f : Nat → Nat × Nat) : Nat × Nat :=
  let lo := f 0
  let hi := f 1
  (lo.1 + 65536 * hi.1, lo.2 ||| hi.2)
def opHadd2 (t : Fmt) (m : RMode) (a b : Nat) : Nat × Nat :=
  packed fun n => t.add m (t.decode (elemOf 16 n a)) (t.decode (elemOf 16 n b))
def opHsub2 (t : Fmt) (m : RMode) (a b : Nat) : Nat × Nat :=
  packed fun n => t.add m (t.decode (elemOf 16 n a)) (t.decode (elemOf 16 n b)).negate
def opHmul2 (t : Fmt) (m : RMode) (a b : Nat) : Nat × Nat :=
  packed fun n => t.mul m (t.decode (elemOf 16 n a)) (t.decode (elemOf 16 n b))
def opHfma2 (t : Fmt) (m : RMode) (a b c : Nat) : Nat × Nat :=
  packed fun n => t.fma m (t.decode (elemOf 16 n a)) (t.decode (elemOf 16 n b)) (t.decode (elemOf 16 n c))

/-- R234: an integer dot product: `w` the element width, `sa`, `sb` and `sc` the signs of A, B and the accumulator. -/
def opDotInt (w n : Nat) (sa sb sc sat : Bool) (a b c : Nat) : Nat :=
  let el (s : Bool) (v k : Nat) : Int := if s then sext (elemOf w k v) w else (elemOf w k v : Int)
  let c' : Int := if sc then sext c 32 else c
  let r := (List.range n).foldl (fun acc k => acc + el sa a k * el sb b k) c'
  let lo : Int := if sc then -(2 ^ 31) else 0
  let hi : Int := if sc then 2 ^ 31 - 1 else 2 ^ 32 - 1
  modPow (if sat then max lo (min hi r) else r) 32

/-- R235: c plus the exact products, rounded once. -/
def dotSum (m : RMode) (pairs : List (FP × FP)) (c : FP) : Nat × Nat :=
  let ps := pairs.map fun p => p.1.times p.2
  let zi := ps.any fun p => p.isNone
  let vs := ps.filterMap id
  let pinf := vs.any fun v => v == .inf false
  let ninf := vs.any fun v => v == .inf true
  let clash := (pinf && ninf) || (pinf && c == .inf true) || (ninf && c == .inf false)
  let nan := c.isNan || pairs.any fun p => p.1.isNan || p.2.isNan
  let sig := c.isSig || pairs.any fun p => p.1.isSig || p.2.isSig
  if zi || clash || nan then (fp32.qnan, if zi || clash || sig then 16 else 0)
  else if pinf || c == .inf false then (fp32.infBits, 0)
  else if ninf || c == .inf true then (fp32.infBits + fp32.signBit, 0)
  else
    let (v, x) := vs.foldl (fun acc p => dyAdd acc.1 acc.2 p.int p.ex) (c.int, c.ex)
    let neg := if v = 0 then
        let allPos := !c.neg && vs.all fun p => p.isZero && !p.neg
        let allNeg := c.isZero && c.neg && vs.all fun p => p.isZero && p.neg
        if allPos && c.isZero then false else if allNeg then true else m == .rd
      else false
    fp32.round m neg v x
/-- R235: the floating dot product of n elements of width w. -/
def opDotFloat (ta tb : Fmt) (w n : Nat) (m : RMode) (a b c : Nat) : Nat × Nat :=
  dotSum m ((List.range n).map fun k => (ta.decode (elemOf w k a), tb.decode (elemOf w k b))) (fp32.decode c)

/-- R236: QSC. -/
def opQsc (m : RMode) (a b : Nat) : Nat × Nat :=
  let ea := b % 256
  let eb := b / 256 % 256
  if ea = 255 || eb = 255 then (fp32.qnan, 0)
  else match fp32.decode a with
    | .nan s => (fp32.qnan, if s then 16 else 0)
    | .inf n => (fp32.infBits + (if n then fp32.signBit else 0), 0)
    | v => fp32.round m v.neg v.int (v.ex + ea + eb - 254)

/-- R152: T of an FP16 pattern, and the key. -/
def keyOrder (v : Nat) : Nat := if 0x7C00 < v % 0x8000 then 0xFFFF else if v < 0x8000 then v + 0x8000 else 0xFFFF - v
def opFkey (v i : Nat) : Nat := keyOrder v * 2 ^ 48 + (2 ^ 32 - 1 - i)

/-- R238: the winnow value of 64 samples given by row and column. -/
def winnowValue (l : Nat → Nat → Nat) : Nat :=
  let d (a b c : Nat) : Nat := ((a : Int) - 2 * (b : Int) + (c : Int)).natAbs
  let mid := [1, 2, 3, 4, 5, 6]
  (List.range 8).foldl (fun acc y => acc +
    (mid.map fun x => d (l y (x - 1)) (l y x) (l y (x + 1)) + d (l (x - 1) y) (l x y) (l (x + 1) y)).foldl (· + ·) 0) 0

/-- R325: the tithe selection hash. -/
def titheSelected (frame view tile cluster seed s : Nat) : Bool :=
  let m := 2 ^ 64
  let k1 := frame % 2 ^ 32 * 2 ^ 32 + view % 8 * 2 ^ 16 + tile % 2 ^ 16
  let k2 := cluster % 2 ^ 32 * 2 ^ 32 + seed
  let z := k1 ^^^ (k2 * 0x9E3779B97F4A7C15 % m)
  let z := (z ^^^ (z / 2 ^ 30)) * 0xBF58476D1CE4E5B9 % m
  let z := (z ^^^ (z / 2 ^ 27)) * 0x94D049BB133111EB % m
  let z := z ^^^ (z / 2 ^ 31)
  decide (s = 0) || decide (z / 2 ^ (64 - s) = 0)

/-- R241: the cheap range of APXEXP2, and its value. -/
def exp2Cheap (a : Nat) : Bool :=
  match fp32.decode a with
  | .fin n m x => (FP.fin n m x).cmp (.fin true 126 0) != -1 && (FP.fin n m x).cmp (.fin false 128 0) == -1
  | _ => false
def opApxExp2 (a : Nat) : Nat × Nat :=
  let v := fp32.decode a
  let n := floorDy v.int v.ex
  let f := dyAdd v.int v.ex (-n) 0
  let fv := FP.fin false f.1.natAbs f.2
  let c (b : Nat) := fp32.decode b
  let t1 := fp32.fma .rne (c 0x3DA00000) fv (c 0x3E680000)
  let t2 := fp32.fma .rne (c t1.1) fv (c 0x3F320000)
  let p := fp32.fma .rne (c t2.1) fv (c 0x3F800000)
  let r := fp32.round .rne false (c p.1).int ((c p.1).ex + n)
  (r.1, (t1.2 ||| t2.2 ||| p.2 ||| r.2) &&& 5)

/-- R242: the cheap range of APXRCP, and its value by the rule's steps as they stand (log 11). -/
def rcpCheap (a : Nat) : Bool := decide (2 ≤ bits a 30 23) && decide (bits a 30 23 < 253)
def opApxRcp (a : Nat) : Nat × Nat :=
  let e : Int := (bits a 30 23 : Int) - 127
  let m := FP.fin false (2 ^ 23 + a % 2 ^ 23) (-23)
  let c (b : Nat) := fp32.decode b
  let y := fp32.fma .rne (c 0x3FF0F0F1).negate m (c 0x4034B4B5)
  let t := fp32.fma .rne m.negate (c y.1) (c 0x40000000)
  let y2 := fp32.mul .rne (c y.1) (c t.1)
  let r := fp32.round .rne false (c y2.1).int ((c y2.1).ex - e)
  (r.1 ^^^ (a / 2 ^ 31 * 2 ^ 31), (y.2 ||| t.2 ||| y2.2 ||| r.2) &&& 1)

end Sys2Proof.Machine
end

