-- ==== Sys2Proof/Machine/Texture.lean ====
section
/-!
DEFINITION. Reads of texture and ray units (R313, R315), and texture filtering (R311, R312, R343 to R345).
-/
namespace Sys2Proof.Machine

/-- Why a unit's reads stop: an address that is not canonical, a translation that misses, bytes that a peer holds, or an earlier access of
the thread (R363, R368). -/
inductive Halt where
  | held
  | canonical (va : Nat)
  | miss (va size : Nat)
  | remote (r : RemoteRead)
  deriving DecidableEq, Repr

/-- The reads of one instruction in one lane: the state, what a peer has returned and is still to be used, the address of a poisoned
read, and what stopped it. After a stop every read gives zeros. -/
structure Fetch where
  s : State
  buf : List Byte
  poison : Option Nat
  halt : Option Halt

/-- One piece of a read, all in one 4 KiB page; `size` is the size of the whole access. -/
def Fetch.piece (f : Fetch) (v : Lane) (kind : AccessKind) (va n size : Nat) : Fetch × List Byte :=
  if f.halt.isSome then (f, List.replicate n 0)
  else
    let r := f.s.lookup (dataUnit v.core (quadOf v.key)) v.core v.g.ctx va kind
    match r.2 with
    | none => ({ f with s := r.1, halt := some (.miss va size) }, List.replicate n 0)
    | some x =>
      if r.1.holds v.key [] { v.blankAccess .load n 0 with va := va, size := n } x then ({ f with s := r.1, halt := some .held }, List.replicate n 0)
      else match x.peer with
      | some m =>
        if !r.1.reachable m then ({ f with s := r.1, halt := some (.miss va size) }, List.replicate n 0)
        else if f.buf.length < n then ({ f with s := r.1, halt := some (.remote { bytes := n, va := va, size := size, kind := kind, port := r.1.peerPort m x.pa }) }, List.replicate n 0)
        else ({ f with s := r.1, buf := f.buf.drop n }, f.buf.take n)
      | none =>
        let q := r.1.performLoad v.core v.g.ctx v.key v.th.pc x n false
        ({ f with s := q.1, poison := if f.poison.isSome then f.poison else q.2.2 }, q.2.1)

/-- R246: a read of n bytes, cut at 4 KiB boundaries. -/
def Fetch.read (f : Fetch) (v : Lane) (kind : AccessKind) (va n : Nat) : Fetch × List Byte :=
  if f.halt.isSome then (f, List.replicate n 0)
  else if !(((f.s.ctxOf v).map fun c => c.canonical va && c.canonical (va + n - 1)).getD false) then
    ({ f with halt := some (.canonical va) }, List.replicate n 0)
  else (pieces va n).foldl (fun r p => let q := r.1.piece v kind p.1 p.2.1 n; (q.1, r.2 ++ q.2)) (f, [])

/-- Start the reads of a lane's instruction, with what a peer has returned for it. -/
def Lane.startFetch (v : Lane) (s : State) : Fetch := { s := s, buf := v.th.peerBuf, poison := none, halt := none }
/-- The instruction is over: what a peer returned is used up. -/
def State.clearBuf (s : State) (key : Nat) : State := s.updThread key fun th => { th with peerBuf := [] }
/-- R313, R320: an instruction whose reads stopped traps, awaits a translation, or waits for a peer's bytes. -/
def Lane.halted (v : Lane) (kind : AccessKind) (s : State) (h : Halt) : Act :=
  match h with
  | .held => .wait s (.stall s.moves .issue)
  | .canonical va => .trapIn (s.clearBuf v.key) causeCanonical va
  | .miss va n => .miss s va kind n
  | .remote n => .raw (s.awaitBytes v.key n)

/-- R311: a texture descriptor. -/
structure Texture where
  addr : Nat
  w : Nat
  h : Nat
  fmt : Nat
  mips : Nat
  modeU : Nat
  modeV : Nat
  aniso : Nat
  deriving DecidableEq, Repr

def Texture.of (e : List Byte) : Texture :=
  { addr := field e 0 8, w := field e 8 2 + 1, h := field e 10 2 + 1, fmt := field e 12 1, mips := field e 13 1,
    modeU := field e 14 1 % 4, modeV := field e 14 1 / 4 % 4, aniso := field e 15 1 }
/-- R311: an entry that breaks a field rule. -/
def textureBad (e : List Byte) : Bool :=
  let t := Texture.of e
  t.addr % 256 != 0 || decide (2 ^ 57 ≤ t.addr) || decide (16384 < t.w) || decide (16384 < t.h) || decide (3 < t.fmt) ||
  t.mips == 0 || decide (Nat.log2 (max t.w t.h) + 1 < t.mips) || decide (16 ≤ field e 14 1) || t.aniso == 0 || decide (16 < t.aniso) ||
  !zeros e 16 32

namespace Texture

def bytes (t : Texture) : Nat := match t.fmt with
  | 0 => 4 | 1 => 1 | 2 => 8 | _ => 4
def unorm (t : Texture) : Bool := decide (t.fmt < 2)
def width (t : Texture) (l : Nat) : Nat := max 1 (t.w / 2 ^ l)
def height (t : Texture) (l : Nat) : Nat := max 1 (t.h / 2 ^ l)
/-- R311: rows are padded to 256 bytes; a level starts where the one before ends. -/
def stride (t : Texture) (l : Nat) : Nat := alignUp (t.width l * t.bytes) 256
def levelAt (t : Texture) (l : Nat) : Nat := t.addr + ((List.range l).map fun k => t.stride k * t.height k).foldl (· + ·) 0
/-- The channels of a texel: integers 0 to 255 of a unorm format, FP32 encodings of a float one. R8 and R32F have one. -/
def channels (t : Texture) (bs : List Byte) : List Nat :=
  match t.fmt with
  | 0 => (List.range 4).map fun i => field bs i 1
  | 1 => [field bs 0 1]
  | 2 => (List.range 4).map fun i => match fp16.decode (field bs (2 * i) 2) with
      | .nan _ => fp32.qnan
      | .inf n => fp32.infBits + (if n then fp32.signBit else 0)
      | .fin n m x => (fp32.round .rne n (FP.fin n m x).int x).1
  | _ => [field bs 0 4]

end Texture

/-- R343: the texel index of an address mode; none is a border texel. -/
def addressMode (mode : Nat) (i : Int) (w : Nat) : Option Nat :=
  match mode with
  | 0 => some (i % (w : Int)).toNat
  | 1 => some (min i.toNat (w - 1))
  | 2 =>
    let m := (i % (2 * w : Nat)).toNat
    some (if m < w then m else 2 * w - 1 - m)
  | _ => if 0 ≤ i && i < (w : Int) then some i.toNat else none

/-- R312: a NaN coordinate or LOD is read as 0. -/
def nanAsZero (w : Nat) : Nat := if (fp32.decode w).isNan then 0 else w

/-- R343: s of a coordinate: Round(u * W) * 256 - 128, rounded to an integer. Of an infinite product the specification states no
result: a free choice. -/
def Fetch.texelPos (f : Fetch) (u n : Nat) : Fetch × Int :=
  match fp32.decode (mulRne (nanAsZero u) (fp32.round .rne false n 0).1) with
  | .fin neg m x =>
    let d := dyAdd (FP.fin neg m (x + 8)).int (x + 8) (-128) 0
    (f, ((FP.fin (decide (d.1 < 0)) d.1.natAbs d.2).toInt .rne).1)
  | _ => ({ f with s := { f.s with nextChoice := f.s.nextChoice + 1 } }, sext (Config.freeWord f.s.nextChoice).toNat 32)

/-- Texel (i, j) of a level, through the address modes; border texels are 0 in every channel and are not read. -/
def Fetch.texel (f : Fetch) (v : Lane) (t : Texture) (l : Nat) (i j : Int) : Fetch × List Nat :=
  match addressMode t.modeU i (t.width l), addressMode t.modeV j (t.height l) with
  | some x, some y =>
    let r := f.read v .texture (t.levelAt l + y * t.stride l + x * t.bytes) t.bytes
    (r.1, t.channels r.2)
  | _, _ => (f, t.channels (List.replicate t.bytes 0))

/-- R344: a lerp of one channel. -/
def lerpFloat (a b w : Nat) : Nat :=
  (dotSum .rne [(fp32.decode a, .fin false (256 - w) (-8)), (fp32.decode b, .fin false w (-8))] (.fin true 0 0)).1
def Texture.lerp (t : Texture) (a b : List Nat) (w : Nat) : List Nat :=
  (a.zip b).map fun p => if t.unorm then ((p.1 : Int) + (((p.2 : Int) - p.1) * w + 128) / 256).toNat else lerpFloat p.1 p.2 w

/-- R343: the four footprint texels of a coordinate pair at a level, and the weights. -/
def Fetch.footprint (f : Fetch) (v : Lane) (t : Texture) (l uu vv : Nat) : Fetch × List (List Nat) × Nat × Nat :=
  let a := f.texelPos uu (t.width l)
  let b := a.1.texelPos vv (t.height l)
  let x := a.2 / 256
  let y := b.2 / 256
  let t00 := b.1.texel v t l x y
  let t10 := t00.1.texel v t l (x + 1) y
  let t01 := t10.1.texel v t l x (y + 1)
  let t11 := t01.1.texel v t l (x + 1) (y + 1)
  (t11.1, [t00.2, t10.2, t01.2, t11.2], (a.2 % 256).toNat, (b.2 % 256).toNat)

/-- R344: bilinear and trilinear samples, before the division of unorm results. -/
def Fetch.bilinear (f : Fetch) (v : Lane) (t : Texture) (l uu vv : Nat) : Fetch × List Nat :=
  let r := f.footprint v t l uu vv
  let q (i : Nat) : List Nat := r.2.1.getD i []
  (r.1, t.lerp (t.lerp (q 0) (q 1) r.2.2.1) (t.lerp (q 2) (q 3) r.2.2.1) r.2.2.2)

/-- R312, R344: the level and the mip weight of a LOD clamped to 0 to MIPS - 1. -/
def Texture.level (t : Texture) (lod : Nat) : Nat × Nat :=
  match fp32.decode (nanAsZero lod) with
  | .fin n m x =>
    let q := floorDy m (x + 8)
    if n then (0, 0) else if q < 256 * (t.mips - 1 : Nat) then ((q / 256).toNat, (q % 256).toNat) else (t.mips - 1, 0)
  | .inf n => (if n then 0 else t.mips - 1, 0)
  | .nan _ => (0, 0)
def Fetch.trilinear (f : Fetch) (v : Lane) (t : Texture) (lod uu vv : Nat) : Fetch × List Nat :=
  let l := t.level lod
  let a := f.bilinear v t l.1 uu vv
  let b := a.1.bilinear v t (min (l.1 + 1) (t.mips - 1)) uu vv
  (b.1, t.lerp a.2 b.2 l.2)

/-- R345: the tap count. `du` and `dv` are FP32 encodings. -/
def Texture.taps (t : Texture) (l du dv : Nat) : Nat :=
  let a := fp32.decode (mulRne du (fp32.round .rne false (t.width l) 0).1)
  let b := fp32.decode (mulRne dv (fp32.round .rne false (t.height l) 0).1)
  let up (p : FP) : Nat := match p with
    | .fin _ m x => ((FP.fin false m x).toInt .ru).1.toNat
    | _ => 16
  if a.isNan || b.isNan then 1 else min t.aniso (max 1 (max (up a) (up b)))
/-- R345: the coordinate of tap i of n. -/
def tapCoord (u du i n : Nat) : Nat :=
  let k : Int := 2 * i + 1 - n
  addRne u (mulRne du (divRne (fp32.round .rne false k 0).1 (fp32.round .rne false (2 * n : Nat) 0).1))
/-- R345: Round(sum / n) of finite values, the sum exact. -/
def meanFloat (cs : List Nat) : Nat :=
  let vs := cs.map fp32.decode
  let pinf := vs.any fun v => v == .inf false
  let ninf := vs.any fun v => v == .inf true
  if vs.any FP.isNan || (pinf && ninf) then fp32.qnan
  else if pinf then fp32.infBits
  else if ninf then fp32.infBits + fp32.signBit
  else
    let s := vs.foldl (fun acc p => dyAdd acc.1 acc.2 p.int p.ex) (0, 0)
    let neg := if s.1 = 0 then vs.all FP.neg else decide (s.1 < 0)
    (fp32.divFin .rne (.fin neg s.1.natAbs s.2) (.fin false cs.length 0)).1
def Fetch.anisotropic (f : Fetch) (v : Lane) (t : Texture) (lod uu vv du dv : Nat) : Fetch × List Nat :=
  let n := t.taps (t.level lod).1 du dv
  let r := (List.range n).foldl (fun (acc : Fetch × List (List Nat)) i =>
    let q := acc.1.trilinear v t lod (tapCoord uu du i n) (tapCoord vv dv i n)
    (q.1, acc.2 ++ [q.2])) (f, [])
  let width := ((r.2.head?).map List.length).getD 0
  (r.1, (List.range width).map fun c =>
    let cs := r.2.map fun p => p.getD c 0
    if t.unorm then (cs.foldl (· + ·) 0 + n / 2) / n else meanFloat cs)

/-- R344: a channel as FP32. -/
def Texture.float (t : Texture) (c : Nat) : Word :=
  if t.unorm then word (divRne (fp32.round .rne false c 0).1 (fp32.round .rne false 255 0).1) else word c
/-- R312: red, green, blue and alpha. -/
def Texture.rgba (t : Texture) (cs : List Nat) : List Word :=
  match cs with
  | [r] => [t.float r, 0, 0, 0x3F800000]
  | cs => cs.map t.float
/-- R312: channel ch of a texel: R8 and R32F give green = blue = 0 and alpha = 1.0. -/
def Texture.channel (t : Texture) (cs : List Nat) (ch : Nat) : Word := (t.rgba cs).getD ch 0

/-- R311: the entry that a lane names, then what is done with it. -/
def Lane.texture (v : Lane) (x : Fields) (s : State) (k : Fetch → Texture → Fetch × List Word) : Act :=
  let kn := x.immBits 3 0
  let i := (v.r32 x.a).toNat
  let base := (Store.rd 0 v.g.k kn).toNat + (Store.rd 0 v.g.k (kn + 1)).toNat * 2 ^ 32
  if (Store.rd 0 v.g.k (kn + 2)).toNat % 65536 ≤ i then .trap causeIndex i
  else
    let e := (v.startFetch s).read v .texture (base + 32 * i) 32
    match e.1.halt with
    | some h => v.halted .texture e.1.s h
    | none =>
      let finish (f : Fetch) (ws : List Word) : Act :=
        let dst := v.places 4 x.d
        let vals := if f.poison.isSome then List.replicate 4 0 else ws
        let r := (f.s.clearBuf v.key).newOp { thread := v.key, gid := v.th.gid, core := v.core, pc := v.th.pc, dst := dst, tc := none,
                                              kind := .value vals f.poison }
        .done (r.1.pendDsts v.key v.th.gid dst)
      if e.1.poison.isSome then finish e.1 []
      else if textureBad e.2 then .trapIn (e.1.s.clearBuf v.key) causeTexture i
      else
        let r := k e.1 (Texture.of e.2)
        match r.1.halt with
        | some h => v.halted .texture r.1.s h
        | none => finish r.1 r.2

def texSpec (i : Instr) (x : Fields) (k : Lane → Fetch → Texture → Fetch × List Word) : Spec :=
  { specOf i (fun v s => v.texture x s (k v)) with extra := fun _ => layoutPlaces (x.immBits 3 0) }
/-- The coordinates of B. -/
def Lane.texU (v : Lane) (x : Fields) : Nat := (v.r64 x.b).toNat % 2 ^ 32
def Lane.texV (v : Lane) (x : Fields) : Nat := (v.r64 x.b).toNat / 2 ^ 32
def execTexB (x : Fields) (s : State) := issue (.texB x) (texSpec (.texB x) x fun v f t =>
  let r := f.bilinear v t 0 (v.texU x) (v.texV x)
  (r.1, t.rgba r.2)) s
def execTexT (x : Fields) (s : State) := issue (.texT x) (texSpec (.texT x) x fun v f t =>
  let r := f.trilinear v t (v.r32 x.c).toNat (v.texU x) (v.texV x)
  (r.1, t.rgba r.2)) s
/-- R345: an FP16 derivative as FP32. -/
def halfBits (h : Nat) : Nat := ({ addr := 0, w := 1, h := 1, fmt := 2, mips := 1, modeU := 0, modeV := 0, aniso := 1 } : Texture).channels
  (toBytes 2 h) |>.headD 0
def execTexA (x : Fields) (s : State) := issue (.texA x) (texSpec (.texA x) x fun v f t =>
  let c := (v.r64 x.c).toNat
  let r := f.anisotropic v t (c % 2 ^ 32) (nanAsZero (v.texU x)) (nanAsZero (v.texV x)) (halfBits (bits c 47 32)) (halfBits (bits c 63 48))
  (r.1, t.rgba r.2)) s
/-- R312: TEXG: one channel of the footprint texels of level 0; a border texel is 0 in every channel. -/
def execTexg (x : Fields) (s : State) := issue (.texg x) (texSpec (.texg x) x fun v f t =>
  let a := f.texelPos (v.texU x) t.w
  let b := a.1.texelPos (v.texV x) t.h
  let i := a.2 / 256
  let j := b.2 / 256
  let r := [(i, j), (i + 1, j), (i, j + 1), (i + 1, j + 1)].foldl (fun (acc : Fetch × List Word) p =>
    let border := (addressMode t.modeU p.1 t.w).isNone || (addressMode t.modeV p.2 t.h).isNone
    let q := acc.1.texel v t 0 p.1 p.2
    (q.1, acc.2 ++ [if border then 0 else t.channel q.2 x.m.toNat])) (b.1, [])
  r) s
def execTexq (x : Fields) (s : State) := issue (.texq x) (texSpec (.texq x) x fun v f t =>
  let l := (v.r32 x.b).toNat
  (f, if t.mips ≤ l then [0, 0, 0, 0] else [word (t.width l), word (t.height l), word t.mips, word t.fmt])) s

end Sys2Proof.Machine
end

