-- ==== Sys2Proof/Machine/Ray.lean ====
section
/-!
DEFINITION. Rays: the traversal-state block (R314), nodes (R315), the tests (R319), traversal (R318, R320) and the ray instructions
(R316, R317).
-/
namespace Sys2Proof.Machine

/-- FP32 order of two encodings: false when either is NaN. -/
def ltBits (a b : Nat) : Bool :=
  !(fp32.decode a).isNan && !(fp32.decode b).isNan && decide ((fp32.decode a).cmp (fp32.decode b) < 0)
def leBits (a b : Nat) : Bool :=
  !(fp32.decode a).isNan && !(fp32.decode b).isNan && decide ((fp32.decode a).cmp (fp32.decode b) ≤ 0)
/-- FP32 minimum and maximum of two values that are not NaN; -0 lies below +0 (R223). -/
def minBits (a b : Nat) : Nat := if ltBits b a || (leBits b a && (fp32.decode b).neg) then b else a
def maxBits (a b : Nat) : Nat := if ltBits a b || (leBits a b && (fp32.decode a).neg) then b else a
def nanBits (a : Nat) : Bool := (fp32.decode a).isNan
def zeroBits (a : Nat) : Bool := (fp32.decode a).isZero
def posInf : Nat := 0x7F800000
def negInf : Nat := 0xFF800000

/-- R314: a block as its fields: vectors as FP32 encodings, the root and current addresses, and the flags of CUR. -/
structure Ray where
  org : List Nat
  tmin : Nat
  dir : List Nat
  tmax : Nat
  root : Nat
  hprim : Nat
  hbary : Nat
  hkind : Nat
  trail : Nat
  cur : Nat
  live : Bool
  susp : Bool
  cullb : Bool
  deriving DecidableEq, Repr

def nodeMask (a : Nat) : Nat := bits a 56 6 * 64
def words3 (bs : List Byte) (o : Nat) : List Nat := [field bs o 4, field bs (o + 4) 4, field bs (o + 8) 4]
def Ray.of (bs : List Byte) : Ray :=
  let c := field bs 56 8
  { org := words3 bs 0, tmin := field bs 12 4, dir := words3 bs 16, tmax := field bs 28 4, root := nodeMask (field bs 32 8),
    hprim := field bs 40 4, hbary := field bs 44 4, hkind := field bs 48 4, trail := field bs 52 4, cur := nodeMask c,
    live := c.testBit 63, susp := c.testBit 62, cullb := c.testBit 61 }
def Ray.curWord (r : Ray) : Nat := r.cur + boolNat r.live * 2 ^ 63 + boolNat r.susp * 2 ^ 62 + boolNat r.cullb * 2 ^ 61
/-- The block with the fields that the ray unit writes. -/
def Ray.bytes (r : Ray) (old : List Byte) : List Byte :=
  old.take 28 ++ toBytes 4 r.tmax ++ (old.drop 32).take 8 ++ toBytes 4 r.hprim ++ toBytes 4 r.hbary ++ toBytes 4 r.hkind ++
    toBytes 4 r.trail ++ toBytes 8 r.curWord

/-- R319: the entry and exit of a box without TMAX, over the three axes. -/
def Ray.slab (r : Ray) (lo hi : List Nat) : Nat × Nat :=
  [0, 1, 2].foldl (fun acc k =>
    let inv := divRne 0x3F800000 (r.dir.getD k 0)
    let t0 := mulRne (subRne (lo.getD k 0) (r.org.getD k 0)) inv
    let t1 := mulRne (subRne (hi.getD k 0) (r.org.getD k 0)) inv
    let e (t : Nat) : Nat := if nanBits t then negInf else t
    let x (t : Nat) : Nat := if nanBits t then posInf else t
    (maxBits acc.1 (minBits (e t0) (e t1)), minBits acc.2 (maxBits (x t0) (x t1)))) (r.tmin, posInf)
/-- R319: the interval of a box clipped to TMIN and TMAX. -/
def Ray.interval (r : Ray) (lo hi : List Nat) : Nat × Nat := let s := r.slab lo hi; (s.1, minBits r.tmax s.2)
def Ray.hits (r : Ray) (lo hi : List Nat) : Bool := let i := r.interval lo hi; leBits i.1 i.2

/-- R319: cross and dot products with every operation rounded. -/
def vsub (a b : List Nat) : List Nat := (List.range 3).map fun k => subRne (a.getD k 0) (b.getD k 0)
def cross (a b : List Nat) : List Nat :=
  let c (i j : Nat) : Nat := subRne (mulRne (a.getD i 0) (b.getD j 0)) (mulRne (a.getD j 0) (b.getD i 0))
  [c 1 2, c 2 0, c 0 1]
def dot3 (a b : List Nat) : Nat :=
  let p (k : Nat) : Nat := mulRne (a.getD k 0) (b.getD k 0)
  addRne (addRne (p 0) (p 1)) (p 2)
/-- R319: the triangle test: t, u and v of a hit. -/
def Ray.triangle (r : Ray) (node : List Byte) : Option (Nat × Nat × Nat) :=
  let v0 := words3 node 4
  let e1 := vsub (words3 node 16) v0
  let e2 := vsub (words3 node 28) v0
  let pv := cross r.dir e2
  let det := dot3 e1 pv
  let tv := vsub r.org v0
  let qv := cross tv e1
  let u := divRne (dot3 tv pv) det
  let v := divRne (dot3 r.dir qv) det
  if zeroBits det || (r.cullb && ltBits det 0) || ltBits u 0 || ltBits v 0 || ltBits 0x3F800000 (addRne u v) then none
  else some (divRne (dot3 e2 qv) det, u, v)

/-- R318: the children of a box node that the ray meets, whatever TMAX, nearer entry first, child 0 first on equal entry: entry and
address. Visits go to those with an entry below TMAX. -/
def Ray.children (r : Ray) (node : List Byte) : List (Nat × Nat) :=
  let one (c : Nat) : List (Nat × Nat) :=
    let o := 4 + 28 * c
    let s := r.slab (words3 node o) (words3 node (o + 12))
    if leBits s.1 s.2 then [(s.1, r.root + 64 * field node (o + 24) 4)] else []
  match (List.range (field node 1 1)).flatMap one with
  | [a, b] => if ltBits b.1 a.1 then [b, a] else [a, b]
  | l => l

/-- A level of the path from the root: the farther child that the ray meets, and whether it is the current one (R314). -/
structure Level where
  far : Option (Nat × Nat)
  onFar : Bool
  deriving DecidableEq, Repr

/-- R314: TRAIL of a path, the deepest level first. -/
def trailOf (path : List Level) : Nat := path.reverse.zipIdx.foldl (fun t p => if p.1.onFar then t + 2 ^ p.2 else t) 0

/-- How a traversal ends (R318, R319). -/
inductive RayEnd where
  | suspended (path : List Level)
  | ended (result : Nat)
  | halted
  deriving DecidableEq, Repr

/-- R315: the reading of a node; none of one whose address is not canonical. -/
def Fetch.node (f : Fetch) (v : Lane) (a : Nat) : Option (Fetch × List Byte) :=
  if !(((f.s.ctxOf v).map fun c => c.canonical a).getD false) then none
  else
    let r := f.read v .ray a 64
    some ({ r.1 with halt := match r.1.halt with
      | some (.miss va _) => some (.miss va 16)
      | h => h }, r.2)

/-- R318: what a leaf or box does: the ray, and the next node to visit. -/
inductive Visit where
  | go (r : Ray) (path : List Level) (addr : Nat)
  | advance (r : Ray)
  | stop (r : Ray) (e : RayEnd)

/-- R318, R319: visit a node at the end of a path. -/
def Ray.visit (r : Ray) (path : List Level) (addr : Nat) (node : List Byte) : Visit :=
  match field node 0 1 with
  | 1 =>
    if field node 1 1 = 0 || 2 < field node 1 1 then .stop r (.ended 3)
    else match r.children node with
      | a :: rest => if ltBits a.1 r.tmax then .go r ({ far := rest.head?, onFar := false } :: path) a.2 else .advance r
      | [] => .advance r
  | 2 =>
    match r.triangle node with
    | some (t, u, v) =>
      if leBits r.tmin t && ltBits t r.tmax then
        let h (w : Nat) : Nat := match fp32.decode w with
          | .fin n m x => (fp16.round .rne n (FP.fin n m x).int x).1
          | .inf n => fp16.infBits + (if n then fp16.signBit else 0)
          | .nan _ => fp16.qnan
        .advance { r with tmax := t, hprim := field node 40 4, hbary := h u + 65536 * h v, hkind := 1 }
      else .advance r
    | none => .advance r
  | 3 => if r.hits (words3 node 4) (words3 node 16) then .stop { r with cur := addr } (.suspended path) else .advance r
  | _ => .stop r (.ended 3)

/-- R318: the next node after a finished one: the farther child of the deepest level that still has one to visit. -/
def Ray.next (r : Ray) : List Level → Option (List Level × Nat)
  | [] => none
  | l :: path =>
    match l.onFar, l.far with
    | false, some c => if ltBits c.1 r.tmax then some ({ l with onFar := true } :: path, c.2) else r.next path
    | _, _ => r.next path

/-- R318: traversal. `at?` is the node to visit, or none to advance past a finished one. `fuel` bounds the visits. -/
def travel (v : Lane) : Nat → Fetch → Ray → List Level → Option Nat → Fetch × Ray × RayEnd
  | 0, f, r, _, _ => (f, r, .ended 3)
  | fuel + 1, f, r, path, none =>
    match r.next path with
    | some (p, a) => travel v fuel f r p (some a)
    | none => (f, r, .ended (if r.hkind = 0 then 0 else 1))
  | fuel + 1, f, r, path, some a =>
    if 32 ≤ path.length then (f, r, .ended 3)
    else match f.node v a with
      | none => (f, r, .ended 3)
      | some (f, node) =>
        if f.halt.isSome then (f, r, .halted)
        else if f.poison.isSome then (f, r, .ended 4)
        else match r.visit path a node with
          | .go r p b => travel v fuel f r p (some b)
          | .advance r => travel v fuel f r path none
          | .stop r e => (f, r, e)

/-- Visits that a hierarchy of 32 levels can need. -/
def rayFuel : Nat := 2 ^ 40

/-- R314: the path from the root to CUR that TRAIL gives; the empty path when TRAIL leads elsewhere, as a block that software has
changed may. -/
def Ray.path (v : Lane) (r : Ray) : Nat → Fetch → Nat → List Level → Fetch × List Level
  | 0, f, _, _ => (f, [])
  | fuel + 1, f, a, path =>
    if a = r.cur then (f, path)
    else match f.node v a with
      | none => (f, [])
      | some (f, node) =>
        if f.halt.isSome || f.poison.isSome || field node 0 1 ≠ 1 || field node 1 1 = 0 || 2 < field node 1 1 then (f, [])
        else
          let cs := r.children node
          let far := r.trail.testBit path.length
          match cs[boolNat far]? with
          | some c => Ray.path v r fuel f c.2 ({ far := (cs[1]?), onFar := far } :: path)
          | none => (f, [])

/-- R318: a ray that ends at once. -/
def Ray.degenerate (r : Ray) : Bool :=
  (r.org ++ r.dir ++ [r.tmin, r.tmax]).any nanBits || r.dir.all zeroBits || ltBits r.tmax r.tmin

/-- What an ended ray leaves in TRAIL and in the address bits of CUR: the specification does not say. -/
def Fetch.openEnd (f : Fetch) (r : Ray) : Fetch × Ray :=
  let n := f.s.nextChoice
  let w (k : Nat) : Nat := (Config.freeWord (n + k)).toNat
  ({ f with s := { f.s with nextChoice := n + 3 } }, { r with live := false, trail := w 0, cur := nodeMask (w 1 + 2 ^ 32 * w 2) })

/-- R318: what RYT or RYR makes of its block: the reads, the ray to be written and the result; no ray when the reads stopped.
`report` is the t and the user value of RYR.H. -/
def Ray.run (v : Lane) (r : Ray) (f : Fetch) (resume : Bool) (report : Option (Nat × Nat)) : Fetch × Option (Ray × Nat) :=
  let take := match report with
    | some (t, _) => leBits r.tmin t && ltBits t r.tmax
    | none => false
  let leaf := if take then f.node v r.cur else some (f, [])
  let r := { r with susp := false }
  match leaf with
  | none => let o := f.openEnd r; (o.1, some (o.2, 3))
  | some (f, node) =>
    if f.halt.isSome then (f, none)
    else if f.poison.isSome then let o := f.openEnd r; (o.1, some (o.2, 4))
    else
      let r := match report with
        | some (t, u) => if take then { r with tmax := t, hprim := field node 28 4, hbary := 0, hkind := 2 + 256 * (u % 2 ^ 24) } else r
        | none => r
      if r.degenerate then
        if resume then let o := f.openEnd r; (o.1, some (o.2, 0)) else (f, some ({ r with live := false }, 0))
      else
        let p := r.path v 33 f r.root []
        if p.1.halt.isSome then (p.1, none)
        else if p.1.poison.isSome then let o := p.1.openEnd r; (o.1, some (o.2, 4))
        else
          let q := travel v rayFuel p.1 r p.2 (if resume then none else some r.cur)
          match q.2.2 with
          | .halted => (q.1, none)
          | .suspended path => (q.1, some ({ q.2.1 with susp := true, trail := trailOf path }, 2))
          | .ended c => let o := q.1.openEnd q.2.1; (o.1, some (o.2, c))

/-- R301, R314, R90: the checks of a block's offset. -/
def Lane.blockTrap (v : Lane) (a : Nat) : Option (Nat × Nat) :=
  if a % 64 ≠ 0 then some (causeMisaligned, a)
  else if v.g.spLen < a + 64 then some (causeBounds, boundsTval v.g.spLen a)
  else none
def blockWaits (x : Fields) (store : Bool) (s : State) (vs : List Lane) : Bool :=
  vs.any fun v =>
    let a := (v.r32 x.a).toNat
    (v.blockTrap a).isNone && s.boardBlocks v (v.g.pool a) (v.g.pool (a + 63)) store
/-- R425: a block's bytes; of an uncorrectable word that is read as FP32, the NaN. -/
def Group.rayBlock (g : Group) (a : Nat) : List Byte :=
  (List.range 16).flatMap fun w =>
    if w < 8 && g.spBad.contains (a / 4 + w) then toBytes 4 PFmt.f32.poison.toNat else g.spSound (a + 4 * w) 4
/-- The block that a lane names, after its checks; `rs` are the ranges of it that are read as a plain scratchpad load. -/
def Lane.block64 (v : Lane) (x : Fields) (rs : List (Nat × Nat)) (s : State) (k : State → Nat → List Byte → Act) : Act :=
  let a := (v.r32 x.a).toNat
  match v.blockTrap a with
  | some t => .trap t.1 t.2
  | none => v.plainRead s (rs.map fun r => (a + r.1, r.2)) fun s g => k s a (g.spSound a 64)

/-- R318: traversals in flight on a core, and the most that its ray unit holds. -/
def State.rayLoad (s : State) (core : Nat) : Nat :=
  (s.ops.filter fun o => o.2.core == core && match o.2.kind with
    | .trav _ => true
    | _ => false).length
def rayRoom : Nat := 256

/-- R318, R320: RYT and RYR. The block is read at issue; the thread stays at the instruction until the traversal completes. -/
def Lane.traverse (v : Lane) (x : Fields) (resume : Bool) (report : Option (Nat × Nat)) (s : State) : Act :=
  let a := (v.r32 x.a).toNat
  match v.blockTrap a with
  | some t => .trap t.1 t.2
  | none =>
    if rayRoom ≤ s.rayLoad v.core || s.boardBlocks v (v.g.pool a) (v.g.pool (a + 63)) false then .wait s (.stall s.moves .issue)
    else v.plainRead s [(a, 64)] fun s g =>
      let dst := v.places 1 x.d
      let o := s.newOp { thread := v.key, gid := v.th.gid, core := v.core, pc := v.th.pc, dst := dst, tc := none,
                         kind := .trav { block := a, start := g.rayBlock a, resume := resume, report := report } }
      let s := o.1.enter { op := o.2, core := v.core, gid := v.th.gid, lo := v.g.pool a, hi := v.g.pool (a + 63), write := true, empty := false }
      .wait (s.pendDsts v.key v.th.gid dst) (.ray o.2)
/-- R99, R100, R318: the traversals of a gather wait for their blocks, for entries for all of them and for room in the ray unit. -/
def raysWait (x : Fields) (s : State) (vs : List Lane) : Bool :=
  match vs.filter fun v => (v.blockTrap (v.r32 x.a).toNat).isNone with
  | [] => false
  | v :: us => decide (s.boardFree v.core < us.length + 1) || decide (rayRoom ≤ s.rayLoad v.core) || blockWaits x false s (v :: us)
def raySpec (i : Instr) (x : Fields) (resume : Bool) (report : Lane → Option (Nat × Nat)) : Spec :=
  { specOf i (fun v s => v.traverse x resume (report v) s) with stall := raysWait x }
def execRyt (x : Fields) (s : State) := issue (.ryt x) (raySpec (.ryt x) x false fun _ => none) s
def execRyrM (x : Fields) (s : State) := issue (.ryrM x) (raySpec (.ryrM x) x true fun _ => none) s
def execRyrH (x : Fields) (s : State) := issue (.ryrH x) (raySpec (.ryrH x) x true fun v => some ((v.r32 x.b).toNat, (v.r32 x.c).toNat)) s

/-- R318: what a traversal comes to: the reads, and, unless they stopped, the block to be written if any and the result. -/
def TravOp.outcome (t : TravOp) (v : Lane) (s : State) : Fetch × Option (Option (List Byte) × Nat) :=
  let r := Ray.of t.start
  let f := v.startFetch s
  if !r.live then (f, some (none, 5))
  else if r.susp != t.resume then (f, some (none, 6))
  else
    let q := r.run v f t.resume t.report
    (q.1, if q.1.halt.isSome then none else q.2.map fun e => (some (e.1.bytes t.start), e.2))
/-- R320: a translation that a traversal of a thread awaits. -/
def State.rayAwaits (s : State) (key : Nat) : Bool :=
  let mine (m : Miss) : Bool := m.waiters.any fun w => w.thread == key && w.kind == .ray && w.kept.isNone
  s.enroute.any mine || s.misses.any mine || s.ops.any fun o => o.2.thread == key && o.2.readsRay
/-- R318, R428: the block is written in one clock, then the result. -/
def State.endTraversal (s : State) (op : Nat) (o : AOp) (t : TravOp) (bytes : Option (List Byte)) (result : Nat) (poison : Option Nat) : State :=
  let s := match bytes with
    | some bs => s.spWrite o.gid t.block bs
    | none => s
  let s := ((s.endOp op).retireEntries op).landDsts o.thread o.gid o.dst [word result]
  let s := match poison with
    | some a => s.poisonLanded o.thread a
    | none => s
  (s.retire o.thread).groupProgress o.gid
/-- TRAVERSAL_COMPLETION (R318, R320): a traversal completes, or asks for what its reads miss. -/
def execTraversalCompletion (op : Nat) (s : State) : Host.Outcome State Fault Refusal :=
  match Store.get s.ops op with
  | none => .next s
  | some o =>
    match o.kind, s.lanesOf [o.thread] with
    | .trav t, some [v] =>
      if s.opHeld op || s.rayAwaits o.thread then .next s
      else
        let q := t.outcome v s
        match q.2, q.1.halt with
        | some (bs, c), _ => happen (q.1.s.endTraversal op o t bs c q.1.poison)
        | none, some (.miss va n) => happen (q.1.s.sendMiss v.core v.g.ctx va
            { thread := v.key, unit := dataUnit v.core (quadOf v.key), kind := .ray, va := va, size := n, pc := v.th.pc, ordered := false, kept := none })
        | none, some (.remote r) =>
          happen (q.1.s.newOp { thread := v.key, gid := v.th.gid, core := v.core, pc := v.th.pc, dst := [], tc := none, kind := .fetch r }).1
        | _, _ => .next s
    | _, _ => .next s

/-- R317: CUR as RYL leaves it. -/
def rylTail (root : Nat) (cb : Bool) : List Byte :=
  toBytes 4 0xFFFFFFFF ++ toBytes 4 0 ++ toBytes 4 0 ++ toBytes 4 0 ++ toBytes 8 (nodeMask root + 2 ^ 63 + boolNat cb * 2 ^ 61)
def execRyl (x : Fields) (s : State) := issue (.ryl x) { specOf (.ryl x) (fun v s => v.block64 x [(32, 8)] s fun s a bs =>
  .done (s.spWrite v.th.gid (a + 40) (rylTail (field bs 32 8) (x.imm.getLsbD 0)))) with stall := blockWaits x true } s

/-- R334: the direction of view n's ray at a position in 16.8. -/
def ViewSet.rayDir (vs : ViewSet) (n px py : Nat) : List Nat :=
  let r := vs.record n
  let f (p : Nat) : Nat := (fp32.round .rne false p (-8)).1
  (List.range 3).map fun k =>
    addRne (addRne (field r (76 + 4 * k) 4) (mulRne (f px) (field r (88 + 4 * k) 4))) (mulRne (f py) (field r (100 + 4 * k) 4))
/-- R317: RYL.V. -/
def execRylV (x : Fields) (s : State) := issue (.rylV x) { specOf (.rylV x) (fun v s =>
  let tile := (v.r32 x.b).toNat
  v.sample (x.immBits 2 1) tile (v.r32 x.c).toNat s (v.blockTrap (v.r32 x.a).toNat) fun vs p => v.block64 x [(32, 8)] s fun s a bs =>
    let dir := match p with
      | some (px, py) => vs.rayDir (tileView tile) px py
      | none => [0, 0, 0]
    .done (s.spWrite v.th.gid a ((vs.record (tileView tile)).drop 64 |>.take 12 |> fun eye =>
      eye ++ toBytes 4 0 ++ (dir.flatMap fun w => toBytes 4 w) ++ toBytes 4 posInf ++ (bs.drop 32).take 8 ++
        rylTail (field bs 32 8) (x.imm.getLsbD 0)))) with stall := blockWaits x true } s

/-- R317: RYX clears LIVE and SUSP. -/
def execRyx (x : Fields) (s : State) := issue (.ryx x) { specOf (.ryx x) (fun v s => v.block64 x [] s fun s a _ =>
  .done (s.updGroup v.th.gid fun g => g.spWrite (a + 63) [Store.rd 0 g.sp (a + 63) &&& 0x3F])) with stall := blockWaits x true } s
/-- R317: RYH. -/
def execRyh (x : Fields) (s : State) := issue (.ryh x) { specOf (.ryh x) (fun v s => v.block64 x [(28, 4), (40, 12)] s fun s _ bs =>
  .done (v.wrWords s x.d [word (field bs 40 4), word (field bs 28 4), word (field bs 44 4), word (field bs 48 4)])) with
  stall := blockWaits x false } s
/-- R317: RYS: the leaf's identifier and user word, and the interval of its box. -/
def execRys (x : Fields) (s : State) := issue (.rys x) { specOf (.rys x) (fun v s => v.block64 x [(0, 32), (56, 8)] s fun s a _ =>
  let r := Ray.of (((s.group v.th.gid).getD v.g).rayBlock a)
  let dst := v.places 4 x.d
  let give (s : State) (ws : List Word) (p : Option Nat) : Act :=
    let o := (s.clearBuf v.key).newOp { thread := v.key, gid := v.th.gid, core := v.core, pc := v.th.pc, dst := dst, tc := none,
                                        kind := .value ws p }
    .done (o.1.pendDsts v.key v.th.gid dst)
  if !r.susp then .done (v.wrWords s x.d (List.replicate 4 0xFFFFFFFF))
  else
    let q := (v.startFetch s).read v .ray r.cur 64
    match q.1.halt with
    | some (.miss va _) => v.halted .ray q.1.s (.miss va 16)
    | some h => v.halted .ray q.1.s h
    | none =>
      let i := r.interval (words3 q.2 4) (words3 q.2 16)
      give q.1.s (if q.1.poison.isSome then List.replicate 4 0 else [word (field q.2 28 4), word (field q.2 32 4), word i.1, word i.2])
        q.1.poison) with
  stall := blockWaits x false } s

end Sys2Proof.Machine
end

