-- ==== Sys2Proof/Machine/Control.lean ====
section
/-!
DEFINITION. Branches, calls, sheaves, traps, windows, the system group and the tile walker: majors 0x20 to 0x23 (R199 to R218,
R110, R111, R123 to R130).
-/
namespace Sys2Proof.Machine

/-- R123: the sheaf region runs from the first instruction to the SHFE. -/
def Sheaf.contains (sh : Sheaf) (a : Nat) : Bool := decide (sh.base + 8 + 24 * sh.paths ≤ a) && decide (a ≤ sh.stop)

/-- R161: the target of a long offset. -/
def Lane.target (v : Lane) (x : Fields) : Nat := modPow (v.th.pc + 8 * x.longOffset) 64

/-- R200: the checks of a target, then what is done with it. -/
def State.branchTo (s : State) (v : Lane) (t : Nat) (k : Act) : Act :=
  if t % 8 ≠ 0 then .trap causeMisaligned t
  else if !(((s.ctxOf v).map fun c => c.canonical t).getD false) then .trap causeCanonical t
  else k

/-- R127, R200: a branch, held to the sheaf region inside a sheaf. -/
def Lane.branch (v : Lane) (s : State) (t : Nat) : Act :=
  match v.th.sheaf with
  | some sh => if sh.contains t then s.branchTo v t (.jump s t) else .trap causeSheaf 0
  | none => s.branchTo v t (.jump s t)

def execBra (x : Fields) (s : State) := issue (.bra x) (specOf (.bra x) fun v s => v.branch s (v.target x)) s
def execBrx (x : Fields) (s : State) := issue (.brx x) (specOf (.brx x) fun v s => v.branch s (v.r64 x.a).toNat) s

/-- R112: WSTAT. -/
def Thread.wstat (th : Thread) : Word := word (th.wb / 16 * 65536 + th.sb / 16)

/-- R127: what no thread may do inside a sheaf. -/
def Lane.barred (v : Lane) : Option Nat := if v.th.sheaf.isSome then some causeSheaf else none

/-- R110, R201: CALL and CALLX to a target. -/
def Lane.call (v : Lane) (s : State) (t : Nat) : Act :=
  if v.th.wb / 16 = 65535 then .illegal
  else if v.th.words < v.th.wb + 48 - v.th.sb then .trap causeOverflow v.th.wstat.toNat
  else
    let ret := v.th.pc + 8
    let s' := s.putDsts v.key v.th.gid [v.place 30, v.place 31] (wordsOf 2 ret)
    s.branchTo v t (.jump (s'.updThread v.key fun th => { th with wb := th.wb + 16 }) t)

/-- R201: the caller's w30 and w31 must not be pending. -/
def callWaits (_ : State) (vs : List Lane) : Bool :=
  vs.any fun v => isPending v.th v.g (v.place 30) || isPending v.th v.g (v.place 31)
def execCall (x : Fields) (s : State) :=
  issue (.call x) { specOf (.call x) (fun v s => v.call s (v.target x)) with rule := Lane.barred, stall := callWaits } s
def execCallx (x : Fields) (s : State) :=
  issue (.callx x) { specOf (.callx x) (fun v s => v.call s (v.r64 x.a).toNat) with rule := Lane.barred, stall := callWaits } s

/-- R110, R202: RET, whose target is read only once the window checks have passed. -/
def Lane.retOk (v : Lane) : Bool := decide (16 ≤ v.th.wb) && decide (v.th.sb ≤ v.th.wb - 16)
def Lane.ret (v : Lane) (s : State) : Act :=
  if v.th.wb < 16 then .illegal
  else if v.th.wb - 16 < v.th.sb then .trap causeUnderflow v.th.wstat.toNat
  else
    let t := (v.r64 14).toNat
    s.branchTo v t (.jump (s.updThread v.key fun th => { th with wb := th.wb - 16 }) t)
def execRet (x : Fields) (s : State) := issue (.ret x) { specOf (.ret x) (fun v s => v.ret s) with
  rule := Lane.barred, extra := fun v => if v.retOk then [(v.place 14, .int), (v.place 15, .int)] else [] } s

/-- The threads of a quadrant. -/
def State.quadThreads (s : State) (core quad : Nat) : List (Nat × Thread) :=
  s.threads.filter fun e => !isThresher e.1 && coreOf e.1 == core && quadOf e.1 == quad

def State.groupCtx (s : State) (th : Thread) : Nat := ((Store.get s.groups th.gid).map Group.ctx).getD 512

/-- R129: the SHFB addresses, with their contexts, whose table sets a quadrant holds. A thread holds none before it has read its tables
again (R130). DESIGN CHOICE (log 58): a sheaf that its thread's trap handler has suspended keeps its set. -/
def State.tableSets (s : State) (core quad : Nat) : List (Nat × Nat) :=
  (((s.quadThreads core quad).filter fun e => !e.2.reload).flatMap fun e =>
    ([e.2.sheaf, e.2.susp].filterMap id).map fun sh => (s.groupCtx e.2, sh.base)).eraseDups
/-- R129: a new set is needed for an address and none is free. -/
def State.setShort (s : State) (core quad ctx base : Nat) : Bool :=
  let sets := s.tableSets core quad
  decide (16 ≤ sets.length) && !sets.contains (ctx, base)

/-- R124: reserved bits of the tables are zero. -/
def tablesOk (ts : List DWord) : Bool :=
  (ts.zipIdx).all fun p => if p.2 % 3 = 2 then decide (p.1.toNat < 2 ^ 40) else decide (p.1.toNat < 2 ^ 60)

/-- The 64-bit words of a byte string. -/
def dwordsOf (n : Nat) (bs : List Byte) : List DWord := (List.range n).map fun i => dword (field bs (8 * i) 8)

/-- R123: a lane's path id. -/
def Lane.pathId (v : Lane) (x : Fields) : Nat := boolNat (v.pred x.a) + (if 2 < x.m.toNat then 2 * boolNat (v.pred x.b) else 0)
/-- R123, R203: a lane enters a sheaf. DESIGN CHOICE (log 59): it uses the tables that its own SHFB has fetched, also where its quadrant
holds the set already. -/
def Lane.enterSheaf (v : Lane) (x : Fields) (s : State) : Act :=
  let n := x.m.toNat
  let base := v.th.pc
  if n ≤ v.pathId x then .illegal
  else if s.setShort v.core (quadOf v.key) v.g.ctx base then .wait s (.stall s.moves .issue)
  else
    let r := s.fetchBytes 3 { input := v.core, core := v.core, ctx := v.g.ctx, thread := some v.key, pc := base } (base + 8) (24 * n) v.th.peerBuf
    match r.2 with
    | .error f => .raw (r.1.awaitFetch v.key f 8)
    | .ok bs =>
      let ts := dwordsOf (3 * n) bs
      if !tablesOk ts then .trapIn r.1 causeIllegal 0
      else .jump (r.1.updThread v.key fun th =>
        { th with sheaf := some { base := base, stop := base + 8 * x.imm.toNat, paths := n, path := v.pathId x, tables := ts } })
        (base + 8 + 24 * n)

/-- R129: each lane waits for a table set. -/
def sheafWaits (x : Fields) (s : State) (vs : List Lane) : Bool :=
  !vs.isEmpty && vs.all fun v => decide (v.pathId x < x.m.toNat) && s.setShort v.core (quadOf v.key) v.g.ctx v.th.pc
def execShfb (x : Fields) (s : State) :=
  issue (.shfb x) { specOf (.shfb x) (fun v s => v.enterSheaf x s) with rule := Lane.barred, stall := sheafWaits x } s

/-- R128, R204: SHFE. -/
def Lane.leaveSheaf (v : Lane) (s : State) : Act :=
  match v.th.sheaf with
  | none => .illegal
  | some sh => if sh.stop ≠ v.th.pc then .illegal else .done (s.updThread v.key fun th => { th with sheaf := none })
def execShfe (x : Fields) (s : State) := issue (.shfe x) { specOf (.shfe x) (fun v s => v.leaveSheaf s) with
  rule := fun _ => if x.g ≠ 15 then some causeSheaf else none } s

def execTrap (x : Fields) (s : State) :=
  issue (.trap x) (specOf (.trap x) fun _ _ => .trap causeSoftware x.imm.toNat) s

/-- R207: TRET to TEPC plus `skip`. -/
def Lane.trapReturn (v : Lane) (skip : Nat) (s : State) : Act :=
  if v.th.sheaf.isSome || !v.th.inHandler then .illegal
  else
    let t := (v.th.tepc.toNat + skip) % 2 ^ 64
    .jump (s.updThread v.key fun th => th.leaveHandler t) t
def execTret (x : Fields) (s : State) := issue (.tret x) (specOf (.tret x) fun v s => v.trapReturn 0 s) s
def execTretN (x : Fields) (s : State) := issue (.tretN x) (specOf (.tretN x) fun v s => v.trapReturn 8 s) s
def execNop (x : Fields) (s : State) := issue (.nop x) (specOf (.nop x) fun _ s => .done s) s
/-- R208: the thread's age restarts, as at every issue (R121). -/
def execYield (x : Fields) (s : State) := issue (.yield x) (specOf (.yield x) fun _ s => .done s) s

/-- R119, R209: the thread frees its slot. -/
def State.freeThread (s : State) (key gid : Nat) : State :=
  { s with threads := Store.del s.threads key,
           groups := Store.upd s.groups gid fun g => { g with live := g.live - 1 } }
/-- R209: EXIT drains while register writes are pending or accesses are not performed. -/
def Lane.exit (v : Lane) (s : State) : Act :=
  match Store.get s.threads v.key with
  | none => .raw s
  | some th => if th.pend.isEmpty && th.kept.isEmpty && !s.fencing v.key then .raw (s.freeThread v.key v.th.gid)
      else .raw (s.updThread v.key fun th => { th with st := .draining })
def execExit (x : Fields) (s : State) := issue (.exit x) (specOf (.exit x) fun v s => v.exit s) s

/-- R210: one progress event for the gather. -/
def execPulse (x : Fields) (s : State) :=
  issue (.pulse x) { specOf (.pulse x) (fun v s => .done (s.progress v.g.ctx)) with once := true } s

/-- R211, R400: whether a stop is pending for a lane's context or gang. -/
def State.stopPending (s : State) (v : Lane) : Bool :=
  ((s.ctxOf v).map fun c => c.stop.isSome).getD false ||
  s.gangStops.any fun g => g.launch == v.g.launch && g.gang == v.g.gang
def execSafept (x : Fields) (s : State) := issue (.safept x) (specOf (.safept x) fun v s =>
  if s.stopPending v then
    .wait (s.updThread v.key fun th => { th with pc := th.pc + 8 }) .safePoint
  else .done s) s

/-- The stack words lo to lo + 15 (R111). -/
def Lane.block (v : Lane) (lo : Nat) : List Dst := (List.range 16).map fun i => .stack ((lo + i) % v.th.words)
/-- R111: the room that WSPILL and WFILL need. -/
def Lane.spillOk (v : Lane) : Bool := decide (v.th.sb + 16 ≤ v.th.wb) && v.th.wsp.toNat % 64 == 0
def Lane.fillOk (v : Lane) : Bool := decide (16 ≤ v.th.sb) && decide (v.th.wb + 48 - v.th.sb ≤ v.th.words) && v.th.wsp.toNat % 64 == 0

/-- R41, R248: one access of a thread that its instruction repeats if it misses: the translation, or what to do instead. An access that an
unperformed acquire of the thread holds waits (R368). -/
def Lane.access (v : Lane) (s : State) (va n : Nat) (kind : AccessKind) (k : State → Xlat → Act) : Act :=
  if !(((s.ctxOf v).map fun c => c.canonical va && c.canonical (va + n - 1)).getD false) then .trap causeCanonical va
  else
    let r := s.lookup (dataUnit v.core (quadOf v.key)) v.core v.g.ctx va kind
    match r.2 with
    | some x =>
      if !((x.peer.map r.1.reachable).getD true) then .miss r.1 va kind n
      else if x.kind != kindUO && r.1.acquiring v.key then .wait r.1 (.stall r.1.moves .issue)
      else k r.1 x
    | none => .miss r.1 va kind n
/-- R363: an access to an SO page waits for the thread's earlier ones at peers. -/
def State.orderWaits (s : State) (v : Lane) (va : Nat) (kind : AccKind) : Bool :=
  let a := { v.blankAccess kind 64 0 with va := va, size := 64 }
  match (s.lookup (dataUnit v.core (quadOf v.key)) v.core v.g.ctx va a.accessKind).2 with
  | some x => s.holds v.key [] a x
  | none => false

/-- R111, R363: WSPILL, an ordinary store of the page's kind. -/
def Lane.spill (v : Lane) (s : State) : Act :=
  if v.th.wb < v.th.sb + 16 then .illegal
  else if v.th.wsp.toNat % 64 ≠ 0 then .trap causeMisaligned v.th.wsp.toNat
  else v.access s v.th.wsp.toNat 64 .store fun s x =>
    let bs := (v.block v.th.sb).flatMap fun d => match d with
      | .stack i => toBytes 4 (Store.rd 0 v.th.stack i).toNat
      | _ => []
    let s := s.performAccess v.key v.g { v.blankAccess .store 64 0 with va := v.th.wsp.toNat, size := 64, data := bs } x
    .done (s.updThread v.key fun th => { th with wsp := dword ((th.wsp.toNat + 64) % 2 ^ 57), sb := th.sb + 16 })
def execWspill (x : Fields) (s : State) := issue (.wspill x) { specOf (.wspill x) (fun v s => v.spill s) with
  rule := Lane.barred, extra := fun v => if v.spillOk then (v.block v.th.sb).map fun d => (d, .int) else [],
  stall := fun s vs => vs.any fun v => v.spillOk && s.orderWaits v v.th.wsp.toNat .store } s

/-- R111: WFILL's address. -/
def Lane.fillAt (v : Lane) : Nat := modPow ((v.th.wsp.toNat : Int) - 64) 64
/-- R111: WFILL. For a page of a peer the thread waits until the data returns. -/
def Lane.fill (v : Lane) (s : State) : Act :=
  if v.th.sb < 16 || v.th.words < v.th.wb + 48 - v.th.sb then .illegal
  else if v.th.wsp.toNat % 64 ≠ 0 then .trap causeMisaligned v.th.wsp.toNat
  else
    let va := v.fillAt
    v.access s va 64 .load fun s x =>
      let moved (s : State) := s.updThread v.key fun th => { th with wsp := dword va, sb := th.sb - 16 }
      let ds := v.block (v.th.sb - 16)
      let landed (s : State) (bs : List Byte) := s.putDsts v.key v.th.gid ds ((List.range 16).map fun i => word (field bs (4 * i) 4))
      match x.peer with
      | some m =>
        if v.th.peerBuf.length = 64 then .done (moved (landed s v.th.peerBuf))
        else .raw (s.awaitBytes v.key { bytes := 64, va := va, size := 64, kind := .load, port := s.peerPort m x.pa })
      | none =>
        let r := s.performLoad v.core v.g.ctx v.key v.th.pc x 64 false
        let s := landed r.1 r.2.1
        let s := match r.2.2 with
          | some a => s.poisonLanded v.key a
          | none => s
        .done (moved s)
def execWfill (x : Fields) (s : State) := issue (.wfill x) { specOf (.wfill x) (fun v s => v.fill s) with
  rule := Lane.barred,
  stall := fun s vs => vs.any fun v => v.fillOk &&
    ((v.block (v.th.sb - 16)).any (fun d => isPending v.th v.g d) || s.orderWaits v v.fillAt .load) } s

/-- R170, R213: the value of a control and status register. -/
def State.csr (s : State) (v : Lane) (addr : Nat) : Nat :=
  let c := s.ctxOf v
  let ctx (f : Ctx → Nat) : Nat := (c.map f).getD 0
  match addr with
  | 0x000 => v.th.fflags.toNat
  | 0x010 => v.th.wsp.toNat
  | 0x011 => v.th.wstat.toNat
  | 0x020 => v.th.errst.toNat
  | 0x021 => v.th.tcause.toNat
  | 0x022 => v.th.tepc.toNat
  | 0x023 => v.th.tval.toNat
  | 0x030 => ctx fun c => c.fpten.toNat
  | 0x031 => ctx fun c => c.errpol.toNat
  | 0x032 => ctx fun c => c.wdper.toNat
  | 0x040 => ctx fun c => c.detmode.toNat
  | 0x041 => v.g.lseed.toNat
  | 0x050 => ctx fun c => c.apxctl.toNat
  | 0x051 => ctx fun c => c.tseed.toNat
  | 0x052 => ctx fun c => c.tcnt.toNat
  | 0x060 => (Store.rd 0 s.throt v.core).toNat
  | _ => 0
def execCsrr (x : Fields) (s : State) := issue (.csrr x) (specOf (.csrr x) fun v s =>
  .done (v.wr s (if x.m = 1 then 2 else 1) x.d (s.csr v x.imm.toNat))) s

/-- R170, R171: what a CSRW leaves in the thread: reserved bits keep 0, ERRST clears the bits that are 1, and the read-only
registers discard the value. -/
def Thread.csrWrite (th : Thread) (addr val : Nat) : Thread :=
  match addr with
  | 0x000 => { th with fflags := word (val % 32) }
  | 0x010 => { th with wsp := dword (val % 2 ^ 57 / 64 * 64) }
  | 0x020 => { th with errst := th.errst &&& ~~~(word val) }
  | _ => th
def execCsrw (x : Fields) (s : State) := issue (.csrw x) (specOf (.csrw x) fun v s =>
  .done (s.updThread v.key fun th => th.csrWrite x.imm.toNat (v.rd (if x.m = 1 then 2 else 1) x.a))) s

/-- R391: a field of a launch's header. -/
def Launch.hdr (l : Launch) (o n : Nat) : Nat := field l.header o n
/-- R391: the extents E2 to E5. -/
def Launch.extents (l : Launch) : List Nat := (List.range 4).map fun i => l.hdr (32 + 2 * i) 2
def Launch.tiles (l : Launch) : Nat := l.extents.foldl (· * ·) 1
/-- R391: the walker flag of HFL. -/
def Launch.hasWalker (l : Launch) : Bool := (l.hdr 22 1).testBit 1

/-- R214: a lane's claim goes to the scheduler; the thread waits for its answer. -/
def Lane.claim (v : Lane) (x : Fields) (s : State) : Act :=
  match Store.get s.launches v.g.launch with
  | none => .illegal
  | some l =>
    if !l.hasWalker then .illegal
    else
      let c : Claim := { thread := v.key, launch := v.g.launch, pred := x.d.toNat, dst := v.places 2 x.b }
      .wait { s with claims := s.claims ++ [c] } .walker
def execTwnx (x : Fields) (s : State) := issue (.twnx x) (specOf (.twnx x) fun v s => v.claim x s) s

/-- R215, R393: a tile number split with F2 fastest, or with F3 fastest under `swap`. -/
def splitTile (e : List Nat) (swap : Bool) (a : Nat) : List Nat :=
  let e2 := e.getD 0 1
  let e3 := e.getD 1 1
  let e4 := e.getD 2 1
  let hi := [a / (e2 * e3) % e4, a / (e2 * e3 * e4)]
  if swap then [a / e3 % e2, a % e3] ++ hi else [a % e2, a / e2 % e3] ++ hi

/-- Replace field n of a work identifier. -/
def setField (widths : List Nat) (wid n f : Nat) : Nat :=
  let p := widShift widths n
  let w := widths.getD n 0
  wid - widField' widths wid n * 2 ^ p + (f % 2 ^ w) * 2 ^ p
where
  widField' (widths : List Nat) (wid n : Nat) : Nat := (wid / 2 ^ widShift widths n) % 2 ^ widths.getD n 0

/-- R215: TWLK. -/
def State.tileWid (s : State) (v : Lane) (swap : Bool) (a : Nat) : Nat :=
  match Store.get s.launches v.g.launch with
  | none => 2 ^ 64 - 1
  | some l =>
    if l.tiles ≤ a then 2 ^ 64 - 1
    else (splitTile l.extents swap a).zipIdx.foldl (fun w p => setField v.g.widths w (p.2 + 2) p.1) v.wid.toNat
def execTwlk (x : Fields) (s : State) := issue (.twlk x) (specOf (.twlk x) fun v s =>
  .done (v.wr s 2 x.d (s.tileWid v (x.m == 1) (v.r64 x.a).toNat))) s

end Sys2Proof.Machine
end

