-- ==== Sys2Proof/Machine/Sync.lean ====
section
/-!
DEFINITION. Scratchpad queues (R73 to R75, R264 to R266), messages (R267 to R269), timelines (R79 to R84, R270) and barriers
(R271 to R275).
-/
namespace Sys2Proof.Machine

def Lane.queue (v : Lane) (s : State) (x : Fields) : Option Queue := (s.group v.th.gid).bind fun g => Store.get g.queues (x.immBits 3 0)

/-- R264, R73: QDEF in a lane. Engine requests that still wait for a slot keep their order (R76). -/
def Lane.defineQueue (v : Lane) (x : Fields) (s : State) : Act :=
  let g := (s.group v.th.gid).getD v.g
  let base := (v.r32 x.a).toNat
  let geo := (v.r32 x.b).toNat
  let size := bits geo 16 0
  let n := bits geo 23 17
  let mc := x.imm.getLsbD 4
  let sender := x.immBits 7 5
  let busy := match Store.get g.queues (x.immBits 3 0) with
    | some q => q.slots.any fun t => t != .free
    | none => false
  if bits geo 31 24 ≠ 0 || size % 16 ≠ 0 || size = 0 || 65536 < size || n = 0 || 64 < n || g.spLen < base + n * size ||
      (mc && g.gangSize ≤ 1) || g.gangSize ≤ sender || busy then .illegal
  else
    let engines := ((Store.get g.queues (x.immBits 3 0)).map Queue.engines).getD []
    let q : Queue := { base := base, size := size, n := n, mcast := mc, sender := sender, free := List.range n, filled := [],
                       slots := List.replicate n .free, engines := engines, sent := 0, credits := List.replicate g.gangSize n, ring := [] }
    .done (s.updGroup v.th.gid fun g => { g with queues := Store.put g.queues (x.immBits 3 0) q })
def execQdef (x : Fields) (s : State) := issue (.qdef x) (specOf (.qdef x) fun v s => v.defineQueue x s) s

/-- R74, R455: the handle that a pop of a thread may take now, if any; a recorded pop is consumed. -/
def State.popHandle (s : State) (key gid q : Nat) (filled : Bool) : State × Option Nat :=
  match s.group gid, (s.group gid).bind fun g => Store.get g.queues q with
  | some g, some u =>
    let list := if filled then u.filled else u.free
    let r := s.nextRecord g.ctx (listStream g (s.logHead g.launch) q filled)
    match r.2 with
    | some (j, e) =>
      let h := bits e.x 5 0
      if e.who == (r.1.widOf key gid).toNat && list.contains h then (r.1.consume g.ctx j, some h) else (r.1, none)
    | none => (r.1, list.head?)
  | _, _ => (s, none)

/-- R74, R75, R105, R266, R454: a thread takes a handle, or nothing when it must wait. -/
def State.tryPop (s : State) (key gid q : Nat) (filled : Bool) (dst : Dst) : State × Bool :=
  let r := s.popHandle key gid q filled
  match r.2, r.1.group gid with
  | some h, some g =>
    let s := r.1.updGroup gid fun g => g.updQueue q fun u =>
      { u with free := if filled then u.free else u.free.filter (· != h),
               filled := if filled then u.filled.filter (· != h) else u.filled, slots := u.slots.set h .held }
    let s := s.logChoice { ctx := g.ctx, kind := 6, head := s.logHead g.launch, who := (s.widOf key gid).toNat,
                           x := h + 64 * q + 1024 * boolNat filled, y := 0 }
    let s := (s.putDst key gid dst (word h)).progress g.ctx
    let s := if q = 0 && !filled then s.notePush gid else s
    (if filled then s.invalidateCache (coreOf key) else s, true)
  | _, _ => (r.1, false)

def Lane.pop (v : Lane) (x : Fields) (filled : Bool) (s : State) : Act :=
  match v.queue s x with
  | none => .illegal
  | some _ =>
    let dst := (v.places 1 x.d).headD .zero
    let r := s.tryPop v.key v.th.gid (x.immBits 3 0) filled dst
    if r.2 then .done r.1 else .wait r.1 (.pop (x.immBits 3 0) filled dst)
def execQpopE (x : Fields) (s : State) := issue (.qpopE x) (specOf (.qpopE x) fun v s => v.pop x false s) s
/-- R371: a fencing synchronisation waits for every earlier access of its threads. -/
def fencingWaits (s : State) (vs : List Lane) : Bool := vs.any fun v => s.fencing v.key
/-- R367: a release waits for the earlier SO and RC accesses of its threads. -/
def releaseWaits (s : State) (vs : List Lane) : Bool := vs.any fun v => s.releasing v.key
def execQpopF (x : Fields) (s : State) := issue (.qpopF x) { specOf (.qpopF x) (fun v s => v.pop x true s) with stall := fencingWaits } s

/-- R75: of the threads of a group blocked on one list, the one that issued first, and of one gather the lowest lane column. -/
def State.firstPopper (s : State) (gid q : Nat) (filled : Bool) : Option Nat :=
  let mine := s.threads.filter fun e => e.2.gid == gid && match e.2.st with
    | .waiting (.pop r f _) => r == q && f == filled
    | _ => false
  let rank (e : Nat × Thread) : Nat := e.2.since * 2 ^ 32 + e.1 % 32 * 2 ^ 20 + e.1
  match mine with
  | [] => none
  | e :: es => some (es.foldl (fun b e => if rank e < rank b then e else b) e).1
/-- BLOCKED_POP_RELEASE (R74, R75); in REPLAY the log says which pop is next (R455). -/
def execBlockedPopRelease (thread : Nat) (s : State) : Host.Outcome State Fault Refusal :=
  match Store.get s.threads thread with
  | none => .next s
  | some th =>
    match th.st with
    | .waiting (.pop q filled dst) =>
      if !(s.forcing (((s.group th.gid).map Group.ctx).getD 512)) && s.firstPopper th.gid q filled != some thread then .next s
      else
        let r := s.tryPop thread th.gid q filled dst
        if r.2 then happen (r.1.retire thread) else .next r.1
    | _ => .next s

/-- R74: a handle that the group may push. -/
def Lane.heldHandle (v : Lane) (x : Fields) (s : State) : Option (Queue × Nat) :=
  match v.queue s x with
  | none => none
  | some q =>
    let h := (v.r32 x.a).toNat
    if h < q.n && q.slots.getD h .free == .held then some (q, h) else none

/-- R74, R374: QPUSH.F hands the slot over as a release. -/
def Lane.pushFilled (v : Lane) (x : Fields) (s : State) : Act :=
  match v.heldHandle x s with
  | none => .illegal
  | some (_, h) =>
    let s := s.drainAll.updGroup v.th.gid fun g => g.updQueue (x.immBits 3 0) fun q =>
      { q with filled := q.filled ++ [h], slots := q.slots.set h .filled }
    .done (s.progress v.g.ctx)
def execQpushF (x : Fields) (s : State) := issue (.qpushF x) { specOf (.qpushF x) (fun v s => v.pushFilled x s) with stall := fencingWaits } s

/-- R74, R77: QPUSH.E; on a multicast queue only the oldest landed slot may be released, and the sender gets its unit back. -/
def Lane.pushEmpty (v : Lane) (x : Fields) (s : State) : Act :=
  match v.heldHandle x s with
  | none => .illegal
  | some (q, h) =>
    if q.mcast && q.ring.head? != some h then .illegal
    else
      let s := s.updGroup v.th.gid fun g => g.updQueue (x.immBits 3 0) fun q =>
        { q with free := q.free ++ [h], slots := q.slots.set h .free, ring := if q.mcast then q.ring.drop 1 else q.ring }
      let s := if q.mcast then
          match s.memberGid v.g q.sender with
          | some r => s.updGroup r fun g => g.updQueue (x.immBits 3 0) fun q =>
              { q with credits := q.credits.zipIdx.map fun p => if p.2 = v.g.member then p.1 + 1 else p.1 }
          | none => s
        else s
      .done (s.progress v.g.ctx)
def execQpushE (x : Fields) (s : State) := issue (.qpushE x) (specOf (.qpushE x) fun v s => v.pushEmpty x s) s

/-- R265. -/
def Queue.status (q : Queue) : Nat := boolNat q.mcast * 2 ^ 24 + q.n * 2 ^ 16 + q.free.length * 2 ^ 8 + q.filled.length
def execQstat (x : Fields) (s : State) := issue (.qstat x) (specOf (.qstat x) fun v s =>
  match v.queue s x with
  | none => .illegal
  | some q => .done (v.wr32 s x.d (word q.status))) s

/-- R268: a posted receive that a message of a tag matches, and a receive tag that a message matches. -/
def tagMatches (want tag : Nat) : Bool := want == tag || want == 0xFFFF

/-- The oldest element that meets a test, and the list without it. -/
def takeFirst {α : Type} (f : α → Bool) : List α → Option (α × List α)
  | [] => none
  | a :: l => if f a then some (a, l) else (takeFirst f l).map fun r => (r.1, a :: r.2)

/-- R268: a port once messages of the given tags have come to it: the tags of its posted receives, and the length of its overflow queue. -/
def portAfter (posts : List Nat) (full : Nat) : List Nat → List Nat × Nat
  | [] => (posts, full)
  | t :: ts => match takeFirst (fun p => tagMatches p t) posts with
    | some (_, rest) => portAfter rest full ts
    | none => portAfter posts (full + 1) ts
/-- R268: the overflow queue of a port. -/
def portRoom : Nat := 64
/-- R268: a lane's SEND stalls: its port is full and no posted receive matches, once the messages on their way and those of the lanes before
it have come. -/
def State.sendWaits (s : State) (x : Fields) : List Lane → List Nat → Bool
  | [], _ => false
  | v :: vs, before =>
    match (s.memberGid v.g (v.r32 x.a).toNat).bind fun t => (s.group t).map fun g => (t, g) with
    | none => s.sendWaits x vs before
    | some (t, g) =>
      let coming := (s.mail.filter fun m => m.2.1 == t).map fun m => m.2.2.1.tag
      let r := portAfter (g.posts.map Post.tag) g.msgs.length (coming ++ List.replicate (before.filter (· == t)).length x.imm.toNat)
      (!(r.1.any fun p => tagMatches p x.imm.toNat) && decide (portRoom ≤ r.2)) || s.sendWaits x vs (t :: before)

/-- R267, R268: SEND is a release at gang scope; a message to a member that is gone is dropped and counted. -/
def Lane.send (v : Lane) (x : Fields) (s : State) : Act :=
  let m := (v.r32 x.a).toNat
  if v.g.gangSize ≤ m then .illegal
  else
    let s := s.drainAll
    match s.memberGid v.g m with
    | none => .done { s with mailDrops := satAdd s.mailDrops 1 }
    | some t =>
      let msg : Msg := { tag := x.imm.toNat, payload := v.r64 x.b, sender := v.g.member }
      .done { s with nextOp := s.nextOp + 1, mail := Store.put s.mail s.nextOp (t, msg, v.wid) }
def execSend (x : Fields) (s : State) :=
  issue (.send x) { specOf (.send x) (fun v s => v.send x s) with stall := fun s vs => releaseWaits s vs || s.sendWaits x vs [] } s

/-- R268: what a match writes: the payload, and for RECVW the tag and sender. -/
def State.deliverMsg (s : State) (p : Post) (gid : Nat) (m : Msg) (wid : DWord) : State :=
  let s := s.landDsts p.thread gid p.dst (wordsOf 2 m.payload.toNat)
  let s := match p.from? with
    | some d => s.landDst p.thread gid d (word (m.tag * 65536 + m.sender))
    | none => s
  match s.group gid with
  | none => s
  | some g =>
    let s := (s.progress g.ctx).invalidateCache g.core
    s.logChoice { ctx := g.ctx, kind := 3, head := s.logHead g.launch, who := (g.wid 0).toNat, x := m.tag + 65536 * m.sender,
                  y := wid.toNat }

/-- R268: RECV and RECVW in a lane; `from?` is the sender register of RECVW, whose thread waits. -/
def Lane.receive (v : Lane) (x : Fields) (from? : Option Dst) (s : State) : Act :=
  let g := (s.group v.th.gid).getD v.g
  let p : Post := { thread := v.key, tag := x.imm.toNat, dst := v.places 2 x.d, from? := from? }
  match takeFirst (fun m : Msg × DWord => tagMatches p.tag m.1.tag) g.msgs with
  | some (m, rest) =>
    .done ((s.updGroup v.th.gid fun g => { g with msgs := rest }).deliverMsg p v.th.gid m.1 m.2)
  | none =>
    let s := (s.updGroup v.th.gid fun g => { g with posts := g.posts ++ [p] }).pendDsts v.key v.th.gid (p.dst ++ from?.toList)
    if from?.isSome then .wait s .message else .done s
/-- R268: with 32 receives posted a receive that matches nothing stalls; the lanes before it post too. -/
def State.receiveWaits (s : State) (x : Fields) : List Lane → List (Msg × DWord) → Nat → Bool
  | [], _, _ => false
  | _ :: vs, msgs, posted =>
    match takeFirst (fun m : Msg × DWord => tagMatches x.imm.toNat m.1.tag) msgs with
    | some (_, rest) => s.receiveWaits x vs rest posted
    | none => decide (32 ≤ posted) || s.receiveWaits x vs msgs (posted + 1)
def receiveStall (x : Fields) (s : State) (vs : List Lane) : Bool :=
  let g := vs.head?.bind fun v => s.group v.th.gid
  s.receiveWaits x vs ((g.map Group.msgs).getD []) ((g.map fun g => g.posts.length).getD 0)
def execRecv (x : Fields) (s : State) :=
  issue (.recv x) { specOf (.recv x) (fun v s => v.receive x none s) with stall := receiveStall x } s
def execRecvw (x : Fields) (s : State) :=
  issue (.recvw x) { specOf (.recvw x) (fun v s => v.receive x (v.places 1 x.c).head? s) with stall := receiveStall x } s

/-- R268, R455: a message reaches its port, unless an earlier one of the same thread to the same port is still on its way, the port is
full, or replay holds it; whether it did. -/
def State.deliverMail (s : State) (msg : Nat) : State × Bool :=
  match Store.get s.mail msg with
  | none => (s, false)
  | some (gid, m, wid) =>
    match s.group gid with
    | none =>
      if s.saved.any fun v => v.gid == gid then (s, false)
      else ({ s with mail := Store.del s.mail msg, mailDrops := satAdd s.mailDrops 1 }, true)
    | some g =>
      let hit := takeFirst (fun p : Post => tagMatches p.tag m.tag) g.posts
      let behind := s.mail.any fun e => decide (e.1 < msg) && e.2.1 == gid && e.2.2.2 == wid && e.2.2.1.sender == m.sender
      if behind || (hit.isNone && decide (portRoom ≤ g.msgs.length)) then (s, false)
      else
        let t := s.takeTurn g.ctx (portStream (s.logHead g.launch) (g.wid 0).toNat)
          fun e => e.x == m.tag + 65536 * m.sender && e.y == wid.toNat
        if !t.2 then (t.1, false)
        else
          let s := { t.1 with mail := Store.del t.1.mail msg }
          match hit with
          | none => (s.updGroup gid fun g => { g with msgs := g.msgs ++ [(m, wid)] }, true)
          | some (p, rest) =>
            let s := (s.updGroup gid fun g => { g with posts := rest }).deliverMsg p gid m wid
            (if p.from?.isSome then s.retire p.thread else s, true)
/-- R269: messages on their way to groups that are about to be saved come to their ports. -/
def State.deliverFor (s : State) (gids : List Nat) : State :=
  ((s.mail.filter fun m => gids.contains m.2.1).map Prod.fst).foldl (fun s i => (s.deliverMail i).1) s
/-- MESSAGE_ARRIVAL (R268). -/
def execMessageArrival (msg : Nat) (s : State) : Host.Outcome State Fault Refusal :=
  let r := s.deliverMail msg
  if r.2 then happen r.1 else .next r.1

/-- R80, R105: TCW. -/
def Lane.timelineWait (v : Lane) (x : Fields) (s : State) : Act :=
  let n := (v.r64 x.b).toNat
  if n ≤ s.tcValue v.th.gid (x.immBits 1 0) then .done (s.invalidateCache v.core) else .wait s (.timeline (x.immBits 1 0) n)
def execTcw (x : Fields) (s : State) := issue (.tcw x) (specOf (.tcw x) fun v s => v.timelineWait x s) s
def execTcwT (x : Fields) (s : State) := issue (.tcwT x) (specOf (.tcwT x) fun v s =>
  let ok := decide ((v.r64 x.b).toNat ≤ s.tcValue v.th.gid (x.immBits 1 0))
  .done (v.wrPred (if ok then s.invalidateCache v.core else s) x.d ok)) s

/-- R82: the checks of a memory-resident timeline, then what is done with its word. -/
def Lane.timelineWord (v : Lane) (x : Fields) (s : State) (kind : AccessKind) (k : State → Xlat → Act) : Act :=
  let a := (v.r64 x.a).toNat
  if a % 8 ≠ 0 then .trap causeMisaligned a
  else v.access s a 8 kind fun s t => if t.kind ≠ 1 then .trapIn s causeTimeline a else k s t

/-- The value of a timeline's word in this module; a poisoned word reads as 0 (R425). -/
def State.timelineValue (s : State) (v : Lane) (t : Xlat) : State × Nat :=
  let r := s.performLoad v.core v.g.ctx v.key v.th.pc t 8 true
  (match r.2.2 with
    | some a => r.1.poisonLanded v.key a
    | none => r.1, ofBytes r.2.1)

/-- R82, R83: TLW waits until its word is at least n; `test` is the predicate of TLW.T, which does not wait. A word of a peer
must be fetched from it. -/
def Lane.watch (v : Lane) (x : Fields) (test : Option Nat) (s : State) : Act :=
  v.timelineWord x s .load fun s t =>
    let n := (v.r64 x.b).toNat
    let wait : Wait := .word (v.r64 x.a).toNat n (x.imm.getLsbD 0 && test.isNone) t.peer.isSome test
    if t.peer.isSome then .wait s wait
    else
      let r := s.timelineValue v t
      let ok := decide (n ≤ r.2)
      let s := if ok then r.1.invalidateCache v.core else r.1
      match test with
      | some p => .done (s.updThread v.key fun th => th.setPred p ok)
      | none => if ok then .done s else .wait s wait
def execTlw (x : Fields) (s : State) := issue (.tlw x) (specOf (.tlw x) fun v s => v.watch x none s) s
def execTlwT (x : Fields) (s : State) := issue (.tlwT x) (specOf (.tlwT x) fun v s => v.watch x (some x.d.toNat) s) s

/-- TLW_CHANGE_NOTICED (R83): a waiting thread looks at its word again; a peer's word is at the inputs. -/
def execTlwChangeNoticed (thread : Nat) (s : State) : Host.Outcome State Fault Refusal :=
  match s.lanesOf [thread] with
  | some [v] =>
    match v.th.st with
    | .waiting (.word a n host peer test) =>
      let finish (s : State) (value : Nat) : Host.Outcome State Fault Refusal :=
        let ok := decide (n ≤ value)
        let s := if ok then s.invalidateCache v.core else s
        match test with
        | some p => happen ((s.updThread thread fun th => th.setPred p ok).retire thread)
        | none => if ok then happen (s.retire thread) else .next s
      if peer then
        if s.inputs.peer.data.length = 8 then finish s (ofBytes s.inputs.peer.data) else .next s
      else
        let r := s.lookup (dataUnit v.core (quadOf thread)) v.core v.g.ctx a .load
        match r.2 with
        | none => happen (r.1.awaitPage thread a .load 8)
        | some t =>
          if t.peer.isSome then happen (r.1.waitIn thread (.word a n host true test))
          else let q := r.1.timelineValue v t; finish q.1 q.2
    | _ => .next s
  | _ => .next s

/-- R82: TLADV raises its word as one atomic at the home slice, after everything earlier of the thread. -/
def Lane.tladvance (v : Lane) (x : Fields) (s : State) : Act :=
  v.timelineWord x s .atomic fun s t =>
    let s := s.drainAll
    let va := (v.r64 x.a).toNat
    let data := toBytes 8 (v.r64 x.b).toNat
    match t.peer with
    | some m =>
      .done ({ s with sent := .peerAtomic m t.pa 4 data [] :: s.sent }.awaitPeer v.key v.th.gid (s.peerPort m t.pa) t.kind
        { v.blankAccess .atomic 8 0 with va := va, size := 8, data := data, code := 4, ordered := true })
    | none =>
      if s.bridgeCut v.core t.pa then .done s
      else
        let old := ofBytes (s.bytesAt t.cmp t.pa 8)
        let s := (s.dropCopies v.core t.pa 8).request v.core
          { pa := t.pa, size := 8, code := 4, data := data, cas := [], ra := false, returns := false, op := 0, off := 0,
            cmp := t.cmp, ctx := v.g.ctx, launch := v.g.launch, who := v.wid, va := va, cl := t.cl, wp := t.wp, ep := t.ep }
        let s := s.drainFor t.pa 8
        .done (if !s.isPoisoned t.pa 8 && decide (old < (v.r64 x.b).toNat) then s.progress v.g.ctx else s)
def execTladv (x : Fields) (s : State) :=
  issue (.tladv x) { specOf (.tladv x) (fun v s => v.tladvance x s) with stall := releaseWaits } s

def Lane.barrier (v : Lane) (s : State) (x : Fields) : Option Barrier :=
  (s.group v.th.gid).bind fun g => Store.get g.bars (x.immBits 3 0)
def State.setBarrier (s : State) (gid n : Nat) (b : Barrier) : State := s.updGroup gid fun g => { g with bars := Store.put g.bars n b }

/-- R272: BARI. -/
def Lane.barrierInit (v : Lane) (x : Fields) (s : State) : Act :=
  let n := (v.r32 x.a).toNat
  let busy := ((v.barrier s x).map fun b => b.arrivals != 0).getD false
  if n = 0 || v.g.threads < n || busy then .illegal
  else .done (s.setBarrier v.th.gid (x.immBits 3 0) { expected := n, arrivals := 0, phase := 0 })
def execBari (x : Fields) (s : State) := issue (.bari x) (specOf (.bari x) fun v s => v.barrierInit x s) s

/-- R274, R105: a waiting BARW returns. -/
def State.leaveBarrier (s : State) (key gid pred : Nat) (dst : Dst) (lapped : Bool) (phase : Word) : State :=
  (((s.updThread key fun th => th.setPred pred lapped).putDst key gid dst phase).invalidateCache (coreOf key)).retire key
/-- R274: the waiters of a phase return as the barrier leaves it. -/
def State.wakeBarrier (s : State) (gid bar : Nat) (token : Word) : State :=
  s.threads.foldl (fun s e => match e.2.st with
    | .waiting (.barrier b t pred dst) =>
      if e.2.gid == gid && b == bar && t == token then s.leaveBarrier e.1 gid pred dst false (token + 1) else s
    | _ => s) s
/-- R274: a BARW that a restored thread waits in is evaluated again. -/
def State.reviewBarrier (s : State) (key : Nat) : State :=
  match Store.get s.threads key with
  | none => s
  | some th => match th.st with
    | .waiting (.barrier b t pred dst) =>
      match (s.group th.gid).bind fun g => Store.get g.bars b with
      | some u => if u.phase = t then s else s.leaveBarrier key th.gid pred dst (u.phase - t != 1) u.phase
      | none => s
    | _ => s

/-- R273, R455: BARA; in REPLAY an arrival waits for its turn. -/
def Lane.arrive (v : Lane) (x : Fields) (s : State) : Act :=
  match v.barrier s x with
  | none => .illegal
  | some _ =>
    let n := x.immBits 3 0
    let t := s.takeTurn v.g.ctx (barrierStream v.g (s.logHead v.g.launch) n) fun e => e.who == v.wid.toNat
    if !t.2 then .wait t.1 (.stall t.1.moves .issue)
    else
      match v.barrier t.1 x with
      | none => .illegal
      | some b =>
        let s := v.wr32 t.1.drainAll x.d b.phase
        let s := s.logChoice { ctx := v.g.ctx, kind := 7, head := s.logHead v.g.launch, who := v.wid.toNat, x := n, y := b.phase.toNat }
        if b.arrivals + 1 = b.expected then
          .done ((s.setBarrier v.th.gid n { b with arrivals := 0, phase := b.phase + 1 }).wakeBarrier v.th.gid n b.phase)
        else .done (s.setBarrier v.th.gid n { b with arrivals := b.arrivals + 1 })
def execBara (x : Fields) (s : State) := issue (.bara x) { specOf (.bara x) (fun v s => v.arrive x s) with stall := fencingWaits } s

/-- R274: BARW. -/
def Lane.barrierWait (v : Lane) (x : Fields) (s : State) : Act :=
  match v.barrier s x with
  | none => .illegal
  | some b =>
    let token := v.r32 x.a
    let d := b.phase - token
    if d = 0 then .wait s (.barrier (x.immBits 3 0) token x.d.toNat ((v.places 1 x.c).headD .zero))
    else .done (v.wr32 (v.wrPred (s.invalidateCache v.core) x.d (d != 1)) x.c b.phase)
def execBarw (x : Fields) (s : State) := issue (.barw x) { specOf (.barw x) (fun v s => v.barrierWait x s) with stall := fencingWaits } s

end Sys2Proof.Machine
end

