-- ==== Sys2Proof/Machine/Group.lean ====
section
/-!
DEFINITION. The ends of threads and groups (R119, R209, R378), the tile walker's answers (R214, R455), the thresher slot (R131), and
what a group leaves behind when it is removed (R398, R402, R446).
-/
namespace Sys2Proof.Machine

/-- No group of a gang is resident or saved. -/
def State.gangGone (s : State) (launch gang : Nat) : Bool :=
  !(s.groups.any fun e => e.2.inGang launch gang) && !(s.saved.any fun v => v.group.inGang launch gang)

/-- R400: the threads of a gang may issue: its context runs, and no save of it has begun. -/
def State.running (s : State) (g : Group) : Bool :=
  (match (Store.get s.ctxs g.ctx).map Ctx.st with
    | some .active => true
    | some .stopping => true
    | _ => false) &&
  !(s.gangStops.any fun t => g.inGang t.launch t.gang && t.saving)

/-- Whether a copy still waits for a slot of its queue (R76, R81). A BCPM takes its slot at issue (R77). -/
def AOp.waitsSlot (o : AOp) : Bool :=
  match o.kind with
  | .copy c => c.form == 3 && c.slot.isNone
  | _ => false

/-- The thread keys of a group, the thresher slot's included. -/
def State.threadsOf (s : State) (gid : Nat) : List Nat := (s.threads.filter fun e => e.2.gid == gid).map Prod.fst

/-- Threads leave the module: their slots are free, and nothing answers to them any more. A copy engine's waiter names a copy. -/
def State.dropThreads (s : State) (ks : List Nat) : State :=
  let clean (ms : List Miss) : List Miss := ms.map fun m =>
    { m with waiters := m.waiters.filter fun w => decide (3000 ≤ w.unit) || !ks.contains w.thread }
  { s with threads := s.threads.filter fun (e : Nat × Thread) => !ks.contains e.1, claims := s.claims.filter fun c => !ks.contains c.thread,
           enroute := clean s.enroute, misses := clean s.misses }

/-- The group's record, its threads, its thresher service and its scoreboard entries are gone; stores that these held are performed. -/
def State.dropGroup (s : State) (gid : Nat) : State :=
  let s := s.dropThreads (s.threadsOf gid)
  let s : State := { s with
    groups := Store.del s.groups gid
    thresher := s.thresher.filter fun (e : Nat × Nat) => e.2 != gid
    board := s.board.filter fun e => e.gid != gid
    pushWaited := s.pushWaited.filter (· != gid) }
  s.releaseSts

/-- R446: the copies of a lost group into global memory run to completion; nothing else of it does. For a discarded context they write no
record (R398). -/
def State.loseGroup (s : State) (quiet : Bool) (gid : Nat) : State :=
  let mine := s.ops.filter fun e => e.2.gid == gid
  let s := mine.foldl (fun s e => match e.2.kind with
    | .copy c => if c.dstG then s.runCopy e.1 e.2 c [] 0 quiet else s
    | _ => s) s
  { s with ops := s.ops.filter fun (e : Nat × AOp) => e.2.gid != gid, board := s.board.filter fun b => !(mine.any fun e => e.1 == b.op) }.dropGroup gid

/-- R396: a gang none of whose groups is left counts towards its launch's completion. -/
def State.finishGang (s : State) (launch gang : Nat) : State :=
  if s.gangGone launch gang then
    { s with gangStops := s.gangStops.filter fun t => !(t.launch == launch && t.gang == gang),
             launches := Store.upd s.launches launch fun l => { l with finished := l.finished + 1 } }
  else s

/-- R119, R378: a draining thread has nothing in flight. -/
def State.drained (s : State) (key : Nat) (th : Thread) : Bool :=
  th.st == .draining && th.pend.isEmpty && th.kept.isEmpty && !s.fencing key
/-- THREAD_DRAIN_END (R119, R209): the last pending write of a draining thread has landed. A thresher slot that has stopped is free for
its next group (R133). -/
def execThreadDrainEnd (thread : Nat) (s : State) : Host.Outcome State Fault Refusal :=
  match Store.get s.threads thread with
  | none => .next s
  | some th =>
    if !s.drained thread th then .next s
    else happen (if isThresher thread then { s with threads := Store.del s.threads thread } else s.freeThread thread th.gid)

/-- R131: the thresher slot's own pending operations have completed. -/
def State.thresherQuiet (s : State) (gid : Nat) (g : Group) : Bool :=
  match Store.get s.threads (thresherKey g.core) with
  | some th => th.gid != gid || (th.pend.isEmpty && th.kept.isEmpty)
  | none => true
/-- R378: every thread of a group is free and everything that it issued has been performed. -/
def State.groupDone (s : State) (gid : Nat) (g : Group) : Bool :=
  g.live == 0 && !(s.ops.any fun o => o.2.gid == gid) && s.thresherQuiet gid g
/-- R447: whether a group's gang has been aborted. -/
def State.aborted (s : State) (g : Group) : Bool := ((Store.get s.launches g.launch).map fun l => l.noted.contains g.gang).getD false

/-- R214, R454: a claim is answered with tile n: the predicate and the pair are written, and the thread goes on. -/
def State.answerClaim (s : State) (c : Claim) (l : Launch) (n : Nat) : State :=
  match Store.get s.threads c.thread with
  | none => s
  | some th =>
    let who := (s.widOf c.thread th.gid).toNat
    let s := { s with claims := s.claims.filter fun d => d.thread != c.thread,
                      launches := Store.put s.launches c.launch { l with walker := if n < l.tiles then n + 1 else l.walker } }
    let s := s.logChoice { ctx := l.ctx, kind := 1, head := s.logHead c.launch, who := who, x := n, y := 0 }
    let s := (s.updThread c.thread fun th => th.setPred c.pred (decide (n < l.tiles))).putDsts c.thread th.gid c.dst (wordsOf 2 n)
    s.retire c.thread

/-- TWNX_ANSWER (R214, R455): claims of a launch are answered in their order of arrival; replay answers them as recorded. -/
def execTwnxAnswer (thread : Nat) (s : State) : Host.Outcome State Fault Refusal :=
  match s.claims.find? (fun c => c.thread == thread), (Store.get s.threads thread) with
  | some c, some th =>
    match Store.get s.launches c.launch with
    | none => .next s
    | some l =>
      let r := s.nextRecord l.ctx (walkerStream (s.logHead c.launch))
      match r.2 with
      | some (j, e) =>
        if e.who = (s.widOf thread th.gid).toNat then happen ((r.1.consume l.ctx j).answerClaim c l e.x) else .next r.1
      | none =>
        if ((s.claims.find? fun d => d.launch == c.launch).map Claim.thread) == some thread then
          happen (r.1.answerClaim c l (min l.walker l.tiles))
        else .next r.1
  | _, _ => .next s

/-- R132: the thread of the thresher slot as it begins a group. -/
def thresherThread (gid entry now : Nat) : Thread where
  gid := gid
  tid := 0xFFFFFFFF
  st := .ready
  pc := entry
  words := 32
  stack := []
  wb := 0
  sb := 0
  preds := 0
  fflags := 0
  wsp := 0
  errst := 0
  tcause := 0
  tepc := 0
  tval := 0
  clkHi := 0
  sheaf := none
  susp := none
  pend := []
  bad := []
  weak := []
  kept := []
  ahead := 0
  late := none
  since := now
  reload := false
  peerBuf := []
  wordBuf := []
  heldBy := none

/-- R131: of the groups of a core that name a thresher body, the one placed first. -/
def State.nextServed (s : State) (core : Nat) : Option (Nat × Group) :=
  (s.groups.filter fun e => e.2.core == core && e.2.thr.isSome).foldl (fun best e => match best with
    | none => some e
    | some b => if e.2.placed < b.2.placed then some e else some b) none
/-- R131: the slot begins the next group when it serves none. -/
def State.beginThresher (s : State) (core : Nat) : State :=
  if (Store.get s.thresher core).isSome then s
  else
    match s.nextServed core with
    | none => s
    | some (gid, g) =>
      let s := { s with thresher := Store.put s.thresher core gid }
      s.setThread (thresherKey core) (thresherThread gid ((g.thr.map Prod.fst).getD 0) s.now)

/-- R107: a thread that may issue at this move. -/
def Thread.mayIssue (th : Thread) (moves : Nat) : Bool :=
  match th.st with
  | .ready => true
  | .waiting (.stall n _) => decide (n < moves)
  | _ => false

/-- R442: the end of a heartbeat period, 1,100 core clocks, has come. -/
def State.periodDue (s : State) : Bool := s.ready && decide (s.epoch + 1100 * (s.periods + 1) ≤ s.now)
/-- THRESHER_ISSUE (R131): the slot's next instruction is chosen; the step that follows issues it. The slot stops when the served group's
last thread has exited. Nothing issues at a boundary of periods before the fences made there (R457). -/
def execThresherIssue (core : Nat) (s : State) : Host.Outcome State Fault Refusal :=
  let s := s.beginThresher core
  match Store.get s.threads (thresherKey core) with
  | none => .next s
  | some th =>
    match s.group th.gid with
    | none => .next s
    | some g =>
      if th.mayIssue s.moves && s.running g && decide (0 < g.live) && !s.periodDue then
        .next { s with gather := some { core := core, quad := 0, lanes := [thresherKey core] }, armed := true }
      else .next s

end Sys2Proof.Machine
end

