-- ==== Sys2Proof/Machine/Command.lean ====
section
/-!
DEFINITION. Command queues (R384 to R389), the task graph (R394, R395), launches (R390 to R393, R396, R410) and pipelines (R403).
-/
namespace Sys2Proof.Cmd
open Sys2Proof.Machine

/-- R387: the fields of the header, and a field of the body. -/
def opc (c : Cmd) : Nat := field c.bytes 0 1
def evc (c : Cmd) : Bool := (field c.bytes 1 1).testBit 0
def graph (c : Cmd) : Bool := (field c.bytes 1 1).testBit 1
def bar (c : Cmd) : Bool := (field c.bytes 1 1).testBit 2
def ctx (c : Cmd) : Nat := field c.bytes 2 2
def node (c : Cmd) : Nat := field c.bytes 4 2
def pred (c : Cmd) : Nat := field c.bytes 6 2
def at' (c : Cmd) (o n : Nat) : Nat := field c.bytes o n
/-- R390, R394: the four successors. -/
def succ (c : Cmd) : List Nat := (List.range 4).map fun i => c.at' ((if c.opc = 1 then 40 else 8) + 2 * i) 2

/-- R387, R388: the status of the header alone, and of a record that is not 64 bytes long; 0 when it breaks no rule. -/
def headerStatus (c : Cmd) : Nat :=
  if c.opc = 0 || 0x0F < c.opc || (c.graph && 2 < c.opc) then 1
  else if c.bytes.length ≠ 64 || 8 ≤ c.at' 1 1 || 512 ≤ c.ctx || (c.graph && decide (16384 ≤ c.node)) ||
      (!c.graph && (c.node != 0 || c.pred != 0)) then 2
  else 0

end Sys2Proof.Cmd

namespace Sys2Proof.Machine

/-- A tenant's command queue. -/
def State.cmdQ (s : State) (t q : Nat) : Option CmdQ := Store.get (s.tenant t).queues q
def State.updCmdQ (s : State) (t q : Nat) (f : CmdQ → CmdQ) : State :=
  s.setTenant t { s.tenant t with queues := Store.upd (s.tenant t).queues q f }

/-- R388, R398: the context is one that the management interface assigns to the tenant. -/
def State.ownsCtx (s : State) (t c : Nat) : Bool :=
  let v := s.tenant t
  decide (v.ctxFirst ≤ c) && decide (c < v.ctxFirst + v.ctxCount)
/-- R7, R426: the context that an error found for a record is charged to: 512, no context, unless the record names one of its own tenant. -/
def State.ownedCtx (s : State) (c : Cmd) : Nat :=
  if ((Store.get s.ctxs c.ctx).map Ctx.tenant) == some c.tenant then c.ctx else 512
/-- R389, R399: the tenant's context, loaded and in a state that a command allows. -/
def State.ctxReady (s : State) (c : Cmd) (ok : CtxState → Bool) : Bool :=
  s.ownsCtx c.tenant c.ctx && ((Store.get s.ctxs c.ctx).map fun x => ok x.st).getD false
def State.ownsNode (s : State) (t n : Nat) : Bool :=
  let v := s.tenant t
  decide (v.nodeFirst ≤ n) && decide (n < v.nodeFirst + v.nodeCount)

/-- R387, R394: nothing holds a record back: under BAR every earlier record of its queue has completed, and its node's counter is 0. -/
def State.recordReady (s : State) (c : Cmd) : Bool :=
  (!c.bar || !(((s.cmdQ c.tenant c.queue).map CmdQ.running).getD []).any fun i => decide (i < c.index)) &&
  (!c.graph || ((Store.get s.nodes c.node).map fun n => n.counter == 0).getD true)

/-- R389: a record is completed or refused, with its event frame. -/
def State.closeRecord (s : State) (c : Cmd) (status : Nat) : State :=
  let s := s.updCmdQ c.tenant c.queue fun q => { q with running := q.running.filter (· != c.index),
                                                        waiting := q.waiting.filter fun w => w.index != c.index }
  if status ≠ 0 || c.evc then
    s.sendEvent c.tenant 1 status c.queue c.ctx (if c.graph then c.node else 0xFFFF) c.index 0 else s

/-- R395: one decrement of a successor; one that names no waiting node of the tenant is a graph error. -/
def State.decrement (s : State) (c : Cmd) (n : Nat) : State :=
  if n = 0xFFFF then s
  else
    match (if s.ownsNode c.tenant n then Store.get s.nodes n else none) with
    | some d =>
      if 0 < d.counter then { s with nodes := Store.put s.nodes n { d with counter := d.counter - 1 } } else bad s
    | none => bad s
where
  bad (s : State) : State :=
    { s with graphErrors := satAdd s.graphErrors 1 }.sendEvent c.tenant 3 0 c.queue c.ctx n c.index 0

/-- R394, R395: a LAUNCH or RELAY completes: its successors are decremented in order and its node frees. -/
def State.closeNode (s : State) (c : Cmd) : State :=
  let s := c.succ.foldl (fun s n => s.decrement c n) s
  if c.graph then { s with nodes := Store.del s.nodes c.node } else s

/-- R395, R399: a launch is ready, and its context Active. -/
def State.readyLaunch (s : State) (c : Cmd) : State :=
  let s := { s with launches := s.launches.map fun (e : Nat × Launch) =>
    (e.1, if e.2.record == c && e.2.ready.isNone then { e.2 with ready := some s.now } else e.2) }
  s.updCtx c.ctx fun x => if x.st = .idle then { x with st := .active, entered := s.now } else x

/-- What comes next for a record that waits no longer. -/
def State.startRecord (s : State) (c : Cmd) : State :=
  let s := s.updCmdQ c.tenant c.queue fun q => { q with waiting := q.waiting.filter fun w => w.index != c.index }
  match c.opc with
  | 1 => s.readyLaunch c
  | 2 => (s.closeNode c).closeRecord c 0
  | _ => match decodeRecord c.bytes with
      | some i => { s with agenda := s.agenda ++ [(i, { s.inputs with record := c })] }
      | none => s

/-- The records that wait, over all tenants and queues. -/
def State.waitingRecords (s : State) : List Cmd := s.tenants.flatMap fun t => t.2.queues.flatMap fun q => q.2.waiting
/-- Start every record that nothing holds back any more; a RELAY may free others (R394). -/
def State.wakeRecords : Nat → State → State
  | 0, s => s
  | fuel + 1, s =>
    match s.waitingRecords.find? fun c => s.recordReady c with
    | some c => State.wakeRecords fuel (s.startRecord c)
    | none => s
/-- R387, R389: a record ends, and the records that it held back start. -/
def State.finishRecord (s : State) (c : Cmd) (status : Nat) : State :=
  let s := s.closeRecord c status
  s.wakeRecords s.waitingRecords.length

/-- A record either starts now or waits. -/
def State.enterRecord (s : State) (c : Cmd) : State :=
  let s := s.updCmdQ c.tenant c.queue fun q => { q with waiting := q.waiting ++ [c] }
  s.wakeRecords s.waitingRecords.length

/-- R386: a lap: the records lost are counted, and taking resumes behind them. -/
def State.lapQueue (s : State) (t q : Nat) (v : CmdQ) (widx : Nat) : State :=
  let lost := widx - 2 ^ v.k - v.ridx
  let old := ofBytes (s.rawRead (v.ctrl + 16) 8).2.1
  let s := s.rawWrite (v.ctrl + 16) (toBytes 8 (min (old + lost) (2 ^ 64 - 1)))
  let s := s.rawWrite (v.ctrl + 24) [(s.rawRead (v.ctrl + 24) 1).2.1.headD 0 ||| 1]
  let s := s.rawWrite (v.ctrl + 8) (toBytes 8 (widx - 2 ^ v.k))
  (s.updCmdQ t q fun v => { v with ridx := widx - 2 ^ v.k }).sendEvent t 2 0 q 0 0xFFFF (widx - 2 ^ v.k) lost

/-- R385: take the next record of a queue. -/
def State.takeRecord (s : State) (t q : Nat) (v : CmdQ) : State :=
  let r := s.rawRead (v.base + 64 * (v.ridx % 2 ^ v.k)) 64
  let c : Cmd := { tenant := t, queue := q, index := v.ridx, bytes := r.2.1 }
  let s := r.1.rawWrite (v.ctrl + 8) (toBytes 8 (v.ridx + 1))
  let s := s.updCmdQ t q fun v => { v with ridx := v.ridx + 1, running := v.running ++ [v.ridx] }
  let status := if r.2.2 then 4 else c.headerStatus
  if status ≠ 0 then (if r.2.2 then s.countPoison (v.base + 64 * (v.ridx % 2 ^ v.k)) 64 0xFFFF (s.ownedCtx c) none 0 else s).finishRecord c status
  else if c.opc ≤ 2 then
    match decodeRecord c.bytes with
    | some i => { s with agenda := s.agenda ++ [(i, { s.inputs with record := c })] }
    | none => s
  else s.enterRecord c

/-- WIDX_NOTICE (R385, R386): a change of WIDX is noticed: a lap first, then the next record; the event comes again for each. -/
def execWidxNotice (tenant queue : Nat) (s : State) : Host.Outcome State Fault Refusal :=
  match s.cmdQ tenant queue with
  | none => .next s
  | some v =>
    let r := s.rawRead v.ctrl 8
    let widx := if r.2.2 then 0 else ofBytes r.2.1
    if widx ≤ v.ridx then .next s
    else
      let s := if 2 ^ v.k < widx - v.ridx then r.1.lapQueue tenant queue v widx else r.1
      match s.cmdQ tenant queue with
      | some v => happen (s.takeRecord tenant queue v)
      | none => .next s

/-- The record at the inputs is one of the opcode. -/
def State.recordIs (s : State) (opc : Nat) : Bool := s.inputs.record.opc == opc
/-- A command that is refused, or acts and completes. -/
def State.command (s : State) (opc : Nat) (check : Cmd → Nat) (act : Cmd → State → State) : Host.Outcome State Fault Refusal :=
  let c := s.inputs.record
  if !s.recordIs opc then .next s
  else
    let status := if c.headerStatus ≠ 0 then c.headerStatus else check c
    if status ≠ 0 then happen (s.finishRecord c status) else happen (act c s)
/-- The first status of a list that is not 0: where several hold, the lowest number is reported. -/
def firstStatus (l : List Nat) : Nat := (l.find? (· != 0)).getD 0
def failing (b : Bool) (n : Nat) : Nat := if b then n else 0

/-- R394: the node of a record is the tenant's and Free. -/
def State.nodeStatus (s : State) (c : Cmd) : Nat :=
  failing (c.graph && !(s.ownsNode c.tenant c.node && (Store.get s.nodes c.node).isNone)) 5
/-- R394: a record occupies its node. -/
def State.occupy (s : State) (c : Cmd) : State :=
  if c.graph then { s with nodes := Store.put s.nodes c.node { counter := c.pred, record := c } } else s

/-- RELAY (R394). -/
def execRelay (s : State) : Host.Outcome State Fault Refusal :=
  s.command 2 (fun c => firstStatus [failing (!zeros c.bytes 16 64) 2, failing (!s.ownsCtx c.tenant c.ctx) 3, s.nodeStatus c])
    fun c s => (s.occupy c).enterRecord c

/-- R398: window and offset bytes of a tenant, read raw; none unless the window is enabled, grants bit `right`, holds all of them,
and no sector is poisoned. -/
def State.windowAddr (s : State) (t w right off n : Nat) : Option Nat :=
  let d := (s.tenant t).window w
  if w < 16 && d.getLsbD 0 && d.getLsbD right && off + n ≤ windowLen d then some (windowBase d + off) else none

/-- Bytes read by the module through a context's translation: none when a piece fails or finds bad data, with what peers send at `peer`. -/
def State.readVirtual : Nat → State → Nat → Nat → Nat → List Byte → State × Option (List Byte)
  | 0, s, _, _, _, _ => (s, some [])
  | fuel + 1, s, ctx, va, n, peer =>
    if n = 0 then (s, some [])
    else if !(((Store.get s.ctxs ctx).map fun c => c.canonical va).getD false) then (s, none)
    else
      let m := min n (4096 - va % 4096)
      let r := s.engineXlat 0 ctx va .load
      let rest (s : State) (bs peer : List Byte) : State × Option (List Byte) :=
        let q := State.readVirtual fuel s ctx (va + m) (n - m) peer
        (q.1, q.2.map fun more => bs ++ more)
      match r.2 with
      | .error _ => (r.1, none)
      | .ok x =>
        match x.peer with
        | some p => if r.1.reachable p then rest r.1 (peer.take m) (peer.drop m) else (r.1, none)
        | none =>
          let q := r.1.readPage (moduleAsker 0 ctx) x m
          match q.2 with
          | .bytes bs => rest q.1 bs peer
          | _ => (q.1, none)

/-- R9: the cores of a module region, ascending. -/
def regionCores (r : Nat) : List Nat :=
  let base := r / 12 * 96 + r % 12 / 3 * 24 + r % 3 * 4
  [base, base + 1, base + 2, base + 3, base + 12, base + 13, base + 14, base + 15]
def State.fenced (s : State) (core : Nat) : Bool := ((Store.get s.vote core).map TileVote.fenced).getD false
/-- R410: the most cores that are not fenced in one region. -/
def State.widestRegion (s : State) : Nat :=
  ((List.range 24).map fun r => ((regionCores r).filter fun c => !s.fenced c).length).foldl max 0

namespace Launch

/-- R391: the fields of the header. -/
def code (l : Launch) : Nat := l.hdr 0 8
def part (l : Launch) : Nat := l.hdr 8 4
def threads (l : Launch) : Nat := l.hdr 12 2
def stackWords (l : Launch) : Nat := l.hdr 14 2
def scratch (l : Launch) : Nat := l.hdr 16 4
def tileCount (l : Launch) : Nat := l.hdr 20 1
def gangSize (l : Launch) : Nat := l.hdr 21 1
def persistent (l : Launch) : Bool := (l.hdr 22 1).testBit 0
def isStage (l : Launch) : Bool := (l.hdr 23 1).testBit 7
def slot (l : Launch) : Nat := bits (l.hdr 23 1) 6 4
def stage (l : Launch) : Nat := bits (l.hdr 23 1) 2 0
def widths (l : Launch) : List Nat := (List.range 6).map fun i => bits (l.hdr 24 8) (6 * i + 5) (6 * i)
def prod (l : Launch) : Option (Nat × Nat) := if l.hdr 40 4 = 0xFFFFFFFF then none else some (l.hdr 40 2, l.hdr 42 2)
def thr (l : Launch) : Option (Nat × Nat) :=
  if l.hdr 44 4 = 0 then none
  else some (l.code + 8 * l.hdr 44 3, if l.hdr 47 1 = 0 then 256 else l.hdr 47 1)
def queueWord (l : Launch) (n : Nat) : Nat := l.hdr (192 + 8 * n) 8
def barrierWord (l : Launch) (n : Nat) : Nat := l.hdr (320 + 4 * n) 4
def npool (l : Launch) : Nat := l.record.at' 28 4

/-- R85: the units of a partition word. -/
def regu (l : Launch) : Nat := bits l.part 7 0
def spu (l : Launch) : Nat := bits l.part 15 8
def accu (l : Launch) : Nat := bits l.part 23 16
/-- R87: the granules of the three allocations. -/
def regNeed (l : Launch) : Nat := ceilDiv (l.threads * l.stackWords * 4) 1024
def spNeed (l : Launch) : Nat := ceilDiv l.scratch 1024
def accNeed (l : Launch) : Nat := l.tileCount * 64
/-- R87, R106, R177: a group fits an idle core. -/
def fitsIdle (l : Launch) : Bool := decide (l.regNeed ≤ l.regu * 16) && decide (l.spNeed ≤ l.spu * 16) && decide (l.accNeed ≤ l.accu * 16)

/-- R73, R77, R391: a queue entry of the header. -/
def queueOk (l : Launch) (w : Nat) : Bool :=
  let size := bits w 37 21
  let n := bits w 44 38
  bits w 62 49 == 0 && (!w.testBit 63 ||
    (size % 16 == 0 && decide (16 ≤ size) && decide (size ≤ 65536) && decide (1 ≤ n) && decide (n ≤ 64) &&
     decide (bits w 20 0 + n * size ≤ 1024 * l.spNeed) && decide (bits w 48 46 < l.gangSize) && (!w.testBit 45 || decide (1 < l.gangSize))))
/-- R85, R108, R176: the sizes. -/
def sizesOk (l : Launch) : Bool :=
  bits l.part 31 24 == 0 && decide (1 ≤ l.regu) && decide (l.regu ≤ 128) && decide (l.spu ≤ 128) && l.accu % 4 == 0 && decide (l.accu ≤ 64) &&
  decide (l.regu + l.spu + l.accu ≤ 128) && decide (1 ≤ l.threads) && decide (l.threads ≤ 2048) && l.stackWords % 16 == 0 &&
  decide (64 ≤ l.stackWords) && decide (l.stackWords ≤ 256) && decide (l.scratch ≤ 2097152) && decide (l.tileCount ≤ 16) &&
  decide (1 ≤ l.gangSize) && decide (l.gangSize ≤ 8)
/-- R176, R392: the widths and extents. -/
def widthsOk (l : Launch) : Bool :=
  let w (i : Nat) : Nat := l.widths.getD i 0
  bits (l.hdr 24 8) 63 36 == 0 && decide (l.widths.foldl (· + ·) 0 ≤ 64) && decide (l.threads ≤ 2 ^ w 0) && decide (w 0 ≤ 11) && decide (w 1 ≤ 3) &&
  (w 1 == 0 || l.gangSize != 1) && decide (l.gangSize ≤ 2 ^ w 1) &&
  (l.extents.zipIdx.all fun p => p.1 != 0 && decide (p.1 ≤ 2 ^ w (p.2 + 2)))
/-- R392: the fields that need nothing but the header and the record. -/
def headerOk (l : Launch) : Bool :=
  l.sizesOk && l.widthsOk && l.code % 8 == 0 && decide (l.hdr 22 1 < 4) && !(l.hdr 23 1).testBit 3 &&
  (l.prod.map fun p => decide (p.1 ≤ p.2) && decide (p.2 < l.threads)).getD true &&
  zeros l.header 66 128 && zeros l.header 384 512 &&
  ((List.range 16).all fun n => l.queueOk (l.queueWord n)) &&
  ((List.range 16).all fun n => decide (l.barrierWord n ≤ l.threads)) &&
  (!l.isStage || l.gangSize == 1) && ((l.hasWalker || l.isStage) == (l.npool != 0))
/-- R331: a stage-3 kernel of a graphics pipeline has a q0 of slots of at least 144 bytes. -/
def coverQueue (l : Launch) : Bool := (l.queueWord 0).testBit 63 && decide (144 ≤ bits (l.queueWord 0) 37 21)

end Launch

/-- R331, R392: a stage launch names a code stage of a declared pipeline. -/
def Ctx.stageOk (c : Ctx) (l : Launch) : Bool :=
  !l.isStage || match Store.get c.pipes l.slot with
    | none => false
    | some p => decide (l.stage < p.mins.length) &&
        (!p.gfx || ((l.stage == 0 || l.stage == 3 || l.stage == 4) && (l.stage != 3 || l.coverQueue)))
/-- R403: a stage launch for a code stage is in progress. -/
def State.stageBusy (s : State) (ctx slot : Nat) (stage : Option Nat) : Bool :=
  s.launches.any fun e => e.2.ctx == ctx && e.2.isStage && e.2.slot == slot && (stage.isNone || stage == some e.2.stage)

/-- R390: the body of a LAUNCH. -/
def launchBodyOk (c : Cmd) : Bool :=
  c.at' 8 8 % 64 == 0 && c.at' 16 8 % 4 == 0 && decide (c.at' 24 2 ≤ 1024) && zeros c.bytes 26 28 && decide (c.at' 28 4 ≤ 2 ^ 24) &&
  zeros c.bytes 48 64

/-- R391, R393: the launch that a record with its header and arguments asks for. -/
def launchOf (s : State) (c : Cmd) (header args : List Byte) : Launch :=
  let l : Launch :=
    { ctx := c.ctx, record := c, header := header, args := (List.range (c.at' 24 2)).map fun i => word (field args (4 * i) 4), gangs := 0,
      next := 0, finished := 0, ready := none, walker := 0, passes := [], claims := [], noted := [],
      seed := dword (c.at' 32 8) ^^^ (if s.mode c.ctx = 1 then dword s.now else 0), status := 0 }
  { l with gangs := if l.hasWalker || l.isStage then l.npool else l.tiles }

/-- R389, R392, R403, R410: the status of a launch whose header and arguments have been read. -/
def State.launchStatus (s : State) (c : Cmd) (l : Launch) : Nat :=
  let x := Store.get s.ctxs c.ctx
  firstStatus [failing (l.isStage && s.stageBusy c.ctx l.slot (some l.stage)) 3, s.nodeStatus c,
    failing (!(l.headerOk && (x.map fun x => x.stageOk l).getD false)) 6,
    failing (decide (s.widestRegion < l.gangSize) || !l.fitsIdle) 7]

/-- LAUNCH (R390 to R393): taken: its header and arguments are read and checked; it waits for its node and for BAR. -/
def execLaunch (s : State) : Host.Outcome State Fault Refusal :=
  s.command 1 (fun c => firstStatus [failing (!launchBodyOk c) 2, failing (!s.ctxReady c (· != .free)) 3]) fun c s =>
    let h := State.readVirtual 2 s c.ctx (c.at' 8 8) 512 s.inputs.peer.data
    let a := State.readVirtual 3 h.1 c.ctx (c.at' 16 8) (4 * c.at' 24 2) (s.inputs.peer.data.drop 512)
    match h.2, a.2 with
    | some hb, some ab =>
      let l := launchOf a.1 c hb ab
      let status := a.1.launchStatus c l
      if status ≠ 0 then a.1.finishRecord c status
      else ({ a.1 with launches := Store.put a.1.launches (Store.free 0 a.1.launches) l }.occupy c).enterRecord c
    | _, _ => a.1.finishRecord c 4

/-- R399: a context none of whose launches is ready any more. -/
def State.restCtx (s : State) (ctx : Nat) : State :=
  if s.launches.any fun e => e.2.ctx == ctx && e.2.ready.isSome then s
  else s.updCtx ctx fun c => if c.st = .active then { c with st := .idle } else c

/-- LAUNCH_COMPLETION (R396, R378): every gang has completed or been aborted. -/
def execLaunchCompletion (launch : Nat) (s : State) : Host.Outcome State Fault Refusal :=
  match Store.get s.launches launch with
  | none => .next s
  | some l =>
    if l.ready.isNone || l.finished ≠ l.gangs then .next s
    else
      let s := { s.drainAll with launches := Store.del s.launches launch }
      happen (((s.closeNode l.record).restCtx l.ctx).finishRecord l.record l.status)

/-- R403: the stage counts of a PIPE record. -/
def pipeOf (c : Cmd) (now : Nat) : Pipe :=
  let n := c.at' 9 1
  { gfx := (c.at' 10 1).testBit 0, mins := (List.range n).map fun i => c.at' (16 + 2 * i) 1, maxs := (List.range n).map fun i => c.at' (17 + 2 * i) 1,
    targets := (List.range n).map fun i => c.at' (16 + 2 * i) 1, since := now, period := 0 }
/-- R403: whether a stage is run by kernels. -/
def Pipe.codeStage (p : Pipe) (i : Nat) : Bool := !p.gfx || i == 0 || i == 3 || i == 4
def pipeBodyOk (c : Cmd) : Bool :=
  let p := pipeOf c 0
  let n := c.at' 9 1
  decide (c.at' 8 1 ≤ 7) && decide (1 ≤ n) && decide (n ≤ 8) && decide (c.at' 10 1 ≤ 1) && zeros c.bytes 11 16 && zeros c.bytes (16 + 2 * n) 64 &&
  (!p.gfx || n == 7) && (List.range n).all fun i =>
    let lo := p.mins.getD i 0
    let hi := p.maxs.getD i 0
    if p.codeStage i then decide (1 ≤ lo) && decide (lo ≤ 192) && decide (lo ≤ hi) && decide (hi ≤ 192) else lo == 0 && hi == 0

/-- PIPE (R403). -/
def execPipe (s : State) : Host.Outcome State Fault Refusal :=
  s.command 9 (fun c =>
    let other := ((Store.get s.ctxs c.ctx).map fun x => x.pipes.any fun p => p.1 != c.at' 8 1 && p.2.gfx).getD false
    firstStatus [failing (!pipeBodyOk c) 2,
      failing (!s.ctxReady c (· != .free) || s.stageBusy c.ctx (c.at' 8 1) none || ((pipeOf c 0).gfx && other)) 3])
    fun c s => (s.updCtx c.ctx fun x => { x with pipes := Store.put x.pipes (c.at' 8 1) (pipeOf c s.now) }).finishRecord c 0

end Sys2Proof.Machine
end

