-- ==== Sys2Proof/Machine/Context.lean ====
section
/-!
DEFINITION. Context descriptors (R25, R322, R397, R424, R425, R427, R451), the context commands (R398, R399), translation
invalidation (R34), and the metadata commands (R63).
-/
namespace Sys2Proof.Machine

/-- R25, R322, R397, R424, R425, R427, R451: the field rules of a descriptor. -/
def rootOk (w : Nat) : Bool := bits w 62 52 == 0 && bits w 11 0 == 0
def apxOk (w : Nat) : Bool :=
  bits w 7 6 != 3 && !w.testBit 0 && decide (bits w 31 16 ≤ 48961) && (!w.testBit 4 || (decide (1 ≤ bits w 11 8) && decide (bits w 11 8 ≤ 8)))
def wdperOk (w : Nat) : Bool := bits w 31 14 == 0 && decide (1 ≤ bits w 13 0) && decide (bits w 13 0 ≤ 16000)
def detOk (w logb : Nat) : Bool :=
  bits w 31 21 == 0 && bits w 15 2 == 0 && (decide (bits w 1 0 < 2) ||
    (decide (16 ≤ bits w 20 16) && decide (bits w 20 16 ≤ 36) && logb % 4096 == 0))
def Ctx.fieldsOk (c : Ctx) : Bool :=
  decide (c.cfl.toNat < 4) && rootOk c.root.toNat && apxOk c.apxctl.toNat && decide (c.fpten.toNat < 32) && decide (c.errpol.toNat < 4) &&
  wdperOk c.wdper.toNat && detOk c.detmode.toNat c.logb.toNat && c.save.toNat % 4096 == 0

def Log.fresh : Log where
  wpos := 0
  rpos := 0
  raign := 0
  drops := 0
  state := 0
  ahead := []

/-- R397: the context of a 256-byte image; TEN comes from the loading queue, and TCNT starts at its reset value. -/
def ctxOfImage (tenant now : Nat) (b : List Byte) : Ctx where
  st := .idle
  tenant := tenant
  cfl := b.getD 1 0
  root := dword (field b 8 8)
  apxctl := word (field b 16 4)
  tseed := word (field b 20 4)
  tcnt := 0
  fpten := word (field b 32 4)
  errpol := word (field b 36 4)
  wdper := word (field b 40 4)
  detmode := word (field b 44 4)
  save := dword (field b 48 8)
  logb := dword (field b 56 8)
  winSamples := 0
  winExcur := 0
  pipes := []
  progress := now
  entered := now
  stop := none
  watchdog := false
  pendingCmds := []
  log := Log.fresh

/-- R454: a descriptor that sets RECORD zeroes the log's header; one that sets REPLAY keeps WPOS. -/
def State.openLog (s : State) (ctx : Nat) : State :=
  match Store.get s.ctxs ctx with
  | none => s
  | some c =>
    if c.mode = 2 then
      let s := s.updLog ctx fun _ => Log.fresh
      let r := s.logPlace ctx c.logb.toNat .store
      match r.2 with
      | some x => r.1.writePage (moduleAsker 0 ctx) x (List.replicate 64 0)
      | none => r.1.updLog ctx fun l => { l with state := 2 }
    else if c.mode = 3 then
      let r := s.logPlace ctx c.logb.toNat .load
      match r.2 with
      | some x =>
        let q := r.1.readPage (moduleAsker 0 ctx) x 64
        match q.2 with
        | .bytes h => (q.1.updLog ctx fun _ => { Log.fresh with wpos := field h 0 8, drops := field h 24 8,
                                                                 state := if field h 0 8 = 0 then 4 else 0 }).writeLogHeader ctx
        | _ => q.1.updLog ctx fun _ => { Log.fresh with state := 8 }
      | none => r.1.updLog ctx fun _ => { Log.fresh with state := 8 }
    else s.updLog ctx fun _ => Log.fresh

/-- CTXLOAD (R397, R398). -/
def execCtxload (s : State) : Host.Outcome State Fault Refusal :=
  s.command 3 (fun c => firstStatus [failing (!(zeros c.bytes 9 16 && zeros c.bytes 24 64 && decide (c.at' 8 1 < 16))) 2,
      failing (!s.ownsCtx c.tenant c.ctx || (Store.get s.ctxs c.ctx).isSome) 3,
      failing (s.windowAddr c.tenant (c.at' 8 1) 2 (c.at' 16 8) 256).isNone 4])
    fun c s =>
      let a := (s.windowAddr c.tenant (c.at' 8 1) 2 (c.at' 16 8) 256).getD 0
      let r := s.rawRead a 256
      let x := ctxOfImage c.tenant s.now r.2.1
      if r.2.2 then (r.1.countPoison a 256 0xFFFF c.ctx none 0).finishRecord c 4
      else if !(x.fieldsOk && zeros r.2.1 2 8 && zeros r.2.1 64 256) then r.1.finishRecord c 2
      else ({ r.1 with ctxs := Store.put r.1.ctxs c.ctx x }.openLog c.ctx).finishRecord c 0

/-- R398: the context with the fields that a CTXUPD selects. -/
def Ctx.updated (x : Ctx) (c : Cmd) : Ctx :=
  let m (i : Nat) : Bool := (c.at' 8 2).testBit i
  { x with apxctl := if m 0 then word (c.at' 16 4) else x.apxctl
           winSamples := if m 0 then 0 else x.winSamples
           winExcur := if m 0 then 0 else x.winExcur
           tseed := if m 1 then word (c.at' 20 4) else x.tseed
           tcnt := if m 2 then 0 else x.tcnt
           fpten := if m 3 then word (c.at' 24 4) else x.fpten
           errpol := if m 4 then word (c.at' 28 4) else x.errpol
           wdper := if m 5 then word (c.at' 32 4) else x.wdper
           detmode := if m 6 then word (c.at' 36 4) else x.detmode
           root := if m 7 then dword (c.at' 40 8) else x.root
           cfl := if m 8 then BitVec.ofNat 8 (c.at' 48 1) else x.cfl }

/-- CTXUPD (R398). -/
def execCtxupd (s : State) : Host.Outcome State Fault Refusal :=
  s.command 4 (fun c =>
      let mask := c.at' 8 2
      let x := Store.get s.ctxs c.ctx
      let still (st : CtxState) : Bool := decide (mask < 64) || st == .idle || st == .saved
      firstStatus [failing (!(decide (mask < 512) && zeros c.bytes 10 16 && zeros c.bytes 49 64) ||
          !(x.map fun x => (x.updated c).fieldsOk).getD true) 2,
        failing (!s.ctxReady c still) 3])
    fun c s =>
      let s := s.updCtx c.ctx fun x => x.updated c
      (if (c.at' 8 2).testBit 6 then s.openLog c.ctx else s).finishRecord c 0

def noBody (c : Cmd) : Bool := zeros c.bytes 8 64
def earlier (a : Option Nat) (b : Nat) : Option Nat := some ((a.map fun x => min x b).getD b)
/-- R400: a stop request for a whole context; the earlier deadline stands. -/
def State.requestStop (s : State) (ctx : Nat) : State :=
  s.updCtx ctx fun c => { c with st := .stopping, stop := earlier c.stop (s.now + stopClocks) }

/-- CTXSAVE (R398 to R400): a context with nothing on the cores is Saved at once. -/
def execCtxsave (s : State) : Host.Outcome State Fault Refusal :=
  s.command 5 (fun c => firstStatus [failing (!noBody c) 2,
      failing (!s.ctxReady c fun st => st == .idle || st == .active || st == .saved) 3])
    fun c s =>
      match (Store.get s.ctxs c.ctx).map Ctx.st with
      | some .active => (s.updCtx c.ctx fun x => { x with pendingCmds := x.pendingCmds ++ [c] }).requestStop c.ctx
      | _ => (s.updCtx c.ctx fun x => { x with st := .saved }).finishRecord c 0

/-- CTXRES (R398, R399). -/
def execCtxres (s : State) : Host.Outcome State Fault Refusal :=
  s.command 6 (fun c => firstStatus [failing (!noBody c) 2, failing (!s.ctxReady c (· == .saved)) 3])
    fun c s => s.updCtx c.ctx fun x => { x with st := .restoring, pendingCmds := x.pendingCmds ++ [c] }

/-- R32, R34: the copies in flight of a context translate the pages that `hit` picks, by first byte and length, again. -/
def State.forgetPages (s : State) (ctx : Nat) (hit : Nat → Nat → Bool) : State :=
  s.ops.foldl (fun s e => match e.2.kind with
    | .copy c =>
      if ((s.group e.2.gid).map Group.ctx) == some ctx then
        let kept := c.pages.filter fun p => !hit (p.1 / 2 * 4096) 4096
        let again := c.pageList.filter fun p => (Store.get c.pages (pageKey p.1 p.2)).isSome && (Store.get kept (pageKey p.1 p.2)).isNone
        again.foldl (fun s p => s.askPage e.1 ctx c.engine p.1 p.2)
          { s with ops := Store.put s.ops e.1 { e.2 with kind := .copy { c with pages := kept } } }
      else s
    | _ => s) s
/-- R34: the cached translations of a context that meet a range are discarded; the whole context's without one. -/
def State.discardXlat (s : State) (ctx : Nat) (range : Option (Nat × Nat)) : State :=
  let hit (lo n : Nat) : Bool := (range.map fun r => decide (lo < r.1 + r.2) && decide (r.1 < lo + n)).getD true
  { s with tlb := s.tlb.filter fun e => !(e.ctx == ctx && hit e.va (2 ^ e.bits)),
           walkCache := s.walkCache.filter fun w => !(w.ctx == ctx && hit (w.key * 2 ^ (12 + 9 * w.level)) (2 ^ (12 + 9 * w.level))) }.forgetPages
    ctx hit

/-- TLBINV (R34, R398): it completes when the context's walks have ended. -/
def execTlbinv (s : State) : Host.Outcome State Fault Refusal :=
  s.command 8 (fun c => firstStatus [failing (!(decide (c.at' 8 1 ≤ 1) && zeros c.bytes 9 16 && zeros c.bytes 32 64 &&
        (c.at' 8 1 == 0 || c.at' 24 8 == 0))) 2, failing (!s.ctxReady c (· != .free)) 3])
    fun c s =>
      (s.discardXlat c.ctx (if c.at' 8 1 = 0 then some (c.at' 16 8, c.at' 24 8) else none)).updCtx c.ctx
        fun x => { x with pendingCmds := x.pendingCmds ++ [c] }

/-- The pending commands of a context with an opcode complete. -/
def State.finishPending (s : State) (ctx opc status : Nat) : State :=
  let mine := ((Store.get s.ctxs ctx).map fun x => x.pendingCmds.filter fun c => c.opc == opc).getD []
  let s := s.updCtx ctx fun x => { x with pendingCmds := x.pendingCmds.filter fun c => c.opc != opc }
  mine.foldl (fun s c => s.finishRecord c status) s

/-- TLBINV_COMPLETION (R34, R398). -/
def execTlbinvCompletion (ctx : Nat) (s : State) : Host.Outcome State Fault Refusal :=
  let pending := ((Store.get s.ctxs ctx).map fun x => x.pendingCmds.any fun c => c.opc == 8).getD false
  if pending && !(s.enroute ++ s.misses).any fun m => m.ctx == ctx then happen (s.finishPending ctx 8 0) else .next s

/-- The slots that a context has bound. -/
def State.boundSlots (s : State) (ctx : Nat) : List Nat := (List.range 4).filter fun k => (s.view ctx k).isSome

/-- The record of a collective command in flight, and whether it is one of a context. -/
def AOp.command (o : AOp) : Option Cmd :=
  match o.kind with
  | .coll k => k.record
  | _ => none
def AOp.runsFor (o : AOp) (ctx : Nat) : Bool := (o.command.map fun c => c.ctx == ctx).getD false

/-- R398, R411: everything of a context is lost. Its records end without a frame and without decrementing a successor, and commands
that waited for it end. -/
def State.discardCtx (s : State) (ctx : Nat) (status : Nat) : State :=
  let ofCtx (c : Cmd) : Bool := c.ctx == ctx && c.tenant == s.tenantOf ctx
  let lost := ((s.launches.filter fun e => e.2.ctx == ctx).map fun e => e.2.record) ++
    (s.nodes.filter fun e => ofCtx e.2.record).map fun e => e.2.record
  let colls := (s.ops.filter fun o => o.2.runsFor ctx).filterMap fun o => o.2.command
  let unbinds := (s.boundSlots ctx).filterMap fun k => (s.view ctx k).bind ViewSet.unbind
  let s := ((s.groups.filter fun e => e.2.ctx == ctx).map Prod.fst).foldl (State.loseGroup · true) s
  let s := (s.boundSlots ctx).foldl (fun s k => s.unbindView ctx k) s
  let gids := (s.saved.filter fun v => v.group.ctx == ctx).map SavedGroup.gid
  let keys := (s.launches.filter fun e => e.2.ctx == ctx).map Prod.fst
  let s := { s.discardXlat ctx none with
    saved := s.saved.filter fun v => v.group.ctx != ctx
    ops := s.ops.filter fun (e : Nat × AOp) => !gids.contains e.2.gid && !e.2.runsFor ctx
    launches := s.launches.filter fun (e : Nat × Launch) => e.2.ctx != ctx
    nodes := s.nodes.filter fun (e : Nat × Node) => !ofCtx e.2.record
    gangStops := s.gangStops.filter fun t => !keys.contains t.launch
    enroute := s.enroute.filter fun m => m.ctx != ctx
    misses := s.misses.filter fun m => m.ctx != ctx }
  let s := lost.foldl (fun s c => s.updCmdQ c.tenant c.queue fun q =>
    { q with running := q.running.filter (· != c.index), waiting := q.waiting.filter fun w => w.index != c.index }) s
  let s := (s.finishPending ctx 8 0).finishPending ctx 6 3
  let s := s.finishPending ctx 5 status
  let s := colls.foldl (fun s c => s.finishRecord c 3) (unbinds.foldl (fun s c => s.finishRecord c 0) s)
  let s := { s with ctxs := Store.del s.ctxs ctx }
  s.wakeRecords s.waitingRecords.length

/-- CTXDISC (R398, R399, R411). -/
def execCtxdisc (s : State) : Host.Outcome State Fault Refusal :=
  s.command 7 (fun c => firstStatus [failing (!noBody c) 2, failing (!s.ctxReady c (· != .free)) 3])
    fun c s => (s.discardCtx c.ctx 3).finishRecord c 0

/-- R63: the body of a metadata command. -/
def metadataBodyOk (c : Cmd) : Bool :=
  c.at' 8 8 % 256 == 0 && decide (1 ≤ c.at' 16 8) && decide (c.at' 16 8 ≤ 2 ^ 32) && decide (c.at' 24 1 < 16) && decide (c.at' 25 1 < 16) &&
  zeros c.bytes 26 32 && zeros c.bytes 40 64
/-- R63: the address of the blocks and of the code buffer, when the windows grant what is needed: bit 2 HR, bit 3 HW. -/
def State.metadataPlaces (s : State) (c : Cmd) (blockRight bufferRight : Nat) : Option (Nat × Nat) :=
  let n := c.at' 16 8
  match s.windowAddr c.tenant (c.at' 24 1) blockRight (c.at' 8 8) (256 * n),
        s.windowAddr c.tenant (c.at' 25 1) bufferRight (c.at' 32 8) (ceilDiv n 2) with
  | some a, some b => some (a, b)
  | _, _ => none
/-- R63: the status of a metadata command. -/
def State.metadataStatus (s : State) (blockRight bufferRight : Nat) (c : Cmd) : Nat :=
  firstStatus [failing (!metadataBodyOk c) 2, failing (!s.ownsCtx c.tenant c.ctx) 3,
    failing (s.metadataPlaces c blockRight bufferRight).isNone 4]

/-- METADATA_EXPORT (R63): dirty copies are written back, then two codes to a byte. The half of the last byte that an odd count leaves
over is a free value. -/
def execMetadataExport (s : State) : Host.Outcome State Fault Refusal :=
  s.command 0x0A (s.metadataStatus 2 3) fun c s =>
    let p := (s.metadataPlaces c 2 3).getD (0, 0)
    let n := c.at' 16 8
    let s := s.drainAll
    let first := p.1 / 128
    let s := { s with lines := s.lines.map fun (e : Nat × LineTag) =>
      (e.1, if first ≤ e.1 && e.1 < first + 2 * n then { e.2 with dirty := false } else e.2) }
    let spare := (Config.freeWord s.nextChoice).toNat % 16
    let code (i : Nat) : Nat := if i < n then s.code (p.1 + 256 * i) else spare
    let bs := (List.range (ceilDiv n 2)).map fun i => BitVec.ofNat 8 (code (2 * i) + 16 * code (2 * i + 1))
    ({ s with nextChoice := s.nextChoice + n % 2 }.rawWrite p.2 bs).finishRecord c 0

/-- METADATA_IMPORT (R63). -/
def execMetadataImport (s : State) : Host.Outcome State Fault Refusal :=
  s.command 0x0B (s.metadataStatus 3 2) fun c s =>
    let p := (s.metadataPlaces c 3 2).getD (0, 0)
    let n := c.at' 16 8
    let r := s.drainAll.rawRead p.2 (ceilDiv n 2)
    if r.2.2 then (r.1.countPoison p.2 (ceilDiv n 2) 0xFFFF (r.1.ownedCtx c) none 0).finishRecord c 4
    else
      let s := (List.range n).foldl (fun s i =>
        let b := (r.2.1.getD (i / 2) 0).toNat
        s.setCode (p.1 + 256 * i) (if i % 2 = 0 then b % 16 else b / 16)) r.1
      let gone (u : Upset) : Bool := u.array == .slice && decide (p.1 / 128 ≤ u.addr / 128) && decide (u.addr / 128 < p.1 / 128 + 2 * n)
      { s with lines := Store.clear s.lines (p.1 / 128) (2 * n), upsets := s.upsets.filter fun u => !gone u }.finishRecord c 0

end Sys2Proof.Machine
end

