-- ==== Sys2Proof/Machine/Save.lean ====
section
/-!
DEFINITION. Stopping, saving and restoring (R81, R102, R119, R130, R290, R399 to R402), and the watchdog (R427 to R430).
-/
namespace Sys2Proof.Machine

/-- R81: a thread stands at a BCPM that waits for a slot of its queue. -/
def Thread.awaitsSlot (th : Thread) : Bool :=
  match th.st with
  | .waiting (.stall _ .slot) => true
  | _ => false
/-- R400: a group has nothing that makes its position not safe. -/
def State.groupSafe (s : State) (gid : Nat) (g : Group) : Bool :=
  !(s.threads.any fun t => t.2.gid == gid && t.2.awaitsSlot) && !(g.bars.any fun b => decide (0 < b.2.arrivals) && decide (b.2.arrivals < b.2.expected)) &&
  !(g.cvs.any fun c => !c.2.signers.isEmpty) && !(g.tiles.any fun t => t.2.opened) &&
  !(s.ops.any fun o => o.2.gid == gid && o.2.waitsSlot)

/-- The resident groups of a context, and of a gang. -/
def State.groupsOf (s : State) (ctx : Nat) : List (Nat × Group) := s.groups.filter fun e => e.2.ctx == ctx
def State.gangOf (s : State) (t : GangStop) : List (Nat × Group) := s.groups.filter fun e => e.2.inGang t.launch t.gang
def State.allSafe (s : State) (gs : List (Nat × Group)) : Bool := gs.all fun e => s.groupSafe e.1 e.2
/-- The stop requests for gangs of a context. -/
def State.stopsOf (s : State) (ctx : Nat) : List GangStop :=
  s.gangStops.filter fun t => ((Store.get s.launches t.launch).map Launch.ctx) == some ctx
def State.beginGangSave (s : State) (t : GangStop) : State :=
  { s with gangStops := s.gangStops.map fun u => if u == t then { u with saving := true } else u }

/-- R290, R400: a context stopping whose gangs are all safe, or else a gang of it that is to stop and is safe. -/
def execSafePointSave (ctx : Nat) (s : State) : Host.Outcome State Fault Refusal :=
  match Store.get s.ctxs ctx with
  | none => .next s
  | some c =>
    if c.st = .stopping && s.allSafe (s.groupsOf ctx) then happen (s.updCtx ctx fun c => { c with st := .saving })
    else
      match (s.stopsOf ctx).find? fun t => !t.saving && s.allSafe (s.gangOf t) with
      | some t => happen (s.beginGangSave t)
      | none => .next s

/-- R290: the signings of a partial round are withdrawn; the signers stand at their MMA with nothing staged. -/
def State.withdrawSignings (s : State) (gid : Nat) : State :=
  let s := s.updGroup gid fun g => { g with cvs := g.cvs.map fun (e : Nat × Conv) => (e.1, { e.2 with signers := [] }) }
  (s.threadsOf gid).foldl (fun s k => s.updThread k fun th => match th.st with
    | .waiting (.sign _) => { th with st := .ready, since := s.now }
    | _ => th) s

/-- FORCED_SAVE (R81, R290, R400, R429): 25 µs after the request; in RECORD and REPLAY only the watchdog forces. -/
def execForcedSave (ctx : Nat) (s : State) : Host.Outcome State Fault Refusal :=
  match Store.get s.ctxs ctx with
  | none => .next s
  | some c =>
    let allowed := decide (c.mode ≤ 1)
    if c.st = .stopping && (c.stop.map fun d => decide (d ≤ s.now)).getD false && (allowed || c.watchdog) then
      happen (((s.groupsOf ctx).foldl (fun s e => s.withdrawSignings e.1) s).updCtx ctx fun c => { c with st := .saving })
    else
      match (s.stopsOf ctx).find? fun t => !t.saving && decide (t.deadline ≤ s.now) && allowed with
      | some t => happen (((s.gangOf t).foldl (fun s e => s.withdrawSignings e.1) s).beginGangSave t)
      | none => .next s

/-- R248, R455: a kept access that a save leaves as it is: one that has failed, or an atomic that replay holds at its source. -/
def Access.rests (a : Access) (replay : Bool) : Bool := a.stopped || (replay && a.kind == .atomic && !a.queued)
/-- R278, R321: the accesses that a thread has issued are performed or parked, and nothing that its instruction reads is on its way. -/
def Thread.settled (th : Thread) (replay : Bool) : Bool :=
  th.st != .waiting .page && ((th.kept.head?.map fun a => a.rests replay).getD true) && th.kept.all fun a => !a.queued
/-- R278: this holds of every thread of a group. -/
def State.keptQuiet (s : State) (gid : Nat) : Bool :=
  let replay := ((s.group gid).map fun g => s.forcing g.ctx).getD false
  (s.threads.filter fun t => t.2.gid == gid).all fun t => t.2.settled replay
/-- R44, R81, R119, R320, R402: nothing of a group is in flight but what is reissued at the restore: copies that wait for a slot,
collectives, traversals with the bytes that they await, held stores of a thresher slot, and loads and atomics of which a thread keeps a
piece. -/
def AOp.reissued (o : AOp) : Bool := o.waitsSlot || match o.kind with
  | .coll _ => true
  | .trav _ => true
  | .fetch _ => true
  | .sts _ _ => true
  | .load l => decide (0 < l.left) && l.remote.isEmpty
  | _ => false
def State.groupQuiet (s : State) (gid : Nat) : Bool := s.keptQuiet gid && !(s.ops.any fun o => o.2.gid == gid && !o.2.reissued)

/-- R216, R402, R44: a thread as it is saved: at its instruction, in its wait, or parked. -/
def Thread.saved (th : Thread) : Thread :=
  let th : Thread := { th with peerBuf := [], wordBuf := [], heldBy := none }
  match th.st with
  | .waiting (.stall _ _) => { th with st := .ready }
  | .waiting (.sign _) => { th with st := .ready }
  | .waiting .walker => { th with st := .ready }
  | .waiting (.latch _) => { th with st := .ready }
  | .waiting (.ray _) => { th with st := .ready }
  | _ => th

/-- R320: a save abandons the traversals of a group. -/
def State.abandonRays (s : State) (gid : Nat) : State :=
  s.threads.foldl (fun s e => match e.2.st with
    | .waiting (.ray _) => if e.2.gid == gid then s.breakWait e.1 e.2 else s
    | _ => s) s
/-- R402: a group with its threads and scoreboard entries leaves its core. Its posted receives and reissued operations name threads
by tid while it is saved. A thresher slot that has stopped for the group stays stopped. -/
def State.saveGroup (s : State) (gid : Nat) (g : Group) : State :=
  let s := s.abandonRays gid
  let g := (s.group gid).getD g
  let mine := s.threads.filter fun e => e.2.gid == gid
  let tidOf (k : Nat) : Nat := ((Store.get s.threads k).map Thread.tid).getD 0
  let stopped := (Store.get s.thresher g.core) == some gid && (Store.get s.threads (thresherKey g.core)).isNone
  let g : Group := { g with posts := g.posts.map fun (p : Post) => { p with thread := tidOf p.thread }, thr := if stopped then none else g.thr }
  let s : State := { s with
    saved := s.saved ++ [{ gid := gid, group := g, threads := mine.map fun e => e.2.saved, board := s.board.filter fun b => b.gid == gid }]
    ops := s.ops.map fun (e : Nat × AOp) => (e.1, if e.2.gid == gid then { e.2 with thread := tidOf e.2.thread } else e.2) }
  s.dropGroup gid

/-- R269, R402: messages in flight to the groups come to their ports, and the groups leave. -/
def State.saveGroups (s : State) (gs : List (Nat × Group)) : State := gs.foldl (fun s e => s.saveGroup e.1 e.2) (s.deliverFor (gs.map Prod.fst))

/-- R402: the bytes that a save image may take. -/
def State.imageSize (s : State) (ctx : Nat) : Nat :=
  ((s.saved.filter fun v => v.group.ctx == ctx).map fun v => 1024 * (v.group.regLen + v.group.spLen / 1024 + 64 * v.group.tileCount) + 16384).foldl (· + ·) 0
/-- R402: write the image from SAVE upwards, page by page; false when a write fails translation. The bytes are the module's own. -/
def State.writeImage : Nat → State → Nat → Nat → Nat → Nat → State × Bool
  | 0, s, _, _, _, _ => (s, true)
  | fuel + 1, s, ctx, va, n, i =>
    if n = 0 then (s, true)
    else if !(((Store.get s.ctxs ctx).map fun c => c.canonical va).getD false) then (s, false)
    else
      let m := min n (4096 - va % 4096)
      let r := s.engineXlat 0 ctx va .store
      match r.2 with
      | .error _ => (r.1, false)
      | .ok x =>
        let bs := (List.range m).map fun k => Config.saveImageByte ctx (i + k)
        match x.peer with
        | some p =>
          if r.1.reachable p then State.writeImage fuel { r.1 with sent := .peerWrite p x.pa bs :: r.1.sent } ctx (va + m) (n - m) (i + m)
          else (r.1, false)
        | none => State.writeImage fuel (r.1.writePage (moduleAsker 0 ctx) x bs) ctx (va + m) (n - m) (i + m)

/-- R402: what a save does once its groups have left the cores: the image, or the discard with status 8. -/
def State.finishSave (s : State) (ctx : Nat) : State × Bool :=
  let n := s.imageSize ctx
  let save := ((Store.get s.ctxs ctx).map fun c => c.save.toNat).getD 0
  let r := State.writeImage (n / 4096 + 2) s ctx save n 0
  if r.2 then (r.1, true)
  else
    let asked := ((Store.get r.1.ctxs ctx).map fun c => c.pendingCmds.any fun p => p.opc == 5).getD false
    let t := r.1.tenantOf ctx
    let s := r.1.discardCtx ctx 8
    (if asked then s else s.sendEvent t 1 8 0 ctx 0xFFFF 0 0, false)

/-- SAVE_COMPLETION (R399, R402): of a context, or of the gangs of it whose save has begun. -/
def execSaveCompletion (ctx : Nat) (s : State) : Host.Outcome State Fault Refusal :=
  match Store.get s.ctxs ctx with
  | none => .next s
  | some c =>
    if c.st = .saving then
      let gs := s.groupsOf ctx
      if !(gs.all fun e => s.groupQuiet e.1) then .next s
      else
        let r := (State.saveGroups { s with gangStops := s.gangStops.filter fun t => !(s.stopsOf ctx).contains t } gs).finishSave ctx
        happen (if r.2 then (r.1.updCtx ctx fun c => { c with st := .saved, stop := none, watchdog := false }).finishPending ctx 5 0 else r.1)
    else
      match (s.stopsOf ctx).find? fun t => t.saving && (s.gangOf t).all fun e => s.groupQuiet e.1 with
      | none => .next s
      | some t => happen ((State.saveGroups { s with gangStops := s.gangStops.filter fun u => u != t } (s.gangOf t)).finishSave ctx).1

/-- RESTORE_COMPLETION (R399): the context may be placed again; one of which nothing was saved is Idle. -/
def execRestoreCompletion (ctx : Nat) (s : State) : Host.Outcome State Fault Refusal :=
  match Store.get s.ctxs ctx with
  | none => .next s
  | some c =>
    if c.st ≠ .restoring then .next s
    else
      let some' := s.saved.any fun v => v.group.ctx == ctx
      happen ((s.updCtx ctx fun c => { c with st := if some' then .active else .idle, entered := s.now }).finishPending ctx 6 0)

/-- R428: a thread in external wait. -/
def Thread.external (th : Thread) : Bool :=
  match th.st with
  | .parked _ => true
  | .waiting (.word _ _ host peer _) => host || peer
  | .waiting (.latch _) => true
  | _ => false
/-- The resident threads and thresher slots of a context that are not in external wait. -/
def State.judged (s : State) (ctx : Nat) : Nat :=
  (s.threads.filter fun e => !e.2.external && ((s.group e.2.gid).map Group.ctx) == some ctx).length
/-- R427: the period in core clocks. -/
def Ctx.period (c : Ctx) : Nat := bits c.wdper.toNat 13 0 * 1100000
def Ctx.lastProgress (c : Ctx) : Nat := max c.progress c.entered

/-- WATCHDOG_FIRE (R422, R429): the context stops, with its record and its event frame. -/
def execWatchdogFire (ctx : Nat) (s : State) : Host.Outcome State Fault Refusal :=
  match Store.get s.ctxs ctx with
  | none => .next s
  | some c =>
    if !(c.st == .active || c.st == .stopping) || c.watchdog || s.now < c.lastProgress + c.period || s.judged ctx = 0 then .next s
    else
      let persistent := s.groups.any fun e => e.2.ctx == ctx && ((Store.get s.launches e.2.launch).map Launch.persistent).getD false
      let r := s.report c.tenant { type := 4, cause := if persistent then 2 else 1, ctx := ctx, core := 0xFFFF, flags := 0, acc := 0, slot := 0,
                                   count := s.judged ctx, wid := 0, pc := 0, fva := c.lastProgress, entry := c.wdper.toNat }
      let s := r.1.updCtx ctx fun c => { c with watchdog := true, stop := if c.mode ≤ 1 then c.stop else none }
      let s := s.requestStop ctx
      happen (s.sendEvent c.tenant 6 0 0 ctx 0xFFFF 0 (r.2.getD 0))

end Sys2Proof.Machine
end

