-- ==== Sys2Proof/Machine/Bind.lean ====
section
/-!
DEFINITION. The view-set commands: bind and unbind (R332 to R334, R349), and status (R351, R472).
-/
namespace Sys2Proof.Machine

/-- R332, R333: the fields of a descriptor. -/
def ViewSet.descOk (v : ViewSet) : Bool :=
  let axis (e : Nat) : Bool := e % 12 == 0 && decide (12 ≤ e) && decide (e ≤ 8184)
  decide (1 ≤ v.nview) && decide (v.nview ≤ 8) && decide (v.gsrc ≤ 1) && decide (v.out ≤ 2) && decide (v.res ≤ 96) && axis v.ex && axis v.ey &&
  decide (1200 ≤ v.dly) && decide (v.dly ≤ 100000) && decide (1000 * v.dly < v.per) && decide (v.ey * v.lt ≤ v.per) && decide (1 ≤ v.lt) &&
  zeros v.desc 20 24 && decide (field v.desc 32 1 < 16) && (v.gsrc == 0 || decide (v.mwin < 16)) && zeros v.desc 34 40 &&
  field v.desc 40 8 % 16 == 0 && v.moff % 16 == 0 && v.soff % 4096 == 0
/-- R18, R332: scanout memory holds the set's area. -/
def scanoutSize : Nat := 2 ^ 32
def ViewSet.areaOk (v : ViewSet) : Bool := decide (v.areaEnd ≤ scanoutSize)
/-- R349: a row of all views fits the link in LT: four lanes of 20 Gbit/s coded 128b/132b. -/
def ViewSet.linkOk (v : ViewSet) : Bool := v.out == 2 || decide (24 * v.ex * v.nview * 33 ≤ 2560 * v.lt)

/-- R334: an 8-byte template of an axis of extent e. -/
def templateOk (t : List Byte) (e : Nat) : Bool :=
  let n := field t 0 1
  let codes := field t 1 1
  decide (1 ≤ n) && decide (n ≤ 4) && decide (codes < 4 ^ n) && decide (12 * n ≤ e) &&
  ((List.range 3).all fun i => decide (i + 1 < n) || field t (2 + 2 * i) 2 == 0)
/-- R334: the bytes that a lens mesh takes. -/
def ViewSet.meshRange (v : ViewSet) (n : Nat) : Nat × Nat := (field (v.record n) 128 8, 8 * (v.columns + 1) * (v.strips + 1))
/-- R334: a view record. -/
def ViewSet.recordOk (v : ViewSet) (n : Nat) : Bool :=
  let r := v.record n
  templateOk (v.template n 0) v.ex && templateOk (v.template n 1) v.ey && v.template n 1 == v.template 0 1 && field r 128 8 % 8 == 0 &&
  decide (field r 136 1 ≤ 1) && (v.lensed n || field r 128 8 == 0) && zeros r 137 144 &&
  (!v.lensed n || decide ((v.meshRange n).1 + (v.meshRange n).2 ≤ scanoutSize))

/-- R333: the scanout ranges of a set: its area and its meshes. -/
def ViewSet.ranges (v : ViewSet) : List (Nat × Nat) :=
  (v.soff, v.areaEnd - v.soff) :: ((List.range v.nview).filter fun n => v.lensed n).map v.meshRange
def ViewSet.overlapsSet (v w : ViewSet) : Bool :=
  v.ranges.any fun a => w.ranges.any fun b => decide (a.1 < b.1 + b.2) && decide (b.1 < a.1 + a.2)

/-- A set that has just been bound. -/
def ViewSet.fresh (tenant : Nat) (desc : List Byte) (views : List (List Byte)) : ViewSet where
  tenant := tenant
  desc := desc
  views := views
  gx := 0
  gy := 0
  q := 0
  first := 0
  latchNo := 0
  deadNo := 0
  row := 0
  window := 0
  latches := []
  old := []
  yframes := []
  routes := []
  done := []
  serq := []
  shown := []
  held := []
  stopSent := false
  inWindow := false
  unbind := none
  miss := 0
  pdrop := 0
  gdrop := 0
  derr := 0
  rshort := 0
  late := 0

/-- R333: the lowest frame whose strip-0 latch lies after a time. -/
def ViewSet.firstFrame (v : ViewSet) (now : Nat) : Nat :=
  let ns : Int := -((-(10 * ((now : Int) + 1 - v.t0))) / 11) + 1000 * v.dly
  (-((-ns) / (v.per : Int))).toNat
/-- R333: a set starts at its first frame. -/
def ViewSet.started (v : ViewSet) (now : Nat) : ViewSet :=
  let f := v.firstFrame now
  { v with first := f, latchNo := f * v.strips, deadNo := f * v.strips, row := f * v.ey, window := f }

/-- R333: read a descriptor and its view records: the set as far as it can be read, whether every window grants its read, and whether
a sector was poisoned. -/
def State.readSet (s : State) (c : Cmd) : State × Option ViewSet × Bool × Bool :=
  match s.windowAddr c.tenant (c.at' 9 1) 1 (c.at' 16 8) 64 with
  | none => (s, none, false, false)
  | some a =>
    let d := s.rawRead a 64
    let v := ViewSet.fresh c.tenant d.2.1 []
    let n := 144 * v.nview
    if d.2.2 then (d.1, none, false, true)
    else match d.1.windowAddr c.tenant (field v.desc 32 1) 1 (field v.desc 40 8) n with
    | none => (d.1, some v, false, false)
    | some b =>
      let r := d.1.rawRead b n
      let views := (List.range v.nview).map fun i => (r.2.1.drop (144 * i)).take 144
      (r.1, some { v with views := if r.2.2 then [] else views }, true, r.2.2)

/-- R333: the body of a bind. -/
def bindBodyOk (c : Cmd) : Bool :=
  decide (c.at' 8 1 < 4) && decide (c.at' 9 1 < 16) && zeros c.bytes 10 16 && c.at' 16 8 % 64 == 0 && zeros c.bytes 24 64
/-- R333: the status of a bind, the lowest that holds. -/
def State.bindStatus (s : State) (c : Cmd) (r : Option ViewSet × Bool × Bool) : Nat :=
  let good := r.1.isSome
  let v := r.1.getD (ViewSet.fresh 0 [] [])
  let full := good && r.2.1 && !r.2.2
  let w := (s.tenant c.tenant).window v.mwin
  let gazeAt := v.gsrc == 1
  firstStatus
    [failing (good && !(v.descOk && v.areaOk && v.linkOk)) 2,
     failing (full && !((List.range v.nview).all fun n => v.recordOk n)) 2,
     failing (good && gazeAt && decide (windowLen w < v.moff + 8)) 2,
     failing (!s.ctxReady c (· != .free) || (s.view c.ctx (c.at' 8 1)).isSome) 3,
     failing (good && s.views.any fun e => v.overlapsSet e.2 || (v.out != 2 && e.2.out == v.out)) 3,
     failing (!full) 4,
     failing (gazeAt && !(w.getLsbD 0 && w.getLsbD 1)) 4]

/-- VIEW_SET_BIND (R333). -/
def execViewSetBind (s : State) : Host.Outcome State Fault Refusal :=
  s.command 0x0C (fun c => failing (!bindBodyOk c) 2) fun c s =>
    let r := s.readSet c
    let status := r.1.bindStatus c r.2
    let s := if r.2.2.2 then r.1.countError 3 0xFFFF (r.1.ownedCtx c) none 0 0 else r.1
    match r.2.1 with
    | some v => if status ≠ 0 then s.finishRecord c status
        else { s with views := Store.put s.views (viewKey c.ctx (c.at' 8 1)) (v.started s.now) }.finishRecord c 0
    | none => s.finishRecord c status

/-- VIEW_SET_UNBIND (R333): it waits until no tile of the set is in flight, and then comes again. -/
def execViewSetUnbind (s : State) : Host.Outcome State Fault Refusal :=
  let again := (s.view s.inputs.record.ctx (s.inputs.record.at' 8 1)).bind ViewSet.unbind
  s.command 0x0D (fun c => firstStatus [failing (!(decide (c.at' 8 1 < 4) && zeros c.bytes 9 64)) 2,
      failing (!s.ctxReady c (· != .free) || (s.view c.ctx (c.at' 8 1)).isNone || (again.isSome && again != some c)) 3])
    fun c s =>
      if s.viewQuiet c.ctx (c.at' 8 1) then ((s.unbindView c.ctx (c.at' 8 1)).releaseLeaving c.ctx).finishRecord c 0
      else s.updView c.ctx (c.at' 8 1) fun v => { v with unbind := some c }

/-- R351, R472: the six counters. -/
def ViewSet.counters (v : ViewSet) : List Word := [v.miss, v.pdrop, v.gdrop, v.derr, v.rshort, v.late]
/-- VIEW_SET_STATUS (R472). -/
def execViewSetStatus (s : State) : Host.Outcome State Fault Refusal :=
  s.command 0x0F (fun c => firstStatus
      [failing (!(decide (c.at' 8 1 < 4) && decide (c.at' 9 1 ≤ 1) && zeros c.bytes 10 16 && decide (c.at' 16 1 < 16) && zeros c.bytes 17 24 &&
        c.at' 24 8 % 8 == 0 && zeros c.bytes 32 64)) 2,
       failing (!s.ctxReady c (· != .free) || (s.view c.ctx (c.at' 8 1)).isNone) 3,
       failing (s.windowAddr c.tenant (c.at' 16 1) 3 (c.at' 24 8) 24).isNone 4])
    fun c s =>
      let a := (s.windowAddr c.tenant (c.at' 16 1) 3 (c.at' 24 8) 24).getD 0
      let ws := ((s.view c.ctx (c.at' 8 1)).map ViewSet.counters).getD []
      let s := s.rawWrite a (ws.flatMap fun w => toBytes 4 w.toNat)
      (if c.at' 9 1 = 1 then s.updView c.ctx (c.at' 8 1) fun v => { v with miss := 0, pdrop := 0, gdrop := 0, derr := 0, rshort := 0, late := 0 }
        else s).finishRecord c 0

end Sys2Proof.Machine
end

