-- ==== Sys2Proof/Machine/Collect.lean ====
section
/-!
DEFINITION. Collectives: COLL (R276), the collective command (R477), and their completion (R477, R478).
-/
namespace Sys2Proof.Machine

namespace Coll

/-- R477: a field that breaks the table; bytes 7:0 are not looked at. -/
def bad (c : Coll) (b : List Byte) : Bool :=
  decide (2 < c.op) || decide (3 < c.dt) || (c.op != 1 && decide (2 < c.red)) || !zeros b 11 12 || c.nrank == 0 || decide (1024 < c.nrank) ||
  decide (c.nrank ≤ c.rank) || c.count == 0 || decide (2 ^ 28 < c.count) || !zeros b 56 64
/-- R276: the chunks of the output: offsets and lengths. -/
def chunks (c : Coll) : List (Nat × Nat) := split256 (c.outLen / 256 + 2) c.dst 0 c.outLen

/-- R478: one step of a fold. -/
def combine (c : Coll) (a b : Nat) : Nat :=
  let hi := c.red == 1
  match c.dt with
  | 0 => if c.red = 0 then addRne a b else (opMinMax hi false false a b).1
  | 1 => if c.red = 0 then (bf16.add .rne (bf16.decode a) (bf16.decode b)).1
      else (opMinMax hi false false (a * 65536) (b * 65536)).1 / 65536
  | d =>
    let le := if d = 2 then decide (sext a 32 ≤ sext b 32) else decide (a ≤ b)
    if c.red = 0 then (a + b) % 2 ^ 32 else if le == hi then b else a

/-- R478: elements folded in ascending rank order; the lists are the ranks' bytes of one range of whole elements. -/
def fold (c : Coll) (ranks : List (List Byte)) : List Byte :=
  let n := (ranks.headD []).length / c.elem
  (List.range n).flatMap fun i =>
    match ranks.map fun r => field r (i * c.elem) c.elem with
    | [] => []
    | x :: xs => toBytes c.elem (xs.foldl c.combine x)

end Coll

/-- What the module reads for a collective: bytes, a failure, or nothing yet, for want of what a peer sends. -/
inductive Got where
  | bytes (bs : List Byte)
  | failed (f : ChunkFail)
  | short (r : RemoteRead)
  deriving DecidableEq, Repr

/-- How the module's reduction tree asks for memory. -/
def collAsker (die ctx : Nat) : Asker := moduleAsker die ctx
/-- Read n bytes through a context's translation, page by page and without allocation, with what peers send. An address that is not
canonical has no leaf at the root. -/
def State.collRead : Nat → State → Nat → Nat → Nat → Nat → List Byte → State × Got × List Byte
  | 0, s, _, _, _, _, peer => (s, .bytes [], peer)
  | fuel + 1, s, die, ctx, va, n, peer =>
    if n = 0 then (s, .bytes [], peer)
    else if !(((Store.get s.ctxs ctx).map fun c => c.canonical va).getD false) then (s, .failed ⟨1, some (1, 4, 0, va, 4)⟩, peer)
    else
      let m := min n (4096 - va % 4096)
      let r := s.engineXlat die ctx va .copySrc
      let rest (s : State) (bs peer : List Byte) : State × Got × List Byte :=
        let q := State.collRead fuel s die ctx (va + m) (n - m) peer
        match q.2.1 with
        | .bytes more => (q.1, .bytes (bs ++ more), q.2.2)
        | _ => q
      match r.2 with
      | .error e => (r.1, .failed ⟨1, some (e.1, e.2.1, e.2.2, va, 4)⟩, peer)
      | .ok x =>
        match x.peer with
        | some p =>
          if !r.1.reachable p then (r.1, .failed ⟨6, none⟩, peer)
          else if peer.length < m then (r.1, .short { bytes := m, va := va, size := 64, kind := .load, port := r.1.peerPort p x.pa }, peer)
          else rest r.1 (peer.take m) (peer.drop m)
        | none =>
          let q := r.1.readPage (collAsker die ctx) { x with cl := 0, wp := 0, ep := 0 } m
          match q.2 with
          | .bytes bs => rest q.1 bs peer
          | .poison => (q.1, .failed ⟨4, none⟩, peer)
          | .reserved => (q.1, .failed ⟨3, none⟩, peer)
          | .cut => (q.1, .failed ⟨6, none⟩, peer)

/-- Pages that a range may meet. -/
def pageFuel (n : Nat) : Nat := n / 4096 + 2

/-- R276: COLL takes its number and runs; its descriptor is read as it is accepted. -/
def Lane.collective (v : Lane) (x : Fields) (s : State) : Act :=
  let a := (v.r64 x.a).toNat
  if !(((s.ctxOf v).map fun c => c.canonical a && c.canonical (a + 63)).getD false) then .trapIn (s.clearBuf v.key) causeCanonical a
  else
    let r := State.collRead 2 s (dieOf v.core) v.g.ctx a 64 v.th.peerBuf
    let start (s : State) (desc : List Byte) (fail : Option ChunkFail) : Act :=
      let dst := v.places 1 x.d
      let n := (s.clearBuf v.key).takeNumber v.th.gid (x.immBits 1 0)
      let r := n.1.newOp { thread := v.key, gid := v.th.gid, core := v.core, pc := v.th.pc, dst := dst, tc := some (x.immBits 1 0, n.2),
                           kind := .coll { desc := desc, fail := fail, record := none, ctx := v.g.ctx } }
      .done (r.1.pendDsts v.key v.th.gid dst)
    match r.2.1 with
    | .bytes bs => if (Coll.of bs).bad bs then .trapIn (r.1.clearBuf v.key) causeIllegal 0 else start r.1 bs none
    | .failed f => start r.1 [] (some f)
    | .short n => v.halted .load r.1 (.remote n)
def execColl (x : Fields) (s : State) :=
  issue (.coll x) { specOf (.coll x) (fun v s => v.collective x s) with rule := copyRight } s

/-- COLLECTIVE (R388, R477): the command runs as a collective of its context. -/
def execCollective (s : State) : Host.Outcome State Fault Refusal :=
  s.command 0x0E (fun c => firstStatus [failing ((Coll.of c.bytes).bad c.bytes) 2, failing (!s.ctxReady c (· != .free)) 3]) fun c s =>
    (s.newOp { thread := 0xFFFFFFFF, gid := 0, core := 0, pc := 0, dst := [], tc := none,
               kind := .coll { desc := c.bytes, fail := none, record := some c, ctx := c.ctx } }).1

/-- The part of [lo, hi) that lies in [a, b). -/
def cutRange (lo hi a b : Nat) : Nat × Nat := (max lo a, min hi b)

/-- R477, R478: the value of the output bytes [p, p + n), given the inputs of the other ranks. -/
def State.collValue (s : State) (die ctx : Nat) (c : Coll) (others : List (List Byte)) (p n : Nat) (peer : List Byte) : State × Got × List Byte :=
  let other (r : Nat) : List Byte := others.getD (if r < c.rank then r else r - 1) []
  if c.op = 1 then
    let b := c.block
    let own := cutRange p (p + n) (c.rank * b) (c.rank * b + b)
    let r := State.collRead (pageFuel n) s die ctx (c.src + (own.1 - c.rank * b)) (own.2 - own.1) peer
    match r.2.1 with
    | .bytes bs => (r.1, .bytes ((List.range n).map fun i =>
        let q := p + i
        if q / b = c.rank then bs.getD (q - own.1) 0 else (other (q / b)).getD (q % b) 0), r.2.2)
    | _ => r
  else
    let e := c.elem
    let lo := p / e * e
    let len := alignUp (p + n) e - lo
    let from' := (if c.op = 0 then c.rank * c.block else 0) + lo
    let r := State.collRead (pageFuel len) s die ctx (c.src + from') len peer
    match r.2.1 with
    | .bytes bs =>
      let ranks := (List.range c.nrank).map fun k => if k = c.rank then bs else ((other k).drop from').take len
      (r.1, .bytes (((c.fold ranks).drop (p - lo)).take n), r.2.2)
    | _ => r

/-- Where a chunk of the output is written, page by page: translated pieces with their lengths, or the failure. -/
def State.collTarget : Nat → State → Nat → Nat → Nat → Nat → State × Except ChunkFail (List (Xlat × Nat))
  | 0, s, _, _, _, _ => (s, .ok [])
  | fuel + 1, s, die, ctx, va, n =>
    if n = 0 then (s, .ok [])
    else if !(((Store.get s.ctxs ctx).map fun c => c.canonical va).getD false) then (s, .error ⟨2, some (1, 4, 0, va, 5)⟩)
    else
      let m := min n (4096 - va % 4096)
      let r := s.engineXlat die ctx va .copyDst
      match r.2 with
      | .error e => (r.1, .error ⟨2, some (e.1, e.2.1, e.2.2, va, 5)⟩)
      | .ok x =>
        if !((x.peer.map r.1.reachable).getD (!r.1.portCut (collAsker die ctx).input x.pa)) then (r.1, .error ⟨6, none⟩)
        else
          let q := State.collTarget fuel r.1 die ctx (va + m) (n - m)
          (q.1, q.2.map fun rest => (x, m) :: rest)

/-- Write bytes to translated pieces. -/
def State.collWrite (s : State) (w : Asker) : List (Xlat × Nat) → List Byte → State
  | [], _ => s
  | (x, n) :: ps, bs =>
    let s := match x.peer with
      | some m => { s with sent := .peerWrite m x.pa (bs.take n) :: s.sent }
      | none => s.writePage w x (bs.take n)
    s.collWrite w ps (bs.drop n)

/-- What the chunks of a collective came to. `waits`: a peer's bytes are not all at the inputs. -/
structure CollRun where
  s : State
  peer : List Byte
  index : Nat
  fails : List (Nat × ChunkFail)
  waits : Bool

/-- R70, R477: one chunk; a chunk that fails stays unwritten. -/
def CollRun.chunk (r : CollRun) (die ctx : Nat) (c : Coll) (others : List (List Byte)) (p : Nat × Nat) : CollRun :=
  let v := r.s.collValue die ctx c others p.1 p.2 r.peer
  match v.2.1 with
  | .short _ => { r with waits := true }
  | .failed f => { r with s := v.1, peer := v.2.2, index := r.index + 1, fails := r.fails ++ [(r.index, f)] }
  | .bytes bs =>
    let t := State.collTarget 2 v.1 die ctx (c.dst + p.1) p.2
    match t.2 with
    | .error f => { r with s := t.1, peer := v.2.2, index := r.index + 1, fails := r.fails ++ [(r.index, f)] }
    | .ok ps => { r with s := t.1.collWrite (collAsker die ctx) ps bs, peer := v.2.2, index := r.index + 1 }

/-- R43, R276: the record of the lowest chunk that failed translation. -/
def State.collRecord (s : State) (o : AOp) (c : CollOp) (fails : List (Nat × ChunkFail)) : State :=
  match fails.findSome? fun f => f.2.xl with
  | none => s
  | some (cause, level, entry, va, acc) =>
    (s.report (s.tenantOf c.ctx)
      { type := 2, cause := cause, ctx := c.ctx, core := 0xFFFF, flags := 16 * level, acc := acc + 112,
        slot := if c.record.isSome then 0 else engineOf o.core, count := 0,
        wid := if c.record.isSome then 0 else s.widOf o.thread o.gid, pc := o.pc, fva := va, entry := entry.toNat }).1

/-- R71, R389: the collective ends: COLL with its status word, a command with its event frame. -/
def State.collEnd (s : State) (op : Nat) (o : AOp) (c : CollOp) (code first nfail : Nat) : State :=
  match c.record with
  | some r => (s.endOp op).finishRecord r (if code = 0 || code = 6 then 0 else 4)
  | none =>
    let a := s.statusField first
    let b := a.1.statusField nfail
    b.1.complete op o [statusWord code a.2 b.2]

/-- The bytes that the other ranks put in, with their exact lengths. -/
def Coll.othersOk (c : Coll) (others : List (List Byte)) : Bool := others.length == c.nrank - 1 && others.all fun l => l.length == c.inLen

/-- R477: run the collective with the module list already read: the state, and whether it has ended. -/
def State.runColl (s : State) (op : Nat) (o : AOp) (k : CollOp) (c : Coll) (list : List Byte) (others : List (List Byte)) (peer : List Byte) :
    State × Bool :=
  let modules := (List.range c.nrank).map fun r => field list (2 * r) 2
  let cut := modules.zipIdx.any fun m => m.2 != c.rank && !s.reachable m.1
  let n := c.chunks.length
  if cut || s.inputs.code ≠ 0 then (s.collEnd op o k 6 0 n, true)
  else if !c.othersOk others then (s, false)
  else
    let r := c.chunks.foldl (fun (r : CollRun) p => if r.waits then r else r.chunk (dieOf o.core) k.ctx c others p)
      { s := s, peer := peer, index := 0, fails := [], waits := false }
    if r.waits then (s, false)
    else
      let s := r.s.collRecord o k r.fails
      match r.fails.head? with
      | some f => (s.collEnd op o k f.2.code f.1 r.fails.length, true)
      | none => (s.collEnd op o k 0 0 0, true)

/-- A descriptor or module list that cannot be read: every chunk fails. The number of chunks of a descriptor that has not been read is a
free value. -/
def State.failColl (s : State) (op : Nat) (o : AOp) (k : CollOp) (f : ChunkFail) : State :=
  let s := s.collRecord o k [(0, f)]
  if k.desc.isEmpty then ({ s with nextChoice := s.nextChoice + 1 } : State).collEnd op o k f.code 0 ((Config.freeWord s.nextChoice).toNat % 8192)
  else s.collEnd op o k f.code 0 (Coll.of k.desc).chunks.length

/-- COLLECTIVE_COMPLETION (R276, R477, R478): `peerInputs` are the inputs of the other ranks, in rank order. -/
def execCollectiveCompletion (op : Nat) (peerInputs : List (List Byte)) (s : State) : Host.Outcome State Fault Refusal :=
  match Store.get s.ops op with
  | none => .next s
  | some o =>
    match o.kind with
    | .coll k =>
      if k.record.isNone && (s.group o.gid).isNone then .next s
      else
        match k.fail with
        | some f => happen (s.failColl op o k f)
        | none =>
          let c := Coll.of k.desc
          let l := State.collRead (pageFuel (2 * c.nrank)) s (dieOf o.core) k.ctx c.mlist (2 * c.nrank) s.inputs.peer.data
          match l.2.1 with
          | .short _ => .next s
          | .failed f => happen (l.1.failColl op o k f)
          | .bytes list =>
            let r := l.1.runColl op o k c list peerInputs l.2.2
            if r.2 then happen r.1 else .next s
    | _ => .next s

end Sys2Proof.Machine
end

