-- ==== Sys2Proof/Machine/Place.lean ====
section
/-!
DEFINITION. Placement of gangs (R87 to R89, R106, R393, R402, R406 to R411, R453), the ends of groups
(R209, R378), pipeline balancing (R404, R405) and the display
reservation (R350, R401).
-/
namespace Sys2Proof.Machine

/-- R453: the choice index among n candidates. -/
def splitMix (seed : DWord) (index n : Nat) : Nat :=
  let z : DWord := seed + dword index * 0x9E3779B97F4A7C15
  let z := (z ^^^ (z >>> 30)) * 0xBF58476D1CE4E5B9
  let z := (z ^^^ (z >>> 27)) * 0x94D049BB133111EB
  let z := z ^^^ (z >>> 31)
  z.toNat / 2 ^ 32 * n / 2 ^ 32

/-- R87: the lowest place of n granules between lo and hi beside the ranges in use. -/
def lowestFit (lo hi n : Nat) (used : List (Nat × Nat)) : Option Nat :=
  let used := used.filter fun u => u.2 != 0
  let ok (c : Nat) : Bool := decide (lo ≤ c) && decide (c + n ≤ hi) && used.all fun u => decide (c + n ≤ u.1) || decide (u.1 + u.2 ≤ c)
  if n = 0 then some lo
  else ((lo :: used.map fun u => u.1 + u.2).filter ok).foldl (fun best c => match best with
    | none => some c
    | some b => some (min b c)) none

/-- R106: the rows that a group holds in quadrant q. -/
def Group.quadRows (g : Group) (q : Nat) : List Nat := let per := ceilDiv g.threads 128; (g.rows.drop (q * per)).take per
/-- R106: the lowest free rows of a quadrant, `per` of them. -/
def freeRows (gs : List Group) (q per : Nat) : List Nat :=
  ((List.range 16).filter fun r => !(gs.any fun g => (g.quadRows q).contains r)).take per

/-- R86: the regions of a partition word in granules: register, scratchpad, accumulator. -/
def partRegions (w : Nat) : (Nat × Nat) × (Nat × Nat) × (Nat × Nat) :=
  ((0, bits w 7 0 * 16), (bits w 7 0 * 16, (bits w 7 0 + bits w 15 8) * 16), (2048 - bits w 23 16 * 16, 2048))
/-- R89: an allocation that lives lies inside a region. -/
def inRegion (r : Nat × Nat) (base len : Nat) : Bool := len == 0 || (decide (r.1 ≤ base) && decide (base + len ≤ r.2))
def Group.spGran (g : Group) : Nat := g.spLen / 1024
def Group.accGran (g : Group) : Nat := 64 * g.tileCount

/-- Where a group would stand on a core. -/
structure Spot where
  core : Nat
  regBase : Nat
  spBase : Nat
  accBase : Nat
  rows : List Nat
  deriving DecidableEq, Repr

/-- What a group needs: its partition word, granules, threads, and whether it brings a thresher slot that has begun. -/
structure Need where
  part : Nat
  reg : Nat
  sp : Nat
  acc : Nat
  threads : Nat
  thresher : Bool
  deriving DecidableEq, Repr

def Launch.need (l : Launch) : Need :=
  { part := l.part, reg := l.regNeed, sp := l.spNeed, acc := l.accNeed, threads := l.threads, thresher := false }
def SavedGroup.need (v : SavedGroup) : Need :=
  { part := v.group.part.toNat, reg := v.group.regLen, sp := v.group.spGran, acc := v.group.accGran, threads := v.group.threads,
    thresher := v.threads.any fun t => t.tid == 0xFFFFFFFF }

/-- R87, R89, R106: where a group fits on a core, if it does. -/
def State.spot (s : State) (core : Nat) (n : Need) : Option Spot :=
  let gs := (s.groups.filter fun e => e.2.core == core).map Prod.snd
  let r := partRegions n.part
  let same := gs.isEmpty || (Store.rd 0 s.partWord core).toNat == n.part ||
    gs.all fun g => inRegion r.1 g.regBase g.regLen && inRegion r.2.1 g.spBase g.spGran && inRegion r.2.2 g.accBase g.accGran
  let per := ceilDiv n.threads 128
  let rows := (List.range 4).map fun q => freeRows gs q per
  if !same || !(rows.all fun l => l.length == per) || (n.thresher && (Store.get s.thresher core).isSome) then none
  else
    match lowestFit r.1.1 r.1.2 n.reg (gs.map fun g => (g.regBase, g.regLen)), lowestFit r.2.1.1 r.2.1.2 n.sp (gs.map fun g => (g.spBase, g.spGran)),
          lowestFit r.2.2.1 r.2.2.2 n.acc (gs.map fun g => (g.accBase, g.accGran)) with
    | some a, some b, some c => some { core := core, regBase := a, spBase := b, accBase := c, rows := rows.flatten }
    | _, _, _ => none

/-- R331, R350: a launch of a context's graphics pipeline. -/
def State.inGraphics (s : State) (ctx : Nat) (l : Launch) : Bool :=
  l.ctx == ctx && l.isStage && ((((Store.get s.ctxs ctx).bind fun c => Store.get c.pipes l.slot).map Pipe.gfx).getD false)
/-- R350, R406: the display reservation of another's view set holds a core. -/
def State.heldAgainst (s : State) (core : Nat) (l : Launch) : Bool :=
  s.views.any fun v => v.2.inWindow && v.2.held.contains core && !s.inGraphics (v.1 / 4) l
/-- R409: the gangs that claim a region, as launch and gang. -/
def State.claimants (s : State) (r : Nat) : List (Nat × Nat) :=
  s.launches.flatMap fun e => (e.2.claims.filter fun c => c.2 == r).map fun c => (e.1, c.1)
/-- R406, R409: the eligible cores of a region for the groups of a gang; a region that another gang claims has none. -/
def State.eligible (s : State) (key : Nat) (l : Launch) (gang : Nat) (n : Need) (r : Nat) : List Spot :=
  if (s.claimants r).any (· != (key, gang)) then []
  else (regionCores r).filterMap fun c => if s.fenced c || s.heldAgainst c l then none else s.spot c n

/-- R393: the gang's fields F2 to F5. -/
def Launch.gangFields (l : Launch) (n : Nat) : List Nat := if l.hasWalker || l.isStage then [0, 0, 0, 0] else splitTile l.extents false n
/-- R393: a queue of the header, as QDEF defines it. -/
def headerQueue (w gang : Nat) : Queue :=
  let n := bits w 44 38
  { base := bits w 20 0, size := bits w 37 21, n := n, mcast := w.testBit 45, sender := bits w 48 46, free := List.range n, filled := [],
    slots := List.replicate n .free, engines := [], sent := 0, credits := List.replicate gang n, ring := [] }
/-- R393: a uniform register at launch. -/
def Launch.uniform (l : Launch) (n : Nat) : Word :=
  if (l.hdr 64 2).testBit n then word (l.hdr (128 + 4 * n) 4) else l.args.getD n 0

/-- R88, R393: group m of gang n as it begins. -/
def Launch.group (l : Launch) (key n m now : Nat) (p : Spot) : Group where
  ctx := l.ctx
  core := p.core
  launch := key
  gang := n
  member := m
  gangSize := l.gangSize
  threads := l.threads
  stackWords := l.stackWords
  part := word l.part
  rows := p.rows
  regBase := p.regBase
  regLen := l.regNeed
  spBase := p.spBase
  spLen := 1024 * l.spNeed
  accBase := p.accBase
  tileCount := l.tileCount
  fields := m :: l.gangFields n
  widths := l.widths
  k := (List.range 16).foldl (fun k i => Store.wr 0 k i (l.uniform i)) []
  kpend := []
  kfrom := []
  kbad := []
  sp := []
  spBad := []
  spWeak := []
  tiles := []
  queues := (List.range 16).foldl (fun q i => if (l.queueWord i).testBit 63 then Store.put q i (headerQueue (l.queueWord i) l.gangSize) else q) []
  tcs := List.replicate 4 ⟨0, 0, []⟩
  bars := (List.range 16).foldl (fun b i => if l.barrierWord i = 0 then b else Store.put b i { expected := l.barrierWord i, arrivals := 0, phase := 0 }) []
  cvs := []
  posts := []
  msgs := []
  lseed := dword (l.record.at' 32 8)
  args := l.args
  code := l.code
  prod := l.prod
  thr := l.thr
  stage := if l.isStage then some (l.slot, l.stage) else none
  live := l.threads
  placed := now
  leaving := false

/-- R112, R393: the spill address of thread tid of group m of gang n. -/
def Launch.spill (l : Launch) (n m tid : Nat) : DWord :=
  dword ((l.hdr 48 8 + (n * l.gangSize + m) * l.hdr 60 4 + tid * l.hdr 56 4) % 2 ^ 57 / 64 * 64)
/-- R88, R108, R115, R393: a thread as its group begins. -/
def Launch.thread (l : Launch) (gid n m tid now : Nat) : Thread :=
  { thresherThread gid l.code now with tid := tid, words := l.stackWords, wsp := l.spill n m tid }

/-- R88: the byte of a core's pool lies in a group's allocations. -/
def Group.owns (g : Group) (a : Nat) : Bool :=
  [(g.regBase, g.regLen), (g.spBase, g.spGran), (g.accBase, g.accGran)].any fun r => decide (1024 * r.1 ≤ a) && decide (a < 1024 * (r.1 + r.2))
/-- R88, R105, R378: a core takes a group, whose allocations are written, and which acquires. -/
def State.enrol (s : State) (gid : Nat) (g : Group) : State :=
  let written (u : Upset) : Bool := u.array == .pool && u.core == g.core && g.owns u.addr
  { s with groups := Store.put s.groups gid g, partWord := Store.wr 0 s.partWord g.core g.part,
           upsets := s.upsets.filter fun u => !written u }.invalidateCache g.core

/-- A new group of a gang is placed. -/
def State.placeNew (s : State) (key : Nat) (l : Launch) (n m : Nat) (p : Spot) : State :=
  let gid := s.nextGid
  let s := { s with nextGid := gid + 1 }.enrol gid (l.group key n m s.now p)
  (List.range l.threads).foldl (fun s tid => s.setThread (threadKey p.core l.threads p.rows tid) (l.thread gid n m tid s.now)) s

/-- R248: a thread's accesses are to be reissued. -/
def Thread.unstopped (th : Thread) : Thread := { th with kept := th.kept.map fun a => { a with stopped := false } }
/-- R130: a sheaf whose tables are to be read again. -/
def Sheaf.forgotten (sh : Sheaf) : Sheaf := { sh with tables := [] }
/-- R102, R130, R402, R423: a saved thread as it stands after a restore; one whose record was resumed reissues its kept accesses first. -/
def Thread.restored (th : Thread) (now : Nat) : Thread :=
  let th := { (if th.isParked then th else th.unstopped) with
    since := now, reload := th.sheaf.isSome || th.susp.isSome, sheaf := th.sheaf.map Sheaf.forgotten, susp := th.susp.map Sheaf.forgotten }
  if th.st = .waiting .safePoint then { th with st := if th.kept.isEmpty then .ready else .waiting .kept } else th
/-- The key of a saved thread on its new core. -/
def Spot.key (p : Spot) (threads tid : Nat) : Nat := if tid = 0xFFFFFFFF then thresherKey p.core else threadKey p.core threads p.rows tid
/-- R36, R102: the copies of a restored group ask their engine for their pages again. -/
def State.askAgain (s : State) (gid ctx : Nat) : State :=
  s.ops.foldl (fun s e => match e.2.kind with
    | .copy c => if e.2.gid == gid then s.askPages e.1 ctx c else s
    | _ => s) s
/-- R102, R274, R423: what a restored thread does first. -/
def State.wakeRestored (s : State) (key : Nat) : State :=
  match (Store.get s.threads key).map Thread.isParked with
  | some false => (s.resumeKept key).reviewBarrier key
  | _ => s
/-- R402: a saved group is placed: its threads, receives, reissued operations and scoreboard entries take their new places. -/
def State.placeSaved (s : State) (v : SavedGroup) (p : Spot) : State :=
  let key (tid : Nat) : Nat := p.key v.group.threads tid
  let shift (a : Nat) : Nat := a + 1024 * p.spBase - 1024 * v.group.spBase
  let g : Group := { v.group with core := p.core, regBase := p.regBase, spBase := p.spBase, accBase := p.accBase, rows := p.rows, placed := s.now,
                                  leaving := false, posts := v.group.posts.map fun (q : Post) => { q with thread := key q.thread } }
  let move (o : AOp) : AOp := { o with thread := key o.thread, core := p.core, kind := match o.kind with
    | .copy c => .copy { c with engine := engineOf p.core, pages := [] }
    | k => k }
  let s : State := { s with
    saved := s.saved.filter fun w => w.gid != v.gid
    ops := s.ops.map fun (e : Nat × AOp) => (e.1, if e.2.gid == v.gid then move e.2 else e.2)
    board := s.board ++ v.board.map fun (b : SbEntry) => { b with core := p.core, lo := shift b.lo, hi := shift b.hi }
    thresher := if v.need.thresher then Store.put s.thresher p.core v.gid else s.thresher }
  let s := v.threads.foldl (fun (s : State) th => s.setThread (key th.tid) (th.restored s.now)) (s.enrol v.gid g)
  v.threads.foldl (fun (s : State) th => s.wakeRestored (key th.tid)) ((s.askAgain v.gid g.ctx).notePush v.gid)

/-- The saved groups of a gang, by member. -/
def State.savedGang (s : State) (launch gang : Nat) : List SavedGroup :=
  (List.range 8).filterMap fun m => s.saved.find? fun v => v.group.inGang launch gang && v.group.member == m
/-- R403: the resident groups of a stage launch's pool. -/
def State.poolSize (s : State) (key : Nat) : Nat := (s.groups.filter fun e => e.2.launch == key).length
/-- R408: the lowest-numbered gang of a launch that is not on the cores: a saved one, else the next. A stage launch places no more
groups than its target (R403). -/
def State.nextGang (s : State) (key : Nat) (l : Launch) : Option Nat :=
  let full := l.isStage && match (Store.get s.ctxs l.ctx).bind fun c => Store.get c.pipes l.slot with
    | some p => decide (p.targets.getD l.stage 0 ≤ s.poolSize key)
    | none => false
  let mine := (s.saved.filter fun v => v.group.launch == key).map fun v => v.group.gang
  if full then none
  else match mine with
    | a :: as => some (as.foldl min a)
    | [] => if l.next < l.gangs then some l.next else none
/-- R408: whether a launch brings a candidate to a pass. -/
def State.isCandidate (s : State) (key : Nat) (l : Launch) : Bool :=
  l.ready.isSome && (s.nextGang key l).isSome && match (Store.get s.ctxs l.ctx).map Ctx.st with
    | some .active => true
    | some .idle => true
    | _ => false

/-- R408, R409: a gang that a launch brings to a pass, and whether it is aged. -/
structure Candidate where
  key : Nat
  launch : Launch
  gang : Nat
  deriving DecidableEq, Repr

def Candidate.passes (c : Candidate) : Nat := Store.rd 0 c.launch.passes c.gang
def Candidate.aged (c : Candidate) : Bool := decide (200 ≤ c.passes)
/-- R395, R408: the order of candidates: aged gangs first, by age, then by the time at which their launch became ready, and at one time
by node number, then by queue and index. -/
def Candidate.before (a b : Candidate) : Bool :=
  let k (c : Candidate) : List Nat :=
    let l := c.launch
    [if c.aged then 0 else 1, if c.aged then 2 ^ 64 - c.passes else 0, l.ready.getD 0, boolNat (!l.record.graph),
     if l.record.graph then l.record.node else l.record.queue, l.record.index]
  decide (k a < k b)
/-- Insert a candidate in its place. -/
def insertCand (e : Candidate) : List Candidate → List Candidate
  | [] => [e]
  | f :: l => if e.before f then e :: f :: l else f :: insertCand e l
/-- R408: the candidates of a pass, in their order, by launch. -/
def State.candidates (s : State) : List Nat :=
  ((s.launches.filterMap fun e => if s.isCandidate e.1 e.2 then (s.nextGang e.1 e.2).map fun n => (⟨e.1, e.2, n⟩ : Candidate) else none).foldl
    (fun l e => insertCand e l) []).map Candidate.key

/-- R409: the region that an aged gang claims. -/
def State.claimRegion (s : State) (g : Nat) : Option Nat :=
  let free := (List.range 24).filter fun r => (s.claimants r).isEmpty &&
    decide (g ≤ ((regionCores r).filter fun c => !s.fenced c).length)
  let load (r : Nat) : Nat := (s.groups.filter fun e => regionOf e.2.core == r).length
  free.foldl (fun best r => match best with
    | none => some r
    | some b => if load r < load b then some r else some b) none

/-- R407: the spots of a gang: the policy's region and its lowest eligible cores. -/
def State.chooseSpots (s : State) (key : Nat) (l : Launch) (gang : Nat) : Option (List Spot) :=
  let n := match s.savedGang key gang with
    | [] => l.need
    | v :: vs => { v.need with thresher := (v :: vs).any fun w => w.need.thresher }
  let lists := ((List.range 24).map fun r => (s.eligible key l gang n r)).filter fun e => decide (l.gangSize ≤ e.length)
  let seeded := ((Store.get s.ctxs l.ctx).map fun c => c.cfl.getLsbD 1).getD false
  (if seeded then lists[splitMix l.seed gang lists.length]? else lists.head?).map fun e => e.take l.gangSize

/-- R410: a launch whose gangs fit no region any more: those not yet placed are not placed, and those that stand saved, which nothing can
restore, end. -/
def State.endUnplaced (s : State) (key : Nat) (l : Launch) : State :=
  let mine (v : SavedGroup) : Bool := v.group.launch == key
  let gids := (s.saved.filter mine).map SavedGroup.gid
  let gangs := ((s.saved.filter mine).map fun v => v.group.gang).eraseDups
  let s : State := { s with
    launches := Store.put s.launches key { l with gangs := l.next, status := 7, passes := [], claims := [] }
    saved := s.saved.filter fun v => !mine v
    ops := s.ops.filter fun (e : Nat × AOp) => !gids.contains e.2.gid }
  gangs.foldl (fun s n => s.finishGang key n) s
/-- R409: an aged gang claims a region at its first pass as one, or as soon as there is one to claim. -/
def State.claimFor (s : State) (l : Launch) (gang : Nat) : Launch :=
  if 200 ≤ Store.rd 0 l.passes gang && (Store.get l.claims gang).isNone then
    match s.claimRegion l.gangSize with
    | some r => { l with claims := Store.put l.claims gang r }
    | none => l
  else l
/-- R399, R407, R409: place a gang, or count the pass. -/
def State.tryGang (s : State) (key : Nat) : State :=
  match Store.get s.launches key with
  | none => s
  | some l =>
    if s.widestRegion < l.gangSize then s.endUnplaced key l
    else
      match s.nextGang key l with
      | none => s
      | some gang =>
        let l := s.claimFor l gang
        let s := { s with launches := Store.put s.launches key l }
        match s.chooseSpots key l gang with
        | none => { s with launches := Store.put s.launches key { l with passes := Store.wr 0 l.passes gang (Store.rd 0 l.passes gang + 1) } }
        | some spots =>
          let old := s.savedGang key gang
          let s := if old.isEmpty then spots.zipIdx.foldl (fun s p => s.placeNew key l gang p.2 p.1) s
            else old.foldl (fun s v => match spots[v.group.member]? with
              | some p => s.placeSaved v p
              | none => s) s
          let l := { l with next := if old.isEmpty then l.next + 1 else l.next, passes := Store.del l.passes gang, claims := Store.del l.claims gang }
          ({ s with launches := Store.put s.launches key l } : State).updCtx l.ctx fun c => if c.st = .idle then { c with st := .active, entered := s.now } else c

/-- R408: the number of the present period of 100 ns, 110 core clocks, since the end of bring-up. -/
def State.passPeriod (s : State) : Nat := (s.now - s.epoch) / 110
/-- R408: a pass is due, and has candidates. -/
def State.passDue (s : State) : Bool := s.ready && decide (s.passNo < s.passPeriod) && !s.candidates.isEmpty
/-- GROUP_COMPLETION (R131, R209, R378, R428): a fencing release, a progress event, and its gang's end when it is the last. A pass of
the same clock comes first and does not see it (R411). -/
def execGroupCompletion (group : Nat) (s : State) : Host.Outcome State Fault Refusal :=
  match s.group group with
  | none => .next s
  | some g =>
    if s.groupDone group g && !s.passDue then
      let s := s.drainAll.dropGroup group
      happen ((if s.aborted g then s else s.progress g.ctx).finishGang g.launch g.gang)
    else .next s

/-- PLACEMENT_PASS (R408): candidates are fixed at the start of the pass. -/
def execPlacementPass (s : State) : Host.Outcome State Fault Refusal :=
  if !s.passDue then .next s
  else happen { s.candidates.foldl (fun s k => s.tryGang k) s with passNo := s.passPeriod }

/-- R405: the score of a stage: its groups' q0 filled per 256 slots, and 256 more when a push had to wait. -/
def State.stageScore (s : State) (ctx slot stage : Nat) : Nat :=
  let gs := s.groups.filter fun e => e.2.ctx == ctx && e.2.stage == some (slot, stage)
  let qs : List Queue := gs.filterMap fun e => Store.get e.2.queues 0
  let f : Nat := (qs.map fun q => q.filled.length).foldl (· + ·) 0
  let c : Nat := (qs.map fun q => q.n).foldl (· + ·) 0
  (if c = 0 then 0 else 256 * f / c) + 256 * boolNat (gs.any fun e => s.pushWaited.contains e.1)
/-- R404, R405: the code stages whose launch has been taken. -/
def State.served (s : State) (ctx slot : Nat) (p : Pipe) : List Nat :=
  (List.range p.mins.length).filter fun i => p.codeStage i && s.stageBusy ctx slot (some i)
/-- R405: the move that a pipeline makes, as loser and gainer. -/
def State.stageMove (s : State) (ctx slot : Nat) (p : Pipe) : Option (Nat × Nat) :=
  let sc (i : Nat) : Nat := s.stageScore ctx slot i
  let served := s.served ctx slot p
  let best (l : List Nat) (better : Nat → Nat → Bool) : Option Nat := l.foldl (fun b i => match b with
    | none => some i
    | some j => if better i j then some i else some j) none
  match best (served.filter fun i => decide (p.targets.getD i 0 < p.maxs.getD i 0)) fun i j => decide (sc j < sc i) with
  | none => none
  | some g =>
    match best (served.filter fun i => i != g && decide (p.mins.getD i 0 < p.targets.getD i 0)) fun i j => decide (sc i ≤ sc j) with
    | none => none
    | some l => if sc l + 64 ≤ sc g then some (l, g) else none

/-- R405: the group of a stage that was placed last. -/
def State.lastPlaced (s : State) (ctx slot stage : Nat) : Option (Nat × Group) :=
  (s.groups.filter fun e => e.2.ctx == ctx && e.2.stage == some (slot, stage) && !e.2.leaving).foldl (fun best e => match best with
    | none => some e
    | some b => if b.2.placed < e.2.placed || (b.2.placed == e.2.placed && decide (b.2.gang < e.2.gang)) then some e else some b) none
/-- R405: make a move. A stage-3 group of the graphics pipeline is first marked to leave. -/
def State.moveStage (s : State) (ctx slot : Nat) (p : Pipe) (m : Nat × Nat) : State :=
  let t := (p.targets.set m.1 (p.targets.getD m.1 0 - 1)).set m.2 (p.targets.getD m.2 0 + 1)
  let s := s.updCtx ctx fun c => { c with pipes := Store.upd c.pipes slot fun p => { p with targets := t } }
  match s.lastPlaced ctx slot m.1 with
  | none => s
  | some (gid, g) => if p.gfx && m.1 == 3 then (s.updGroup gid fun g => { g with leaving := true }).releaseLeaving ctx else s.stopGang g

/-- R455: the stream of a pipeline slot. -/
def pipeStream (slot : Nat) (e : LogEntry) : Bool := e.kind == 4 && e.head == slot * 256
/-- R405, R454, R455: the move of period k: in REPLAY the recorded one and no other. -/
def State.decideMove (s : State) (ctx slot : Nat) (p : Pipe) : State × Option (Nat × Nat) :=
  match Store.get s.ctxs ctx with
  | none => (s, none)
  | some c =>
    if s.forcing ctx then
      let n := c.log.wpos / 32 - c.log.rpos / 32
      let r := State.scanLog (pipeStream slot) c.log.ahead ctx (min n 65536) (c.log.rpos / 32) s
      match r.2 with
      | .ok (some (j, e)) => if e.who = p.period then (r.1.consume ctx j, some (bits e.x 2 0, bits e.x 10 8)) else (r.1, none)
      | .ok none => (r.1, none)
      | .error _ => (r.1.diverge ctx, none)
    else
      match s.stageMove ctx slot p with
      | some m => (s.logChoice { ctx := ctx, kind := 4, head := slot * 256, who := p.period, x := m.1 + 256 * m.2, y := 0 }, some m)
      | none => (s, none)

/-- R405: what is kept of waiting pushes for the next period: those that still wait. -/
def State.clearWaited (s : State) (ctx slot : Nat) : State :=
  let mine (g : Nat) : Bool := match s.group g with
    | some x => x.ctx == ctx && (x.stage.map Prod.fst) == some slot &&
        !(((Store.get x.queues 0).map fun q => q.engines.any fun e => e.slot.isNone).getD false)
    | none => true
  { s with pushWaited := s.pushWaited.filter fun g => !mine g }

/-- 16 µs in core clocks (R8). -/
def balanceClocks : Nat := 17600
/-- BALANCE_PERIOD (R405): the end of a balance period of a pipeline. -/
def execBalancePeriod (ctx slot : Nat) (s : State) : Host.Outcome State Fault Refusal :=
  match (Store.get s.ctxs ctx).bind fun c => Store.get c.pipes slot with
  | none => .next s
  | some p =>
    if s.now < p.since + balanceClocks * (p.period + 1) then .next s
    else
      let r := s.decideMove ctx slot p
      let s := match r.2 with
        | some m => r.1.moveStage ctx slot p m
        | none => r.1
      happen ((s.clearWaited ctx slot).updCtx ctx fun c => { c with pipes := Store.upd c.pipes slot fun p => { p with period := p.period + 1 } })

/-- R350: the cores that a reservation chooses on a die. -/
def State.holdCores (s : State) (vs : ViewSet) (die : Nat) : List Nat :=
  let kept (c : Nat) : Bool := s.fenced c || s.groups.any fun e => e.2.core == c && decide (2 ≤ s.mode e.2.ctx)
  (((List.range 96).map fun i => 96 * die + i).filter fun c => !kept c).take vs.res
/-- R350, R401: the gangs of other contexts on held cores are asked to stop, by a time. -/
def State.clearCores (s : State) (ctx : Nat) (cores : List Nat) (deadline : Nat) : State :=
  (s.groups.filter fun e => cores.contains e.2.core && e.2.ctx != ctx).foldl (fun s e => s.stopGangBy e.2 deadline) s
/-- 6 µs, in core clocks (R8, R350). -/
def clearClocks : Nat := 6600
/-- R350: the time at which the present or next window opens, and the one at which it closes. -/
def ViewSet.opens (v : ViewSet) (f : Nat) : Int := v.latchTime f 0
def ViewSet.closes (v : ViewSet) : Int := v.deadline v.window (v.strips - 1) + 55000

/-- RESERVATION_STOP_REQUEST (R350, R401): 25 µs before a window opens. -/
def execReservationStopRequest (ctx slot : Nat) (s : State) : Host.Outcome State Fault Refusal :=
  match s.view ctx slot with
  | none => .next s
  | some v =>
    if v.inWindow || v.stopSent || (s.now : Int) + stopClocks < v.opens v.window then .next s
    else
      let cores := s.holdCores v 0 ++ s.holdCores v 1
      happen ((s.updView ctx slot fun v => { v with held := cores, stopSent := true }).clearCores ctx cores (s.now + stopClocks))

/-- R350: a window opens: cores are held, a die on which too few qualify counts once for the window, and groups of other contexts that are
still there leave within 6 µs. -/
def State.openWindow (s : State) (ctx slot : Nat) (v : ViewSet) : State :=
  let a := s.holdCores v 0
  let b := s.holdCores v 1
  let short := a.length < v.res || b.length < v.res
  (s.updView ctx slot fun v => { v with held := a ++ b, inWindow := true, stopSent := true,
                                        rshort := if short then satAdd v.rshort 1 else v.rshort }).clearCores ctx (a ++ b)
    (min (s.now + stopClocks) (v.opens v.window + clearClocks).toNat)
/-- SCANOUT_WINDOW_START (R350). -/
def execScanoutWindowStart (ctx slot : Nat) (s : State) : Host.Outcome State Fault Refusal :=
  match s.view ctx slot with
  | none => .next s
  | some v => if v.inWindow || (s.now : Int) < v.opens v.window then .next s else happen (s.openWindow ctx slot v)

/-- SCANOUT_WINDOW_END (R350): the cores are free again, unless the next window has opened already. -/
def execScanoutWindowEnd (ctx slot : Nat) (s : State) : Host.Outcome State Fault Refusal :=
  match s.view ctx slot with
  | none => .next s
  | some v =>
    if !v.inWindow || (s.now : Int) < v.closes || v.latchNo < (v.window + 1) * v.strips then .next s
    else
      let s := s.updView ctx slot fun v => { v with window := v.window + 1, inWindow := false, held := [], stopSent := false }
      happen (match s.view ctx slot with
        | some v => if v.opens v.window ≤ (s.now : Int) then s.openWindow ctx slot v else s
        | none => s)

end Sys2Proof.Machine
end

