-- ==== Sys2Proof/Machine/Errors.lean ====
section
/-!
DEFINITION. Uncorrectable errors and their reports (R53, R55, R103, R426), the service of the fault queue (R421, R423), and the end of
a record's stream in a replay (R455).
-/
namespace Sys2Proof.Machine

/-- R422: the record of the events of one period. -/
def UEvent.record (e : UEvent) : RecInit where
  type := 7
  cause := e.source
  ctx := e.ctx
  core := (e.thread.map coreOf).getD 0xFFFF
  flags := (e.thread.map quadOf).getD 0 + 240
  acc := 0
  slot := (e.thread.map slotNo).getD 0
  count := 0
  wid := e.wid
  pc := if e.thread.isSome then e.pc else 0
  fva := e.addr
  entry := e.count

/-- R426: the folded events of the period that ends become records of the tenants that owned the contexts. -/
def State.reportErrors (s : State) : State := s.uevents.foldl (fun s e => (s.report e.tenant e.record).1) { s with uevents := [] }
/-- UE_REPORT_PERIOD (R426). -/
def execUeReportPeriod (s : State) : Host.Outcome State Fault Refusal :=
  if s.uevents.isEmpty || !s.periodDue then .next s else happen s.reportErrors

/-- FAULT_RECORD_WRITE (R421). -/
def execFaultRecordWrite (tenant : Nat) (s : State) : Host.Outcome State Fault Refusal :=
  let q := (s.tenant tenant).fq
  if q.held.isEmpty || q.k = 0 || 2 ^ q.k ≤ q.widx - q.ridx then .next s else happen (s.writeHeld tenant)

/-- R421: the tenants whose WIDX advanced in the period that ends, and one frame for each of them. -/
def State.advancedQueues (s : State) : List Nat := (s.tenants.filter fun t => t.2.fq.advanced).map Prod.fst
def State.sendFaultFrames (s : State) : State :=
  s.advancedQueues.foldl (fun s t =>
    let v := s.tenant t
    (s.setTenant t { v with fq := { v.fq with advanced := false } }).sendEvent t 4 0 0 0 0xFFFF v.fq.widx 0) s
/-- FAULT_QUEUE_FRAME_PERIOD (R421). -/
def execFaultQueueFramePeriod (s : State) : Host.Outcome State Fault Refusal :=
  if s.advancedQueues.isEmpty || !s.periodDue then .next s else happen s.sendFaultFrames

/-- FAULT_RIDX_NOTICE (R421). -/
def execFaultRidxNotice (tenant : Nat) (s : State) : Host.Outcome State Fault Refusal :=
  let v := s.tenant tenant
  let r := s.rawRead (v.fq.ctrl + 8) 8
  let ridx := ofBytes r.2.1
  if v.fq.k = 0 || r.2.2 || ridx = v.fq.ridx then .next s
  else happen (r.1.setTenant tenant { v with fq := { v.fq with ridx := ridx } })

/-- R423: kept accesses are discarded, and what they held pending clears. -/
def State.dropKept (s : State) (key : Nat) (th : Thread) : State :=
  let ops := (th.kept.filter fun a => a.kind == .load || a.returns).map Access.op
  let s := ops.foldl (fun s op => match Store.get s.ops op with
    | some o => o.dst.foldl (fun s d => s.unpendDst key th.gid d) (s.endOp op)
    | none => s) s
  s.updThread key fun th => { th with kept := [], ahead := 0 }

/-- R423: EXIT at the parked instruction. The thresher slot stops for its group. -/
def State.exitParked (s : State) (key : Nat) (th : Thread) : State :=
  if isThresher key then (s.dropKept key th).stopThresher key
  else
    let s := s.dropKept key th
    match Store.get s.threads key with
    | none => s
    | some th =>
      if th.pend.isEmpty && !s.fencing key then s.freeThread key th.gid else s.setThread key { th with st := .draining }

/-- R423: what an action leaves of a thread parked on a record of a type: its next address. -/
def resumePc (type action : Nat) (th : Thread) : Nat := if type ≠ 1 && action = 1 then th.pc + 8 else th.pc
/-- R248, R423, R44: a resident thread resumes, its kept accesses first; in a context that is Stopping it becomes Ready at its restore. -/
def State.resumeThread (s : State) (type action key : Nat) (th : Thread) : State :=
  let stopping := match ((s.group th.gid).bind fun g => Store.get s.ctxs g.ctx).map Ctx.st with
    | some .stopping => true
    | some .saving => true
    | _ => false
  if 2 ≤ action then s.exitParked key th
  else
    let th := { th with pc := resumePc type action th, since := s.now }
    if stopping then s.setThread key { th with st := .waiting .safePoint }
    else (s.setThread key { th.unstopped with st := if th.kept.any Access.stopped then .waiting .kept else .ready }).resumeKept key

/-- R423: a saved thread is marked resumed. Of a thread that is to exit, accesses and pending bits are gone at once. -/
def Thread.resumeSaved (th : Thread) (type action seq : Nat) (gone : List Dst) : Thread :=
  if th.st = .parked seq then
    if 2 ≤ action then { th with st := .draining, kept := [], ahead := 0, pend := th.pend.filter fun i => !gone.contains (.stack i) }
    else { th with st := .waiting .safePoint, pc := resumePc type action th }
  else th
/-- The places that the kept accesses of a saved thread hold. -/
def State.keptPlaces (s : State) (th : Thread) : List Dst :=
  ((th.kept.filter fun a => a.kind == .load || a.returns).map Access.op).flatMap fun op => ((Store.get s.ops op).map AOp.dst).getD []
/-- The operations whose accesses the exit of saved threads discards. -/
def Thread.keptOps (th : Thread) (seq : Nat) : List Nat :=
  if th.st = .parked seq then (th.kept.filter fun a => a.kind == .load || a.returns).map Access.op else []
/-- R423: the uniform registers of a saved group that only discarded operations held pending are pending no more. -/
def SavedGroup.unpend (v : SavedGroup) (gone : List Dst) (left : Store AOp) : SavedGroup :=
  let stays (i : Nat) : Bool := !gone.contains (.uniform i) || left.any fun o => o.2.gid == v.gid && o.2.dst.contains (.uniform i)
  { v with group := { v.group with kpend := v.group.kpend.filter stays } }
def State.resumeSaved (s : State) (tenant type action seq : Nat) : State :=
  let mine (v : SavedGroup) : Bool := s.tenantOf v.group.ctx == tenant
  let gone := if 2 ≤ action then (s.saved.filter mine).flatMap fun v => v.threads.flatMap fun th => th.keptOps seq else []
  let places := gone.flatMap fun op => ((Store.get s.ops op).map AOp.dst).getD []
  let left := s.ops.filter fun (e : Nat × AOp) => !gone.contains e.1
  let resumed (v : SavedGroup) : SavedGroup :=
    { (v.unpend places left) with threads := v.threads.map fun (th : Thread) => th.resumeSaved type action seq (s.keptPlaces th) }
  { s with saved := s.saved.map fun (v : SavedGroup) => if mine v then resumed v else v, ops := left }

/-- R423: the action of a record: byte 10 in the ring; a record that is not yet there has 0, as written. -/
def State.readAction (s : State) (q : FaultQ) (seq : Nat) : State × Nat :=
  if q.widx ≤ seq then (s, 0)
  else
    let r := s.rawRead (q.base + 64 * (seq % 2 ^ q.k) + 10) 1
    (r.1, if r.2.2 then 0 else ofBytes r.2.1)

/-- R423: every thread parked on a record of a tenant resumes. -/
def State.resumeRecord (s : State) (tenant : Nat) (f : FRec) : State :=
  let r := s.readAction (s.tenant tenant).fq f.seq
  let on := r.1.threads.filter fun e => e.2.st == .parked f.seq && ((r.1.group e.2.gid).map fun g => r.1.tenantOf g.ctx) == some tenant
  let s := (on.foldl (fun s e => s.resumeThread f.type r.2 e.1 e.2) r.1).resumeSaved tenant f.type r.2 f.seq
  let v := s.tenant tenant
  s.setTenant tenant { v with fq := { v.fq with kinds := Store.del v.fq.kinds f.seq } }

/-- R423: a change of RSM is taken as the resume index; one at or below the index, or beyond WIDX + HELD, is ignored or cut. -/
def State.takeRsm (s : State) (tenant n : Nat) : State :=
  let v := s.tenant tenant
  s.setTenant tenant { v with fq := { v.fq with rsm := max v.fq.rsm (min n (v.fq.widx + v.fq.held.length)), rsmRead := n } }
/-- R423: the lowest record below the resume index on which threads are parked. -/
def FaultQ.nextResumed (q : FaultQ) : Option FRec := (q.kinds.find? fun e => decide (e.1 < q.rsm)).map Prod.snd
/-- RSM_NOTICE (R423): a change of RSM is noticed, and the next record below the resume index resumes, one in a clock. -/
def execRsmNotice (tenant : Nat) (s : State) : Host.Outcome State Fault Refusal :=
  let q := (s.tenant tenant).fq
  if q.k = 0 then .next s
  else
    let r := s.rawRead (q.ctrl + 16) 8
    let new := !r.2.2 && ofBytes r.2.1 != q.rsmRead
    let s' := if new then r.1.takeRsm tenant (ofBytes r.2.1) else r.1
    match (s'.tenant tenant).fq.nextResumed with
    | some f => happen { s'.resumeRecord tenant f with now := s'.now + 1 }
    | none => if new then happen s' else .next s

/-- Where a pool word lies: a register word of a thread, a scratchpad word of a group, or a word that no thread reads by itself. -/
inductive PoolWord where
  | register (key i : Nat)
  | scratch (gid o : Nat)
  | other (gid : Nat)
  | free
  deriving DecidableEq, Repr

/-- R86, R87, R106: the owner of the pool word at byte a of a core. -/
def State.poolWord (s : State) (core a : Nat) : PoolWord :=
  let inside (b n : Nat) : Bool := decide (1024 * b ≤ a) && decide (a < 1024 * (b + n))
  match s.groups.find? fun e => e.2.core == core &&
      (inside e.2.regBase e.2.regLen || inside e.2.spBase e.2.spGran || inside e.2.accBase e.2.accGran) with
  | none => .free
  | some (gid, g) =>
    if inside g.spBase g.spGran then .scratch gid (a - 1024 * g.spBase)
    else if inside g.regBase g.regLen then
      let o := a - 1024 * g.regBase
      let tid := o / (4 * g.stackWords)
      if tid < g.threads then .register (threadKey core g.threads g.rows tid) (o % (4 * g.stackWords) / 4) else .other gid
    else .other gid

/-- R103: a word of a core's pool is marked: with one wrong bit, or uncorrectable. -/
def State.markWord (s : State) (core a : Nat) (double : Bool) : PoolWord → State
  | .register key i => s.updThread key fun th =>
      if double then { th with bad := insertNat i th.bad, weak := th.weak.filter (· != i) } else { th with weak := insertNat i th.weak }
  | .scratch gid o => s.updGroup gid fun g =>
      if double then { g with spBad := insertNat (o / 4) g.spBad, spWeak := g.spWeak.filter (· != o / 4) }
      else { g with spWeak := insertNat (o / 4) g.spWeak }
  | _ => { s with upsets := s.upsets ++ [{ array := .pool, core := core, addr := a, double := double }] }
/-- R103: the word's single-bit error has been corrected and rewritten. -/
def State.renewWord (s : State) (core a : Nat) : PoolWord → State
  | .register key i => s.updThread key fun th => { th with weak := th.weak.filter (· != i) }
  | .scratch gid o => s.updGroup gid fun g => { g with spWeak := g.spWeak.filter (· != o / 4) }
  | _ => { s with upsets := s.upsets.filter fun u => !(u.array == .pool && u.core == core && u.addr == a) }
/-- The error that a word holds: none, one wrong bit, or uncorrectable. -/
def State.wordError (s : State) (core a : Nat) : PoolWord → ScrubFind
  | .register key i => match Store.get s.threads key with
      | some th => if th.bad.contains i then .double else if th.weak.contains i then .single else .clean
      | none => .clean
  | .scratch gid o => match s.group gid with
      | some g => if g.spBad.contains (o / 4) then .double else if g.spWeak.contains (o / 4) then .single else .clean
      | none => .clean
  | _ =>
    let mine := s.upsets.filter fun u => u.array == .pool && u.core == core && u.addr == a
    if mine.any Upset.double then .double else if mine.isEmpty then .clean else .single
/-- A second wrong bit makes a word uncorrectable. -/
def worseFind (a b : ScrubFind) : ScrubFind :=
  match a, b with
  | .clean, b => b
  | a, .clean => a
  | _, _ => .double
/-- A bit error strikes a word of a core's pool. -/
def State.strikePool (s : State) (core a : Nat) (found : ScrubFind) : State :=
  let w := s.poolWord core a
  let old := s.wordError core a w
  match worseFind old found with
  | .clean => s
  | f => if f = old then s else (s.renewWord core a w).markWord core a (f == .double) w
/-- R47, R103, R105: a bit error strikes a word of an array. A slice or a load cache that does not hold the line has no such word. -/
def State.strikeWord (s : State) (u : Upset) : State :=
  let u := { u with addr := u.addr / 4 * 4 }
  let held := match u.array with
    | .pool => decide (u.core < 192) && decide (u.addr < 2 ^ 21)
    | .slice => (Store.get s.lines (u.addr / 128)).isSome
    | .hbm => inHbm u.addr
    | .loadCache => (Store.get s.loadCache (lcKey u.core (u.addr / 128))).isSome
  let same (v : Upset) : Bool := v.array == u.array && v.addr == u.addr && (u.array != .loadCache || v.core == u.core)
  if !held then s
  else if u.array = .pool then s.strikePool u.core u.addr (if u.double then .double else .single)
  else if s.upsets.any same then { s with upsets := s.upsets.map fun v => if same v then { v with double := true } else v }
  else { s with upsets := s.upsets ++ [u] }
/-- R426: the context whose group owns a word; 512, no context, when none does. -/
def State.ownerCtx (s : State) : PoolWord → Nat
  | .register key _ => (((Store.get s.threads key).bind fun th => s.group th.gid).map Group.ctx).getD 512
  | .scratch gid _ => ((s.group gid).map Group.ctx).getD 512
  | .other gid => ((s.group gid).map Group.ctx).getD 512
  | .free => 512


/-- R103: the words of all pools, and the core clocks in which the patrol visits each of them once, 100 ms. DESIGN CHOICE (log 62): it goes
through the cores and their words in ascending order, at one pace. -/
def patrolWords : Nat := 192 * 2 ^ 19
def patrolClocks : Nat := 110000000
/-- The visits that fall due up to a clock. -/
def State.patrolDue (s : State) : Nat := if s.ready then (s.now - s.epoch) * patrolWords / patrolClocks else 0
/-- The pool words with errors, by their place in the patrol. -/
def State.badWords (s : State) : List Nat :=
  let place (core a : Nat) : Nat := core * 2 ^ 19 + a / 4
  ((s.threads.filter fun e => !isThresher e.1).flatMap fun e => match s.group e.2.gid with
    | some g => (e.2.bad ++ e.2.weak).map fun i => place (coreOf e.1) (g.regBase * 1024 + e.2.tid * e.2.words * 4 + 4 * i)
    | none => []) ++
  (s.groups.flatMap fun e => (e.2.spBad ++ e.2.spWeak).map fun w => place e.2.core (e.2.pool (4 * w))) ++
  (s.upsets.filter fun u => u.array == .pool).map fun u => place u.core u.addr
/-- The next visit, at or after the `patrolled`th, that finds an error. -/
def State.nextPatrol (s : State) : Option Nat :=
  (s.badWords.map fun w => s.patrolled + (w + patrolWords - s.patrolled % patrolWords) % patrolWords).foldl (fun best n => match best with
    | none => some n
    | some b => some (min b n)) none

/-- The visits up to now have found nothing, unless one that finds an error is due. -/
def State.patrolTo (s : State) : State :=
  if (s.nextPatrol.map fun n => decide (n < s.patrolDue)).getD false then s else { s with patrolled := max s.patrolled s.patrolDue }
/-- Bit errors strike the arrays before an event. -/
def State.strike (s : State) (us : List Upset) : State := if us.isEmpty || !s.pwrgood then s else us.foldl State.strikeWord s.patrolTo

/-- PATROL_SCRUB (R103): a visit of one word of a core's pool, after what has just struck it. -/
def execPatrolScrub (core word : Nat) (find : ScrubFind) (s : State) : Host.Outcome State Fault Refusal :=
  if !s.pwrgood || 192 ≤ core || 2 ^ 19 ≤ word then .next s
  else
    let s := s.patrolTo
    let next := s.nextPatrol
    let s := s.strikePool core (4 * word) find
    let w := s.poolWord core (4 * word)
    let s' := match next with
      | some n => if n % patrolWords = core * 2 ^ 19 + word then { s with patrolled := n + 1 } else s
      | none => s
    match s.wordError core (4 * word) w with
    | .clean => .next s
    | .single => happen ((s'.renewWord core (4 * word) w).countCorrected 8)
    | .double => happen (s'.countError 6 core (s.ownerCtx w) none 0 (4 * word))

/-- R55, R426, R469: the bridge stops: a record for every loaded context, and a frame for every tenant that has one. -/
def State.stopBridge (s : State) : State :=
  let s := { s with bridgeStopped := true, errors := Store.wr 0 s.errors 7 (satAdd (Store.rd 0 s.errors 7) 1)
                    uevents := s.uevents ++ s.ctxs.map fun (c : Nat × Ctx) =>
                      ({ source := 7, core := 0xFFFF, ctx := c.1, tenant := c.2.tenant, thread := none, wid := 0, pc := 0, addr := 0, count := 1 } : UEvent) }
  ((s.ctxs.map fun c => c.2.tenant).eraseDups).foldl (fun s t => s.sendEvent t 8 0 0 0 0xFFFF 0 0) s

/-- BRIDGE_FLIT_RETRY (R55): one retry of a failed flit, and whether it passed. -/
def execBridgeFlitRetry (passes : Bool) (s : State) : Host.Outcome State Fault Refusal :=
  if !s.pwrgood || s.bridgeStopped then .next s
  else if passes then happen { s with bridgeRetries := 0 }
  else
    let s := { s with bridgeRetries := s.bridgeRetries + 1 }
    happen (if 16 ≤ s.bridgeRetries then s.stopBridge else s)

/-- The launch of a tenant that a record's QUEUE and record index name: it has been taken and is gone, or stands in `launches`. -/
def State.launchOfHead (s : State) (tenant head : Nat) : Option (Nat × Launch) :=
  s.launches.find? fun e => e.2.record.tenant == tenant && s.logHead e.1 == head
def State.launchTaken (s : State) (tenant head : Nat) : Bool :=
  ((s.cmdQ tenant (bits head 15 8)).map fun q => decide (bits head 63 16 < q.ridx)).getD false
/-- R455: the group that a work identifier names has been placed, and is gone. -/
def State.groupGone (s : State) (key : Nat) (l : Launch) (who : Nat) : Bool :=
  let w0 := l.widths.getD 0 0
  let pooled := l.hasWalker || l.isStage
  let here := (s.groups.any fun e => e.2.launch == key && sameGroup w0 who (e.2.wid 0)) ||
    s.saved.any fun v => v.group.launch == key && sameGroup w0 who (v.group.wid 0)
  let fields (n m : Nat) : Nat := (((0 :: m :: l.gangFields n).zipIdx.map fun p => p.1 * 2 ^ widShift l.widths p.2).foldl (· + ·) 0)
  let placed := (List.range l.next).any fun n => (List.range l.gangSize).any fun m => fields n m / 2 ^ w0 == who / 2 ^ w0
  placed && !here && (!pooled || l.next == l.gangs)
/-- R455: the launch or group that owns the stream of an unconsumed record is gone. -/
def State.orphaned (s : State) (tenant : Nat) (e : LogEntry) : Bool :=
  if e.kind = 1 || e.kind = 3 || e.kind = 6 || e.kind = 7 then
    match s.launchOfHead tenant e.head with
    | none => s.launchTaken tenant e.head
    | some (key, l) => e.kind != 1 && s.groupGone key l e.who
  else false

/-- REPLAY_DIVERGENCE (R455): a record that no later choice can consume. -/
def execReplayDivergence (ctx : Nat) (s : State) : Host.Outcome State Fault Refusal :=
  match Store.get s.ctxs ctx with
  | none => .next s
  | some c =>
    if !s.forcing ctx then .next s
    else
      let n := c.log.wpos / 32 - c.log.rpos / 32
      let r := State.scanLog (s.orphaned c.tenant) c.log.ahead ctx (min n 65536) (c.log.rpos / 32) s
      match r.2 with
      | .ok none => .next r.1
      | _ => happen (r.1.diverge ctx)

end Sys2Proof.Machine
end

