-- ==== Sys2Proof/Machine/Float.lean ====
section
/-!
DEFINITION. Majors 0x30 to 0x37 (R219 to R242): FP32 arithmetic, transcendentals, compare, conversion, packed pairs, dot products,
the key, winnow, tithe (R322 to R328) and the approximate forms.
-/
/-- The rounding mode of M (R138). -/
def Sys2Proof.Fields.rm (x : Sys2Proof.Fields) : Sys2Proof.Machine.RMode := Sys2Proof.Machine.RMode.ofM x.m.toNat

namespace Sys2Proof.Machine

/-- An FP32 result with its flags (R221). -/
def Lane.f32 (v : Lane) (x : Fields) (s : State) (r : Nat × Nat) : Act := v.floatDone s r.2 fun s => v.wr32 s x.d (word r.1)
def Lane.na (v : Lane) (x : Fields) : Nat := (v.r32 x.a).toNat
def Lane.nb (v : Lane) (x : Fields) : Nat := (v.r32 x.b).toNat
def Lane.nc (v : Lane) (x : Fields) : Nat := (v.r32 x.c).toNat

def execFadd (x : Fields) (s : State) := issue (.fadd x) (specOf (.fadd x) fun v s => v.f32 x s (opFadd x.ftz x.rm (v.na x) (v.nb x))) s
def execFsub (x : Fields) (s : State) := issue (.fsub x) (specOf (.fsub x) fun v s => v.f32 x s (opFsub x.ftz x.rm (v.na x) (v.nb x))) s
def execFmul (x : Fields) (s : State) := issue (.fmul x) (specOf (.fmul x) fun v s => v.f32 x s (opFmul x.ftz x.rm (v.na x) (v.nb x))) s
def execFma (x : Fields) (s : State) :=
  issue (.fma x) (specOf (.fma x) fun v s => v.f32 x s (opFma x.ftz x.rm (v.na x) (v.nb x) (v.nc x))) s
def execFmin (x : Fields) (s : State) :=
  issue (.fmin x) (specOf (.fmin x) fun v s => v.f32 x s (opMinMax false false x.ftz (v.na x) (v.nb x))) s
def execFmax (x : Fields) (s : State) :=
  issue (.fmax x) (specOf (.fmax x) fun v s => v.f32 x s (opMinMax true false x.ftz (v.na x) (v.nb x))) s
def execFminx (x : Fields) (s : State) :=
  issue (.fminx x) (specOf (.fminx x) fun v s => v.f32 x s (opMinMax false true x.ftz (v.na x) (v.nb x))) s
def execFmaxx (x : Fields) (s : State) :=
  issue (.fmaxx x) (specOf (.fmaxx x) fun v s => v.f32 x s (opMinMax true true x.ftz (v.na x) (v.nb x))) s

def execFabs (x : Fields) (s : State) :=
  issue (.fabs x) (specOf (.fabs x) fun v s => .done (v.wr32 s x.d (v.r32 x.a &&& 0x7FFFFFFF))) s
def execFneg (x : Fields) (s : State) :=
  issue (.fneg x) (specOf (.fneg x) fun v s => .done (v.wr32 s x.d (v.r32 x.a ^^^ 0x80000000))) s
def execFclass (x : Fields) (s : State) :=
  issue (.fclass x) (specOf (.fclass x) fun v s => .done (v.wr32 s x.d (word (classBits (v.na x))))) s
def execFrnd (x : Fields) (s : State) := issue (.frnd x) (specOf (.frnd x) fun v s => v.f32 x s (opFrnd x.ftz x.rm (v.na x))) s
def execFrcp (x : Fields) (s : State) := issue (.frcp x) (specOf (.frcp x) fun v s => v.f32 x s (opFrcp x.ftz x.rm (v.na x))) s
def execFsqrt (x : Fields) (s : State) := issue (.fsqrt x) (specOf (.fsqrt x) fun v s => v.f32 x s (opFsqrt x.ftz x.rm (v.na x))) s
def execFrsq (x : Fields) (s : State) := issue (.frsq x) (specOf (.frsq x) fun v s => v.f32 x s (opFrsq x.ftz (v.na x))) s
def execFexp2 (x : Fields) (s : State) := issue (.fexp2 x) (specOf (.fexp2 x) fun v s => v.f32 x s (opFexp2 x.ftz (v.na x))) s
def execFlog2 (x : Fields) (s : State) := issue (.flog2 x) (specOf (.flog2 x) fun v s => v.f32 x s (opFlog2 x.ftz (v.na x))) s
def execFsin (x : Fields) (s : State) := issue (.fsin x) (specOf (.fsin x) fun v s => v.f32 x s (opTrig false x.ftz (v.na x))) s
def execFcos (x : Fields) (s : State) := issue (.fcos x) (specOf (.fcos x) fun v s => v.f32 x s (opTrig true x.ftz (v.na x))) s

def execFcmp (x : Fields) (s : State) := issue (.fcmp x) (specOf (.fcmp x) fun v s =>
  let r := opFcmp x.ftz x.c.toNat (v.na x) (v.nb x)
  v.floatDone s r.2 fun s => v.wrPred s x.d r.1) s

/-- R228, R229: the source element of CVT. -/
def Lane.cvtSource (v : Lane) (x : Fields) : Nat :=
  let w := cvtWidth x.srcFmt
  if w = 64 then (v.r64 x.a).toNat else elemOf w (x.immBits 9 7) (v.na x)
/-- R230: a CVT result goes to its element, every other bit of a narrow destination kept. -/
def Lane.cvtResult (v : Lane) (x : Fields) (s : State) (r : Nat × Nat) : Act :=
  let w := cvtWidth x.dstFmt
  v.floatDone s r.2 fun s =>
    if w = 64 then v.wr s 2 x.d r.1
    else if w = 32 then v.wr32 s x.d (word r.1)
    else v.wr32 s x.d (word (putElem w (x.immBits 12 10) (v.r32 x.d).toNat r.1))
def execCvt (x : Fields) (s : State) := issue (.cvt x) (specOf (.cvt x) fun v s =>
  v.cvtResult x s (opCvt x.dstFmt x.srcFmt (x.imm.getLsbD 1) (x.imm.getLsbD 0) x.rm (v.cvtSource x))) s
def execCvtBs (x : Fields) (s : State) := issue (.cvtBs x) (specOf (.cvtBs x) fun v s =>
  v.cvtResult x s (opCvtBs x.dstFmt x.srcFmt (x.imm.getLsbD 1) (v.cvtSource x) (v.nc x % 256))) s

/-- R233: the format of a packed instruction. -/
def halfFmt (x : Fields) : Fmt := if x.sat then bf16 else fp16
def execHadd2 (x : Fields) (s : State) :=
  issue (.hadd2 x) (specOf (.hadd2 x) fun v s => v.f32 x s (opHadd2 (halfFmt x) x.rm (v.na x) (v.nb x))) s
def execHsub2 (x : Fields) (s : State) :=
  issue (.hsub2 x) (specOf (.hsub2 x) fun v s => v.f32 x s (opHsub2 (halfFmt x) x.rm (v.na x) (v.nb x))) s
def execHmul2 (x : Fields) (s : State) :=
  issue (.hmul2 x) (specOf (.hmul2 x) fun v s => v.f32 x s (opHmul2 (halfFmt x) x.rm (v.na x) (v.nb x))) s
def execHfma2 (x : Fields) (s : State) :=
  issue (.hfma2 x) (specOf (.hfma2 x) fun v s => v.f32 x s (opHfma2 (halfFmt x) x.rm (v.na x) (v.nb x) (v.nc x))) s

/-- R234, R235: DOT4 and DOT8 of n elements of width w, `ta` and `tb` the formats of the floating kind. -/
def Lane.dot (v : Lane) (x : Fields) (w n : Nat) (ta tb : Fmt) (s : State) : Act :=
  if x.kind = 3 then v.f32 x s (opDotFloat ta tb w n x.rm (v.na x) (v.nb x) (v.nc x))
  else .done (v.wr32 s x.d (word (opDotInt w n (x.kind != 2) (x.kind == 0) (x.kind != 2) (x.imm.getLsbD 2) (v.na x) (v.nb x) (v.nc x))))
def execDot4 (x : Fields) (s : State) := issue (.dot4 x) (specOf (.dot4 x) fun v s =>
  v.dot x 8 4 (if x.imm.getLsbD 0 then e5m2 else e4m3) (if x.imm.getLsbD 1 then e5m2 else e4m3) s) s
def execDot8 (x : Fields) (s : State) := issue (.dot8 x) (specOf (.dot8 x) fun v s => v.dot x 4 8 e2m1 e2m1 s) s
def execDot2h (x : Fields) (s : State) := issue (.dot2h x) (specOf (.dot2h x) fun v s =>
  let t := if x.kind = 1 then bf16 else fp16
  v.f32 x s (opDotFloat t t 16 2 x.rm (v.na x) (v.nb x) (v.nc x))) s
def execQsc (x : Fields) (s : State) := issue (.qsc x) (specOf (.qsc x) fun v s => v.f32 x s (opQsc x.rm (v.na x) (v.nb x))) s
def execFkey (x : Fields) (s : State) := issue (.fkey x) (specOf (.fkey x) fun v s =>
  .done (v.wr s 2 x.d (opFkey (elemOf 16 (x.imm.toNat % 2) (v.na x)) (v.nb x)))) s

/-- R324: an APXCTL enable bit, and whether the determinism mode leaves it in effect. -/
def Lane.apxBit (v : Lane) (s : State) (n : Nat) : Bool := ((s.ctxOf v).map fun c => c.apxctl.getLsbD n).getD false
def Lane.modeFree (v : Lane) (s : State) : Bool := decide (s.mode v.g.ctx < 2)
def Lane.effective (v : Lane) (s : State) (n : Nat) : Bool := v.apxBit s n && v.modeFree s

/-- R323: TCNT with counts added, each field stopping at its largest value. -/
def tcntAdd (t : DWord) (samples excur forced : Nat) : DWord :=
  dword (min (bits t.toNat 63 40 + samples) (2 ^ 24 - 1) * 2 ^ 40 + min (bits t.toNat 39 16 + excur) (2 ^ 24 - 1) * 2 ^ 16 +
    min (bits t.toNat 15 0 + forced) (2 ^ 16 - 1))
def State.countTithe (s : State) (c samples excur forced : Nat) : State :=
  s.updCtx c fun x => { x with tcnt := tcntAdd x.tcnt samples excur forced }
/-- R324: a cheap choice of enable n that the determinism mode suppressed. -/
def Lane.countForced (v : Lane) (s : State) (n : Nat) (cheap : Bool) : State :=
  if cheap && v.apxBit s n && !v.modeFree s then s.countTithe v.g.ctx 0 0 1 else s

/-- R238: the rows of the winnow's samples. -/
def Lane.winnowRows (v : Lane) (x : Fields) : List Nat := (List.range 8).map fun y => v.na x + y * x.imm.toNat
def Lane.winnowEnd (v : Lane) (x : Fields) : Nat := v.na x + 7 * x.imm.toNat + 8
/-- R237, R238: WNW with threshold `thr`. An uncorrectable word reads as 0 (R425). -/
def Lane.winnow (v : Lane) (x : Fields) (thr : Nat) (s : State) : Act :=
  if v.g.spLen < v.winnowEnd x then .trap causeBounds (boundsTval v.g.spLen (v.na x))
  else v.plainRead s ((v.winnowRows x).map fun o => (o, 8)) fun s g =>
    let w := winnowValue fun y c => ((g.spSound (v.na x + y * x.imm.toNat + c) 1).headD 0).toNat
    let s := v.countForced s 1 (w < thr)
    .done (v.wrPred (v.wr32 s x.b (word w)) x.d (decide (thr ≤ w) || !v.effective s 1))
def winnowWaits (x : Fields) (s : State) (vs : List Lane) : Bool :=
  vs.any fun v => decide (v.winnowEnd x ≤ v.g.spLen) && s.boardBlocks v (v.g.pool (v.na x)) (v.g.pool (v.winnowEnd x - 1)) false
def execWnw (x : Fields) (s : State) :=
  issue (.wnw x) { specOf (.wnw x) (fun v s => v.winnow x (v.nc x) s) with stall := winnowWaits x } s
/-- R322: the context's winnow threshold. -/
def Ctx.threshold (c : Ctx) : Nat := bits c.apxctl.toNat 31 16
def execWnwCt (x : Fields) (s : State) :=
  issue (.wnwCt x) { specOf (.wnwCt x) (fun v s => v.winnow x (((s.ctxOf v).map Ctx.threshold).getD 0) s) with
                     stall := winnowWaits x } s

/-- R322: the tithe exponent. -/
def Ctx.titheExp (c : Ctx) : Nat := bits c.apxctl.toNat 15 12
def Lane.tithe (v : Lane) (x : Fields) (s : State) : Act :=
  let sel := ((s.ctxOf v).map fun c =>
    titheSelected (v.na x) (bits (v.nb x) 18 16) (v.nb x % 65536) (v.nc x) c.tseed.toNat c.titheExp).getD false
  .done (v.wrPred (v.countForced s 3 sel) x.d (sel && v.effective s 3))
def execTitheS (x : Fields) (s : State) := issue (.titheS x) (specOf (.titheS x) fun v s => v.tithe x s) s

/-- R327: the threshold that a closed window of e excursions leaves. -/
def adjusted (thr e : Nat) : Nat :=
  if 8 < e then thr - max 1 (thr / 8) else if e = 0 then min 48961 (thr + max 1 (thr / 16)) else thr
/-- R327: one sample of the context's window. -/
def Ctx.windowSample (c : Ctx) (excursion : Bool) : Ctx :=
  if !c.apxctl.getLsbD 5 then c
  else
    let n := c.winSamples + 1
    let e := c.winExcur + boolNat excursion
    if n < 256 then { c with winSamples := n, winExcur := e }
    else { c with winSamples := 0, winExcur := 0,
                  apxctl := word (adjusted c.threshold e * 65536 + c.apxctl.toNat % 65536) }
def execTitheC (x : Fields) (s : State) := issue (.titheC x) (specOf (.titheC x) fun v s =>
  let ex := decide (v.nb x < v.na x)
  .done (if v.effective s 3 then (s.countTithe v.g.ctx 1 (boolNat ex) 0).updCtx v.g.ctx fun c => c.windowSample ex
    else v.countForced s 3 true)) s

def execApxexp2 (x : Fields) (s : State) := issue (.apxexp2 x) (specOf (.apxexp2 x) fun v s =>
  let cheap := exp2Cheap (v.na x)
  v.f32 x (v.countForced s 2 cheap) (if cheap && v.effective s 2 then opApxExp2 (v.na x) else opFexp2 false (v.na x))) s
def execApxrcp (x : Fields) (s : State) := issue (.apxrcp x) (specOf (.apxrcp x) fun v s =>
  let cheap := rcpCheap (v.na x)
  v.f32 x (v.countForced s 2 cheap) (if cheap && v.effective s 2 then opApxRcp (v.na x) else opFrcp false .rne (v.na x))) s

end Sys2Proof.Machine
end

