-- ==== Sys2Proof/Machine/Vote.lean ====
section
/-!
DEFINITION. Heartbeats, the neighbour vote, deaccession, appeal and reaccession (R53, R442 to R449).
-/
namespace Sys2Proof.Machine

/-- R442: the king-move neighbours of a tile on its die's grid, ascending. -/
def neighbours (core : Nat) : List Nat :=
  let x := core % 12
  let y := core % 96 / 12
  (List.range 96).filterMap fun i =>
    let near (a b : Nat) : Bool := decide (a ≤ b + 1) && decide (b ≤ a + 1)
    if near (i % 12) x && near (i / 12) y && i != core % 96 then some (core / 96 * 96 + i) else none

/-- DESIGN CHOICE (log 74): the first beat after bring-up has sequence number 0, which its neighbours expect. -/
def Nbr.fresh : Nbr where
  accuse := false
  heard := 0xFFFF
  silent := 0
  pgx := 0
  clean := 0
  appealClean := 0
  admitted := false

/-- R445, R450: the vote state of a tile after reset. -/
def TileVote.fresh (core : Nat) : TileVote where
  seq := 0
  nbrs := List.replicate (neighbours core).length Nbr.fresh
  ndeac := 0
  perm := false
  appeal := false
  fenced := false
  gen := 0
  pgx := false
  pgxNext := false
  appealAt := 0

def State.tileVote (s : State) (core : Nat) : TileVote := (Store.get s.vote core).getD (TileVote.fresh core)
/-- A tile whose vote state is as after reset is not listed. -/
def State.setVote (s : State) (core : Nat) (v : TileVote) : State :=
  { s with vote := if v = TileVote.fresh core then Store.del s.vote core else Store.put s.vote core v }

/-- R53: the most beats that a port may inject in a period. -/
def portCeiling : Nat := 1650
/-- PORT_GUARD_PERIOD (R53, R442): the guard's count of the period that ends; the beats of the next period carry its report. DESIGN CHOICE
(log 63): it comes before the period's boundary. -/
def execPortGuardPeriod (core beats : Nat) (s : State) : Host.Outcome State Fault Refusal :=
  if 192 ≤ core || !s.ready then .next s
  else
    let high := decide (portCeiling < beats)
    let s := if high then { s with guardOver := Store.wr 0 s.guardOver core (Store.rd 0 s.guardOver core + 1) } else s
    happen (s.setVote core { s.tileVote core with pgxNext := high })

/-- R448: an appeal beat falls due in this period. -/
def TileVote.due (v : TileVote) (period : Nat) : Bool := v.appeal && (period - v.appealAt) % 8 == 0
/-- R442: the health byte of a tile's beats: APL, TRT and PGX. -/
def State.health (s : State) (core : Nat) (v : TileVote) : Byte :=
  BitVec.ofNat 8 (128 * boolNat v.appeal + 2 * boolNat (Store.rd 0 s.throt core != 0) + boolNat v.pgx)
/-- R442: PGX is the port guard's, whatever the core says. -/
def guardedBeat (b : Beat) (pgx : Bool) : Beat := { b with health := (b.health &&& 0xFE) ||| (if pgx then 1 else 0) }
/-- R442, R448: the beats that a tile sends in a period: one, under an appeal those that fall due, when fenced none; or those at the
inputs. -/
def State.beatsSent (s : State) (core : Nat) (v : TileVote) : List Beat :=
  match s.inputs.beats.find? fun b => b.core == core && b.hearer.isNone with
  | some b => b.beats.map fun x => guardedBeat x v.pgx
  | none => if v.fenced && !v.due s.periods then [] else [{ seq := v.seq, health := s.health core v }]
/-- What one neighbour gets of them. -/
def State.beatsHeard (s : State) (core hearer : Nat) (v : TileVote) : List Beat :=
  match s.inputs.beats.find? fun b => b.core == core && b.hearer == some hearer with
  | some b => b.beats
  | none => s.beatsSent core v

/-- R443: a beat is well formed after the one heard before it. -/
def beatFormed (b : Beat) (last : BitVec 16) : Bool := b.seq == last + 1 && bits b.health.toNat 6 2 == 0
/-- Whether each beat of a period is well formed, in the order of their arrival. -/
def formed (last : BitVec 16) : List Beat → List Bool
  | [] => []
  | b :: bs => beatFormed b last :: formed b.seq bs
def lastHeard (last : BitVec 16) (bs : List Beat) : BitVec 16 := (bs.getLast?.map Beat.seq).getD last
/-- R443: the neighbour's counts after a period, and whether it judges the tile silent or babbling. -/
def Nbr.listen (n : Nbr) (bs : List Beat) : Nbr × Bool :=
  let f := formed n.heard bs
  let silent := if f.contains true then 0 else min 8 (n.silent + 1)
  let run := if bs.any fun b => b.health.getLsbD 0 then min 64 (n.pgx + 1) else 0
  ({ n with heard := lastHeard n.heard bs, silent := silent, pgx := run },
    decide (8 ≤ silent) || decide (4 < bs.length) || f.contains false || decide (64 ≤ run))
/-- R443, R449: a neighbour's judgement of a tile that does not appeal; a fenced one sends nothing. The count of clean periods clears a bit
held against an unfenced tile. -/
def Nbr.judge (n : Nbr) (bs : List Beat) : Nbr :=
  let r := n.listen bs
  let clean := if r.2 || !n.accuse then 0 else n.clean + 1
  { r.1 with accuse := r.2 || (n.accuse && decide (clean < 64)), clean := if clean < 64 then clean else 0 }
/-- R448, R457: a neighbour's count of clean periods of an appealing tile, which an accusation starts again. -/
def Nbr.hear (n : Nbr) (bs : List Beat) (due : Bool) : Nbr :=
  let r := n.listen bs
  let clean := !(formed n.heard bs).contains false && decide (bs.length ≤ 1) && (!due || bs.length == 1)
  if r.2 then { r.1 with accuse := true, appealClean := 0, admitted := false }
  else
    let run := if clean then n.appealClean + 1 else 0
    if 64 ≤ run then { r.1 with appealClean := run, accuse := false, admitted := true } else { r.1 with appealClean := run }
/-- The judgements of one period on a tile; its next beats report this period's injection (R442). -/
def State.judged' (s : State) (core : Nat) : TileVote :=
  let v := s.tileVote core
  let sent := s.beatsSent core v
  let w := { v with seq := (sent.getLast?.map fun (b : Beat) => b.seq + 1).getD v.seq, pgx := v.pgxNext, pgxNext := false }
  let each (f : Nbr → List Beat → Nbr) : List Nbr := (v.nbrs.zip (neighbours core)).map fun p => f p.1 (s.beatsHeard core p.2 v)
  if v.appeal then { w with nbrs := each fun n bs => n.hear bs (v.due s.periods) }
  else { w with nbrs := each Nbr.judge }
/-- R457: an unfenced neighbour accuses an appealing tile anew. -/
def State.accusedAnew (s : State) (core : Nat) : Bool :=
  let v := s.tileVote core
  ((v.nbrs.zip (neighbours core)).filter fun p => !s.fenced p.2).any fun p => (p.1.listen (s.beatsHeard core p.2 v)).2

/-- Of a tile's neighbours that were unfenced in the period: how many, and how many meet a test. -/
def State.tally (s : State) (core : Nat) (v : TileVote) (f : Nbr → Bool) : Nat × Nat :=
  let l := ((neighbours core).zip v.nbrs).filter fun p => !s.fenced p.1
  (l.length, (l.filter fun p => f p.2).length)
/-- R444: the vote on an unfenced tile. -/
def State.votedOut (s : State) (core : Nat) (v : TileVote) : Bool :=
  let t := s.tally core v Nbr.accuse
  !v.fenced && decide (t.1 < 2 * t.2) && decide (2 ≤ t.2)
/-- R449, R457: whether an appealing tile is reaccessioned. -/
def State.votedIn (s : State) (core : Nat) (v : TileVote) : Bool :=
  let t := s.tally core v Nbr.admitted
  v.appeal && decide (t.1 < 2 * t.2) && !s.accusedAnew core

/-- R445, R449, R450: a tile is fenced with a generation. -/
def TileVote.fence (v : TileVote) (gen : Nat) : TileVote :=
  { v with fenced := true, gen := gen, ndeac := min 3 (v.ndeac + 1), perm := v.perm || decide (2 ≤ v.ndeac), appeal := false
           nbrs := v.nbrs.map fun n => { n with appealClean := 0, admitted := false } }
/-- R449: a tile is reaccessioned; bits of neighbours that have not admitted it stay. -/
def TileVote.readmit (v : TileVote) : TileVote :=
  { v with fenced := false, appeal := false, appealAt := 0, gen := 0
           nbrs := v.nbrs.map fun n => { n with clean := 0, appealClean := 0, admitted := false } }

/-- R447: what ends at once in an aborted gang: everything but copies that have their place, sets and accumulator, tile and collective
operations. -/
def AOp.endsWithThreads (o : AOp) : Bool :=
  o.waitsSlot || match o.kind with
  | .load _ => true
  | .value _ _ => true
  | .fetch _ => true
  | .trav _ => true
  | _ => false
/-- R447: a group of an aborted gang stops issuing and its waits end. -/
def State.haltGroup (s : State) (gid : Nat) : State :=
  let gone := (s.ops.filter fun e => e.2.gid == gid && e.2.endsWithThreads).map Prod.fst
  let s : State := { s.dropThreads (s.threadsOf gid) with
    ops := s.ops.filter fun (e : Nat × AOp) => !gone.contains e.1
    board := s.board.filter fun b => !gone.contains b.op }
  s.releaseSts.updGroup gid fun g => { g with
    live := 0, thr := none, posts := [], kpend := [], kfrom := []
    cvs := g.cvs.map fun (e : Nat × Conv) => (e.1, { e.2 with signers := [] })
    queues := g.queues.map fun (e : Nat × Queue) => (e.1, { e.2 with engines := e.2.engines.filter fun r => !gone.contains r.op }) }

/-- R447, R469: the record and the frame of an aborted gang; `g` is one of its lost groups. -/
def State.reportAbort (s : State) (core gen lost : Nat) (g : Group) : State :=
  match Store.get s.launches g.launch with
  | none => s
  | some l =>
    let r := s.report (s.tenantOf g.ctx)
      { type := 5, cause := 1, ctx := g.ctx, core := core, flags := 0, acc := 0, slot := 0, count := lost,
        wid := ({ g with fields := 0 :: g.fields.drop 1 } : Group).wid 0, pc := 0, fva := gen,
        entry := l.record.queue % 256 + 2 ^ 8 * (l.record.index % 2 ^ 48) }
    r.1.sendEvent (s.tenantOf g.ctx) 7 0 l.record.queue g.ctx (if l.record.graph then l.record.node else 0xFFFF) l.record.index gen

/-- R446, R447: a gang with groups on tiles fenced at this boundary. -/
def State.abortGang (s : State) (tiles : List Nat) (gen launch gang : Nat) : State :=
  let mine := s.groups.filter fun e => e.2.inGang launch gang
  let lost := mine.filter fun e => tiles.contains e.2.core
  let first := ((Store.get s.launches launch).map fun l => !l.noted.contains gang).getD false
  let s := (lost.map Prod.fst).foldl (fun s gid => s.loseGroup false gid) s
  let s := ((mine.filter fun e => !tiles.contains e.2.core).map Prod.fst).foldl State.haltGroup s
  let s : State := { s with
    gangStops := s.gangStops.filter fun t => !(t.launch == launch && t.gang == gang)
    launches := Store.upd s.launches launch fun l => { l with noted := insertNat gang l.noted } }
  let core := ((tiles.filter fun c => lost.any fun e => e.2.core == c).head?).getD 0
  let s := match lost with
    | (_, g) :: _ => if first then s.reportAbort core gen lost.length g else s
    | [] => s
  s.finishGang launch gang

/-- R457: the last groups of a gang, whose threads have all been freed before the boundary, complete. -/
def State.gangFreed (s : State) (launch gang : Nat) : Bool := s.groups.all fun e => !e.2.inGang launch gang || e.2.live == 0
/-- R446, R447: the tiles fenced at a boundary lose what they hold. -/
def State.fenceTiles (s : State) (tiles : List Nat) : State :=
  if tiles.isEmpty then s
  else
    let gen := (s.fenceGen + 1).toNat
    let s := tiles.foldl (fun s c => (s.setVote c ((s.tileVote c).fence gen)).invalidateCache c) { s with fenceGen := s.fenceGen + 1 }
    let gangs := ((s.groups.filter fun e => tiles.contains e.2.core).map fun e => (e.2.launch, e.2.gang)).eraseDups
    (gangs.filter fun g => !s.gangFreed g.1 g.2).foldl (fun s g => s.abortGang tiles gen g.1 g.2) s

/-- HEARTBEAT_PERIOD (R442 to R449, R457): the boundary at the end of a period, once its reports and frames are made (R421, R426). -/
def execHeartbeatPeriod (s : State) : Host.Outcome State Fault Refusal :=
  if !s.periodDue then .next s
  else
    let s := s.reportErrors.sendFaultFrames
    let seen := (List.range 192).map fun c => (c, s.judged' c)
    let out := (seen.filter fun p => s.votedOut p.1 p.2).map Prod.fst
    let back := (seen.filter fun p => s.votedIn p.1 p.2).map Prod.fst
    let s := seen.foldl (fun s p => s.setVote p.1 p.2) s
    let s := s.fenceTiles out
    let s := back.foldl (fun s c => s.setVote c (s.tileVote c).readmit) s
    happen { s with periods := s.periods + 1 }

/-- R448: a tile begins to appeal: its sequence numbers start again at 0, which its neighbours expect. -/
def TileVote.beginAppeal (v : TileVote) (period : Nat) : TileVote :=
  { v with appeal := true, appealAt := period, seq := 0, nbrs := v.nbrs.map fun n => { n with heard := 0xFFFF } }
/-- SELF_TEST_END (R448): a fenced tile begins to appeal, or stays fenced. -/
def execSelfTestEnd (core : Nat) (pass : Bool) (s : State) : Host.Outcome State Fault Refusal :=
  let v := s.tileVote core
  if !v.fenced || v.perm || v.appeal then .next s
  else happen (s.setVote core (if pass then v.beginAppeal s.periods else { v with perm := true }))

end Sys2Proof.Machine
end

