-- ==== Sys2Proof/Machine/Host.lean ====
section
/-!
DEFINITION. The host port: discovery, status and attestation (R460, R462 to R465), management (R466, R467), RoCEv2 (R468), and the peer
links (R473 to R476). The places of fields inside answers and management payloads, which no rule gives, are the model's own: the fields
stand one after the other in the order in which the rules name them.
-/
namespace Sys2Proof.Machine

/-- R460: what the host port does with a frame. Before its calibration nothing arrives; until the ready flag is set all but discovery and
status requests are dropped and counted. -/
def State.atPort (s : State) (early : Bool) (act : State → Host.Outcome State Fault Refusal) : Host.Outcome State Fault Refusal :=
  if !s.portUp then .next s
  else if !s.ready && !early then happen { s with rxdrop := satAdd s.rxdrop 1 }
  else act s
def State.dropFrame (s : State) : State := { s with rxdrop := satAdd s.rxdrop 1 }
/-- R463: an answer goes to the source of the request. -/
def State.answer (s : State) (kind : Byte) (payload : List Byte) : State :=
  { s with sent := .answer s.inputs.frame.src kind s.inputs.frame.rqid payload :: s.sent }

/-- FRAME_DROPPED (R463). -/
def execFrameDropped (s : State) : Host.Outcome State Fault Refusal := s.atPort false fun s => happen s.dropFrame

/-- R464: the part number, AZV1-M. -/
def partNumber : List Byte := [0x41, 0x5A, 0x56, 0x31, 0x2D, 0x4D]
/-- DISCOVERY_REQUEST (R464). -/
def execDiscoveryRequest (s : State) : Host.Outcome State Fault Refusal :=
  s.atPort true fun s =>
    if s.inputs.frame.kind ≠ 1 then .next s
    else happen (s.answer 2 (partNumber ++ Config.fusedIdentity ++ toBytes 2 s.moduleNumber ++ toBytes 1 (boolNat s.ready) ++
      toBytes 6 Config.portMac.toNat))

/-- R450: the vote status word of a tile. -/
def TileVote.status (v : TileVote) : Nat :=
  ((v.nbrs.zipIdx.map fun n => boolNat n.1.accuse * 2 ^ (12 + n.2)).foldl (· + ·) 0) + v.ndeac * 2 ^ 10 + boolNat v.perm * 2 ^ 9 +
  boolNat v.appeal * 2 ^ 8 + boolNat v.fenced * 2 ^ 7
/-- R426, R464: the counters of page 0, in the order of the page. -/
def State.pageCounters (s : State) : List Word :=
  [s.rxdrop, s.mauth] ++ ([1, 2, 3, 4, 5, 6, 8, 9].map fun n => Store.rd 0 s.errors n) ++ [Store.rd 0 s.orphan 0, Store.rd 0 s.orphan 1] ++
  [Store.rd 0 s.errors 7, s.pdown]
/-- R464: the content of a status page. -/
def State.statusPage (s : State) (page : Nat) : List Byte :=
  match page with
  | 0 => toBytes 1 (boolNat s.ready) ++ toBytes 1 s.upStep ++ [s.failCode] ++ toBytes 2 (Config.sensorReading (2 * s.moves)).toNat ++
      toBytes 2 (Config.sensorReading (2 * s.moves + 1)).toNat ++ s.pageCounters.flatMap fun w => toBytes 4 w.toNat
  | 1 | 2 => (List.range 96).flatMap fun i => toBytes 4 (s.tileVote (96 * (page - 1) + i)).status
  | 3 | 4 => (List.range 96).flatMap fun i => toBytes 4 (Store.rd 0 s.throt (96 * (page - 3) + i)).toNat
  | _ => []
/-- STATUS_REQUEST (R464): one that names no page is malformed. -/
def execStatusRequest (s : State) : Host.Outcome State Fault Refusal :=
  s.atPort true fun s =>
    if s.inputs.frame.kind ≠ 3 then .next s
    else match s.inputs.frame.payload with
      | [] => happen s.dropFrame
      | b :: _ => happen (s.answer 4 (s.statusPage b.toNat))

/-- ATTESTATION_REQUEST (R462): a request without its 32-byte nonce is malformed. -/
def execAttestationRequest (s : State) : Host.Outcome State Fault Refusal :=
  s.atPort false fun s =>
    if s.inputs.frame.kind ≠ 7 then .next s
    else if s.inputs.frame.payload.length ≠ 32 then happen s.dropFrame
    else
      let body := s.inputs.frame.payload ++ Config.fusedIdentity ++ Config.imageMeasurement ++ toBytes 2 s.moduleNumber ++ toBytes 1 s.upStep ++
        Config.devicePublicKeys
      happen (s.answer 8 (body ++ Config.attestationSignatures body))

/-- R466: the bytes that a request's tag covers: the header and the payload before the tag. -/
def taggedBytes (f : L2Frame) : List Byte :=
  [f.kind, 0] ++ toBytes 2 (f.payload.length + 16) ++ toBytes 4 f.rqid.toNat ++ toBytes 8 0 ++ f.payload
/-- R466: a management request of the station with the right tag. -/
def State.authorised (s : State) : Bool :=
  s.station == some s.inputs.frame.src && s.inputs.frame.tag == Config.hmacTag s.stationKey (taggedBytes s.inputs.frame)
/-- The operation and a field of a management payload. -/
def State.manageOp (s : State) : Nat := field s.inputs.frame.payload 0 1
def State.arg (s : State) (o n : Nat) : Nat := field s.inputs.frame.payload o n
def State.refuseRequest (s : State) : State := { s with mauth := satAdd s.mauth 1 }

/-- R467: a management operation: its length, its status when refused, and what it does. -/
def State.manage (s : State) (op len : Nat) (check : State → Nat) (act : State → State) : Host.Outcome State Fault Refusal :=
  s.atPort false fun s =>
    if s.inputs.frame.kind ≠ 5 || s.manageOp ≠ op then .next s
    else if !s.authorised then happen s.refuseRequest
    else
      let status := if s.inputs.frame.payload.length ≠ len then 2 else check s
      happen ((if status = 0 then act s else s).answer 6 (toBytes 1 status))

/-- CLAIM (R466): the first one makes its source the station; later ones are dropped and counted. -/
def execClaim (s : State) : Host.Outcome State Fault Refusal :=
  s.atPort false fun s =>
    if s.inputs.frame.kind ≠ 5 || s.manageOp ≠ 1 then .next s
    else if s.station.isSome then happen s.refuseRequest
    else if s.inputs.frame.payload.length ≠ 49 then happen (s.answer 6 [2])
    else happen (({ s with station := some s.inputs.frame.src, stationKey := s.inputs.frame.payload.drop 1 } : State).answer 6 [0])

/-- MANAGEMENT_AUTH_FAIL (R466): a request that is not the station's or has a bad tag. One of the station that names no operation is
answered as malformed (R467). -/
def execManagementAuthFail (s : State) : Host.Outcome State Fault Refusal :=
  s.atPort false fun s =>
    if s.inputs.frame.kind ≠ 5 || (s.station.isNone && s.manageOp = 1) then .next s
    else if !s.authorised then happen s.refuseRequest
    else if s.manageOp = 0 || 0x0C < s.manageOp then happen (s.answer 6 [2])
    else .next s

/-- R29: the fields of a window descriptor; reserved bits are discarded (R4). -/
def windowFields (w : Nat) : BitVec 128 := BitVec.ofNat 128 (bits w 104 64 * 2 ^ 64 + bits w 51 21 * 2 ^ 21 + bits w 5 0)
/-- R30: an enabled range that its die's HBM holds. -/
def windowFits (w : BitVec 128) : Bool := inHbm (windowBase w) && decide (windowBase w % dieSize + windowLen w ≤ metaOffset)
def windowsMeet (a b : BitVec 128) : Bool :=
  decide (windowBase a < windowBase b + windowLen b) && decide (windowBase b < windowBase a + windowLen a)
/-- R30: an enabled window of another tenant overlaps. -/
def State.windowClash (s : State) (t : Nat) (w : BitVec 128) : Bool :=
  s.tenants.any fun v => v.1 != t && v.2.windows.any fun u => u.2.getLsbD 0 && windowsMeet u.2 w
/-- R32: every cached translation of a tenant is discarded; its walks, which the model makes at their end, restart. -/
def State.discardTenant (s : State) (t : Nat) : State :=
  { s with tlb := s.tlb.filter fun e => s.tenantOf e.ctx != t,
           walkCache := s.walkCache.filter fun w => s.tenantOf w.ctx != t } |> fun u =>
    (u.ctxs.filter fun e => e.2.tenant == t).foldl (fun s e => s.forgetPages e.1 fun _ _ => true) u
/-- WINDOW_WRITE (R30, R32, R467). -/
def execWindowWrite (s : State) : Host.Outcome State Fault Refusal :=
  s.manage 2 19 (fun s =>
      let w := windowFields (s.arg 3 16)
      if 32 ≤ s.arg 1 1 || 16 ≤ s.arg 2 1 then 2
      else if w.getLsbD 0 && !windowFits w then 2
      else if w.getLsbD 0 && s.windowClash (s.arg 1 1) w then 1 else 0)
    fun s =>
      let t := s.arg 1 1
      let v := s.tenant t
      (s.setTenant t { v with windows := Store.wr 0 v.windows (s.arg 2 1) (windowFields (s.arg 3 16)) }).discardTenant t

/-- R384, R421: the bytes lie in an enabled window of the tenant. -/
def State.inWindowOf (s : State) (t a n : Nat) : Bool :=
  (s.tenant t).windows.any fun w => w.2.getLsbD 0 && decide (windowBase w.2 ≤ a) && decide (a + n ≤ windowBase w.2 + windowLen w.2)
/-- R384, R467: records of a queue that have not been taken. -/
def State.untaken (s : State) (t q : Nat) : Bool :=
  match s.cmdQ t q with
  | none => false
  | some v => let r := s.rawRead v.ctrl 8; !r.2.2 && decide (v.ridx < ofBytes r.2.1)
/-- COMMAND_QUEUE_SETUP (R384, R467): tenant, queue, ring base, k, control block. Records taken before stay in progress. -/
def execCommandQueueSetup (s : State) : Host.Outcome State Fault Refusal :=
  s.manage 3 20 (fun s =>
      let t := s.arg 1 1
      let k := s.arg 11 1
      if 32 ≤ t || 64 ≤ s.arg 2 1 || s.arg 3 8 % 64 ≠ 0 || k < 4 || 16 < k then 2
      else if !s.inWindowOf t (s.arg 3 8) (64 * 2 ^ k) || !s.inWindowOf t (s.arg 12 8) 64 then 1
      else if s.untaken t (s.arg 2 1) then 3 else 0)
    fun s =>
      let t := s.arg 1 1
      let q := s.arg 2 1
      let s := s.rawWrite (s.arg 12 8) (List.replicate 64 0)
      let v := s.tenant t
      let old := Store.get v.queues q
      let new : CmdQ := { base := s.arg 3 8, k := s.arg 11 1, ctrl := s.arg 12 8, ridx := 0, running := (old.map CmdQ.running).getD [],
                          waiting := (old.map CmdQ.waiting).getD [] }
      s.setTenant t { v with queues := Store.put v.queues q new }

/-- R467: a thread of the tenant is parked, resident or saved. -/
def State.parkedThreads (s : State) (t : Nat) : Bool :=
  (s.threads.any fun e => e.2.isParked && ((s.group e.2.gid).map fun g => s.tenantOf g.ctx) == some t) ||
  s.saved.any fun v => s.tenantOf v.group.ctx == t && v.threads.any Thread.isParked
/-- R421, R467: records of a tenant's fault queue that the host has not consumed. -/
def State.unconsumed (s : State) (t : Nat) : Bool :=
  let q := (s.tenant t).fq
  let r := s.rawRead (q.ctrl + 8) 8
  q.k != 0 && (!q.held.isEmpty || decide ((if r.2.2 then q.ridx else ofBytes r.2.1) < q.widx))
/-- FAULT_QUEUE_SETUP (R421, R467): tenant, ring base, k, control block. -/
def execFaultQueueSetup (s : State) : Host.Outcome State Fault Refusal :=
  s.manage 4 19 (fun s =>
      let t := s.arg 1 1
      let k := s.arg 10 1
      if 32 ≤ t || s.arg 2 8 % 64 ≠ 0 || k < 6 || 16 < k then 2
      else if !s.inWindowOf t (s.arg 2 8) (64 * 2 ^ k) || !s.inWindowOf t (s.arg 11 8) 64 then 1
      else if s.unconsumed t || s.parkedThreads t then 3 else 0)
    fun s =>
      let t := s.arg 1 1
      let s := s.rawWrite (s.arg 11 8) (List.replicate 64 0)
      let v := s.tenant t
      s.setTenant t { v with fq := { Tenant.fresh.fq with base := s.arg 2 8, k := s.arg 10 1, ctrl := s.arg 11 8 } }

/-- R467: two ranges of numbers meet; an empty range meets nothing. -/
def rangesMeet (a m b n : Nat) : Bool := decide (a < b + n) && decide (b < a + m) && decide (0 < m) && decide (0 < n)
/-- NODE_RANGE (R394, R467). -/
def execNodeRange (s : State) : Host.Outcome State Fault Refusal :=
  s.manage 5 6 (fun s =>
      let t := s.arg 1 1
      let a := s.arg 2 2
      let n := s.arg 4 2
      if 32 ≤ t || 16384 < a + n then 2
      else if s.tenants.any fun v => v.1 != t && rangesMeet a n v.2.nodeFirst v.2.nodeCount then 1
      else if s.nodes.any fun e => decide (a ≤ e.1) && decide (e.1 < a + n) then 3 else 0)
    fun s =>
      let t := s.arg 1 1
      s.setTenant t { s.tenant t with nodeFirst := s.arg 2 2, nodeCount := s.arg 4 2 }

/-- CONTEXT_RANGE (R467). -/
def execContextRange (s : State) : Host.Outcome State Fault Refusal :=
  s.manage 6 6 (fun s =>
      let t := s.arg 1 1
      let a := s.arg 2 2
      let n := s.arg 4 2
      if 32 ≤ t || 512 < a + n then 2
      else if s.tenants.any fun v => v.1 != t && rangesMeet a n v.2.ctxFirst v.2.ctxCount then 1
      else if s.ctxs.any fun e => decide (a ≤ e.1) && decide (e.1 < a + n) then 3 else 0)
    fun s =>
      let t := s.arg 1 1
      s.setTenant t { s.tenant t with ctxFirst := s.arg 2 2, ctxCount := s.arg 4 2 }

/-- DESTINATIONS (R467): for events and for scanout a 16-byte IP address, a UDP port and a MAC address, then the gaze key. -/
def execDestinations (s : State) : Host.Outcome State Fault Refusal :=
  s.manage 7 52 (fun s => if 32 ≤ s.arg 1 1 then 2 else 0) fun s =>
    let p := s.inputs.frame.payload
    s.setTenant (s.arg 1 1) { s.tenant (s.arg 1 1) with dest := (p.drop 2).take 48, gazeKey := (p.drop 50).take 2 }

/-- MODULE_NUMBER (R467, R475). -/
def execModuleNumber (s : State) : Host.Outcome State Fault Refusal :=
  s.manage 8 3 (fun s => if 1023 < s.arg 1 2 then 2 else if s.walkedPeer then 3 else 0) fun s => { s with moduleNumber := s.arg 1 2 }
/-- PEER_ROUTE (R467, R475). -/
def execPeerRoute (s : State) : Host.Outcome State Fault Refusal :=
  s.manage 9 5 (fun s => if 1023 < s.arg 1 2 then 2 else 0) fun s => { s with peerRoutes := Store.wr 0 s.peerRoutes (s.arg 1 2) (s.arg 3 2) }
/-- PEER_PORT_RETRAIN (R467, R474): a port comes up unless its training fails, as the inputs say. -/
def execPeerPortRetrain (s : State) : Host.Outcome State Fault Refusal :=
  s.manage 0x0A 2 (fun s => if 16 ≤ s.arg 1 1 then 2 else 0) fun s =>
    let p := s.arg 1 1
    if s.inputs.ports.contains p then s
    else { s with portsDown := s.portsDown.filter (· != p), portReplays := Store.del s.portReplays p }
/-- CLEAR_COUNTERS (R467): the counters of R426, ORPHAN, and RXDROP. -/
def execClearCounters (s : State) : Host.Outcome State Fault Refusal :=
  s.manage 0x0B 1 (fun _ => 0) fun s => { s with errors := [], orphan := [], rxdrop := 0 }

/-- R468: the window that an R_Key names, and whether a host access to it is allowed; `right` is HR or HW. -/
def rdmaWindow (r : RdmaReq) : Nat := bits r.rkey.toNat 26 23
def State.rdmaOk (s : State) (r : RdmaReq) (right n : Nat) : Bool :=
  let w := (s.tenant r.tenant).window (rdmaWindow r)
  r.tenant == bits r.rkey.toNat 31 27 && w.getLsbD 0 && w.getLsbD right && bits w.toNat 104 82 == bits r.rkey.toNat 22 0 &&
  decide (r.offset + n ≤ windowLen w)
def rdmaAddr (r : RdmaReq) (s : State) : Nat := windowBase ((s.tenant r.tenant).window (rdmaWindow r)) + r.offset
/-- R468: a refused access is answered with a NAK and counted. -/
def State.nak (s : State) (r : RdmaReq) : State := { s with nakCount := satAdd s.nakCount 1, sent := .nak r.tenant r.rkey :: s.sent }

/-- RDMA_WRITE (R468): performed raw at its home slices, before it is acknowledged. -/
def execRdmaWrite (s : State) : Host.Outcome State Fault Refusal :=
  s.atPort false fun s =>
    let r := s.inputs.rdma
    if !s.rdmaOk r 3 r.data.length then happen (s.nak r)
    else
      let s := if r.data.isEmpty then s else s.rawWrite (rdmaAddr r s) r.data
      happen { s with sent := .ack r.tenant :: s.sent }
/-- RDMA_READ (R468). -/
def execRdmaRead (s : State) : Host.Outcome State Fault Refusal :=
  s.atPort false fun s =>
    let r := s.inputs.rdma
    if !s.rdmaOk r 2 r.len then happen (s.nak r)
    else
      let q := if r.len = 0 then (s, [], false) else s.rawRead (rdmaAddr r s) r.len
      happen { q.1 with sent := .readData r.tenant q.2.1 :: q.1.sent }

/-- R476: an enabled window of the tenant holds the access and grants it. -/
def State.peerAdmits (s : State) (r : PeerReq) (n : Nat) : Bool :=
  let right := if r.kind = .read then 4 else 5
  (s.tenant r.tenant).windows.any fun w => w.2.getLsbD 0 && w.2.getLsbD right && decide (windowBase w.2 ≤ r.addr) &&
    decide (r.addr + n ≤ windowBase w.2 + windowLen w.2)
/-- How a peer's request asks for memory, and the leaf that it counts as. DESIGN CHOICE (log 64): it allocates no line. -/
def peerAsker (a : Nat) : Asker := moduleAsker (dieOfAddr a) 512
def peerXlat (a : Nat) : Xlat := { pa := a, peer := none, cl := 0, wp := 0, ep := 0, kind := 1, cmp := false, w := true, x := false }
/-- An atomic of a peer at its home slice (R58, R253): the operation is at the inputs, bit 7 of its number asking for the prior value;
`data` holds the operand and then the compare value. -/
def State.peerAtomic (s : State) (r : PeerReq) : State :=
  let n := r.len
  let code := s.inputs.code.toNat % 128
  let s := ((s.drainFor r.addr n).pass (peerAsker r.addr).input r.addr).sense r.addr n
  let old := if s.isPoisoned r.addr n then atomicPoison code else ofBytes (s.bytesAt false r.addr n)
  let s := s.applyOne { pa := r.addr, size := n, code := code, data := r.data.take n, cas := r.data.drop n, ra := false, returns := false,
                        op := s.nextOp, off := 0, cmp := false, ctx := 512, launch := 0, who := 0, va := 0, cl := 0, wp := 0, ep := 0 }
  if 128 ≤ s.inputs.code.toNat then { s with sent := .peerData r.module (toBytes n old) :: s.sent } else s
/-- PEER_REQUEST (R476). -/
def execPeerRequest (s : State) : Host.Outcome State Fault Refusal :=
  if !s.ready then .next s
  else
    let r := s.inputs.peer
    let n := if r.kind = .write then r.data.length else r.len
    if n = 0 then .next s
    else if !s.peerAdmits r n then
      happen { s with peerRefusals := satAdd s.peerRefusals 1, sent := .peerRefused r.module :: s.sent }
    else match r.kind with
      | .read =>
        let q := s.readPage (peerAsker r.addr) (peerXlat r.addr) n
        happen { q.1 with sent := .peerData r.module (q.2.orZeros n) :: q.1.sent }
      | .write => happen (s.writePage (peerAsker r.addr) (peerXlat r.addr) r.data)
      | .atomic => happen (s.peerAtomic r)

/-- R474: the chunks of a copy with a part whose peer is reached over a port. -/
def State.chunksOn (s : State) (port : Nat) (c : CopyOp) : List Nat :=
  let on (va : Nat) (dst : Bool) : Bool := match Store.get c.pages (pageKey va dst) with
    | some (.leaf _ b _ e) => let x := s.xlat b e va; (x.peer.map fun m => s.peerPort m x.pa) == some port
    | _ => false
  (c.chunks.zipIdx.filter fun p => p.1.any fun g => (c.srcG && on g.src false) || (c.dstG && on g.dst true)).map Prod.snd
/-- R474: the requests of an operation in flight on a port fail. -/
def State.failOnPort (s : State) (port op : Nat) : State :=
  match Store.get s.ops op with
  | none => s
  | some o =>
    match o.kind with
    | .load l =>
      let out := (l.remote.filter fun r => r.port == port).map Remote.acc
      if out.isEmpty then s else s.failPieces op o l out
    | .fetch r => if r.port = port then s.failRead op o r else s
    | .copy c =>
      { s with ops := Store.put s.ops op { o with kind := .copy { c with lost := (c.lost ++ s.chunksOn port c).eraseDups } } }
    | _ => s
/-- R474: a thread that watches a peer's word by way of a port fails its read. -/
def State.failWatch (s : State) (port key : Nat) (th : Thread) : State :=
  match th.st with
  | .waiting (.word a _ _ true _) =>
    let ctx := ((s.group th.gid).map Group.ctx).getD 0
    let unit := dataUnit (coreOf key) (quadOf key)
    match (s.lookup unit (coreOf key) ctx a .load).2 with
    | some x =>
      if (x.peer.map fun m => s.peerPort m x.pa) == some port then
        s.parkFault ctx (6, 15, 0) [{ thread := key, unit := unit, kind := .load, va := a, size := 8, pc := th.pc, ordered := false, kept := none }]
      else s
    | none => s
  | _ => s
/-- R474: a port goes down. -/
def State.portDown (s : State) (port : Nat) : State :=
  let ops := s.ops.map Prod.fst
  let threads := s.threads
  let s := ops.foldl (fun s op => s.failOnPort port op) s
  let s := threads.foldl (fun s e => s.failWatch port e.1 e.2) s
  { s with portsDown := insertNat port s.portsDown, pdown := satAdd s.pdown 1, portReplays := Store.del s.portReplays port }

/-- PEER_FLIT_REPLAY (R473, R474): one replay of a flit, and whether it passed. -/
def execPeerFlitReplay (port : Nat) (passes : Bool) (s : State) : Host.Outcome State Fault Refusal :=
  if 16 ≤ port || s.portsDown.contains port || !s.pwrgood then .next s
  else if passes then happen { s with portReplays := Store.del s.portReplays port }
  else
    let n := Store.rd 0 s.portReplays port + 1
    happen (if 16 ≤ n then s.portDown port else { s with portReplays := Store.put s.portReplays port n })
/-- PEER_PORT_DOWN (R474): the far end has been silent for 64 µs. -/
def execPeerPortDown (port : Nat) (s : State) : Host.Outcome State Fault Refusal :=
  if 16 ≤ port || s.portsDown.contains port || !s.pwrgood then .next s else happen (s.portDown port)

end Sys2Proof.Machine
end

