-- ==== Sys2Proof/Machine/Integer.lean ====
section
/-!
DEFINITION. Integer arithmetic, logic, bit fields, compares, predicates, moves, addresses and system values: majors 0x00 to
0x04 (R179 to R198).
-/
namespace Sys2Proof.Machine

/-- R181: Src of a register value of the type in M. -/
def Fields.srcOf (x : Fields) (v : Nat) : Int := if x.signed then sext v x.width else ((v % 2 ^ x.width : Nat) : Int)
/-- R181: Src(sel, t). -/
def Lane.src (v : Lane) (x : Fields) (s : BitVec 6) : Int := Fields.srcOf x (v.rd x.regs s)
/-- R182: IMM16 as the immediate form reads it, passed through Src. -/
def Fields.immSrc (x : Fields) : Int :=
  Fields.srcOf x (modPow (if x.signed then sext x.imm.toNat 16 else (x.imm.toNat : Int)) 64)
/-- R182: operand B or the immediate. -/
def Lane.srcB (v : Lane) (x : Fields) : Int := if x.immForm then Fields.immSrc x else v.src x x.b
/-- R183: clamp to the range of an n-bit type. -/
def clampInt (n : Nat) (signed : Bool) (r : Int) : Int :=
  if signed then max (-(2 ^ (n - 1) : Nat)) (min r ((2 ^ (n - 1) : Nat) - 1)) else max 0 (min r ((2 ^ n : Nat) - 1))
/-- R181, R183: Dst(D, t, r). -/
def Lane.dstInt (v : Lane) (s : State) (x : Fields) (r : Int) : State :=
  let r := if x.sat then clampInt x.width x.signed r else r
  let u := modPow r x.width
  if x.regs = 2 then v.wr s 2 x.d u
  else v.wr s 1 x.d (if x.signed then modPow (sext u x.width) 32 else u)

/-- The spec of an integer operation whose result is a function of the issue-time operands. -/
def intSpec (i : Instr) (x : Fields) (f : Lane → Int) : Spec := specOf i fun v s => .done (v.dstInt s x (f v))

def execIadd (x : Fields) (s : State) := issue (.iadd x) (intSpec (.iadd x) x fun v => v.src x x.a + v.srcB x) s
def execIsub (x : Fields) (s : State) := issue (.isub x) (intSpec (.isub x) x fun v => v.src x x.a - v.srcB x) s
/-- R184: IADDC reads the carry before it writes it. -/
def execIaddc (x : Fields) (s : State) := issue (.iaddc x) (specOf (.iaddc x) fun v s =>
  let r := v.src x x.a + v.srcB x + (boolNat (v.pred x.c) : Int)
  .done (v.wrPred (v.dstInt s x r) x.c (decide ((2 ^ x.width : Nat) ≤ r)))) s
def execIneg (x : Fields) (s : State) := issue (.ineg x) (intSpec (.ineg x) x fun v => -(v.src x x.a)) s
def execIabs (x : Fields) (s : State) := issue (.iabs x) (intSpec (.iabs x) x fun v => ((v.src x x.a).natAbs : Int)) s
def execImin (x : Fields) (s : State) := issue (.imin x) (intSpec (.imin x) x fun v => min (v.src x x.a) (v.srcB x)) s
def execImax (x : Fields) (s : State) := issue (.imax x) (intSpec (.imax x) x fun v => max (v.src x x.a) (v.srcB x)) s
def execImul (x : Fields) (s : State) := issue (.imul x) (intSpec (.imul x) x fun v => v.src x x.a * v.srcB x) s
def execImulh (x : Fields) (s : State) :=
  issue (.imulh x) (intSpec (.imulh x) x fun v => (v.src x x.a * v.srcB x) / (2 ^ x.width : Nat)) s
def execImad (x : Fields) (s : State) :=
  issue (.imad x) (intSpec (.imad x) x fun v => v.src x x.a * v.srcB x + v.src x x.c) s
/-- R184: IMADW takes C and writes its result as 64 bits. -/
def execImadw (x : Fields) (s : State) := issue (.imadw x) (specOf (.imadw x) fun v s =>
  let c := if x.signed then sext (v.r64 x.c).toNat 64 else ((v.r64 x.c).toNat : Int)
  let r := v.src x x.a * v.srcB x + c
  .done (v.wr s 2 x.d (modPow (if x.sat then clampInt 64 x.signed r else r) 64))) s

/-- R185: the unsigned operand B or zext(IMM16). -/
def Lane.logicB (v : Lane) (x : Fields) (n : Nat) : Nat := if x.immForm then x.imm.toNat else v.rd n x.b
/-- R185: the shift count. -/
def Lane.shiftCount (v : Lane) (x : Fields) : Nat := v.logicB x 1 % x.width
def logicSpec (i : Instr) (x : Fields) (f : Lane → Nat) : Spec := specOf i fun v s => .done (v.wr s x.regs x.d (f v))

def execAnd (x : Fields) (s : State) := issue (.and x) (logicSpec (.and x) x fun v => v.rd x.regs x.a &&& v.logicB x x.regs) s
def execOr (x : Fields) (s : State) := issue (.or x) (logicSpec (.or x) x fun v => v.rd x.regs x.a ||| v.logicB x x.regs) s
def execXor (x : Fields) (s : State) := issue (.xor x) (logicSpec (.xor x) x fun v => v.rd x.regs x.a ^^^ v.logicB x x.regs) s
def execAndn (x : Fields) (s : State) := issue (.andn x) (logicSpec (.andn x) x fun v =>
  v.rd x.regs x.a &&& (2 ^ x.width - 1 - v.logicB x x.regs % 2 ^ x.width)) s
def execNot (x : Fields) (s : State) := issue (.not x) (logicSpec (.not x) x fun v => 2 ^ x.width - 1 - v.rd x.regs x.a) s
def execShl (x : Fields) (s : State) := issue (.shl x) (logicSpec (.shl x) x fun v =>
  (v.rd x.regs x.a * 2 ^ v.shiftCount x) % 2 ^ x.width) s
def execShr (x : Fields) (s : State) := issue (.shr x) (logicSpec (.shr x) x fun v => v.rd x.regs x.a / 2 ^ v.shiftCount x) s
def execSar (x : Fields) (s : State) := issue (.sar x) (logicSpec (.sar x) x fun v =>
  modPow (sext (v.rd x.regs x.a) x.width / (2 ^ v.shiftCount x : Nat)) x.width) s
/-- Rotate left within n bits. -/
def rotl (a n k : Nat) : Nat := (a * 2 ^ k) % 2 ^ n + a / 2 ^ (n - k)
def execRot (x : Fields) (s : State) :=
  issue (.rot x) (logicSpec (.rot x) x fun v => rotl (v.rd x.regs x.a) x.width (v.shiftCount x)) s

/-- R187: pos and len. -/
def Lane.posLen (v : Lane) (x : Fields) : Nat × Nat :=
  if x.immForm then (x.immBits 4 0, x.immBits 10 5)
  else
    let b := (v.r32 x.b).toNat
    (b % 32, min (bits b 10 5) (32 - b % 32))
def execBfx (x : Fields) (s : State) := issue (.bfx x) (specOf (.bfx x) fun v s =>
  let (pos, len) := v.posLen x
  let f := ((v.r32 x.a).toNat / 2 ^ pos) % 2 ^ len
  .done (v.wr s 1 x.d (if x.signed && len != 0 then modPow (sext f len) 32 else f))) s
def execBfi (x : Fields) (s : State) := issue (.bfi x) (specOf (.bfi x) fun v s =>
  let (pos, len) := v.posLen x
  let d := (v.r32 x.d).toNat
  .done (v.wr s 1 x.d (d - (d / 2 ^ pos % 2 ^ len) * 2 ^ pos + ((v.r32 x.a).toNat % 2 ^ len) * 2 ^ pos))) s
/-- Number of 1 bits among the n low bits. -/
def popCount (n a : Nat) : Nat := ((List.range n).filter fun i => a.testBit i).length
def execPopc (x : Fields) (s : State) :=
  issue (.popc x) (specOf (.popc x) fun v s => .done (v.wr s 1 x.d (popCount x.width (v.rd x.regs x.a)))) s
def execClz (x : Fields) (s : State) :=
  issue (.clz x) (specOf (.clz x) fun v s => .done (v.wr s 1 x.d (x.width - bitLen (v.rd x.regs x.a)))) s
/-- Bit k moves to bit n - 1 - k. -/
def bitReverse (n a : Nat) : Nat := ((List.range n).map fun i => boolNat (a.testBit i) * 2 ^ (n - 1 - i)).foldl (· + ·) 0
def execBrev (x : Fields) (s : State) := issue (.brev x) (logicSpec (.brev x) x fun v => bitReverse x.width (v.rd x.regs x.a)) s
/-- R188: one byte of PRMB. -/
def permByte (ab sel : Nat) : Nat :=
  let b := (ab / 2 ^ (8 * (sel % 8))) % 256
  if 8 ≤ sel then (if 128 ≤ b then 255 else 0) else b
def execPrmb (x : Fields) (s : State) := issue (.prmb x) (specOf (.prmb x) fun v s =>
  let ab := (v.r32 x.b).toNat * 2 ^ 32 + (v.r32 x.a).toNat
  .done (v.wr s 1 x.d (ofBytes ((List.range 4).map fun k => BitVec.ofNat 8 (permByte ab (x.immBits (4 * k + 3) (4 * k))))))) s

/-- R189: the conditions of ICMP. -/
def intCond (c : Nat) (a b : Int) : Bool :=
  match c with
  | 0 => decide (a = b)
  | 1 => decide (a ≠ b)
  | 2 => decide (a < b)
  | 3 => decide (a ≤ b)
  | 4 => decide (b < a)
  | _ => decide (b ≤ a)
def execIcmp (x : Fields) (s : State) := issue (.icmp x) (specOf (.icmp x) fun v s =>
  .done (v.wrPred s x.d (intCond x.c.toNat (v.src x x.a) (v.srcB x)))) s
def execPset (x : Fields) (s : State) := issue (.pset x) (specOf (.pset x) fun v s =>
  .done (v.wrPred s x.d (x.imm.toNat.testBit (2 * boolNat (v.pred x.a) + boolNat (v.pred x.b))))) s
def execPmovR (x : Fields) (s : State) :=
  issue (.pmovR x) (specOf (.pmovR x) fun v s => .done (v.wr s 1 x.d v.th.preds.toNat)) s
def execPmovP (x : Fields) (s : State) := issue (.pmovP x) (specOf (.pmovP x) fun v s =>
  let mask := x.imm.extractLsb' 0 12
  .done (s.updThread v.key fun th =>
    { th with preds := (th.preds &&& ~~~mask) ||| ((v.r32 x.a).extractLsb' 0 12 &&& mask) })) s
def execSel (x : Fields) (s : State) := issue (.sel x) (specOf (.sel x) fun v s =>
  .done (v.wr s x.regs x.d (if v.pred x.c then v.rd x.regs x.a else v.logicB x x.regs))) s

def execMov (x : Fields) (s : State) := issue (.mov x) (logicSpec (.mov x) x fun v => v.rd x.regs x.a) s
def execMoviLo (x : Fields) (s : State) :=
  issue (.moviLo x) (specOf (.moviLo x) fun v s => .done (v.wr s 1 x.d x.imm.toNat)) s
def execMoviHi (x : Fields) (s : State) := issue (.moviHi x) (specOf (.moviHi x) fun v s =>
  .done (v.wr s 1 x.d (x.imm.toNat * 65536 + (v.r32 x.d).toNat % 65536))) s
def execMoviS (x : Fields) (s : State) :=
  issue (.moviS x) (specOf (.moviS x) fun v s => .done (v.wr s 1 x.d (modPow (sext x.imm.toNat 16) 32))) s

/-- R194: the index of MOVK. -/
def Lane.movkIndex (v : Lane) (x : Fields) : Nat := (v.r32 x.a).toNat + x.imm.toNat
def execMovk (x : Fields) (s : State) := issue (.movk x) { specOf (.movk x) (fun v s =>
    let n := v.movkIndex x
    if 15 < n then .trap causeIndex n else .done (v.wr32 s x.d (Store.rd 0 v.g.k n))) with
  extra := fun v => if v.movkIndex x ≤ 15 then [(.uniform (v.movkIndex x), .int)] else [] } s

/-- R122, R195: the window register that a lane's index names, renamed inside a sheaf. -/
def Lane.indexed (v : Lane) (x : Fields) : Dst := .stack (v.th.physical (v.th.rename (v.r32 x.a).toNat))
def execMovx (x : Fields) (s : State) := issue (.movx x) { specOf (.movx x) (fun v s =>
    let n := (v.r32 x.a).toNat
    if 31 < n then .trap causeIndex n else .done (v.wr32 s x.d (v.stackWord (v.th.rename n)))) with
  extra := fun v => if (v.r32 x.a).toNat ≤ 31 then [(v.indexed x, .int)] else [] } s
/-- R195: MOVXS waits for the register that its index names; that register is written, not read. -/
def execMovxs (x : Fields) (s : State) := issue (.movxs x) { specOf (.movxs x) (fun v s =>
    let n := (v.r32 x.a).toNat
    if 31 < n then .trap causeIndex n else .done (s.putDst v.key v.th.gid (v.indexed x) (v.r32 x.b))) with
  stall := fun _ vs => vs.any fun v => decide ((v.r32 x.a).toNat ≤ 31) && isPending v.th v.g (v.indexed x) } s

/-- R196: the sum of LEA with its index extended. -/
def Lane.leaSum (v : Lane) (x : Fields) (idx : Int) : Nat :=
  modPow ((v.r64 x.a).toNat + idx * (2 ^ x.m.toNat : Nat) + sext x.imm.toNat 16) 64
def execLea (x : Fields) (s : State) :=
  issue (.lea x) (specOf (.lea x) fun v s => .done (v.wr s 2 x.d (v.leaSum x (sext (v.r32 x.b).toNat 32)))) s
def execLeaN (x : Fields) (s : State) :=
  issue (.leaN x) (specOf (.leaN x) fun v s => .done (v.wr s 2 x.d (v.leaSum x (v.r32 x.b).toNat))) s

/-- R197: field Fn of a work identifier. -/
def widField (widths : List Nat) (wid n : Nat) : Nat := (wid / 2 ^ widShift widths n) % 2 ^ widths.getD n 0
def execWidf (x : Fields) (s : State) := issue (.widf x) (specOf (.widf x) fun v s =>
  let f := widField v.g.widths v.wid.toNat x.imm.toNat
  .done (if x.m = 1 then v.wr s 2 x.d f else v.wr s 1 x.d f)) s

/-- R198: the system values. -/
def State.systemValue (s : State) (v : Lane) (code : Nat) : Word :=
  match code with
  | 0 => word v.g.gangSize
  | 1 => word v.g.threads
  | 2 => word (regionOf v.core)
  | 3 => word (dieOf v.core)
  | 4 => word (s.tenantOf v.g.ctx)
  | 5 => match v.g.stage with
      | some (_, st) => word st
      | none => 0xFFFFFFFF
  | 6 => if isThresher v.key then 0xFFFFFFFF else word (slotNo v.key)
  | _ => word (boolNat (isThresher v.key))
def execSysr (x : Fields) (s : State) :=
  issue (.sysr x) (specOf (.sysr x) fun v s => .done (v.wr32 s x.d (s.systemValue v x.imm.toNat))) s

end Sys2Proof.Machine
end

