-- ==== Sys2Proof/Machine/Matrix.lean ====
section
/-!
DEFINITION. Matrix operations (R279 to R298), with the exact sums of R148 to R151, block scales (R143 to R146) and relaxed bits
(R291, R329, R330).
-/
namespace Sys2Proof.Machine

/-- A tile as 16,384 elements, and back. -/
def dense : Nat → Nat → Store Word → List Word
  | 0, _, _ => []
  | n + 1, i, m =>
    match m with
    | (k, v) :: rest => if k = i then v :: dense n (i + 1) rest else 0 :: dense n (i + 1) m
    | [] => 0 :: dense n (i + 1) []
def sparse (l : List Word) : Store Word := l.zipIdx.filterMap fun p => if p.1 = 0 then none else some (p.2, p.1)

def Tile.zero : Tile where
  elems := []
  pending := 0
  opened := false
def Group.tile (g : Group) (t : Nat) : Tile := (Store.get g.tiles t).getD Tile.zero
def State.tile (s : State) (gid t : Nat) : Tile := ((s.group gid).map fun g => g.tile t).getD Tile.zero
def State.updTile (s : State) (gid t : Nat) (f : Tile → Tile) : State :=
  s.updGroup gid fun g => { g with tiles := Store.wr Tile.zero g.tiles t (f (g.tile t)) }
/-- Element (row, column) of a tile (R95). -/
def Tile.elem (t : Tile) (row col : Nat) : Word := Store.rd 0 t.elems (row * 128 + col)

/-- R281: the fields of a format word. -/
def matRows (f : Word) : Nat := 32 * 2 ^ bits f.toNat 9 8
def matCols (f : Word) : Nat := 32 * 2 ^ bits f.toNat 11 10
def matA (f : Word) : Nat := bits f.toNat 3 0
def matB (f : Word) : Nat := bits f.toNat 7 4
def matWidth : Nat → Nat
  | 0 => 16 | 1 => 16 | 2 => 8 | 3 => 8 | 4 => 4 | 5 => 8 | 6 => 4 | _ => 0
/-- R282: pairs of formats that a set admits. -/
def matPair (a b : Nat) : Bool :=
  (a == b && (a == 0 || a == 1 || a == 4 || a == 5 || a == 6)) || ((a == 2 || a == 3) && (b == 2 || b == 3))

/-- The value of an operand element (R281). -/
def matValue (code b : Nat) : FP :=
  match code with
  | 0 => fp16.decode b
  | 1 => bf16.decode b
  | 2 => e4m3.decode b
  | 3 => e5m2.decode b
  | 4 => e2m1.decode b
  | 5 => FP.fin (decide (sext b 8 < 0)) (sext b 8).natAbs 0
  | _ => FP.fin (decide (sext b 4 < 0)) (sext b 4).natAbs 0
/-- Element n of a packed byte string (R141). -/
def packedElem (w n : Nat) (bs : List Byte) : Nat :=
  if w = 16 then field bs (2 * n) 2 else if w = 8 then field bs n 1 else elemOf 4 (n % 2) (field bs (n / 2) 1)

/-- floor(log2 |p|) of a finite value that is not zero. -/
def FP.top : FP → Int
  | .fin _ m x => (bitLen m : Int) - 1 + x
  | _ => 0
/-- R148: a product truncated toward zero to a multiple of 2^l. -/
def FP.truncAt (l : Int) : FP → Int
  | .fin n m x =>
    let q : Int := (roundAt .rz n m x l false).1
    if n then -q else q
  | _ => 0

/-- R148, R149: one element of a set. `exact` says that neither operand is FP16 or BF16. -/
def matElement (exact : Bool) (c : Word) (ps : List (Option FP)) : Word :=
  let cv := fp32.decode c.toNat
  let vs := ps.filterMap id
  let pinf := vs.any fun v => v == .inf false
  let ninf := vs.any fun v => v == .inf true
  if cv.isNan || ps.any (fun p => p.isNone) || vs.any FP.isNan || (pinf && ninf) then word fp32.qnan
  else if pinf then (if cv == .inf true then word fp32.qnan else word fp32.infBits)
  else if ninf then (if cv == .inf false then word fp32.qnan else word (fp32.infBits + fp32.signBit))
  else if cv.isInf then c
  else
    let s : Int × Int :=
      if exact then vs.foldl (fun acc p => dyAdd acc.1 acc.2 p.int p.ex) (0, 0)
      else
        let nz := vs.filter fun v => !v.isZero
        match nz.map FP.top with
        | [] => (0, 0)
        | t :: ts =>
          let l := ts.foldl max t - 48
          ((nz.map (FP.truncAt l)).foldl (· + ·) 0, l)
    let v := dyAdd s.1 s.2 cv.int cv.ex
    word (fp32.round .rne false v.1 v.2).1

/-- R150: MSCL on one element. -/
def foldElement (ea eb : Nat) (c p : Word) : Word :=
  let cv := fp32.decode c.toNat
  let pv := fp32.decode p.toNat
  if ea = 255 || eb = 255 || pv.isNan || cv.isNan then word fp32.qnan
  else if pv.isInf then (if cv.isInf && cv.neg != pv.neg then word fp32.qnan else p)
  else if cv.isInf then c
  else
    let v := dyAdd cv.int cv.ex pv.int (pv.ex + ea + eb - 254)
    word (fp32.round .rne false v.1 v.2).1

/-- R291: an element with its low l bits as free choice n gives them; zeros, infinities and NaNs stay. -/
def relaxElement (l n : Nat) (e : Word) : Word :=
  match fp32.decode e.toNat with
  | .fin _ m _ => if m = 0 then e else word (e.toNat / 2 ^ l * 2 ^ l + (Config.relaxedBits n).toNat % 2 ^ l)
  | _ => e

/-- R280: the state of a convergence register of a lane's group. -/
def State.conv (s : State) (gid x : Nat) : Option Conv := (s.group gid).bind fun g => Store.get g.cvs x
def State.setConv (s : State) (gid x : Nat) (c : Conv) : State := s.updGroup gid fun g => { g with cvs := Store.put g.cvs x c }

/-- R280: CVDEF. -/
def Lane.convDefine (v : Lane) (x : Fields) (s : State) : Act :=
  let n := (v.r32 x.a).toNat
  let busy := ((s.conv v.th.gid (x.immBits 2 0)).map fun c => !c.signers.isEmpty).getD false
  if n % 4 ≠ 0 || n < 4 || 512 < n || v.g.threads < n || busy then .illegal
  else .done (s.setConv v.th.gid (x.immBits 2 0) { count := n, signers := [], broken := false, diverged := false, sets := 0 })
def execCvdef (x : Fields) (s : State) := issue (.cvdef x) (specOf (.cvdef x) fun v s => v.convDefine x s) s

/-- The op of an MMA word and the fields of its IMM16 (R283). -/
def mmaOp (x : Fields) : Nat := x.fn.toNat % 8
def mmaScratch (x : Fields) : Bool := mmaOp x == 3 || mmaOp x == 5
def mmaTile (x : Fields) : Nat := x.immBits 6 3
def mmaLayout (v : Lane) (x : Fields) : List Word := if mmaScratch x then v.g.layoutWords (x.immBits 10 7) else []

/-- R96: the lowest and highest scratchpad offset of the A operand of a set. -/
def mmaHull (f : Word) (lay : List Word) : Nat × Nat := (Layout.of lay).hull 32 (matRows f)

/-- R282: a format word that is illegal with its instruction. -/
def mmaBad (v : Lane) (x : Fields) (count : Nat) (f : Word) (lay : List Word) : Bool :=
  let n := f.toNat
  let wa := matWidth (matA f)
  let wb := matWidth (matB f)
  let bl := if mmaOp x = 4 || mmaOp x = 5 then 1 else 0
  bits n 31 15 != 0 || bits n 11 10 == 3 || bits n 9 8 == 3 || !matPair (matA f) (matB f) || bits n 13 12 != bl ||
  decide (128 < 32 * x.immBits 12 11 + matRows f) || decide (128 < 32 * x.immBits 14 13 + matCols f) ||
  count != matCols f * wb / 4 ||
  (!mmaScratch x && matRows f * wa != matCols f * wb) ||
  (mmaScratch x &&
    (!(Layout.of lay).legal (x.immBits 10 7) ||
     (Layout.of lay).esize != (if wa = 8 then 0 else if wa = 16 then 1 else 3) ||
     decide (v.g.spLen ≤ (mmaHull f lay).2)))

/-- R284: a register becomes broken. -/
def State.breakConv (s : State) (gid x : Nat) : State :=
  match s.conv gid x with
  | some c => s.setConv gid x { c with broken := true }
  | none => s

/-- R286: the signers of quadrant q by ascending tid, and the bytes of their quads. -/
def insertByTid (m : Signer) : List Signer → List Signer
  | [] => [m]
  | a :: l => if m.tid ≤ a.tid then m :: a :: l else a :: insertByTid m l
def quadMembers (ss : List Signer) (q : Nat) : List Signer := (ss.filter fun m => m.tid % 4 == q).foldr insertByTid []
def quadBytes (ws : List Word) : List Byte := ws.flatMap fun w => toBytes 4 w.toNat
def assembleB (ss : List Signer) : List Byte := [0, 1, 2, 3].flatMap fun q => (quadMembers ss q).flatMap fun m => quadBytes m.b
def assembleA (ss : List Signer) : List Byte := [0, 1, 2, 3].flatMap fun q => (quadMembers ss q).flatMap fun m => quadBytes m.c

/-- R322: L for relaxed sets. -/
def Ctx.relaxL (c : Ctx) : Nat := bits c.apxctl.toNat 11 8
/-- R291, R324: L where relaxed bits are in effect for a lane, counting the case that the mode suppressed. -/
def Lane.relaxes (v : Lane) (s : State) (asked : Bool) : State × Option Nat :=
  (v.countForced s 4 asked, if asked && v.effective s 4 then (s.ctxOf v).map Ctx.relaxL else none)
/-- R330: whether a set of a lane is a selected tithe item as it issues. -/
def Lane.tithes (v : Lane) (s : State) (cv tile setNo : Nat) : Bool :=
  v.effective s 3 && ((s.ctxOf v).map fun c => titheSelected (v.g.lseed.toNat % 2 ^ 32) cv tile setNo c.tseed.toNat c.titheExp).getD false

/-- R286, R289: the set is issued: its operation, its tile pending, its scoreboard entry, and every member goes on. -/
def Lane.issueSet (v : Lane) (x : Fields) (c : Conv) (ss : List Signer) (f : Word) (lay : List Word) (s : State) : State :=
  let gid := v.th.gid
  let rl := v.relaxes s (f.getLsbD 14)
  let o : MmaOp := { op := mmaOp x, fmt := f, cv := x.immBits 2 0, tile := mmaTile x, rb := x.immBits 12 11, cb := x.immBits 14 13,
                     lay := lay, aBytes := if mmaScratch x then [] else assembleA ss, bBytes := assembleB ss, relaxed := rl.2,
                     tithed := rl.2.isSome && v.tithes s (x.immBits 2 0) (mmaTile x) c.sets }
  let r := rl.1.newOp { thread := v.key, gid := gid, core := v.core, pc := v.th.pc, dst := [], tc := none, kind := .mma o }
  let s := r.1.updTile gid (mmaTile x) fun t => { t with pending := t.pending + 1 }
  let h := mmaHull f lay
  let s := if mmaScratch x then
      s.enter { op := r.2, core := v.core, gid := gid, lo := v.g.pool h.1, hi := v.g.pool h.2, write := false, empty := false }
    else s
  let s := s.setConv gid (x.immBits 2 0) { c with signers := [], sets := c.sets + 1 }
  ss.foldl (fun s m => if m.thread = v.key then s else s.retire m.thread) s

/-- R284: a lane signs. -/
def Lane.sign (v : Lane) (x : Fields) (s : State) : Act :=
  let gid := v.th.gid
  let cv := x.immBits 2 0
  match s.conv gid cv with
  | none => .illegal
  | some c =>
    let f := v.r32 x.a
    let lay := mmaLayout v x
    if c.broken then .trap causeBroken cv
    else if mmaBad v x c.count f lay then .trapIn (s.breakConv gid cv) causeIllegal 0
    else if ((c.signers.filter fun m => m.tid % 4 == v.th.tid % 4).length) = c.count / 4 then
      .trapIn (s.breakConv gid cv) causeIllegal 0
    else
      let me : Signer := { thread := v.key, tid := v.th.tid, gather := s.moves, fn := x.fn.toNat, imm := x.imm.toNat, fmt := f,
                           lay := lay, b := v.r128 x.b, c := if mmaScratch x then [] else v.r128 x.c }
      let ss := c.signers ++ [me]
      if ss.length < c.count then .wait (s.setConv gid cv { c with signers := ss }) (.sign cv)
      else if ss.any fun m => m.fn != me.fn || m.imm != me.imm || m.fmt != me.fmt || m.lay != me.lay then
        .wait (s.setConv gid cv { c with signers := ss, broken := true, diverged := true }) (.sign cv)
      else .done (v.issueSet x c ss f lay s)

/-- R285: the traps of the members of a register that has just broken: those that signed in this gather, and the others delivered
gather by gather. -/
def State.brokenTraps (s : State) (gid cv : Nat) : State × List LaneTrap :=
  match s.conv gid cv with
  | none => (s, [])
  | some c =>
    if !c.broken || c.signers.isEmpty then (s, [])
    else
      let cause := if c.diverged then causeFormat else causeBroken
      let traps (ms : List Signer) : List LaneTrap := ms.map fun m => { key := m.thread, cause := cause, tval := cv }
      let old := (c.signers.map Signer.gather).eraseDups.filter (· != s.moves)
      let s' := s.setConv gid cv { c with signers := [], diverged := false }
      (old.foldl (fun s g => s.takeTraps (traps (c.signers.filter fun m => m.gather == g))) s',
        traps (c.signers.filter fun m => m.gather == s.moves))

/-- R118, R289: a lane's tile, and what makes the gather wait at issue: a pending tile, or no scoreboard entry for a set that these
lanes complete (R100). -/
def State.tilePending (s : State) (vs : List Lane) (ts : List Nat) : Bool :=
  vs.any fun v => ts.any fun t => (s.tile v.th.gid t).pending != 0
def mmaWaits (x : Fields) (s : State) (vs : List Lane) : Bool :=
  s.tilePending vs [mmaTile x] ||
  (mmaScratch x && (vs.take 1).any fun v => match s.conv v.th.gid (x.immBits 2 0) with
    | some c => decide (s.boardFree v.core < (c.signers.length + vs.length) / c.count)
    | none => false)

/-- R95, R168: a named tile that the group does not have. -/
def tileBad (ts : List Nat) (v : Lane) : Bool := ts.any fun t => decide (v.g.tileCount ≤ t)

/-- R425: the operand quads of a member are read in the formats of its format word. -/
def matPoison : Nat → PFmt
  | 0 => .f16 | 1 => .bf16 | 2 => .e4m3 | 3 => .e5m2 | _ => .int
def mmaReads (x : Fields) (v : Lane) (_ : List (Dst × PFmt)) : List (Dst × PFmt) :=
  let f := v.r32 x.a
  (v.places 1 x.a).map (fun d => (d, .int)) ++ (v.places 4 x.b).map (fun d => (d, matPoison (matB f))) ++
  (if mmaScratch x then [] else (v.places 4 x.c).map fun d => (d, matPoison (matA f)))

def mmaSpec (i : Instr) (x : Fields) (gids : List Nat) : Spec :=
  { specOf i (fun v s => v.sign x s) with
    bad := tileBad [mmaTile x]
    stall := mmaWaits x
    extra := fun _ => if mmaScratch x then layoutPlaces (x.immBits 10 7) else []
    reads := mmaReads x
    spoil := fun v s => s.breakConv v.th.gid (x.immBits 2 0)
    after := fun s => gids.foldl (fun r g => let q := r.1.brokenTraps g (x.immBits 2 0); (q.1, r.2 ++ q.2)) (s, []) }
/-- The groups whose register may break: those of the issuing gather. -/
def convGroups (s : State) : List Nat := ((s.gatherLanes.getD []).map fun v => v.th.gid).eraseDups
def execMmaR (x : Fields) (s : State) := issue (.mmaR x) (mmaSpec (.mmaR x) x (convGroups s)) s
def execMmaS (x : Fields) (s : State) := issue (.mmaS x) (mmaSpec (.mmaS x) x (convGroups s)) s
def execMmaPR (x : Fields) (s : State) := issue (.mmaPR x) (mmaSpec (.mmaPR x) x (convGroups s)) s
def execMmaPS (x : Fields) (s : State) := issue (.mmaPS x) (mmaSpec (.mmaPS x) x (convGroups s)) s

/-- The A operand of a .S set, packed bytes of rows of 32 elements (R286); an uncorrectable word gives its format's poison. -/
def Group.matARow (g : Group) (f : Word) (l : Layout) (i : Nat) : List FP :=
  (List.range 32).map fun k =>
    let o := permute l.mode (l.logical k i 0)
    let p := (matPoison (matA f)).poison.toNat
    matValue (matA f) (if g.spPoisoned o l.bytes then p % 2 ^ matWidth (matA f) else g.element l k i 0)

/-- The scratchpad bytes of the A operand of a .S set. -/
def MmaOp.operand (o : MmaOp) : List (Nat × Nat) :=
  let l := Layout.of o.lay
  if o.lay.isEmpty then []
  else (List.range (matRows o.fmt)).flatMap fun i => (List.range 32).map fun k => (permute l.mode (l.logical k i 0), l.bytes)
/-- R287: the window of a set: rows of A, columns of B and the elements that result. -/
def MmaOp.compute (o : MmaOp) (g : Group) : List (List Word) :=
  let m := matRows o.fmt
  let n := matCols o.fmt
  let wa := matWidth (matA o.fmt)
  let wb := matWidth (matB o.fmt)
  let exact := decide (2 ≤ matA o.fmt) && decide (2 ≤ matB o.fmt)
  let cols := (List.range n).map fun j => (List.range 32).map fun k => matValue (matB o.fmt) (packedElem wb (k * n + j) o.bBytes)
  (List.range m).map fun i =>
    let row := if o.lay.isEmpty then (List.range 32).map fun k => matValue (matA o.fmt) (packedElem wa (i * 32 + k) o.aBytes)
      else g.matARow o.fmt (Layout.of o.lay) i
    cols.zipIdx.map fun col =>
      matElement exact ((g.tile o.tile).elem (32 * o.rb + i) (32 * o.cb + col.2)) ((row.zip col.1).map fun p => p.1.times p.2)

/-- Put a window of elements into a tile. -/
def Tile.putWindow (t : Tile) (r0 c0 : Nat) (w : List (List Word)) : Tile :=
  { t with elems := sparse ((dense 16384 0 t.elems).zipIdx.map fun e =>
      let row := e.2 / 128
      let col := e.2 % 128
      if r0 ≤ row && c0 ≤ col then
        match w[row - r0]? with
        | some l => (l[col - c0]?).getD e.1
        | none => e.1
      else e.1) }

/-- R291: a window whose low l bits are free choices. -/
def State.relaxWindow (s : State) (l : Nat) (w : List (List Word)) : State × List (List Word) :=
  let r := w.map fun row => row.length
  let n := r.foldl (· + ·) 0
  let flat := (w.zipIdx.map fun row => row.1.zipIdx.map fun e => relaxElement l (s.nextChoice + row.2 * (r.headD 0) + e.2) e.1)
  ({ s with nextChoice := s.nextChoice + n }, flat)

/-- R291: a window as it is written: relaxed where L is given, else exact. -/
def State.relaxed (s : State) (l : Option Nat) (w : List (List Word)) : State × List (List Word) :=
  match l with
  | some n => s.relaxWindow n w
  | none => (s, w)

/-- MMA_SET_COMPLETION (R287, R289, R330). -/
def execMmaSetCompletion (op : Nat) (s : State) : Host.Outcome State Fault Refusal :=
  match Store.get s.ops op with
  | none => .next s
  | some o =>
    match o.kind, s.group o.gid with
    | .mma m, some g =>
      if s.opHeld op || s.ops.any (fun e => decide (e.1 < op) && e.2.gid == o.gid && match e.2.kind with
          | .mma n => n.tile == m.tile
          | _ => false) then .next s
      else
        let w := m.compute g
        let r := (s.readOperand o m.operand).relaxed m.relaxed w
        let s := if m.tithed then r.1.countTithe g.ctx 1 (boolNat (r.2 != w)) 0 else r.1
        let s := s.updTile o.gid m.tile fun t =>
          { t.putWindow (32 * m.rb) (32 * m.cb) (if m.tithed then w else r.2) with
            pending := t.pending - 1, opened := t.opened || m.op == 4 || m.op == 5 }
        happen ((s.endOp op).retireEntries op)
    | _, _ => .next s

/-- R292: MMAZ. -/
def execMmaz (x : Fields) (s : State) := issue (.mmaz x) { specOf (.mmaz x) (fun v s =>
    .done (s.updTile v.th.gid (x.immBits 3 0) fun t => { t with elems := [], opened := false })) with
  bad := tileBad [x.immBits 3 0], stall := fun s vs => s.tilePending vs [x.immBits 3 0], once := true } s

/-- R293: the row and column of an index. -/
def accIndexBad (n : Nat) : Bool := decide (2 ^ 14 ≤ n) || n / 128 % 4 != 0
def Lane.accRead (v : Lane) (x : Fields) (s : State) : Act :=
  let n := (v.r32 x.a).toNat
  if accIndexBad n then .trap causeIndex n
  else
    let t := s.tile v.th.gid (x.immBits 3 0)
    let dst := v.places 4 x.d
    let vals := [0, 1, 2, 3].map fun i => t.elem (n % 128) (n / 128 + i)
    let r := s.newOp { thread := v.key, gid := v.th.gid, core := v.core, pc := v.th.pc, dst := dst, tc := none, kind := .value vals none }
    .done (r.1.pendDsts v.key v.th.gid dst)
def execMaccr (x : Fields) (s : State) := issue (.maccr x) { specOf (.maccr x) (fun v s => v.accRead x s) with
  bad := tileBad [x.immBits 3 0], stall := fun s vs => s.tilePending vs [x.immBits 3 0] } s
def Lane.accWrite (v : Lane) (x : Fields) (s : State) : Act :=
  let n := (v.r32 x.a).toNat
  if accIndexBad n then .trap causeIndex n
  else .done (s.updTile v.th.gid (x.immBits 3 0) fun t =>
    { t with elems := (v.r128 x.b).zipIdx.foldl (fun m e => Store.wr 0 m (n % 128 * 128 + n / 128 + e.2) e.1) t.elems })
def execMaccw (x : Fields) (s : State) := issue (.maccw x) { specOf (.maccw x) (fun v s => v.accWrite x s) with
  bad := tileBad [x.immBits 3 0], stall := fun s vs => s.tilePending vs [x.immBits 3 0] } s

/-- An accumulator operation is issued with its scoreboard entries (lowest, highest offset, write). -/
def Lane.issueAcc (v : Lane) (s : State) (a : AccOp) (es : List (Nat × Nat × Bool)) (tiles : List Nat) : State :=
  let r := s.newOp { thread := v.key, gid := v.th.gid, core := v.core, pc := v.th.pc, dst := [], tc := none, kind := .acc a }
  let s := es.foldl (fun s e => s.enter { op := r.2, core := v.core, gid := v.th.gid, lo := v.g.pool e.1, hi := v.g.pool e.2.1,
                                           write := e.2.2, empty := false }) r.1
  tiles.foldl (fun s t => s.updTile v.th.gid t fun t => { t with pending := t.pending + 1 }) s

/-- R294: MACCL and MACCS. -/
def Lane.accMove (v : Lane) (x : Fields) (form : AccForm) (s : State) : Act :=
  let lay := v.g.layoutWords (x.immBits 7 4)
  let l := Layout.of lay
  let m := 32 * 2 ^ x.immBits 13 12
  let n := 32 * 2 ^ x.immBits 15 14
  if x.immBits 13 12 = 3 || x.immBits 15 14 = 3 || 128 < 32 * x.immBits 9 8 + m || 128 < 32 * x.immBits 11 10 + n ||
      13 < x.immBits 7 4 || !l.legal (x.immBits 7 4) || l.esize ≠ 2 then .illegal
  else
    let h := l.hull n m
    if v.g.spLen ≤ h.2 then .trap causeBounds (boundsTval v.g.spLen h.1)
    else .done (v.issueAcc s { form := form, tile := x.immBits 3 0, other := 0, rb := x.immBits 9 8, cb := x.immBits 11 10, m := m, n := n,
                               lay := lay, base := 0, words := [], fmt := 0, relaxed := none }
      [(h.1, h.2, form == .store)] [x.immBits 3 0])
def accMoveSpec (i : Instr) (x : Fields) (form : AccForm) : Spec :=
  { specOf i (fun v s => v.accMove x form s) with
    bad := tileBad [x.immBits 3 0]
    stall := fun s vs => s.tilePending vs [x.immBits 3 0] || (vs.take 1).any fun v => s.boardFree v.core == 0
    extra := fun _ => layoutPlaces (x.immBits 7 4)
    once := true }
def execMaccl (x : Fields) (s : State) := issue (.maccl x) (accMoveSpec (.maccl x) x .load) s
def execMaccs (x : Fields) (s : State) := issue (.maccs x) (accMoveSpec (.maccs x) x .store) s

/-- R295: MSCL reads its scales and folds. -/
def Lane.fold (v : Lane) (x : Fields) (s : State) : Act :=
  let a := (v.r32 x.a).toNat
  if v.g.spLen < a + 256 then .trap causeBounds (boundsTval v.g.spLen a)
  else v.plainLoad s a 256 fun s bs =>
    let rl := v.relaxes s (x.m == 1)
    .done (v.issueAcc rl.1 { form := .fold, tile := x.immBits 3 0, other := x.immBits 7 4, rb := 0, cb := 0, m := 128, n := 128, lay := [],
                             base := 0, words := bs.map fun b => word b.toNat, fmt := 0, relaxed := rl.2 }
      [] [x.immBits 3 0, x.immBits 7 4])
def execMscl (x : Fields) (s : State) := issue (.mscl x) { specOf (.mscl x) (fun v s => v.fold x s) with
  bad := tileBad [x.immBits 3 0, x.immBits 7 4], once := true
  stall := fun s vs => s.tilePending vs [x.immBits 3 0, x.immBits 7 4] || (vs.take 1).any fun v =>
    decide ((v.r32 x.a).toNat + 256 ≤ v.g.spLen) && s.boardBlocks v (v.g.pool (v.r32 x.a).toNat) (v.g.pool ((v.r32 x.a).toNat + 255)) false } s

/-- R296: the CVT code of an MQNT format, and R145's X as 2^n times an integer. -/
def quantCode : Nat → Nat
  | 0 => 3 | 1 => 4 | 2 => 5 | 3 => 6 | _ => 14
def quantMax : Nat → Nat
  | 0 => 448 | 1 => 57344 | 2 => 6 | 3 => 127 | _ => 7
/-- R145: the scale byte of an amax word. -/
def scaleByte (fmt : Nat) (a : Word) : Nat :=
  match fp32.decode a.toNat with
  | .fin _ m x =>
    if a.getLsbD 31 then 255
    else if m = 0 then 127
    else match (List.range 254).find? (fun (e : Nat) => decide (0 ≤ (dyAdd (quantMax fmt : Int) ((e : Int) - 126) (-(m : Int)) x).1)) with
      | some e => e + 1
      | none => 254
  | _ => 255

/-- R296: the 128 amax words of a lane, with what stops their reads. -/
def Lane.amaxWords (v : Lane) (a : Nat) (s : State) : Fetch × List Word :=
  (List.range 128).foldl (fun r b => let q := r.1.read v .load (a + 4 * b) 4; (q.1, r.2 ++ [word (ofBytes q.2)])) (v.startFetch s, [])

/-- R296: MQNT: its checks, its reads, and the operation that quantises. -/
def Lane.quantiseTile (v : Lane) (x : Fields) (s : State) : Act :=
  let a := (v.r64 x.a).toNat
  let b := (v.r32 x.b).toNat
  let lay := v.g.layoutWords (x.immBits 7 4)
  let l := Layout.of lay
  let fmt := x.m.toNat
  if !l.legal (x.immBits 7 4) || l.esize ≠ (if fmt = 2 || fmt = 4 then 3 else 0) then .illegal
  else if a % 4 ≠ 0 then .trap causeMisaligned a
  else if !(((s.ctxOf v).map fun c => c.canonical a && c.canonical (a + 511)).getD false) then .trap causeCanonical a
  else
    let h := l.hull 256 128
    if v.g.spLen ≤ h.2 then .trap causeBounds (boundsTval v.g.spLen h.1)
    else if v.g.spLen < b + 128 then .trap causeBounds (boundsTval v.g.spLen b)
    else
      let r := v.amaxWords a s
      match r.1.halt with
      | some k => v.halted .load r.1.s k
      | none =>
        let s := r.1.s.clearBuf v.key
        let s := (r.1.poison.map fun p => s.poisonLanded v.key p).getD s
        .done (v.issueAcc s
          { form := .quantise, tile := x.immBits 3 0, other := 0, rb := 0, cb := 0, m := 128, n := 256, lay := lay, base := b, words := r.2,
            fmt := fmt, relaxed := none }
          [(h.1, h.2, true), (b, b + 127, true)] [x.immBits 3 0, x.immBits 3 0 + 1])
def execMqnt (x : Fields) (s : State) := issue (.mqnt x) { specOf (.mqnt x) (fun v s => v.quantiseTile x s) with
  bad := tileBad [x.immBits 3 0 + 1], once := true, extra := fun _ => layoutPlaces (x.immBits 7 4)
  stall := fun s vs => s.tilePending vs [x.immBits 3 0, x.immBits 3 0 + 1] || (vs.take 1).any fun v => decide (s.boardFree v.core < 2) } s

/-- R297: the largest magnitude of row b of a tile pair. -/
def State.rowMax (s : State) (gid t b : Nat) : Word :=
  let one (w : Word) : Nat := let m := w.toNat % 2 ^ 31; if 0x7F800000 < m then 0x7FC00000 else m
  let row (k : Nat) : List Nat := (List.range 128).map fun j => one ((s.tile gid k).elem b j)
  word ((row t ++ row (t + 1)).foldl max 0)
/-- R297: MAMAX issues 128 non-returning AMXF. -/
def Lane.tileMax (v : Lane) (x : Fields) (s : State) : Act :=
  let a := (v.r64 x.a).toNat
  if a % 4 ≠ 0 then .trap causeMisaligned a
  else if !(((s.ctxOf v).map fun c => c.canonical a && c.canonical (a + 511)).getD false) then .trap causeCanonical a
  else .done (s.present v.key ((List.range 128).map fun b =>
    { v.blankAccess .atomic 4 0 with va := a + 4 * b, size := 4, code := 17,
                                     data := toBytes 4 (s.rowMax v.th.gid (x.immBits 3 0) b).toNat }))
def execMamax (x : Fields) (s : State) := issue (.mamax x) { specOf (.mamax x) (fun v s => v.tileMax x s) with
  bad := tileBad [x.immBits 3 0 + 1], once := true
  stall := fun s vs => s.tilePending vs [x.immBits 3 0, x.immBits 3 0 + 1] } s

/-- R294: MACCL's window, an uncorrectable word giving the FP32 poison. -/
def AccOp.loadWindow (a : AccOp) (g : Group) : List (List Word) :=
  let l := Layout.of a.lay
  (List.range a.m).map fun i => (List.range a.n).map fun j =>
    if g.spPoisoned (permute l.mode (l.logical j i 0)) 4 then PFmt.f32.poison else word (g.element l j i 0)
def AccOp.operand (a : AccOp) : List (Nat × Nat) :=
  let l := Layout.of a.lay
  (List.range a.m).flatMap fun i => (List.range a.n).map fun j => (permute l.mode (l.logical j i 0), 4)
def AccOp.storeWindow (a : AccOp) (t : Tile) (g : Group) : Group :=
  g.setElements (Layout.of a.lay) ((List.range a.m).flatMap fun i => (List.range a.n).map fun j =>
    (j, i, 0, (t.elem (32 * a.rb + i) (32 * a.cb + j)).toNat))
/-- R295: the main tile after the fold. -/
def AccOp.folded (a : AccOp) (t p : Tile) : List (List Word) :=
  let sc (n : Nat) : Nat := (a.words.getD n 0).toNat
  (List.range 128).map fun i => (List.range 128).map fun j => foldElement (sc i) (sc (128 + j)) (t.elem i j) (p.elem i j)
/-- R296, R103: the scale bytes and elements; words written whole are sound again. -/
def AccOp.quantised (a : AccOp) (t u : Tile) (g : Group) : Group :=
  let l := Layout.of a.lay
  let h := (List.range 128).foldl (fun g b =>
    let e := scaleByte a.fmt (a.words.getD b 0)
    let g := g.spWrite (a.base + b) [BitVec.ofNat 8 e]
    (List.range 256).foldl (fun g j =>
      let x := if j < 128 then t.elem b j else u.elem b (j - 128)
      g.setElement l j b 0 (quantise (quantCode a.fmt) e (fp32.decode x.toNat)).1) g) g
  if h.spBad.isEmpty && h.spWeak.isEmpty then h
  else h.spRenew ((List.range 128).map (a.base + ·) ++ (List.range 128).flatMap fun b => (List.range 256).flatMap fun j => l.byteOffsets j b 0)

/-- What an accumulator operation does when it completes. -/
def State.runAcc (s : State) (o : AOp) (g : Group) (a : AccOp) : State :=
  match a.form with
  | .load => (s.readOperand o a.operand).updTile o.gid a.tile fun t =>
      { t.putWindow (32 * a.rb) (32 * a.cb) (a.loadWindow g) with pending := t.pending - 1 }
  | .store => (s.updGroup o.gid (a.storeWindow (g.tile a.tile))).updTile o.gid a.tile fun t => { t with pending := t.pending - 1 }
  | .fold =>
    let r := s.relaxed a.relaxed (a.folded (g.tile a.tile) (g.tile a.other))
    (r.1.updTile o.gid a.tile fun t => { t.putWindow 0 0 r.2 with pending := t.pending - 1 }).updTile o.gid a.other
      fun t => { t with elems := [], opened := false, pending := t.pending - 1 }
  | .quantise =>
    ((s.updGroup o.gid (a.quantised (g.tile a.tile) (g.tile (a.tile + 1)))).updTile o.gid a.tile
      fun t => { t with pending := t.pending - 1 }).updTile o.gid (a.tile + 1) fun t => { t with pending := t.pending - 1 }

/-- ACC_OP_COMPLETION (R289, R294 to R296), and MACCR's values (R293). -/
def execAccOpCompletion (op : Nat) (s : State) : Host.Outcome State Fault Refusal :=
  match Store.get s.ops op with
  | none => .next s
  | some o =>
    match o.kind, s.group o.gid with
    | .acc a, some g => if s.opHeld op then .next s else happen (((s.runAcc o g a).endOp op).retireEntries op)
    | .value vs _, some _ => happen ((s.endOp op).landDsts o.thread o.gid o.dst vs)
    | _, _ => .next s

end Sys2Proof.Machine
end

