-- ==== Sys2Proof/Machine/Pair.lean ====
section
/-!
DEFINITION. The format P pair word (R162 to R166).
-/
/-- R164: the immediate of a slot, signed. -/
def Sys2Proof.Slot.immInt (p : Sys2Proof.Slot) : Int := Sys2Proof.Machine.sext p.src.toNat 15

namespace Sys2Proof.Machine

/-- R163: the pair opcodes as numbers. -/
def pairLds : Nat := 19
def pairSts : Nat := 20

/-- A window register of a lane, renamed. -/
def Lane.w (v : Lane) (n : Nat) : Word := v.readRaw (v.th.rename n)
/-- R163, R164: the source of a slot as 32 bits. -/
def Lane.slotSrc (v : Lane) (p : Slot) : Nat :=
  if p.i then
    let op := p.op.toNat
    if 13 ≤ op && op ≤ 16 then p.src.toNat * 2 ^ 17
    else if op = 17 || op = 18 then p.src.toNat * 2 * 65537
    else modPow (p.immInt * (if op = 22 then 4 else 1)) 32
  else if p.op = 22 then (v.w p.a).toNat * 4 % 2 ^ 32
  else (v.w p.a).toNat

/-- R164: the scratchpad offset of a slot's access. -/
def Lane.slotOffset (v : Lane) (p : Slot) : Int := if p.i then p.immInt * 4 else ((v.w p.a).toNat : Int)

/-- R163: what a slot that does not access scratchpad writes, with its flags; `d` and `src` as they stand before either slot
writes. -/
def Lane.slotValue (v : Lane) (p : Slot) : Nat × Nat :=
  let d := (v.w p.d.toNat).toNat
  let b := v.slotSrc p
  let m := 2 ^ 32
  match p.op.toNat with
  | 1 => (b, 0)
  | 2 => ((d + b) % m, 0)
  | 3 => ((d + m - b) % m, 0)
  | 4 => (d &&& b, 0)
  | 5 => (d ||| b, 0)
  | 6 => (d ^^^ b, 0)
  | 7 => (d * 2 ^ (b % 32) % m, 0)
  | 8 => (d / 2 ^ (b % 32), 0)
  | 9 => (modPow (sext d 32 / 2 ^ (b % 32)) 32, 0)
  | 10 => (if sext d 32 ≤ sext b 32 then d else b, 0)
  | 11 => (if sext d 32 ≤ sext b 32 then b else d, 0)
  | 12 => (d * b % m, 0)
  | 13 => opFadd false .rne d b
  | 14 => opFmul false .rne d b
  | 15 => opMinMax false false false d b
  | 16 => opMinMax true false false d b
  | 17 => opHadd2 fp16 .rne d b
  | 18 => opHmul2 fp16 .rne d b
  | 21 => ((Store.rd 0 v.g.k p.a).toNat, 0)
  | 22 => ((d + b) % m, 0)
  | 23 => (if v.th.preds.getLsbD 0 then d else b, 0)
  | _ => (0, 0)

/-- Whether a slot acts in a lane (R162). -/
def Lane.slotActive (v : Lane) (p : Slot) : Bool := v.active p.g false

/-- The result of one slot in a lane: a write of its destination, a store, nothing, or a trap (R166). -/
inductive SlotAct where
  | nothing
  | write (x flags : Nat)
  | store (offset : Nat) (x : Nat)
  | trap (cause tval : Nat)
  deriving DecidableEq, Repr

/-- R163, R221, R90: evaluate a slot. A load of an uncorrectable word counts and sets SERR (R425). -/
def Lane.slotRun (v : Lane) (p : Slot) (s : State) : State × SlotAct :=
  let op := p.op.toNat
  if !v.slotActive p || op = 0 then (s, .nothing)
  else if op = pairLds then
    match v.g.plainTrap (v.slotOffset p) 4 with
    | some t => (s, .trap t.1 t.2)
    | none =>
      match v.plainLoad s (v.slotOffset p).toNat 4 fun s bs => .jump s (ofBytes bs) with
      | .jump s x => (s, .write x 0)
      | .trapIn s c t => (s, .trap c t)
      | _ => (s, .nothing)
  else if op = pairSts then
    match v.g.plainTrap (v.slotOffset p) 4 with
    | some t => (s, .trap t.1 t.2)
    | none => (s, .store (v.slotOffset p).toNat (v.w p.d.toNat).toNat)
  else
    let r := v.slotValue p
    let fpten := ((s.ctxOf v).map fun c => c.fpten.toNat).getD 0
    if r.2 &&& fpten != 0 then (s, .trap causeFloat r.2) else (s, .write r.1 r.2)

/-- R165: inside a sheaf the register rules apply to the renamed numbers of the lane. -/
def Lane.pairRegsBad (v : Lane) (p q : Slot) : Bool := !pairRegsOk p q v.th.rename

def Lane.slotPut (v : Lane) (p : Slot) (s : State) : SlotAct → State
  | .write x fl => v.raiseFlags (s.putDst v.key v.th.gid (v.place (v.th.rename p.d.toNat)) (word x)) fl
  | .store o x => v.scratchStore s o (toBytes 4 x)
  | _ => s

/-- The flags that a slot raised, and the value of a trap of the pair: a floating-point trap names the flags of both slots, since the pair
is one instruction (R166, R221). -/
def SlotAct.flags : SlotAct → Nat
  | .write _ fl => fl
  | .trap c t => if c = causeFloat then t else 0
  | _ => 0
def pairTval (cause tval : Nat) (other : SlotAct) : Nat := if cause = causeFloat then tval ||| other.flags else tval

/-- R165, R166: both slots read before either writes; a trap of either keeps both from writing, slot 0's first. -/
def Lane.pair (v : Lane) (p q : Slot) (s : State) : Act :=
  if (v.slotActive p || v.slotActive q) && v.pairRegsBad p q then .illegal
  else
    let a := v.slotRun p s
    let b := v.slotRun q a.1
    match a.2, b.2 with
    | .trap c t, y => .trapIn b.1 c (pairTval c t y)
    | x, .trap c t => .trapIn b.1 c (pairTval c t x)
    | x, y => .done (v.slotPut q (v.slotPut p b.1 x) y)

/-- The places that an active slot reads, with their formats (R118, R425), and the one it writes. -/
def slotFmt (op : Nat) : PFmt := if 13 ≤ op && op ≤ 16 then .f32 else if op = 17 || op = 18 then .f16 else .int
def Lane.slotPlaces (v : Lane) (p : Slot) : List (Dst × PFmt) :=
  if !v.slotActive p || p.op = 0 then []
  else
    let f := slotFmt p.op.toNat
    (if p.readsD then [(v.place (v.th.rename p.d.toNat), f)] else []) ++
    (if p.readsA then [(v.place (v.th.rename p.a), f)] else []) ++
    (if p.op = 21 then [(.uniform p.a, .int)] else [])
def Lane.slotWrites (v : Lane) (p : Slot) : List (Dst × PFmt) :=
  if v.slotActive p && p.writes then [(v.place (v.th.rename p.d.toNat), .int)] else []

/-- R99: the plain access of a slot waits; a store of the thresher slot is held instead (R97). -/
def State.slotWaits (s : State) (v : Lane) (p : Slot) : Bool :=
  v.slotActive p && p.isMem && !(isThresher v.key && p.op == 20) && s.plainWaits v (v.slotOffset p) 4 (p.op == 20)
def isSts (p : Slot) : Bool := p.op == 20

def Lane.slotGuardBad (v : Lane) (p : Slot) : Bool := v.guardBad p.g false

/-- The fields under which a pair word issues: no guard of its own. -/
def pairFields : Fields := ⟨15, false, 0, 0, 0, 0, 0, 0, 0⟩
def pairSpec (p q : Slot) : Spec where
  row := { op := 0x100, fn := 0 }
  x := pairFields
  extra := fun v => v.slotPlaces p ++ v.slotPlaces q
  stall := fun s vs => vs.any fun v => s.slotWaits v p || s.slotWaits v q ||
    ((v.slotWrites p ++ v.slotWrites q).any fun d => isPending v.th v.g d.1) ||
    (isThresher v.key && ((v.slotActive p && isSts p) || (v.slotActive q && isSts q)) && s.boardFree v.core == 0)
  bad := fun v => v.slotGuardBad p || v.slotGuardBad q || (v.th.sheaf.isNone && v.pairRegsBad p q)
  lane := fun v s => v.pair p q s

def execPairWord (p q : Slot) (s : State) : Host.Outcome State Fault Refusal := issue (.pairWord p q) (pairSpec p q) s

end Sys2Proof.Machine
end

