-- ==== Sys2Proof/Machine/Power.lean ====
section
/-!
DEFINITION. Pins, reset and bring-up (R15, R458 to R460, R467), throttling and thermal shutdown (R465, R479).
-/
namespace Sys2Proof.Machine

/-- R15, R459: what a reset leaves: everything at its reset value. What has left the module, what stands at its inputs and the model's own
counters of identifiers and choices stay. -/
def State.cold (s : State) : State :=
  { State.reset with
    pwrgood := s.pwrgood
    resetN := s.resetN
    upStep := 0
    inputs := s.inputs
    sent := s.sent
    moves := s.moves
    nextOp := s.nextOp
    nextGid := s.nextGid
    nextChoice := s.nextChoice }

/-- RESET_N_LOW (R458). -/
def execResetNLow (s : State) : Host.Outcome State Fault Refusal := happen { s.cold with resetN := false }
/-- RESET_N_RISE (R458, R459): with PWRGOOD high, bring-up starts. -/
def execResetNRise (s : State) : Host.Outcome State Fault Refusal :=
  if s.resetN then .next s else happen { s.cold with resetN := true, upStep := if s.pwrgood then 1 else 0 }
/-- PWRGOOD_FALL (R15, R458). -/
def execPwrgoodFall (s : State) : Host.Outcome State Fault Refusal := happen { s.cold with pwrgood := false }
/-- PWRGOOD_RISE (R458). -/
def execPwrgoodRise (s : State) : Host.Outcome State Fault Refusal := if s.pwrgood then .next s else happen { s with pwrgood := true }
/-- MODULE_RESET (R467): answered, then as RESET_N. -/
def execModuleReset (s : State) : Host.Outcome State Fault Refusal :=
  s.atPort false fun s =>
    if s.inputs.frame.kind ≠ 5 || s.manageOp ≠ 0x0C then .next s
    else if !s.authorised then happen s.refuseRequest
    else if s.inputs.frame.payload.length ≠ 1 then happen (s.answer 6 [2])
    else happen { (s.answer 6 [0]).cold with upStep := 1 }

/-- R459: a step of bring-up is running. -/
def State.bringingUp (s : State) : Bool :=
  s.pwrgood && s.resetN && !s.halted && s.failCode == 0 && decide (1 ≤ s.upStep) && decide (s.upStep ≤ 6)
/-- R459, R474: step 3 ends: the host port is up, and the peer ports and DisplayPort outputs (16 and 17) that failed calibration are marked
down. -/
def State.calibrated (s : State) : State :=
  let bad := (s.inputs.ports.filter fun p => decide (p < 18)).eraseDups
  { s with portUp := true, portsDown := bad.foldl (fun l p => insertNat p l) s.portsDown,
           pdown := satAdd s.pdown (bad.filter fun p => decide (p < 16)).length }
/-- R459: step 5 ends: every memory holds zeros, and no bit error stands. -/
def State.zeroFilled (s : State) : State :=
  { s with hbm := [], scanout := [], poison := [], upsets := [], lines := [], loadCache := [] }
/-- BRING_UP_STEP_END (R459): the end of step 6 sets the ready flag. -/
def execBringUpStepEnd (s : State) : Host.Outcome State Fault Refusal :=
  if !s.bringingUp then .next s
  else
    let t := { s with upStep := s.upStep + 1 }
    happen (if s.upStep = 3 then t.calibrated else if s.upStep = 5 then t.zeroFilled else if s.upStep = 6 then { t with ready := true, epoch := t.now, periods := 0, patrolled := 0 } else t)
/-- R459: the failure codes of a step. -/
def stepCodes : Nat → List Byte
  | 1 => [1]
  | 2 => [2, 3]
  | 3 => [4, 5]
  | 4 => [6]
  | 5 => [7]
  | 6 => [8, 9, 10]
  | _ => []
/-- BRING_UP_STEP_TIMEOUT (R460): the step has failed, with the code at the inputs; one that ran past its bound has its first code unless
another is named. -/
def execBringUpStepTimeout (s : State) : Host.Outcome State Fault Refusal :=
  if !s.bringingUp then .next s
  else
    let codes := stepCodes s.upStep
    happen { s with failCode := if codes.contains s.inputs.code then s.inputs.code else codes.headD 0 }

/-- HOTSPOT_THROTTLE (R13, R465, R479): a quadrant's level changes; it changes no value but THROT. -/
def execHotspotThrottle (core quad level : Nat) (s : State) : Host.Outcome State Fault Refusal :=
  if 192 ≤ core || 4 ≤ quad || 16 ≤ level || !s.pwrgood then .next s
  else
    let w := (Store.rd 0 s.throt core).toNat
    happen { s with throt := Store.wr 0 s.throt core (word (w - bits w (4 * quad + 3) (4 * quad) * 2 ^ (4 * quad) + level * 2 ^ (4 * quad))) }
/-- THERMAL_SHUTDOWN (R15, R479). -/
def execThermalShutdown (s : State) : Host.Outcome State Fault Refusal :=
  if s.pwrgood then happen { s.cold with halted := true } else .next s

end Sys2Proof.Machine
end

