-- ==== Sys2Proof/Machine/Dispatch.lean ====
section
/-!
DEFINITION. One arm for each constructor of Instr: a direct call of its meaning.
-/
namespace Sys2Proof.Machine

def exec (i : Instr) (s : State) : Host.Outcome State Fault Refusal :=
  match i with
  | .iadd x => Sys2Proof.Machine.execIadd x s
  | .isub x => Sys2Proof.Machine.execIsub x s
  | .iaddc x => Sys2Proof.Machine.execIaddc x s
  | .ineg x => Sys2Proof.Machine.execIneg x s
  | .iabs x => Sys2Proof.Machine.execIabs x s
  | .imin x => Sys2Proof.Machine.execImin x s
  | .imax x => Sys2Proof.Machine.execImax x s
  | .imul x => Sys2Proof.Machine.execImul x s
  | .imulh x => Sys2Proof.Machine.execImulh x s
  | .imad x => Sys2Proof.Machine.execImad x s
  | .imadw x => Sys2Proof.Machine.execImadw x s
  | .and x => Sys2Proof.Machine.execAnd x s
  | .or x => Sys2Proof.Machine.execOr x s
  | .xor x => Sys2Proof.Machine.execXor x s
  | .andn x => Sys2Proof.Machine.execAndn x s
  | .not x => Sys2Proof.Machine.execNot x s
  | .shl x => Sys2Proof.Machine.execShl x s
  | .shr x => Sys2Proof.Machine.execShr x s
  | .sar x => Sys2Proof.Machine.execSar x s
  | .rot x => Sys2Proof.Machine.execRot x s
  | .bfx x => Sys2Proof.Machine.execBfx x s
  | .bfi x => Sys2Proof.Machine.execBfi x s
  | .popc x => Sys2Proof.Machine.execPopc x s
  | .clz x => Sys2Proof.Machine.execClz x s
  | .brev x => Sys2Proof.Machine.execBrev x s
  | .prmb x => Sys2Proof.Machine.execPrmb x s
  | .icmp x => Sys2Proof.Machine.execIcmp x s
  | .pset x => Sys2Proof.Machine.execPset x s
  | .pmovR x => Sys2Proof.Machine.execPmovR x s
  | .pmovP x => Sys2Proof.Machine.execPmovP x s
  | .sel x => Sys2Proof.Machine.execSel x s
  | .mov x => Sys2Proof.Machine.execMov x s
  | .moviLo x => Sys2Proof.Machine.execMoviLo x s
  | .moviHi x => Sys2Proof.Machine.execMoviHi x s
  | .moviS x => Sys2Proof.Machine.execMoviS x s
  | .movk x => Sys2Proof.Machine.execMovk x s
  | .movx x => Sys2Proof.Machine.execMovx x s
  | .movxs x => Sys2Proof.Machine.execMovxs x s
  | .lea x => Sys2Proof.Machine.execLea x s
  | .leaN x => Sys2Proof.Machine.execLeaN x s
  | .widf x => Sys2Proof.Machine.execWidf x s
  | .sysr x => Sys2Proof.Machine.execSysr x s
  | .bra x => Sys2Proof.Machine.execBra x s
  | .brx x => Sys2Proof.Machine.execBrx x s
  | .call x => Sys2Proof.Machine.execCall x s
  | .callx x => Sys2Proof.Machine.execCallx x s
  | .ret x => Sys2Proof.Machine.execRet x s
  | .shfb x => Sys2Proof.Machine.execShfb x s
  | .shfe x => Sys2Proof.Machine.execShfe x s
  | .trap x => Sys2Proof.Machine.execTrap x s
  | .tret x => Sys2Proof.Machine.execTret x s
  | .tretN x => Sys2Proof.Machine.execTretN x s
  | .nop x => Sys2Proof.Machine.execNop x s
  | .yield x => Sys2Proof.Machine.execYield x s
  | .exit x => Sys2Proof.Machine.execExit x s
  | .pulse x => Sys2Proof.Machine.execPulse x s
  | .safept x => Sys2Proof.Machine.execSafept x s
  | .wspill x => Sys2Proof.Machine.execWspill x s
  | .wfill x => Sys2Proof.Machine.execWfill x s
  | .csrr x => Sys2Proof.Machine.execCsrr x s
  | .csrw x => Sys2Proof.Machine.execCsrw x s
  | .twnx x => Sys2Proof.Machine.execTwnx x s
  | .twlk x => Sys2Proof.Machine.execTwlk x s
  | .fadd x => Sys2Proof.Machine.execFadd x s
  | .fsub x => Sys2Proof.Machine.execFsub x s
  | .fmul x => Sys2Proof.Machine.execFmul x s
  | .fma x => Sys2Proof.Machine.execFma x s
  | .fmin x => Sys2Proof.Machine.execFmin x s
  | .fmax x => Sys2Proof.Machine.execFmax x s
  | .fminx x => Sys2Proof.Machine.execFminx x s
  | .fmaxx x => Sys2Proof.Machine.execFmaxx x s
  | .fabs x => Sys2Proof.Machine.execFabs x s
  | .fneg x => Sys2Proof.Machine.execFneg x s
  | .fclass x => Sys2Proof.Machine.execFclass x s
  | .frnd x => Sys2Proof.Machine.execFrnd x s
  | .frcp x => Sys2Proof.Machine.execFrcp x s
  | .fsqrt x => Sys2Proof.Machine.execFsqrt x s
  | .frsq x => Sys2Proof.Machine.execFrsq x s
  | .fexp2 x => Sys2Proof.Machine.execFexp2 x s
  | .flog2 x => Sys2Proof.Machine.execFlog2 x s
  | .fsin x => Sys2Proof.Machine.execFsin x s
  | .fcos x => Sys2Proof.Machine.execFcos x s
  | .fcmp x => Sys2Proof.Machine.execFcmp x s
  | .cvt x => Sys2Proof.Machine.execCvt x s
  | .cvtBs x => Sys2Proof.Machine.execCvtBs x s
  | .hadd2 x => Sys2Proof.Machine.execHadd2 x s
  | .hsub2 x => Sys2Proof.Machine.execHsub2 x s
  | .hmul2 x => Sys2Proof.Machine.execHmul2 x s
  | .hfma2 x => Sys2Proof.Machine.execHfma2 x s
  | .dot4 x => Sys2Proof.Machine.execDot4 x s
  | .dot8 x => Sys2Proof.Machine.execDot8 x s
  | .dot2h x => Sys2Proof.Machine.execDot2h x s
  | .qsc x => Sys2Proof.Machine.execQsc x s
  | .fkey x => Sys2Proof.Machine.execFkey x s
  | .wnw x => Sys2Proof.Machine.execWnw x s
  | .wnwCt x => Sys2Proof.Machine.execWnwCt x s
  | .titheS x => Sys2Proof.Machine.execTitheS x s
  | .titheC x => Sys2Proof.Machine.execTitheC x s
  | .apxexp2 x => Sys2Proof.Machine.execApxexp2 x s
  | .apxrcp x => Sys2Proof.Machine.execApxrcp x s
  | .ld x => Sys2Proof.Machine.execLd x s
  | .st x => Sys2Proof.Machine.execSt x s
  | .lds x => Sys2Proof.Machine.execLds x s
  | .sts x => Sys2Proof.Machine.execSts x s
  | .ldt x => Sys2Proof.Machine.execLdt x s
  | .ldk x => Sys2Proof.Machine.execLdk x s
  | .atomAdd x => Sys2Proof.Machine.execAtomAdd x s
  | .atomSub x => Sys2Proof.Machine.execAtomSub x s
  | .atomMinN x => Sys2Proof.Machine.execAtomMinN x s
  | .atomMaxN x => Sys2Proof.Machine.execAtomMaxN x s
  | .atomAnd x => Sys2Proof.Machine.execAtomAnd x s
  | .atomOr x => Sys2Proof.Machine.execAtomOr x s
  | .atomXor x => Sys2Proof.Machine.execAtomXor x s
  | .atomXchg x => Sys2Proof.Machine.execAtomXchg x s
  | .atomCas x => Sys2Proof.Machine.execAtomCas x s
  | .atomInc x => Sys2Proof.Machine.execAtomInc x s
  | .atomDec x => Sys2Proof.Machine.execAtomDec x s
  | .atomMinS x => Sys2Proof.Machine.execAtomMinS x s
  | .atomMaxS x => Sys2Proof.Machine.execAtomMaxS x s
  | .afadd x => Sys2Proof.Machine.execAfadd x s
  | .amxf x => Sys2Proof.Machine.execAmxf x s
  | .amxi x => Sys2Proof.Machine.execAmxi x s
  | .red x => Sys2Proof.Machine.execRed x s
  | .redFadd x => Sys2Proof.Machine.execRedFadd x s
  | .redAmxf x => Sys2Proof.Machine.execRedAmxf x s
  | .redAmxi x => Sys2Proof.Machine.execRedAmxi x s
  | .fence x => Sys2Proof.Machine.execFence x s
  | .pref x => Sys2Proof.Machine.execPref x s
  | .evict x => Sys2Proof.Machine.execEvict x s
  | .bcpG2s x => Sys2Proof.Machine.execBcpG2s x s
  | .bcpS2g x => Sys2Proof.Machine.execBcpS2g x s
  | .bcpS2s x => Sys2Proof.Machine.execBcpS2s x s
  | .bcps x => Sys2Proof.Machine.execBcps x s
  | .bcpq x => Sys2Proof.Machine.execBcpq x s
  | .bcpm x => Sys2Proof.Machine.execBcpm x s
  | .bcpUnpk4s x => Sys2Proof.Machine.execBcpUnpk4s x s
  | .bcpUnpk4f x => Sys2Proof.Machine.execBcpUnpk4f x s
  | .bcpUnpk8s x => Sys2Proof.Machine.execBcpUnpk8s x s
  | .bcpUnpk8f x => Sys2Proof.Machine.execBcpUnpk8f x s
  | .qdef x => Sys2Proof.Machine.execQdef x s
  | .qpopE x => Sys2Proof.Machine.execQpopE x s
  | .qpopF x => Sys2Proof.Machine.execQpopF x s
  | .qpushF x => Sys2Proof.Machine.execQpushF x s
  | .qpushE x => Sys2Proof.Machine.execQpushE x s
  | .qstat x => Sys2Proof.Machine.execQstat x s
  | .send x => Sys2Proof.Machine.execSend x s
  | .recv x => Sys2Proof.Machine.execRecv x s
  | .recvw x => Sys2Proof.Machine.execRecvw x s
  | .tcw x => Sys2Proof.Machine.execTcw x s
  | .tcwT x => Sys2Proof.Machine.execTcwT x s
  | .tlw x => Sys2Proof.Machine.execTlw x s
  | .tlwT x => Sys2Proof.Machine.execTlwT x s
  | .tladv x => Sys2Proof.Machine.execTladv x s
  | .bari x => Sys2Proof.Machine.execBari x s
  | .bara x => Sys2Proof.Machine.execBara x s
  | .barw x => Sys2Proof.Machine.execBarw x s
  | .coll x => Sys2Proof.Machine.execColl x s
  | .cvdef x => Sys2Proof.Machine.execCvdef x s
  | .mmaR x => Sys2Proof.Machine.execMmaR x s
  | .mmaS x => Sys2Proof.Machine.execMmaS x s
  | .mmaPR x => Sys2Proof.Machine.execMmaPR x s
  | .mmaPS x => Sys2Proof.Machine.execMmaPS x s
  | .mmaz x => Sys2Proof.Machine.execMmaz x s
  | .maccr x => Sys2Proof.Machine.execMaccr x s
  | .maccw x => Sys2Proof.Machine.execMaccw x s
  | .maccl x => Sys2Proof.Machine.execMaccl x s
  | .maccs x => Sys2Proof.Machine.execMaccs x s
  | .mscl x => Sys2Proof.Machine.execMscl x s
  | .mqnt x => Sys2Proof.Machine.execMqnt x s
  | .mamax x => Sys2Proof.Machine.execMamax x s
  | .mvtx x => Sys2Proof.Machine.execMvtx x s
  | .mprim x => Sys2Proof.Machine.execMprim x s
  | .memit x => Sys2Proof.Machine.execMemit x s
  | .vamp x => Sys2Proof.Machine.execVamp x s
  | .vwarpX x => Sys2Proof.Machine.execVwarpX x s
  | .vwarpY x => Sys2Proof.Machine.execVwarpY x s
  | .gzlt x => Sys2Proof.Machine.execGzlt x s
  | .smpl x => Sys2Proof.Machine.execSmpl x s
  | .tileo x => Sys2Proof.Machine.execTileo x s
  | .lens x => Sys2Proof.Machine.execLens x s
  | .serq x => Sys2Proof.Machine.execSerq x s
  | .texB x => Sys2Proof.Machine.execTexB x s
  | .texT x => Sys2Proof.Machine.execTexT x s
  | .texA x => Sys2Proof.Machine.execTexA x s
  | .texg x => Sys2Proof.Machine.execTexg x s
  | .texq x => Sys2Proof.Machine.execTexq x s
  | .ryl x => Sys2Proof.Machine.execRyl x s
  | .rylV x => Sys2Proof.Machine.execRylV x s
  | .ryt x => Sys2Proof.Machine.execRyt x s
  | .ryrM x => Sys2Proof.Machine.execRyrM x s
  | .ryrH x => Sys2Proof.Machine.execRyrH x s
  | .rys x => Sys2Proof.Machine.execRys x s
  | .ryh x => Sys2Proof.Machine.execRyh x s
  | .ryx x => Sys2Proof.Machine.execRyx x s
  | .pairWord p q => Sys2Proof.Machine.execPairWord p q s
  | .twnxAnswer thread => Sys2Proof.Machine.execTwnxAnswer thread s
  | .loadDataReturn op peerData => Sys2Proof.Machine.execLoadDataReturn op peerData s
  | .writeQueueApply line => Sys2Proof.Machine.execWriteQueueApply line s
  | .bcpqSlotTaken op => Sys2Proof.Machine.execBcpqSlotTaken op s
  | .copyCompletion op => Sys2Proof.Machine.execCopyCompletion op s
  | .bcpmCompletion op => Sys2Proof.Machine.execBcpmCompletion op s
  | .blockedPopRelease thread => Sys2Proof.Machine.execBlockedPopRelease thread s
  | .messageArrival msg => Sys2Proof.Machine.execMessageArrival msg s
  | .tlwChangeNoticed thread => Sys2Proof.Machine.execTlwChangeNoticed thread s
  | .mmaSetCompletion op => Sys2Proof.Machine.execMmaSetCompletion op s
  | .accOpCompletion op => Sys2Proof.Machine.execAccOpCompletion op s
  | .amplifyProject core => Sys2Proof.Machine.execAmplifyProject core s
  | .rasterTest die => Sys2Proof.Machine.execRasterTest die s
  | .coverageDelivery die => Sys2Proof.Machine.execCoverageDelivery die s
  | .tileWriteCompletion op => Sys2Proof.Machine.execTileWriteCompletion op s
  | .traversalCompletion op => Sys2Proof.Machine.execTraversalCompletion op s
  | .translationMiss die => Sys2Proof.Machine.execTranslationMiss die s
  | .walkCompletion walk => Sys2Proof.Machine.execWalkCompletion walk s
  | .bridgeFlitRetry passes => Sys2Proof.Machine.execBridgeFlitRetry passes s
  | .scanoutBurstRetry ctx slot failedRetries => Sys2Proof.Machine.execScanoutBurstRetry ctx slot failedRetries s
  | .portGuardPeriod core beats => Sys2Proof.Machine.execPortGuardPeriod core beats s
  | .patrolScrub core word find => Sys2Proof.Machine.execPatrolScrub core word find s
  | .thresherIssue core => Sys2Proof.Machine.execThresherIssue core s
  | .groupCompletion group => Sys2Proof.Machine.execGroupCompletion group s
  | .threadDrainEnd thread => Sys2Proof.Machine.execThreadDrainEnd thread s
  | .widxNotice tenant queue => Sys2Proof.Machine.execWidxNotice tenant queue s
  | .launchCompletion launch => Sys2Proof.Machine.execLaunchCompletion launch s
  | .tlbinvCompletion ctx => Sys2Proof.Machine.execTlbinvCompletion ctx s
  | .collectiveCompletion op peerInputs => Sys2Proof.Machine.execCollectiveCompletion op peerInputs s
  | .balancePeriod ctx slot => Sys2Proof.Machine.execBalancePeriod ctx slot s
  | .safePointSave ctx => Sys2Proof.Machine.execSafePointSave ctx s
  | .forcedSave ctx => Sys2Proof.Machine.execForcedSave ctx s
  | .saveCompletion ctx => Sys2Proof.Machine.execSaveCompletion ctx s
  | .restoreCompletion ctx => Sys2Proof.Machine.execRestoreCompletion ctx s
  | .watchdogFire ctx => Sys2Proof.Machine.execWatchdogFire ctx s
  | .lateErrorTrap thread => Sys2Proof.Machine.execLateErrorTrap thread s
  | .faultRecordWrite tenant => Sys2Proof.Machine.execFaultRecordWrite tenant s
  | .faultRidxNotice tenant => Sys2Proof.Machine.execFaultRidxNotice tenant s
  | .rsmNotice tenant => Sys2Proof.Machine.execRsmNotice tenant s
  | .selfTestEnd core pass => Sys2Proof.Machine.execSelfTestEnd core pass s
  | .replayDivergence ctx => Sys2Proof.Machine.execReplayDivergence ctx s
  | .stripLatch ctx slot => Sys2Proof.Machine.execStripLatch ctx slot s
  | .stripDeadline ctx slot => Sys2Proof.Machine.execStripDeadline ctx slot s
  | .displayRowEmit ctx slot => Sys2Proof.Machine.execDisplayRowEmit ctx slot s
  | .reservationStopRequest ctx slot => Sys2Proof.Machine.execReservationStopRequest ctx slot s
  | .scanoutWindowStart ctx slot => Sys2Proof.Machine.execScanoutWindowStart ctx slot s
  | .scanoutWindowEnd ctx slot => Sys2Proof.Machine.execScanoutWindowEnd ctx slot s
  | .peerFlitReplay port passes => Sys2Proof.Machine.execPeerFlitReplay port passes s
  | .peerPortDown port => Sys2Proof.Machine.execPeerPortDown port s
  | .hotspotThrottle core quad level => Sys2Proof.Machine.execHotspotThrottle core quad level s
  | .launch => Sys2Proof.Machine.execLaunch s
  | .relay => Sys2Proof.Machine.execRelay s
  | .ctxload => Sys2Proof.Machine.execCtxload s
  | .ctxupd => Sys2Proof.Machine.execCtxupd s
  | .ctxsave => Sys2Proof.Machine.execCtxsave s
  | .ctxres => Sys2Proof.Machine.execCtxres s
  | .ctxdisc => Sys2Proof.Machine.execCtxdisc s
  | .tlbinv => Sys2Proof.Machine.execTlbinv s
  | .pipe => Sys2Proof.Machine.execPipe s
  | .metadataExport => Sys2Proof.Machine.execMetadataExport s
  | .metadataImport => Sys2Proof.Machine.execMetadataImport s
  | .viewSetBind => Sys2Proof.Machine.execViewSetBind s
  | .viewSetUnbind => Sys2Proof.Machine.execViewSetUnbind s
  | .collective => Sys2Proof.Machine.execCollective s
  | .viewSetStatus => Sys2Proof.Machine.execViewSetStatus s
  | .rdmaWrite => Sys2Proof.Machine.execRdmaWrite s
  | .rdmaRead => Sys2Proof.Machine.execRdmaRead s
  | .peerRequest => Sys2Proof.Machine.execPeerRequest s
  | .gazeFrame => Sys2Proof.Machine.execGazeFrame s
  | .discoveryRequest => Sys2Proof.Machine.execDiscoveryRequest s
  | .statusRequest => Sys2Proof.Machine.execStatusRequest s
  | .attestationRequest => Sys2Proof.Machine.execAttestationRequest s
  | .frameDropped => Sys2Proof.Machine.execFrameDropped s
  | .claim => Sys2Proof.Machine.execClaim s
  | .windowWrite => Sys2Proof.Machine.execWindowWrite s
  | .commandQueueSetup => Sys2Proof.Machine.execCommandQueueSetup s
  | .faultQueueSetup => Sys2Proof.Machine.execFaultQueueSetup s
  | .nodeRange => Sys2Proof.Machine.execNodeRange s
  | .contextRange => Sys2Proof.Machine.execContextRange s
  | .destinations => Sys2Proof.Machine.execDestinations s
  | .moduleNumber => Sys2Proof.Machine.execModuleNumber s
  | .peerRoute => Sys2Proof.Machine.execPeerRoute s
  | .peerPortRetrain => Sys2Proof.Machine.execPeerPortRetrain s
  | .clearCounters => Sys2Proof.Machine.execClearCounters s
  | .moduleReset => Sys2Proof.Machine.execModuleReset s
  | .managementAuthFail => Sys2Proof.Machine.execManagementAuthFail s
  | .placementPass => Sys2Proof.Machine.execPlacementPass s
  | .ueReportPeriod => Sys2Proof.Machine.execUeReportPeriod s
  | .faultQueueFramePeriod => Sys2Proof.Machine.execFaultQueueFramePeriod s
  | .heartbeatPeriod => Sys2Proof.Machine.execHeartbeatPeriod s
  | .resetNRise => Sys2Proof.Machine.execResetNRise s
  | .resetNLow => Sys2Proof.Machine.execResetNLow s
  | .pwrgoodRise => Sys2Proof.Machine.execPwrgoodRise s
  | .pwrgoodFall => Sys2Proof.Machine.execPwrgoodFall s
  | .thermalShutdown => Sys2Proof.Machine.execThermalShutdown s
  | .bringUpStepEnd => Sys2Proof.Machine.execBringUpStepEnd s
  | .bringUpStepTimeout => Sys2Proof.Machine.execBringUpStepTimeout s

end Sys2Proof.Machine
end

