-- ==== Sys2Proof/Machine/Schedule.lean ====
section
/-!
DEFINITION. What the machine does next: the picker (R120, R121), instruction fetch (R154, R168), the events that its own state makes due,
and the passing of time.
-/
namespace Sys2Proof.Machine

/-- R107, R121, R400: a thread that the picker may take at this move. -/
def State.pickable (s : State) (e : Nat × Thread) : Bool :=
  !isThresher e.1 && e.2.mayIssue s.moves && ((s.group e.2.gid).map fun g => s.running g).getD false
/-- R67: whether a thread of a group is a producer. -/
def Group.produces (g : Group) (tid : Nat) : Bool :=
  match g.prod with
  | some (a, b) => decide (a ≤ tid) && decide (tid ≤ b)
  | none => false
/-- R120: thread b may be gathered with thread a, lane columns apart. -/
def State.joins (s : State) (a b : Nat × Thread) : Bool :=
  a.1 / 512 == b.1 / 512 && a.2.gid == b.2.gid && a.2.pc == b.2.pc && (a.2.sheaf.map Sheaf.base) == (b.2.sheaf.map Sheaf.base) && !b.2.reload &&
  ((s.group a.2.gid).map fun g => g.produces a.2.tid == g.produces b.2.tid).getD false
/-- R121: the thread of the greatest age, ties to the lowest slot. -/
def oldest (l : List (Nat × Thread)) : Option (Nat × Thread) :=
  l.foldl (fun best e => match best with
    | none => some e
    | some b => if e.2.since < b.2.since then some e else some b) none
/-- R120, R121: the gather of the picker's choice: in each other lane column the lowest-numbered slot that may join. -/
def State.pickGather (s : State) : Option Gather :=
  let ready := s.threads.filter s.pickable
  (oldest ready).map fun a =>
    let mates := ready.filter fun b => s.joins a b
    let col (c : Nat) : Option Nat :=
      if a.1 % 32 = c then some a.1 else (mates.find? fun b => b.1 % 32 == c).map Prod.fst
    { core := coreOf a.1, quad := quadOf a.1, lanes := if a.2.reload then [a.1] else (List.range 32).filterMap col }

/-- What a fetch of a thread names itself by. -/
def fetchAsker (key ctx pc : Nat) : Asker := { input := coreOf key, core := coreOf key, ctx := ctx, thread := some key, pc := pc }
/-- R130: the sheaf of a restored thread whose tables are read next, and whether it is the suspended one. -/
def Thread.unread (th : Thread) : Option (Sheaf × Bool) :=
  let want (o : Option Sheaf) (b : Bool) : Option (Sheaf × Bool) := (o.filter fun sh => sh.tables.isEmpty).map fun sh => (sh, b)
  (want th.sheaf false).orElse fun _ => want th.susp true
/-- R129: the table sets that a restored thread needs are not free. DESIGN CHOICE (log 65): it waits for them as at SHFB. -/
def State.reloadWaits (s : State) (key : Nat) (th : Thread) : Bool :=
  let held := s.tableSets (coreOf key) (quadOf key)
  let need := ([th.sheaf, th.susp].filterMap id).map fun sh => (s.groupCtx th, sh.base)
  (need.any fun n => !held.contains n) && decide (16 < (held ++ need).eraseDups.length)
/-- R130: before a restored thread issues, the tables of its sheaf, and of one that its handler suspended, are read again. -/
def State.reloadSheaf (s : State) (key : Nat) (th : Thread) (g : Group) : State :=
  match th.unread with
  | none => s.setThread key { th with reload := false, st := .ready }
  | some (sh, susp) =>
    let r := s.fetchBytes 3 (fetchAsker key g.ctx th.pc) (sh.base + 8) (24 * sh.paths) th.peerBuf
    match r.2 with
    | .error f => r.1.awaitFetch key f 8
    | .ok bs =>
      let new := some { sh with tables := dwordsOf (3 * sh.paths) bs }
      let th : Thread := { th with sheaf := if susp then th.sheaf else new, susp := if susp then new else th.susp, peerBuf := [] }
      let s := r.1.setThread key { th with reload := th.unread.isSome, st := .ready }
      if tablesOk (dwordsOf (3 * sh.paths) bs) then s else s.takeTraps [{ key := key, cause := causeIllegal, tval := 0 }]

/-- The picker's move: a gather is chosen, or a restored thread reads its tables. At a boundary of periods the fences made there come
first (R457). -/
def State.pick (s : State) : Option (Host.Outcome State Fault Refusal) :=
  (if s.periodDue then none else s.pickGather).map fun g =>
    let plain : Host.Outcome State Fault Refusal := .next { s with gather := some g, armed := true }
    match g.lanes with
    | [k] => match Store.get s.threads k with
        | some th => match s.group th.gid with
            | some gr =>
              if !th.reload then plain
              else if s.reloadWaits k th then .next (s.setThread k { th with st := .waiting (.stall s.moves .issue) })
              else happen (s.reloadSheaf k th gr)
            | none => plain
        | none => plain
    | _ => plain

/-- The gather under issue waits for what its instruction's bytes lack (R41, R154). -/
def State.missFetch (s : State) (vs : List Lane) (f : FetchStop) : State :=
  vs.foldl (fun s v => s.awaitFetch v.key f 8) s.tick
/-- The bytes at the gather's program counter, read with instruction-fetch translation (R154). -/
def State.fetchWord (s : State) (v : Lane) : State × Except FetchStop (List Byte) :=
  s.fetchBytes 2 (fetchAsker v.key v.g.ctx v.th.pc) v.th.pc 8 v.th.wordBuf
/-- R154, R168: fetch the gather's word and issue what it decodes to. -/
def State.issueNext (s : State) : Host.Outcome State Fault Refusal :=
  match s.gatherLanes with
  | none => .fault .noGather
  | some [] => .fault .noGather
  | some (v :: vs) =>
    let r := s.fetchWord v
    match r.2 with
    | .error f => happen (r.1.missFetch (v :: vs) f)
    | .ok bs =>
      match decodeWord (BitVec.ofNat 64 (ofBytes bs)) with
      | some i => exec i r.1
      | none => issueIllegal r.1

/-- The events that operations in flight may come to. -/
def AOp.events (id : Nat) (o : AOp) : List Instr :=
  match o.kind with
  | .load _ => [.loadDataReturn id []]
  | .value _ _ => [.loadDataReturn id []]
  | .fetch _ => []
  | .copy c => if c.form = 4 then [.bcpmCompletion id] else if c.form = 3 && c.slot.isNone then [.bcpqSlotTaken id] else [.copyCompletion id]
  | .mma _ => [.mmaSetCompletion id]
  | .acc _ => [.accOpCompletion id]
  | .tile _ => [.tileWriteCompletion id]
  | .trav _ => [.traversalCompletion id]
  | .coll _ => [.collectiveCompletion id []]
  | .sts _ _ => []
/-- The events that a thread may come to by itself. -/
def Thread.events (key : Nat) (th : Thread) : List Instr :=
  (match th.st with
    | .waiting .walker => [.twnxAnswer key]
    | .waiting (.pop _ _ _) => [.blockedPopRelease key]
    | .waiting (.word _ _ _ false _) => [.tlwChangeNoticed key]
    | .draining => [.threadDrainEnd key]
    | _ => []) ++ (if th.late.isSome then [.lateErrorTrap key] else [])
/-- The events of a context. -/
def Ctx.events (c : Nat) (x : Ctx) : List Instr :=
  [.tlbinvCompletion c, .safePointSave c, .forcedSave c, .saveCompletion c, .restoreCompletion c, .watchdogFire c, .replayDivergence c] ++
  x.pipes.map fun p => .balancePeriod c p.1
/-- The events of a view set. -/
def viewEvents (key : Nat) : List Instr :=
  let c := key / 4
  let k := key % 4
  [.stripLatch c k, .displayRowEmit c k, .stripDeadline c k, .reservationStopRequest c k, .scanoutWindowStart c k, .scanoutWindowEnd c k]
/-- The events of a tenant. -/
def Tenant.events (t : Nat) (v : Tenant) : List Instr :=
  [.faultRecordWrite t, .faultRidxNotice t, .rsmNotice t] ++ v.queues.map fun q => .widxNotice t q.1
/-- The events of the periods, in their order at a boundary (R408, R421, R426, R442). -/
def State.periodEvents (s : State) : List Instr :=
  (if s.passDue then [.placementPass] else []) ++
  (if !s.periodDue then []
   else if !s.uevents.isEmpty then [.ueReportPeriod]
   else if !s.advancedQueues.isEmpty then [.faultQueueFramePeriod]
   else [.heartbeatPeriod])

/-- R103: the patrol's next visit to a word with an error has come. -/
def State.patrolEvents (s : State) : List Instr :=
  match s.nextPatrol with
  | some n => if s.ready && decide (n < s.patrolDue) then [.patrolScrub (n % patrolWords / 2 ^ 19) (n % 2 ^ 19) .clean] else []
  | none => []
/-- R51, R56: what the slices and their ports do next. -/
def State.queueEvents (s : State) : List Instr :=
  match (s.wq.head?.map Pending.pa).orElse fun _ => s.portHeld.head?.map fun r => r.req.pa with
  | some a => [.writeQueueApply (a / 128)]
  | none => []

/-- Every event that the state of the machine may make due. -/
def State.events (s : State) : List Instr :=
  (if s.ready then [] else [.bringUpStepEnd]) ++
  s.periodEvents ++
  s.ops.flatMap (fun o => o.2.events o.1) ++
  s.threads.flatMap (fun t => t.2.events t.1) ++
  s.queueEvents ++
  s.patrolEvents ++
  s.mail.map (fun m => .messageArrival m.1) ++
  ((s.enroute.map fun m => m.die).eraseDups.map fun d => .translationMiss d) ++
  (List.range s.misses.length).map (fun i => .walkCompletion i) ++
  s.amplifier.map (fun a => .amplifyProject a.1) ++
  ((s.prims.map fun p => p.die).eraseDups.map fun d => .rasterTest d) ++
  ((s.covers.map fun c => c.die).eraseDups.map fun d => .coverageDelivery d) ++
  (((s.groups.filter fun g => g.2.thr.isSome).map fun g => g.2.core).eraseDups.map fun c => .thresherIssue c) ++
  s.groups.map (fun g => .groupCompletion g.1) ++
  s.launches.map (fun l => .launchCompletion l.1) ++
  s.tenants.flatMap (fun t => t.2.events t.1) ++
  s.ctxs.flatMap (fun c => c.2.events c.1) ++
  s.views.flatMap (fun v => viewEvents v.1)

/-- What an event comes to; none when it was not due. -/
def State.tryEvent (s : State) (i : Instr) : Option (Host.Outcome State Fault Refusal) :=
  match exec i s with
  | .next t => if t.moves = s.moves && !t.armed then none else some (.next t)
  | o => some o
/-- R300, R352: the clock of an unbind is one in which nothing has issued yet. -/
def State.unbindClock (s : State) : State := { s with now := s.now + 1 }
/-- R333: an unbind that waited for its set's tiles comes again. -/
def State.tryUnbind (s : State) : Option (Host.Outcome State Fault Refusal) :=
  (s.views.find? fun v => v.2.unbind.isSome && s.viewQuiet (v.1 / 4) (v.1 % 4)).map fun v =>
    exec .viewSetUnbind { s.unbindClock with inputs := { Inputs.none with record := v.2.unbind.getD Inputs.none.record } }
/-- The first of the events that is due, the list turned by one place with every second move. -/
def State.nextEvent (s : State) : Option (Host.Outcome State Fault Refusal) :=
  match s.tryUnbind with
  | some o => some o
  | none =>
    let s := { s with inputs := Inputs.none }
    let l := s.events
    let k := s.moves / 2 % l.length
    (l.drop k ++ l.take k).findSome? s.tryEvent

/-- R15, R458, R479: the module has power, is out of reset and has not shut down. -/
def State.alive (s : State) : Bool := s.pwrgood && s.resetN && !s.halted
/-- The machine's own next move: gathers and events take turns; when neither can move, a core clock passes. -/
def State.proceed (s : State) : Host.Outcome State Fault Refusal :=
  let idle : Host.Outcome State Fault Refusal := .next (if s.alive then { s with now := s.now + 1 } else s)
  if s.moves % 2 = 0 then
    match s.pick with
    | some o => o
    | none => s.nextEvent.getD idle
  else
    match s.nextEvent with
    | some o => o
    | none => s.pick.getD idle

/-- A word stored as the hardware stores it (R2, R154). -/
def wordBytes (w : Nat) : List Byte := toBytes 8 w

/-- R153: the page and the leaf of a test word: read, write and execute, in this module's HBM at 0x10000. -/
def probeVa : Nat := 0x10000
def probeLeaf : DWord := dword (0x10 * 2 ^ 19 + 2 ^ 12 + 2 ^ 11 + 3)

/-- A context, group and thread with nothing in them, for a word that runs by itself. -/
def probeCtx : Ctx where
  st := .active
  tenant := 0
  cfl := 0
  root := 0
  apxctl := 0
  tseed := 0
  tcnt := 0
  fpten := 0
  errpol := 0
  wdper := 1
  detmode := 0
  save := 0
  logb := 0
  winSamples := 0
  winExcur := 0
  pipes := []
  progress := 0
  entered := 0
  stop := none
  watchdog := false
  pendingCmds := []
  log := { wpos := 0, rpos := 0, raign := 0, drops := 0, state := 0, ahead := [] }
def probeGroup (ctx core : Nat) : Group where
  ctx := ctx
  core := core
  launch := 0
  gang := 0
  member := 0
  gangSize := 1
  threads := 1
  stackWords := 64
  part := word 0x404040
  rows := [0, 0, 0, 0]
  regBase := 0
  regLen := 1
  spBase := 1024
  spLen := 65536
  accBase := 1024
  tileCount := 1
  fields := [0, 0, 0, 0, 0]
  widths := [0, 0, 0, 0, 0, 0]
  k := []
  kpend := []
  kfrom := []
  kbad := []
  sp := []
  spBad := []
  spWeak := []
  tiles := []
  queues := []
  tcs := List.replicate 4 ⟨0, 0, []⟩
  bars := []
  cvs := []
  posts := []
  msgs := []
  lseed := 0
  args := []
  code := probeVa
  prod := some (0, 0)
  thr := none
  stage := none
  live := 1
  placed := 0
  leaving := false

/-- A thread of a new group stands at a word, and is the gather under issue. -/
def State.standAt (s : State) (w : Nat) : State :=
  let ctx := Store.free 0 s.ctxs
  let key := Store.free 0 s.threads
  let core := coreOf key
  let s := s.rawWrite probeVa (wordBytes w)
  { s with
    ctxs := Store.put s.ctxs ctx probeCtx
    groups := Store.put s.groups s.nextGid (probeGroup ctx core)
    threads := Store.put s.threads key { thresherThread s.nextGid probeVa s.now with tid := 0, words := 64 }
    nextGid := s.nextGid + 1
    tlb := { unit := fetchUnit core, ctx := ctx, va := probeVa, bits := 12, level := 0, entry := probeLeaf } :: s.tlb
    gather := some { core := core, quad := quadOf key, lanes := [key] }
    armed := true }

/-- A tenant's record stands first in what happens next. -/
def State.recordFirst (s : State) (w : Nat) : State :=
  let bs := (List.range 64).map (byteOfNat w)
  match decodeRecord bs with
  | none => { s with armed := false }
  | some i =>
    let c : Cmd := { tenant := 0, queue := 0, index := 0, bytes := bs }
    { s with armed := false, gather := none, agenda := (i, { Inputs.none with record := c }) :: s.agenda }

end Sys2Proof.Machine
end

