-- ==== Sys2Proof/Machine/Step.lean ====
section
/-!
DEFINITION. One step of the module: the gather under issue, else what the agenda holds, else the machine's own next move.
-/
namespace Sys2Proof.Machine

/-- R337: a view set whose next latch falls at a clock or before it. -/
def State.dueLatch (s : State) (clock : Nat) : Option (Nat × Nat) :=
  (s.views.find? fun v => decide (v.2.nextLatch ≤ (clock : Int))).map fun v => (v.1 / 4, v.1 % 4)
/-- R300, R352: what the agenda holds happens in the clock that has come, an unbind in a clock of its own. -/
def State.clockOf (s : State) (i : Instr) : State :=
  match i with
  | .viewSetUnbind => s.unbindClock
  | _ => s

/-- One step. A latch that is due happens before anything else of its clock (R338, R352). A chosen gather fetches and issues its word, but
not in the clock of a latch; else the first entry of the agenda happens, with its inputs; else the machine proceeds by itself. -/
def step (s : State) : Host.Outcome State Fault Refusal :=
  match s.dueLatch s.now with
  | some v => exec (.stripLatch v.1 v.2) s
  | none =>
    if s.armed then
      if (s.dueLatch (s.now + 1)).isSome then .next { s with now := s.now + 1 } else s.issueNext
    else
      match s.agenda with
      | (i, ins) :: rest => exec i ((({ s with agenda := rest, inputs := ins } : State).strike ins.upsets).clockOf i)
      | [] => s.proceed

/-- The state with an instruction word standing where the next step fetches, or with a 64-byte command record standing first in what happens
next. -/
def State.withFetchWord (s : State) (nbits w : Nat) : State :=
  if nbits ≤ 64 then s.standAt w else s.recordFirst w

end Sys2Proof.Machine
end

