-- ==== Sys2Proof/Safety.lean ====
section
/-!
DEFINITION. The terms in which the claims speak: when an instruction issues for a gather in the order of R169 with nothing in
its way, what it then leaves, and what a run of the machine may never do.
-/
namespace Sys2Proof.Machine

/-- R103: a word without a bit error. -/
def Lane.sound (v : Lane) (d : Dst) : Bool := !isBad v.th v.g d && !isWeak v.th d
/-- R103, R118, R125, R248, R425: nothing holds a lane at the instruction: no operand is pending, no operand base is illegal, no
word that it reads has a bit error, and its accesses awaiting translation do not hold it back. -/
def Lane.free (v : Lane) (r : Row) (x : Fields) : Bool :=
  !v.heldBack r.op && (v.rowPlaces r x).all (fun d => !isPending v.th v.g d) &&
  (r.operands x).all (fun o => v.baseOk o.1 o.2) && (v.rowReads r x).all fun d => v.sound d.1

/-- R169: the word i, of row r and fields x, issues for the gather of lanes vs, in ascending lane column: it is a legal word
where it stands (step 2), the thresher slot may issue it (R132, R133), and each active lane is free to execute it. -/
structure Issues (i : Instr) (r : Row) (x : Fields) (s : State) (vs : List Lane) : Prop where
  row : rowOf i = some (r, x)
  lanes : s.gatherLanes = some vs
  legal : wellFormed i = true
  late : ∀ v ∈ vs, v.th.late = none
  guard : ∀ v ∈ vs, v.guardBad x.g x.gn = false
  thresher : ∀ v ∈ vs, isThresher v.key = true → thresherMay i = true ∧ writesUniform r x = false
  free : ∀ v ∈ vs, v.active x.g x.gn = true → v.free r x = true

/-- The active lanes of a gather (R156). -/
def activeLanes (x : Fields) (vs : List Lane) : List Lane := vs.filter fun v => v.active x.g x.gn
def idleLanes (x : Fields) (vs : List Lane) : List Lane := vs.filter fun v => !v.active x.g x.gn

/-- The lane has executed its instruction: it goes on at the next (R131 in the thresher slot); clk.hi is latched if it read clk.lo (R116). -/
def State.finish (s : State) (v : Lane) (r : Row) (x : Fields) : State := (s.retire v.key).latchClock v (readsClock r x)
/-- The lane has executed its instruction and goes on at another address. -/
def State.finishAt (s : State) (v : Lane) (r : Row) (x : Fields) (pc : Nat) : State :=
  (s.updThread v.key fun th => th.goto pc s.now).latchClock v (readsClock r x)

/-- What an issue leaves: a clock later, the inactive lanes go on at the next instruction and change nothing else (R156), and
then each active lane, in ascending lane column, has its effect. -/
def State.commit (s : State) (x : Fields) (vs : List Lane) (effect : Lane → State → State) : State :=
  (activeLanes x vs).foldl (fun s v => effect v s) ((idleLanes x vs).foldl (fun s v => s.retire v.key) s.tick)

/-- Each active lane has an effect and goes on at the next instruction. -/
def State.completeAll (s : State) (r : Row) (x : Fields) (vs : List Lane) (effect : Lane → State → State) : State :=
  s.commit x vs fun v s => (effect v s).finish v r x

/-- Whenever the word issues with nothing in its way, every active lane has the effect and goes on at the next instruction. -/
def Completes (i : Instr) (x : Fields) (s : State) (effect : Lane → State → State) : Prop :=
  ∀ r vs, Issues i r x s vs → exec i s = .next (s.completeAll r x vs effect).settle.moved

/-- The same where each active lane must meet a condition of the instruction's own. -/
def CompletesIf (i : Instr) (x : Fields) (s : State) (ok : Lane → Prop) (effect : Lane → State → State) : Prop :=
  ∀ r vs, Issues i r x s vs → (∀ v ∈ activeLanes x vs, ok v) → exec i s = .next (s.completeAll r x vs effect).settle.moved

end Sys2Proof.Machine

namespace Sys2Proof
open Machine

/-- The same where each active lane goes on at an address of its own. -/
def JumpsIf (i : Instr) (x : Fields) (s : State) (ok : Lane → Prop) (effect : Lane → State → State) (pc : Lane → Nat) : Prop :=
  ∀ r vs, Issues i r x s vs → (∀ v ∈ activeLanes x vs, ok v) →
    exec i s = .next (s.commit x vs fun v s => (effect v s).finishAt v r x (pc v)).settle.moved

/-- The same where the instruction leaves each active lane as the effect says, the program counter included. -/
def LeavesIf (i : Instr) (x : Fields) (s : State) (ok : Lane → Prop) (effect : Lane → State → State) : Prop :=
  ∀ r vs, Issues i r x s vs → (∀ v ∈ activeLanes x vs, ok v) → exec i s = .next (s.commit x vs effect).settle.moved

/-- Every active lane takes a trap (R416): the inactive lanes have gone on, no active lane has changed, and the traps of the gather
are taken together (R419 to R422). -/
def TrapsIf (i : Instr) (x : Fields) (s : State) (ok : Lane → Prop) (cause : Nat) (tval : Lane → Nat) : Prop :=
  ∀ r vs, Issues i r x s vs → (∀ v ∈ activeLanes x vs, ok v) →
    exec i s = .next (((idleLanes x vs).foldl (fun s v => s.retire v.key) s.tick).takeTraps
      ((activeLanes x vs).map fun v => { key := v.key, cause := cause, tval := tval v })).settle.moved

/-- R22: the lane's context admits an address. -/
def Machine.Lane.admits (v : Lane) (s : State) (a : Nat) : Prop := ∃ c, s.ctxOf v = some c ∧ c.canonical a = true

/-- R180: an operand of the type that M names, as a number. -/
def Machine.Lane.operand (v : Lane) (x : Fields) (sel : BitVec 6) : BitVec x.width := BitVec.ofNat x.width (v.rd x.regs sel)
/-- R182: the immediate of the type that M names: IMM16 sign-extended for signed types and zero-extended for others. -/
def Fields.immediate (x : Fields) : BitVec x.width := if x.signed then x.imm.signExtend x.width else x.imm.setWidth x.width
def Machine.Lane.operandB (v : Lane) (x : Fields) : BitVec x.width := if x.immForm then Fields.immediate x else v.operand x x.b
/-- The value of a bit string under the type that M names. -/
def Fields.value (x : Fields) (u : BitVec x.width) : Int := if x.signed then u.toInt else u.toNat
/-- R181: what a result of the type that M names leaves in the registers of D: 8- and 16-bit types extend to 32 bits. -/
def Fields.extended (x : Fields) (u : BitVec x.width) : Nat :=
  if x.regs = 2 then u.toNat else if x.signed then (u.signExtend 32).toNat else (u.setWidth 32).toNat
/-- R183: the result nearest to r that the type that M names can hold. -/
def Fields.saturated (x : Fields) (r : Int) : BitVec x.width :=
  BitVec.ofInt x.width (if x.signed
    then (if r < -(2 ^ (x.width - 1) : Nat) then -(2 ^ (x.width - 1) : Nat) else if (2 ^ (x.width - 1) : Nat) ≤ r then (2 ^ (x.width - 1) : Nat) - 1 else r)
    else (if r < 0 then 0 else if (2 ^ x.width : Nat) ≤ r then (2 ^ x.width : Nat) - 1 else r))

/-- R33, R38: the leaf that the quadrant's first level of translation holds for an address, where it permits the access. -/
def Machine.Lane.page (v : Lane) (s : State) (va : Nat) (kind : AccessKind) : Option Xlat :=
  match s.tlb.find? fun e => e.covers (dataUnit v.core (quadOf v.key)) v.g.ctx va with
  | some e => if (s.xlat e.bits e.entry va).permits kind then some (s.xlat e.bits e.entry va) else none
  | none => none

/-- R363, R367, R368: every access that the thread has sent to a peer has been performed. -/
def Machine.Lane.settled (v : Lane) (s : State) : Prop := s.fencing v.key = false
/-- R103: scratchpad bytes in words without a bit error. -/
def Machine.Group.spClean (g : Machine.Group) (o n : Nat) : Bool :=
  (g.spBad ++ g.spWeak).all fun w => !(decide (o / 4 ≤ w) && decide (w ≤ (o + n - 1) / 4))

/-- R249: the registers of a data size. -/
def Fields.dataRegs (size : Nat) : Nat := if size = 8 then 2 else if size = 16 then 4 else 1

/-- A gather of one active lane that meets a condition of the instruction's own: it has the effect and goes on at the next instruction. -/
def AloneIf (i : Instr) (x : Fields) (s : State) (ok : Lane → Prop) (effect : Lane → State → State) : Prop :=
  ∀ r v, Issues i r x s [v] → v.active x.g x.gn = true → ok v → exec i s = .next ((effect v s.tick).finish v r x).settle.moved
/-- The same where the instruction leaves the lane as the effect says, the program counter included. -/
def AloneLeaves (i : Instr) (x : Fields) (s : State) (ok : Lane → Prop) (effect : Lane → State → State) : Prop :=
  ∀ r v, Issues i r x s [v] → v.active x.g x.gn = true → ok v → exec i s = .next (effect v s.tick).settle.moved
/-- An instruction that acts once for its gather: the lowest lane column acts, and every active lane goes on. -/
def OnceIf (i : Instr) (x : Fields) (s : State) (ok : Lane → Prop) (effect : Lane → State → State) : Prop :=
  ∀ r v, Issues i r x s [v] → v.active x.g x.gn = true → ok v → exec i s = .next ((effect v s.tick).finish v r x).settle.moved
/-- The lane waits at its instruction. -/
def Machine.State.waitAt (s : State) (v : Lane) (w : Wait) : State := s.waitIn v.key w
/-- A gather of one active lane that meets a condition of the instruction's own: it has the effect and waits (R118, R116). -/
def AloneWaits (i : Instr) (x : Fields) (s : State) (ok : Lane → Prop) (effect : Lane → State → State) (w : Lane → State → Wait) : Prop :=
  ∀ r v, Issues i r x s [v] → v.active x.g x.gn = true → ok v →
    exec i s = .next (((effect v s.tick).waitAt v (w v s.tick)).latchClock v (readsClock r x)).settle.moved

/-- R221, R424: FPTEN of the lane's context. -/
def Machine.Lane.traps (v : Lane) (s : State) : Nat := ((s.ctxOf v).map fun c => c.fpten.toNat).getD 0
/-- R221: a floating-point instruction that gives a value with flags: with no raised flag enabled it writes and its flags join FFLAGS; with one
enabled it writes nothing and traps with the flags in TVAL. -/
def Floats (i : Instr) (x : Fields) (s : State) (flags : Lane → Nat) (write : Lane → State → State) : Prop :=
  CompletesIf i x s (fun v => flags v &&& v.traps s = 0) (fun v s => (write v s).updThread v.key fun th =>
    { th with fflags := th.fflags ||| word (flags v) }) ∧
  TrapsIf i x s (fun v => flags v &&& v.traps s ≠ 0) 0x0F flags

/-- An event, or a record at its stage, happens and leaves t: one more move is made, with the choices just made logged (R454). -/
def Machine.Happens (i : Instr) (s t : State) : Prop := exec i s = .next t.settle.moved
/-- R387, R388: the record c stands at the inputs; it is of an opcode and its header breaks no rule. -/
def Machine.State.commanded (s : State) (opc : Nat) (c : Cmd) : Prop := s.inputs.record = c ∧ c.opc = opc ∧ c.headerStatus = 0
/-- R460: frames of the host arrive and are taken. -/
def Machine.State.listens (s : State) : Prop := s.portUp = true ∧ s.ready = true
/-- R466, R467: a management request of the station with the right tag, of an operation and a length, stands at the inputs. -/
def Machine.State.managed (s : State) (op len : Nat) : Prop :=
  s.listens ∧ s.inputs.frame.kind = 5 ∧ s.manageOp = op ∧ s.authorised = true ∧ s.inputs.frame.payload.length = len

end Sys2Proof
end

