-- ==== Sys2Proof/Certificates/Slice0/Obligations.lean ====
section
/-!
DEFINITION. The statements for the provers, each with the rule of the specification that it formalises.
-/
open Sys2Proof
open Sys2Proof.Machine

/-- R181, R183, R184: IADD, ISUB, IMUL, IMAD, INEG and IABS give the wrapped result in every integer type, with register or immediate B; with
SAT the exact result clamped to the type. IADDC reads the carry before it writes sum and carry; IMIN and IMAX pick by the type's order; IMULH is the
high half of the exact product; IMADW adds a 64-bit addend of the same signedness and, with SAT, clamps to 64 bits. -/
def Obligations.IntegerArithmetic : Prop :=
  ∀ (x : Fields) (s : State),
    let put (f : Lane → BitVec x.width) (g : Lane → Int) (v : Lane) (s : State) : State :=
      v.wr s x.regs x.d (x.extended (if x.sat then x.saturated (g v) else f v))
    Completes (.iadd x) x s (put (fun v => v.operand x x.a + v.operandB x) fun v => x.value (v.operand x x.a) + x.value (v.operandB x)) ∧
    Completes (.isub x) x s (put (fun v => v.operand x x.a - v.operandB x) fun v => x.value (v.operand x x.a) - x.value (v.operandB x)) ∧
    Completes (.imul x) x s (put (fun v => v.operand x x.a * v.operandB x) fun v => x.value (v.operand x x.a) * x.value (v.operandB x)) ∧
    Completes (.imad x) x s (put (fun v => v.operand x x.a * v.operandB x + v.operand x x.c)
      fun v => x.value (v.operand x x.a) * x.value (v.operandB x) + x.value (v.operand x x.c)) ∧
    Completes (.ineg x) x s (put (fun v => -v.operand x x.a) fun v => -x.value (v.operand x x.a)) ∧
    Completes (.iabs x) x s (put (fun v => (v.operand x x.a).abs) fun v => ((x.value (v.operand x x.a)).natAbs : Int)) ∧
    Completes (.iaddc x) x s (fun v s =>
      let c := BitVec.ofNat x.width (v.pred x.c).toNat
      v.wrPred (v.wr s x.regs x.d (v.operand x x.a + v.operandB x + c).toNat) x.c
        (decide (2 ^ x.width ≤ (v.operand x x.a).toNat + (v.operandB x).toNat + (v.pred x.c).toNat))) ∧
    Completes (.imin x) x s (fun v s => v.wr s x.regs x.d (x.extended
      (if x.value (v.operand x x.a) ≤ x.value (v.operandB x) then v.operand x x.a else v.operandB x))) ∧
    Completes (.imax x) x s (fun v s => v.wr s x.regs x.d (x.extended
      (if x.value (v.operand x x.a) ≤ x.value (v.operandB x) then v.operandB x else v.operand x x.a))) ∧
    Completes (.imulh x) x s (fun v s => v.wr s x.regs x.d (x.extended
      ((BitVec.ofInt (2 * x.width) (x.value (v.operand x x.a) * x.value (v.operandB x))).extractLsb' x.width x.width))) ∧
    Completes (.imadw x) x s (fun v s =>
      let c : Int := if x.signed then (v.r64 x.c).toInt else (v.r64 x.c).toNat
      let r := x.value (v.operand x x.a) * x.value (v.operandB x) + c
      let lo : Int := if x.signed then -2 ^ 63 else 0
      let hi : Int := if x.signed then 2 ^ 63 - 1 else 2 ^ 64 - 1
      v.wr s 2 x.d (BitVec.ofInt 64 (if x.sat then (if r < lo then lo else if hi < r then hi else r) else r)).toNat)

/-- R182, R185 to R188: the bitwise operations, the shifts, whose count is taken modulo the width, the bit fields, counts and reversal, and
the byte permute. -/
def Obligations.LogicShiftsAndBitFields : Prop :=
  ∀ (x : Fields) (s : State),
    let b (v : Lane) : BitVec x.width := if x.immForm then x.imm.setWidth x.width else v.operand x x.b
    let n (v : Lane) : Nat := (if x.immForm then x.imm.toNat else (v.r32 x.b).toNat) % x.width
    let put (f : Lane → BitVec x.width) (v : Lane) (s : State) : State := v.wr s x.regs x.d (f v).toNat
    let pos (v : Lane) : Nat := if x.immForm then x.imm.toNat % 32 else (v.r32 x.b).toNat % 32
    let len (v : Lane) : Nat := if x.immForm then x.imm.toNat / 32 % 64 else min ((v.r32 x.b).toNat / 32 % 64) (32 - pos v)
    Completes (.and x) x s (put fun v => v.operand x x.a &&& b v) ∧
    Completes (.or x) x s (put fun v => v.operand x x.a ||| b v) ∧
    Completes (.xor x) x s (put fun v => v.operand x x.a ^^^ b v) ∧
    Completes (.andn x) x s (put fun v => v.operand x x.a &&& ~~~(b v)) ∧
    Completes (.not x) x s (put fun v => ~~~(v.operand x x.a)) ∧
    Completes (.shl x) x s (put fun v => v.operand x x.a <<< n v) ∧
    Completes (.shr x) x s (put fun v => v.operand x x.a >>> n v) ∧
    Completes (.sar x) x s (put fun v => (v.operand x x.a).sshiftRight (n v)) ∧
    Completes (.rot x) x s (put fun v => (v.operand x x.a).rotateLeft (n v)) ∧
    Completes (.bfx x) x s (fun v s =>
      let f := (v.r32 x.a).extractLsb' (pos v) (len v)
      v.wr s 1 x.d (if x.signed then f.signExtend 32 else f.setWidth 32).toNat) ∧
    Completes (.bfi x) x s (fun v s =>
      let mask : Word := (BitVec.allOnes (len v)).setWidth 32 <<< pos v
      v.wr s 1 x.d ((v.r32 x.d &&& ~~~mask) ||| ((v.r32 x.a <<< pos v) &&& mask)).toNat) ∧
    Completes (.popc x) x s (fun v s => v.wr s 1 x.d ((List.range x.width).countP fun k => (v.operand x x.a).getLsbD k)) ∧
    Completes (.clz x) x s (fun v s => v.wr s 1 x.d (v.operand x x.a).clz.toNat) ∧
    Completes (.brev x) x s (fun v s => v.wr s x.regs x.d (v.operand x x.a).reverse.toNat) ∧
    Completes (.prmb x) x s (fun v s =>
      let byte (k : Nat) : Byte :=
        let sel : BitVec 4 := x.imm.extractLsb' (4 * k) 4
        let picked : Byte := (v.r32 x.b ++ v.r32 x.a).extractLsb' (8 * (sel.toNat % 8)) 8
        if sel.getLsbD 3 then (if picked.getLsbD 7 then 0xFF else 0) else picked
      v.wr s 1 x.d (byte 3 ++ byte 2 ++ byte 1 ++ byte 0).toNat)

/-- R189 to R192: compares write one predicate, PSET a predicate by its truth table, PMOV copies between predicates and a register, SEL
picks an operand by a predicate. -/
def Obligations.ComparesAndPredicates : Prop :=
  ∀ (x : Fields) (s : State),
    Completes (.icmp x) x s (fun v s =>
      let a := x.value (v.operand x x.a)
      let b := x.value (v.operandB x)
      v.wrPred s x.d (match x.c.toNat with
        | 0 => decide (a = b)
        | 1 => decide (a ≠ b)
        | 2 => decide (a < b)
        | 3 => decide (a ≤ b)
        | 4 => decide (a > b)
        | _ => decide (a ≥ b))) ∧
    Completes (.pset x) x s (fun v s => v.wrPred s x.d (x.imm.getLsbD (match v.pred x.a, v.pred x.b with
      | false, false => 0
      | false, true => 1
      | true, false => 2
      | true, true => 3))) ∧
    Completes (.pmovR x) x s (fun v s => v.wr s 1 x.d v.th.preds.toNat) ∧
    Completes (.pmovP x) x s (fun v s => s.updThread v.key fun th =>
      { th with preds := (th.preds &&& ~~~(x.imm.setWidth 12)) ||| ((v.r32 x.a).setWidth 12 &&& x.imm.setWidth 12) }) ∧
    Completes (.sel x) x s (fun v s =>
      let b : BitVec x.width := if x.immForm then x.imm.setWidth x.width else v.operand x x.b
      v.wr s x.regs x.d (if v.pred x.c then v.operand x x.a else b).toNat)

/-- R193, R196 to R198: moves, addresses and system values. R103, R425, R426: what a MOV does with source words that hold a bit error. One wrong bit is
corrected, counted at every read, and the value is right. An uncorrectable word is reported, sets SERR and reads as its format's poison, 0 for an
integer instruction; where ERRPOL.TRAP is set, the lane takes the trap 0x11 instead, with the first such word's place in TVAL, and writes nothing. -/
def Obligations.MovesAndAddresses : Prop :=
  ∀ (x : Fields) (s : State),
    Completes (.mov x) x s (fun v s => v.wr s x.regs x.d (v.operand x x.a).toNat) ∧
    Completes (.moviLo x) x s (fun v s => v.wr s 1 x.d (x.imm.setWidth 32).toNat) ∧
    Completes (.moviHi x) x s (fun v s => v.wr s 1 x.d (x.imm ++ (v.r32 x.d).extractLsb' 0 16).toNat) ∧
    Completes (.moviS x) x s (fun v s => v.wr s 1 x.d (x.imm.signExtend 32).toNat) ∧
    Completes (.lea x) x s (fun v s =>
      v.wr s 2 x.d (v.r64 x.a + ((v.r32 x.b).signExtend 64 <<< x.m.toNat) + x.imm.signExtend 64).toNat) ∧
    Completes (.leaN x) x s (fun v s =>
      v.wr s 2 x.d (v.r64 x.a + ((v.r32 x.b).setWidth 64 <<< x.m.toNat) + x.imm.signExtend 64).toNat) ∧
    Completes (.widf x) x s (fun v s =>
      let f := v.wid >>> widShift v.g.widths x.imm.toNat &&& dword (2 ^ v.g.widths.getD x.imm.toNat 0 - 1)
      if x.m = 1 then v.wr s 2 x.d f.toNat else v.wr s 1 x.d (f.setWidth 32).toNat) ∧
    Completes (.sysr x) x s (fun v s => v.wr s 1 x.d (match x.imm.toNat with
      | 0 => word v.g.gangSize
      | 1 => word v.g.threads
      | 2 => word (regionOf v.core)
      | 3 => word (dieOf v.core)
      | 4 => word (s.tenantOf v.g.ctx)
      | 5 => ((v.g.stage.map fun (t : Nat × Nat) => word t.2).getD 0xFFFFFFFF)
      | 6 => if isThresher v.key then 0xFFFFFFFF else word (slotNo v.key)
      | _ => if isThresher v.key then 1 else 0).toNat) ∧
    (∀ (r : Row) (v : Lane), rowOf (.mov x) = some (r, x) → s.gatherLanes = some [v] → wellFormed (.mov x) = true →
      v.th.late = none → v.guardBad x.g x.gn = false → isThresher v.key = false → v.active x.g x.gn = true → v.heldBack r.op = false →
      (∀ d ∈ v.rowPlaces r x, isPending v.th v.g d = false) → (∀ o ∈ r.operands x, v.baseOk o.1 o.2 = true) →
      let weak := (v.rowReads r x).filter fun d => isWeak v.th d.1
      let bad := (v.rowReads r x).filter fun d => isBad v.th v.g d.1
      let corrected := weak.foldl (fun (u : State) _ => { u with errors := Store.wr 0 u.errors 8 (satAdd (Store.rd 0 u.errors 8) 1) }) s.tick
      let reported := (bad.foldl (fun u d => u.countError 1 v.core v.g.ctx (some v.key) v.th.pc (v.poolByte d.1)) corrected).updThread v.key
        fun th => { th with errst := th.errst ||| 1 }
      let read := bad.foldl (fun w d => w.poisoned d.1 d.2) v
      let traps := ((reported.ctxOf v).map fun c => c.errpol.getLsbD 0).getD false
      (∀ d ∈ v.rowReads r x, d.2.poison = 0) ∧
      (bad = [] → exec (.mov x) s = .next ((v.wr corrected x.regs x.d (v.operand x x.a).toNat).finish v r x).settle.moved) ∧
      (bad ≠ [] → traps = false → exec (.mov x) s = .next ((read.wr reported x.regs x.d (read.operand x x.a).toNat).finish v r x).settle.moved) ∧
      (∀ d ds, bad = d :: ds → traps = true →
        exec (.mov x) s = .next (reported.takeTraps [{ key := v.key, cause := 0x11, tval := v.poolByte d.1 }]).settle.moved))

/-- R194, R195, R122: MOVK, MOVX and MOVXS with an index in range; the register that the index names is read or written, renamed inside a
sheaf. -/
def Obligations.IndexedMoves : Prop :=
  ∀ (x : Fields) (s : State),
    let at_ (v : Lane) : Dst := .stack (v.th.physical (v.th.rename (v.r32 x.a).toNat))
    let k (v : Lane) : Nat := (v.r32 x.a).toNat + x.imm.toNat
    CompletesIf (.movk x) x s (fun v => k v ≤ 15 ∧ isPending v.th v.g (.uniform (k v)) = false ∧ v.sound (.uniform (k v)) = true)
      (fun v s => v.wr s 1 x.d (Store.rd 0 v.g.k (k v)).toNat) ∧
    CompletesIf (.movx x) x s (fun v => (v.r32 x.a).toNat ≤ 31 ∧ isPending v.th v.g (at_ v) = false ∧ v.sound (at_ v) = true)
      (fun v s => v.wr s 1 x.d (v.stackWord (v.th.rename (v.r32 x.a).toNat)).toNat) ∧
    CompletesIf (.movxs x) x s (fun v => (v.r32 x.a).toNat ≤ 31 ∧ isPending v.th v.g (at_ v) = false)
      (fun v s => s.putDst v.key v.th.gid (at_ v) (v.r32 x.b))

/-- R199 to R204, R110, R122, R123, R128: a branch, call or return goes to its target when it is aligned, canonical and inside the sheaf; a
call slides the window and leaves the return address in w30 and w31 of the old window, and a return slides it back. SHFB puts a lane on the path that its
predicates name, at the first instruction after the tables, with the tables that it fetches, where the quadrant holds a set for this SHFB or has one free,
and SHFE at the sheaf's end takes it out. -/
def Obligations.BranchesAndSheaves : Prop :=
  ∀ (x : Fields) (s : State),
    let near (v : Lane) : Nat := modPow (v.th.pc + 8 * x.longOffset) 64
    let far (v : Lane) : Nat := (v.r64 x.a).toNat
    let target (v : Lane) (t : Nat) : Prop := t % 8 = 0 ∧ v.admits s t
    let inside (v : Lane) (t : Nat) : Prop := ∀ sh, v.th.sheaf = some sh → sh.base + 8 + 24 * sh.paths ≤ t ∧ t ≤ sh.stop
    let fits (v : Lane) : Prop := v.th.sheaf = none ∧ v.th.wb / 16 ≠ 65535 ∧ v.th.wb + 48 - v.th.sb ≤ v.th.words ∧
      isPending v.th v.g (v.place 30) = false ∧ isPending v.th v.g (v.place 31) = false
    let slide (v : Lane) (s : State) : State :=
      (s.putDsts v.key v.th.gid [v.place 30, v.place 31] [word (v.th.pc + 8), word ((v.th.pc + 8) / 2 ^ 32)]).updThread v.key
        fun th => { th with wb := th.wb + 16 }
    let back (v : Lane) : Nat := (v.stackWord 15 ++ v.stackWord 14).toNat
    let path (v : Lane) : Nat := (v.pred x.a).toNat + (if x.m.toNat = 2 then 0 else 2 * (v.pred x.b).toNat)
    let enter (v : Lane) (tables : List DWord) (s : State) : State := s.updThread v.key fun th =>
      { th with sheaf := some { base := v.th.pc, stop := v.th.pc + 8 * x.imm.toNat, paths := x.m.toNat, path := path v, tables := tables } }
    JumpsIf (.bra x) x s (fun v => target v (near v) ∧ inside v (near v)) (fun _ s => s) near ∧
    JumpsIf (.brx x) x s (fun v => target v (far v) ∧ inside v (far v)) (fun _ s => s) far ∧
    JumpsIf (.call x) x s (fun v => fits v ∧ target v (near v)) slide near ∧
    JumpsIf (.callx x) x s (fun v => fits v ∧ target v (far v)) slide far ∧
    JumpsIf (.ret x) x s (fun v => v.th.sheaf = none ∧ 16 ≤ v.th.wb ∧ v.th.sb ≤ v.th.wb - 16 ∧ target v (back v) ∧
        ∀ d ∈ [v.place 14, v.place 15], isPending v.th v.g d = false ∧ v.sound d = true)
      (fun v s => s.updThread v.key fun th => { th with wb := th.wb - 16 }) back ∧
    (∀ r v bs u, Issues (.shfb x) r x s [v] → v.th.sheaf = none → path v < x.m.toNat →
      s.setShort v.core (quadOf v.key) v.g.ctx v.th.pc = false →
      s.tick.fetchBytes 3 (fetchAsker v.key v.g.ctx v.th.pc) (v.th.pc + 8) (24 * x.m.toNat) v.th.peerBuf = (u, .ok bs) →
      tablesOk (dwordsOf (3 * x.m.toNat) bs) = true →
      exec (.shfb x) s = .next ((enter v (dwordsOf (3 * x.m.toNat) bs) u).finishAt v r x (v.th.pc + 8 + 24 * x.m.toNat)).settle.moved) ∧
    CompletesIf (.shfe x) x s (fun v => x.g = 15 ∧ ∃ sh, v.th.sheaf = some sh ∧ sh.stop = v.th.pc)
      (fun v s => s.updThread v.key fun th => { th with sheaf := none })

/-- R206, R207, R418: TRAP takes the software trap with its code in TVAL, in every active lane; TRET and TRET.N in a handler clear INH,
restore the sheaf state and go to TEPC or TEPC + 8. -/
def Obligations.TrapsAndReturns : Prop :=
  ∀ (x : Fields) (s : State),
    let back (v : Lane) (skip : DWord) : Nat := (v.th.tepc + skip).toNat
    let leave (v : Lane) (pc : Nat) (s : State) : State := s.updThread v.key fun th =>
      { th with tcause := th.tcause &&& ~~~(0x100 : Word), sheaf := th.susp, susp := none, pc := pc }
    TrapsIf (.trap x) x s (fun _ => True) 0x0A (fun _ => x.imm.toNat) ∧
    JumpsIf (.tret x) x s (fun v => v.th.sheaf = none ∧ v.th.tcause.getLsbD 8 = true) (fun v => leave v (back v 0)) (fun v => back v 0) ∧
    JumpsIf (.tretN x) x s (fun v => v.th.sheaf = none ∧ v.th.tcause.getLsbD 8 = true) (fun v => leave v (back v 8)) (fun v => back v 8)

/-- R205, R208 to R211: NOP and YIELD change nothing but the program counter and the age; EXIT frees a lane with nothing pending and
no access left to perform, and lets another drain; PULSE is one progress event for the gather; SAFEPT has no effect while no stop is pending, and else holds the lane at the next
instruction. -/
def Obligations.SystemControl : Prop :=
  ∀ (x : Fields) (s : State),
    let stopping (v : Lane) : Prop := (∃ c, s.ctxOf v = some c ∧ c.stop ≠ none) ∨
      ∃ q ∈ s.gangStops, q.launch = v.g.launch ∧ q.gang = v.g.gang
    Completes (.nop x) x s (fun _ s => s) ∧
    Completes (.yield x) x s (fun _ s => s) ∧
    LeavesIf (.exit x) x s (fun _ => True) (fun v s => match Store.get s.threads v.key with
      | some th => if th.pend.isEmpty && th.kept.isEmpty && !s.fencing v.key then s.freeThread v.key v.th.gid
          else s.updThread v.key fun th => { th with st := .draining }
      | none => s) ∧
    (∀ r v vs, Issues (.pulse x) r x s vs → (activeLanes x vs).head? = some v →
      exec (.pulse x) s = .next ((activeLanes x vs).foldl (fun s v => s.retire v.key)
        (((idleLanes x vs).foldl (fun s v => s.retire v.key) s.tick).progress v.g.ctx)).settle.moved) ∧
    CompletesIf (.safept x) x s (fun v => ¬ stopping v) (fun _ s => s) ∧
    LeavesIf (.safept x) x s stopping (fun v s => s.updThread v.key fun th =>
      { th with pc := th.pc + 8, st := .waiting .safePoint, since := s.now })

/-- R170, R171, R213: CSRR reads the register that the address names, from the thread, its context or its core; CSRW writes FFLAGS and WSP,
whose reserved bits stay 0, clears the written 1 bits of ERRST, and leaves the read-only registers as they are. -/
def Obligations.SpecialRegisters : Prop :=
  ∀ (x : Fields) (s : State),
    let n := if x.m = 1 then 2 else 1
    Completes (.csrr x) x s (fun v s =>
      let ctx (f : Ctx → Nat) : Nat := ((s.ctxOf v).map f).getD 0
      v.wr s n x.d (match x.imm.toNat with
        | 0x000 => v.th.fflags.toNat
        | 0x010 => v.th.wsp.toNat
        | 0x011 => (word (v.th.wb / 16 * 65536 + v.th.sb / 16)).toNat
        | 0x020 => v.th.errst.toNat
        | 0x021 => v.th.tcause.toNat
        | 0x022 => v.th.tepc.toNat
        | 0x023 => v.th.tval.toNat
        | 0x030 => ctx fun c => c.fpten.toNat
        | 0x031 => ctx fun c => c.errpol.toNat
        | 0x032 => ctx fun c => c.wdper.toNat
        | 0x040 => ctx fun c => c.detmode.toNat
        | 0x041 => v.g.lseed.toNat
        | 0x050 => ctx fun c => c.apxctl.toNat
        | 0x051 => ctx fun c => c.tseed.toNat
        | 0x052 => ctx fun c => c.tcnt.toNat
        | _ => (Store.rd 0 s.throt v.core).toNat)) ∧
    Completes (.csrw x) x s (fun v s => s.updThread v.key fun th =>
      let a := v.r32 x.a
      match x.imm.toNat with
      | 0x000 => { th with fflags := a &&& 0x1F }
      | 0x010 => { th with wsp := v.r64 x.a &&& 0x01FFFFFFFFFFFFC0 }
      | 0x020 => { th with errst := th.errst &&& ~~~a }
      | _ => th)

/-- R110, R194, R195, R122: the window traps of CALL, CALLX and RET, with WSTAT in TVAL, and the register-index traps of MOVK, MOVX and
MOVXS, with the index in TVAL; nothing changes in a trapping lane. -/
def Obligations.WindowAndIndexTraps : Prop :=
  ∀ (x : Fields) (s : State),
    let wstat (v : Lane) : Nat := (word (v.th.wb / 16 * 65536 + v.th.sb / 16)).toNat
    let full (v : Lane) : Prop := v.th.sheaf = none ∧ v.th.wb / 16 ≠ 65535 ∧ v.th.words < v.th.wb + 48 - v.th.sb ∧
      isPending v.th v.g (v.place 30) = false ∧ isPending v.th v.g (v.place 31) = false
    let k (v : Lane) : Nat := (v.r32 x.a).toNat + x.imm.toNat
    TrapsIf (.call x) x s full 0x0D wstat ∧
    TrapsIf (.callx x) x s full 0x0D wstat ∧
    TrapsIf (.ret x) x s (fun v => v.th.sheaf = none ∧ 16 ≤ v.th.wb ∧ v.th.wb - 16 < v.th.sb) 0x0E wstat ∧
    TrapsIf (.movk x) x s (fun v => 15 < k v) 0x06 k ∧
    TrapsIf (.movx x) x s (fun v => 31 < (v.r32 x.a).toNat) 0x06 (fun v => (v.r32 x.a).toNat) ∧
    TrapsIf (.movxs x) x s (fun v => 31 < (v.r32 x.a).toNat) 0x06 (fun v => (v.r32 x.a).toNat)

/-- R246, R249, R117: LD leaves its destination pending on a new operation and presents one access for each piece that 4 KiB boundaries cut;
ST presents its data in the same pieces. The conditions are the canonical check of the first and last byte and, for .ACQ and .REL, natural
alignment. -/
def Obligations.LoadsAndStores : Prop :=
  ∀ (x : Fields) (s : State),
    let n : Nat := 2 ^ (x.fn.toNat % 8 - 1)
    let addr (v : Lane) : Nat := (v.r64 x.a + x.imm.signExtend 64).toNat
    let ok (ordered : Bool) (v : Lane) : Prop := v.admits s (addr v) ∧ v.admits s (addr v + n - 1) ∧ (ordered = true → addr v % n = 0)
    CompletesIf (.ld x) x s (ok (x.fn.getLsbD 4)) (fun v s =>
      let cut := pieces (addr v) n
      let op := v.newLoad s n cut.length (x.fn.getLsbD 3) (v.places (Fields.dataRegs n) x.d) none
      op.1.present v.key (cut.map fun p => { v.blankAccess .load n op.2 with
        va := p.1, size := p.2.1, off := p.2.2, acquires := x.fn.getLsbD 4 && x.m != 0 })) ∧
    CompletesIf (.st x) x s (ok (x.fn.getLsbD 5)) (fun v s =>
      let data := toBytes n (v.rd (Fields.dataRegs n) x.b)
      s.present v.key ((pieces (addr v) n).map fun p => { v.blankAccess .store n 0 with
        va := p.1, size := p.2.1, data := (data.drop p.2.2).take p.2.1, ordered := x.fn.getLsbD 5 }))

/-- R90, R96, R97, R99, R250 to R252: the scratchpad forms read or write their bytes when the offset is aligned and in bounds and no operation in
flight holds the range; a store of the thresher slot takes a Write entry and is performed at once if nothing earlier holds its bytes; LDT reads the element
that its layout word maps, its range widened to whole lines under a mode; LDK leaves its destination pending on the argument word. -/
def Obligations.Scratchpad : Prop :=
  ∀ (x : Fields) (s : State),
    let n : Nat := 2 ^ (x.m.toNat - 1)
    let off (v : Lane) : Int := ((v.r32 x.a).toNat : Int) + x.imm.toInt
    let inside (v : Lane) : Prop := 0 ≤ off v ∧ off v % (n : Int) = 0 ∧ off v + n ≤ v.g.spLen
    let plain (store : Bool) (v : Lane) : Prop := inside v ∧
      s.boardBlocks v (v.g.pool (off v).toNat) (v.g.pool ((off v).toNat + n - 1)) store = false
    let layout (v : Lane) : Layout := Layout.of (v.g.layoutWords (x.imm.toNat % 16))
    let places (v : Lane) : List Nat := (layout v).byteOffsets (v.r32 x.a).toNat (v.r32 x.b).toNat (v.r32 x.c).toNat
    let low (v : Lane) : Nat := (places v).foldl min ((places v).headD 0)
    let high (v : Lane) : Nat := low v + (places v).length - 1
    CompletesIf (.lds x) x s (fun v => plain false v ∧ v.g.spClean (off v).toNat n = true) (fun v s =>
      let u := ofBytes (v.g.spRead (off v).toNat n)
      v.wr s (Fields.dataRegs n) x.d (if x.fn.getLsbD 6 then ((BitVec.ofNat (8 * n) u).signExtend 32).toNat else u)) ∧
    CompletesIf (.sts x) x s (fun v => isThresher v.key = false ∧ plain true v) (fun v s =>
      s.spWrite v.th.gid (off v).toNat (toBytes n (v.rd (Fields.dataRegs n) x.b))) ∧
    CompletesIf (.sts x) x s (fun v => isThresher v.key = true ∧ inside v ∧ s.boardFree v.core ≠ 0) (fun v s =>
      let op := s.newOp { thread := v.key, gid := v.th.gid, core := v.core, pc := v.th.pc, dst := [], tc := none,
                          kind := .sts (off v).toNat (toBytes n (v.rd (Fields.dataRegs n) x.b)) }
      (op.1.enter { op := op.2, core := v.core, gid := v.th.gid, lo := v.g.pool (off v).toNat, hi := v.g.pool ((off v).toNat + n - 1),
                    write := true, empty := false }).performSts op.2) ∧
    CompletesIf (.ldt x) x s (fun v => (layout v).legal (x.imm.toNat % 16) = true ∧ (∀ o ∈ places v, o < v.g.spLen) ∧
        v.g.spClean (low v) (places v).length = true ∧
        (∀ d ∈ layoutPlaces (x.imm.toNat % 16), isPending v.th v.g d.1 = false ∧ v.sound d.1 = true) ∧
        s.boardBlocks v (v.g.pool (if (layout v).mode = 0 then low v else low v / 128 * 128))
          (v.g.pool (if (layout v).mode = 0 then high v else high v / 128 * 128 + 127)) false = false)
      (fun v s =>
        let e := v.g.element (layout v) (v.r32 x.a).toNat (v.r32 x.b).toNat (v.r32 x.c).toNat
        let bits := if (layout v).esize = 3 then 4 else 8 * (layout v).bytes
        v.wr s 1 x.d (if x.fn.getLsbD 6 then ((BitVec.ofNat bits e).signExtend 32).toNat else e)) ∧
    CompletesIf (.ldk x) x s (fun v => (v.r32 x.a).toNat + x.imm.toNat < v.g.args.length) (fun v s =>
      let dst := v.places 1 x.d
      (s.newOp { thread := v.key, gid := v.th.gid, core := v.core, pc := v.th.pc, dst := dst, tc := none,
                 kind := .value [v.g.args.getD ((v.r32 x.a).toNat + x.imm.toNat) 0] none }).1.pendDsts v.key v.th.gid dst)

/-- R253 to R256: an atomic presents one access with its operation, operands and order; a returning form leaves its destination pending.
The address is naturally aligned and canonical. -/
def Obligations.Atomics : Prop :=
  ∀ (x : Fields) (s : State),
    let op := x.fn.toNat % 32
    let n := if op = 18 then 8 else if op = 16 ∨ op = 17 then 4 else if x.fn.getLsbD 5 then 8 else 4
    let addr (v : Lane) : Nat := (v.r64 x.a + x.imm.signExtend 64).toNat
    let ok (v : Lane) : Prop := addr v % n = 0 ∧ v.admits s (addr v) ∧ v.admits s (addr v + n - 1)
    let effect (returns : Bool) (v : Lane) (s : State) : State :=
      let ra := s.ignoreRa v.g.ctx (op == 16 && x.fn.getLsbD 5)
      let ld := if returns then v.newLoad ra.1 n 1 false (v.places (n / 4) x.d) (some op) else (ra.1, 0)
      ld.1.present v.key [{ v.blankAccess .atomic n ld.2 with
        va := addr v, size := n, data := toBytes n (v.rd (n / 4) x.b), code := op, ra := ra.2, returns := returns,
        cas := if op = 9 then toBytes n (v.rd (n / 4) x.c) else [], ordered := x.fn.toNat / 64 != 0,
        acquires := x.fn.toNat / 64 % 2 == 1 && x.m != 0 }]
    (∀ i ∈ [Instr.atomAdd x, .atomSub x, .atomMinN x, .atomMaxN x, .atomAnd x, .atomOr x, .atomXor x, .atomXchg x, .atomCas x, .atomInc x,
        .atomDec x, .atomMinS x, .atomMaxS x, .afadd x, .amxf x, .amxi x], CompletesIf i x s ok (effect true)) ∧
    (∀ i ∈ [Instr.red x, .redFadd x, .redAmxf x, .redAmxi x], CompletesIf i x s ok (effect false))

/-- R257 to R259: FENCE with nothing of its thread to wait for applies what is pending in the module and, for class L at a scope wider than
thread, invalidates the core's load cache; a length of 0 orders nothing. R367, R371: while an access that the thread sent to a peer has not been
performed, an instruction that fences waits at issue, and while that is one to an SO or RC page, so does a release; it changes nothing but the
thread's wait. PREF and EVICT always complete and change no register of any
thread; where the quadrant holds the page of a line of this module, EVICT gives the resident line its priority, and writes it back with .WB. -/
def Obligations.FencesAndHints : Prop :=
  ∀ (x : Fields) (s : State),
    let addr (v : Lane) : Nat := (v.r64 x.a + x.imm.signExtend 64).toNat
    CompletesIf (.fence x) x s (fun v => s.fenceWaits v x = false) (fun v s =>
      if v.r32 x.b = 0 then s
      else if x.imm.getLsbD 0 && x.m != 0 then s.drainAll.invalidateCache v.core else s.drainAll) ∧
    (∀ i ∈ [Instr.pref x, .evict x], ∃ effect : Lane → State → State, Completes i x s effect ∧
      ∀ v u, (effect v u).threads = u.threads ∧ (effect v u).groups = u.groups ∧ (effect v u).ctxs = u.ctxs) ∧
    (∀ r v t, v.admits s (addr v) → v.page s (addr v) .load = some t → t.peer = none → s.bridgeCut v.core t.pa = false →
      Issues (.evict x) r x s [v] → v.active x.g x.gn = true →
        exec (.evict x) s = .next (({ s.tick with lines := Store.upd s.lines (t.pa / 128) fun l =>
          { l with prio := x.fn.toNat / 64, dirty := l.dirty && x.m != 1 } }).finish v r x).settle.moved) ∧
    (∀ (i : Instr) (r : Row) (v : Lane), Issues i r x s [v] → v.active x.g x.gn = true →
      let waits : Prop := ∃ u, exec i s = .next u ∧ u = { s with threads := u.threads, now := s.now + 1, armed := false, gather := none, sensed := [] } ∧
        (∀ k, k ≠ v.key → Store.get u.threads k = Store.get s.threads k) ∧
        ∃ th, Store.get u.threads v.key = some th ∧ th = { v.th with st := .waiting (.stall s.moves .issue), since := s.now + 1, heldBy := th.heldBy }
      (i ∈ [.qpopF x, .qpushF x, .bara x, .barw x] → (∃ op o l, (op, o) ∈ s.ops ∧ o.thread = v.key ∧ o.kind = .load l ∧ l.remote ≠ []) → waits) ∧
      (i ∈ [.send x, .tladv x] → (∃ op o l m, (op, o) ∈ s.ops ∧ o.thread = v.key ∧ o.kind = .load l ∧ m ∈ l.remote ∧ m.page ≠ 2) → waits))

/-- R111, R112: WSPILL stores the 16 oldest stack words at WSP, as an ordinary store of the page's kind, and WFILL reads the 16 words below WSP; WSP and
SB move by 64 and 16, and WSP keeps its bits above 56 zero. The page is this module's and held by the quadrant, no sector read is poisoned, and nothing
of the thread is unperformed at a peer. -/
def Obligations.WindowSpill : Prop :=
  ∀ (x : Fields) (s : State) (t : Xlat),
    let low (v : Lane) : Nat := (v.th.wsp - 64).toNat
    let words (v : Lane) (from_ : Nat) : List Nat := (List.range 16).map fun i => (from_ + i) % v.th.words
    let read (v : Lane) (u : State) := u.performLoad v.core v.g.ctx v.key v.th.pc t 64 false
    AloneIf (.wspill x) x s (fun v => v.th.sheaf = none ∧ v.th.sb + 16 ≤ v.th.wb ∧ v.th.wsp.toNat % 64 = 0 ∧
        v.admits s v.th.wsp.toNat ∧ v.admits s (v.th.wsp.toNat + 63) ∧ v.page s v.th.wsp.toNat .store = some t ∧ t.peer = none ∧
        v.settled s ∧ ∀ i ∈ words v v.th.sb, i ∉ v.th.pend ∧ i ∉ v.th.bad ∧ i ∉ v.th.weak)
      (fun v u => (u.performLocal v.key v.g { v.blankAccess .store 64 0 with
          va := v.th.wsp.toNat, size := 64, data := (words v v.th.sb).flatMap fun i => toBytes 4 (Store.rd 0 v.th.stack i).toNat } t).updThread v.key
        fun th => { th with wsp := ((th.wsp + 64).setWidth 57).setWidth 64, sb := th.sb + 16 }) ∧
    AloneIf (.wfill x) x s (fun v => v.th.sheaf = none ∧ 16 ≤ v.th.sb ∧ v.th.wb + 48 - v.th.sb ≤ v.th.words ∧ v.th.wsp.toNat % 64 = 0 ∧
        v.admits s (low v) ∧ v.admits s (low v + 63) ∧ v.page s (low v) .load = some t ∧ t.peer = none ∧
        v.settled s ∧ (read v s.tick).2.2 = none ∧ ∀ i ∈ words v (v.th.sb - 16), i ∉ v.th.pend)
      (fun v u => ((read v u).1.putDsts v.key v.th.gid ((words v (v.th.sb - 16)).map Dst.stack)
          ((List.range 16).map fun i => word (ofBytes (((read v u).2.1.drop (4 * i)).take 4)))).updThread v.key
        fun th => { th with wsp := v.th.wsp - 64, sb := th.sb - 16 })

/-- R214, R215: TWNX sends its claim to the scheduler and waits for the answer; TWLK gives the work identifier of a tile, with F2 or F3
fastest, and all ones for a tile number outside the launch. -/
def Obligations.Walkers : Prop :=
  ∀ (x : Fields) (s : State) (l : Launch),
    let mine (v : Lane) : Prop := Store.get s.launches v.g.launch = some l
    let e (k : Nat) : Nat := l.hdr (32 + 2 * (k - 2)) 2
    let place (v : Lane) (k : Nat) : Nat := ((v.g.widths.take k).foldl (· + ·) 0)
    let fields (a : Nat) : List Nat := if x.m = 1 then [a / e 3 % e 2, a % e 3, a / (e 2 * e 3) % e 4, a / (e 2 * e 3 * e 4)]
      else [a % e 2, a / e 2 % e 3, a / (e 2 * e 3) % e 4, a / (e 2 * e 3 * e 4)]
    AloneWaits (.twnx x) x s (fun v => mine v ∧ (l.hdr 22 1).testBit 1 = true)
      (fun v u => { u with claims := u.claims ++ [{ thread := v.key, launch := v.g.launch, pred := x.d.toNat, dst := v.places 2 x.b }] })
      (fun _ _ => .walker) ∧
    AloneIf (.twlk x) x s (fun v => mine v ∧ e 2 * e 3 * e 4 * e 5 ≤ (v.r64 x.a).toNat) (fun v u => v.wr u 2 x.d (2 ^ 64 - 1)) ∧
    AloneIf (.twlk x) x s (fun v => mine v ∧ (v.r64 x.a).toNat < e 2 * e 3 * e 4 * e 5)
      (fun v u => v.wr u 2 x.d (((fields (v.r64 x.a).toNat).zipIdx.foldl (fun w f =>
        w - w / 2 ^ place v (f.2 + 2) % 2 ^ v.g.widths.getD (f.2 + 2) 0 * 2 ^ place v (f.2 + 2) +
          f.1 % 2 ^ v.g.widths.getD (f.2 + 2) 0 * 2 ^ place v (f.2 + 2)) v.wid.toNat)))

/-- R221 to R225, R424: the floating-point operations of majors 0x30 and 0x31 write their value or trap with their flags, on every operand and
in every rounding mode; a and b and c are the operands under FTZ, z the result under FTZ. -/
def Obligations.FloatArithmetic : Prop :=
  ∀ (x : Fields) (s : State),
    let ftz : Bool := x.fn.getLsbD 7
    let mode : RMode := RMode.ofM x.m.toNat
    let a (v : Lane) : FP := f32In ftz (v.r32 x.a).toNat
    let b (v : Lane) : FP := f32In ftz (v.r32 x.b).toNat
    let c (v : Lane) : FP := f32In ftz (v.r32 x.c).toNat
    let gives (i : Instr) (r : Lane → Nat × Nat) : Prop := Floats i x s (fun v => (r v).2) fun v s => v.wr s 1 x.d (r v).1
    gives (.fadd x) (fun v => flushOut ftz (fp32.add mode (a v) (b v))) ∧
    gives (.fsub x) (fun v => flushOut ftz (fp32.add mode (a v) (b v).negate)) ∧
    gives (.fmul x) (fun v => flushOut ftz (fp32.mul mode (a v) (b v))) ∧
    gives (.fma x) (fun v => flushOut ftz (fp32.fma mode (a v) (b v) (c v))) ∧
    gives (.fmin x) (fun v => opMinMax false false ftz (v.r32 x.a).toNat (v.r32 x.b).toNat) ∧
    gives (.fmax x) (fun v => opMinMax true false ftz (v.r32 x.a).toNat (v.r32 x.b).toNat) ∧
    gives (.fminx x) (fun v => opMinMax false true ftz (v.r32 x.a).toNat (v.r32 x.b).toNat) ∧
    gives (.fmaxx x) (fun v => opMinMax true true ftz (v.r32 x.a).toNat (v.r32 x.b).toNat) ∧
    gives (.frnd x) (fun v => opFrnd ftz mode (v.r32 x.a).toNat) ∧
    gives (.frcp x) (fun v => opFrcp ftz mode (v.r32 x.a).toNat) ∧
    gives (.fsqrt x) (fun v => opFsqrt ftz mode (v.r32 x.a).toNat) ∧
    gives (.frsq x) (fun v => opFrsq ftz (v.r32 x.a).toNat) ∧
    gives (.fexp2 x) (fun v => opFexp2 ftz (v.r32 x.a).toNat) ∧
    gives (.flog2 x) (fun v => opFlog2 ftz (v.r32 x.a).toNat) ∧
    gives (.fsin x) (fun v => opTrig false ftz (v.r32 x.a).toNat) ∧
    gives (.fcos x) (fun v => opTrig true ftz (v.r32 x.a).toNat)

/-- R224, R226, R227, R230 to R232: the sign operations, the class mask, compares into a predicate, conversions into one element of the
destination with every other bit kept, and the maximum key. -/
def Obligations.FloatComparesAndConversions : Prop :=
  ∀ (x : Fields) (s : State),
    let w := cvtWidth (x.fn.toNat / 16)
    let from_ := cvtWidth (x.fn.toNat % 16)
    let src (v : Lane) : Nat := if from_ = 64 then (v.r64 x.a).toNat else (v.r32 x.a).toNat / 2 ^ (from_ * (x.imm.toNat / 2 ^ 7 % 8)) % 2 ^ from_
    let at_ : Nat := w * (x.imm.toNat / 2 ^ 10 % 8)
    let put (r : Lane → Nat × Nat) (v : Lane) (s : State) : State :=
      if w = 64 then v.wr s 2 x.d (r v).1
      else if w = 32 then v.wr s 1 x.d (r v).1
      else v.wr s 1 x.d ((v.r32 x.d).toNat - (v.r32 x.d).toNat / 2 ^ at_ % 2 ^ w * 2 ^ at_ + (r v).1 % 2 ^ w * 2 ^ at_)
    let cvt (v : Lane) := opCvt (x.fn.toNat / 16) (x.fn.toNat % 16) (x.imm.getLsbD 1) (x.imm.getLsbD 0) (RMode.ofM x.m.toNat) (src v)
    let block (v : Lane) := opCvtBs (x.fn.toNat / 16) (x.fn.toNat % 16) (x.imm.getLsbD 1) (src v) ((v.r32 x.c).toNat % 256)
    let cmp (v : Lane) := opFcmp (x.fn.getLsbD 7) x.c.toNat (v.r32 x.a).toNat (v.r32 x.b).toNat
    Completes (.fabs x) x s (fun v s => v.wr s 1 x.d (v.r32 x.a &&& 0x7FFFFFFF).toNat) ∧
    Completes (.fneg x) x s (fun v s => v.wr s 1 x.d (v.r32 x.a ^^^ 0x80000000).toNat) ∧
    Completes (.fclass x) x s (fun v s => v.wr s 1 x.d (
      let a := v.r32 x.a
      let ex := (a.extractLsb' 23 8).toNat
      let fr := (a.extractLsb' 0 23).toNat
      if ex = 255 then (if fr = 0 then (if a.msb then 1 else 0x80) else if a.getLsbD 22 then 0x200 else 0x100)
      else if ex = 0 then (if fr = 0 then (if a.msb then 8 else 0x10) else if a.msb then 4 else 0x20)
      else if a.msb then 2 else 0x40)) ∧
    Floats (.fcmp x) x s (fun v => (cmp v).2) (fun v s => v.wrPred s x.d (cmp v).1) ∧
    Floats (.cvt x) x s (fun v => (cvt v).2) (put cvt) ∧
    Floats (.cvtBs x) x s (fun v => (block v).2) (put block) ∧
    Completes (.fkey x) x s (fun v s => v.wr s 2 x.d (
      let h := (v.r32 x.a).toNat / 2 ^ (16 * (x.imm.toNat % 2)) % 2 ^ 16
      (if 0x7C00 < h % 0x8000 then 0xFFFF else if h < 0x8000 then h + 0x8000 else 0xFFFF - h) * 2 ^ 48 + (~~~(v.r32 x.b)).toNat))

/-- R233 to R236: the packed operations on both halves, the dot products and the block scale. -/
def Obligations.PackedAndDots : Prop :=
  ∀ (x : Fields) (s : State),
    let mode : RMode := RMode.ofM x.m.toNat
    let half : Fmt := if x.fn.getLsbD 6 then bf16 else fp16
    let lo (w : Word) : FP := half.decode (w.toNat % 2 ^ 16)
    let hi (w : Word) : FP := half.decode (w.toNat / 2 ^ 16)
    let gives (i : Instr) (r : Lane → Nat × Nat) : Prop := Floats i x s (fun v => (r v).2) fun v s => v.wr s 1 x.d (r v).1
    let both (f : (Word → FP) → Nat × Nat) : Nat × Nat := ((f lo).1 + 2 ^ 16 * (f hi).1, (f lo).2 ||| (f hi).2)
    let kind := x.fn.toNat / 64
    let el (t : Fmt) (w n : Nat) (r : Word) : FP := t.decode (r.toNat / 2 ^ (w * n) % 2 ^ w)
    let dot (ta tb : Fmt) (w n : Nat) (v : Lane) : Nat × Nat :=
      dotSum mode ((List.range n).map fun k => (el ta w k (v.r32 x.a), el tb w k (v.r32 x.b))) (fp32.decode (v.r32 x.c).toNat)
    let int (w : Nat) (sx : Bool) (k : Nat) (r : Word) : Int :=
      if sx then ((r >>> (w * k)).setWidth w).toInt else ((r >>> (w * k)).setWidth w).toNat
    let sum (w n : Nat) (v : Lane) : Int :=
      let c : Int := if kind = 2 then (v.r32 x.c).toNat else (v.r32 x.c).toInt
      (List.range n).foldl (fun acc k => acc + int w (kind != 2) k (v.r32 x.a) * int w (kind == 0) k (v.r32 x.b)) c
    let clamp (r : Int) : Int := if kind = 2 then max 0 (min (2 ^ 32 - 1) r) else max (-2 ^ 31) (min (2 ^ 31 - 1) r)
    let ints (i : Instr) (w n : Nat) : Prop := kind ≠ 3 → Completes i x s fun v s =>
      v.wr s 1 x.d (BitVec.ofInt 32 (if x.imm.getLsbD 2 then clamp (sum w n v) else sum w n v)).toNat
    gives (.hadd2 x) (fun v => both fun e => half.add mode (e (v.r32 x.a)) (e (v.r32 x.b))) ∧
    gives (.hsub2 x) (fun v => both fun e => half.add mode (e (v.r32 x.a)) (e (v.r32 x.b)).negate) ∧
    gives (.hmul2 x) (fun v => both fun e => half.mul mode (e (v.r32 x.a)) (e (v.r32 x.b))) ∧
    gives (.hfma2 x) (fun v => both fun e => half.fma mode (e (v.r32 x.a)) (e (v.r32 x.b)) (e (v.r32 x.c))) ∧
    ints (.dot4 x) 8 4 ∧ ints (.dot8 x) 4 8 ∧
    (kind = 3 → gives (.dot4 x) (dot (if x.imm.getLsbD 0 then e5m2 else e4m3) (if x.imm.getLsbD 1 then e5m2 else e4m3) 8 4)) ∧
    (kind = 3 → gives (.dot8 x) (dot e2m1 e2m1 4 8)) ∧
    gives (.dot2h x) (dot (if kind = 1 then bf16 else fp16) (if kind = 1 then bf16 else fp16) 16 2) ∧
    gives (.qsc x) (fun v => opQsc mode (v.r32 x.a).toNat (v.r32 x.b).toNat)

/-- R237 to R242, R322 to R328: WNW and WNW.CT write the winnow value and their predicate, TITHE.S its selection, TITHE.C counts a sample and
an excursion and adjusts the threshold, APXEXP2 and APXRCP give their cheap or exact value. Each takes its forced behaviour in RECORD and REPLAY
and while its enable is clear, and a case that the mode forced is counted. -/
def Obligations.Approximation : Prop :=
  ∀ (x : Fields) (s : State) (c : Ctx),
    let mine (v : Lane) : Prop := Store.get s.ctxs v.g.ctx = some c
    let free : Bool := decide (c.mode < 2)
    let forced (n : Nat) (cheap : Bool) (v : Lane) (u : State) : State :=
      if cheap && c.apxctl.getLsbD n && !free then u.countTithe v.g.ctx 0 0 1 else u
    let on (n : Nat) : Bool := c.apxctl.getLsbD n && free
    let base (v : Lane) : Nat := (v.r32 x.a).toNat
    let luma (v : Lane) (r k : Nat) : Int := ((Store.rd 0 v.g.sp (base v + r * x.imm.toNat + k)).toNat : Int)
    let d (p q r : Int) : Nat := (p - 2 * q + r).natAbs
    let value (v : Lane) : Nat := (List.range 8).foldl (fun acc y => acc + ([1, 2, 3, 4, 5, 6].map fun k =>
      d (luma v y (k - 1)) (luma v y k) (luma v y (k + 1)) + d (luma v (k - 1) y) (luma v k y) (luma v (k + 1) y)).foldl (· + ·) 0) 0
    let readable (v : Lane) : Prop := base v + 7 * x.imm.toNat + 8 ≤ v.g.spLen ∧ (∀ y < 8, v.g.spClean (base v + y * x.imm.toNat) 8 = true) ∧
      s.boardBlocks v (v.g.pool (base v)) (v.g.pool (base v + 7 * x.imm.toNat + 7)) false = false
    let winnow (thr : Lane → Nat) (v : Lane) (u : State) : State :=
      v.wrPred (v.wr (forced 1 (decide (value v < thr v)) v u) 1 x.b (value v)) x.d (decide (thr v ≤ value v) || !on 1)
    let selected (v : Lane) : Bool := titheSelected (v.r32 x.a).toNat ((v.r32 x.b).toNat / 2 ^ 16 % 8) ((v.r32 x.b).toNat % 2 ^ 16)
      (v.r32 x.c).toNat c.tseed.toNat (c.apxctl.toNat / 2 ^ 12 % 16)
    let apx (cheap : Bool) (quick exact_ : Nat × Nat) : Nat × Nat := if cheap && on 2 then quick else exact_
    let two (v : Lane) := apx (exp2Cheap (v.r32 x.a).toNat) (opApxExp2 (v.r32 x.a).toNat) (opFexp2 false (v.r32 x.a).toNat)
    let recip (v : Lane) := apx (decide (2 ≤ (v.r32 x.a).toNat / 2 ^ 23 % 256 ∧ (v.r32 x.a).toNat / 2 ^ 23 % 256 < 253))
      (opApxRcp (v.r32 x.a).toNat) (opFrcp false .rne (v.r32 x.a).toNat)
    let gives (i : Instr) (cheap : Lane → Bool) (r : Lane → Nat × Nat) : Prop :=
      AloneIf i x s (fun v => mine v ∧ (r v).2 &&& c.fpten.toNat = 0) fun v u =>
        (v.wr (forced 2 (cheap v) v u) 1 x.d (r v).1).updThread v.key fun th => { th with fflags := th.fflags ||| word (r v).2 }
    AloneIf (.wnw x) x s (fun v => mine v ∧ readable v) (winnow fun v => (v.r32 x.c).toNat) ∧
    AloneIf (.wnwCt x) x s (fun v => mine v ∧ readable v) (winnow fun _ => c.apxctl.toNat / 2 ^ 16) ∧
    AloneIf (.titheS x) x s mine (fun v u => v.wrPred (forced 3 (selected v) v u) x.d (selected v && on 3)) ∧
    AloneIf (.titheC x) x s mine (fun v u => if on 3
      then (u.countTithe v.g.ctx 1 (if v.r32 x.b < v.r32 x.a then 1 else 0) 0).updCtx v.g.ctx fun c => c.windowSample (decide (v.r32 x.b < v.r32 x.a))
      else forced 3 true v u) ∧
    gives (.apxexp2 x) (fun v => exp2Cheap (v.r32 x.a).toNat) two ∧
    gives (.apxrcp x) (fun v => decide (2 ≤ (v.r32 x.a).toNat / 2 ^ 23 % 256 ∧ (v.r32 x.a).toNat / 2 ^ 23 % 256 < 253)) recip

/-- R36, R64, R66, R67, R76, R77, R79, R97, R117, R260 to R263: a copy of a producer thread that passes R263's checks and for which its engine, the
scoreboard and its units have room takes the next number of its counter, its place in its queue, its scoreboard entries and its engine, which has then
accepted that core last, asks for the pages that it reads and writes, and leaves its status register pending. -/
def Obligations.Copies : Prop :=
  ∀ (x : Fields) (s : State),
    let shape (v : Lane) := v.r64 x.c
    let tc := x.imm.toNat % 4
    let request (form : Nat) (g2s s2g : Bool) (v : Lane) : CopyOp :=
      let rows := (shape v).toNat / 2 ^ 21 % 2 ^ 11 + 1
      { form := form, srcG := g2s, dstG := s2g, src := if g2s then (v.r64 x.a).toNat else (v.r32 x.a).toNat,
        dst := if form = 3 ∨ form = 4 then 0 else if s2g then (v.r64 x.b).toNat else (v.r32 x.b).toNat,
        rows := rows, rowBytes := (shape v).toNat % 2 ^ 21,
        sstr := if rows = 1 then 0 else (shape v).toNat / 2 ^ 32 % 2 ^ 16, dstr := if rows = 1 then 0 else (shape v).toNat / 2 ^ 48,
        queue := x.imm.toNat / 2 ^ 2 % 2 ^ 4, mask := x.imm.toNat / 2 ^ 6 % 2 ^ 8, member := x.imm.toNat / 2 ^ 6 % 2 ^ 3, slot := none,
        dsts := [], engine := engineOf v.core, pages := [], lost := [] }
    let copies (i : Instr) (form : Nat) (g2s s2g : Bool) : Prop :=
      AloneIf i x s (fun v => v.producer = true ∧ s.copyTrap v (request form g2s s2g v) = none ∧ s.copyWaits [v] (request form g2s s2g) = false)
        (fun v u =>
          let dst := v.places 1 x.d
          let n := u.takeNumber v.th.gid tc
          let place := n.1.takePlace v (request form g2s s2g v) n.1.nextOp
          let op := place.1.newOp { thread := v.key, gid := v.th.gid, core := v.core, pc := v.th.pc, dst := dst, tc := some (tc, n.2), kind := .copy place.2 }
          (({ op.1 with board := op.1.board ++ n.1.copyEntries v (request form g2s s2g v) n.1.nextOp }.noteGrant (engineKey (engineOf v.core))
            v.core).pendDsts v.key v.th.gid dst).askPages op.2 v.g.ctx place.2)
    copies (.bcpG2s x) 1 true false ∧ copies (.bcpS2g x) 1 false true ∧ copies (.bcpS2s x) 1 false false ∧ copies (.bcps x) 2 false false ∧
    copies (.bcpq x) 3 (x.m == 0) false ∧ copies (.bcpm x) 4 (x.m == 0) false ∧ copies (.bcpUnpk4s x) 5 true false ∧
    copies (.bcpUnpk4f x) 6 true false ∧ copies (.bcpUnpk8s x) 7 true false ∧ copies (.bcpUnpk8f x) 8 true false

/-- R73 to R77, R264 to R266, R371, R405: QDEF sets a queue up with every slot free, and keeps the requests of engines that still wait for one; a pop
takes the head of its list, as an acquire for the filled one, or waits, and an empty pop of q0 that leaves a push without a slot is noted; a push gives a
held handle to the tail of a list; QSTAT reads the counts. The contexts are outside RECORD and REPLAY, and before QPOP.F and QPUSH.F everything of the
thread at peers is performed. -/
def Obligations.ScratchpadQueues : Prop :=
  ∀ (x : Fields) (s : State) (q : Queue),
    let n := x.imm.toNat % 16
    let names (v : Lane) : Prop := Store.get v.g.queues n = some q
    let held (v : Lane) (h : Nat) : Prop := names v ∧ (v.r32 x.a).toNat = h ∧ h < q.n ∧ q.slots.getD h .free = .held
    let plain (v : Lane) : Prop := s.mode v.g.ctx < 2
    let upd (u : State) (gid : Nat) (f : Queue → Queue) : State := u.updGroup gid fun g => { g with queues := Store.upd g.queues n f }
    let freed (h : Nat) (v : Lane) (u : State) : State :=
      upd u v.th.gid fun p => { p with free := p.free ++ [h], slots := p.slots.set h .free, ring := p.ring.drop 1 }
    let geo (v : Lane) := (v.r32 x.b).toNat
    AloneIf (.qdef x) x s (fun v => geo v < 2 ^ 24 ∧ geo v % 2 ^ 17 % 16 = 0 ∧ 0 < geo v % 2 ^ 17 ∧ geo v % 2 ^ 17 ≤ 65536 ∧
        0 < geo v / 2 ^ 17 ∧ geo v / 2 ^ 17 ≤ 64 ∧ (v.r32 x.a).toNat + geo v / 2 ^ 17 * (geo v % 2 ^ 17) ≤ v.g.spLen ∧
        (x.imm.getLsbD 4 = true → 1 < v.g.gangSize) ∧ x.imm.toNat / 2 ^ 5 % 2 ^ 3 < v.g.gangSize ∧
        ∀ p, Store.get v.g.queues n = some p → ∀ t ∈ p.slots, t = .free)
      (fun v u =>
        let new : Queue :=
          { base := (v.r32 x.a).toNat, size := geo v % 2 ^ 17, n := geo v / 2 ^ 17, mcast := x.imm.getLsbD 4, sender := x.imm.toNat / 2 ^ 5 % 2 ^ 3,
            free := List.range (geo v / 2 ^ 17), filled := [], slots := List.replicate (geo v / 2 ^ 17) .free,
            engines := ((Store.get v.g.queues n).map Queue.engines).getD [], sent := 0,
            credits := List.replicate v.g.gangSize (geo v / 2 ^ 17), ring := [] }
        u.updGroup v.th.gid fun g => { g with queues := Store.put g.queues n new }) ∧
    (∀ h rest, AloneIf (.qpopE x) x s (fun v => names v ∧ plain v ∧ q.free = h :: rest)
      (fun v u =>
        let w := (v.wr (upd u v.th.gid fun p => { p with free := p.free.filter (· != h), slots := p.slots.set h .held }) 1 x.d h).progress v.g.ctx
        if n = 0 then w.notePush v.th.gid else w)) ∧
    (∀ h rest, AloneIf (.qpopF x) x s (fun v => names v ∧ plain v ∧ v.settled s ∧ q.filled = h :: rest)
      (fun v u => ((v.wr (upd u v.th.gid fun p => { p with filled := p.filled.filter (· != h), slots := p.slots.set h .held }) 1 x.d
        h).progress v.g.ctx).invalidateCache v.core)) ∧
    AloneWaits (.qpopE x) x s (fun v => names v ∧ plain v ∧ q.free = []) (fun _ u => u) (fun v _ => .pop n false ((v.places 1 x.d).headD .zero)) ∧
    AloneWaits (.qpopF x) x s (fun v => names v ∧ plain v ∧ v.settled s ∧ q.filled = []) (fun _ u => u)
      (fun v _ => .pop n true ((v.places 1 x.d).headD .zero)) ∧
    (∀ h, AloneIf (.qpushF x) x s (fun v => held v h ∧ v.settled s)
      (fun v u => (upd u.drainAll v.th.gid fun p => { p with filled := p.filled ++ [h], slots := p.slots.set h .filled }).progress v.g.ctx)) ∧
    (∀ h, AloneIf (.qpushE x) x s (fun v => held v h ∧ q.mcast = false)
      (fun v u => (upd u v.th.gid fun p => { p with free := p.free ++ [h], slots := p.slots.set h .free }).progress v.g.ctx)) ∧
    (∀ h r, AloneIf (.qpushE x) x s (fun v => held v h ∧ q.mcast = true ∧ q.ring.head? = some h ∧ (freed h v s).memberGid v.g q.sender = some r)
      (fun v u => (upd (freed h v u) r fun p =>
        { p with credits := p.credits.zipIdx.map fun c => if c.2 = v.g.member then c.1 + 1 else c.1 }).progress v.g.ctx)) ∧
    AloneIf (.qstat x) x s names (fun v u =>
      v.wr u 1 x.d ((if q.mcast then 2 ^ 24 else 0) + q.n * 2 ^ 16 + q.free.length * 2 ^ 8 + q.filled.length))

/-- R267 to R269, R367: SEND releases and puts its message on its way, where the port will have a matching receive or a place in its overflow queue once the
messages on their way have come, or counts it when its member is gone; RECV and RECVW take the oldest message
that matches, or are posted with their registers pending, RECVW's thread then waiting. -/
def Obligations.Messages : Prop :=
  ∀ (x : Fields) (s : State),
    let member (v : Lane) := (v.r32 x.a).toNat
    let tag := x.imm.toNat
    let first (v : Lane) (m : Msg) (wid : DWord) (rest : List (Msg × DWord)) : Prop :=
      ∃ before after, v.g.msgs = before ++ (m, wid) :: after ∧ rest = before ++ after ∧ (tag = m.tag ∨ tag = 0xFFFF) ∧
        ∀ p ∈ before, tag ≠ p.1.tag ∧ tag ≠ 0xFFFF
    let noMatch (v : Lane) : Prop := ∀ p ∈ v.g.msgs, tag ≠ p.1.tag ∧ tag ≠ 0xFFFF
    let post (v : Lane) (from_ : Option Dst) : Post := { thread := v.key, tag := tag, dst := v.places 2 x.d, from? := from_ }
    let gives (from_ : Lane → Option Dst) (m : Msg) (wid : DWord) (rest : List (Msg × DWord)) (v : Lane) (u : State) : State :=
      (u.updGroup v.th.gid fun g => { g with msgs := rest }).deliverMsg (post v (from_ v)) v.th.gid m wid
    let posts (from_ : Lane → Option Dst) (v : Lane) (u : State) : State :=
      (u.updGroup v.th.gid fun g => { g with posts := g.posts ++ [post v (from_ v)] }).pendDsts v.key v.th.gid (v.places 2 x.d ++ (from_ v).toList)
    let sender (v : Lane) : Option Dst := (v.places 1 x.c).head?
    let coming (t : Nat) : List Nat := (s.mail.filter fun m => m.2.1 == t).map fun m => m.2.2.1.tag
    let room (t : Nat) : Prop := ∀ p, s.group t = some p →
      let after := portAfter (p.posts.map Post.tag) p.msgs.length (coming t)
      (∃ k ∈ after.1, k = tag ∨ k = 0xFFFF) ∨ after.2 < 64
    (∀ t, AloneIf (.send x) x s (fun v => member v < v.g.gangSize ∧ s.memberGid v.g (member v) = some t ∧ s.releasing v.key = false ∧ room t)
      (fun v u =>
        let w := u.drainAll
        let m : Msg := { tag := tag, payload := v.r64 x.b, sender := v.g.member }
        { w with nextOp := w.nextOp + 1, mail := Store.put w.mail w.nextOp (t, m, v.wid) })) ∧
    AloneIf (.send x) x s (fun v => member v < v.g.gangSize ∧ s.memberGid v.g (member v) = none ∧ s.releasing v.key = false)
      (fun _ u => { u.drainAll with mailDrops := satAdd u.drainAll.mailDrops 1 }) ∧
    (∀ m wid rest, AloneIf (.recv x) x s (fun v => first v m wid rest) (gives (fun _ => none) m wid rest)) ∧
    (∀ m wid rest, AloneIf (.recvw x) x s (fun v => first v m wid rest) (gives sender m wid rest)) ∧
    AloneIf (.recv x) x s (fun v => noMatch v ∧ v.g.posts.length < 32) (posts fun _ => none) ∧
    AloneWaits (.recvw x) x s (fun v => noMatch v ∧ v.g.posts.length < 32) (posts sender) (fun _ _ => .message)

/-- R80 to R84, R270: TCW and TLW go on, as acquires, once their value is reached, and else wait; TCW.T and TLW.T test and go on; TLADV raises
its word to the operand as one atomic at the home slice, after everything earlier of the thread. -/
def Obligations.Timelines : Prop :=
  ∀ (x : Fields) (s : State) (t : Xlat),
    let n (v : Lane) := (v.r64 x.b).toNat
    let a (v : Lane) := (v.r64 x.a).toNat
    let tc := x.imm.toNat % 4
    let value (v : Lane) : Nat := (v.g.tcs.getD tc ⟨0, 0, []⟩).value
    let word_ (v : Lane) (kind : AccessKind) : Prop := a v % 8 = 0 ∧ v.admits s (a v) ∧ v.admits s (a v + 7) ∧ v.page s (a v) kind = some t ∧
      t.peer = none ∧ t.kind = 1 ∧ v.settled s
    let read (v : Lane) (u : State) := u.performLoad v.core v.g.ctx v.key v.th.pc t 8 true
    let seen (v : Lane) (k : Nat) : Prop := word_ v .load ∧ (read v s.tick).2.2 = none ∧ ofBytes (read v s.tick).2.1 = k
    AloneIf (.tcw x) x s (fun v => n v ≤ value v) (fun v u => u.invalidateCache v.core) ∧
    AloneWaits (.tcw x) x s (fun v => value v < n v) (fun _ u => u) (fun v _ => .timeline tc (n v)) ∧
    AloneIf (.tcwT x) x s (fun v => n v ≤ value v) (fun v u => v.wrPred (u.invalidateCache v.core) x.d true) ∧
    AloneIf (.tcwT x) x s (fun v => value v < n v) (fun v u => v.wrPred u x.d false) ∧
    (∀ k, AloneIf (.tlw x) x s (fun v => seen v k ∧ n v ≤ k) (fun v u => (read v u).1.invalidateCache v.core)) ∧
    (∀ k, AloneWaits (.tlw x) x s (fun v => seen v k ∧ k < n v) (fun v u => (read v u).1)
      (fun v _ => .word (a v) (n v) (x.imm.getLsbD 0) false none)) ∧
    (∀ k, AloneIf (.tlwT x) x s (fun v => seen v k)
      (fun v u => v.wrPred (if n v ≤ k then (read v u).1.invalidateCache v.core else (read v u).1) x.d (decide (n v ≤ k)))) ∧
    AloneIf (.tladv x) x s (fun v => word_ v .atomic ∧ s.bridgeCut v.core t.pa = false)
      (fun v u =>
        let raised := ((u.drainAll.dropCopies v.core t.pa 8).request v.core
          { pa := t.pa, size := 8, code := 4, data := toBytes 8 (n v), cas := [], ra := false, returns := false, op := 0, off := 0, cmp := t.cmp,
            ctx := v.g.ctx, launch := v.g.launch, who := v.wid, va := a v, cl := t.cl, wp := t.wp, ep := t.ep }).drainFor t.pa 8
        if raised.isPoisoned t.pa 8 = false ∧ ofBytes (u.drainAll.bytesAt t.cmp t.pa 8) < n v then raised.progress v.g.ctx else raised)

/-- R271 to R276, R371: BARI sets a barrier; BARA releases, returns the phase and counts, the last arrival ending the phase; BARW goes on with the
phase, as an acquire, once its token is old, and else waits, and both have everything of their thread at peers performed first; COLL reads its descriptor, takes a number and runs. -/
def Obligations.Barriers : Prop :=
  ∀ (x : Fields) (s : State) (b : Barrier),
    let n := x.imm.toNat % 16
    let names (v : Lane) : Prop := Store.get v.g.bars n = some b
    let plain (v : Lane) : Prop := s.mode v.g.ctx < 2
    let put (v : Lane) (u : State) (c : Barrier) : State := u.updGroup v.th.gid fun g => { g with bars := Store.put g.bars n c }
    let at_ (v : Lane) := (v.r64 x.a).toNat
    AloneIf (.bari x) x s (fun v => v.r32 x.a ≠ 0 ∧ (v.r32 x.a).toNat ≤ v.g.threads ∧ ∀ c, Store.get v.g.bars n = some c → c.arrivals = 0)
      (fun v u => put v u { expected := (v.r32 x.a).toNat, arrivals := 0, phase := 0 }) ∧
    AloneIf (.bara x) x s (fun v => names v ∧ plain v ∧ v.settled s ∧ b.arrivals + 1 ≠ b.expected)
      (fun v u => put v (v.wr u.drainAll 1 x.d b.phase.toNat) { b with arrivals := b.arrivals + 1 }) ∧
    AloneIf (.bara x) x s (fun v => names v ∧ plain v ∧ v.settled s ∧ b.arrivals + 1 = b.expected)
      (fun v u => (put v (v.wr u.drainAll 1 x.d b.phase.toNat) { b with arrivals := 0, phase := b.phase + 1 }).wakeBarrier v.th.gid n b.phase) ∧
    AloneIf (.barw x) x s (fun v => names v ∧ v.settled s ∧ b.phase ≠ v.r32 x.a)
      (fun v u => v.wr (v.wrPred (u.invalidateCache v.core) x.d (decide (b.phase ≠ v.r32 x.a + 1))) 1 x.c b.phase.toNat) ∧
    AloneWaits (.barw x) x s (fun v => names v ∧ v.settled s ∧ b.phase = v.r32 x.a) (fun _ u => u)
      (fun v _ => .barrier n (v.r32 x.a) x.d.toNat ((v.places 1 x.c).headD .zero)) ∧
    (∀ u desc rest, AloneIf (.coll x) x s (fun v => v.producer = true ∧ v.admits s (at_ v) ∧ v.admits s (at_ v + 63) ∧
        State.collRead 2 s.tick (dieOf v.core) v.g.ctx (at_ v) 64 v.th.peerBuf = (u, .bytes desc, rest) ∧ (Coll.of desc).bad desc = false)
      (fun v _ =>
        let k := (u.updThread v.key fun th => { th with peerBuf := [] }).takeNumber v.th.gid (x.imm.toNat % 4)
        (k.1.newOp { thread := v.key, gid := v.th.gid, core := v.core, pc := v.th.pc, dst := v.places 1 x.d, tc := some (x.imm.toNat % 4, k.2),
                     kind := .coll { desc := desc, fail := none, record := none, ctx := v.g.ctx } }).1.pendDsts v.key v.th.gid (v.places 1 x.d)))

/-- R280 to R286, R289, R291, R324, R330: CVDEF defines its register; a member of a register that is not broken stages its operands and waits; the last member,
when all have signed alike, issues the set: its operands by quadrant and ascending thread number, the bits that it may relax and whether it is a selected
tithe item as the context stands at issue, its tile pending, the register free for the next round, the other members at the next instruction. -/
def Obligations.MatrixSets : Prop :=
  ∀ (x : Fields) (s : State) (c : Conv),
    let cv := x.imm.toNat % 8
    let tile := x.imm.toNat / 2 ^ 3 % 2 ^ 4
    let op := x.fn.toNat % 8
    let scratch : Bool := op == 3 || op == 5
    let base := x.imm.toNat / 2 ^ 7 % 2 ^ 4
    let f (v : Lane) : Word := v.r32 x.a
    let lay (v : Lane) : List Word := if scratch then v.g.layoutWords base else []
    let me (v : Lane) : Signer := { thread := v.key, tid := v.th.tid, gather := s.moves, fn := x.fn.toNat, imm := x.imm.toNat, fmt := f v,
                                    lay := lay v, b := v.r128 x.b, c := if scratch then [] else v.r128 x.c }
    let put (v : Lane) (u : State) (c : Conv) : State := u.updGroup v.th.gid fun g => { g with cvs := Store.put g.cvs cv c }
    let signs (v : Lane) : Prop := Store.get v.g.cvs cv = some c ∧ c.broken = false ∧ mmaBad v x c.count (f v) (lay v) = false ∧
      (c.signers.filter fun m => m.tid % 4 == v.th.tid % 4).length ≠ c.count / 4 ∧ tile < v.g.tileCount ∧ (v.g.tile tile).pending = 0 ∧
      (scratch = true → ∀ d ∈ layoutPlaces base, isPending v.th v.g d.1 = false ∧ v.sound d.1 = true)
    let alike (v : Lane) : Prop := ∀ m ∈ c.signers, m.fn = x.fn.toNat ∧ m.imm = x.imm.toNat ∧ m.fmt = f v ∧ m.lay = lay v
    let start (v : Lane) (u : State) : State :=
      let ss := c.signers ++ [me v]
      let w := v.countForced u 4 ((f v).getLsbD 14)
      let relaxed : Option Nat := if (f v).getLsbD 14 && v.effective u 4 then (u.ctxOf v).map fun c => c.apxctl.toNat / 2 ^ 8 % 2 ^ 4 else none
      let picked : Bool := ((u.ctxOf v).map fun k =>
        titheSelected (v.g.lseed.toNat % 2 ^ 32) cv tile c.sets k.tseed.toNat (k.apxctl.toNat / 2 ^ 12 % 2 ^ 4)).getD false
      let o : MmaOp :=
        { op := op, fmt := f v, cv := cv, tile := tile, rb := x.imm.toNat / 2 ^ 11 % 2 ^ 2, cb := x.imm.toNat / 2 ^ 13 % 2 ^ 2, lay := lay v,
          aBytes := if scratch then [] else assembleA ss, bBytes := assembleB ss,
          relaxed := relaxed, tithed := relaxed.isSome && (v.effective u 3 && picked) }
      let r := w.newOp
        { thread := v.key, gid := v.th.gid, core := v.core, pc := v.th.pc, dst := [], tc := none, kind := .mma o }
      let t := r.1.updGroup v.th.gid fun g => { g with tiles := Store.wr Tile.zero g.tiles tile { g.tile tile with pending := (g.tile tile).pending + 1 } }
      let h := (Layout.of (lay v)).hull 32 (matRows (f v))
      let t := if scratch then t.enter { op := r.2, core := v.core, gid := v.th.gid, lo := v.g.pool h.1, hi := v.g.pool h.2, write := false, empty := false } else t
      ss.foldl (fun s m => if m.thread = v.key then s else s.retire m.thread) (put v t { c with signers := [], sets := c.sets + 1 })
    AloneIf (.cvdef x) x s (fun v => (v.r32 x.a).toNat % 4 = 0 ∧ 4 ≤ (v.r32 x.a).toNat ∧ (v.r32 x.a).toNat ≤ 512 ∧
        (v.r32 x.a).toNat ≤ v.g.threads ∧ ∀ c, Store.get v.g.cvs cv = some c → c.signers = [])
      (fun v u => put v u { count := (v.r32 x.a).toNat, signers := [], broken := false, diverged := false, sets := 0 }) ∧
    (∀ i ∈ [Instr.mmaR x, .mmaS x, .mmaPR x, .mmaPS x],
      AloneWaits i x s (fun v => signs v ∧ c.signers.length + 1 < c.count)
        (fun v u => put v u { c with signers := c.signers ++ [me v] }) (fun _ _ => .sign cv) ∧
      AloneIf i x s (fun v => signs v ∧ c.signers.length + 1 = c.count ∧ alike v ∧ (scratch = true → s.boardFree v.core ≠ 0)) start)

/-- R289, R292 to R297: with its tiles not pending, MMAZ clears a tile; MACCR reads four elements of a row into a pending quad and MACCW writes
them; MACCL and MACCS move a window under a layout word, with a scoreboard entry; MSCL reads its scale bytes and folds; MQNT reads its amax words
and quantises a tile pair; MAMAX presents 128 maxima. -/
def Obligations.MatrixTiles : Prop :=
  ∀ (x : Fields) (s : State),
    let imm := x.imm.toNat
    let tile := imm % 2 ^ 4
    let other := imm / 2 ^ 4 % 2 ^ 4
    let quiet (t : Nat) (v : Lane) : Prop := t < v.g.tileCount ∧ (v.g.tile t).pending = 0
    let edit (t : Nat) (f : Tile → Tile) (v : Lane) (u : State) : State :=
      u.updGroup v.th.gid fun g => { g with tiles := Store.wr Tile.zero g.tiles t (f (g.tile t)) }
    let busy (ts : List Nat) (v : Lane) (u : State) : State := ts.foldl (fun u t => edit t (fun t => { t with pending := t.pending + 1 }) v u) u
    let index (v : Lane) : Nat := (v.r32 x.a).toNat
    let indexed (v : Lane) : Prop := quiet tile v ∧ index v < 2 ^ 14 ∧ index v / 2 ^ 7 % 4 = 0
    let clean (v : Lane) : Prop := ∀ d ∈ layoutPlaces other, isPending v.th v.g d.1 = false ∧ v.sound d.1 = true
    let lay (v : Lane) : List Word := v.g.layoutWords other
    let layout (v : Lane) : Layout := Layout.of (lay v)
    let start (a : AccOp) (es : List (Nat × Nat × Bool)) (ts : List Nat) (v : Lane) (u : State) : State :=
      let r := u.newOp { thread := v.key, gid := v.th.gid, core := v.core, pc := v.th.pc, dst := [], tc := none, kind := .acc a }
      busy ts v (es.foldl (fun s e => s.enter { op := r.2, core := v.core, gid := v.th.gid, lo := v.g.pool e.1, hi := v.g.pool e.2.1, write := e.2.2,
                                                 empty := false }) r.1)
    let rb := imm / 2 ^ 8 % 2 ^ 2
    let cb := imm / 2 ^ 10 % 2 ^ 2
    let m := 32 * 2 ^ (imm / 2 ^ 12 % 2 ^ 2)
    let n := 32 * 2 ^ (imm / 2 ^ 14 % 2 ^ 2)
    let window (v : Lane) : Prop := quiet tile v ∧ m ≤ 128 ∧ n ≤ 128 ∧ 32 * rb + m ≤ 128 ∧ 32 * cb + n ≤ 128 ∧ clean v ∧
      (layout v).legal other = true ∧ (layout v).esize = 2 ∧ ((layout v).hull n m).2 < v.g.spLen ∧ s.boardFree v.core ≠ 0
    let move (form : AccForm) (v : Lane) (u : State) : State :=
      start { form := form, tile := tile, other := 0, rb := rb, cb := cb, m := m, n := n, lay := lay v, base := 0, words := [], fmt := 0,
              relaxed := none } [(((layout v).hull n m).1, ((layout v).hull n m).2, form == .store)] [tile] v u
    let at_ (v : Lane) : Nat := (v.r64 x.a).toNat
    let pairOk (v : Lane) : Prop := quiet tile v ∧ quiet (tile + 1) v ∧ at_ v % 4 = 0 ∧ v.admits s (at_ v) ∧ v.admits s (at_ v + 511)
    let size (l : Layout) : Prop := l.esize = if x.m = 2 ∨ x.m = 4 then 3 else 0
    OnceIf (.mmaz x) x s (quiet tile) (edit tile fun t => { t with elems := [], opened := false }) ∧
    AloneIf (.maccr x) x s indexed (fun v u =>
      let dst := v.places 4 x.d
      (u.newOp { thread := v.key, gid := v.th.gid, core := v.core, pc := v.th.pc, dst := dst, tc := none,
                 kind := .value ([0, 1, 2, 3].map fun i => (v.g.tile tile).elem (index v % 2 ^ 7) (index v / 2 ^ 7 + i)) none }).1.pendDsts v.key v.th.gid dst) ∧
    AloneIf (.maccw x) x s indexed (fun v u => edit tile (fun t =>
      { t with elems := (v.r128 x.b).zipIdx.foldl (fun e w => Store.wr 0 e (index v % 2 ^ 7 * 128 + index v / 2 ^ 7 + w.2) w.1) t.elems }) v u) ∧
    OnceIf (.maccl x) x s window (move .load) ∧
    OnceIf (.maccs x) x s window (move .store) ∧
    OnceIf (.mscl x) x s (fun v => quiet tile v ∧ quiet other v ∧ index v + 256 ≤ v.g.spLen ∧ v.g.spClean (index v) 256 = true ∧
        s.boardBlocks v (v.g.pool (index v)) (v.g.pool (index v + 255)) false = false)
      (fun v u => start { form := .fold, tile := tile, other := other, rb := 0, cb := 0, m := 128, n := 128, lay := [], base := 0,
                          words := (v.g.spRead (index v) 256).map fun b => b.setWidth 32, fmt := 0,
                          relaxed := if x.m == 1 && v.effective u 4 then (u.ctxOf v).map fun c => c.apxctl.toNat / 2 ^ 8 % 2 ^ 4 else none } []
        [tile, other] v (v.countForced u 4 (x.m == 1))) ∧
    (∀ f ws, OnceIf (.mqnt x) x s (fun v => pairOk v ∧ clean v ∧ (layout v).legal other = true ∧ size (layout v) ∧
        ((layout v).hull 256 128).2 < v.g.spLen ∧ (v.r32 x.b).toNat + 128 ≤ v.g.spLen ∧ 2 ≤ s.boardFree v.core ∧
        v.amaxWords (at_ v) s.tick = (f, ws) ∧ f.halt = none)
      (fun v _ => start { form := .quantise, tile := tile, other := 0, rb := 0, cb := 0, m := 128, n := 256, lay := lay v, base := (v.r32 x.b).toNat,
                          words := ws, fmt := x.m.toNat, relaxed := none }
        [(((layout v).hull 256 128).1, ((layout v).hull 256 128).2, true), ((v.r32 x.b).toNat, (v.r32 x.b).toNat + 127, true)] [tile, tile + 1] v
        (match f.poison with
          | some p => (f.s.clearBuf v.key).poisonLanded v.key p
          | none => f.s.clearBuf v.key))) ∧
    OnceIf (.mamax x) x s pairOk (fun v u => u.present v.key ((List.range 128).map fun b =>
      { v.blankAccess .atomic 4 0 with va := at_ v + 4 * b, size := 4, code := 17, data := toBytes 4 (u.rowMax v.th.gid tile b).toNat }))

/-- R302 to R304, R300, R99: MVTX, MPRIM and MEMIT store their part of a meshlet record when base, index and word keep their rules, the bytes lie
in the allocation and no operation in flight holds them; VAMP puts a copy of the meshlet into its core's amplifier, or waits while that holds four. -/
def Obligations.Meshlets : Prop :=
  ∀ (x : Fields) (s : State) (vs : ViewSet),
    let base (v : Lane) : Nat := (v.r32 x.a).toNat
    let w (v : Lane) : Nat := (v.r32 x.b).toNat
    let room (v : Lane) (off n : Nat) : Prop := base v % 16 = 0 ∧ base v + off + n ≤ v.g.spLen ∧
      s.boardBlocks v (v.g.pool (base v + off)) (v.g.pool (base v + off) + n - 1) true = false
    let stores (i : Instr) (ok : Lane → Prop) (off : Lane → Nat) (bytes : Lane → List Byte) : Prop :=
      CompletesIf i x s (fun v => ok v ∧ room v (off v) (bytes v).length) fun v s => s.spWrite v.th.gid (base v + off v) (bytes v)
    let parts (v : Lane) : List (Nat × Nat) := meshRanges (base v) (v.g.spRead (base v) 16)
    let ready (v : Lane) : Prop := s.view v.g.ctx (x.imm.toNat % 4) = some vs ∧ 0 < w v ∧ w v < 256 ∧ w v < 2 ^ vs.nview ∧ base v % 16 = 0 ∧
      (∀ r ∈ (base v, 16) :: parts v, r.1 + r.2 ≤ v.g.spLen ∧ s.boardBlocks v (v.g.pool r.1) (v.g.pool (r.1 + r.2 - 1)) false = false) ∧
      ∀ r ∈ parts v, v.g.spClean r.1 r.2 = true
    stores (.mvtx x) (fun v => w v ≤ 255) (fun v => 16 + 16 * w v) (fun v => (v.r128 x.c).flatMap fun p => toBytes 4 p.toNat) ∧
    stores (.mprim x) (fun v => w v ≤ 255 ∧ (v.r32 x.c).toNat < 2 ^ 24) (fun v => 4112 + 4 * w v) (fun v => toBytes 4 (v.r32 x.c).toNat) ∧
    stores (.memit x) (fun v => w v / 2 ^ 9 % 2 ^ 7 = 0 ∧ w v / 2 ^ 25 = 0 ∧ 0 < w v % 2 ^ 9 ∧ w v % 2 ^ 9 ≤ 256 ∧ w v / 2 ^ 16 % 2 ^ 9 ≤ 256)
      (fun _ => 0) (fun v => toBytes 2 (w v % 2 ^ 9) ++ toBytes 2 (w v / 2 ^ 16 % 2 ^ 9) ++ toBytes 4 (v.r32 x.c).toNat ++ toBytes 2 x.imm.toNat ++
        toBytes 2 0 ++ toBytes 4 v.wid.toNat) ∧
    AloneIf (.vamp x) x s (fun v => ready v ∧ (Store.rd [] s.amplifier v.core).length < 4) (fun v u =>
      { u with amplifier := Store.put u.amplifier v.core (Store.rd [] u.amplifier v.core ++
        [{ ctx := v.g.ctx, slot := x.imm.toNat % 4, mask := w v, bytes := (parts v).flatMap fun r => v.g.spRead r.1 r.2 }]) }) ∧
    AloneWaits (.vamp x) x s (fun v => ready v ∧ 4 ≤ (Store.rd [] s.amplifier v.core).length) (fun _ u => u) (fun _ u => .stall u.moves .issue)

/-- R300, R305 to R307, R334, R336: with the strip latched, VWARP.X and VWARP.Y write the axis image, GZLT the latched gaze and SMPL the position
of a sample, all ones beyond the extent; a strip that is not latched is waited for. -/
def Obligations.ViewReads : Prop :=
  ∀ (x : Fields) (s : State) (vs : ViewSet) (l : Lane → Latch),
    let slot := x.imm.toNat % 4
    let a (v : Lane) : Nat := (v.r32 x.a).toNat
    let b (v : Lane) : Nat := (v.r32 x.b).toNat
    let bound (v : Lane) : Prop := s.view v.g.ctx slot = some vs
    let latched (strip : Nat) (v : Lane) : Prop := bound v ∧ Store.get vs.latches strip = some (l v)
    let waits (strip : Nat) (v : Lane) : Prop := bound v ∧ Store.get vs.latches strip = none
    let warp (v : Lane) : Prop := a v < vs.nview ∧ b v < vs.strips
    let tile (v : Lane) : Prop := a v % 8 < vs.nview ∧ a v / 2 ^ 3 % 2 ^ 5 = 0 ∧ a v / 2 ^ 24 = 0 ∧ a v / 2 ^ 8 % 2 ^ 8 < vs.columns ∧
      a v / 2 ^ 16 % 2 ^ 8 < vs.strips ∧ b v < 1024
    let seq (v : Lane) (strip : Nat) : Word := word ((l v).frame * vs.strips + strip)
    let image (axis : Lane → Axis) (v : Lane) (u : State) : State :=
      let at_ (k : Nat) : Nat := ((axis v).breaks[k]?).getD 0xFFFF
      v.wrWords u x.d [word (at_ 1 * 2 ^ 16 + at_ 0), word (at_ 3 * 2 ^ 16 + at_ 2),
        word ((axis v).ext * 2 ^ 16 + (axis v).breaks.length * 2 ^ 8 + (axis v).codes), seq v (b v)]
    let holds (i : Instr) (ok : Lane → Prop) : Prop := AloneWaits i x s ok (fun _ u => u) fun _ _ => .latch slot
    CompletesIf (.vwarpX x) x s (fun v => warp v ∧ latched (b v) v) (image fun v => (l v).xAxis vs (a v)) ∧
    CompletesIf (.vwarpY x) x s (fun v => warp v ∧ latched (b v) v) (image fun v => (l v).yAxis vs) ∧
    CompletesIf (.gzlt x) x s (fun v => a v < vs.strips ∧ latched (a v) v)
      (fun v u => v.wrWords u x.d [(l v).gx, (l v).gy, word (l v).clock, seq v (a v)]) ∧
    CompletesIf (.smpl x) x s (fun v => tile v ∧ latched (a v / 2 ^ 16 % 2 ^ 8) v) (fun v u =>
      v.wrWords u x.d (match ((l v).xAxis vs (a v % 8)).pos (32 * (a v / 2 ^ 8 % 2 ^ 8) + b v % 32),
          ((l v).yAxis vs).pos (32 * (a v / 2 ^ 16 % 2 ^ 8) + b v / 32) with
        | some px, some py => [word px, word py]
        | _, _ => [0xFFFFFFFF, 0xFFFFFFFF])) ∧
    holds (.vwarpX x) (fun v => warp v ∧ waits (b v) v) ∧
    holds (.vwarpY x) (fun v => warp v ∧ waits (b v) v) ∧
    holds (.gzlt x) (fun v => a v < vs.strips ∧ waits (a v) v) ∧
    holds (.smpl x) (fun v => tile v ∧ waits (a v / 2 ^ 16 % 2 ^ 8) v)

/-- R308 to R310, R352: SERQ answers DONE and STATE and queues a strip of the current or next frame that is not queued and not past its deadline;
TILEO and LENS of a producer thread take a number of their counter, their read entry and their operation, and leave the status register pending. -/
def Obligations.TileOutput : Prop :=
  ∀ (x : Fields) (s : State) (vs : ViewSet),
    let slot := x.imm.toNat % 4
    let counter := x.imm.toNat / 2 ^ 2 % 2 ^ 2
    let bound (v : Lane) : Prop := s.view v.g.ctx slot = some vs
    let a (v : Lane) : Nat := (v.r32 x.a).toNat
    let b (v : Lane) : Nat := (v.r32 x.b).toNat
    let strip (w : Nat) : Nat := w / 2 ^ 16 % 2 ^ 8
    let done (v : Lane) (u : State) : State × Nat := u.tilesDone vs (b v) (a v % 8) (strip (a v))
    let near (v : Lane) : Prop := b v ∈ vs.frames (strip (a v))
    let queued (v : Lane) : Prop := (b v, a v % 8, strip (a v)) ∈ vs.serq
    let late (v : Lane) : Prop := (∃ l, Store.get vs.latches (strip (a v)) = some l ∧ l.frame = b v) ∧ vs.deadline (b v) (strip (a v)) ≤ (s.now : Int)
    let word_ (v : Lane) : Prop := bound v ∧ a v % 8 < vs.nview ∧ a v / 2 ^ 3 % 2 ^ 13 = 0 ∧ a v / 2 ^ 24 = 0 ∧ strip (a v) < vs.strips
    let answers (ok : Lane → Prop) (state : Nat) : Prop :=
      AloneIf (.serq x) x s (fun v => word_ v ∧ ok v) fun v u => v.wr (done v u).1 1 x.d ((done v u).2 * 2 ^ 8 + state)
    let hands (i : Instr) (lens : Bool) : Prop := AloneIf i x s
      (fun v => v.producer = true ∧ bound v ∧ b v % 8 < vs.nview ∧ vs.lensed (b v % 8) = lens ∧ b v / 2 ^ 3 % 2 ^ 5 = 0 ∧ b v / 2 ^ 24 = 0 ∧
        b v / 2 ^ 8 % 2 ^ 8 < vs.columns ∧ strip (b v) < vs.strips ∧ a v % 128 = 0 ∧ a v + 4096 ≤ v.g.spLen ∧ s.lensLoad v.core < 16 ∧
        s.boardFree v.core ≠ 0)
      fun v u =>
        let n := u.takeNumber v.th.gid counter
        let o : TileOp := { slot := slot, view := b v % 8, strip := strip (b v), col := b v / 2 ^ 8 % 2 ^ 8, base := a v, lens := lens,
                            frame := ((Store.get vs.latches (strip (b v))).map Latch.frame).getD vs.first }
        let r := n.1.newOp { thread := v.key, gid := v.th.gid, core := v.core, pc := v.th.pc, dst := v.places 1 x.d, tc := some (counter, n.2),
                             kind := .tile o }
        (r.1.enter { op := r.2, core := v.core, gid := v.th.gid, lo := v.g.pool (a v), hi := v.g.pool (a v + 4095), write := false,
                     empty := false }).pendDsts v.key v.th.gid (v.places 1 x.d)
    answers (fun v => ¬ near v) 3 ∧
    answers (fun v => near v ∧ queued v) 1 ∧
    answers (fun v => near v ∧ ¬ queued v ∧ late v) 2 ∧
    AloneIf (.serq x) x s (fun v => word_ v ∧ near v ∧ ¬ queued v ∧ ¬ late v) (fun v u =>
      v.wr ((done v u).1.updView v.g.ctx slot fun vs => { vs with serq := vs.serq ++ [(b v, a v % 8, strip (a v))] }) 1 x.d ((done v u).2 * 2 ^ 8)) ∧
    hands (.tileo x) false ∧ hands (.lens x) true

/-- R311 to R313, R343 to R345: TEX, TEXG and TEXQ with an index below the count, a descriptor that keeps its rules and every read translated leave
their quad pending on the filtered values, on zeros where a sector was poisoned; an index at or above the count takes the register-index trap, a
descriptor that breaks a rule the texture-descriptor trap. -/
def Obligations.Textures : Prop :=
  ∀ (x : Fields) (s : State) (f : Fetch) (ws : List Word),
    let kn := x.imm.toNat % 2 ^ 4
    let k (v : Lane) (n : Nat) : Nat := (Store.rd 0 v.g.k (kn + n)).toNat
    let index (v : Lane) : Nat := (v.r32 x.a).toNat
    let entry (v : Lane) : Fetch × List Byte := (v.startFetch s.tick).read v .texture (k v 0 + k v 1 * 2 ^ 32 + 32 * index v) 32
    let texture (v : Lane) : Texture := Texture.of (entry v).2
    let named (v : Lane) : Prop := ∀ d ∈ layoutPlaces kn, isPending v.th v.g d.1 = false ∧ v.sound d.1 = true
    let ready (v : Lane) : Prop := named v ∧ index v < k v 2 % 2 ^ 16 ∧ (entry v).1.halt = none ∧ (entry v).1.poison = none
    let leave (v : Lane) : State :=
      let o := (f.s.clearBuf v.key).newOp { thread := v.key, gid := v.th.gid, core := v.core, pc := v.th.pc, dst := v.places 4 x.d, tc := none,
                                            kind := .value (if f.poison.isSome then [0, 0, 0, 0] else ws) f.poison }
      o.1.pendDsts v.key v.th.gid (v.places 4 x.d)
    let tu (v : Lane) : Nat := (v.r64 x.b).toNat % 2 ^ 32
    let tv (v : Lane) : Nat := (v.r64 x.b).toNat / 2 ^ 32
    let c (v : Lane) : Nat := (v.r64 x.c).toNat
    let gives (i : Instr) (r : Lane → Fetch → Texture → Fetch × List Word) : Prop :=
      AloneIf i x s (fun v => ready v ∧ textureBad (entry v).2 = false ∧ r v (entry v).1 (texture v) = (f, ws) ∧ f.halt = none) (fun v _ => leave v) ∧
      TrapsIf i x s (fun v => named v ∧ k v 2 % 2 ^ 16 ≤ index v) 0x06 index ∧
      ∀ row v, Issues i row x s [v] → v.active x.g x.gn = true → ready v → textureBad (entry v).2 = true →
        exec i s = .next (((entry v).1.s.clearBuf v.key).takeTraps [{ key := v.key, cause := 0x0C, tval := index v }]).settle.moved
    let rgba (t : Texture) (r : Fetch × List Nat) : Fetch × List Word := (r.1, t.rgba r.2)
    gives (.texB x) (fun v g t => rgba t (g.bilinear v t 0 (tu v) (tv v))) ∧
    gives (.texT x) (fun v g t => rgba t (g.trilinear v t (v.r32 x.c).toNat (tu v) (tv v))) ∧
    gives (.texA x) (fun v g t => rgba t (g.anisotropic v t (c v % 2 ^ 32) (nanAsZero (tu v)) (nanAsZero (tv v)) (halfBits (c v / 2 ^ 32 % 2 ^ 16))
      (halfBits (c v / 2 ^ 48)))) ∧
    gives (.texg x) (fun v g t =>
      let a := g.texelPos (tu v) t.w
      let b := a.1.texelPos (tv v) t.h
      let at_ (dx dy : Int) (r : Fetch × List Word) : Fetch × List Word :=
        let border := (addressMode t.modeU (a.2 / 256 + dx) t.w).isNone || (addressMode t.modeV (b.2 / 256 + dy) t.h).isNone
        let q := r.1.texel v t 0 (a.2 / 256 + dx) (b.2 / 256 + dy)
        (q.1, r.2 ++ [if border then 0 else t.channel q.2 x.m.toNat])
      at_ 1 1 (at_ 0 1 (at_ 1 0 (at_ 0 0 (b.1, []))))) ∧
    gives (.texq x) (fun v g t => (g, if t.mips ≤ (v.r32 x.b).toNat then [0, 0, 0, 0]
      else [word (t.width (v.r32 x.b).toNat), word (t.height (v.r32 x.b).toNat), word t.mips, word t.fmt]))

/-- R314, R316 to R318, R90, R97, R99: on a block that is aligned, in bounds, not held, and clean where it is read, RYL makes the ray live at its root, RYL.V
also takes origin and direction from the view, RYX clears LIVE and SUSP, RYH and RYS read; RYT and RYR read the block, take a write entry over it, and
wait for the traversal. -/
def Obligations.Rays : Prop :=
  ∀ (x : Fields) (s : State) (vs : ViewSet) (l : Latch),
    let a (v : Lane) : Nat := (v.r32 x.a).toNat
    let room (store : Bool) (reads : List (Nat × Nat)) (v : Lane) : Prop := a v % 64 = 0 ∧ a v + 64 ≤ v.g.spLen ∧
      (∀ r ∈ reads, v.g.spClean (a v + r.1) r.2 = true) ∧ s.boardBlocks v (v.g.pool (a v)) (v.g.pool (a v + 63)) store = false
    let bytes (v : Lane) : List Byte := v.g.spRead (a v) 64
    let at_ (v : Lane) (o n : Nat) : Nat := ofBytes (((bytes v).drop o).take n)
    let fresh (v : Lane) (cb : Bool) : List Byte := toBytes 4 (2 ^ 32 - 1) ++ toBytes 4 0 ++ toBytes 4 0 ++ toBytes 4 0 ++
      toBytes 8 (at_ v 32 8 / 2 ^ 6 % 2 ^ 51 * 2 ^ 6 + 2 ^ 63 + (if cb then 2 ^ 61 else 0))
    let cb := x.imm.getLsbD 0
    let tile (v : Lane) : Nat := (v.r32 x.b).toNat
    let n (v : Lane) : Nat := (v.r32 x.c).toNat
    let sampled (v : Lane) : Prop := s.view v.g.ctx (x.imm.toNat / 2 % 4) = some vs ∧ tile v % 8 < vs.nview ∧ tileWordBad vs (tile v) = false ∧ n v < 1024 ∧
      Store.get vs.latches (tile v / 2 ^ 16 % 2 ^ 8) = some l
    let dir (v : Lane) : List Nat := match samplePos vs l (tile v) (n v) with
      | some (px, py) => vs.rayDir (tile v % 8) px py
      | none => [0, 0, 0]
    let eye (v : Lane) : List Byte := ((vs.record (tile v % 8)).drop 64).take 12
    let ray (v : Lane) : Ray := Ray.of (bytes v)
    let leaf (v : Lane) : Fetch × List Byte := (v.startFetch s.tick).read v .ray (ray v).cur 64
    let quad (v : Lane) (u : State) (ws : List Word) (p : Option Nat) : State :=
      ((u.clearBuf v.key).newOp { thread := v.key, gid := v.th.gid, core := v.core, pc := v.th.pc, dst := v.places 4 x.d, tc := none,
                                  kind := .value ws p }).1.pendDsts v.key v.th.gid (v.places 4 x.d)
    let travels (i : Instr) (resume : Bool) (report : Lane → Option (Nat × Nat)) : Prop :=
      AloneWaits i x s (fun v => room false [(0, 64)] v ∧ s.rayLoad v.core < 256 ∧ s.boardFree v.core ≠ 0)
        (fun v u =>
          let o := u.newOp { thread := v.key, gid := v.th.gid, core := v.core, pc := v.th.pc, dst := v.places 1 x.d, tc := none,
                             kind := .trav { block := a v, start := bytes v, resume := resume, report := report v } }
          (o.1.enter { op := o.2, core := v.core, gid := v.th.gid, lo := v.g.pool (a v), hi := v.g.pool (a v + 63), write := true,
                       empty := false }).pendDsts v.key v.th.gid (v.places 1 x.d))
        (fun _ u => .ray u.nextOp)
    AloneIf (.ryl x) x s (room true [(32, 8)]) (fun v u => u.spWrite v.th.gid (a v + 40) (fresh v cb)) ∧
    AloneIf (.rylV x) x s (fun v => room true [(32, 8)] v ∧ sampled v) (fun v u => u.spWrite v.th.gid (a v)
      (eye v ++ toBytes 4 0 ++ (dir v).flatMap (toBytes 4) ++ toBytes 4 0x7F800000 ++ ((bytes v).drop 32).take 8 ++ fresh v cb)) ∧
    AloneIf (.ryx x) x s (room true []) (fun v u => u.updGroup v.th.gid fun g => g.spWrite (a v + 63) [BitVec.ofNat 8 (at_ v 63 1 % 2 ^ 6)]) ∧
    AloneIf (.ryh x) x s (room false [(28, 4), (40, 12)]) (fun v u =>
      v.wrWords u x.d [word (at_ v 40 4), word (at_ v 28 4), word (at_ v 44 4), word (at_ v 48 4)]) ∧
    AloneIf (.rys x) x s (fun v => room false [(0, 64)] v ∧ (ray v).susp = false) (fun v u => v.wrWords u x.d (List.replicate 4 0xFFFFFFFF)) ∧
    AloneIf (.rys x) x s (fun v => room false [(0, 64)] v ∧ (ray v).susp = true ∧ (leaf v).1.halt = none) (fun v _ =>
      let b := (leaf v).2
      let i := (ray v).interval (words3 b 4) (words3 b 16)
      quad v (leaf v).1.s (if (leaf v).1.poison.isSome then [0, 0, 0, 0]
        else [word (ofBytes ((b.drop 28).take 4)), word (ofBytes ((b.drop 32).take 4)), word i.1, word i.2]) (leaf v).1.poison) ∧
    travels (.ryt x) false (fun _ => none) ∧ travels (.ryrM x) true (fun _ => none) ∧
    travels (.ryrH x) true (fun v => some ((v.r32 x.b).toNat, (v.r32 x.c).toNat))

/-- R162 to R166, R221: a pair word whose slots keep the rules of R165 and find their operands, with memory accesses aligned, in bounds and not held, and
no raised flag enabled: each active slot has its effect on the operands as they stood before either, and the lane goes on at the next word. Inside a sheaf
a lane whose path runs neither slot is held to no rule on renamed registers. -/
def Obligations.Pairs : Prop :=
  ∀ (p q : Slot) (s : State) (v : Lane),
    let d (z : Slot) : Word := v.w z.d.toNat
    let a (z : Slot) : Word := v.w z.a
    let src (z : Slot) : Word := if z.i then (match z.op.toNat with
        | 13 | 14 | 15 | 16 => z.src.setWidth 32 <<< 17
        | 17 | 18 => z.src.setWidth 32 * 2 * 65537
        | 22 => z.src.signExtend 32 * 4
        | _ => z.src.signExtend 32) else if z.op = 22 then a z * 4 else a z
    let at_ (z : Slot) : Int := if z.i then z.src.toInt * 4 else (a z).toNat
    let float (r : Nat × Nat) : Word × Nat := (word r.1, r.2)
    let value (z : Slot) : Word × Nat := match z.op.toNat with
      | 1 => (src z, 0)
      | 2 | 22 => (d z + src z, 0)
      | 3 => (d z - src z, 0)
      | 4 => (d z &&& src z, 0)
      | 5 => (d z ||| src z, 0)
      | 6 => (d z ^^^ src z, 0)
      | 7 => (d z <<< ((src z).toNat % 32), 0)
      | 8 => (d z >>> ((src z).toNat % 32), 0)
      | 9 => ((d z).sshiftRight ((src z).toNat % 32), 0)
      | 10 => (if (d z).toInt ≤ (src z).toInt then d z else src z, 0)
      | 11 => (if (d z).toInt ≤ (src z).toInt then src z else d z, 0)
      | 12 => (d z * src z, 0)
      | 13 => float (opFadd false .rne (d z).toNat (src z).toNat)
      | 14 => float (opFmul false .rne (d z).toNat (src z).toNat)
      | 15 => float (opMinMax false false false (d z).toNat (src z).toNat)
      | 16 => float (opMinMax true false false (d z).toNat (src z).toNat)
      | 17 => float (opHadd2 fp16 .rne (d z).toNat (src z).toNat)
      | 18 => float (opHmul2 fp16 .rne (d z).toNat (src z).toNat)
      | 19 => (word (ofBytes (v.g.spRead (at_ z).toNat 4)), 0)
      | 21 => (Store.rd 0 v.g.k z.a, 0)
      | 23 => (if v.th.preds.getLsbD 0 then d z else src z, 0)
      | _ => (0, 0)
    let acts (z : Slot) : Prop := v.active z.g false = true ∧ z.op ≠ 0
    let sound (z : Slot) : Prop := acts z →
      ((z.op = 19 ∨ z.op = 20) → 0 ≤ at_ z ∧ at_ z % 4 = 0 ∧ at_ z + 4 ≤ v.g.spLen ∧ (z.op = 19 → v.g.spClean (at_ z).toNat 4 = true) ∧
        (isThresher v.key = false ∨ z.op = 19 → s.boardBlocks v (v.g.pool (at_ z).toNat) (v.g.pool ((at_ z).toNat + 3)) (z.op == 20) = false)) ∧
      (value z).2 &&& v.traps s = 0
    let effect (z : Slot) (u : State) : State :=
      if v.active z.g false = false ∨ z.op = 0 then u
      else if z.op = 20 then
        if isThresher v.key then v.scratchStore u (at_ z).toNat (toBytes 4 (d z).toNat) else u.spWrite v.th.gid (at_ z).toNat (toBytes 4 (d z).toNat)
      else (u.putDst v.key v.th.gid (v.place (v.th.rename z.d.toNat)) (value z).1).updThread v.key fun th =>
        { th with fflags := th.fflags ||| word (value z).2 }
    s.gatherLanes = some [v] → wellFormed (.pairWord p q) = true → v.th.late = none → v.th.kept = [] →
    v.guardBad p.g false = false → v.guardBad q.g false = false →
    (v.th.sheaf = none ∨ v.slotActive p = true ∨ v.slotActive q = true → v.pairRegsBad p q = false) →
    (isThresher v.key = true → thresherMay (.pairWord p q) = true ∧ (p.op = 20 ∨ q.op = 20 → s.boardFree v.core ≠ 0)) →
    (∀ e ∈ v.slotPlaces p ++ v.slotPlaces q, isPending v.th v.g e.1 = false ∧ v.sound e.1 = true) →
    (∀ e ∈ v.slotWrites p ++ v.slotWrites q, isPending v.th v.g e.1 = false) → sound p → sound q →
    exec (.pairWord p q) s = .next ((effect q (effect p s.tick)).retire v.key).settle.moved

/-- R56, R105, R117, R249, R254, R368, R425: the data of a load, of an argument or of a returning atomic all of whose pieces are performed is
written and its operation ends; poison writes its value and lands on the thread; an acquire that a peer has performed invalidates the core's load
cache first, and what the thread kept back for it goes on. A slice applies what is pending for a line in its order. A thread at an instruction
boundary takes the trap that poison left due. R51, R52, R54: each output port grants the head request of the input that it granted least recently,
which then becomes the most recently granted. Which of the inputs that it never granted comes first is the model's choice (log 46): the lowest number.
A request granted at a slice enters its write queue; one granted at a bridge port goes to the other die's crossbar. -/
def Obligations.DataReturns : Prop :=
  (∀ (s : State) (op : Nat) (o : AOp), Store.get s.ops op = some o →
      let landed (p : Option Nat) (u : State) : State := match p with
        | some a => u.poisonLanded o.thread a
        | none => u
      let write (u : State) (vs : List Word) : State := (u.endOp op).landDsts o.thread o.gid o.dst vs
      let value (l : LoadOp) (data : List Byte) : List Word := wordsOf o.dst.length (if l.poison.isSome then (if l.atomic = some 16 then 0x7FC00000 else 0)
        else extendLoad l.size l.sx (ofBytes data))
      (∀ l, o.kind = .load l → l.remote = [] → l.left = 0 → Happens (.loadDataReturn op []) s (landed l.poison (write s (value l l.data)))) ∧
      (∀ l bs, o.kind = .load l → l.remote ≠ [] → l.left = 0 → s.inputs.code = 0 → bs.length = (l.remote.map Remote.bytes).foldl (· + ·) 0 →
        let places := (l.remote.filter fun r => r.bytes != 0).map fun r => (r.acc.off, r.acc.size)
        let u := if l.remote.any (fun r => r.acc.acquires) then s.invalidateCache o.core else s
        Happens (.loadDataReturn op bs) s ((landed l.poison (write u (value l (fillRemote l.data places bs)))).resumeKept o.thread)) ∧
      (∀ vs p, o.kind = .value vs p → Happens (.loadDataReturn op []) s (landed p (write s vs))) ∧
      (∀ r bs, o.kind = .fetch r → s.inputs.code = 0 → bs.length = r.bytes → Happens (.loadDataReturn op bs) s
        ((s.endOp op).updThread o.thread fun th =>
          let got := if r.kind = .fetch ∧ r.va = o.pc ∧ th.wordBuf = [] ∧ th.reload = false then { th with wordBuf := bs } else { th with peerBuf := th.peerBuf ++ bs }
          match th.st with
          | .waiting (.ray _) => got
          | _ => { got with st := .ready, since := s.now })) ∧
      (∀ (p : Pending) (line : Nat), s.portHeld = [] → p ∈ s.wq → 0 < p.size → p.pa / 128 = line → Happens (.writeQueueApply line) s
        (let mine := s.wq.filter fun q => q.inLine line
         State.applyAll mine.length { s with wq := s.wq.filter fun q => !q.inLine line } mine)) ∧
      (∀ (key a : Nat) (th : Thread), Store.get s.threads key = some th → th.late = some a → (th.st = .ready ∨ ∃ n y, th.st = .waiting (.stall n y)) →
        Happens (.lateErrorTrap key) s ((s.setThread key { th with late := none, st := .ready }).takeTraps [{ key := key, cause := 0x11, tval := a }]))) ∧
  (∀ (s : State) (out : Nat) (r : PortReq),
      let heads := (portHeads out s.portHeld).filter s.admits
      let order := (Store.get s.grants out).getD []
      r ∈ heads →
      ((r.input ∉ order ∧ ∀ q ∈ heads, q.input ∉ order → r.input ≤ q.input) ∨
       ((∀ q ∈ heads, q.input ∈ order) ∧ ∃ before after, order = before ++ r.input :: after ∧ ∀ q ∈ heads, q.input ∉ before)) →
      let granted : State := { s with portHeld := s.portHeld.erase r, grants := Store.put s.grants out (order.filter (· != r.input) ++ [r.input]) }
      (out < 96 → s.grant out = { granted with wq := s.wq ++ [r.req] }) ∧
      (96 ≤ out → s.grant out = { granted with portHeld := granted.portHeld ++
        [{ input := bridgeIn (dieOfAddr r.req.pa) (homeSlice r.req.pa % 4), output := sliceOut r.req.pa, req := r.req }] }) ∧
      (∀ line, sliceOut (128 * line) = out → 0 < r.req.size → r.req.pa / 128 = line → (∀ q ∈ s.portHeld, q.output < 96) →
        Happens (.writeQueueApply line) s (State.applyEntry { granted with wq := s.wq ++ [r.req] } line)))

/-- R36, R37, R41, R42, R34: a miss enters its die's queue, joined to one for the same page; a walk that ends fills the caches and lets each waiter
that it admits go on, and parks the others on one record for each cause; TLBINV discards what its range meets and completes when no walk of its
context is left. -/
def Obligations.TranslationEvents : Prop :=
  ∀ (s : State),
    (∀ (die : Nat) (m : Miss) (rest : List Miss), s.enroute = m :: rest → m.die = die →
      let same (x : Miss) : Bool := x.die == die && x.ctx == m.ctx && x.vpn == m.vpn
      Happens (.translationMiss die) s
        (if s.misses.any same then
          { s with enroute := rest, misses := s.misses.map fun x => if same x then { x with waiters := x.waiters ++ m.waiters } else x }
         else if 2048 ≤ (s.misses.filter fun x => x.die == die).length then s
         else { s with enroute := rest, misses := assignWalkers die [] (s.misses ++ [m]) })) ∧
    (∀ (n : Nat) (m : Miss), s.misses[n]? = some m → m.running = true →
      let base := (s.walked m.die m.ctx (m.vpn * 4096)).fillWalkCache m.die m.ctx (m.vpn * 4096)
      let ended : State := { base with misses := assignWalkers m.die [] (base.misses.eraseIdx n) }
      (∀ w ∈ m.waiters, w.unit < 3000) →
      (∀ c l e, s.walk m.die m.ctx (m.vpn * 4096) = .fault c l e → m.waiters ≠ [] →
        (∀ t r, s.lastDetect = some (t, r) → s.now ≠ t ∨ r ≤ m.rank) →
        Happens (.walkCompletion n) s (State.parkFault { ended with lastDetect := some (base.now, m.rank) } m.ctx (c, l, e) m.waiters)) ∧
      (∀ c l e t r, s.walk m.die m.ctx (m.vpn * 4096) = .fault c l e → m.waiters ≠ [] → s.lastDetect = some (t, r) → s.now = t → m.rank < r →
        exec (.walkCompletion n) s = .next s) ∧
      (∀ va b l e, s.walk m.die m.ctx (m.vpn * 4096) = .leaf va b l e → e.getLsbD 59 = false →
        (∀ w ∈ m.waiters, (s.xlat b e w.va).permits w.kind = true) →
        Happens (.walkCompletion n) s (m.waiters.foldl (fun u w => u.serve (coreOf w.thread) m.ctx w
          { unit := w.unit, ctx := 0, va := va, bits := b, level := l, entry := e }) ended))) ∧
    (∀ c, s.commanded 8 c → c.at' 8 1 ≤ 1 → zeros c.bytes 9 16 = true → zeros c.bytes 32 64 = true → (c.at' 8 1 = 0 ∨ c.at' 24 8 = 0) →
      (s.ctxReady c (· != .free) = true → Happens .tlbinv s
        ((s.discardXlat c.ctx (if c.at' 8 1 = 0 then some (c.at' 16 8, c.at' 24 8) else none)).updCtx c.ctx
          fun x => { x with pendingCmds := x.pendingCmds ++ [c] })) ∧
      (s.ctxReady c (· != .free) = false → Happens .tlbinv s (s.finishRecord c 3))) ∧
    (∀ (ctx : Nat) (x : Ctx), Store.get s.ctxs ctx = some x → (∃ c ∈ x.pendingCmds, c.opc = 8) → (∀ m ∈ s.enroute ++ s.misses, m.ctx ≠ ctx) →
      Happens (.tlbinvCompletion ctx) s
        ((x.pendingCmds.filter fun c => c.opc == 8).foldl (fun u c => u.finishRecord c 0)
          (s.updCtx ctx fun x => { x with pendingCmds := x.pendingCmds.filter fun c => c.opc != 8 })))

/-- R71, R76, R78, R97: a BCPQ at the head of its queue's requests without a slot takes the oldest free handle and its interval is set; a copy that
nothing holds moves its chunks and completes, a BCPQ as its queue's order allows, a BCPM on every receiver that is left. Its entries retire, its
status word is written and its number is complete, together. -/
def Obligations.CopyEnds : Prop :=
  ∀ (s : State) (op : Nat) (o : AOp) (c : CopyOp), Store.get s.ops op = some o → o.kind = .copy c →
    let ctx := ((s.group o.gid).map Group.ctx).getD 0
    let ready := s.copyReady op o c = true
    let run (spots : List (Nat × Nat)) : CopyRun :=
      c.chunks.foldl (fun r gs => CopyRun.chunk r o c ctx spots gs) { s := s, peer := s.inputs.peer.data, index := 0, fails := [] }
    let recorded (spots : List (Nat × Nat)) : State := (run spots).s.copyRecord o c ctx (s.widOf o.thread o.gid) (run spots).fails
    let failed (u : State) (code first n : Nat) : State :=
      (u.statusField n).1.complete op o [word (code * 2 ^ 28 + first * 2 ^ 15 + (u.statusField n).2 * 4)]
    let ended (spots : List (Nat × Nat)) : State := match (run spots).fails with
      | [] => (recorded spots).complete op o [0]
      | f :: fs => failed (recorded spots) f.2.code f.1 (fs.length + 1)
    let pushed (u : State) : State := if c.form = 3 then u.updGroup o.gid fun g => g.updQueue c.queue fun q => q.finish op else u
    let landed (spots : List (Nat × Nat)) (u : State) : State := spots.foldl (fun u r => u.updGroup r.1 fun g => g.updQueue c.queue fun q =>
      { q with filled := q.filled ++ [c.slot.getD 0], slots := q.slots.set (c.slot.getD 0) .filled }) u
    let receivers (g : Group) : List (Nat × Nat) := (maskMembers c.mask).filterMap fun m => (s.memberGid g m).map fun r => (r, c.dsts.getD m 0)
    (∀ g q h rest r, c.form = 3 → s.group o.gid = some g → Store.get g.queues c.queue = some q → q.free = h :: rest →
      q.engines.find? (fun e => e.slot.isNone) = some r → r.op = op →
      let a := q.base + h * q.size
      let q' : Queue := { q with free := rest, slots := q.slots.set h .engine,
                                 engines := q.engines.map fun r => if r.op == op then { r with slot := some h } else r }
      let u := s.updGroup o.gid fun g => { g with queues := Store.put g.queues c.queue q' }
      Happens (.bcpqSlotTaken op) s { u with
        ops := Store.put u.ops op { o with kind := .copy { c with slot := some h, dsts := [a] } }
        board := u.board.map fun b => if b.op == op && b.empty then
          { b with lo := g.pool a, hi := g.pool (a + q.size - 1), empty := false } else b }) ∧
    (ready → c.form ≠ 4 → c.form ≠ 2 → (c.form = 3 → c.slot ≠ none) →
      Happens (.copyCompletion op) s (pushed (ended [(o.gid, c.dsts.headD 0)]))) ∧
    (∀ g r, ready → c.form = 2 → s.group o.gid = some g → s.memberGid g c.member = some r →
      Happens (.copyCompletion op) s (ended [(r, c.dsts.headD 0)])) ∧
    (∀ g, ready → c.form = 4 → s.group o.gid = some g → (receivers g).length = (maskMembers c.mask).length →
      Happens (.bcpmCompletion op) s (landed (receivers g) (ended (receivers g)))) ∧
    (∀ g, ready → c.form = 4 → s.group o.gid = some g → (receivers g).length < (maskMembers c.mask).length → (run (receivers g)).fails = [] →
      Happens (.bcpmCompletion op) s (landed (receivers g) (failed (recorded (receivers g)) 5 0
        (c.chunks.length * ((maskMembers c.mask).length - (receivers g).length))))) ∧
    (∀ n, (n < 8192 → s.statusField n = (s, n)) ∧ (8192 ≤ n → (s.statusField n).2 < 8192))

/-- R99, R287 to R289, R291, R293 to R296, R308, R318, R330: an operation of the matrix engine, the tile writer or the ray unit that nothing holds
ends: a set writes its window, in order on its tile; an accumulator operation does what its form says; MACCR's values are written; a tile is written
whole before its status word; a traversal writes its block and result, and its thread goes on. Entries retire and tiles are no longer pending on it. -/
def Obligations.EngineEnds : Prop :=
  ∀ (s : State) (op : Nat) (o : AOp) (g : Group), Store.get s.ops op = some o → s.group o.gid = some g → s.opHeld op = false →
    let gone (u : State) : State := (u.endOp op).retireEntries op
    let set (m : MmaOp) (u : State) (w : List (List Word)) : State := u.updTile o.gid m.tile fun t => { t.putWindow (32 * m.rb) (32 * m.cb) w with
      pending := t.pending - 1, opened := t.opened || m.op == 4 || m.op == 5 }
    (∀ m, o.kind = .mma m → (∀ e ∈ s.ops, e.1 < op → e.2.gid = o.gid → ∀ n, e.2.kind = .mma n → n.tile ≠ m.tile) →
      let read := s.readOperand o m.operand
      let exact := m.compute g
      (m.relaxed = none → m.tithed = false → Happens (.mmaSetCompletion op) s (gone (set m read exact))) ∧
      (∀ l, m.relaxed = some l → m.tithed = false →
        Happens (.mmaSetCompletion op) s (gone (set m (read.relaxWindow l exact).1 (read.relaxWindow l exact).2))) ∧
      (∀ l, m.relaxed = some l → m.tithed = true →
        let r := read.relaxWindow l exact
        Happens (.mmaSetCompletion op) s (gone (set m (r.1.countTithe g.ctx 1 (if r.2 = exact then 0 else 1) 0) exact)))) ∧
    (∀ a, o.kind = .acc a →
      (a.form = .load → Happens (.accOpCompletion op) s (gone ((s.readOperand o a.operand).updTile o.gid a.tile fun t =>
        { t.putWindow (32 * a.rb) (32 * a.cb) (a.loadWindow g) with pending := t.pending - 1 }))) ∧
      (a.form = .store → Happens (.accOpCompletion op) s (gone ((s.updGroup o.gid (a.storeWindow (g.tile a.tile))).updTile o.gid a.tile fun t =>
        { t with pending := t.pending - 1 }))) ∧
      (∀ r : State × List (List Word), a.form = .fold → (a.relaxed = none → r = (s, a.folded (g.tile a.tile) (g.tile a.other))) →
        (∀ l, a.relaxed = some l → r = s.relaxWindow l (a.folded (g.tile a.tile) (g.tile a.other))) → Happens (.accOpCompletion op) s
        (gone ((r.1.updTile o.gid a.tile fun t => { t.putWindow 0 0 r.2 with pending := t.pending - 1 }).updTile
          o.gid a.other fun t => { t with elems := [], opened := false, pending := t.pending - 1 }))) ∧
      (a.form = .quantise → Happens (.accOpCompletion op) s
        (gone (((s.updGroup o.gid (a.quantised (g.tile a.tile) (g.tile (a.tile + 1)))).updTile o.gid a.tile
          fun t => { t with pending := t.pending - 1 }).updTile o.gid (a.tile + 1) fun t => { t with pending := t.pending - 1 })))) ∧
    (∀ vs p, o.kind = .value vs p → Happens (.accOpCompletion op) s ((s.endOp op).landDsts o.thread o.gid o.dst vs)) ∧
    (∀ t vs, o.kind = .tile t → s.view g.ctx t.slot = some vs → (s.bridgeStopped = true → dieOf o.core ≠ 1) → g.spPoisoned t.base 4096 = false →
      (s.now : Int) ≤ vs.deadline t.frame t.strip → vs.deadNo ≤ t.frame * vs.strips + t.strip →
      let read := s.readScratch o o.gid t.base 4096
      Happens (.tileWriteCompletion op) s ((({ read with
        scanout := setBytes read.scanout (vs.tileAt t.frame t.view t.strip t.col) (g.spRead t.base 4096) } : State).updView g.ctx t.slot fun v =>
          { v with done := if v.done.contains (t.frame, t.view, t.strip, t.col) then v.done else v.done ++ [(t.frame, t.view, t.strip, t.col)] }).complete
            op o [0] |>.progress g.ctx)) ∧
    (∀ t v, o.kind = .trav t → s.lanesOf [o.thread] = some [v] → s.rayAwaits o.thread = false →
      let ray := Ray.of t.start
      let went := ray.run v { s := s, buf := v.th.peerBuf, poison := none, halt := none } t.resume t.report
      let landed (p : Option Nat) (u : State) : State := match p with
        | some a => u.poisonLanded o.thread a
        | none => u
      let ends (u : State) (n : Nat) (p : Option Nat) : State :=
        ((landed p (((u.endOp op).retireEntries op).landDsts o.thread o.gid o.dst [word n])).retire o.thread).groupProgress o.gid
      (ray.live = false → Happens (.traversalCompletion op) s (ends s 5 none)) ∧
      (ray.live = true → ray.susp ≠ t.resume → Happens (.traversalCompletion op) s (ends s 6 none)) ∧
      (∀ out n, ray.live = true → ray.susp = t.resume → went.1.halt = none → went.2 = some (out, n) →
        Happens (.traversalCompletion op) s (ends (went.1.s.spWrite o.gid t.block (out.bytes t.start)) n went.1.poison)) ∧
      (∀ va n, ray.live = true → ray.susp = t.resume → went.1.halt = some (.miss va n) →
        Happens (.traversalCompletion op) s (went.1.s.sendMiss v.core v.g.ctx va
          { thread := v.key, unit := dataUnit v.core (quadOf v.key), kind := .ray, va := va, size := n, pc := v.th.pc, ordered := false, kept := none })))

/-- R83, R268: where no choice of the context is forced, a message that arrives at its port joins the overflow queue, or goes to the oldest posted receive
that matches, a RECVW going on with it; one for a group that is gone is dropped and counted. A TLW that waits looks at its word again: once it is at
least n the core's load cache is invalidated and the thread goes on. -/
def Obligations.Arrivals : Prop :=
  ∀ (s : State),
    (∀ (id gid : Nat) (m : Msg) (wid : DWord), Store.get s.mail id = some (gid, m, wid) →
      (∀ e ∈ s.mail, e.1 < id → e.2.1 = gid → e.2.2.2 = wid → e.2.2.1.sender ≠ m.sender) →
      let taken : State := { s with mail := Store.del s.mail id }
      (s.group gid = none → (∀ v ∈ s.saved, v.gid ≠ gid) → Happens (.messageArrival id) s { taken with mailDrops := satAdd s.mailDrops 1 }) ∧
      (∀ g, s.group gid = some g → s.mode g.ctx < 2 → (∀ p ∈ g.posts, p.tag ≠ m.tag ∧ p.tag ≠ 0xFFFF) → g.msgs.length < 64 →
        Happens (.messageArrival id) s (taken.updGroup gid fun g => { g with msgs := g.msgs ++ [(m, wid)] })) ∧
      (∀ g before p after, s.group gid = some g → s.mode g.ctx < 2 → g.posts = before ++ p :: after → (p.tag = m.tag ∨ p.tag = 0xFFFF) →
        (∀ q ∈ before, q.tag ≠ m.tag ∧ q.tag ≠ 0xFFFF) →
        let u := (taken.updGroup gid fun g => { g with posts := before ++ after }).deliverMsg p gid m wid
        Happens (.messageArrival id) s (if p.from?.isSome then u.retire p.thread else u))) ∧
    (∀ (v : Lane) (a n : Nat) (host : Bool), s.lanesOf [v.key] = some [v] →
      (∀ t, v.th.st = .waiting (.word a n host false none) → v.page s a .load = some t → t.peer = none →
        let r := s.performLoad v.core v.g.ctx v.key v.th.pc t 8 true
        r.2.2 = none → n ≤ ofBytes r.2.1 → Happens (.tlwChangeNoticed v.key) s ((r.1.invalidateCache v.core).retire v.key)) ∧
      (v.th.st = .waiting (.word a n host true none) → s.inputs.peer.data.length = 8 → n ≤ ofBytes s.inputs.peer.data →
        Happens (.tlwChangeNoticed v.key) s ((s.invalidateCache v.core).retire v.key)) ∧
      (∀ p, v.th.st = .waiting (.word a n host true (some p)) → s.inputs.peer.data.length = 8 →
        let ok := decide (n ≤ ofBytes s.inputs.peer.data)
        Happens (.tlwChangeNoticed v.key) s
          ((((if ok then s.invalidateCache v.core else s)).updThread v.key fun th => th.setPred p ok).retire v.key)))

/-- R74, R119, R131, R209, R214, R378: where no choice of the context is forced, a blocked pop takes the oldest handle; the first claim of a launch gets
the next tile, or the count; a draining thread with nothing pending frees, or leaves the thresher slot; a group that is done ends with a fencing release,
and its gang with it when no group of the gang is left; the thresher slot issues for the group that it serves while a thread of it is left, or begins the
one placed first. -/
def Obligations.ThreadAndGroupEvents : Prop :=
  ∀ (s : State),
    (∀ (key n h : Nat) (filled : Bool) (dst : Dst) (th : Thread) (g : Group) (q : Queue) (rest : List Nat), Store.get s.threads key = some th →
      th.st = .waiting (.pop n filled dst) → s.group th.gid = some g → Store.get g.queues n = some q → s.mode g.ctx < 2 →
      s.firstPopper th.gid n filled = some key → (if filled then q.filled else q.free) = h :: rest →
      let took := s.updGroup th.gid fun g => { g with queues := Store.upd g.queues n fun q =>
        { q with free := if filled then q.free else q.free.filter (· != h), filled := if filled then q.filled.filter (· != h) else q.filled,
                 slots := q.slots.set h .held } }
      let given := (took.putDst key th.gid dst (word h)).progress g.ctx
      let gave := if n = 0 ∧ filled = false then given.notePush th.gid else given
      Happens (.blockedPopRelease key) s ((if filled then gave.invalidateCache (coreOf key) else gave).retire key)) ∧
    (∀ (c : Claim) (th : Thread) (l : Launch), Store.get s.threads c.thread = some th → Store.get s.launches c.launch = some l → s.mode l.ctx < 2 →
      s.claims.find? (fun d => d.thread == c.thread) = some c → s.claims.find? (fun d => d.launch == c.launch) = some c →
      let n := min l.walker l.tiles
      let served : State := { s with
        claims := s.claims.filter fun d => d.thread != c.thread
        launches := Store.put s.launches c.launch { l with walker := if n < l.tiles then n + 1 else l.walker } }
      Happens (.twnxAnswer c.thread) s
        (((served.updThread c.thread fun th => th.setPred c.pred (decide (n < l.tiles))).putDsts c.thread th.gid c.dst (wordsOf 2 n)).retire c.thread)) ∧
    (∀ (key : Nat) (th : Thread), Store.get s.threads key = some th → th.st = .draining → th.pend = [] → th.kept = [] → s.fencing key = false →
      Happens (.threadDrainEnd key) s (if isThresher key then { s with threads := Store.del s.threads key } else { s with
        threads := Store.del s.threads key
        groups := Store.upd s.groups th.gid fun g => { g with live := g.live - 1 } })) ∧
    (∀ (gid : Nat) (g : Group), s.group gid = some g → g.live = 0 → (∀ e ∈ s.ops, e.2.gid ≠ gid) → s.thresherQuiet gid g = true →
      s.passDue = false → s.aborted g = false → Happens (.groupCompletion gid) s (((s.drainAll.dropGroup gid).progress g.ctx).finishGang g.launch g.gang)) ∧
    (∀ (core : Nat) (th : Thread) (g : Group), Store.get s.thresher core = some th.gid → Store.get s.threads (thresherKey core) = some th →
      s.group th.gid = some g → th.mayIssue s.moves = true → s.running g = true → 0 < g.live → s.periodDue = false →
      exec (.thresherIssue core) s = .next { s with gather := some { core := core, quad := 0, lanes := [thresherKey core] }, armed := true }) ∧
    (∀ (core gid entry len : Nat) (g : Group), Store.get s.thresher core = none → s.nextServed core = some (gid, g) → s.group gid = some g →
      g.thr = some (entry, len) → s.running g = true → 0 < g.live → s.periodDue = false →
      exec (.thresherIssue core) s = .next { s with
        thresher := Store.put s.thresher core gid
        threads := Store.put s.threads (thresherKey core) (thresherThread gid entry s.now)
        gather := some { core := core, quad := 0, lanes := [thresherKey core] }
        armed := true })

/-- R304, R335, R340 to R342, R405: an amplifier drops the oldest meshlet of its core when its header breaks a rule, and else hands its snapped primitives
to its die's engines in ascending primitive and view, counting the dropped ones; the engines test their oldest primitive against its next strip, and
deliver its records; a record takes a slot of q0 of the group that its route names, or waits for one, or is discarded when it is stale; it is written
and pushed once no scoreboard entry stands over its slot. -/
def Obligations.RasterEvents : Prop :=
  ∀ (s : State),
    (∀ (core : Nat) (m : Meshlet) (rest : List Meshlet) (vs : ViewSet), Store.rd [] s.amplifier core = m :: rest → s.view m.ctx m.slot = some vs →
      let taken : State := { s with amplifier := Store.wr [] s.amplifier core rest }
      let count (n : Nat) : State := taken.updView m.ctx m.slot fun v => { v with pdrop := satAdd v.pdrop n }
      let all := (List.range (field m.bytes 2 2)).flatMap fun i =>
        ((List.range 8).filter fun n => m.mask.testBit n).map fun n => (i, n, m.prim vs n i)
      let kept : List Prim := all.filterMap fun p => p.2.2.map fun pts =>
        { die := dieOf core, ctx := m.ctx, slot := m.slot, view := p.2.1, meshlet := word (field m.bytes 12 4), index := p.1, pts := pts, strip := 0 }
      (headerBad m.bytes = true → Happens (.amplifyProject core) s (count 1)) ∧
      (headerBad m.bytes = false → Happens (.amplifyProject core) s
        { count (all.length - kept.length) with prims := s.prims ++ kept })) ∧
    (∀ (die : Nat) (p : Prim) (before after : List Prim) (vs : ViewSet) (l : Latch), s.prims = before ++ p :: after → p.die = die →
      (∀ q ∈ before, q.die ≠ die) → s.view p.ctx p.slot = some vs → Store.get vs.latches p.strip = some l →
      Happens (.rasterTest die) s { s with
        prims := before ++ (if p.strip + 1 < vs.strips then [{ p with strip := p.strip + 1 }] else []) ++ after
        covers := s.covers ++ p.records vs l p.strip }) ∧
    (∀ (die gid : Nat) (c : Cover) (before after : List Cover) (vs : ViewSet), s.covers = before ++ c :: after → c.die = die →
      (∀ q ∈ before, q.die ≠ die) → s.view c.ctx c.slot = some vs → (∃ r ∈ vs.routes, r.frame = c.frame ∧ r.strip = c.strip) →
      s.coverTarget c = some gid → c.taken = none →
      let left (u : State) : State := { u with covers := before ++ after }
      (s.coverStale vs c gid = true → Happens (.coverageDelivery die) s
        ((left (s.updView c.ctx c.slot fun v => { v with late := satAdd v.late 1 })).releaseLeaving c.ctx)) ∧
      (∀ g q h rest, s.coverStale vs c gid = false → s.group gid = some g → Store.get g.queues 0 = some q → q.free = h :: rest →
        (∀ e ∈ q.engines, e.slot ≠ none) →
        let q1 := { q with free := rest, slots := q.slots.set h .engine, engines := q.engines ++ [⟨s.nextOp, some h, false⟩] }
        Happens (.coverageDelivery die) s { s with
          groups := Store.put s.groups gid { g with queues := Store.put g.queues 0 q1 }
          nextOp := s.nextOp + 1
          covers := before ++ { c with taken := some (gid, h, s.nextOp) } :: after }) ∧
      (∀ g q, s.coverStale vs c gid = false → s.group gid = some g → Store.get g.queues 0 = some q → q.free = [] → gid ∉ s.pushWaited →
        Happens (.coverageDelivery die) s { s with pushWaited := insertNat gid s.pushWaited })) ∧
    (∀ (die gid h op : Nat) (c : Cover) (before after : List Cover) (g : Group) (q : Queue), s.covers = before ++ c :: after → c.die = die →
      (∀ q ∈ before, q.die ≠ die) → c.taken = some (gid, h, op) → s.group gid = some g → Store.get g.queues 0 = some q →
      let a := q.base + h * q.size
      let meets (e : SbEntry) : Prop := e.core = g.core ∧ e.empty = false ∧ overlaps e.lo e.hi (g.pool a) (g.pool (a + q.size - 1)) = true
      ((∀ e ∈ s.board, ¬ meets e) → Happens (.coverageDelivery die) s
        (let g1 := { g.spWrite a c.bytes with queues := Store.put g.queues 0 (q.finish op) }
         (State.progress { s with covers := before ++ after, groups := Store.put s.groups gid g1 } c.ctx).releaseLeaving c.ctx)) ∧
      ((∃ e ∈ s.board, meets e) → exec (.coverageDelivery die) s = .next s))

/-- R21, R337 to R339, R346 to R352, R470: a strip is latched at its time; a strip complete at its deadline is shown, and one that is not is missed, and
its rows come from the frame before; a row leaves at its time once every deadline up to it is served; a burst that fails four retries is counted; a gaze
sample ahead of the register replaces it; a reservation asks gangs to stop before its window, holds its cores through it, pre-empting what is still there within 6 µs, and lets them go. -/
def Obligations.DisplayEvents : Prop :=
  ∀ (s : State) (ctx slot : Nat) (v : ViewSet), s.view ctx slot = some v →
    let f := v.latchNo / v.strips
    let n := v.latchNo % v.strips
    let gaze := s.readGaze ctx slot v
    let yb := if n = 0 then breakpoints v.ey (v.template 0 1) gaze.2.2 else v.yBreaks f
    let latch : Latch := { frame := f, clock := (v.latchTime f n).toNat, gx := gaze.2.1, gy := gaze.2.2, yb := yb,
                           xb := (List.range v.nview).map fun i => breakpoints v.ex (v.template i 0) gaze.2.1 }
    let written : State := { gaze.1 with scanout := v.writeRecords latch n gaze.1.scanout }
    let latched : State := written.updView ctx slot fun w => { w with
      latches := Store.put w.latches n latch
      old := Store.put w.old n (((Store.get w.latches n).toList ++ (Store.get w.old n).getD []).take 2)
      latchNo := w.latchNo + 1
      yframes := (if n = 0 then Store.put w.yframes f yb else w.yframes).filter fun e => decide (f < e.1 + 2)
      routes := (w.routes.filter fun r => decide (f < r.frame + 2) || written.covers.any fun c =>
        c.ctx == ctx && c.slot == slot && c.frame == r.frame && c.strip == r.strip) ++ written.routesFor ctx f n
      done := w.done.filter fun d => decide (f < d.1 + 2)
      serq := w.serq.filter fun q => decide (f < q.1 + 2) }
    let d := v.deadNo % v.strips
    let hold := s.holdCores v 0 ++ s.holdCores v 1
    ((v.latchTime f n) ≤ s.now → Happens (.stripLatch ctx slot) s ((latched.latchWaiters ctx slot).foldl
      (fun u k => u.updThread k fun th => { th with st := .ready, since := u.now }) latched)) ∧
    (v.deadNo < v.latchNo → v.deadline (v.deadNo / v.strips) d < s.now → v.deadline (v.deadNo / v.strips) d ≤ v.rowTime (v.row / v.ey) (v.row % v.ey) →
      (∀ l, Store.get v.latches d = some l → v.complete (v.deadNo / v.strips) d = true → Happens (.stripDeadline ctx slot) s
        ((s.updView ctx slot fun w => { w with deadNo := w.deadNo + 1, shown := Store.put w.shown d l }).releaseLeaving ctx)) ∧
      (v.complete (v.deadNo / v.strips) d = false → Happens (.stripDeadline ctx slot) s
        ((s.updView ctx slot fun w => { w with
          deadNo := w.deadNo + 1
          miss := satAdd w.miss 1
          shown := match if v.first < v.deadNo / v.strips then v.latchAt (v.deadNo / v.strips - 1) d else none with
            | some l => Store.put w.shown d l
            | none => w.shown }).releaseLeaving ctx))) ∧
    (v.rowTime (v.row / v.ey) (v.row % v.ey) ≤ s.now → v.rowTime (v.row / v.ey) (v.row % v.ey) < v.deadline (v.deadNo / v.strips) d →
      Happens (.displayRowEmit ctx slot) s ((s.emitRow slot v (v.row / v.ey) (v.row % v.ey)).updView ctx slot fun w => { w with row := w.row + 1 })) ∧
    (∀ k, 4 ≤ k → Happens (.scanoutBurstRetry ctx slot k) s (s.updView ctx slot fun w => { w with derr := satAdd w.derr 1 })) ∧
    (∀ t key, s.listens → s.gazeTarget t slot = some key → field s.inputs.gaze 0 1 = t → field s.inputs.gaze 1 1 = slot → s.inputs.gaze.length = 20 →
      field s.inputs.gaze 2 2 = field (s.tenant t).gazeKey 0 2 → zeros s.inputs.gaze 16 20 = true →
      Happens .gazeFrame s { s with views := Store.upd s.views key fun w =>
        if w.gsrc = 0 ∧ 1 ≤ (word (field s.inputs.gaze 4 4) - w.q).toNat ∧ (word (field s.inputs.gaze 4 4) - w.q).toNat < 2 ^ 31 then
          { w with q := word (field s.inputs.gaze 4 4), gx := word (field s.inputs.gaze 8 4), gy := word (field s.inputs.gaze 12 4) }
        else { w with gdrop := satAdd w.gdrop 1 } }) ∧
    (v.inWindow = false → v.stopSent = false → v.latchTime v.window 0 ≤ (s.now : Int) + 27500 → Happens (.reservationStopRequest ctx slot) s
      ((s.updView ctx slot fun w => { w with held := hold, stopSent := true }).clearCores ctx hold (s.now + 27500))) ∧
    (v.inWindow = false → v.latchTime v.window 0 ≤ s.now → Happens (.scanoutWindowStart ctx slot) s
      ((s.updView ctx slot fun w => { w with
        held := hold, inWindow := true, stopSent := true
        rshort := if (s.holdCores v 0).length < v.res ∨ (s.holdCores v 1).length < v.res then satAdd w.rshort 1 else w.rshort }).clearCores ctx hold
          (min (s.now + 27500) (v.latchTime v.window 0 + 6600).toNat))) ∧
    (v.inWindow = true → v.deadline v.window (v.strips - 1) + 55000 ≤ s.now → (v.window + 1) * v.strips ≤ v.latchNo →
      s.now < v.latchTime (v.window + 1) 0 → Happens (.scanoutWindowEnd ctx slot) s
        (s.updView ctx slot fun w => { w with window := w.window + 1, inWindow := false, held := [], stopSent := false }))

/-- R333, R351, R472: a bind whose descriptor and view records can be read and keep their rules binds the set at its first frame; an unbind ends the
set once no tile of it is in flight, and else waits; a status command stores the six counters, and clears them when it is asked to. Each is refused
with status 3 when its context is not loaded or its slot is not in the state that it needs. -/
def Obligations.ViewSetCommands : Prop :=
  ∀ (s : State) (c : Cmd),
    let slot := c.at' 8 1
    let loaded := s.ctxReady c (· != .free) = true
    (s.commanded 0x0C c → slot < 4 → c.at' 9 1 < 16 → zeros c.bytes 10 16 = true → c.at' 16 8 % 64 = 0 → zeros c.bytes 24 64 = true →
      ∀ u v, s.readSet c = (u, some v, true, false) → v.descOk = true → v.areaOk = true → v.linkOk = true → (∀ n < v.nview, v.recordOk n = true) →
        (v.gsrc = 1 → ((u.tenant c.tenant).window v.mwin).getLsbD 0 = true ∧ ((u.tenant c.tenant).window v.mwin).getLsbD 1 = true ∧
          v.moff + 8 ≤ windowLen ((u.tenant c.tenant).window v.mwin)) →
        (u.ctxReady c (· != .free) = true → u.view c.ctx slot = none →
          (∀ e ∈ u.views, v.overlapsSet e.2 = false ∧ (v.out = 2 ∨ e.2.out ≠ v.out)) →
          Happens .viewSetBind s (({ u with views := Store.put u.views (4 * c.ctx + slot) (v.started u.now) } : State).finishRecord c 0)) ∧
        (u.ctxReady c (· != .free) = false ∨ u.view c.ctx slot ≠ none ∨ (∃ e ∈ u.views, v.overlapsSet e.2 = true ∨ (v.out ≠ 2 ∧ e.2.out = v.out)) →
          Happens .viewSetBind s (u.finishRecord c 3))) ∧
    (s.commanded 0x0C c → slot < 4 → c.at' 9 1 < 16 → zeros c.bytes 10 16 = true → c.at' 16 8 % 64 = 0 → zeros c.bytes 24 64 = true →
      ∀ u v, s.readSet c = (u, some v, false, false) → v.descOk = true → v.areaOk = true → v.linkOk = true →
        (v.gsrc = 1 → v.moff + 8 ≤ windowLen ((u.tenant c.tenant).window v.mwin)) →
        Happens .viewSetBind s (u.finishRecord c (if u.ctxReady c (· != .free) = false ∨ u.view c.ctx slot ≠ none ∨
          (∃ e ∈ u.views, v.overlapsSet e.2 = true ∨ (v.out ≠ 2 ∧ e.2.out = v.out)) then 3 else 4))) ∧
    (s.commanded 0x0D c → slot < 4 → zeros c.bytes 9 64 = true →
      (∀ v, loaded → s.view c.ctx slot = some v → (v.unbind = none ∨ v.unbind = some c) →
        (s.viewQuiet c.ctx slot = true → Happens .viewSetUnbind s (((s.unbindView c.ctx slot).releaseLeaving c.ctx).finishRecord c 0)) ∧
        (s.viewQuiet c.ctx slot = false → Happens .viewSetUnbind s (s.updView c.ctx slot fun w => { w with unbind := some c }))) ∧
      (¬ loaded ∨ s.view c.ctx slot = none → Happens .viewSetUnbind s (s.finishRecord c 3))) ∧
    (s.commanded 0x0F c → slot < 4 → c.at' 9 1 ≤ 1 → zeros c.bytes 10 16 = true → c.at' 16 1 < 16 → zeros c.bytes 17 24 = true →
      c.at' 24 8 % 8 = 0 → zeros c.bytes 32 64 = true →
      (∀ v a, loaded → s.view c.ctx slot = some v → s.windowAddr c.tenant (c.at' 16 1) 3 (c.at' 24 8) 24 = some a →
        let stored := s.rawWrite a ([v.miss, v.pdrop, v.gdrop, v.derr, v.rshort, v.late].flatMap fun w => toBytes 4 w.toNat)
        Happens .viewSetStatus s ((if c.at' 9 1 = 1 then stored.updView c.ctx slot fun w =>
          { w with miss := 0, pdrop := 0, gdrop := 0, derr := 0, rshort := 0, late := 0 } else stored).finishRecord c 0)) ∧
      (¬ loaded ∨ s.view c.ctx slot = none → Happens .viewSetStatus s (s.finishRecord c 3)))

/-- R385 to R387, R389, R394: a change of WIDX takes the next record of the queue: RIDX is written and the record is in progress; one that breaks a
rule of the header ends with its status, a LAUNCH or RELAY is next, and another starts or waits. A RELAY of a context of its tenant occupies its
node. -/
def Obligations.CommandQueues : Prop :=
  ∀ (s : State),
    (∀ (t q : Nat) (v : CmdQ), s.cmdQ t q = some v → (s.rawRead v.ctrl 8).2.2 = false → v.ridx < ofBytes (s.rawRead v.ctrl 8).2.1 →
      ofBytes (s.rawRead v.ctrl 8).2.1 ≤ v.ridx + 2 ^ v.k →
      let a := v.base + 64 * (v.ridx % 2 ^ v.k)
      let r := (s.rawRead v.ctrl 8).1.rawRead a 64
      let c : Cmd := { tenant := t, queue := q, index := v.ridx, bytes := r.2.1 }
      let taken := (r.1.rawWrite (v.ctrl + 8) (toBytes 8 (v.ridx + 1))).updCmdQ t q fun v => { v with ridx := v.ridx + 1, running := v.running ++ [v.ridx] }
      (r.2.2 = true → Happens (.widxNotice t q) s ((taken.countPoison a 64 0xFFFF (taken.ownedCtx c) none 0).finishRecord c 4)) ∧
      (r.2.2 = false → c.headerStatus ≠ 0 → Happens (.widxNotice t q) s (taken.finishRecord c c.headerStatus)) ∧
      (∀ i, r.2.2 = false → c.headerStatus = 0 → c.opc ≤ 2 → decodeRecord c.bytes = some i →
        Happens (.widxNotice t q) s { taken with agenda := taken.agenda ++ [(i, { taken.inputs with record := c })] }) ∧
      (r.2.2 = false → c.headerStatus = 0 → 2 < c.opc → Happens (.widxNotice t q) s (taken.enterRecord c))) ∧
    (∀ (t q : Nat) (v : CmdQ), s.cmdQ t q = some v → (s.rawRead v.ctrl 8).2.2 = false →
      v.ridx + 2 ^ v.k < ofBytes (s.rawRead v.ctrl 8).2.1 →
      let w := ofBytes (s.rawRead v.ctrl 8).2.1
      let lapped := (s.rawRead v.ctrl 8).1.lapQueue t q v w
      ∀ v', lapped.cmdQ t q = some v' → Happens (.widxNotice t q) s (lapped.takeRecord t q v')) ∧
    (∀ c, s.commanded 2 c → zeros c.bytes 16 64 = true → s.ownsCtx c.tenant c.ctx = false → Happens .relay s (s.finishRecord c 3)) ∧
    (∀ c, s.commanded 2 c → zeros c.bytes 16 64 = true → s.ownsCtx c.tenant c.ctx = true →
      (c.graph = false → Happens .relay s (s.enterRecord c)) ∧
      (c.graph = true → s.ownsNode c.tenant c.node = true → Store.get s.nodes c.node = none → Happens .relay s
        (({ s with nodes := Store.put s.nodes c.node { counter := c.pred, record := c } } : State).enterRecord c)) ∧
      (c.graph = true → (s.ownsNode c.tenant c.node = false ∨ Store.get s.nodes c.node ≠ none) → Happens .relay s (s.finishRecord c 5)))

/-- R389 to R396, R403, R405, R408: a LAUNCH whose header and arguments can be read and break no rule is a launch with its node, and starts or
waits; a launch all of whose gangs have ended ends with a fencing release, its node's successors and its record; PIPE declares a pipeline; a placement
pass tries every candidate in order, and a gang that fits is placed; a pipeline's period makes its move. -/
def Obligations.Launches : Prop :=
  ∀ (s : State),
    (∀ c, s.commanded 1 c → launchBodyOk c = true →
      let h := State.readVirtual 2 s c.ctx (c.at' 8 8) 512 s.inputs.peer.data
      let a := State.readVirtual 3 h.1 c.ctx (c.at' 16 8) (4 * c.at' 24 2) (s.inputs.peer.data.drop 512)
      (s.ctxReady c (· != .free) = false → Happens .launch s (s.finishRecord c 3)) ∧
      (s.ctxReady c (· != .free) = true → (h.2 = none ∨ a.2 = none) → Happens .launch s (a.1.finishRecord c 4)) ∧
      (∀ hb ab, s.ctxReady c (· != .free) = true → h.2 = some hb → a.2 = some ab →
        let l := launchOf a.1 c hb ab
        let put : State := { a.1 with launches := Store.put a.1.launches (Store.free 0 a.1.launches) l }
        (a.1.launchStatus c l ≠ 0 → Happens .launch s (a.1.finishRecord c (a.1.launchStatus c l))) ∧
        (a.1.launchStatus c l = 0 → c.graph = false → Happens .launch s (put.enterRecord c)) ∧
        (a.1.launchStatus c l = 0 → c.graph = true → Happens .launch s
          (({ put with nodes := Store.put put.nodes c.node { counter := c.pred, record := c } } : State).enterRecord c)))) ∧
    (∀ key l, Store.get s.launches key = some l → l.ready ≠ none → l.finished = l.gangs →
      Happens (.launchCompletion key) s
        (((({ s.drainAll with launches := Store.del s.launches key } : State).closeNode l.record).restCtx l.ctx).finishRecord l.record l.status)) ∧
    (∀ c x, s.commanded 9 c → pipeBodyOk c = true → s.ownsCtx c.tenant c.ctx = true → Store.get s.ctxs c.ctx = some x → x.st ≠ .free →
      let p : Pipe :=
        { gfx := (c.at' 10 1).testBit 0, mins := (List.range (c.at' 9 1)).map fun i => c.at' (16 + 2 * i) 1,
          maxs := (List.range (c.at' 9 1)).map fun i => c.at' (17 + 2 * i) 1, targets := (List.range (c.at' 9 1)).map fun i => c.at' (16 + 2 * i) 1,
          since := s.now, period := 0 }
      let clash := s.stageBusy c.ctx (c.at' 8 1) none = true ∨ (p.gfx = true ∧ ∃ q ∈ x.pipes, q.1 ≠ c.at' 8 1 ∧ q.2.gfx = true)
      (¬ clash → Happens .pipe s ((s.updCtx c.ctx fun x => { x with pipes := Store.put x.pipes (c.at' 8 1) p }).finishRecord c 0)) ∧
      (clash → Happens .pipe s (s.finishRecord c 3))) ∧
    (s.passDue = true → Happens .placementPass s { s.candidates.foldl (fun u k => u.tryGang k) s with passNo := (s.now - s.epoch) / 110 }) ∧
    (∀ key l gang spots x, s.ready = true → s.passNo < (s.now - s.epoch) / 110 → s.candidates = [key] → Store.get s.launches key = some l →
      l.gangSize ≤ s.widestRegion → s.nextGang key l = some gang → Store.rd 0 l.passes gang < 200 → s.savedGang key gang = [] → s.chooseSpots key l gang = some spots → Store.get s.ctxs l.ctx = some x → x.st = .active →
      let placed := spots.zipIdx.foldl (fun u p => u.placeNew key l gang p.2 p.1) s
      Happens .placementPass s { placed with
        launches := Store.put placed.launches key 
          { l with next := l.next + 1, passes := Store.del l.passes gang, claims := Store.del l.claims gang }
        passNo := (s.now - s.epoch) / 110 }) ∧
    (∀ ctx slot x p, Store.get s.ctxs ctx = some x → Store.get x.pipes slot = some p → x.mode < 2 → p.since + 17600 * (p.period + 1) ≤ s.now →
      let ended (u : State) : State := (u.clearWaited ctx slot).updCtx ctx fun c =>
        { c with pipes := Store.upd c.pipes slot fun p => { p with period := p.period + 1 } }
      (s.stageMove ctx slot p = none → Happens (.balancePeriod ctx slot) s (ended s)) ∧
      (∀ lose gain, s.stageMove ctx slot p = some (lose, gain) → Happens (.balancePeriod ctx slot) s (ended (s.moveStage ctx slot p (lose, gain)))))

/-- R276, R389, R477, R478: a collective command whose body breaks no rule runs as an operation of its context; a collective that every rank
reaches, and whose inputs have come, moves its chunks and ends with the status of its first failure, and one that is cut off ends with code 6. -/
def Obligations.Collectives : Prop :=
  ∀ (s : State),
    (∀ c, s.commanded 0x0E c → (Coll.of c.bytes).bad c.bytes = false →
      (s.ctxReady c (· != .free) = true → Happens .collective s { s with
        ops := Store.put s.ops s.nextOp { thread := 0xFFFFFFFF, gid := 0, core := 0, pc := 0, dst := [], tc := none,
                                          kind := .coll { desc := c.bytes, fail := none, record := some c, ctx := c.ctx } }
        nextOp := s.nextOp + 1 }) ∧
      (s.ctxReady c (· != .free) = false → Happens .collective s (s.finishRecord c 3))) ∧
    (∀ (op : Nat) (o : AOp) (k : CollOp) (inputs : List (List Byte)), Store.get s.ops op = some o → o.kind = .coll k →
      (k.record = none → s.group o.gid ≠ none) →
      let c := Coll.of k.desc
      let l := State.collRead (pageFuel (2 * c.nrank)) s (dieOf o.core) k.ctx c.mlist (2 * c.nrank) s.inputs.peer.data
      (∀ f, k.fail = some f → Happens (.collectiveCompletion op inputs) s (s.failColl op o k f)) ∧
      (∀ f, k.fail = none → l.2.1 = .failed f → Happens (.collectiveCompletion op inputs) s (l.1.failColl op o k f)) ∧
      (∀ list, k.fail = none → l.2.1 = .bytes list →
        let other (r : Nat) : Prop := r < c.nrank ∧ r ≠ c.rank
        let run := c.chunks.foldl (fun (r : CollRun) p => if r.waits then r else r.chunk (dieOf o.core) k.ctx c inputs p)
          { s := l.1, peer := l.2.2, index := 0, fails := [], waits := false }
        ((∃ r, other r ∧ l.1.reachable (field list (2 * r) 2) = false) → Happens (.collectiveCompletion op inputs) s
          (l.1.collEnd op o k 6 0 c.chunks.length)) ∧
        ((∀ r, other r → l.1.reachable (field list (2 * r) 2) = true) → l.1.inputs.code = 0 → inputs.length = c.nrank - 1 →
          (∀ i ∈ inputs, i.length = c.inLen) → run.waits = false →
          (run.fails = [] → Happens (.collectiveCompletion op inputs) s (run.s.collEnd op o k 0 0 0)) ∧
          (∀ f fs, run.fails = f :: fs → Happens (.collectiveCompletion op inputs) s
            ((run.s.collRecord o k run.fails).collEnd op o k f.2.code f.1 (fs.length + 1))))))

/-- R63, R397 to R399: CTXLOAD reads a 256-byte image that keeps its rules into an Idle context; CTXUPD writes the fields that its mask selects; CTXSAVE saves
a context with nothing on the cores at once and asks an Active one to stop; CTXRES begins a restore; CTXDISC discards; the metadata commands copy codes
between a buffer and the blocks. A context in a state that the command does not allow gives status 3. -/
def Obligations.ContextCommands : Prop :=
  ∀ (s : State) (c : Cmd),
    let empty := zeros c.bytes 8 64 = true
    let n := c.at' 16 8
    let shape := c.at' 8 8 % 256 = 0 ∧ 1 ≤ n ∧ n ≤ 2 ^ 32 ∧ c.at' 24 1 < 16 ∧ c.at' 25 1 < 16 ∧ zeros c.bytes 26 32 = true ∧ zeros c.bytes 40 64 = true
    (s.commanded 3 c → zeros c.bytes 9 16 = true → zeros c.bytes 24 64 = true → c.at' 8 1 < 16 →
      (∀ a, s.ownsCtx c.tenant c.ctx = true → Store.get s.ctxs c.ctx = none → s.windowAddr c.tenant (c.at' 8 1) 2 (c.at' 16 8) 256 = some a →
        let r := s.rawRead a 256
        let x := ctxOfImage c.tenant s.now r.2.1
        (r.2.2 = true → Happens .ctxload s ((r.1.countPoison a 256 0xFFFF c.ctx none 0).finishRecord c 4)) ∧
        (r.2.2 = false → x.fieldsOk = true → zeros r.2.1 2 8 = true → zeros r.2.1 64 256 = true → Happens .ctxload s
          ((({ r.1 with ctxs := Store.put r.1.ctxs c.ctx x } : State).openLog c.ctx).finishRecord c 0)) ∧
        (r.2.2 = false → x.fieldsOk = false → Happens .ctxload s (r.1.finishRecord c 2))) ∧
      (s.ownsCtx c.tenant c.ctx = false ∨ Store.get s.ctxs c.ctx ≠ none → Happens .ctxload s (s.finishRecord c 3))) ∧
    (∀ x, s.commanded 4 c → c.at' 8 2 < 512 → zeros c.bytes 10 16 = true → zeros c.bytes 49 64 = true → s.ownsCtx c.tenant c.ctx = true →
      Store.get s.ctxs c.ctx = some x → (x.updated c).fieldsOk = true →
      (c.at' 8 2 < 64 → Happens .ctxupd s ((s.updCtx c.ctx fun x => x.updated c).finishRecord c 0)) ∧
      (64 ≤ c.at' 8 2 → (x.st = .idle ∨ x.st = .saved) → Happens .ctxupd s
        ((if (c.at' 8 2).testBit 6 then (s.updCtx c.ctx fun x => x.updated c).openLog c.ctx else s.updCtx c.ctx fun x => x.updated c).finishRecord c 0)) ∧
      (64 ≤ c.at' 8 2 → x.st ≠ .idle → x.st ≠ .saved → Happens .ctxupd s (s.finishRecord c 3))) ∧
    (∀ x, s.commanded 5 c → empty → s.ownsCtx c.tenant c.ctx = true → Store.get s.ctxs c.ctx = some x →
      ((x.st = .idle ∨ x.st = .saved) → Happens .ctxsave s ((s.updCtx c.ctx fun x => { x with st := .saved }).finishRecord c 0)) ∧
      (x.st = .active → Happens .ctxsave s (s.updCtx c.ctx fun x => { x with
        pendingCmds := x.pendingCmds ++ [c], st := .stopping
        stop := some ((x.stop.map fun d => min d (s.now + 27500)).getD (s.now + 27500)) })) ∧
      (x.st = .restoring → Happens .ctxsave s (s.finishRecord c 3))) ∧
    (∀ x, s.commanded 6 c → empty → s.ownsCtx c.tenant c.ctx = true → Store.get s.ctxs c.ctx = some x →
      (x.st = .saved → Happens .ctxres s (s.updCtx c.ctx fun x => { x with st := .restoring, pendingCmds := x.pendingCmds ++ [c] })) ∧
      (x.st ≠ .saved → Happens .ctxres s (s.finishRecord c 3))) ∧
    (s.commanded 7 c → empty →
      (s.ctxReady c (· != .free) = true → Happens .ctxdisc s ((s.discardCtx c.ctx 3).finishRecord c 0)) ∧
      (s.ctxReady c (· != .free) = false → Happens .ctxdisc s (s.finishRecord c 3))) ∧
    (∀ a b, s.commanded 0x0A c → shape → s.ownsCtx c.tenant c.ctx = true →
      s.windowAddr c.tenant (c.at' 24 1) 2 (c.at' 8 8) (256 * n) = some a → s.windowAddr c.tenant (c.at' 25 1) 3 (c.at' 32 8) (ceilDiv n 2) = some b →
      let u : State := { s.drainAll with lines := s.drainAll.lines.map fun (e : Nat × LineTag) =>
        (e.1, if a / 128 ≤ e.1 && e.1 < a / 128 + 2 * n then { e.2 with dirty := false } else e.2) }
      let code (i : Nat) : Nat := u.code (a + 256 * i)
      (n % 2 = 0 → Happens .metadataExport s
        ((u.rawWrite b ((List.range (n / 2)).map fun i => BitVec.ofNat 8 (code (2 * i) + 16 * code (2 * i + 1)))).finishRecord c 0)) ∧
      (n % 2 = 1 → Happens .metadataExport s ((State.rawWrite { u with nextChoice := u.nextChoice + 1 } b
        ((List.range (n / 2)).map (fun i => BitVec.ofNat 8 (code (2 * i) + 16 * code (2 * i + 1))) ++
          [BitVec.ofNat 8 (code (n - 1) + 16 * ((Config.freeWord u.nextChoice).toNat % 16))])).finishRecord c 0))) ∧
    (∀ a b, s.commanded 0x0B c → shape → s.ownsCtx c.tenant c.ctx = true →
      s.windowAddr c.tenant (c.at' 24 1) 3 (c.at' 8 8) (256 * n) = some a → s.windowAddr c.tenant (c.at' 25 1) 2 (c.at' 32 8) (ceilDiv n 2) = some b →
      let r := s.drainAll.rawRead b (ceilDiv n 2)
      let u := (List.range n).foldl (fun u i => u.setCode (a + 256 * i) ((r.2.1.getD (i / 2) 0).toNat / 16 ^ (i % 2) % 16)) r.1
      (r.2.2 = false → Happens .metadataImport s (({ u with
        lines := Store.clear u.lines (a / 128) (2 * n)
        upsets := u.upsets.filter fun e => !(e.array == .slice && decide (a / 128 ≤ e.addr / 128) && decide (e.addr / 128 < a / 128 + 2 * n)) } : State).finishRecord
          c 0)) ∧
      (r.2.2 = true → Happens .metadataImport s ((r.1.countPoison b (ceilDiv n 2) 0xFFFF (r.1.ownedCtx c) none 0).finishRecord c 4)))

/-- R290, R399 to R402, R422, R427 to R429, R455: a context that is stopping, or a gang that is to stop, begins its save once its groups are at safe
positions, or by force 25 µs after the request; a quiet context is Saved with its image written, or lost with status 8 when the image fails; a restore
makes it Active again; the watchdog stops a context without progress; a replay with an orphaned record diverges. -/
def Obligations.StopsAndSaves : Prop :=
  ∀ (s : State) (ctx : Nat) (c : Ctx), Store.get s.ctxs ctx = some c →
    let mine := s.groups.filter fun e => e.2.ctx == ctx
    let gangs := s.gangStops.filter fun t => ((Store.get s.launches t.launch).map Launch.ctx) == some ctx
    let gang (t : GangStop) := s.groups.filter fun e => e.2.inGang t.launch t.gang
    let quiet (gs : List (Nat × Group)) : Prop := ∀ e ∈ gs, s.keptQuiet e.1 = true ∧ ∀ o ∈ s.ops, o.2.gid = e.1 → o.2.reissued = true
    let safe (gs : List (Nat × Group)) : Prop := ∀ e ∈ gs, s.groupSafe e.1 e.2 = true
    let begin (t : GangStop) (u : State) : State := { u with gangStops := u.gangStops.map fun w => if w == t then { w with saving := true } else w }
    let withdraw (gs : List (Nat × Group)) : State := gs.foldl (fun u e => u.withdrawSignings e.1) s
    let saving (u : State) : State := u.updCtx ctx fun c => { c with st := .saving }
    let judged := (s.threads.filter fun e => !e.2.external && ((s.group e.2.gid).map Group.ctx) == some ctx).length
    (c.st = .stopping → safe mine → Happens (.safePointSave ctx) s (saving s)) ∧
    (∀ t rest, c.st ≠ .stopping → gangs = t :: rest → t.saving = false → safe (gang t) → Happens (.safePointSave ctx) s (begin t s)) ∧
    (∀ d, c.st = .stopping → c.stop = some d → d ≤ s.now → (c.mode ≤ 1 ∨ c.watchdog = true) → Happens (.forcedSave ctx) s (saving (withdraw mine))) ∧
    (∀ t rest, c.st ≠ .stopping → gangs = t :: rest → t.saving = false → t.deadline ≤ s.now → c.mode ≤ 1 →
      Happens (.forcedSave ctx) s (begin t (withdraw (gang t)))) ∧
    (c.st = .saving → quiet mine →
      let left : State := { s with gangStops := s.gangStops.filter fun t => !gangs.contains t }
      let out := left.saveGroups mine
      (∀ u, out.finishSave ctx = (u, true) → Happens (.saveCompletion ctx) s
        ((u.updCtx ctx fun c => { c with st := .saved, stop := none, watchdog := false }).finishPending ctx 5 0)) ∧
      (∀ u, out.finishSave ctx = (u, false) → Happens (.saveCompletion ctx) s u)) ∧
    (∀ t rest, c.st ≠ .saving → gangs = t :: rest → t.saving = true → quiet (gang t) → Happens (.saveCompletion ctx) s
      ((State.saveGroups { s with gangStops := s.gangStops.filter fun w => w != t } (gang t)).finishSave ctx).1) ∧
    (c.st = .restoring → (∃ v ∈ s.saved, v.group.ctx = ctx) →
      Happens (.restoreCompletion ctx) s ((s.updCtx ctx fun c => { c with st := .active, entered := s.now }).finishPending ctx 6 0)) ∧
    (c.st = .restoring → (∀ v ∈ s.saved, v.group.ctx ≠ ctx) →
      Happens (.restoreCompletion ctx) s ((s.updCtx ctx fun c => { c with st := .idle, entered := s.now }).finishPending ctx 6 0)) ∧
    ((c.st = .active ∨ c.st = .stopping) → c.watchdog = false → max c.progress c.entered + c.wdper.toNat % 2 ^ 14 * 1100000 ≤ s.now → judged ≠ 0 →
      (∀ e ∈ mine, ((Store.get s.launches e.2.launch).map Launch.persistent).getD false = false) →
      let r := s.report c.tenant { type := 4, cause := 1, ctx := ctx, core := 0xFFFF, flags := 0, acc := 0, slot := 0, count := judged, wid := 0,
                                   pc := 0, fva := max c.progress c.entered, entry := c.wdper.toNat }
      let stopped := (r.1.updCtx ctx fun c => { c with watchdog := true, stop := if c.mode ≤ 1 then c.stop else none }).requestStop ctx
      Happens (.watchdogFire ctx) s (stopped.sendEvent c.tenant 6 0 0 ctx 0xFFFF 0 (r.2.getD 0))) ∧
    (s.forcing ctx = true → ∀ u j e, State.scanLog (s.orphaned c.tenant) c.log.ahead ctx (min (c.log.wpos / 32 - c.log.rpos / 32) 65536)
        (c.log.rpos / 32) s = (u, .ok (some (j, e))) → Happens (.replayDivergence ctx) s (u.diverge ctx))

/-- R55, R103, R421 to R423, R426: the events of a period become records; the oldest held record is written while the ring has room; one frame tells of each
queue that advanced; changes of RIDX and RSM are taken, and records below RSM resume their threads in order, one in a clock; a patrol visit rewrites and counts a word
with one wrong bit, and reports an uncorrectable one; a second bit error makes a word uncorrectable; a flit retry that passes clears the count, and the 16th that fails stops the bridge. -/
def Obligations.FaultService : Prop :=
  ∀ (s : State),
    (s.periodDue = true → s.uevents ≠ [] → Happens .ueReportPeriod s
      (s.uevents.foldl (fun u e => (u.report e.tenant e.record).1) { s with uevents := [] })) ∧
    (∀ t, (s.tenant t).fq.held ≠ [] → (s.tenant t).fq.k ≠ 0 → (s.tenant t).fq.widx - (s.tenant t).fq.ridx < 2 ^ (s.tenant t).fq.k →
      Happens (.faultRecordWrite t) s (s.writeHeld t)) ∧
    (s.periodDue = true → (∃ t ∈ s.tenants, t.2.fq.advanced = true) → Happens .faultQueueFramePeriod s
      (((s.tenants.filter fun t => t.2.fq.advanced).map Prod.fst).foldl (fun u t =>
        (u.setTenant t { u.tenant t with fq := { (u.tenant t).fq with advanced := false } }).sendEvent t 4 0 0 0 0xFFFF (u.tenant t).fq.widx 0) s)) ∧
    (∀ t n, (s.tenant t).fq.k ≠ 0 → (s.rawRead ((s.tenant t).fq.ctrl + 8) 8).2.2 = false → ofBytes (s.rawRead ((s.tenant t).fq.ctrl + 8) 8).2.1 = n →
      n ≠ (s.tenant t).fq.ridx → Happens (.faultRidxNotice t) s
        ((s.rawRead ((s.tenant t).fq.ctrl + 8) 8).1.setTenant t { s.tenant t with fq := { (s.tenant t).fq with ridx := n } })) ∧
    (∀ t, (s.tenant t).fq.k ≠ 0 →
      let read := s.rawRead ((s.tenant t).fq.ctrl + 16) 8
      let n := ofBytes read.2.1
      let q := (read.1.tenant t).fq
      let taken := read.1.setTenant t { read.1.tenant t with fq := { q with rsm := max q.rsm (min n (q.widx + q.held.length)), rsmRead := n } }
      let first (u : State) : Option (Nat × FRec) := (u.tenant t).fq.kinds.find? fun e => decide (e.1 < (u.tenant t).fq.rsm)
      let changed := read.2.2 = false ∧ n ≠ (s.tenant t).fq.rsmRead
      (changed → first taken = none → Happens (.rsmNotice t) s taken) ∧
      (changed → ∀ i f, first taken = some (i, f) → Happens (.rsmNotice t) s { taken.resumeRecord t f with now := taken.now + 1 }) ∧
      (¬ changed → ∀ i f, first read.1 = some (i, f) → Happens (.rsmNotice t) s { read.1.resumeRecord t f with now := read.1.now + 1 })) ∧
    (∀ core w find, s.pwrgood = true → core < 192 → w < 2 ^ 19 →
      let struck := s.patrolTo.strikePool core (4 * w) find
      let visited : State := match s.patrolTo.nextPatrol with
        | some n => if n % patrolWords = core * 2 ^ 19 + w then { struck with patrolled := n + 1 } else struck
        | none => struck
      let p := struck.poolWord core (4 * w)
      (struck.wordError core (4 * w) p = .clean → exec (.patrolScrub core w find) s = .next struck) ∧
      (struck.wordError core (4 * w) p = .single → Happens (.patrolScrub core w find) s ((visited.renewWord core (4 * w) p).countCorrected 8)) ∧
      (struck.wordError core (4 * w) p = .double → Happens (.patrolScrub core w find) s
        (visited.countError 6 core (struck.ownerCtx p) none 0 (4 * w)))) ∧
    (∀ core a gid o g, s.poolWord core a = .scratch gid o → s.group gid = some g → o / 4 ∉ g.spBad →
      (o / 4 ∉ g.spWeak → s.strikePool core a .single = s.updGroup gid fun g => { g with spWeak := insertNat (o / 4) g.spWeak }) ∧
      (o / 4 ∈ g.spWeak → s.strikePool core a .single = s.updGroup gid fun g =>
        { g with spBad := insertNat (o / 4) g.spBad, spWeak := g.spWeak.filter (· != o / 4) })) ∧
    (s.pwrgood = true → s.bridgeStopped = false →
      Happens (.bridgeFlitRetry true) s { s with bridgeRetries := 0 } ∧
      (s.bridgeRetries < 15 → Happens (.bridgeFlitRetry false) s { s with bridgeRetries := s.bridgeRetries + 1 }) ∧
      (15 ≤ s.bridgeRetries → Happens (.bridgeFlitRetry false) s ({ s with bridgeRetries := s.bridgeRetries + 1 } : State).stopBridge))

/-- R13, R15, R53, R442 to R449, R458 to R460, R467, R479: a reset, a power loss and a thermal shutdown leave everything at its reset value; the end of a
step of bring-up begins the next, the third bringing the host port up and the sixth setting the ready flag, and a step that fails stops bring-up
with its code; a throttle changes THROT alone; the guard's report marks a tile for the beats of the next period alone; the self-test marks a tile,
and at the end of a period the votes fence and readmit. -/
def Obligations.PowerAndVote : Prop :=
  ∀ (s : State),
    let cold : State := { State.reset with
      pwrgood := s.pwrgood, resetN := s.resetN, upStep := 0, inputs := s.inputs, sent := s.sent, moves := s.moves, nextOp := s.nextOp,
      nextGid := s.nextGid, nextChoice := s.nextChoice }
    let running := s.pwrgood = true ∧ s.resetN = true ∧ s.halted = false ∧ s.failCode = 0
    Happens .resetNLow s { cold with resetN := false } ∧
    (s.resetN = false → Happens .resetNRise s { cold with resetN := true, upStep := if s.pwrgood then 1 else 0 }) ∧
    Happens .pwrgoodFall s { cold with pwrgood := false } ∧
    (s.pwrgood = false → Happens .pwrgoodRise s { s with pwrgood := true }) ∧
    (s.pwrgood = true → Happens .thermalShutdown s { cold with halted := true }) ∧
    (s.managed 0x0C 1 → Happens .moduleReset s
      { cold with upStep := 1, sent := .answer s.inputs.frame.src 6 s.inputs.frame.rqid [0] :: s.sent }) ∧
    (running → (s.upStep = 1 ∨ s.upStep = 2 ∨ s.upStep = 4) → Happens .bringUpStepEnd s { s with upStep := s.upStep + 1 }) ∧
    (running → s.upStep = 5 → Happens .bringUpStepEnd s
      { s with upStep := 6, hbm := [], scanout := [], poison := [], upsets := [], lines := [], loadCache := [] }) ∧
    (running → s.upStep = 3 → s.inputs.ports = [] → Happens .bringUpStepEnd s { s with upStep := 4, portUp := true }) ∧
    (∀ p, running → s.upStep = 3 → s.inputs.ports = [p] → p < 16 →
      Happens .bringUpStepEnd s { s with upStep := 4, portUp := true, portsDown := insertNat p s.portsDown, pdown := satAdd s.pdown 1 }) ∧
    (running → s.upStep = 6 → Happens .bringUpStepEnd s { s with upStep := 7, ready := true, epoch := s.now, periods := 0, patrolled := 0 }) ∧
    (∀ code, running → (s.upStep, code) ∈ [(1, 1), (2, 2), (2, 3), (3, 4), (3, 5), (4, 6), (5, 7), (6, 8), (6, 9), (6, 10)] → s.inputs.code = code →
      Happens .bringUpStepTimeout s { s with failCode := code }) ∧
    (∀ core quad level, s.pwrgood = true → core < 192 → quad < 4 → level < 16 →
      let w := (Store.rd 0 s.throt core).toNat
      Happens (.hotspotThrottle core quad level) s
        { s with throt := Store.wr 0 s.throt core (word (w - w / 2 ^ (4 * quad) % 16 * 2 ^ (4 * quad) + level * 2 ^ (4 * quad))) }) ∧
    (∀ core beats, s.ready = true → core < 192 →
      (beats ≤ 1650 → Happens (.portGuardPeriod core beats) s (s.setVote core { s.tileVote core with pgxNext := false })) ∧
      (1650 < beats → Happens (.portGuardPeriod core beats) s
        (({ s with guardOver := Store.wr 0 s.guardOver core (Store.rd 0 s.guardOver core + 1) } : State).setVote core
          { s.tileVote core with pgxNext := true }))) ∧
    (∀ core, (s.judged' core).pgx = (s.tileVote core).pgxNext ∧ (s.judged' core).pgxNext = false) ∧
    (s.periodDue = true →
      let t := s
      let s := s.reportErrors.sendFaultFrames
      let seen := (List.range 192).map fun c => (c, s.judged' c)
      let out := (seen.filter fun p => s.votedOut p.1 p.2).map Prod.fst
      let back := (seen.filter fun p => s.votedIn p.1 p.2).map Prod.fst
      let voted := back.foldl (fun u c => u.setVote c (u.tileVote c).readmit) ((seen.foldl (fun u p => u.setVote p.1 p.2) s).fenceTiles out)
      Happens .heartbeatPeriod t { voted with periods := voted.periods + 1 }) ∧
    (∀ core pass, (s.tileVote core).fenced = true → (s.tileVote core).perm = false → (s.tileVote core).appeal = false →
      Happens (.selfTestEnd core pass) s (s.setVote core
        (if pass then { s.tileVote core with appeal := true, appealAt := s.periods, seq := 0
                                             nbrs := (s.tileVote core).nbrs.map fun n => { n with heard := 0xFFFF } } else { s.tileVote core with perm := true })))

/-- R460, R462 to R464, R466, R467: discovery and status are answered once the port is up, attestation and management once the module is ready; a frame
that is dropped is counted. The first claim names the station; of the station, a request with the right tag is done and answered 0, or refused
with 1 or 2 and nothing changed; any other request is counted and not answered. -/
def Obligations.HostRequests : Prop :=
  ∀ (s : State),
    let p := s.inputs.frame.payload
    let ans (u : State) (kind : Byte) (bs : List Byte) : State := { u with sent := .answer s.inputs.frame.src kind s.inputs.frame.rqid bs :: u.sent }
    let arg (o n : Nat) : Nat := field p o n
    let t := arg 1 1
    let done (i : Instr) (u : State) : Prop := Happens i s (ans u 6 [0])
    let refused (i : Instr) (n : Byte) : Prop := Happens i s (ans s 6 [n])
    let w := windowFields (arg 3 16)
    (s.portUp = true → s.ready = false → Happens .frameDropped s { s with rxdrop := satAdd s.rxdrop 1 }) ∧
    (s.listens → Happens .frameDropped s { s with rxdrop := satAdd s.rxdrop 1 }) ∧
    (s.portUp = true → s.inputs.frame.kind = 1 → Happens .discoveryRequest s (ans s 2 ([0x41, 0x5A, 0x56, 0x31, 0x2D, 0x4D] ++ Config.fusedIdentity ++
      toBytes 2 s.moduleNumber ++ toBytes 1 (boolNat s.ready) ++ toBytes 6 Config.portMac.toNat))) ∧
    (∀ b rest, s.portUp = true → s.inputs.frame.kind = 3 → p = b :: rest → Happens .statusRequest s (ans s 4 (s.statusPage b.toNat))) ∧
    (s.listens → s.inputs.frame.kind = 7 → p.length = 32 →
      let body := p ++ Config.fusedIdentity ++ Config.imageMeasurement ++ toBytes 2 s.moduleNumber ++ toBytes 1 s.upStep ++
        Config.devicePublicKeys
      Happens .attestationRequest s (ans s 8 (body ++ Config.attestationSignatures body))) ∧
    (s.listens → s.inputs.frame.kind = 5 → s.manageOp = 1 →
      (s.station = none → p.length = 49 → done .claim { s with station := some s.inputs.frame.src, stationKey := p.drop 1 }) ∧
      (s.station ≠ none → Happens .claim s { s with mauth := satAdd s.mauth 1 })) ∧
    (s.listens → s.inputs.frame.kind = 5 → s.manageOp ≠ 1 → s.authorised = false → Happens .managementAuthFail s { s with mauth := satAdd s.mauth 1 }) ∧
    (s.managed 2 19 → t < 32 → arg 2 1 < 16 →
      (w.getLsbD 0 = true → windowFits w = false → refused .windowWrite 2) ∧
      (w.getLsbD 0 = true → windowFits w = true → s.windowClash t w = true → refused .windowWrite 1) ∧
      ((w.getLsbD 0 = true → windowFits w = true ∧ s.windowClash t w = false) → done .windowWrite
        ((s.setTenant t { s.tenant t with windows := Store.wr 0 (s.tenant t).windows (arg 2 1) w }).discardTenant t)))

/-- R463, R464, R466: of the station, a request with the right tag that sets a queue, a range, the destinations, the module's number or a route, that
retrains a port or clears the counters is done and answered 0, or refused with 1 or 3 and nothing changed. -/
def Obligations.ManagementRequests : Prop :=
  ∀ (s : State),
    let p := s.inputs.frame.payload
    let ans (u : State) (kind : Byte) (bs : List Byte) : State := { u with sent := .answer s.inputs.frame.src kind s.inputs.frame.rqid bs :: u.sent }
    let arg (o n : Nat) : Nat := field p o n
    let t := arg 1 1
    let done (i : Instr) (u : State) : Prop := Happens i s (ans u 6 [0])
    let refused (i : Instr) (n : Byte) : Prop := Happens i s (ans s 6 [n])
    (s.managed 3 20 → t < 32 → arg 2 1 < 64 → arg 3 8 % 64 = 0 → 4 ≤ arg 11 1 → arg 11 1 ≤ 16 →
      (s.inWindowOf t (arg 3 8) (64 * 2 ^ arg 11 1) = false → refused .commandQueueSetup 1) ∧
      (s.inWindowOf t (arg 3 8) (64 * 2 ^ arg 11 1) = true → s.inWindowOf t (arg 12 8) 64 = true → s.untaken t (arg 2 1) = true →
        refused .commandQueueSetup 3) ∧
      (s.inWindowOf t (arg 3 8) (64 * 2 ^ arg 11 1) = true → s.inWindowOf t (arg 12 8) 64 = true → s.cmdQ t (arg 2 1) = none →
        let u := s.rawWrite (arg 12 8) (List.replicate 64 0)
        let q : CmdQ := { base := arg 3 8, k := arg 11 1, ctrl := arg 12 8, ridx := 0, running := [], waiting := [] }
        done .commandQueueSetup (u.setTenant t { u.tenant t with queues := Store.put (u.tenant t).queues (arg 2 1) q }))) ∧
    (s.managed 4 19 → t < 32 → arg 2 8 % 64 = 0 → 6 ≤ arg 10 1 → arg 10 1 ≤ 16 → s.inWindowOf t (arg 2 8) (64 * 2 ^ arg 10 1) = true →
      s.inWindowOf t (arg 11 8) 64 = true →
      (s.unconsumed t = true ∨ s.parkedThreads t = true → refused .faultQueueSetup 3) ∧
      (s.unconsumed t = false → s.parkedThreads t = false →
        let u := s.rawWrite (arg 11 8) (List.replicate 64 0)
        let q : FaultQ := { base := arg 2 8, k := arg 10 1, ctrl := arg 11 8, widx := 0, ridx := 0, rsm := 0, rsmRead := 0, seq := 0, held := [], drops := 0,
                            advanced := false, kinds := [] }
        done .faultQueueSetup (u.setTenant t { u.tenant t with fq := q }))) ∧
    (s.managed 5 6 → t < 32 → arg 2 2 + arg 4 2 ≤ 16384 →
      let meets := ∃ v ∈ s.tenants, v.1 ≠ t ∧ rangesMeet (arg 2 2) (arg 4 2) v.2.nodeFirst v.2.nodeCount = true
      let used := ∃ e ∈ s.nodes, arg 2 2 ≤ e.1 ∧ e.1 < arg 2 2 + arg 4 2
      (meets → refused .nodeRange 1) ∧ (¬ meets → used → refused .nodeRange 3) ∧
      (¬ meets → ¬ used → done .nodeRange (s.setTenant t { s.tenant t with nodeFirst := arg 2 2, nodeCount := arg 4 2 }))) ∧
    (s.managed 6 6 → t < 32 → arg 2 2 + arg 4 2 ≤ 512 →
      let meets := ∃ v ∈ s.tenants, v.1 ≠ t ∧ rangesMeet (arg 2 2) (arg 4 2) v.2.ctxFirst v.2.ctxCount = true
      let used := ∃ e ∈ s.ctxs, arg 2 2 ≤ e.1 ∧ e.1 < arg 2 2 + arg 4 2
      (meets → refused .contextRange 1) ∧ (¬ meets → used → refused .contextRange 3) ∧
      (¬ meets → ¬ used → done .contextRange (s.setTenant t { s.tenant t with ctxFirst := arg 2 2, ctxCount := arg 4 2 }))) ∧
    (s.managed 7 52 → t < 32 → done .destinations (s.setTenant t { s.tenant t with dest := (p.drop 2).take 48, gazeKey := (p.drop 50).take 2 })) ∧
    (s.managed 8 3 → arg 1 2 ≤ 1023 →
      (s.walkedPeer = false → done .moduleNumber { s with moduleNumber := arg 1 2 }) ∧ (s.walkedPeer = true → refused .moduleNumber 3)) ∧
    (s.managed 9 5 → arg 1 2 ≤ 1023 → done .peerRoute { s with peerRoutes := Store.wr 0 s.peerRoutes (arg 1 2) (arg 3 2) }) ∧
    (s.managed 0x0A 2 → t < 16 → t ∉ s.inputs.ports →
      done .peerPortRetrain { s with portsDown := s.portsDown.filter (· != t), portReplays := Store.del s.portReplays t }) ∧
    (s.managed 0x0B 1 → done .clearCounters { s with errors := [], orphan := [], rxdrop := 0 })

/-- R253, R467, R468, R473 to R476: a host access inside a window that grants it is performed raw at its home slices, and any other is answered with a NAK
and counted; a peer's access is admitted by a window that grants it, and refused and counted otherwise; a flit replay that passes clears the count
of its port, and 16 failures, or silence, take the port down. -/
def Obligations.HostAndPeerAccess : Prop :=
  ∀ (s : State),
    let r := s.inputs.rdma
    let w := (s.tenant r.tenant).window (r.rkey.toNat / 2 ^ 23 % 16)
    let a := windowBase w + r.offset
    let keyed (right n : Nat) : Prop := r.tenant = r.rkey.toNat / 2 ^ 27 % 32 ∧ w.getLsbD 0 = true ∧ w.getLsbD right = true ∧
      w.toNat / 2 ^ 82 % 2 ^ 23 = r.rkey.toNat % 2 ^ 23 ∧ r.offset + n ≤ windowLen w
    let nak : State := { s with nakCount := satAdd s.nakCount 1, sent := .nak r.tenant r.rkey :: s.sent }
    let q := s.inputs.peer
    let granted (right n : Nat) : Prop := ∃ v ∈ (s.tenant q.tenant).windows, v.2.getLsbD 0 = true ∧ v.2.getLsbD right = true ∧
      windowBase v.2 ≤ q.addr ∧ q.addr + n ≤ windowBase v.2 + windowLen v.2
    let read := s.readPage (peerAsker q.addr) (peerXlat q.addr) q.len
    let u := ((s.drainFor q.addr q.len).pass (peerAsker q.addr).input q.addr).sense q.addr q.len
    (s.listens → keyed 3 r.data.length → r.data ≠ [] → Happens .rdmaWrite s
      { s.rawWrite a r.data with sent := .ack r.tenant :: (s.rawWrite a r.data).sent }) ∧
    (s.listens → ¬ keyed 3 r.data.length → Happens .rdmaWrite s nak) ∧
    (s.listens → keyed 2 r.len → r.len ≠ 0 → Happens .rdmaRead s
      { (s.rawRead a r.len).1 with sent := .readData r.tenant (s.rawRead a r.len).2.1 :: (s.rawRead a r.len).1.sent }) ∧
    (s.listens → ¬ keyed 2 r.len → Happens .rdmaRead s nak) ∧
    (s.ready = true → q.kind = .read → 0 < q.len →
      (granted 4 q.len → Happens .peerRequest s { read.1 with sent := .peerData q.module (read.2.orZeros q.len) :: read.1.sent }) ∧
      (¬ granted 4 q.len → Happens .peerRequest s { s with peerRefusals := satAdd s.peerRefusals 1, sent := .peerRefused q.module :: s.sent })) ∧
    (s.ready = true → q.kind = .write → q.data ≠ [] →
      (granted 5 q.data.length → Happens .peerRequest s (s.writePage (peerAsker q.addr) (peerXlat q.addr) q.data)) ∧
      (¬ granted 5 q.data.length → Happens .peerRequest s
        { s with peerRefusals := satAdd s.peerRefusals 1, sent := .peerRefused q.module :: s.sent })) ∧
    (s.ready = true → q.kind = .atomic → 0 < q.len → granted 5 q.len → s.inputs.code.toNat < 128 → Happens .peerRequest s
      (u.applyOne { pa := q.addr, size := q.len, code := s.inputs.code.toNat, data := q.data.take q.len, cas := q.data.drop q.len, ra := false,
                    returns := false, op := u.nextOp, off := 0, cmp := false, ctx := 512, launch := 0, who := 0, va := 0, cl := 0, wp := 0, ep := 0 })) ∧
    (∀ port, s.pwrgood = true → port < 16 → port ∉ s.portsDown →
      Happens (.peerFlitReplay port true) s { s with portReplays := Store.del s.portReplays port } ∧
      (Store.rd 0 s.portReplays port < 15 → Happens (.peerFlitReplay port false) s
        { s with portReplays := Store.put s.portReplays port (Store.rd 0 s.portReplays port + 1) }) ∧
      (15 ≤ Store.rd 0 s.portReplays port → Happens (.peerFlitReplay port false) s (s.portDown port)) ∧
      Happens (.peerPortDown port) s (s.portDown port))

/-- R153, R154, R167, R168, R338, R352: a latch that is due happens before anything else of its clock, and no gather issues in the clock of a latch. A step
whose gather has been chosen otherwise fetches the eight bytes at its program counter and, where they are the word of an instruction, executes that
instruction in the state after the fetch; where they are no instruction every thread of the gather takes the illegal-instruction trap, and where the
fetch lacks its page or a peer's bytes the gather waits for them. Where the page is held and this module's, the bytes are those of a read of the page,
and bad data is no instruction. With no gather chosen, the first entry of the agenda happens with its inputs (the model's own order, log entry 2),
after the bit errors that strike with it. -/
def Obligations.StepRunsTheWord : Prop :=
  ∀ (s : State),
    let word? (bs : List Byte) : Option Instr := decodeWord (BitVec.ofNat 64 (ofBytes bs))
    (∀ w, s.dueLatch s.now = some w → step s = exec (.stripLatch w.1 w.2) s) ∧
    (s.dueLatch s.now = none → s.armed = true → s.dueLatch (s.now + 1) ≠ none → step s = .next { s with now := s.now + 1 }) ∧
    (∀ (v : Lane) (vs : List Lane), s.dueLatch s.now = none → s.dueLatch (s.now + 1) = none → s.armed = true → s.gatherLanes = some (v :: vs) →
      let r := s.fetchWord v
      let asker : Asker := { input := v.core, core := v.core, ctx := v.g.ctx, thread := some v.key, pc := v.th.pc }
      (∀ bs i, r.2 = .ok bs → word? bs = some i → step s = exec i r.1) ∧
      (∀ bs, r.2 = .ok bs → word? bs = none → step s = issueIllegal r.1) ∧
      (∀ f, r.2 = .error f → step s = .next ((v :: vs).foldl (fun u w => u.awaitFetch w.key f 8) r.1.tick).settle.moved) ∧
      (∀ e t, v.th.pc % 8 = 0 → s.tlb.find? (fun q => q.covers (fetchUnit v.core) v.g.ctx v.th.pc) = some e →
        t = s.xlat e.bits e.entry v.th.pc → t.permits .fetch = true → t.peer = none →
        (∀ bs i, (s.readPage asker t 8).2 = .bytes bs → word? bs = some i → step s = exec i (s.readPage asker t 8).1) ∧
        ((s.readPage asker t 8).2 = .poison ∨ (s.readPage asker t 8).2 = .reserved → step s = issueIllegal (s.readPage asker t 8).1))) ∧
    (∀ i ins rest, s.dueLatch s.now = none → s.armed = false → s.agenda = (i, ins) :: rest →
      let u : State := { s with agenda := rest, inputs := ins }
      step s = exec i ((u.strike ins.upsets).clockOf i) ∧ (ins.upsets = [] → i ≠ .viewSetUnbind → step s = exec i u))

/-- R155, R162, R167, R387, R388: words of the tables, each field written out from the layout of its format, and the instructions that they are;
a major opcode that is not assigned, and a reserved command opcode, are no instruction. -/
def Obligations.WordsOfTheTables : Prop :=
  let f (op g gn d a b c fn m imm : Nat) : Nat :=
    op * 2 ^ 56 + g * 2 ^ 52 + gn * 2 ^ 51 + d * 2 ^ 45 + a * 2 ^ 39 + b * 2 ^ 33 + c * 2 ^ 27 + fn * 2 ^ 19 + m * 2 ^ 16 + imm
  let x (g : BitVec 4) (gn : Bool) (d a b c : BitVec 6) (fn : BitVec 8) (m : BitVec 3) (imm : BitVec 16) : Fields :=
    { g := g, gn := gn, d := d, a := a, b := b, c := c, fn := fn, m := m, imm := imm }
  decodeTableWord 64 (f 0x00 3 0 4 5 6 0 1 2 0) = some (.iadd (x 3 false 4 5 6 0 1 2 0)) ∧
  decodeTableWord 64 (f 0x01 15 0 4 5 0 0 0x81 6 0xFF) = some (.and (x 15 false 4 5 0 0 0x81 6 0xFF)) ∧
  decodeTableWord 64 (f 0x03 15 0 1 5 6 5 1 2 0) = some (.icmp (x 15 false 1 5 6 5 1 2 0)) ∧
  decodeTableWord 64 (f 0x22 15 0 0 0 0 0 3 0 0) = some (.nop (x 15 false 0 0 0 0 3 0 0)) ∧
  decodeTableWord 64 (f 0x30 2 1 7 8 9 0 3 0 0) = some (.fmul (x 2 true 7 8 9 0 3 0 0)) ∧
  decodeTableWord 64 (f 0x48 15 0 4 6 0 0 0x13 3 0x40) = some (.ld (x 15 false 4 6 0 0 0x13 3 0x40)) ∧
  decodeTableWord 64 (f 0x4B 15 0 48 6 5 0 1 0 0) = some (.red (x 15 false 48 6 5 0 1 0 0)) ∧
  decodeTableWord 64 (f 0x4B 15 0 4 6 5 0 1 0 0) = some (.atomAdd (x 15 false 4 6 5 0 1 0 0)) ∧
  decodeTableWord 64 (2 ^ 63 + 15 * 2 ^ 53 + 15 * 2 ^ 22) =
    some (.pairWord { op := 0, g := 15, d := 0, i := false, src := 0 } { op := 0, g := 15, d := 0, i := false, src := 0 }) ∧
  decodeTableWord 64 (f 0x05 15 0 4 5 6 0 1 2 0) = none ∧
  decodeTableWord 64 (f 0x00 15 1 4 5 6 0 1 2 0) = none ∧
  decodeTableWord 512 0x01 = some .launch ∧
  decodeTableWord 512 0x0F = some .viewSetStatus ∧
  decodeTableWord 512 0x10 = none

/-- R155, R162, R167, R168: the encoder and the decoder agree. Every well-formed instruction word encodes to 64 bits that decode to it, with every
operand at every value that the encoding admits, and every word that decodes to an instruction is the one word that encodes it. -/
def Obligations.WordsRoundTrip : Prop :=
  (∀ i, wellFormed i = true → ∃ w, encode i = some w ∧ decodeWord w = some i) ∧
  (∀ w i, decodeWord w = some i → wellFormed i = true ∧ encode i = some w)

/-- R12, R18: whatever a step does, HBM and scanout memory, as lists of addresses and bytes, keep their one canonical form: the addresses rise
strictly and no byte that reads as an unlisted one is listed. The form is the model's own. -/
def Obligations.StepKeepsMemoryCanonical : Prop :=
  ∀ (s t : State), Memory.wf s.hbm = true → Memory.wf s.scanout = true → step s = .next t →
    Memory.wf t.hbm = true ∧ Memory.wf t.scanout = true

/-- R15, R397, R445, R450, R458 to R460, R475: right after reset nothing is resident, every context is Free, no tile is fenced, the fence
generation and the module number are 0, the ready flag is clear and no port answers; every byte of memory reads 0, and memory is in its canonical form
(zero is what the zero-fill of bring-up leaves; the form is the model's own). -/
def Obligations.ResetState : Prop :=
  let s := State.reset
  Memory.wf s.hbm = true ∧ Memory.wf s.scanout = true ∧
  (∀ a, s.stored a = 0) ∧ (∀ cmp a, s.byteAt cmp a = 0) ∧
  (∀ k, Store.get s.threads k = none) ∧ (∀ k, Store.get s.groups k = none) ∧ (∀ c, Store.get s.ctxs c = none) ∧
  (∀ c, (s.tileVote c).fenced = false ∧ (s.tileVote c).perm = false) ∧
  (∀ c, Store.rd 0 s.throt c = 0) ∧ (∀ e, Store.rd 0 s.errors e = 0) ∧
  s.fenceGen = 0 ∧ s.moduleNumber = 0 ∧ s.station = none ∧ s.ready = false ∧ s.portUp = false ∧ s.failCode = 0

/-- R416 to R420, R130: what taking a trap does to a thread of a quadrant. Where the cause has a vector, which lies aligned, the thread is in no handler and the
vector is a non-zero aligned address, the thread goes on at that address with the cause in TCAUSE, INH and SHF with it, its address in TEPC and the value in
TVAL, and its sheaf suspended. Else it parks at the instruction: the three registers are written unless it was in a handler. Nothing else of it changes, but that a
floating-point trap leaves its flags in FFLAGS. -/
def Obligations.TakingATrap : Prop :=
  ∀ (s : State) (key : Nat) (th : Thread) (g : Group) (cause tval : Nat),
    Store.get s.threads key = some th → Store.get s.groups th.gid = some g → isThresher key = false → cause ≤ 0x11 →
    let u := s.takeTraps [{ key := key, cause := cause, tval := tval }]
    let flags : Word := if cause = 0x0F then th.fflags ||| word tval else th.fflags
    let code (inh : Bool) : Word := word (cause + (if inh then 256 else 0) + (if th.sheaf.isSome then 512 else 0))
    let inh := th.tcause.getLsbD 8
    let asker : Asker := { input := coreOf key, core := coreOf key, ctx := g.ctx, thread := some key, pc := th.pc }
    let parks : Prop := ∃ n th', Store.get u.threads key = some th' ∧ th' = { th with
      fflags := flags, st := .parked n, heldBy := none, tcause := if inh then th.tcause else code false,
      tepc := if inh then th.tepc else dword th.pc, tval := if inh then th.tval else dword tval }
    let va := g.code - (if cause = 0x0A then 8 else 16)
    (inh = true ∨ (cause ≠ 0x0A ∧ cause ≠ 0x0D ∧ cause ≠ 0x0E) → parks) ∧
    (∀ e t bs, inh = false → cause = 0x0A ∨ cause = 0x0D ∨ cause = 0x0E → va % 8 = 0 →
      s.tlb.find? (fun q => q.covers (fetchUnit (coreOf key)) g.ctx va) = some e → t = s.xlat e.bits e.entry va → t.permits .fetch = true → t.peer = none →
      (s.readPage asker t 8).2 = .bytes bs →
      (ofBytes bs ≠ 0 → ofBytes bs % 8 = 0 → ∃ th', Store.get u.threads key = some th' ∧ th' = { th with
        tcause := code true, tepc := dword th.pc, tval := dword tval, pc := ofBytes bs, susp := th.sheaf, sheaf := none, st := .ready, since := s.now, peerBuf := [], wordBuf := [], heldBy := none }) ∧
      ((ofBytes bs = 0 ∨ ofBytes bs % 8 ≠ 0) → parks)) ∧
    (∀ k, k ≠ key → Store.get u.threads k = Store.get s.threads k)

/-- R112, R115, R117, R156, R180: what an arithmetic, logic or move instruction leaves unchanged in every form. Of the machine only threads, the uniform registers
of their groups and the clock change, so every byte of memory reads as before; no thread outside the gather changes; and of a thread of the gather
nothing but the program counter, what goes with it, and the destination: the words of D and their marks, or the one predicate that D names. A destination of
zr changes no register. Stacks and uniform registers keep their canonical form, in which any other register reads as before. With no choice to log and no
context in REPLAY, nothing follows the instruction. -/
def Obligations.RegisterFrames : Prop :=
  ∀ (x : Fields) (s : State) (i : Instr) (r : Row) (vs : List Lane), Issues i r x s vs →
    let dst (v : Lane) : List Dst := v.places r.d.regs x.d
    let calm (u : State) : Prop :=
      u = { s with threads := u.threads, groups := u.groups, now := s.now + 1, armed := false, gather := none, sensed := [] } ∧
      (∀ cmp a, u.byteAt cmp a = s.byteAt cmp a) ∧
      (∀ k, (∀ v ∈ vs, v.key ≠ k) → Store.get u.threads k = Store.get s.threads k) ∧
      (s.logPending = [] → (∀ c ∈ s.ctxs, c.2.mode ≠ 3) → u.settle = u)
    let onward (v : Lane) (th : Thread) : Prop := ∀ st pc since ahead peerBuf wordBuf heldBy stack bad weak pend preds clkHi,
      { th with st := st, pc := pc, since := since, ahead := ahead, peerBuf := peerBuf, wordBuf := wordBuf, heldBy := heldBy, stack := stack, bad := bad,
                weak := weak, pend := pend, preds := preds, clkHi := clkHi } =
      { v.th with st := st, pc := pc, since := since, ahead := ahead, peerBuf := peerBuf, wordBuf := wordBuf, heldBy := heldBy, stack := stack, bad := bad,
                  weak := weak, pend := pend, preds := preds, clkHi := clkHi }
    let clock (v : Lane) (th : Thread) : Prop := readsClock r x = false → th.clkHi = v.th.clkHi
    (i ∈ [.iadd x, .isub x, .imul x, .imad x, .ineg x, .iabs x, .imin x, .imax x, .imulh x, .imadw x, .and x, .or x, .xor x, .andn x, .not x, .shl x,
          .shr x, .sar x, .rot x, .bfx x, .bfi x, .popc x, .clz x, .brev x, .prmb x, .sel x, .mov x, .moviLo x, .moviHi x, .moviS x] →
      ∃ u, exec i s = .next u.settle.moved ∧ calm u ∧
        (∀ v ∈ vs, ∃ th, Store.get u.threads v.key = some th ∧ onward v th ∧ clock v th ∧ th.preds = v.th.preds ∧
          (Store.rising 0 v.th.stack = true → Store.rising 0 th.stack = true ∧
            ∀ n, Dst.stack n ∉ dst v → Store.rd 0 th.stack n = Store.rd 0 v.th.stack n)) ∧
        (∀ v ∈ vs, ∃ g, Store.get u.groups v.th.gid = some g ∧ g = { v.g with k := g.k, kbad := g.kbad, kpend := g.kpend } ∧
          (Store.rising 0 v.g.k = true → Store.rising 0 g.k = true ∧
            ∀ n, (∀ w ∈ vs, w.th.gid = v.th.gid → Dst.uniform n ∉ dst w) → Store.rd 0 g.k n = Store.rd 0 v.g.k n)) ∧
        (∀ n, (∀ v ∈ vs, v.th.gid ≠ n) → Store.get u.groups n = Store.get s.groups n)) ∧
    (i ∈ [.icmp x, .pset x] →
      ∃ u, exec i s = .next u.settle.moved ∧ calm u ∧ u.groups = s.groups ∧
        (∀ v ∈ vs, ∃ th, Store.get u.threads v.key = some th ∧ onward v th ∧ clock v th ∧ th.stack = v.th.stack ∧ th.bad = v.th.bad ∧ th.weak = v.th.weak ∧
          th.pend = v.th.pend ∧ ∀ p, p ≠ x.d.toNat → th.preds.getLsbD p = v.th.preds.getLsbD p))

/-- R246, R249, R250, R51, R56: what a store leaves unchanged. An ST of one piece, to a page of this module that the quadrant holds, asks at its core's port, a line
at a time, for the write of its own bytes at the address that the page gives for its own address, and changes no other state but its thread's progress and the
core's copy of the line; when such a write is performed, the bytes from that address on hold the data and every other byte of memory reads as before. An STS writes its
bytes from its offset on, and every other byte of the group's scratchpad reads as before. The canonical form of memory is the model's own. -/
def Obligations.StoreFrames : Prop :=
  ∀ (x : Fields) (s : State) (r : Row) (v : Lane), v.active x.g x.gn = true →
    let n : Nat := 2 ^ (x.fn.toNat % 8 - 1)
    let va : Nat := (v.r64 x.a + x.imm.signExtend 64).toNat
    let onward (th : Thread) : Prop := (∀ st pc since ahead clkHi peerBuf wordBuf heldBy,
      { th with st := st, pc := pc, since := since, ahead := ahead, clkHi := clkHi, peerBuf := peerBuf, wordBuf := wordBuf, heldBy := heldBy } =
      { v.th with st := st, pc := pc, since := since, ahead := ahead, clkHi := clkHi, peerBuf := peerBuf, wordBuf := wordBuf, heldBy := heldBy }) ∧ (readsClock r x = false → th.clkHi = v.th.clkHi)
    let size : Nat := 2 ^ (x.m.toNat - 1)
    let off : Nat := (((v.r32 x.a).toNat : Int) + x.imm.toInt).toNat
    let alone (u : State) : Prop := (∀ k, k ≠ v.key → Store.get u.threads k = Store.get s.threads k) ∧
      ∃ th, Store.get u.threads v.key = some th ∧ onward th
    (Issues (.st x) r x s [v] → v.admits s va → v.admits s (va + n - 1) → va % 4096 + n ≤ 4096 → x.fn.getLsbD 5 = false → v.th.kept = [] →
      v.th.isParked = false → v.settled s → ∀ t, v.page s va .store = some t → t.peer = none → t.kind ≠ 0 → s.bridgeCut v.core t.pa = false →
      let bytes := toBytes n (v.rd (Fields.dataRegs n) x.b)
      let asked (p : Nat × List Byte) : PortReq :=
        { input := v.core, output := firstOut v.core p.1
          req := { pa := p.1, size := p.2.length, code := 0, data := p.2, cas := [], ra := false, returns := false, op := 0, off := 0, cmp := t.cmp, ctx := v.g.ctx,
                   launch := 0, who := 0, va := 0, cl := t.cl, wp := t.wp, ep := t.ep } }
      ∃ u, exec (.st x) s = .next u.settle.moved ∧ alone u ∧
        u = { s with threads := u.threads, loadCache := u.loadCache, upsets := clearCached s.upsets v.core t.pa n, now := s.now + 1, armed := false,
                     gather := none, sensed := [], nextOp := s.nextOp + 1, portHeld := s.portHeld ++ (lineParts (n / 128 + 2) t.pa bytes).map asked } ∧
        (t.pa % 128 + n ≤ 128 → lineParts (n / 128 + 2) t.pa bytes = [(t.pa, bytes)]) ∧
        (128 < t.pa % 128 + n → lineParts (n / 128 + 2) t.pa bytes =
          [(t.pa, bytes.take (128 - t.pa % 128)), (t.pa + (128 - t.pa % 128), bytes.drop (128 - t.pa % 128))])) ∧
    (∀ (u : State) (p : Pending), p.code = 0 → p.cmp = false → Memory.wf u.hbm = true →
      (∀ a, a < p.pa ∨ p.pa + p.data.length ≤ a → (u.applyOne p).byteAt false a = u.byteAt false a) ∧
      (∀ k, k < p.data.length → (u.applyOne p).byteAt false (p.pa + k) = p.data.getD k 0)) ∧
    (Issues (.sts x) r x s [v] → isThresher v.key = false → 0 ≤ ((v.r32 x.a).toNat : Int) + x.imm.toInt → off % size = 0 → off + size ≤ v.g.spLen →
      s.boardBlocks v (v.g.pool off) (v.g.pool (off + size - 1)) true = false →
      ∃ u g, exec (.sts x) s = .next u.settle.moved ∧ alone u ∧
        u = { s with threads := u.threads, groups := u.groups, now := s.now + 1, armed := false, gather := none, sensed := [] } ∧
        (∀ k, k ≠ v.th.gid → Store.get u.groups k = Store.get s.groups k) ∧
        Store.get u.groups v.th.gid = some g ∧ g = { v.g with sp := g.sp, spBad := g.spBad, spWeak := g.spWeak } ∧
        (Memory.wf v.g.sp = true → Memory.wf g.sp = true ∧
          (∀ a, a < off ∨ off + size ≤ a → Store.rd 0 g.sp a = Store.rd 0 v.g.sp a) ∧
          ∀ k, k < size → Store.rd 0 g.sp (off + k) = (toBytes size (v.rd (Fields.dataRegs size) x.b)).getD k 0))
end

