-- ==== Sys2Proof/Laws/State.lean ====
section
/-!
SUPPORT. What the named updates of the state, of a thread and of a group leave in each field, so that no proof unfolds a record update.
-/
namespace Sys2Proof.Machine

@[simp] theorem State.setThread_groups (s : State) (k : Nat) (t : Thread) : (s.setThread k t).groups = s.groups := rfl
@[simp] theorem State.setThread_thresher (s : State) (k : Nat) (t : Thread) : (s.setThread k t).thresher = s.thresher := rfl
@[simp] theorem State.setThread_partWord (s : State) (k : Nat) (t : Thread) : (s.setThread k t).partWord = s.partWord := rfl
@[simp] theorem State.setThread_board (s : State) (k : Nat) (t : Thread) : (s.setThread k t).board = s.board := rfl
@[simp] theorem State.setThread_ops (s : State) (k : Nat) (t : Thread) : (s.setThread k t).ops = s.ops := rfl
@[simp] theorem State.setThread_hbm (s : State) (k : Nat) (t : Thread) : (s.setThread k t).hbm = s.hbm := rfl
@[simp] theorem State.setThread_poison (s : State) (k : Nat) (t : Thread) : (s.setThread k t).poison = s.poison := rfl
@[simp] theorem State.setThread_upsets (s : State) (k : Nat) (t : Thread) : (s.setThread k t).upsets = s.upsets := rfl
@[simp] theorem State.setThread_lines (s : State) (k : Nat) (t : Thread) : (s.setThread k t).lines = s.lines := rfl
@[simp] theorem State.setThread_lineUses (s : State) (k : Nat) (t : Thread) : (s.setThread k t).lineUses = s.lineUses := rfl
@[simp] theorem State.setThread_portHeld (s : State) (k : Nat) (t : Thread) : (s.setThread k t).portHeld = s.portHeld := rfl
@[simp] theorem State.setThread_grants (s : State) (k : Nat) (t : Thread) : (s.setThread k t).grants = s.grants := rfl
@[simp] theorem State.setThread_wq (s : State) (k : Nat) (t : Thread) : (s.setThread k t).wq = s.wq := rfl
@[simp] theorem State.setThread_loadCache (s : State) (k : Nat) (t : Thread) : (s.setThread k t).loadCache = s.loadCache := rfl
@[simp] theorem State.setThread_scanout (s : State) (k : Nat) (t : Thread) : (s.setThread k t).scanout = s.scanout := rfl
@[simp] theorem State.setThread_tlb (s : State) (k : Nat) (t : Thread) : (s.setThread k t).tlb = s.tlb := rfl
@[simp] theorem State.setThread_walkCache (s : State) (k : Nat) (t : Thread) : (s.setThread k t).walkCache = s.walkCache := rfl
@[simp] theorem State.setThread_enroute (s : State) (k : Nat) (t : Thread) : (s.setThread k t).enroute = s.enroute := rfl
@[simp] theorem State.setThread_misses (s : State) (k : Nat) (t : Thread) : (s.setThread k t).misses = s.misses := rfl
@[simp] theorem State.setThread_lastDetect (s : State) (k : Nat) (t : Thread) : (s.setThread k t).lastDetect = s.lastDetect := rfl
@[simp] theorem State.setThread_mail (s : State) (k : Nat) (t : Thread) : (s.setThread k t).mail = s.mail := rfl
@[simp] theorem State.setThread_claims (s : State) (k : Nat) (t : Thread) : (s.setThread k t).claims = s.claims := rfl
@[simp] theorem State.setThread_gangStops (s : State) (k : Nat) (t : Thread) : (s.setThread k t).gangStops = s.gangStops := rfl
@[simp] theorem State.setThread_logPending (s : State) (k : Nat) (t : Thread) : (s.setThread k t).logPending = s.logPending := rfl
@[simp] theorem State.setThread_tenants (s : State) (k : Nat) (t : Thread) : (s.setThread k t).tenants = s.tenants := rfl
@[simp] theorem State.setThread_ctxs (s : State) (k : Nat) (t : Thread) : (s.setThread k t).ctxs = s.ctxs := rfl
@[simp] theorem State.setThread_saved (s : State) (k : Nat) (t : Thread) : (s.setThread k t).saved = s.saved := rfl
@[simp] theorem State.setThread_launches (s : State) (k : Nat) (t : Thread) : (s.setThread k t).launches = s.launches := rfl
@[simp] theorem State.setThread_nodes (s : State) (k : Nat) (t : Thread) : (s.setThread k t).nodes = s.nodes := rfl
@[simp] theorem State.setThread_graphErrors (s : State) (k : Nat) (t : Thread) : (s.setThread k t).graphErrors = s.graphErrors := rfl
@[simp] theorem State.setThread_views (s : State) (k : Nat) (t : Thread) : (s.setThread k t).views = s.views := rfl
@[simp] theorem State.setThread_amplifier (s : State) (k : Nat) (t : Thread) : (s.setThread k t).amplifier = s.amplifier := rfl
@[simp] theorem State.setThread_prims (s : State) (k : Nat) (t : Thread) : (s.setThread k t).prims = s.prims := rfl
@[simp] theorem State.setThread_covers (s : State) (k : Nat) (t : Thread) : (s.setThread k t).covers = s.covers := rfl
@[simp] theorem State.setThread_pushWaited (s : State) (k : Nat) (t : Thread) : (s.setThread k t).pushWaited = s.pushWaited := rfl
@[simp] theorem State.setThread_vote (s : State) (k : Nat) (t : Thread) : (s.setThread k t).vote = s.vote := rfl
@[simp] theorem State.setThread_fenceGen (s : State) (k : Nat) (t : Thread) : (s.setThread k t).fenceGen = s.fenceGen := rfl
@[simp] theorem State.setThread_orphan (s : State) (k : Nat) (t : Thread) : (s.setThread k t).orphan = s.orphan := rfl
@[simp] theorem State.setThread_epoch (s : State) (k : Nat) (t : Thread) : (s.setThread k t).epoch = s.epoch := rfl
@[simp] theorem State.setThread_periods (s : State) (k : Nat) (t : Thread) : (s.setThread k t).periods = s.periods := rfl
@[simp] theorem State.setThread_passNo (s : State) (k : Nat) (t : Thread) : (s.setThread k t).passNo = s.passNo := rfl
@[simp] theorem State.setThread_guardOver (s : State) (k : Nat) (t : Thread) : (s.setThread k t).guardOver = s.guardOver := rfl
@[simp] theorem State.setThread_throt (s : State) (k : Nat) (t : Thread) : (s.setThread k t).throt = s.throt := rfl
@[simp] theorem State.setThread_errors (s : State) (k : Nat) (t : Thread) : (s.setThread k t).errors = s.errors := rfl
@[simp] theorem State.setThread_uevents (s : State) (k : Nat) (t : Thread) : (s.setThread k t).uevents = s.uevents := rfl
@[simp] theorem State.setThread_mauth (s : State) (k : Nat) (t : Thread) : (s.setThread k t).mauth = s.mauth := rfl
@[simp] theorem State.setThread_rxdrop (s : State) (k : Nat) (t : Thread) : (s.setThread k t).rxdrop = s.rxdrop := rfl
@[simp] theorem State.setThread_pdown (s : State) (k : Nat) (t : Thread) : (s.setThread k t).pdown = s.pdown := rfl
@[simp] theorem State.setThread_nakCount (s : State) (k : Nat) (t : Thread) : (s.setThread k t).nakCount = s.nakCount := rfl
@[simp] theorem State.setThread_peerRefusals (s : State) (k : Nat) (t : Thread) : (s.setThread k t).peerRefusals = s.peerRefusals := rfl
@[simp] theorem State.setThread_mailDrops (s : State) (k : Nat) (t : Thread) : (s.setThread k t).mailDrops = s.mailDrops := rfl
@[simp] theorem State.setThread_bridgeStopped (s : State) (k : Nat) (t : Thread) : (s.setThread k t).bridgeStopped = s.bridgeStopped := rfl
@[simp] theorem State.setThread_bridgeRetries (s : State) (k : Nat) (t : Thread) : (s.setThread k t).bridgeRetries = s.bridgeRetries := rfl
@[simp] theorem State.setThread_station (s : State) (k : Nat) (t : Thread) : (s.setThread k t).station = s.station := rfl
@[simp] theorem State.setThread_stationKey (s : State) (k : Nat) (t : Thread) : (s.setThread k t).stationKey = s.stationKey := rfl
@[simp] theorem State.setThread_moduleNumber (s : State) (k : Nat) (t : Thread) : (s.setThread k t).moduleNumber = s.moduleNumber := rfl
@[simp] theorem State.setThread_walkedPeer (s : State) (k : Nat) (t : Thread) : (s.setThread k t).walkedPeer = s.walkedPeer := rfl
@[simp] theorem State.setThread_peerRoutes (s : State) (k : Nat) (t : Thread) : (s.setThread k t).peerRoutes = s.peerRoutes := rfl
@[simp] theorem State.setThread_portsDown (s : State) (k : Nat) (t : Thread) : (s.setThread k t).portsDown = s.portsDown := rfl
@[simp] theorem State.setThread_portReplays (s : State) (k : Nat) (t : Thread) : (s.setThread k t).portReplays = s.portReplays := rfl
@[simp] theorem State.setThread_pwrgood (s : State) (k : Nat) (t : Thread) : (s.setThread k t).pwrgood = s.pwrgood := rfl
@[simp] theorem State.setThread_resetN (s : State) (k : Nat) (t : Thread) : (s.setThread k t).resetN = s.resetN := rfl
@[simp] theorem State.setThread_ready (s : State) (k : Nat) (t : Thread) : (s.setThread k t).ready = s.ready := rfl
@[simp] theorem State.setThread_upStep (s : State) (k : Nat) (t : Thread) : (s.setThread k t).upStep = s.upStep := rfl
@[simp] theorem State.setThread_failCode (s : State) (k : Nat) (t : Thread) : (s.setThread k t).failCode = s.failCode := rfl
@[simp] theorem State.setThread_portUp (s : State) (k : Nat) (t : Thread) : (s.setThread k t).portUp = s.portUp := rfl
@[simp] theorem State.setThread_halted (s : State) (k : Nat) (t : Thread) : (s.setThread k t).halted = s.halted := rfl
@[simp] theorem State.setThread_now (s : State) (k : Nat) (t : Thread) : (s.setThread k t).now = s.now := rfl
@[simp] theorem State.setThread_inputs (s : State) (k : Nat) (t : Thread) : (s.setThread k t).inputs = s.inputs := rfl
@[simp] theorem State.setThread_sent (s : State) (k : Nat) (t : Thread) : (s.setThread k t).sent = s.sent := rfl
@[simp] theorem State.setThread_agenda (s : State) (k : Nat) (t : Thread) : (s.setThread k t).agenda = s.agenda := rfl
@[simp] theorem State.setThread_gather (s : State) (k : Nat) (t : Thread) : (s.setThread k t).gather = s.gather := rfl
@[simp] theorem State.setThread_armed (s : State) (k : Nat) (t : Thread) : (s.setThread k t).armed = s.armed := rfl
@[simp] theorem State.setThread_patrolled (s : State) (k : Nat) (t : Thread) : (s.setThread k t).patrolled = s.patrolled := rfl
@[simp] theorem State.setThread_sensed (s : State) (k : Nat) (t : Thread) : (s.setThread k t).sensed = s.sensed := rfl
@[simp] theorem State.setThread_moves (s : State) (k : Nat) (t : Thread) : (s.setThread k t).moves = s.moves := rfl
@[simp] theorem State.setThread_nextOp (s : State) (k : Nat) (t : Thread) : (s.setThread k t).nextOp = s.nextOp := rfl
@[simp] theorem State.setThread_nextGid (s : State) (k : Nat) (t : Thread) : (s.setThread k t).nextGid = s.nextGid := rfl
@[simp] theorem State.setThread_nextChoice (s : State) (k : Nat) (t : Thread) : (s.setThread k t).nextChoice = s.nextChoice := rfl
@[simp] theorem State.updThread_groups (s : State) (k : Nat) (f : Thread → Thread) : (s.updThread k f).groups = s.groups := rfl
@[simp] theorem State.updThread_thresher (s : State) (k : Nat) (f : Thread → Thread) : (s.updThread k f).thresher = s.thresher := rfl
@[simp] theorem State.updThread_partWord (s : State) (k : Nat) (f : Thread → Thread) : (s.updThread k f).partWord = s.partWord := rfl
@[simp] theorem State.updThread_board (s : State) (k : Nat) (f : Thread → Thread) : (s.updThread k f).board = s.board := rfl
@[simp] theorem State.updThread_ops (s : State) (k : Nat) (f : Thread → Thread) : (s.updThread k f).ops = s.ops := rfl
@[simp] theorem State.updThread_hbm (s : State) (k : Nat) (f : Thread → Thread) : (s.updThread k f).hbm = s.hbm := rfl
@[simp] theorem State.updThread_poison (s : State) (k : Nat) (f : Thread → Thread) : (s.updThread k f).poison = s.poison := rfl
@[simp] theorem State.updThread_upsets (s : State) (k : Nat) (f : Thread → Thread) : (s.updThread k f).upsets = s.upsets := rfl
@[simp] theorem State.updThread_lines (s : State) (k : Nat) (f : Thread → Thread) : (s.updThread k f).lines = s.lines := rfl
@[simp] theorem State.updThread_lineUses (s : State) (k : Nat) (f : Thread → Thread) : (s.updThread k f).lineUses = s.lineUses := rfl
@[simp] theorem State.updThread_portHeld (s : State) (k : Nat) (f : Thread → Thread) : (s.updThread k f).portHeld = s.portHeld := rfl
@[simp] theorem State.updThread_grants (s : State) (k : Nat) (f : Thread → Thread) : (s.updThread k f).grants = s.grants := rfl
@[simp] theorem State.updThread_wq (s : State) (k : Nat) (f : Thread → Thread) : (s.updThread k f).wq = s.wq := rfl
@[simp] theorem State.updThread_loadCache (s : State) (k : Nat) (f : Thread → Thread) : (s.updThread k f).loadCache = s.loadCache := rfl
@[simp] theorem State.updThread_scanout (s : State) (k : Nat) (f : Thread → Thread) : (s.updThread k f).scanout = s.scanout := rfl
@[simp] theorem State.updThread_tlb (s : State) (k : Nat) (f : Thread → Thread) : (s.updThread k f).tlb = s.tlb := rfl
@[simp] theorem State.updThread_walkCache (s : State) (k : Nat) (f : Thread → Thread) : (s.updThread k f).walkCache = s.walkCache := rfl
@[simp] theorem State.updThread_enroute (s : State) (k : Nat) (f : Thread → Thread) : (s.updThread k f).enroute = s.enroute := rfl
@[simp] theorem State.updThread_misses (s : State) (k : Nat) (f : Thread → Thread) : (s.updThread k f).misses = s.misses := rfl
@[simp] theorem State.updThread_lastDetect (s : State) (k : Nat) (f : Thread → Thread) : (s.updThread k f).lastDetect = s.lastDetect := rfl
@[simp] theorem State.updThread_mail (s : State) (k : Nat) (f : Thread → Thread) : (s.updThread k f).mail = s.mail := rfl
@[simp] theorem State.updThread_claims (s : State) (k : Nat) (f : Thread → Thread) : (s.updThread k f).claims = s.claims := rfl
@[simp] theorem State.updThread_gangStops (s : State) (k : Nat) (f : Thread → Thread) : (s.updThread k f).gangStops = s.gangStops := rfl
@[simp] theorem State.updThread_logPending (s : State) (k : Nat) (f : Thread → Thread) : (s.updThread k f).logPending = s.logPending := rfl
@[simp] theorem State.updThread_tenants (s : State) (k : Nat) (f : Thread → Thread) : (s.updThread k f).tenants = s.tenants := rfl
@[simp] theorem State.updThread_ctxs (s : State) (k : Nat) (f : Thread → Thread) : (s.updThread k f).ctxs = s.ctxs := rfl
@[simp] theorem State.updThread_saved (s : State) (k : Nat) (f : Thread → Thread) : (s.updThread k f).saved = s.saved := rfl
@[simp] theorem State.updThread_launches (s : State) (k : Nat) (f : Thread → Thread) : (s.updThread k f).launches = s.launches := rfl
@[simp] theorem State.updThread_nodes (s : State) (k : Nat) (f : Thread → Thread) : (s.updThread k f).nodes = s.nodes := rfl
@[simp] theorem State.updThread_graphErrors (s : State) (k : Nat) (f : Thread → Thread) : (s.updThread k f).graphErrors = s.graphErrors := rfl
@[simp] theorem State.updThread_views (s : State) (k : Nat) (f : Thread → Thread) : (s.updThread k f).views = s.views := rfl
@[simp] theorem State.updThread_amplifier (s : State) (k : Nat) (f : Thread → Thread) : (s.updThread k f).amplifier = s.amplifier := rfl
@[simp] theorem State.updThread_prims (s : State) (k : Nat) (f : Thread → Thread) : (s.updThread k f).prims = s.prims := rfl
@[simp] theorem State.updThread_covers (s : State) (k : Nat) (f : Thread → Thread) : (s.updThread k f).covers = s.covers := rfl
@[simp] theorem State.updThread_pushWaited (s : State) (k : Nat) (f : Thread → Thread) : (s.updThread k f).pushWaited = s.pushWaited := rfl
@[simp] theorem State.updThread_vote (s : State) (k : Nat) (f : Thread → Thread) : (s.updThread k f).vote = s.vote := rfl
@[simp] theorem State.updThread_fenceGen (s : State) (k : Nat) (f : Thread → Thread) : (s.updThread k f).fenceGen = s.fenceGen := rfl
@[simp] theorem State.updThread_orphan (s : State) (k : Nat) (f : Thread → Thread) : (s.updThread k f).orphan = s.orphan := rfl
@[simp] theorem State.updThread_epoch (s : State) (k : Nat) (f : Thread → Thread) : (s.updThread k f).epoch = s.epoch := rfl
@[simp] theorem State.updThread_periods (s : State) (k : Nat) (f : Thread → Thread) : (s.updThread k f).periods = s.periods := rfl
@[simp] theorem State.updThread_passNo (s : State) (k : Nat) (f : Thread → Thread) : (s.updThread k f).passNo = s.passNo := rfl
@[simp] theorem State.updThread_guardOver (s : State) (k : Nat) (f : Thread → Thread) : (s.updThread k f).guardOver = s.guardOver := rfl
@[simp] theorem State.updThread_throt (s : State) (k : Nat) (f : Thread → Thread) : (s.updThread k f).throt = s.throt := rfl
@[simp] theorem State.updThread_errors (s : State) (k : Nat) (f : Thread → Thread) : (s.updThread k f).errors = s.errors := rfl
@[simp] theorem State.updThread_uevents (s : State) (k : Nat) (f : Thread → Thread) : (s.updThread k f).uevents = s.uevents := rfl
@[simp] theorem State.updThread_mauth (s : State) (k : Nat) (f : Thread → Thread) : (s.updThread k f).mauth = s.mauth := rfl
@[simp] theorem State.updThread_rxdrop (s : State) (k : Nat) (f : Thread → Thread) : (s.updThread k f).rxdrop = s.rxdrop := rfl
@[simp] theorem State.updThread_pdown (s : State) (k : Nat) (f : Thread → Thread) : (s.updThread k f).pdown = s.pdown := rfl
@[simp] theorem State.updThread_nakCount (s : State) (k : Nat) (f : Thread → Thread) : (s.updThread k f).nakCount = s.nakCount := rfl
@[simp] theorem State.updThread_peerRefusals (s : State) (k : Nat) (f : Thread → Thread) : (s.updThread k f).peerRefusals = s.peerRefusals := rfl
@[simp] theorem State.updThread_mailDrops (s : State) (k : Nat) (f : Thread → Thread) : (s.updThread k f).mailDrops = s.mailDrops := rfl
@[simp] theorem State.updThread_bridgeStopped (s : State) (k : Nat) (f : Thread → Thread) : (s.updThread k f).bridgeStopped = s.bridgeStopped := rfl
@[simp] theorem State.updThread_bridgeRetries (s : State) (k : Nat) (f : Thread → Thread) : (s.updThread k f).bridgeRetries = s.bridgeRetries := rfl
@[simp] theorem State.updThread_station (s : State) (k : Nat) (f : Thread → Thread) : (s.updThread k f).station = s.station := rfl
@[simp] theorem State.updThread_stationKey (s : State) (k : Nat) (f : Thread → Thread) : (s.updThread k f).stationKey = s.stationKey := rfl
@[simp] theorem State.updThread_moduleNumber (s : State) (k : Nat) (f : Thread → Thread) : (s.updThread k f).moduleNumber = s.moduleNumber := rfl
@[simp] theorem State.updThread_walkedPeer (s : State) (k : Nat) (f : Thread → Thread) : (s.updThread k f).walkedPeer = s.walkedPeer := rfl
@[simp] theorem State.updThread_peerRoutes (s : State) (k : Nat) (f : Thread → Thread) : (s.updThread k f).peerRoutes = s.peerRoutes := rfl
@[simp] theorem State.updThread_portsDown (s : State) (k : Nat) (f : Thread → Thread) : (s.updThread k f).portsDown = s.portsDown := rfl
@[simp] theorem State.updThread_portReplays (s : State) (k : Nat) (f : Thread → Thread) : (s.updThread k f).portReplays = s.portReplays := rfl
@[simp] theorem State.updThread_pwrgood (s : State) (k : Nat) (f : Thread → Thread) : (s.updThread k f).pwrgood = s.pwrgood := rfl
@[simp] theorem State.updThread_resetN (s : State) (k : Nat) (f : Thread → Thread) : (s.updThread k f).resetN = s.resetN := rfl
@[simp] theorem State.updThread_ready (s : State) (k : Nat) (f : Thread → Thread) : (s.updThread k f).ready = s.ready := rfl
@[simp] theorem State.updThread_upStep (s : State) (k : Nat) (f : Thread → Thread) : (s.updThread k f).upStep = s.upStep := rfl
@[simp] theorem State.updThread_failCode (s : State) (k : Nat) (f : Thread → Thread) : (s.updThread k f).failCode = s.failCode := rfl
@[simp] theorem State.updThread_portUp (s : State) (k : Nat) (f : Thread → Thread) : (s.updThread k f).portUp = s.portUp := rfl
@[simp] theorem State.updThread_halted (s : State) (k : Nat) (f : Thread → Thread) : (s.updThread k f).halted = s.halted := rfl
@[simp] theorem State.updThread_now (s : State) (k : Nat) (f : Thread → Thread) : (s.updThread k f).now = s.now := rfl
@[simp] theorem State.updThread_inputs (s : State) (k : Nat) (f : Thread → Thread) : (s.updThread k f).inputs = s.inputs := rfl
@[simp] theorem State.updThread_sent (s : State) (k : Nat) (f : Thread → Thread) : (s.updThread k f).sent = s.sent := rfl
@[simp] theorem State.updThread_agenda (s : State) (k : Nat) (f : Thread → Thread) : (s.updThread k f).agenda = s.agenda := rfl
@[simp] theorem State.updThread_gather (s : State) (k : Nat) (f : Thread → Thread) : (s.updThread k f).gather = s.gather := rfl
@[simp] theorem State.updThread_armed (s : State) (k : Nat) (f : Thread → Thread) : (s.updThread k f).armed = s.armed := rfl
@[simp] theorem State.updThread_patrolled (s : State) (k : Nat) (f : Thread → Thread) : (s.updThread k f).patrolled = s.patrolled := rfl
@[simp] theorem State.updThread_sensed (s : State) (k : Nat) (f : Thread → Thread) : (s.updThread k f).sensed = s.sensed := rfl
@[simp] theorem State.updThread_moves (s : State) (k : Nat) (f : Thread → Thread) : (s.updThread k f).moves = s.moves := rfl
@[simp] theorem State.updThread_nextOp (s : State) (k : Nat) (f : Thread → Thread) : (s.updThread k f).nextOp = s.nextOp := rfl
@[simp] theorem State.updThread_nextGid (s : State) (k : Nat) (f : Thread → Thread) : (s.updThread k f).nextGid = s.nextGid := rfl
@[simp] theorem State.updThread_nextChoice (s : State) (k : Nat) (f : Thread → Thread) : (s.updThread k f).nextChoice = s.nextChoice := rfl
@[simp] theorem State.updGroup_threads (s : State) (k : Nat) (f : Group → Group) : (s.updGroup k f).threads = s.threads := rfl
@[simp] theorem State.updGroup_thresher (s : State) (k : Nat) (f : Group → Group) : (s.updGroup k f).thresher = s.thresher := rfl
@[simp] theorem State.updGroup_partWord (s : State) (k : Nat) (f : Group → Group) : (s.updGroup k f).partWord = s.partWord := rfl
@[simp] theorem State.updGroup_board (s : State) (k : Nat) (f : Group → Group) : (s.updGroup k f).board = s.board := rfl
@[simp] theorem State.updGroup_ops (s : State) (k : Nat) (f : Group → Group) : (s.updGroup k f).ops = s.ops := rfl
@[simp] theorem State.updGroup_hbm (s : State) (k : Nat) (f : Group → Group) : (s.updGroup k f).hbm = s.hbm := rfl
@[simp] theorem State.updGroup_poison (s : State) (k : Nat) (f : Group → Group) : (s.updGroup k f).poison = s.poison := rfl
@[simp] theorem State.updGroup_upsets (s : State) (k : Nat) (f : Group → Group) : (s.updGroup k f).upsets = s.upsets := rfl
@[simp] theorem State.updGroup_lines (s : State) (k : Nat) (f : Group → Group) : (s.updGroup k f).lines = s.lines := rfl
@[simp] theorem State.updGroup_lineUses (s : State) (k : Nat) (f : Group → Group) : (s.updGroup k f).lineUses = s.lineUses := rfl
@[simp] theorem State.updGroup_portHeld (s : State) (k : Nat) (f : Group → Group) : (s.updGroup k f).portHeld = s.portHeld := rfl
@[simp] theorem State.updGroup_grants (s : State) (k : Nat) (f : Group → Group) : (s.updGroup k f).grants = s.grants := rfl
@[simp] theorem State.updGroup_wq (s : State) (k : Nat) (f : Group → Group) : (s.updGroup k f).wq = s.wq := rfl
@[simp] theorem State.updGroup_loadCache (s : State) (k : Nat) (f : Group → Group) : (s.updGroup k f).loadCache = s.loadCache := rfl
@[simp] theorem State.updGroup_scanout (s : State) (k : Nat) (f : Group → Group) : (s.updGroup k f).scanout = s.scanout := rfl
@[simp] theorem State.updGroup_tlb (s : State) (k : Nat) (f : Group → Group) : (s.updGroup k f).tlb = s.tlb := rfl
@[simp] theorem State.updGroup_walkCache (s : State) (k : Nat) (f : Group → Group) : (s.updGroup k f).walkCache = s.walkCache := rfl
@[simp] theorem State.updGroup_enroute (s : State) (k : Nat) (f : Group → Group) : (s.updGroup k f).enroute = s.enroute := rfl
@[simp] theorem State.updGroup_misses (s : State) (k : Nat) (f : Group → Group) : (s.updGroup k f).misses = s.misses := rfl
@[simp] theorem State.updGroup_lastDetect (s : State) (k : Nat) (f : Group → Group) : (s.updGroup k f).lastDetect = s.lastDetect := rfl
@[simp] theorem State.updGroup_mail (s : State) (k : Nat) (f : Group → Group) : (s.updGroup k f).mail = s.mail := rfl
@[simp] theorem State.updGroup_claims (s : State) (k : Nat) (f : Group → Group) : (s.updGroup k f).claims = s.claims := rfl
@[simp] theorem State.updGroup_gangStops (s : State) (k : Nat) (f : Group → Group) : (s.updGroup k f).gangStops = s.gangStops := rfl
@[simp] theorem State.updGroup_logPending (s : State) (k : Nat) (f : Group → Group) : (s.updGroup k f).logPending = s.logPending := rfl
@[simp] theorem State.updGroup_tenants (s : State) (k : Nat) (f : Group → Group) : (s.updGroup k f).tenants = s.tenants := rfl
@[simp] theorem State.updGroup_ctxs (s : State) (k : Nat) (f : Group → Group) : (s.updGroup k f).ctxs = s.ctxs := rfl
@[simp] theorem State.updGroup_saved (s : State) (k : Nat) (f : Group → Group) : (s.updGroup k f).saved = s.saved := rfl
@[simp] theorem State.updGroup_launches (s : State) (k : Nat) (f : Group → Group) : (s.updGroup k f).launches = s.launches := rfl
@[simp] theorem State.updGroup_nodes (s : State) (k : Nat) (f : Group → Group) : (s.updGroup k f).nodes = s.nodes := rfl
@[simp] theorem State.updGroup_graphErrors (s : State) (k : Nat) (f : Group → Group) : (s.updGroup k f).graphErrors = s.graphErrors := rfl
@[simp] theorem State.updGroup_views (s : State) (k : Nat) (f : Group → Group) : (s.updGroup k f).views = s.views := rfl
@[simp] theorem State.updGroup_amplifier (s : State) (k : Nat) (f : Group → Group) : (s.updGroup k f).amplifier = s.amplifier := rfl
@[simp] theorem State.updGroup_prims (s : State) (k : Nat) (f : Group → Group) : (s.updGroup k f).prims = s.prims := rfl
@[simp] theorem State.updGroup_covers (s : State) (k : Nat) (f : Group → Group) : (s.updGroup k f).covers = s.covers := rfl
@[simp] theorem State.updGroup_pushWaited (s : State) (k : Nat) (f : Group → Group) : (s.updGroup k f).pushWaited = s.pushWaited := rfl
@[simp] theorem State.updGroup_vote (s : State) (k : Nat) (f : Group → Group) : (s.updGroup k f).vote = s.vote := rfl
@[simp] theorem State.updGroup_fenceGen (s : State) (k : Nat) (f : Group → Group) : (s.updGroup k f).fenceGen = s.fenceGen := rfl
@[simp] theorem State.updGroup_orphan (s : State) (k : Nat) (f : Group → Group) : (s.updGroup k f).orphan = s.orphan := rfl
@[simp] theorem State.updGroup_epoch (s : State) (k : Nat) (f : Group → Group) : (s.updGroup k f).epoch = s.epoch := rfl
@[simp] theorem State.updGroup_periods (s : State) (k : Nat) (f : Group → Group) : (s.updGroup k f).periods = s.periods := rfl
@[simp] theorem State.updGroup_passNo (s : State) (k : Nat) (f : Group → Group) : (s.updGroup k f).passNo = s.passNo := rfl
@[simp] theorem State.updGroup_guardOver (s : State) (k : Nat) (f : Group → Group) : (s.updGroup k f).guardOver = s.guardOver := rfl
@[simp] theorem State.updGroup_throt (s : State) (k : Nat) (f : Group → Group) : (s.updGroup k f).throt = s.throt := rfl
@[simp] theorem State.updGroup_errors (s : State) (k : Nat) (f : Group → Group) : (s.updGroup k f).errors = s.errors := rfl
@[simp] theorem State.updGroup_uevents (s : State) (k : Nat) (f : Group → Group) : (s.updGroup k f).uevents = s.uevents := rfl
@[simp] theorem State.updGroup_mauth (s : State) (k : Nat) (f : Group → Group) : (s.updGroup k f).mauth = s.mauth := rfl
@[simp] theorem State.updGroup_rxdrop (s : State) (k : Nat) (f : Group → Group) : (s.updGroup k f).rxdrop = s.rxdrop := rfl
@[simp] theorem State.updGroup_pdown (s : State) (k : Nat) (f : Group → Group) : (s.updGroup k f).pdown = s.pdown := rfl
@[simp] theorem State.updGroup_nakCount (s : State) (k : Nat) (f : Group → Group) : (s.updGroup k f).nakCount = s.nakCount := rfl
@[simp] theorem State.updGroup_peerRefusals (s : State) (k : Nat) (f : Group → Group) : (s.updGroup k f).peerRefusals = s.peerRefusals := rfl
@[simp] theorem State.updGroup_mailDrops (s : State) (k : Nat) (f : Group → Group) : (s.updGroup k f).mailDrops = s.mailDrops := rfl
@[simp] theorem State.updGroup_bridgeStopped (s : State) (k : Nat) (f : Group → Group) : (s.updGroup k f).bridgeStopped = s.bridgeStopped := rfl
@[simp] theorem State.updGroup_bridgeRetries (s : State) (k : Nat) (f : Group → Group) : (s.updGroup k f).bridgeRetries = s.bridgeRetries := rfl
@[simp] theorem State.updGroup_station (s : State) (k : Nat) (f : Group → Group) : (s.updGroup k f).station = s.station := rfl
@[simp] theorem State.updGroup_stationKey (s : State) (k : Nat) (f : Group → Group) : (s.updGroup k f).stationKey = s.stationKey := rfl
@[simp] theorem State.updGroup_moduleNumber (s : State) (k : Nat) (f : Group → Group) : (s.updGroup k f).moduleNumber = s.moduleNumber := rfl
@[simp] theorem State.updGroup_walkedPeer (s : State) (k : Nat) (f : Group → Group) : (s.updGroup k f).walkedPeer = s.walkedPeer := rfl
@[simp] theorem State.updGroup_peerRoutes (s : State) (k : Nat) (f : Group → Group) : (s.updGroup k f).peerRoutes = s.peerRoutes := rfl
@[simp] theorem State.updGroup_portsDown (s : State) (k : Nat) (f : Group → Group) : (s.updGroup k f).portsDown = s.portsDown := rfl
@[simp] theorem State.updGroup_portReplays (s : State) (k : Nat) (f : Group → Group) : (s.updGroup k f).portReplays = s.portReplays := rfl
@[simp] theorem State.updGroup_pwrgood (s : State) (k : Nat) (f : Group → Group) : (s.updGroup k f).pwrgood = s.pwrgood := rfl
@[simp] theorem State.updGroup_resetN (s : State) (k : Nat) (f : Group → Group) : (s.updGroup k f).resetN = s.resetN := rfl
@[simp] theorem State.updGroup_ready (s : State) (k : Nat) (f : Group → Group) : (s.updGroup k f).ready = s.ready := rfl
@[simp] theorem State.updGroup_upStep (s : State) (k : Nat) (f : Group → Group) : (s.updGroup k f).upStep = s.upStep := rfl
@[simp] theorem State.updGroup_failCode (s : State) (k : Nat) (f : Group → Group) : (s.updGroup k f).failCode = s.failCode := rfl
@[simp] theorem State.updGroup_portUp (s : State) (k : Nat) (f : Group → Group) : (s.updGroup k f).portUp = s.portUp := rfl
@[simp] theorem State.updGroup_halted (s : State) (k : Nat) (f : Group → Group) : (s.updGroup k f).halted = s.halted := rfl
@[simp] theorem State.updGroup_now (s : State) (k : Nat) (f : Group → Group) : (s.updGroup k f).now = s.now := rfl
@[simp] theorem State.updGroup_inputs (s : State) (k : Nat) (f : Group → Group) : (s.updGroup k f).inputs = s.inputs := rfl
@[simp] theorem State.updGroup_sent (s : State) (k : Nat) (f : Group → Group) : (s.updGroup k f).sent = s.sent := rfl
@[simp] theorem State.updGroup_agenda (s : State) (k : Nat) (f : Group → Group) : (s.updGroup k f).agenda = s.agenda := rfl
@[simp] theorem State.updGroup_gather (s : State) (k : Nat) (f : Group → Group) : (s.updGroup k f).gather = s.gather := rfl
@[simp] theorem State.updGroup_armed (s : State) (k : Nat) (f : Group → Group) : (s.updGroup k f).armed = s.armed := rfl
@[simp] theorem State.updGroup_patrolled (s : State) (k : Nat) (f : Group → Group) : (s.updGroup k f).patrolled = s.patrolled := rfl
@[simp] theorem State.updGroup_sensed (s : State) (k : Nat) (f : Group → Group) : (s.updGroup k f).sensed = s.sensed := rfl
@[simp] theorem State.updGroup_moves (s : State) (k : Nat) (f : Group → Group) : (s.updGroup k f).moves = s.moves := rfl
@[simp] theorem State.updGroup_nextOp (s : State) (k : Nat) (f : Group → Group) : (s.updGroup k f).nextOp = s.nextOp := rfl
@[simp] theorem State.updGroup_nextGid (s : State) (k : Nat) (f : Group → Group) : (s.updGroup k f).nextGid = s.nextGid := rfl
@[simp] theorem State.updGroup_nextChoice (s : State) (k : Nat) (f : Group → Group) : (s.updGroup k f).nextChoice = s.nextChoice := rfl
@[simp] theorem State.updCtx_threads (s : State) (k : Nat) (f : Ctx → Ctx) : (s.updCtx k f).threads = s.threads := rfl
@[simp] theorem State.updCtx_groups (s : State) (k : Nat) (f : Ctx → Ctx) : (s.updCtx k f).groups = s.groups := rfl
@[simp] theorem State.updCtx_thresher (s : State) (k : Nat) (f : Ctx → Ctx) : (s.updCtx k f).thresher = s.thresher := rfl
@[simp] theorem State.updCtx_partWord (s : State) (k : Nat) (f : Ctx → Ctx) : (s.updCtx k f).partWord = s.partWord := rfl
@[simp] theorem State.updCtx_board (s : State) (k : Nat) (f : Ctx → Ctx) : (s.updCtx k f).board = s.board := rfl
@[simp] theorem State.updCtx_ops (s : State) (k : Nat) (f : Ctx → Ctx) : (s.updCtx k f).ops = s.ops := rfl
@[simp] theorem State.updCtx_hbm (s : State) (k : Nat) (f : Ctx → Ctx) : (s.updCtx k f).hbm = s.hbm := rfl
@[simp] theorem State.updCtx_poison (s : State) (k : Nat) (f : Ctx → Ctx) : (s.updCtx k f).poison = s.poison := rfl
@[simp] theorem State.updCtx_upsets (s : State) (k : Nat) (f : Ctx → Ctx) : (s.updCtx k f).upsets = s.upsets := rfl
@[simp] theorem State.updCtx_lines (s : State) (k : Nat) (f : Ctx → Ctx) : (s.updCtx k f).lines = s.lines := rfl
@[simp] theorem State.updCtx_lineUses (s : State) (k : Nat) (f : Ctx → Ctx) : (s.updCtx k f).lineUses = s.lineUses := rfl
@[simp] theorem State.updCtx_portHeld (s : State) (k : Nat) (f : Ctx → Ctx) : (s.updCtx k f).portHeld = s.portHeld := rfl
@[simp] theorem State.updCtx_grants (s : State) (k : Nat) (f : Ctx → Ctx) : (s.updCtx k f).grants = s.grants := rfl
@[simp] theorem State.updCtx_wq (s : State) (k : Nat) (f : Ctx → Ctx) : (s.updCtx k f).wq = s.wq := rfl
@[simp] theorem State.updCtx_loadCache (s : State) (k : Nat) (f : Ctx → Ctx) : (s.updCtx k f).loadCache = s.loadCache := rfl
@[simp] theorem State.updCtx_scanout (s : State) (k : Nat) (f : Ctx → Ctx) : (s.updCtx k f).scanout = s.scanout := rfl
@[simp] theorem State.updCtx_tlb (s : State) (k : Nat) (f : Ctx → Ctx) : (s.updCtx k f).tlb = s.tlb := rfl
@[simp] theorem State.updCtx_walkCache (s : State) (k : Nat) (f : Ctx → Ctx) : (s.updCtx k f).walkCache = s.walkCache := rfl
@[simp] theorem State.updCtx_enroute (s : State) (k : Nat) (f : Ctx → Ctx) : (s.updCtx k f).enroute = s.enroute := rfl
@[simp] theorem State.updCtx_misses (s : State) (k : Nat) (f : Ctx → Ctx) : (s.updCtx k f).misses = s.misses := rfl
@[simp] theorem State.updCtx_lastDetect (s : State) (k : Nat) (f : Ctx → Ctx) : (s.updCtx k f).lastDetect = s.lastDetect := rfl
@[simp] theorem State.updCtx_mail (s : State) (k : Nat) (f : Ctx → Ctx) : (s.updCtx k f).mail = s.mail := rfl
@[simp] theorem State.updCtx_claims (s : State) (k : Nat) (f : Ctx → Ctx) : (s.updCtx k f).claims = s.claims := rfl
@[simp] theorem State.updCtx_gangStops (s : State) (k : Nat) (f : Ctx → Ctx) : (s.updCtx k f).gangStops = s.gangStops := rfl
@[simp] theorem State.updCtx_logPending (s : State) (k : Nat) (f : Ctx → Ctx) : (s.updCtx k f).logPending = s.logPending := rfl
@[simp] theorem State.updCtx_tenants (s : State) (k : Nat) (f : Ctx → Ctx) : (s.updCtx k f).tenants = s.tenants := rfl
@[simp] theorem State.updCtx_saved (s : State) (k : Nat) (f : Ctx → Ctx) : (s.updCtx k f).saved = s.saved := rfl
@[simp] theorem State.updCtx_launches (s : State) (k : Nat) (f : Ctx → Ctx) : (s.updCtx k f).launches = s.launches := rfl
@[simp] theorem State.updCtx_nodes (s : State) (k : Nat) (f : Ctx → Ctx) : (s.updCtx k f).nodes = s.nodes := rfl
@[simp] theorem State.updCtx_graphErrors (s : State) (k : Nat) (f : Ctx → Ctx) : (s.updCtx k f).graphErrors = s.graphErrors := rfl
@[simp] theorem State.updCtx_views (s : State) (k : Nat) (f : Ctx → Ctx) : (s.updCtx k f).views = s.views := rfl
@[simp] theorem State.updCtx_amplifier (s : State) (k : Nat) (f : Ctx → Ctx) : (s.updCtx k f).amplifier = s.amplifier := rfl
@[simp] theorem State.updCtx_prims (s : State) (k : Nat) (f : Ctx → Ctx) : (s.updCtx k f).prims = s.prims := rfl
@[simp] theorem State.updCtx_covers (s : State) (k : Nat) (f : Ctx → Ctx) : (s.updCtx k f).covers = s.covers := rfl
@[simp] theorem State.updCtx_pushWaited (s : State) (k : Nat) (f : Ctx → Ctx) : (s.updCtx k f).pushWaited = s.pushWaited := rfl
@[simp] theorem State.updCtx_vote (s : State) (k : Nat) (f : Ctx → Ctx) : (s.updCtx k f).vote = s.vote := rfl
@[simp] theorem State.updCtx_fenceGen (s : State) (k : Nat) (f : Ctx → Ctx) : (s.updCtx k f).fenceGen = s.fenceGen := rfl
@[simp] theorem State.updCtx_orphan (s : State) (k : Nat) (f : Ctx → Ctx) : (s.updCtx k f).orphan = s.orphan := rfl
@[simp] theorem State.updCtx_epoch (s : State) (k : Nat) (f : Ctx → Ctx) : (s.updCtx k f).epoch = s.epoch := rfl
@[simp] theorem State.updCtx_periods (s : State) (k : Nat) (f : Ctx → Ctx) : (s.updCtx k f).periods = s.periods := rfl
@[simp] theorem State.updCtx_passNo (s : State) (k : Nat) (f : Ctx → Ctx) : (s.updCtx k f).passNo = s.passNo := rfl
@[simp] theorem State.updCtx_guardOver (s : State) (k : Nat) (f : Ctx → Ctx) : (s.updCtx k f).guardOver = s.guardOver := rfl
@[simp] theorem State.updCtx_throt (s : State) (k : Nat) (f : Ctx → Ctx) : (s.updCtx k f).throt = s.throt := rfl
@[simp] theorem State.updCtx_errors (s : State) (k : Nat) (f : Ctx → Ctx) : (s.updCtx k f).errors = s.errors := rfl
@[simp] theorem State.updCtx_uevents (s : State) (k : Nat) (f : Ctx → Ctx) : (s.updCtx k f).uevents = s.uevents := rfl
@[simp] theorem State.updCtx_mauth (s : State) (k : Nat) (f : Ctx → Ctx) : (s.updCtx k f).mauth = s.mauth := rfl
@[simp] theorem State.updCtx_rxdrop (s : State) (k : Nat) (f : Ctx → Ctx) : (s.updCtx k f).rxdrop = s.rxdrop := rfl
@[simp] theorem State.updCtx_pdown (s : State) (k : Nat) (f : Ctx → Ctx) : (s.updCtx k f).pdown = s.pdown := rfl
@[simp] theorem State.updCtx_nakCount (s : State) (k : Nat) (f : Ctx → Ctx) : (s.updCtx k f).nakCount = s.nakCount := rfl
@[simp] theorem State.updCtx_peerRefusals (s : State) (k : Nat) (f : Ctx → Ctx) : (s.updCtx k f).peerRefusals = s.peerRefusals := rfl
@[simp] theorem State.updCtx_mailDrops (s : State) (k : Nat) (f : Ctx → Ctx) : (s.updCtx k f).mailDrops = s.mailDrops := rfl
@[simp] theorem State.updCtx_bridgeStopped (s : State) (k : Nat) (f : Ctx → Ctx) : (s.updCtx k f).bridgeStopped = s.bridgeStopped := rfl
@[simp] theorem State.updCtx_bridgeRetries (s : State) (k : Nat) (f : Ctx → Ctx) : (s.updCtx k f).bridgeRetries = s.bridgeRetries := rfl
@[simp] theorem State.updCtx_station (s : State) (k : Nat) (f : Ctx → Ctx) : (s.updCtx k f).station = s.station := rfl
@[simp] theorem State.updCtx_stationKey (s : State) (k : Nat) (f : Ctx → Ctx) : (s.updCtx k f).stationKey = s.stationKey := rfl
@[simp] theorem State.updCtx_moduleNumber (s : State) (k : Nat) (f : Ctx → Ctx) : (s.updCtx k f).moduleNumber = s.moduleNumber := rfl
@[simp] theorem State.updCtx_walkedPeer (s : State) (k : Nat) (f : Ctx → Ctx) : (s.updCtx k f).walkedPeer = s.walkedPeer := rfl
@[simp] theorem State.updCtx_peerRoutes (s : State) (k : Nat) (f : Ctx → Ctx) : (s.updCtx k f).peerRoutes = s.peerRoutes := rfl
@[simp] theorem State.updCtx_portsDown (s : State) (k : Nat) (f : Ctx → Ctx) : (s.updCtx k f).portsDown = s.portsDown := rfl
@[simp] theorem State.updCtx_portReplays (s : State) (k : Nat) (f : Ctx → Ctx) : (s.updCtx k f).portReplays = s.portReplays := rfl
@[simp] theorem State.updCtx_pwrgood (s : State) (k : Nat) (f : Ctx → Ctx) : (s.updCtx k f).pwrgood = s.pwrgood := rfl
@[simp] theorem State.updCtx_resetN (s : State) (k : Nat) (f : Ctx → Ctx) : (s.updCtx k f).resetN = s.resetN := rfl
@[simp] theorem State.updCtx_ready (s : State) (k : Nat) (f : Ctx → Ctx) : (s.updCtx k f).ready = s.ready := rfl
@[simp] theorem State.updCtx_upStep (s : State) (k : Nat) (f : Ctx → Ctx) : (s.updCtx k f).upStep = s.upStep := rfl
@[simp] theorem State.updCtx_failCode (s : State) (k : Nat) (f : Ctx → Ctx) : (s.updCtx k f).failCode = s.failCode := rfl
@[simp] theorem State.updCtx_portUp (s : State) (k : Nat) (f : Ctx → Ctx) : (s.updCtx k f).portUp = s.portUp := rfl
@[simp] theorem State.updCtx_halted (s : State) (k : Nat) (f : Ctx → Ctx) : (s.updCtx k f).halted = s.halted := rfl
@[simp] theorem State.updCtx_now (s : State) (k : Nat) (f : Ctx → Ctx) : (s.updCtx k f).now = s.now := rfl
@[simp] theorem State.updCtx_inputs (s : State) (k : Nat) (f : Ctx → Ctx) : (s.updCtx k f).inputs = s.inputs := rfl
@[simp] theorem State.updCtx_sent (s : State) (k : Nat) (f : Ctx → Ctx) : (s.updCtx k f).sent = s.sent := rfl
@[simp] theorem State.updCtx_agenda (s : State) (k : Nat) (f : Ctx → Ctx) : (s.updCtx k f).agenda = s.agenda := rfl
@[simp] theorem State.updCtx_gather (s : State) (k : Nat) (f : Ctx → Ctx) : (s.updCtx k f).gather = s.gather := rfl
@[simp] theorem State.updCtx_armed (s : State) (k : Nat) (f : Ctx → Ctx) : (s.updCtx k f).armed = s.armed := rfl
@[simp] theorem State.updCtx_patrolled (s : State) (k : Nat) (f : Ctx → Ctx) : (s.updCtx k f).patrolled = s.patrolled := rfl
@[simp] theorem State.updCtx_sensed (s : State) (k : Nat) (f : Ctx → Ctx) : (s.updCtx k f).sensed = s.sensed := rfl
@[simp] theorem State.updCtx_moves (s : State) (k : Nat) (f : Ctx → Ctx) : (s.updCtx k f).moves = s.moves := rfl
@[simp] theorem State.updCtx_nextOp (s : State) (k : Nat) (f : Ctx → Ctx) : (s.updCtx k f).nextOp = s.nextOp := rfl
@[simp] theorem State.updCtx_nextGid (s : State) (k : Nat) (f : Ctx → Ctx) : (s.updCtx k f).nextGid = s.nextGid := rfl
@[simp] theorem State.updCtx_nextChoice (s : State) (k : Nat) (f : Ctx → Ctx) : (s.updCtx k f).nextChoice = s.nextChoice := rfl
@[simp] theorem State.retire_groups (s : State) (k : Nat) : (s.retire k).groups = s.groups := rfl
@[simp] theorem State.retire_thresher (s : State) (k : Nat) : (s.retire k).thresher = s.thresher := rfl
@[simp] theorem State.retire_partWord (s : State) (k : Nat) : (s.retire k).partWord = s.partWord := rfl
@[simp] theorem State.retire_board (s : State) (k : Nat) : (s.retire k).board = s.board := rfl
@[simp] theorem State.retire_ops (s : State) (k : Nat) : (s.retire k).ops = s.ops := rfl
@[simp] theorem State.retire_hbm (s : State) (k : Nat) : (s.retire k).hbm = s.hbm := rfl
@[simp] theorem State.retire_poison (s : State) (k : Nat) : (s.retire k).poison = s.poison := rfl
@[simp] theorem State.retire_upsets (s : State) (k : Nat) : (s.retire k).upsets = s.upsets := rfl
@[simp] theorem State.retire_lines (s : State) (k : Nat) : (s.retire k).lines = s.lines := rfl
@[simp] theorem State.retire_lineUses (s : State) (k : Nat) : (s.retire k).lineUses = s.lineUses := rfl
@[simp] theorem State.retire_portHeld (s : State) (k : Nat) : (s.retire k).portHeld = s.portHeld := rfl
@[simp] theorem State.retire_grants (s : State) (k : Nat) : (s.retire k).grants = s.grants := rfl
@[simp] theorem State.retire_wq (s : State) (k : Nat) : (s.retire k).wq = s.wq := rfl
@[simp] theorem State.retire_loadCache (s : State) (k : Nat) : (s.retire k).loadCache = s.loadCache := rfl
@[simp] theorem State.retire_scanout (s : State) (k : Nat) : (s.retire k).scanout = s.scanout := rfl
@[simp] theorem State.retire_tlb (s : State) (k : Nat) : (s.retire k).tlb = s.tlb := rfl
@[simp] theorem State.retire_walkCache (s : State) (k : Nat) : (s.retire k).walkCache = s.walkCache := rfl
@[simp] theorem State.retire_enroute (s : State) (k : Nat) : (s.retire k).enroute = s.enroute := rfl
@[simp] theorem State.retire_misses (s : State) (k : Nat) : (s.retire k).misses = s.misses := rfl
@[simp] theorem State.retire_lastDetect (s : State) (k : Nat) : (s.retire k).lastDetect = s.lastDetect := rfl
@[simp] theorem State.retire_mail (s : State) (k : Nat) : (s.retire k).mail = s.mail := rfl
@[simp] theorem State.retire_claims (s : State) (k : Nat) : (s.retire k).claims = s.claims := rfl
@[simp] theorem State.retire_gangStops (s : State) (k : Nat) : (s.retire k).gangStops = s.gangStops := rfl
@[simp] theorem State.retire_logPending (s : State) (k : Nat) : (s.retire k).logPending = s.logPending := rfl
@[simp] theorem State.retire_tenants (s : State) (k : Nat) : (s.retire k).tenants = s.tenants := rfl
@[simp] theorem State.retire_ctxs (s : State) (k : Nat) : (s.retire k).ctxs = s.ctxs := rfl
@[simp] theorem State.retire_saved (s : State) (k : Nat) : (s.retire k).saved = s.saved := rfl
@[simp] theorem State.retire_launches (s : State) (k : Nat) : (s.retire k).launches = s.launches := rfl
@[simp] theorem State.retire_nodes (s : State) (k : Nat) : (s.retire k).nodes = s.nodes := rfl
@[simp] theorem State.retire_graphErrors (s : State) (k : Nat) : (s.retire k).graphErrors = s.graphErrors := rfl
@[simp] theorem State.retire_views (s : State) (k : Nat) : (s.retire k).views = s.views := rfl
@[simp] theorem State.retire_amplifier (s : State) (k : Nat) : (s.retire k).amplifier = s.amplifier := rfl
@[simp] theorem State.retire_prims (s : State) (k : Nat) : (s.retire k).prims = s.prims := rfl
@[simp] theorem State.retire_covers (s : State) (k : Nat) : (s.retire k).covers = s.covers := rfl
@[simp] theorem State.retire_pushWaited (s : State) (k : Nat) : (s.retire k).pushWaited = s.pushWaited := rfl
@[simp] theorem State.retire_vote (s : State) (k : Nat) : (s.retire k).vote = s.vote := rfl
@[simp] theorem State.retire_fenceGen (s : State) (k : Nat) : (s.retire k).fenceGen = s.fenceGen := rfl
@[simp] theorem State.retire_orphan (s : State) (k : Nat) : (s.retire k).orphan = s.orphan := rfl
@[simp] theorem State.retire_epoch (s : State) (k : Nat) : (s.retire k).epoch = s.epoch := rfl
@[simp] theorem State.retire_periods (s : State) (k : Nat) : (s.retire k).periods = s.periods := rfl
@[simp] theorem State.retire_passNo (s : State) (k : Nat) : (s.retire k).passNo = s.passNo := rfl
@[simp] theorem State.retire_guardOver (s : State) (k : Nat) : (s.retire k).guardOver = s.guardOver := rfl
@[simp] theorem State.retire_throt (s : State) (k : Nat) : (s.retire k).throt = s.throt := rfl
@[simp] theorem State.retire_errors (s : State) (k : Nat) : (s.retire k).errors = s.errors := rfl
@[simp] theorem State.retire_uevents (s : State) (k : Nat) : (s.retire k).uevents = s.uevents := rfl
@[simp] theorem State.retire_mauth (s : State) (k : Nat) : (s.retire k).mauth = s.mauth := rfl
@[simp] theorem State.retire_rxdrop (s : State) (k : Nat) : (s.retire k).rxdrop = s.rxdrop := rfl
@[simp] theorem State.retire_pdown (s : State) (k : Nat) : (s.retire k).pdown = s.pdown := rfl
@[simp] theorem State.retire_nakCount (s : State) (k : Nat) : (s.retire k).nakCount = s.nakCount := rfl
@[simp] theorem State.retire_peerRefusals (s : State) (k : Nat) : (s.retire k).peerRefusals = s.peerRefusals := rfl
@[simp] theorem State.retire_mailDrops (s : State) (k : Nat) : (s.retire k).mailDrops = s.mailDrops := rfl
@[simp] theorem State.retire_bridgeStopped (s : State) (k : Nat) : (s.retire k).bridgeStopped = s.bridgeStopped := rfl
@[simp] theorem State.retire_bridgeRetries (s : State) (k : Nat) : (s.retire k).bridgeRetries = s.bridgeRetries := rfl
@[simp] theorem State.retire_station (s : State) (k : Nat) : (s.retire k).station = s.station := rfl
@[simp] theorem State.retire_stationKey (s : State) (k : Nat) : (s.retire k).stationKey = s.stationKey := rfl
@[simp] theorem State.retire_moduleNumber (s : State) (k : Nat) : (s.retire k).moduleNumber = s.moduleNumber := rfl
@[simp] theorem State.retire_walkedPeer (s : State) (k : Nat) : (s.retire k).walkedPeer = s.walkedPeer := rfl
@[simp] theorem State.retire_peerRoutes (s : State) (k : Nat) : (s.retire k).peerRoutes = s.peerRoutes := rfl
@[simp] theorem State.retire_portsDown (s : State) (k : Nat) : (s.retire k).portsDown = s.portsDown := rfl
@[simp] theorem State.retire_portReplays (s : State) (k : Nat) : (s.retire k).portReplays = s.portReplays := rfl
@[simp] theorem State.retire_pwrgood (s : State) (k : Nat) : (s.retire k).pwrgood = s.pwrgood := rfl
@[simp] theorem State.retire_resetN (s : State) (k : Nat) : (s.retire k).resetN = s.resetN := rfl
@[simp] theorem State.retire_ready (s : State) (k : Nat) : (s.retire k).ready = s.ready := rfl
@[simp] theorem State.retire_upStep (s : State) (k : Nat) : (s.retire k).upStep = s.upStep := rfl
@[simp] theorem State.retire_failCode (s : State) (k : Nat) : (s.retire k).failCode = s.failCode := rfl
@[simp] theorem State.retire_portUp (s : State) (k : Nat) : (s.retire k).portUp = s.portUp := rfl
@[simp] theorem State.retire_halted (s : State) (k : Nat) : (s.retire k).halted = s.halted := rfl
@[simp] theorem State.retire_now (s : State) (k : Nat) : (s.retire k).now = s.now := rfl
@[simp] theorem State.retire_inputs (s : State) (k : Nat) : (s.retire k).inputs = s.inputs := rfl
@[simp] theorem State.retire_sent (s : State) (k : Nat) : (s.retire k).sent = s.sent := rfl
@[simp] theorem State.retire_agenda (s : State) (k : Nat) : (s.retire k).agenda = s.agenda := rfl
@[simp] theorem State.retire_gather (s : State) (k : Nat) : (s.retire k).gather = s.gather := rfl
@[simp] theorem State.retire_armed (s : State) (k : Nat) : (s.retire k).armed = s.armed := rfl
@[simp] theorem State.retire_patrolled (s : State) (k : Nat) : (s.retire k).patrolled = s.patrolled := rfl
@[simp] theorem State.retire_sensed (s : State) (k : Nat) : (s.retire k).sensed = s.sensed := rfl
@[simp] theorem State.retire_moves (s : State) (k : Nat) : (s.retire k).moves = s.moves := rfl
@[simp] theorem State.retire_nextOp (s : State) (k : Nat) : (s.retire k).nextOp = s.nextOp := rfl
@[simp] theorem State.retire_nextGid (s : State) (k : Nat) : (s.retire k).nextGid = s.nextGid := rfl
@[simp] theorem State.retire_nextChoice (s : State) (k : Nat) : (s.retire k).nextChoice = s.nextChoice := rfl
@[simp] theorem State.waitIn_groups (s : State) (k : Nat) (w : Wait) : (s.waitIn k w).groups = s.groups := rfl
@[simp] theorem State.waitIn_thresher (s : State) (k : Nat) (w : Wait) : (s.waitIn k w).thresher = s.thresher := rfl
@[simp] theorem State.waitIn_partWord (s : State) (k : Nat) (w : Wait) : (s.waitIn k w).partWord = s.partWord := rfl
@[simp] theorem State.waitIn_board (s : State) (k : Nat) (w : Wait) : (s.waitIn k w).board = s.board := rfl
@[simp] theorem State.waitIn_ops (s : State) (k : Nat) (w : Wait) : (s.waitIn k w).ops = s.ops := rfl
@[simp] theorem State.waitIn_hbm (s : State) (k : Nat) (w : Wait) : (s.waitIn k w).hbm = s.hbm := rfl
@[simp] theorem State.waitIn_poison (s : State) (k : Nat) (w : Wait) : (s.waitIn k w).poison = s.poison := rfl
@[simp] theorem State.waitIn_upsets (s : State) (k : Nat) (w : Wait) : (s.waitIn k w).upsets = s.upsets := rfl
@[simp] theorem State.waitIn_lines (s : State) (k : Nat) (w : Wait) : (s.waitIn k w).lines = s.lines := rfl
@[simp] theorem State.waitIn_lineUses (s : State) (k : Nat) (w : Wait) : (s.waitIn k w).lineUses = s.lineUses := rfl
@[simp] theorem State.waitIn_portHeld (s : State) (k : Nat) (w : Wait) : (s.waitIn k w).portHeld = s.portHeld := rfl
@[simp] theorem State.waitIn_grants (s : State) (k : Nat) (w : Wait) : (s.waitIn k w).grants = s.grants := rfl
@[simp] theorem State.waitIn_wq (s : State) (k : Nat) (w : Wait) : (s.waitIn k w).wq = s.wq := rfl
@[simp] theorem State.waitIn_loadCache (s : State) (k : Nat) (w : Wait) : (s.waitIn k w).loadCache = s.loadCache := rfl
@[simp] theorem State.waitIn_scanout (s : State) (k : Nat) (w : Wait) : (s.waitIn k w).scanout = s.scanout := rfl
@[simp] theorem State.waitIn_tlb (s : State) (k : Nat) (w : Wait) : (s.waitIn k w).tlb = s.tlb := rfl
@[simp] theorem State.waitIn_walkCache (s : State) (k : Nat) (w : Wait) : (s.waitIn k w).walkCache = s.walkCache := rfl
@[simp] theorem State.waitIn_enroute (s : State) (k : Nat) (w : Wait) : (s.waitIn k w).enroute = s.enroute := rfl
@[simp] theorem State.waitIn_misses (s : State) (k : Nat) (w : Wait) : (s.waitIn k w).misses = s.misses := rfl
@[simp] theorem State.waitIn_lastDetect (s : State) (k : Nat) (w : Wait) : (s.waitIn k w).lastDetect = s.lastDetect := rfl
@[simp] theorem State.waitIn_mail (s : State) (k : Nat) (w : Wait) : (s.waitIn k w).mail = s.mail := rfl
@[simp] theorem State.waitIn_claims (s : State) (k : Nat) (w : Wait) : (s.waitIn k w).claims = s.claims := rfl
@[simp] theorem State.waitIn_gangStops (s : State) (k : Nat) (w : Wait) : (s.waitIn k w).gangStops = s.gangStops := rfl
@[simp] theorem State.waitIn_logPending (s : State) (k : Nat) (w : Wait) : (s.waitIn k w).logPending = s.logPending := rfl
@[simp] theorem State.waitIn_tenants (s : State) (k : Nat) (w : Wait) : (s.waitIn k w).tenants = s.tenants := rfl
@[simp] theorem State.waitIn_ctxs (s : State) (k : Nat) (w : Wait) : (s.waitIn k w).ctxs = s.ctxs := rfl
@[simp] theorem State.waitIn_saved (s : State) (k : Nat) (w : Wait) : (s.waitIn k w).saved = s.saved := rfl
@[simp] theorem State.waitIn_launches (s : State) (k : Nat) (w : Wait) : (s.waitIn k w).launches = s.launches := rfl
@[simp] theorem State.waitIn_nodes (s : State) (k : Nat) (w : Wait) : (s.waitIn k w).nodes = s.nodes := rfl
@[simp] theorem State.waitIn_graphErrors (s : State) (k : Nat) (w : Wait) : (s.waitIn k w).graphErrors = s.graphErrors := rfl
@[simp] theorem State.waitIn_views (s : State) (k : Nat) (w : Wait) : (s.waitIn k w).views = s.views := rfl
@[simp] theorem State.waitIn_amplifier (s : State) (k : Nat) (w : Wait) : (s.waitIn k w).amplifier = s.amplifier := rfl
@[simp] theorem State.waitIn_prims (s : State) (k : Nat) (w : Wait) : (s.waitIn k w).prims = s.prims := rfl
@[simp] theorem State.waitIn_covers (s : State) (k : Nat) (w : Wait) : (s.waitIn k w).covers = s.covers := rfl
@[simp] theorem State.waitIn_pushWaited (s : State) (k : Nat) (w : Wait) : (s.waitIn k w).pushWaited = s.pushWaited := rfl
@[simp] theorem State.waitIn_vote (s : State) (k : Nat) (w : Wait) : (s.waitIn k w).vote = s.vote := rfl
@[simp] theorem State.waitIn_fenceGen (s : State) (k : Nat) (w : Wait) : (s.waitIn k w).fenceGen = s.fenceGen := rfl
@[simp] theorem State.waitIn_orphan (s : State) (k : Nat) (w : Wait) : (s.waitIn k w).orphan = s.orphan := rfl
@[simp] theorem State.waitIn_epoch (s : State) (k : Nat) (w : Wait) : (s.waitIn k w).epoch = s.epoch := rfl
@[simp] theorem State.waitIn_periods (s : State) (k : Nat) (w : Wait) : (s.waitIn k w).periods = s.periods := rfl
@[simp] theorem State.waitIn_passNo (s : State) (k : Nat) (w : Wait) : (s.waitIn k w).passNo = s.passNo := rfl
@[simp] theorem State.waitIn_guardOver (s : State) (k : Nat) (w : Wait) : (s.waitIn k w).guardOver = s.guardOver := rfl
@[simp] theorem State.waitIn_throt (s : State) (k : Nat) (w : Wait) : (s.waitIn k w).throt = s.throt := rfl
@[simp] theorem State.waitIn_errors (s : State) (k : Nat) (w : Wait) : (s.waitIn k w).errors = s.errors := rfl
@[simp] theorem State.waitIn_uevents (s : State) (k : Nat) (w : Wait) : (s.waitIn k w).uevents = s.uevents := rfl
@[simp] theorem State.waitIn_mauth (s : State) (k : Nat) (w : Wait) : (s.waitIn k w).mauth = s.mauth := rfl
@[simp] theorem State.waitIn_rxdrop (s : State) (k : Nat) (w : Wait) : (s.waitIn k w).rxdrop = s.rxdrop := rfl
@[simp] theorem State.waitIn_pdown (s : State) (k : Nat) (w : Wait) : (s.waitIn k w).pdown = s.pdown := rfl
@[simp] theorem State.waitIn_nakCount (s : State) (k : Nat) (w : Wait) : (s.waitIn k w).nakCount = s.nakCount := rfl
@[simp] theorem State.waitIn_peerRefusals (s : State) (k : Nat) (w : Wait) : (s.waitIn k w).peerRefusals = s.peerRefusals := rfl
@[simp] theorem State.waitIn_mailDrops (s : State) (k : Nat) (w : Wait) : (s.waitIn k w).mailDrops = s.mailDrops := rfl
@[simp] theorem State.waitIn_bridgeStopped (s : State) (k : Nat) (w : Wait) : (s.waitIn k w).bridgeStopped = s.bridgeStopped := rfl
@[simp] theorem State.waitIn_bridgeRetries (s : State) (k : Nat) (w : Wait) : (s.waitIn k w).bridgeRetries = s.bridgeRetries := rfl
@[simp] theorem State.waitIn_station (s : State) (k : Nat) (w : Wait) : (s.waitIn k w).station = s.station := rfl
@[simp] theorem State.waitIn_stationKey (s : State) (k : Nat) (w : Wait) : (s.waitIn k w).stationKey = s.stationKey := rfl
@[simp] theorem State.waitIn_moduleNumber (s : State) (k : Nat) (w : Wait) : (s.waitIn k w).moduleNumber = s.moduleNumber := rfl
@[simp] theorem State.waitIn_walkedPeer (s : State) (k : Nat) (w : Wait) : (s.waitIn k w).walkedPeer = s.walkedPeer := rfl
@[simp] theorem State.waitIn_peerRoutes (s : State) (k : Nat) (w : Wait) : (s.waitIn k w).peerRoutes = s.peerRoutes := rfl
@[simp] theorem State.waitIn_portsDown (s : State) (k : Nat) (w : Wait) : (s.waitIn k w).portsDown = s.portsDown := rfl
@[simp] theorem State.waitIn_portReplays (s : State) (k : Nat) (w : Wait) : (s.waitIn k w).portReplays = s.portReplays := rfl
@[simp] theorem State.waitIn_pwrgood (s : State) (k : Nat) (w : Wait) : (s.waitIn k w).pwrgood = s.pwrgood := rfl
@[simp] theorem State.waitIn_resetN (s : State) (k : Nat) (w : Wait) : (s.waitIn k w).resetN = s.resetN := rfl
@[simp] theorem State.waitIn_ready (s : State) (k : Nat) (w : Wait) : (s.waitIn k w).ready = s.ready := rfl
@[simp] theorem State.waitIn_upStep (s : State) (k : Nat) (w : Wait) : (s.waitIn k w).upStep = s.upStep := rfl
@[simp] theorem State.waitIn_failCode (s : State) (k : Nat) (w : Wait) : (s.waitIn k w).failCode = s.failCode := rfl
@[simp] theorem State.waitIn_portUp (s : State) (k : Nat) (w : Wait) : (s.waitIn k w).portUp = s.portUp := rfl
@[simp] theorem State.waitIn_halted (s : State) (k : Nat) (w : Wait) : (s.waitIn k w).halted = s.halted := rfl
@[simp] theorem State.waitIn_now (s : State) (k : Nat) (w : Wait) : (s.waitIn k w).now = s.now := rfl
@[simp] theorem State.waitIn_inputs (s : State) (k : Nat) (w : Wait) : (s.waitIn k w).inputs = s.inputs := rfl
@[simp] theorem State.waitIn_sent (s : State) (k : Nat) (w : Wait) : (s.waitIn k w).sent = s.sent := rfl
@[simp] theorem State.waitIn_agenda (s : State) (k : Nat) (w : Wait) : (s.waitIn k w).agenda = s.agenda := rfl
@[simp] theorem State.waitIn_gather (s : State) (k : Nat) (w : Wait) : (s.waitIn k w).gather = s.gather := rfl
@[simp] theorem State.waitIn_armed (s : State) (k : Nat) (w : Wait) : (s.waitIn k w).armed = s.armed := rfl
@[simp] theorem State.waitIn_patrolled (s : State) (k : Nat) (w : Wait) : (s.waitIn k w).patrolled = s.patrolled := rfl
@[simp] theorem State.waitIn_sensed (s : State) (k : Nat) (w : Wait) : (s.waitIn k w).sensed = s.sensed := rfl
@[simp] theorem State.waitIn_moves (s : State) (k : Nat) (w : Wait) : (s.waitIn k w).moves = s.moves := rfl
@[simp] theorem State.waitIn_nextOp (s : State) (k : Nat) (w : Wait) : (s.waitIn k w).nextOp = s.nextOp := rfl
@[simp] theorem State.waitIn_nextGid (s : State) (k : Nat) (w : Wait) : (s.waitIn k w).nextGid = s.nextGid := rfl
@[simp] theorem State.waitIn_nextChoice (s : State) (k : Nat) (w : Wait) : (s.waitIn k w).nextChoice = s.nextChoice := rfl
@[simp] theorem State.setTenant_threads (s : State) (k : Nat) (t : Tenant) : (s.setTenant k t).threads = s.threads := rfl
@[simp] theorem State.setTenant_groups (s : State) (k : Nat) (t : Tenant) : (s.setTenant k t).groups = s.groups := rfl
@[simp] theorem State.setTenant_thresher (s : State) (k : Nat) (t : Tenant) : (s.setTenant k t).thresher = s.thresher := rfl
@[simp] theorem State.setTenant_partWord (s : State) (k : Nat) (t : Tenant) : (s.setTenant k t).partWord = s.partWord := rfl
@[simp] theorem State.setTenant_board (s : State) (k : Nat) (t : Tenant) : (s.setTenant k t).board = s.board := rfl
@[simp] theorem State.setTenant_ops (s : State) (k : Nat) (t : Tenant) : (s.setTenant k t).ops = s.ops := rfl
@[simp] theorem State.setTenant_hbm (s : State) (k : Nat) (t : Tenant) : (s.setTenant k t).hbm = s.hbm := rfl
@[simp] theorem State.setTenant_poison (s : State) (k : Nat) (t : Tenant) : (s.setTenant k t).poison = s.poison := rfl
@[simp] theorem State.setTenant_upsets (s : State) (k : Nat) (t : Tenant) : (s.setTenant k t).upsets = s.upsets := rfl
@[simp] theorem State.setTenant_lines (s : State) (k : Nat) (t : Tenant) : (s.setTenant k t).lines = s.lines := rfl
@[simp] theorem State.setTenant_lineUses (s : State) (k : Nat) (t : Tenant) : (s.setTenant k t).lineUses = s.lineUses := rfl
@[simp] theorem State.setTenant_portHeld (s : State) (k : Nat) (t : Tenant) : (s.setTenant k t).portHeld = s.portHeld := rfl
@[simp] theorem State.setTenant_grants (s : State) (k : Nat) (t : Tenant) : (s.setTenant k t).grants = s.grants := rfl
@[simp] theorem State.setTenant_wq (s : State) (k : Nat) (t : Tenant) : (s.setTenant k t).wq = s.wq := rfl
@[simp] theorem State.setTenant_loadCache (s : State) (k : Nat) (t : Tenant) : (s.setTenant k t).loadCache = s.loadCache := rfl
@[simp] theorem State.setTenant_scanout (s : State) (k : Nat) (t : Tenant) : (s.setTenant k t).scanout = s.scanout := rfl
@[simp] theorem State.setTenant_tlb (s : State) (k : Nat) (t : Tenant) : (s.setTenant k t).tlb = s.tlb := rfl
@[simp] theorem State.setTenant_walkCache (s : State) (k : Nat) (t : Tenant) : (s.setTenant k t).walkCache = s.walkCache := rfl
@[simp] theorem State.setTenant_enroute (s : State) (k : Nat) (t : Tenant) : (s.setTenant k t).enroute = s.enroute := rfl
@[simp] theorem State.setTenant_misses (s : State) (k : Nat) (t : Tenant) : (s.setTenant k t).misses = s.misses := rfl
@[simp] theorem State.setTenant_lastDetect (s : State) (k : Nat) (t : Tenant) : (s.setTenant k t).lastDetect = s.lastDetect := rfl
@[simp] theorem State.setTenant_mail (s : State) (k : Nat) (t : Tenant) : (s.setTenant k t).mail = s.mail := rfl
@[simp] theorem State.setTenant_claims (s : State) (k : Nat) (t : Tenant) : (s.setTenant k t).claims = s.claims := rfl
@[simp] theorem State.setTenant_gangStops (s : State) (k : Nat) (t : Tenant) : (s.setTenant k t).gangStops = s.gangStops := rfl
@[simp] theorem State.setTenant_logPending (s : State) (k : Nat) (t : Tenant) : (s.setTenant k t).logPending = s.logPending := rfl
@[simp] theorem State.setTenant_ctxs (s : State) (k : Nat) (t : Tenant) : (s.setTenant k t).ctxs = s.ctxs := rfl
@[simp] theorem State.setTenant_saved (s : State) (k : Nat) (t : Tenant) : (s.setTenant k t).saved = s.saved := rfl
@[simp] theorem State.setTenant_launches (s : State) (k : Nat) (t : Tenant) : (s.setTenant k t).launches = s.launches := rfl
@[simp] theorem State.setTenant_nodes (s : State) (k : Nat) (t : Tenant) : (s.setTenant k t).nodes = s.nodes := rfl
@[simp] theorem State.setTenant_graphErrors (s : State) (k : Nat) (t : Tenant) : (s.setTenant k t).graphErrors = s.graphErrors := rfl
@[simp] theorem State.setTenant_views (s : State) (k : Nat) (t : Tenant) : (s.setTenant k t).views = s.views := rfl
@[simp] theorem State.setTenant_amplifier (s : State) (k : Nat) (t : Tenant) : (s.setTenant k t).amplifier = s.amplifier := rfl
@[simp] theorem State.setTenant_prims (s : State) (k : Nat) (t : Tenant) : (s.setTenant k t).prims = s.prims := rfl
@[simp] theorem State.setTenant_covers (s : State) (k : Nat) (t : Tenant) : (s.setTenant k t).covers = s.covers := rfl
@[simp] theorem State.setTenant_pushWaited (s : State) (k : Nat) (t : Tenant) : (s.setTenant k t).pushWaited = s.pushWaited := rfl
@[simp] theorem State.setTenant_vote (s : State) (k : Nat) (t : Tenant) : (s.setTenant k t).vote = s.vote := rfl
@[simp] theorem State.setTenant_fenceGen (s : State) (k : Nat) (t : Tenant) : (s.setTenant k t).fenceGen = s.fenceGen := rfl
@[simp] theorem State.setTenant_orphan (s : State) (k : Nat) (t : Tenant) : (s.setTenant k t).orphan = s.orphan := rfl
@[simp] theorem State.setTenant_epoch (s : State) (k : Nat) (t : Tenant) : (s.setTenant k t).epoch = s.epoch := rfl
@[simp] theorem State.setTenant_periods (s : State) (k : Nat) (t : Tenant) : (s.setTenant k t).periods = s.periods := rfl
@[simp] theorem State.setTenant_passNo (s : State) (k : Nat) (t : Tenant) : (s.setTenant k t).passNo = s.passNo := rfl
@[simp] theorem State.setTenant_guardOver (s : State) (k : Nat) (t : Tenant) : (s.setTenant k t).guardOver = s.guardOver := rfl
@[simp] theorem State.setTenant_throt (s : State) (k : Nat) (t : Tenant) : (s.setTenant k t).throt = s.throt := rfl
@[simp] theorem State.setTenant_errors (s : State) (k : Nat) (t : Tenant) : (s.setTenant k t).errors = s.errors := rfl
@[simp] theorem State.setTenant_uevents (s : State) (k : Nat) (t : Tenant) : (s.setTenant k t).uevents = s.uevents := rfl
@[simp] theorem State.setTenant_mauth (s : State) (k : Nat) (t : Tenant) : (s.setTenant k t).mauth = s.mauth := rfl
@[simp] theorem State.setTenant_rxdrop (s : State) (k : Nat) (t : Tenant) : (s.setTenant k t).rxdrop = s.rxdrop := rfl
@[simp] theorem State.setTenant_pdown (s : State) (k : Nat) (t : Tenant) : (s.setTenant k t).pdown = s.pdown := rfl
@[simp] theorem State.setTenant_nakCount (s : State) (k : Nat) (t : Tenant) : (s.setTenant k t).nakCount = s.nakCount := rfl
@[simp] theorem State.setTenant_peerRefusals (s : State) (k : Nat) (t : Tenant) : (s.setTenant k t).peerRefusals = s.peerRefusals := rfl
@[simp] theorem State.setTenant_mailDrops (s : State) (k : Nat) (t : Tenant) : (s.setTenant k t).mailDrops = s.mailDrops := rfl
@[simp] theorem State.setTenant_bridgeStopped (s : State) (k : Nat) (t : Tenant) : (s.setTenant k t).bridgeStopped = s.bridgeStopped := rfl
@[simp] theorem State.setTenant_bridgeRetries (s : State) (k : Nat) (t : Tenant) : (s.setTenant k t).bridgeRetries = s.bridgeRetries := rfl
@[simp] theorem State.setTenant_station (s : State) (k : Nat) (t : Tenant) : (s.setTenant k t).station = s.station := rfl
@[simp] theorem State.setTenant_stationKey (s : State) (k : Nat) (t : Tenant) : (s.setTenant k t).stationKey = s.stationKey := rfl
@[simp] theorem State.setTenant_moduleNumber (s : State) (k : Nat) (t : Tenant) : (s.setTenant k t).moduleNumber = s.moduleNumber := rfl
@[simp] theorem State.setTenant_walkedPeer (s : State) (k : Nat) (t : Tenant) : (s.setTenant k t).walkedPeer = s.walkedPeer := rfl
@[simp] theorem State.setTenant_peerRoutes (s : State) (k : Nat) (t : Tenant) : (s.setTenant k t).peerRoutes = s.peerRoutes := rfl
@[simp] theorem State.setTenant_portsDown (s : State) (k : Nat) (t : Tenant) : (s.setTenant k t).portsDown = s.portsDown := rfl
@[simp] theorem State.setTenant_portReplays (s : State) (k : Nat) (t : Tenant) : (s.setTenant k t).portReplays = s.portReplays := rfl
@[simp] theorem State.setTenant_pwrgood (s : State) (k : Nat) (t : Tenant) : (s.setTenant k t).pwrgood = s.pwrgood := rfl
@[simp] theorem State.setTenant_resetN (s : State) (k : Nat) (t : Tenant) : (s.setTenant k t).resetN = s.resetN := rfl
@[simp] theorem State.setTenant_ready (s : State) (k : Nat) (t : Tenant) : (s.setTenant k t).ready = s.ready := rfl
@[simp] theorem State.setTenant_upStep (s : State) (k : Nat) (t : Tenant) : (s.setTenant k t).upStep = s.upStep := rfl
@[simp] theorem State.setTenant_failCode (s : State) (k : Nat) (t : Tenant) : (s.setTenant k t).failCode = s.failCode := rfl
@[simp] theorem State.setTenant_portUp (s : State) (k : Nat) (t : Tenant) : (s.setTenant k t).portUp = s.portUp := rfl
@[simp] theorem State.setTenant_halted (s : State) (k : Nat) (t : Tenant) : (s.setTenant k t).halted = s.halted := rfl
@[simp] theorem State.setTenant_now (s : State) (k : Nat) (t : Tenant) : (s.setTenant k t).now = s.now := rfl
@[simp] theorem State.setTenant_inputs (s : State) (k : Nat) (t : Tenant) : (s.setTenant k t).inputs = s.inputs := rfl
@[simp] theorem State.setTenant_sent (s : State) (k : Nat) (t : Tenant) : (s.setTenant k t).sent = s.sent := rfl
@[simp] theorem State.setTenant_agenda (s : State) (k : Nat) (t : Tenant) : (s.setTenant k t).agenda = s.agenda := rfl
@[simp] theorem State.setTenant_gather (s : State) (k : Nat) (t : Tenant) : (s.setTenant k t).gather = s.gather := rfl
@[simp] theorem State.setTenant_armed (s : State) (k : Nat) (t : Tenant) : (s.setTenant k t).armed = s.armed := rfl
@[simp] theorem State.setTenant_patrolled (s : State) (k : Nat) (t : Tenant) : (s.setTenant k t).patrolled = s.patrolled := rfl
@[simp] theorem State.setTenant_sensed (s : State) (k : Nat) (t : Tenant) : (s.setTenant k t).sensed = s.sensed := rfl
@[simp] theorem State.setTenant_moves (s : State) (k : Nat) (t : Tenant) : (s.setTenant k t).moves = s.moves := rfl
@[simp] theorem State.setTenant_nextOp (s : State) (k : Nat) (t : Tenant) : (s.setTenant k t).nextOp = s.nextOp := rfl
@[simp] theorem State.setTenant_nextGid (s : State) (k : Nat) (t : Tenant) : (s.setTenant k t).nextGid = s.nextGid := rfl
@[simp] theorem State.setTenant_nextChoice (s : State) (k : Nat) (t : Tenant) : (s.setTenant k t).nextChoice = s.nextChoice := rfl
@[simp] theorem State.setStored_threads (s : State) (a : Nat) (b : Byte) : (s.setStored a b).threads = s.threads := rfl
@[simp] theorem State.setStored_groups (s : State) (a : Nat) (b : Byte) : (s.setStored a b).groups = s.groups := rfl
@[simp] theorem State.setStored_thresher (s : State) (a : Nat) (b : Byte) : (s.setStored a b).thresher = s.thresher := rfl
@[simp] theorem State.setStored_partWord (s : State) (a : Nat) (b : Byte) : (s.setStored a b).partWord = s.partWord := rfl
@[simp] theorem State.setStored_board (s : State) (a : Nat) (b : Byte) : (s.setStored a b).board = s.board := rfl
@[simp] theorem State.setStored_ops (s : State) (a : Nat) (b : Byte) : (s.setStored a b).ops = s.ops := rfl
@[simp] theorem State.setStored_poison (s : State) (a : Nat) (b : Byte) : (s.setStored a b).poison = s.poison := rfl
@[simp] theorem State.setStored_upsets (s : State) (a : Nat) (b : Byte) : (s.setStored a b).upsets = s.upsets := rfl
@[simp] theorem State.setStored_lines (s : State) (a : Nat) (b : Byte) : (s.setStored a b).lines = s.lines := rfl
@[simp] theorem State.setStored_lineUses (s : State) (a : Nat) (b : Byte) : (s.setStored a b).lineUses = s.lineUses := rfl
@[simp] theorem State.setStored_portHeld (s : State) (a : Nat) (b : Byte) : (s.setStored a b).portHeld = s.portHeld := rfl
@[simp] theorem State.setStored_grants (s : State) (a : Nat) (b : Byte) : (s.setStored a b).grants = s.grants := rfl
@[simp] theorem State.setStored_wq (s : State) (a : Nat) (b : Byte) : (s.setStored a b).wq = s.wq := rfl
@[simp] theorem State.setStored_loadCache (s : State) (a : Nat) (b : Byte) : (s.setStored a b).loadCache = s.loadCache := rfl
@[simp] theorem State.setStored_scanout (s : State) (a : Nat) (b : Byte) : (s.setStored a b).scanout = s.scanout := rfl
@[simp] theorem State.setStored_tlb (s : State) (a : Nat) (b : Byte) : (s.setStored a b).tlb = s.tlb := rfl
@[simp] theorem State.setStored_walkCache (s : State) (a : Nat) (b : Byte) : (s.setStored a b).walkCache = s.walkCache := rfl
@[simp] theorem State.setStored_enroute (s : State) (a : Nat) (b : Byte) : (s.setStored a b).enroute = s.enroute := rfl
@[simp] theorem State.setStored_misses (s : State) (a : Nat) (b : Byte) : (s.setStored a b).misses = s.misses := rfl
@[simp] theorem State.setStored_lastDetect (s : State) (a : Nat) (b : Byte) : (s.setStored a b).lastDetect = s.lastDetect := rfl
@[simp] theorem State.setStored_mail (s : State) (a : Nat) (b : Byte) : (s.setStored a b).mail = s.mail := rfl
@[simp] theorem State.setStored_claims (s : State) (a : Nat) (b : Byte) : (s.setStored a b).claims = s.claims := rfl
@[simp] theorem State.setStored_gangStops (s : State) (a : Nat) (b : Byte) : (s.setStored a b).gangStops = s.gangStops := rfl
@[simp] theorem State.setStored_logPending (s : State) (a : Nat) (b : Byte) : (s.setStored a b).logPending = s.logPending := rfl
@[simp] theorem State.setStored_tenants (s : State) (a : Nat) (b : Byte) : (s.setStored a b).tenants = s.tenants := rfl
@[simp] theorem State.setStored_ctxs (s : State) (a : Nat) (b : Byte) : (s.setStored a b).ctxs = s.ctxs := rfl
@[simp] theorem State.setStored_saved (s : State) (a : Nat) (b : Byte) : (s.setStored a b).saved = s.saved := rfl
@[simp] theorem State.setStored_launches (s : State) (a : Nat) (b : Byte) : (s.setStored a b).launches = s.launches := rfl
@[simp] theorem State.setStored_nodes (s : State) (a : Nat) (b : Byte) : (s.setStored a b).nodes = s.nodes := rfl
@[simp] theorem State.setStored_graphErrors (s : State) (a : Nat) (b : Byte) : (s.setStored a b).graphErrors = s.graphErrors := rfl
@[simp] theorem State.setStored_views (s : State) (a : Nat) (b : Byte) : (s.setStored a b).views = s.views := rfl
@[simp] theorem State.setStored_amplifier (s : State) (a : Nat) (b : Byte) : (s.setStored a b).amplifier = s.amplifier := rfl
@[simp] theorem State.setStored_prims (s : State) (a : Nat) (b : Byte) : (s.setStored a b).prims = s.prims := rfl
@[simp] theorem State.setStored_covers (s : State) (a : Nat) (b : Byte) : (s.setStored a b).covers = s.covers := rfl
@[simp] theorem State.setStored_pushWaited (s : State) (a : Nat) (b : Byte) : (s.setStored a b).pushWaited = s.pushWaited := rfl
@[simp] theorem State.setStored_vote (s : State) (a : Nat) (b : Byte) : (s.setStored a b).vote = s.vote := rfl
@[simp] theorem State.setStored_fenceGen (s : State) (a : Nat) (b : Byte) : (s.setStored a b).fenceGen = s.fenceGen := rfl
@[simp] theorem State.setStored_orphan (s : State) (a : Nat) (b : Byte) : (s.setStored a b).orphan = s.orphan := rfl
@[simp] theorem State.setStored_epoch (s : State) (a : Nat) (b : Byte) : (s.setStored a b).epoch = s.epoch := rfl
@[simp] theorem State.setStored_periods (s : State) (a : Nat) (b : Byte) : (s.setStored a b).periods = s.periods := rfl
@[simp] theorem State.setStored_passNo (s : State) (a : Nat) (b : Byte) : (s.setStored a b).passNo = s.passNo := rfl
@[simp] theorem State.setStored_guardOver (s : State) (a : Nat) (b : Byte) : (s.setStored a b).guardOver = s.guardOver := rfl
@[simp] theorem State.setStored_throt (s : State) (a : Nat) (b : Byte) : (s.setStored a b).throt = s.throt := rfl
@[simp] theorem State.setStored_errors (s : State) (a : Nat) (b : Byte) : (s.setStored a b).errors = s.errors := rfl
@[simp] theorem State.setStored_uevents (s : State) (a : Nat) (b : Byte) : (s.setStored a b).uevents = s.uevents := rfl
@[simp] theorem State.setStored_mauth (s : State) (a : Nat) (b : Byte) : (s.setStored a b).mauth = s.mauth := rfl
@[simp] theorem State.setStored_rxdrop (s : State) (a : Nat) (b : Byte) : (s.setStored a b).rxdrop = s.rxdrop := rfl
@[simp] theorem State.setStored_pdown (s : State) (a : Nat) (b : Byte) : (s.setStored a b).pdown = s.pdown := rfl
@[simp] theorem State.setStored_nakCount (s : State) (a : Nat) (b : Byte) : (s.setStored a b).nakCount = s.nakCount := rfl
@[simp] theorem State.setStored_peerRefusals (s : State) (a : Nat) (b : Byte) : (s.setStored a b).peerRefusals = s.peerRefusals := rfl
@[simp] theorem State.setStored_mailDrops (s : State) (a : Nat) (b : Byte) : (s.setStored a b).mailDrops = s.mailDrops := rfl
@[simp] theorem State.setStored_bridgeStopped (s : State) (a : Nat) (b : Byte) : (s.setStored a b).bridgeStopped = s.bridgeStopped := rfl
@[simp] theorem State.setStored_bridgeRetries (s : State) (a : Nat) (b : Byte) : (s.setStored a b).bridgeRetries = s.bridgeRetries := rfl
@[simp] theorem State.setStored_station (s : State) (a : Nat) (b : Byte) : (s.setStored a b).station = s.station := rfl
@[simp] theorem State.setStored_stationKey (s : State) (a : Nat) (b : Byte) : (s.setStored a b).stationKey = s.stationKey := rfl
@[simp] theorem State.setStored_moduleNumber (s : State) (a : Nat) (b : Byte) : (s.setStored a b).moduleNumber = s.moduleNumber := rfl
@[simp] theorem State.setStored_walkedPeer (s : State) (a : Nat) (b : Byte) : (s.setStored a b).walkedPeer = s.walkedPeer := rfl
@[simp] theorem State.setStored_peerRoutes (s : State) (a : Nat) (b : Byte) : (s.setStored a b).peerRoutes = s.peerRoutes := rfl
@[simp] theorem State.setStored_portsDown (s : State) (a : Nat) (b : Byte) : (s.setStored a b).portsDown = s.portsDown := rfl
@[simp] theorem State.setStored_portReplays (s : State) (a : Nat) (b : Byte) : (s.setStored a b).portReplays = s.portReplays := rfl
@[simp] theorem State.setStored_pwrgood (s : State) (a : Nat) (b : Byte) : (s.setStored a b).pwrgood = s.pwrgood := rfl
@[simp] theorem State.setStored_resetN (s : State) (a : Nat) (b : Byte) : (s.setStored a b).resetN = s.resetN := rfl
@[simp] theorem State.setStored_ready (s : State) (a : Nat) (b : Byte) : (s.setStored a b).ready = s.ready := rfl
@[simp] theorem State.setStored_upStep (s : State) (a : Nat) (b : Byte) : (s.setStored a b).upStep = s.upStep := rfl
@[simp] theorem State.setStored_failCode (s : State) (a : Nat) (b : Byte) : (s.setStored a b).failCode = s.failCode := rfl
@[simp] theorem State.setStored_portUp (s : State) (a : Nat) (b : Byte) : (s.setStored a b).portUp = s.portUp := rfl
@[simp] theorem State.setStored_halted (s : State) (a : Nat) (b : Byte) : (s.setStored a b).halted = s.halted := rfl
@[simp] theorem State.setStored_now (s : State) (a : Nat) (b : Byte) : (s.setStored a b).now = s.now := rfl
@[simp] theorem State.setStored_inputs (s : State) (a : Nat) (b : Byte) : (s.setStored a b).inputs = s.inputs := rfl
@[simp] theorem State.setStored_sent (s : State) (a : Nat) (b : Byte) : (s.setStored a b).sent = s.sent := rfl
@[simp] theorem State.setStored_agenda (s : State) (a : Nat) (b : Byte) : (s.setStored a b).agenda = s.agenda := rfl
@[simp] theorem State.setStored_gather (s : State) (a : Nat) (b : Byte) : (s.setStored a b).gather = s.gather := rfl
@[simp] theorem State.setStored_armed (s : State) (a : Nat) (b : Byte) : (s.setStored a b).armed = s.armed := rfl
@[simp] theorem State.setStored_patrolled (s : State) (a : Nat) (b : Byte) : (s.setStored a b).patrolled = s.patrolled := rfl
@[simp] theorem State.setStored_sensed (s : State) (a : Nat) (b : Byte) : (s.setStored a b).sensed = s.sensed := rfl
@[simp] theorem State.setStored_moves (s : State) (a : Nat) (b : Byte) : (s.setStored a b).moves = s.moves := rfl
@[simp] theorem State.setStored_nextOp (s : State) (a : Nat) (b : Byte) : (s.setStored a b).nextOp = s.nextOp := rfl
@[simp] theorem State.setStored_nextGid (s : State) (a : Nat) (b : Byte) : (s.setStored a b).nextGid = s.nextGid := rfl
@[simp] theorem State.setStored_nextChoice (s : State) (a : Nat) (b : Byte) : (s.setStored a b).nextChoice = s.nextChoice := rfl
@[simp] theorem State.setStoredBytes_threads (s : State) (a : Nat) (bs : List Byte) : (s.setStoredBytes a bs).threads = s.threads := rfl
@[simp] theorem State.setStoredBytes_groups (s : State) (a : Nat) (bs : List Byte) : (s.setStoredBytes a bs).groups = s.groups := rfl
@[simp] theorem State.setStoredBytes_thresher (s : State) (a : Nat) (bs : List Byte) : (s.setStoredBytes a bs).thresher = s.thresher := rfl
@[simp] theorem State.setStoredBytes_partWord (s : State) (a : Nat) (bs : List Byte) : (s.setStoredBytes a bs).partWord = s.partWord := rfl
@[simp] theorem State.setStoredBytes_board (s : State) (a : Nat) (bs : List Byte) : (s.setStoredBytes a bs).board = s.board := rfl
@[simp] theorem State.setStoredBytes_ops (s : State) (a : Nat) (bs : List Byte) : (s.setStoredBytes a bs).ops = s.ops := rfl
@[simp] theorem State.setStoredBytes_poison (s : State) (a : Nat) (bs : List Byte) : (s.setStoredBytes a bs).poison = s.poison := rfl
@[simp] theorem State.setStoredBytes_upsets (s : State) (a : Nat) (bs : List Byte) : (s.setStoredBytes a bs).upsets = s.upsets := rfl
@[simp] theorem State.setStoredBytes_lines (s : State) (a : Nat) (bs : List Byte) : (s.setStoredBytes a bs).lines = s.lines := rfl
@[simp] theorem State.setStoredBytes_lineUses (s : State) (a : Nat) (bs : List Byte) : (s.setStoredBytes a bs).lineUses = s.lineUses := rfl
@[simp] theorem State.setStoredBytes_portHeld (s : State) (a : Nat) (bs : List Byte) : (s.setStoredBytes a bs).portHeld = s.portHeld := rfl
@[simp] theorem State.setStoredBytes_grants (s : State) (a : Nat) (bs : List Byte) : (s.setStoredBytes a bs).grants = s.grants := rfl
@[simp] theorem State.setStoredBytes_wq (s : State) (a : Nat) (bs : List Byte) : (s.setStoredBytes a bs).wq = s.wq := rfl
@[simp] theorem State.setStoredBytes_loadCache (s : State) (a : Nat) (bs : List Byte) : (s.setStoredBytes a bs).loadCache = s.loadCache := rfl
@[simp] theorem State.setStoredBytes_scanout (s : State) (a : Nat) (bs : List Byte) : (s.setStoredBytes a bs).scanout = s.scanout := rfl
@[simp] theorem State.setStoredBytes_tlb (s : State) (a : Nat) (bs : List Byte) : (s.setStoredBytes a bs).tlb = s.tlb := rfl
@[simp] theorem State.setStoredBytes_walkCache (s : State) (a : Nat) (bs : List Byte) : (s.setStoredBytes a bs).walkCache = s.walkCache := rfl
@[simp] theorem State.setStoredBytes_enroute (s : State) (a : Nat) (bs : List Byte) : (s.setStoredBytes a bs).enroute = s.enroute := rfl
@[simp] theorem State.setStoredBytes_misses (s : State) (a : Nat) (bs : List Byte) : (s.setStoredBytes a bs).misses = s.misses := rfl
@[simp] theorem State.setStoredBytes_lastDetect (s : State) (a : Nat) (bs : List Byte) : (s.setStoredBytes a bs).lastDetect = s.lastDetect := rfl
@[simp] theorem State.setStoredBytes_mail (s : State) (a : Nat) (bs : List Byte) : (s.setStoredBytes a bs).mail = s.mail := rfl
@[simp] theorem State.setStoredBytes_claims (s : State) (a : Nat) (bs : List Byte) : (s.setStoredBytes a bs).claims = s.claims := rfl
@[simp] theorem State.setStoredBytes_gangStops (s : State) (a : Nat) (bs : List Byte) : (s.setStoredBytes a bs).gangStops = s.gangStops := rfl
@[simp] theorem State.setStoredBytes_logPending (s : State) (a : Nat) (bs : List Byte) : (s.setStoredBytes a bs).logPending = s.logPending := rfl
@[simp] theorem State.setStoredBytes_tenants (s : State) (a : Nat) (bs : List Byte) : (s.setStoredBytes a bs).tenants = s.tenants := rfl
@[simp] theorem State.setStoredBytes_ctxs (s : State) (a : Nat) (bs : List Byte) : (s.setStoredBytes a bs).ctxs = s.ctxs := rfl
@[simp] theorem State.setStoredBytes_saved (s : State) (a : Nat) (bs : List Byte) : (s.setStoredBytes a bs).saved = s.saved := rfl
@[simp] theorem State.setStoredBytes_launches (s : State) (a : Nat) (bs : List Byte) : (s.setStoredBytes a bs).launches = s.launches := rfl
@[simp] theorem State.setStoredBytes_nodes (s : State) (a : Nat) (bs : List Byte) : (s.setStoredBytes a bs).nodes = s.nodes := rfl
@[simp] theorem State.setStoredBytes_graphErrors (s : State) (a : Nat) (bs : List Byte) : (s.setStoredBytes a bs).graphErrors = s.graphErrors := rfl
@[simp] theorem State.setStoredBytes_views (s : State) (a : Nat) (bs : List Byte) : (s.setStoredBytes a bs).views = s.views := rfl
@[simp] theorem State.setStoredBytes_amplifier (s : State) (a : Nat) (bs : List Byte) : (s.setStoredBytes a bs).amplifier = s.amplifier := rfl
@[simp] theorem State.setStoredBytes_prims (s : State) (a : Nat) (bs : List Byte) : (s.setStoredBytes a bs).prims = s.prims := rfl
@[simp] theorem State.setStoredBytes_covers (s : State) (a : Nat) (bs : List Byte) : (s.setStoredBytes a bs).covers = s.covers := rfl
@[simp] theorem State.setStoredBytes_pushWaited (s : State) (a : Nat) (bs : List Byte) : (s.setStoredBytes a bs).pushWaited = s.pushWaited := rfl
@[simp] theorem State.setStoredBytes_vote (s : State) (a : Nat) (bs : List Byte) : (s.setStoredBytes a bs).vote = s.vote := rfl
@[simp] theorem State.setStoredBytes_fenceGen (s : State) (a : Nat) (bs : List Byte) : (s.setStoredBytes a bs).fenceGen = s.fenceGen := rfl
@[simp] theorem State.setStoredBytes_orphan (s : State) (a : Nat) (bs : List Byte) : (s.setStoredBytes a bs).orphan = s.orphan := rfl
@[simp] theorem State.setStoredBytes_epoch (s : State) (a : Nat) (bs : List Byte) : (s.setStoredBytes a bs).epoch = s.epoch := rfl
@[simp] theorem State.setStoredBytes_periods (s : State) (a : Nat) (bs : List Byte) : (s.setStoredBytes a bs).periods = s.periods := rfl
@[simp] theorem State.setStoredBytes_passNo (s : State) (a : Nat) (bs : List Byte) : (s.setStoredBytes a bs).passNo = s.passNo := rfl
@[simp] theorem State.setStoredBytes_guardOver (s : State) (a : Nat) (bs : List Byte) : (s.setStoredBytes a bs).guardOver = s.guardOver := rfl
@[simp] theorem State.setStoredBytes_throt (s : State) (a : Nat) (bs : List Byte) : (s.setStoredBytes a bs).throt = s.throt := rfl
@[simp] theorem State.setStoredBytes_errors (s : State) (a : Nat) (bs : List Byte) : (s.setStoredBytes a bs).errors = s.errors := rfl
@[simp] theorem State.setStoredBytes_uevents (s : State) (a : Nat) (bs : List Byte) : (s.setStoredBytes a bs).uevents = s.uevents := rfl
@[simp] theorem State.setStoredBytes_mauth (s : State) (a : Nat) (bs : List Byte) : (s.setStoredBytes a bs).mauth = s.mauth := rfl
@[simp] theorem State.setStoredBytes_rxdrop (s : State) (a : Nat) (bs : List Byte) : (s.setStoredBytes a bs).rxdrop = s.rxdrop := rfl
@[simp] theorem State.setStoredBytes_pdown (s : State) (a : Nat) (bs : List Byte) : (s.setStoredBytes a bs).pdown = s.pdown := rfl
@[simp] theorem State.setStoredBytes_nakCount (s : State) (a : Nat) (bs : List Byte) : (s.setStoredBytes a bs).nakCount = s.nakCount := rfl
@[simp] theorem State.setStoredBytes_peerRefusals (s : State) (a : Nat) (bs : List Byte) : (s.setStoredBytes a bs).peerRefusals = s.peerRefusals := rfl
@[simp] theorem State.setStoredBytes_mailDrops (s : State) (a : Nat) (bs : List Byte) : (s.setStoredBytes a bs).mailDrops = s.mailDrops := rfl
@[simp] theorem State.setStoredBytes_bridgeStopped (s : State) (a : Nat) (bs : List Byte) : (s.setStoredBytes a bs).bridgeStopped = s.bridgeStopped := rfl
@[simp] theorem State.setStoredBytes_bridgeRetries (s : State) (a : Nat) (bs : List Byte) : (s.setStoredBytes a bs).bridgeRetries = s.bridgeRetries := rfl
@[simp] theorem State.setStoredBytes_station (s : State) (a : Nat) (bs : List Byte) : (s.setStoredBytes a bs).station = s.station := rfl
@[simp] theorem State.setStoredBytes_stationKey (s : State) (a : Nat) (bs : List Byte) : (s.setStoredBytes a bs).stationKey = s.stationKey := rfl
@[simp] theorem State.setStoredBytes_moduleNumber (s : State) (a : Nat) (bs : List Byte) : (s.setStoredBytes a bs).moduleNumber = s.moduleNumber := rfl
@[simp] theorem State.setStoredBytes_walkedPeer (s : State) (a : Nat) (bs : List Byte) : (s.setStoredBytes a bs).walkedPeer = s.walkedPeer := rfl
@[simp] theorem State.setStoredBytes_peerRoutes (s : State) (a : Nat) (bs : List Byte) : (s.setStoredBytes a bs).peerRoutes = s.peerRoutes := rfl
@[simp] theorem State.setStoredBytes_portsDown (s : State) (a : Nat) (bs : List Byte) : (s.setStoredBytes a bs).portsDown = s.portsDown := rfl
@[simp] theorem State.setStoredBytes_portReplays (s : State) (a : Nat) (bs : List Byte) : (s.setStoredBytes a bs).portReplays = s.portReplays := rfl
@[simp] theorem State.setStoredBytes_pwrgood (s : State) (a : Nat) (bs : List Byte) : (s.setStoredBytes a bs).pwrgood = s.pwrgood := rfl
@[simp] theorem State.setStoredBytes_resetN (s : State) (a : Nat) (bs : List Byte) : (s.setStoredBytes a bs).resetN = s.resetN := rfl
@[simp] theorem State.setStoredBytes_ready (s : State) (a : Nat) (bs : List Byte) : (s.setStoredBytes a bs).ready = s.ready := rfl
@[simp] theorem State.setStoredBytes_upStep (s : State) (a : Nat) (bs : List Byte) : (s.setStoredBytes a bs).upStep = s.upStep := rfl
@[simp] theorem State.setStoredBytes_failCode (s : State) (a : Nat) (bs : List Byte) : (s.setStoredBytes a bs).failCode = s.failCode := rfl
@[simp] theorem State.setStoredBytes_portUp (s : State) (a : Nat) (bs : List Byte) : (s.setStoredBytes a bs).portUp = s.portUp := rfl
@[simp] theorem State.setStoredBytes_halted (s : State) (a : Nat) (bs : List Byte) : (s.setStoredBytes a bs).halted = s.halted := rfl
@[simp] theorem State.setStoredBytes_now (s : State) (a : Nat) (bs : List Byte) : (s.setStoredBytes a bs).now = s.now := rfl
@[simp] theorem State.setStoredBytes_inputs (s : State) (a : Nat) (bs : List Byte) : (s.setStoredBytes a bs).inputs = s.inputs := rfl
@[simp] theorem State.setStoredBytes_sent (s : State) (a : Nat) (bs : List Byte) : (s.setStoredBytes a bs).sent = s.sent := rfl
@[simp] theorem State.setStoredBytes_agenda (s : State) (a : Nat) (bs : List Byte) : (s.setStoredBytes a bs).agenda = s.agenda := rfl
@[simp] theorem State.setStoredBytes_gather (s : State) (a : Nat) (bs : List Byte) : (s.setStoredBytes a bs).gather = s.gather := rfl
@[simp] theorem State.setStoredBytes_armed (s : State) (a : Nat) (bs : List Byte) : (s.setStoredBytes a bs).armed = s.armed := rfl
@[simp] theorem State.setStoredBytes_patrolled (s : State) (a : Nat) (bs : List Byte) : (s.setStoredBytes a bs).patrolled = s.patrolled := rfl
@[simp] theorem State.setStoredBytes_sensed (s : State) (a : Nat) (bs : List Byte) : (s.setStoredBytes a bs).sensed = s.sensed := rfl
@[simp] theorem State.setStoredBytes_moves (s : State) (a : Nat) (bs : List Byte) : (s.setStoredBytes a bs).moves = s.moves := rfl
@[simp] theorem State.setStoredBytes_nextOp (s : State) (a : Nat) (bs : List Byte) : (s.setStoredBytes a bs).nextOp = s.nextOp := rfl
@[simp] theorem State.setStoredBytes_nextGid (s : State) (a : Nat) (bs : List Byte) : (s.setStoredBytes a bs).nextGid = s.nextGid := rfl
@[simp] theorem State.setStoredBytes_nextChoice (s : State) (a : Nat) (bs : List Byte) : (s.setStoredBytes a bs).nextChoice = s.nextChoice := rfl
@[simp] theorem State.tick_threads (s : State) : (s.tick).threads = s.threads := rfl
@[simp] theorem State.tick_groups (s : State) : (s.tick).groups = s.groups := rfl
@[simp] theorem State.tick_thresher (s : State) : (s.tick).thresher = s.thresher := rfl
@[simp] theorem State.tick_partWord (s : State) : (s.tick).partWord = s.partWord := rfl
@[simp] theorem State.tick_board (s : State) : (s.tick).board = s.board := rfl
@[simp] theorem State.tick_ops (s : State) : (s.tick).ops = s.ops := rfl
@[simp] theorem State.tick_hbm (s : State) : (s.tick).hbm = s.hbm := rfl
@[simp] theorem State.tick_poison (s : State) : (s.tick).poison = s.poison := rfl
@[simp] theorem State.tick_upsets (s : State) : (s.tick).upsets = s.upsets := rfl
@[simp] theorem State.tick_lines (s : State) : (s.tick).lines = s.lines := rfl
@[simp] theorem State.tick_lineUses (s : State) : (s.tick).lineUses = s.lineUses := rfl
@[simp] theorem State.tick_portHeld (s : State) : (s.tick).portHeld = s.portHeld := rfl
@[simp] theorem State.tick_grants (s : State) : (s.tick).grants = s.grants := rfl
@[simp] theorem State.tick_wq (s : State) : (s.tick).wq = s.wq := rfl
@[simp] theorem State.tick_loadCache (s : State) : (s.tick).loadCache = s.loadCache := rfl
@[simp] theorem State.tick_scanout (s : State) : (s.tick).scanout = s.scanout := rfl
@[simp] theorem State.tick_tlb (s : State) : (s.tick).tlb = s.tlb := rfl
@[simp] theorem State.tick_walkCache (s : State) : (s.tick).walkCache = s.walkCache := rfl
@[simp] theorem State.tick_enroute (s : State) : (s.tick).enroute = s.enroute := rfl
@[simp] theorem State.tick_misses (s : State) : (s.tick).misses = s.misses := rfl
@[simp] theorem State.tick_lastDetect (s : State) : (s.tick).lastDetect = s.lastDetect := rfl
@[simp] theorem State.tick_mail (s : State) : (s.tick).mail = s.mail := rfl
@[simp] theorem State.tick_claims (s : State) : (s.tick).claims = s.claims := rfl
@[simp] theorem State.tick_gangStops (s : State) : (s.tick).gangStops = s.gangStops := rfl
@[simp] theorem State.tick_logPending (s : State) : (s.tick).logPending = s.logPending := rfl
@[simp] theorem State.tick_tenants (s : State) : (s.tick).tenants = s.tenants := rfl
@[simp] theorem State.tick_ctxs (s : State) : (s.tick).ctxs = s.ctxs := rfl
@[simp] theorem State.tick_saved (s : State) : (s.tick).saved = s.saved := rfl
@[simp] theorem State.tick_launches (s : State) : (s.tick).launches = s.launches := rfl
@[simp] theorem State.tick_nodes (s : State) : (s.tick).nodes = s.nodes := rfl
@[simp] theorem State.tick_graphErrors (s : State) : (s.tick).graphErrors = s.graphErrors := rfl
@[simp] theorem State.tick_views (s : State) : (s.tick).views = s.views := rfl
@[simp] theorem State.tick_amplifier (s : State) : (s.tick).amplifier = s.amplifier := rfl
@[simp] theorem State.tick_prims (s : State) : (s.tick).prims = s.prims := rfl
@[simp] theorem State.tick_covers (s : State) : (s.tick).covers = s.covers := rfl
@[simp] theorem State.tick_pushWaited (s : State) : (s.tick).pushWaited = s.pushWaited := rfl
@[simp] theorem State.tick_vote (s : State) : (s.tick).vote = s.vote := rfl
@[simp] theorem State.tick_fenceGen (s : State) : (s.tick).fenceGen = s.fenceGen := rfl
@[simp] theorem State.tick_orphan (s : State) : (s.tick).orphan = s.orphan := rfl
@[simp] theorem State.tick_epoch (s : State) : (s.tick).epoch = s.epoch := rfl
@[simp] theorem State.tick_periods (s : State) : (s.tick).periods = s.periods := rfl
@[simp] theorem State.tick_passNo (s : State) : (s.tick).passNo = s.passNo := rfl
@[simp] theorem State.tick_guardOver (s : State) : (s.tick).guardOver = s.guardOver := rfl
@[simp] theorem State.tick_throt (s : State) : (s.tick).throt = s.throt := rfl
@[simp] theorem State.tick_errors (s : State) : (s.tick).errors = s.errors := rfl
@[simp] theorem State.tick_uevents (s : State) : (s.tick).uevents = s.uevents := rfl
@[simp] theorem State.tick_mauth (s : State) : (s.tick).mauth = s.mauth := rfl
@[simp] theorem State.tick_rxdrop (s : State) : (s.tick).rxdrop = s.rxdrop := rfl
@[simp] theorem State.tick_pdown (s : State) : (s.tick).pdown = s.pdown := rfl
@[simp] theorem State.tick_nakCount (s : State) : (s.tick).nakCount = s.nakCount := rfl
@[simp] theorem State.tick_peerRefusals (s : State) : (s.tick).peerRefusals = s.peerRefusals := rfl
@[simp] theorem State.tick_mailDrops (s : State) : (s.tick).mailDrops = s.mailDrops := rfl
@[simp] theorem State.tick_bridgeStopped (s : State) : (s.tick).bridgeStopped = s.bridgeStopped := rfl
@[simp] theorem State.tick_bridgeRetries (s : State) : (s.tick).bridgeRetries = s.bridgeRetries := rfl
@[simp] theorem State.tick_station (s : State) : (s.tick).station = s.station := rfl
@[simp] theorem State.tick_stationKey (s : State) : (s.tick).stationKey = s.stationKey := rfl
@[simp] theorem State.tick_moduleNumber (s : State) : (s.tick).moduleNumber = s.moduleNumber := rfl
@[simp] theorem State.tick_walkedPeer (s : State) : (s.tick).walkedPeer = s.walkedPeer := rfl
@[simp] theorem State.tick_peerRoutes (s : State) : (s.tick).peerRoutes = s.peerRoutes := rfl
@[simp] theorem State.tick_portsDown (s : State) : (s.tick).portsDown = s.portsDown := rfl
@[simp] theorem State.tick_portReplays (s : State) : (s.tick).portReplays = s.portReplays := rfl
@[simp] theorem State.tick_pwrgood (s : State) : (s.tick).pwrgood = s.pwrgood := rfl
@[simp] theorem State.tick_resetN (s : State) : (s.tick).resetN = s.resetN := rfl
@[simp] theorem State.tick_ready (s : State) : (s.tick).ready = s.ready := rfl
@[simp] theorem State.tick_upStep (s : State) : (s.tick).upStep = s.upStep := rfl
@[simp] theorem State.tick_failCode (s : State) : (s.tick).failCode = s.failCode := rfl
@[simp] theorem State.tick_portUp (s : State) : (s.tick).portUp = s.portUp := rfl
@[simp] theorem State.tick_halted (s : State) : (s.tick).halted = s.halted := rfl
@[simp] theorem State.tick_inputs (s : State) : (s.tick).inputs = s.inputs := rfl
@[simp] theorem State.tick_sent (s : State) : (s.tick).sent = s.sent := rfl
@[simp] theorem State.tick_agenda (s : State) : (s.tick).agenda = s.agenda := rfl
@[simp] theorem State.tick_patrolled (s : State) : (s.tick).patrolled = s.patrolled := rfl
@[simp] theorem State.tick_moves (s : State) : (s.tick).moves = s.moves := rfl
@[simp] theorem State.tick_nextOp (s : State) : (s.tick).nextOp = s.nextOp := rfl
@[simp] theorem State.tick_nextGid (s : State) : (s.tick).nextGid = s.nextGid := rfl
@[simp] theorem State.tick_nextChoice (s : State) : (s.tick).nextChoice = s.nextChoice := rfl
@[simp] theorem State.moved_threads (s : State) : (s.moved).threads = s.threads := rfl
@[simp] theorem State.moved_groups (s : State) : (s.moved).groups = s.groups := rfl
@[simp] theorem State.moved_thresher (s : State) : (s.moved).thresher = s.thresher := rfl
@[simp] theorem State.moved_partWord (s : State) : (s.moved).partWord = s.partWord := rfl
@[simp] theorem State.moved_board (s : State) : (s.moved).board = s.board := rfl
@[simp] theorem State.moved_ops (s : State) : (s.moved).ops = s.ops := rfl
@[simp] theorem State.moved_hbm (s : State) : (s.moved).hbm = s.hbm := rfl
@[simp] theorem State.moved_poison (s : State) : (s.moved).poison = s.poison := rfl
@[simp] theorem State.moved_upsets (s : State) : (s.moved).upsets = s.upsets := rfl
@[simp] theorem State.moved_lines (s : State) : (s.moved).lines = s.lines := rfl
@[simp] theorem State.moved_lineUses (s : State) : (s.moved).lineUses = s.lineUses := rfl
@[simp] theorem State.moved_portHeld (s : State) : (s.moved).portHeld = s.portHeld := rfl
@[simp] theorem State.moved_grants (s : State) : (s.moved).grants = s.grants := rfl
@[simp] theorem State.moved_wq (s : State) : (s.moved).wq = s.wq := rfl
@[simp] theorem State.moved_loadCache (s : State) : (s.moved).loadCache = s.loadCache := rfl
@[simp] theorem State.moved_scanout (s : State) : (s.moved).scanout = s.scanout := rfl
@[simp] theorem State.moved_tlb (s : State) : (s.moved).tlb = s.tlb := rfl
@[simp] theorem State.moved_walkCache (s : State) : (s.moved).walkCache = s.walkCache := rfl
@[simp] theorem State.moved_enroute (s : State) : (s.moved).enroute = s.enroute := rfl
@[simp] theorem State.moved_misses (s : State) : (s.moved).misses = s.misses := rfl
@[simp] theorem State.moved_lastDetect (s : State) : (s.moved).lastDetect = s.lastDetect := rfl
@[simp] theorem State.moved_mail (s : State) : (s.moved).mail = s.mail := rfl
@[simp] theorem State.moved_claims (s : State) : (s.moved).claims = s.claims := rfl
@[simp] theorem State.moved_gangStops (s : State) : (s.moved).gangStops = s.gangStops := rfl
@[simp] theorem State.moved_logPending (s : State) : (s.moved).logPending = s.logPending := rfl
@[simp] theorem State.moved_tenants (s : State) : (s.moved).tenants = s.tenants := rfl
@[simp] theorem State.moved_ctxs (s : State) : (s.moved).ctxs = s.ctxs := rfl
@[simp] theorem State.moved_saved (s : State) : (s.moved).saved = s.saved := rfl
@[simp] theorem State.moved_launches (s : State) : (s.moved).launches = s.launches := rfl
@[simp] theorem State.moved_nodes (s : State) : (s.moved).nodes = s.nodes := rfl
@[simp] theorem State.moved_graphErrors (s : State) : (s.moved).graphErrors = s.graphErrors := rfl
@[simp] theorem State.moved_views (s : State) : (s.moved).views = s.views := rfl
@[simp] theorem State.moved_amplifier (s : State) : (s.moved).amplifier = s.amplifier := rfl
@[simp] theorem State.moved_prims (s : State) : (s.moved).prims = s.prims := rfl
@[simp] theorem State.moved_covers (s : State) : (s.moved).covers = s.covers := rfl
@[simp] theorem State.moved_pushWaited (s : State) : (s.moved).pushWaited = s.pushWaited := rfl
@[simp] theorem State.moved_vote (s : State) : (s.moved).vote = s.vote := rfl
@[simp] theorem State.moved_fenceGen (s : State) : (s.moved).fenceGen = s.fenceGen := rfl
@[simp] theorem State.moved_orphan (s : State) : (s.moved).orphan = s.orphan := rfl
@[simp] theorem State.moved_epoch (s : State) : (s.moved).epoch = s.epoch := rfl
@[simp] theorem State.moved_periods (s : State) : (s.moved).periods = s.periods := rfl
@[simp] theorem State.moved_passNo (s : State) : (s.moved).passNo = s.passNo := rfl
@[simp] theorem State.moved_guardOver (s : State) : (s.moved).guardOver = s.guardOver := rfl
@[simp] theorem State.moved_throt (s : State) : (s.moved).throt = s.throt := rfl
@[simp] theorem State.moved_errors (s : State) : (s.moved).errors = s.errors := rfl
@[simp] theorem State.moved_uevents (s : State) : (s.moved).uevents = s.uevents := rfl
@[simp] theorem State.moved_mauth (s : State) : (s.moved).mauth = s.mauth := rfl
@[simp] theorem State.moved_rxdrop (s : State) : (s.moved).rxdrop = s.rxdrop := rfl
@[simp] theorem State.moved_pdown (s : State) : (s.moved).pdown = s.pdown := rfl
@[simp] theorem State.moved_nakCount (s : State) : (s.moved).nakCount = s.nakCount := rfl
@[simp] theorem State.moved_peerRefusals (s : State) : (s.moved).peerRefusals = s.peerRefusals := rfl
@[simp] theorem State.moved_mailDrops (s : State) : (s.moved).mailDrops = s.mailDrops := rfl
@[simp] theorem State.moved_bridgeStopped (s : State) : (s.moved).bridgeStopped = s.bridgeStopped := rfl
@[simp] theorem State.moved_bridgeRetries (s : State) : (s.moved).bridgeRetries = s.bridgeRetries := rfl
@[simp] theorem State.moved_station (s : State) : (s.moved).station = s.station := rfl
@[simp] theorem State.moved_stationKey (s : State) : (s.moved).stationKey = s.stationKey := rfl
@[simp] theorem State.moved_moduleNumber (s : State) : (s.moved).moduleNumber = s.moduleNumber := rfl
@[simp] theorem State.moved_walkedPeer (s : State) : (s.moved).walkedPeer = s.walkedPeer := rfl
@[simp] theorem State.moved_peerRoutes (s : State) : (s.moved).peerRoutes = s.peerRoutes := rfl
@[simp] theorem State.moved_portsDown (s : State) : (s.moved).portsDown = s.portsDown := rfl
@[simp] theorem State.moved_portReplays (s : State) : (s.moved).portReplays = s.portReplays := rfl
@[simp] theorem State.moved_pwrgood (s : State) : (s.moved).pwrgood = s.pwrgood := rfl
@[simp] theorem State.moved_resetN (s : State) : (s.moved).resetN = s.resetN := rfl
@[simp] theorem State.moved_ready (s : State) : (s.moved).ready = s.ready := rfl
@[simp] theorem State.moved_upStep (s : State) : (s.moved).upStep = s.upStep := rfl
@[simp] theorem State.moved_failCode (s : State) : (s.moved).failCode = s.failCode := rfl
@[simp] theorem State.moved_portUp (s : State) : (s.moved).portUp = s.portUp := rfl
@[simp] theorem State.moved_halted (s : State) : (s.moved).halted = s.halted := rfl
@[simp] theorem State.moved_now (s : State) : (s.moved).now = s.now := rfl
@[simp] theorem State.moved_inputs (s : State) : (s.moved).inputs = s.inputs := rfl
@[simp] theorem State.moved_sent (s : State) : (s.moved).sent = s.sent := rfl
@[simp] theorem State.moved_agenda (s : State) : (s.moved).agenda = s.agenda := rfl
@[simp] theorem State.moved_gather (s : State) : (s.moved).gather = s.gather := rfl
@[simp] theorem State.moved_armed (s : State) : (s.moved).armed = s.armed := rfl
@[simp] theorem State.moved_patrolled (s : State) : (s.moved).patrolled = s.patrolled := rfl
@[simp] theorem State.moved_sensed (s : State) : (s.moved).sensed = s.sensed := rfl
@[simp] theorem State.moved_nextOp (s : State) : (s.moved).nextOp = s.nextOp := rfl
@[simp] theorem State.moved_nextGid (s : State) : (s.moved).nextGid = s.nextGid := rfl
@[simp] theorem State.moved_nextChoice (s : State) : (s.moved).nextChoice = s.nextChoice := rfl
@[simp] theorem State.tick_now (s : State) : s.tick.now = s.now + 1 := rfl
@[simp] theorem State.tick_armed (s : State) : s.tick.armed = false := rfl
@[simp] theorem State.tick_gather (s : State) : s.tick.gather = none := rfl
@[simp] theorem State.moved_moves (s : State) : s.moved.moves = s.moves + 1 := rfl
@[simp] theorem State.setThread_threads (s : State) (k : Nat) (t : Thread) : (s.setThread k t).threads = Store.put s.threads k t := rfl
@[simp] theorem State.updThread_threads (s : State) (k : Nat) (f : Thread → Thread) : (s.updThread k f).threads = Store.upd s.threads k f := rfl
@[simp] theorem State.updGroup_groups (s : State) (k : Nat) (f : Group → Group) : (s.updGroup k f).groups = Store.upd s.groups k f := rfl
@[simp] theorem State.updCtx_ctxs (s : State) (k : Nat) (f : Ctx → Ctx) : (s.updCtx k f).ctxs = Store.upd s.ctxs k f := rfl
@[simp] theorem State.setTenant_tenants (s : State) (k : Nat) (t : Tenant) : (s.setTenant k t).tenants = Store.put s.tenants k t := rfl
@[simp] theorem State.setStored_hbm (s : State) (a : Nat) (b : Byte) : (s.setStored a b).hbm = Store.wr 0 s.hbm a b := rfl
@[simp] theorem State.setStoredBytes_hbm (s : State) (a : Nat) (bs : List Byte) : (s.setStoredBytes a bs).hbm = setBytes s.hbm a bs := rfl

@[simp] theorem Thread.putWord_gid (th : Thread) (i : Nat) (w : Word) : (th.putWord i w).gid = th.gid := rfl
@[simp] theorem Thread.putWord_tid (th : Thread) (i : Nat) (w : Word) : (th.putWord i w).tid = th.tid := rfl
@[simp] theorem Thread.putWord_st (th : Thread) (i : Nat) (w : Word) : (th.putWord i w).st = th.st := rfl
@[simp] theorem Thread.putWord_pc (th : Thread) (i : Nat) (w : Word) : (th.putWord i w).pc = th.pc := rfl
@[simp] theorem Thread.putWord_words (th : Thread) (i : Nat) (w : Word) : (th.putWord i w).words = th.words := rfl
@[simp] theorem Thread.putWord_wb (th : Thread) (i : Nat) (w : Word) : (th.putWord i w).wb = th.wb := rfl
@[simp] theorem Thread.putWord_sb (th : Thread) (i : Nat) (w : Word) : (th.putWord i w).sb = th.sb := rfl
@[simp] theorem Thread.putWord_preds (th : Thread) (i : Nat) (w : Word) : (th.putWord i w).preds = th.preds := rfl
@[simp] theorem Thread.putWord_fflags (th : Thread) (i : Nat) (w : Word) : (th.putWord i w).fflags = th.fflags := rfl
@[simp] theorem Thread.putWord_wsp (th : Thread) (i : Nat) (w : Word) : (th.putWord i w).wsp = th.wsp := rfl
@[simp] theorem Thread.putWord_errst (th : Thread) (i : Nat) (w : Word) : (th.putWord i w).errst = th.errst := rfl
@[simp] theorem Thread.putWord_tcause (th : Thread) (i : Nat) (w : Word) : (th.putWord i w).tcause = th.tcause := rfl
@[simp] theorem Thread.putWord_tepc (th : Thread) (i : Nat) (w : Word) : (th.putWord i w).tepc = th.tepc := rfl
@[simp] theorem Thread.putWord_tval (th : Thread) (i : Nat) (w : Word) : (th.putWord i w).tval = th.tval := rfl
@[simp] theorem Thread.putWord_clkHi (th : Thread) (i : Nat) (w : Word) : (th.putWord i w).clkHi = th.clkHi := rfl
@[simp] theorem Thread.putWord_sheaf (th : Thread) (i : Nat) (w : Word) : (th.putWord i w).sheaf = th.sheaf := rfl
@[simp] theorem Thread.putWord_susp (th : Thread) (i : Nat) (w : Word) : (th.putWord i w).susp = th.susp := rfl
@[simp] theorem Thread.putWord_kept (th : Thread) (i : Nat) (w : Word) : (th.putWord i w).kept = th.kept := rfl
@[simp] theorem Thread.putWord_ahead (th : Thread) (i : Nat) (w : Word) : (th.putWord i w).ahead = th.ahead := rfl
@[simp] theorem Thread.putWord_late (th : Thread) (i : Nat) (w : Word) : (th.putWord i w).late = th.late := rfl
@[simp] theorem Thread.putWord_since (th : Thread) (i : Nat) (w : Word) : (th.putWord i w).since = th.since := rfl
@[simp] theorem Thread.putWord_reload (th : Thread) (i : Nat) (w : Word) : (th.putWord i w).reload = th.reload := rfl
@[simp] theorem Thread.putWord_peerBuf (th : Thread) (i : Nat) (w : Word) : (th.putWord i w).peerBuf = th.peerBuf := rfl
@[simp] theorem Thread.putWord_wordBuf (th : Thread) (i : Nat) (w : Word) : (th.putWord i w).wordBuf = th.wordBuf := rfl
@[simp] theorem Thread.putWord_heldBy (th : Thread) (i : Nat) (w : Word) : (th.putWord i w).heldBy = th.heldBy := rfl
@[simp] theorem Thread.setPred_gid (th : Thread) (p : Nat) (b : Bool) : (th.setPred p b).gid = th.gid := rfl
@[simp] theorem Thread.setPred_tid (th : Thread) (p : Nat) (b : Bool) : (th.setPred p b).tid = th.tid := rfl
@[simp] theorem Thread.setPred_st (th : Thread) (p : Nat) (b : Bool) : (th.setPred p b).st = th.st := rfl
@[simp] theorem Thread.setPred_pc (th : Thread) (p : Nat) (b : Bool) : (th.setPred p b).pc = th.pc := rfl
@[simp] theorem Thread.setPred_words (th : Thread) (p : Nat) (b : Bool) : (th.setPred p b).words = th.words := rfl
@[simp] theorem Thread.setPred_stack (th : Thread) (p : Nat) (b : Bool) : (th.setPred p b).stack = th.stack := rfl
@[simp] theorem Thread.setPred_wb (th : Thread) (p : Nat) (b : Bool) : (th.setPred p b).wb = th.wb := rfl
@[simp] theorem Thread.setPred_sb (th : Thread) (p : Nat) (b : Bool) : (th.setPred p b).sb = th.sb := rfl
@[simp] theorem Thread.setPred_fflags (th : Thread) (p : Nat) (b : Bool) : (th.setPred p b).fflags = th.fflags := rfl
@[simp] theorem Thread.setPred_wsp (th : Thread) (p : Nat) (b : Bool) : (th.setPred p b).wsp = th.wsp := rfl
@[simp] theorem Thread.setPred_errst (th : Thread) (p : Nat) (b : Bool) : (th.setPred p b).errst = th.errst := rfl
@[simp] theorem Thread.setPred_tcause (th : Thread) (p : Nat) (b : Bool) : (th.setPred p b).tcause = th.tcause := rfl
@[simp] theorem Thread.setPred_tepc (th : Thread) (p : Nat) (b : Bool) : (th.setPred p b).tepc = th.tepc := rfl
@[simp] theorem Thread.setPred_tval (th : Thread) (p : Nat) (b : Bool) : (th.setPred p b).tval = th.tval := rfl
@[simp] theorem Thread.setPred_clkHi (th : Thread) (p : Nat) (b : Bool) : (th.setPred p b).clkHi = th.clkHi := rfl
@[simp] theorem Thread.setPred_sheaf (th : Thread) (p : Nat) (b : Bool) : (th.setPred p b).sheaf = th.sheaf := rfl
@[simp] theorem Thread.setPred_susp (th : Thread) (p : Nat) (b : Bool) : (th.setPred p b).susp = th.susp := rfl
@[simp] theorem Thread.setPred_pend (th : Thread) (p : Nat) (b : Bool) : (th.setPred p b).pend = th.pend := rfl
@[simp] theorem Thread.setPred_bad (th : Thread) (p : Nat) (b : Bool) : (th.setPred p b).bad = th.bad := rfl
@[simp] theorem Thread.setPred_weak (th : Thread) (p : Nat) (b : Bool) : (th.setPred p b).weak = th.weak := rfl
@[simp] theorem Thread.setPred_kept (th : Thread) (p : Nat) (b : Bool) : (th.setPred p b).kept = th.kept := rfl
@[simp] theorem Thread.setPred_ahead (th : Thread) (p : Nat) (b : Bool) : (th.setPred p b).ahead = th.ahead := rfl
@[simp] theorem Thread.setPred_late (th : Thread) (p : Nat) (b : Bool) : (th.setPred p b).late = th.late := rfl
@[simp] theorem Thread.setPred_since (th : Thread) (p : Nat) (b : Bool) : (th.setPred p b).since = th.since := rfl
@[simp] theorem Thread.setPred_reload (th : Thread) (p : Nat) (b : Bool) : (th.setPred p b).reload = th.reload := rfl
@[simp] theorem Thread.setPred_peerBuf (th : Thread) (p : Nat) (b : Bool) : (th.setPred p b).peerBuf = th.peerBuf := rfl
@[simp] theorem Thread.setPred_wordBuf (th : Thread) (p : Nat) (b : Bool) : (th.setPred p b).wordBuf = th.wordBuf := rfl
@[simp] theorem Thread.setPred_heldBy (th : Thread) (p : Nat) (b : Bool) : (th.setPred p b).heldBy = th.heldBy := rfl
@[simp] theorem Thread.goto_gid (th : Thread) (pc now : Nat) : (th.goto pc now).gid = th.gid := rfl
@[simp] theorem Thread.goto_tid (th : Thread) (pc now : Nat) : (th.goto pc now).tid = th.tid := rfl
@[simp] theorem Thread.goto_words (th : Thread) (pc now : Nat) : (th.goto pc now).words = th.words := rfl
@[simp] theorem Thread.goto_stack (th : Thread) (pc now : Nat) : (th.goto pc now).stack = th.stack := rfl
@[simp] theorem Thread.goto_wb (th : Thread) (pc now : Nat) : (th.goto pc now).wb = th.wb := rfl
@[simp] theorem Thread.goto_sb (th : Thread) (pc now : Nat) : (th.goto pc now).sb = th.sb := rfl
@[simp] theorem Thread.goto_preds (th : Thread) (pc now : Nat) : (th.goto pc now).preds = th.preds := rfl
@[simp] theorem Thread.goto_fflags (th : Thread) (pc now : Nat) : (th.goto pc now).fflags = th.fflags := rfl
@[simp] theorem Thread.goto_wsp (th : Thread) (pc now : Nat) : (th.goto pc now).wsp = th.wsp := rfl
@[simp] theorem Thread.goto_errst (th : Thread) (pc now : Nat) : (th.goto pc now).errst = th.errst := rfl
@[simp] theorem Thread.goto_tcause (th : Thread) (pc now : Nat) : (th.goto pc now).tcause = th.tcause := rfl
@[simp] theorem Thread.goto_tepc (th : Thread) (pc now : Nat) : (th.goto pc now).tepc = th.tepc := rfl
@[simp] theorem Thread.goto_tval (th : Thread) (pc now : Nat) : (th.goto pc now).tval = th.tval := rfl
@[simp] theorem Thread.goto_clkHi (th : Thread) (pc now : Nat) : (th.goto pc now).clkHi = th.clkHi := rfl
@[simp] theorem Thread.goto_sheaf (th : Thread) (pc now : Nat) : (th.goto pc now).sheaf = th.sheaf := rfl
@[simp] theorem Thread.goto_susp (th : Thread) (pc now : Nat) : (th.goto pc now).susp = th.susp := rfl
@[simp] theorem Thread.goto_pend (th : Thread) (pc now : Nat) : (th.goto pc now).pend = th.pend := rfl
@[simp] theorem Thread.goto_bad (th : Thread) (pc now : Nat) : (th.goto pc now).bad = th.bad := rfl
@[simp] theorem Thread.goto_weak (th : Thread) (pc now : Nat) : (th.goto pc now).weak = th.weak := rfl
@[simp] theorem Thread.goto_kept (th : Thread) (pc now : Nat) : (th.goto pc now).kept = th.kept := rfl
@[simp] theorem Thread.goto_late (th : Thread) (pc now : Nat) : (th.goto pc now).late = th.late := rfl
@[simp] theorem Thread.goto_reload (th : Thread) (pc now : Nat) : (th.goto pc now).reload = th.reload := rfl
@[simp] theorem Thread.leaveHandler_gid (th : Thread) (pc : Nat) : (th.leaveHandler pc).gid = th.gid := rfl
@[simp] theorem Thread.leaveHandler_tid (th : Thread) (pc : Nat) : (th.leaveHandler pc).tid = th.tid := rfl
@[simp] theorem Thread.leaveHandler_st (th : Thread) (pc : Nat) : (th.leaveHandler pc).st = th.st := rfl
@[simp] theorem Thread.leaveHandler_words (th : Thread) (pc : Nat) : (th.leaveHandler pc).words = th.words := rfl
@[simp] theorem Thread.leaveHandler_stack (th : Thread) (pc : Nat) : (th.leaveHandler pc).stack = th.stack := rfl
@[simp] theorem Thread.leaveHandler_wb (th : Thread) (pc : Nat) : (th.leaveHandler pc).wb = th.wb := rfl
@[simp] theorem Thread.leaveHandler_sb (th : Thread) (pc : Nat) : (th.leaveHandler pc).sb = th.sb := rfl
@[simp] theorem Thread.leaveHandler_preds (th : Thread) (pc : Nat) : (th.leaveHandler pc).preds = th.preds := rfl
@[simp] theorem Thread.leaveHandler_fflags (th : Thread) (pc : Nat) : (th.leaveHandler pc).fflags = th.fflags := rfl
@[simp] theorem Thread.leaveHandler_wsp (th : Thread) (pc : Nat) : (th.leaveHandler pc).wsp = th.wsp := rfl
@[simp] theorem Thread.leaveHandler_errst (th : Thread) (pc : Nat) : (th.leaveHandler pc).errst = th.errst := rfl
@[simp] theorem Thread.leaveHandler_tepc (th : Thread) (pc : Nat) : (th.leaveHandler pc).tepc = th.tepc := rfl
@[simp] theorem Thread.leaveHandler_tval (th : Thread) (pc : Nat) : (th.leaveHandler pc).tval = th.tval := rfl
@[simp] theorem Thread.leaveHandler_clkHi (th : Thread) (pc : Nat) : (th.leaveHandler pc).clkHi = th.clkHi := rfl
@[simp] theorem Thread.leaveHandler_pend (th : Thread) (pc : Nat) : (th.leaveHandler pc).pend = th.pend := rfl
@[simp] theorem Thread.leaveHandler_bad (th : Thread) (pc : Nat) : (th.leaveHandler pc).bad = th.bad := rfl
@[simp] theorem Thread.leaveHandler_weak (th : Thread) (pc : Nat) : (th.leaveHandler pc).weak = th.weak := rfl
@[simp] theorem Thread.leaveHandler_kept (th : Thread) (pc : Nat) : (th.leaveHandler pc).kept = th.kept := rfl
@[simp] theorem Thread.leaveHandler_ahead (th : Thread) (pc : Nat) : (th.leaveHandler pc).ahead = th.ahead := rfl
@[simp] theorem Thread.leaveHandler_late (th : Thread) (pc : Nat) : (th.leaveHandler pc).late = th.late := rfl
@[simp] theorem Thread.leaveHandler_since (th : Thread) (pc : Nat) : (th.leaveHandler pc).since = th.since := rfl
@[simp] theorem Thread.leaveHandler_reload (th : Thread) (pc : Nat) : (th.leaveHandler pc).reload = th.reload := rfl
@[simp] theorem Thread.leaveHandler_peerBuf (th : Thread) (pc : Nat) : (th.leaveHandler pc).peerBuf = th.peerBuf := rfl
@[simp] theorem Thread.leaveHandler_wordBuf (th : Thread) (pc : Nat) : (th.leaveHandler pc).wordBuf = th.wordBuf := rfl
@[simp] theorem Thread.leaveHandler_heldBy (th : Thread) (pc : Nat) : (th.leaveHandler pc).heldBy = th.heldBy := rfl
@[simp] theorem Thread.enterHandler_gid (th : Thread) (c t pc target now : Nat) : (th.enterHandler c t pc target now).gid = th.gid := rfl
@[simp] theorem Thread.enterHandler_tid (th : Thread) (c t pc target now : Nat) : (th.enterHandler c t pc target now).tid = th.tid := rfl
@[simp] theorem Thread.enterHandler_words (th : Thread) (c t pc target now : Nat) : (th.enterHandler c t pc target now).words = th.words := rfl
@[simp] theorem Thread.enterHandler_stack (th : Thread) (c t pc target now : Nat) : (th.enterHandler c t pc target now).stack = th.stack := rfl
@[simp] theorem Thread.enterHandler_wb (th : Thread) (c t pc target now : Nat) : (th.enterHandler c t pc target now).wb = th.wb := rfl
@[simp] theorem Thread.enterHandler_sb (th : Thread) (c t pc target now : Nat) : (th.enterHandler c t pc target now).sb = th.sb := rfl
@[simp] theorem Thread.enterHandler_preds (th : Thread) (c t pc target now : Nat) : (th.enterHandler c t pc target now).preds = th.preds := rfl
@[simp] theorem Thread.enterHandler_fflags (th : Thread) (c t pc target now : Nat) : (th.enterHandler c t pc target now).fflags = th.fflags := rfl
@[simp] theorem Thread.enterHandler_wsp (th : Thread) (c t pc target now : Nat) : (th.enterHandler c t pc target now).wsp = th.wsp := rfl
@[simp] theorem Thread.enterHandler_errst (th : Thread) (c t pc target now : Nat) : (th.enterHandler c t pc target now).errst = th.errst := rfl
@[simp] theorem Thread.enterHandler_clkHi (th : Thread) (c t pc target now : Nat) : (th.enterHandler c t pc target now).clkHi = th.clkHi := rfl
@[simp] theorem Thread.enterHandler_pend (th : Thread) (c t pc target now : Nat) : (th.enterHandler c t pc target now).pend = th.pend := rfl
@[simp] theorem Thread.enterHandler_bad (th : Thread) (c t pc target now : Nat) : (th.enterHandler c t pc target now).bad = th.bad := rfl
@[simp] theorem Thread.enterHandler_weak (th : Thread) (c t pc target now : Nat) : (th.enterHandler c t pc target now).weak = th.weak := rfl
@[simp] theorem Thread.enterHandler_kept (th : Thread) (c t pc target now : Nat) : (th.enterHandler c t pc target now).kept = th.kept := rfl
@[simp] theorem Thread.enterHandler_ahead (th : Thread) (c t pc target now : Nat) : (th.enterHandler c t pc target now).ahead = th.ahead := rfl
@[simp] theorem Thread.enterHandler_late (th : Thread) (c t pc target now : Nat) : (th.enterHandler c t pc target now).late = th.late := rfl
@[simp] theorem Thread.enterHandler_reload (th : Thread) (c t pc target now : Nat) : (th.enterHandler c t pc target now).reload = th.reload := rfl
@[simp] theorem Group.putUniform_ctx (g : Group) (i : Nat) (w : Word) : (g.putUniform i w).ctx = g.ctx := rfl
@[simp] theorem Group.putUniform_core (g : Group) (i : Nat) (w : Word) : (g.putUniform i w).core = g.core := rfl
@[simp] theorem Group.putUniform_launch (g : Group) (i : Nat) (w : Word) : (g.putUniform i w).launch = g.launch := rfl
@[simp] theorem Group.putUniform_gang (g : Group) (i : Nat) (w : Word) : (g.putUniform i w).gang = g.gang := rfl
@[simp] theorem Group.putUniform_member (g : Group) (i : Nat) (w : Word) : (g.putUniform i w).member = g.member := rfl
@[simp] theorem Group.putUniform_gangSize (g : Group) (i : Nat) (w : Word) : (g.putUniform i w).gangSize = g.gangSize := rfl
@[simp] theorem Group.putUniform_threads (g : Group) (i : Nat) (w : Word) : (g.putUniform i w).threads = g.threads := rfl
@[simp] theorem Group.putUniform_stackWords (g : Group) (i : Nat) (w : Word) : (g.putUniform i w).stackWords = g.stackWords := rfl
@[simp] theorem Group.putUniform_part (g : Group) (i : Nat) (w : Word) : (g.putUniform i w).part = g.part := rfl
@[simp] theorem Group.putUniform_rows (g : Group) (i : Nat) (w : Word) : (g.putUniform i w).rows = g.rows := rfl
@[simp] theorem Group.putUniform_regBase (g : Group) (i : Nat) (w : Word) : (g.putUniform i w).regBase = g.regBase := rfl
@[simp] theorem Group.putUniform_regLen (g : Group) (i : Nat) (w : Word) : (g.putUniform i w).regLen = g.regLen := rfl
@[simp] theorem Group.putUniform_spBase (g : Group) (i : Nat) (w : Word) : (g.putUniform i w).spBase = g.spBase := rfl
@[simp] theorem Group.putUniform_spLen (g : Group) (i : Nat) (w : Word) : (g.putUniform i w).spLen = g.spLen := rfl
@[simp] theorem Group.putUniform_accBase (g : Group) (i : Nat) (w : Word) : (g.putUniform i w).accBase = g.accBase := rfl
@[simp] theorem Group.putUniform_tileCount (g : Group) (i : Nat) (w : Word) : (g.putUniform i w).tileCount = g.tileCount := rfl
@[simp] theorem Group.putUniform_fields (g : Group) (i : Nat) (w : Word) : (g.putUniform i w).fields = g.fields := rfl
@[simp] theorem Group.putUniform_widths (g : Group) (i : Nat) (w : Word) : (g.putUniform i w).widths = g.widths := rfl
@[simp] theorem Group.putUniform_kfrom (g : Group) (i : Nat) (w : Word) : (g.putUniform i w).kfrom = g.kfrom := rfl
@[simp] theorem Group.putUniform_sp (g : Group) (i : Nat) (w : Word) : (g.putUniform i w).sp = g.sp := rfl
@[simp] theorem Group.putUniform_spBad (g : Group) (i : Nat) (w : Word) : (g.putUniform i w).spBad = g.spBad := rfl
@[simp] theorem Group.putUniform_spWeak (g : Group) (i : Nat) (w : Word) : (g.putUniform i w).spWeak = g.spWeak := rfl
@[simp] theorem Group.putUniform_tiles (g : Group) (i : Nat) (w : Word) : (g.putUniform i w).tiles = g.tiles := rfl
@[simp] theorem Group.putUniform_queues (g : Group) (i : Nat) (w : Word) : (g.putUniform i w).queues = g.queues := rfl
@[simp] theorem Group.putUniform_tcs (g : Group) (i : Nat) (w : Word) : (g.putUniform i w).tcs = g.tcs := rfl
@[simp] theorem Group.putUniform_bars (g : Group) (i : Nat) (w : Word) : (g.putUniform i w).bars = g.bars := rfl
@[simp] theorem Group.putUniform_cvs (g : Group) (i : Nat) (w : Word) : (g.putUniform i w).cvs = g.cvs := rfl
@[simp] theorem Group.putUniform_posts (g : Group) (i : Nat) (w : Word) : (g.putUniform i w).posts = g.posts := rfl
@[simp] theorem Group.putUniform_msgs (g : Group) (i : Nat) (w : Word) : (g.putUniform i w).msgs = g.msgs := rfl
@[simp] theorem Group.putUniform_lseed (g : Group) (i : Nat) (w : Word) : (g.putUniform i w).lseed = g.lseed := rfl
@[simp] theorem Group.putUniform_args (g : Group) (i : Nat) (w : Word) : (g.putUniform i w).args = g.args := rfl
@[simp] theorem Group.putUniform_code (g : Group) (i : Nat) (w : Word) : (g.putUniform i w).code = g.code := rfl
@[simp] theorem Group.putUniform_prod (g : Group) (i : Nat) (w : Word) : (g.putUniform i w).prod = g.prod := rfl
@[simp] theorem Group.putUniform_thr (g : Group) (i : Nat) (w : Word) : (g.putUniform i w).thr = g.thr := rfl
@[simp] theorem Group.putUniform_stage (g : Group) (i : Nat) (w : Word) : (g.putUniform i w).stage = g.stage := rfl
@[simp] theorem Group.putUniform_live (g : Group) (i : Nat) (w : Word) : (g.putUniform i w).live = g.live := rfl
@[simp] theorem Group.putUniform_placed (g : Group) (i : Nat) (w : Word) : (g.putUniform i w).placed = g.placed := rfl
@[simp] theorem Group.putUniform_leaving (g : Group) (i : Nat) (w : Word) : (g.putUniform i w).leaving = g.leaving := rfl
@[simp] theorem Group.spWrite_ctx (g : Group) (o : Nat) (bs : List Byte) : (g.spWrite o bs).ctx = g.ctx := rfl
@[simp] theorem Group.spWrite_core (g : Group) (o : Nat) (bs : List Byte) : (g.spWrite o bs).core = g.core := rfl
@[simp] theorem Group.spWrite_launch (g : Group) (o : Nat) (bs : List Byte) : (g.spWrite o bs).launch = g.launch := rfl
@[simp] theorem Group.spWrite_gang (g : Group) (o : Nat) (bs : List Byte) : (g.spWrite o bs).gang = g.gang := rfl
@[simp] theorem Group.spWrite_member (g : Group) (o : Nat) (bs : List Byte) : (g.spWrite o bs).member = g.member := rfl
@[simp] theorem Group.spWrite_gangSize (g : Group) (o : Nat) (bs : List Byte) : (g.spWrite o bs).gangSize = g.gangSize := rfl
@[simp] theorem Group.spWrite_threads (g : Group) (o : Nat) (bs : List Byte) : (g.spWrite o bs).threads = g.threads := rfl
@[simp] theorem Group.spWrite_stackWords (g : Group) (o : Nat) (bs : List Byte) : (g.spWrite o bs).stackWords = g.stackWords := rfl
@[simp] theorem Group.spWrite_part (g : Group) (o : Nat) (bs : List Byte) : (g.spWrite o bs).part = g.part := rfl
@[simp] theorem Group.spWrite_rows (g : Group) (o : Nat) (bs : List Byte) : (g.spWrite o bs).rows = g.rows := rfl
@[simp] theorem Group.spWrite_regBase (g : Group) (o : Nat) (bs : List Byte) : (g.spWrite o bs).regBase = g.regBase := rfl
@[simp] theorem Group.spWrite_regLen (g : Group) (o : Nat) (bs : List Byte) : (g.spWrite o bs).regLen = g.regLen := rfl
@[simp] theorem Group.spWrite_spBase (g : Group) (o : Nat) (bs : List Byte) : (g.spWrite o bs).spBase = g.spBase := rfl
@[simp] theorem Group.spWrite_spLen (g : Group) (o : Nat) (bs : List Byte) : (g.spWrite o bs).spLen = g.spLen := rfl
@[simp] theorem Group.spWrite_accBase (g : Group) (o : Nat) (bs : List Byte) : (g.spWrite o bs).accBase = g.accBase := rfl
@[simp] theorem Group.spWrite_tileCount (g : Group) (o : Nat) (bs : List Byte) : (g.spWrite o bs).tileCount = g.tileCount := rfl
@[simp] theorem Group.spWrite_fields (g : Group) (o : Nat) (bs : List Byte) : (g.spWrite o bs).fields = g.fields := rfl
@[simp] theorem Group.spWrite_widths (g : Group) (o : Nat) (bs : List Byte) : (g.spWrite o bs).widths = g.widths := rfl
@[simp] theorem Group.spWrite_k (g : Group) (o : Nat) (bs : List Byte) : (g.spWrite o bs).k = g.k := rfl
@[simp] theorem Group.spWrite_kpend (g : Group) (o : Nat) (bs : List Byte) : (g.spWrite o bs).kpend = g.kpend := rfl
@[simp] theorem Group.spWrite_kfrom (g : Group) (o : Nat) (bs : List Byte) : (g.spWrite o bs).kfrom = g.kfrom := rfl
@[simp] theorem Group.spWrite_kbad (g : Group) (o : Nat) (bs : List Byte) : (g.spWrite o bs).kbad = g.kbad := rfl
@[simp] theorem Group.spWrite_tiles (g : Group) (o : Nat) (bs : List Byte) : (g.spWrite o bs).tiles = g.tiles := rfl
@[simp] theorem Group.spWrite_queues (g : Group) (o : Nat) (bs : List Byte) : (g.spWrite o bs).queues = g.queues := rfl
@[simp] theorem Group.spWrite_tcs (g : Group) (o : Nat) (bs : List Byte) : (g.spWrite o bs).tcs = g.tcs := rfl
@[simp] theorem Group.spWrite_bars (g : Group) (o : Nat) (bs : List Byte) : (g.spWrite o bs).bars = g.bars := rfl
@[simp] theorem Group.spWrite_cvs (g : Group) (o : Nat) (bs : List Byte) : (g.spWrite o bs).cvs = g.cvs := rfl
@[simp] theorem Group.spWrite_posts (g : Group) (o : Nat) (bs : List Byte) : (g.spWrite o bs).posts = g.posts := rfl
@[simp] theorem Group.spWrite_msgs (g : Group) (o : Nat) (bs : List Byte) : (g.spWrite o bs).msgs = g.msgs := rfl
@[simp] theorem Group.spWrite_lseed (g : Group) (o : Nat) (bs : List Byte) : (g.spWrite o bs).lseed = g.lseed := rfl
@[simp] theorem Group.spWrite_args (g : Group) (o : Nat) (bs : List Byte) : (g.spWrite o bs).args = g.args := rfl
@[simp] theorem Group.spWrite_code (g : Group) (o : Nat) (bs : List Byte) : (g.spWrite o bs).code = g.code := rfl
@[simp] theorem Group.spWrite_prod (g : Group) (o : Nat) (bs : List Byte) : (g.spWrite o bs).prod = g.prod := rfl
@[simp] theorem Group.spWrite_thr (g : Group) (o : Nat) (bs : List Byte) : (g.spWrite o bs).thr = g.thr := rfl
@[simp] theorem Group.spWrite_stage (g : Group) (o : Nat) (bs : List Byte) : (g.spWrite o bs).stage = g.stage := rfl
@[simp] theorem Group.spWrite_live (g : Group) (o : Nat) (bs : List Byte) : (g.spWrite o bs).live = g.live := rfl
@[simp] theorem Group.spWrite_placed (g : Group) (o : Nat) (bs : List Byte) : (g.spWrite o bs).placed = g.placed := rfl
@[simp] theorem Group.spWrite_leaving (g : Group) (o : Nat) (bs : List Byte) : (g.spWrite o bs).leaving = g.leaving := rfl

/-- Writing where a result lands changes no field but the threads and the groups. -/
theorem State.putDst_frame (s : State) (k g : Nat) (d : Dst) (w : Word) :
    s.putDst k g d w = { s with threads := (s.putDst k g d w).threads, groups := (s.putDst k g d w).groups } := by
  cases d <;> rfl

theorem State.putDsts_frame (s : State) (k g : Nat) (ds : List Dst) (ws : List Word) :
    s.putDsts k g ds ws = { s with threads := (s.putDsts k g ds ws).threads, groups := (s.putDsts k g ds ws).groups } := by
  unfold State.putDsts
  generalize ds.zip ws = l
  induction l generalizing s with
  | nil => rfl
  | cons p l ih =>
    rw [List.foldl_cons, ih]
    rw [State.putDst_frame]

@[simp] theorem State.putDst_thresher (s : State) (k g : Nat) (d : Dst) (w : Word) : (s.putDst k g d w).thresher = s.thresher := by rw [putDst_frame]
@[simp] theorem State.putDsts_thresher (s : State) (k g : Nat) (ds : List Dst) (ws : List Word) : (s.putDsts k g ds ws).thresher = s.thresher := by rw [putDsts_frame]
@[simp] theorem Lane.wr_thresher (v : Lane) (s : State) (n : Nat) (d : BitVec 6) (a : Nat) : (v.wr s n d a).thresher = s.thresher := State.putDsts_thresher ..
@[simp] theorem State.putDst_partWord (s : State) (k g : Nat) (d : Dst) (w : Word) : (s.putDst k g d w).partWord = s.partWord := by rw [putDst_frame]
@[simp] theorem State.putDsts_partWord (s : State) (k g : Nat) (ds : List Dst) (ws : List Word) : (s.putDsts k g ds ws).partWord = s.partWord := by rw [putDsts_frame]
@[simp] theorem Lane.wr_partWord (v : Lane) (s : State) (n : Nat) (d : BitVec 6) (a : Nat) : (v.wr s n d a).partWord = s.partWord := State.putDsts_partWord ..
@[simp] theorem State.putDst_board (s : State) (k g : Nat) (d : Dst) (w : Word) : (s.putDst k g d w).board = s.board := by rw [putDst_frame]
@[simp] theorem State.putDsts_board (s : State) (k g : Nat) (ds : List Dst) (ws : List Word) : (s.putDsts k g ds ws).board = s.board := by rw [putDsts_frame]
@[simp] theorem Lane.wr_board (v : Lane) (s : State) (n : Nat) (d : BitVec 6) (a : Nat) : (v.wr s n d a).board = s.board := State.putDsts_board ..
@[simp] theorem State.putDst_ops (s : State) (k g : Nat) (d : Dst) (w : Word) : (s.putDst k g d w).ops = s.ops := by rw [putDst_frame]
@[simp] theorem State.putDsts_ops (s : State) (k g : Nat) (ds : List Dst) (ws : List Word) : (s.putDsts k g ds ws).ops = s.ops := by rw [putDsts_frame]
@[simp] theorem Lane.wr_ops (v : Lane) (s : State) (n : Nat) (d : BitVec 6) (a : Nat) : (v.wr s n d a).ops = s.ops := State.putDsts_ops ..
@[simp] theorem State.putDst_hbm (s : State) (k g : Nat) (d : Dst) (w : Word) : (s.putDst k g d w).hbm = s.hbm := by rw [putDst_frame]
@[simp] theorem State.putDsts_hbm (s : State) (k g : Nat) (ds : List Dst) (ws : List Word) : (s.putDsts k g ds ws).hbm = s.hbm := by rw [putDsts_frame]
@[simp] theorem Lane.wr_hbm (v : Lane) (s : State) (n : Nat) (d : BitVec 6) (a : Nat) : (v.wr s n d a).hbm = s.hbm := State.putDsts_hbm ..
@[simp] theorem State.putDst_poison (s : State) (k g : Nat) (d : Dst) (w : Word) : (s.putDst k g d w).poison = s.poison := by rw [putDst_frame]
@[simp] theorem State.putDsts_poison (s : State) (k g : Nat) (ds : List Dst) (ws : List Word) : (s.putDsts k g ds ws).poison = s.poison := by rw [putDsts_frame]
@[simp] theorem Lane.wr_poison (v : Lane) (s : State) (n : Nat) (d : BitVec 6) (a : Nat) : (v.wr s n d a).poison = s.poison := State.putDsts_poison ..
@[simp] theorem State.putDst_upsets (s : State) (k g : Nat) (d : Dst) (w : Word) : (s.putDst k g d w).upsets = s.upsets := by rw [putDst_frame]
@[simp] theorem State.putDsts_upsets (s : State) (k g : Nat) (ds : List Dst) (ws : List Word) : (s.putDsts k g ds ws).upsets = s.upsets := by rw [putDsts_frame]
@[simp] theorem Lane.wr_upsets (v : Lane) (s : State) (n : Nat) (d : BitVec 6) (a : Nat) : (v.wr s n d a).upsets = s.upsets := State.putDsts_upsets ..
@[simp] theorem State.putDst_lines (s : State) (k g : Nat) (d : Dst) (w : Word) : (s.putDst k g d w).lines = s.lines := by rw [putDst_frame]
@[simp] theorem State.putDsts_lines (s : State) (k g : Nat) (ds : List Dst) (ws : List Word) : (s.putDsts k g ds ws).lines = s.lines := by rw [putDsts_frame]
@[simp] theorem Lane.wr_lines (v : Lane) (s : State) (n : Nat) (d : BitVec 6) (a : Nat) : (v.wr s n d a).lines = s.lines := State.putDsts_lines ..
@[simp] theorem State.putDst_lineUses (s : State) (k g : Nat) (d : Dst) (w : Word) : (s.putDst k g d w).lineUses = s.lineUses := by rw [putDst_frame]
@[simp] theorem State.putDsts_lineUses (s : State) (k g : Nat) (ds : List Dst) (ws : List Word) : (s.putDsts k g ds ws).lineUses = s.lineUses := by rw [putDsts_frame]
@[simp] theorem Lane.wr_lineUses (v : Lane) (s : State) (n : Nat) (d : BitVec 6) (a : Nat) : (v.wr s n d a).lineUses = s.lineUses := State.putDsts_lineUses ..
@[simp] theorem State.putDst_portHeld (s : State) (k g : Nat) (d : Dst) (w : Word) : (s.putDst k g d w).portHeld = s.portHeld := by rw [putDst_frame]
@[simp] theorem State.putDsts_portHeld (s : State) (k g : Nat) (ds : List Dst) (ws : List Word) : (s.putDsts k g ds ws).portHeld = s.portHeld := by rw [putDsts_frame]
@[simp] theorem Lane.wr_portHeld (v : Lane) (s : State) (n : Nat) (d : BitVec 6) (a : Nat) : (v.wr s n d a).portHeld = s.portHeld := State.putDsts_portHeld ..
@[simp] theorem State.putDst_grants (s : State) (k g : Nat) (d : Dst) (w : Word) : (s.putDst k g d w).grants = s.grants := by rw [putDst_frame]
@[simp] theorem State.putDsts_grants (s : State) (k g : Nat) (ds : List Dst) (ws : List Word) : (s.putDsts k g ds ws).grants = s.grants := by rw [putDsts_frame]
@[simp] theorem Lane.wr_grants (v : Lane) (s : State) (n : Nat) (d : BitVec 6) (a : Nat) : (v.wr s n d a).grants = s.grants := State.putDsts_grants ..
@[simp] theorem State.putDst_wq (s : State) (k g : Nat) (d : Dst) (w : Word) : (s.putDst k g d w).wq = s.wq := by rw [putDst_frame]
@[simp] theorem State.putDsts_wq (s : State) (k g : Nat) (ds : List Dst) (ws : List Word) : (s.putDsts k g ds ws).wq = s.wq := by rw [putDsts_frame]
@[simp] theorem Lane.wr_wq (v : Lane) (s : State) (n : Nat) (d : BitVec 6) (a : Nat) : (v.wr s n d a).wq = s.wq := State.putDsts_wq ..
@[simp] theorem State.putDst_loadCache (s : State) (k g : Nat) (d : Dst) (w : Word) : (s.putDst k g d w).loadCache = s.loadCache := by rw [putDst_frame]
@[simp] theorem State.putDsts_loadCache (s : State) (k g : Nat) (ds : List Dst) (ws : List Word) : (s.putDsts k g ds ws).loadCache = s.loadCache := by rw [putDsts_frame]
@[simp] theorem Lane.wr_loadCache (v : Lane) (s : State) (n : Nat) (d : BitVec 6) (a : Nat) : (v.wr s n d a).loadCache = s.loadCache := State.putDsts_loadCache ..
@[simp] theorem State.putDst_scanout (s : State) (k g : Nat) (d : Dst) (w : Word) : (s.putDst k g d w).scanout = s.scanout := by rw [putDst_frame]
@[simp] theorem State.putDsts_scanout (s : State) (k g : Nat) (ds : List Dst) (ws : List Word) : (s.putDsts k g ds ws).scanout = s.scanout := by rw [putDsts_frame]
@[simp] theorem Lane.wr_scanout (v : Lane) (s : State) (n : Nat) (d : BitVec 6) (a : Nat) : (v.wr s n d a).scanout = s.scanout := State.putDsts_scanout ..
@[simp] theorem State.putDst_tlb (s : State) (k g : Nat) (d : Dst) (w : Word) : (s.putDst k g d w).tlb = s.tlb := by rw [putDst_frame]
@[simp] theorem State.putDsts_tlb (s : State) (k g : Nat) (ds : List Dst) (ws : List Word) : (s.putDsts k g ds ws).tlb = s.tlb := by rw [putDsts_frame]
@[simp] theorem Lane.wr_tlb (v : Lane) (s : State) (n : Nat) (d : BitVec 6) (a : Nat) : (v.wr s n d a).tlb = s.tlb := State.putDsts_tlb ..
@[simp] theorem State.putDst_walkCache (s : State) (k g : Nat) (d : Dst) (w : Word) : (s.putDst k g d w).walkCache = s.walkCache := by rw [putDst_frame]
@[simp] theorem State.putDsts_walkCache (s : State) (k g : Nat) (ds : List Dst) (ws : List Word) : (s.putDsts k g ds ws).walkCache = s.walkCache := by rw [putDsts_frame]
@[simp] theorem Lane.wr_walkCache (v : Lane) (s : State) (n : Nat) (d : BitVec 6) (a : Nat) : (v.wr s n d a).walkCache = s.walkCache := State.putDsts_walkCache ..
@[simp] theorem State.putDst_enroute (s : State) (k g : Nat) (d : Dst) (w : Word) : (s.putDst k g d w).enroute = s.enroute := by rw [putDst_frame]
@[simp] theorem State.putDsts_enroute (s : State) (k g : Nat) (ds : List Dst) (ws : List Word) : (s.putDsts k g ds ws).enroute = s.enroute := by rw [putDsts_frame]
@[simp] theorem Lane.wr_enroute (v : Lane) (s : State) (n : Nat) (d : BitVec 6) (a : Nat) : (v.wr s n d a).enroute = s.enroute := State.putDsts_enroute ..
@[simp] theorem State.putDst_misses (s : State) (k g : Nat) (d : Dst) (w : Word) : (s.putDst k g d w).misses = s.misses := by rw [putDst_frame]
@[simp] theorem State.putDsts_misses (s : State) (k g : Nat) (ds : List Dst) (ws : List Word) : (s.putDsts k g ds ws).misses = s.misses := by rw [putDsts_frame]
@[simp] theorem Lane.wr_misses (v : Lane) (s : State) (n : Nat) (d : BitVec 6) (a : Nat) : (v.wr s n d a).misses = s.misses := State.putDsts_misses ..
@[simp] theorem State.putDst_lastDetect (s : State) (k g : Nat) (d : Dst) (w : Word) : (s.putDst k g d w).lastDetect = s.lastDetect := by rw [putDst_frame]
@[simp] theorem State.putDsts_lastDetect (s : State) (k g : Nat) (ds : List Dst) (ws : List Word) : (s.putDsts k g ds ws).lastDetect = s.lastDetect := by rw [putDsts_frame]
@[simp] theorem Lane.wr_lastDetect (v : Lane) (s : State) (n : Nat) (d : BitVec 6) (a : Nat) : (v.wr s n d a).lastDetect = s.lastDetect := State.putDsts_lastDetect ..
@[simp] theorem State.putDst_mail (s : State) (k g : Nat) (d : Dst) (w : Word) : (s.putDst k g d w).mail = s.mail := by rw [putDst_frame]
@[simp] theorem State.putDsts_mail (s : State) (k g : Nat) (ds : List Dst) (ws : List Word) : (s.putDsts k g ds ws).mail = s.mail := by rw [putDsts_frame]
@[simp] theorem Lane.wr_mail (v : Lane) (s : State) (n : Nat) (d : BitVec 6) (a : Nat) : (v.wr s n d a).mail = s.mail := State.putDsts_mail ..
@[simp] theorem State.putDst_claims (s : State) (k g : Nat) (d : Dst) (w : Word) : (s.putDst k g d w).claims = s.claims := by rw [putDst_frame]
@[simp] theorem State.putDsts_claims (s : State) (k g : Nat) (ds : List Dst) (ws : List Word) : (s.putDsts k g ds ws).claims = s.claims := by rw [putDsts_frame]
@[simp] theorem Lane.wr_claims (v : Lane) (s : State) (n : Nat) (d : BitVec 6) (a : Nat) : (v.wr s n d a).claims = s.claims := State.putDsts_claims ..
@[simp] theorem State.putDst_gangStops (s : State) (k g : Nat) (d : Dst) (w : Word) : (s.putDst k g d w).gangStops = s.gangStops := by rw [putDst_frame]
@[simp] theorem State.putDsts_gangStops (s : State) (k g : Nat) (ds : List Dst) (ws : List Word) : (s.putDsts k g ds ws).gangStops = s.gangStops := by rw [putDsts_frame]
@[simp] theorem Lane.wr_gangStops (v : Lane) (s : State) (n : Nat) (d : BitVec 6) (a : Nat) : (v.wr s n d a).gangStops = s.gangStops := State.putDsts_gangStops ..
@[simp] theorem State.putDst_logPending (s : State) (k g : Nat) (d : Dst) (w : Word) : (s.putDst k g d w).logPending = s.logPending := by rw [putDst_frame]
@[simp] theorem State.putDsts_logPending (s : State) (k g : Nat) (ds : List Dst) (ws : List Word) : (s.putDsts k g ds ws).logPending = s.logPending := by rw [putDsts_frame]
@[simp] theorem Lane.wr_logPending (v : Lane) (s : State) (n : Nat) (d : BitVec 6) (a : Nat) : (v.wr s n d a).logPending = s.logPending := State.putDsts_logPending ..
@[simp] theorem State.putDst_tenants (s : State) (k g : Nat) (d : Dst) (w : Word) : (s.putDst k g d w).tenants = s.tenants := by rw [putDst_frame]
@[simp] theorem State.putDsts_tenants (s : State) (k g : Nat) (ds : List Dst) (ws : List Word) : (s.putDsts k g ds ws).tenants = s.tenants := by rw [putDsts_frame]
@[simp] theorem Lane.wr_tenants (v : Lane) (s : State) (n : Nat) (d : BitVec 6) (a : Nat) : (v.wr s n d a).tenants = s.tenants := State.putDsts_tenants ..
@[simp] theorem State.putDst_ctxs (s : State) (k g : Nat) (d : Dst) (w : Word) : (s.putDst k g d w).ctxs = s.ctxs := by rw [putDst_frame]
@[simp] theorem State.putDsts_ctxs (s : State) (k g : Nat) (ds : List Dst) (ws : List Word) : (s.putDsts k g ds ws).ctxs = s.ctxs := by rw [putDsts_frame]
@[simp] theorem Lane.wr_ctxs (v : Lane) (s : State) (n : Nat) (d : BitVec 6) (a : Nat) : (v.wr s n d a).ctxs = s.ctxs := State.putDsts_ctxs ..
@[simp] theorem State.putDst_saved (s : State) (k g : Nat) (d : Dst) (w : Word) : (s.putDst k g d w).saved = s.saved := by rw [putDst_frame]
@[simp] theorem State.putDsts_saved (s : State) (k g : Nat) (ds : List Dst) (ws : List Word) : (s.putDsts k g ds ws).saved = s.saved := by rw [putDsts_frame]
@[simp] theorem Lane.wr_saved (v : Lane) (s : State) (n : Nat) (d : BitVec 6) (a : Nat) : (v.wr s n d a).saved = s.saved := State.putDsts_saved ..
@[simp] theorem State.putDst_launches (s : State) (k g : Nat) (d : Dst) (w : Word) : (s.putDst k g d w).launches = s.launches := by rw [putDst_frame]
@[simp] theorem State.putDsts_launches (s : State) (k g : Nat) (ds : List Dst) (ws : List Word) : (s.putDsts k g ds ws).launches = s.launches := by rw [putDsts_frame]
@[simp] theorem Lane.wr_launches (v : Lane) (s : State) (n : Nat) (d : BitVec 6) (a : Nat) : (v.wr s n d a).launches = s.launches := State.putDsts_launches ..
@[simp] theorem State.putDst_nodes (s : State) (k g : Nat) (d : Dst) (w : Word) : (s.putDst k g d w).nodes = s.nodes := by rw [putDst_frame]
@[simp] theorem State.putDsts_nodes (s : State) (k g : Nat) (ds : List Dst) (ws : List Word) : (s.putDsts k g ds ws).nodes = s.nodes := by rw [putDsts_frame]
@[simp] theorem Lane.wr_nodes (v : Lane) (s : State) (n : Nat) (d : BitVec 6) (a : Nat) : (v.wr s n d a).nodes = s.nodes := State.putDsts_nodes ..
@[simp] theorem State.putDst_graphErrors (s : State) (k g : Nat) (d : Dst) (w : Word) : (s.putDst k g d w).graphErrors = s.graphErrors := by rw [putDst_frame]
@[simp] theorem State.putDsts_graphErrors (s : State) (k g : Nat) (ds : List Dst) (ws : List Word) : (s.putDsts k g ds ws).graphErrors = s.graphErrors := by rw [putDsts_frame]
@[simp] theorem Lane.wr_graphErrors (v : Lane) (s : State) (n : Nat) (d : BitVec 6) (a : Nat) : (v.wr s n d a).graphErrors = s.graphErrors := State.putDsts_graphErrors ..
@[simp] theorem State.putDst_views (s : State) (k g : Nat) (d : Dst) (w : Word) : (s.putDst k g d w).views = s.views := by rw [putDst_frame]
@[simp] theorem State.putDsts_views (s : State) (k g : Nat) (ds : List Dst) (ws : List Word) : (s.putDsts k g ds ws).views = s.views := by rw [putDsts_frame]
@[simp] theorem Lane.wr_views (v : Lane) (s : State) (n : Nat) (d : BitVec 6) (a : Nat) : (v.wr s n d a).views = s.views := State.putDsts_views ..
@[simp] theorem State.putDst_amplifier (s : State) (k g : Nat) (d : Dst) (w : Word) : (s.putDst k g d w).amplifier = s.amplifier := by rw [putDst_frame]
@[simp] theorem State.putDsts_amplifier (s : State) (k g : Nat) (ds : List Dst) (ws : List Word) : (s.putDsts k g ds ws).amplifier = s.amplifier := by rw [putDsts_frame]
@[simp] theorem Lane.wr_amplifier (v : Lane) (s : State) (n : Nat) (d : BitVec 6) (a : Nat) : (v.wr s n d a).amplifier = s.amplifier := State.putDsts_amplifier ..
@[simp] theorem State.putDst_prims (s : State) (k g : Nat) (d : Dst) (w : Word) : (s.putDst k g d w).prims = s.prims := by rw [putDst_frame]
@[simp] theorem State.putDsts_prims (s : State) (k g : Nat) (ds : List Dst) (ws : List Word) : (s.putDsts k g ds ws).prims = s.prims := by rw [putDsts_frame]
@[simp] theorem Lane.wr_prims (v : Lane) (s : State) (n : Nat) (d : BitVec 6) (a : Nat) : (v.wr s n d a).prims = s.prims := State.putDsts_prims ..
@[simp] theorem State.putDst_covers (s : State) (k g : Nat) (d : Dst) (w : Word) : (s.putDst k g d w).covers = s.covers := by rw [putDst_frame]
@[simp] theorem State.putDsts_covers (s : State) (k g : Nat) (ds : List Dst) (ws : List Word) : (s.putDsts k g ds ws).covers = s.covers := by rw [putDsts_frame]
@[simp] theorem Lane.wr_covers (v : Lane) (s : State) (n : Nat) (d : BitVec 6) (a : Nat) : (v.wr s n d a).covers = s.covers := State.putDsts_covers ..
@[simp] theorem State.putDst_pushWaited (s : State) (k g : Nat) (d : Dst) (w : Word) : (s.putDst k g d w).pushWaited = s.pushWaited := by rw [putDst_frame]
@[simp] theorem State.putDsts_pushWaited (s : State) (k g : Nat) (ds : List Dst) (ws : List Word) : (s.putDsts k g ds ws).pushWaited = s.pushWaited := by rw [putDsts_frame]
@[simp] theorem Lane.wr_pushWaited (v : Lane) (s : State) (n : Nat) (d : BitVec 6) (a : Nat) : (v.wr s n d a).pushWaited = s.pushWaited := State.putDsts_pushWaited ..
@[simp] theorem State.putDst_vote (s : State) (k g : Nat) (d : Dst) (w : Word) : (s.putDst k g d w).vote = s.vote := by rw [putDst_frame]
@[simp] theorem State.putDsts_vote (s : State) (k g : Nat) (ds : List Dst) (ws : List Word) : (s.putDsts k g ds ws).vote = s.vote := by rw [putDsts_frame]
@[simp] theorem Lane.wr_vote (v : Lane) (s : State) (n : Nat) (d : BitVec 6) (a : Nat) : (v.wr s n d a).vote = s.vote := State.putDsts_vote ..
@[simp] theorem State.putDst_fenceGen (s : State) (k g : Nat) (d : Dst) (w : Word) : (s.putDst k g d w).fenceGen = s.fenceGen := by rw [putDst_frame]
@[simp] theorem State.putDsts_fenceGen (s : State) (k g : Nat) (ds : List Dst) (ws : List Word) : (s.putDsts k g ds ws).fenceGen = s.fenceGen := by rw [putDsts_frame]
@[simp] theorem Lane.wr_fenceGen (v : Lane) (s : State) (n : Nat) (d : BitVec 6) (a : Nat) : (v.wr s n d a).fenceGen = s.fenceGen := State.putDsts_fenceGen ..
@[simp] theorem State.putDst_orphan (s : State) (k g : Nat) (d : Dst) (w : Word) : (s.putDst k g d w).orphan = s.orphan := by rw [putDst_frame]
@[simp] theorem State.putDsts_orphan (s : State) (k g : Nat) (ds : List Dst) (ws : List Word) : (s.putDsts k g ds ws).orphan = s.orphan := by rw [putDsts_frame]
@[simp] theorem Lane.wr_orphan (v : Lane) (s : State) (n : Nat) (d : BitVec 6) (a : Nat) : (v.wr s n d a).orphan = s.orphan := State.putDsts_orphan ..
@[simp] theorem State.putDst_epoch (s : State) (k g : Nat) (d : Dst) (w : Word) : (s.putDst k g d w).epoch = s.epoch := by rw [putDst_frame]
@[simp] theorem State.putDsts_epoch (s : State) (k g : Nat) (ds : List Dst) (ws : List Word) : (s.putDsts k g ds ws).epoch = s.epoch := by rw [putDsts_frame]
@[simp] theorem Lane.wr_epoch (v : Lane) (s : State) (n : Nat) (d : BitVec 6) (a : Nat) : (v.wr s n d a).epoch = s.epoch := State.putDsts_epoch ..
@[simp] theorem State.putDst_periods (s : State) (k g : Nat) (d : Dst) (w : Word) : (s.putDst k g d w).periods = s.periods := by rw [putDst_frame]
@[simp] theorem State.putDsts_periods (s : State) (k g : Nat) (ds : List Dst) (ws : List Word) : (s.putDsts k g ds ws).periods = s.periods := by rw [putDsts_frame]
@[simp] theorem Lane.wr_periods (v : Lane) (s : State) (n : Nat) (d : BitVec 6) (a : Nat) : (v.wr s n d a).periods = s.periods := State.putDsts_periods ..
@[simp] theorem State.putDst_passNo (s : State) (k g : Nat) (d : Dst) (w : Word) : (s.putDst k g d w).passNo = s.passNo := by rw [putDst_frame]
@[simp] theorem State.putDsts_passNo (s : State) (k g : Nat) (ds : List Dst) (ws : List Word) : (s.putDsts k g ds ws).passNo = s.passNo := by rw [putDsts_frame]
@[simp] theorem Lane.wr_passNo (v : Lane) (s : State) (n : Nat) (d : BitVec 6) (a : Nat) : (v.wr s n d a).passNo = s.passNo := State.putDsts_passNo ..
@[simp] theorem State.putDst_guardOver (s : State) (k g : Nat) (d : Dst) (w : Word) : (s.putDst k g d w).guardOver = s.guardOver := by rw [putDst_frame]
@[simp] theorem State.putDsts_guardOver (s : State) (k g : Nat) (ds : List Dst) (ws : List Word) : (s.putDsts k g ds ws).guardOver = s.guardOver := by rw [putDsts_frame]
@[simp] theorem Lane.wr_guardOver (v : Lane) (s : State) (n : Nat) (d : BitVec 6) (a : Nat) : (v.wr s n d a).guardOver = s.guardOver := State.putDsts_guardOver ..
@[simp] theorem State.putDst_throt (s : State) (k g : Nat) (d : Dst) (w : Word) : (s.putDst k g d w).throt = s.throt := by rw [putDst_frame]
@[simp] theorem State.putDsts_throt (s : State) (k g : Nat) (ds : List Dst) (ws : List Word) : (s.putDsts k g ds ws).throt = s.throt := by rw [putDsts_frame]
@[simp] theorem Lane.wr_throt (v : Lane) (s : State) (n : Nat) (d : BitVec 6) (a : Nat) : (v.wr s n d a).throt = s.throt := State.putDsts_throt ..
@[simp] theorem State.putDst_errors (s : State) (k g : Nat) (d : Dst) (w : Word) : (s.putDst k g d w).errors = s.errors := by rw [putDst_frame]
@[simp] theorem State.putDsts_errors (s : State) (k g : Nat) (ds : List Dst) (ws : List Word) : (s.putDsts k g ds ws).errors = s.errors := by rw [putDsts_frame]
@[simp] theorem Lane.wr_errors (v : Lane) (s : State) (n : Nat) (d : BitVec 6) (a : Nat) : (v.wr s n d a).errors = s.errors := State.putDsts_errors ..
@[simp] theorem State.putDst_uevents (s : State) (k g : Nat) (d : Dst) (w : Word) : (s.putDst k g d w).uevents = s.uevents := by rw [putDst_frame]
@[simp] theorem State.putDsts_uevents (s : State) (k g : Nat) (ds : List Dst) (ws : List Word) : (s.putDsts k g ds ws).uevents = s.uevents := by rw [putDsts_frame]
@[simp] theorem Lane.wr_uevents (v : Lane) (s : State) (n : Nat) (d : BitVec 6) (a : Nat) : (v.wr s n d a).uevents = s.uevents := State.putDsts_uevents ..
@[simp] theorem State.putDst_mauth (s : State) (k g : Nat) (d : Dst) (w : Word) : (s.putDst k g d w).mauth = s.mauth := by rw [putDst_frame]
@[simp] theorem State.putDsts_mauth (s : State) (k g : Nat) (ds : List Dst) (ws : List Word) : (s.putDsts k g ds ws).mauth = s.mauth := by rw [putDsts_frame]
@[simp] theorem Lane.wr_mauth (v : Lane) (s : State) (n : Nat) (d : BitVec 6) (a : Nat) : (v.wr s n d a).mauth = s.mauth := State.putDsts_mauth ..
@[simp] theorem State.putDst_rxdrop (s : State) (k g : Nat) (d : Dst) (w : Word) : (s.putDst k g d w).rxdrop = s.rxdrop := by rw [putDst_frame]
@[simp] theorem State.putDsts_rxdrop (s : State) (k g : Nat) (ds : List Dst) (ws : List Word) : (s.putDsts k g ds ws).rxdrop = s.rxdrop := by rw [putDsts_frame]
@[simp] theorem Lane.wr_rxdrop (v : Lane) (s : State) (n : Nat) (d : BitVec 6) (a : Nat) : (v.wr s n d a).rxdrop = s.rxdrop := State.putDsts_rxdrop ..
@[simp] theorem State.putDst_pdown (s : State) (k g : Nat) (d : Dst) (w : Word) : (s.putDst k g d w).pdown = s.pdown := by rw [putDst_frame]
@[simp] theorem State.putDsts_pdown (s : State) (k g : Nat) (ds : List Dst) (ws : List Word) : (s.putDsts k g ds ws).pdown = s.pdown := by rw [putDsts_frame]
@[simp] theorem Lane.wr_pdown (v : Lane) (s : State) (n : Nat) (d : BitVec 6) (a : Nat) : (v.wr s n d a).pdown = s.pdown := State.putDsts_pdown ..
@[simp] theorem State.putDst_nakCount (s : State) (k g : Nat) (d : Dst) (w : Word) : (s.putDst k g d w).nakCount = s.nakCount := by rw [putDst_frame]
@[simp] theorem State.putDsts_nakCount (s : State) (k g : Nat) (ds : List Dst) (ws : List Word) : (s.putDsts k g ds ws).nakCount = s.nakCount := by rw [putDsts_frame]
@[simp] theorem Lane.wr_nakCount (v : Lane) (s : State) (n : Nat) (d : BitVec 6) (a : Nat) : (v.wr s n d a).nakCount = s.nakCount := State.putDsts_nakCount ..
@[simp] theorem State.putDst_peerRefusals (s : State) (k g : Nat) (d : Dst) (w : Word) : (s.putDst k g d w).peerRefusals = s.peerRefusals := by rw [putDst_frame]
@[simp] theorem State.putDsts_peerRefusals (s : State) (k g : Nat) (ds : List Dst) (ws : List Word) : (s.putDsts k g ds ws).peerRefusals = s.peerRefusals := by rw [putDsts_frame]
@[simp] theorem Lane.wr_peerRefusals (v : Lane) (s : State) (n : Nat) (d : BitVec 6) (a : Nat) : (v.wr s n d a).peerRefusals = s.peerRefusals := State.putDsts_peerRefusals ..
@[simp] theorem State.putDst_mailDrops (s : State) (k g : Nat) (d : Dst) (w : Word) : (s.putDst k g d w).mailDrops = s.mailDrops := by rw [putDst_frame]
@[simp] theorem State.putDsts_mailDrops (s : State) (k g : Nat) (ds : List Dst) (ws : List Word) : (s.putDsts k g ds ws).mailDrops = s.mailDrops := by rw [putDsts_frame]
@[simp] theorem Lane.wr_mailDrops (v : Lane) (s : State) (n : Nat) (d : BitVec 6) (a : Nat) : (v.wr s n d a).mailDrops = s.mailDrops := State.putDsts_mailDrops ..
@[simp] theorem State.putDst_bridgeStopped (s : State) (k g : Nat) (d : Dst) (w : Word) : (s.putDst k g d w).bridgeStopped = s.bridgeStopped := by rw [putDst_frame]
@[simp] theorem State.putDsts_bridgeStopped (s : State) (k g : Nat) (ds : List Dst) (ws : List Word) : (s.putDsts k g ds ws).bridgeStopped = s.bridgeStopped := by rw [putDsts_frame]
@[simp] theorem Lane.wr_bridgeStopped (v : Lane) (s : State) (n : Nat) (d : BitVec 6) (a : Nat) : (v.wr s n d a).bridgeStopped = s.bridgeStopped := State.putDsts_bridgeStopped ..
@[simp] theorem State.putDst_bridgeRetries (s : State) (k g : Nat) (d : Dst) (w : Word) : (s.putDst k g d w).bridgeRetries = s.bridgeRetries := by rw [putDst_frame]
@[simp] theorem State.putDsts_bridgeRetries (s : State) (k g : Nat) (ds : List Dst) (ws : List Word) : (s.putDsts k g ds ws).bridgeRetries = s.bridgeRetries := by rw [putDsts_frame]
@[simp] theorem Lane.wr_bridgeRetries (v : Lane) (s : State) (n : Nat) (d : BitVec 6) (a : Nat) : (v.wr s n d a).bridgeRetries = s.bridgeRetries := State.putDsts_bridgeRetries ..
@[simp] theorem State.putDst_station (s : State) (k g : Nat) (d : Dst) (w : Word) : (s.putDst k g d w).station = s.station := by rw [putDst_frame]
@[simp] theorem State.putDsts_station (s : State) (k g : Nat) (ds : List Dst) (ws : List Word) : (s.putDsts k g ds ws).station = s.station := by rw [putDsts_frame]
@[simp] theorem Lane.wr_station (v : Lane) (s : State) (n : Nat) (d : BitVec 6) (a : Nat) : (v.wr s n d a).station = s.station := State.putDsts_station ..
@[simp] theorem State.putDst_stationKey (s : State) (k g : Nat) (d : Dst) (w : Word) : (s.putDst k g d w).stationKey = s.stationKey := by rw [putDst_frame]
@[simp] theorem State.putDsts_stationKey (s : State) (k g : Nat) (ds : List Dst) (ws : List Word) : (s.putDsts k g ds ws).stationKey = s.stationKey := by rw [putDsts_frame]
@[simp] theorem Lane.wr_stationKey (v : Lane) (s : State) (n : Nat) (d : BitVec 6) (a : Nat) : (v.wr s n d a).stationKey = s.stationKey := State.putDsts_stationKey ..
@[simp] theorem State.putDst_moduleNumber (s : State) (k g : Nat) (d : Dst) (w : Word) : (s.putDst k g d w).moduleNumber = s.moduleNumber := by rw [putDst_frame]
@[simp] theorem State.putDsts_moduleNumber (s : State) (k g : Nat) (ds : List Dst) (ws : List Word) : (s.putDsts k g ds ws).moduleNumber = s.moduleNumber := by rw [putDsts_frame]
@[simp] theorem Lane.wr_moduleNumber (v : Lane) (s : State) (n : Nat) (d : BitVec 6) (a : Nat) : (v.wr s n d a).moduleNumber = s.moduleNumber := State.putDsts_moduleNumber ..
@[simp] theorem State.putDst_walkedPeer (s : State) (k g : Nat) (d : Dst) (w : Word) : (s.putDst k g d w).walkedPeer = s.walkedPeer := by rw [putDst_frame]
@[simp] theorem State.putDsts_walkedPeer (s : State) (k g : Nat) (ds : List Dst) (ws : List Word) : (s.putDsts k g ds ws).walkedPeer = s.walkedPeer := by rw [putDsts_frame]
@[simp] theorem Lane.wr_walkedPeer (v : Lane) (s : State) (n : Nat) (d : BitVec 6) (a : Nat) : (v.wr s n d a).walkedPeer = s.walkedPeer := State.putDsts_walkedPeer ..
@[simp] theorem State.putDst_peerRoutes (s : State) (k g : Nat) (d : Dst) (w : Word) : (s.putDst k g d w).peerRoutes = s.peerRoutes := by rw [putDst_frame]
@[simp] theorem State.putDsts_peerRoutes (s : State) (k g : Nat) (ds : List Dst) (ws : List Word) : (s.putDsts k g ds ws).peerRoutes = s.peerRoutes := by rw [putDsts_frame]
@[simp] theorem Lane.wr_peerRoutes (v : Lane) (s : State) (n : Nat) (d : BitVec 6) (a : Nat) : (v.wr s n d a).peerRoutes = s.peerRoutes := State.putDsts_peerRoutes ..
@[simp] theorem State.putDst_portsDown (s : State) (k g : Nat) (d : Dst) (w : Word) : (s.putDst k g d w).portsDown = s.portsDown := by rw [putDst_frame]
@[simp] theorem State.putDsts_portsDown (s : State) (k g : Nat) (ds : List Dst) (ws : List Word) : (s.putDsts k g ds ws).portsDown = s.portsDown := by rw [putDsts_frame]
@[simp] theorem Lane.wr_portsDown (v : Lane) (s : State) (n : Nat) (d : BitVec 6) (a : Nat) : (v.wr s n d a).portsDown = s.portsDown := State.putDsts_portsDown ..
@[simp] theorem State.putDst_portReplays (s : State) (k g : Nat) (d : Dst) (w : Word) : (s.putDst k g d w).portReplays = s.portReplays := by rw [putDst_frame]
@[simp] theorem State.putDsts_portReplays (s : State) (k g : Nat) (ds : List Dst) (ws : List Word) : (s.putDsts k g ds ws).portReplays = s.portReplays := by rw [putDsts_frame]
@[simp] theorem Lane.wr_portReplays (v : Lane) (s : State) (n : Nat) (d : BitVec 6) (a : Nat) : (v.wr s n d a).portReplays = s.portReplays := State.putDsts_portReplays ..
@[simp] theorem State.putDst_pwrgood (s : State) (k g : Nat) (d : Dst) (w : Word) : (s.putDst k g d w).pwrgood = s.pwrgood := by rw [putDst_frame]
@[simp] theorem State.putDsts_pwrgood (s : State) (k g : Nat) (ds : List Dst) (ws : List Word) : (s.putDsts k g ds ws).pwrgood = s.pwrgood := by rw [putDsts_frame]
@[simp] theorem Lane.wr_pwrgood (v : Lane) (s : State) (n : Nat) (d : BitVec 6) (a : Nat) : (v.wr s n d a).pwrgood = s.pwrgood := State.putDsts_pwrgood ..
@[simp] theorem State.putDst_resetN (s : State) (k g : Nat) (d : Dst) (w : Word) : (s.putDst k g d w).resetN = s.resetN := by rw [putDst_frame]
@[simp] theorem State.putDsts_resetN (s : State) (k g : Nat) (ds : List Dst) (ws : List Word) : (s.putDsts k g ds ws).resetN = s.resetN := by rw [putDsts_frame]
@[simp] theorem Lane.wr_resetN (v : Lane) (s : State) (n : Nat) (d : BitVec 6) (a : Nat) : (v.wr s n d a).resetN = s.resetN := State.putDsts_resetN ..
@[simp] theorem State.putDst_ready (s : State) (k g : Nat) (d : Dst) (w : Word) : (s.putDst k g d w).ready = s.ready := by rw [putDst_frame]
@[simp] theorem State.putDsts_ready (s : State) (k g : Nat) (ds : List Dst) (ws : List Word) : (s.putDsts k g ds ws).ready = s.ready := by rw [putDsts_frame]
@[simp] theorem Lane.wr_ready (v : Lane) (s : State) (n : Nat) (d : BitVec 6) (a : Nat) : (v.wr s n d a).ready = s.ready := State.putDsts_ready ..
@[simp] theorem State.putDst_upStep (s : State) (k g : Nat) (d : Dst) (w : Word) : (s.putDst k g d w).upStep = s.upStep := by rw [putDst_frame]
@[simp] theorem State.putDsts_upStep (s : State) (k g : Nat) (ds : List Dst) (ws : List Word) : (s.putDsts k g ds ws).upStep = s.upStep := by rw [putDsts_frame]
@[simp] theorem Lane.wr_upStep (v : Lane) (s : State) (n : Nat) (d : BitVec 6) (a : Nat) : (v.wr s n d a).upStep = s.upStep := State.putDsts_upStep ..
@[simp] theorem State.putDst_failCode (s : State) (k g : Nat) (d : Dst) (w : Word) : (s.putDst k g d w).failCode = s.failCode := by rw [putDst_frame]
@[simp] theorem State.putDsts_failCode (s : State) (k g : Nat) (ds : List Dst) (ws : List Word) : (s.putDsts k g ds ws).failCode = s.failCode := by rw [putDsts_frame]
@[simp] theorem Lane.wr_failCode (v : Lane) (s : State) (n : Nat) (d : BitVec 6) (a : Nat) : (v.wr s n d a).failCode = s.failCode := State.putDsts_failCode ..
@[simp] theorem State.putDst_portUp (s : State) (k g : Nat) (d : Dst) (w : Word) : (s.putDst k g d w).portUp = s.portUp := by rw [putDst_frame]
@[simp] theorem State.putDsts_portUp (s : State) (k g : Nat) (ds : List Dst) (ws : List Word) : (s.putDsts k g ds ws).portUp = s.portUp := by rw [putDsts_frame]
@[simp] theorem Lane.wr_portUp (v : Lane) (s : State) (n : Nat) (d : BitVec 6) (a : Nat) : (v.wr s n d a).portUp = s.portUp := State.putDsts_portUp ..
@[simp] theorem State.putDst_halted (s : State) (k g : Nat) (d : Dst) (w : Word) : (s.putDst k g d w).halted = s.halted := by rw [putDst_frame]
@[simp] theorem State.putDsts_halted (s : State) (k g : Nat) (ds : List Dst) (ws : List Word) : (s.putDsts k g ds ws).halted = s.halted := by rw [putDsts_frame]
@[simp] theorem Lane.wr_halted (v : Lane) (s : State) (n : Nat) (d : BitVec 6) (a : Nat) : (v.wr s n d a).halted = s.halted := State.putDsts_halted ..
@[simp] theorem State.putDst_now (s : State) (k g : Nat) (d : Dst) (w : Word) : (s.putDst k g d w).now = s.now := by rw [putDst_frame]
@[simp] theorem State.putDsts_now (s : State) (k g : Nat) (ds : List Dst) (ws : List Word) : (s.putDsts k g ds ws).now = s.now := by rw [putDsts_frame]
@[simp] theorem Lane.wr_now (v : Lane) (s : State) (n : Nat) (d : BitVec 6) (a : Nat) : (v.wr s n d a).now = s.now := State.putDsts_now ..
@[simp] theorem State.putDst_inputs (s : State) (k g : Nat) (d : Dst) (w : Word) : (s.putDst k g d w).inputs = s.inputs := by rw [putDst_frame]
@[simp] theorem State.putDsts_inputs (s : State) (k g : Nat) (ds : List Dst) (ws : List Word) : (s.putDsts k g ds ws).inputs = s.inputs := by rw [putDsts_frame]
@[simp] theorem Lane.wr_inputs (v : Lane) (s : State) (n : Nat) (d : BitVec 6) (a : Nat) : (v.wr s n d a).inputs = s.inputs := State.putDsts_inputs ..
@[simp] theorem State.putDst_sent (s : State) (k g : Nat) (d : Dst) (w : Word) : (s.putDst k g d w).sent = s.sent := by rw [putDst_frame]
@[simp] theorem State.putDsts_sent (s : State) (k g : Nat) (ds : List Dst) (ws : List Word) : (s.putDsts k g ds ws).sent = s.sent := by rw [putDsts_frame]
@[simp] theorem Lane.wr_sent (v : Lane) (s : State) (n : Nat) (d : BitVec 6) (a : Nat) : (v.wr s n d a).sent = s.sent := State.putDsts_sent ..
@[simp] theorem State.putDst_agenda (s : State) (k g : Nat) (d : Dst) (w : Word) : (s.putDst k g d w).agenda = s.agenda := by rw [putDst_frame]
@[simp] theorem State.putDsts_agenda (s : State) (k g : Nat) (ds : List Dst) (ws : List Word) : (s.putDsts k g ds ws).agenda = s.agenda := by rw [putDsts_frame]
@[simp] theorem Lane.wr_agenda (v : Lane) (s : State) (n : Nat) (d : BitVec 6) (a : Nat) : (v.wr s n d a).agenda = s.agenda := State.putDsts_agenda ..
@[simp] theorem State.putDst_gather (s : State) (k g : Nat) (d : Dst) (w : Word) : (s.putDst k g d w).gather = s.gather := by rw [putDst_frame]
@[simp] theorem State.putDsts_gather (s : State) (k g : Nat) (ds : List Dst) (ws : List Word) : (s.putDsts k g ds ws).gather = s.gather := by rw [putDsts_frame]
@[simp] theorem Lane.wr_gather (v : Lane) (s : State) (n : Nat) (d : BitVec 6) (a : Nat) : (v.wr s n d a).gather = s.gather := State.putDsts_gather ..
@[simp] theorem State.putDst_armed (s : State) (k g : Nat) (d : Dst) (w : Word) : (s.putDst k g d w).armed = s.armed := by rw [putDst_frame]
@[simp] theorem State.putDsts_armed (s : State) (k g : Nat) (ds : List Dst) (ws : List Word) : (s.putDsts k g ds ws).armed = s.armed := by rw [putDsts_frame]
@[simp] theorem Lane.wr_armed (v : Lane) (s : State) (n : Nat) (d : BitVec 6) (a : Nat) : (v.wr s n d a).armed = s.armed := State.putDsts_armed ..
@[simp] theorem State.putDst_patrolled (s : State) (k g : Nat) (d : Dst) (w : Word) : (s.putDst k g d w).patrolled = s.patrolled := by rw [putDst_frame]
@[simp] theorem State.putDsts_patrolled (s : State) (k g : Nat) (ds : List Dst) (ws : List Word) : (s.putDsts k g ds ws).patrolled = s.patrolled := by rw [putDsts_frame]
@[simp] theorem Lane.wr_patrolled (v : Lane) (s : State) (n : Nat) (d : BitVec 6) (a : Nat) : (v.wr s n d a).patrolled = s.patrolled := State.putDsts_patrolled ..
@[simp] theorem State.putDst_sensed (s : State) (k g : Nat) (d : Dst) (w : Word) : (s.putDst k g d w).sensed = s.sensed := by rw [putDst_frame]
@[simp] theorem State.putDsts_sensed (s : State) (k g : Nat) (ds : List Dst) (ws : List Word) : (s.putDsts k g ds ws).sensed = s.sensed := by rw [putDsts_frame]
@[simp] theorem Lane.wr_sensed (v : Lane) (s : State) (n : Nat) (d : BitVec 6) (a : Nat) : (v.wr s n d a).sensed = s.sensed := State.putDsts_sensed ..
@[simp] theorem State.putDst_moves (s : State) (k g : Nat) (d : Dst) (w : Word) : (s.putDst k g d w).moves = s.moves := by rw [putDst_frame]
@[simp] theorem State.putDsts_moves (s : State) (k g : Nat) (ds : List Dst) (ws : List Word) : (s.putDsts k g ds ws).moves = s.moves := by rw [putDsts_frame]
@[simp] theorem Lane.wr_moves (v : Lane) (s : State) (n : Nat) (d : BitVec 6) (a : Nat) : (v.wr s n d a).moves = s.moves := State.putDsts_moves ..
@[simp] theorem State.putDst_nextOp (s : State) (k g : Nat) (d : Dst) (w : Word) : (s.putDst k g d w).nextOp = s.nextOp := by rw [putDst_frame]
@[simp] theorem State.putDsts_nextOp (s : State) (k g : Nat) (ds : List Dst) (ws : List Word) : (s.putDsts k g ds ws).nextOp = s.nextOp := by rw [putDsts_frame]
@[simp] theorem Lane.wr_nextOp (v : Lane) (s : State) (n : Nat) (d : BitVec 6) (a : Nat) : (v.wr s n d a).nextOp = s.nextOp := State.putDsts_nextOp ..
@[simp] theorem State.putDst_nextGid (s : State) (k g : Nat) (d : Dst) (w : Word) : (s.putDst k g d w).nextGid = s.nextGid := by rw [putDst_frame]
@[simp] theorem State.putDsts_nextGid (s : State) (k g : Nat) (ds : List Dst) (ws : List Word) : (s.putDsts k g ds ws).nextGid = s.nextGid := by rw [putDsts_frame]
@[simp] theorem Lane.wr_nextGid (v : Lane) (s : State) (n : Nat) (d : BitVec 6) (a : Nat) : (v.wr s n d a).nextGid = s.nextGid := State.putDsts_nextGid ..
@[simp] theorem State.putDst_nextChoice (s : State) (k g : Nat) (d : Dst) (w : Word) : (s.putDst k g d w).nextChoice = s.nextChoice := by rw [putDst_frame]
@[simp] theorem State.putDsts_nextChoice (s : State) (k g : Nat) (ds : List Dst) (ws : List Word) : (s.putDsts k g ds ws).nextChoice = s.nextChoice := by rw [putDsts_frame]
@[simp] theorem Lane.wr_nextChoice (v : Lane) (s : State) (n : Nat) (d : BitVec 6) (a : Nat) : (v.wr s n d a).nextChoice = s.nextChoice := State.putDsts_nextChoice ..

/-- Going on at another instruction changes the thread alone. -/
theorem State.latchClock_frame (s : State) (v : Lane) (clk : Bool) :
    s.latchClock v clk = { s with threads := (s.latchClock v clk).threads } := by
  unfold State.latchClock; split <;> rfl
theorem State.finish_frame (s : State) (v : Lane) (r : Row) (x : Fields) : s.finish v r x = { s with threads := (s.finish v r x).threads } := by
  unfold State.finish; rw [State.latchClock_frame]; rfl
theorem State.finishAt_frame (s : State) (v : Lane) (r : Row) (x : Fields) (pc : Nat) :
    s.finishAt v r x pc = { s with threads := (s.finishAt v r x pc).threads } := by
  unfold State.finishAt; rw [State.latchClock_frame]; rfl

@[simp] theorem State.latchClock_groups (s : State) (v : Lane) (clk : Bool) : (s.latchClock v clk).groups = s.groups := by rw [latchClock_frame]
@[simp] theorem State.finish_groups (s : State) (v : Lane) (r : Row) (x : Fields) : (s.finish v r x).groups = s.groups := by rw [finish_frame]
@[simp] theorem State.finishAt_groups (s : State) (v : Lane) (r : Row) (x : Fields) (pc : Nat) : (s.finishAt v r x pc).groups = s.groups := by rw [finishAt_frame]
@[simp] theorem State.latchClock_thresher (s : State) (v : Lane) (clk : Bool) : (s.latchClock v clk).thresher = s.thresher := by rw [latchClock_frame]
@[simp] theorem State.finish_thresher (s : State) (v : Lane) (r : Row) (x : Fields) : (s.finish v r x).thresher = s.thresher := by rw [finish_frame]
@[simp] theorem State.finishAt_thresher (s : State) (v : Lane) (r : Row) (x : Fields) (pc : Nat) : (s.finishAt v r x pc).thresher = s.thresher := by rw [finishAt_frame]
@[simp] theorem State.latchClock_partWord (s : State) (v : Lane) (clk : Bool) : (s.latchClock v clk).partWord = s.partWord := by rw [latchClock_frame]
@[simp] theorem State.finish_partWord (s : State) (v : Lane) (r : Row) (x : Fields) : (s.finish v r x).partWord = s.partWord := by rw [finish_frame]
@[simp] theorem State.finishAt_partWord (s : State) (v : Lane) (r : Row) (x : Fields) (pc : Nat) : (s.finishAt v r x pc).partWord = s.partWord := by rw [finishAt_frame]
@[simp] theorem State.latchClock_board (s : State) (v : Lane) (clk : Bool) : (s.latchClock v clk).board = s.board := by rw [latchClock_frame]
@[simp] theorem State.finish_board (s : State) (v : Lane) (r : Row) (x : Fields) : (s.finish v r x).board = s.board := by rw [finish_frame]
@[simp] theorem State.finishAt_board (s : State) (v : Lane) (r : Row) (x : Fields) (pc : Nat) : (s.finishAt v r x pc).board = s.board := by rw [finishAt_frame]
@[simp] theorem State.latchClock_ops (s : State) (v : Lane) (clk : Bool) : (s.latchClock v clk).ops = s.ops := by rw [latchClock_frame]
@[simp] theorem State.finish_ops (s : State) (v : Lane) (r : Row) (x : Fields) : (s.finish v r x).ops = s.ops := by rw [finish_frame]
@[simp] theorem State.finishAt_ops (s : State) (v : Lane) (r : Row) (x : Fields) (pc : Nat) : (s.finishAt v r x pc).ops = s.ops := by rw [finishAt_frame]
@[simp] theorem State.latchClock_hbm (s : State) (v : Lane) (clk : Bool) : (s.latchClock v clk).hbm = s.hbm := by rw [latchClock_frame]
@[simp] theorem State.finish_hbm (s : State) (v : Lane) (r : Row) (x : Fields) : (s.finish v r x).hbm = s.hbm := by rw [finish_frame]
@[simp] theorem State.finishAt_hbm (s : State) (v : Lane) (r : Row) (x : Fields) (pc : Nat) : (s.finishAt v r x pc).hbm = s.hbm := by rw [finishAt_frame]
@[simp] theorem State.latchClock_poison (s : State) (v : Lane) (clk : Bool) : (s.latchClock v clk).poison = s.poison := by rw [latchClock_frame]
@[simp] theorem State.finish_poison (s : State) (v : Lane) (r : Row) (x : Fields) : (s.finish v r x).poison = s.poison := by rw [finish_frame]
@[simp] theorem State.finishAt_poison (s : State) (v : Lane) (r : Row) (x : Fields) (pc : Nat) : (s.finishAt v r x pc).poison = s.poison := by rw [finishAt_frame]
@[simp] theorem State.latchClock_upsets (s : State) (v : Lane) (clk : Bool) : (s.latchClock v clk).upsets = s.upsets := by rw [latchClock_frame]
@[simp] theorem State.finish_upsets (s : State) (v : Lane) (r : Row) (x : Fields) : (s.finish v r x).upsets = s.upsets := by rw [finish_frame]
@[simp] theorem State.finishAt_upsets (s : State) (v : Lane) (r : Row) (x : Fields) (pc : Nat) : (s.finishAt v r x pc).upsets = s.upsets := by rw [finishAt_frame]
@[simp] theorem State.latchClock_lines (s : State) (v : Lane) (clk : Bool) : (s.latchClock v clk).lines = s.lines := by rw [latchClock_frame]
@[simp] theorem State.finish_lines (s : State) (v : Lane) (r : Row) (x : Fields) : (s.finish v r x).lines = s.lines := by rw [finish_frame]
@[simp] theorem State.finishAt_lines (s : State) (v : Lane) (r : Row) (x : Fields) (pc : Nat) : (s.finishAt v r x pc).lines = s.lines := by rw [finishAt_frame]
@[simp] theorem State.latchClock_lineUses (s : State) (v : Lane) (clk : Bool) : (s.latchClock v clk).lineUses = s.lineUses := by rw [latchClock_frame]
@[simp] theorem State.finish_lineUses (s : State) (v : Lane) (r : Row) (x : Fields) : (s.finish v r x).lineUses = s.lineUses := by rw [finish_frame]
@[simp] theorem State.finishAt_lineUses (s : State) (v : Lane) (r : Row) (x : Fields) (pc : Nat) : (s.finishAt v r x pc).lineUses = s.lineUses := by rw [finishAt_frame]
@[simp] theorem State.latchClock_portHeld (s : State) (v : Lane) (clk : Bool) : (s.latchClock v clk).portHeld = s.portHeld := by rw [latchClock_frame]
@[simp] theorem State.finish_portHeld (s : State) (v : Lane) (r : Row) (x : Fields) : (s.finish v r x).portHeld = s.portHeld := by rw [finish_frame]
@[simp] theorem State.finishAt_portHeld (s : State) (v : Lane) (r : Row) (x : Fields) (pc : Nat) : (s.finishAt v r x pc).portHeld = s.portHeld := by rw [finishAt_frame]
@[simp] theorem State.latchClock_grants (s : State) (v : Lane) (clk : Bool) : (s.latchClock v clk).grants = s.grants := by rw [latchClock_frame]
@[simp] theorem State.finish_grants (s : State) (v : Lane) (r : Row) (x : Fields) : (s.finish v r x).grants = s.grants := by rw [finish_frame]
@[simp] theorem State.finishAt_grants (s : State) (v : Lane) (r : Row) (x : Fields) (pc : Nat) : (s.finishAt v r x pc).grants = s.grants := by rw [finishAt_frame]
@[simp] theorem State.latchClock_wq (s : State) (v : Lane) (clk : Bool) : (s.latchClock v clk).wq = s.wq := by rw [latchClock_frame]
@[simp] theorem State.finish_wq (s : State) (v : Lane) (r : Row) (x : Fields) : (s.finish v r x).wq = s.wq := by rw [finish_frame]
@[simp] theorem State.finishAt_wq (s : State) (v : Lane) (r : Row) (x : Fields) (pc : Nat) : (s.finishAt v r x pc).wq = s.wq := by rw [finishAt_frame]
@[simp] theorem State.latchClock_loadCache (s : State) (v : Lane) (clk : Bool) : (s.latchClock v clk).loadCache = s.loadCache := by rw [latchClock_frame]
@[simp] theorem State.finish_loadCache (s : State) (v : Lane) (r : Row) (x : Fields) : (s.finish v r x).loadCache = s.loadCache := by rw [finish_frame]
@[simp] theorem State.finishAt_loadCache (s : State) (v : Lane) (r : Row) (x : Fields) (pc : Nat) : (s.finishAt v r x pc).loadCache = s.loadCache := by rw [finishAt_frame]
@[simp] theorem State.latchClock_scanout (s : State) (v : Lane) (clk : Bool) : (s.latchClock v clk).scanout = s.scanout := by rw [latchClock_frame]
@[simp] theorem State.finish_scanout (s : State) (v : Lane) (r : Row) (x : Fields) : (s.finish v r x).scanout = s.scanout := by rw [finish_frame]
@[simp] theorem State.finishAt_scanout (s : State) (v : Lane) (r : Row) (x : Fields) (pc : Nat) : (s.finishAt v r x pc).scanout = s.scanout := by rw [finishAt_frame]
@[simp] theorem State.latchClock_tlb (s : State) (v : Lane) (clk : Bool) : (s.latchClock v clk).tlb = s.tlb := by rw [latchClock_frame]
@[simp] theorem State.finish_tlb (s : State) (v : Lane) (r : Row) (x : Fields) : (s.finish v r x).tlb = s.tlb := by rw [finish_frame]
@[simp] theorem State.finishAt_tlb (s : State) (v : Lane) (r : Row) (x : Fields) (pc : Nat) : (s.finishAt v r x pc).tlb = s.tlb := by rw [finishAt_frame]
@[simp] theorem State.latchClock_walkCache (s : State) (v : Lane) (clk : Bool) : (s.latchClock v clk).walkCache = s.walkCache := by rw [latchClock_frame]
@[simp] theorem State.finish_walkCache (s : State) (v : Lane) (r : Row) (x : Fields) : (s.finish v r x).walkCache = s.walkCache := by rw [finish_frame]
@[simp] theorem State.finishAt_walkCache (s : State) (v : Lane) (r : Row) (x : Fields) (pc : Nat) : (s.finishAt v r x pc).walkCache = s.walkCache := by rw [finishAt_frame]
@[simp] theorem State.latchClock_enroute (s : State) (v : Lane) (clk : Bool) : (s.latchClock v clk).enroute = s.enroute := by rw [latchClock_frame]
@[simp] theorem State.finish_enroute (s : State) (v : Lane) (r : Row) (x : Fields) : (s.finish v r x).enroute = s.enroute := by rw [finish_frame]
@[simp] theorem State.finishAt_enroute (s : State) (v : Lane) (r : Row) (x : Fields) (pc : Nat) : (s.finishAt v r x pc).enroute = s.enroute := by rw [finishAt_frame]
@[simp] theorem State.latchClock_misses (s : State) (v : Lane) (clk : Bool) : (s.latchClock v clk).misses = s.misses := by rw [latchClock_frame]
@[simp] theorem State.finish_misses (s : State) (v : Lane) (r : Row) (x : Fields) : (s.finish v r x).misses = s.misses := by rw [finish_frame]
@[simp] theorem State.finishAt_misses (s : State) (v : Lane) (r : Row) (x : Fields) (pc : Nat) : (s.finishAt v r x pc).misses = s.misses := by rw [finishAt_frame]
@[simp] theorem State.latchClock_lastDetect (s : State) (v : Lane) (clk : Bool) : (s.latchClock v clk).lastDetect = s.lastDetect := by rw [latchClock_frame]
@[simp] theorem State.finish_lastDetect (s : State) (v : Lane) (r : Row) (x : Fields) : (s.finish v r x).lastDetect = s.lastDetect := by rw [finish_frame]
@[simp] theorem State.finishAt_lastDetect (s : State) (v : Lane) (r : Row) (x : Fields) (pc : Nat) : (s.finishAt v r x pc).lastDetect = s.lastDetect := by rw [finishAt_frame]
@[simp] theorem State.latchClock_mail (s : State) (v : Lane) (clk : Bool) : (s.latchClock v clk).mail = s.mail := by rw [latchClock_frame]
@[simp] theorem State.finish_mail (s : State) (v : Lane) (r : Row) (x : Fields) : (s.finish v r x).mail = s.mail := by rw [finish_frame]
@[simp] theorem State.finishAt_mail (s : State) (v : Lane) (r : Row) (x : Fields) (pc : Nat) : (s.finishAt v r x pc).mail = s.mail := by rw [finishAt_frame]
@[simp] theorem State.latchClock_claims (s : State) (v : Lane) (clk : Bool) : (s.latchClock v clk).claims = s.claims := by rw [latchClock_frame]
@[simp] theorem State.finish_claims (s : State) (v : Lane) (r : Row) (x : Fields) : (s.finish v r x).claims = s.claims := by rw [finish_frame]
@[simp] theorem State.finishAt_claims (s : State) (v : Lane) (r : Row) (x : Fields) (pc : Nat) : (s.finishAt v r x pc).claims = s.claims := by rw [finishAt_frame]
@[simp] theorem State.latchClock_gangStops (s : State) (v : Lane) (clk : Bool) : (s.latchClock v clk).gangStops = s.gangStops := by rw [latchClock_frame]
@[simp] theorem State.finish_gangStops (s : State) (v : Lane) (r : Row) (x : Fields) : (s.finish v r x).gangStops = s.gangStops := by rw [finish_frame]
@[simp] theorem State.finishAt_gangStops (s : State) (v : Lane) (r : Row) (x : Fields) (pc : Nat) : (s.finishAt v r x pc).gangStops = s.gangStops := by rw [finishAt_frame]
@[simp] theorem State.latchClock_logPending (s : State) (v : Lane) (clk : Bool) : (s.latchClock v clk).logPending = s.logPending := by rw [latchClock_frame]
@[simp] theorem State.finish_logPending (s : State) (v : Lane) (r : Row) (x : Fields) : (s.finish v r x).logPending = s.logPending := by rw [finish_frame]
@[simp] theorem State.finishAt_logPending (s : State) (v : Lane) (r : Row) (x : Fields) (pc : Nat) : (s.finishAt v r x pc).logPending = s.logPending := by rw [finishAt_frame]
@[simp] theorem State.latchClock_tenants (s : State) (v : Lane) (clk : Bool) : (s.latchClock v clk).tenants = s.tenants := by rw [latchClock_frame]
@[simp] theorem State.finish_tenants (s : State) (v : Lane) (r : Row) (x : Fields) : (s.finish v r x).tenants = s.tenants := by rw [finish_frame]
@[simp] theorem State.finishAt_tenants (s : State) (v : Lane) (r : Row) (x : Fields) (pc : Nat) : (s.finishAt v r x pc).tenants = s.tenants := by rw [finishAt_frame]
@[simp] theorem State.latchClock_ctxs (s : State) (v : Lane) (clk : Bool) : (s.latchClock v clk).ctxs = s.ctxs := by rw [latchClock_frame]
@[simp] theorem State.finish_ctxs (s : State) (v : Lane) (r : Row) (x : Fields) : (s.finish v r x).ctxs = s.ctxs := by rw [finish_frame]
@[simp] theorem State.finishAt_ctxs (s : State) (v : Lane) (r : Row) (x : Fields) (pc : Nat) : (s.finishAt v r x pc).ctxs = s.ctxs := by rw [finishAt_frame]
@[simp] theorem State.latchClock_saved (s : State) (v : Lane) (clk : Bool) : (s.latchClock v clk).saved = s.saved := by rw [latchClock_frame]
@[simp] theorem State.finish_saved (s : State) (v : Lane) (r : Row) (x : Fields) : (s.finish v r x).saved = s.saved := by rw [finish_frame]
@[simp] theorem State.finishAt_saved (s : State) (v : Lane) (r : Row) (x : Fields) (pc : Nat) : (s.finishAt v r x pc).saved = s.saved := by rw [finishAt_frame]
@[simp] theorem State.latchClock_launches (s : State) (v : Lane) (clk : Bool) : (s.latchClock v clk).launches = s.launches := by rw [latchClock_frame]
@[simp] theorem State.finish_launches (s : State) (v : Lane) (r : Row) (x : Fields) : (s.finish v r x).launches = s.launches := by rw [finish_frame]
@[simp] theorem State.finishAt_launches (s : State) (v : Lane) (r : Row) (x : Fields) (pc : Nat) : (s.finishAt v r x pc).launches = s.launches := by rw [finishAt_frame]
@[simp] theorem State.latchClock_nodes (s : State) (v : Lane) (clk : Bool) : (s.latchClock v clk).nodes = s.nodes := by rw [latchClock_frame]
@[simp] theorem State.finish_nodes (s : State) (v : Lane) (r : Row) (x : Fields) : (s.finish v r x).nodes = s.nodes := by rw [finish_frame]
@[simp] theorem State.finishAt_nodes (s : State) (v : Lane) (r : Row) (x : Fields) (pc : Nat) : (s.finishAt v r x pc).nodes = s.nodes := by rw [finishAt_frame]
@[simp] theorem State.latchClock_graphErrors (s : State) (v : Lane) (clk : Bool) : (s.latchClock v clk).graphErrors = s.graphErrors := by rw [latchClock_frame]
@[simp] theorem State.finish_graphErrors (s : State) (v : Lane) (r : Row) (x : Fields) : (s.finish v r x).graphErrors = s.graphErrors := by rw [finish_frame]
@[simp] theorem State.finishAt_graphErrors (s : State) (v : Lane) (r : Row) (x : Fields) (pc : Nat) : (s.finishAt v r x pc).graphErrors = s.graphErrors := by rw [finishAt_frame]
@[simp] theorem State.latchClock_views (s : State) (v : Lane) (clk : Bool) : (s.latchClock v clk).views = s.views := by rw [latchClock_frame]
@[simp] theorem State.finish_views (s : State) (v : Lane) (r : Row) (x : Fields) : (s.finish v r x).views = s.views := by rw [finish_frame]
@[simp] theorem State.finishAt_views (s : State) (v : Lane) (r : Row) (x : Fields) (pc : Nat) : (s.finishAt v r x pc).views = s.views := by rw [finishAt_frame]
@[simp] theorem State.latchClock_amplifier (s : State) (v : Lane) (clk : Bool) : (s.latchClock v clk).amplifier = s.amplifier := by rw [latchClock_frame]
@[simp] theorem State.finish_amplifier (s : State) (v : Lane) (r : Row) (x : Fields) : (s.finish v r x).amplifier = s.amplifier := by rw [finish_frame]
@[simp] theorem State.finishAt_amplifier (s : State) (v : Lane) (r : Row) (x : Fields) (pc : Nat) : (s.finishAt v r x pc).amplifier = s.amplifier := by rw [finishAt_frame]
@[simp] theorem State.latchClock_prims (s : State) (v : Lane) (clk : Bool) : (s.latchClock v clk).prims = s.prims := by rw [latchClock_frame]
@[simp] theorem State.finish_prims (s : State) (v : Lane) (r : Row) (x : Fields) : (s.finish v r x).prims = s.prims := by rw [finish_frame]
@[simp] theorem State.finishAt_prims (s : State) (v : Lane) (r : Row) (x : Fields) (pc : Nat) : (s.finishAt v r x pc).prims = s.prims := by rw [finishAt_frame]
@[simp] theorem State.latchClock_covers (s : State) (v : Lane) (clk : Bool) : (s.latchClock v clk).covers = s.covers := by rw [latchClock_frame]
@[simp] theorem State.finish_covers (s : State) (v : Lane) (r : Row) (x : Fields) : (s.finish v r x).covers = s.covers := by rw [finish_frame]
@[simp] theorem State.finishAt_covers (s : State) (v : Lane) (r : Row) (x : Fields) (pc : Nat) : (s.finishAt v r x pc).covers = s.covers := by rw [finishAt_frame]
@[simp] theorem State.latchClock_pushWaited (s : State) (v : Lane) (clk : Bool) : (s.latchClock v clk).pushWaited = s.pushWaited := by rw [latchClock_frame]
@[simp] theorem State.finish_pushWaited (s : State) (v : Lane) (r : Row) (x : Fields) : (s.finish v r x).pushWaited = s.pushWaited := by rw [finish_frame]
@[simp] theorem State.finishAt_pushWaited (s : State) (v : Lane) (r : Row) (x : Fields) (pc : Nat) : (s.finishAt v r x pc).pushWaited = s.pushWaited := by rw [finishAt_frame]
@[simp] theorem State.latchClock_vote (s : State) (v : Lane) (clk : Bool) : (s.latchClock v clk).vote = s.vote := by rw [latchClock_frame]
@[simp] theorem State.finish_vote (s : State) (v : Lane) (r : Row) (x : Fields) : (s.finish v r x).vote = s.vote := by rw [finish_frame]
@[simp] theorem State.finishAt_vote (s : State) (v : Lane) (r : Row) (x : Fields) (pc : Nat) : (s.finishAt v r x pc).vote = s.vote := by rw [finishAt_frame]
@[simp] theorem State.latchClock_fenceGen (s : State) (v : Lane) (clk : Bool) : (s.latchClock v clk).fenceGen = s.fenceGen := by rw [latchClock_frame]
@[simp] theorem State.finish_fenceGen (s : State) (v : Lane) (r : Row) (x : Fields) : (s.finish v r x).fenceGen = s.fenceGen := by rw [finish_frame]
@[simp] theorem State.finishAt_fenceGen (s : State) (v : Lane) (r : Row) (x : Fields) (pc : Nat) : (s.finishAt v r x pc).fenceGen = s.fenceGen := by rw [finishAt_frame]
@[simp] theorem State.latchClock_orphan (s : State) (v : Lane) (clk : Bool) : (s.latchClock v clk).orphan = s.orphan := by rw [latchClock_frame]
@[simp] theorem State.finish_orphan (s : State) (v : Lane) (r : Row) (x : Fields) : (s.finish v r x).orphan = s.orphan := by rw [finish_frame]
@[simp] theorem State.finishAt_orphan (s : State) (v : Lane) (r : Row) (x : Fields) (pc : Nat) : (s.finishAt v r x pc).orphan = s.orphan := by rw [finishAt_frame]
@[simp] theorem State.latchClock_epoch (s : State) (v : Lane) (clk : Bool) : (s.latchClock v clk).epoch = s.epoch := by rw [latchClock_frame]
@[simp] theorem State.finish_epoch (s : State) (v : Lane) (r : Row) (x : Fields) : (s.finish v r x).epoch = s.epoch := by rw [finish_frame]
@[simp] theorem State.finishAt_epoch (s : State) (v : Lane) (r : Row) (x : Fields) (pc : Nat) : (s.finishAt v r x pc).epoch = s.epoch := by rw [finishAt_frame]
@[simp] theorem State.latchClock_periods (s : State) (v : Lane) (clk : Bool) : (s.latchClock v clk).periods = s.periods := by rw [latchClock_frame]
@[simp] theorem State.finish_periods (s : State) (v : Lane) (r : Row) (x : Fields) : (s.finish v r x).periods = s.periods := by rw [finish_frame]
@[simp] theorem State.finishAt_periods (s : State) (v : Lane) (r : Row) (x : Fields) (pc : Nat) : (s.finishAt v r x pc).periods = s.periods := by rw [finishAt_frame]
@[simp] theorem State.latchClock_passNo (s : State) (v : Lane) (clk : Bool) : (s.latchClock v clk).passNo = s.passNo := by rw [latchClock_frame]
@[simp] theorem State.finish_passNo (s : State) (v : Lane) (r : Row) (x : Fields) : (s.finish v r x).passNo = s.passNo := by rw [finish_frame]
@[simp] theorem State.finishAt_passNo (s : State) (v : Lane) (r : Row) (x : Fields) (pc : Nat) : (s.finishAt v r x pc).passNo = s.passNo := by rw [finishAt_frame]
@[simp] theorem State.latchClock_guardOver (s : State) (v : Lane) (clk : Bool) : (s.latchClock v clk).guardOver = s.guardOver := by rw [latchClock_frame]
@[simp] theorem State.finish_guardOver (s : State) (v : Lane) (r : Row) (x : Fields) : (s.finish v r x).guardOver = s.guardOver := by rw [finish_frame]
@[simp] theorem State.finishAt_guardOver (s : State) (v : Lane) (r : Row) (x : Fields) (pc : Nat) : (s.finishAt v r x pc).guardOver = s.guardOver := by rw [finishAt_frame]
@[simp] theorem State.latchClock_throt (s : State) (v : Lane) (clk : Bool) : (s.latchClock v clk).throt = s.throt := by rw [latchClock_frame]
@[simp] theorem State.finish_throt (s : State) (v : Lane) (r : Row) (x : Fields) : (s.finish v r x).throt = s.throt := by rw [finish_frame]
@[simp] theorem State.finishAt_throt (s : State) (v : Lane) (r : Row) (x : Fields) (pc : Nat) : (s.finishAt v r x pc).throt = s.throt := by rw [finishAt_frame]
@[simp] theorem State.latchClock_errors (s : State) (v : Lane) (clk : Bool) : (s.latchClock v clk).errors = s.errors := by rw [latchClock_frame]
@[simp] theorem State.finish_errors (s : State) (v : Lane) (r : Row) (x : Fields) : (s.finish v r x).errors = s.errors := by rw [finish_frame]
@[simp] theorem State.finishAt_errors (s : State) (v : Lane) (r : Row) (x : Fields) (pc : Nat) : (s.finishAt v r x pc).errors = s.errors := by rw [finishAt_frame]
@[simp] theorem State.latchClock_uevents (s : State) (v : Lane) (clk : Bool) : (s.latchClock v clk).uevents = s.uevents := by rw [latchClock_frame]
@[simp] theorem State.finish_uevents (s : State) (v : Lane) (r : Row) (x : Fields) : (s.finish v r x).uevents = s.uevents := by rw [finish_frame]
@[simp] theorem State.finishAt_uevents (s : State) (v : Lane) (r : Row) (x : Fields) (pc : Nat) : (s.finishAt v r x pc).uevents = s.uevents := by rw [finishAt_frame]
@[simp] theorem State.latchClock_mauth (s : State) (v : Lane) (clk : Bool) : (s.latchClock v clk).mauth = s.mauth := by rw [latchClock_frame]
@[simp] theorem State.finish_mauth (s : State) (v : Lane) (r : Row) (x : Fields) : (s.finish v r x).mauth = s.mauth := by rw [finish_frame]
@[simp] theorem State.finishAt_mauth (s : State) (v : Lane) (r : Row) (x : Fields) (pc : Nat) : (s.finishAt v r x pc).mauth = s.mauth := by rw [finishAt_frame]
@[simp] theorem State.latchClock_rxdrop (s : State) (v : Lane) (clk : Bool) : (s.latchClock v clk).rxdrop = s.rxdrop := by rw [latchClock_frame]
@[simp] theorem State.finish_rxdrop (s : State) (v : Lane) (r : Row) (x : Fields) : (s.finish v r x).rxdrop = s.rxdrop := by rw [finish_frame]
@[simp] theorem State.finishAt_rxdrop (s : State) (v : Lane) (r : Row) (x : Fields) (pc : Nat) : (s.finishAt v r x pc).rxdrop = s.rxdrop := by rw [finishAt_frame]
@[simp] theorem State.latchClock_pdown (s : State) (v : Lane) (clk : Bool) : (s.latchClock v clk).pdown = s.pdown := by rw [latchClock_frame]
@[simp] theorem State.finish_pdown (s : State) (v : Lane) (r : Row) (x : Fields) : (s.finish v r x).pdown = s.pdown := by rw [finish_frame]
@[simp] theorem State.finishAt_pdown (s : State) (v : Lane) (r : Row) (x : Fields) (pc : Nat) : (s.finishAt v r x pc).pdown = s.pdown := by rw [finishAt_frame]
@[simp] theorem State.latchClock_nakCount (s : State) (v : Lane) (clk : Bool) : (s.latchClock v clk).nakCount = s.nakCount := by rw [latchClock_frame]
@[simp] theorem State.finish_nakCount (s : State) (v : Lane) (r : Row) (x : Fields) : (s.finish v r x).nakCount = s.nakCount := by rw [finish_frame]
@[simp] theorem State.finishAt_nakCount (s : State) (v : Lane) (r : Row) (x : Fields) (pc : Nat) : (s.finishAt v r x pc).nakCount = s.nakCount := by rw [finishAt_frame]
@[simp] theorem State.latchClock_peerRefusals (s : State) (v : Lane) (clk : Bool) : (s.latchClock v clk).peerRefusals = s.peerRefusals := by rw [latchClock_frame]
@[simp] theorem State.finish_peerRefusals (s : State) (v : Lane) (r : Row) (x : Fields) : (s.finish v r x).peerRefusals = s.peerRefusals := by rw [finish_frame]
@[simp] theorem State.finishAt_peerRefusals (s : State) (v : Lane) (r : Row) (x : Fields) (pc : Nat) : (s.finishAt v r x pc).peerRefusals = s.peerRefusals := by rw [finishAt_frame]
@[simp] theorem State.latchClock_mailDrops (s : State) (v : Lane) (clk : Bool) : (s.latchClock v clk).mailDrops = s.mailDrops := by rw [latchClock_frame]
@[simp] theorem State.finish_mailDrops (s : State) (v : Lane) (r : Row) (x : Fields) : (s.finish v r x).mailDrops = s.mailDrops := by rw [finish_frame]
@[simp] theorem State.finishAt_mailDrops (s : State) (v : Lane) (r : Row) (x : Fields) (pc : Nat) : (s.finishAt v r x pc).mailDrops = s.mailDrops := by rw [finishAt_frame]
@[simp] theorem State.latchClock_bridgeStopped (s : State) (v : Lane) (clk : Bool) : (s.latchClock v clk).bridgeStopped = s.bridgeStopped := by rw [latchClock_frame]
@[simp] theorem State.finish_bridgeStopped (s : State) (v : Lane) (r : Row) (x : Fields) : (s.finish v r x).bridgeStopped = s.bridgeStopped := by rw [finish_frame]
@[simp] theorem State.finishAt_bridgeStopped (s : State) (v : Lane) (r : Row) (x : Fields) (pc : Nat) : (s.finishAt v r x pc).bridgeStopped = s.bridgeStopped := by rw [finishAt_frame]
@[simp] theorem State.latchClock_bridgeRetries (s : State) (v : Lane) (clk : Bool) : (s.latchClock v clk).bridgeRetries = s.bridgeRetries := by rw [latchClock_frame]
@[simp] theorem State.finish_bridgeRetries (s : State) (v : Lane) (r : Row) (x : Fields) : (s.finish v r x).bridgeRetries = s.bridgeRetries := by rw [finish_frame]
@[simp] theorem State.finishAt_bridgeRetries (s : State) (v : Lane) (r : Row) (x : Fields) (pc : Nat) : (s.finishAt v r x pc).bridgeRetries = s.bridgeRetries := by rw [finishAt_frame]
@[simp] theorem State.latchClock_station (s : State) (v : Lane) (clk : Bool) : (s.latchClock v clk).station = s.station := by rw [latchClock_frame]
@[simp] theorem State.finish_station (s : State) (v : Lane) (r : Row) (x : Fields) : (s.finish v r x).station = s.station := by rw [finish_frame]
@[simp] theorem State.finishAt_station (s : State) (v : Lane) (r : Row) (x : Fields) (pc : Nat) : (s.finishAt v r x pc).station = s.station := by rw [finishAt_frame]
@[simp] theorem State.latchClock_stationKey (s : State) (v : Lane) (clk : Bool) : (s.latchClock v clk).stationKey = s.stationKey := by rw [latchClock_frame]
@[simp] theorem State.finish_stationKey (s : State) (v : Lane) (r : Row) (x : Fields) : (s.finish v r x).stationKey = s.stationKey := by rw [finish_frame]
@[simp] theorem State.finishAt_stationKey (s : State) (v : Lane) (r : Row) (x : Fields) (pc : Nat) : (s.finishAt v r x pc).stationKey = s.stationKey := by rw [finishAt_frame]
@[simp] theorem State.latchClock_moduleNumber (s : State) (v : Lane) (clk : Bool) : (s.latchClock v clk).moduleNumber = s.moduleNumber := by rw [latchClock_frame]
@[simp] theorem State.finish_moduleNumber (s : State) (v : Lane) (r : Row) (x : Fields) : (s.finish v r x).moduleNumber = s.moduleNumber := by rw [finish_frame]
@[simp] theorem State.finishAt_moduleNumber (s : State) (v : Lane) (r : Row) (x : Fields) (pc : Nat) : (s.finishAt v r x pc).moduleNumber = s.moduleNumber := by rw [finishAt_frame]
@[simp] theorem State.latchClock_walkedPeer (s : State) (v : Lane) (clk : Bool) : (s.latchClock v clk).walkedPeer = s.walkedPeer := by rw [latchClock_frame]
@[simp] theorem State.finish_walkedPeer (s : State) (v : Lane) (r : Row) (x : Fields) : (s.finish v r x).walkedPeer = s.walkedPeer := by rw [finish_frame]
@[simp] theorem State.finishAt_walkedPeer (s : State) (v : Lane) (r : Row) (x : Fields) (pc : Nat) : (s.finishAt v r x pc).walkedPeer = s.walkedPeer := by rw [finishAt_frame]
@[simp] theorem State.latchClock_peerRoutes (s : State) (v : Lane) (clk : Bool) : (s.latchClock v clk).peerRoutes = s.peerRoutes := by rw [latchClock_frame]
@[simp] theorem State.finish_peerRoutes (s : State) (v : Lane) (r : Row) (x : Fields) : (s.finish v r x).peerRoutes = s.peerRoutes := by rw [finish_frame]
@[simp] theorem State.finishAt_peerRoutes (s : State) (v : Lane) (r : Row) (x : Fields) (pc : Nat) : (s.finishAt v r x pc).peerRoutes = s.peerRoutes := by rw [finishAt_frame]
@[simp] theorem State.latchClock_portsDown (s : State) (v : Lane) (clk : Bool) : (s.latchClock v clk).portsDown = s.portsDown := by rw [latchClock_frame]
@[simp] theorem State.finish_portsDown (s : State) (v : Lane) (r : Row) (x : Fields) : (s.finish v r x).portsDown = s.portsDown := by rw [finish_frame]
@[simp] theorem State.finishAt_portsDown (s : State) (v : Lane) (r : Row) (x : Fields) (pc : Nat) : (s.finishAt v r x pc).portsDown = s.portsDown := by rw [finishAt_frame]
@[simp] theorem State.latchClock_portReplays (s : State) (v : Lane) (clk : Bool) : (s.latchClock v clk).portReplays = s.portReplays := by rw [latchClock_frame]
@[simp] theorem State.finish_portReplays (s : State) (v : Lane) (r : Row) (x : Fields) : (s.finish v r x).portReplays = s.portReplays := by rw [finish_frame]
@[simp] theorem State.finishAt_portReplays (s : State) (v : Lane) (r : Row) (x : Fields) (pc : Nat) : (s.finishAt v r x pc).portReplays = s.portReplays := by rw [finishAt_frame]
@[simp] theorem State.latchClock_pwrgood (s : State) (v : Lane) (clk : Bool) : (s.latchClock v clk).pwrgood = s.pwrgood := by rw [latchClock_frame]
@[simp] theorem State.finish_pwrgood (s : State) (v : Lane) (r : Row) (x : Fields) : (s.finish v r x).pwrgood = s.pwrgood := by rw [finish_frame]
@[simp] theorem State.finishAt_pwrgood (s : State) (v : Lane) (r : Row) (x : Fields) (pc : Nat) : (s.finishAt v r x pc).pwrgood = s.pwrgood := by rw [finishAt_frame]
@[simp] theorem State.latchClock_resetN (s : State) (v : Lane) (clk : Bool) : (s.latchClock v clk).resetN = s.resetN := by rw [latchClock_frame]
@[simp] theorem State.finish_resetN (s : State) (v : Lane) (r : Row) (x : Fields) : (s.finish v r x).resetN = s.resetN := by rw [finish_frame]
@[simp] theorem State.finishAt_resetN (s : State) (v : Lane) (r : Row) (x : Fields) (pc : Nat) : (s.finishAt v r x pc).resetN = s.resetN := by rw [finishAt_frame]
@[simp] theorem State.latchClock_ready (s : State) (v : Lane) (clk : Bool) : (s.latchClock v clk).ready = s.ready := by rw [latchClock_frame]
@[simp] theorem State.finish_ready (s : State) (v : Lane) (r : Row) (x : Fields) : (s.finish v r x).ready = s.ready := by rw [finish_frame]
@[simp] theorem State.finishAt_ready (s : State) (v : Lane) (r : Row) (x : Fields) (pc : Nat) : (s.finishAt v r x pc).ready = s.ready := by rw [finishAt_frame]
@[simp] theorem State.latchClock_upStep (s : State) (v : Lane) (clk : Bool) : (s.latchClock v clk).upStep = s.upStep := by rw [latchClock_frame]
@[simp] theorem State.finish_upStep (s : State) (v : Lane) (r : Row) (x : Fields) : (s.finish v r x).upStep = s.upStep := by rw [finish_frame]
@[simp] theorem State.finishAt_upStep (s : State) (v : Lane) (r : Row) (x : Fields) (pc : Nat) : (s.finishAt v r x pc).upStep = s.upStep := by rw [finishAt_frame]
@[simp] theorem State.latchClock_failCode (s : State) (v : Lane) (clk : Bool) : (s.latchClock v clk).failCode = s.failCode := by rw [latchClock_frame]
@[simp] theorem State.finish_failCode (s : State) (v : Lane) (r : Row) (x : Fields) : (s.finish v r x).failCode = s.failCode := by rw [finish_frame]
@[simp] theorem State.finishAt_failCode (s : State) (v : Lane) (r : Row) (x : Fields) (pc : Nat) : (s.finishAt v r x pc).failCode = s.failCode := by rw [finishAt_frame]
@[simp] theorem State.latchClock_portUp (s : State) (v : Lane) (clk : Bool) : (s.latchClock v clk).portUp = s.portUp := by rw [latchClock_frame]
@[simp] theorem State.finish_portUp (s : State) (v : Lane) (r : Row) (x : Fields) : (s.finish v r x).portUp = s.portUp := by rw [finish_frame]
@[simp] theorem State.finishAt_portUp (s : State) (v : Lane) (r : Row) (x : Fields) (pc : Nat) : (s.finishAt v r x pc).portUp = s.portUp := by rw [finishAt_frame]
@[simp] theorem State.latchClock_halted (s : State) (v : Lane) (clk : Bool) : (s.latchClock v clk).halted = s.halted := by rw [latchClock_frame]
@[simp] theorem State.finish_halted (s : State) (v : Lane) (r : Row) (x : Fields) : (s.finish v r x).halted = s.halted := by rw [finish_frame]
@[simp] theorem State.finishAt_halted (s : State) (v : Lane) (r : Row) (x : Fields) (pc : Nat) : (s.finishAt v r x pc).halted = s.halted := by rw [finishAt_frame]
@[simp] theorem State.latchClock_now (s : State) (v : Lane) (clk : Bool) : (s.latchClock v clk).now = s.now := by rw [latchClock_frame]
@[simp] theorem State.finish_now (s : State) (v : Lane) (r : Row) (x : Fields) : (s.finish v r x).now = s.now := by rw [finish_frame]
@[simp] theorem State.finishAt_now (s : State) (v : Lane) (r : Row) (x : Fields) (pc : Nat) : (s.finishAt v r x pc).now = s.now := by rw [finishAt_frame]
@[simp] theorem State.latchClock_inputs (s : State) (v : Lane) (clk : Bool) : (s.latchClock v clk).inputs = s.inputs := by rw [latchClock_frame]
@[simp] theorem State.finish_inputs (s : State) (v : Lane) (r : Row) (x : Fields) : (s.finish v r x).inputs = s.inputs := by rw [finish_frame]
@[simp] theorem State.finishAt_inputs (s : State) (v : Lane) (r : Row) (x : Fields) (pc : Nat) : (s.finishAt v r x pc).inputs = s.inputs := by rw [finishAt_frame]
@[simp] theorem State.latchClock_sent (s : State) (v : Lane) (clk : Bool) : (s.latchClock v clk).sent = s.sent := by rw [latchClock_frame]
@[simp] theorem State.finish_sent (s : State) (v : Lane) (r : Row) (x : Fields) : (s.finish v r x).sent = s.sent := by rw [finish_frame]
@[simp] theorem State.finishAt_sent (s : State) (v : Lane) (r : Row) (x : Fields) (pc : Nat) : (s.finishAt v r x pc).sent = s.sent := by rw [finishAt_frame]
@[simp] theorem State.latchClock_agenda (s : State) (v : Lane) (clk : Bool) : (s.latchClock v clk).agenda = s.agenda := by rw [latchClock_frame]
@[simp] theorem State.finish_agenda (s : State) (v : Lane) (r : Row) (x : Fields) : (s.finish v r x).agenda = s.agenda := by rw [finish_frame]
@[simp] theorem State.finishAt_agenda (s : State) (v : Lane) (r : Row) (x : Fields) (pc : Nat) : (s.finishAt v r x pc).agenda = s.agenda := by rw [finishAt_frame]
@[simp] theorem State.latchClock_gather (s : State) (v : Lane) (clk : Bool) : (s.latchClock v clk).gather = s.gather := by rw [latchClock_frame]
@[simp] theorem State.finish_gather (s : State) (v : Lane) (r : Row) (x : Fields) : (s.finish v r x).gather = s.gather := by rw [finish_frame]
@[simp] theorem State.finishAt_gather (s : State) (v : Lane) (r : Row) (x : Fields) (pc : Nat) : (s.finishAt v r x pc).gather = s.gather := by rw [finishAt_frame]
@[simp] theorem State.latchClock_armed (s : State) (v : Lane) (clk : Bool) : (s.latchClock v clk).armed = s.armed := by rw [latchClock_frame]
@[simp] theorem State.finish_armed (s : State) (v : Lane) (r : Row) (x : Fields) : (s.finish v r x).armed = s.armed := by rw [finish_frame]
@[simp] theorem State.finishAt_armed (s : State) (v : Lane) (r : Row) (x : Fields) (pc : Nat) : (s.finishAt v r x pc).armed = s.armed := by rw [finishAt_frame]
@[simp] theorem State.latchClock_patrolled (s : State) (v : Lane) (clk : Bool) : (s.latchClock v clk).patrolled = s.patrolled := by rw [latchClock_frame]
@[simp] theorem State.finish_patrolled (s : State) (v : Lane) (r : Row) (x : Fields) : (s.finish v r x).patrolled = s.patrolled := by rw [finish_frame]
@[simp] theorem State.finishAt_patrolled (s : State) (v : Lane) (r : Row) (x : Fields) (pc : Nat) : (s.finishAt v r x pc).patrolled = s.patrolled := by rw [finishAt_frame]
@[simp] theorem State.latchClock_sensed (s : State) (v : Lane) (clk : Bool) : (s.latchClock v clk).sensed = s.sensed := by rw [latchClock_frame]
@[simp] theorem State.finish_sensed (s : State) (v : Lane) (r : Row) (x : Fields) : (s.finish v r x).sensed = s.sensed := by rw [finish_frame]
@[simp] theorem State.finishAt_sensed (s : State) (v : Lane) (r : Row) (x : Fields) (pc : Nat) : (s.finishAt v r x pc).sensed = s.sensed := by rw [finishAt_frame]
@[simp] theorem State.latchClock_moves (s : State) (v : Lane) (clk : Bool) : (s.latchClock v clk).moves = s.moves := by rw [latchClock_frame]
@[simp] theorem State.finish_moves (s : State) (v : Lane) (r : Row) (x : Fields) : (s.finish v r x).moves = s.moves := by rw [finish_frame]
@[simp] theorem State.finishAt_moves (s : State) (v : Lane) (r : Row) (x : Fields) (pc : Nat) : (s.finishAt v r x pc).moves = s.moves := by rw [finishAt_frame]
@[simp] theorem State.latchClock_nextOp (s : State) (v : Lane) (clk : Bool) : (s.latchClock v clk).nextOp = s.nextOp := by rw [latchClock_frame]
@[simp] theorem State.finish_nextOp (s : State) (v : Lane) (r : Row) (x : Fields) : (s.finish v r x).nextOp = s.nextOp := by rw [finish_frame]
@[simp] theorem State.finishAt_nextOp (s : State) (v : Lane) (r : Row) (x : Fields) (pc : Nat) : (s.finishAt v r x pc).nextOp = s.nextOp := by rw [finishAt_frame]
@[simp] theorem State.latchClock_nextGid (s : State) (v : Lane) (clk : Bool) : (s.latchClock v clk).nextGid = s.nextGid := by rw [latchClock_frame]
@[simp] theorem State.finish_nextGid (s : State) (v : Lane) (r : Row) (x : Fields) : (s.finish v r x).nextGid = s.nextGid := by rw [finish_frame]
@[simp] theorem State.finishAt_nextGid (s : State) (v : Lane) (r : Row) (x : Fields) (pc : Nat) : (s.finishAt v r x pc).nextGid = s.nextGid := by rw [finishAt_frame]
@[simp] theorem State.latchClock_nextChoice (s : State) (v : Lane) (clk : Bool) : (s.latchClock v clk).nextChoice = s.nextChoice := by rw [latchClock_frame]
@[simp] theorem State.finish_nextChoice (s : State) (v : Lane) (r : Row) (x : Fields) : (s.finish v r x).nextChoice = s.nextChoice := by rw [finish_frame]
@[simp] theorem State.finishAt_nextChoice (s : State) (v : Lane) (r : Row) (x : Fields) (pc : Nat) : (s.finishAt v r x pc).nextChoice = s.nextChoice := by rw [finishAt_frame]

/-- A fold of updates that leave a part of the state alone leaves it alone. -/
theorem foldl_same {α β : Type} (part : State → β) (f : State → α → State) (h : ∀ s a, part (f s a) = part s) (l : List α) (s : State) :
    part (l.foldl f s) = part s := by
  induction l generalizing s with
  | nil => rfl
  | cons a l ih => rw [List.foldl_cons, ih, h]

end Sys2Proof.Machine
end

