-- ==== Sys2Proof/Laws/Store.lean ====
section
/-!
SUPPORT. Sparse maps: reading after writing, the canonical form, and what every write of memory keeps.
-/
namespace Sys2Proof

theorem Store.get_put {α : Type} (m : Store α) (k : Nat) (v : α) : Store.get (Store.put m k v) k = some v := by
  induction m with
  | nil => simp [Store.put, Store.get]
  | cons p m ih =>
    obtain ⟨i, u⟩ := p
    unfold Store.put
    split
    · simp [Store.get]
    · split
      · simp [Store.get]
      · rename_i h1 h2
        unfold Store.get
        simp [h1, h2, ih]

theorem Store.put_put {α : Type} (m : Store α) (k : Nat) (v w : α) : Store.put (Store.put m k v) k w = Store.put m k w := by
  induction m with
  | nil => simp [Store.put]
  | cons p m ih =>
    obtain ⟨i, u⟩ := p
    by_cases h1 : k < i
    · simp [Store.put, h1]
    · by_cases h2 : k = i
      · simp [Store.put, h2]
      · simp [Store.put, h1, h2, ih]

theorem Store.upd_upd {α : Type} (m : Store α) (k : Nat) (f g : α → α) : Store.upd (Store.upd m k f) k g = Store.upd m k (g ∘ f) := by
  unfold Store.upd
  cases h : Store.get m k with
  | none => simp [h]
  | some v => simp [Store.get_put, Store.put_put]

theorem Store.rising_mono {α : Type} (m : Store α) {lo lo' : Nat} (h : lo' ≤ lo) (hm : Store.rising lo m = true) : Store.rising lo' m = true := by
  cases m with
  | nil => rfl
  | cons p m =>
    simp only [Store.rising, Bool.and_eq_true, decide_eq_true_eq] at *
    exact ⟨Nat.le_trans h hm.1, hm.2⟩

theorem Store.rising_put {α : Type} (m : Store α) (lo k : Nat) (v : α) (h : lo ≤ k) (hm : Store.rising lo m = true) :
    Store.rising lo (Store.put m k v) = true := by
  induction m generalizing lo with
  | nil => simp [Store.put, Store.rising, h]
  | cons p m ih =>
    obtain ⟨i, u⟩ := p
    simp only [Store.rising, Bool.and_eq_true, decide_eq_true_eq] at hm
    unfold Store.put
    split
    · rename_i h1
      simp only [Store.rising, Bool.and_eq_true, decide_eq_true_eq]
      exact ⟨h, h1, hm.2⟩
    · split
      · rename_i h1 h2
        subst h2
        simp only [Store.rising, Bool.and_eq_true, decide_eq_true_eq]
        exact ⟨h, hm.2⟩
      · rename_i h1 h2
        simp only [Store.rising, Bool.and_eq_true, decide_eq_true_eq]
        exact ⟨hm.1, ih (i + 1) (by omega) hm.2⟩

theorem Store.rising_del {α : Type} (m : Store α) (lo k : Nat) (hm : Store.rising lo m = true) : Store.rising lo (Store.del m k) = true := by
  induction m generalizing lo with
  | nil => rfl
  | cons p m ih =>
    obtain ⟨i, u⟩ := p
    simp only [Store.rising, Bool.and_eq_true, decide_eq_true_eq] at hm
    unfold Store.del
    split
    · simp only [Store.rising, Bool.and_eq_true, decide_eq_true_eq]; exact hm
    · split
      · exact Store.rising_mono m (by omega) hm.2
      · simp only [Store.rising, Bool.and_eq_true, decide_eq_true_eq]
        exact ⟨hm.1, ih (i + 1) hm.2⟩

theorem Store.mem_put {α : Type} (m : Store α) (k : Nat) (v : α) (e : Nat × α) (h : e ∈ Store.put m k v) : e = (k, v) ∨ e ∈ m := by
  induction m with
  | nil => simp [Store.put] at h; exact .inl h
  | cons p m ih =>
    obtain ⟨i, u⟩ := p
    unfold Store.put at h
    split at h
    · rcases List.mem_cons.mp h with h | h
      · exact .inl h
      · exact .inr h
    · split at h
      · rcases List.mem_cons.mp h with h | h
        · exact .inl h
        · exact .inr (List.mem_cons_of_mem _ h)
      · rcases List.mem_cons.mp h with h | h
        · exact .inr (by rw [h]; simp)
        · rcases ih h with h | h
          · exact .inl h
          · exact .inr (List.mem_cons_of_mem _ h)

theorem Store.mem_del {α : Type} (m : Store α) (k : Nat) (e : Nat × α) (h : e ∈ Store.del m k) : e ∈ m := by
  induction m with
  | nil => cases h
  | cons p m ih =>
    obtain ⟨i, u⟩ := p
    unfold Store.del at h
    split at h
    · exact h
    · split at h
      · exact List.mem_cons_of_mem _ h
      · rcases List.mem_cons.mp h with h | h
        · rw [h]; simp
        · exact List.mem_cons_of_mem _ (ih h)

/-- Reading a written address of a canonical array gives what was written. -/
theorem Store.rd_wr_same {α : Type} [DecidableEq α] (d : α) (m : Store α) (k : Nat) (v : α) (lo : Nat) (hm : Store.rising lo m = true) :
    Store.rd d (Store.wr d m k v) k = v := by
  unfold Store.rd Store.wr
  split
  · rename_i hv
    subst hv
    have : Store.get (Store.del m k) k = none := by
      induction m generalizing lo with
      | nil => rfl
      | cons p m ih =>
        obtain ⟨i, u⟩ := p
        simp only [Store.rising, Bool.and_eq_true, decide_eq_true_eq] at hm
        unfold Store.del
        split
        · unfold Store.get; simp [*]
        · split
          · rename_i h1 h2
            subst h2
            cases m with
            | nil => rfl
            | cons q m =>
              simp only [Store.rising, Bool.and_eq_true, decide_eq_true_eq] at hm
              unfold Store.get
              simp [show k < q.1 by omega]
          · rename_i h1 h2
            unfold Store.get
            simp [h1, h2, ih (i + 1) hm.2]
    rw [this]; rfl
  · rw [Store.get_put]; rfl

theorem Store.get_put_ne {α : Type} (m : Store α) {k j : Nat} (v : α) (h : j ≠ k) (lo : Nat) (hm : Store.rising lo m = true) :
    Store.get (Store.put m k v) j = Store.get m j := by
  induction m generalizing lo with
  | nil => simp only [Store.put, Store.get]; split <;> simp_all
  | cons p m ih =>
    obtain ⟨i, u⟩ := p
    simp only [Store.rising, Bool.and_eq_true, decide_eq_true_eq] at hm
    unfold Store.put
    split
    · simp only [Store.get]
      split
      · rw [if_pos (by omega)]
      · simp [h]
    · split
      · rename_i h1 h2
        subst h2
        simp only [Store.get, h, if_false]
      · simp only [Store.get, ih (i + 1) hm.2]

theorem Store.get_del_ne {α : Type} (m : Store α) {k j : Nat} (h : j ≠ k) (lo : Nat) (hm : Store.rising lo m = true) :
    Store.get (Store.del m k) j = Store.get m j := by
  induction m generalizing lo with
  | nil => rfl
  | cons p m ih =>
    obtain ⟨i, u⟩ := p
    simp only [Store.rising, Bool.and_eq_true, decide_eq_true_eq] at hm
    unfold Store.del
    split
    · rfl
    · split
      · rename_i h1 h2
        subst h2
        simp only [Store.get, h, if_false]
        split
        · cases m with
          | nil => rfl
          | cons q m =>
            simp only [Store.rising, Bool.and_eq_true, decide_eq_true_eq] at hm
            simp only [Store.get]
            rw [if_pos (by omega)]
        · rfl
      · simp only [Store.get, ih (i + 1) hm.2]

/-- Writing one address of a canonical array leaves every other as it reads. -/
theorem Store.rd_wr_ne {α : Type} [DecidableEq α] (d : α) (m : Store α) {k j : Nat} (v : α) (h : j ≠ k) (lo : Nat) (hm : Store.rising lo m = true) :
    Store.rd d (Store.wr d m k v) j = Store.rd d m j := by
  unfold Store.rd Store.wr
  split
  · rw [Store.get_del_ne m h lo hm]
  · rw [Store.get_put_ne m v h lo hm]

namespace Machine

theorem Memory.wf_iff (m : List Host.Cell) : Memory.wf m = true ↔ Store.rising 0 m = true ∧ ∀ c ∈ m, c.2 ≠ 0 := by
  simp [Memory.wf]

/-- A write keeps the canonical form. -/
theorem Memory.wf_wr (m : List Host.Cell) (a : Nat) (b : Byte) (h : Memory.wf m = true) : Memory.wf (Store.wr 0 m a b) = true := by
  rw [Memory.wf_iff] at *
  unfold Store.wr
  split
  · exact ⟨Store.rising_del _ _ _ h.1, fun c hc => h.2 c (Store.mem_del _ _ _ hc)⟩
  · rename_i hb
    refine ⟨Store.rising_put _ _ _ _ (Nat.zero_le _) h.1, fun c hc => ?_⟩
    rcases Store.mem_put _ _ _ _ hc with rfl | hc
    · exact hb
    · exact h.2 c hc

theorem Memory.wf_setBytes (bs : List Byte) (m : List Host.Cell) (a : Nat) (h : Memory.wf m = true) : Memory.wf (setBytes m a bs) = true := by
  induction bs generalizing m a with
  | nil => exact h
  | cons b bs ih => exact ih _ _ (Memory.wf_wr _ _ _ h)

theorem Memory.wf_reset : Memory.wf State.reset.hbm = true ∧ Memory.wf State.reset.scanout = true := ⟨rfl, rfl⟩

/-- What a run of bytes written from a on reads as: the bytes where they lie, and the memory as it was elsewhere. -/
theorem rd_setBytes (bs : List Byte) (m : List Host.Cell) (a j : Nat) (h : Memory.wf m = true) :
    Store.rd 0 (setBytes m a bs) j = if a ≤ j ∧ j < a + bs.length then bs.getD (j - a) 0 else Store.rd 0 m j := by
  induction bs generalizing m a with
  | nil => simp [setBytes] <;> omega
  | cons b bs ih =>
    rw [setBytes, ih _ _ (Memory.wf_wr _ _ _ h)]
    have hr := ((Memory.wf_iff m).mp h).1
    by_cases h1 : j = a
    · subst h1
      rw [if_neg (by omega), if_pos (by simp), Store.rd_wr_same 0 m j b 0 hr]; simp
    · rw [Store.rd_wr_ne 0 m b h1 0 hr]
      by_cases h2 : a + 1 ≤ j ∧ j < a + 1 + bs.length
      · rw [if_pos h2, if_pos (by simp; omega), show j - a = (j - (a + 1)) + 1 by omega]; simp
      · rw [if_neg h2, if_neg (by simp; omega)]

end Machine

end Sys2Proof
end

