-- ==== Sys2Proof/Laws/Memory.lean ====
section
/-!
SUPPORT. What the memory operations can do: writing, reading, the slices and their lines, the crossbars, the write queues and the load
caches touch memory, what stands for it in the arrays, the operations that await data, the error counts and the log of choices, and
nothing else.
-/
namespace Sys2Proof.Machine

/-- Only memory and what its operations report into may differ, and the memory keeps its canonical form. -/
structure MemOnly (s u : State) : Prop where
  frame : u = { s with hbm := u.hbm, poison := u.poison, upsets := u.upsets, lines := u.lines, lineUses := u.lineUses,
                       portHeld := u.portHeld, grants := u.grants, wq := u.wq, loadCache := u.loadCache, ops := u.ops,
                       errors := u.errors, uevents := u.uevents, logPending := u.logPending }
  wf : Memory.wf s.hbm = true → Memory.wf u.hbm = true

theorem MemOnly.refl (s : State) : MemOnly s s := ⟨rfl, id⟩
theorem MemOnly.trans {s u w : State} (h : MemOnly s u) (k : MemOnly u w) : MemOnly s w :=
  ⟨by have a := h.frame; have b := k.frame; rw [a] at b; exact b, fun x => k.wf (h.wf x)⟩
theorem MemOnly.foldl {α : Type} {f : State → α → State} (h : ∀ s a, MemOnly s (f s a)) (l : List α) (s : State) : MemOnly s (l.foldl f s) := by
  induction l generalizing s with
  | nil => exact .refl s
  | cons a l ih => exact (h s a).trans (ih _)

theorem writeIn_mem (s : State) (cmp : Bool) (a : Nat) (bs : List Byte) : MemOnly s (s.writeIn cmp a bs) := by
  unfold State.writeIn
  cases cmp
  · exact ⟨rfl, Memory.wf_setBytes _ _ _⟩
  · exact ⟨rfl, fun h => Memory.wf_wr _ _ _ (Memory.wf_setBytes _ _ _ h)⟩
theorem writeFuel_mem (fuel : Nat) (s : State) (cmp : Bool) (a : Nat) (bs : List Byte) : MemOnly s (State.writeFuel fuel s cmp a bs) := by
  induction fuel generalizing s a bs with
  | zero => exact .refl _
  | succ n ih =>
    unfold State.writeFuel
    split
    · exact .refl _
    · exact (writeIn_mem ..).trans (ih ..)
theorem writeBytes_mem (s : State) (cmp : Bool) (a : Nat) (bs : List Byte) : MemOnly s (s.writeBytes cmp a bs) := writeFuel_mem ..

theorem countError_mem (s : State) (e c x : Nat) (t : Option Nat) (pc a : Nat) : MemOnly s (s.countError e c x t pc a) := by
  unfold State.countError
  simp only
  repeat' split
  all_goals exact ⟨rfl, id⟩
theorem countCorrected_mem (s : State) (n : Nat) : MemOnly s (s.countCorrected n) := ⟨rfl, id⟩
theorem countPoison_mem (s : State) (a n c x : Nat) (t : Option Nat) (pc : Nat) : MemOnly s (s.countPoison a n c x t pc) := countError_mem ..
theorem sense_mem (s : State) (a n : Nat) : MemOnly s (s.sense a n) := by
  unfold State.sense
  refine MemOnly.foldl (fun s u => ?_) _ _
  split
  · exact ⟨rfl, id⟩
  · exact countCorrected_mem ..
theorem checkBlocks_mem (s : State) (bs : List Nat) (core ctx : Nat) (t : Option Nat) (pc : Nat) : MemOnly s (s.checkBlocks bs core ctx t pc) := by
  unfold State.checkBlocks
  refine MemOnly.foldl (fun s b => ?_) _ _
  split
  · refine MemOnly.trans ?_ (countError_mem ..)
    exact ⟨rfl, id⟩
  · exact .refl _
theorem checkCode_mem (s : State) (cmp : Bool) (a n core ctx : Nat) (t : Option Nat) (pc : Nat) : MemOnly s (s.checkCode cmp a n core ctx t pc) := by
  unfold State.checkCode
  split
  · exact checkBlocks_mem ..
  · exact .refl _
theorem checkMerge_mem (s : State) (cmp : Bool) (a n core ctx : Nat) (t : Option Nat) (pc : Nat) : MemOnly s (s.checkMerge cmp a n core ctx t pc) := by
  unfold State.checkMerge
  split
  · exact checkBlocks_mem ..
  · exact .refl _

theorem dropLine_mem (s : State) (line : Nat) : MemOnly s (s.dropLine line) := ⟨rfl, id⟩
theorem allocate_mem (s : State) (line prio : Nat) (d : Bool) : MemOnly s (s.allocate line prio d) := by
  unfold State.allocate
  simp only
  refine MemOnly.trans (u := if (s.lines.filter fun e => sameSet e.1 line && e.1 != line).length < 16 then s
    else match victim (s.lines.filter fun e => sameSet e.1 line && e.1 != line) with
      | some v => s.dropLine v
      | none => s) ?_ ⟨rfl, id⟩
  repeat' split
  all_goals first | exact .refl _ | exact dropLine_mem ..
theorem touchLine_mem (s : State) (l cl wp ep : Nat) (b : Bool) : MemOnly s (s.touchLine l cl wp ep b) := by
  unfold State.touchLine
  split
  · exact ⟨rfl, id⟩
  · split
    · exact .refl _
    · exact allocate_mem ..
theorem touchLines_mem (s : State) (a n cl wp ep : Nat) (b : Bool) : MemOnly s (s.touchLines a n cl wp ep b) :=
  MemOnly.foldl (fun _ _ => touchLine_mem ..) _ _

theorem arrive_mem (s : State) (op off : Nat) (bs : List Byte) (p : Option Nat) : MemOnly s (s.arrive op off bs p) := ⟨rfl, id⟩
theorem logChoice_mem (s : State) (r : LogRec) : MemOnly s (s.logChoice r) := by
  unfold State.logChoice
  split <;> exact ⟨rfl, id⟩
theorem logAtomic_mem (s : State) (p : Pending) (old : Nat) : MemOnly s (s.logAtomic p old) := by
  unfold State.logAtomic
  repeat' split
  all_goals first | exact logChoice_mem .. | exact .refl _

theorem reach_mem (s : State) (p : Pending) : MemOnly s (s.reach p) := by
  unfold State.reach
  simp only
  refine MemOnly.trans ?_ ((checkMerge_mem ..).trans (touchLines_mem ..))
  split
  · exact .refl _
  · exact sense_mem ..
theorem applyOne_mem (s : State) (p : Pending) : MemOnly s (s.applyOne p) := by
  unfold State.applyOne
  simp only
  split
  · exact (reach_mem ..).trans (writeBytes_mem ..)
  · split
    · have h := ((reach_mem s p).trans (countPoison_mem _ p.pa p.size (s.asker p).1 p.ctx (s.asker p).2.1 (s.asker p).2.2)).trans
        (logAtomic_mem _ p (atomicPoison p.code))
      split
      · exact h.trans (arrive_mem ..)
      · exact h
    · have h := fun bs old => ((reach_mem s p).trans (writeBytes_mem _ p.cmp p.pa bs)).trans (logAtomic_mem _ p old)
      split
      · exact (h _ _).trans (arrive_mem ..)
      · exact h _ _
theorem applyAll_mem (fuel : Nat) (s : State) (ps : List Pending) : MemOnly s (State.applyAll fuel s ps) := by
  induction fuel generalizing s ps with
  | zero => cases ps <;> exact .refl _
  | succ n ih =>
    cases ps with
    | nil => exact .refl _
    | cons p ps =>
      unfold State.applyAll
      simp only
      split
      · exact ((reach_mem ..).trans (writeBytes_mem ..)).trans (ih ..)
      · exact (applyOne_mem ..).trans (ih ..)
theorem applyEntry_mem (s : State) (line : Nat) : MemOnly s (s.applyEntry line) := by
  refine MemOnly.trans ?_ (applyAll_mem ..)
  exact ⟨rfl, id⟩

theorem noteGrant_mem (s : State) (o i : Nat) : MemOnly s (s.noteGrant o i) := ⟨rfl, id⟩
theorem pass_mem (s : State) (i a : Nat) : MemOnly s (s.pass i a) := by
  unfold State.pass
  split
  · exact noteGrant_mem ..
  · exact (noteGrant_mem ..).trans (noteGrant_mem ..)
theorem grant_mem (s : State) (out : Nat) : MemOnly s (s.grant out) := by
  unfold State.grant
  simp only
  split
  · exact .refl _
  · split <;> exact ⟨rfl, id⟩
theorem makeRoom_mem (s : State) (out : Nat) : MemOnly s (s.makeRoom out) := by
  unfold State.makeRoom
  split
  · split
    · exact applyEntry_mem ..
    · exact .refl _
  · exact .refl _
theorem pull_mem (want : PortReq → Bool) (fuel : Nat) (s : State) : MemOnly s (State.pull want fuel s) := by
  induction fuel generalizing s with
  | zero => exact .refl _
  | succ n ih =>
    unfold State.pull
    split
    · exact .refl _
    · exact ((makeRoom_mem ..).trans (grant_mem ..)).trans (ih ..)
theorem drainLine_mem (s : State) (line : Nat) : MemOnly s (s.drainLine line) := (pull_mem ..).trans (applyEntry_mem ..)
theorem drainAll_mem (s : State) : MemOnly s s.drainAll := by
  refine (pull_mem (fun _ => true) (2 * s.portHeld.length) s).trans (MemOnly.trans ?_ (applyAll_mem ..))
  exact ⟨rfl, id⟩
theorem drainFor_mem (s : State) (a n : Nat) : MemOnly s (s.drainFor a n) := by
  unfold State.drainFor
  split
  · exact .refl _
  · exact MemOnly.foldl (fun _ _ => drainLine_mem ..) _ _
theorem request_mem (s : State) (i : Nat) (p : Pending) : MemOnly s (s.request i p) := ⟨rfl, id⟩

theorem writeBack_mem (s : State) (ls : List Nat) : MemOnly s (s.writeBack ls) := by
  unfold State.writeBack
  refine MemOnly.foldl (fun s l => ?_) _ _
  exact ⟨rfl, id⟩
theorem drainLines_mem (ls : List Nat) (s : State) : MemOnly s (ls.foldl State.drainLine s) := MemOnly.foldl drainLine_mem ls s
theorem dropLines_mem (ls : List Nat) (s : State) : MemOnly s (ls.foldl State.dropLine s) := MemOnly.foldl dropLine_mem ls s
theorem rawRead_mem (s : State) (a n : Nat) : MemOnly s (s.rawRead a n).1 :=
  ((drainLines_mem ..).trans (writeBack_mem ..)).trans (sense_mem ..)
theorem rawWrite_mem (s : State) (a : Nat) (bs : List Byte) : MemOnly s (s.rawWrite a bs) := by
  refine (drainLines_mem (blockLines a bs.length) s).trans ((dropLines_mem (blockLines a bs.length) _).trans ?_)
  exact ⟨rfl, Memory.wf_setBytes _ _ _⟩

theorem invalidateCache_mem (s : State) (core : Nat) : MemOnly s (s.invalidateCache core) := ⟨rfl, id⟩
theorem updateCache_mem (s : State) (core a : Nat) (bs : List Byte) : MemOnly s (s.updateCache core a bs) := by
  unfold State.updateCache
  refine MemOnly.trans ?_ (MemOnly.foldl (fun s i => ?_) _ _)
  · exact ⟨rfl, id⟩
  · exact ⟨rfl, id⟩
theorem dropCopies_mem (s : State) (core a n : Nat) : MemOnly s (s.dropCopies core a n) := ⟨rfl, id⟩
theorem fillCache_mem (s : State) (core line : Nat) (bs : List Byte) : MemOnly s (s.fillCache core line bs) := by
  unfold State.fillCache
  simp only
  split <;> exact ⟨rfl, id⟩

end Sys2Proof.Machine
end

