-- ==== Sys2Proof/Laws/Access.lean ====
section
/-!
SUPPORT. What translating and performing accesses can do (R33, R36, R248, R454, R455): beside memory they touch the caches, the
threads' kept accesses, the misses on their way, what is sent, and the accession logs; a context keeps all but its log.
-/
namespace Sys2Proof.Machine

/-- A context without its accession log. -/
def Ctx.plain (c : Ctx) : Ctx := { c with log := ⟨0, 0, 0, 0, 0, []⟩ }

/-- What an access may change. -/
structure AccessOnly (s u : State) : Prop where
  frame : u = { s with hbm := u.hbm, poison := u.poison, upsets := u.upsets, lines := u.lines, lineUses := u.lineUses,
                       portHeld := u.portHeld, grants := u.grants, wq := u.wq, loadCache := u.loadCache, ops := u.ops,
                       errors := u.errors, uevents := u.uevents, logPending := u.logPending, threads := u.threads, sent := u.sent,
                       tlb := u.tlb, enroute := u.enroute, tenants := u.tenants, ctxs := u.ctxs, walkedPeer := u.walkedPeer, groups := u.groups,
                       nextOp := u.nextOp }
  wf : Memory.wf s.hbm = true → Memory.wf u.hbm = true
  ctxs : ∀ c, (Store.get u.ctxs c).map Ctx.plain = (Store.get s.ctxs c).map Ctx.plain

theorem AccessOnly.refl (s : State) : AccessOnly s s := ⟨rfl, id, fun _ => rfl⟩
theorem AccessOnly.trans {s u w : State} (h : AccessOnly s u) (k : AccessOnly u w) : AccessOnly s w :=
  ⟨by have a := h.frame; have b := k.frame; rw [a] at b; exact b, fun x => k.wf (h.wf x), fun c => (k.ctxs c).trans (h.ctxs c)⟩
theorem AccessOnly.foldl {α : Type} {f : State → α → State} (h : ∀ s a, AccessOnly s (f s a)) (l : List α) (s : State) : AccessOnly s (l.foldl f s) := by
  induction l generalizing s with
  | nil => exact .refl s
  | cons a l ih => exact (h s a).trans (ih _)
theorem MemOnly.access {s u : State} (h : MemOnly s u) : AccessOnly s u :=
  ⟨by have a := h.frame; rw [a], h.wf, fun c => by rw [h.frame]⟩

theorem fillTlb_access (s : State) (e : TlbEntry) : AccessOnly s (s.fillTlb e) := ⟨rfl, id, fun _ => rfl⟩
theorem lookup_access (s : State) (unit core ctx va : Nat) (k : AccessKind) : AccessOnly s (s.lookup unit core ctx va k).1 := by
  unfold State.lookup
  split
  · exact .refl s
  · split
    · simp only
      split
      · exact fillTlb_access ..
      · exact .refl s
    · exact .refl s
theorem sendMiss_access (s : State) (core ctx va : Nat) (w : Waiter) : AccessOnly s (s.sendMiss core ctx va w) := ⟨rfl, id, fun _ => rfl⟩
theorem setThread_access (s : State) (k : Nat) (t : Thread) : AccessOnly s (s.setThread k t) := ⟨rfl, id, fun _ => rfl⟩
theorem updThread_access (s : State) (k : Nat) (f : Thread → Thread) : AccessOnly s (s.updThread k f) := ⟨rfl, id, fun _ => rfl⟩
theorem updGroup_access (s : State) (k : Nat) (f : Group → Group) : AccessOnly s (s.updGroup k f) := ⟨rfl, id, fun _ => rfl⟩

/-- R55, R246: reading the lines of an access into the core's load cache, and finding bit errors there. -/
theorem senseCache_access (s : State) (core a n : Nat) : AccessOnly s (s.senseCache core a n) := by
  unfold State.senseCache
  simp only
  refine AccessOnly.trans ?_ (AccessOnly.foldl ?_ _ _)
  · exact ⟨rfl, id, fun _ => rfl⟩
  · intro s u
    split
    · exact ⟨rfl, id, fun _ => rfl⟩
    · exact (countCorrected_mem ..).access
theorem fillLines_access (s : State) (core : Nat) (x : Xlat) (n : Nat) : AccessOnly s (s.fillLines core x n) := by
  unfold State.fillLines
  refine AccessOnly.foldl (fun s l => ?_) _ _
  split
  · exact .refl _
  · exact (fillCache_mem ..).access
theorem readPage_mem (s : State) (w : Asker) (x : Xlat) (n : Nat) : MemOnly s (s.readPage w x n).1 := by
  unfold State.readPage
  split
  · exact .refl _
  · simp only
    have h := ((((drainFor_mem s x.pa n).trans (pass_mem _ w.input x.pa)).trans (sense_mem _ x.pa n)).trans
      (checkCode_mem _ x.cmp x.pa n w.core w.ctx w.thread w.pc)).trans (touchLines_mem _ x.pa n x.cl x.wp x.ep false)
    repeat' split
    all_goals first | exact h | exact h.trans (countPoison_mem ..)
theorem writePage_mem (s : State) (w : Asker) (x : Xlat) (bs : List Byte) : MemOnly s (s.writePage w x bs) := by
  unfold State.writePage
  split
  · exact .refl _
  · simp only
    exact ((((drainFor_mem ..).trans (pass_mem ..)).trans (checkMerge_mem ..)).trans (touchLines_mem ..)).trans (writeBytes_mem ..)
theorem walked_mem (s : State) (die ctx va : Nat) : MemOnly s (s.walked die ctx va) := by
  unfold State.walked
  refine MemOnly.foldl (fun s a => ?_) _ _
  split
  · exact countError_mem ..
  · simp only
    have h := (((drainFor_mem s a 8).trans (pass_mem _ (walkerPort die) a)).trans (sense_mem _ a 8)).trans (touchLines_mem _ a 8 1 0 0 false)
    split
    · exact h.trans (countPoison_mem ..)
    · exact h

theorem performLoad_access (s : State) (core ctx key pc : Nat) (x : Xlat) (n : Nat) (fresh : Bool) :
    AccessOnly s (s.performLoad core ctx key pc x n fresh).1 := by
  unfold State.performLoad
  simp only
  have h : AccessOnly s (if (decide (x.cl = 2) && !fresh && x.kind != 0) = true then s.senseCache core x.pa n else s) := by
    split
    · exact senseCache_access ..
    · exact .refl _
  generalize (if (decide (x.cl = 2) && !fresh && x.kind != 0) = true then s.senseCache core x.pa n else s) = u at h ⊢
  split
  · exact h
  · have k := h.trans (readPage_mem u { input := core, core := core, ctx := ctx, thread := some key, pc := pc } x n).access
    generalize u.readPage { input := core, core := core, ctx := ctx, thread := some key, pc := pc } x n = r at k ⊢
    split
    · split
      · exact k.trans (fillLines_access ..)
      · exact k
    · exact k.trans (countError_mem ..).access
    · exact k

theorem performStore_access (s : State) (core ctx : Nat) (x : Xlat) (bs : List Byte) : AccessOnly s (s.performStore core ctx x bs) := by
  unfold State.performStore
  split
  · exact .refl s
  · exact ((updateCache_mem s core x.pa bs).trans (MemOnly.foldl (fun s p => request_mem ..) _ _)).access

theorem performAtomic_access (s : State) (key : Nat) (g : Group) (a : Access) (x : Xlat) : AccessOnly s (s.performAtomic key g a x) := by
  unfold State.performAtomic
  split
  · simp only
    split
    · exact ((countError_mem ..).trans (arrive_mem ..)).access
    · exact (countError_mem ..).access
  · exact ((dropCopies_mem ..).trans (request_mem ..)).access

theorem remotePiece_access (s : State) (port page : Nat) (a : Access) : AccessOnly s (s.remotePiece port page a) := ⟨rfl, id, fun _ => rfl⟩
theorem awaitPeer_access (s : State) (key gid port page : Nat) (a : Access) : AccessOnly s (s.awaitPeer key gid port page a) := ⟨rfl, id, fun _ => rfl⟩

theorem order_access (s : State) (b c : Bool) (core : Nat) :
    AccessOnly s (if c then (if b then s.drainAll else s).invalidateCache core else if b then s.drainAll else s) := by
  have h : AccessOnly s (if b then s.drainAll else s) := by
    split
    · exact (drainAll_mem s).access
    · exact .refl s
  split
  · exact h.trans (invalidateCache_mem ..).access
  · exact h

theorem performLocal_access (s : State) (key : Nat) (g : Group) (a : Access) (x : Xlat) : AccessOnly s (s.performLocal key g a x) := by
  unfold State.performLocal
  simp only
  refine (order_access s a.ordered a.acquires (coreOf key)).trans ?_
  generalize (if a.acquires = true then (if a.ordered = true then s.drainAll else s).invalidateCache (coreOf key)
    else if a.ordered = true then s.drainAll else s) = u
  have h : AccessOnly u (match a.kind with
      | .load => (u.performLoad (coreOf key) g.ctx key a.pc x a.size a.acquires).1.arrive a.op a.off
          (u.performLoad (coreOf key) g.ctx key a.pc x a.size a.acquires).2.1 (u.performLoad (coreOf key) g.ctx key a.pc x a.size a.acquires).2.2
      | .store => u.performStore (coreOf key) g.ctx x a.data
      | .atomic => u.performAtomic key g a x) := by
    split
    · exact (performLoad_access ..).trans (arrive_mem ..).access
    · exact performStore_access ..
    · exact performAtomic_access ..
  split
  · exact h.trans (drainFor_mem ..).access
  · exact h

theorem performAccess_access (s : State) (key : Nat) (g : Group) (a : Access) (x : Xlat) : AccessOnly s (s.performAccess key g a x) := by
  unfold State.performAccess
  split
  · simp only
    have h : AccessOnly s (if a.ordered = true then s.drainAll else s) := by
      split
      · exact (drainAll_mem s).access
      · exact .refl s
    generalize (if a.ordered = true then s.drainAll else s) = u at h ⊢
    refine h.trans ?_
    split
    · exact remotePiece_access ..
    · refine AccessOnly.trans (u := { u with sent := _ }) ?_ (awaitPeer_access ..)
      exact ⟨rfl, id, fun _ => rfl⟩
    · split
      · refine AccessOnly.trans (u := { u with sent := _ }) ?_ (remotePiece_access ..)
        exact ⟨rfl, id, fun _ => rfl⟩
      · refine AccessOnly.trans (u := { u with sent := _ }) ?_ (awaitPeer_access ..)
        exact ⟨rfl, id, fun _ => rfl⟩
  · exact performLocal_access ..

theorem get_upd {α : Type} (m : Store α) (k j : Nat) (f : α → α) : Store.get (Store.upd m k f) j = Store.get m j ∨
    (j = k ∧ ∃ v, Store.get m k = some v ∧ Store.get (Store.upd m k f) j = some (f v)) := by
  unfold Store.upd
  cases h : Store.get m k with
  | none => exact .inl rfl
  | some v =>
    by_cases hj : j = k
    · subst hj; exact .inr ⟨rfl, v, rfl, Store.get_put _ _ _⟩
    · refine .inl ?_
      simp only
      clear h
      induction m with
      | nil => simp only [Store.put, Store.get]; split <;> simp_all
      | cons p m ih =>
        obtain ⟨i, u⟩ := p
        unfold Store.put
        split
        · simp only [Store.get, hj, if_false]
          split
          · rw [if_pos (by omega)]
          · rfl
        · split
          · rename_i h1 h2
            subst h2
            simp only [Store.get, hj, if_false]
          · simp only [Store.get, ih]

theorem updLog_access (s : State) (c : Nat) (f : Log → Log) : AccessOnly s (s.updLog c f) := by
  refine ⟨rfl, id, fun d => ?_⟩
  simp only [State.updLog, State.updCtx]
  rcases get_upd s.ctxs c d fun c => { c with log := f c.log } with h | ⟨rfl, v, h1, h2⟩
  · rw [h]
  · rw [h1, h2]; rfl

theorem engineXlat_access (s : State) (die ctx va : Nat) (k : AccessKind) : AccessOnly s (s.engineXlat die ctx va k).1 := by
  unfold State.engineXlat
  simp only
  have h := (walked_mem s die ctx va).access
  split
  · exact h
  · refine h.trans ?_
    split <;> exact ⟨rfl, id, fun _ => rfl⟩

theorem logPlace_access (s : State) (ctx va : Nat) (k : AccessKind) : AccessOnly s (s.logPlace ctx va k).1 := by
  unfold State.logPlace
  simp only
  have := engineXlat_access s 0 ctx va k
  split
  · split <;> exact this
  · exact this

theorem writeLogHeader_access (s : State) (ctx : Nat) : AccessOnly s (s.writeLogHeader ctx) := by
  unfold State.writeLogHeader
  split
  · exact .refl s
  · simp only
    split
    · exact (logPlace_access ..).trans (updLog_access ..)
    · exact (logPlace_access ..).trans (writePage_mem ..).access

theorem sendEvent_access (s : State) (t evt status queue ctx node index value : Nat) :
    AccessOnly s (s.sendEvent t evt status queue ctx node index value) := by
  unfold State.sendEvent
  simp only
  split <;> exact ⟨rfl, id, fun _ => rfl⟩

theorem logEvent_access (s : State) (ctx : Nat) : AccessOnly s (s.logEvent ctx) := by
  unfold State.logEvent
  split
  · exact .refl s
  · exact sendEvent_access ..

theorem writeLog_access (s : State) (r : LogRec) : AccessOnly s (s.writeLog r) := by
  unfold State.writeLog
  split
  · exact .refl s
  · split
    · exact .refl s
    · split
      · exact ((updLog_access ..).trans (writeLogHeader_access ..)).trans (logEvent_access ..)
      · simp only
        split
        · exact ((logPlace_access ..).trans (updLog_access ..)).trans (writeLogHeader_access ..)
        · exact (((logPlace_access ..).trans (writePage_mem ..).access).trans (updLog_access ..)).trans (writeLogHeader_access ..)

theorem flushLog_access (s : State) : AccessOnly s s.flushLog := by
  unfold State.flushLog
  refine AccessOnly.trans ?_ (AccessOnly.foldl (fun s r => writeLog_access s r) _ _)
  exact ⟨rfl, id, fun _ => rfl⟩

theorem readLog_access (s : State) (ctx j : Nat) : AccessOnly s (s.readLog ctx j).1 := by
  unfold State.readLog
  split
  · exact .refl s
  · simp only
    split
    · exact logPlace_access ..
    · have h := fun va x => (logPlace_access s ctx va .load).trans (readPage_mem _ (moduleAsker 0 ctx) x 32).access
      split <;> exact h _ _

theorem diverge_access (s : State) (ctx : Nat) : AccessOnly s (s.diverge ctx) :=
  ((updLog_access ..).trans (writeLogHeader_access ..)).trans (logEvent_access ..)

theorem scanLog_access (p : LogEntry → Bool) (ahead : List Nat) (ctx fuel j : Nat) (s : State) :
    AccessOnly s (State.scanLog p ahead ctx fuel j s).1 := by
  induction fuel generalizing j s with
  | zero => exact .refl s
  | succ n ih =>
    unfold State.scanLog
    split
    · exact ih ..
    · simp only
      have h := readLog_access s ctx j
      split
      · exact h
      · split
        · exact h
        · split
          · exact h
          · exact h.trans (ih ..)

theorem consume_access (s : State) (ctx j : Nat) : AccessOnly s (s.consume ctx j) := (updLog_access ..).trans (writeLogHeader_access ..)

theorem nextRecord_access (s : State) (ctx : Nat) (p : LogEntry → Bool) : AccessOnly s (s.nextRecord ctx p).1 := by
  unfold State.nextRecord
  split
  · exact .refl s
  · split
    · exact .refl s
    · rename_i c _
      simp only
      have h := scanLog_access p c.log.ahead ctx (min (c.log.wpos / 32 - c.log.rpos / 32) 65536) (c.log.rpos / 32) s
      split
      · exact h
      · exact h.trans (diverge_access ..)
      · exact h.trans (diverge_access ..)

theorem takeTurn_access (s : State) (ctx : Nat) (p q : LogEntry → Bool) : AccessOnly s (s.takeTurn ctx p q).1 := by
  unfold State.takeTurn
  simp only
  have h := nextRecord_access s ctx p
  split
  · exact h
  · split
    · exact h.trans (consume_access ..)
    · exact h

theorem accessTurn_access (s : State) (key : Nat) (g : Group) (a : Access) : AccessOnly s (s.accessTurn key g a).1 := by
  unfold State.accessTurn
  split
  · exact takeTurn_access ..
  · exact .refl s

theorem advanceKept_access (key fuel i : Nat) (s : State) : AccessOnly s (State.advanceKept key fuel i s) := by
  induction fuel generalizing i s with
  | zero => exact .refl s
  | succ n ih =>
    unfold State.advanceKept
    split
    · exact .refl s
    · split
      · rename_i th _ a g _ _
        split
        · exact ih ..
        · simp only
          have h := lookup_access s (dataUnit (coreOf key) (quadOf key)) (coreOf key) g.ctx a.va a.accessKind
          generalize s.lookup (dataUnit (coreOf key) (quadOf key)) (coreOf key) g.ctx a.va a.accessKind = l at h ⊢
          split
          · split
            · exact h.trans (ih ..)
            · have h2 := h.trans (accessTurn_access l.1 key g a)
              generalize l.1.accessTurn key g a = t at h2 ⊢
              split
              · exact h2.trans (ih ..)
              · exact ((h2.trans (setThread_access ..)).trans (performAccess_access ..)).trans (ih ..)
          · exact ((h.trans (setThread_access ..)).trans (sendMiss_access ..)).trans (ih ..)
      · exact .refl s

theorem advance_access (s : State) (key : Nat) : AccessOnly s (s.advance key) := advanceKept_access ..
theorem present_access (s : State) (key : Nat) (as : List Access) : AccessOnly s (s.present key as) := by
  refine AccessOnly.trans ?_ (advance_access ..)
  exact ⟨rfl, id, fun _ => rfl⟩
theorem putDst_access (s : State) (k g : Nat) (d : Dst) (w : Word) : AccessOnly s (s.putDst k g d w) := by
  cases d <;> exact ⟨rfl, id, fun _ => rfl⟩
theorem putDsts_access (s : State) (k g : Nat) (ds : List Dst) (ws : List Word) : AccessOnly s (s.putDsts k g ds ws) :=
  AccessOnly.foldl (fun _ _ => putDst_access ..) _ _
theorem pendDst_access (s : State) (k g : Nat) (d : Dst) : AccessOnly s (s.pendDst k g d) := by
  cases d <;> exact ⟨rfl, id, fun _ => rfl⟩
theorem pendDsts_access (s : State) (k g : Nat) (ds : List Dst) : AccessOnly s (s.pendDsts k g ds) :=
  AccessOnly.foldl (fun _ _ => pendDst_access ..) _ _
theorem newLoad_access (v : Lane) (s : State) (n parts : Nat) (sx : Bool) (dst : List Dst) (a : Option Nat) :
    AccessOnly s (v.newLoad s n parts sx dst a).1 := by
  unfold Lane.newLoad
  refine AccessOnly.trans ?_ (pendDsts_access ..)
  exact ⟨rfl, id, fun _ => rfl⟩
theorem ignoreRa_access (s : State) (c : Nat) (b : Bool) : AccessOnly s (s.ignoreRa c b).1 := by
  unfold State.ignoreRa
  split
  · exact updLog_access s c fun l => { l with raign := l.raign + 1 }
  · exact .refl s
theorem retire_access (s : State) (k : Nat) : AccessOnly s (s.retire k) := ⟨rfl, id, fun _ => rfl⟩
theorem finish_access (s : State) (v : Lane) (r : Row) (x : Fields) : AccessOnly s (s.finish v r x) := by
  rw [State.finish_frame]; exact ⟨rfl, id, fun _ => rfl⟩

/-- A lane's context admits the same addresses after an access. -/
theorem AccessOnly.admits {s u : State} (h : AccessOnly s u) (v : Lane) (a : Nat) : v.admits u a ↔ v.admits s a := by
  have key : (u.ctxOf v).map Ctx.plain = (s.ctxOf v).map Ctx.plain := h.ctxs v.g.ctx
  unfold Lane.admits
  cases h1 : u.ctxOf v with
  | none =>
    rw [h1] at key
    cases h2 : s.ctxOf v with
    | none => simp
    | some d => rw [h2] at key; cases key
  | some c =>
    rw [h1] at key
    cases h2 : s.ctxOf v with
    | none => rw [h2] at key; cases key
    | some d =>
      rw [h2] at key
      have e : c.plain = d.plain := Option.some.inj key
      have e2 : c.root = d.root := by
        have e3 := congrArg (fun c : Ctx => c.root) e
        exact e3
      simp [Ctx.canonical, e2]

end Sys2Proof.Machine
end

