-- ==== Sys2Proof/Laws/Issue.lean ====
section
/-!
SUPPORT. What issuing an instruction can do: the gather completes when nothing is in its way.
-/
namespace Sys2Proof.Machine

theorem Lane.sound_iff {v : Lane} {d : Dst} : v.sound d = true ↔ isBad v.th v.g d = false ∧ isWeak v.th d = false := by
  simp [Lane.sound]

theorem State.correct_sound {v : Lane} {s : State} {l : List (Dst × PFmt)} (h : ∀ d ∈ l, isWeak v.th d.1 = false) : s.correct v l = s := by
  have : l.filter (fun d => isWeak v.th d.1) = [] := List.filter_eq_nil_iff.mpr fun d hd => by simp [h d hd]
  simp [State.correct, this]

theorem deliverPoison_clean {v : Lane} {s : State} {l : List (Dst × PFmt)} (h : ∀ d ∈ l, v.sound d.1 = true) :
    deliverPoison v s l = (v, s, none) := by
  have hb : l.filter (fun d => isBad v.th v.g d.1) = [] :=
    List.filter_eq_nil_iff.mpr fun d hd => by simp [(Lane.sound_iff.mp (h d hd)).1]
  unfold deliverPoison
  rw [State.correct_sound fun d hd => (Lane.sound_iff.mp (h d hd)).2, hb]

theorem Lane.free_iff {v : Lane} {r : Row} {x : Fields} : v.free r x = true ↔
    v.heldBack r.op = false ∧ (∀ d ∈ v.rowPlaces r x, isPending v.th v.g d = false) ∧
    (∀ o ∈ r.operands x, v.baseOk o.1 o.2 = true) ∧ ∀ d ∈ v.rowReads r x, v.sound d.1 = true := by
  simp only [Lane.free, Bool.and_eq_true, Bool.not_eq_true', List.all_eq_true, and_assoc]

/-- An act that is no trap. -/
def Act.settles : Act → Bool
  | .trap _ _ => false
  | .trapIn _ _ _ => false
  | _ => true

theorem apply_settles {s : State} {v : Lane} {clk : Bool} {a : Act} (h : a.settles = true) :
    s.apply v clk a = ((s.apply v clk a).1, []) := by
  cases a <;> simp_all [State.apply, Act.settles]

/-- The effect of one lane that does not trap. -/
def Spec.effect (p : Spec) (v : Lane) (s : State) : State := (s.apply v (readsClock p.row p.x) (p.lane v s)).1

theorem Spec.effect_done {p : Spec} {v : Lane} {s u : State} (h : p.lane v s = .done u) : p.effect v s = u.finish v p.row p.x := by
  simp only [Spec.effect, State.apply, h, State.finish]
theorem Spec.effect_jump {p : Spec} {v : Lane} {s u : State} {pc : Nat} (h : p.lane v s = .jump u pc) :
    p.effect v s = u.finishAt v p.row p.x pc := by
  simp only [Spec.effect, State.apply, h, State.finishAt]
theorem Spec.effect_raw {p : Spec} {v : Lane} {s u : State} (h : p.lane v s = .raw u) : p.effect v s = u := by
  simp only [Spec.effect, State.apply, h]
theorem Spec.effect_wait {p : Spec} {v : Lane} {s u : State} {w : Wait} (h : p.lane v s = .wait u w) :
    p.effect v s = (u.waitIn v.key w).latchClock v (readsClock p.row p.x) := by
  simp only [Spec.effect, State.apply, h]

/-- One lane that is free, whose further reads are clean and which does not trap has its effect. -/
theorem laneStep_effect {p : Spec} {v : Lane} {s : State} (hreads : p.reads = fun _ l => l)
    (hfree : v.free p.row p.x = true) (hextra : ∀ d ∈ p.extra v, v.sound d.1 = true) (h : (p.lane v s).settles = true) :
    laneStep p v s = (p.effect v s, []) := by
  obtain ⟨-, -, hb, hr⟩ := Lane.free_iff.mp hfree
  have hops : (p.row.operands p.x).all (fun o => v.baseOk o.1 o.2) = true := List.all_eq_true.mpr hb
  have hclean : ∀ d ∈ v.rowReads p.row p.x ++ p.extra v, v.sound d.1 = true := by
    intro d hd
    rcases List.mem_append.mp hd with hd | hd
    · exact hr d hd
    · exact hextra d hd
  unfold laneStep
  rw [hops, hreads, deliverPoison_clean hclean]
  exact apply_settles h

/-- Lanes that are free and do not trap leave the fold of their effects. -/
theorem runLanes_effects {p : Spec} {Q : State → Prop} (hreads : p.reads = fun _ l => l)
    (vs : List Lane) (hfree : ∀ v ∈ vs, v.free p.row p.x = true) (hextra : ∀ v ∈ vs, ∀ d ∈ p.extra v, v.sound d.1 = true)
    (hlane : ∀ v ∈ vs, ∀ s, Q s → (p.lane v s).settles = true ∧ Q (p.effect v s)) (s : State) (hs : Q s) :
    runLanes p vs s = (vs.foldl (fun s v => p.effect v s) s, []) := by
  have key : ∀ vs : List Lane, (∀ v ∈ vs, v.free p.row p.x = true) → (∀ v ∈ vs, ∀ d ∈ p.extra v, v.sound d.1 = true) →
      (∀ v ∈ vs, ∀ s, Q s → (p.lane v s).settles = true ∧ Q (p.effect v s)) → ∀ s, Q s →
      vs.foldl (fun acc v => ((laneStep p v acc.1).1, acc.2 ++ (laneStep p v acc.1).2)) (s, ([] : List LaneTrap)) =
        (vs.foldl (fun s v => p.effect v s) s, []) := by
    intro vs
    induction vs with
    | nil => intro _ _ _ s _; rfl
    | cons v vs ih =>
      intro hf hx hl s hs
      obtain ⟨ht, hq⟩ := hl v (by simp) s hs
      simp only [List.foldl_cons, laneStep_effect hreads (hf v (by simp)) (hx v (by simp)) ht, List.append_nil]
      exact ih (fun w hw => hf w (by simp [hw])) (fun w hw => hx w (by simp [hw])) (fun w hw => hl w (by simp [hw])) _ hq
  exact key vs hfree hextra hlane s hs

theorem takeTraps_nil (s : State) : s.takeTraps [] = s := rfl

theorem ruleTraps_nil {i : Instr} {p : Spec} {vs : List Lane} (ht : ∀ v ∈ vs, isThresher v.key = true → thresherMay i = true ∧ writesUniform p.row p.x = false)
    (hr : ∀ v ∈ activeLanes p.x vs, p.rule v = none) : ruleTraps i p vs = [] := by
  unfold ruleTraps
  rw [List.filterMap_eq_nil_iff]
  intro v hv
  have := ht v hv
  split
  · rename_i h
    simp only [Bool.and_eq_true, Bool.or_eq_true, Bool.not_eq_true'] at h
    obtain ⟨h1, h2⟩ := h
    obtain ⟨h3, h4⟩ := this h1
    simp_all
  · split
    · rw [hr v (List.mem_filter.mpr ⟨hv, ‹_›⟩)]; rfl
    · rfl

/-- What an instruction asks of the gather beside `Issues`; `once` says whether it acts once for the gather. -/
structure Spec.Asks (p : Spec) (s : State) (vs : List Lane) (once : Bool) : Prop where
  bad : ∀ v ∈ vs, p.bad v = false
  rule : ∀ v ∈ activeLanes p.x vs, p.rule v = none
  once : p.once = once
  reads : p.reads = fun _ l => l
  after : p.after = fun s => (s, [])
  pend : ∀ v ∈ activeLanes p.x vs, ∀ d ∈ p.extra v, isPending v.th v.g d.1 = false
  clean : ∀ v ∈ activeLanes p.x vs, ∀ d ∈ p.extra v, v.sound d.1 = true
  stall : p.stall s.tick (activeLanes p.x vs) = false

/-- What an instruction that acts lane by lane asks of the gather beside `Issues`. -/
abbrev Spec.Clear (p : Spec) (s : State) (vs : List Lane) : Prop := p.Asks s vs false

theorem Issues.active_free {i r x s vs} (h : Issues i r x s vs) : ∀ v ∈ activeLanes x vs, v.free r x = true :=
  fun v hv => h.free v (List.mem_filter.mp hv).1 (List.mem_filter.mp hv).2

/-- R169: when nothing is in the way, the active lanes run. -/
theorem issue_go {i : Instr} {p : Spec} {s : State} {vs : List Lane} {once : Bool} (h : Issues i p.row p.x s vs) (hp : p.Asks s vs once) :
    issue i p s = (let u := (idleLanes p.x vs).foldl (fun s v => s.retire v.key) s.tick
      let e := if once then runOnce p (activeLanes p.x vs) u else runLanes p (activeLanes p.x vs) u
      happen (e.1.takeTraps e.2)) := by
  have hlate : (vs.any fun v => v.th.late.isSome) = false := by
    rw [List.any_eq_false]; intro v hv; simp [h.late v hv]
  have hguard : (vs.any fun v => v.guardBad p.x.g p.x.gn || p.bad v) = false := by
    rw [List.any_eq_false]; intro v hv; simp [h.guard v hv, hp.bad v hv]
  have hrule := ruleTraps_nil (i := i) (p := p) h.thresher hp.rule
  have hfree : ∀ v ∈ activeLanes p.x vs, v.free p.row p.x = true := by
    intro v hv
    obtain ⟨hv, ha⟩ := List.mem_filter.mp hv
    exact h.free v hv ha
  have hpend : ((activeLanes p.x vs).any fun v => v.heldBack p.row.op ||
      ((v.rowPlaces p.row p.x) ++ (p.extra v).map Prod.fst).any fun d => isPending v.th v.g d) = false := by
    rw [List.any_eq_false]
    intro v hv
    obtain ⟨h1, h2, -, -⟩ := Lane.free_iff.mp (hfree v hv)
    rw [h1, Bool.false_or, Bool.not_eq_true, List.any_eq_false]
    intro d hd
    rcases List.mem_append.mp hd with hd | hd
    · simp [h2 d hd]
    · obtain ⟨e, he, rfl⟩ := List.mem_map.mp hd
      simp [hp.pend v hv e he]
  unfold issue
  simp only [h.lanes]
  rw [hlate, h.legal, hguard, hrule]
  simp only [List.any_nil, Bool.not_false, Bool.not_true, Bool.or_self, Bool.false_eq_true, if_false, List.nil_append]
  rw [List.filter_eq_self.mpr (by simp : ∀ v ∈ vs, (fun _ => true) v = true)]
  change (if ((activeLanes p.x vs).any fun v => v.heldBack p.row.op ||
      ((v.rowPlaces p.row p.x) ++ (p.extra v).map Prod.fst).any fun d => isPending v.th v.g d) then _
      else if p.stall s.tick (activeLanes p.x vs) then _ else _) = _
  rw [hpend, hp.stall]
  simp only [Bool.false_eq_true, if_false, hp.once, hp.after, List.append_nil]
  rfl

theorem issue_run {i : Instr} {p : Spec} {s : State} {vs : List Lane} (h : Issues i p.row p.x s vs) (hp : p.Clear s vs) :
    issue i p s = happen ((runLanes p (activeLanes p.x vs) ((idleLanes p.x vs).foldl (fun s v => s.retire v.key) s.tick)).1.takeTraps
      (runLanes p (activeLanes p.x vs) ((idleLanes p.x vs).foldl (fun s v => s.retire v.key) s.tick)).2) := by
  have e := issue_go h hp
  simp only [Bool.false_eq_true, if_false] at e
  exact e

/-- An instruction that acts once for its gather: the lowest lane column acts, and every active lane goes on. -/
theorem issue_once {i : Instr} {p : Spec} {s u : State} {vs : List Lane} {v : Lane} (h : Issues i p.row p.x s vs) (hp : p.Asks s vs true)
    (hv : (activeLanes p.x vs).head? = some v)
    (hlane : p.lane v ((idleLanes p.x vs).foldl (fun s v => s.retire v.key) s.tick) = .done u) :
    issue i p s = .next (((activeLanes p.x vs).foldl (fun s v => s.retire v.key) u).latchClock v (readsClock p.row p.x)).settle.moved := by
  rw [issue_go h hp]
  obtain ⟨l, hl⟩ : ∃ l, activeLanes p.x vs = v :: l := by
    cases ha : activeLanes p.x vs with
    | nil => rw [ha] at hv; cases hv
    | cons w l => rw [ha] at hv; cases hv; exact ⟨l, rfl⟩
  have hm : v ∈ activeLanes p.x vs := by rw [hl]; simp
  obtain ⟨-, -, -, hr⟩ := Lane.free_iff.mp (h.active_free v hm)
  have hclean : ∀ d ∈ v.rowReads p.row p.x ++ p.extra v, v.sound d.1 = true := by
    intro d hd
    rcases List.mem_append.mp hd with hd | hd
    · exact hr d hd
    · exact hp.clean v hm d hd
  have hok : (activeLanes p.x vs).filter (fun v => (p.row.operands p.x).all fun o => v.baseOk o.1 o.2) = v :: l := by
    rw [← hl]
    exact List.filter_eq_self.mpr fun w hw => List.all_eq_true.mpr (Lane.free_iff.mp (h.active_free w hw)).2.2.1
  have hodd : (activeLanes p.x vs).filter (fun v => !((p.row.operands p.x).all fun o => v.baseOk o.1 o.2)) = [] :=
    List.filter_eq_nil_iff.mpr fun w hw => by
      simp [List.all_eq_true.mpr (Lane.free_iff.mp (h.active_free w hw)).2.2.1]
  rw [hl] at hok hodd ⊢
  simp only [if_true, runOnce]
  rw [hok, hodd]
  simp only [deliverPoison_clean hclean, hlane]
  rfl

/-- R169: when nothing is in the way, each active lane has its effect in turn. -/
theorem issue_effects {i : Instr} {p : Spec} {s : State} {vs : List Lane} (Q : State → Prop) (h : Issues i p.row p.x s vs) (hp : p.Clear s vs)
    (hlane : ∀ v ∈ activeLanes p.x vs, ∀ s, Q s → (p.lane v s).settles = true ∧ Q (p.effect v s))
    (hs : Q ((idleLanes p.x vs).foldl (fun s v => s.retire v.key) s.tick)) :
    issue i p s = happen (s.commit p.x vs p.effect) := by
  rw [issue_run h hp, runLanes_effects (Q := Q) hp.reads _ h.active_free hp.clean hlane _ hs]
  rfl

/-- A gather with one active lane that does not trap leaves that lane's effect. -/
theorem issue_one {i : Instr} {p : Spec} {s : State} {vs : List Lane} {v : Lane} (h : Issues i p.row p.x s vs) (hp : p.Clear s vs)
    (hv : activeLanes p.x vs = [v]) (ht : (p.lane v ((idleLanes p.x vs).foldl (fun s v => s.retire v.key) s.tick)).settles = true) :
    issue i p s = .next (p.effect v ((idleLanes p.x vs).foldl (fun s v => s.retire v.key) s.tick)).settle.moved := by
  have hm : v ∈ activeLanes p.x vs := by simp [hv]
  rw [issue_run h hp, hv]
  simp only [runLanes, List.foldl_cons, List.foldl_nil, laneStep_effect hp.reads (h.active_free v hm) (hp.clean v hm) ht]
  rfl

/-- Each active lane completes with an effect. -/
theorem issue_done {i : Instr} {p : Spec} {s : State} {vs : List Lane} (Q : State → Prop) (w : Lane → State → State)
    (h : Issues i p.row p.x s vs) (hp : p.Clear s vs)
    (hlane : ∀ v ∈ activeLanes p.x vs, ∀ s, Q s → p.lane v s = .done (w v s) ∧ Q ((w v s).finish v p.row p.x))
    (hs : Q ((idleLanes p.x vs).foldl (fun s v => s.retire v.key) s.tick)) :
    issue i p s = .next (s.completeAll p.row p.x vs w).settle.moved := by
  rw [issue_effects Q h hp (fun v hv s hq => ?_) hs]
  · unfold happen State.completeAll State.commit
    congr 3
    refine (List.foldl_rel (r := fun a b => a = b ∧ Q a) ⟨rfl, hs⟩ ?_).1
    rintro v hv a b ⟨rfl, hq⟩
    obtain ⟨h1, h2⟩ := hlane v hv a hq
    rw [p.effect_done h1]
    exact ⟨rfl, h2⟩
  · obtain ⟨h1, h2⟩ := hlane v hv s hq
    exact ⟨by rw [h1]; rfl, by rw [p.effect_done h1]; exact h2⟩

/-- Each active lane has an effect and goes on at another address. -/
theorem issue_jump {i : Instr} {p : Spec} {s : State} {vs : List Lane} (Q : State → Prop) (w : Lane → State → State) (pc : Lane → Nat)
    (h : Issues i p.row p.x s vs) (hp : p.Clear s vs)
    (hlane : ∀ v ∈ activeLanes p.x vs, ∀ s, Q s → p.lane v s = .jump (w v s) (pc v) ∧ Q ((w v s).finishAt v p.row p.x (pc v)))
    (hs : Q ((idleLanes p.x vs).foldl (fun s v => s.retire v.key) s.tick)) :
    issue i p s = .next (s.commit p.x vs fun v s => (w v s).finishAt v p.row p.x (pc v)).settle.moved := by
  rw [issue_effects Q h hp (fun v hv s hq => ?_) hs]
  · unfold happen State.commit
    congr 3
    refine (List.foldl_rel (r := fun a b => a = b ∧ Q a) ⟨rfl, hs⟩ ?_).1
    rintro v hv a b ⟨rfl, hq⟩
    obtain ⟨h1, h2⟩ := hlane v hv a hq
    rw [p.effect_jump h1]
    exact ⟨rfl, h2⟩
  · obtain ⟨h1, h2⟩ := hlane v hv s hq
    exact ⟨by rw [h1]; rfl, by rw [p.effect_jump h1]; exact h2⟩

/-- The lanes that trap, one after the other, when every lane traps. -/
theorem runLanes_traps {p : Spec} (hreads : p.reads = fun _ l => l) (cause tval : Lane → Nat) (vs : List Lane)
    (hfree : ∀ v ∈ vs, v.free p.row p.x = true) (hextra : ∀ v ∈ vs, ∀ d ∈ p.extra v, v.sound d.1 = true) (s : State)
    (hlane : ∀ v ∈ vs, p.lane v s = .trap (cause v) (tval v) ∨ p.lane v s = .trapIn s (cause v) (tval v)) :
    runLanes p vs s = (s, vs.map fun v => { key := v.key, cause := cause v, tval := tval v }) := by
  have key : ∀ vs : List Lane, (∀ v ∈ vs, v.free p.row p.x = true) → (∀ v ∈ vs, ∀ d ∈ p.extra v, v.sound d.1 = true) →
      (∀ v ∈ vs, p.lane v s = .trap (cause v) (tval v) ∨ p.lane v s = .trapIn s (cause v) (tval v)) → ∀ ts,
      vs.foldl (fun acc v => ((laneStep p v acc.1).1, acc.2 ++ (laneStep p v acc.1).2)) (s, ts) =
        (s, ts ++ vs.map fun v => { key := v.key, cause := cause v, tval := tval v }) := by
    intro vs
    induction vs with
    | nil => intro _ _ _ ts; simp
    | cons v vs ih =>
      intro hf hx hl ts
      have h1 : laneStep p v s = (s, [{ key := v.key, cause := cause v, tval := tval v }]) := by
        obtain ⟨-, -, hb, hr⟩ := Lane.free_iff.mp (hf v (by simp))
        have hops : (p.row.operands p.x).all (fun o => v.baseOk o.1 o.2) = true := List.all_eq_true.mpr hb
        have hclean : ∀ d ∈ v.rowReads p.row p.x ++ p.extra v, v.sound d.1 = true := by
          intro d hd
          rcases List.mem_append.mp hd with hd | hd
          · exact hr d hd
          · exact hx v (by simp) d hd
        unfold laneStep
        rw [hops, hreads, deliverPoison_clean hclean]
        rcases hl v (by simp) with e | e <;> simp only [Bool.not_true, Bool.false_eq_true, if_false, e, State.apply]
      simp only [List.foldl_cons, h1]
      rw [ih (fun w hw => hf w (by simp [hw])) (fun w hw => hx w (by simp [hw])) (fun w hw => hl w (by simp [hw]))]
      simp
  have := key vs hfree hextra hlane []
  simpa [runLanes] using this

/-- When every active lane traps, the traps of the gather are taken together. -/
theorem issue_trapped {i : Instr} {p : Spec} {s : State} {vs : List Lane} (cause tval : Lane → Nat)
    (h : Issues i p.row p.x s vs) (hp : p.Clear s vs)
    (hlane : ∀ v ∈ activeLanes p.x vs, p.lane v ((idleLanes p.x vs).foldl (fun s v => s.retire v.key) s.tick) = .trap (cause v) (tval v) ∨
      p.lane v ((idleLanes p.x vs).foldl (fun s v => s.retire v.key) s.tick) =
        .trapIn ((idleLanes p.x vs).foldl (fun s v => s.retire v.key) s.tick) (cause v) (tval v)) :
    issue i p s = .next (((idleLanes p.x vs).foldl (fun s v => s.retire v.key) s.tick).takeTraps
      ((activeLanes p.x vs).map fun v => { key := v.key, cause := cause v, tval := tval v })).settle.moved := by
  rw [issue_run h hp]
  rw [runLanes_traps hp.reads cause tval _ h.active_free hp.clean _ hlane]
  rfl

theorem issue_traps {i : Instr} {p : Spec} {s : State} {vs : List Lane} (cause tval : Lane → Nat)
    (h : Issues i p.row p.x s vs) (hp : p.Clear s vs)
    (hlane : ∀ v ∈ activeLanes p.x vs, p.lane v ((idleLanes p.x vs).foldl (fun s v => s.retire v.key) s.tick) = .trap (cause v) (tval v)) :
    issue i p s = .next (((idleLanes p.x vs).foldl (fun s v => s.retire v.key) s.tick).takeTraps
      ((activeLanes p.x vs).map fun v => { key := v.key, cause := cause v, tval := tval v })).settle.moved :=
  issue_trapped cause tval h hp fun v hv => .inl (hlane v hv)

theorem alone_active {x : Fields} {v : Lane} (h : v.active x.g x.gn = true) : activeLanes x [v] = [v] := by simp [activeLanes, h]
theorem alone_idle {x : Fields} {v : Lane} (h : v.active x.g x.gn = true) : idleLanes x [v] = [] := by simp [idleLanes, h]

/-- A gather of one active lane that does not trap leaves that lane's effect. -/
theorem issue_alone {i : Instr} {p : Spec} {s : State} {v : Lane} {a : Act} (h : Issues i p.row p.x s [v]) (hp : p.Clear s [v])
    (hv : v.active p.x.g p.x.gn = true) (ha : p.lane v s.tick = a) (ht : a.settles = true) :
    issue i p s = .next (s.tick.apply v (readsClock p.row p.x) a).1.settle.moved := by
  rw [issue_one h hp (alone_active hv)]
  · rw [alone_idle hv, Spec.effect, List.foldl_nil, ha]
  · rw [alone_idle hv, List.foldl_nil, ha]; exact ht

theorem specOf_eq {i : Instr} {r : Row} {x : Fields} {f : Lane → State → Act} (h : rowOf i = some (r, x)) :
    specOf i f = { row := r, x := x, lane := f } := by simp only [specOf, h]

/-- An instruction with no condition of its own, whose effect is the same in every state. -/
theorem issue_plain {i : Instr} {r : Row} {x : Fields} {s : State} {vs : List Lane} {f : Lane → State → Act} (w : Lane → State → State)
    (h : Issues i r x s vs) (hlane : ∀ v s, f v s = .done (w v s)) :
    issue i (specOf i f) s = .next (s.completeAll r x vs w).settle.moved := by
  rw [specOf_eq h.row]
  exact issue_done (p := { row := r, x := x, lane := f }) (fun _ => True) w h ⟨by simp, by simp, rfl, rfl, rfl, by simp, by simp, rfl⟩
    (fun v _ s _ => ⟨hlane v s, trivial⟩) trivial

end Sys2Proof.Machine
end

