-- ==== Sys2Proof/Laws/Rows.lean ====
section
/-!
SUPPORT. The row of each instruction, one lemma for each constructor, so that no proof unfolds the table.
-/
namespace Sys2Proof.Machine
open Sys2Proof.Fields

@[simp] theorem rowOf_iadd (x : Fields) : rowOf (.iadd x) = some (rowArith 1 0xC0 allTypes .none x, x) := rfl
@[simp] theorem rowOf_isub (x : Fields) : rowOf (.isub x) = some (rowArith 2 0xC0 allTypes .none x, x) := rfl
@[simp] theorem rowOf_iaddc (x : Fields) : rowOf (.iaddc x) = some (rowArith 3 0x80 [6, 7] .pred x, x) := rfl
@[simp] theorem rowOf_ineg (x : Fields) : rowOf (.ineg x) = some ({ op := 0, fn := 4, fnMask := 0x40, d := .dst x.regs, a := .src x.regs .int, ms := [0, 1, 2, 3] }, x) := rfl
@[simp] theorem rowOf_iabs (x : Fields) : rowOf (.iabs x) = some ({ op := 0, fn := 5, fnMask := 0x40, d := .dst x.regs, a := .src x.regs .int, ms := [0, 1, 2, 3] }, x) := rfl
@[simp] theorem rowOf_imin (x : Fields) : rowOf (.imin x) = some (rowArith 6 0x80 allTypes .none x, x) := rfl
@[simp] theorem rowOf_imax (x : Fields) : rowOf (.imax x) = some (rowArith 7 0x80 allTypes .none x, x) := rfl
@[simp] theorem rowOf_imul (x : Fields) : rowOf (.imul x) = some (rowArith 8 0xC0 allTypes .none x, x) := rfl
@[simp] theorem rowOf_imulh (x : Fields) : rowOf (.imulh x) = some (rowArith 9 0x80 [2, 3, 6, 7] .none x, x) := rfl
@[simp] theorem rowOf_imad (x : Fields) : rowOf (.imad x) = some (rowArith 10 0xC0 allTypes (.src x.regs .int) x, x) := rfl
@[simp] theorem rowOf_imadw (x : Fields) : rowOf (.imadw x) = some (rowImm 0x00 11 0xC0 (.dst 2) s1 s1 s2 [2, 6] x, x) := rfl
@[simp] theorem rowOf_and (x : Fields) : rowOf (.and x) = some (rowLogic 1 x, x) := rfl
@[simp] theorem rowOf_or (x : Fields) : rowOf (.or x) = some (rowLogic 2 x, x) := rfl
@[simp] theorem rowOf_xor (x : Fields) : rowOf (.xor x) = some (rowLogic 3 x, x) := rfl
@[simp] theorem rowOf_andn (x : Fields) : rowOf (.andn x) = some (rowLogic 4 x, x) := rfl
@[simp] theorem rowOf_not (x : Fields) : rowOf (.not x) = some ({ op := 1, fn := 5, d := .dst x.regs, a := .src x.regs .int, ms := [6, 7] }, x) := rfl
@[simp] theorem rowOf_shl (x : Fields) : rowOf (.shl x) = some (rowShift 6 x, x) := rfl
@[simp] theorem rowOf_shr (x : Fields) : rowOf (.shr x) = some (rowShift 7 x, x) := rfl
@[simp] theorem rowOf_sar (x : Fields) : rowOf (.sar x) = some (rowShift 8 x, x) := rfl
@[simp] theorem rowOf_rot (x : Fields) : rowOf (.rot x) = some (rowShift 9 x, x) := rfl
@[simp] theorem rowOf_bfx (x : Fields) : rowOf (.bfx x) = some ({ rowImm 0x02 1 0x80 (.dst 1) s1 s1 .none [2, 6] x with imm := if x.immForm then 0x7FF else 0 }, x) := rfl
@[simp] theorem rowOf_bfi (x : Fields) : rowOf (.bfi x) = some ({ rowImm 0x02 2 0x80 (.rmw 1) s1 s1 .none [6] x with imm := if x.immForm then 0x7FF else 0 }, x) := rfl
@[simp] theorem rowOf_popc (x : Fields) : rowOf (.popc x) = some ({ op := 2, fn := 3, d := .dst 1, a := .src x.regs .int, ms := [6, 7] }, x) := rfl
@[simp] theorem rowOf_clz (x : Fields) : rowOf (.clz x) = some ({ op := 2, fn := 4, d := .dst 1, a := .src x.regs .int, ms := [6, 7] }, x) := rfl
@[simp] theorem rowOf_brev (x : Fields) : rowOf (.brev x) = some ({ op := 2, fn := 5, d := .dst x.regs, a := .src x.regs .int, ms := [6, 7] }, x) := rfl
@[simp] theorem rowOf_prmb (x : Fields) : rowOf (.prmb x) = some ({ op := 2, fn := 6, d := .dst 1, a := s1, b := s1, ms := [6], imm := 0xFFFF }, x) := rfl
@[simp] theorem rowOf_icmp (x : Fields) : rowOf (.icmp x) = some (rowImm 0x03 1 0x80 .pred (.src x.regs .int) (.src x.regs .int) .raw allTypes x, x) := rfl
@[simp] theorem rowOf_pset (x : Fields) : rowOf (.pset x) = some ({ op := 3, fn := 2, d := .pred, a := .pred, b := .pred, imm := 0xF }, x) := rfl
@[simp] theorem rowOf_pmovR (x : Fields) : rowOf (.pmovR x) = some ({ op := 3, fn := 3, d := .dst 1 }, x) := rfl
@[simp] theorem rowOf_pmovP (x : Fields) : rowOf (.pmovP x) = some ({ op := 3, fn := 4, a := s1, imm := 0xFFF }, x) := rfl
@[simp] theorem rowOf_sel (x : Fields) : rowOf (.sel x) = some (rowImm 0x03 5 0x80 (.dst x.regs) (.src x.regs .int) (.src x.regs .int) .pred [6, 7] x, x) := rfl
@[simp] theorem rowOf_mov (x : Fields) : rowOf (.mov x) = some ({ op := 4, fn := 1, d := .dst x.regs, a := .src x.regs .int, ms := [6, 7] }, x) := rfl
@[simp] theorem rowOf_moviLo (x : Fields) : rowOf (.moviLo x) = some ({ op := 4, fn := 2, d := .dst 1, ms := [0], imm := 0xFFFF }, x) := rfl
@[simp] theorem rowOf_moviHi (x : Fields) : rowOf (.moviHi x) = some ({ op := 4, fn := 2, d := .rmw 1, ms := [1], imm := 0xFFFF }, x) := rfl
@[simp] theorem rowOf_moviS (x : Fields) : rowOf (.moviS x) = some ({ op := 4, fn := 2, d := .dst 1, ms := [2], imm := 0xFFFF }, x) := rfl
@[simp] theorem rowOf_movk (x : Fields) : rowOf (.movk x) = some ({ op := 4, fn := 3, d := .dst 1, a := s1, imm := 0xFFFF }, x) := rfl
@[simp] theorem rowOf_movx (x : Fields) : rowOf (.movx x) = some ({ op := 4, fn := 4, d := .dst 1, a := s1 }, x) := rfl
@[simp] theorem rowOf_movxs (x : Fields) : rowOf (.movxs x) = some ({ op := 4, fn := 5, a := s1, b := s1 }, x) := rfl
@[simp] theorem rowOf_lea (x : Fields) : rowOf (.lea x) = some ({ op := 4, fn := 6, d := .dst 2, a := s2, b := s1, ms := [0, 1, 2, 3, 4], imm := 0xFFFF }, x) := rfl
@[simp] theorem rowOf_leaN (x : Fields) : rowOf (.leaN x) = some ({ op := 4, fn := 7, d := .dst 2, a := s2, b := s1, ms := [0, 1, 2, 3, 4], imm := 0xFFFF }, x) := rfl
@[simp] theorem rowOf_widf (x : Fields) : rowOf (.widf x) = some ({ op := 4, fn := 8, d := .dst (if x.m = 1 then 2 else 1), ms := [0, 1], imm := 7 }, x) := rfl
@[simp] theorem rowOf_sysr (x : Fields) : rowOf (.sysr x) = some ({ op := 4, fn := 9, d := .dst 1, imm := 7 }, x) := rfl
@[simp] theorem rowOf_bra (x : Fields) : rowOf (.bra x) = some ({ op := 0x20, fn := 1, b := .raw, c := .raw, imm := 0xFFFF }, x) := rfl
@[simp] theorem rowOf_brx (x : Fields) : rowOf (.brx x) = some ({ op := 0x20, fn := 2, a := s2 }, x) := rfl
@[simp] theorem rowOf_call (x : Fields) : rowOf (.call x) = some ({ op := 0x20, fn := 3, b := .raw, c := .raw, imm := 0xFFFF }, x) := rfl
@[simp] theorem rowOf_callx (x : Fields) : rowOf (.callx x) = some ({ op := 0x20, fn := 4, a := s2 }, x) := rfl
@[simp] theorem rowOf_ret (x : Fields) : rowOf (.ret x) = some ({ op := 0x20, fn := 5 }, x) := rfl
@[simp] theorem rowOf_shfb (x : Fields) : rowOf (.shfb x) = some ({ op := 0x21, fn := 1, a := .pred, b := if x.m = 2 then .none else .pred, ms := [2, 3, 4], imm := 0xFFFF }, x) := rfl
@[simp] theorem rowOf_shfe (x : Fields) : rowOf (.shfe x) = some ({ op := 0x21, fn := 2 }, x) := rfl
@[simp] theorem rowOf_trap (x : Fields) : rowOf (.trap x) = some ({ op := 0x22, fn := 1, imm := 0xFFFF }, x) := rfl
@[simp] theorem rowOf_tret (x : Fields) : rowOf (.tret x) = some ({ op := 0x22, fn := 2, ms := [0] }, x) := rfl
@[simp] theorem rowOf_tretN (x : Fields) : rowOf (.tretN x) = some ({ op := 0x22, fn := 2, ms := [1] }, x) := rfl
@[simp] theorem rowOf_nop (x : Fields) : rowOf (.nop x) = some ({ op := 0x22, fn := 3 }, x) := rfl
@[simp] theorem rowOf_yield (x : Fields) : rowOf (.yield x) = some ({ op := 0x22, fn := 4 }, x) := rfl
@[simp] theorem rowOf_exit (x : Fields) : rowOf (.exit x) = some ({ op := 0x22, fn := 5 }, x) := rfl
@[simp] theorem rowOf_pulse (x : Fields) : rowOf (.pulse x) = some ({ op := 0x22, fn := 6 }, x) := rfl
@[simp] theorem rowOf_safept (x : Fields) : rowOf (.safept x) = some ({ op := 0x22, fn := 7 }, x) := rfl
@[simp] theorem rowOf_wspill (x : Fields) : rowOf (.wspill x) = some ({ op := 0x22, fn := 8 }, x) := rfl
@[simp] theorem rowOf_wfill (x : Fields) : rowOf (.wfill x) = some ({ op := 0x22, fn := 9 }, x) := rfl
@[simp] theorem rowOf_csrr (x : Fields) : rowOf (.csrr x) = some ({ op := 0x22, fn := 10, d := .dst (if x.m = 1 then 2 else 1), ms := [0, 1], imm := 0xFFF }, x) := rfl
@[simp] theorem rowOf_csrw (x : Fields) : rowOf (.csrw x) = some ({ op := 0x22, fn := 11, a := .src (if x.m = 1 then 2 else 1) .int, ms := [0, 1], imm := 0xFFF }, x) := rfl
@[simp] theorem rowOf_twnx (x : Fields) : rowOf (.twnx x) = some ({ op := 0x23, fn := 2, d := .pred, b := .dst 2 }, x) := rfl
@[simp] theorem rowOf_twlk (x : Fields) : rowOf (.twlk x) = some ({ op := 0x23, fn := 1, d := .dst 2, a := s2, ms := [0, 1] }, x) := rfl
@[simp] theorem rowOf_fadd (x : Fields) : rowOf (.fadd x) = some (rowF2 1 rounding, x) := rfl
@[simp] theorem rowOf_fsub (x : Fields) : rowOf (.fsub x) = some (rowF2 2 rounding, x) := rfl
@[simp] theorem rowOf_fmul (x : Fields) : rowOf (.fmul x) = some (rowF2 3 rounding, x) := rfl
@[simp] theorem rowOf_fma (x : Fields) : rowOf (.fma x) = some ({ rowF2 4 rounding with c := f1 }, x) := rfl
@[simp] theorem rowOf_fmin (x : Fields) : rowOf (.fmin x) = some (rowF2 5 [0], x) := rfl
@[simp] theorem rowOf_fmax (x : Fields) : rowOf (.fmax x) = some (rowF2 6 [0], x) := rfl
@[simp] theorem rowOf_fminx (x : Fields) : rowOf (.fminx x) = some (rowF2 7 [0], x) := rfl
@[simp] theorem rowOf_fmaxx (x : Fields) : rowOf (.fmaxx x) = some (rowF2 8 [0], x) := rfl
@[simp] theorem rowOf_fabs (x : Fields) : rowOf (.fabs x) = some (rowF1 1 0 [0], x) := rfl
@[simp] theorem rowOf_fneg (x : Fields) : rowOf (.fneg x) = some (rowF1 2 0 [0], x) := rfl
@[simp] theorem rowOf_fclass (x : Fields) : rowOf (.fclass x) = some (rowF1 3 0 [0], x) := rfl
@[simp] theorem rowOf_frnd (x : Fields) : rowOf (.frnd x) = some (rowF1 4 0x80 rounding, x) := rfl
@[simp] theorem rowOf_frcp (x : Fields) : rowOf (.frcp x) = some (rowF1 5 0x80 rounding, x) := rfl
@[simp] theorem rowOf_fsqrt (x : Fields) : rowOf (.fsqrt x) = some (rowF1 6 0x80 rounding, x) := rfl
@[simp] theorem rowOf_frsq (x : Fields) : rowOf (.frsq x) = some (rowF1 7 0x80 [0], x) := rfl
@[simp] theorem rowOf_fexp2 (x : Fields) : rowOf (.fexp2 x) = some (rowF1 8 0x80 [0], x) := rfl
@[simp] theorem rowOf_flog2 (x : Fields) : rowOf (.flog2 x) = some (rowF1 9 0x80 [0], x) := rfl
@[simp] theorem rowOf_fsin (x : Fields) : rowOf (.fsin x) = some (rowF1 10 0x80 [0], x) := rfl
@[simp] theorem rowOf_fcos (x : Fields) : rowOf (.fcos x) = some (rowF1 11 0x80 [0], x) := rfl
@[simp] theorem rowOf_fcmp (x : Fields) : rowOf (.fcmp x) = some ({ op := 0x32, fn := 1, fnMask := 0x80, d := .pred, a := f1, b := f1, c := .raw }, x) := rfl
@[simp] theorem rowOf_cvt (x : Fields) : rowOf (.cvt x) = some ({ op := 0x33, fn := 0, fnMask := 0xFF, d := if cvtWidth x.dstFmt < 32 then .rmw 1 else .dst (cvtRegs x.dstFmt), a := .src (cvtRegs x.srcFmt) (cvtPoison x.srcFmt), ms := rounding, imm := 0x1F83 }, x) := rfl
@[simp] theorem rowOf_cvtBs (x : Fields) : rowOf (.cvtBs x) = some ({ op := 0x33, fn := 0, fnMask := 0xFF, d := if cvtWidth x.dstFmt < 32 then .rmw 1 else .dst 1, a := .src 1 (cvtPoison x.srcFmt), c := s1, imm := 0x1F86 }, x) := rfl
@[simp] theorem rowOf_hadd2 (x : Fields) : rowOf (.hadd2 x) = some (rowH 1 false x, x) := rfl
@[simp] theorem rowOf_hsub2 (x : Fields) : rowOf (.hsub2 x) = some (rowH 2 false x, x) := rfl
@[simp] theorem rowOf_hmul2 (x : Fields) : rowOf (.hmul2 x) = some (rowH 3 false x, x) := rfl
@[simp] theorem rowOf_hfma2 (x : Fields) : rowOf (.hfma2 x) = some (rowH 4 true x, x) := rfl
@[simp] theorem rowOf_dot4 (x : Fields) : rowOf (.dot4 x) = some ({ op := 0x35, fn := 1, fnMask := 0xC0, d := .dst 1, a := .src 1 (dotFmt x 0), b := .src 1 (dotFmt x 1), c := if x.kind = 3 then f1 else s1, ms := if x.kind = 3 then rounding else [0], imm := if x.kind = 3 then 3 else 4 }, x) := rfl
@[simp] theorem rowOf_dot8 (x : Fields) : rowOf (.dot8 x) = some ({ op := 0x35, fn := 2, fnMask := 0xC0, d := .dst 1, a := s1, b := s1, c := if x.kind = 3 then f1 else s1, ms := if x.kind = 3 then rounding else [0], imm := if x.kind = 3 then 0 else 4 }, x) := rfl
@[simp] theorem rowOf_dot2h (x : Fields) : rowOf (.dot2h x) =
      let p := Role.src 1 (if x.kind = 1 then .bf16 else .f16)
      some ({ op := 0x35, fn := 3, fnMask := 0x40, d := .dst 1, a := p, b := p, c := f1, ms := rounding }, x) := rfl
@[simp] theorem rowOf_qsc (x : Fields) : rowOf (.qsc x) = some ({ op := 0x35, fn := 4, d := .dst 1, a := f1, b := s1, ms := rounding }, x) := rfl
@[simp] theorem rowOf_fkey (x : Fields) : rowOf (.fkey x) = some ({ op := 0x36, fn := 1, d := .dst 2, a := .src 1 .f16, b := s1, imm := 1 }, x) := rfl
@[simp] theorem rowOf_wnw (x : Fields) : rowOf (.wnw x) = some ({ op := 0x37, fn := 1, d := .pred, a := s1, b := .dst 1, c := s1, imm := 0xFFFF }, x) := rfl
@[simp] theorem rowOf_wnwCt (x : Fields) : rowOf (.wnwCt x) = some ({ op := 0x37, fn := 2, d := .pred, a := s1, b := .dst 1, imm := 0xFFFF }, x) := rfl
@[simp] theorem rowOf_titheS (x : Fields) : rowOf (.titheS x) = some ({ op := 0x37, fn := 3, d := .pred, a := s1, b := s1, c := s1 }, x) := rfl
@[simp] theorem rowOf_titheC (x : Fields) : rowOf (.titheC x) = some ({ op := 0x37, fn := 4, a := s1, b := s1 }, x) := rfl
@[simp] theorem rowOf_apxexp2 (x : Fields) : rowOf (.apxexp2 x) = some ({ op := 0x37, fn := 5, d := .dst 1, a := f1 }, x) := rfl
@[simp] theorem rowOf_apxrcp (x : Fields) : rowOf (.apxrcp x) = some ({ op := 0x37, fn := 6, d := .dst 1, a := f1 }, x) := rfl
@[simp] theorem rowOf_ld (x : Fields) : rowOf (.ld x) = some ({ op := 0x48, fn := 0, fnMask := 0x1F, d := .dst (sizeRegs x.sizeCode), a := s2, ms := if x.fn.getLsbD 4 then anyScope else [0], imm := 0xFFFF }, x) := rfl
@[simp] theorem rowOf_st (x : Fields) : rowOf (.st x) = some ({ op := 0x49, fn := 0, fnMask := 0x27, a := s2, b := .src (sizeRegs x.sizeCode) .int, ms := if x.fn.getLsbD 5 then anyScope else [0], imm := 0xFFFF }, x) := rfl
@[simp] theorem rowOf_lds (x : Fields) : rowOf (.lds x) = some ({ op := 0x4A, fn := 1, fnMask := 0x40, d := .dst (sizeRegs x.m.toNat), a := s1, ms := [1, 2, 3, 4, 5], imm := 0xFFFF }, x) := rfl
@[simp] theorem rowOf_sts (x : Fields) : rowOf (.sts x) = some ({ op := 0x4A, fn := 2, a := s1, b := .src (sizeRegs x.m.toNat) .int, ms := [1, 2, 3, 4, 5], imm := 0xFFFF }, x) := rfl
@[simp] theorem rowOf_ldt (x : Fields) : rowOf (.ldt x) = some ({ op := 0x4A, fn := 3, fnMask := 0x40, d := .dst 1, a := s1, b := s1, c := s1, imm := 0xF }, x) := rfl
@[simp] theorem rowOf_ldk (x : Fields) : rowOf (.ldk x) = some ({ op := 0x4A, fn := 4, d := .dst 1, a := s1, imm := 0xFFFF }, x) := rfl
@[simp] theorem rowOf_atomAdd (x : Fields) : rowOf (.atomAdd x) = some (rowAtom 1 false x, x) := rfl
@[simp] theorem rowOf_atomSub (x : Fields) : rowOf (.atomSub x) = some (rowAtom 2 false x, x) := rfl
@[simp] theorem rowOf_atomMinN (x : Fields) : rowOf (.atomMinN x) = some (rowAtom 3 false x, x) := rfl
@[simp] theorem rowOf_atomMaxN (x : Fields) : rowOf (.atomMaxN x) = some (rowAtom 4 false x, x) := rfl
@[simp] theorem rowOf_atomAnd (x : Fields) : rowOf (.atomAnd x) = some (rowAtom 5 false x, x) := rfl
@[simp] theorem rowOf_atomOr (x : Fields) : rowOf (.atomOr x) = some (rowAtom 6 false x, x) := rfl
@[simp] theorem rowOf_atomXor (x : Fields) : rowOf (.atomXor x) = some (rowAtom 7 false x, x) := rfl
@[simp] theorem rowOf_atomXchg (x : Fields) : rowOf (.atomXchg x) = some (rowAtom 8 false x, x) := rfl
@[simp] theorem rowOf_atomCas (x : Fields) : rowOf (.atomCas x) = some (rowAtom 9 true x, x) := rfl
@[simp] theorem rowOf_atomInc (x : Fields) : rowOf (.atomInc x) = some (rowAtom 10 false x, x) := rfl
@[simp] theorem rowOf_atomDec (x : Fields) : rowOf (.atomDec x) = some (rowAtom 11 false x, x) := rfl
@[simp] theorem rowOf_atomMinS (x : Fields) : rowOf (.atomMinS x) = some (rowAtom 12 false x, x) := rfl
@[simp] theorem rowOf_atomMaxS (x : Fields) : rowOf (.atomMaxS x) = some (rowAtom 13 false x, x) := rfl
@[simp] theorem rowOf_afadd (x : Fields) : rowOf (.afadd x) = some (rowAtomX 16 0xE0 1 x, x) := rfl
@[simp] theorem rowOf_amxf (x : Fields) : rowOf (.amxf x) = some (rowAtomX 17 0xC0 1 x, x) := rfl
@[simp] theorem rowOf_amxi (x : Fields) : rowOf (.amxi x) = some (rowAtomX 0x32 0xC0 2 x, x) := rfl
@[simp] theorem rowOf_red (x : Fields) : rowOf (.red x) = some ({ rowAtom (x.fn.toNat % 32) (x.fn.toNat % 32 == 9) x with d := .raw }, x) := rfl
@[simp] theorem rowOf_redFadd (x : Fields) : rowOf (.redFadd x) = some ({ rowAtomX 16 0xE0 1 x with d := .raw }, x) := rfl
@[simp] theorem rowOf_redAmxf (x : Fields) : rowOf (.redAmxf x) = some ({ rowAtomX 17 0xC0 1 x with d := .raw }, x) := rfl
@[simp] theorem rowOf_redAmxi (x : Fields) : rowOf (.redAmxi x) = some ({ rowAtomX 0x32 0xC0 2 x with d := .raw }, x) := rfl
@[simp] theorem rowOf_fence (x : Fields) : rowOf (.fence x) = some ({ op := 0x4C, fn := 1, a := s2, b := s1, ms := anyScope, imm := 7 }, x) := rfl
@[simp] theorem rowOf_pref (x : Fields) : rowOf (.pref x) = some ({ op := 0x4C, fn := 2, fnMask := 0xC0, a := s2, ms := [0, 1], imm := 0xFFFF }, x) := rfl
@[simp] theorem rowOf_evict (x : Fields) : rowOf (.evict x) = some ({ op := 0x4C, fn := 3, fnMask := 0xC0, a := s2, ms := [0, 1], imm := 0xFFFF }, x) := rfl
@[simp] theorem rowOf_bcpG2s (x : Fields) : rowOf (.bcpG2s x) = some (rowCopy 1 0 s2 s1 3, x) := rfl
@[simp] theorem rowOf_bcpS2g (x : Fields) : rowOf (.bcpS2g x) = some (rowCopy 1 1 s1 s2 3, x) := rfl
@[simp] theorem rowOf_bcpS2s (x : Fields) : rowOf (.bcpS2s x) = some (rowCopy 1 2 s1 s1 3, x) := rfl
@[simp] theorem rowOf_bcps (x : Fields) : rowOf (.bcps x) = some (rowCopy 2 0 s1 s1 0x1C3, x) := rfl
@[simp] theorem rowOf_bcpq (x : Fields) : rowOf (.bcpq x) = some ({ rowCopy 3 0 (if x.m = 0 then s2 else s1) .none 0x3F with ms := [0, 2] }, x) := rfl
@[simp] theorem rowOf_bcpm (x : Fields) : rowOf (.bcpm x) = some ({ rowCopy 4 0 (if x.m = 0 then s2 else s1) .none 0x3FFF with ms := [0, 2] }, x) := rfl
@[simp] theorem rowOf_bcpUnpk4s (x : Fields) : rowOf (.bcpUnpk4s x) = some (rowCopy 5 0 s2 s1 3, x) := rfl
@[simp] theorem rowOf_bcpUnpk4f (x : Fields) : rowOf (.bcpUnpk4f x) = some (rowCopy 6 0 s2 s1 3, x) := rfl
@[simp] theorem rowOf_bcpUnpk8s (x : Fields) : rowOf (.bcpUnpk8s x) = some (rowCopy 7 0 s2 s1 3, x) := rfl
@[simp] theorem rowOf_bcpUnpk8f (x : Fields) : rowOf (.bcpUnpk8f x) = some (rowCopy 8 0 s2 s1 3, x) := rfl
@[simp] theorem rowOf_qdef (x : Fields) : rowOf (.qdef x) = some ({ op := 0x61, fn := 1, a := s1, b := s1, imm := 0xFF }, x) := rfl
@[simp] theorem rowOf_qpopE (x : Fields) : rowOf (.qpopE x) = some ({ op := 0x61, fn := 2, d := .dst 1, imm := 0xF }, x) := rfl
@[simp] theorem rowOf_qpopF (x : Fields) : rowOf (.qpopF x) = some ({ op := 0x61, fn := 3, d := .dst 1, imm := 0xF }, x) := rfl
@[simp] theorem rowOf_qpushF (x : Fields) : rowOf (.qpushF x) = some ({ op := 0x61, fn := 4, a := s1, imm := 0xF }, x) := rfl
@[simp] theorem rowOf_qpushE (x : Fields) : rowOf (.qpushE x) = some ({ op := 0x61, fn := 5, a := s1, imm := 0xF }, x) := rfl
@[simp] theorem rowOf_qstat (x : Fields) : rowOf (.qstat x) = some ({ op := 0x61, fn := 6, d := .dst 1, imm := 0xF }, x) := rfl
@[simp] theorem rowOf_send (x : Fields) : rowOf (.send x) = some ({ op := 0x62, fn := 1, a := s1, b := s2, imm := 0xFFFF }, x) := rfl
@[simp] theorem rowOf_recv (x : Fields) : rowOf (.recv x) = some ({ op := 0x62, fn := 2, d := .dst 2, imm := 0xFFFF }, x) := rfl
@[simp] theorem rowOf_recvw (x : Fields) : rowOf (.recvw x) = some ({ op := 0x62, fn := 3, d := .dst 2, c := .dst 1, imm := 0xFFFF }, x) := rfl
@[simp] theorem rowOf_tcw (x : Fields) : rowOf (.tcw x) = some ({ op := 0x63, fn := 1, b := s2, imm := 3 }, x) := rfl
@[simp] theorem rowOf_tcwT (x : Fields) : rowOf (.tcwT x) = some ({ op := 0x63, fn := 2, d := .pred, b := s2, imm := 3 }, x) := rfl
@[simp] theorem rowOf_tlw (x : Fields) : rowOf (.tlw x) = some ({ op := 0x63, fn := 3, a := s2, b := s2, ms := [1, 2, 3, 4], imm := 1 }, x) := rfl
@[simp] theorem rowOf_tlwT (x : Fields) : rowOf (.tlwT x) = some ({ op := 0x63, fn := 4, d := .pred, a := s2, b := s2, ms := [1, 2, 3, 4] }, x) := rfl
@[simp] theorem rowOf_tladv (x : Fields) : rowOf (.tladv x) = some ({ op := 0x63, fn := 5, a := s2, b := s2, ms := [1, 2, 3, 4] }, x) := rfl
@[simp] theorem rowOf_bari (x : Fields) : rowOf (.bari x) = some ({ op := 0x64, fn := 1, a := s1, imm := 0xF }, x) := rfl
@[simp] theorem rowOf_bara (x : Fields) : rowOf (.bara x) = some ({ op := 0x64, fn := 2, d := .dst 1, imm := 0xF }, x) := rfl
@[simp] theorem rowOf_barw (x : Fields) : rowOf (.barw x) = some ({ op := 0x64, fn := 3, d := .pred, a := s1, c := .dst 1, imm := 0xF }, x) := rfl
@[simp] theorem rowOf_coll (x : Fields) : rowOf (.coll x) = some ({ op := 0x65, fn := 1, d := .stat, a := s2, imm := 3 }, x) := rfl
@[simp] theorem rowOf_cvdef (x : Fields) : rowOf (.cvdef x) = some ({ op := 0x70, fn := 1, a := s1, imm := 7 }, x) := rfl
@[simp] theorem rowOf_mmaR (x : Fields) : rowOf (.mmaR x) = some (rowMma 2 s4 0x787F, x) := rfl
@[simp] theorem rowOf_mmaS (x : Fields) : rowOf (.mmaS x) = some (rowMma 3 .none 0x7FFF, x) := rfl
@[simp] theorem rowOf_mmaPR (x : Fields) : rowOf (.mmaPR x) = some (rowMma 4 s4 0x787F, x) := rfl
@[simp] theorem rowOf_mmaPS (x : Fields) : rowOf (.mmaPS x) = some (rowMma 5 .none 0x7FFF, x) := rfl
@[simp] theorem rowOf_mmaz (x : Fields) : rowOf (.mmaz x) = some ({ op := 0x71, fn := 1, imm := 0xF }, x) := rfl
@[simp] theorem rowOf_maccr (x : Fields) : rowOf (.maccr x) = some ({ op := 0x71, fn := 2, d := .dst 4, a := s1, imm := 0xF }, x) := rfl
@[simp] theorem rowOf_maccw (x : Fields) : rowOf (.maccw x) = some ({ op := 0x71, fn := 3, a := s1, b := s4, imm := 0xF }, x) := rfl
@[simp] theorem rowOf_maccl (x : Fields) : rowOf (.maccl x) = some ({ op := 0x71, fn := 4, imm := 0xFFFF }, x) := rfl
@[simp] theorem rowOf_maccs (x : Fields) : rowOf (.maccs x) = some ({ op := 0x71, fn := 5, imm := 0xFFFF }, x) := rfl
@[simp] theorem rowOf_mscl (x : Fields) : rowOf (.mscl x) = some ({ op := 0x72, fn := 1, a := s1, ms := [0, 1], imm := 0xFF }, x) := rfl
@[simp] theorem rowOf_mqnt (x : Fields) : rowOf (.mqnt x) = some ({ op := 0x72, fn := 2, a := s2, b := s1, ms := [0, 1, 2, 3, 4], imm := 0xFF }, x) := rfl
@[simp] theorem rowOf_mamax (x : Fields) : rowOf (.mamax x) = some ({ op := 0x72, fn := 3, a := s2, imm := 0xF }, x) := rfl
@[simp] theorem rowOf_mvtx (x : Fields) : rowOf (.mvtx x) = some ({ op := 0x78, fn := 1, a := s1, b := s1, c := s4 }, x) := rfl
@[simp] theorem rowOf_mprim (x : Fields) : rowOf (.mprim x) = some ({ op := 0x78, fn := 2, a := s1, b := s1, c := s1 }, x) := rfl
@[simp] theorem rowOf_memit (x : Fields) : rowOf (.memit x) = some ({ op := 0x78, fn := 3, a := s1, b := s1, c := s1, imm := 0x1FFC }, x) := rfl
@[simp] theorem rowOf_vamp (x : Fields) : rowOf (.vamp x) = some ({ op := 0x79, fn := 1, a := s1, b := s1, imm := 3 }, x) := rfl
@[simp] theorem rowOf_vwarpX (x : Fields) : rowOf (.vwarpX x) = some ({ op := 0x79, fn := 2, d := .dst 4, a := s1, b := s1, ms := [0], imm := 3 }, x) := rfl
@[simp] theorem rowOf_vwarpY (x : Fields) : rowOf (.vwarpY x) = some ({ op := 0x79, fn := 2, d := .dst 4, a := s1, b := s1, ms := [1], imm := 3 }, x) := rfl
@[simp] theorem rowOf_gzlt (x : Fields) : rowOf (.gzlt x) = some ({ op := 0x79, fn := 3, d := .dst 4, a := s1, imm := 3 }, x) := rfl
@[simp] theorem rowOf_smpl (x : Fields) : rowOf (.smpl x) = some ({ op := 0x79, fn := 4, d := .dst 2, a := s1, b := s1, imm := 3 }, x) := rfl
@[simp] theorem rowOf_tileo (x : Fields) : rowOf (.tileo x) = some ({ op := 0x7A, fn := 1, d := .stat, a := s1, b := s1, imm := 0xF }, x) := rfl
@[simp] theorem rowOf_lens (x : Fields) : rowOf (.lens x) = some ({ op := 0x7A, fn := 2, d := .stat, a := s1, b := s1, imm := 0xF }, x) := rfl
@[simp] theorem rowOf_serq (x : Fields) : rowOf (.serq x) = some ({ op := 0x7A, fn := 3, d := .dst 1, a := s1, b := s1, imm := 3 }, x) := rfl
@[simp] theorem rowOf_texB (x : Fields) : rowOf (.texB x) = some ({ op := 0x7B, fn := 1, d := .dst 4, a := s1, b := .src 2 .f32, ms := [0], imm := 0xF }, x) := rfl
@[simp] theorem rowOf_texT (x : Fields) : rowOf (.texT x) = some ({ op := 0x7B, fn := 1, d := .dst 4, a := s1, b := .src 2 .f32, c := f1, ms := [1], imm := 0xF }, x) := rfl
@[simp] theorem rowOf_texA (x : Fields) : rowOf (.texA x) = some ({ op := 0x7B, fn := 1, d := .dst 4, a := s1, b := .src 2 .f32, c := .src 2 .f32, ms := [2], imm := 0xF }, x) := rfl
@[simp] theorem rowOf_texg (x : Fields) : rowOf (.texg x) = some ({ op := 0x7B, fn := 2, d := .dst 4, a := s1, b := .src 2 .f32, ms := [0, 1, 2, 3], imm := 0xF }, x) := rfl
@[simp] theorem rowOf_texq (x : Fields) : rowOf (.texq x) = some ({ op := 0x7B, fn := 3, d := .dst 4, a := s1, b := s1, imm := 0xF }, x) := rfl
@[simp] theorem rowOf_ryl (x : Fields) : rowOf (.ryl x) = some ({ op := 0x7C, fn := 1, a := s1, imm := 1 }, x) := rfl
@[simp] theorem rowOf_rylV (x : Fields) : rowOf (.rylV x) = some ({ op := 0x7C, fn := 2, a := s1, b := s1, c := s1, imm := 7 }, x) := rfl
@[simp] theorem rowOf_ryt (x : Fields) : rowOf (.ryt x) = some ({ op := 0x7C, fn := 3, d := .dst 1, a := s1 }, x) := rfl
@[simp] theorem rowOf_ryrM (x : Fields) : rowOf (.ryrM x) = some ({ op := 0x7C, fn := 4, d := .dst 1, a := s1, ms := [0] }, x) := rfl
@[simp] theorem rowOf_ryrH (x : Fields) : rowOf (.ryrH x) = some ({ op := 0x7C, fn := 4, d := .dst 1, a := s1, b := f1, c := s1, ms := [1] }, x) := rfl
@[simp] theorem rowOf_rys (x : Fields) : rowOf (.rys x) = some ({ op := 0x7C, fn := 5, d := .dst 4, a := s1 }, x) := rfl
@[simp] theorem rowOf_ryh (x : Fields) : rowOf (.ryh x) = some ({ op := 0x7C, fn := 6, d := .dst 4, a := s1 }, x) := rfl
@[simp] theorem rowOf_ryx (x : Fields) : rowOf (.ryx x) = some ({ op := 0x7C, fn := 7, a := s1 }, x) := rfl
@[simp] theorem rowOf_pairWord (p q : Slot) : rowOf (.pairWord p q) = none := rfl

end Sys2Proof.Machine
end

