-- ==== Sys2Proof/Laws/Integer.lean ====
section
/-!
SUPPORT. Integer operands and results as bit strings: reading by type, clamping, and writing by type.
-/
namespace Sys2Proof.Machine

theorem width_cases (x : Fields) : (x.width = 64 ∧ x.regs = 2) ∨ (x.regs = 1 ∧ (x.width = 8 ∨ x.width = 16 ∨ x.width = 32)) := by
  unfold Fields.width Fields.regs
  have := x.m.isLt
  have h : x.m.toNat % 4 < 4 := Nat.mod_lt _ (by decide)
  interval_cases x.m.toNat % 4 <;> simp

theorem sext_eq (v n : Nat) (hn : 0 < n) : sext v n = (BitVec.ofNat n v).toInt := by
  unfold sext
  rw [BitVec.toInt_eq_toNat_cond, BitVec.toNat_ofNat]
  obtain ⟨k, rfl⟩ : ∃ k, n = k + 1 := ⟨n - 1, by omega⟩
  have h2 : 2 ^ (k + 1) = 2 * 2 ^ k := by ring
  simp only [Nat.add_sub_cancel]
  have : (v % 2 ^ (k+1) < 2 ^ k) ↔ (2 * (v % 2^(k+1)) < 2 ^ (k+1)) := by omega
  split <;> rename_i h <;> simp_all

theorem modPow_eq (r : Int) (n : Nat) : modPow r n = (BitVec.ofInt n r).toNat := by
  unfold modPow; rw [BitVec.toNat_ofInt]

theorem width_pos (x : Fields) : 0 < x.width := by
  rcases width_cases x with ⟨h, -⟩ | ⟨-, h | h | h⟩ <;> omega

theorem srcOf_eq (x : Fields) (v : Nat) : Fields.srcOf x v = x.value (BitVec.ofNat x.width v) := by
  unfold Fields.srcOf Fields.value
  rw [sext_eq _ _ (width_pos x)]; simp

theorem src_eq (v : Lane) (x : Fields) (sel) : v.src x sel = x.value (v.operand x sel) := srcOf_eq x _

theorem immSrc_eq (x : Fields) : Fields.immSrc x = x.value (Fields.immediate x) := by
  unfold Fields.immSrc Fields.immediate
  rw [srcOf_eq, modPow_eq]
  congr 1
  apply BitVec.eq_of_toNat_eq
  have : x.width ≤ 64 := by rcases width_cases x with ⟨h, -⟩ | ⟨-, h | h | h⟩ <;> omega
  have hd : ((2 ^ x.width : Nat) : Int) ∣ ((2 ^ 64 : Nat) : Int) := Int.natCast_dvd_natCast.mpr (Nat.pow_dvd_pow 2 this)
  by_cases hs : x.signed = true <;> simp only [hs, if_true, Bool.false_eq_true, if_false]
  · rw [sext_eq _ _ (by decide), show BitVec.ofNat 16 x.imm.toNat = x.imm by simp, BitVec.signExtend, BitVec.toNat_ofInt, BitVec.toNat_ofInt, BitVec.toNat_ofNat]
    have h := Int.emod_emod_of_dvd x.imm.toInt hd
    have h0 : 0 ≤ x.imm.toInt % ((2 ^ 64 : Nat) : Int) := Int.emod_nonneg _ (by decide)
    have h1 : (((x.imm.toInt % ((2 ^ 64 : Nat) : Int)).toNat : Nat) : Int) = x.imm.toInt % ((2 ^ 64 : Nat) : Int) := Int.toNat_of_nonneg h0
    rw [← h, ← h1, ← Int.natCast_mod]; rfl
  · rw [BitVec.toNat_ofInt, BitVec.toNat_ofNat, BitVec.toNat_setWidth]
    congr 1
    have := x.imm.isLt
    simp; omega

theorem srcB_eq (v : Lane) (x : Fields) : v.srcB x = x.value (v.operandB x) := by
  unfold Lane.srcB Lane.operandB
  split
  · exact immSrc_eq x
  · exact src_eq v x _

theorem clamp_eq (x : Fields) (r : Int) : modPow (clampInt x.width x.signed r) x.width = (x.saturated r).toNat := by
  rw [modPow_eq]; unfold clampInt Fields.saturated
  congr 2
  have h1 : (0 : Int) < (2 ^ (x.width - 1) : Nat) := by positivity
  have h2 : (0 : Int) < (2 ^ (x.width) : Nat) := by positivity
  generalize ((2 ^ (x.width - 1) : Nat) : Int) = a at *
  generalize ((2 ^ (x.width) : Nat) : Int) = b at *
  split
  · split_ifs <;> omega
  · split_ifs <;> omega

theorem dstInt_eq (v : Lane) (s : State) (x : Fields) (r : Int) :
    v.dstInt s x r = v.wr s x.regs x.d (x.extended (if x.sat then x.saturated r else BitVec.ofInt x.width r)) := by
  have hu : modPow (if x.sat then clampInt x.width x.signed r else r) x.width = (if x.sat then x.saturated r else BitVec.ofInt x.width r).toNat := by
    split
    · exact clamp_eq x r
    · exact modPow_eq r _
  unfold Lane.dstInt
  simp only [hu]
  generalize (if x.sat then x.saturated r else BitVec.ofInt x.width r) = u
  unfold Fields.extended
  rcases width_cases x with ⟨h, h2⟩ | ⟨h2, h⟩
  · simp [h2]
  · simp only [h2, Nat.reduceEqDiff, if_false]
    congr 1
    split
    · rw [modPow_eq, sext_eq _ _ (width_pos x)]; simp [BitVec.signExtend]
    · have := u.isLt
      rw [BitVec.toNat_setWidth, Nat.mod_eq_of_lt]
      refine lt_of_lt_of_le this (Nat.pow_le_pow_right (by decide) ?_)
      omega

theorem ofInt_value (x : Fields) (u : BitVec x.width) : BitVec.ofInt x.width (x.value u) = u := by
  unfold Fields.value; split <;> simp


theorem Issues.ok {i r x s vs} (h : Issues i r x s vs) : r.ok x = true ∧ extraOk i = true := by
  have hl := h.legal
  simp only [wellFormed, legalWord, h.row, Bool.and_eq_true] at hl
  exact ⟨hl.1.1, hl.2⟩

theorem row_ms {r : Row} {x : Fields} (h : r.ok x = true) : x.m.toNat ∈ r.ms := by
  simp only [Row.ok, Bool.and_eq_true, List.contains_iff_mem] at h
  exact h.1.2

theorem row_fn {r : Row} {x : Fields} (h : r.ok x = true) : x.fn.toNat &&& (0xFF - r.fnMask) = r.fn := by
  simp only [Row.ok, Bool.and_eq_true, beq_iff_eq] at h
  exact h.1.1.1.1.1.1

theorem row_imm {r : Row} {x : Fields} (h : r.ok x = true) : x.imm.toNat &&& (0xFFFF - r.imm) = 0 := by
  simp only [Row.ok, Bool.and_eq_true, beq_iff_eq] at h
  exact h.2

/-- A bit of FN that a row neither admits nor sets is clear. -/
theorem row_fn_bit {r : Row} {x : Fields} (h : r.ok x = true) (k : Nat) (h1 : (0xFF - r.fnMask).testBit k = true) (h2 : r.fn.testBit k = false) :
    x.fn.getLsbD k = false := by
  have e := congrArg (fun n => n.testBit k) (row_fn h)
  simp only [Nat.testBit_and, h1, h2, Bool.and_true] at e
  exact e

theorem clz_bitLen {w : Nat} (hw : 0 < w) (u : BitVec w) : w - bitLen u.toNat = u.clz.toNat := by
  unfold bitLen
  by_cases h : u = 0
  · subst h
    have : (0#w).clz = BitVec.ofNat w w := by simpa using (BitVec.clz_eq_iff_eq_zero (x := 0#w)).mpr rfl
    simp [this, Nat.mod_eq_of_lt Nat.lt_two_pow_self]
  · have hu : u.toNat ≠ 0 := fun e => h (BitVec.eq_of_toNat_eq (by simpa using e))
    have h1 := BitVec.two_pow_sub_clz_le_toNat_of_ne_zero hw h
    have h2 : u.toNat < 2 ^ (w - u.clz.toNat) := BitVec.toNat_lt_two_pow_sub_clz
    have h3 : u.clz.toNat < w := by
      by_contra h4
      have : w - u.clz.toNat = 0 := by omega
      rw [this] at h2; exact hu (by omega)
    have h4 : u.toNat.log2 = w - 1 - u.clz.toNat := by
      rw [Nat.log2_eq_iff hu]
      refine ⟨h1, ?_⟩
      rwa [show w - 1 - u.clz.toNat + 1 = w - u.clz.toNat by omega]
    rw [if_neg hu, h4]; omega

theorem foldl_add_bits (n : Nat) (f : Nat → Bool) : ∀ w, w ≤ n →
    (((List.range w).map fun i => boolNat (f i) * 2 ^ (n - 1 - i)).foldl (· + ·) 0) =
      2 ^ (n - w) * ((List.range w).foldl (fun acc i => 2 * acc + boolNat (f i)) 0) := by
  intro w hw
  induction w with
  | zero => simp
  | succ w ih =>
    rw [List.range_succ, List.map_append, List.foldl_append, ih (by omega), List.foldl_append]
    simp only [List.map_cons, List.map_nil, List.foldl_cons, List.foldl_nil]
    rw [show n - w = (n - (w + 1)) + 1 by omega, show n - 1 - w = n - (w + 1) by omega]
    ring

theorem bitReverse_eq {w : Nat} (u : BitVec w) : bitReverse w u.toNat = u.reverse.toNat := by
  unfold bitReverse
  rw [foldl_add_bits w _ w le_rfl]
  simp only [Nat.sub_self, pow_zero, one_mul]
  have key : ∀ k, k ≤ w → (List.range k).foldl (fun acc i => 2 * acc + boolNat (u.toNat.testBit i)) 0 = u.reverse.toNat / 2 ^ (w - k) := by
    intro k hk
    induction k with
    | zero => simp [Nat.div_eq_of_lt u.reverse.isLt]
    | succ k ih =>
      rw [List.range_succ, List.foldl_append, ih (by omega)]
      simp only [List.foldl_cons, List.foldl_nil]
      have e : u.reverse.toNat / 2 ^ (w - (k + 1)) / 2 = u.reverse.toNat / 2 ^ (w - k) := by
        rw [Nat.div_div_eq_div_mul, ← pow_succ, show w - (k + 1) + 1 = w - k by omega]
      have e2 : boolNat (u.toNat.testBit k) = u.reverse.toNat / 2 ^ (w - (k + 1)) % 2 := by
        have := BitVec.getLsbD_reverse (x := u) (i := w - (k + 1))
        rw [BitVec.getMsbD] at this
        have hk' : w - (k + 1) < w := by omega
        simp only [hk', decide_true, Bool.true_and, show w - 1 - (w - (k + 1)) = k by omega] at this
        simp only [BitVec.getLsbD] at this
        rw [← this, Nat.testBit_eq_decide_div_mod_eq]
        have := Nat.mod_two_eq_zero_or_one (u.reverse.toNat / 2 ^ (w - (k + 1)))
        rcases this with h | h <;> simp [h, boolNat]
      omega
  simpa using key w le_rfl

theorem bfx_eq (a : Word) (pos len : Nat) (signed : Bool) :
    (if signed && len != 0 then modPow (sext ((a.toNat / 2 ^ pos) % 2 ^ len) len) 32 else (a.toNat / 2 ^ pos) % 2 ^ len) =
      (if signed then (a.extractLsb' pos len).signExtend 32 else (a.extractLsb' pos len).setWidth 32).toNat := by
  have e : a.toNat / 2 ^ pos % 2 ^ len = (a.extractLsb' pos len).toNat := by
    rw [BitVec.extractLsb'_toNat, Nat.shiftRight_eq_div_pow]
  rw [e]
  by_cases h0 : len = 0
  · subst h0
    have : a.extractLsb' pos 0 = 0#0 := by apply BitVec.eq_of_getLsbD_eq; intro i hi; omega
    cases signed <;> simp
  · cases signed
    · simp only [Bool.false_and, Bool.false_eq_true, if_false, BitVec.toNat_setWidth]
      rw [Nat.mod_eq_of_lt]
      rw [← e]
      exact lt_of_le_of_lt (Nat.mod_le _ _) (lt_of_le_of_lt (Nat.div_le_self _ _) a.isLt)
    · have h1 : (len != 0) = true := by simpa using h0
      simp only [h1, Bool.and_self, if_true]
      rw [modPow_eq, sext_eq _ _ (by omega)]
      rw [BitVec.ofNat_toNat, BitVec.setWidth_eq, BitVec.signExtend]

theorem bfi_eq (d a : Word) (pos len : Nat) (h : pos + len ≤ 32) :
    d.toNat - (d.toNat / 2 ^ pos % 2 ^ len) * 2 ^ pos + (a.toNat % 2 ^ len) * 2 ^ pos =
      ((d &&& ~~~((BitVec.allOnes len).setWidth 32 <<< pos)) ||| ((a <<< pos) &&& ((BitVec.allOnes len).setWidth 32 <<< pos))).toNat := by
  have hd : d.toNat = 2 ^ (pos + len) * (d.toNat / 2 ^ (pos + len)) + (2 ^ pos * (d.toNat / 2 ^ pos % 2 ^ len) + d.toNat % 2 ^ pos) := by
    have h1 := Nat.div_add_mod d.toNat (2 ^ pos)
    have h2 := Nat.div_add_mod (d.toNat / 2 ^ pos) (2 ^ len)
    rw [Nat.div_div_eq_div_mul, ← pow_add] at h2
    calc d.toNat = 2 ^ pos * (d.toNat / 2 ^ pos) + d.toNat % 2 ^ pos := h1.symm
      _ = 2 ^ pos * (2 ^ len * (d.toNat / 2 ^ (pos + len)) + d.toNat / 2 ^ pos % 2 ^ len) + d.toNat % 2 ^ pos := by rw [h2]
      _ = _ := by rw [pow_add]; ring
  have hl : d.toNat - (d.toNat / 2 ^ pos % 2 ^ len) * 2 ^ pos + (a.toNat % 2 ^ len) * 2 ^ pos =
      2 ^ (pos + len) * (d.toNat / 2 ^ (pos + len)) + (2 ^ pos * (a.toNat % 2 ^ len) + d.toNat % 2 ^ pos) := by
    have e1 : d.toNat / 2 ^ pos % 2 ^ len * 2 ^ pos = 2 ^ pos * (d.toNat / 2 ^ pos % 2 ^ len) := mul_comm _ _
    have e2 : a.toNat % 2 ^ len * 2 ^ pos = 2 ^ pos * (a.toNat % 2 ^ len) := mul_comm _ _
    rw [e1, e2]
    omega
  have b1 : d.toNat % 2 ^ pos < 2 ^ pos := Nat.mod_lt _ (by positivity)
  have b2 : 2 ^ pos * (a.toNat % 2 ^ len) + d.toNat % 2 ^ pos < 2 ^ (pos + len) := by
    have : a.toNat % 2 ^ len + 1 ≤ 2 ^ len := Nat.mod_lt _ (by positivity)
    calc _ < 2 ^ pos * (a.toNat % 2 ^ len) + 2 ^ pos := by omega
      _ = 2 ^ pos * (a.toNat % 2 ^ len + 1) := by ring
      _ ≤ 2 ^ pos * 2 ^ len := Nat.mul_le_mul_left _ this
      _ = _ := (pow_add _ _ _).symm
  rw [hl, Nat.two_pow_add_eq_or_of_lt b2, Nat.two_pow_add_eq_or_of_lt b1]
  apply Nat.eq_of_testBit_eq
  intro i
  simp only [Nat.testBit_or, Nat.testBit_two_pow_mul, Nat.testBit_div_two_pow, Nat.testBit_mod_two_pow]
  change _ = BitVec.getLsbD _ i
  simp only [BitVec.getLsbD_or, BitVec.getLsbD_and, BitVec.getLsbD_not, BitVec.getLsbD_shiftLeft, BitVec.getLsbD_setWidth, BitVec.getLsbD_allOnes]
  simp only [BitVec.getLsbD]
  by_cases h32 : i < 32
  · by_cases hp : i < pos
    · simp [h32, hp, show ¬ pos + len ≤ i by omega, show ¬ pos ≤ i by omega]
    · by_cases hq : i < pos + len
      · have e : i - pos < 32 := by omega
        simp [h32, hp, show ¬ pos + len ≤ i by omega, show pos ≤ i by omega, show i - pos < len by omega, e]
      · simp [h32, hp, show pos + len ≤ i by omega, show pos ≤ i by omega, show ¬ i - pos < len by omega]
  · have hz : d.toNat.testBit i = false := Nat.testBit_lt_two_pow (lt_of_lt_of_le d.isLt (Nat.pow_le_pow_right (by decide) (by omega)))
    simp [h32, show ¬ i < pos by omega, show pos + len ≤ i by omega, show pos ≤ i by omega, show ¬ i - pos < len by omega, hz]

theorem append_toNat {m n : Nat} (a : BitVec m) (b : BitVec n) : (a ++ b).toNat = a.toNat * 2 ^ n + b.toNat := by
  rw [BitVec.toNat_append, Nat.shiftLeft_eq, mul_comm, Nat.two_pow_add_eq_or_of_lt b.isLt]

theorem permByte_eq (a b : Word) (sel : BitVec 4) :
    BitVec.ofNat 8 (permByte (b.toNat * 2 ^ 32 + a.toNat) sel.toNat) =
      (if sel.getLsbD 3 then (if ((b ++ a).extractLsb' (8 * (sel.toNat % 8)) 8).getLsbD 7 then 0xFF else 0)
        else (b ++ a).extractLsb' (8 * (sel.toNat % 8)) 8) := by
  have hp : (b.toNat * 2 ^ 32 + a.toNat) / 2 ^ (8 * (sel.toNat % 8)) % 256 = ((b ++ a).extractLsb' (8 * (sel.toNat % 8)) 8).toNat := by
    rw [BitVec.extractLsb'_toNat, append_toNat, Nat.shiftRight_eq_div_pow]
  unfold permByte
  simp only [hp]
  generalize (b ++ a).extractLsb' (8 * (sel.toNat % 8)) 8 = u
  have h3 : sel.getLsbD 3 = decide (8 ≤ sel.toNat) := by clear hp; revert sel; decide
  have h7 : u.getLsbD 7 = decide (128 ≤ u.toNat) := by revert u; decide
  rw [h3, h7]
  by_cases h : 8 ≤ sel.toNat <;> by_cases h' : 128 ≤ u.toNat <;> simp [h, h']

theorem ofBytes_four (b0 b1 b2 b3 : Byte) : ofBytes [b0, b1, b2, b3] = (b3 ++ b2 ++ b1 ++ b0).toNat := by
  simp only [append_toNat, ofBytes]; ring

theorem ms_of {i r x s vs} (h : Issues i r x s vs) : x.m.toNat ∈ r.ms := row_ms h.ok.1
theorem m67 {x : Fields} (h : x.m.toNat ∈ [6, 7]) : (x.width = 32 ∧ x.regs = 1 ∨ x.width = 64 ∧ x.regs = 2) ∧ x.signed = false := by
  unfold Fields.width Fields.regs Fields.signed
  simp at h
  rcases h with h | h <;> simp [h]

theorem rd_lt {x : Fields} (h : x.m.toNat ∈ [6, 7]) (v : Lane) (sel) : v.rd x.regs sel < 2 ^ x.width := by
  unfold Lane.rd
  rcases (m67 h).1 with ⟨h1, h2⟩ | ⟨h1, h2⟩ <;> rw [h1, h2]
  · exact (v.r32 sel).isLt
  · exact (v.r64 sel).isLt

theorem operand_toNat {x : Fields} (h : x.m.toNat ∈ [6, 7]) (v : Lane) (sel) : (v.operand x sel).toNat = v.rd x.regs sel := by
  rw [Lane.operand, BitVec.toNat_ofNat, Nat.mod_eq_of_lt (rd_lt h v sel)]

theorem logicB_toNat {x : Fields} (h : x.m.toNat ∈ [6, 7]) (v : Lane) :
    (if x.immForm then x.imm.setWidth x.width else v.operand x x.b : BitVec x.width).toNat = v.logicB x x.regs := by
  unfold Lane.logicB
  split
  · rw [BitVec.toNat_setWidth, Nat.mod_eq_of_lt]
    refine lt_of_lt_of_le x.imm.isLt (Nat.pow_le_pow_right (by decide) ?_)
    have := (m67 h).1; omega
  · exact operand_toNat h v _

theorem rotl_or {a w k : Nat} (hlt : k < w) (hl : a < 2 ^ w) : rotl a w k = a <<< k % 2 ^ w ||| a >>> (w - k) := by
  unfold rotl
  rw [Nat.shiftLeft_eq, Nat.shiftRight_eq_div_pow]
  have h1 : a / 2 ^ (w - k) < 2 ^ k := by
    rw [Nat.div_lt_iff_lt_mul (by positivity), ← pow_add]
    rwa [Nat.add_sub_cancel' hlt.le]
  have h2 : a * 2 ^ k % 2 ^ w = 2 ^ k * (a % 2 ^ (w - k)) := by
    conv_lhs => rw [show w = (w - k) + k by omega, pow_add, Nat.mul_mod_mul_right]
    rw [mul_comm]
  rw [h2, Nat.two_pow_add_eq_or_of_lt h1]

theorem sat_false {i r x s vs} (h : Issues i r x s vs) (h1 : (0xFF - r.fnMask).testBit 6 = true) (h2 : r.fn.testBit 6 = false) : x.sat = false :=
  row_fn_bit h.ok.1 6 h1 h2

theorem m26 {x : Fields} (h : x.m.toNat ∈ [2, 6]) : x.width = 32 ∧ x.regs = 1 := by
  unfold Fields.width Fields.regs
  simp at h
  rcases h with h | h <;> simp [h]

theorem value_unsigned {x : Fields} (h : x.signed = false) (u : BitVec x.width) : x.value u = u.toNat := by simp [Fields.value, h]


end Sys2Proof.Machine
end

