-- ==== Sys2Proof/Laws/Alone.lean ====
section
/-!
SUPPORT. What a gather of one active lane asks and leaves, the page that a lane's access finds, and small lemmas that the statements about
single instructions share.
-/
namespace Sys2Proof
open Machine

/-- An instruction that computes a floating-point value in each lane. -/
theorem floats_of {i : Instr} {x : Fields} {s : State} {flags : Lane → Nat} {write : Lane → State → State}
    (he : ∀ r vs, Issues i r x s vs → exec i s = issue i { row := r, x := x, lane := fun v u => v.floatDone u (flags v) (write v) } s)
    (hw : ∀ v u, (write v u).ctxs = u.ctxs) : Floats i x s flags write := by
  have hf : ∀ (v : Lane) (u : State), u.ctxs = s.ctxs → ((u.ctxOf v).map fun c => c.fpten.toNat).getD 0 = v.traps s := by
    intro v u hu; unfold Lane.traps State.ctxOf; rw [hu]
  have hstart : ∀ vs, ((idleLanes x vs).foldl (fun s v => s.retire v.key) s.tick).ctxs = s.ctxs := fun vs =>
    (foldl_same State.ctxs (fun (s : State) (v : Lane) => s.retire v.key) (fun _ _ => rfl) _ _).trans rfl
  refine ⟨fun r vs h hok => ?_, fun r vs h hok => ?_⟩
  · rw [he r vs h]
    refine issue_done (p := { row := r, x := x, lane := fun v u => v.floatDone u (flags v) (write v) }) (fun u => u.ctxs = s.ctxs) _ h
      ⟨by simp, by simp, rfl, rfl, rfl, by simp, by simp, rfl⟩ (fun v hv u hu => ⟨?_, ?_⟩) (hstart vs)
    · unfold Lane.floatDone
      simp only [hf v u hu, hok v hv]
      rfl
    · simp [hw, hu]
  · rw [he r vs h]
    refine issue_trapped (p := { row := r, x := x, lane := fun v u => v.floatDone u (flags v) (write v) }) (fun _ => 0x0F) flags h
      ⟨by simp, by simp, rfl, rfl, rfl, by simp, by simp, rfl⟩ (fun v hv => .inr ?_)
    unfold Lane.floatDone
    simp only [hf v _ (hstart vs)]
    have := hok v hv
    simp [this, causeFloat]

theorem wr_one (v : Lane) (s : State) (d : BitVec 6) (n : Nat) : v.wr s 1 d n = v.wr32 s d (word n) := by
  unfold Lane.wr Lane.wr32 Lane.places wordsOf
  simp only [List.range_succ, List.range_zero, List.nil_append, List.map_cons, List.map_nil, Nat.mul_zero, Nat.pow_zero, Nat.div_one, Nat.add_zero]
  split
  · rename_i h
    simp [State.putDsts, List.replicate, h, Lane.place]
  · simp [State.putDsts]

theorem wr_ctxs (v : Lane) (s : State) (n : Nat) (d : BitVec 6) (a : Nat) : (v.wr s n d a).ctxs = s.ctxs := by simp

theorem gives_f32 {i : Instr} {x : Fields} {s : State} (r : Lane → Nat × Nat)
    (he : exec i s = issue i (specOf i fun v u => v.f32 x u (r v)) s) : Floats i x s (fun v => (r v).2) fun v s => v.wr s 1 x.d (r v).1 := by
  refine floats_of (fun row vs h => ?_) (fun v u => wr_ctxs ..)
  rw [he, specOf_eq h.row]
  simp only [wr_one]
  rfl

/-- A gathered lane is its group as the store holds it. -/
theorem lanesOf_group {s : State} : ∀ {ks : List Nat} {vs : List Lane}, s.lanesOf ks = some vs → ∀ v ∈ vs, Store.get s.groups v.th.gid = some v.g := by
  intro ks
  induction ks with
  | nil => intro vs h; cases h; simp
  | cons k ks ih =>
    intro vs h
    unfold State.lanesOf at h
    split at h
    · cases h
    · rename_i th hth
      split at h
      · rename_i g ws hg hw
        cases h
        intro v hv
        rcases List.mem_cons.mp hv with rfl | hv
        · exact hg
        · exact ih hw v hv
      · cases h

theorem gather_group {s : State} {vs : List Lane} (h : s.gatherLanes = some vs) : ∀ v ∈ vs, Store.get s.groups v.th.gid = some v.g := by
  unfold State.gatherLanes at h
  split at h
  · cases h
  · split at h
    · cases h
    · exact lanesOf_group h

/-- Every lane of a gather carries the clock of its issue. -/
theorem lanesOf_now {s : State} : ∀ {ks : List Nat} {vs : List Lane}, s.lanesOf ks = some vs → ∀ v ∈ vs, v.now = s.now := by
  intro ks
  induction ks with
  | nil => intro vs h; cases h; simp
  | cons k ks ih =>
    intro vs h
    unfold State.lanesOf at h
    split at h
    · cases h
    · split at h
      · rename_i hw
        cases h
        intro v hv
        rcases List.mem_cons.mp hv with rfl | hv
        · rfl
        · exact ih hw v hv
      · cases h
theorem gather_now {s : State} {vs : List Lane} (h : s.gatherLanes = some vs) : ∀ v ∈ vs, v.now = s.now := by
  unfold State.gatherLanes at h
  split at h
  · cases h
  · split at h
    · cases h
    · exact lanesOf_now h

theorem alone_done {i : Instr} {p : Spec} {s u : State} {v : Lane} (h : Issues i p.row p.x s [v]) (hp : p.Clear s [v])
    (hv : v.active p.x.g p.x.gn = true) (ha : p.lane v s.tick = .done u) :
    issue i p s = .next (u.finish v p.row p.x).settle.moved := issue_alone h hp hv ha rfl

theorem alone_wait {i : Instr} {p : Spec} {s u : State} {v : Lane} {w : Wait} (h : Issues i p.row p.x s [v]) (hp : p.Clear s [v])
    (hv : v.active p.x.g p.x.gn = true) (ha : p.lane v s.tick = .wait u w) :
    issue i p s = .next ((u.waitAt v w).latchClock v (readsClock p.row p.x)).settle.moved := issue_alone h hp hv ha rfl

theorem alone_group {i r x s v} (h : Issues i r x s [v]) : s.group v.th.gid = some v.g := gather_group h.lanes v (by simp)

theorem lookup_page {v : Lane} {s : State} {va : Nat} {k : AccessKind} {t : Xlat} (h : v.page s va k = some t) :
    s.lookup (dataUnit v.core (quadOf v.key)) v.core v.g.ctx va k = (s, some t) := by
  unfold Lane.page at h
  unfold State.lookup
  split at h
  · rename_i e he
    split at h
    · rename_i hp
      cases h
      simp only [he, hp, if_true]
    · cases h
  · cases h

theorem peerHolds_settled {v : Lane} {s : State} (h : v.settled s) (p : Remote → Bool) : s.peerHolds v.key p = false := by
  unfold Lane.settled State.fencing State.peerHolds at h
  unfold State.peerHolds
  rw [List.any_eq_false] at h ⊢
  intro e he
  have := h e he
  simp only [Bool.and_eq_true, not_and] at this ⊢
  intro hk
  have h2 := this hk
  split at h2
  · rename_i l hl
    have : l.remote = [] := by
      cases hr : l.remote with
      | nil => rfl
      | cons a r => simp [hr] at h2
    rw [this]; simp
  · simp
theorem acquiring_settled {v : Lane} {s : State} (h : v.settled s) : s.acquiring v.key = false := peerHolds_settled h _
theorem releasing_settled {v : Lane} {s : State} (h : v.settled s) : s.releasing v.key = false := peerHolds_settled h _

theorem access_page {v : Lane} {s : State} {va n : Nat} {k : AccessKind} {t : Xlat} {f : State → Xlat → Act} (h1 : v.admits s va)
    (h2 : v.admits s (va + n - 1)) (h : v.page s va k = some t) (hp : t.peer = none) (hs : v.settled s) :
    v.access s va n k f = f s t := by
  unfold Lane.access
  obtain ⟨c, hc, h1⟩ := h1
  obtain ⟨d, hd, h2⟩ := h2
  rw [hc] at hd; cases hd
  simp only [hc, Option.map_some, Option.getD_some, h1, h2, Bool.and_self, Bool.not_true, Bool.false_eq_true, if_false, lookup_page h, hp,
    Option.map_none, Option.getD_none, acquiring_settled hs, Bool.and_false]


/-- What an instruction with a rule, a stall and one lane asks. -/
theorem alone_asks {p : Spec} {s : State} {v : Lane} (hv : v.active p.x.g p.x.gn = true) (hbad : p.bad = fun _ => false) (hrule : p.rule v = none)
    (honce : p.once = false) (hreads : p.reads = fun _ l => l) (hafter : p.after = fun s => (s, [])) (hextra : p.extra = fun _ => [])
    (hstall : p.stall s.tick [v] = false) : p.Clear s [v] := by
  refine ⟨by simp [hbad], by simpa [alone_active hv] using hrule, honce, hreads, hafter, by simp [hextra], by simp [hextra], ?_⟩
  rw [alone_active hv]; exact hstall


theorem immBits_low (x : Fields) : x.immBits 3 0 = x.imm.toNat % 16 := by simp [Fields.immBits]

theorem plain_none {s : State} {c : Nat} (h : s.mode c < 2) (f : LogEntry → Bool) : s.nextRecord c f = (s, none) := by
  unfold State.nextRecord State.forcing
  unfold State.mode at h
  cases hc : Store.get s.ctxs c with
  | none => simp
  | some d =>
    rw [hc] at h
    simp only [Option.map_some, Option.getD_some] at h
    have : (d.mode == 3) = false := by simp; omega
    simp [this]

theorem plain_log {s : State} {r : LogRec} (h : s.mode r.ctx < 2) : s.logChoice r = s := by
  unfold State.logChoice; rw [if_neg (by omega)]

theorem tick_group {i r x s v} (h : Issues i r x s [v]) : s.tick.group v.th.gid = some v.g := (alone_group h : s.group v.th.gid = some v.g)

theorem upd_group {s : State} {k : Nat} {g : Group} {f : Group → Group} (h : s.group k = some g) : (s.updGroup k f).group k = some (f g) := by
  unfold State.group State.updGroup Store.upd at *
  simp only [h, Store.get_put]

theorem places_one (v : Lane) (d : BitVec 6) : v.places 1 d = [v.place (v.th.rename d.toNat)] := by
  unfold Lane.places
  simp only [List.range_succ, List.range_zero, List.nil_append, List.map_cons, List.map_nil, Nat.add_zero]
  split
  · rename_i h; simp [List.replicate, h, Lane.place]
  · rfl

theorem tryPop_some {s : State} {key gid n : Nat} {g : Group} {q : Queue} {filled : Bool} {dst : Dst} {k : Nat} {rest : List Nat}
    (hg : s.group gid = some g) (hq : Store.get g.queues n = some q) (hm : s.mode g.ctx < 2)
    (hl : (if filled then q.filled else q.free) = k :: rest) :
    s.tryPop key gid n filled dst =
      (let u := ((s.updGroup gid fun g => g.updQueue n fun u =>
        { u with free := if filled then u.free else u.free.filter (· != k),
                 filled := if filled then u.filled.filter (· != k) else u.filled, slots := u.slots.set k .held }).putDst key gid dst (word k)).progress g.ctx
       if filled then u.invalidateCache (coreOf key) else if n = 0 then u.notePush gid else u, true) := by
  unfold State.tryPop State.popHandle
  simp only [hg, Option.bind_some, hq, plain_none hm, hl, List.head?_cons]
  rw [plain_log (by exact hm)]
  cases filled <;> by_cases hn : n = 0 <;> simp [hn]

theorem tryPop_none {s : State} {key gid n : Nat} {g : Group} {q : Queue} {filled : Bool} {dst : Dst}
    (hg : s.group gid = some g) (hq : Store.get g.queues n = some q) (hm : s.mode g.ctx < 2)
    (hl : (if filled then q.filled else q.free) = []) : s.tryPop key gid n filled dst = (s, false) := by
  unfold State.tryPop State.popHandle
  simp only [hg, Option.bind_some, hq, plain_none hm, hl, List.head?_nil]

theorem updGroup_congr {s : State} {k : Nat} {g : Group} {f f' : Group → Group} (hg : s.group k = some g) (h : f g = f' g) :
    s.updGroup k f = s.updGroup k f' := by
  unfold State.updGroup Store.upd
  have : Store.get s.groups k = some g := hg
  simp only [this, h]

theorem updQueue_congr {g : Group} {n : Nat} {q : Queue} {f f' : Queue → Queue} (hq : Store.get g.queues n = some q) (h : f q = f' q) :
    g.updQueue n f = { g with queues := Store.upd g.queues n f' } := by
  unfold Group.updQueue Store.upd
  simp only [hq, h]

/-- What an instruction with registers of its own beside its selectors asks. -/
theorem alone_asks_with {p : Spec} {s : State} {v : Lane} {once : Bool} (hv : v.active p.x.g p.x.gn = true) (hbad : p.bad = fun _ => false)
    (hrule : p.rule v = none) (honce : p.once = once) (hreads : p.reads = fun _ l => l) (hafter : p.after = fun s => (s, []))
    (hextra : ∀ d ∈ p.extra v, isPending v.th v.g d.1 = false ∧ v.sound d.1 = true) (hstall : p.stall s.tick [v] = false) :
    p.Asks s [v] once := by
  refine ⟨by simp [hbad], by simpa [alone_active hv] using hrule, honce, hreads, hafter, ?_, ?_, ?_⟩ <;> rw [alone_active hv]
  · simpa using fun a b hd => (hextra (a, b) hd).1
  · simpa using fun a b hd => (hextra (a, b) hd).2
  · exact hstall

theorem once_done {i : Instr} {p : Spec} {s u : State} {v : Lane} (h : Issues i p.row p.x s [v]) (hp : p.Asks s [v] true)
    (hv : v.active p.x.g p.x.gn = true) (ha : p.lane v s.tick = .done u) : issue i p s = .next (u.finish v p.row p.x).settle.moved := by
  rw [issue_once (v := v) (u := u) h hp (by simp [alone_active hv]) (by simpa [alone_idle hv] using ha), alone_active hv]
  rfl

/-- A gather of one active lane, for any instruction: its further reads are clean, it does not trap, and what follows the lanes adds no trap. -/
theorem issue_after {i : Instr} {p : Spec} {s u : State} {v : Lane} {a : Act} (h : Issues i p.row p.x s [v]) (hv : v.active p.x.g p.x.gn = true)
    (hbad : p.bad v = false) (hrule : p.rule v = none) (honce : p.once = false)
    (hreads : ∀ d ∈ p.reads v (v.rowReads p.row p.x) ++ p.extra v, v.sound d.1 = true)
    (hpend : ∀ d ∈ p.extra v, isPending v.th v.g d.1 = false) (hstall : p.stall s.tick [v] = false) (ha : p.lane v s.tick = a)
    (ht : a.settles = true) (hafter : p.after (s.tick.apply v (readsClock p.row p.x) a).1 = (u, [])) :
    issue i p s = .next u.settle.moved := by
  obtain ⟨hb, hp, ho, -⟩ := Lane.free_iff.mp (h.free v (by simp) hv)
  have hlane : laneStep p v s.tick = ((s.tick.apply v (readsClock p.row p.x) a).1, []) := by
    unfold laneStep
    rw [List.all_eq_true.mpr ho, deliverPoison_clean hreads]
    simp only [Bool.not_true, Bool.false_eq_true, if_false, ha]
    exact apply_settles ht
  have hw : ([v].any fun v => v.heldBack p.row.op || ((v.rowPlaces p.row p.x) ++ (p.extra v).map Prod.fst).any fun d => isPending v.th v.g d) = false := by
    simp only [List.any_cons, List.any_nil, Bool.or_false, hb, Bool.false_or, List.any_eq_false]
    intro d hd
    rcases List.mem_append.mp hd with hd | hd
    · simp [hp d hd]
    · obtain ⟨e, he, rfl⟩ := List.mem_map.mp hd
      simp [hpend e he]
  unfold issue
  simp only [h.lanes]
  rw [show ([v].any fun v => v.th.late.isSome) = false by simp [h.late v (by simp)], h.legal,
    show ([v].any fun v => v.guardBad p.x.g p.x.gn || p.bad v) = false by simp [h.guard v (by simp), hbad],
    ruleTraps_nil (i := i) (p := p) h.thresher (by simpa [alone_active hv] using hrule)]
  simp only [List.any_nil, Bool.not_false, Bool.not_true, Bool.or_self, Bool.false_eq_true, if_false, List.nil_append, List.filter_cons, if_true,
    List.filter_nil, hv, honce]
  rw [hw, hstall]
  simp only [Bool.false_eq_true, if_false, List.foldl_nil, runLanes, List.foldl_cons, hlane, hafter, List.append_nil]
  rfl

/-- The registers that an operand of a row reads are clean in a lane that is free. -/
theorem free_clean {v : Lane} {r : Row} {x : Fields} (h : v.free r x = true) {n : Nat} {f : PFmt} {sel : BitVec 6}
    (ho : (Role.src n f, sel) ∈ r.operands x) : ∀ d ∈ v.places n sel, v.sound d = true := by
  intro d hd
  exact (Lane.free_iff.mp h).2.2.2 (d, f) (List.mem_flatMap.mpr ⟨_, ho, by simpa [Role.reads, Role.regs] using hd⟩)

theorem mem_active {x : Fields} {vs : List Lane} {v : Lane} (h : v ∈ activeLanes x vs) : v ∈ vs := (List.mem_filter.mp h).1

/-- Clean scratchpad bytes count no error and are read as they stand. -/
theorem spClean_iff {g : Machine.Group} {o n : Nat} : g.spClean o n = true ↔ ∀ w ∈ g.spBad ++ g.spWeak, ¬(o / 4 ≤ w ∧ w ≤ (o + n - 1) / 4) := by
  simp only [Group.spClean, List.all_eq_true, Bool.not_eq_true', Bool.and_eq_false_iff, decide_eq_false_iff_not, not_and_or]
theorem spClean_sound {g : Machine.Group} {o n : Nat} (h : g.spClean o n = true) : g.spPoisoned o n = false := by
  unfold Group.spPoisoned
  rw [List.any_eq_false]
  intro w hw
  simpa using fun h1 => Nat.lt_of_not_le fun h2 => spClean_iff.mp h w (by simp [hw]) ⟨h1, h2⟩
theorem spSound_clean {g : Machine.Group} {o n : Nat} (h : g.spPoisoned o n = false) : g.spSound o n = g.spRead o n := by
  unfold Group.spPoisoned at h
  rw [List.any_eq_false] at h
  unfold Group.spSound Group.spRead
  refine List.map_congr_left fun i hi => ?_
  have hi := List.mem_range.mp hi
  have : ¬(o + i) / 4 ∈ g.spBad := fun hm => h _ hm (by simp; omega)
  simp [this]
theorem senseScratch_clean {s : State} {gid ctx o n pc : Nat} {t : Option Nat} {g : Machine.Group} (hg : s.group gid = some g) (h : g.spClean o n = true) :
    s.senseScratch gid ctx t pc o n = s := by
  have hf : (g.spBad ++ g.spWeak).filter (fun w => decide (o / 4 ≤ w) && decide (w ≤ (o + n - 1) / 4)) = [] :=
    List.filter_eq_nil_iff.mpr fun w hw => by simpa using fun h1 => Nat.lt_of_not_le fun h2 => spClean_iff.mp h w hw ⟨h1, h2⟩
  unfold State.senseScratch
  simp only [hg, hf]
  rfl
/-- A plain load of clean bytes. -/
theorem plainLoad_clean {v : Lane} {u : State} {o n : Nat} {k : State → List Byte → Act} {g : Machine.Group} (hg : u.group v.th.gid = some g)
    (h1 : g.sp = v.g.sp) (h2 : g.spBad = v.g.spBad) (h3 : g.spWeak = v.g.spWeak) (hp : v.g.spClean o n = true) :
    v.plainLoad u o n k = k u (v.g.spRead o n) := by
  have hc : g.spClean o n = true := by unfold Group.spClean at *; rw [h2, h3]; exact hp
  unfold Lane.plainLoad Lane.plainRead
  simp only [hg, Option.getD_some, List.foldl_cons, List.foldl_nil, senseScratch_clean hg hc, List.find?_cons, spClean_sound hc, List.find?_nil]
  rw [spSound_clean (spClean_sound hc)]
  unfold Group.spRead; rw [h1]

theorem plainTrap_none {g : Group} {o : Int} {n : Nat} (h : 0 ≤ o) (h1 : o % n = 0) (h2 : o + n ≤ g.spLen) : g.plainTrap o n = none := by
  unfold Group.plainTrap
  rw [if_neg (by simpa using h1), if_neg]
  simp only [Bool.or_eq_true, decide_eq_true_eq, not_or]; omega

theorem row_fn_exact {r : Row} {x : Fields} (h : r.ok x = true) (hm : r.fnMask = 0) : x.fn.toNat = r.fn := by
  have := row_fn h
  rw [hm, Nat.sub_zero] at this
  rw [← this, show (0xFF : Nat) = 2 ^ 8 - 1 from rfl, Nat.and_two_pow_sub_one_eq_mod, Nat.mod_eq_of_lt x.fn.isLt]

/-- A gather of one active lane that traps takes its trap. -/
theorem alone_trap {i : Instr} {p : Spec} {s u : State} {v : Lane} {cause tval : Nat} (h : Issues i p.row p.x s [v]) (hp : p.Clear s [v])
    (hv : v.active p.x.g p.x.gn = true) (ha : p.lane v s.tick = .trapIn u cause tval) :
    issue i p s = .next (u.takeTraps [{ key := v.key, cause := cause, tval := tval }]).settle.moved := by
  obtain ⟨-, -, hb, hr⟩ := Lane.free_iff.mp (h.free v (by simp) hv)
  have hc : ∀ d ∈ v.rowReads p.row p.x ++ p.extra v, v.sound d.1 = true := by
    intro d hd
    rcases List.mem_append.mp hd with hd | hd
    · exact hr d hd
    · exact hp.clean v (by simp [alone_active hv]) d hd
  have hlane : laneStep p v s.tick = (u, [{ key := v.key, cause := cause, tval := tval }]) := by
    unfold laneStep
    rw [List.all_eq_true.mpr hb, hp.reads, deliverPoison_clean hc]
    simp only [Bool.not_true, Bool.false_eq_true, if_false, ha, State.apply]
  rw [issue_run h hp, alone_active hv, alone_idle hv]
  simp only [List.foldl_nil, runLanes, List.foldl_cons, hlane, List.nil_append]
  rfl

end Sys2Proof
end

