-- ==== Sys2Proof/Laws/Canon.lean ====
section
/-!
SUPPORT. HBM and scanout memory in their canonical form, said of a state, of an act, of an instruction's effects and of an outcome,
with the small lemmas that the files CanonOps to CanonExec use: one lemma for each operation of the machine, that it keeps the form.
-/
namespace Sys2Proof.Machine
set_option Elab.async false
set_option linter.unusedSimpArgs false

/-- HBM and scanout memory, as lists of addresses and bytes, stand in their canonical form. -/
def State.Canon (s : State) : Prop := Memory.wf s.hbm = true ∧ Memory.wf s.scanout = true
theorem State.Canon.hbm {s : State} (h : s.Canon) : Memory.wf s.hbm = true := h.1
theorem State.Canon.scanout {s : State} (h : s.Canon) : Memory.wf s.scanout = true := h.2
theorem State.canon_mk_iff {threads groups thresher partWord board ops hbm poison upsets lines lineUses portHeld grants wq loadCache
    scanout tlb walkCache enroute misses lastDetect mail claims gangStops logPending tenants ctxs saved launches nodes graphErrors views
    amplifier prims covers pushWaited vote fenceGen orphan epoch periods passNo guardOver throt errors uevents mauth rxdrop pdown nakCount
    peerRefusals mailDrops bridgeStopped bridgeRetries station stationKey moduleNumber walkedPeer peerRoutes portsDown portReplays pwrgood
    resetN ready upStep failCode portUp halted now inputs sent agenda gather armed patrolled sensed moves nextOp nextGid nextChoice} :
    (State.mk threads groups thresher partWord board ops hbm poison upsets lines lineUses portHeld grants wq loadCache scanout tlb
    walkCache enroute misses lastDetect mail claims gangStops logPending tenants ctxs saved launches nodes graphErrors views amplifier
    prims covers pushWaited vote fenceGen orphan epoch periods passNo guardOver throt errors uevents mauth rxdrop pdown nakCount
    peerRefusals mailDrops bridgeStopped bridgeRetries station stationKey moduleNumber walkedPeer peerRoutes portsDown portReplays pwrgood
    resetN ready upStep failCode portUp halted now inputs sent agenda gather armed patrolled sensed moves nextOp nextGid nextChoice).Canon
    ↔ Memory.wf hbm = true ∧ Memory.wf scanout = true := Iff.rfl
/-- A next state is canonical. -/
structure CanonOut (o : Host.Outcome State Fault Refusal) : Prop where
  next : ∀ t, o = .next t → t.Canon
theorem canonOut_next {s : State} (h : s.Canon) : CanonOut (.next s) := ⟨by rintro t ⟨⟩; exact h⟩
theorem canonOut_fault (f : Fault) : CanonOut (.fault f) := ⟨by rintro t ⟨⟩⟩
/-- Every state that an act leaves is canonical. -/
def Act.Canon : Act → Prop
  | .done s => s.Canon
  | .jump s _ => s.Canon
  | .raw s => s.Canon
  | .trap _ _ => True
  | .trapIn s _ _ => s.Canon
  | .wait s _ => s.Canon
  | .miss s _ _ _ => s.Canon
theorem Act.canon_done {s : State} (h : s.Canon) : (Act.done s).Canon := h
theorem Act.canon_jump {s : State} (pc : Nat) (h : s.Canon) : (Act.jump s pc).Canon := h
theorem Act.canon_raw {s : State} (h : s.Canon) : (Act.raw s).Canon := h
theorem Act.canon_trap (c t : Nat) : (Act.trap c t).Canon := trivial
theorem Act.canon_trapIn {s : State} (c t : Nat) (h : s.Canon) : (Act.trapIn s c t).Canon := h
theorem Act.canon_wait {s : State} (w : Wait) (h : s.Canon) : (Act.wait s w).Canon := h
theorem Act.canon_miss {s : State} (va : Nat) (k : AccessKind) (n : Nat) (h : s.Canon) : (Act.miss s va k n).Canon := h
/-- An instruction's effects keep the form. -/
structure Spec.Canon (p : Spec) : Prop where
  lane : ∀ v s, s.Canon → (p.lane v s).Canon
  spoil : ∀ v s, s.Canon → (p.spoil v s).Canon
  after : ∀ s, s.Canon → (p.after s).1.Canon
theorem canon_foldl {α : Type} {f : State → α → State} {l : List α} {s : State} (hf : ∀ s a, s.Canon → (f s a).Canon) (hs : s.Canon) :
    (l.foldl f s).Canon := by
  induction l generalizing s with
  | nil => exact hs
  | cons a l ih => exact ih (hf s a hs)
theorem canon_foldl_fst {α β : Type} {f : State × β → α → State × β} {l : List α} {s : State × β} (hf : ∀ s a, s.1.Canon → (f s a).1.Canon)
    (hs : s.1.Canon) : (l.foldl f s).1.Canon := by
  induction l generalizing s with
  | nil => exact hs
  | cons a l ih => exact ih (hf s a hs)
/-- What an optional answer holds, when it is there. -/
structure CanonOpt {α : Type} (P : α → Prop) (o : Option α) : Prop where
  some : ∀ x, o = some x → P x
theorem canonOpt_some {α : Type} {P : α → Prop} {x : α} (h : P x) : CanonOpt P (.some x) := ⟨by rintro y ⟨⟩; exact h⟩
theorem canonOpt_none {α : Type} {P : α → Prop} : CanonOpt P .none := ⟨by rintro y ⟨⟩⟩
theorem canon_foldl_fetch {α : Type} {f : Fetch → α → Fetch} {l : List α} {s : Fetch} (hf : ∀ s a, s.s.Canon → (f s a).s.Canon) (hs :
    s.s.Canon) :
    (l.foldl f s).s.Canon := by
  induction l generalizing s with
  | nil => exact hs
  | cons a l ih => exact ih (hf s a hs)
theorem canon_foldl_fetch_fst {α β : Type} {f : Fetch × β → α → Fetch × β} {l : List α} {s : Fetch × β}
    (hf : ∀ s a, s.1.s.Canon → (f s a).1.s.Canon) (hs : s.1.s.Canon) : (l.foldl f s).1.s.Canon := by
  induction l generalizing s with
  | nil => exact hs
  | cons a l ih => exact ih (hf s a hs)
theorem canon_foldl_copy {α : Type} {f : CopyRun → α → CopyRun} {l : List α} {s : CopyRun} (hf : ∀ s a, s.s.Canon → (f s a).s.Canon) (hs :
    s.s.Canon) :
    (l.foldl f s).s.Canon := by
  induction l generalizing s with
  | nil => exact hs
  | cons a l ih => exact ih (hf s a hs)
theorem canon_foldl_coll {α : Type} {f : CollRun → α → CollRun} {l : List α} {s : CollRun} (hf : ∀ s a, s.s.Canon → (f s a).s.Canon) (hs :
    s.s.Canon) :
    (l.foldl f s).s.Canon := by
  induction l generalizing s with
  | nil => exact hs
  | cons a l ih => exact ih (hf s a hs)
theorem of_pair {β : Type} {p : State × β} {s : State} {b : β} (e : p = (s, b)) (h : p.1.Canon) : s.Canon := by subst e; exact h
theorem of_fetch {β : Type} {p : Fetch × β} {s : Fetch} {b : β} (e : p = (s, b)) (h : p.1.s.Canon) : s.s.Canon := by subst e; exact h
theorem CanonOpt.of_pair {β : Type} {p : Option (State × β)} {s : State} {b : β} (e : p = .some (s, b)) (h : CanonOpt (fun p => p.1.Canon)
    p) : s.Canon := h.some _ e
theorem CanonOpt.of_fetch {β : Type} {p : Option (Fetch × β)} {s : Fetch} {b : β} (e : p = .some (s, b)) (h : CanonOpt (fun p =>
    p.1.s.Canon) p) : s.s.Canon :=
  h.some _ e
theorem Act.of_done {a : Act} {s : State} (e : a = .done s) (h : a.Canon) : s.Canon := by subst e; exact h
theorem Act.of_jump {a : Act} {s : State} {n : Nat} (e : a = .jump s n) (h : a.Canon) : s.Canon := by subst e; exact h
theorem Act.of_raw {a : Act} {s : State} (e : a = .raw s) (h : a.Canon) : s.Canon := by subst e; exact h
theorem Act.of_trapIn {a : Act} {s : State} {c t : Nat} (e : a = .trapIn s c t) (h : a.Canon) : s.Canon := by subst e; exact h
theorem Act.of_wait {a : Act} {s : State} {w : Wait} (e : a = .wait s w) (h : a.Canon) : s.Canon := by subst e; exact h
theorem Act.of_miss {a : Act} {s : State} {va n : Nat} {k : AccessKind} (e : a = .miss s va k n) (h : a.Canon) : s.Canon := by
  subst e; exact h
theorem canonOpt_map {α β : Type} {P : β → Prop} {f : α → β} {o : Option α} (h : ∀ x, P (f x)) : CanonOpt P (o.map f) := by
  cases o with
  | none => exact canonOpt_none
  | some x => exact canonOpt_some (h x)
theorem canonOpt_findSome {α β : Type} {P : β → Prop} {f : α → Option β} {l : List α} (h : ∀ x, CanonOpt P (f x)) : CanonOpt P
    (l.findSome? f) := by
  refine ⟨fun y e => ?_⟩
  obtain ⟨a, -, e⟩ := List.exists_of_findSome?_eq_some e
  exact (h a).some y e
theorem CanonOpt.of_out {o : Option (Host.Outcome State Fault Refusal)} {x : Host.Outcome State Fault Refusal} (e : o = .some x)
    (h : CanonOpt (fun o => CanonOut o) o) : CanonOut x := h.some _ e
theorem canonOut_getD {o : Option (Host.Outcome State Fault Refusal)} {d : Host.Outcome State Fault Refusal} (h : CanonOpt (fun o =>
    CanonOut o) o)
    (k : CanonOut d) : CanonOut (o.getD d) := by
  cases o with
  | none => exact k
  | some x => exact h.some x rfl
theorem CanonOut.of {o : Host.Outcome State Fault Refusal} {s : State} (e : o = .next s) (h : CanonOut o) : s.Canon := h.next _ e
theorem ViewSet.writeRecords_wf (vs : ViewSet) (l : Latch) (n : Nat) (m : List Host.Cell) (h : Memory.wf m = true) :
    Memory.wf (vs.writeRecords l n m) = true := by
  unfold ViewSet.writeRecords
  generalize List.range vs.nview = k
  induction k generalizing m with
  | nil => exact h
  | cons a k ih => exact ih _ (Memory.wf_setBytes _ _ _ h)
theorem State.reset_canon : State.reset.Canon := ⟨rfl, rfl⟩
theorem CanonOpt.of_state {o : Option State} {s : State} (e : o = .some s) (h : CanonOpt (fun o => o.Canon) o) : s.Canon := h.some _ e
theorem canon_getD {α : Type} {o : Option α} {f : α → State} {s : State} (hf : ∀ a, (f a).Canon) (hs : s.Canon) : ((o.map f).getD s).Canon
    := by
  cases o with
  | none => exact hs
  | some a => exact hf a
theorem State.canon_parts {s : State} (h : s.Canon) : Memory.wf s.hbm = true ∧ Memory.wf s.scanout = true := h

end Sys2Proof.Machine
end

