-- ==== Sys2Proof/Laws/CanonOps.lean ====
section
/-!
SUPPORT. What operands, memory, translation, faults and the shared operations keep:
HBM and scanout memory in their canonical form.
-/
namespace Sys2Proof.Machine
set_option Elab.async false
set_option linter.unusedSimpArgs false

theorem State.setThread_canon (s : State) (key : Nat) (th : Thread) (h1 : s.Canon) : (State.setThread s key th).Canon := h1
theorem State.updThread_canon (s : State) (key : Nat) (f : Thread → Thread) (h1 : s.Canon) : (State.updThread s key f).Canon := h1
theorem State.updGroup_canon (s : State) (gid : Nat) (f : Group → Group) (h1 : s.Canon) : (State.updGroup s gid f).Canon := h1
theorem State.updCtx_canon (s : State) (c : Nat) (f : Ctx → Ctx) (h1 : s.Canon) : (State.updCtx s c f).Canon := h1
theorem State.putDst_canon (s : State) (key : Nat) (gid : Nat) (d : Dst) (x : Word) (h1 : s.Canon) : (State.putDst s key gid d x).Canon
    := by
  unfold State.putDst
  with_reducible repeat' first | assumption | apply State.updThread_canon | apply State.updGroup_canon | split
theorem State.putDsts_canon (s : State) (key : Nat) (gid : Nat) (ds : List Dst) (xs : List Word) (h1 : s.Canon) : (State.putDsts s key
    gid ds xs).Canon := by
  unfold State.putDsts
  with_reducible repeat' first | assumption | apply State.putDst_canon | apply canon_foldl | intro _
theorem State.pendDst_canon (s : State) (key : Nat) (gid : Nat) (d : Dst) (h1 : s.Canon) : (State.pendDst s key gid d).Canon := by
  unfold State.pendDst
  with_reducible repeat' first | assumption | apply State.updThread_canon | apply State.updGroup_canon | split
theorem State.pendDsts_canon (s : State) (key : Nat) (gid : Nat) (ds : List Dst) (h1 : s.Canon) : (State.pendDsts s key gid ds).Canon :=
    by
  unfold State.pendDsts
  with_reducible repeat' first | assumption | apply State.pendDst_canon | apply canon_foldl | intro _
theorem State.landDst_canon (s : State) (key : Nat) (gid : Nat) (d : Dst) (x : Word) (h1 : s.Canon) : (State.landDst s key gid d
    x).Canon := by
  unfold State.landDst
  with_reducible repeat' first | assumption | apply State.updGroup_canon | apply State.putDst_canon | split
theorem State.landDsts_canon (s : State) (key : Nat) (gid : Nat) (ds : List Dst) (xs : List Word) (h1 : s.Canon) : (State.landDsts s key
    gid ds xs).Canon := by
  unfold State.landDsts
  with_reducible repeat' first | assumption | apply State.landDst_canon | apply canon_foldl | intro _
theorem State.unpendDst_canon (s : State) (key : Nat) (gid : Nat) (d : Dst) (h1 : s.Canon) : (State.unpendDst s key gid d).Canon := by
  unfold State.unpendDst
  with_reducible repeat' first | assumption | apply State.updThread_canon | apply State.updGroup_canon | split
theorem Lane.wr_canon (v : Lane) (s : State) (n : Nat) (sel : BitVec 6) (x : Nat) (h1 : s.Canon) : (Lane.wr v s n sel x).Canon := by
  unfold Lane.wr
  with_reducible repeat' first | assumption | apply State.putDsts_canon
theorem Lane.wr32_canon (v : Lane) (s : State) (sel : BitVec 6) (x : Word) (h1 : s.Canon) : (Lane.wr32 v s sel x).Canon := by
  unfold Lane.wr32
  with_reducible repeat' first | assumption | apply State.putDst_canon
theorem Lane.wrWords_canon (v : Lane) (s : State) (sel : BitVec 6) (xs : List Word) (h1 : s.Canon) : (Lane.wrWords v s sel xs).Canon := by
  unfold Lane.wrWords
  with_reducible repeat' first | assumption | apply State.putDsts_canon
theorem Lane.wrPred_canon (v : Lane) (s : State) (sel : BitVec 6) (b : Bool) (h1 : s.Canon) : (Lane.wrPred v s sel b).Canon := h1
theorem Lane.raiseFlags_canon (v : Lane) (s : State) (fl : Nat) (h1 : s.Canon) : (Lane.raiseFlags v s fl).Canon := h1
theorem State.setStored_canon (s : State) (a : Nat) (b : Byte) (h1 : s.Canon) : (State.setStored s a b).Canon := by
  unfold State.setStored
  with_reducible repeat' first
    | assumption | apply Memory.wf_wr | (simp only [↓State.canon_mk_iff]; refine ⟨?_, ?_⟩) | apply State.Canon.hbm
    | apply State.Canon.scanout
theorem State.setStoredBytes_canon (s : State) (a : Nat) (bs : List Byte) (h1 : s.Canon) : (State.setStoredBytes s a bs).Canon := by
  unfold State.setStoredBytes
  with_reducible repeat' first
    | assumption | apply Memory.wf_setBytes | (simp only [↓State.canon_mk_iff]; refine ⟨?_, ?_⟩) | apply State.Canon.hbm
    | apply State.Canon.scanout
theorem State.setCode_canon (s : State) (a : Nat) (c : Nat) (h1 : s.Canon) : (State.setCode s a c).Canon := by
  unfold State.setCode
  with_reducible repeat' first | assumption | apply State.setStored_canon
theorem State.writeIn_canon (s : State) (cmp : Bool) (a : Nat) (bs : List Byte) (h1 : s.Canon) : (State.writeIn s cmp a bs).Canon := by
  unfold State.writeIn
  with_reducible repeat' first
    | assumption | apply State.setCode_canon | apply State.setStoredBytes_canon | split
    | (simp only [↓State.canon_mk_iff]; apply State.canon_parts)
theorem State.writeFuel_canon (b0 : Nat) (b1 : State) (b2 : Bool) (b3 : Nat) (b4 : List Byte) (h1 : b1.Canon) : (State.writeFuel b0 b1
    b2 b3 b4).Canon := by
  induction b0 generalizing b1 b3 b4 with
  | zero =>
    unfold State.writeFuel
    with_reducible repeat' first | assumption
  | succ k ih =>
    unfold State.writeFuel
    with_reducible repeat' first | assumption | apply State.writeIn_canon | apply ih | split
theorem State.writeBytes_canon (s : State) (cmp : Bool) (a : Nat) (bs : List Byte) (h1 : s.Canon) : (State.writeBytes s cmp a bs).Canon
    := by
  unfold State.writeBytes
  with_reducible repeat' first | assumption | apply State.writeFuel_canon
theorem State.countError_canon (s : State) (source : Nat) (core : Nat) (ctx : Nat) (thread : Option Nat) (pc : Nat) (addr : Nat) (h1 :
    s.Canon) : (State.countError s source core ctx thread pc addr).Canon := by
  unfold State.countError
  with_reducible repeat' first
    | assumption | split | (simp only [↓State.canon_mk_iff]; refine ⟨?_, ?_⟩) | dsimp only | apply State.Canon.hbm
    | apply State.Canon.scanout
theorem State.countCorrected_canon (s : State) (n : Nat) (h1 : s.Canon) : (State.countCorrected s n).Canon := h1
theorem State.countPoison_canon (s : State) (a : Nat) (n : Nat) (core : Nat) (ctx : Nat) (thread : Option Nat) (pc : Nat) (h1 : s.Canon)
    : (State.countPoison s a n core ctx thread pc).Canon := by
  unfold State.countPoison
  with_reducible repeat' first | assumption | apply State.countError_canon
theorem State.sense_canon (s : State) (a : Nat) (n : Nat) (h1 : s.Canon) : (State.sense s a n).Canon := by
  unfold State.sense
  with_reducible repeat' first
    | assumption | apply State.countCorrected_canon | apply canon_foldl | split | intro _
    | (simp only [↓State.canon_mk_iff]; apply State.canon_parts)
theorem State.checkBlocks_canon (s : State) (bs : List Nat) (core : Nat) (ctx : Nat) (thread : Option Nat) (pc : Nat) (h1 : s.Canon) :
    (State.checkBlocks s bs core ctx thread pc).Canon := by
  unfold State.checkBlocks
  with_reducible repeat' first
    | assumption | apply State.countError_canon | apply canon_foldl | split | intro _
    | (simp only [↓State.canon_mk_iff]; apply State.canon_parts)
theorem State.checkCode_canon (s : State) (cmp : Bool) (a : Nat) (n : Nat) (core : Nat) (ctx : Nat) (thread : Option Nat) (pc : Nat) (h1
    : s.Canon) : (State.checkCode s cmp a n core ctx thread pc).Canon := by
  unfold State.checkCode
  with_reducible repeat' first | assumption | apply State.checkBlocks_canon | split
theorem State.checkMerge_canon (s : State) (cmp : Bool) (a : Nat) (n : Nat) (core : Nat) (ctx : Nat) (thread : Option Nat) (pc : Nat)
    (h1 : s.Canon) : (State.checkMerge s cmp a n core ctx thread pc).Canon := by
  unfold State.checkMerge
  with_reducible repeat' first | assumption | apply State.checkBlocks_canon | split
theorem State.dropLine_canon (s : State) (line : Nat) (h1 : s.Canon) : (State.dropLine s line).Canon := h1
theorem State.allocate_canon (s : State) (line : Nat) (prio : Nat) (dirty : Bool) (h1 : s.Canon) : (State.allocate s line prio
    dirty).Canon := by
  unfold State.allocate
  with_reducible repeat' first
    | assumption | apply State.dropLine_canon | split | (simp only [↓State.canon_mk_iff]; apply State.canon_parts)
theorem State.touchLine_canon (s : State) (line : Nat) (cl : Nat) (wp : Nat) (ep : Nat) (store : Bool) (h1 : s.Canon) : (State.touchLine
    s line cl wp ep store).Canon := by
  unfold State.touchLine
  with_reducible repeat' first
    | assumption | apply State.allocate_canon | split | (simp only [↓State.canon_mk_iff]; apply State.canon_parts)
theorem State.touchLines_canon (s : State) (a : Nat) (n : Nat) (cl : Nat) (wp : Nat) (ep : Nat) (store : Bool) (h1 : s.Canon) :
    (State.touchLines s a n cl wp ep store).Canon := by
  unfold State.touchLines
  with_reducible repeat' first | assumption | apply State.touchLine_canon | apply canon_foldl | intro _
theorem State.arrive_canon (s : State) (op : Nat) (off : Nat) (bs : List Byte) (poison : Option Nat) (h1 : s.Canon) : (State.arrive s op
    off bs poison).Canon := h1
theorem State.logChoice_canon (s : State) (r : LogRec) (h1 : s.Canon) : (State.logChoice s r).Canon := by
  unfold State.logChoice
  with_reducible repeat' first | assumption | split | (simp only [↓State.canon_mk_iff]; apply State.canon_parts)
theorem State.logAtomic_canon (s : State) (p : Pending) (old : Nat) (h1 : s.Canon) : (State.logAtomic s p old).Canon := by
  unfold State.logAtomic
  with_reducible repeat' first | assumption | apply State.logChoice_canon | split
theorem State.reach_canon (s : State) (p : Pending) (h1 : s.Canon) : (State.reach s p).Canon := by
  unfold State.reach
  with_reducible repeat' first
    | assumption | apply State.sense_canon | apply State.touchLines_canon | apply State.checkMerge_canon | split
theorem State.applyOne_canon (s : State) (p : Pending) (h1 : s.Canon) : (State.applyOne s p).Canon := by
  unfold State.applyOne
  repeat' first
    | with_reducible assumption | with_reducible apply State.reach_canon | with_reducible apply State.writeBytes_canon
    | with_reducible apply State.countPoison_canon | with_reducible apply State.logAtomic_canon | with_reducible apply State.arrive_canon
    | split | (simp only [↓State.canon_mk_iff]; refine ⟨?_, ?_⟩) | with_reducible apply State.Canon.hbm
    | with_reducible apply State.Canon.scanout
theorem State.applyAll_canon (b0 : Nat) (b1 : State) (b2 : List Pending) (h1 : b1.Canon) : (State.applyAll b0 b1 b2).Canon := by
  induction b0 generalizing b1 b2 with
  | zero => simpa only [State.applyAll] using h1
  | succ k ih =>
    cases b2 with
    | nil => simpa only [State.applyAll] using h1
    | cons p ps =>
      simp only [State.applyAll]
      with_reducible repeat' first
        | assumption | apply State.reach_canon | apply State.writeBytes_canon | apply State.applyOne_canon | apply ih | split
theorem State.applyEntry_canon (s : State) (line : Nat) (h1 : s.Canon) : (State.applyEntry s line).Canon := by
  unfold State.applyEntry
  with_reducible repeat' first | assumption | apply State.applyAll_canon | (simp only [↓State.canon_mk_iff]; apply State.canon_parts)
theorem State.noteGrant_canon (s : State) (out : Nat) (input : Nat) (h1 : s.Canon) : (State.noteGrant s out input).Canon := h1
theorem State.pass_canon (s : State) (input : Nat) (a : Nat) (h1 : s.Canon) : (State.pass s input a).Canon := by
  unfold State.pass
  with_reducible repeat' first | assumption | apply State.noteGrant_canon | split
theorem State.grant_canon (s : State) (out : Nat) (h1 : s.Canon) : (State.grant s out).Canon := by
  unfold State.grant
  with_reducible repeat' first
    | assumption | apply State.noteGrant_canon | split | (simp only [↓State.canon_mk_iff]; apply State.canon_parts)
    | (simp only [↓State.canon_mk_iff]; refine ⟨?_, ?_⟩) | dsimp only | apply State.Canon.hbm | apply State.Canon.scanout
theorem State.makeRoom_canon (s : State) (out : Nat) (h1 : s.Canon) : (State.makeRoom s out).Canon := by
  unfold State.makeRoom
  with_reducible repeat' first | assumption | apply State.applyEntry_canon | split
theorem State.pull_canon (want : PortReq → Bool) (b1 : Nat) (b2 : State) (h1 : b2.Canon) : (State.pull want b1 b2).Canon := by
  induction b1 generalizing b2 with
  | zero =>
    unfold State.pull
    with_reducible repeat' first | assumption
  | succ k ih =>
    unfold State.pull
    with_reducible repeat' first | assumption | apply State.grant_canon | apply State.makeRoom_canon | apply ih | split
theorem State.pullAll_canon (s : State) (want : PortReq → Bool) (h1 : s.Canon) : (State.pullAll s want).Canon := by
  unfold State.pullAll
  with_reducible repeat' first | assumption | apply State.pull_canon
theorem State.drainLine_canon (s : State) (line : Nat) (h1 : s.Canon) : (State.drainLine s line).Canon := by
  unfold State.drainLine
  with_reducible repeat' first | assumption | apply State.applyEntry_canon | apply State.pullAll_canon
theorem State.drainAll_canon (s : State) (h1 : s.Canon) : (State.drainAll s).Canon := by
  unfold State.drainAll
  with_reducible repeat' first
    | assumption | apply State.pullAll_canon | apply State.applyAll_canon | (simp only [↓State.canon_mk_iff]; apply State.canon_parts)
theorem State.drainFor_canon (s : State) (a : Nat) (n : Nat) (h1 : s.Canon) : (State.drainFor s a n).Canon := by
  unfold State.drainFor
  with_reducible repeat' first | assumption | apply State.drainLine_canon | apply canon_foldl | split
theorem State.request_canon (s : State) (input : Nat) (p : Pending) (h1 : s.Canon) : (State.request s input p).Canon := h1
theorem State.writeBack_canon (s : State) (ls : List Nat) (h1 : s.Canon) : (State.writeBack s ls).Canon := by
  unfold State.writeBack
  with_reducible repeat' first | assumption | apply canon_foldl | intro _ | (simp only [↓State.canon_mk_iff]; apply State.canon_parts)
theorem State.rawRead_canon (s : State) (a : Nat) (n : Nat) (h1 : s.Canon) : (State.rawRead s a n).1.Canon := by
  unfold State.rawRead
  with_reducible repeat' first
    | assumption | apply State.writeBack_canon | apply State.drainLine_canon | apply State.sense_canon | apply canon_foldl
theorem State.rawWrite_canon (s : State) (a : Nat) (bs : List Byte) (h1 : s.Canon) : (State.rawWrite s a bs).Canon := by
  unfold State.rawWrite
  with_reducible repeat' first
    | assumption | apply State.dropLine_canon | apply State.drainLine_canon | apply State.setStoredBytes_canon | apply canon_foldl
    | (simp only [↓State.canon_mk_iff]; apply State.canon_parts)
theorem State.invalidateCache_canon (s : State) (core : Nat) (h1 : s.Canon) : (State.invalidateCache s core).Canon := h1
theorem State.updateCache_canon (s : State) (core : Nat) (a : Nat) (bs : List Byte) (h1 : s.Canon) : (State.updateCache s core a
    bs).Canon := by
  unfold State.updateCache
  with_reducible repeat' first | assumption | apply canon_foldl | intro _ | (simp only [↓State.canon_mk_iff]; apply State.canon_parts)
theorem State.dropCopies_canon (s : State) (core : Nat) (a : Nat) (n : Nat) (h1 : s.Canon) : (State.dropCopies s core a n).Canon := h1
theorem State.fillCache_canon (s : State) (core : Nat) (line : Nat) (bs : List Byte) (h1 : s.Canon) : (State.fillCache s core line
    bs).Canon := by
  unfold State.fillCache
  with_reducible repeat' first | assumption | split | (simp only [↓State.canon_mk_iff]; apply State.canon_parts)
theorem State.setTenant_canon (s : State) (t : Nat) (v : Tenant) (h1 : s.Canon) : (State.setTenant s t v).Canon := h1
theorem State.sendEvent_canon (s : State) (t : Nat) (evt : Nat) (status : Nat) (queue : Nat) (ctx : Nat) (node : Nat) (index : Nat)
    (value : Nat) (h1 : s.Canon) : (State.sendEvent s t evt status queue ctx node index value).Canon := by
  unfold State.sendEvent
  with_reducible repeat' first
    | assumption | apply State.setTenant_canon | split | (simp only [↓State.canon_mk_iff]; refine ⟨?_, ?_⟩) | dsimp only
    | apply State.Canon.hbm | apply State.Canon.scanout
theorem State.writeHeld_canon (s : State) (t : Nat) (h1 : s.Canon) : (State.writeHeld s t).Canon := by
  unfold State.writeHeld
  repeat' first
    | with_reducible assumption | with_reducible apply State.drainAll_canon | with_reducible apply State.rawWrite_canon
    | with_reducible apply State.setTenant_canon | split | (simp only [↓State.canon_mk_iff]; refine ⟨?_, ?_⟩)
    | with_reducible apply State.Canon.hbm | with_reducible apply State.Canon.scanout
theorem State.enqueueRecord_canon (s : State) (t : Nat) (r : RecInit) (h1 : s.Canon) : (State.enqueueRecord s t r).1.Canon := by
  unfold State.enqueueRecord
  repeat' first
    | with_reducible assumption | with_reducible apply State.setTenant_canon | with_reducible apply State.writeHeld_canon
    | with_reducible apply State.rawWrite_canon | split | (simp only [↓State.canon_mk_iff]; refine ⟨?_, ?_⟩)
    | with_reducible apply State.Canon.hbm | with_reducible apply State.Canon.scanout
theorem State.dropRecord_canon (s : State) (t : Nat) (h1 : s.Canon) : (State.dropRecord s t).Canon := by
  unfold State.dropRecord
  repeat' first
    | with_reducible assumption | with_reducible apply State.setTenant_canon | with_reducible apply State.rawWrite_canon | split
    | (simp only [↓State.canon_mk_iff]; refine ⟨?_, ?_⟩) | with_reducible apply State.Canon.hbm | with_reducible apply State.Canon.scanout
theorem State.report_canon (s : State) (t : Nat) (r : RecInit) (h1 : s.Canon) : (State.report s t r).1.Canon := by
  unfold State.report
  with_reducible repeat' first
    | assumption | apply State.dropRecord_canon | apply State.setTenant_canon | apply State.enqueueRecord_canon | split
    | (simp only [↓State.canon_mk_iff]; refine ⟨?_, ?_⟩) | dsimp only | apply State.Canon.hbm | apply State.Canon.scanout
theorem State.walked_canon (s : State) (die : Nat) (ctx : Nat) (va : Nat) (h1 : s.Canon) : (State.walked s die ctx va).Canon := by
  unfold State.walked
  repeat' first
    | with_reducible assumption | with_reducible apply State.countError_canon | with_reducible apply State.touchLines_canon
    | with_reducible apply State.sense_canon | with_reducible apply State.pass_canon | with_reducible apply State.drainFor_canon
    | with_reducible apply State.countPoison_canon | with_reducible apply canon_foldl | split | intro _
    | (simp only [↓State.canon_mk_iff]; refine ⟨?_, ?_⟩) | with_reducible apply State.Canon.hbm | with_reducible apply State.Canon.scanout
theorem State.fillWalkCache_canon (s : State) (die : Nat) (ctx : Nat) (va : Nat) (h1 : s.Canon) : (State.fillWalkCache s die ctx
    va).Canon := by
  unfold State.fillWalkCache
  with_reducible repeat' first | assumption | split | (simp only [↓State.canon_mk_iff]; apply State.canon_parts)
theorem State.readPage_canon (s : State) (w : Asker) (x : Xlat) (n : Nat) (h1 : s.Canon) : (State.readPage s w x n).1.Canon := by
  unfold State.readPage
  with_reducible repeat' first
    | assumption | apply State.sense_canon | apply State.pass_canon | apply State.drainFor_canon | apply State.touchLines_canon
    | apply State.checkCode_canon | apply State.countPoison_canon | split | (simp only [↓State.canon_mk_iff]; refine ⟨?_, ?_⟩)
    | dsimp only | apply State.Canon.hbm | apply State.Canon.scanout
theorem State.writePage_canon (s : State) (w : Asker) (x : Xlat) (bs : List Byte) (h1 : s.Canon) : (State.writePage s w x bs).Canon := by
  unfold State.writePage
  with_reducible repeat' first
    | assumption | apply State.pass_canon | apply State.drainFor_canon | apply State.checkMerge_canon | apply State.writeBytes_canon
    | apply State.touchLines_canon | split
theorem State.fillTlb_canon (s : State) (e : TlbEntry) (h1 : s.Canon) : (State.fillTlb s e).Canon := h1
theorem State.lookup_canon (s : State) (unit : Nat) (core : Nat) (ctx : Nat) (va : Nat) (kind : AccessKind) (h1 : s.Canon) :
    (State.lookup s unit core ctx va kind).1.Canon := by
  unfold State.lookup
  with_reducible repeat' first
    | assumption | apply State.fillTlb_canon | split | (simp only [↓State.canon_mk_iff]; refine ⟨?_, ?_⟩) | dsimp only
    | apply State.Canon.hbm | apply State.Canon.scanout
theorem State.sendMiss_canon (s : State) (core : Nat) (ctx : Nat) (va : Nat) (w : Waiter) (h1 : s.Canon) : (State.sendMiss s core ctx va
    w).Canon := h1
theorem State.takeMiss_canon (s : State) (die : Nat) (h1 : s.Canon) : (State.takeMiss s die).Canon := by
  unfold State.takeMiss
  with_reducible repeat' first
    | assumption | split | (simp only [↓State.canon_mk_iff]; refine ⟨?_, ?_⟩) | dsimp only | apply State.Canon.hbm
    | apply State.Canon.scanout
theorem State.engineXlat_canon (s : State) (die : Nat) (ctx : Nat) (va : Nat) (kind : AccessKind) (h1 : s.Canon) : (State.engineXlat s
    die ctx va kind).1.Canon := by
  unfold State.engineXlat
  with_reducible repeat' first
    | assumption | apply State.walked_canon | split | (simp only [↓State.canon_mk_iff]; refine ⟨?_, ?_⟩) | dsimp only
    | apply State.Canon.hbm | apply State.Canon.scanout
theorem State.setPage_canon (s : State) (op : Nat) (key : Nat) (w : WalkEnd) (h1 : s.Canon) : (State.setPage s op key w).Canon := h1
theorem State.askPage_canon (s : State) (op : Nat) (ctx : Nat) (engine : Nat) (va : Nat) (dst : Bool) (h1 : s.Canon) : (State.askPage s
    op ctx engine va dst).Canon := by
  unfold State.askPage
  with_reducible repeat' first
    | assumption | apply State.setPage_canon | split | (simp only [↓State.canon_mk_iff]; refine ⟨?_, ?_⟩) | dsimp only
    | apply State.Canon.hbm | apply State.Canon.scanout
theorem State.fetchBytes_canon (b0 : Nat) (b1 : State) (b2 : Asker) (b3 : Nat) (b4 : Nat) (b5 : List Byte) (h1 : b1.Canon) :
    (State.fetchBytes b0 b1 b2 b3 b4 b5).1.Canon := by
  induction b0 generalizing b1 b3 b4 b5 with
  | zero =>
    unfold State.fetchBytes
    with_reducible repeat' first | assumption
  | succ k ih =>
    unfold State.fetchBytes
    with_reducible repeat' first
      | assumption | apply State.lookup_canon | apply State.readPage_canon | apply ih | split
      | (simp only [↓State.canon_mk_iff]; refine ⟨?_, ?_⟩) | dsimp only | apply State.Canon.hbm | apply State.Canon.scanout
theorem State.logPlace_canon (s : State) (ctx : Nat) (va : Nat) (kind : AccessKind) (h1 : s.Canon) : (State.logPlace s ctx va
    kind).1.Canon := by
  unfold State.logPlace
  with_reducible repeat' first
    | assumption | apply State.engineXlat_canon | split | (simp only [↓State.canon_mk_iff]; refine ⟨?_, ?_⟩) | dsimp only
    | apply State.Canon.hbm | apply State.Canon.scanout
theorem State.updLog_canon (s : State) (ctx : Nat) (f : Log → Log) (h1 : s.Canon) : (State.updLog s ctx f).Canon := h1
theorem State.writeLogHeader_canon (s : State) (ctx : Nat) (h1 : s.Canon) : (State.writeLogHeader s ctx).Canon := by
  unfold State.writeLogHeader
  repeat' first
    | with_reducible assumption | with_reducible apply State.logPlace_canon | with_reducible apply State.updLog_canon
    | with_reducible apply State.writePage_canon | split | (simp only [↓State.canon_mk_iff]; refine ⟨?_, ?_⟩)
    | with_reducible apply State.Canon.hbm | with_reducible apply State.Canon.scanout
theorem State.logEvent_canon (s : State) (ctx : Nat) (h1 : s.Canon) : (State.logEvent s ctx).Canon := by
  unfold State.logEvent
  with_reducible repeat' first | assumption | apply State.sendEvent_canon | split
theorem State.writeLog_canon (s : State) (r : LogRec) (h1 : s.Canon) : (State.writeLog s r).Canon := by
  unfold State.writeLog
  repeat' first
    | with_reducible assumption | with_reducible apply State.logEvent_canon | with_reducible apply State.writeLogHeader_canon
    | with_reducible apply State.updLog_canon | with_reducible apply State.logPlace_canon | with_reducible apply State.writePage_canon
    | split | (simp only [↓State.canon_mk_iff]; refine ⟨?_, ?_⟩) | with_reducible apply State.Canon.hbm
    | with_reducible apply State.Canon.scanout
theorem State.flushLog_canon (s : State) (h1 : s.Canon) : (State.flushLog s).Canon := by
  unfold State.flushLog
  with_reducible repeat' first
    | assumption | apply State.writeLog_canon | apply canon_foldl | (simp only [↓State.canon_mk_iff]; apply State.canon_parts)
theorem State.readLog_canon (s : State) (ctx : Nat) (j : Nat) (h1 : s.Canon) : (State.readLog s ctx j).1.Canon := by
  unfold State.readLog
  with_reducible repeat' first
    | assumption | apply State.logPlace_canon | apply State.readPage_canon | split | (simp only [↓State.canon_mk_iff]; refine ⟨?_, ?_⟩)
    | dsimp only | apply State.Canon.hbm | apply State.Canon.scanout
theorem State.diverge_canon (s : State) (ctx : Nat) (h1 : s.Canon) : (State.diverge s ctx).Canon := by
  unfold State.diverge
  with_reducible repeat' first | assumption | apply State.logEvent_canon | apply State.writeLogHeader_canon | apply State.updLog_canon
theorem State.scanLog_canon (inStream : LogEntry → Bool) (ahead : List Nat) (ctx : Nat) (b3 : Nat) (b4 : Nat) (b5 : State) (h1 :
    b5.Canon) : (State.scanLog inStream ahead ctx b3 b4 b5).1.Canon := by
  induction b3 generalizing b4 b5 with
  | zero =>
    unfold State.scanLog
    with_reducible repeat' first | assumption
  | succ k ih =>
    unfold State.scanLog
    with_reducible repeat' first
      | assumption | apply State.readLog_canon | apply ih | split | (simp only [↓State.canon_mk_iff]; refine ⟨?_, ?_⟩) | dsimp only
      | apply State.Canon.hbm | apply State.Canon.scanout
theorem State.consume_canon (s : State) (ctx : Nat) (j : Nat) (h1 : s.Canon) : (State.consume s ctx j).Canon := by
  unfold State.consume
  with_reducible repeat' first | assumption | apply State.writeLogHeader_canon | apply State.updLog_canon
theorem State.nextRecord_canon (s : State) (ctx : Nat) (inStream : LogEntry → Bool) (h1 : s.Canon) : (State.nextRecord s ctx
    inStream).1.Canon := by
  unfold State.nextRecord
  with_reducible repeat' first
    | assumption | apply State.scanLog_canon | apply State.diverge_canon | split | (simp only [↓State.canon_mk_iff]; refine ⟨?_, ?_⟩)
    | dsimp only | apply State.Canon.hbm | apply State.Canon.scanout
theorem State.takeTurn_canon (s : State) (ctx : Nat) (inStream : LogEntry → Bool) (mine : LogEntry → Bool) (h1 : s.Canon) :
    (State.takeTurn s ctx inStream mine).1.Canon := by
  unfold State.takeTurn
  with_reducible repeat' first
    | assumption | apply State.nextRecord_canon | apply State.consume_canon | split | (simp only [↓State.canon_mk_iff]; refine ⟨?_, ?_⟩)
    | dsimp only | apply State.Canon.hbm | apply State.Canon.scanout
theorem State.senseCache_canon (s : State) (core : Nat) (a : Nat) (n : Nat) (h1 : s.Canon) : (State.senseCache s core a n).Canon := by
  unfold State.senseCache
  with_reducible repeat' first
    | assumption | apply State.countCorrected_canon | apply canon_foldl | split | intro _
    | (simp only [↓State.canon_mk_iff]; apply State.canon_parts)
theorem State.fillLines_canon (s : State) (core : Nat) (x : Xlat) (n : Nat) (h1 : s.Canon) : (State.fillLines s core x n).Canon := by
  unfold State.fillLines
  with_reducible repeat' first | assumption | apply State.fillCache_canon | apply canon_foldl | split | intro _
theorem State.performLoad_canon (s : State) (core : Nat) (ctx : Nat) (key : Nat) (pc : Nat) (x : Xlat) (n : Nat) (fresh : Bool) (h1 :
    s.Canon) : (State.performLoad s core ctx key pc x n fresh).1.Canon := by
  unfold State.performLoad
  with_reducible repeat' first
    | assumption | apply State.senseCache_canon | apply State.readPage_canon | apply State.fillLines_canon | apply State.countError_canon
    | split | (simp only [↓State.canon_mk_iff]; refine ⟨?_, ?_⟩) | dsimp only | apply State.Canon.hbm | apply State.Canon.scanout
theorem State.performStore_canon (s : State) (core : Nat) (ctx : Nat) (x : Xlat) (bs : List Byte) (h1 : s.Canon) : (State.performStore s
    core ctx x bs).Canon := by
  unfold State.performStore
  with_reducible repeat' first
    | assumption | apply State.request_canon | apply State.updateCache_canon | apply canon_foldl | split | intro _
theorem State.remotePiece_canon (s : State) (port : Nat) (page : Nat) (a : Access) (h1 : s.Canon) : (State.remotePiece s port page
    a).Canon := h1
theorem State.awaitPeer_canon (s : State) (key : Nat) (gid : Nat) (port : Nat) (page : Nat) (a : Access) (h1 : s.Canon) :
    (State.awaitPeer s key gid port page a).Canon := h1
theorem State.performAtomic_canon (s : State) (key : Nat) (g : Group) (a : Access) (x : Xlat) (h1 : s.Canon) : (State.performAtomic s
    key g a x).Canon := by
  unfold State.performAtomic
  with_reducible repeat' first
    | assumption | apply State.countError_canon | apply State.arrive_canon | apply State.request_canon | apply State.dropCopies_canon
    | split
theorem State.performLocal_canon (s : State) (key : Nat) (g : Group) (a : Access) (x : Xlat) (h1 : s.Canon) : (State.performLocal s key
    g a x).Canon := by
  unfold State.performLocal
  with_reducible repeat' first
    | assumption | apply State.drainAll_canon | apply State.invalidateCache_canon | apply State.performLoad_canon
    | apply State.arrive_canon | apply State.performStore_canon | apply State.performAtomic_canon | apply State.drainFor_canon | split
theorem State.performAccess_canon (s : State) (key : Nat) (g : Group) (a : Access) (x : Xlat) (h1 : s.Canon) : (State.performAccess s
    key g a x).Canon := by
  unfold State.performAccess
  with_reducible repeat' first
    | assumption | apply State.drainAll_canon | apply State.remotePiece_canon | apply State.awaitPeer_canon
    | apply State.performLocal_canon | split | (simp only [↓State.canon_mk_iff]; apply State.canon_parts)
theorem State.accessTurn_canon (s : State) (key : Nat) (g : Group) (a : Access) (h1 : s.Canon) : (State.accessTurn s key g a).1.Canon :=
    by
  unfold State.accessTurn
  with_reducible repeat' first | assumption | apply State.takeTurn_canon | split
theorem State.advanceKept_canon (key : Nat) (b1 : Nat) (b2 : Nat) (b3 : State) (h1 : b3.Canon) : (State.advanceKept key b1 b2 b3).Canon
    := by
  induction b1 generalizing b2 b3 with
  | zero =>
    unfold State.advanceKept
    repeat' first | with_reducible assumption
  | succ k ih =>
    unfold State.advanceKept
    repeat' first
      | with_reducible assumption | with_reducible apply State.lookup_canon | with_reducible apply State.accessTurn_canon
      | with_reducible apply State.setThread_canon | with_reducible apply State.performAccess_canon
      | with_reducible apply State.sendMiss_canon | with_reducible apply ih | split | (simp only [↓State.canon_mk_iff]; refine ⟨?_, ?_⟩)
      | with_reducible apply State.Canon.hbm | with_reducible apply State.Canon.scanout
theorem State.poisonLanded_canon (s : State) (key : Nat) (addr : Nat) (h1 : s.Canon) : (State.poisonLanded s key addr).Canon := h1
theorem State.advance_canon (s : State) (key : Nat) (h1 : s.Canon) : (State.advance s key).Canon := by
  unfold State.advance
  with_reducible repeat' first | assumption | apply State.advanceKept_canon
theorem State.resumeKept_canon (s : State) (key : Nat) (h1 : s.Canon) : (State.resumeKept s key).Canon := by
  unfold State.resumeKept
  with_reducible repeat' first | assumption | apply State.updThread_canon | apply State.advance_canon
theorem Act.illegal_canon  : (Act.illegal).Canon := by
  unfold Act.illegal
  repeat' first | exact True.intro
theorem State.moved_canon (s : State) (h1 : s.Canon) : (State.moved s).Canon := h1
theorem State.settle_canon (s : State) (h1 : s.Canon) : (State.settle s).Canon := by
  unfold State.settle
  repeat' first
    | with_reducible assumption | with_reducible apply State.flushLog_canon | with_reducible apply State.advance_canon
    | with_reducible apply canon_foldl | split | intro _ | (simp only [↓State.canon_mk_iff]; refine ⟨?_, ?_⟩)
    | with_reducible apply State.Canon.hbm | with_reducible apply State.Canon.scanout
theorem happen_canon (s : State) (h1 : s.Canon) : (CanonOut (happen s)) := by
  unfold happen
  with_reducible repeat' first | assumption | apply State.moved_canon | apply State.settle_canon | apply canonOut_next
theorem State.progress_canon (s : State) (c : Nat) (h1 : s.Canon) : (State.progress s c).Canon := h1
theorem State.readVector_canon (s : State) (key : Nat) (th : Thread) (g : Group) (cause : Nat) (h1 : s.Canon) : (State.readVector s key
    th g cause).1.Canon := by
  unfold State.readVector
  with_reducible repeat' first
    | assumption | apply State.fetchBytes_canon | split | (simp only [↓State.canon_mk_iff]; refine ⟨?_, ?_⟩) | dsimp only
    | apply State.Canon.hbm | apply State.Canon.scanout
theorem State.awaitPage_canon (s : State) (key : Nat) (va : Nat) (kind : AccessKind) (size : Nat) (h1 : s.Canon) : (State.awaitPage s
    key va kind size).Canon := by
  unfold State.awaitPage
  with_reducible repeat' first | assumption | apply State.sendMiss_canon | apply State.setThread_canon | split
theorem State.awaitBytes_canon (s : State) (key : Nat) (r : RemoteRead) (h1 : s.Canon) : (State.awaitBytes s key r).Canon := by
  unfold State.awaitBytes
  with_reducible repeat' first | assumption | split | (simp only [↓State.canon_mk_iff]; apply State.canon_parts)
theorem State.awaitFetch_canon (s : State) (key : Nat) (f : FetchStop) (size : Nat) (h1 : s.Canon) : (State.awaitFetch s key f
    size).Canon := by
  unfold State.awaitFetch
  with_reducible repeat' first | assumption | apply State.awaitPage_canon | apply State.awaitBytes_canon | split
theorem State.stopThresher_canon (s : State) (key : Nat) (h1 : s.Canon) : (State.stopThresher s key).Canon := by
  unfold State.stopThresher
  with_reducible repeat' first
    | assumption | apply State.setThread_canon | split | (simp only [↓State.canon_mk_iff]; apply State.canon_parts)
theorem State.parkAll_canon (s : State) (cause : Nat) (ts : List LaneTrap) (h1 : s.Canon) : (State.parkAll s cause ts).Canon := by
  unfold State.parkAll
  repeat' first
    | with_reducible assumption | with_reducible apply State.report_canon | with_reducible apply State.stopThresher_canon
    | with_reducible apply State.updThread_canon | with_reducible apply canon_foldl | split | intro _
    | (simp only [↓State.canon_mk_iff]; refine ⟨?_, ?_⟩) | with_reducible apply State.Canon.hbm | with_reducible apply State.Canon.scanout
theorem State.deliver_canon (s : State) (cause : Nat) (ts : List LaneTrap) (h1 : s.Canon) : (State.deliver s cause ts).Canon := by
  unfold State.deliver
  with_reducible repeat' first
    | assumption | apply State.readVector_canon | apply State.setThread_canon | apply State.awaitFetch_canon | apply State.parkAll_canon
    | apply canon_foldl_fst | split | intro _ | (simp only [↓State.canon_mk_iff]; refine ⟨?_, ?_⟩) | dsimp only | apply State.Canon.hbm
    | apply State.Canon.scanout
theorem State.takeTraps_canon (s : State) (ts : List LaneTrap) (h1 : s.Canon) : (State.takeTraps s ts).Canon := by
  unfold State.takeTraps
  repeat' first
    | with_reducible assumption | with_reducible apply State.updThread_canon | with_reducible apply State.deliver_canon
    | with_reducible apply canon_foldl | split | intro _ | (simp only [↓State.canon_mk_iff]; refine ⟨?_, ?_⟩)
    | with_reducible apply State.Canon.hbm | with_reducible apply State.Canon.scanout
theorem State.retire_canon (s : State) (key : Nat) (h1 : s.Canon) : (State.retire s key).Canon := h1
theorem State.stallAll_canon (s : State) (vs : List Lane) (why : Stall) (h1 : s.Canon) : (State.stallAll s vs why).Canon := by
  unfold State.stallAll
  with_reducible repeat' first | assumption | apply State.updThread_canon | apply canon_foldl | intro _
theorem State.noteHolders_canon (s : State) (vs : List Lane) (h1 : s.Canon) : (State.noteHolders s vs).Canon := by
  unfold State.noteHolders
  with_reducible repeat' first | assumption | apply State.updThread_canon | apply canon_foldl | intro _
theorem State.correct_canon (s : State) (v : Lane) (reads : List (Dst × PFmt)) (h1 : s.Canon) : (State.correct s v reads).Canon := by
  unfold State.correct
  with_reducible repeat' first | assumption | apply State.countCorrected_canon | apply canon_foldl | intro _
theorem deliverPoison_canon (v : Lane) (s : State) (reads : List (Dst × PFmt)) (h1 : s.Canon) : (deliverPoison v s reads).2.1.Canon := by
  unfold deliverPoison
  with_reducible repeat' first
    | assumption | apply State.correct_canon | apply State.countError_canon | apply State.updThread_canon | apply canon_foldl | split
    | intro _ | (simp only [↓State.canon_mk_iff]; refine ⟨?_, ?_⟩) | dsimp only | apply State.Canon.hbm | apply State.Canon.scanout
theorem State.latchClock_canon (s : State) (v : Lane) (clk : Bool) (h1 : s.Canon) : (State.latchClock s v clk).Canon := by
  unfold State.latchClock
  with_reducible repeat' first | assumption | apply State.updThread_canon | split
theorem State.waitIn_canon (s : State) (key : Nat) (w : Wait) (h1 : s.Canon) : (State.waitIn s key w).Canon := h1
theorem State.apply_canon (s : State) (v : Lane) (clk : Bool) (a : Act) (h1 : s.Canon) (h2 : a.Canon) : (State.apply s v clk a).1.Canon
    := by
  unfold State.apply
  with_reducible repeat' first
    | assumption | apply State.latchClock_canon | apply State.retire_canon | apply State.updThread_canon | apply State.waitIn_canon
    | apply State.awaitPage_canon | split | (simp only [↓State.canon_mk_iff]; refine ⟨?_, ?_⟩) | apply State.Canon.hbm
    | apply State.Canon.scanout
  all_goals exact h2
theorem laneStep_canon (p : Spec) (v : Lane) (s : State) (h1 : p.Canon) (h2 : s.Canon) : (laneStep p v s).1.Canon := by
  unfold laneStep
  with_reducible repeat' first
    | assumption | apply deliverPoison_canon | apply State.apply_canon | split | (simp only [↓State.canon_mk_iff]; refine ⟨?_, ?_⟩)
    | dsimp only | apply State.Canon.hbm | apply State.Canon.scanout | apply Spec.Canon.lane | apply Spec.Canon.spoil
theorem runLanes_canon (p : Spec) (vs : List Lane) (s : State) (h1 : p.Canon) (h2 : s.Canon) : (runLanes p vs s).1.Canon := by
  unfold runLanes
  with_reducible repeat' first | assumption | apply laneStep_canon | apply canon_foldl_fst | intro _
theorem runOnce_canon (p : Spec) (all : List Lane) (s : State) (h1 : p.Canon) (h2 : s.Canon) : (runOnce p all s).1.Canon := by
  unfold runOnce
  with_reducible repeat' first
    | assumption | apply deliverPoison_canon | apply State.latchClock_canon | apply State.retire_canon | apply State.waitIn_canon
    | apply State.awaitPage_canon | apply canon_foldl | split | intro _ | (simp only [↓State.canon_mk_iff]; refine ⟨?_, ?_⟩) | dsimp only
    | apply State.Canon.hbm | apply State.Canon.scanout | apply Spec.Canon.lane | refine Act.of_done (by assumption) ?_
    | refine Act.of_jump (by assumption) ?_ | refine Act.of_raw (by assumption) ?_ | refine Act.of_trapIn (by assumption) ?_
    | refine Act.of_wait (by assumption) ?_ | refine Act.of_miss (by assumption) ?_
theorem State.tick_canon (s : State) (h1 : s.Canon) : (State.tick s).Canon := h1
theorem State.trapGather_canon (s : State) (vs : List Lane) (cause : Nat) (h1 : s.Canon) : (State.trapGather s vs cause).Canon := by
  unfold State.trapGather
  with_reducible repeat' first | assumption | apply State.takeTraps_canon
theorem State.lateTraps_canon (s : State) (vs : List Lane) (h1 : s.Canon) : (State.lateTraps s vs).Canon := by
  unfold State.lateTraps
  with_reducible repeat' first | assumption | apply State.takeTraps_canon | apply State.updThread_canon | apply canon_foldl | intro _
theorem State.trapIllegal_canon (s : State) (p : Spec) (vs : List Lane) (h1 : s.Canon) (_h2 : p.Canon) : (State.trapIllegal s p vs).Canon
    := by
  unfold State.trapIllegal
  with_reducible repeat' first | assumption | apply State.takeTraps_canon
theorem issue_canon (i : Instr) (p : Spec) (s : State) (h1 : p.Canon) (h2 : s.Canon) : (CanonOut (issue i p s)) := by
  unfold issue
  with_reducible repeat' first
    | assumption | apply State.tick_canon | apply happen_canon | apply State.lateTraps_canon | apply State.trapIllegal_canon
    | apply State.stallAll_canon | apply State.noteHolders_canon | apply State.retire_canon | apply runOnce_canon | apply runLanes_canon
    | apply State.takeTraps_canon | apply canonOut_next | apply canonOut_fault | apply canon_foldl | split | intro _ | dsimp only
    | apply Spec.Canon.after
theorem issueIllegal_canon (s : State) (h1 : s.Canon) : (CanonOut (issueIllegal s)) := by
  unfold issueIllegal
  with_reducible repeat' first
    | assumption | apply State.tick_canon | apply happen_canon | apply State.lateTraps_canon | apply State.trapGather_canon
    | apply canonOut_fault | split
theorem specOf_canon (i : Instr) (lane : Lane → State → Act) (h1 : (∀ a0 a1, a1.Canon → (lane a0 a1).Canon)) : (specOf i lane).Canon := by
  unfold specOf
  with_reducible repeat' first | assumption | split | intro _ | apply Spec.Canon.mk
theorem Lane.floatDone_canon (v : Lane) (s : State) (fl : Nat) (write : State → State) (h1 : s.Canon) (h2 : (∀ a0, a0.Canon → (write
    a0).Canon)) : (Lane.floatDone v s fl write).Canon := by
  unfold Lane.floatDone
  with_reducible repeat' first
    | assumption | apply Lane.raiseFlags_canon | apply h2 | apply Act.canon_done | apply Act.canon_trapIn | split | dsimp only

end Sys2Proof.Machine
end

