-- ==== Sys2Proof/Laws/CanonLoad.lean ====
section
/-!
SUPPORT. What the load, store, copy, control and synchronisation families keep:
HBM and scanout memory in their canonical form.
-/
namespace Sys2Proof.Machine
set_option Elab.async false
set_option linter.unusedSimpArgs false

theorem State.spWrite_canon (s : State) (gid : Nat) (o : Nat) (bs : List Byte) (h1 : s.Canon) : (State.spWrite s gid o bs).Canon := h1
theorem State.dropEntries_canon (s : State) (op : Nat) (h1 : s.Canon) : (State.dropEntries s op).Canon := h1
theorem State.enter_canon (s : State) (e : SbEntry) (h1 : s.Canon) : (State.enter s e).Canon := h1
theorem State.newOp_canon (s : State) (o : AOp) (h1 : s.Canon) : (State.newOp s o).1.Canon := h1
theorem State.endOp_canon (s : State) (op : Nat) (h1 : s.Canon) : (State.endOp s op).Canon := h1
theorem State.senseScratch_canon (s : State) (gid : Nat) (ctx : Nat) (thread : Option Nat) (pc : Nat) (o : Nat) (n : Nat) (h1 : s.Canon)
    : (State.senseScratch s gid ctx thread pc o n).Canon := by
  unfold State.senseScratch
  with_reducible repeat' first
    | assumption | apply State.countError_canon | apply State.countCorrected_canon | apply canon_foldl | split | intro _
    | (simp only [↓State.canon_mk_iff]; apply State.canon_parts)
theorem State.readScratch_canon (s : State) (o : AOp) (gid : Nat) (lo : Nat) (n : Nat) (h1 : s.Canon) : (State.readScratch s o gid lo
    n).Canon := by
  unfold State.readScratch
  with_reducible repeat' first | assumption | apply State.senseScratch_canon | (simp only [↓State.canon_mk_iff]; apply State.canon_parts)
theorem State.readOperand_canon (s : State) (o : AOp) (rs : List (Nat × Nat)) (h1 : s.Canon) : (State.readOperand s o rs).Canon := by
  unfold State.readOperand
  with_reducible repeat' first
    | assumption | apply State.senseScratch_canon | apply State.updThread_canon | apply canon_foldl | split | intro _
    | (simp only [↓State.canon_mk_iff]; apply State.canon_parts)
theorem Lane.plainRead_canon (v : Lane) (s : State) (rs : List (Nat × Nat)) (k : State → Group → Act) (h1 : s.Canon) (h2 : (∀ a0 a1,
    a0.Canon → (k a0 a1).Canon)) : (Lane.plainRead v s rs k).Canon := by
  unfold Lane.plainRead
  with_reducible repeat' first
    | assumption | apply State.senseScratch_canon | apply State.updThread_canon | apply h2 | apply Act.canon_trapIn | apply canon_foldl
    | split | intro _ | dsimp only
theorem Lane.plainLoad_canon (v : Lane) (s : State) (o : Nat) (n : Nat) (k : State → List Byte → Act) (h1 : s.Canon) (h2 : (∀ a0 a1,
    a0.Canon → (k a0 a1).Canon)) : (Lane.plainLoad v s o n k).Canon := by
  unfold Lane.plainLoad
  with_reducible repeat' first | assumption | apply Lane.plainRead_canon | apply h2 | intro _
theorem State.performSts_canon (s : State) (op : Nat) (h1 : s.Canon) : (State.performSts s op).Canon := by
  unfold State.performSts
  with_reducible repeat' first | assumption | apply State.dropEntries_canon | apply State.endOp_canon | apply State.spWrite_canon | split
theorem State.releaseSts_canon (s : State) (h1 : s.Canon) : (State.releaseSts s).Canon := by
  unfold State.releaseSts
  with_reducible repeat' first | assumption | apply State.performSts_canon | apply canon_foldl | intro _
theorem State.retireEntries_canon (s : State) (op : Nat) (h1 : s.Canon) : (State.retireEntries s op).Canon := by
  unfold State.retireEntries
  with_reducible repeat' first | assumption | apply State.releaseSts_canon | apply State.dropEntries_canon
theorem Lane.scratchStore_canon (v : Lane) (s : State) (o : Nat) (bs : List Byte) (h1 : s.Canon) : (Lane.scratchStore v s o bs).Canon :=
    by
  unfold Lane.scratchStore
  with_reducible repeat' first
    | assumption | apply State.newOp_canon | apply State.performSts_canon | apply State.enter_canon | apply State.spWrite_canon | split
theorem State.checkGlobal_canon (s : State) (v : Lane) (a : Nat) (n : Nat) (aligned : Bool) (k : Act) (_h1 : s.Canon) (h2 : k.Canon) :
    (State.checkGlobal s v a n aligned k).Canon := by
  unfold State.checkGlobal
  repeat' first | with_reducible assumption | exact True.intro | split
theorem State.present_canon (s : State) (key : Nat) (as : List Access) (h1 : s.Canon) : (State.present s key as).Canon := by
  unfold State.present
  with_reducible repeat' first
    | assumption | apply State.advance_canon | apply State.updThread_canon | (simp only [↓State.canon_mk_iff]; apply State.canon_parts)
theorem Lane.newLoad_canon (v : Lane) (s : State) (n : Nat) (parts : Nat) (sx : Bool) (dst : List Dst) (atomic : Option Nat) (h1 :
    s.Canon) : (Lane.newLoad v s n parts sx dst atomic).1.Canon := by
  unfold Lane.newLoad
  with_reducible repeat' first | assumption | apply State.newOp_canon | apply State.pendDsts_canon
theorem Lane.load_canon (v : Lane) (x : Fields) (s : State) (h1 : s.Canon) : (Lane.load v x s).Canon := by
  unfold Lane.load
  with_reducible repeat' first
    | assumption | apply State.checkGlobal_canon | apply Lane.newLoad_canon | apply State.present_canon | apply Act.canon_done
theorem execLd_canon (x : Fields) (s : State) (h1 : s.Canon) : (CanonOut (execLd x s)) := by
  unfold execLd
  with_reducible repeat' first | assumption | apply issue_canon | apply specOf_canon | apply Lane.load_canon | intro _
theorem Lane.store_canon (v : Lane) (x : Fields) (s : State) (h1 : s.Canon) : (Lane.store v x s).Canon := by
  unfold Lane.store
  with_reducible repeat' first | assumption | apply State.checkGlobal_canon | apply State.present_canon | apply Act.canon_done
theorem execSt_canon (x : Fields) (s : State) (h1 : s.Canon) : (CanonOut (execSt x s)) := by
  unfold execSt
  with_reducible repeat' first | assumption | apply issue_canon | apply specOf_canon | apply Lane.store_canon | intro _
theorem Lane.loadScratch_canon (v : Lane) (x : Fields) (s : State) (h1 : s.Canon) : (Lane.loadScratch v x s).Canon := by
  unfold Lane.loadScratch
  repeat' first
    | with_reducible assumption | exact True.intro | with_reducible apply Lane.plainLoad_canon | with_reducible apply Lane.wr_canon
    | with_reducible apply Act.canon_done | split | intro _ | dsimp only
theorem execLds_canon (x : Fields) (s : State) (h1 : s.Canon) : (CanonOut (execLds x s)) := by
  unfold execLds
  with_reducible repeat' first
    | assumption | apply issue_canon | apply specOf_canon | apply Lane.loadScratch_canon | intro _
    | (simp only [↓State.canon_mk_iff]; refine ⟨?_, ?_⟩) | dsimp only | apply State.Canon.hbm | apply State.Canon.scanout
    | apply Spec.Canon.lane | apply Spec.Canon.spoil | apply Spec.Canon.after | apply Spec.Canon.mk
theorem Lane.storeScratch_canon (v : Lane) (x : Fields) (s : State) (h1 : s.Canon) : (Lane.storeScratch v x s).Canon := by
  unfold Lane.storeScratch
  repeat' first
    | with_reducible assumption | exact True.intro | with_reducible apply Lane.scratchStore_canon | with_reducible apply Act.canon_done
    | split | dsimp only
theorem execSts_canon (x : Fields) (s : State) (h1 : s.Canon) : (CanonOut (execSts x s)) := by
  unfold execSts
  with_reducible repeat' first
    | assumption | apply issue_canon | apply specOf_canon | apply Lane.storeScratch_canon | intro _
    | (simp only [↓State.canon_mk_iff]; refine ⟨?_, ?_⟩) | dsimp only | apply State.Canon.hbm | apply State.Canon.scanout
    | apply Spec.Canon.lane | apply Spec.Canon.spoil | apply Spec.Canon.after | apply Spec.Canon.mk
theorem Lane.loadTensor_canon (v : Lane) (x : Fields) (s : State) (h1 : s.Canon) : (Lane.loadTensor v x s).Canon := by
  unfold Lane.loadTensor
  repeat' first
    | with_reducible assumption | exact True.intro | with_reducible apply Lane.plainLoad_canon | with_reducible apply Lane.wr_canon
    | with_reducible apply Act.canon_done | split | intro _ | dsimp only
theorem execLdt_canon (x : Fields) (s : State) (h1 : s.Canon) : (CanonOut (execLdt x s)) := by
  unfold execLdt
  with_reducible repeat' first
    | assumption | apply issue_canon | apply specOf_canon | apply Lane.loadTensor_canon | intro _
    | (simp only [↓State.canon_mk_iff]; refine ⟨?_, ?_⟩) | dsimp only | apply State.Canon.hbm | apply State.Canon.scanout
    | apply Spec.Canon.lane | apply Spec.Canon.spoil | apply Spec.Canon.after | apply Spec.Canon.mk
theorem execLdk_canon (x : Fields) (s : State) (h1 : s.Canon) : (CanonOut (execLdk x s)) := by
  unfold execLdk
  repeat' first
    | with_reducible assumption | exact True.intro | with_reducible apply issue_canon | with_reducible apply specOf_canon
    | with_reducible apply State.newOp_canon | with_reducible apply State.pendDsts_canon | with_reducible apply Act.canon_done | split
    | intro _ | dsimp only
theorem State.ignoreRa_canon (s : State) (c : Nat) (ra : Bool) (h1 : s.Canon) : (State.ignoreRa s c ra).1.Canon := by
  unfold State.ignoreRa
  with_reducible repeat' first | assumption | apply State.updLog_canon | split
theorem Lane.atomic_canon (v : Lane) (x : Fields) (returns : Bool) (s : State) (h1 : s.Canon) : (Lane.atomic v x returns s).Canon := by
  unfold Lane.atomic
  with_reducible repeat' first
    | assumption | apply State.checkGlobal_canon | apply State.ignoreRa_canon | apply Lane.newLoad_canon | apply State.present_canon
    | apply Act.canon_done | split
theorem atomSpec_canon (i : Instr) (x : Fields) : (atomSpec i x).Canon := by
  unfold atomSpec
  with_reducible repeat' first | apply specOf_canon | apply Lane.atomic_canon | intro _
theorem redSpec_canon (i : Instr) (x : Fields) : (redSpec i x).Canon := by
  unfold redSpec
  with_reducible repeat' first | apply specOf_canon | apply Lane.atomic_canon | intro _
theorem execAtomAdd_canon (x : Fields) (s : State) (h1 : s.Canon) : (CanonOut (execAtomAdd x s)) := by
  unfold execAtomAdd
  with_reducible repeat' first | assumption | apply issue_canon | apply atomSpec_canon
theorem execAtomSub_canon (x : Fields) (s : State) (h1 : s.Canon) : (CanonOut (execAtomSub x s)) := by
  unfold execAtomSub
  with_reducible repeat' first | assumption | apply issue_canon | apply atomSpec_canon
theorem execAtomMinN_canon (x : Fields) (s : State) (h1 : s.Canon) : (CanonOut (execAtomMinN x s)) := by
  unfold execAtomMinN
  with_reducible repeat' first | assumption | apply issue_canon | apply atomSpec_canon
theorem execAtomMaxN_canon (x : Fields) (s : State) (h1 : s.Canon) : (CanonOut (execAtomMaxN x s)) := by
  unfold execAtomMaxN
  with_reducible repeat' first | assumption | apply issue_canon | apply atomSpec_canon
theorem execAtomAnd_canon (x : Fields) (s : State) (h1 : s.Canon) : (CanonOut (execAtomAnd x s)) := by
  unfold execAtomAnd
  with_reducible repeat' first | assumption | apply issue_canon | apply atomSpec_canon
theorem execAtomOr_canon (x : Fields) (s : State) (h1 : s.Canon) : (CanonOut (execAtomOr x s)) := by
  unfold execAtomOr
  with_reducible repeat' first | assumption | apply issue_canon | apply atomSpec_canon
theorem execAtomXor_canon (x : Fields) (s : State) (h1 : s.Canon) : (CanonOut (execAtomXor x s)) := by
  unfold execAtomXor
  with_reducible repeat' first | assumption | apply issue_canon | apply atomSpec_canon
theorem execAtomXchg_canon (x : Fields) (s : State) (h1 : s.Canon) : (CanonOut (execAtomXchg x s)) := by
  unfold execAtomXchg
  with_reducible repeat' first | assumption | apply issue_canon | apply atomSpec_canon
theorem execAtomCas_canon (x : Fields) (s : State) (h1 : s.Canon) : (CanonOut (execAtomCas x s)) := by
  unfold execAtomCas
  with_reducible repeat' first | assumption | apply issue_canon | apply atomSpec_canon
theorem execAtomInc_canon (x : Fields) (s : State) (h1 : s.Canon) : (CanonOut (execAtomInc x s)) := by
  unfold execAtomInc
  with_reducible repeat' first | assumption | apply issue_canon | apply atomSpec_canon
theorem execAtomDec_canon (x : Fields) (s : State) (h1 : s.Canon) : (CanonOut (execAtomDec x s)) := by
  unfold execAtomDec
  with_reducible repeat' first | assumption | apply issue_canon | apply atomSpec_canon
theorem execAtomMinS_canon (x : Fields) (s : State) (h1 : s.Canon) : (CanonOut (execAtomMinS x s)) := by
  unfold execAtomMinS
  with_reducible repeat' first | assumption | apply issue_canon | apply atomSpec_canon
theorem execAtomMaxS_canon (x : Fields) (s : State) (h1 : s.Canon) : (CanonOut (execAtomMaxS x s)) := by
  unfold execAtomMaxS
  with_reducible repeat' first | assumption | apply issue_canon | apply atomSpec_canon
theorem execAfadd_canon (x : Fields) (s : State) (h1 : s.Canon) : (CanonOut (execAfadd x s)) := by
  unfold execAfadd
  with_reducible repeat' first | assumption | apply issue_canon | apply atomSpec_canon
theorem execAmxf_canon (x : Fields) (s : State) (h1 : s.Canon) : (CanonOut (execAmxf x s)) := by
  unfold execAmxf
  with_reducible repeat' first | assumption | apply issue_canon | apply atomSpec_canon
theorem execAmxi_canon (x : Fields) (s : State) (h1 : s.Canon) : (CanonOut (execAmxi x s)) := by
  unfold execAmxi
  with_reducible repeat' first | assumption | apply issue_canon | apply atomSpec_canon
theorem execRed_canon (x : Fields) (s : State) (h1 : s.Canon) : (CanonOut (execRed x s)) := by
  unfold execRed
  with_reducible repeat' first | assumption | apply issue_canon | apply redSpec_canon
theorem execRedFadd_canon (x : Fields) (s : State) (h1 : s.Canon) : (CanonOut (execRedFadd x s)) := by
  unfold execRedFadd
  with_reducible repeat' first | assumption | apply issue_canon | apply redSpec_canon
theorem execRedAmxf_canon (x : Fields) (s : State) (h1 : s.Canon) : (CanonOut (execRedAmxf x s)) := by
  unfold execRedAmxf
  with_reducible repeat' first | assumption | apply issue_canon | apply redSpec_canon
theorem execRedAmxi_canon (x : Fields) (s : State) (h1 : s.Canon) : (CanonOut (execRedAmxi x s)) := by
  unfold execRedAmxi
  with_reducible repeat' first | assumption | apply issue_canon | apply redSpec_canon
theorem Lane.fence_canon (v : Lane) (x : Fields) (s : State) (h1 : s.Canon) : (Lane.fence v x s).Canon := by
  unfold Lane.fence
  with_reducible repeat' first
    | assumption | apply State.drainAll_canon | apply State.invalidateCache_canon | apply Act.canon_done | split
theorem execFence_canon (x : Fields) (s : State) (h1 : s.Canon) : (CanonOut (execFence x s)) := by
  unfold execFence
  with_reducible repeat' first
    | assumption | apply issue_canon | apply specOf_canon | apply Lane.fence_canon | intro _
    | (simp only [↓State.canon_mk_iff]; refine ⟨?_, ?_⟩) | dsimp only | apply State.Canon.hbm | apply State.Canon.scanout
    | apply Spec.Canon.lane | apply Spec.Canon.spoil | apply Spec.Canon.after | apply Spec.Canon.mk
theorem Lane.hint_canon (v : Lane) (x : Fields) (s : State) (k : State → Xlat → State) (h1 : s.Canon) (h2 : (∀ a0 a1, a0.Canon → (k a0
    a1).Canon)) : (Lane.hint v x s k).Canon := by
  unfold Lane.hint
  with_reducible repeat' first | assumption | apply State.lookup_canon | apply h2 | apply Act.canon_done | split | dsimp only
theorem execPref_canon (x : Fields) (s : State) (h1 : s.Canon) : (CanonOut (execPref x s)) := by
  unfold execPref
  with_reducible repeat' first
    | assumption | apply issue_canon | apply specOf_canon | apply Lane.hint_canon | apply State.checkCode_canon | apply State.sense_canon
    | apply State.drainLine_canon | apply State.allocate_canon | apply State.fillLines_canon | split | intro _
theorem execEvict_canon (x : Fields) (s : State) (h1 : s.Canon) : (CanonOut (execEvict x s)) := by
  unfold execEvict
  with_reducible repeat' first
    | assumption | apply issue_canon | apply specOf_canon | apply Lane.hint_canon | intro _
    | (simp only [↓State.canon_mk_iff]; apply State.canon_parts)
theorem State.beat_canon (s : State) (a : Nat) (h1 : s.Canon) : (State.beat s a).Canon := by
  unfold State.beat
  with_reducible repeat' first | assumption | apply State.grant_canon
theorem execWriteQueueApply_canon (line : Nat) (s : State) (h1 : s.Canon) : (CanonOut (execWriteQueueApply line s)) := by
  unfold execWriteQueueApply
  with_reducible repeat' first
    | assumption | apply happen_canon | apply State.applyEntry_canon | apply State.beat_canon | apply canonOut_next | split
theorem execTranslationMiss_canon (die : Nat) (s : State) (h1 : s.Canon) : (CanonOut (execTranslationMiss die s)) := by
  unfold execTranslationMiss
  with_reducible repeat' first | assumption | apply happen_canon | apply State.takeMiss_canon | apply canonOut_next | split
theorem State.serve_canon (s : State) (core : Nat) (ctx : Nat) (w : Waiter) (e : TlbEntry) (h1 : s.Canon) : (State.serve s core ctx w
    e).Canon := by
  unfold State.serve
  repeat' first
    | with_reducible assumption | with_reducible apply State.fillTlb_canon | with_reducible apply State.resumeKept_canon
    | with_reducible apply State.setThread_canon | split | (simp only [↓State.canon_mk_iff]; refine ⟨?_, ?_⟩)
    | with_reducible apply State.Canon.hbm | with_reducible apply State.Canon.scanout
theorem State.withdraw_canon (s : State) (key : Nat) (id : Nat) (h1 : s.Canon) : (State.withdraw s key id).Canon := h1
theorem State.breakWait_canon (s : State) (key : Nat) (th : Thread) (h1 : s.Canon) : (State.breakWait s key th).Canon := by
  unfold State.breakWait
  with_reducible repeat' first
    | assumption | apply State.unpendDst_canon | apply State.updGroup_canon | apply State.retireEntries_canon | apply canon_foldl | split
    | intro _ | (simp only [↓State.canon_mk_iff]; apply State.canon_parts)
theorem State.parkFault_canon (s : State) (ctx : Nat) (c : Nat × Nat × DWord) (ws : List Waiter) (h1 : s.Canon) : (State.parkFault s ctx
    c ws).Canon := by
  unfold State.parkFault
  with_reducible repeat' first
    | assumption | apply State.report_canon | apply State.updThread_canon | apply State.withdraw_canon | apply State.breakWait_canon
    | apply canon_foldl | apply canon_getD | split | intro _
theorem State.failPieces_canon (s : State) (op : Nat) (o : AOp) (l : LoadOp) (out : List Access) (h1 : s.Canon) : (State.failPieces s op
    o l out).Canon := by
  unfold State.failPieces
  with_reducible repeat' first
    | assumption | apply State.endOp_canon | apply State.updThread_canon | apply State.parkFault_canon | split
    | (simp only [↓State.canon_mk_iff]; apply State.canon_parts) | (simp only [↓State.canon_mk_iff]; refine ⟨?_, ?_⟩) | dsimp only
    | apply State.Canon.hbm | apply State.Canon.scanout
theorem State.failRead_canon (s : State) (op : Nat) (o : AOp) (r : RemoteRead) (h1 : s.Canon) : (State.failRead s op o r).Canon := by
  unfold State.failRead
  with_reducible repeat' first | assumption | apply State.updThread_canon | apply State.endOp_canon | apply State.parkFault_canon
theorem State.peersDone_canon (s : State) (op : Nat) (o : AOp) (l : LoadOp) (peer : List Byte) (h1 : s.Canon) : (State.peersDone s op o
    l peer).Canon := by
  unfold State.peersDone
  with_reducible repeat' first
    | assumption | apply State.invalidateCache_canon | split | (simp only [↓State.canon_mk_iff]; apply State.canon_parts)
theorem State.landLoad_canon (s : State) (op : Nat) (o : AOp) (l : LoadOp) (h1 : s.Canon) : (State.landLoad s op o l).Canon := by
  unfold State.landLoad
  with_reducible repeat' first
    | assumption | apply State.landDsts_canon | apply State.endOp_canon | apply State.poisonLanded_canon | split
theorem execLoadDataReturn_canon (op : Nat) (peer : List Byte) (s : State) (h1 : s.Canon) : (CanonOut (execLoadDataReturn op peer s)) :=
    by
  unfold execLoadDataReturn
  with_reducible repeat' first
    | assumption | apply happen_canon | apply State.failPieces_canon | apply State.peersDone_canon | apply State.landLoad_canon
    | apply State.resumeKept_canon | apply State.landDsts_canon | apply State.endOp_canon | apply State.poisonLanded_canon
    | apply State.failRead_canon | apply State.updThread_canon | apply canonOut_next | split
theorem State.serveEngine_canon (s : State) (ctx : Nat) (w : Waiter) (res : WalkEnd) (h1 : s.Canon) : (State.serveEngine s ctx w
    res).Canon := by
  unfold State.serveEngine
  with_reducible repeat' first | assumption | apply State.fillTlb_canon | apply State.setPage_canon | split
theorem execWalkCompletion_canon (walk : Nat) (s : State) (h1 : s.Canon) : (CanonOut (execWalkCompletion walk s)) := by
  unfold execWalkCompletion
  with_reducible repeat' first
    | assumption | apply State.fillWalkCache_canon | apply State.walked_canon | apply State.serveEngine_canon | apply State.serve_canon
    | apply happen_canon | apply State.parkFault_canon | apply canonOut_next | apply canon_foldl | split | intro _
    | (simp only [↓State.canon_mk_iff]; apply State.canon_parts) | dsimp only
theorem execLateErrorTrap_canon (thread : Nat) (s : State) (h1 : s.Canon) : (CanonOut (execLateErrorTrap thread s)) := by
  unfold execLateErrorTrap
  with_reducible repeat' first
    | assumption | apply happen_canon | apply State.takeTraps_canon | apply State.setThread_canon | apply canonOut_next | split
    | dsimp only
theorem State.takeNumber_canon (s : State) (gid : Nat) (tc : Nat) (h1 : s.Canon) : (State.takeNumber s gid tc).1.Canon := by
  unfold State.takeNumber
  with_reducible repeat' first | assumption | split | (simp only [↓State.canon_mk_iff]; apply State.canon_parts)
theorem State.notePush_canon (s : State) (gid : Nat) (h1 : s.Canon) : (State.notePush s gid).Canon := by
  unfold State.notePush
  with_reducible repeat' first | assumption | split | (simp only [↓State.canon_mk_iff]; apply State.canon_parts)
theorem State.takePlace_canon (s : State) (v : Lane) (c : CopyOp) (op : Nat) (h1 : s.Canon) : (State.takePlace s v c op).1.Canon := by
  unfold State.takePlace
  with_reducible repeat' first
    | assumption | apply State.notePush_canon | apply State.updGroup_canon | apply canon_foldl | split | intro _
theorem State.askPages_canon (s : State) (op : Nat) (ctx : Nat) (c : CopyOp) (h1 : s.Canon) : (State.askPages s op ctx c).Canon := by
  unfold State.askPages
  with_reducible repeat' first | assumption | apply State.askPage_canon | apply canon_foldl | intro _
theorem Lane.copy_canon (v : Lane) (x : Fields) (c : CopyOp) (s : State) (h1 : s.Canon) : (Lane.copy v x c s).Canon := by
  unfold Lane.copy
  repeat' first
    | with_reducible assumption | exact True.intro | with_reducible apply State.takeNumber_canon
    | with_reducible apply State.takePlace_canon | with_reducible apply State.newOp_canon | with_reducible apply State.pendDsts_canon
    | with_reducible apply State.noteGrant_canon | with_reducible apply State.askPages_canon | with_reducible apply Act.canon_done | split
    | (simp only [↓State.canon_mk_iff]; with_reducible apply State.canon_parts)
theorem copySpec_canon (i : Instr) (x : Fields) (form : Nat) (srcG : Bool) (dstG : Bool) : (copySpec i x form srcG dstG).Canon := by
  unfold copySpec
  with_reducible repeat' first
    | assumption | apply specOf_canon | apply Lane.copy_canon | intro _ | (simp only [↓State.canon_mk_iff]; refine ⟨?_, ?_⟩) | dsimp only
    | apply State.Canon.hbm | apply State.Canon.scanout | apply Spec.Canon.lane | apply Spec.Canon.spoil | apply Spec.Canon.after
    | apply Spec.Canon.mk
theorem execBcpG2s_canon (x : Fields) (s : State) (h1 : s.Canon) : (CanonOut (execBcpG2s x s)) := by
  unfold execBcpG2s
  with_reducible repeat' first | assumption | apply issue_canon | apply copySpec_canon
theorem execBcpS2g_canon (x : Fields) (s : State) (h1 : s.Canon) : (CanonOut (execBcpS2g x s)) := by
  unfold execBcpS2g
  with_reducible repeat' first | assumption | apply issue_canon | apply copySpec_canon
theorem execBcpS2s_canon (x : Fields) (s : State) (h1 : s.Canon) : (CanonOut (execBcpS2s x s)) := by
  unfold execBcpS2s
  with_reducible repeat' first | assumption | apply issue_canon | apply copySpec_canon
theorem execBcps_canon (x : Fields) (s : State) (h1 : s.Canon) : (CanonOut (execBcps x s)) := by
  unfold execBcps
  with_reducible repeat' first | assumption | apply issue_canon | apply copySpec_canon
theorem execBcpq_canon (x : Fields) (s : State) (h1 : s.Canon) : (CanonOut (execBcpq x s)) := by
  unfold execBcpq
  with_reducible repeat' first | assumption | apply issue_canon | apply copySpec_canon
theorem execBcpm_canon (x : Fields) (s : State) (h1 : s.Canon) : (CanonOut (execBcpm x s)) := by
  unfold execBcpm
  with_reducible repeat' first | assumption | apply issue_canon | apply copySpec_canon
theorem execBcpUnpk4s_canon (x : Fields) (s : State) (h1 : s.Canon) : (CanonOut (execBcpUnpk4s x s)) := by
  unfold execBcpUnpk4s
  with_reducible repeat' first | assumption | apply issue_canon | apply copySpec_canon
theorem execBcpUnpk4f_canon (x : Fields) (s : State) (h1 : s.Canon) : (CanonOut (execBcpUnpk4f x s)) := by
  unfold execBcpUnpk4f
  with_reducible repeat' first | assumption | apply issue_canon | apply copySpec_canon
theorem execBcpUnpk8s_canon (x : Fields) (s : State) (h1 : s.Canon) : (CanonOut (execBcpUnpk8s x s)) := by
  unfold execBcpUnpk8s
  with_reducible repeat' first | assumption | apply issue_canon | apply copySpec_canon
theorem execBcpUnpk8f_canon (x : Fields) (s : State) (h1 : s.Canon) : (CanonOut (execBcpUnpk8f x s)) := by
  unfold execBcpUnpk8f
  with_reducible repeat' first | assumption | apply issue_canon | apply copySpec_canon
theorem State.copyXlat_canon (s : State) (ctx : Nat) (c : CopyOp) (va : Nat) (dst : Bool) (h1 : s.Canon) : (State.copyXlat s ctx c va
    dst).1.Canon := by
  unfold State.copyXlat
  with_reducible repeat' first | assumption | apply State.engineXlat_canon | split
theorem State.copyRead_canon (s : State) (o : AOp) (c : CopyOp) (ctx : Nat) (i : Nat) (g : Seg) (peer : List Byte) (h1 : s.Canon) :
    (State.copyRead s o c ctx i g peer).1.Canon := by
  unfold State.copyRead
  with_reducible repeat' first
    | assumption | apply State.copyXlat_canon | apply State.readPage_canon | apply State.readScratch_canon | split
    | (simp only [↓State.canon_mk_iff]; refine ⟨?_, ?_⟩) | dsimp only | apply State.Canon.hbm | apply State.Canon.scanout
theorem State.copyTarget_canon (s : State) (o : AOp) (c : CopyOp) (ctx : Nat) (i : Nat) (g : Seg) (h1 : s.Canon) : (State.copyTarget s o
    c ctx i g).1.Canon := by
  unfold State.copyTarget
  with_reducible repeat' first
    | assumption | apply State.copyXlat_canon | split | (simp only [↓State.canon_mk_iff]; refine ⟨?_, ?_⟩) | dsimp only
    | apply State.Canon.hbm | apply State.Canon.scanout
theorem State.copyWrite_canon (s : State) (w : Asker) (spots : List (Nat × Nat)) (g : Seg) (x : Option Xlat) (bs : List Byte) (h1 :
    s.Canon) : (State.copyWrite s w spots g x bs).Canon := by
  unfold State.copyWrite
  with_reducible repeat' first
    | assumption | apply State.spWrite_canon | apply State.writePage_canon | apply canon_foldl | split | intro _
    | (simp only [↓State.canon_mk_iff]; apply State.canon_parts)
theorem State.gatherChunk_canon (s : State) (o : AOp) (c : CopyOp) (ctx : Nat) (i : Nat) (b5 : List Seg) (b6 : List Byte) (h1 : s.Canon)
    : (State.gatherChunk s o c ctx i b5 b6).1.Canon := by
  induction b5 generalizing s b6 with
  | nil =>
    unfold State.gatherChunk
    with_reducible repeat' first | assumption
  | cons x xs ih =>
    unfold State.gatherChunk
    with_reducible repeat' first
      | assumption | apply State.copyRead_canon | apply State.copyTarget_canon | apply ih | split
      | (simp only [↓State.canon_mk_iff]; refine ⟨?_, ?_⟩) | dsimp only | apply State.Canon.hbm | apply State.Canon.scanout
theorem CopyRun.chunk_canon (r : CopyRun) (o : AOp) (c : CopyOp) (ctx : Nat) (spots : List (Nat × Nat)) (gs : List Seg) (h1 : r.s.Canon)
    : (CopyRun.chunk r o c ctx spots gs).s.Canon := by
  unfold CopyRun.chunk
  with_reducible repeat' first
    | assumption | apply State.gatherChunk_canon | apply State.copyWrite_canon | apply canon_foldl | split | intro _
    | (simp only [↓State.canon_mk_iff]; refine ⟨?_, ?_⟩) | dsimp only | apply State.Canon.hbm | apply State.Canon.scanout
theorem State.copyRecord_canon (s : State) (o : AOp) (c : CopyOp) (ctx : Nat) (wid : DWord) (fails : List (Nat × ChunkFail)) (h1 :
    s.Canon) : (State.copyRecord s o c ctx wid fails).Canon := by
  unfold State.copyRecord
  with_reducible repeat' first | assumption | apply State.report_canon | split
theorem State.groupProgress_canon (s : State) (gid : Nat) (h1 : s.Canon) : (State.groupProgress s gid).Canon := by
  unfold State.groupProgress
  with_reducible repeat' first | assumption | apply State.progress_canon | split
theorem State.wakeTimeline_canon (s : State) (gid : Nat) (tc : Nat) (h1 : s.Canon) : (State.wakeTimeline s gid tc).Canon := by
  unfold State.wakeTimeline
  with_reducible repeat' first
    | assumption | apply State.retire_canon | apply State.invalidateCache_canon | apply canon_foldl | split | intro _
theorem State.complete_canon (s : State) (op : Nat) (o : AOp) (status : List Word) (h1 : s.Canon) : (State.complete s op o status).Canon
    := by
  unfold State.complete
  with_reducible repeat' first
    | assumption | apply State.landDsts_canon | apply State.retireEntries_canon | apply State.endOp_canon | apply State.updGroup_canon
    | apply State.wakeTimeline_canon | apply State.groupProgress_canon | split
theorem State.statusField_canon (s : State) (n : Nat) (h1 : s.Canon) : (State.statusField s n).1.Canon := by
  unfold State.statusField
  with_reducible repeat' first | assumption | split | (simp only [↓State.canon_mk_iff]; apply State.canon_parts)
theorem State.runCopy_canon (s : State) (op : Nat) (o : AOp) (c : CopyOp) (spots : List (Nat × Nat)) (lost : Nat) (quiet : Bool) (h1 :
    s.Canon) : (State.runCopy s op o c spots lost quiet).Canon := by
  unfold State.runCopy
  with_reducible repeat' first
    | assumption | apply CopyRun.chunk_canon | apply State.copyRecord_canon | apply State.complete_canon | apply State.statusField_canon
    | apply canon_foldl_copy | split | intro _ | dsimp only
theorem execBcpqSlotTaken_canon (op : Nat) (s : State) (h1 : s.Canon) : (CanonOut (execBcpqSlotTaken op s)) := by
  unfold execBcpqSlotTaken
  with_reducible repeat' first
    | assumption | apply State.updGroup_canon | apply happen_canon | apply canonOut_next | split
    | (simp only [↓State.canon_mk_iff]; apply State.canon_parts)
theorem execCopyCompletion_canon (op : Nat) (s : State) (h1 : s.Canon) : (CanonOut (execCopyCompletion op s)) := by
  unfold execCopyCompletion
  with_reducible repeat' first
    | assumption | apply State.runCopy_canon | apply happen_canon | apply State.updGroup_canon | apply canonOut_next | split
theorem execBcpmCompletion_canon (op : Nat) (s : State) (h1 : s.Canon) : (CanonOut (execBcpmCompletion op s)) := by
  unfold execBcpmCompletion
  with_reducible repeat' first
    | assumption | apply State.runCopy_canon | apply happen_canon | apply State.updGroup_canon | apply canonOut_next | apply canon_foldl
    | split | intro _
theorem State.branchTo_canon (s : State) (v : Lane) (t : Nat) (k : Act) (_h1 : s.Canon) (h2 : k.Canon) : (State.branchTo s v t k).Canon
    := by
  unfold State.branchTo
  repeat' first | with_reducible assumption | exact True.intro | split
theorem Lane.branch_canon (v : Lane) (s : State) (t : Nat) (h1 : s.Canon) : (Lane.branch v s t).Canon := by
  unfold Lane.branch
  repeat' first
    | with_reducible assumption | exact True.intro | with_reducible apply State.branchTo_canon | with_reducible apply Act.canon_jump
    | split
theorem execBra_canon (x : Fields) (s : State) (h1 : s.Canon) : (CanonOut (execBra x s)) := by
  unfold execBra
  with_reducible repeat' first | assumption | apply issue_canon | apply specOf_canon | apply Lane.branch_canon | intro _
theorem execBrx_canon (x : Fields) (s : State) (h1 : s.Canon) : (CanonOut (execBrx x s)) := by
  unfold execBrx
  with_reducible repeat' first | assumption | apply issue_canon | apply specOf_canon | apply Lane.branch_canon | intro _
theorem Lane.call_canon (v : Lane) (s : State) (t : Nat) (h1 : s.Canon) : (Lane.call v s t).Canon := by
  unfold Lane.call
  repeat' first
    | with_reducible assumption | exact True.intro | with_reducible apply State.putDsts_canon | with_reducible apply State.branchTo_canon
    | with_reducible apply State.updThread_canon | with_reducible apply Act.canon_jump | split
theorem execCall_canon (x : Fields) (s : State) (h1 : s.Canon) : (CanonOut (execCall x s)) := by
  unfold execCall
  with_reducible repeat' first
    | assumption | apply issue_canon | apply specOf_canon | apply Lane.call_canon | intro _
    | (simp only [↓State.canon_mk_iff]; refine ⟨?_, ?_⟩) | dsimp only | apply State.Canon.hbm | apply State.Canon.scanout
    | apply Spec.Canon.lane | apply Spec.Canon.spoil | apply Spec.Canon.after | apply Spec.Canon.mk
theorem execCallx_canon (x : Fields) (s : State) (h1 : s.Canon) : (CanonOut (execCallx x s)) := by
  unfold execCallx
  with_reducible repeat' first
    | assumption | apply issue_canon | apply specOf_canon | apply Lane.call_canon | intro _
    | (simp only [↓State.canon_mk_iff]; refine ⟨?_, ?_⟩) | dsimp only | apply State.Canon.hbm | apply State.Canon.scanout
    | apply Spec.Canon.lane | apply Spec.Canon.spoil | apply Spec.Canon.after | apply Spec.Canon.mk
theorem Lane.ret_canon (v : Lane) (s : State) (h1 : s.Canon) : (Lane.ret v s).Canon := by
  unfold Lane.ret
  repeat' first
    | with_reducible assumption | exact True.intro | with_reducible apply State.branchTo_canon
    | with_reducible apply State.updThread_canon | with_reducible apply Act.canon_jump | split
theorem execRet_canon (x : Fields) (s : State) (h1 : s.Canon) : (CanonOut (execRet x s)) := by
  unfold execRet
  with_reducible repeat' first
    | assumption | apply issue_canon | apply specOf_canon | apply Lane.ret_canon | intro _
    | (simp only [↓State.canon_mk_iff]; refine ⟨?_, ?_⟩) | dsimp only | apply State.Canon.hbm | apply State.Canon.scanout
    | apply Spec.Canon.lane | apply Spec.Canon.spoil | apply Spec.Canon.after | apply Spec.Canon.mk
theorem Lane.enterSheaf_canon (v : Lane) (x : Fields) (s : State) (h1 : s.Canon) : (Lane.enterSheaf v x s).Canon := by
  unfold Lane.enterSheaf
  repeat' first
    | with_reducible assumption | exact True.intro | with_reducible apply State.fetchBytes_canon
    | with_reducible apply State.awaitFetch_canon | with_reducible apply State.updThread_canon | with_reducible apply Act.canon_jump
    | with_reducible apply Act.canon_raw | with_reducible apply Act.canon_trapIn | with_reducible apply Act.canon_wait | split
    | dsimp only
theorem execShfb_canon (x : Fields) (s : State) (h1 : s.Canon) : (CanonOut (execShfb x s)) := by
  unfold execShfb
  with_reducible repeat' first
    | assumption | apply issue_canon | apply specOf_canon | apply Lane.enterSheaf_canon | intro _
    | (simp only [↓State.canon_mk_iff]; refine ⟨?_, ?_⟩) | dsimp only | apply State.Canon.hbm | apply State.Canon.scanout
    | apply Spec.Canon.lane | apply Spec.Canon.spoil | apply Spec.Canon.after | apply Spec.Canon.mk
theorem Lane.leaveSheaf_canon (v : Lane) (s : State) (h1 : s.Canon) : (Lane.leaveSheaf v s).Canon := by
  unfold Lane.leaveSheaf
  repeat' first
    | with_reducible assumption | exact True.intro | with_reducible apply State.updThread_canon | with_reducible apply Act.canon_done
    | split
theorem execShfe_canon (x : Fields) (s : State) (h1 : s.Canon) : (CanonOut (execShfe x s)) := by
  unfold execShfe
  with_reducible repeat' first
    | assumption | apply issue_canon | apply specOf_canon | apply Lane.leaveSheaf_canon | split | intro _
    | (simp only [↓State.canon_mk_iff]; refine ⟨?_, ?_⟩) | dsimp only | apply State.Canon.hbm | apply State.Canon.scanout
    | apply Spec.Canon.lane | apply Spec.Canon.spoil | apply Spec.Canon.after | apply Spec.Canon.mk
theorem execTrap_canon (x : Fields) (s : State) (h1 : s.Canon) : (CanonOut (execTrap x s)) := by
  unfold execTrap
  repeat' first
    | with_reducible assumption | exact True.intro | with_reducible apply issue_canon | with_reducible apply specOf_canon | intro _
theorem Lane.trapReturn_canon (v : Lane) (skip : Nat) (s : State) (h1 : s.Canon) : (Lane.trapReturn v skip s).Canon := by
  unfold Lane.trapReturn
  repeat' first
    | with_reducible assumption | exact True.intro | with_reducible apply State.updThread_canon | with_reducible apply Act.canon_jump
    | split
theorem execTret_canon (x : Fields) (s : State) (h1 : s.Canon) : (CanonOut (execTret x s)) := by
  unfold execTret
  with_reducible repeat' first | assumption | apply issue_canon | apply specOf_canon | apply Lane.trapReturn_canon | intro _
theorem execTretN_canon (x : Fields) (s : State) (h1 : s.Canon) : (CanonOut (execTretN x s)) := by
  unfold execTretN
  with_reducible repeat' first | assumption | apply issue_canon | apply specOf_canon | apply Lane.trapReturn_canon | intro _
theorem execNop_canon (x : Fields) (s : State) (h1 : s.Canon) : (CanonOut (execNop x s)) := by
  unfold execNop
  with_reducible repeat' first | assumption | apply issue_canon | apply specOf_canon | apply Act.canon_done | intro _
theorem execYield_canon (x : Fields) (s : State) (h1 : s.Canon) : (CanonOut (execYield x s)) := by
  unfold execYield
  with_reducible repeat' first | assumption | apply issue_canon | apply specOf_canon | apply Act.canon_done | intro _
theorem State.freeThread_canon (s : State) (key : Nat) (gid : Nat) (h1 : s.Canon) : (State.freeThread s key gid).Canon := h1
theorem Lane.exit_canon (v : Lane) (s : State) (h1 : s.Canon) : (Lane.exit v s).Canon := by
  unfold Lane.exit
  with_reducible repeat' first | assumption | apply State.freeThread_canon | apply State.updThread_canon | apply Act.canon_raw | split
theorem execExit_canon (x : Fields) (s : State) (h1 : s.Canon) : (CanonOut (execExit x s)) := by
  unfold execExit
  with_reducible repeat' first | assumption | apply issue_canon | apply specOf_canon | apply Lane.exit_canon
theorem execPulse_canon (x : Fields) (s : State) (h1 : s.Canon) : (CanonOut (execPulse x s)) := by
  unfold execPulse
  repeat' first
    | with_reducible assumption | with_reducible apply issue_canon | with_reducible apply specOf_canon
    | with_reducible apply State.progress_canon | with_reducible apply Act.canon_done | intro _
    | (simp only [↓State.canon_mk_iff]; refine ⟨?_, ?_⟩) | dsimp only | with_reducible apply State.Canon.hbm
    | with_reducible apply State.Canon.scanout | with_reducible apply Spec.Canon.spoil | with_reducible apply Spec.Canon.after
    | with_reducible apply Spec.Canon.mk
theorem execSafept_canon (x : Fields) (s : State) (h1 : s.Canon) : (CanonOut (execSafept x s)) := by
  unfold execSafept
  with_reducible repeat' first
    | assumption | apply issue_canon | apply specOf_canon | apply State.updThread_canon | apply Act.canon_done | apply Act.canon_wait
    | split | intro _
theorem Lane.access_canon (v : Lane) (s : State) (va : Nat) (n : Nat) (kind : AccessKind) (k : State → Xlat → Act) (h1 : s.Canon) (h2 :
    (∀ a0 a1, a0.Canon → (k a0 a1).Canon)) : (Lane.access v s va n kind k).Canon := by
  unfold Lane.access
  repeat' first
    | with_reducible assumption | exact True.intro | with_reducible apply State.lookup_canon | with_reducible apply h2
    | with_reducible apply Act.canon_wait | with_reducible apply Act.canon_miss | split | dsimp only
theorem Lane.spill_canon (v : Lane) (s : State) (h1 : s.Canon) : (Lane.spill v s).Canon := by
  unfold Lane.spill
  repeat' first
    | with_reducible assumption | exact True.intro | with_reducible apply Lane.access_canon
    | with_reducible apply State.performAccess_canon | with_reducible apply State.updThread_canon | with_reducible apply Act.canon_done
    | split | intro _
theorem execWspill_canon (x : Fields) (s : State) (h1 : s.Canon) : (CanonOut (execWspill x s)) := by
  unfold execWspill
  with_reducible repeat' first
    | assumption | apply issue_canon | apply specOf_canon | apply Lane.spill_canon | intro _
    | (simp only [↓State.canon_mk_iff]; refine ⟨?_, ?_⟩) | dsimp only | apply State.Canon.hbm | apply State.Canon.scanout
    | apply Spec.Canon.lane | apply Spec.Canon.spoil | apply Spec.Canon.after | apply Spec.Canon.mk
theorem Lane.fill_canon (v : Lane) (s : State) (h1 : s.Canon) : (Lane.fill v s).Canon := by
  unfold Lane.fill
  split
  · exact Act.illegal_canon
  split
  · exact Act.canon_trap _ _
  refine Lane.access_canon _ _ _ _ _ _ h1 ?_
  intro t x ht
  dsimp only
  split
  · split
    · exact State.updThread_canon _ _ _ (State.putDsts_canon _ _ _ _ _ ht)
    · exact State.awaitBytes_canon _ _ _ ht
  · have hr := State.performLoad_canon t v.core v.g.ctx v.key v.th.pc x 64 false ht
    generalize t.performLoad v.core v.g.ctx v.key v.th.pc x 64 false = r at hr
    split
    · exact State.updThread_canon _ _ _ (State.poisonLanded_canon _ _ _ (State.putDsts_canon _ _ _ _ _ hr))
    · exact State.updThread_canon _ _ _ (State.putDsts_canon _ _ _ _ _ hr)
theorem execWfill_canon (x : Fields) (s : State) (h1 : s.Canon) : (CanonOut (execWfill x s)) := by
  unfold execWfill
  with_reducible repeat' first
    | assumption | apply issue_canon | apply specOf_canon | apply Lane.fill_canon | intro _
    | (simp only [↓State.canon_mk_iff]; refine ⟨?_, ?_⟩) | dsimp only | apply State.Canon.hbm | apply State.Canon.scanout
    | apply Spec.Canon.lane | apply Spec.Canon.spoil | apply Spec.Canon.after | apply Spec.Canon.mk
theorem execCsrr_canon (x : Fields) (s : State) (h1 : s.Canon) : (CanonOut (execCsrr x s)) := by
  unfold execCsrr
  with_reducible repeat' first
    | assumption | apply issue_canon | apply specOf_canon | apply Lane.wr_canon | apply Act.canon_done | split | intro _
theorem execCsrw_canon (x : Fields) (s : State) (h1 : s.Canon) : (CanonOut (execCsrw x s)) := by
  unfold execCsrw
  with_reducible repeat' first
    | assumption | apply issue_canon | apply specOf_canon | apply State.updThread_canon | apply Act.canon_done | split | intro _
theorem Lane.claim_canon (v : Lane) (x : Fields) (s : State) (h1 : s.Canon) : (Lane.claim v x s).Canon := by
  unfold Lane.claim
  repeat' first
    | with_reducible assumption | exact True.intro | with_reducible apply Act.canon_wait | split
    | (simp only [↓State.canon_mk_iff]; with_reducible apply State.canon_parts)
theorem execTwnx_canon (x : Fields) (s : State) (h1 : s.Canon) : (CanonOut (execTwnx x s)) := by
  unfold execTwnx
  with_reducible repeat' first | assumption | apply issue_canon | apply specOf_canon | apply Lane.claim_canon | intro _
theorem execTwlk_canon (x : Fields) (s : State) (h1 : s.Canon) : (CanonOut (execTwlk x s)) := by
  unfold execTwlk
  with_reducible repeat' first
    | assumption | apply issue_canon | apply specOf_canon | apply Lane.wr_canon | apply Act.canon_done | intro _
theorem Lane.defineQueue_canon (v : Lane) (x : Fields) (s : State) (h1 : s.Canon) : (Lane.defineQueue v x s).Canon := by
  unfold Lane.defineQueue
  repeat' first
    | with_reducible assumption | exact True.intro | with_reducible apply State.updGroup_canon | with_reducible apply Act.canon_done
    | split | dsimp only
theorem execQdef_canon (x : Fields) (s : State) (h1 : s.Canon) : (CanonOut (execQdef x s)) := by
  unfold execQdef
  with_reducible repeat' first | assumption | apply issue_canon | apply specOf_canon | apply Lane.defineQueue_canon | intro _
theorem State.popHandle_canon (s : State) (key : Nat) (gid : Nat) (q : Nat) (filled : Bool) (h1 : s.Canon) : (State.popHandle s key gid
    q filled).1.Canon := by
  unfold State.popHandle
  with_reducible repeat' first
    | assumption | apply State.nextRecord_canon | apply State.consume_canon | split | (simp only [↓State.canon_mk_iff]; refine ⟨?_, ?_⟩)
    | dsimp only | apply State.Canon.hbm | apply State.Canon.scanout
theorem State.tryPop_canon (s : State) (key : Nat) (gid : Nat) (q : Nat) (filled : Bool) (dst : Dst) (h1 : s.Canon) : (State.tryPop s
    key gid q filled dst).1.Canon := by
  unfold State.tryPop
  with_reducible repeat' first
    | assumption | apply State.popHandle_canon | apply State.updGroup_canon | apply State.logChoice_canon | apply State.progress_canon
    | apply State.putDst_canon | apply State.notePush_canon | apply State.invalidateCache_canon | split
    | (simp only [↓State.canon_mk_iff]; refine ⟨?_, ?_⟩) | dsimp only | apply State.Canon.hbm | apply State.Canon.scanout
theorem Lane.pop_canon (v : Lane) (x : Fields) (filled : Bool) (s : State) (h1 : s.Canon) : (Lane.pop v x filled s).Canon := by
  unfold Lane.pop
  repeat' first
    | with_reducible assumption | exact True.intro | with_reducible apply State.tryPop_canon | with_reducible apply Act.canon_done
    | with_reducible apply Act.canon_wait | split | dsimp only
theorem execQpopE_canon (x : Fields) (s : State) (h1 : s.Canon) : (CanonOut (execQpopE x s)) := by
  unfold execQpopE
  with_reducible repeat' first | assumption | apply issue_canon | apply specOf_canon | apply Lane.pop_canon | intro _
theorem execQpopF_canon (x : Fields) (s : State) (h1 : s.Canon) : (CanonOut (execQpopF x s)) := by
  unfold execQpopF
  with_reducible repeat' first
    | assumption | apply issue_canon | apply specOf_canon | apply Lane.pop_canon | intro _
    | (simp only [↓State.canon_mk_iff]; refine ⟨?_, ?_⟩) | dsimp only | apply State.Canon.hbm | apply State.Canon.scanout
    | apply Spec.Canon.lane | apply Spec.Canon.spoil | apply Spec.Canon.after | apply Spec.Canon.mk
theorem execBlockedPopRelease_canon (thread : Nat) (s : State) (h1 : s.Canon) : (CanonOut (execBlockedPopRelease thread s)) := by
  unfold execBlockedPopRelease
  with_reducible repeat' first
    | assumption | apply State.tryPop_canon | apply happen_canon | apply State.retire_canon | apply canonOut_next | split | dsimp only
theorem Lane.pushFilled_canon (v : Lane) (x : Fields) (s : State) (h1 : s.Canon) : (Lane.pushFilled v x s).Canon := by
  unfold Lane.pushFilled
  repeat' first
    | with_reducible assumption | exact True.intro | with_reducible apply State.updGroup_canon | with_reducible apply State.drainAll_canon
    | with_reducible apply State.progress_canon | with_reducible apply Act.canon_done | split
theorem execQpushF_canon (x : Fields) (s : State) (h1 : s.Canon) : (CanonOut (execQpushF x s)) := by
  unfold execQpushF
  with_reducible repeat' first
    | assumption | apply issue_canon | apply specOf_canon | apply Lane.pushFilled_canon | intro _
    | (simp only [↓State.canon_mk_iff]; refine ⟨?_, ?_⟩) | dsimp only | apply State.Canon.hbm | apply State.Canon.scanout
    | apply Spec.Canon.lane | apply Spec.Canon.spoil | apply Spec.Canon.after | apply Spec.Canon.mk
theorem Lane.pushEmpty_canon (v : Lane) (x : Fields) (s : State) (h1 : s.Canon) : (Lane.pushEmpty v x s).Canon := by
  unfold Lane.pushEmpty
  repeat' first
    | with_reducible assumption | exact True.intro | with_reducible apply State.updGroup_canon | with_reducible apply State.progress_canon
    | with_reducible apply Act.canon_done | split
theorem execQpushE_canon (x : Fields) (s : State) (h1 : s.Canon) : (CanonOut (execQpushE x s)) := by
  unfold execQpushE
  with_reducible repeat' first | assumption | apply issue_canon | apply specOf_canon | apply Lane.pushEmpty_canon | intro _
theorem execQstat_canon (x : Fields) (s : State) (h1 : s.Canon) : (CanonOut (execQstat x s)) := by
  unfold execQstat
  repeat' first
    | with_reducible assumption | exact True.intro | with_reducible apply issue_canon | with_reducible apply specOf_canon
    | with_reducible apply Lane.wr32_canon | with_reducible apply Act.canon_done | split | intro _
theorem Lane.send_canon (v : Lane) (x : Fields) (s : State) (h1 : s.Canon) : (Lane.send v x s).Canon := by
  unfold Lane.send
  repeat' first
    | with_reducible assumption | exact True.intro | with_reducible apply State.drainAll_canon | with_reducible apply Act.canon_done
    | split | (simp only [↓State.canon_mk_iff]; with_reducible apply State.canon_parts) | dsimp only
theorem execSend_canon (x : Fields) (s : State) (h1 : s.Canon) : (CanonOut (execSend x s)) := by
  unfold execSend
  with_reducible repeat' first
    | assumption | apply issue_canon | apply specOf_canon | apply Lane.send_canon | intro _
    | (simp only [↓State.canon_mk_iff]; refine ⟨?_, ?_⟩) | dsimp only | apply State.Canon.hbm | apply State.Canon.scanout
    | apply Spec.Canon.lane | apply Spec.Canon.spoil | apply Spec.Canon.after | apply Spec.Canon.mk
theorem State.deliverMsg_canon (s : State) (p : Post) (gid : Nat) (m : Msg) (wid : DWord) (h1 : s.Canon) : (State.deliverMsg s p gid m
    wid).Canon := by
  unfold State.deliverMsg
  repeat' first
    | with_reducible assumption | with_reducible apply State.landDsts_canon | with_reducible apply State.landDst_canon
    | with_reducible apply State.invalidateCache_canon | with_reducible apply State.progress_canon
    | with_reducible apply State.logChoice_canon | split | (simp only [↓State.canon_mk_iff]; refine ⟨?_, ?_⟩)
    | with_reducible apply State.Canon.hbm | with_reducible apply State.Canon.scanout
theorem Lane.receive_canon (v : Lane) (x : Fields) (b2 : Option Dst) (s : State) (h1 : s.Canon) : (Lane.receive v x b2 s).Canon := by
  unfold Lane.receive
  with_reducible repeat' first
    | assumption | apply State.deliverMsg_canon | apply State.updGroup_canon | apply State.pendDsts_canon | apply Act.canon_done
    | apply Act.canon_wait | split | dsimp only
theorem execRecv_canon (x : Fields) (s : State) (h1 : s.Canon) : (CanonOut (execRecv x s)) := by
  unfold execRecv
  with_reducible repeat' first
    | assumption | apply issue_canon | apply specOf_canon | apply Lane.receive_canon | intro _
    | (simp only [↓State.canon_mk_iff]; refine ⟨?_, ?_⟩) | dsimp only | apply State.Canon.hbm | apply State.Canon.scanout
    | apply Spec.Canon.lane | apply Spec.Canon.spoil | apply Spec.Canon.after | apply Spec.Canon.mk
theorem execRecvw_canon (x : Fields) (s : State) (h1 : s.Canon) : (CanonOut (execRecvw x s)) := by
  unfold execRecvw
  with_reducible repeat' first
    | assumption | apply issue_canon | apply specOf_canon | apply Lane.receive_canon | intro _
    | (simp only [↓State.canon_mk_iff]; refine ⟨?_, ?_⟩) | dsimp only | apply State.Canon.hbm | apply State.Canon.scanout
    | apply Spec.Canon.lane | apply Spec.Canon.spoil | apply Spec.Canon.after | apply Spec.Canon.mk
theorem State.deliverMail_canon (s : State) (msg : Nat) (h1 : s.Canon) : (State.deliverMail s msg).1.Canon := by
  unfold State.deliverMail
  with_reducible repeat' first
    | assumption | apply State.takeTurn_canon | apply State.updGroup_canon | apply State.deliverMsg_canon | apply State.retire_canon
    | split | (simp only [↓State.canon_mk_iff]; apply State.canon_parts) | (simp only [↓State.canon_mk_iff]; refine ⟨?_, ?_⟩) | dsimp only
    | apply State.Canon.hbm | apply State.Canon.scanout
theorem State.deliverFor_canon (s : State) (gids : List Nat) (h1 : s.Canon) : (State.deliverFor s gids).Canon := by
  unfold State.deliverFor
  with_reducible repeat' first | assumption | apply State.deliverMail_canon | apply canon_foldl
theorem execMessageArrival_canon (msg : Nat) (s : State) (h1 : s.Canon) : (CanonOut (execMessageArrival msg s)) := by
  unfold execMessageArrival
  with_reducible repeat' first
    | assumption | apply State.deliverMail_canon | apply happen_canon | apply canonOut_next | split | dsimp only
theorem Lane.timelineWait_canon (v : Lane) (x : Fields) (s : State) (h1 : s.Canon) : (Lane.timelineWait v x s).Canon := by
  unfold Lane.timelineWait
  with_reducible repeat' first
    | assumption | apply State.invalidateCache_canon | apply Act.canon_done | apply Act.canon_wait | split | dsimp only
theorem execTcw_canon (x : Fields) (s : State) (h1 : s.Canon) : (CanonOut (execTcw x s)) := by
  unfold execTcw
  with_reducible repeat' first | assumption | apply issue_canon | apply specOf_canon | apply Lane.timelineWait_canon | intro _
theorem execTcwT_canon (x : Fields) (s : State) (h1 : s.Canon) : (CanonOut (execTcwT x s)) := by
  unfold execTcwT
  with_reducible repeat' first
    | assumption | apply issue_canon | apply specOf_canon | apply Lane.wrPred_canon | apply State.invalidateCache_canon
    | apply Act.canon_done | split | intro _
theorem Lane.timelineWord_canon (v : Lane) (x : Fields) (s : State) (kind : AccessKind) (k : State → Xlat → Act) (h1 : s.Canon) (h2 : (∀
    a0 a1, a0.Canon → (k a0 a1).Canon)) : (Lane.timelineWord v x s kind k).Canon := by
  unfold Lane.timelineWord
  repeat' first
    | with_reducible assumption | exact True.intro | with_reducible apply Lane.access_canon | with_reducible apply h2
    | with_reducible apply Act.canon_trapIn | split | intro _ | dsimp only
theorem State.timelineValue_canon (s : State) (v : Lane) (t : Xlat) (h1 : s.Canon) : (State.timelineValue s v t).1.Canon := by
  unfold State.timelineValue
  repeat' first
    | with_reducible assumption | with_reducible apply State.performLoad_canon | with_reducible apply State.poisonLanded_canon | split
    | (simp only [↓State.canon_mk_iff]; refine ⟨?_, ?_⟩) | with_reducible apply State.Canon.hbm | with_reducible apply State.Canon.scanout
theorem Lane.watch_canon (v : Lane) (x : Fields) (test : Option Nat) (s : State) (h1 : s.Canon) : (Lane.watch v x test s).Canon := by
  unfold Lane.watch
  with_reducible repeat' first
    | assumption | apply Lane.timelineWord_canon | apply State.timelineValue_canon | apply State.invalidateCache_canon
    | apply State.updThread_canon | apply Act.canon_done | apply Act.canon_wait | split | intro _ | dsimp only
theorem execTlw_canon (x : Fields) (s : State) (h1 : s.Canon) : (CanonOut (execTlw x s)) := by
  unfold execTlw
  with_reducible repeat' first | assumption | apply issue_canon | apply specOf_canon | apply Lane.watch_canon | intro _
theorem execTlwT_canon (x : Fields) (s : State) (h1 : s.Canon) : (CanonOut (execTlwT x s)) := by
  unfold execTlwT
  with_reducible repeat' first | assumption | apply issue_canon | apply specOf_canon | apply Lane.watch_canon | intro _
theorem execTlwChangeNoticed_canon (thread : Nat) (s : State) (h1 : s.Canon) : (CanonOut (execTlwChangeNoticed thread s)) := by
  unfold execTlwChangeNoticed
  with_reducible repeat' first
    | assumption | apply State.invalidateCache_canon | apply happen_canon | apply State.retire_canon | apply State.updThread_canon
    | apply State.lookup_canon | apply State.awaitPage_canon | apply State.waitIn_canon | apply State.timelineValue_canon
    | apply canonOut_next | split | dsimp only
theorem Lane.tladvance_canon (v : Lane) (x : Fields) (s : State) (h1 : s.Canon) : (Lane.tladvance v x s).Canon := by
  unfold Lane.tladvance
  with_reducible repeat' first
    | assumption | apply Lane.timelineWord_canon | apply State.drainAll_canon | apply State.awaitPeer_canon | apply State.request_canon
    | apply State.dropCopies_canon | apply State.drainFor_canon | apply State.progress_canon | apply Act.canon_done | split | intro _
    | (simp only [↓State.canon_mk_iff]; apply State.canon_parts) | dsimp only
theorem execTladv_canon (x : Fields) (s : State) (h1 : s.Canon) : (CanonOut (execTladv x s)) := by
  unfold execTladv
  with_reducible repeat' first
    | assumption | apply issue_canon | apply specOf_canon | apply Lane.tladvance_canon | intro _
    | (simp only [↓State.canon_mk_iff]; refine ⟨?_, ?_⟩) | dsimp only | apply State.Canon.hbm | apply State.Canon.scanout
    | apply Spec.Canon.lane | apply Spec.Canon.spoil | apply Spec.Canon.after | apply Spec.Canon.mk
theorem State.setBarrier_canon (s : State) (gid : Nat) (n : Nat) (b : Barrier) (h1 : s.Canon) : (State.setBarrier s gid n b).Canon := h1
theorem Lane.barrierInit_canon (v : Lane) (x : Fields) (s : State) (h1 : s.Canon) : (Lane.barrierInit v x s).Canon := by
  unfold Lane.barrierInit
  repeat' first
    | with_reducible assumption | exact True.intro | with_reducible apply State.setBarrier_canon | with_reducible apply Act.canon_done
    | split | dsimp only
theorem execBari_canon (x : Fields) (s : State) (h1 : s.Canon) : (CanonOut (execBari x s)) := by
  unfold execBari
  with_reducible repeat' first | assumption | apply issue_canon | apply specOf_canon | apply Lane.barrierInit_canon | intro _
theorem State.leaveBarrier_canon (s : State) (key : Nat) (gid : Nat) (pred : Nat) (dst : Dst) (lapped : Bool) (phase : Word) (h1 :
    s.Canon) : (State.leaveBarrier s key gid pred dst lapped phase).Canon := by
  unfold State.leaveBarrier
  with_reducible repeat' first
    | assumption | apply State.retire_canon | apply State.invalidateCache_canon | apply State.putDst_canon | apply State.updThread_canon
theorem State.wakeBarrier_canon (s : State) (gid : Nat) (bar : Nat) (token : Word) (h1 : s.Canon) : (State.wakeBarrier s gid bar
    token).Canon := by
  unfold State.wakeBarrier
  with_reducible repeat' first | assumption | apply State.leaveBarrier_canon | apply canon_foldl | split | intro _
theorem State.reviewBarrier_canon (s : State) (key : Nat) (h1 : s.Canon) : (State.reviewBarrier s key).Canon := by
  unfold State.reviewBarrier
  with_reducible repeat' first | assumption | apply State.leaveBarrier_canon | split
theorem Lane.arrive_canon (v : Lane) (x : Fields) (s : State) (h1 : s.Canon) : (Lane.arrive v x s).Canon := by
  unfold Lane.arrive
  repeat' first
    | with_reducible assumption | exact True.intro | with_reducible apply State.takeTurn_canon | with_reducible apply Lane.wr32_canon
    | with_reducible apply State.drainAll_canon | with_reducible apply State.logChoice_canon
    | with_reducible apply State.wakeBarrier_canon | with_reducible apply State.setBarrier_canon | with_reducible apply Act.canon_done
    | with_reducible apply Act.canon_wait | split | dsimp only
theorem execBara_canon (x : Fields) (s : State) (h1 : s.Canon) : (CanonOut (execBara x s)) := by
  unfold execBara
  with_reducible repeat' first
    | assumption | apply issue_canon | apply specOf_canon | apply Lane.arrive_canon | intro _
    | (simp only [↓State.canon_mk_iff]; refine ⟨?_, ?_⟩) | dsimp only | apply State.Canon.hbm | apply State.Canon.scanout
    | apply Spec.Canon.lane | apply Spec.Canon.spoil | apply Spec.Canon.after | apply Spec.Canon.mk
theorem Lane.barrierWait_canon (v : Lane) (x : Fields) (s : State) (h1 : s.Canon) : (Lane.barrierWait v x s).Canon := by
  unfold Lane.barrierWait
  repeat' first
    | with_reducible assumption | exact True.intro | with_reducible apply Lane.wr32_canon | with_reducible apply Lane.wrPred_canon
    | with_reducible apply State.invalidateCache_canon | with_reducible apply Act.canon_done | with_reducible apply Act.canon_wait | split
    | dsimp only
theorem execBarw_canon (x : Fields) (s : State) (h1 : s.Canon) : (CanonOut (execBarw x s)) := by
  unfold execBarw
  with_reducible repeat' first
    | assumption | apply issue_canon | apply specOf_canon | apply Lane.barrierWait_canon | intro _
    | (simp only [↓State.canon_mk_iff]; refine ⟨?_, ?_⟩) | dsimp only | apply State.Canon.hbm | apply State.Canon.scanout
    | apply Spec.Canon.lane | apply Spec.Canon.spoil | apply Spec.Canon.after | apply Spec.Canon.mk

end Sys2Proof.Machine
end

