-- ==== Sys2Proof/Laws/CanonUnits.lean ====
section
/-!
SUPPORT. What views, mesh, display, texture, ray and group operations keep:
HBM and scanout memory in their canonical form.
-/
namespace Sys2Proof.Machine
set_option Elab.async false
set_option linter.unusedSimpArgs false

theorem State.updView_canon (s : State) (ctx : Nat) (slot : Nat) (f : ViewSet → ViewSet) (h1 : s.Canon) : (State.updView s ctx slot
    f).Canon := h1
theorem Lane.latched_canon (s : State) (vs : ViewSet) (slot : Nat) (strip : Nat) (k : Latch → Act) (h1 : s.Canon) (h2 : (∀ a0, (k
    a0).Canon)) : (Lane.latched s vs slot strip k).Canon := by
  unfold Lane.latched
  with_reducible repeat' first | assumption | apply h2 | apply Act.canon_wait | split
theorem Lane.warp_canon (v : Lane) (x : Fields) (axis : Nat) (s : State) (h1 : s.Canon) : (Lane.warp v x axis s).Canon := by
  unfold Lane.warp
  repeat' first
    | with_reducible assumption | exact True.intro | with_reducible apply Lane.latched_canon | with_reducible apply Lane.wrWords_canon
    | with_reducible apply Act.canon_done | split | intro _ | dsimp only
theorem execVwarpX_canon (x : Fields) (s : State) (h1 : s.Canon) : (CanonOut (execVwarpX x s)) := by
  unfold execVwarpX
  with_reducible repeat' first | assumption | apply issue_canon | apply specOf_canon | apply Lane.warp_canon | intro _
theorem execVwarpY_canon (x : Fields) (s : State) (h1 : s.Canon) : (CanonOut (execVwarpY x s)) := by
  unfold execVwarpY
  with_reducible repeat' first | assumption | apply issue_canon | apply specOf_canon | apply Lane.warp_canon | intro _
theorem Lane.gazeOf_canon (v : Lane) (x : Fields) (s : State) (h1 : s.Canon) : (Lane.gazeOf v x s).Canon := by
  unfold Lane.gazeOf
  repeat' first
    | with_reducible assumption | exact True.intro | with_reducible apply Lane.latched_canon | with_reducible apply Lane.wrWords_canon
    | with_reducible apply Act.canon_done | split | intro _ | dsimp only
theorem execGzlt_canon (x : Fields) (s : State) (h1 : s.Canon) : (CanonOut (execGzlt x s)) := by
  unfold execGzlt
  with_reducible repeat' first | assumption | apply issue_canon | apply specOf_canon | apply Lane.gazeOf_canon | intro _
theorem Lane.sample_canon (v : Lane) (slot : Nat) (tile : Nat) (n : Nat) (s : State) (check : Option (Nat × Nat)) (k : ViewSet → Option
    (Nat × Nat) → Act) (h1 : s.Canon) (h2 : (∀ a0 a1, (k a0 a1).Canon)) : (Lane.sample v slot tile n s check k).Canon := by
  unfold Lane.sample
  repeat' first
    | with_reducible assumption | exact True.intro | with_reducible apply Lane.latched_canon | with_reducible apply h2 | split | intro _
theorem execSmpl_canon (x : Fields) (s : State) (h1 : s.Canon) : (CanonOut (execSmpl x s)) := by
  unfold execSmpl
  with_reducible repeat' first
    | assumption | apply issue_canon | apply specOf_canon | apply Lane.sample_canon | apply Lane.wrWords_canon | apply Act.canon_done
    | intro _
theorem State.tilesDone_canon (s : State) (vs : ViewSet) (f : Nat) (view : Nat) (strip : Nat) (h1 : s.Canon) : (State.tilesDone s vs f
    view strip).1.Canon := by
  unfold State.tilesDone
  with_reducible repeat' first
    | assumption | split | (simp only [↓State.canon_mk_iff]; refine ⟨?_, ?_⟩) | dsimp only | apply State.Canon.hbm
    | apply State.Canon.scanout
theorem Lane.queueStrip_canon (v : Lane) (x : Fields) (s : State) (h1 : s.Canon) : (Lane.queueStrip v x s).Canon := by
  unfold Lane.queueStrip
  repeat' first
    | with_reducible assumption | exact True.intro | with_reducible apply State.tilesDone_canon | with_reducible apply State.updView_canon
    | with_reducible apply Lane.wr32_canon | with_reducible apply Act.canon_done | split | dsimp only
theorem execSerq_canon (x : Fields) (s : State) (h1 : s.Canon) : (CanonOut (execSerq x s)) := by
  unfold execSerq
  with_reducible repeat' first | assumption | apply issue_canon | apply specOf_canon | apply Lane.queueStrip_canon | intro _
theorem Lane.tileOut_canon (v : Lane) (x : Fields) (lens : Bool) (s : State) (h1 : s.Canon) : (Lane.tileOut v x lens s).Canon := by
  unfold Lane.tileOut
  repeat' first
    | with_reducible assumption | exact True.intro | with_reducible apply State.takeNumber_canon | with_reducible apply State.newOp_canon
    | with_reducible apply State.enter_canon | with_reducible apply State.pendDsts_canon | with_reducible apply Act.canon_done
    | with_reducible apply Act.canon_wait | split | dsimp only
theorem tileSpec_canon (i : Instr) (x : Fields) (lens : Bool) : (tileSpec i x lens).Canon := by
  unfold tileSpec
  with_reducible repeat' first
    | assumption | apply specOf_canon | apply Lane.tileOut_canon | intro _ | (simp only [↓State.canon_mk_iff]; refine ⟨?_, ?_⟩)
    | dsimp only | apply State.Canon.hbm | apply State.Canon.scanout | apply Spec.Canon.lane | apply Spec.Canon.spoil
    | apply Spec.Canon.after | apply Spec.Canon.mk
theorem execTileo_canon (x : Fields) (s : State) (h1 : s.Canon) : (CanonOut (execTileo x s)) := by
  unfold execTileo
  with_reducible repeat' first | assumption | apply issue_canon | apply tileSpec_canon
theorem execLens_canon (x : Fields) (s : State) (h1 : s.Canon) : (CanonOut (execLens x s)) := by
  unfold execLens
  with_reducible repeat' first | assumption | apply issue_canon | apply tileSpec_canon
theorem State.unbindView_canon (s : State) (ctx : Nat) (slot : Nat) (h1 : s.Canon) : (State.unbindView s ctx slot).Canon := by
  unfold State.unbindView
  with_reducible repeat' first
    | assumption | apply State.takeTraps_canon | apply canon_foldl | intro _ | (simp only [↓State.canon_mk_iff]; apply State.canon_parts)
theorem State.writeTile_canon (s : State) (op : Nat) (o : AOp) (t : TileOp) (g : Group) (vs : ViewSet) (h1 : s.Canon) : (State.writeTile
    s op o t g vs).Canon := by
  unfold State.writeTile
  extract_lets late count finish
  have hc : ∀ t, t.Canon → (count t).Canon := by
    intro t ht
    simp only [count]
    with_reducible repeat' first | assumption | apply State.updView_canon | split
  have hf : ∀ t n, t.Canon → (finish t n).Canon := fun t n ht => State.progress_canon _ _ (State.complete_canon _ _ _ _ (hc _ ht))
  clear_value finish
  split
  · exact hf _ _ h1
  have hs : (s.readScratch o o.gid t.base 4096).Canon := State.readScratch_canon _ _ _ _ _ h1
  split
  · exact hf _ _ hs
  split
  · exact hf _ _ hs
  · exact hf _ _ (State.updView_canon _ _ _ _ (State.canon_mk_iff.mpr ⟨hs.hbm, Memory.wf_setBytes _ _ _ hs.scanout⟩))
theorem execTileWriteCompletion_canon (op : Nat) (s : State) (h1 : s.Canon) : (CanonOut (execTileWriteCompletion op s)) := by
  unfold execTileWriteCompletion
  with_reducible repeat' first | assumption | apply happen_canon | apply State.writeTile_canon | apply canonOut_next | split
theorem Lane.meshStore_canon (v : Lane) (x : Fields) (m : MeshStore) (s : State) (h1 : s.Canon) : (Lane.meshStore v x m s).Canon := by
  unfold Lane.meshStore
  repeat' first
    | with_reducible assumption | exact True.intro | with_reducible apply State.spWrite_canon | with_reducible apply Act.canon_done
    | split
theorem meshSpec_canon (i : Instr) (x : Fields) (f : Lane → MeshStore) : (meshSpec i x f).Canon := by
  unfold meshSpec
  with_reducible repeat' first
    | assumption | apply specOf_canon | apply Lane.meshStore_canon | intro _ | (simp only [↓State.canon_mk_iff]; refine ⟨?_, ?_⟩)
    | dsimp only | apply State.Canon.hbm | apply State.Canon.scanout | apply Spec.Canon.lane | apply Spec.Canon.spoil
    | apply Spec.Canon.after | apply Spec.Canon.mk
theorem execMvtx_canon (x : Fields) (s : State) (h1 : s.Canon) : (CanonOut (execMvtx x s)) := by
  unfold execMvtx
  with_reducible repeat' first | assumption | apply issue_canon | apply meshSpec_canon
theorem execMprim_canon (x : Fields) (s : State) (h1 : s.Canon) : (CanonOut (execMprim x s)) := by
  unfold execMprim
  with_reducible repeat' first | assumption | apply issue_canon | apply meshSpec_canon
theorem execMemit_canon (x : Fields) (s : State) (h1 : s.Canon) : (CanonOut (execMemit x s)) := by
  unfold execMemit
  with_reducible repeat' first | assumption | apply issue_canon | apply meshSpec_canon
theorem Lane.plainLoads_canon (v : Lane) (k : State → List Byte → Act) (b2 : List (Nat × Nat)) (b3 : List Byte) (b4 : State) (h1 : (∀ a0
    a1, a0.Canon → (k a0 a1).Canon)) (h2 : b4.Canon) : (Lane.plainLoads v k b2 b3 b4).Canon := by
  induction b2 generalizing b3 b4 with
  | nil =>
    unfold Lane.plainLoads
    with_reducible repeat' first | assumption | apply h1
  | cons x xs ih =>
    unfold Lane.plainLoads
    with_reducible repeat' first | assumption | apply Lane.plainLoad_canon | apply ih | intro _
theorem Lane.amplify_canon (v : Lane) (x : Fields) (s : State) (h1 : s.Canon) : (Lane.amplify v x s).Canon := by
  unfold Lane.amplify
  repeat' first
    | with_reducible assumption | exact True.intro | with_reducible apply Lane.plainLoads_canon | with_reducible apply Act.canon_done
    | with_reducible apply Act.canon_wait | split | intro _ | (simp only [↓State.canon_mk_iff]; with_reducible apply State.canon_parts)
theorem execVamp_canon (x : Fields) (s : State) (h1 : s.Canon) : (CanonOut (execVamp x s)) := by
  unfold execVamp
  with_reducible repeat' first
    | assumption | apply issue_canon | apply specOf_canon | apply Lane.amplify_canon | intro _
    | (simp only [↓State.canon_mk_iff]; refine ⟨?_, ?_⟩) | dsimp only | apply State.Canon.hbm | apply State.Canon.scanout
    | apply Spec.Canon.lane | apply Spec.Canon.spoil | apply Spec.Canon.after | apply Spec.Canon.mk
theorem execAmplifyProject_canon (core : Nat) (s : State) (h1 : s.Canon) : (CanonOut (execAmplifyProject core s)) := by
  unfold execAmplifyProject
  with_reducible repeat' first
    | assumption | apply happen_canon | apply State.updView_canon | apply canonOut_next | split
    | (simp only [↓State.canon_mk_iff]; apply State.canon_parts) | dsimp only
theorem execRasterTest_canon (die : Nat) (s : State) (h1 : s.Canon) : (CanonOut (execRasterTest die s)) := by
  unfold execRasterTest
  with_reducible repeat' first
    | assumption | apply happen_canon | apply canonOut_next | split | (simp only [↓State.canon_mk_iff]; apply State.canon_parts)
theorem State.fixRoute_canon (s : State) (c : Cover) (h1 : s.Canon) : (State.fixRoute s c).Canon := by
  unfold State.fixRoute
  with_reducible repeat' first | assumption | apply State.updView_canon | split
theorem State.takeCover_canon (s : State) (c : Cover) (gid : Nat) (g : Group) (h1 : s.Canon) : (CanonOpt (fun o => o.Canon) (State.takeCover
    s c gid g)) := by
  unfold State.takeCover
  with_reducible repeat' first
    | assumption | apply canonOpt_some | apply canonOpt_none | split | (simp only [↓State.canon_mk_iff]; apply State.canon_parts)
theorem State.pushCover_canon (s : State) (c : Cover) (gid : Nat) (h : Nat) (op : Nat) (g : Group) (h1 : s.Canon) : (CanonOpt (fun o =>
    o.Canon) (State.pushCover s c gid h op g)) := by
  unfold State.pushCover
  with_reducible repeat' first
    | assumption | apply canonOpt_some | apply canonOpt_none | split | (simp only [↓State.canon_mk_iff]; apply State.canon_parts) | dsimp only
theorem State.stopGangBy_canon (s : State) (g : Group) (deadline : Nat) (h1 : s.Canon) : (State.stopGangBy s g deadline).Canon := by
  unfold State.stopGangBy
  with_reducible repeat' first | assumption | split | (simp only [↓State.canon_mk_iff]; apply State.canon_parts)
theorem State.stopGang_canon (s : State) (g : Group) (h1 : s.Canon) : (State.stopGang s g).Canon := by
  unfold State.stopGang
  with_reducible repeat' first | assumption | apply State.stopGangBy_canon
theorem State.releaseLeaving_canon (s : State) (ctx : Nat) (h1 : s.Canon) : (State.releaseLeaving s ctx).Canon := by
  unfold State.releaseLeaving
  with_reducible repeat' first | assumption | apply State.stopGang_canon | apply canon_foldl | intro _
theorem execCoverageDelivery_canon (die : Nat) (s : State) (h1 : s.Canon) : (CanonOut (execCoverageDelivery die s)) := by
  unfold execCoverageDelivery
  with_reducible repeat' first
    | assumption | apply happen_canon | apply State.pushCover_canon | apply State.releaseLeaving_canon | apply State.progress_canon
    | apply State.fixRoute_canon | apply State.updView_canon | apply State.takeCover_canon | apply canonOut_next | split
    | (simp only [↓State.canon_mk_iff]; apply State.canon_parts) | dsimp only | refine CanonOpt.of_state (by assumption) ?_
theorem State.readGaze_canon (s : State) (ctx : Nat) (slot : Nat) (vs : ViewSet) (h1 : s.Canon) : (State.readGaze s ctx slot vs).1.Canon
    := by
  unfold State.readGaze
  split
  · exact h1
  · dsimp only
    split
    · exact State.updView_canon _ _ _ _ (State.rawRead_canon _ _ _ h1)
    · exact State.rawRead_canon _ _ _ h1
theorem State.latchStrip_canon (s : State) (ctx : Nat) (slot : Nat) (vs : ViewSet) (f : Nat) (n : Nat) (h1 : s.Canon) :
    (State.latchStrip s ctx slot vs f n).Canon := by
  unfold State.latchStrip
  extract_lets g yb l src s' routes t
  have hg : g.1.Canon := State.readGaze_canon _ _ _ _ h1
  clear_value g
  have hs : s'.Canon := ⟨hg.hbm, ViewSet.writeRecords_wf vs l n _ hg.scanout⟩
  clear_value s'
  with_reducible repeat' first | assumption | apply State.updView_canon | apply State.updThread_canon | apply canon_foldl | intro _
theorem execStripLatch_canon (ctx : Nat) (slot : Nat) (s : State) (h1 : s.Canon) : (CanonOut (execStripLatch ctx slot s)) := by
  unfold execStripLatch
  with_reducible repeat' first | assumption | apply happen_canon | apply State.latchStrip_canon | apply canonOut_next | split
theorem execStripDeadline_canon (ctx : Nat) (slot : Nat) (s : State) (h1 : s.Canon) : (CanonOut (execStripDeadline ctx slot s)) := by
  unfold execStripDeadline
  with_reducible repeat' first
    | assumption | apply State.updView_canon | apply happen_canon | apply State.releaseLeaving_canon | apply canonOut_next | split
theorem State.emitRow_canon (s : State) (slot : Nat) (vs : ViewSet) (f : Nat) (y : Nat) (h1 : s.Canon) : (State.emitRow s slot vs f
    y).Canon := by
  unfold State.emitRow
  with_reducible repeat' first | assumption | split | (simp only [↓State.canon_mk_iff]; apply State.canon_parts)
theorem execDisplayRowEmit_canon (ctx : Nat) (slot : Nat) (s : State) (h1 : s.Canon) : (CanonOut (execDisplayRowEmit ctx slot s)) := by
  unfold execDisplayRowEmit
  with_reducible repeat' first
    | assumption | apply happen_canon | apply State.updView_canon | apply State.emitRow_canon | apply canonOut_next | split
theorem execScanoutBurstRetry_canon (ctx : Nat) (slot : Nat) (failedRetries : Nat) (s : State) (h1 : s.Canon) : (CanonOut
    (execScanoutBurstRetry ctx slot failedRetries s)) := by
  unfold execScanoutBurstRetry
  with_reducible repeat' first | assumption | apply happen_canon | apply State.updView_canon | apply canonOut_next | split
theorem execGazeFrame_canon (s : State) (h1 : s.Canon) : (CanonOut (execGazeFrame s)) := by
  unfold execGazeFrame
  with_reducible repeat' first
    | assumption | apply happen_canon | apply canonOut_next | split | (simp only [↓State.canon_mk_iff]; apply State.canon_parts)
    | dsimp only
theorem Fetch.piece_canon (f : Fetch) (v : Lane) (kind : AccessKind) (va : Nat) (n : Nat) (size : Nat) (h1 : f.s.Canon) : (Fetch.piece f
    v kind va n size).1.s.Canon := by
  unfold Fetch.piece
  with_reducible repeat' first
    | assumption | apply State.lookup_canon | apply State.performLoad_canon | split | (simp only [↓State.canon_mk_iff]; refine ⟨?_, ?_⟩)
    | dsimp only | apply State.Canon.hbm | apply State.Canon.scanout
theorem Fetch.read_canon (f : Fetch) (v : Lane) (kind : AccessKind) (va : Nat) (n : Nat) (h1 : f.s.Canon) : (Fetch.read f v kind va
    n).1.s.Canon := by
  unfold Fetch.read
  with_reducible repeat' first | assumption | apply Fetch.piece_canon | apply canon_foldl_fetch_fst | split | intro _
theorem Lane.startFetch_canon (v : Lane) (s : State) (h1 : s.Canon) : (Lane.startFetch v s).s.Canon := h1
theorem State.clearBuf_canon (s : State) (key : Nat) (h1 : s.Canon) : (State.clearBuf s key).Canon := h1
theorem Lane.halted_canon (v : Lane) (kind : AccessKind) (s : State) (h : Halt) (h1 : s.Canon) : (Lane.halted v kind s h).Canon := by
  unfold Lane.halted
  with_reducible repeat' first
    | assumption | apply State.clearBuf_canon | apply State.awaitBytes_canon | apply Act.canon_raw | apply Act.canon_trapIn
    | apply Act.canon_wait | apply Act.canon_miss | split
theorem Fetch.texelPos_canon (f : Fetch) (u : Nat) (n : Nat) (h1 : f.s.Canon) : (Fetch.texelPos f u n).1.s.Canon := by
  unfold Fetch.texelPos
  with_reducible repeat' first | assumption | split | (simp only [↓State.canon_mk_iff]; apply State.canon_parts)
theorem Fetch.texel_canon (f : Fetch) (v : Lane) (t : Texture) (l : Nat) (i : Int) (j : Int) (h1 : f.s.Canon) : (Fetch.texel f v t l i
    j).1.s.Canon := by
  unfold Fetch.texel
  with_reducible repeat' first | assumption | apply Fetch.read_canon | split
theorem Fetch.footprint_canon (f : Fetch) (v : Lane) (t : Texture) (l : Nat) (uu : Nat) (vv : Nat) (h1 : f.s.Canon) : (Fetch.footprint f
    v t l uu vv).1.s.Canon := by
  unfold Fetch.footprint
  with_reducible repeat' first | assumption | apply Fetch.texelPos_canon | apply Fetch.texel_canon
theorem Fetch.bilinear_canon (f : Fetch) (v : Lane) (t : Texture) (l : Nat) (uu : Nat) (vv : Nat) (h1 : f.s.Canon) : (Fetch.bilinear f v
    t l uu vv).1.s.Canon := by
  unfold Fetch.bilinear
  with_reducible repeat' first | assumption | apply Fetch.footprint_canon
theorem Fetch.trilinear_canon (f : Fetch) (v : Lane) (t : Texture) (lod : Nat) (uu : Nat) (vv : Nat) (h1 : f.s.Canon) : (Fetch.trilinear
    f v t lod uu vv).1.s.Canon := by
  unfold Fetch.trilinear
  with_reducible repeat' first | assumption | apply Fetch.bilinear_canon
theorem Fetch.anisotropic_canon (f : Fetch) (v : Lane) (t : Texture) (lod : Nat) (uu : Nat) (vv : Nat) (du : Nat) (dv : Nat) (h1 :
    f.s.Canon) : (Fetch.anisotropic f v t lod uu vv du dv).1.s.Canon := by
  unfold Fetch.anisotropic
  with_reducible repeat' first | assumption | apply Fetch.trilinear_canon | apply canon_foldl_fetch_fst | intro _
theorem Lane.texture_canon (v : Lane) (x : Fields) (s : State) (k : Fetch → Texture → Fetch × List Word) (h1 : s.Canon) (h2 : (∀ a0 a1,
    a0.s.Canon → (k a0 a1).1.s.Canon)) : (Lane.texture v x s k).Canon := by
  unfold Lane.texture
  repeat' first
    | with_reducible assumption | exact True.intro | with_reducible apply Fetch.read_canon | with_reducible apply Lane.startFetch_canon
    | with_reducible apply Lane.halted_canon | with_reducible apply State.newOp_canon | with_reducible apply State.clearBuf_canon
    | with_reducible apply State.pendDsts_canon | with_reducible apply h2 | with_reducible apply Act.canon_done
    | with_reducible apply Act.canon_trapIn | split | dsimp only
theorem texSpec_canon (i : Instr) (x : Fields) (k : Lane →   Fetch → Texture → Fetch × List Word) (h1 : (∀ a0 a1 a2, a1.s.Canon → (k a0
    a1 a2).1.s.Canon)) : (texSpec i x k).Canon := by
  unfold texSpec
  with_reducible repeat' first
    | assumption | apply specOf_canon | apply Lane.texture_canon | apply h1 | intro _ | (simp only [↓State.canon_mk_iff]; refine ⟨?_, ?_⟩)
    | dsimp only | apply State.Canon.hbm | apply State.Canon.scanout | apply Spec.Canon.lane | apply Spec.Canon.spoil
    | apply Spec.Canon.after | apply Spec.Canon.mk
theorem execTexB_canon (x : Fields) (s : State) (h1 : s.Canon) : (CanonOut (execTexB x s)) := by
  unfold execTexB
  with_reducible repeat' first | assumption | apply issue_canon | apply texSpec_canon | apply Fetch.bilinear_canon | intro _
theorem execTexT_canon (x : Fields) (s : State) (h1 : s.Canon) : (CanonOut (execTexT x s)) := by
  unfold execTexT
  with_reducible repeat' first | assumption | apply issue_canon | apply texSpec_canon | apply Fetch.trilinear_canon | intro _
theorem execTexA_canon (x : Fields) (s : State) (h1 : s.Canon) : (CanonOut (execTexA x s)) := by
  unfold execTexA
  with_reducible repeat' first | assumption | apply issue_canon | apply texSpec_canon | apply Fetch.anisotropic_canon | intro _
theorem execTexg_canon (x : Fields) (s : State) (h1 : s.Canon) : (CanonOut (execTexg x s)) := by
  unfold execTexg
  with_reducible repeat' first
    | assumption | apply issue_canon | apply texSpec_canon | apply Fetch.texelPos_canon | apply Fetch.texel_canon
    | apply canon_foldl_fetch_fst | intro _
theorem execTexq_canon (x : Fields) (s : State) (h1 : s.Canon) : (CanonOut (execTexq x s)) := by
  unfold execTexq
  with_reducible repeat' first | assumption | apply issue_canon | apply texSpec_canon | intro _
theorem Fetch.node_canon (f : Fetch) (v : Lane) (a : Nat) (h1 : f.s.Canon) : (CanonOpt (fun o => o.1.s.Canon) (Fetch.node f v a)) := by
  unfold Fetch.node
  with_reducible repeat' first | assumption | apply Fetch.read_canon | apply canonOpt_some | apply canonOpt_none | split
theorem travel_canon (v : Lane) (b1 : Nat) (b2 : Fetch) (b3 : Ray) (b4 : List Level) (b5 : Option Nat) (h1 : b2.s.Canon) : (travel v b1
    b2 b3 b4 b5).1.s.Canon := by
  induction b1 generalizing b2 b3 b4 b5 with
  | zero => simpa only [travel] using h1
  | succ k ih =>
    cases b5 with
    | none =>
      simp only [travel]
      with_reducible repeat' first | assumption | apply ih | split
    | some a =>
      simp only [travel]
      with_reducible repeat' first
        | assumption | apply Fetch.node_canon | apply ih | split | (simp only [↓State.canon_mk_iff]; refine ⟨?_, ?_⟩)
        | apply State.Canon.hbm | apply State.Canon.scanout | refine CanonOpt.of_fetch (by assumption) ?_
theorem Ray.path_canon (v : Lane) (r : Ray) (b2 : Nat) (b3 : Fetch) (b4 : Nat) (b5 : List Level) (h1 : b3.s.Canon) : (Ray.path v r b2 b3
    b4 b5).1.s.Canon := by
  induction b2 generalizing b3 b4 b5 with
  | zero =>
    unfold Ray.path
    with_reducible repeat' first | assumption
  | succ k ih =>
    unfold Ray.path
    with_reducible repeat' first
      | assumption | apply Fetch.node_canon | apply ih | split | (simp only [↓State.canon_mk_iff]; refine ⟨?_, ?_⟩) | dsimp only
      | apply State.Canon.hbm | apply State.Canon.scanout | refine CanonOpt.of_fetch (by assumption) ?_
theorem Fetch.openEnd_canon (f : Fetch) (r : Ray) (h1 : f.s.Canon) : (Fetch.openEnd f r).1.s.Canon := h1
theorem Ray.run_canon (v : Lane) (r : Ray) (f : Fetch) (resume : Bool) (report : Option (Nat × Nat)) (h1 : f.s.Canon) : (Ray.run v r f
    resume report).1.s.Canon := by
  have ho : ∀ (f : Fetch) r, f.s.Canon → (f.openEnd r).1.s.Canon := fun f r h => Fetch.openEnd_canon f r h
  unfold Ray.run
  extract_lets take leaf r0
  have hl : CanonOpt (fun o => o.1.s.Canon) leaf := by
    simp only [leaf]
    with_reducible repeat' first | assumption | apply Fetch.node_canon | apply canonOpt_some | split
  clear_value leaf
  split
  · exact ho f r0 h1
  rename_i f0 node
  have hf : f0.s.Canon := hl.some (f0, node) rfl
  extract_lets o1 r1 o2 p o3 q o4
  have hp : p.1.s.Canon := Ray.path_canon _ _ _ _ _ _ hf
  clear_value p
  have hq : q.1.s.Canon := travel_canon _ _ _ _ _ _ hp
  clear_value q r1
  with_reducible repeat' first | assumption | apply Fetch.openEnd_canon | split
theorem Lane.block64_canon (v : Lane) (x : Fields) (rs : List (Nat × Nat)) (s : State) (k : State → Nat → List Byte → Act) (h1 :
    s.Canon) (h2 : (∀ a0 a1 a2, a0.Canon → (k a0 a1 a2).Canon)) : (Lane.block64 v x rs s k).Canon := by
  unfold Lane.block64
  repeat' first
    | with_reducible assumption | exact True.intro | with_reducible apply Lane.plainRead_canon | with_reducible apply h2 | split | intro _
    | dsimp only
theorem Lane.traverse_canon (v : Lane) (x : Fields) (resume : Bool) (report : Option (Nat × Nat)) (s : State) (h1 : s.Canon) :
    (Lane.traverse v x resume report s).Canon := by
  unfold Lane.traverse
  repeat' first
    | with_reducible assumption | exact True.intro | with_reducible apply Lane.plainRead_canon | with_reducible apply State.newOp_canon
    | with_reducible apply State.enter_canon | with_reducible apply State.pendDsts_canon | with_reducible apply Act.canon_wait | split
    | intro _ | dsimp only
theorem raySpec_canon (i : Instr) (x : Fields) (resume : Bool) (report : Lane → Option (Nat × Nat)) : (raySpec i x resume report).Canon
    := by
  unfold raySpec
  with_reducible repeat' first
    | assumption | apply specOf_canon | apply Lane.traverse_canon | intro _ | (simp only [↓State.canon_mk_iff]; refine ⟨?_, ?_⟩)
    | dsimp only | apply State.Canon.hbm | apply State.Canon.scanout | apply Spec.Canon.lane | apply Spec.Canon.spoil
    | apply Spec.Canon.after | apply Spec.Canon.mk
theorem execRyt_canon (x : Fields) (s : State) (h1 : s.Canon) : (CanonOut (execRyt x s)) := by
  unfold execRyt
  with_reducible repeat' first | assumption | apply issue_canon | apply raySpec_canon
theorem execRyrM_canon (x : Fields) (s : State) (h1 : s.Canon) : (CanonOut (execRyrM x s)) := by
  unfold execRyrM
  with_reducible repeat' first | assumption | apply issue_canon | apply raySpec_canon
theorem execRyrH_canon (x : Fields) (s : State) (h1 : s.Canon) : (CanonOut (execRyrH x s)) := by
  unfold execRyrH
  with_reducible repeat' first | assumption | apply issue_canon | apply raySpec_canon
theorem TravOp.outcome_canon (t : TravOp) (v : Lane) (s : State) (h1 : s.Canon) : (TravOp.outcome t v s).1.s.Canon := by
  unfold TravOp.outcome
  with_reducible repeat' first
    | assumption | apply Lane.startFetch_canon | apply Ray.run_canon | split | (simp only [↓State.canon_mk_iff]; refine ⟨?_, ?_⟩)
    | dsimp only | apply State.Canon.hbm | apply State.Canon.scanout
theorem State.endTraversal_canon (s : State) (op : Nat) (o : AOp) (t : TravOp) (bytes : Option (List Byte)) (result : Nat) (poison :
    Option Nat) (h1 : s.Canon) : (State.endTraversal s op o t bytes result poison).Canon := by
  unfold State.endTraversal
  with_reducible repeat' first
    | assumption | apply State.spWrite_canon | apply State.landDsts_canon | apply State.retireEntries_canon | apply State.endOp_canon
    | apply State.poisonLanded_canon | apply State.groupProgress_canon | apply State.retire_canon | split
theorem execTraversalCompletion_canon (op : Nat) (s : State) (h1 : s.Canon) : (CanonOut (execTraversalCompletion op s)) := by
  unfold execTraversalCompletion
  with_reducible repeat' first
    | assumption | apply TravOp.outcome_canon | apply happen_canon | apply State.endTraversal_canon | apply State.sendMiss_canon
    | apply State.newOp_canon | apply canonOut_next | split | dsimp only
theorem execRyl_canon (x : Fields) (s : State) (h1 : s.Canon) : (CanonOut (execRyl x s)) := by
  unfold execRyl
  with_reducible repeat' first
    | assumption | apply issue_canon | apply specOf_canon | apply Lane.block64_canon | apply State.spWrite_canon | apply Act.canon_done
    | intro _ | (simp only [↓State.canon_mk_iff]; refine ⟨?_, ?_⟩) | dsimp only | apply State.Canon.hbm | apply State.Canon.scanout
    | apply Spec.Canon.lane | apply Spec.Canon.spoil | apply Spec.Canon.after | apply Spec.Canon.mk
theorem execRylV_canon (x : Fields) (s : State) (h1 : s.Canon) : (CanonOut (execRylV x s)) := by
  unfold execRylV
  with_reducible repeat' first
    | assumption | apply issue_canon | apply specOf_canon | apply Lane.sample_canon | apply Lane.block64_canon | apply State.spWrite_canon
    | apply Act.canon_done | split | intro _ | (simp only [↓State.canon_mk_iff]; refine ⟨?_, ?_⟩) | dsimp only | apply State.Canon.hbm
    | apply State.Canon.scanout | apply Spec.Canon.lane | apply Spec.Canon.spoil | apply Spec.Canon.after | apply Spec.Canon.mk
theorem execRyx_canon (x : Fields) (s : State) (h1 : s.Canon) : (CanonOut (execRyx x s)) := by
  unfold execRyx
  with_reducible repeat' first
    | assumption | apply issue_canon | apply specOf_canon | apply Lane.block64_canon | apply State.updGroup_canon | apply Act.canon_done
    | intro _ | (simp only [↓State.canon_mk_iff]; refine ⟨?_, ?_⟩) | dsimp only | apply State.Canon.hbm | apply State.Canon.scanout
    | apply Spec.Canon.lane | apply Spec.Canon.spoil | apply Spec.Canon.after | apply Spec.Canon.mk
theorem execRyh_canon (x : Fields) (s : State) (h1 : s.Canon) : (CanonOut (execRyh x s)) := by
  unfold execRyh
  with_reducible repeat' first
    | assumption | apply issue_canon | apply specOf_canon | apply Lane.block64_canon | apply Lane.wrWords_canon | apply Act.canon_done
    | intro _ | (simp only [↓State.canon_mk_iff]; refine ⟨?_, ?_⟩) | dsimp only | apply State.Canon.hbm | apply State.Canon.scanout
    | apply Spec.Canon.lane | apply Spec.Canon.spoil | apply Spec.Canon.after | apply Spec.Canon.mk
theorem execRys_canon (x : Fields) (s : State) (h1 : s.Canon) : (CanonOut (execRys x s)) := by
  unfold execRys
  with_reducible repeat' first
    | assumption | apply issue_canon | apply specOf_canon | apply Lane.block64_canon | apply State.newOp_canon
    | apply State.clearBuf_canon | apply State.pendDsts_canon | apply Lane.wrWords_canon | apply Fetch.read_canon
    | apply Lane.startFetch_canon | apply Lane.halted_canon | apply Act.canon_done | split | intro _
    | (simp only [↓State.canon_mk_iff]; refine ⟨?_, ?_⟩) | dsimp only | apply State.Canon.hbm | apply State.Canon.scanout
    | apply Spec.Canon.lane | apply Spec.Canon.spoil | apply Spec.Canon.after | apply Spec.Canon.mk
theorem State.dropThreads_canon (s : State) (ks : List Nat) (h1 : s.Canon) : (State.dropThreads s ks).Canon := h1
theorem State.dropGroup_canon (s : State) (gid : Nat) (h1 : s.Canon) : (State.dropGroup s gid).Canon := by
  unfold State.dropGroup
  with_reducible repeat' first
    | assumption | apply State.dropThreads_canon | apply State.releaseSts_canon
    | (simp only [↓State.canon_mk_iff]; apply State.canon_parts)
theorem State.loseGroup_canon (s : State) (quiet : Bool) (gid : Nat) (h1 : s.Canon) : (State.loseGroup s quiet gid).Canon := by
  unfold State.loseGroup
  with_reducible repeat' first
    | assumption | apply State.runCopy_canon | apply State.dropGroup_canon | apply canon_foldl | split | intro _
    | (simp only [↓State.canon_mk_iff]; apply State.canon_parts)
theorem State.finishGang_canon (s : State) (launch : Nat) (gang : Nat) (h1 : s.Canon) : (State.finishGang s launch gang).Canon := by
  unfold State.finishGang
  with_reducible repeat' first | assumption | split | (simp only [↓State.canon_mk_iff]; apply State.canon_parts)
theorem execThreadDrainEnd_canon (thread : Nat) (s : State) (h1 : s.Canon) : (CanonOut (execThreadDrainEnd thread s)) := by
  unfold execThreadDrainEnd
  with_reducible repeat' first
    | assumption | apply happen_canon | apply State.freeThread_canon | apply canonOut_next | split
    | (simp only [↓State.canon_mk_iff]; apply State.canon_parts)
theorem State.answerClaim_canon (s : State) (c : Claim) (l : Launch) (n : Nat) (h1 : s.Canon) : (State.answerClaim s c l n).Canon := by
  unfold State.answerClaim
  with_reducible repeat' first
    | assumption | apply State.logChoice_canon | apply State.putDsts_canon | apply State.updThread_canon | apply State.retire_canon
    | split | (simp only [↓State.canon_mk_iff]; apply State.canon_parts)
theorem execTwnxAnswer_canon (thread : Nat) (s : State) (h1 : s.Canon) : (CanonOut (execTwnxAnswer thread s)) := by
  unfold execTwnxAnswer
  with_reducible repeat' first
    | assumption | apply State.nextRecord_canon | apply happen_canon | apply State.answerClaim_canon | apply State.consume_canon
    | apply canonOut_next | split | dsimp only
theorem State.beginThresher_canon (s : State) (core : Nat) (h1 : s.Canon) : (State.beginThresher s core).Canon := by
  unfold State.beginThresher
  with_reducible repeat' first
    | assumption | apply State.setThread_canon | split | (simp only [↓State.canon_mk_iff]; apply State.canon_parts)
theorem execThresherIssue_canon (core : Nat) (s : State) (h1 : s.Canon) : (CanonOut (execThresherIssue core s)) := by
  unfold execThresherIssue
  with_reducible repeat' first
    | assumption | apply State.beginThresher_canon | apply canonOut_next | split
    | (simp only [↓State.canon_mk_iff]; apply State.canon_parts) | dsimp only

end Sys2Proof.Machine
end

