-- ==== Sys2Proof/Laws/CanonCommand.lean ====
section
/-!
SUPPORT. What commands, contexts, saving, binding, collectives, placement and error reports keep:
HBM and scanout memory in their canonical form.
-/
namespace Sys2Proof.Machine
set_option Elab.async false
set_option linter.unusedSimpArgs false

theorem State.updCmdQ_canon (s : State) (t : Nat) (q : Nat) (f : CmdQ → CmdQ) (h1 : s.Canon) : (State.updCmdQ s t q f).Canon := h1
theorem State.closeRecord_canon (s : State) (c : Cmd) (status : Nat) (h1 : s.Canon) : (State.closeRecord s c status).Canon := by
  unfold State.closeRecord
  with_reducible repeat' first | assumption | apply State.updCmdQ_canon | apply State.sendEvent_canon | split
theorem State.decrement.bad_canon (c : Cmd) (n : Nat) (s : State) (h1 : s.Canon) : (State.decrement.bad c n s).Canon := by
  unfold State.decrement.bad
  with_reducible repeat' first | assumption | apply State.sendEvent_canon | (simp only [↓State.canon_mk_iff]; apply State.canon_parts)
theorem State.decrement_canon (s : State) (c : Cmd) (n : Nat) (h1 : s.Canon) : (State.decrement s c n).Canon := by
  unfold State.decrement
  with_reducible repeat' first
    | assumption | apply State.decrement.bad_canon | split | (simp only [↓State.canon_mk_iff]; apply State.canon_parts)
theorem State.closeNode_canon (s : State) (c : Cmd) (h1 : s.Canon) : (State.closeNode s c).Canon := by
  unfold State.closeNode
  with_reducible repeat' first
    | assumption | apply State.decrement_canon | apply canon_foldl | split | intro _
    | (simp only [↓State.canon_mk_iff]; apply State.canon_parts)
theorem State.readyLaunch_canon (s : State) (c : Cmd) (h1 : s.Canon) : (State.readyLaunch s c).Canon := h1
theorem State.startRecord_canon (s : State) (c : Cmd) (h1 : s.Canon) : (State.startRecord s c).Canon := by
  unfold State.startRecord
  with_reducible repeat' first
    | assumption | apply State.updCmdQ_canon | apply State.readyLaunch_canon | apply State.closeRecord_canon | apply State.closeNode_canon
    | split | (simp only [↓State.canon_mk_iff]; apply State.canon_parts)
theorem State.wakeRecords_canon (b0 : Nat) (b1 : State) (h1 : b1.Canon) : (State.wakeRecords b0 b1).Canon := by
  induction b0 generalizing b1 with
  | zero =>
    unfold State.wakeRecords
    with_reducible repeat' first | assumption
  | succ k ih =>
    unfold State.wakeRecords
    with_reducible repeat' first | assumption | apply State.startRecord_canon | apply ih | split
theorem State.finishRecord_canon (s : State) (c : Cmd) (status : Nat) (h1 : s.Canon) : (State.finishRecord s c status).Canon := by
  unfold State.finishRecord
  with_reducible repeat' first | assumption | apply State.closeRecord_canon | apply State.wakeRecords_canon
theorem State.enterRecord_canon (s : State) (c : Cmd) (h1 : s.Canon) : (State.enterRecord s c).Canon := by
  unfold State.enterRecord
  with_reducible repeat' first | assumption | apply State.updCmdQ_canon | apply State.wakeRecords_canon
theorem State.lapQueue_canon (s : State) (t : Nat) (q : Nat) (v : CmdQ) (widx : Nat) (h1 : s.Canon) : (State.lapQueue s t q v
    widx).Canon := by
  unfold State.lapQueue
  with_reducible repeat' first | assumption | apply State.rawWrite_canon | apply State.sendEvent_canon | apply State.updCmdQ_canon
theorem State.takeRecord_canon (s : State) (t : Nat) (q : Nat) (v : CmdQ) (h1 : s.Canon) : (State.takeRecord s t q v).Canon := by
  unfold State.takeRecord
  extract_lets r c s' t
  have hr : r.1.Canon := State.rawRead_canon _ _ _ h1
  clear_value r
  have hs : s'.Canon := State.rawWrite_canon _ _ _ hr
  clear_value s'
  have ht : t.Canon := State.updCmdQ_canon _ _ _ _ hs
  clear_value t
  with_reducible repeat' first
    | assumption | apply State.finishRecord_canon | apply State.countPoison_canon | apply State.enterRecord_canon | split
    | (simp only [↓State.canon_mk_iff]; apply State.canon_parts)
theorem execWidxNotice_canon (tenant : Nat) (queue : Nat) (s : State) (h1 : s.Canon) : (CanonOut (execWidxNotice tenant queue s)) := by
  unfold execWidxNotice
  with_reducible repeat' first
    | assumption | apply State.rawRead_canon | apply State.lapQueue_canon | apply happen_canon | apply State.takeRecord_canon
    | apply canonOut_next | split | dsimp only
theorem State.command_canon (s : State) (opc : Nat) (check : Cmd → Nat) (act : Cmd → State → State) (h1 : s.Canon) (h2 : (∀ a0 a1,
    a1.Canon → (act a0 a1).Canon)) : (CanonOut (State.command s opc check act)) := by
  unfold State.command
  with_reducible repeat' first
    | assumption | apply happen_canon | apply State.finishRecord_canon | apply h2 | apply canonOut_next | split | dsimp only
theorem State.occupy_canon (s : State) (c : Cmd) (h1 : s.Canon) : (State.occupy s c).Canon := by
  unfold State.occupy
  with_reducible repeat' first | assumption | split | (simp only [↓State.canon_mk_iff]; apply State.canon_parts)
theorem execRelay_canon (s : State) (h1 : s.Canon) : (CanonOut (execRelay s)) := by
  unfold execRelay
  with_reducible repeat' first
    | assumption | apply State.command_canon | apply State.enterRecord_canon | apply State.occupy_canon | intro _
theorem State.readVirtual_canon (b0 : Nat) (b1 : State) (b2 : Nat) (b3 : Nat) (b4 : Nat) (b5 : List Byte) (h1 : b1.Canon) :
    (State.readVirtual b0 b1 b2 b3 b4 b5).1.Canon := by
  induction b0 generalizing b1 b3 b4 b5 with
  | zero =>
    unfold State.readVirtual
    with_reducible repeat' first | assumption
  | succ k ih =>
    unfold State.readVirtual
    with_reducible repeat' first
      | assumption | apply State.engineXlat_canon | apply State.readPage_canon | apply ih | split
      | (simp only [↓State.canon_mk_iff]; refine ⟨?_, ?_⟩) | dsimp only | apply State.Canon.hbm | apply State.Canon.scanout
theorem execLaunch_canon (s : State) (h1 : s.Canon) : (CanonOut (execLaunch s)) := by
  unfold execLaunch
  repeat' first
    | with_reducible assumption | with_reducible apply State.command_canon | with_reducible apply State.readVirtual_canon
    | with_reducible apply State.finishRecord_canon | with_reducible apply State.enterRecord_canon
    | with_reducible apply State.occupy_canon | split | intro _
    | (simp only [↓State.canon_mk_iff]; with_reducible apply State.canon_parts) | (simp only [↓State.canon_mk_iff]; refine ⟨?_, ?_⟩)
    | with_reducible apply State.Canon.hbm | with_reducible apply State.Canon.scanout
theorem State.restCtx_canon (s : State) (ctx : Nat) (h1 : s.Canon) : (State.restCtx s ctx).Canon := by
  unfold State.restCtx
  with_reducible repeat' first | assumption | apply State.updCtx_canon | split
theorem execLaunchCompletion_canon (launch : Nat) (s : State) (h1 : s.Canon) : (CanonOut (execLaunchCompletion launch s)) := by
  unfold execLaunchCompletion
  with_reducible repeat' first
    | assumption | apply State.drainAll_canon | apply happen_canon | apply State.finishRecord_canon | apply State.restCtx_canon
    | apply State.closeNode_canon | apply canonOut_next | split | (simp only [↓State.canon_mk_iff]; apply State.canon_parts)
theorem execPipe_canon (s : State) (h1 : s.Canon) : (CanonOut (execPipe s)) := by
  unfold execPipe
  with_reducible repeat' first
    | assumption | apply State.command_canon | apply State.finishRecord_canon | apply State.updCtx_canon | intro _
theorem State.openLog_canon (s : State) (ctx : Nat) (h1 : s.Canon) : (State.openLog s ctx).Canon := by
  unfold State.openLog
  repeat' first
    | with_reducible assumption | with_reducible apply State.updLog_canon | with_reducible apply State.logPlace_canon
    | with_reducible apply State.writePage_canon | with_reducible apply State.readPage_canon
    | with_reducible apply State.writeLogHeader_canon | split | (simp only [↓State.canon_mk_iff]; refine ⟨?_, ?_⟩)
    | with_reducible apply State.Canon.hbm | with_reducible apply State.Canon.scanout
theorem execCtxload_canon (s : State) (h1 : s.Canon) : (CanonOut (execCtxload s)) := by
  unfold execCtxload
  repeat' first
    | with_reducible assumption | with_reducible apply State.command_canon | with_reducible apply State.rawRead_canon
    | with_reducible apply State.finishRecord_canon | with_reducible apply State.countPoison_canon
    | with_reducible apply State.openLog_canon | split | intro _
    | (simp only [↓State.canon_mk_iff]; with_reducible apply State.canon_parts) | (simp only [↓State.canon_mk_iff]; refine ⟨?_, ?_⟩)
    | with_reducible apply State.Canon.hbm | with_reducible apply State.Canon.scanout
theorem execCtxupd_canon (s : State) (h1 : s.Canon) : (CanonOut (execCtxupd s)) := by
  unfold execCtxupd
  with_reducible repeat' first
    | assumption | apply State.command_canon | apply State.updCtx_canon | apply State.finishRecord_canon | apply State.openLog_canon
    | split | intro _
theorem State.requestStop_canon (s : State) (ctx : Nat) (h1 : s.Canon) : (State.requestStop s ctx).Canon := h1
theorem execCtxsave_canon (s : State) (h1 : s.Canon) : (CanonOut (execCtxsave s)) := by
  unfold execCtxsave
  with_reducible repeat' first
    | assumption | apply State.command_canon | apply State.requestStop_canon | apply State.updCtx_canon | apply State.finishRecord_canon
    | split | intro _
theorem execCtxres_canon (s : State) (h1 : s.Canon) : (CanonOut (execCtxres s)) := by
  unfold execCtxres
  with_reducible repeat' first | assumption | apply State.command_canon | apply State.updCtx_canon | intro _
theorem State.forgetPages_canon (s : State) (ctx : Nat) (hit : Nat → Nat → Bool) (h1 : s.Canon) : (State.forgetPages s ctx hit).Canon :=
    by
  unfold State.forgetPages
  with_reducible repeat' first
    | assumption | apply State.askPage_canon | apply canon_foldl | split | intro _
    | (simp only [↓State.canon_mk_iff]; apply State.canon_parts)
theorem State.discardXlat_canon (s : State) (ctx : Nat) (range : Option (Nat × Nat)) (h1 : s.Canon) : (State.discardXlat s ctx
    range).Canon := by
  unfold State.discardXlat
  with_reducible repeat' first | assumption | apply State.forgetPages_canon | (simp only [↓State.canon_mk_iff]; apply State.canon_parts)
theorem execTlbinv_canon (s : State) (h1 : s.Canon) : (CanonOut (execTlbinv s)) := by
  unfold execTlbinv
  with_reducible repeat' first
    | assumption | apply State.command_canon | apply State.updCtx_canon | apply State.discardXlat_canon | split | intro _
theorem State.finishPending_canon (s : State) (ctx : Nat) (opc : Nat) (status : Nat) (h1 : s.Canon) : (State.finishPending s ctx opc
    status).Canon := by
  unfold State.finishPending
  with_reducible repeat' first | assumption | apply State.updCtx_canon | apply State.finishRecord_canon | apply canon_foldl | intro _
theorem execTlbinvCompletion_canon (ctx : Nat) (s : State) (h1 : s.Canon) : (CanonOut (execTlbinvCompletion ctx s)) := by
  unfold execTlbinvCompletion
  with_reducible repeat' first
    | assumption | apply happen_canon | apply State.finishPending_canon | apply canonOut_next | split | dsimp only
theorem State.discardCtx_canon (s : State) (ctx : Nat) (status : Nat) (h1 : s.Canon) : (State.discardCtx s ctx status).Canon := by
  unfold State.discardCtx
  with_reducible repeat' first
    | assumption | apply State.loseGroup_canon | apply State.unbindView_canon | apply State.discardXlat_canon | apply State.updCmdQ_canon
    | apply State.finishPending_canon | apply State.finishRecord_canon | apply State.wakeRecords_canon | apply canon_foldl | intro _
    | (simp only [↓State.canon_mk_iff]; apply State.canon_parts)
theorem execCtxdisc_canon (s : State) (h1 : s.Canon) : (CanonOut (execCtxdisc s)) := by
  unfold execCtxdisc
  with_reducible repeat' first
    | assumption | apply State.command_canon | apply State.finishRecord_canon | apply State.discardCtx_canon | intro _
theorem execMetadataExport_canon (s : State) (h1 : s.Canon) : (CanonOut (execMetadataExport s)) := by
  unfold execMetadataExport
  with_reducible repeat' first
    | assumption | apply State.command_canon | apply State.drainAll_canon | apply State.finishRecord_canon | apply State.rawWrite_canon
    | intro _ | (simp only [↓State.canon_mk_iff]; apply State.canon_parts)
theorem execMetadataImport_canon (s : State) (h1 : s.Canon) : (CanonOut (execMetadataImport s)) := by
  unfold execMetadataImport
  repeat' first
    | with_reducible assumption | with_reducible apply State.command_canon | with_reducible apply State.rawRead_canon
    | with_reducible apply State.drainAll_canon | with_reducible apply State.finishRecord_canon
    | with_reducible apply State.countPoison_canon | with_reducible apply State.setCode_canon | with_reducible apply canon_foldl | split
    | intro _ | (simp only [↓State.canon_mk_iff]; with_reducible apply State.canon_parts)
    | (simp only [↓State.canon_mk_iff]; refine ⟨?_, ?_⟩) | with_reducible apply State.Canon.hbm | with_reducible apply State.Canon.scanout
theorem State.beginGangSave_canon (s : State) (t : GangStop) (h1 : s.Canon) : (State.beginGangSave s t).Canon := h1
theorem execSafePointSave_canon (ctx : Nat) (s : State) (h1 : s.Canon) : (CanonOut (execSafePointSave ctx s)) := by
  unfold execSafePointSave
  with_reducible repeat' first
    | assumption | apply happen_canon | apply State.updCtx_canon | apply State.beginGangSave_canon | apply canonOut_next | split
theorem State.withdrawSignings_canon (s : State) (gid : Nat) (h1 : s.Canon) : (State.withdrawSignings s gid).Canon := by
  unfold State.withdrawSignings
  with_reducible repeat' first | assumption | apply State.updGroup_canon | apply State.updThread_canon | apply canon_foldl | intro _
theorem execForcedSave_canon (ctx : Nat) (s : State) (h1 : s.Canon) : (CanonOut (execForcedSave ctx s)) := by
  unfold execForcedSave
  with_reducible repeat' first
    | assumption | apply happen_canon | apply State.updCtx_canon | apply State.withdrawSignings_canon | apply State.beginGangSave_canon
    | apply canonOut_next | apply canon_foldl | split | intro _ | dsimp only
theorem State.abandonRays_canon (s : State) (gid : Nat) (h1 : s.Canon) : (State.abandonRays s gid).Canon := by
  unfold State.abandonRays
  with_reducible repeat' first | assumption | apply State.breakWait_canon | apply canon_foldl | split | intro _
theorem State.saveGroup_canon (s : State) (gid : Nat) (g : Group) (h1 : s.Canon) : (State.saveGroup s gid g).Canon := by
  unfold State.saveGroup
  with_reducible repeat' first
    | assumption | apply State.abandonRays_canon | apply State.dropGroup_canon | split
    | (simp only [↓State.canon_mk_iff]; apply State.canon_parts)
theorem State.saveGroups_canon (s : State) (gs : List (Nat × Group)) (h1 : s.Canon) : (State.saveGroups s gs).Canon := by
  unfold State.saveGroups
  with_reducible repeat' first | assumption | apply State.saveGroup_canon | apply State.deliverFor_canon | apply canon_foldl | intro _
theorem State.writeImage_canon (b0 : Nat) (b1 : State) (b2 : Nat) (b3 : Nat) (b4 : Nat) (b5 : Nat) (h1 : b1.Canon) : (State.writeImage
    b0 b1 b2 b3 b4 b5).1.Canon := by
  induction b0 generalizing b1 b3 b4 b5 with
  | zero =>
    unfold State.writeImage
    with_reducible repeat' first | assumption
  | succ k ih =>
    unfold State.writeImage
    with_reducible repeat' first
      | assumption | apply State.engineXlat_canon | apply State.writePage_canon | apply ih | split
      | (simp only [↓State.canon_mk_iff]; apply State.canon_parts) | (simp only [↓State.canon_mk_iff]; refine ⟨?_, ?_⟩) | dsimp only
      | apply State.Canon.hbm | apply State.Canon.scanout
theorem State.finishSave_canon (s : State) (ctx : Nat) (h1 : s.Canon) : (State.finishSave s ctx).1.Canon := by
  unfold State.finishSave
  extract_lets n save r asked t s'
  have hr : r.1.Canon := State.writeImage_canon _ _ _ _ _ _ h1
  clear_value r
  have hs : s'.Canon := State.discardCtx_canon _ _ _ hr
  clear_value s'
  with_reducible repeat' first | assumption | apply State.sendEvent_canon | split
theorem execSaveCompletion_canon (ctx : Nat) (s : State) (h1 : s.Canon) : (CanonOut (execSaveCompletion ctx s)) := by
  unfold execSaveCompletion
  with_reducible repeat' first
    | assumption | apply State.finishSave_canon | apply State.saveGroups_canon | apply happen_canon | apply State.finishPending_canon
    | apply State.updCtx_canon | apply canonOut_next | split | (simp only [↓State.canon_mk_iff]; apply State.canon_parts) | dsimp only
theorem execRestoreCompletion_canon (ctx : Nat) (s : State) (h1 : s.Canon) : (CanonOut (execRestoreCompletion ctx s)) := by
  unfold execRestoreCompletion
  with_reducible repeat' first
    | assumption | apply happen_canon | apply State.finishPending_canon | apply State.updCtx_canon | apply canonOut_next | split
theorem execWatchdogFire_canon (ctx : Nat) (s : State) (h1 : s.Canon) : (CanonOut (execWatchdogFire ctx s)) := by
  unfold execWatchdogFire
  with_reducible repeat' first
    | assumption | apply State.report_canon | apply State.updCtx_canon | apply State.requestStop_canon | apply happen_canon
    | apply State.sendEvent_canon | apply canonOut_next | split
theorem State.readSet_canon (s : State) (c : Cmd) (h1 : s.Canon) : (State.readSet s c).1.Canon := by
  unfold State.readSet
  with_reducible repeat' first
    | assumption | apply State.rawRead_canon | split | (simp only [↓State.canon_mk_iff]; refine ⟨?_, ?_⟩) | dsimp only
    | apply State.Canon.hbm | apply State.Canon.scanout
theorem execViewSetBind_canon (s : State) (h1 : s.Canon) : (CanonOut (execViewSetBind s)) := by
  unfold execViewSetBind
  repeat' first
    | with_reducible assumption | with_reducible apply State.command_canon | with_reducible apply State.readSet_canon
    | with_reducible apply State.countError_canon | with_reducible apply State.finishRecord_canon | split | intro _
    | (simp only [↓State.canon_mk_iff]; with_reducible apply State.canon_parts) | (simp only [↓State.canon_mk_iff]; refine ⟨?_, ?_⟩)
    | with_reducible apply State.Canon.hbm | with_reducible apply State.Canon.scanout
theorem execViewSetUnbind_canon (s : State) (h1 : s.Canon) : (CanonOut (execViewSetUnbind s)) := by
  unfold execViewSetUnbind
  with_reducible repeat' first
    | assumption | apply State.command_canon | apply State.finishRecord_canon | apply State.releaseLeaving_canon
    | apply State.unbindView_canon | apply State.updView_canon | split | intro _
theorem execViewSetStatus_canon (s : State) (h1 : s.Canon) : (CanonOut (execViewSetStatus s)) := by
  unfold execViewSetStatus
  with_reducible repeat' first
    | assumption | apply State.command_canon | apply State.rawWrite_canon | apply State.finishRecord_canon | apply State.updView_canon
    | split | intro _
theorem State.collRead_canon (b0 : Nat) (b1 : State) (b2 : Nat) (b3 : Nat) (b4 : Nat) (b5 : Nat) (b6 : List Byte) (h1 : b1.Canon) :
    (State.collRead b0 b1 b2 b3 b4 b5 b6).1.Canon := by
  induction b0 generalizing b1 b2 b3 b4 b5 b6 with
  | zero =>
    unfold State.collRead
    with_reducible repeat' first | assumption
  | succ k ih =>
    unfold State.collRead
    with_reducible repeat' first
      | assumption | apply State.engineXlat_canon | apply State.readPage_canon | apply ih | split
      | (simp only [↓State.canon_mk_iff]; refine ⟨?_, ?_⟩) | dsimp only | apply State.Canon.hbm | apply State.Canon.scanout
theorem Lane.collective_canon (v : Lane) (x : Fields) (s : State) (h1 : s.Canon) : (Lane.collective v x s).Canon := by
  unfold Lane.collective
  with_reducible repeat' first
    | assumption | apply State.clearBuf_canon | apply State.collRead_canon | apply State.takeNumber_canon | apply State.newOp_canon
    | apply State.pendDsts_canon | apply Lane.halted_canon | apply Act.canon_done | apply Act.canon_trapIn | split | dsimp only
theorem execColl_canon (x : Fields) (s : State) (h1 : s.Canon) : (CanonOut (execColl x s)) := by
  unfold execColl
  with_reducible repeat' first
    | assumption | apply issue_canon | apply specOf_canon | apply Lane.collective_canon | intro _
    | (simp only [↓State.canon_mk_iff]; refine ⟨?_, ?_⟩) | dsimp only | apply State.Canon.hbm | apply State.Canon.scanout
    | apply Spec.Canon.lane | apply Spec.Canon.spoil | apply Spec.Canon.after | apply Spec.Canon.mk
theorem execCollective_canon (s : State) (h1 : s.Canon) : (CanonOut (execCollective s)) := by
  unfold execCollective
  with_reducible repeat' first | assumption | apply State.command_canon | apply State.newOp_canon | intro _
theorem State.collValue_canon (s : State) (die : Nat) (ctx : Nat) (c : Coll) (others : List (List Byte)) (p : Nat) (n : Nat) (peer :
    List Byte) (h1 : s.Canon) : (State.collValue s die ctx c others p n peer).1.Canon := by
  unfold State.collValue
  with_reducible repeat' first
    | assumption | apply State.collRead_canon | split | (simp only [↓State.canon_mk_iff]; refine ⟨?_, ?_⟩) | dsimp only
    | apply State.Canon.hbm | apply State.Canon.scanout
theorem State.collTarget_canon (b0 : Nat) (b1 : State) (b2 : Nat) (b3 : Nat) (b4 : Nat) (b5 : Nat) (h1 : b1.Canon) : (State.collTarget
    b0 b1 b2 b3 b4 b5).1.Canon := by
  induction b0 generalizing b1 b2 b3 b4 b5 with
  | zero =>
    unfold State.collTarget
    with_reducible repeat' first | assumption
  | succ k ih =>
    unfold State.collTarget
    with_reducible repeat' first
      | assumption | apply State.engineXlat_canon | apply ih | split | (simp only [↓State.canon_mk_iff]; refine ⟨?_, ?_⟩) | dsimp only
      | apply State.Canon.hbm | apply State.Canon.scanout
theorem State.collWrite_canon (s : State) (w : Asker) (b2 : List (Xlat × Nat)) (b3 : List Byte) (h1 : s.Canon) : (State.collWrite s w b2
    b3).Canon := by
  induction b2 generalizing s b3 with
  | nil =>
    unfold State.collWrite
    with_reducible repeat' first | assumption
  | cons x xs ih =>
    unfold State.collWrite
    with_reducible repeat' first
      | assumption | apply State.writePage_canon | apply ih | split | (simp only [↓State.canon_mk_iff]; apply State.canon_parts)
theorem CollRun.chunk_canon (r : CollRun) (die : Nat) (ctx : Nat) (c : Coll) (others : List (List Byte)) (p : Nat × Nat) (h1 :
    r.s.Canon) : (CollRun.chunk r die ctx c others p).s.Canon := by
  unfold CollRun.chunk
  with_reducible repeat' first
    | assumption | apply State.collValue_canon | apply State.collTarget_canon | apply State.collWrite_canon | split
    | (simp only [↓State.canon_mk_iff]; refine ⟨?_, ?_⟩) | dsimp only | apply State.Canon.hbm | apply State.Canon.scanout
theorem State.collRecord_canon (s : State) (o : AOp) (c : CollOp) (fails : List (Nat × ChunkFail)) (h1 : s.Canon) : (State.collRecord s
    o c fails).Canon := by
  unfold State.collRecord
  with_reducible repeat' first | assumption | apply State.report_canon | split
theorem State.collEnd_canon (s : State) (op : Nat) (o : AOp) (c : CollOp) (code : Nat) (first : Nat) (nfail : Nat) (h1 : s.Canon) :
    (State.collEnd s op o c code first nfail).Canon := by
  unfold State.collEnd
  with_reducible repeat' first
    | assumption | apply State.finishRecord_canon | apply State.endOp_canon | apply State.statusField_canon | apply State.complete_canon
    | split
theorem State.runColl_canon (s : State) (op : Nat) (o : AOp) (k : CollOp) (c : Coll) (list : List Byte) (others : List (List Byte))
    (peer : List Byte) (h1 : s.Canon) : (State.runColl s op o k c list others peer).1.Canon := by
  unfold State.runColl
  with_reducible repeat' first
    | assumption | apply State.collEnd_canon | apply CollRun.chunk_canon | apply State.collRecord_canon | apply canon_foldl_coll | split
    | intro _ | (simp only [↓State.canon_mk_iff]; refine ⟨?_, ?_⟩) | dsimp only | apply State.Canon.hbm | apply State.Canon.scanout
theorem State.failColl_canon (s : State) (op : Nat) (o : AOp) (k : CollOp) (f : ChunkFail) (h1 : s.Canon) : (State.failColl s op o k
    f).Canon := by
  unfold State.failColl
  with_reducible repeat' first
    | assumption | apply State.collRecord_canon | apply State.collEnd_canon | split
    | (simp only [↓State.canon_mk_iff]; apply State.canon_parts)
theorem execCollectiveCompletion_canon (op : Nat) (peerInputs : List (List Byte)) (s : State) (h1 : s.Canon) : (CanonOut
    (execCollectiveCompletion op peerInputs s)) := by
  unfold execCollectiveCompletion
  with_reducible repeat' first
    | assumption | apply happen_canon | apply State.failColl_canon | apply State.collRead_canon | apply State.runColl_canon
    | apply canonOut_next | split | dsimp only
theorem State.enrol_canon (s : State) (gid : Nat) (g : Group) (h1 : s.Canon) : (State.enrol s gid g).Canon := h1
theorem State.placeNew_canon (s : State) (key : Nat) (l : Launch) (n : Nat) (m : Nat) (p : Spot) (h1 : s.Canon) : (State.placeNew s key
    l n m p).Canon := by
  unfold State.placeNew
  with_reducible repeat' first
    | assumption | apply State.enrol_canon | apply State.setThread_canon | apply canon_foldl | intro _
    | (simp only [↓State.canon_mk_iff]; apply State.canon_parts)
theorem State.askAgain_canon (s : State) (gid : Nat) (ctx : Nat) (h1 : s.Canon) : (State.askAgain s gid ctx).Canon := by
  unfold State.askAgain
  with_reducible repeat' first | assumption | apply State.askPages_canon | apply canon_foldl | split | intro _
theorem State.wakeRestored_canon (s : State) (key : Nat) (h1 : s.Canon) : (State.wakeRestored s key).Canon := by
  unfold State.wakeRestored
  with_reducible repeat' first | assumption | apply State.reviewBarrier_canon | apply State.resumeKept_canon | split
theorem State.placeSaved_canon (s : State) (v : SavedGroup) (p : Spot) (h1 : s.Canon) : (State.placeSaved s v p).Canon := by
  unfold State.placeSaved
  with_reducible repeat' first
    | assumption | apply State.setThread_canon | apply State.enrol_canon | apply State.wakeRestored_canon | apply State.notePush_canon
    | apply State.askAgain_canon | apply canon_foldl | split | intro _ | (simp only [↓State.canon_mk_iff]; apply State.canon_parts)
theorem State.endUnplaced_canon (s : State) (key : Nat) (l : Launch) (h1 : s.Canon) : (State.endUnplaced s key l).Canon := by
  unfold State.endUnplaced
  with_reducible repeat' first
    | assumption | apply State.finishGang_canon | apply canon_foldl | intro _ | (simp only [↓State.canon_mk_iff]; apply State.canon_parts)
theorem State.tryGang_canon (s : State) (key : Nat) (h1 : s.Canon) : (State.tryGang s key).Canon := by
  unfold State.tryGang
  with_reducible repeat' first
    | assumption | apply State.placeNew_canon | apply State.placeSaved_canon | apply State.endUnplaced_canon | apply State.updCtx_canon | apply canon_foldl | split
    | intro _ | (simp only [↓State.canon_mk_iff]; apply State.canon_parts) | (simp only [↓State.canon_mk_iff]; refine ⟨?_, ?_⟩)
    | dsimp only | apply State.Canon.hbm | apply State.Canon.scanout
theorem execGroupCompletion_canon (group : Nat) (s : State) (h1 : s.Canon) : (CanonOut (execGroupCompletion group s)) := by
  unfold execGroupCompletion
  with_reducible repeat' first
    | assumption | apply State.dropGroup_canon | apply State.drainAll_canon | apply happen_canon | apply State.finishGang_canon
    | apply State.progress_canon | apply canonOut_next | split
theorem execPlacementPass_canon (s : State) (h1 : s.Canon) : (CanonOut (execPlacementPass s)) := by
  unfold execPlacementPass
  with_reducible repeat' first
    | assumption | apply canonOut_next | split | apply happen_canon | apply State.tryGang_canon | apply canon_foldl
    | (simp only [↓State.canon_mk_iff]; apply State.canon_parts)
theorem State.moveStage_canon (s : State) (ctx : Nat) (slot : Nat) (p : Pipe) (m : Nat × Nat) (h1 : s.Canon) : (State.moveStage s ctx
    slot p m).Canon := by
  unfold State.moveStage
  repeat' first
    | with_reducible assumption | with_reducible apply State.updCtx_canon | with_reducible apply State.releaseLeaving_canon
    | with_reducible apply State.updGroup_canon | with_reducible apply State.stopGang_canon | split
    | (simp only [↓State.canon_mk_iff]; refine ⟨?_, ?_⟩) | with_reducible apply State.Canon.hbm | with_reducible apply State.Canon.scanout
theorem State.decideMove_canon (s : State) (ctx : Nat) (slot : Nat) (p : Pipe) (h1 : s.Canon) : (State.decideMove s ctx slot p).1.Canon
    := by
  unfold State.decideMove
  with_reducible repeat' first
    | assumption | apply State.scanLog_canon | apply State.consume_canon | apply State.diverge_canon | apply State.logChoice_canon | split
    | (simp only [↓State.canon_mk_iff]; refine ⟨?_, ?_⟩) | dsimp only | apply State.Canon.hbm | apply State.Canon.scanout
theorem State.clearWaited_canon (s : State) (ctx : Nat) (slot : Nat) (h1 : s.Canon) : (State.clearWaited s ctx slot).Canon := h1
theorem execBalancePeriod_canon (ctx : Nat) (slot : Nat) (s : State) (h1 : s.Canon) : (CanonOut (execBalancePeriod ctx slot s)) := by
  unfold execBalancePeriod
  with_reducible repeat' first
    | assumption | apply State.decideMove_canon | apply State.moveStage_canon | apply happen_canon | apply State.updCtx_canon
    | apply State.clearWaited_canon | apply canonOut_next | split
theorem State.clearCores_canon (s : State) (ctx : Nat) (cores : List Nat) (deadline : Nat) (h1 : s.Canon) : (State.clearCores s ctx
    cores deadline).Canon := by
  unfold State.clearCores
  with_reducible repeat' first | assumption | apply State.stopGangBy_canon | apply canon_foldl | intro _
theorem execReservationStopRequest_canon (ctx : Nat) (slot : Nat) (s : State) (h1 : s.Canon) : (CanonOut (execReservationStopRequest ctx
    slot s)) := by
  unfold execReservationStopRequest
  with_reducible repeat' first
    | assumption | apply happen_canon | apply State.clearCores_canon | apply State.updView_canon | apply canonOut_next | split
theorem State.openWindow_canon (s : State) (ctx : Nat) (slot : Nat) (v : ViewSet) (h1 : s.Canon) : (State.openWindow s ctx slot v).Canon
    := by
  unfold State.openWindow
  with_reducible repeat' first | assumption | apply State.clearCores_canon | apply State.updView_canon
theorem execScanoutWindowStart_canon (ctx : Nat) (slot : Nat) (s : State) (h1 : s.Canon) : (CanonOut (execScanoutWindowStart ctx slot
    s)) := by
  unfold execScanoutWindowStart
  with_reducible repeat' first | assumption | apply happen_canon | apply State.openWindow_canon | apply canonOut_next | split
theorem execScanoutWindowEnd_canon (ctx : Nat) (slot : Nat) (s : State) (h1 : s.Canon) : (CanonOut (execScanoutWindowEnd ctx slot s)) :=
    by
  unfold execScanoutWindowEnd
  with_reducible repeat' first
    | assumption | apply State.updView_canon | apply happen_canon | apply State.openWindow_canon | apply canonOut_next | split
theorem State.reportErrors_canon (s : State) (h1 : s.Canon) : (State.reportErrors s).Canon := by
  unfold State.reportErrors
  with_reducible repeat' first
    | assumption | apply State.report_canon | apply canon_foldl | intro _ | (simp only [↓State.canon_mk_iff]; apply State.canon_parts)
theorem execUeReportPeriod_canon (s : State) (h1 : s.Canon) : (CanonOut (execUeReportPeriod s)) := by
  unfold execUeReportPeriod
  with_reducible repeat' first | assumption | apply happen_canon | apply State.reportErrors_canon | apply canonOut_next | split
theorem execFaultRecordWrite_canon (tenant : Nat) (s : State) (h1 : s.Canon) : (CanonOut (execFaultRecordWrite tenant s)) := by
  unfold execFaultRecordWrite
  with_reducible repeat' first | assumption | apply happen_canon | apply State.writeHeld_canon | apply canonOut_next | split | dsimp only
theorem State.sendFaultFrames_canon (s : State) (h1 : s.Canon) : (State.sendFaultFrames s).Canon := by
  unfold State.sendFaultFrames
  with_reducible repeat' first
    | assumption | apply State.sendEvent_canon | apply State.setTenant_canon | apply canon_foldl | intro _ | dsimp only
theorem execFaultQueueFramePeriod_canon (s : State) (h1 : s.Canon) : (CanonOut (execFaultQueueFramePeriod s)) := by
  unfold execFaultQueueFramePeriod
  with_reducible repeat' first | assumption | apply happen_canon | apply State.sendFaultFrames_canon | apply canonOut_next | split
theorem execFaultRidxNotice_canon (tenant : Nat) (s : State) (h1 : s.Canon) : (CanonOut (execFaultRidxNotice tenant s)) := by
  unfold execFaultRidxNotice
  with_reducible repeat' first
    | assumption | apply State.rawRead_canon | apply happen_canon | apply State.setTenant_canon | apply canonOut_next | split | dsimp only
theorem State.dropKept_canon (s : State) (key : Nat) (th : Thread) (h1 : s.Canon) : (State.dropKept s key th).Canon := by
  unfold State.dropKept
  with_reducible repeat' first
    | assumption | apply State.unpendDst_canon | apply State.endOp_canon | apply State.updThread_canon | apply canon_foldl | split
    | intro _
theorem State.exitParked_canon (s : State) (key : Nat) (th : Thread) (h1 : s.Canon) : (State.exitParked s key th).Canon := by
  unfold State.exitParked
  repeat' first
    | with_reducible assumption | with_reducible apply State.stopThresher_canon | with_reducible apply State.dropKept_canon
    | with_reducible apply State.freeThread_canon | with_reducible apply State.setThread_canon | split
    | (simp only [↓State.canon_mk_iff]; refine ⟨?_, ?_⟩) | with_reducible apply State.Canon.hbm | with_reducible apply State.Canon.scanout
theorem State.resumeThread_canon (s : State) (type : Nat) (action : Nat) (key : Nat) (th : Thread) (h1 : s.Canon) : (State.resumeThread
    s type action key th).Canon := by
  unfold State.resumeThread
  repeat' first
    | with_reducible assumption | with_reducible apply State.exitParked_canon | with_reducible apply State.setThread_canon
    | with_reducible apply State.resumeKept_canon | split | (simp only [↓State.canon_mk_iff]; refine ⟨?_, ?_⟩)
    | with_reducible apply State.Canon.hbm | with_reducible apply State.Canon.scanout
theorem State.resumeSaved_canon (s : State) (tenant : Nat) (type : Nat) (action : Nat) (seq : Nat) (h1 : s.Canon) : (State.resumeSaved s
    tenant type action seq).Canon := h1
theorem State.readAction_canon (s : State) (q : FaultQ) (seq : Nat) (h1 : s.Canon) : (State.readAction s q seq).1.Canon := by
  unfold State.readAction
  with_reducible repeat' first | assumption | apply State.rawRead_canon | split
theorem State.resumeRecord_canon (s : State) (tenant : Nat) (f : FRec) (h1 : s.Canon) : (State.resumeRecord s tenant f).Canon := by
  unfold State.resumeRecord
  with_reducible repeat' first
    | assumption | apply State.readAction_canon | apply State.resumeSaved_canon | apply State.resumeThread_canon
    | apply State.setTenant_canon | apply canon_foldl | intro _
theorem State.takeRsm_canon (s : State) (tenant n : Nat) (h1 : s.Canon) : (State.takeRsm s tenant n).Canon := by
  unfold State.takeRsm
  with_reducible repeat' first | assumption | apply State.setTenant_canon | dsimp only
theorem execRsmNotice_canon (tenant : Nat) (s : State) (h1 : s.Canon) : (CanonOut (execRsmNotice tenant s)) := by
  unfold execRsmNotice
  with_reducible repeat' first
    | assumption | apply State.rawRead_canon | apply State.takeRsm_canon | apply happen_canon | apply State.resumeRecord_canon
    | apply canonOut_next | split | (simp only [↓State.canon_mk_iff]; apply State.canon_parts) | dsimp only
theorem State.markWord_canon (s : State) (core : Nat) (a : Nat) (double : Bool) (b4 : PoolWord) (h1 : s.Canon) : (State.markWord s core
    a double b4).Canon := by
  unfold State.markWord
  with_reducible repeat' first
    | assumption | apply State.updThread_canon | apply State.updGroup_canon | split
    | (simp only [↓State.canon_mk_iff]; apply State.canon_parts)
theorem State.renewWord_canon (s : State) (core : Nat) (a : Nat) (b3 : PoolWord) (h1 : s.Canon) : (State.renewWord s core a b3).Canon :=
    by
  unfold State.renewWord
  with_reducible repeat' first
    | assumption | apply State.updThread_canon | apply State.updGroup_canon | split
    | (simp only [↓State.canon_mk_iff]; apply State.canon_parts)
theorem State.strikePool_canon (s : State) (core : Nat) (a : Nat) (found : ScrubFind) (h1 : s.Canon) : (State.strikePool s core a
    found).Canon := by
  unfold State.strikePool
  repeat' first
    | with_reducible assumption | with_reducible apply State.markWord_canon | with_reducible apply State.renewWord_canon | split
    | (simp only [↓State.canon_mk_iff]; refine ⟨?_, ?_⟩) | with_reducible apply State.Canon.hbm | with_reducible apply State.Canon.scanout
theorem State.patrolTo_canon (s : State) (h1 : s.Canon) : (State.patrolTo s).Canon := by
  unfold State.patrolTo
  with_reducible repeat' first | assumption | split | (simp only [↓State.canon_mk_iff]; apply State.canon_parts)
theorem execPatrolScrub_canon (core : Nat) (word : Nat) (find : ScrubFind) (s : State) (h1 : s.Canon) : (CanonOut (execPatrolScrub core
    word find s)) := by
  unfold execPatrolScrub
  with_reducible repeat' first
    | assumption | apply State.patrolTo_canon | apply State.strikePool_canon | apply happen_canon | apply State.countCorrected_canon
    | apply State.renewWord_canon | apply State.countError_canon | apply canonOut_next | split
    | (simp only [↓State.canon_mk_iff]; apply State.canon_parts) | dsimp only
theorem State.stopBridge_canon (s : State) (h1 : s.Canon) : (State.stopBridge s).Canon := by
  unfold State.stopBridge
  with_reducible repeat' first
    | assumption | apply State.sendEvent_canon | apply canon_foldl | intro _ | (simp only [↓State.canon_mk_iff]; apply State.canon_parts)
theorem execBridgeFlitRetry_canon (passes : Bool) (s : State) (h1 : s.Canon) : (CanonOut (execBridgeFlitRetry passes s)) := by
  unfold execBridgeFlitRetry
  with_reducible repeat' first
    | assumption | apply happen_canon | apply State.stopBridge_canon | apply canonOut_next | split
    | (simp only [↓State.canon_mk_iff]; apply State.canon_parts)
theorem execReplayDivergence_canon (ctx : Nat) (s : State) (h1 : s.Canon) : (CanonOut (execReplayDivergence ctx s)) := by
  unfold execReplayDivergence
  with_reducible repeat' first
    | assumption | apply State.scanLog_canon | apply happen_canon | apply State.diverge_canon | apply canonOut_next | split | dsimp only

end Sys2Proof.Machine
end

