-- ==== Sys2Proof/Laws/CanonArith.lean ====
section
/-!
SUPPORT. What the arithmetic, vote, host, matrix, pair and power families keep:
HBM and scanout memory in their canonical form.
-/
namespace Sys2Proof.Machine
set_option Elab.async false
set_option linter.unusedSimpArgs false

theorem Lane.f32_canon (v : Lane) (x : Fields) (s : State) (r : Nat × Nat) (h1 : s.Canon) : (Lane.f32 v x s r).Canon := by
  unfold Lane.f32
  with_reducible repeat' first | assumption | apply Lane.floatDone_canon | apply Lane.wr32_canon | intro _
theorem execFadd_canon (x : Fields) (s : State) (h1 : s.Canon) : (CanonOut (execFadd x s)) := by
  unfold execFadd
  with_reducible repeat' first | assumption | apply issue_canon | apply specOf_canon | apply Lane.f32_canon | intro _
theorem execFsub_canon (x : Fields) (s : State) (h1 : s.Canon) : (CanonOut (execFsub x s)) := by
  unfold execFsub
  with_reducible repeat' first | assumption | apply issue_canon | apply specOf_canon | apply Lane.f32_canon | intro _
theorem execFmul_canon (x : Fields) (s : State) (h1 : s.Canon) : (CanonOut (execFmul x s)) := by
  unfold execFmul
  with_reducible repeat' first | assumption | apply issue_canon | apply specOf_canon | apply Lane.f32_canon | intro _
theorem execFma_canon (x : Fields) (s : State) (h1 : s.Canon) : (CanonOut (execFma x s)) := by
  unfold execFma
  with_reducible repeat' first | assumption | apply issue_canon | apply specOf_canon | apply Lane.f32_canon | intro _
theorem execFmin_canon (x : Fields) (s : State) (h1 : s.Canon) : (CanonOut (execFmin x s)) := by
  unfold execFmin
  with_reducible repeat' first | assumption | apply issue_canon | apply specOf_canon | apply Lane.f32_canon | intro _
theorem execFmax_canon (x : Fields) (s : State) (h1 : s.Canon) : (CanonOut (execFmax x s)) := by
  unfold execFmax
  with_reducible repeat' first | assumption | apply issue_canon | apply specOf_canon | apply Lane.f32_canon | intro _
theorem execFminx_canon (x : Fields) (s : State) (h1 : s.Canon) : (CanonOut (execFminx x s)) := by
  unfold execFminx
  with_reducible repeat' first | assumption | apply issue_canon | apply specOf_canon | apply Lane.f32_canon | intro _
theorem execFmaxx_canon (x : Fields) (s : State) (h1 : s.Canon) : (CanonOut (execFmaxx x s)) := by
  unfold execFmaxx
  with_reducible repeat' first | assumption | apply issue_canon | apply specOf_canon | apply Lane.f32_canon | intro _
theorem execFabs_canon (x : Fields) (s : State) (h1 : s.Canon) : (CanonOut (execFabs x s)) := by
  unfold execFabs
  with_reducible repeat' first
    | assumption | apply issue_canon | apply specOf_canon | apply Lane.wr32_canon | apply Act.canon_done | intro _
theorem execFneg_canon (x : Fields) (s : State) (h1 : s.Canon) : (CanonOut (execFneg x s)) := by
  unfold execFneg
  with_reducible repeat' first
    | assumption | apply issue_canon | apply specOf_canon | apply Lane.wr32_canon | apply Act.canon_done | intro _
theorem execFclass_canon (x : Fields) (s : State) (h1 : s.Canon) : (CanonOut (execFclass x s)) := by
  unfold execFclass
  with_reducible repeat' first
    | assumption | apply issue_canon | apply specOf_canon | apply Lane.wr32_canon | apply Act.canon_done | intro _
theorem execFrnd_canon (x : Fields) (s : State) (h1 : s.Canon) : (CanonOut (execFrnd x s)) := by
  unfold execFrnd
  with_reducible repeat' first | assumption | apply issue_canon | apply specOf_canon | apply Lane.f32_canon | intro _
theorem execFrcp_canon (x : Fields) (s : State) (h1 : s.Canon) : (CanonOut (execFrcp x s)) := by
  unfold execFrcp
  with_reducible repeat' first | assumption | apply issue_canon | apply specOf_canon | apply Lane.f32_canon | intro _
theorem execFsqrt_canon (x : Fields) (s : State) (h1 : s.Canon) : (CanonOut (execFsqrt x s)) := by
  unfold execFsqrt
  with_reducible repeat' first | assumption | apply issue_canon | apply specOf_canon | apply Lane.f32_canon | intro _
theorem execFrsq_canon (x : Fields) (s : State) (h1 : s.Canon) : (CanonOut (execFrsq x s)) := by
  unfold execFrsq
  with_reducible repeat' first | assumption | apply issue_canon | apply specOf_canon | apply Lane.f32_canon | intro _
theorem execFexp2_canon (x : Fields) (s : State) (h1 : s.Canon) : (CanonOut (execFexp2 x s)) := by
  unfold execFexp2
  with_reducible repeat' first | assumption | apply issue_canon | apply specOf_canon | apply Lane.f32_canon | intro _
theorem execFlog2_canon (x : Fields) (s : State) (h1 : s.Canon) : (CanonOut (execFlog2 x s)) := by
  unfold execFlog2
  with_reducible repeat' first | assumption | apply issue_canon | apply specOf_canon | apply Lane.f32_canon | intro _
theorem execFsin_canon (x : Fields) (s : State) (h1 : s.Canon) : (CanonOut (execFsin x s)) := by
  unfold execFsin
  with_reducible repeat' first | assumption | apply issue_canon | apply specOf_canon | apply Lane.f32_canon | intro _
theorem execFcos_canon (x : Fields) (s : State) (h1 : s.Canon) : (CanonOut (execFcos x s)) := by
  unfold execFcos
  with_reducible repeat' first | assumption | apply issue_canon | apply specOf_canon | apply Lane.f32_canon | intro _
theorem execFcmp_canon (x : Fields) (s : State) (h1 : s.Canon) : (CanonOut (execFcmp x s)) := by
  unfold execFcmp
  with_reducible repeat' first
    | assumption | apply issue_canon | apply specOf_canon | apply Lane.floatDone_canon | apply Lane.wrPred_canon | intro _
theorem Lane.cvtResult_canon (v : Lane) (x : Fields) (s : State) (r : Nat × Nat) (h1 : s.Canon) : (Lane.cvtResult v x s r).Canon := by
  unfold Lane.cvtResult
  with_reducible repeat' first | assumption | apply Lane.floatDone_canon | apply Lane.wr_canon | apply Lane.wr32_canon | split | intro _
theorem execCvt_canon (x : Fields) (s : State) (h1 : s.Canon) : (CanonOut (execCvt x s)) := by
  unfold execCvt
  with_reducible repeat' first | assumption | apply issue_canon | apply specOf_canon | apply Lane.cvtResult_canon | intro _
theorem execCvtBs_canon (x : Fields) (s : State) (h1 : s.Canon) : (CanonOut (execCvtBs x s)) := by
  unfold execCvtBs
  with_reducible repeat' first | assumption | apply issue_canon | apply specOf_canon | apply Lane.cvtResult_canon | intro _
theorem execHadd2_canon (x : Fields) (s : State) (h1 : s.Canon) : (CanonOut (execHadd2 x s)) := by
  unfold execHadd2
  with_reducible repeat' first | assumption | apply issue_canon | apply specOf_canon | apply Lane.f32_canon | intro _
theorem execHsub2_canon (x : Fields) (s : State) (h1 : s.Canon) : (CanonOut (execHsub2 x s)) := by
  unfold execHsub2
  with_reducible repeat' first | assumption | apply issue_canon | apply specOf_canon | apply Lane.f32_canon | intro _
theorem execHmul2_canon (x : Fields) (s : State) (h1 : s.Canon) : (CanonOut (execHmul2 x s)) := by
  unfold execHmul2
  with_reducible repeat' first | assumption | apply issue_canon | apply specOf_canon | apply Lane.f32_canon | intro _
theorem execHfma2_canon (x : Fields) (s : State) (h1 : s.Canon) : (CanonOut (execHfma2 x s)) := by
  unfold execHfma2
  with_reducible repeat' first | assumption | apply issue_canon | apply specOf_canon | apply Lane.f32_canon | intro _
theorem Lane.dot_canon (v : Lane) (x : Fields) (w : Nat) (n : Nat) (ta : Fmt) (tb : Fmt) (s : State) (h1 : s.Canon) : (Lane.dot v x w n
    ta tb s).Canon := by
  unfold Lane.dot
  with_reducible repeat' first | assumption | apply Lane.f32_canon | apply Lane.wr32_canon | apply Act.canon_done | split
theorem execDot4_canon (x : Fields) (s : State) (h1 : s.Canon) : (CanonOut (execDot4 x s)) := by
  unfold execDot4
  with_reducible repeat' first | assumption | apply issue_canon | apply specOf_canon | apply Lane.dot_canon | split | intro _
theorem execDot8_canon (x : Fields) (s : State) (h1 : s.Canon) : (CanonOut (execDot8 x s)) := by
  unfold execDot8
  with_reducible repeat' first | assumption | apply issue_canon | apply specOf_canon | apply Lane.dot_canon | intro _
theorem execDot2h_canon (x : Fields) (s : State) (h1 : s.Canon) : (CanonOut (execDot2h x s)) := by
  unfold execDot2h
  with_reducible repeat' first | assumption | apply issue_canon | apply specOf_canon | apply Lane.f32_canon | split | intro _
theorem execQsc_canon (x : Fields) (s : State) (h1 : s.Canon) : (CanonOut (execQsc x s)) := by
  unfold execQsc
  with_reducible repeat' first | assumption | apply issue_canon | apply specOf_canon | apply Lane.f32_canon | intro _
theorem execFkey_canon (x : Fields) (s : State) (h1 : s.Canon) : (CanonOut (execFkey x s)) := by
  unfold execFkey
  with_reducible repeat' first
    | assumption | apply issue_canon | apply specOf_canon | apply Lane.wr_canon | apply Act.canon_done | intro _
theorem State.countTithe_canon (s : State) (c : Nat) (samples : Nat) (excur : Nat) (forced : Nat) (h1 : s.Canon) : (State.countTithe s c
    samples excur forced).Canon := h1
theorem Lane.countForced_canon (v : Lane) (s : State) (n : Nat) (cheap : Bool) (h1 : s.Canon) : (Lane.countForced v s n cheap).Canon := by
  unfold Lane.countForced
  with_reducible repeat' first | assumption | apply State.countTithe_canon | split
theorem Lane.winnow_canon (v : Lane) (x : Fields) (thr : Nat) (s : State) (h1 : s.Canon) : (Lane.winnow v x thr s).Canon := by
  unfold Lane.winnow
  repeat' first
    | with_reducible assumption | exact True.intro | with_reducible apply Lane.plainRead_canon
    | with_reducible apply Lane.countForced_canon | with_reducible apply Lane.wrPred_canon | with_reducible apply Lane.wr32_canon
    | with_reducible apply Act.canon_done | split | intro _
theorem execWnw_canon (x : Fields) (s : State) (h1 : s.Canon) : (CanonOut (execWnw x s)) := by
  unfold execWnw
  with_reducible repeat' first
    | assumption | apply issue_canon | apply specOf_canon | apply Lane.winnow_canon | intro _
    | (simp only [↓State.canon_mk_iff]; refine ⟨?_, ?_⟩) | dsimp only | apply State.Canon.hbm | apply State.Canon.scanout
    | apply Spec.Canon.lane | apply Spec.Canon.spoil | apply Spec.Canon.after | apply Spec.Canon.mk
theorem execWnwCt_canon (x : Fields) (s : State) (h1 : s.Canon) : (CanonOut (execWnwCt x s)) := by
  unfold execWnwCt
  with_reducible repeat' first
    | assumption | apply issue_canon | apply specOf_canon | apply Lane.winnow_canon | intro _
    | (simp only [↓State.canon_mk_iff]; refine ⟨?_, ?_⟩) | dsimp only | apply State.Canon.hbm | apply State.Canon.scanout
    | apply Spec.Canon.lane | apply Spec.Canon.spoil | apply Spec.Canon.after | apply Spec.Canon.mk
theorem Lane.tithe_canon (v : Lane) (x : Fields) (s : State) (h1 : s.Canon) : (Lane.tithe v x s).Canon := by
  unfold Lane.tithe
  with_reducible repeat' first | assumption | apply Lane.wrPred_canon | apply Lane.countForced_canon | apply Act.canon_done
theorem execTitheS_canon (x : Fields) (s : State) (h1 : s.Canon) : (CanonOut (execTitheS x s)) := by
  unfold execTitheS
  with_reducible repeat' first | assumption | apply issue_canon | apply specOf_canon | apply Lane.tithe_canon | intro _
theorem execTitheC_canon (x : Fields) (s : State) (h1 : s.Canon) : (CanonOut (execTitheC x s)) := by
  unfold execTitheC
  with_reducible repeat' first
    | assumption | apply issue_canon | apply specOf_canon | apply State.updCtx_canon | apply State.countTithe_canon
    | apply Lane.countForced_canon | apply Act.canon_done | split | intro _
theorem execApxexp2_canon (x : Fields) (s : State) (h1 : s.Canon) : (CanonOut (execApxexp2 x s)) := by
  unfold execApxexp2
  with_reducible repeat' first
    | assumption | apply issue_canon | apply specOf_canon | apply Lane.f32_canon | apply Lane.countForced_canon | intro _
theorem execApxrcp_canon (x : Fields) (s : State) (h1 : s.Canon) : (CanonOut (execApxrcp x s)) := by
  unfold execApxrcp
  with_reducible repeat' first
    | assumption | apply issue_canon | apply specOf_canon | apply Lane.f32_canon | apply Lane.countForced_canon | intro _
theorem State.setVote_canon (s : State) (core : Nat) (v : TileVote) (h1 : s.Canon) : (State.setVote s core v).Canon := h1
theorem execPortGuardPeriod_canon (core : Nat) (beats : Nat) (s : State) (h1 : s.Canon) : (CanonOut (execPortGuardPeriod core beats s))
    := by
  unfold execPortGuardPeriod
  with_reducible repeat' first
    | assumption | apply happen_canon | apply State.setVote_canon | apply canonOut_next | split
    | (simp only [↓State.canon_mk_iff]; apply State.canon_parts)
theorem State.haltGroup_canon (s : State) (gid : Nat) (h1 : s.Canon) : (State.haltGroup s gid).Canon := by
  unfold State.haltGroup
  with_reducible repeat' first
    | assumption | apply State.dropThreads_canon | apply State.updGroup_canon | apply State.releaseSts_canon
    | (simp only [↓State.canon_mk_iff]; apply State.canon_parts)
theorem State.reportAbort_canon (s : State) (core : Nat) (gen : Nat) (lost : Nat) (g : Group) (h1 : s.Canon) : (State.reportAbort s core
    gen lost g).Canon := by
  unfold State.reportAbort
  with_reducible repeat' first | assumption | apply State.report_canon | apply State.sendEvent_canon | split
theorem State.abortGang_canon (s : State) (tiles : List Nat) (gen : Nat) (launch : Nat) (gang : Nat) (h1 : s.Canon) : (State.abortGang s
    tiles gen launch gang).Canon := by
  unfold State.abortGang
  with_reducible repeat' first
    | assumption | apply State.loseGroup_canon | apply State.haltGroup_canon | apply State.reportAbort_canon
    | apply State.finishGang_canon | apply canon_foldl | split | intro _ | (simp only [↓State.canon_mk_iff]; apply State.canon_parts)
theorem State.fenceTiles_canon (s : State) (tiles : List Nat) (h1 : s.Canon) : (State.fenceTiles s tiles).Canon := by
  unfold State.fenceTiles
  with_reducible repeat' first
    | assumption | apply State.invalidateCache_canon | apply State.setVote_canon | apply State.abortGang_canon | apply canon_foldl | split
    | intro _ | (simp only [↓State.canon_mk_iff]; apply State.canon_parts)
theorem execHeartbeatPeriod_canon (s : State) (h1 : s.Canon) : (CanonOut (execHeartbeatPeriod s)) := by
  unfold execHeartbeatPeriod
  with_reducible repeat' first
    | assumption | apply State.setVote_canon | apply State.fenceTiles_canon | apply State.sendFaultFrames_canon
    | apply State.reportErrors_canon | apply happen_canon | apply canonOut_next | apply canon_foldl | split | intro _ | (simp only [↓State.canon_mk_iff]; apply State.canon_parts)
theorem execSelfTestEnd_canon (core : Nat) (pass : Bool) (s : State) (h1 : s.Canon) : (CanonOut (execSelfTestEnd core pass s)) := by
  unfold execSelfTestEnd
  with_reducible repeat' first | assumption | apply happen_canon | apply State.setVote_canon | apply canonOut_next | split | dsimp only
theorem State.atPort_canon (s : State) (early : Bool) (act : State → Host.Outcome State Fault Refusal) (h1 : s.Canon) (h2 : (∀ a0,
    a0.Canon → (CanonOut (act a0)))) : (CanonOut (State.atPort s early act)) := by
  unfold State.atPort
  with_reducible repeat' first
    | assumption | apply happen_canon | apply h2 | apply canonOut_next | split
    | (simp only [↓State.canon_mk_iff]; apply State.canon_parts)
theorem State.dropFrame_canon (s : State) (h1 : s.Canon) : (State.dropFrame s).Canon := h1
theorem State.answer_canon (s : State) (kind : Byte) (payload : List Byte) (h1 : s.Canon) : (State.answer s kind payload).Canon := h1
theorem execFrameDropped_canon (s : State) (h1 : s.Canon) : (CanonOut (execFrameDropped s)) := by
  unfold execFrameDropped
  with_reducible repeat' first | assumption | apply State.atPort_canon | apply happen_canon | apply State.dropFrame_canon | intro _
theorem execDiscoveryRequest_canon (s : State) (h1 : s.Canon) : (CanonOut (execDiscoveryRequest s)) := by
  unfold execDiscoveryRequest
  with_reducible repeat' first
    | assumption | apply State.atPort_canon | apply happen_canon | apply State.answer_canon | apply canonOut_next | split | intro _
theorem execStatusRequest_canon (s : State) (h1 : s.Canon) : (CanonOut (execStatusRequest s)) := by
  unfold execStatusRequest
  with_reducible repeat' first
    | assumption | apply State.atPort_canon | apply happen_canon | apply State.dropFrame_canon | apply State.answer_canon
    | apply canonOut_next | split | intro _
theorem execAttestationRequest_canon (s : State) (h1 : s.Canon) : (CanonOut (execAttestationRequest s)) := by
  unfold execAttestationRequest
  with_reducible repeat' first
    | assumption | apply State.atPort_canon | apply happen_canon | apply State.dropFrame_canon | apply State.answer_canon
    | apply canonOut_next | split | intro _
theorem State.refuseRequest_canon (s : State) (h1 : s.Canon) : (State.refuseRequest s).Canon := h1
theorem State.manage_canon (s : State) (op : Nat) (len : Nat) (check : State → Nat) (act : State → State) (h1 : s.Canon) (h2 : (∀ a0,
    a0.Canon → (act a0).Canon)) : (CanonOut (State.manage s op len check act)) := by
  unfold State.manage
  with_reducible repeat' first
    | assumption | apply State.atPort_canon | apply happen_canon | apply State.refuseRequest_canon | apply State.answer_canon | apply h2
    | apply canonOut_next | split | intro _
theorem execClaim_canon (s : State) (h1 : s.Canon) : (CanonOut (execClaim s)) := by
  unfold execClaim
  with_reducible repeat' first
    | assumption | apply State.atPort_canon | apply happen_canon | apply State.refuseRequest_canon | apply State.answer_canon
    | apply canonOut_next | split | intro _ | (simp only [↓State.canon_mk_iff]; apply State.canon_parts)
theorem execManagementAuthFail_canon (s : State) (h1 : s.Canon) : (CanonOut (execManagementAuthFail s)) := by
  unfold execManagementAuthFail
  with_reducible repeat' first
    | assumption | apply State.atPort_canon | apply happen_canon | apply State.refuseRequest_canon | apply State.answer_canon
    | apply canonOut_next | split | intro _
theorem State.discardTenant_canon (s : State) (t : Nat) (h1 : s.Canon) : (State.discardTenant s t).Canon := by
  unfold State.discardTenant
  with_reducible repeat' first
    | assumption | apply State.forgetPages_canon | apply canon_foldl | intro _
    | (simp only [↓State.canon_mk_iff]; apply State.canon_parts)
theorem execWindowWrite_canon (s : State) (h1 : s.Canon) : (CanonOut (execWindowWrite s)) := by
  unfold execWindowWrite
  with_reducible repeat' first
    | assumption | apply State.manage_canon | apply State.discardTenant_canon | apply State.setTenant_canon | intro _
theorem execCommandQueueSetup_canon (s : State) (h1 : s.Canon) : (CanonOut (execCommandQueueSetup s)) := by
  unfold execCommandQueueSetup
  with_reducible repeat' first
    | assumption | apply State.manage_canon | apply State.rawWrite_canon | apply State.setTenant_canon | intro _
theorem execFaultQueueSetup_canon (s : State) (h1 : s.Canon) : (CanonOut (execFaultQueueSetup s)) := by
  unfold execFaultQueueSetup
  with_reducible repeat' first
    | assumption | apply State.manage_canon | apply State.rawWrite_canon | apply State.setTenant_canon | intro _
theorem execNodeRange_canon (s : State) (h1 : s.Canon) : (CanonOut (execNodeRange s)) := by
  unfold execNodeRange
  with_reducible repeat' first | assumption | apply State.manage_canon | apply State.setTenant_canon | intro _
theorem execContextRange_canon (s : State) (h1 : s.Canon) : (CanonOut (execContextRange s)) := by
  unfold execContextRange
  with_reducible repeat' first | assumption | apply State.manage_canon | apply State.setTenant_canon | intro _
theorem execDestinations_canon (s : State) (h1 : s.Canon) : (CanonOut (execDestinations s)) := by
  unfold execDestinations
  with_reducible repeat' first | assumption | apply State.manage_canon | apply State.setTenant_canon | intro _
theorem execModuleNumber_canon (s : State) (h1 : s.Canon) : (CanonOut (execModuleNumber s)) := by
  unfold execModuleNumber
  with_reducible repeat' first
    | assumption | apply State.manage_canon | intro _ | (simp only [↓State.canon_mk_iff]; apply State.canon_parts)
theorem execPeerRoute_canon (s : State) (h1 : s.Canon) : (CanonOut (execPeerRoute s)) := by
  unfold execPeerRoute
  with_reducible repeat' first
    | assumption | apply State.manage_canon | intro _ | (simp only [↓State.canon_mk_iff]; apply State.canon_parts)
theorem execPeerPortRetrain_canon (s : State) (h1 : s.Canon) : (CanonOut (execPeerPortRetrain s)) := by
  unfold execPeerPortRetrain
  with_reducible repeat' first
    | assumption | apply State.manage_canon | split | intro _ | (simp only [↓State.canon_mk_iff]; refine ⟨?_, ?_⟩) | dsimp only
    | apply State.Canon.hbm | apply State.Canon.scanout
theorem execClearCounters_canon (s : State) (h1 : s.Canon) : (CanonOut (execClearCounters s)) := by
  unfold execClearCounters
  with_reducible repeat' first
    | assumption | apply State.manage_canon | intro _ | (simp only [↓State.canon_mk_iff]; apply State.canon_parts)
theorem State.nak_canon (s : State) (r : RdmaReq) (h1 : s.Canon) : (State.nak s r).Canon := h1
theorem execRdmaWrite_canon (s : State) (h1 : s.Canon) : (CanonOut (execRdmaWrite s)) := by
  unfold execRdmaWrite
  with_reducible repeat' first
    | assumption | apply State.atPort_canon | apply happen_canon | apply State.nak_canon | apply State.rawWrite_canon | split | intro _
    | (simp only [↓State.canon_mk_iff]; apply State.canon_parts) | dsimp only
theorem execRdmaRead_canon (s : State) (h1 : s.Canon) : (CanonOut (execRdmaRead s)) := by
  unfold execRdmaRead
  with_reducible repeat' first
    | assumption | apply State.atPort_canon | apply happen_canon | apply State.nak_canon | apply State.rawRead_canon | split | intro _
    | (simp only [↓State.canon_mk_iff]; apply State.canon_parts) | dsimp only
theorem State.peerAtomic_canon (s : State) (r : PeerReq) (h1 : s.Canon) : (State.peerAtomic s r).Canon := by
  unfold State.peerAtomic
  with_reducible repeat' first
    | assumption | apply State.sense_canon | apply State.pass_canon | apply State.drainFor_canon | apply State.applyOne_canon | split
    | (simp only [↓State.canon_mk_iff]; refine ⟨?_, ?_⟩) | dsimp only | apply State.Canon.hbm | apply State.Canon.scanout
theorem execPeerRequest_canon (s : State) (h1 : s.Canon) : (CanonOut (execPeerRequest s)) := by
  unfold execPeerRequest
  with_reducible repeat' first
    | assumption | apply happen_canon | apply State.readPage_canon | apply State.writePage_canon | apply State.peerAtomic_canon
    | apply canonOut_next | split | (simp only [↓State.canon_mk_iff]; apply State.canon_parts) | dsimp only
theorem State.failOnPort_canon (s : State) (port : Nat) (op : Nat) (h1 : s.Canon) : (State.failOnPort s port op).Canon := by
  unfold State.failOnPort
  repeat' first
    | with_reducible assumption | with_reducible apply State.failPieces_canon | with_reducible apply State.failRead_canon | split
    | (simp only [↓State.canon_mk_iff]; with_reducible apply State.canon_parts) | (simp only [↓State.canon_mk_iff]; refine ⟨?_, ?_⟩)
    | with_reducible apply State.Canon.hbm | with_reducible apply State.Canon.scanout
theorem State.failWatch_canon (s : State) (port : Nat) (key : Nat) (th : Thread) (h1 : s.Canon) : (State.failWatch s port key th).Canon
    := by
  unfold State.failWatch
  repeat' first
    | with_reducible assumption | with_reducible apply State.parkFault_canon | split | (simp only [↓State.canon_mk_iff]; refine ⟨?_, ?_⟩)
    | with_reducible apply State.Canon.hbm | with_reducible apply State.Canon.scanout
theorem State.portDown_canon (s : State) (port : Nat) (h1 : s.Canon) : (State.portDown s port).Canon := by
  unfold State.portDown
  with_reducible repeat' first
    | assumption | apply State.failOnPort_canon | apply State.failWatch_canon | apply canon_foldl | intro _
    | (simp only [↓State.canon_mk_iff]; apply State.canon_parts)
theorem execPeerFlitReplay_canon (port : Nat) (passes : Bool) (s : State) (h1 : s.Canon) : (CanonOut (execPeerFlitReplay port passes s))
    := by
  unfold execPeerFlitReplay
  with_reducible repeat' first
    | assumption | apply happen_canon | apply State.portDown_canon | apply canonOut_next | split
    | (simp only [↓State.canon_mk_iff]; apply State.canon_parts)
theorem execPeerPortDown_canon (port : Nat) (s : State) (h1 : s.Canon) : (CanonOut (execPeerPortDown port s)) := by
  unfold execPeerPortDown
  with_reducible repeat' first | assumption | apply happen_canon | apply State.portDown_canon | apply canonOut_next | split
theorem Lane.dstInt_canon (v : Lane) (s : State) (x : Fields) (r : Int) (h1 : s.Canon) : (Lane.dstInt v s x r).Canon := by
  unfold Lane.dstInt
  with_reducible repeat' first | assumption | apply Lane.wr_canon | split
theorem intSpec_canon (i : Instr) (x : Fields) (f : Lane → Int) : (intSpec i x f).Canon := by
  unfold intSpec
  with_reducible repeat' first | assumption | apply specOf_canon | apply Lane.dstInt_canon | apply Act.canon_done | intro _
theorem execIadd_canon (x : Fields) (s : State) (h1 : s.Canon) : (CanonOut (execIadd x s)) := by
  unfold execIadd
  with_reducible repeat' first | assumption | apply issue_canon | apply intSpec_canon
theorem execIsub_canon (x : Fields) (s : State) (h1 : s.Canon) : (CanonOut (execIsub x s)) := by
  unfold execIsub
  with_reducible repeat' first | assumption | apply issue_canon | apply intSpec_canon
theorem execIaddc_canon (x : Fields) (s : State) (h1 : s.Canon) : (CanonOut (execIaddc x s)) := by
  unfold execIaddc
  with_reducible repeat' first
    | assumption | apply issue_canon | apply specOf_canon | apply Lane.wrPred_canon | apply Lane.dstInt_canon | apply Act.canon_done
    | intro _
theorem execIneg_canon (x : Fields) (s : State) (h1 : s.Canon) : (CanonOut (execIneg x s)) := by
  unfold execIneg
  with_reducible repeat' first | assumption | apply issue_canon | apply intSpec_canon
theorem execIabs_canon (x : Fields) (s : State) (h1 : s.Canon) : (CanonOut (execIabs x s)) := by
  unfold execIabs
  with_reducible repeat' first | assumption | apply issue_canon | apply intSpec_canon
theorem execImin_canon (x : Fields) (s : State) (h1 : s.Canon) : (CanonOut (execImin x s)) := by
  unfold execImin
  with_reducible repeat' first | assumption | apply issue_canon | apply intSpec_canon
theorem execImax_canon (x : Fields) (s : State) (h1 : s.Canon) : (CanonOut (execImax x s)) := by
  unfold execImax
  with_reducible repeat' first | assumption | apply issue_canon | apply intSpec_canon
theorem execImul_canon (x : Fields) (s : State) (h1 : s.Canon) : (CanonOut (execImul x s)) := by
  unfold execImul
  with_reducible repeat' first | assumption | apply issue_canon | apply intSpec_canon
theorem execImulh_canon (x : Fields) (s : State) (h1 : s.Canon) : (CanonOut (execImulh x s)) := by
  unfold execImulh
  with_reducible repeat' first | assumption | apply issue_canon | apply intSpec_canon
theorem execImad_canon (x : Fields) (s : State) (h1 : s.Canon) : (CanonOut (execImad x s)) := by
  unfold execImad
  with_reducible repeat' first | assumption | apply issue_canon | apply intSpec_canon
theorem execImadw_canon (x : Fields) (s : State) (h1 : s.Canon) : (CanonOut (execImadw x s)) := by
  unfold execImadw
  with_reducible repeat' first
    | assumption | apply issue_canon | apply specOf_canon | apply Lane.wr_canon | apply Act.canon_done | split | intro _
theorem logicSpec_canon (i : Instr) (x : Fields) (f : Lane → Nat) : (logicSpec i x f).Canon := by
  unfold logicSpec
  with_reducible repeat' first | assumption | apply specOf_canon | apply Lane.wr_canon | apply Act.canon_done | intro _
theorem execAnd_canon (x : Fields) (s : State) (h1 : s.Canon) : (CanonOut (execAnd x s)) := by
  unfold execAnd
  with_reducible repeat' first | assumption | apply issue_canon | apply logicSpec_canon
theorem execOr_canon (x : Fields) (s : State) (h1 : s.Canon) : (CanonOut (execOr x s)) := by
  unfold execOr
  with_reducible repeat' first | assumption | apply issue_canon | apply logicSpec_canon
theorem execXor_canon (x : Fields) (s : State) (h1 : s.Canon) : (CanonOut (execXor x s)) := by
  unfold execXor
  with_reducible repeat' first | assumption | apply issue_canon | apply logicSpec_canon
theorem execAndn_canon (x : Fields) (s : State) (h1 : s.Canon) : (CanonOut (execAndn x s)) := by
  unfold execAndn
  with_reducible repeat' first | assumption | apply issue_canon | apply logicSpec_canon
theorem execNot_canon (x : Fields) (s : State) (h1 : s.Canon) : (CanonOut (execNot x s)) := by
  unfold execNot
  with_reducible repeat' first | assumption | apply issue_canon | apply logicSpec_canon
theorem execShl_canon (x : Fields) (s : State) (h1 : s.Canon) : (CanonOut (execShl x s)) := by
  unfold execShl
  with_reducible repeat' first | assumption | apply issue_canon | apply logicSpec_canon
theorem execShr_canon (x : Fields) (s : State) (h1 : s.Canon) : (CanonOut (execShr x s)) := by
  unfold execShr
  with_reducible repeat' first | assumption | apply issue_canon | apply logicSpec_canon
theorem execSar_canon (x : Fields) (s : State) (h1 : s.Canon) : (CanonOut (execSar x s)) := by
  unfold execSar
  with_reducible repeat' first | assumption | apply issue_canon | apply logicSpec_canon
theorem execRot_canon (x : Fields) (s : State) (h1 : s.Canon) : (CanonOut (execRot x s)) := by
  unfold execRot
  with_reducible repeat' first | assumption | apply issue_canon | apply logicSpec_canon
theorem execBfx_canon (x : Fields) (s : State) (h1 : s.Canon) : (CanonOut (execBfx x s)) := by
  unfold execBfx
  with_reducible repeat' first
    | assumption | apply issue_canon | apply specOf_canon | apply Lane.wr_canon | apply Act.canon_done | split | intro _
theorem execBfi_canon (x : Fields) (s : State) (h1 : s.Canon) : (CanonOut (execBfi x s)) := by
  unfold execBfi
  with_reducible repeat' first
    | assumption | apply issue_canon | apply specOf_canon | apply Lane.wr_canon | apply Act.canon_done | split | intro _
theorem execPopc_canon (x : Fields) (s : State) (h1 : s.Canon) : (CanonOut (execPopc x s)) := by
  unfold execPopc
  with_reducible repeat' first
    | assumption | apply issue_canon | apply specOf_canon | apply Lane.wr_canon | apply Act.canon_done | intro _
theorem execClz_canon (x : Fields) (s : State) (h1 : s.Canon) : (CanonOut (execClz x s)) := by
  unfold execClz
  with_reducible repeat' first
    | assumption | apply issue_canon | apply specOf_canon | apply Lane.wr_canon | apply Act.canon_done | intro _
theorem execBrev_canon (x : Fields) (s : State) (h1 : s.Canon) : (CanonOut (execBrev x s)) := by
  unfold execBrev
  with_reducible repeat' first | assumption | apply issue_canon | apply logicSpec_canon
theorem execPrmb_canon (x : Fields) (s : State) (h1 : s.Canon) : (CanonOut (execPrmb x s)) := by
  unfold execPrmb
  with_reducible repeat' first
    | assumption | apply issue_canon | apply specOf_canon | apply Lane.wr_canon | apply Act.canon_done | intro _
theorem execIcmp_canon (x : Fields) (s : State) (h1 : s.Canon) : (CanonOut (execIcmp x s)) := by
  unfold execIcmp
  with_reducible repeat' first
    | assumption | apply issue_canon | apply specOf_canon | apply Lane.wrPred_canon | apply Act.canon_done | intro _
theorem execPset_canon (x : Fields) (s : State) (h1 : s.Canon) : (CanonOut (execPset x s)) := by
  unfold execPset
  with_reducible repeat' first
    | assumption | apply issue_canon | apply specOf_canon | apply Lane.wrPred_canon | apply Act.canon_done | intro _
theorem execPmovR_canon (x : Fields) (s : State) (h1 : s.Canon) : (CanonOut (execPmovR x s)) := by
  unfold execPmovR
  with_reducible repeat' first
    | assumption | apply issue_canon | apply specOf_canon | apply Lane.wr_canon | apply Act.canon_done | intro _
theorem execPmovP_canon (x : Fields) (s : State) (h1 : s.Canon) : (CanonOut (execPmovP x s)) := by
  unfold execPmovP
  with_reducible repeat' first
    | assumption | apply issue_canon | apply specOf_canon | apply State.updThread_canon | apply Act.canon_done | intro _
theorem execSel_canon (x : Fields) (s : State) (h1 : s.Canon) : (CanonOut (execSel x s)) := by
  unfold execSel
  with_reducible repeat' first
    | assumption | apply issue_canon | apply specOf_canon | apply Lane.wr_canon | apply Act.canon_done | split | intro _
theorem execMov_canon (x : Fields) (s : State) (h1 : s.Canon) : (CanonOut (execMov x s)) := by
  unfold execMov
  with_reducible repeat' first | assumption | apply issue_canon | apply logicSpec_canon
theorem execMoviLo_canon (x : Fields) (s : State) (h1 : s.Canon) : (CanonOut (execMoviLo x s)) := by
  unfold execMoviLo
  with_reducible repeat' first
    | assumption | apply issue_canon | apply specOf_canon | apply Lane.wr_canon | apply Act.canon_done | intro _
theorem execMoviHi_canon (x : Fields) (s : State) (h1 : s.Canon) : (CanonOut (execMoviHi x s)) := by
  unfold execMoviHi
  with_reducible repeat' first
    | assumption | apply issue_canon | apply specOf_canon | apply Lane.wr_canon | apply Act.canon_done | intro _
theorem execMoviS_canon (x : Fields) (s : State) (h1 : s.Canon) : (CanonOut (execMoviS x s)) := by
  unfold execMoviS
  with_reducible repeat' first
    | assumption | apply issue_canon | apply specOf_canon | apply Lane.wr_canon | apply Act.canon_done | intro _
theorem execMovk_canon (x : Fields) (s : State) (h1 : s.Canon) : (CanonOut (execMovk x s)) := by
  unfold execMovk
  repeat' first
    | with_reducible assumption | exact True.intro | with_reducible apply issue_canon | with_reducible apply specOf_canon
    | with_reducible apply Lane.wr32_canon | with_reducible apply Act.canon_done | split | intro _
    | (simp only [↓State.canon_mk_iff]; refine ⟨?_, ?_⟩) | dsimp only | with_reducible apply State.Canon.hbm
    | with_reducible apply State.Canon.scanout | with_reducible apply Spec.Canon.lane | with_reducible apply Spec.Canon.spoil
    | with_reducible apply Spec.Canon.after | with_reducible apply Spec.Canon.mk
theorem execMovx_canon (x : Fields) (s : State) (h1 : s.Canon) : (CanonOut (execMovx x s)) := by
  unfold execMovx
  repeat' first
    | with_reducible assumption | exact True.intro | with_reducible apply issue_canon | with_reducible apply specOf_canon
    | with_reducible apply Lane.wr32_canon | with_reducible apply Act.canon_done | split | intro _
    | (simp only [↓State.canon_mk_iff]; refine ⟨?_, ?_⟩) | dsimp only | with_reducible apply State.Canon.hbm
    | with_reducible apply State.Canon.scanout | with_reducible apply Spec.Canon.lane | with_reducible apply Spec.Canon.spoil
    | with_reducible apply Spec.Canon.after | with_reducible apply Spec.Canon.mk
theorem execMovxs_canon (x : Fields) (s : State) (h1 : s.Canon) : (CanonOut (execMovxs x s)) := by
  unfold execMovxs
  repeat' first
    | with_reducible assumption | exact True.intro | with_reducible apply issue_canon | with_reducible apply specOf_canon
    | with_reducible apply State.putDst_canon | with_reducible apply Act.canon_done | split | intro _
    | (simp only [↓State.canon_mk_iff]; refine ⟨?_, ?_⟩) | dsimp only | with_reducible apply State.Canon.hbm
    | with_reducible apply State.Canon.scanout | with_reducible apply Spec.Canon.lane | with_reducible apply Spec.Canon.spoil
    | with_reducible apply Spec.Canon.after | with_reducible apply Spec.Canon.mk
theorem execLea_canon (x : Fields) (s : State) (h1 : s.Canon) : (CanonOut (execLea x s)) := by
  unfold execLea
  with_reducible repeat' first
    | assumption | apply issue_canon | apply specOf_canon | apply Lane.wr_canon | apply Act.canon_done | intro _
theorem execLeaN_canon (x : Fields) (s : State) (h1 : s.Canon) : (CanonOut (execLeaN x s)) := by
  unfold execLeaN
  with_reducible repeat' first
    | assumption | apply issue_canon | apply specOf_canon | apply Lane.wr_canon | apply Act.canon_done | intro _
theorem execWidf_canon (x : Fields) (s : State) (h1 : s.Canon) : (CanonOut (execWidf x s)) := by
  unfold execWidf
  with_reducible repeat' first
    | assumption | apply issue_canon | apply specOf_canon | apply Lane.wr_canon | apply Act.canon_done | split | intro _
theorem execSysr_canon (x : Fields) (s : State) (h1 : s.Canon) : (CanonOut (execSysr x s)) := by
  unfold execSysr
  with_reducible repeat' first
    | assumption | apply issue_canon | apply specOf_canon | apply Lane.wr32_canon | apply Act.canon_done | intro _
theorem State.updTile_canon (s : State) (gid : Nat) (t : Nat) (f : Tile → Tile) (h1 : s.Canon) : (State.updTile s gid t f).Canon := h1
theorem State.setConv_canon (s : State) (gid : Nat) (x : Nat) (c : Conv) (h1 : s.Canon) : (State.setConv s gid x c).Canon := h1
theorem Lane.convDefine_canon (v : Lane) (x : Fields) (s : State) (h1 : s.Canon) : (Lane.convDefine v x s).Canon := by
  unfold Lane.convDefine
  repeat' first
    | with_reducible assumption | exact True.intro | with_reducible apply State.setConv_canon | with_reducible apply Act.canon_done
    | split | dsimp only
theorem execCvdef_canon (x : Fields) (s : State) (h1 : s.Canon) : (CanonOut (execCvdef x s)) := by
  unfold execCvdef
  with_reducible repeat' first | assumption | apply issue_canon | apply specOf_canon | apply Lane.convDefine_canon | intro _
theorem State.breakConv_canon (s : State) (gid : Nat) (x : Nat) (h1 : s.Canon) : (State.breakConv s gid x).Canon := by
  unfold State.breakConv
  with_reducible repeat' first | assumption | apply State.setConv_canon | split
theorem Lane.relaxes_canon (v : Lane) (s : State) (asked : Bool) (h1 : s.Canon) : (Lane.relaxes v s asked).1.Canon := by
  unfold Lane.relaxes
  with_reducible repeat' first | assumption | apply Lane.countForced_canon
theorem Lane.issueSet_canon (v : Lane) (x : Fields) (c : Conv) (ss : List Signer) (f : Word) (lay : List Word) (s : State) (h1 :
    s.Canon) : (Lane.issueSet v x c ss f lay s).Canon := by
  unfold Lane.issueSet
  with_reducible repeat' first
    | assumption | apply Lane.relaxes_canon | apply State.newOp_canon | apply State.updTile_canon | apply State.enter_canon
    | apply State.setConv_canon | apply State.retire_canon | apply canon_foldl | split | intro _
theorem Lane.sign_canon (v : Lane) (x : Fields) (s : State) (h1 : s.Canon) : (Lane.sign v x s).Canon := by
  unfold Lane.sign
  repeat' first
    | with_reducible assumption | exact True.intro | with_reducible apply State.breakConv_canon | with_reducible apply State.setConv_canon
    | with_reducible apply Lane.issueSet_canon | with_reducible apply Act.canon_done | with_reducible apply Act.canon_trapIn
    | with_reducible apply Act.canon_wait | split | dsimp only
theorem State.brokenTraps_canon (s : State) (gid : Nat) (cv : Nat) (h1 : s.Canon) : (State.brokenTraps s gid cv).1.Canon := by
  unfold State.brokenTraps
  with_reducible repeat' first
    | assumption | apply State.setConv_canon | apply State.takeTraps_canon | apply canon_foldl | split | intro _
theorem mmaSpec_canon (i : Instr) (x : Fields) (gids : List Nat) : (mmaSpec i x gids).Canon := by
  unfold mmaSpec
  with_reducible repeat' first
    | assumption | apply specOf_canon | apply Lane.sign_canon | apply State.breakConv_canon | apply State.brokenTraps_canon
    | apply canon_foldl_fst | split | intro _ | dsimp only | apply Spec.Canon.lane | apply Spec.Canon.mk
theorem execMmaR_canon (x : Fields) (s : State) (h1 : s.Canon) : (CanonOut (execMmaR x s)) := by
  unfold execMmaR
  with_reducible repeat' first | assumption | apply issue_canon | apply mmaSpec_canon
theorem execMmaS_canon (x : Fields) (s : State) (h1 : s.Canon) : (CanonOut (execMmaS x s)) := by
  unfold execMmaS
  with_reducible repeat' first | assumption | apply issue_canon | apply mmaSpec_canon
theorem execMmaPR_canon (x : Fields) (s : State) (h1 : s.Canon) : (CanonOut (execMmaPR x s)) := by
  unfold execMmaPR
  with_reducible repeat' first | assumption | apply issue_canon | apply mmaSpec_canon
theorem execMmaPS_canon (x : Fields) (s : State) (h1 : s.Canon) : (CanonOut (execMmaPS x s)) := by
  unfold execMmaPS
  with_reducible repeat' first | assumption | apply issue_canon | apply mmaSpec_canon
theorem State.relaxWindow_canon (s : State) (l : Nat) (w : List (List Word)) (h1 : s.Canon) : (State.relaxWindow s l w).1.Canon := h1
theorem State.relaxed_canon (s : State) (l : Option Nat) (w : List (List Word)) (h1 : s.Canon) : (State.relaxed s l w).1.Canon := by
  unfold State.relaxed
  with_reducible repeat' first | assumption | apply State.relaxWindow_canon | split
theorem execMmaSetCompletion_canon (op : Nat) (s : State) (h1 : s.Canon) : (CanonOut (execMmaSetCompletion op s)) := by
  unfold execMmaSetCompletion
  with_reducible repeat' first
    | assumption | apply State.relaxed_canon | apply State.readOperand_canon | apply State.countTithe_canon | apply State.updTile_canon
    | apply happen_canon | apply State.retireEntries_canon | apply State.endOp_canon | apply canonOut_next | split
theorem execMmaz_canon (x : Fields) (s : State) (h1 : s.Canon) : (CanonOut (execMmaz x s)) := by
  unfold execMmaz
  repeat' first
    | with_reducible assumption | with_reducible apply issue_canon | with_reducible apply specOf_canon
    | with_reducible apply State.updTile_canon | with_reducible apply Act.canon_done | intro _
    | (simp only [↓State.canon_mk_iff]; refine ⟨?_, ?_⟩) | dsimp only | with_reducible apply State.Canon.hbm
    | with_reducible apply State.Canon.scanout | with_reducible apply Spec.Canon.spoil | with_reducible apply Spec.Canon.after
    | with_reducible apply Spec.Canon.mk
theorem Lane.accRead_canon (v : Lane) (x : Fields) (s : State) (h1 : s.Canon) : (Lane.accRead v x s).Canon := by
  unfold Lane.accRead
  repeat' first
    | with_reducible assumption | exact True.intro | with_reducible apply State.newOp_canon | with_reducible apply State.pendDsts_canon
    | with_reducible apply Act.canon_done | split | dsimp only
theorem execMaccr_canon (x : Fields) (s : State) (h1 : s.Canon) : (CanonOut (execMaccr x s)) := by
  unfold execMaccr
  with_reducible repeat' first
    | assumption | apply issue_canon | apply specOf_canon | apply Lane.accRead_canon | intro _
    | (simp only [↓State.canon_mk_iff]; refine ⟨?_, ?_⟩) | dsimp only | apply State.Canon.hbm | apply State.Canon.scanout
    | apply Spec.Canon.lane | apply Spec.Canon.spoil | apply Spec.Canon.after | apply Spec.Canon.mk
theorem Lane.accWrite_canon (v : Lane) (x : Fields) (s : State) (h1 : s.Canon) : (Lane.accWrite v x s).Canon := by
  unfold Lane.accWrite
  repeat' first
    | with_reducible assumption | exact True.intro | with_reducible apply State.updTile_canon | with_reducible apply Act.canon_done
    | split | dsimp only
theorem execMaccw_canon (x : Fields) (s : State) (h1 : s.Canon) : (CanonOut (execMaccw x s)) := by
  unfold execMaccw
  with_reducible repeat' first
    | assumption | apply issue_canon | apply specOf_canon | apply Lane.accWrite_canon | intro _
    | (simp only [↓State.canon_mk_iff]; refine ⟨?_, ?_⟩) | dsimp only | apply State.Canon.hbm | apply State.Canon.scanout
    | apply Spec.Canon.lane | apply Spec.Canon.spoil | apply Spec.Canon.after | apply Spec.Canon.mk
theorem Lane.issueAcc_canon (v : Lane) (s : State) (a : AccOp) (es : List (Nat × Nat × Bool)) (tiles : List Nat) (h1 : s.Canon) :
    (Lane.issueAcc v s a es tiles).Canon := by
  unfold Lane.issueAcc
  with_reducible repeat' first
    | assumption | apply State.newOp_canon | apply State.enter_canon | apply State.updTile_canon | apply canon_foldl | intro _
theorem Lane.accMove_canon (v : Lane) (x : Fields) (form : AccForm) (s : State) (h1 : s.Canon) : (Lane.accMove v x form s).Canon := by
  unfold Lane.accMove
  repeat' first
    | with_reducible assumption | exact True.intro | with_reducible apply Lane.issueAcc_canon | with_reducible apply Act.canon_done
    | split | dsimp only
theorem accMoveSpec_canon (i : Instr) (x : Fields) (form : AccForm) : (accMoveSpec i x form).Canon := by
  unfold accMoveSpec
  with_reducible repeat' first
    | assumption | apply specOf_canon | apply Lane.accMove_canon | intro _ | (simp only [↓State.canon_mk_iff]; refine ⟨?_, ?_⟩)
    | dsimp only | apply State.Canon.hbm | apply State.Canon.scanout | apply Spec.Canon.lane | apply Spec.Canon.spoil
    | apply Spec.Canon.after | apply Spec.Canon.mk
theorem execMaccl_canon (x : Fields) (s : State) (h1 : s.Canon) : (CanonOut (execMaccl x s)) := by
  unfold execMaccl
  with_reducible repeat' first | assumption | apply issue_canon | apply accMoveSpec_canon
theorem execMaccs_canon (x : Fields) (s : State) (h1 : s.Canon) : (CanonOut (execMaccs x s)) := by
  unfold execMaccs
  with_reducible repeat' first | assumption | apply issue_canon | apply accMoveSpec_canon
theorem Lane.fold_canon (v : Lane) (x : Fields) (s : State) (h1 : s.Canon) : (Lane.fold v x s).Canon := by
  unfold Lane.fold
  repeat' first
    | with_reducible assumption | exact True.intro | with_reducible apply Lane.plainLoad_canon | with_reducible apply Lane.relaxes_canon
    | with_reducible apply Lane.issueAcc_canon | with_reducible apply Act.canon_done | split | intro _ | dsimp only
theorem execMscl_canon (x : Fields) (s : State) (h1 : s.Canon) : (CanonOut (execMscl x s)) := by
  unfold execMscl
  with_reducible repeat' first
    | assumption | apply issue_canon | apply specOf_canon | apply Lane.fold_canon | intro _
    | (simp only [↓State.canon_mk_iff]; refine ⟨?_, ?_⟩) | dsimp only | apply State.Canon.hbm | apply State.Canon.scanout
    | apply Spec.Canon.lane | apply Spec.Canon.spoil | apply Spec.Canon.after | apply Spec.Canon.mk
theorem Lane.amaxWords_canon (v : Lane) (a : Nat) (s : State) (h1 : s.Canon) : (Lane.amaxWords v a s).1.s.Canon := by
  unfold Lane.amaxWords
  with_reducible repeat' first | assumption | apply Fetch.read_canon | apply Lane.startFetch_canon | apply canon_foldl_fetch_fst | intro _
theorem Lane.quantiseTile_canon (v : Lane) (x : Fields) (s : State) (h1 : s.Canon) : (Lane.quantiseTile v x s).Canon := by
  have hif : ∀ (b : Prop) [Decidable b] (a c : Act), a.Canon → c.Canon → (if b then a else c).Canon := by
    intro b _ a c ha hc; split <;> assumption
  unfold Lane.quantiseTile
  dsimp only
  refine hif _ _ _ Act.illegal_canon (hif _ _ _ trivial (hif _ _ _ trivial (hif _ _ _ trivial (hif _ _ _ trivial ?_))))
  have hr := Lane.amaxWords_canon v (v.r64 x.a).toNat s h1
  generalize v.amaxWords (v.r64 x.a).toNat s = r at hr
  split
  · exact Lane.halted_canon _ _ _ _ hr
  have ht := State.clearBuf_canon _ v.key hr
  exact Act.canon_done (Lane.issueAcc_canon _ _ _ _ _ (canon_getD (fun p => State.poisonLanded_canon _ _ _ ht) ht))
theorem execMqnt_canon (x : Fields) (s : State) (h1 : s.Canon) : (CanonOut (execMqnt x s)) := by
  unfold execMqnt
  with_reducible repeat' first
    | assumption | apply issue_canon | apply specOf_canon | apply Lane.quantiseTile_canon | intro _
    | (simp only [↓State.canon_mk_iff]; refine ⟨?_, ?_⟩) | dsimp only | apply State.Canon.hbm | apply State.Canon.scanout
    | apply Spec.Canon.lane | apply Spec.Canon.spoil | apply Spec.Canon.after | apply Spec.Canon.mk
theorem Lane.tileMax_canon (v : Lane) (x : Fields) (s : State) (h1 : s.Canon) : (Lane.tileMax v x s).Canon := by
  unfold Lane.tileMax
  repeat' first
    | with_reducible assumption | exact True.intro | with_reducible apply State.present_canon | with_reducible apply Act.canon_done
    | split | dsimp only
theorem execMamax_canon (x : Fields) (s : State) (h1 : s.Canon) : (CanonOut (execMamax x s)) := by
  unfold execMamax
  with_reducible repeat' first
    | assumption | apply issue_canon | apply specOf_canon | apply Lane.tileMax_canon | intro _
    | (simp only [↓State.canon_mk_iff]; refine ⟨?_, ?_⟩) | dsimp only | apply State.Canon.hbm | apply State.Canon.scanout
    | apply Spec.Canon.lane | apply Spec.Canon.spoil | apply Spec.Canon.after | apply Spec.Canon.mk
theorem State.runAcc_canon (s : State) (o : AOp) (g : Group) (a : AccOp) (h1 : s.Canon) : (State.runAcc s o g a).Canon := by
  unfold State.runAcc
  with_reducible repeat' first
    | assumption | apply State.updTile_canon | apply State.readOperand_canon | apply State.updGroup_canon | apply State.relaxed_canon
    | split
theorem execAccOpCompletion_canon (op : Nat) (s : State) (h1 : s.Canon) : (CanonOut (execAccOpCompletion op s)) := by
  unfold execAccOpCompletion
  with_reducible repeat' first
    | assumption | apply happen_canon | apply State.retireEntries_canon | apply State.endOp_canon | apply State.runAcc_canon
    | apply State.landDsts_canon | apply canonOut_next | split
theorem Lane.slotRun_canon (v : Lane) (p : Slot) (s : State) (h1 : s.Canon) : (Lane.slotRun v p s).1.Canon := by
  unfold Lane.slotRun
  with_reducible repeat' first
    | assumption | apply Lane.plainLoad_canon | apply Act.canon_jump | split | intro _
    | (simp only [↓State.canon_mk_iff]; refine ⟨?_, ?_⟩) | dsimp only | apply State.Canon.hbm | apply State.Canon.scanout
    | refine Act.of_jump (by assumption) ?_ | refine Act.of_trapIn (by assumption) ?_
theorem Lane.slotPut_canon (v : Lane) (p : Slot) (s : State) (b3 : SlotAct) (h1 : s.Canon) : (Lane.slotPut v p s b3).Canon := by
  unfold Lane.slotPut
  with_reducible repeat' first
    | assumption | apply Lane.raiseFlags_canon | apply State.putDst_canon | apply Lane.scratchStore_canon | split
theorem Lane.pair_canon (v : Lane) (p : Slot) (q : Slot) (s : State) (h1 : s.Canon) : (Lane.pair v p q s).Canon := by
  unfold Lane.pair
  repeat' first
    | with_reducible assumption | exact True.intro | with_reducible apply Lane.slotRun_canon | with_reducible apply Lane.slotPut_canon
    | with_reducible apply Act.canon_done | with_reducible apply Act.canon_trapIn | split | dsimp only
theorem pairSpec_canon (p : Slot) (q : Slot) : (pairSpec p q).Canon := by
  unfold pairSpec
  with_reducible repeat' first | assumption | apply Lane.pair_canon | intro _ | apply Spec.Canon.mk
theorem execPairWord_canon (p : Slot) (q : Slot) (s : State) (h1 : s.Canon) : (CanonOut (execPairWord p q s)) := by
  unfold execPairWord
  with_reducible repeat' first | assumption | apply issue_canon | apply pairSpec_canon
theorem State.cold_canon (s : State) (_h1 : s.Canon) : (State.cold s).Canon := by
  unfold State.cold
  with_reducible repeat' first | apply State.reset_canon | (simp only [↓State.canon_mk_iff]; apply State.canon_parts)
theorem execResetNLow_canon (s : State) (h1 : s.Canon) : (CanonOut (execResetNLow s)) := by
  unfold execResetNLow
  with_reducible repeat' first
    | assumption | apply happen_canon | apply State.cold_canon | (simp only [↓State.canon_mk_iff]; apply State.canon_parts)
theorem execResetNRise_canon (s : State) (h1 : s.Canon) : (CanonOut (execResetNRise s)) := by
  unfold execResetNRise
  with_reducible repeat' first
    | assumption | apply happen_canon | apply State.cold_canon | apply canonOut_next | split
    | (simp only [↓State.canon_mk_iff]; apply State.canon_parts)
theorem execPwrgoodFall_canon (s : State) (h1 : s.Canon) : (CanonOut (execPwrgoodFall s)) := by
  unfold execPwrgoodFall
  with_reducible repeat' first
    | assumption | apply happen_canon | apply State.cold_canon | (simp only [↓State.canon_mk_iff]; apply State.canon_parts)
theorem execPwrgoodRise_canon (s : State) (h1 : s.Canon) : (CanonOut (execPwrgoodRise s)) := by
  unfold execPwrgoodRise
  with_reducible repeat' first
    | assumption | apply happen_canon | apply canonOut_next | split | (simp only [↓State.canon_mk_iff]; apply State.canon_parts)
theorem execModuleReset_canon (s : State) (h1 : s.Canon) : (CanonOut (execModuleReset s)) := by
  unfold execModuleReset
  with_reducible repeat' first
    | assumption | apply State.atPort_canon | apply happen_canon | apply State.refuseRequest_canon | apply State.answer_canon
    | apply State.cold_canon | apply canonOut_next | split | intro _ | (simp only [↓State.canon_mk_iff]; apply State.canon_parts)
theorem State.calibrated_canon (s : State) (h1 : s.Canon) : (State.calibrated s).Canon := h1
theorem State.zeroFilled_canon (s : State) (_h1 : s.Canon) : (State.zeroFilled s).Canon := by
  exact ⟨rfl, rfl⟩
theorem execBringUpStepEnd_canon (s : State) (h1 : s.Canon) : (CanonOut (execBringUpStepEnd s)) := by
  unfold execBringUpStepEnd
  with_reducible repeat' first
    | assumption | apply happen_canon | apply State.calibrated_canon | apply State.zeroFilled_canon | apply canonOut_next | split
    | (simp only [↓State.canon_mk_iff]; apply State.canon_parts)
theorem execBringUpStepTimeout_canon (s : State) (h1 : s.Canon) : (CanonOut (execBringUpStepTimeout s)) := by
  unfold execBringUpStepTimeout
  with_reducible repeat' first
    | assumption | apply happen_canon | apply canonOut_next | split | (simp only [↓State.canon_mk_iff]; apply State.canon_parts)
theorem execHotspotThrottle_canon (core : Nat) (quad : Nat) (level : Nat) (s : State) (h1 : s.Canon) : (CanonOut (execHotspotThrottle
    core quad level s)) := by
  unfold execHotspotThrottle
  with_reducible repeat' first
    | assumption | apply happen_canon | apply canonOut_next | split | (simp only [↓State.canon_mk_iff]; apply State.canon_parts)
theorem execThermalShutdown_canon (s : State) (h1 : s.Canon) : (CanonOut (execThermalShutdown s)) := by
  unfold execThermalShutdown
  with_reducible repeat' first
    | assumption | apply happen_canon | apply State.cold_canon | apply canonOut_next | split
    | (simp only [↓State.canon_mk_iff]; apply State.canon_parts)

end Sys2Proof.Machine
end

