-- ==== Sys2Proof/Laws/CanonExec.lean ====
section
/-!
SUPPORT. What exec and the machine's own next move keep:
HBM and scanout memory in their canonical form.
-/
namespace Sys2Proof.Machine
set_option Elab.async false
set_option linter.unusedSimpArgs false

theorem exec_canon (i : Instr) (s : State) (h1 : s.Canon) : (CanonOut (exec i s)) := by
  match i with
  | .iadd x => exact execIadd_canon x s h1
  | .isub x => exact execIsub_canon x s h1
  | .iaddc x => exact execIaddc_canon x s h1
  | .ineg x => exact execIneg_canon x s h1
  | .iabs x => exact execIabs_canon x s h1
  | .imin x => exact execImin_canon x s h1
  | .imax x => exact execImax_canon x s h1
  | .imul x => exact execImul_canon x s h1
  | .imulh x => exact execImulh_canon x s h1
  | .imad x => exact execImad_canon x s h1
  | .imadw x => exact execImadw_canon x s h1
  | .and x => exact execAnd_canon x s h1
  | .or x => exact execOr_canon x s h1
  | .xor x => exact execXor_canon x s h1
  | .andn x => exact execAndn_canon x s h1
  | .not x => exact execNot_canon x s h1
  | .shl x => exact execShl_canon x s h1
  | .shr x => exact execShr_canon x s h1
  | .sar x => exact execSar_canon x s h1
  | .rot x => exact execRot_canon x s h1
  | .bfx x => exact execBfx_canon x s h1
  | .bfi x => exact execBfi_canon x s h1
  | .popc x => exact execPopc_canon x s h1
  | .clz x => exact execClz_canon x s h1
  | .brev x => exact execBrev_canon x s h1
  | .prmb x => exact execPrmb_canon x s h1
  | .icmp x => exact execIcmp_canon x s h1
  | .pset x => exact execPset_canon x s h1
  | .pmovR x => exact execPmovR_canon x s h1
  | .pmovP x => exact execPmovP_canon x s h1
  | .sel x => exact execSel_canon x s h1
  | .mov x => exact execMov_canon x s h1
  | .moviLo x => exact execMoviLo_canon x s h1
  | .moviHi x => exact execMoviHi_canon x s h1
  | .moviS x => exact execMoviS_canon x s h1
  | .movk x => exact execMovk_canon x s h1
  | .movx x => exact execMovx_canon x s h1
  | .movxs x => exact execMovxs_canon x s h1
  | .lea x => exact execLea_canon x s h1
  | .leaN x => exact execLeaN_canon x s h1
  | .widf x => exact execWidf_canon x s h1
  | .sysr x => exact execSysr_canon x s h1
  | .bra x => exact execBra_canon x s h1
  | .brx x => exact execBrx_canon x s h1
  | .call x => exact execCall_canon x s h1
  | .callx x => exact execCallx_canon x s h1
  | .ret x => exact execRet_canon x s h1
  | .shfb x => exact execShfb_canon x s h1
  | .shfe x => exact execShfe_canon x s h1
  | .trap x => exact execTrap_canon x s h1
  | .tret x => exact execTret_canon x s h1
  | .tretN x => exact execTretN_canon x s h1
  | .nop x => exact execNop_canon x s h1
  | .yield x => exact execYield_canon x s h1
  | .exit x => exact execExit_canon x s h1
  | .pulse x => exact execPulse_canon x s h1
  | .safept x => exact execSafept_canon x s h1
  | .wspill x => exact execWspill_canon x s h1
  | .wfill x => exact execWfill_canon x s h1
  | .csrr x => exact execCsrr_canon x s h1
  | .csrw x => exact execCsrw_canon x s h1
  | .twnx x => exact execTwnx_canon x s h1
  | .twlk x => exact execTwlk_canon x s h1
  | .fadd x => exact execFadd_canon x s h1
  | .fsub x => exact execFsub_canon x s h1
  | .fmul x => exact execFmul_canon x s h1
  | .fma x => exact execFma_canon x s h1
  | .fmin x => exact execFmin_canon x s h1
  | .fmax x => exact execFmax_canon x s h1
  | .fminx x => exact execFminx_canon x s h1
  | .fmaxx x => exact execFmaxx_canon x s h1
  | .fabs x => exact execFabs_canon x s h1
  | .fneg x => exact execFneg_canon x s h1
  | .fclass x => exact execFclass_canon x s h1
  | .frnd x => exact execFrnd_canon x s h1
  | .frcp x => exact execFrcp_canon x s h1
  | .fsqrt x => exact execFsqrt_canon x s h1
  | .frsq x => exact execFrsq_canon x s h1
  | .fexp2 x => exact execFexp2_canon x s h1
  | .flog2 x => exact execFlog2_canon x s h1
  | .fsin x => exact execFsin_canon x s h1
  | .fcos x => exact execFcos_canon x s h1
  | .fcmp x => exact execFcmp_canon x s h1
  | .cvt x => exact execCvt_canon x s h1
  | .cvtBs x => exact execCvtBs_canon x s h1
  | .hadd2 x => exact execHadd2_canon x s h1
  | .hsub2 x => exact execHsub2_canon x s h1
  | .hmul2 x => exact execHmul2_canon x s h1
  | .hfma2 x => exact execHfma2_canon x s h1
  | .dot4 x => exact execDot4_canon x s h1
  | .dot8 x => exact execDot8_canon x s h1
  | .dot2h x => exact execDot2h_canon x s h1
  | .qsc x => exact execQsc_canon x s h1
  | .fkey x => exact execFkey_canon x s h1
  | .wnw x => exact execWnw_canon x s h1
  | .wnwCt x => exact execWnwCt_canon x s h1
  | .titheS x => exact execTitheS_canon x s h1
  | .titheC x => exact execTitheC_canon x s h1
  | .apxexp2 x => exact execApxexp2_canon x s h1
  | .apxrcp x => exact execApxrcp_canon x s h1
  | .ld x => exact execLd_canon x s h1
  | .st x => exact execSt_canon x s h1
  | .lds x => exact execLds_canon x s h1
  | .sts x => exact execSts_canon x s h1
  | .ldt x => exact execLdt_canon x s h1
  | .ldk x => exact execLdk_canon x s h1
  | .atomAdd x => exact execAtomAdd_canon x s h1
  | .atomSub x => exact execAtomSub_canon x s h1
  | .atomMinN x => exact execAtomMinN_canon x s h1
  | .atomMaxN x => exact execAtomMaxN_canon x s h1
  | .atomAnd x => exact execAtomAnd_canon x s h1
  | .atomOr x => exact execAtomOr_canon x s h1
  | .atomXor x => exact execAtomXor_canon x s h1
  | .atomXchg x => exact execAtomXchg_canon x s h1
  | .atomCas x => exact execAtomCas_canon x s h1
  | .atomInc x => exact execAtomInc_canon x s h1
  | .atomDec x => exact execAtomDec_canon x s h1
  | .atomMinS x => exact execAtomMinS_canon x s h1
  | .atomMaxS x => exact execAtomMaxS_canon x s h1
  | .afadd x => exact execAfadd_canon x s h1
  | .amxf x => exact execAmxf_canon x s h1
  | .amxi x => exact execAmxi_canon x s h1
  | .red x => exact execRed_canon x s h1
  | .redFadd x => exact execRedFadd_canon x s h1
  | .redAmxf x => exact execRedAmxf_canon x s h1
  | .redAmxi x => exact execRedAmxi_canon x s h1
  | .fence x => exact execFence_canon x s h1
  | .pref x => exact execPref_canon x s h1
  | .evict x => exact execEvict_canon x s h1
  | .bcpG2s x => exact execBcpG2s_canon x s h1
  | .bcpS2g x => exact execBcpS2g_canon x s h1
  | .bcpS2s x => exact execBcpS2s_canon x s h1
  | .bcps x => exact execBcps_canon x s h1
  | .bcpq x => exact execBcpq_canon x s h1
  | .bcpm x => exact execBcpm_canon x s h1
  | .bcpUnpk4s x => exact execBcpUnpk4s_canon x s h1
  | .bcpUnpk4f x => exact execBcpUnpk4f_canon x s h1
  | .bcpUnpk8s x => exact execBcpUnpk8s_canon x s h1
  | .bcpUnpk8f x => exact execBcpUnpk8f_canon x s h1
  | .qdef x => exact execQdef_canon x s h1
  | .qpopE x => exact execQpopE_canon x s h1
  | .qpopF x => exact execQpopF_canon x s h1
  | .qpushF x => exact execQpushF_canon x s h1
  | .qpushE x => exact execQpushE_canon x s h1
  | .qstat x => exact execQstat_canon x s h1
  | .send x => exact execSend_canon x s h1
  | .recv x => exact execRecv_canon x s h1
  | .recvw x => exact execRecvw_canon x s h1
  | .tcw x => exact execTcw_canon x s h1
  | .tcwT x => exact execTcwT_canon x s h1
  | .tlw x => exact execTlw_canon x s h1
  | .tlwT x => exact execTlwT_canon x s h1
  | .tladv x => exact execTladv_canon x s h1
  | .bari x => exact execBari_canon x s h1
  | .bara x => exact execBara_canon x s h1
  | .barw x => exact execBarw_canon x s h1
  | .coll x => exact execColl_canon x s h1
  | .cvdef x => exact execCvdef_canon x s h1
  | .mmaR x => exact execMmaR_canon x s h1
  | .mmaS x => exact execMmaS_canon x s h1
  | .mmaPR x => exact execMmaPR_canon x s h1
  | .mmaPS x => exact execMmaPS_canon x s h1
  | .mmaz x => exact execMmaz_canon x s h1
  | .maccr x => exact execMaccr_canon x s h1
  | .maccw x => exact execMaccw_canon x s h1
  | .maccl x => exact execMaccl_canon x s h1
  | .maccs x => exact execMaccs_canon x s h1
  | .mscl x => exact execMscl_canon x s h1
  | .mqnt x => exact execMqnt_canon x s h1
  | .mamax x => exact execMamax_canon x s h1
  | .mvtx x => exact execMvtx_canon x s h1
  | .mprim x => exact execMprim_canon x s h1
  | .memit x => exact execMemit_canon x s h1
  | .vamp x => exact execVamp_canon x s h1
  | .vwarpX x => exact execVwarpX_canon x s h1
  | .vwarpY x => exact execVwarpY_canon x s h1
  | .gzlt x => exact execGzlt_canon x s h1
  | .smpl x => exact execSmpl_canon x s h1
  | .tileo x => exact execTileo_canon x s h1
  | .lens x => exact execLens_canon x s h1
  | .serq x => exact execSerq_canon x s h1
  | .texB x => exact execTexB_canon x s h1
  | .texT x => exact execTexT_canon x s h1
  | .texA x => exact execTexA_canon x s h1
  | .texg x => exact execTexg_canon x s h1
  | .texq x => exact execTexq_canon x s h1
  | .ryl x => exact execRyl_canon x s h1
  | .rylV x => exact execRylV_canon x s h1
  | .ryt x => exact execRyt_canon x s h1
  | .ryrM x => exact execRyrM_canon x s h1
  | .ryrH x => exact execRyrH_canon x s h1
  | .rys x => exact execRys_canon x s h1
  | .ryh x => exact execRyh_canon x s h1
  | .ryx x => exact execRyx_canon x s h1
  | .pairWord p q => exact execPairWord_canon p q s h1
  | .twnxAnswer thread => exact execTwnxAnswer_canon thread s h1
  | .loadDataReturn op peerData => exact execLoadDataReturn_canon op peerData s h1
  | .writeQueueApply line => exact execWriteQueueApply_canon line s h1
  | .bcpqSlotTaken op => exact execBcpqSlotTaken_canon op s h1
  | .copyCompletion op => exact execCopyCompletion_canon op s h1
  | .bcpmCompletion op => exact execBcpmCompletion_canon op s h1
  | .blockedPopRelease thread => exact execBlockedPopRelease_canon thread s h1
  | .messageArrival msg => exact execMessageArrival_canon msg s h1
  | .tlwChangeNoticed thread => exact execTlwChangeNoticed_canon thread s h1
  | .mmaSetCompletion op => exact execMmaSetCompletion_canon op s h1
  | .accOpCompletion op => exact execAccOpCompletion_canon op s h1
  | .amplifyProject core => exact execAmplifyProject_canon core s h1
  | .rasterTest die => exact execRasterTest_canon die s h1
  | .coverageDelivery die => exact execCoverageDelivery_canon die s h1
  | .tileWriteCompletion op => exact execTileWriteCompletion_canon op s h1
  | .traversalCompletion op => exact execTraversalCompletion_canon op s h1
  | .translationMiss die => exact execTranslationMiss_canon die s h1
  | .walkCompletion walk => exact execWalkCompletion_canon walk s h1
  | .bridgeFlitRetry passes => exact execBridgeFlitRetry_canon passes s h1
  | .scanoutBurstRetry ctx slot failedRetries => exact execScanoutBurstRetry_canon ctx slot failedRetries s h1
  | .portGuardPeriod core beats => exact execPortGuardPeriod_canon core beats s h1
  | .patrolScrub core word find => exact execPatrolScrub_canon core word find s h1
  | .thresherIssue core => exact execThresherIssue_canon core s h1
  | .groupCompletion group => exact execGroupCompletion_canon group s h1
  | .threadDrainEnd thread => exact execThreadDrainEnd_canon thread s h1
  | .widxNotice tenant queue => exact execWidxNotice_canon tenant queue s h1
  | .launchCompletion launch => exact execLaunchCompletion_canon launch s h1
  | .tlbinvCompletion ctx => exact execTlbinvCompletion_canon ctx s h1
  | .collectiveCompletion op peerInputs => exact execCollectiveCompletion_canon op peerInputs s h1
  | .balancePeriod ctx slot => exact execBalancePeriod_canon ctx slot s h1
  | .safePointSave ctx => exact execSafePointSave_canon ctx s h1
  | .forcedSave ctx => exact execForcedSave_canon ctx s h1
  | .saveCompletion ctx => exact execSaveCompletion_canon ctx s h1
  | .restoreCompletion ctx => exact execRestoreCompletion_canon ctx s h1
  | .watchdogFire ctx => exact execWatchdogFire_canon ctx s h1
  | .lateErrorTrap thread => exact execLateErrorTrap_canon thread s h1
  | .faultRecordWrite tenant => exact execFaultRecordWrite_canon tenant s h1
  | .faultRidxNotice tenant => exact execFaultRidxNotice_canon tenant s h1
  | .rsmNotice tenant => exact execRsmNotice_canon tenant s h1
  | .selfTestEnd core pass => exact execSelfTestEnd_canon core pass s h1
  | .replayDivergence ctx => exact execReplayDivergence_canon ctx s h1
  | .stripLatch ctx slot => exact execStripLatch_canon ctx slot s h1
  | .stripDeadline ctx slot => exact execStripDeadline_canon ctx slot s h1
  | .displayRowEmit ctx slot => exact execDisplayRowEmit_canon ctx slot s h1
  | .reservationStopRequest ctx slot => exact execReservationStopRequest_canon ctx slot s h1
  | .scanoutWindowStart ctx slot => exact execScanoutWindowStart_canon ctx slot s h1
  | .scanoutWindowEnd ctx slot => exact execScanoutWindowEnd_canon ctx slot s h1
  | .peerFlitReplay port passes => exact execPeerFlitReplay_canon port passes s h1
  | .peerPortDown port => exact execPeerPortDown_canon port s h1
  | .hotspotThrottle core quad level => exact execHotspotThrottle_canon core quad level s h1
  | .launch => exact execLaunch_canon s h1
  | .relay => exact execRelay_canon s h1
  | .ctxload => exact execCtxload_canon s h1
  | .ctxupd => exact execCtxupd_canon s h1
  | .ctxsave => exact execCtxsave_canon s h1
  | .ctxres => exact execCtxres_canon s h1
  | .ctxdisc => exact execCtxdisc_canon s h1
  | .tlbinv => exact execTlbinv_canon s h1
  | .pipe => exact execPipe_canon s h1
  | .metadataExport => exact execMetadataExport_canon s h1
  | .metadataImport => exact execMetadataImport_canon s h1
  | .viewSetBind => exact execViewSetBind_canon s h1
  | .viewSetUnbind => exact execViewSetUnbind_canon s h1
  | .collective => exact execCollective_canon s h1
  | .viewSetStatus => exact execViewSetStatus_canon s h1
  | .rdmaWrite => exact execRdmaWrite_canon s h1
  | .rdmaRead => exact execRdmaRead_canon s h1
  | .peerRequest => exact execPeerRequest_canon s h1
  | .gazeFrame => exact execGazeFrame_canon s h1
  | .discoveryRequest => exact execDiscoveryRequest_canon s h1
  | .statusRequest => exact execStatusRequest_canon s h1
  | .attestationRequest => exact execAttestationRequest_canon s h1
  | .frameDropped => exact execFrameDropped_canon s h1
  | .claim => exact execClaim_canon s h1
  | .windowWrite => exact execWindowWrite_canon s h1
  | .commandQueueSetup => exact execCommandQueueSetup_canon s h1
  | .faultQueueSetup => exact execFaultQueueSetup_canon s h1
  | .nodeRange => exact execNodeRange_canon s h1
  | .contextRange => exact execContextRange_canon s h1
  | .destinations => exact execDestinations_canon s h1
  | .moduleNumber => exact execModuleNumber_canon s h1
  | .peerRoute => exact execPeerRoute_canon s h1
  | .peerPortRetrain => exact execPeerPortRetrain_canon s h1
  | .clearCounters => exact execClearCounters_canon s h1
  | .moduleReset => exact execModuleReset_canon s h1
  | .managementAuthFail => exact execManagementAuthFail_canon s h1
  | .placementPass => exact execPlacementPass_canon s h1
  | .ueReportPeriod => exact execUeReportPeriod_canon s h1
  | .faultQueueFramePeriod => exact execFaultQueueFramePeriod_canon s h1
  | .heartbeatPeriod => exact execHeartbeatPeriod_canon s h1
  | .resetNRise => exact execResetNRise_canon s h1
  | .resetNLow => exact execResetNLow_canon s h1
  | .pwrgoodRise => exact execPwrgoodRise_canon s h1
  | .pwrgoodFall => exact execPwrgoodFall_canon s h1
  | .thermalShutdown => exact execThermalShutdown_canon s h1
  | .bringUpStepEnd => exact execBringUpStepEnd_canon s h1
  | .bringUpStepTimeout => exact execBringUpStepTimeout_canon s h1
theorem State.reloadSheaf_canon (s : State) (key : Nat) (th : Thread) (g : Group) (h1 : s.Canon) : (State.reloadSheaf s key th g).Canon
    := by
  unfold State.reloadSheaf
  repeat' first
    | with_reducible assumption | with_reducible apply State.setThread_canon | with_reducible apply State.fetchBytes_canon
    | with_reducible apply State.awaitFetch_canon | with_reducible apply State.takeTraps_canon | split
    | (simp only [↓State.canon_mk_iff]; refine ⟨?_, ?_⟩) | with_reducible apply State.Canon.hbm | with_reducible apply State.Canon.scanout
theorem State.pick_canon (s : State) (h1 : s.Canon) : (CanonOpt (fun o => (CanonOut o)) (State.pick s)) := by
  unfold State.pick
  with_reducible repeat' first
    | assumption | apply State.setThread_canon | apply happen_canon | apply State.reloadSheaf_canon | apply canonOut_next | split
    | intro _ | (simp only [↓State.canon_mk_iff]; apply State.canon_parts) | dsimp only | apply canonOpt_map
theorem State.missFetch_canon (s : State) (vs : List Lane) (f : FetchStop) (h1 : s.Canon) : (State.missFetch s vs f).Canon := by
  unfold State.missFetch
  with_reducible repeat' first | assumption | apply State.awaitFetch_canon | apply State.tick_canon | apply canon_foldl | intro _
theorem State.fetchWord_canon (s : State) (v : Lane) (h1 : s.Canon) : (State.fetchWord s v).1.Canon := by
  unfold State.fetchWord
  with_reducible repeat' first | assumption | apply State.fetchBytes_canon
theorem State.issueNext_canon (s : State) (h1 : s.Canon) : (CanonOut (State.issueNext s)) := by
  unfold State.issueNext
  with_reducible repeat' first
    | assumption | apply State.fetchWord_canon | apply happen_canon | apply State.missFetch_canon | apply exec_canon
    | apply issueIllegal_canon | apply canonOut_fault | split | dsimp only
theorem State.tryEvent_canon (s : State) (i : Instr) (h1 : s.Canon) : (CanonOpt (fun o => (CanonOut o)) (State.tryEvent s i)) := by
  unfold State.tryEvent
  with_reducible repeat' first
    | assumption | apply exec_canon | apply canonOut_next | apply canonOpt_some | apply canonOpt_none | split
    | refine CanonOut.of (by assumption) ?_
theorem State.unbindClock_canon (s : State) (h1 : s.Canon) : (State.unbindClock s).Canon := h1
theorem State.tryUnbind_canon (s : State) (h1 : s.Canon) : (CanonOpt (fun o => (CanonOut o)) (State.tryUnbind s)) := by
  unfold State.tryUnbind
  with_reducible repeat' first
    | assumption | apply exec_canon | apply State.unbindClock_canon | intro _ | (simp only [↓State.canon_mk_iff]; apply State.canon_parts)
    | dsimp only | apply canonOpt_map
theorem State.nextEvent_canon (s : State) (h1 : s.Canon) : (CanonOpt (fun o => (CanonOut o)) (State.nextEvent s)) := by
  unfold State.nextEvent
  with_reducible repeat' first
    | assumption | apply State.tryUnbind_canon | apply State.tryEvent_canon | apply canonOpt_some | split | intro _
    | (simp only [↓State.canon_mk_iff]; apply State.canon_parts) | dsimp only | apply canonOpt_findSome
    | refine CanonOpt.of_out (by assumption) ?_
theorem State.proceed_canon (s : State) (h1 : s.Canon) : (CanonOut (State.proceed s)) := by
  unfold State.proceed
  repeat' first
    | with_reducible assumption | with_reducible apply State.pick_canon | with_reducible apply State.nextEvent_canon
    | with_reducible apply canonOut_next | split | (simp only [↓State.canon_mk_iff]; with_reducible apply State.canon_parts) | dsimp only
    | with_reducible apply canonOut_getD | refine CanonOpt.of_out (by assumption) ?_

end Sys2Proof.Machine
end

