-- ==== Sys2Proof/Laws/PerInstr.lean ====
section
/-!
SUPPORT. The family F: a well-formed word's own operation and fields name the constructor that the word was encoded from (R167).
-/
namespace Sys2Proof.Laws
open Machine

/-- R155, R167, R168: of a well-formed format F word the major opcode fits its seven bits, and the decoder's table, asked with
the word's own fields, answers the word's own constructor. -/
def F.Statement (i : Instr) : Prop :=
  ∀ r x, rowOf i = some (r, x) → wellFormed i = true → r.op < 128 ∧ ∃ k, ctorOf r.op x = some k ∧ k x = i

theorem F.of_none {i : Instr} (h : rowOf i = none) : F.Statement i := fun r x hr => by rw [h] at hr; exact absurd hr (by simp)

theorem F.of_row {i : Instr} {r : Row} {x : Fields} (hr : rowOf i = some (r, x)) (hop : Nat.blt r.op 128 = true)
    (hc : r.ok x = true → extraOk i = true → ∃ k, ctorOf r.op x = some k ∧ k x = i) : F.Statement i := by
  intro r' x' hr' hw
  rw [hr] at hr'
  simp only [Option.some.injEq, Prod.mk.injEq] at hr'
  obtain ⟨rfl, rfl⟩ := hr'
  unfold wellFormed legalWord at hw
  rw [hr] at hw
  simp only [Bool.and_eq_true] at hw
  exact ⟨by simpa using hop, hc hw.1.1 hw.2⟩

/-- What a row asks of the operation number and of M. -/
theorem F.row_fn {r : Row} {x : Fields} (h : r.ok x = true) : x.fn.toNat &&& (0xFF - r.fnMask) = r.fn ∧ r.ms.contains x.m.toNat = true := by
  unfold Row.ok at h
  simp only [Bool.and_eq_true, beq_iff_eq] at h
  exact ⟨h.1.1.1.1.1.1, h.1.2⟩

theorem F.low_bits {k f n j : Nat} (hk : k &&& (2 ^ j - 1) = 2 ^ j - 1) (h : f &&& k = n) : f % 2 ^ j = n % 2 ^ j := by
  rw [← Nat.and_two_pow_sub_one_eq_mod, ← Nat.and_two_pow_sub_one_eq_mod, ← h, Nat.and_assoc, hk]

theorem F.of_fn {i : Instr} {r : Row} {x : Fields} {mask : Nat} (hr : rowOf i = some (r, x)) (hop : Nat.blt r.op 128 = true)
    (hm : r.fnMask = mask) (hk : (0xFF - mask) &&& (2 ^ 6 - 1) = 2 ^ 6 - 1)
    (hc : x.fn.toNat % 64 = r.fn % 64 → ∃ k, ctorOf r.op x = some k ∧ k x = i) : F.Statement i :=
  F.of_row hr hop fun h _ => hc (F.low_bits (j := 6) hk (hm ▸ (F.row_fn h).1))

theorem F.of_fm {i : Instr} {r : Row} {x : Fields} {m mask : Nat} (hr : rowOf i = some (r, x)) (hop : Nat.blt r.op 128 = true)
    (hm : r.fnMask = mask) (hk : (0xFF - mask) &&& (2 ^ 6 - 1) = 2 ^ 6 - 1) (hs : r.ms = [m])
    (hc : x.fn.toNat % 64 = r.fn % 64 → x.m.toNat = m → ∃ k, ctorOf r.op x = some k ∧ k x = i) : F.Statement i :=
  F.of_row hr hop fun h _ => hc (F.low_bits (j := 6) hk (hm ▸ (F.row_fn h).1)) (by have := (F.row_fn h).2; rw [hs] at this; simpa using this)

theorem F.of_atom {i : Instr} {r : Row} {x : Fields} {mask : Nat} (hr : rowOf i = some (r, x)) (hop : Nat.blt r.op 128 = true)
    (hm : r.fnMask = mask) (hk : (0xFF - mask) &&& (2 ^ 5 - 1) = 2 ^ 5 - 1) (hd : extraOk i = true → (x.d != 48) = true)
    (hc : x.d ≠ 48 → x.fn.toNat % 32 = r.fn % 32 → ∃ k, ctorOf r.op x = some k ∧ k x = i) : F.Statement i :=
  F.of_row hr hop fun h e => hc (by simpa using hd e) (F.low_bits (j := 5) hk (hm ▸ (F.row_fn h).1))

theorem F.of_red {i : Instr} {r : Row} {x : Fields} {mask : Nat} (hr : rowOf i = some (r, x)) (hop : Nat.blt r.op 128 = true)
    (hm : r.fnMask = mask) (hk : (0xFF - mask) &&& (2 ^ 5 - 1) = 2 ^ 5 - 1) (hd : extraOk i = true → x.d = 48)
    (hc : x.d = 48 → x.fn.toNat % 32 = r.fn % 32 → ∃ k, ctorOf r.op x = some k ∧ k x = i) : F.Statement i :=
  F.of_row hr hop fun h e => hc (hd e) (F.low_bits (j := 5) hk (hm ▸ (F.row_fn h).1))

theorem F.red_d {x : Fields} {p : Bool} (h : (x.d == 48 && p) = true) : x.d = 48 := by
  simp only [Bool.and_eq_true, beq_iff_eq] at h
  exact h.1

theorem F.cvt_ctor (x : Fields) (h : extraOk (.cvt x) = true) : ctorOf 0x33 x = some .cvt := by
  simp only [extraOk, Bool.and_eq_true, Bool.not_eq_true'] at h
  show some (if x.imm.getLsbD 2 then _ else _) = _
  rw [h.2]; rfl

theorem F.cvtBs_ctor (x : Fields) (h : extraOk (.cvtBs x) = true) : ctorOf 0x33 x = some .cvtBs := by
  simp only [extraOk, Bool.and_eq_true] at h
  show some (if x.imm.getLsbD 2 then _ else _) = _
  rw [h.2]; rfl

theorem F.red_ctor (x : Fields) (h : extraOk (.red x) = true) : ctorOf 0x4B x = some .red := by
  simp only [extraOk, Bool.and_eq_true, decide_eq_true_eq, beq_iff_eq] at h
  have h16 : x.fn.toNat % 32 ≤ 13 := h.2
  show ctor4B x = _
  unfold ctor4B
  rw [if_pos h.1.1.1]
  split <;> first | omega | rfl

theorem F.iadd (x : Fields) : F.Statement (.iadd x) := F.of_fn (mask := 0xc0) rfl rfl rfl (by decide) fun h => ⟨_, by show ctor00 x = _; unfold ctor00; rw [h]; rfl, rfl⟩
theorem F.isub (x : Fields) : F.Statement (.isub x) := F.of_fn (mask := 0xc0) rfl rfl rfl (by decide) fun h => ⟨_, by show ctor00 x = _; unfold ctor00; rw [h]; rfl, rfl⟩
theorem F.iaddc (x : Fields) : F.Statement (.iaddc x) := F.of_fn (mask := 0x80) rfl rfl rfl (by decide) fun h => ⟨_, by show ctor00 x = _; unfold ctor00; rw [h]; rfl, rfl⟩
theorem F.ineg (x : Fields) : F.Statement (.ineg x) := F.of_fn (mask := 0x40) rfl rfl rfl (by decide) fun h => ⟨_, by show ctor00 x = _; unfold ctor00; rw [h]; rfl, rfl⟩
theorem F.iabs (x : Fields) : F.Statement (.iabs x) := F.of_fn (mask := 0x40) rfl rfl rfl (by decide) fun h => ⟨_, by show ctor00 x = _; unfold ctor00; rw [h]; rfl, rfl⟩
theorem F.imin (x : Fields) : F.Statement (.imin x) := F.of_fn (mask := 0x80) rfl rfl rfl (by decide) fun h => ⟨_, by show ctor00 x = _; unfold ctor00; rw [h]; rfl, rfl⟩
theorem F.imax (x : Fields) : F.Statement (.imax x) := F.of_fn (mask := 0x80) rfl rfl rfl (by decide) fun h => ⟨_, by show ctor00 x = _; unfold ctor00; rw [h]; rfl, rfl⟩
theorem F.imul (x : Fields) : F.Statement (.imul x) := F.of_fn (mask := 0xc0) rfl rfl rfl (by decide) fun h => ⟨_, by show ctor00 x = _; unfold ctor00; rw [h]; rfl, rfl⟩
theorem F.imulh (x : Fields) : F.Statement (.imulh x) := F.of_fn (mask := 0x80) rfl rfl rfl (by decide) fun h => ⟨_, by show ctor00 x = _; unfold ctor00; rw [h]; rfl, rfl⟩
theorem F.imad (x : Fields) : F.Statement (.imad x) := F.of_fn (mask := 0xc0) rfl rfl rfl (by decide) fun h => ⟨_, by show ctor00 x = _; unfold ctor00; rw [h]; rfl, rfl⟩
theorem F.imadw (x : Fields) : F.Statement (.imadw x) := F.of_fn (mask := 0xc0) rfl rfl rfl (by decide) fun h => ⟨_, by show ctor00 x = _; unfold ctor00; rw [h]; rfl, rfl⟩
theorem F.and (x : Fields) : F.Statement (.and x) := F.of_fn (mask := 0x80) rfl rfl rfl (by decide) fun h => ⟨_, by show ctor01 x = _; unfold ctor01; rw [h]; rfl, rfl⟩
theorem F.or (x : Fields) : F.Statement (.or x) := F.of_fn (mask := 0x80) rfl rfl rfl (by decide) fun h => ⟨_, by show ctor01 x = _; unfold ctor01; rw [h]; rfl, rfl⟩
theorem F.xor (x : Fields) : F.Statement (.xor x) := F.of_fn (mask := 0x80) rfl rfl rfl (by decide) fun h => ⟨_, by show ctor01 x = _; unfold ctor01; rw [h]; rfl, rfl⟩
theorem F.andn (x : Fields) : F.Statement (.andn x) := F.of_fn (mask := 0x80) rfl rfl rfl (by decide) fun h => ⟨_, by show ctor01 x = _; unfold ctor01; rw [h]; rfl, rfl⟩
theorem F.not (x : Fields) : F.Statement (.not x) := F.of_fn (mask := 0x0) rfl rfl rfl (by decide) fun h => ⟨_, by show ctor01 x = _; unfold ctor01; rw [h]; rfl, rfl⟩
theorem F.shl (x : Fields) : F.Statement (.shl x) := F.of_fn (mask := 0x80) rfl rfl rfl (by decide) fun h => ⟨_, by show ctor01 x = _; unfold ctor01; rw [h]; rfl, rfl⟩
theorem F.shr (x : Fields) : F.Statement (.shr x) := F.of_fn (mask := 0x80) rfl rfl rfl (by decide) fun h => ⟨_, by show ctor01 x = _; unfold ctor01; rw [h]; rfl, rfl⟩
theorem F.sar (x : Fields) : F.Statement (.sar x) := F.of_fn (mask := 0x80) rfl rfl rfl (by decide) fun h => ⟨_, by show ctor01 x = _; unfold ctor01; rw [h]; rfl, rfl⟩
theorem F.rot (x : Fields) : F.Statement (.rot x) := F.of_fn (mask := 0x80) rfl rfl rfl (by decide) fun h => ⟨_, by show ctor01 x = _; unfold ctor01; rw [h]; rfl, rfl⟩
theorem F.bfx (x : Fields) : F.Statement (.bfx x) := F.of_fn (mask := 0x80) rfl rfl rfl (by decide) fun h => ⟨_, by show ctor02 x = _; unfold ctor02; rw [h]; rfl, rfl⟩
theorem F.bfi (x : Fields) : F.Statement (.bfi x) := F.of_fn (mask := 0x80) rfl rfl rfl (by decide) fun h => ⟨_, by show ctor02 x = _; unfold ctor02; rw [h]; rfl, rfl⟩
theorem F.popc (x : Fields) : F.Statement (.popc x) := F.of_fn (mask := 0x0) rfl rfl rfl (by decide) fun h => ⟨_, by show ctor02 x = _; unfold ctor02; rw [h]; rfl, rfl⟩
theorem F.clz (x : Fields) : F.Statement (.clz x) := F.of_fn (mask := 0x0) rfl rfl rfl (by decide) fun h => ⟨_, by show ctor02 x = _; unfold ctor02; rw [h]; rfl, rfl⟩
theorem F.brev (x : Fields) : F.Statement (.brev x) := F.of_fn (mask := 0x0) rfl rfl rfl (by decide) fun h => ⟨_, by show ctor02 x = _; unfold ctor02; rw [h]; rfl, rfl⟩
theorem F.prmb (x : Fields) : F.Statement (.prmb x) := F.of_fn (mask := 0x0) rfl rfl rfl (by decide) fun h => ⟨_, by show ctor02 x = _; unfold ctor02; rw [h]; rfl, rfl⟩
theorem F.icmp (x : Fields) : F.Statement (.icmp x) := F.of_fn (mask := 0x80) rfl rfl rfl (by decide) fun h => ⟨_, by show ctor03 x = _; unfold ctor03; rw [h]; rfl, rfl⟩
theorem F.pset (x : Fields) : F.Statement (.pset x) := F.of_fn (mask := 0x0) rfl rfl rfl (by decide) fun h => ⟨_, by show ctor03 x = _; unfold ctor03; rw [h]; rfl, rfl⟩
theorem F.pmovR (x : Fields) : F.Statement (.pmovR x) := F.of_fn (mask := 0x0) rfl rfl rfl (by decide) fun h => ⟨_, by show ctor03 x = _; unfold ctor03; rw [h]; rfl, rfl⟩
theorem F.pmovP (x : Fields) : F.Statement (.pmovP x) := F.of_fn (mask := 0x0) rfl rfl rfl (by decide) fun h => ⟨_, by show ctor03 x = _; unfold ctor03; rw [h]; rfl, rfl⟩
theorem F.sel (x : Fields) : F.Statement (.sel x) := F.of_fn (mask := 0x80) rfl rfl rfl (by decide) fun h => ⟨_, by show ctor03 x = _; unfold ctor03; rw [h]; rfl, rfl⟩
theorem F.mov (x : Fields) : F.Statement (.mov x) := F.of_fn (mask := 0x0) rfl rfl rfl (by decide) fun h => ⟨_, by show ctor04 x = _; unfold ctor04; rw [h]; rfl, rfl⟩
theorem F.moviLo (x : Fields) : F.Statement (.moviLo x) := F.of_fm (mask := 0x0) rfl rfl rfl (by decide) rfl fun h m => ⟨_, by show ctor04 x = _; unfold ctor04; rw [h, m]; rfl, rfl⟩
theorem F.moviHi (x : Fields) : F.Statement (.moviHi x) := F.of_fm (mask := 0x0) rfl rfl rfl (by decide) rfl fun h m => ⟨_, by show ctor04 x = _; unfold ctor04; rw [h, m]; rfl, rfl⟩
theorem F.moviS (x : Fields) : F.Statement (.moviS x) := F.of_fm (mask := 0x0) rfl rfl rfl (by decide) rfl fun h m => ⟨_, by show ctor04 x = _; unfold ctor04; rw [h, m]; rfl, rfl⟩
theorem F.movk (x : Fields) : F.Statement (.movk x) := F.of_fn (mask := 0x0) rfl rfl rfl (by decide) fun h => ⟨_, by show ctor04 x = _; unfold ctor04; rw [h]; rfl, rfl⟩
theorem F.movx (x : Fields) : F.Statement (.movx x) := F.of_fn (mask := 0x0) rfl rfl rfl (by decide) fun h => ⟨_, by show ctor04 x = _; unfold ctor04; rw [h]; rfl, rfl⟩
theorem F.movxs (x : Fields) : F.Statement (.movxs x) := F.of_fn (mask := 0x0) rfl rfl rfl (by decide) fun h => ⟨_, by show ctor04 x = _; unfold ctor04; rw [h]; rfl, rfl⟩
theorem F.lea (x : Fields) : F.Statement (.lea x) := F.of_fn (mask := 0x0) rfl rfl rfl (by decide) fun h => ⟨_, by show ctor04 x = _; unfold ctor04; rw [h]; rfl, rfl⟩
theorem F.leaN (x : Fields) : F.Statement (.leaN x) := F.of_fn (mask := 0x0) rfl rfl rfl (by decide) fun h => ⟨_, by show ctor04 x = _; unfold ctor04; rw [h]; rfl, rfl⟩
theorem F.widf (x : Fields) : F.Statement (.widf x) := F.of_fn (mask := 0x0) rfl rfl rfl (by decide) fun h => ⟨_, by show ctor04 x = _; unfold ctor04; rw [h]; rfl, rfl⟩
theorem F.sysr (x : Fields) : F.Statement (.sysr x) := F.of_fn (mask := 0x0) rfl rfl rfl (by decide) fun h => ⟨_, by show ctor04 x = _; unfold ctor04; rw [h]; rfl, rfl⟩
theorem F.bra (x : Fields) : F.Statement (.bra x) := F.of_fn (mask := 0x0) rfl rfl rfl (by decide) fun h => ⟨_, by show ctor20 x = _; unfold ctor20; rw [h]; rfl, rfl⟩
theorem F.brx (x : Fields) : F.Statement (.brx x) := F.of_fn (mask := 0x0) rfl rfl rfl (by decide) fun h => ⟨_, by show ctor20 x = _; unfold ctor20; rw [h]; rfl, rfl⟩
theorem F.call (x : Fields) : F.Statement (.call x) := F.of_fn (mask := 0x0) rfl rfl rfl (by decide) fun h => ⟨_, by show ctor20 x = _; unfold ctor20; rw [h]; rfl, rfl⟩
theorem F.callx (x : Fields) : F.Statement (.callx x) := F.of_fn (mask := 0x0) rfl rfl rfl (by decide) fun h => ⟨_, by show ctor20 x = _; unfold ctor20; rw [h]; rfl, rfl⟩
theorem F.ret (x : Fields) : F.Statement (.ret x) := F.of_fn (mask := 0x0) rfl rfl rfl (by decide) fun h => ⟨_, by show ctor20 x = _; unfold ctor20; rw [h]; rfl, rfl⟩
theorem F.shfb (x : Fields) : F.Statement (.shfb x) := F.of_fn (mask := 0x0) rfl rfl rfl (by decide) fun h => ⟨_, by show ctor21 x = _; unfold ctor21; rw [h]; rfl, rfl⟩
theorem F.shfe (x : Fields) : F.Statement (.shfe x) := F.of_fn (mask := 0x0) rfl rfl rfl (by decide) fun h => ⟨_, by show ctor21 x = _; unfold ctor21; rw [h]; rfl, rfl⟩
theorem F.trap (x : Fields) : F.Statement (.trap x) := F.of_fn (mask := 0x0) rfl rfl rfl (by decide) fun h => ⟨_, by show ctor22 x = _; unfold ctor22; rw [h]; rfl, rfl⟩
theorem F.tret (x : Fields) : F.Statement (.tret x) := F.of_fm (mask := 0x0) rfl rfl rfl (by decide) rfl fun h m => ⟨_, by show ctor22 x = _; unfold ctor22; rw [h, m]; rfl, rfl⟩
theorem F.tretN (x : Fields) : F.Statement (.tretN x) := F.of_fm (mask := 0x0) rfl rfl rfl (by decide) rfl fun h m => ⟨_, by show ctor22 x = _; unfold ctor22; rw [h, m]; rfl, rfl⟩
theorem F.nop (x : Fields) : F.Statement (.nop x) := F.of_fn (mask := 0x0) rfl rfl rfl (by decide) fun h => ⟨_, by show ctor22 x = _; unfold ctor22; rw [h]; rfl, rfl⟩
theorem F.yield (x : Fields) : F.Statement (.yield x) := F.of_fn (mask := 0x0) rfl rfl rfl (by decide) fun h => ⟨_, by show ctor22 x = _; unfold ctor22; rw [h]; rfl, rfl⟩
theorem F.exit (x : Fields) : F.Statement (.exit x) := F.of_fn (mask := 0x0) rfl rfl rfl (by decide) fun h => ⟨_, by show ctor22 x = _; unfold ctor22; rw [h]; rfl, rfl⟩
theorem F.pulse (x : Fields) : F.Statement (.pulse x) := F.of_fn (mask := 0x0) rfl rfl rfl (by decide) fun h => ⟨_, by show ctor22 x = _; unfold ctor22; rw [h]; rfl, rfl⟩
theorem F.safept (x : Fields) : F.Statement (.safept x) := F.of_fn (mask := 0x0) rfl rfl rfl (by decide) fun h => ⟨_, by show ctor22 x = _; unfold ctor22; rw [h]; rfl, rfl⟩
theorem F.wspill (x : Fields) : F.Statement (.wspill x) := F.of_fn (mask := 0x0) rfl rfl rfl (by decide) fun h => ⟨_, by show ctor22 x = _; unfold ctor22; rw [h]; rfl, rfl⟩
theorem F.wfill (x : Fields) : F.Statement (.wfill x) := F.of_fn (mask := 0x0) rfl rfl rfl (by decide) fun h => ⟨_, by show ctor22 x = _; unfold ctor22; rw [h]; rfl, rfl⟩
theorem F.csrr (x : Fields) : F.Statement (.csrr x) := F.of_fn (mask := 0x0) rfl rfl rfl (by decide) fun h => ⟨_, by show ctor22 x = _; unfold ctor22; rw [h]; rfl, rfl⟩
theorem F.csrw (x : Fields) : F.Statement (.csrw x) := F.of_fn (mask := 0x0) rfl rfl rfl (by decide) fun h => ⟨_, by show ctor22 x = _; unfold ctor22; rw [h]; rfl, rfl⟩
theorem F.twnx (x : Fields) : F.Statement (.twnx x) := F.of_fn (mask := 0x0) rfl rfl rfl (by decide) fun h => ⟨_, by show ctor23 x = _; unfold ctor23; rw [h]; rfl, rfl⟩
theorem F.twlk (x : Fields) : F.Statement (.twlk x) := F.of_fn (mask := 0x0) rfl rfl rfl (by decide) fun h => ⟨_, by show ctor23 x = _; unfold ctor23; rw [h]; rfl, rfl⟩
theorem F.fadd (x : Fields) : F.Statement (.fadd x) := F.of_fn (mask := 0x80) rfl rfl rfl (by decide) fun h => ⟨_, by show ctor30 x = _; unfold ctor30; rw [h]; rfl, rfl⟩
theorem F.fsub (x : Fields) : F.Statement (.fsub x) := F.of_fn (mask := 0x80) rfl rfl rfl (by decide) fun h => ⟨_, by show ctor30 x = _; unfold ctor30; rw [h]; rfl, rfl⟩
theorem F.fmul (x : Fields) : F.Statement (.fmul x) := F.of_fn (mask := 0x80) rfl rfl rfl (by decide) fun h => ⟨_, by show ctor30 x = _; unfold ctor30; rw [h]; rfl, rfl⟩
theorem F.fma (x : Fields) : F.Statement (.fma x) := F.of_fn (mask := 0x80) rfl rfl rfl (by decide) fun h => ⟨_, by show ctor30 x = _; unfold ctor30; rw [h]; rfl, rfl⟩
theorem F.fmin (x : Fields) : F.Statement (.fmin x) := F.of_fn (mask := 0x80) rfl rfl rfl (by decide) fun h => ⟨_, by show ctor30 x = _; unfold ctor30; rw [h]; rfl, rfl⟩
theorem F.fmax (x : Fields) : F.Statement (.fmax x) := F.of_fn (mask := 0x80) rfl rfl rfl (by decide) fun h => ⟨_, by show ctor30 x = _; unfold ctor30; rw [h]; rfl, rfl⟩
theorem F.fminx (x : Fields) : F.Statement (.fminx x) := F.of_fn (mask := 0x80) rfl rfl rfl (by decide) fun h => ⟨_, by show ctor30 x = _; unfold ctor30; rw [h]; rfl, rfl⟩
theorem F.fmaxx (x : Fields) : F.Statement (.fmaxx x) := F.of_fn (mask := 0x80) rfl rfl rfl (by decide) fun h => ⟨_, by show ctor30 x = _; unfold ctor30; rw [h]; rfl, rfl⟩
theorem F.fabs (x : Fields) : F.Statement (.fabs x) := F.of_fn (mask := 0x0) rfl rfl rfl (by decide) fun h => ⟨_, by show ctor31 x = _; unfold ctor31; rw [h]; rfl, rfl⟩
theorem F.fneg (x : Fields) : F.Statement (.fneg x) := F.of_fn (mask := 0x0) rfl rfl rfl (by decide) fun h => ⟨_, by show ctor31 x = _; unfold ctor31; rw [h]; rfl, rfl⟩
theorem F.fclass (x : Fields) : F.Statement (.fclass x) := F.of_fn (mask := 0x0) rfl rfl rfl (by decide) fun h => ⟨_, by show ctor31 x = _; unfold ctor31; rw [h]; rfl, rfl⟩
theorem F.frnd (x : Fields) : F.Statement (.frnd x) := F.of_fn (mask := 0x80) rfl rfl rfl (by decide) fun h => ⟨_, by show ctor31 x = _; unfold ctor31; rw [h]; rfl, rfl⟩
theorem F.frcp (x : Fields) : F.Statement (.frcp x) := F.of_fn (mask := 0x80) rfl rfl rfl (by decide) fun h => ⟨_, by show ctor31 x = _; unfold ctor31; rw [h]; rfl, rfl⟩
theorem F.fsqrt (x : Fields) : F.Statement (.fsqrt x) := F.of_fn (mask := 0x80) rfl rfl rfl (by decide) fun h => ⟨_, by show ctor31 x = _; unfold ctor31; rw [h]; rfl, rfl⟩
theorem F.frsq (x : Fields) : F.Statement (.frsq x) := F.of_fn (mask := 0x80) rfl rfl rfl (by decide) fun h => ⟨_, by show ctor31 x = _; unfold ctor31; rw [h]; rfl, rfl⟩
theorem F.fexp2 (x : Fields) : F.Statement (.fexp2 x) := F.of_fn (mask := 0x80) rfl rfl rfl (by decide) fun h => ⟨_, by show ctor31 x = _; unfold ctor31; rw [h]; rfl, rfl⟩
theorem F.flog2 (x : Fields) : F.Statement (.flog2 x) := F.of_fn (mask := 0x80) rfl rfl rfl (by decide) fun h => ⟨_, by show ctor31 x = _; unfold ctor31; rw [h]; rfl, rfl⟩
theorem F.fsin (x : Fields) : F.Statement (.fsin x) := F.of_fn (mask := 0x80) rfl rfl rfl (by decide) fun h => ⟨_, by show ctor31 x = _; unfold ctor31; rw [h]; rfl, rfl⟩
theorem F.fcos (x : Fields) : F.Statement (.fcos x) := F.of_fn (mask := 0x80) rfl rfl rfl (by decide) fun h => ⟨_, by show ctor31 x = _; unfold ctor31; rw [h]; rfl, rfl⟩
theorem F.fcmp (x : Fields) : F.Statement (.fcmp x) := F.of_fn (mask := 0x80) rfl rfl rfl (by decide) fun h => ⟨_, by show ctor32 x = _; unfold ctor32; rw [h]; rfl, rfl⟩
theorem F.cvt (x : Fields) : F.Statement (.cvt x) := F.of_row rfl rfl fun _ e => ⟨_, F.cvt_ctor x e, rfl⟩
theorem F.cvtBs (x : Fields) : F.Statement (.cvtBs x) := F.of_row rfl rfl fun _ e => ⟨_, F.cvtBs_ctor x e, rfl⟩
theorem F.hadd2 (x : Fields) : F.Statement (.hadd2 x) := F.of_fn (mask := 0x40) rfl rfl rfl (by decide) fun h => ⟨_, by show ctor34 x = _; unfold ctor34; rw [h]; rfl, rfl⟩
theorem F.hsub2 (x : Fields) : F.Statement (.hsub2 x) := F.of_fn (mask := 0x40) rfl rfl rfl (by decide) fun h => ⟨_, by show ctor34 x = _; unfold ctor34; rw [h]; rfl, rfl⟩
theorem F.hmul2 (x : Fields) : F.Statement (.hmul2 x) := F.of_fn (mask := 0x40) rfl rfl rfl (by decide) fun h => ⟨_, by show ctor34 x = _; unfold ctor34; rw [h]; rfl, rfl⟩
theorem F.hfma2 (x : Fields) : F.Statement (.hfma2 x) := F.of_fn (mask := 0x40) rfl rfl rfl (by decide) fun h => ⟨_, by show ctor34 x = _; unfold ctor34; rw [h]; rfl, rfl⟩
theorem F.dot4 (x : Fields) : F.Statement (.dot4 x) := F.of_fn (mask := 0xc0) rfl rfl rfl (by decide) fun h => ⟨_, by show ctor35 x = _; unfold ctor35; rw [h]; rfl, rfl⟩
theorem F.dot8 (x : Fields) : F.Statement (.dot8 x) := F.of_fn (mask := 0xc0) rfl rfl rfl (by decide) fun h => ⟨_, by show ctor35 x = _; unfold ctor35; rw [h]; rfl, rfl⟩
theorem F.dot2h (x : Fields) : F.Statement (.dot2h x) := F.of_fn (mask := 0x40) rfl rfl rfl (by decide) fun h => ⟨_, by show ctor35 x = _; unfold ctor35; rw [h]; rfl, rfl⟩
theorem F.qsc (x : Fields) : F.Statement (.qsc x) := F.of_fn (mask := 0x0) rfl rfl rfl (by decide) fun h => ⟨_, by show ctor35 x = _; unfold ctor35; rw [h]; rfl, rfl⟩
theorem F.fkey (x : Fields) : F.Statement (.fkey x) := F.of_fn (mask := 0x0) rfl rfl rfl (by decide) fun h => ⟨_, by show ctor36 x = _; unfold ctor36; rw [h]; rfl, rfl⟩
theorem F.wnw (x : Fields) : F.Statement (.wnw x) := F.of_fn (mask := 0x0) rfl rfl rfl (by decide) fun h => ⟨_, by show ctor37 x = _; unfold ctor37; rw [h]; rfl, rfl⟩
theorem F.wnwCt (x : Fields) : F.Statement (.wnwCt x) := F.of_fn (mask := 0x0) rfl rfl rfl (by decide) fun h => ⟨_, by show ctor37 x = _; unfold ctor37; rw [h]; rfl, rfl⟩
theorem F.titheS (x : Fields) : F.Statement (.titheS x) := F.of_fn (mask := 0x0) rfl rfl rfl (by decide) fun h => ⟨_, by show ctor37 x = _; unfold ctor37; rw [h]; rfl, rfl⟩
theorem F.titheC (x : Fields) : F.Statement (.titheC x) := F.of_fn (mask := 0x0) rfl rfl rfl (by decide) fun h => ⟨_, by show ctor37 x = _; unfold ctor37; rw [h]; rfl, rfl⟩
theorem F.apxexp2 (x : Fields) : F.Statement (.apxexp2 x) := F.of_fn (mask := 0x0) rfl rfl rfl (by decide) fun h => ⟨_, by show ctor37 x = _; unfold ctor37; rw [h]; rfl, rfl⟩
theorem F.apxrcp (x : Fields) : F.Statement (.apxrcp x) := F.of_fn (mask := 0x0) rfl rfl rfl (by decide) fun h => ⟨_, by show ctor37 x = _; unfold ctor37; rw [h]; rfl, rfl⟩
theorem F.ld (x : Fields) : F.Statement (.ld x) := F.of_row rfl rfl fun _ _ => ⟨_, rfl, rfl⟩
theorem F.st (x : Fields) : F.Statement (.st x) := F.of_row rfl rfl fun _ _ => ⟨_, rfl, rfl⟩
theorem F.lds (x : Fields) : F.Statement (.lds x) := F.of_fn (mask := 0x40) rfl rfl rfl (by decide) fun h => ⟨_, by show ctor4A x = _; unfold ctor4A; rw [h]; rfl, rfl⟩
theorem F.sts (x : Fields) : F.Statement (.sts x) := F.of_fn (mask := 0x0) rfl rfl rfl (by decide) fun h => ⟨_, by show ctor4A x = _; unfold ctor4A; rw [h]; rfl, rfl⟩
theorem F.ldt (x : Fields) : F.Statement (.ldt x) := F.of_fn (mask := 0x40) rfl rfl rfl (by decide) fun h => ⟨_, by show ctor4A x = _; unfold ctor4A; rw [h]; rfl, rfl⟩
theorem F.ldk (x : Fields) : F.Statement (.ldk x) := F.of_fn (mask := 0x0) rfl rfl rfl (by decide) fun h => ⟨_, by show ctor4A x = _; unfold ctor4A; rw [h]; rfl, rfl⟩
theorem F.atomAdd (x : Fields) : F.Statement (.atomAdd x) := F.of_atom (mask := 0xe0) rfl rfl rfl (by decide) id fun d h => ⟨_, by show ctor4B x = _; unfold ctor4B; rw [if_neg d, h]; rfl, rfl⟩
theorem F.atomSub (x : Fields) : F.Statement (.atomSub x) := F.of_atom (mask := 0xe0) rfl rfl rfl (by decide) id fun d h => ⟨_, by show ctor4B x = _; unfold ctor4B; rw [if_neg d, h]; rfl, rfl⟩
theorem F.atomMinN (x : Fields) : F.Statement (.atomMinN x) := F.of_atom (mask := 0xe0) rfl rfl rfl (by decide) id fun d h => ⟨_, by show ctor4B x = _; unfold ctor4B; rw [if_neg d, h]; rfl, rfl⟩
theorem F.atomMaxN (x : Fields) : F.Statement (.atomMaxN x) := F.of_atom (mask := 0xe0) rfl rfl rfl (by decide) id fun d h => ⟨_, by show ctor4B x = _; unfold ctor4B; rw [if_neg d, h]; rfl, rfl⟩
theorem F.atomAnd (x : Fields) : F.Statement (.atomAnd x) := F.of_atom (mask := 0xe0) rfl rfl rfl (by decide) id fun d h => ⟨_, by show ctor4B x = _; unfold ctor4B; rw [if_neg d, h]; rfl, rfl⟩
theorem F.atomOr (x : Fields) : F.Statement (.atomOr x) := F.of_atom (mask := 0xe0) rfl rfl rfl (by decide) id fun d h => ⟨_, by show ctor4B x = _; unfold ctor4B; rw [if_neg d, h]; rfl, rfl⟩
theorem F.atomXor (x : Fields) : F.Statement (.atomXor x) := F.of_atom (mask := 0xe0) rfl rfl rfl (by decide) id fun d h => ⟨_, by show ctor4B x = _; unfold ctor4B; rw [if_neg d, h]; rfl, rfl⟩
theorem F.atomXchg (x : Fields) : F.Statement (.atomXchg x) := F.of_atom (mask := 0xe0) rfl rfl rfl (by decide) id fun d h => ⟨_, by show ctor4B x = _; unfold ctor4B; rw [if_neg d, h]; rfl, rfl⟩
theorem F.atomCas (x : Fields) : F.Statement (.atomCas x) := F.of_atom (mask := 0xe0) rfl rfl rfl (by decide) id fun d h => ⟨_, by show ctor4B x = _; unfold ctor4B; rw [if_neg d, h]; rfl, rfl⟩
theorem F.atomInc (x : Fields) : F.Statement (.atomInc x) := F.of_atom (mask := 0xe0) rfl rfl rfl (by decide) id fun d h => ⟨_, by show ctor4B x = _; unfold ctor4B; rw [if_neg d, h]; rfl, rfl⟩
theorem F.atomDec (x : Fields) : F.Statement (.atomDec x) := F.of_atom (mask := 0xe0) rfl rfl rfl (by decide) id fun d h => ⟨_, by show ctor4B x = _; unfold ctor4B; rw [if_neg d, h]; rfl, rfl⟩
theorem F.atomMinS (x : Fields) : F.Statement (.atomMinS x) := F.of_atom (mask := 0xe0) rfl rfl rfl (by decide) id fun d h => ⟨_, by show ctor4B x = _; unfold ctor4B; rw [if_neg d, h]; rfl, rfl⟩
theorem F.atomMaxS (x : Fields) : F.Statement (.atomMaxS x) := F.of_atom (mask := 0xe0) rfl rfl rfl (by decide) id fun d h => ⟨_, by show ctor4B x = _; unfold ctor4B; rw [if_neg d, h]; rfl, rfl⟩
theorem F.afadd (x : Fields) : F.Statement (.afadd x) := F.of_atom (mask := 0xe0) rfl rfl rfl (by decide) id fun d h => ⟨_, by show ctor4B x = _; unfold ctor4B; rw [if_neg d, h]; rfl, rfl⟩
theorem F.amxf (x : Fields) : F.Statement (.amxf x) := F.of_atom (mask := 0xc0) rfl rfl rfl (by decide) id fun d h => ⟨_, by show ctor4B x = _; unfold ctor4B; rw [if_neg d, h]; rfl, rfl⟩
theorem F.amxi (x : Fields) : F.Statement (.amxi x) := F.of_atom (mask := 0xc0) rfl rfl rfl (by decide) id fun d h => ⟨_, by show ctor4B x = _; unfold ctor4B; rw [if_neg d, show x.fn.toNat % 32 = 18 from h.trans (congrArg (· % 32) (rfl : _ = 50))]; rfl, rfl⟩
theorem F.red (x : Fields) : F.Statement (.red x) := F.of_row rfl rfl fun _ e => ⟨_, F.red_ctor x e, rfl⟩
theorem F.redFadd (x : Fields) : F.Statement (.redFadd x) := F.of_red (mask := 0xe0) rfl rfl rfl (by decide) F.red_d fun d h => ⟨_, by show ctor4B x = _; unfold ctor4B; rw [if_pos d, h]; rfl, rfl⟩
theorem F.redAmxf (x : Fields) : F.Statement (.redAmxf x) := F.of_red (mask := 0xc0) rfl rfl rfl (by decide) F.red_d fun d h => ⟨_, by show ctor4B x = _; unfold ctor4B; rw [if_pos d, h]; rfl, rfl⟩
theorem F.redAmxi (x : Fields) : F.Statement (.redAmxi x) := F.of_red (mask := 0xc0) rfl rfl rfl (by decide) F.red_d fun d h => ⟨_, by show ctor4B x = _; unfold ctor4B; rw [if_pos d, show x.fn.toNat % 32 = 18 from h.trans (congrArg (· % 32) (rfl : _ = 50))]; rfl, rfl⟩
theorem F.fence (x : Fields) : F.Statement (.fence x) := F.of_fn (mask := 0x0) rfl rfl rfl (by decide) fun h => ⟨_, by show ctor4C x = _; unfold ctor4C; rw [h]; rfl, rfl⟩
theorem F.pref (x : Fields) : F.Statement (.pref x) := F.of_fn (mask := 0xc0) rfl rfl rfl (by decide) fun h => ⟨_, by show ctor4C x = _; unfold ctor4C; rw [h]; rfl, rfl⟩
theorem F.evict (x : Fields) : F.Statement (.evict x) := F.of_fn (mask := 0xc0) rfl rfl rfl (by decide) fun h => ⟨_, by show ctor4C x = _; unfold ctor4C; rw [h]; rfl, rfl⟩
theorem F.bcpG2s (x : Fields) : F.Statement (.bcpG2s x) := F.of_fm (mask := 0x0) rfl rfl rfl (by decide) rfl fun h m => ⟨_, by show ctor60 x = _; unfold ctor60; rw [h, m]; rfl, rfl⟩
theorem F.bcpS2g (x : Fields) : F.Statement (.bcpS2g x) := F.of_fm (mask := 0x0) rfl rfl rfl (by decide) rfl fun h m => ⟨_, by show ctor60 x = _; unfold ctor60; rw [h, m]; rfl, rfl⟩
theorem F.bcpS2s (x : Fields) : F.Statement (.bcpS2s x) := F.of_fm (mask := 0x0) rfl rfl rfl (by decide) rfl fun h m => ⟨_, by show ctor60 x = _; unfold ctor60; rw [h, m]; rfl, rfl⟩
theorem F.bcps (x : Fields) : F.Statement (.bcps x) := F.of_fn (mask := 0x0) rfl rfl rfl (by decide) fun h => ⟨_, by show ctor60 x = _; unfold ctor60; rw [h]; rfl, rfl⟩
theorem F.bcpq (x : Fields) : F.Statement (.bcpq x) := F.of_fn (mask := 0x0) rfl rfl rfl (by decide) fun h => ⟨_, by show ctor60 x = _; unfold ctor60; rw [h]; rfl, rfl⟩
theorem F.bcpm (x : Fields) : F.Statement (.bcpm x) := F.of_fn (mask := 0x0) rfl rfl rfl (by decide) fun h => ⟨_, by show ctor60 x = _; unfold ctor60; rw [h]; rfl, rfl⟩
theorem F.bcpUnpk4s (x : Fields) : F.Statement (.bcpUnpk4s x) := F.of_fn (mask := 0x0) rfl rfl rfl (by decide) fun h => ⟨_, by show ctor60 x = _; unfold ctor60; rw [h]; rfl, rfl⟩
theorem F.bcpUnpk4f (x : Fields) : F.Statement (.bcpUnpk4f x) := F.of_fn (mask := 0x0) rfl rfl rfl (by decide) fun h => ⟨_, by show ctor60 x = _; unfold ctor60; rw [h]; rfl, rfl⟩
theorem F.bcpUnpk8s (x : Fields) : F.Statement (.bcpUnpk8s x) := F.of_fn (mask := 0x0) rfl rfl rfl (by decide) fun h => ⟨_, by show ctor60 x = _; unfold ctor60; rw [h]; rfl, rfl⟩
theorem F.bcpUnpk8f (x : Fields) : F.Statement (.bcpUnpk8f x) := F.of_fn (mask := 0x0) rfl rfl rfl (by decide) fun h => ⟨_, by show ctor60 x = _; unfold ctor60; rw [h]; rfl, rfl⟩
theorem F.qdef (x : Fields) : F.Statement (.qdef x) := F.of_fn (mask := 0x0) rfl rfl rfl (by decide) fun h => ⟨_, by show ctor61 x = _; unfold ctor61; rw [h]; rfl, rfl⟩
theorem F.qpopE (x : Fields) : F.Statement (.qpopE x) := F.of_fn (mask := 0x0) rfl rfl rfl (by decide) fun h => ⟨_, by show ctor61 x = _; unfold ctor61; rw [h]; rfl, rfl⟩
theorem F.qpopF (x : Fields) : F.Statement (.qpopF x) := F.of_fn (mask := 0x0) rfl rfl rfl (by decide) fun h => ⟨_, by show ctor61 x = _; unfold ctor61; rw [h]; rfl, rfl⟩
theorem F.qpushF (x : Fields) : F.Statement (.qpushF x) := F.of_fn (mask := 0x0) rfl rfl rfl (by decide) fun h => ⟨_, by show ctor61 x = _; unfold ctor61; rw [h]; rfl, rfl⟩
theorem F.qpushE (x : Fields) : F.Statement (.qpushE x) := F.of_fn (mask := 0x0) rfl rfl rfl (by decide) fun h => ⟨_, by show ctor61 x = _; unfold ctor61; rw [h]; rfl, rfl⟩
theorem F.qstat (x : Fields) : F.Statement (.qstat x) := F.of_fn (mask := 0x0) rfl rfl rfl (by decide) fun h => ⟨_, by show ctor61 x = _; unfold ctor61; rw [h]; rfl, rfl⟩
theorem F.send (x : Fields) : F.Statement (.send x) := F.of_fn (mask := 0x0) rfl rfl rfl (by decide) fun h => ⟨_, by show ctor62 x = _; unfold ctor62; rw [h]; rfl, rfl⟩
theorem F.recv (x : Fields) : F.Statement (.recv x) := F.of_fn (mask := 0x0) rfl rfl rfl (by decide) fun h => ⟨_, by show ctor62 x = _; unfold ctor62; rw [h]; rfl, rfl⟩
theorem F.recvw (x : Fields) : F.Statement (.recvw x) := F.of_fn (mask := 0x0) rfl rfl rfl (by decide) fun h => ⟨_, by show ctor62 x = _; unfold ctor62; rw [h]; rfl, rfl⟩
theorem F.tcw (x : Fields) : F.Statement (.tcw x) := F.of_fn (mask := 0x0) rfl rfl rfl (by decide) fun h => ⟨_, by show ctor63 x = _; unfold ctor63; rw [h]; rfl, rfl⟩
theorem F.tcwT (x : Fields) : F.Statement (.tcwT x) := F.of_fn (mask := 0x0) rfl rfl rfl (by decide) fun h => ⟨_, by show ctor63 x = _; unfold ctor63; rw [h]; rfl, rfl⟩
theorem F.tlw (x : Fields) : F.Statement (.tlw x) := F.of_fn (mask := 0x0) rfl rfl rfl (by decide) fun h => ⟨_, by show ctor63 x = _; unfold ctor63; rw [h]; rfl, rfl⟩
theorem F.tlwT (x : Fields) : F.Statement (.tlwT x) := F.of_fn (mask := 0x0) rfl rfl rfl (by decide) fun h => ⟨_, by show ctor63 x = _; unfold ctor63; rw [h]; rfl, rfl⟩
theorem F.tladv (x : Fields) : F.Statement (.tladv x) := F.of_fn (mask := 0x0) rfl rfl rfl (by decide) fun h => ⟨_, by show ctor63 x = _; unfold ctor63; rw [h]; rfl, rfl⟩
theorem F.bari (x : Fields) : F.Statement (.bari x) := F.of_fn (mask := 0x0) rfl rfl rfl (by decide) fun h => ⟨_, by show ctor64 x = _; unfold ctor64; rw [h]; rfl, rfl⟩
theorem F.bara (x : Fields) : F.Statement (.bara x) := F.of_fn (mask := 0x0) rfl rfl rfl (by decide) fun h => ⟨_, by show ctor64 x = _; unfold ctor64; rw [h]; rfl, rfl⟩
theorem F.barw (x : Fields) : F.Statement (.barw x) := F.of_fn (mask := 0x0) rfl rfl rfl (by decide) fun h => ⟨_, by show ctor64 x = _; unfold ctor64; rw [h]; rfl, rfl⟩
theorem F.coll (x : Fields) : F.Statement (.coll x) := F.of_fn (mask := 0x0) rfl rfl rfl (by decide) fun h => ⟨_, by show ctor65 x = _; unfold ctor65; rw [h]; rfl, rfl⟩
theorem F.cvdef (x : Fields) : F.Statement (.cvdef x) := F.of_fn (mask := 0x0) rfl rfl rfl (by decide) fun h => ⟨_, by show ctor70 x = _; unfold ctor70; rw [h]; rfl, rfl⟩
theorem F.mmaR (x : Fields) : F.Statement (.mmaR x) := F.of_fn (mask := 0x0) rfl rfl rfl (by decide) fun h => ⟨_, by show ctor70 x = _; unfold ctor70; rw [h]; rfl, rfl⟩
theorem F.mmaS (x : Fields) : F.Statement (.mmaS x) := F.of_fn (mask := 0x0) rfl rfl rfl (by decide) fun h => ⟨_, by show ctor70 x = _; unfold ctor70; rw [h]; rfl, rfl⟩
theorem F.mmaPR (x : Fields) : F.Statement (.mmaPR x) := F.of_fn (mask := 0x0) rfl rfl rfl (by decide) fun h => ⟨_, by show ctor70 x = _; unfold ctor70; rw [h]; rfl, rfl⟩
theorem F.mmaPS (x : Fields) : F.Statement (.mmaPS x) := F.of_fn (mask := 0x0) rfl rfl rfl (by decide) fun h => ⟨_, by show ctor70 x = _; unfold ctor70; rw [h]; rfl, rfl⟩
theorem F.mmaz (x : Fields) : F.Statement (.mmaz x) := F.of_fn (mask := 0x0) rfl rfl rfl (by decide) fun h => ⟨_, by show ctor71 x = _; unfold ctor71; rw [h]; rfl, rfl⟩
theorem F.maccr (x : Fields) : F.Statement (.maccr x) := F.of_fn (mask := 0x0) rfl rfl rfl (by decide) fun h => ⟨_, by show ctor71 x = _; unfold ctor71; rw [h]; rfl, rfl⟩
theorem F.maccw (x : Fields) : F.Statement (.maccw x) := F.of_fn (mask := 0x0) rfl rfl rfl (by decide) fun h => ⟨_, by show ctor71 x = _; unfold ctor71; rw [h]; rfl, rfl⟩
theorem F.maccl (x : Fields) : F.Statement (.maccl x) := F.of_fn (mask := 0x0) rfl rfl rfl (by decide) fun h => ⟨_, by show ctor71 x = _; unfold ctor71; rw [h]; rfl, rfl⟩
theorem F.maccs (x : Fields) : F.Statement (.maccs x) := F.of_fn (mask := 0x0) rfl rfl rfl (by decide) fun h => ⟨_, by show ctor71 x = _; unfold ctor71; rw [h]; rfl, rfl⟩
theorem F.mscl (x : Fields) : F.Statement (.mscl x) := F.of_fn (mask := 0x0) rfl rfl rfl (by decide) fun h => ⟨_, by show ctor72 x = _; unfold ctor72; rw [h]; rfl, rfl⟩
theorem F.mqnt (x : Fields) : F.Statement (.mqnt x) := F.of_fn (mask := 0x0) rfl rfl rfl (by decide) fun h => ⟨_, by show ctor72 x = _; unfold ctor72; rw [h]; rfl, rfl⟩
theorem F.mamax (x : Fields) : F.Statement (.mamax x) := F.of_fn (mask := 0x0) rfl rfl rfl (by decide) fun h => ⟨_, by show ctor72 x = _; unfold ctor72; rw [h]; rfl, rfl⟩
theorem F.mvtx (x : Fields) : F.Statement (.mvtx x) := F.of_fn (mask := 0x0) rfl rfl rfl (by decide) fun h => ⟨_, by show ctor78 x = _; unfold ctor78; rw [h]; rfl, rfl⟩
theorem F.mprim (x : Fields) : F.Statement (.mprim x) := F.of_fn (mask := 0x0) rfl rfl rfl (by decide) fun h => ⟨_, by show ctor78 x = _; unfold ctor78; rw [h]; rfl, rfl⟩
theorem F.memit (x : Fields) : F.Statement (.memit x) := F.of_fn (mask := 0x0) rfl rfl rfl (by decide) fun h => ⟨_, by show ctor78 x = _; unfold ctor78; rw [h]; rfl, rfl⟩
theorem F.vamp (x : Fields) : F.Statement (.vamp x) := F.of_fn (mask := 0x0) rfl rfl rfl (by decide) fun h => ⟨_, by show ctor79 x = _; unfold ctor79; rw [h]; rfl, rfl⟩
theorem F.vwarpX (x : Fields) : F.Statement (.vwarpX x) := F.of_fm (mask := 0x0) rfl rfl rfl (by decide) rfl fun h m => ⟨_, by show ctor79 x = _; unfold ctor79; rw [h, m]; rfl, rfl⟩
theorem F.vwarpY (x : Fields) : F.Statement (.vwarpY x) := F.of_fm (mask := 0x0) rfl rfl rfl (by decide) rfl fun h m => ⟨_, by show ctor79 x = _; unfold ctor79; rw [h, m]; rfl, rfl⟩
theorem F.gzlt (x : Fields) : F.Statement (.gzlt x) := F.of_fn (mask := 0x0) rfl rfl rfl (by decide) fun h => ⟨_, by show ctor79 x = _; unfold ctor79; rw [h]; rfl, rfl⟩
theorem F.smpl (x : Fields) : F.Statement (.smpl x) := F.of_fn (mask := 0x0) rfl rfl rfl (by decide) fun h => ⟨_, by show ctor79 x = _; unfold ctor79; rw [h]; rfl, rfl⟩
theorem F.tileo (x : Fields) : F.Statement (.tileo x) := F.of_fn (mask := 0x0) rfl rfl rfl (by decide) fun h => ⟨_, by show ctor7A x = _; unfold ctor7A; rw [h]; rfl, rfl⟩
theorem F.lens (x : Fields) : F.Statement (.lens x) := F.of_fn (mask := 0x0) rfl rfl rfl (by decide) fun h => ⟨_, by show ctor7A x = _; unfold ctor7A; rw [h]; rfl, rfl⟩
theorem F.serq (x : Fields) : F.Statement (.serq x) := F.of_fn (mask := 0x0) rfl rfl rfl (by decide) fun h => ⟨_, by show ctor7A x = _; unfold ctor7A; rw [h]; rfl, rfl⟩
theorem F.texB (x : Fields) : F.Statement (.texB x) := F.of_fm (mask := 0x0) rfl rfl rfl (by decide) rfl fun h m => ⟨_, by show ctor7B x = _; unfold ctor7B; rw [h, m]; rfl, rfl⟩
theorem F.texT (x : Fields) : F.Statement (.texT x) := F.of_fm (mask := 0x0) rfl rfl rfl (by decide) rfl fun h m => ⟨_, by show ctor7B x = _; unfold ctor7B; rw [h, m]; rfl, rfl⟩
theorem F.texA (x : Fields) : F.Statement (.texA x) := F.of_fm (mask := 0x0) rfl rfl rfl (by decide) rfl fun h m => ⟨_, by show ctor7B x = _; unfold ctor7B; rw [h, m]; rfl, rfl⟩
theorem F.texg (x : Fields) : F.Statement (.texg x) := F.of_fn (mask := 0x0) rfl rfl rfl (by decide) fun h => ⟨_, by show ctor7B x = _; unfold ctor7B; rw [h]; rfl, rfl⟩
theorem F.texq (x : Fields) : F.Statement (.texq x) := F.of_fn (mask := 0x0) rfl rfl rfl (by decide) fun h => ⟨_, by show ctor7B x = _; unfold ctor7B; rw [h]; rfl, rfl⟩
theorem F.ryl (x : Fields) : F.Statement (.ryl x) := F.of_fn (mask := 0x0) rfl rfl rfl (by decide) fun h => ⟨_, by show ctor7C x = _; unfold ctor7C; rw [h]; rfl, rfl⟩
theorem F.rylV (x : Fields) : F.Statement (.rylV x) := F.of_fn (mask := 0x0) rfl rfl rfl (by decide) fun h => ⟨_, by show ctor7C x = _; unfold ctor7C; rw [h]; rfl, rfl⟩
theorem F.ryt (x : Fields) : F.Statement (.ryt x) := F.of_fn (mask := 0x0) rfl rfl rfl (by decide) fun h => ⟨_, by show ctor7C x = _; unfold ctor7C; rw [h]; rfl, rfl⟩
theorem F.ryrM (x : Fields) : F.Statement (.ryrM x) := F.of_fm (mask := 0x0) rfl rfl rfl (by decide) rfl fun h m => ⟨_, by show ctor7C x = _; unfold ctor7C; rw [h, m]; rfl, rfl⟩
theorem F.ryrH (x : Fields) : F.Statement (.ryrH x) := F.of_fm (mask := 0x0) rfl rfl rfl (by decide) rfl fun h m => ⟨_, by show ctor7C x = _; unfold ctor7C; rw [h, m]; rfl, rfl⟩
theorem F.rys (x : Fields) : F.Statement (.rys x) := F.of_fn (mask := 0x0) rfl rfl rfl (by decide) fun h => ⟨_, by show ctor7C x = _; unfold ctor7C; rw [h]; rfl, rfl⟩
theorem F.ryh (x : Fields) : F.Statement (.ryh x) := F.of_fn (mask := 0x0) rfl rfl rfl (by decide) fun h => ⟨_, by show ctor7C x = _; unfold ctor7C; rw [h]; rfl, rfl⟩
theorem F.ryx (x : Fields) : F.Statement (.ryx x) := F.of_fn (mask := 0x0) rfl rfl rfl (by decide) fun h => ⟨_, by show ctor7C x = _; unfold ctor7C; rw [h]; rfl, rfl⟩
theorem F.pairWord (p q : Slot) : F.Statement (.pairWord p q) := F.of_none rfl
theorem F.twnxAnswer (thread : Nat) : F.Statement (.twnxAnswer thread) := F.of_none rfl
theorem F.loadDataReturn (op : Nat) (peerData : List Byte) : F.Statement (.loadDataReturn op peerData) := F.of_none rfl
theorem F.writeQueueApply (line : Nat) : F.Statement (.writeQueueApply line) := F.of_none rfl
theorem F.bcpqSlotTaken (op : Nat) : F.Statement (.bcpqSlotTaken op) := F.of_none rfl
theorem F.copyCompletion (op : Nat) : F.Statement (.copyCompletion op) := F.of_none rfl
theorem F.bcpmCompletion (op : Nat) : F.Statement (.bcpmCompletion op) := F.of_none rfl
theorem F.blockedPopRelease (thread : Nat) : F.Statement (.blockedPopRelease thread) := F.of_none rfl
theorem F.messageArrival (msg : Nat) : F.Statement (.messageArrival msg) := F.of_none rfl
theorem F.tlwChangeNoticed (thread : Nat) : F.Statement (.tlwChangeNoticed thread) := F.of_none rfl
theorem F.mmaSetCompletion (op : Nat) : F.Statement (.mmaSetCompletion op) := F.of_none rfl
theorem F.accOpCompletion (op : Nat) : F.Statement (.accOpCompletion op) := F.of_none rfl
theorem F.amplifyProject (core : Nat) : F.Statement (.amplifyProject core) := F.of_none rfl
theorem F.rasterTest (die : Nat) : F.Statement (.rasterTest die) := F.of_none rfl
theorem F.coverageDelivery (die : Nat) : F.Statement (.coverageDelivery die) := F.of_none rfl
theorem F.tileWriteCompletion (op : Nat) : F.Statement (.tileWriteCompletion op) := F.of_none rfl
theorem F.traversalCompletion (op : Nat) : F.Statement (.traversalCompletion op) := F.of_none rfl
theorem F.translationMiss (die : Nat) : F.Statement (.translationMiss die) := F.of_none rfl
theorem F.walkCompletion (walk : Nat) : F.Statement (.walkCompletion walk) := F.of_none rfl
theorem F.bridgeFlitRetry (passes : Bool) : F.Statement (.bridgeFlitRetry passes) := F.of_none rfl
theorem F.scanoutBurstRetry (ctx slot : Nat) (failedRetries : Nat) : F.Statement (.scanoutBurstRetry ctx slot failedRetries) := F.of_none rfl
theorem F.portGuardPeriod (core beats : Nat) : F.Statement (.portGuardPeriod core beats) := F.of_none rfl
theorem F.patrolScrub (core word : Nat) (find : ScrubFind) : F.Statement (.patrolScrub core word find) := F.of_none rfl
theorem F.thresherIssue (core : Nat) : F.Statement (.thresherIssue core) := F.of_none rfl
theorem F.groupCompletion (group : Nat) : F.Statement (.groupCompletion group) := F.of_none rfl
theorem F.threadDrainEnd (thread : Nat) : F.Statement (.threadDrainEnd thread) := F.of_none rfl
theorem F.widxNotice (tenant queue : Nat) : F.Statement (.widxNotice tenant queue) := F.of_none rfl
theorem F.launchCompletion (launch : Nat) : F.Statement (.launchCompletion launch) := F.of_none rfl
theorem F.tlbinvCompletion (ctx : Nat) : F.Statement (.tlbinvCompletion ctx) := F.of_none rfl
theorem F.collectiveCompletion (op : Nat) (peerInputs : List (List Byte)) : F.Statement (.collectiveCompletion op peerInputs) := F.of_none rfl
theorem F.balancePeriod (ctx slot : Nat) : F.Statement (.balancePeriod ctx slot) := F.of_none rfl
theorem F.safePointSave (ctx : Nat) : F.Statement (.safePointSave ctx) := F.of_none rfl
theorem F.forcedSave (ctx : Nat) : F.Statement (.forcedSave ctx) := F.of_none rfl
theorem F.saveCompletion (ctx : Nat) : F.Statement (.saveCompletion ctx) := F.of_none rfl
theorem F.restoreCompletion (ctx : Nat) : F.Statement (.restoreCompletion ctx) := F.of_none rfl
theorem F.watchdogFire (ctx : Nat) : F.Statement (.watchdogFire ctx) := F.of_none rfl
theorem F.lateErrorTrap (thread : Nat) : F.Statement (.lateErrorTrap thread) := F.of_none rfl
theorem F.faultRecordWrite (tenant : Nat) : F.Statement (.faultRecordWrite tenant) := F.of_none rfl
theorem F.faultRidxNotice (tenant : Nat) : F.Statement (.faultRidxNotice tenant) := F.of_none rfl
theorem F.rsmNotice (tenant : Nat) : F.Statement (.rsmNotice tenant) := F.of_none rfl
theorem F.selfTestEnd (core : Nat) (pass : Bool) : F.Statement (.selfTestEnd core pass) := F.of_none rfl
theorem F.replayDivergence (ctx : Nat) : F.Statement (.replayDivergence ctx) := F.of_none rfl
theorem F.stripLatch (ctx slot : Nat) : F.Statement (.stripLatch ctx slot) := F.of_none rfl
theorem F.stripDeadline (ctx slot : Nat) : F.Statement (.stripDeadline ctx slot) := F.of_none rfl
theorem F.displayRowEmit (ctx slot : Nat) : F.Statement (.displayRowEmit ctx slot) := F.of_none rfl
theorem F.reservationStopRequest (ctx slot : Nat) : F.Statement (.reservationStopRequest ctx slot) := F.of_none rfl
theorem F.scanoutWindowStart (ctx slot : Nat) : F.Statement (.scanoutWindowStart ctx slot) := F.of_none rfl
theorem F.scanoutWindowEnd (ctx slot : Nat) : F.Statement (.scanoutWindowEnd ctx slot) := F.of_none rfl
theorem F.peerFlitReplay (port : Nat) (passes : Bool) : F.Statement (.peerFlitReplay port passes) := F.of_none rfl
theorem F.peerPortDown (port : Nat) : F.Statement (.peerPortDown port) := F.of_none rfl
theorem F.hotspotThrottle (core quad level : Nat) : F.Statement (.hotspotThrottle core quad level) := F.of_none rfl
theorem F.launch : F.Statement .launch := F.of_none rfl
theorem F.relay : F.Statement .relay := F.of_none rfl
theorem F.ctxload : F.Statement .ctxload := F.of_none rfl
theorem F.ctxupd : F.Statement .ctxupd := F.of_none rfl
theorem F.ctxsave : F.Statement .ctxsave := F.of_none rfl
theorem F.ctxres : F.Statement .ctxres := F.of_none rfl
theorem F.ctxdisc : F.Statement .ctxdisc := F.of_none rfl
theorem F.tlbinv : F.Statement .tlbinv := F.of_none rfl
theorem F.pipe : F.Statement .pipe := F.of_none rfl
theorem F.metadataExport : F.Statement .metadataExport := F.of_none rfl
theorem F.metadataImport : F.Statement .metadataImport := F.of_none rfl
theorem F.viewSetBind : F.Statement .viewSetBind := F.of_none rfl
theorem F.viewSetUnbind : F.Statement .viewSetUnbind := F.of_none rfl
theorem F.collective : F.Statement .collective := F.of_none rfl
theorem F.viewSetStatus : F.Statement .viewSetStatus := F.of_none rfl
theorem F.rdmaWrite : F.Statement .rdmaWrite := F.of_none rfl
theorem F.rdmaRead : F.Statement .rdmaRead := F.of_none rfl
theorem F.peerRequest : F.Statement .peerRequest := F.of_none rfl
theorem F.gazeFrame : F.Statement .gazeFrame := F.of_none rfl
theorem F.discoveryRequest : F.Statement .discoveryRequest := F.of_none rfl
theorem F.statusRequest : F.Statement .statusRequest := F.of_none rfl
theorem F.attestationRequest : F.Statement .attestationRequest := F.of_none rfl
theorem F.frameDropped : F.Statement .frameDropped := F.of_none rfl
theorem F.claim : F.Statement .claim := F.of_none rfl
theorem F.windowWrite : F.Statement .windowWrite := F.of_none rfl
theorem F.commandQueueSetup : F.Statement .commandQueueSetup := F.of_none rfl
theorem F.faultQueueSetup : F.Statement .faultQueueSetup := F.of_none rfl
theorem F.nodeRange : F.Statement .nodeRange := F.of_none rfl
theorem F.contextRange : F.Statement .contextRange := F.of_none rfl
theorem F.destinations : F.Statement .destinations := F.of_none rfl
theorem F.moduleNumber : F.Statement .moduleNumber := F.of_none rfl
theorem F.peerRoute : F.Statement .peerRoute := F.of_none rfl
theorem F.peerPortRetrain : F.Statement .peerPortRetrain := F.of_none rfl
theorem F.clearCounters : F.Statement .clearCounters := F.of_none rfl
theorem F.moduleReset : F.Statement .moduleReset := F.of_none rfl
theorem F.managementAuthFail : F.Statement .managementAuthFail := F.of_none rfl
theorem F.placementPass : F.Statement .placementPass := F.of_none rfl
theorem F.ueReportPeriod : F.Statement .ueReportPeriod := F.of_none rfl
theorem F.faultQueueFramePeriod : F.Statement .faultQueueFramePeriod := F.of_none rfl
theorem F.heartbeatPeriod : F.Statement .heartbeatPeriod := F.of_none rfl
theorem F.resetNRise : F.Statement .resetNRise := F.of_none rfl
theorem F.resetNLow : F.Statement .resetNLow := F.of_none rfl
theorem F.pwrgoodRise : F.Statement .pwrgoodRise := F.of_none rfl
theorem F.pwrgoodFall : F.Statement .pwrgoodFall := F.of_none rfl
theorem F.thermalShutdown : F.Statement .thermalShutdown := F.of_none rfl
theorem F.bringUpStepEnd : F.Statement .bringUpStepEnd := F.of_none rfl
theorem F.bringUpStepTimeout : F.Statement .bringUpStepTimeout := F.of_none rfl

end Sys2Proof.Laws
end

