-- ==== Sys2Proof/Laws/Encode.lean ====
section
/-!
SUPPORT. The bits of an encoded word: every field of a format F word, and every field of a slot, reads back as it was laid down (R155, R162).
-/
namespace Sys2Proof
open Machine

theorem append_low {m n : Nat} (a : BitVec m) (b : BitVec n) (k : Nat) (h : k < n) : (a ++ b).getLsbD k = b.getLsbD k := by
  rw [BitVec.getLsbD_append]; simp [h]

theorem append_high {m n : Nat} (a : BitVec m) (b : BitVec n) (k : Nat) (h : n ≤ k) : (a ++ b).getLsbD k = a.getLsbD (k - n) := by
  rw [BitVec.getLsbD_append]; simp [not_lt.mpr h]

theorem encodeF_bits (op : Nat) (x : Fields) (k : Nat) : (encodeF op x).getLsbD k =
    ((0#1 ++ BitVec.ofNat 7 op ++ x.g ++ BitVec.ofBool x.gn ++ x.d ++ x.a ++ x.b ++ x.c ++ x.fn ++ x.m ++ x.imm) :
      BitVec (1+7+4+1+6+6+6+6+8+3+16)).getLsbD k := rfl

theorem fieldsOf_encodeF (op : Nat) (x : Fields) : fieldsOf (encodeF op x) = x := by
  have h := encodeF_bits op x
  obtain ⟨g, gn, d, a, b, c, fn, m, imm⟩ := x
  unfold fieldsOf
  rw [Fields.mk.injEq]
  refine ⟨?_, ?_, ?_, ?_, ?_, ?_, ?_, ?_, ?_⟩
  · apply BitVec.eq_of_getLsbD_eq; intro j hj
    rw [BitVec.getLsbD_extractLsb', h]
    simp (disch := omega) only [append_low, append_high, hj, decide_true, Bool.true_and]
    congr 1; omega
  · rw [h]; simp (disch := omega) only [append_low, append_high]; simp
  all_goals
    apply BitVec.eq_of_getLsbD_eq; intro j hj
    rw [BitVec.getLsbD_extractLsb', h]
    simp (disch := omega) only [append_low, append_high, hj, decide_true, Bool.true_and]
    try (congr 1; omega)

theorem opOf_encodeF (op : Nat) (x : Fields) : opOf (encodeF op x) = BitVec.ofNat 7 op := by
  apply BitVec.eq_of_getLsbD_eq; intro j hj
  unfold opOf
  rw [BitVec.getLsbD_extractLsb', encodeF_bits]
  simp (disch := omega) only [append_low, append_high, hj, decide_true, Bool.true_and]
  congr 1; omega

theorem encodeF_top (op : Nat) (x : Fields) : (encodeF op x).getLsbD 63 = false := by
  rw [encodeF_bits]
  simp (disch := omega) only [append_high]
  simp

theorem encodeF_fields (w : BitVec 64) (h : w.getLsbD 63 = false) : encodeF (opOf w).toNat (fieldsOf w) = w := by
  apply BitVec.eq_of_getLsbD_eq; intro j hj
  rw [encodeF_bits]
  unfold opOf fieldsOf
  simp only
  rcases lt_or_ge j 16 with h0 | h0
  · simp (disch := omega) only [append_low, BitVec.getLsbD_extractLsb', Nat.zero_add, h0, decide_true, Bool.true_and]
  rcases lt_or_ge j 19 with h0 | h0
  · have hj' : j - 16 < 3 := by omega
    simp (disch := omega) only [append_low, append_high, BitVec.getLsbD_extractLsb', Nat.sub_sub, hj', decide_true, Bool.true_and]
    rw [show 16 + (j - 16) = j by omega]
  rcases lt_or_ge j 27 with h0 | h0
  · have hj' : j - 19 < 8 := by omega
    simp (disch := omega) only [append_low, append_high, BitVec.getLsbD_extractLsb', Nat.sub_sub, hj', decide_true, Bool.true_and]
    rw [show 19 + (j - 19) = j by omega]
  rcases lt_or_ge j 33 with h0 | h0
  · have hj' : j - 27 < 6 := by omega
    simp (disch := omega) only [append_low, append_high, BitVec.getLsbD_extractLsb', Nat.sub_sub, hj', decide_true, Bool.true_and]
    rw [show 27 + (j - 27) = j by omega]
  rcases lt_or_ge j 39 with h0 | h0
  · have hj' : j - 33 < 6 := by omega
    simp (disch := omega) only [append_low, append_high, BitVec.getLsbD_extractLsb', Nat.sub_sub, hj', decide_true, Bool.true_and]
    rw [show 33 + (j - 33) = j by omega]
  rcases lt_or_ge j 45 with h0 | h0
  · have hj' : j - 39 < 6 := by omega
    simp (disch := omega) only [append_low, append_high, BitVec.getLsbD_extractLsb', Nat.sub_sub, hj', decide_true, Bool.true_and]
    rw [show 39 + (j - 39) = j by omega]
  rcases lt_or_ge j 51 with h0 | h0
  · have hj' : j - 45 < 6 := by omega
    simp (disch := omega) only [append_low, append_high, BitVec.getLsbD_extractLsb', Nat.sub_sub, hj', decide_true, Bool.true_and]
    rw [show 45 + (j - 45) = j by omega]
  rcases lt_or_ge j 52 with h0 | h0
  · have : j = 51 := by omega
    subst this
    simp (disch := omega) only [append_low, append_high]; simp
  rcases lt_or_ge j 56 with h0 | h0
  · have hj' : j - 52 < 4 := by omega
    simp (disch := omega) only [append_low, append_high, BitVec.ofNat_toNat, BitVec.setWidth_eq, BitVec.getLsbD_extractLsb', Nat.sub_sub, hj', decide_true, Bool.true_and]
    rw [show 52 + (j - 52) = j by omega]
  rcases lt_or_ge j 63 with h0 | h0
  · have hj' : j - 56 < 7 := by omega
    simp (disch := omega) only [append_low, append_high, BitVec.ofNat_toNat, BitVec.setWidth_eq, BitVec.getLsbD_extractLsb', Nat.sub_sub, hj', decide_true, Bool.true_and]
    rw [show 56 + (j - 56) = j by omega]
  have : j = 63 := by omega
  subst this
  simp (disch := omega) only [append_high, h]
  simp

theorem row_of_ctor (op : Nat) (x : Fields) (k : Fields → Instr) (h : ctorOf op x = some k) : ∃ r, rowOf (k x) = some (r, x) ∧ r.op = op := by
  unfold ctorOf ctor00 ctor01 ctor02 ctor03 ctor04 ctor20 ctor21 ctor22 ctor23 ctor30 ctor31 ctor32 ctor34 ctor35 ctor36 ctor37 ctor4A ctor4C ctor60 ctor61 ctor62 ctor63 ctor64 ctor65 ctor70 ctor71 ctor72 ctor78 ctor79 ctor7A ctor7B ctor7C ctor4B at h
  repeat' split at h
  all_goals first
    | (simp only [Option.some.injEq] at h; subst h; exact ⟨_, rfl, rfl⟩)
    | (simp at h; done)
    | skip

theorem slotOf_encodeSlot (z : Slot) : slotOf (encodeSlot z) = z := by
  obtain ⟨op, g, d, i, src⟩ := z
  have h (k) : (encodeSlot ⟨op, g, d, i, src⟩).getLsbD k = ((op ++ g ++ d ++ BitVec.ofBool i ++ src) : BitVec (6+4+5+1+15)).getLsbD k := rfl
  unfold slotOf
  rw [Slot.mk.injEq]
  refine ⟨?_, ?_, ?_, ?_, ?_⟩
  · apply BitVec.eq_of_getLsbD_eq; intro j hj
    rw [BitVec.getLsbD_extractLsb', h]
    simp (disch := omega) only [append_low, append_high, hj, decide_true, Bool.true_and]
    congr 1; omega
  · apply BitVec.eq_of_getLsbD_eq; intro j hj
    rw [BitVec.getLsbD_extractLsb', h]
    simp (disch := omega) only [append_low, append_high, hj, decide_true, Bool.true_and]
    congr 1; omega
  · apply BitVec.eq_of_getLsbD_eq; intro j hj
    rw [BitVec.getLsbD_extractLsb', h]
    simp (disch := omega) only [append_low, append_high, hj, decide_true, Bool.true_and]
    congr 1; omega
  · rw [h]; simp (disch := omega) only [append_low, append_high]; simp
  · apply BitVec.eq_of_getLsbD_eq; intro j hj
    rw [BitVec.getLsbD_extractLsb', h]
    simp (disch := omega) only [append_low, append_high, hj, decide_true, Bool.true_and, Nat.zero_add]

theorem pair_bits (p q : BitVec 31) (k : Nat) :
    (1#1 ++ p ++ q ++ 0#1 : BitVec 64).getLsbD k = ((1#1 ++ p ++ q ++ 0#1) : BitVec (1 + 31 + 31 + 1)).getLsbD k := rfl

theorem pair_slots (p q : BitVec 31) :
    (1#1 ++ p ++ q ++ 0#1 : BitVec 64).extractLsb' 32 31 = p ∧ (1#1 ++ p ++ q ++ 0#1 : BitVec 64).extractLsb' 1 31 = q := by
  constructor <;>
  · apply BitVec.eq_of_getLsbD_eq; intro j hj
    rw [BitVec.getLsbD_extractLsb', pair_bits]
    simp (disch := omega) only [append_low, append_high, hj, decide_true, Bool.true_and]
    congr 1; omega

end Sys2Proof
end

