-- ==== Sys2Proof/Laws/Events.lean ====
section
/-!
SUPPORT. What a command record, a management request and a frame at the host port come to.
-/
namespace Sys2Proof.Machine

/-- R389: a record that no rule refuses acts. -/
theorem command_accepted {s : State} {opc : Nat} {c : Cmd} {check : Cmd → Nat} {act : Cmd → State → State} (h : s.commanded opc c)
    (hc : check c = 0) : s.command opc check act = happen (act c s) := by
  obtain ⟨rfl, ho, hs⟩ := h
  simp [State.command, State.recordIs, ho, hs, hc]

/-- R389: a record that a rule refuses ends with its status. -/
theorem command_refused {s : State} {opc : Nat} {c : Cmd} {check : Cmd → Nat} {act : Cmd → State → State} {n : Nat} (h : s.commanded opc c)
    (hc : check c = n) (hn : n ≠ 0) : s.command opc check act = happen (s.finishRecord c n) := by
  obtain ⟨rfl, ho, hs⟩ := h
  simp [State.command, State.recordIs, ho, hs, hc, hn]

/-- R388: a record whose header breaks a rule ends with the status of the header. -/
theorem command_header {s : State} {opc : Nat} {check : Cmd → Nat} {act : Cmd → State → State} (h : s.inputs.record.opc = opc)
    (hs : s.inputs.record.headerStatus ≠ 0) :
    s.command opc check act = happen (s.finishRecord s.inputs.record s.inputs.record.headerStatus) := by
  simp [State.command, State.recordIs, h, hs]

@[simp] theorem firstStatus_nil : firstStatus [] = 0 := rfl
theorem firstStatus_cons (n : Nat) (l : List Nat) : firstStatus (n :: l) = if n = 0 then firstStatus l else n := by
  by_cases h : n = 0 <;> simp [firstStatus, h]
@[simp] theorem failing_false (n : Nat) : failing false n = 0 := rfl
@[simp] theorem failing_true (n : Nat) : failing true n = n := rfl

/-- R460: the host port takes a frame. -/
theorem atPort_listens {s : State} (early : Bool) (act : State → Host.Outcome State Fault Refusal) (h : s.listens) : s.atPort early act = act s := by
  simp [State.atPort, h.1, h.2]

/-- R467: a management request that no rule refuses acts and is answered. -/
theorem manage_done {s : State} {op len : Nat} {check : State → Nat} {act : State → State} (h : s.managed op len) (hc : check s = 0) :
    s.manage op len check act = happen ((act s).answer 6 [0]) := by
  obtain ⟨hl, hk, ho, ha, hp⟩ := h
  unfold State.manage
  rw [atPort_listens _ _ hl]
  simp [hk, ho, ha, hp, hc, toBytes]

/-- R467: a management request that a rule refuses is answered with its status. -/
theorem manage_refused {s : State} {op len : Nat} {check : State → Nat} {act : State → State} (h : s.managed op len) (hc : check s ≠ 0) :
    s.manage op len check act = happen (s.answer 6 (toBytes 1 (check s))) := by
  obtain ⟨hl, hk, ho, ha, hp⟩ := h
  unfold State.manage
  rw [atPort_listens _ _ hl]
  simp [hk, ho, ha, hp, hc]

theorem eraseDups_all {α : Type} [BEq α] [LawfulBEq α] (a : α) : ∀ l : List α, l ≠ [] → (∀ b ∈ l, b = a) → l.eraseDups = [a] := by
  intro l h1 h2
  cases l with
  | nil => exact absurd rfl h1
  | cons b l =>
    have hb : b = a := h2 b (by simp)
    subst hb
    rw [List.eraseDups_cons]
    have : List.filter (fun c => !c == b) l = [] := by
      rw [List.filter_eq_nil_iff]
      intro c hc
      simp [h2 c (by simp [hc])]
    simp [this]

theorem foldl_id_of {α : Type} (f : State → α → State) (l : List α) (u : State) (h : ∀ u a, a ∈ l → f u a = u) : l.foldl f u = u := by
  induction l generalizing u with
  | nil => rfl
  | cons a l ih => rw [List.foldl_cons, h u a (by simp)]; exact ih u fun u b hb => h u b (by simp [hb])

theorem takeFirst_some {α : Type} {f : α → Bool} {before after : List α} {a : α} (h1 : f a = true) (h2 : ∀ b ∈ before, f b = false) :
    takeFirst f (before ++ a :: after) = some (a, before ++ after) := by
  induction before with
  | nil => simp [takeFirst, h1]
  | cons b l ih =>
    have := ih fun c hc => h2 c (by simp [hc])
    simp [takeFirst, h2 b (by simp), this]

theorem takeFirst_none {α : Type} {f : α → Bool} {l : List α} (h : ∀ b ∈ l, f b = false) : takeFirst f l = none := by
  induction l with
  | nil => rfl
  | cons b l ih =>
    have := ih fun c hc => h c (by simp [hc])
    simp [takeFirst, h b (by simp), this]

theorem tag_true {w t : Nat} (h : w = t ∨ w = 0xFFFF) : tagMatches w t = true := by
  unfold tagMatches; rcases h with rfl | rfl <;> simp
theorem tag_false {w t : Nat} (h : w ≠ t ∧ w ≠ 0xFFFF) : tagMatches w t = false := by
  unfold tagMatches; simp [h.1, h.2]

/-- R455: where no choice is forced, a thread has its turn. -/
theorem plain_turn {s : State} {c : Nat} (h : s.mode c < 2) (f g : LogEntry → Bool) : s.takeTurn c f g = (s, true) := by
  unfold State.takeTurn; simp only [plain_none h]

end Sys2Proof.Machine
end

