-- ==== Sys2Proof/Laws/Frames.lean ====
section
/-!
SUPPORT. What the shared operations leave unchanged: writes of threads and groups at other keys, plain bytes of memory, a lane's advance, a store
under way, a detected record, and a trap that parks its thread.
-/
namespace Sys2Proof
open Machine

theorem get_put_other {α : Type} (m : Store α) {k j : Nat} (v : α) (h : j ≠ k) : Store.get (Store.put m k v) j = Store.get m j := by
  induction m with
  | nil => simp only [Store.put, Store.get]; split <;> simp_all
  | cons e m ih =>
    obtain ⟨i, u⟩ := e
    simp only [Store.put]
    by_cases h1 : k < i
    · rw [if_pos h1]
      simp only [Store.get]
      by_cases h2 : j < k
      · rw [if_pos h2, if_pos (by omega)]
      · rw [if_neg h2, if_neg h]
    · rw [if_neg h1]
      by_cases h2 : k = i
      · subst h2
        rw [if_pos rfl]
        simp only [Store.get, if_neg h]
      · rw [if_neg h2]
        simp only [Store.get, ih]

theorem get_upd_other {α : Type} (m : Store α) {k j : Nat} (f : α → α) (h : j ≠ k) : Store.get (Store.upd m k f) j = Store.get m j := by
  unfold Store.upd; split
  · exact get_put_other _ _ h
  · rfl

theorem get_upd_same {α : Type} (m : Store α) {k : Nat} (f : α → α) {a : α} (h : Store.get m k = some a) : Store.get (Store.upd m k f) k = some (f a) := by
  unfold Store.upd; rw [h]; exact Store.get_put _ _ _

theorem rawWrite_threads (s : State) (a : Nat) (bs : List Byte) : (s.rawWrite a bs).threads = s.threads := by
  rw [(rawWrite_mem s a bs).frame]

theorem drainAll_threads (s : State) : s.drainAll.threads = s.threads := by
  rw [(drainAll_mem s).frame]

theorem setTenant_threads (s : State) (t : Nat) (v : Tenant) : (s.setTenant t v).threads = s.threads := rfl

theorem writeHeld_threads (s : State) (t : Nat) : (s.writeHeld t).threads = s.threads := by
  unfold State.writeHeld
  simp only
  split
  · rfl
  · split
    · rfl
    · rw [setTenant_threads, rawWrite_threads, rawWrite_threads, drainAll_threads, rawWrite_threads]

theorem enqueueRecord_threads (s : State) (t : Nat) (r : RecInit) : (s.enqueueRecord t r).1.threads = s.threads := by
  unfold State.enqueueRecord
  simp only
  have hif : ∀ (b : Prop) [Decidable b] (a c : State), a.threads = s.threads → c.threads = s.threads → (if b then a else c).threads = s.threads := by
    intro b _ a c h1 h2; split <;> assumption
  have hk : ∀ u : State, u.threads = s.threads → (u.writeHeld t).threads = s.threads := fun u h => (writeHeld_threads u t).trans h
  have hr : ∀ (u : State) a bs, u.threads = s.threads → (u.rawWrite a bs).threads = s.threads := fun u a bs h => (rawWrite_threads u a bs).trans h
  repeat first | with_reducible exact rfl | apply hr | apply hk | apply hif | exact rfl

theorem dropRecord_threads (s : State) (t : Nat) : (s.dropRecord t).threads = s.threads := by
  unfold State.dropRecord
  simp only
  split
  · rfl
  · rw [rawWrite_threads, setTenant_threads]

theorem report_threads (s : State) (t : Nat) (r : RecInit) : (s.report t r).1.threads = s.threads := by
  unfold State.report
  simp only
  split
  · exact dropRecord_threads ..
  · split
    · split
      · exact (setTenant_threads ..).trans (dropRecord_threads ..)
      · exact enqueueRecord_threads ..
    · exact enqueueRecord_threads ..

theorem takeTraps_one (s : State) (t : LaneTrap) (h : t.cause ≤ 0x11) : s.takeTraps [t] =
    (if t.cause = causeFloat then s.updThread t.key fun th => { th with fflags := th.fflags ||| word t.tval } else s).deliver t.cause [t] := by
  unfold State.takeTraps
  obtain ⟨k, c, v⟩ := t
  simp only at h
  simp only [List.foldl_cons, List.foldl_nil, List.filter_cons, List.filter_nil]
  generalize (if c = causeFloat then _ else s) = u
  interval_cases c <;> rfl

theorem parkAll_one (s : State) (key cause tval : Nat) (th : Thread) (h : Store.get s.threads key = some th) (hk : isThresher key = false) :
    (∃ n, Store.get (s.parkAll cause [⟨key, cause, tval⟩]).threads key = some { th.trapped cause tval th.pc with st := .parked n, heldBy := none }) ∧
    (∀ k, k ≠ key → Store.get (s.parkAll cause [⟨key, cause, tval⟩]).threads k = Store.get s.threads k) := by
  unfold State.parkAll
  simp only [State.lowestWid, List.foldl_cons, List.foldl_nil, h, hk, Bool.false_eq_true, if_false]
  constructor
  · unfold State.updThread
    simp only
    rw [get_upd_same _ _ (show _ = some th by rw [report_threads]; exact h)]
    exact ⟨_, rfl⟩
  · intro k hne
    unfold State.updThread
    simp only
    rw [get_upd_other _ _ hne, report_threads]

theorem lanesOf_thread {s : State} : ∀ {ks : List Nat} {vs : List Lane}, s.lanesOf ks = some vs → ∀ v ∈ vs, Store.get s.threads v.key = some v.th := by
  intro ks
  induction ks with
  | nil => intro vs h; cases h; simp
  | cons k ks ih =>
    intro vs h
    unfold State.lanesOf at h
    split at h
    · cases h
    · rename_i th hth
      split at h
      · rename_i g ws hg hw
        cases h
        intro v hv
        rcases List.mem_cons.mp hv with rfl | hv
        · exact hth
        · exact ih hw v hv
      · cases h

theorem gather_thread {s : State} {vs : List Lane} (h : s.gatherLanes = some vs) : ∀ v ∈ vs, Store.get s.threads v.key = some v.th := by
  unfold State.gatherLanes at h
  split at h
  · cases h
  · split at h
    · cases h
    · exact lanesOf_thread h

/-- The machine after some of what a gather's instruction does: T holds of each of its threads, G of each of their groups. -/
structure Kept (s : State) (vs : List Lane) (T : Lane → Thread → Prop) (G : Lane → Machine.Group → Prop) (u : State) : Prop where
  frame : u = { s with threads := u.threads, groups := u.groups, now := s.now + 1, armed := false, gather := none, sensed := [] }
  other : ∀ k, (∀ v ∈ vs, v.key ≠ k) → Store.get u.threads k = Store.get s.threads k
  mine : ∀ v ∈ vs, ∃ th, Store.get u.threads v.key = some th ∧ T v th
  group : ∀ v ∈ vs, ∃ g, Store.get u.groups v.th.gid = some g ∧ G v g
  rest : ∀ n, (∀ v ∈ vs, v.th.gid ≠ n) → Store.get u.groups n = Store.get s.groups n

theorem Kept.updThread {s vs T G u} (h : Kept s vs T G u) (w : Lane) (hw : w ∈ vs) (f : Thread → Thread)
    (hf : ∀ v ∈ vs, v.key = w.key → ∀ th, T v th → T v (f th)) : Kept s vs T G (u.updThread w.key f) where
  frame := by have := h.frame; unfold State.updThread; rw [this]
  other := fun k hk => by
    unfold State.updThread; simp only
    rw [get_upd_other _ _ (fun e => hk w hw e.symm)]; exact h.other k hk
  mine := fun v hv => by
    obtain ⟨th, h1, h2⟩ := h.mine v hv
    unfold State.updThread; simp only
    by_cases e : v.key = w.key
    · rw [← e, get_upd_same _ _ h1]; exact ⟨_, rfl, hf v hv e th h2⟩
    · rw [get_upd_other _ _ e]; exact ⟨th, h1, h2⟩
  group := h.group
  rest := h.rest

theorem Kept.updGroup {s vs T G u} (h : Kept s vs T G u) (w : Lane) (hw : w ∈ vs) (f : Machine.Group → Machine.Group)
    (hf : ∀ v ∈ vs, v.th.gid = w.th.gid → ∀ g, G v g → G v (f g)) : Kept s vs T G (u.updGroup w.th.gid f) where
  frame := by have := h.frame; unfold State.updGroup; rw [this]
  other := h.other
  mine := h.mine
  group := fun v hv => by
    obtain ⟨g, h1, h2⟩ := h.group v hv
    unfold State.updGroup; simp only
    by_cases e : v.th.gid = w.th.gid
    · rw [← e, get_upd_same _ _ h1]; exact ⟨_, rfl, hf v hv e g h2⟩
    · rw [get_upd_other _ _ e]; exact ⟨g, h1, h2⟩
  rest := fun n hn => by
    unfold State.updGroup; simp only
    rw [get_upd_other _ _ (fun e => hn w hw e.symm)]; exact h.rest n hn

theorem Kept.foldl {s vs T G} {α : Type} (f : State → α → State) (l : List α) (hf : ∀ u a, a ∈ l → Kept s vs T G u → Kept s vs T G (f u a)) (u : State)
    (h : Kept s vs T G u) : Kept s vs T G (l.foldl f u) := by
  induction l generalizing u with
  | nil => exact h
  | cons a l ih => exact ih (fun u b hb => hf u b (by simp [hb])) _ (hf u a (by simp) h)

theorem Kept.start {s : State} {vs : List Lane} {T G} (hl : s.gatherLanes = some vs) (hT : ∀ v ∈ vs, T v v.th) (hG : ∀ v ∈ vs, G v v.g) : Kept s vs T G s.tick where
  frame := rfl
  other := fun _ _ => rfl
  mine := fun v hv => ⟨v.th, gather_thread hl v hv, hT v hv⟩
  group := fun v hv => ⟨v.g, gather_group hl v hv, hG v hv⟩
  rest := fun _ _ => rfl

theorem Kept.commit {s : State} {vs : List Lane} {T G} {r : Row} {x : Fields} {eff : Lane → State → State} (h : Kept s vs T G s.tick)
    (hgo : ∀ v th pc now, T v th → T v (th.goto pc now)) (hclk : ∀ v th w, readsClock r x = true → T v th → T v { th with clkHi := w })
    (he : ∀ v ∈ vs, ∀ u, Kept s vs T G u → Kept s vs T G (eff v u)) : Kept s vs T G (s.completeAll r x vs eff) := by
  unfold State.completeAll State.commit
  refine Kept.foldl _ _ ?_ _ (Kept.foldl _ _ ?_ _ h)
  · intro u v hv hu
    have hv' := mem_active hv
    unfold State.finish State.latchClock State.retire
    have h1 := (he v hv' u hu).updThread v hv' (fun th => th.goto (nextPc v.key (Store.get (eff v u).groups th.gid) th.pc) (eff v u).now) (fun w _ _ th ht => hgo _ _ _ _ ht)
    split
    · rename_i hc
      exact h1.updThread v hv' _ (fun w _ _ th ht => hclk _ _ _ hc ht)
    · exact h1
  · intro u v hv hu
    unfold State.retire
    exact hu.updThread v (List.mem_filter.mp hv).1 _ (fun w _ _ th ht => hgo _ _ _ _ ht)

theorem rising_wr (m : Store Word) (k : Nat) (v : Word) (h : Store.rising 0 m = true) : Store.rising 0 (Store.wr 0 m k v) = true := by
  unfold Store.wr; split
  · exact Store.rising_del _ _ _ h
  · exact Store.rising_put _ _ _ _ (Nat.zero_le _) h

theorem setBytes_append (m : List Host.Cell) (a : Nat) (p q : List Byte) : setBytes m a (p ++ q) = setBytes (setBytes m a p) (a + p.length) q := by
  induction p generalizing m a with
  | nil => rfl
  | cons b p ih =>
    simp only [List.cons_append, setBytes, ih, List.length_cons]
    rw [show a + 1 + p.length = a + (p.length + 1) by omega]

theorem writeFuel_plain (fuel : Nat) (s : State) (a : Nat) (bs : List Byte) (h : bs.length ≤ 256 - a % 256 + 256 * (fuel - 1)) (hf : 0 < fuel) :
    (State.writeFuel fuel s false a bs).hbm = setBytes s.hbm a bs := by
  induction fuel generalizing s a bs with
  | zero => omega
  | succ n ih =>
    unfold State.writeFuel
    cases bs with
    | nil => rfl
    | cons b bs =>
      simp only [List.isEmpty_cons, Bool.false_eq_true, if_false]
      have hm : a % 256 < 256 := Nat.mod_lt _ (by decide)
      by_cases hs : (b :: bs).length ≤ 256 - a % 256
      · rw [List.drop_eq_nil_of_le hs, List.take_of_length_le hs]
        cases n with
        | zero => rfl
        | succ n => rfl
      · cases n with
        | zero => simp at h; simp at hs; omega
        | succ n =>
          rw [ih]
          · show setBytes (setBytes s.hbm a ((b :: bs).take (256 - a % 256))) _ _ = _
            conv_rhs => rw [← List.take_append_drop (256 - a % 256) (b :: bs), setBytes_append]
            rw [List.length_take, Nat.min_eq_left (by omega)]
          · rw [List.length_drop]
            have : (a + (256 - a % 256)) % 256 = 0 := by omega
            rw [this]; simp at h ⊢; omega
          · omega

/-- A write through a page without CMP stores the bytes as they are. -/
theorem writeBytes_plain (s : State) (a : Nat) (bs : List Byte) : (s.writeBytes false a bs).hbm = setBytes s.hbm a bs :=
  writeFuel_plain _ _ _ _ (by have : a % 256 < 256 := Nat.mod_lt _ (by decide); omega) (by omega)

theorem toBytes_length (n y : Nat) : (toBytes n y).length = n := by
  induction n generalizing y with
  | zero => rfl
  | succ n ih => simp [toBytes, ih]

theorem cacheLoop (l : List Nat) (f : Nat → Store LcLine → Store LcLine) (u : State) :
    (l.foldl (fun s i => ({ s with loadCache := f i s.loadCache } : State)) u) = { u with loadCache := l.foldl (fun m i => f i m) u.loadCache } := by
  induction l generalizing u with
  | nil => rfl
  | cons a l ih => simp only [List.foldl_cons]; rw [ih]

theorem updateCache_frame (u : State) (core a : Nat) (bs : List Byte) :
    u.updateCache core a bs = { u with loadCache := (u.updateCache core a bs).loadCache, upsets := clearCached u.upsets core a bs.length } := by
  unfold State.updateCache
  rw [cacheLoop (f := fun i m => m.upd (lcKey core ((a + i) / 128)) fun l => setAt l ((a + i) % 128) (bs.getD i 0))]

theorem requestLoop (core : Nat) (f : Nat × List Byte → Pending) (l : List (Nat × List Byte)) (u : State) :
    l.foldl (fun s p => s.request core (f p)) u =
    { u with portHeld := u.portHeld ++ l.map fun p => { input := core, output := firstOut core (f p).pa, req := f p } } := by
  induction l generalizing u with
  | nil => simp
  | cons a l ih => rw [List.foldl_cons, ih]; simp [State.request]

/-- A store of this module's memory that meets no stopped bridge asks for its bytes, a line at a time (R51, R56), and changes nothing
else but its core's copies. -/
theorem performStore_frame (u : State) (core ctx : Nat) (t : Xlat) (bs : List Byte) (h : u.bridgeCut core t.pa = false) :
    u.performStore core ctx t bs = { u with
      loadCache := (u.updateCache core t.pa bs).loadCache, upsets := clearCached u.upsets core t.pa bs.length,
      portHeld := u.portHeld ++ (lineParts (bs.length / 128 + 2) t.pa bs).map fun p =>
        { input := core, output := firstOut core p.1, req := { pa := p.1, size := p.2.length, code := 0, data := p.2, cas := [], ra := false, returns := false, op := 0, off := 0, cmp := t.cmp, ctx := ctx, launch := 0, who := 0, va := 0, cl := t.cl, wp := t.wp, ep := t.ep } } } := by
  unfold State.performStore
  rw [h]
  simp only [Bool.false_eq_true, if_false]
  rw [requestLoop core (fun p => { pa := p.1, size := p.2.length, code := 0, data := p.2, cas := [], ra := false, returns := false, op := 0, off := 0, cmp := t.cmp, ctx := ctx, launch := 0, who := 0, va := 0, cl := t.cl, wp := t.wp, ep := t.ep }), updateCache_frame]

/-- A settled lane with nothing kept performs its one access at once. -/
theorem present_store {s : State} {v : Lane} {a : Access} {t : Xlat} (hth : Store.get s.threads v.key = some v.th) (hg : Store.get s.groups v.th.gid = some v.g)
    (hk : v.th.kept = []) (h : v.page s a.va .store = some t) (hr : t.peer = none) (hs : t.kind ≠ 0) (hset : v.settled s)
    (h1 : a.kind = .store) (h2 : a.queued = false) (h3 : a.ordered = false) (h4 : a.acquires = false) (h5 : a.stopped = false) :
    s.present v.key [a] = ((({ s with nextOp := s.nextOp + 1 } : State).setThread v.key { v.th with kept := [], ahead := 0 }).performStore v.core v.g.ctx t a.data) := by
  unfold State.present State.advance State.keptCount
  simp only [List.zipIdx_cons, List.zipIdx_nil, List.map_cons, List.map_nil, List.length_cons, List.length_nil, Nat.zero_add, Nat.add_zero]
  have e1 : ({ s with nextOp := s.nextOp + 1 } : State).updThread v.key (fun th => { th with kept := th.kept ++ [{ a with id := s.nextOp }] }) =
      ({ s with nextOp := s.nextOp + 1 } : State).setThread v.key { v.th with kept := [{ a with id := s.nextOp }] } := by
    unfold State.updThread Store.upd State.setThread; simp only [hth, hk, List.nil_append]
  rw [e1]
  generalize hu : ({ s with nextOp := s.nextOp + 1 } : State) = u
  have hb : ({ a with id := s.nextOp } : Access).data = a.data := rfl
  rw [← hb]
  have h' : v.page u a.va .store = some t := by subst hu; exact h
  have hg' : Store.get u.groups v.th.gid = some v.g := by subst hu; exact hg
  have hset' : v.settled u := by subst hu; exact hset
  clear hu e1
  generalize hB : ({ a with id := s.nextOp } : Access) = b
  have b1 : b.va = a.va := by subst hB; rfl
  have b2 : b.kind = .store := by subst hB; exact h1
  have b3 : b.queued = false := by subst hB; exact h2
  have b4 : b.ordered = false := by subst hB; exact h3
  have b5 : b.acquires = false := by subst hB; exact h4
  have b6 : b.stopped = false := by subst hB; exact h5
  have e4 : Store.get (u.setThread v.key { v.th with kept := [b] }).threads v.key = some { v.th with kept := [b] } := Store.get_put ..
  have e5 : Store.get (u.setThread v.key { v.th with kept := [b] }).groups v.th.gid = some v.g := hg'
  rw [e4]
  simp only [Option.map_some, Option.getD_some, List.length_cons, List.length_nil, Nat.zero_add]
  unfold State.advanceKept
  have h'' : v.page (u.setThread v.key { v.th with kept := [b] }) a.va .store = some t := h'
  have e3 := lookup_page h''
  have e6 : b.accessKind = .store := by unfold Access.accessKind; rw [b2]
  have e7 : ∀ w : State, w.accessTurn v.key v.g b = (w, true) := by
    intro w; unfold State.accessTurn; rw [b2]; rfl
  have e8 : coreOf v.key = v.core := rfl
  have e10 : (u.setThread v.key { v.th with kept := [b] }).holds v.key [] b t = false := by
    have hs' : v.settled (u.setThread v.key { v.th with kept := [b] }) := hset'
    unfold State.holds
    rw [acquiring_settled hs', peerHolds_settled hs']
    simp [b4]
  rw [e4]
  simp only [List.getElem?_cons_zero, e5, b3, b6, Bool.or_self, Bool.false_eq_true, if_false, e6, e8, b1, e3, Option.filter_some, hr, Option.map_none, Option.getD_none, if_true,
    List.take_zero, e10, e7, Bool.not_true, List.eraseIdx_zero, List.tail_cons, List.isEmpty_nil]
  have e9 : (u.setThread v.key { v.th with kept := [b] }).setThread v.key { v.th with kept := [], ahead := 0 } = u.setThread v.key { v.th with kept := [], ahead := 0 } := by
    unfold State.setThread; simp only [Store.put_put]
  rw [e9]
  unfold State.advanceKept State.performAccess
  rw [hr]
  unfold State.performLocal
  simp only [b4, b5, b2, Bool.false_eq_true, if_false, hs, e8]

theorem finish_frame (u : State) (v : Lane) (r : Row) (x : Fields) : u.finish v r x = { u with threads := (u.finish v r x).threads } := by
  unfold State.finish State.latchClock State.retire State.updThread
  split <;> rfl

theorem finish_thread (u : State) (v : Lane) (r : Row) (x : Fields) (th : Thread) (h : Store.get u.threads v.key = some th) :
    (∀ k, k ≠ v.key → Store.get (u.finish v r x).threads k = Store.get u.threads k) ∧
    ∃ th', Store.get (u.finish v r x).threads v.key = some th' ∧ (∀ st pc since ahead clkHi peerBuf wordBuf heldBy,
      { th' with st := st, pc := pc, since := since, ahead := ahead, clkHi := clkHi, peerBuf := peerBuf, wordBuf := wordBuf, heldBy := heldBy } =
      { th with st := st, pc := pc, since := since, ahead := ahead, clkHi := clkHi, peerBuf := peerBuf, wordBuf := wordBuf, heldBy := heldBy }) ∧ (readsClock r x = false → th'.clkHi = th.clkHi) := by
  unfold State.finish State.latchClock State.retire State.updThread
  constructor
  · intro k hk
    split
    · simp only; rw [get_upd_other _ _ hk, get_upd_other _ _ hk]
    · simp only; rw [get_upd_other _ _ hk]
  · split
    · rename_i hc
      simp only
      rw [get_upd_same _ _ (get_upd_same _ _ h)]
      exact ⟨_, rfl, fun _ _ _ _ _ _ _ _ => rfl, fun h => by rw [hc] at h; simp at h⟩
    · simp only
      rw [get_upd_same _ _ h]
      exact ⟨_, rfl, fun _ _ _ _ _ _ _ _ => rfl, fun _ => rfl⟩

theorem completeAll_one {s : State} {x : Fields} {v : Lane} {r : Row} (eff : Lane → State → State) (hv : v.active x.g x.gn = true) :
    s.completeAll r x [v] eff = (eff v s.tick).finish v r x := by
  unfold State.completeAll State.commit
  rw [alone_active hv, alone_idle hv]; rfl

/-- Where no choice is to be logged and no context replays, nothing follows an instruction. -/
theorem settle_calm {u : State} (h1 : u.logPending = []) (h2 : ∀ c ∈ u.ctxs, c.2.mode ≠ 3) : u.settle = u := by
  unfold State.settle
  have : (u.ctxs.any fun c => c.2.mode == 3) = false := by
    rw [List.any_eq_false]; intro c hc; simpa using h2 c hc
  simp [h1, this]

theorem rawWrite_inputs (s : State) (a : Nat) (bs : List Byte) : (s.rawWrite a bs).inputs = s.inputs := by
  rw [(rawWrite_mem s a bs).frame]
theorem rawWrite_tenants (s : State) (a : Nat) (bs : List Byte) : (s.rawWrite a bs).tenants = s.tenants := by
  rw [(rawWrite_mem s a bs).frame]

end Sys2Proof
end

