-- ==== Sys2Proof/Tests/Slice0.lean ====
section
/-!
SUPPORT. Tests: words written out from the encoding tables, ill-formed terms for every check of WellFormed, one-step examples
whose results come from the manual's own examples or from hand calculation, and for each statement states that meet its hypotheses.
-/
namespace Sys2Proof.Tests
set_option Elab.async false
open Machine

/-- A word always active, by its selectors, FN, M and IMM16. -/
def w (d a b c : BitVec 6) (fn : BitVec 8) (m : BitVec 3) (imm : BitVec 16) : Fields :=
  { g := 15, gn := false, d := d, a := a, b := b, c := c, fn := fn, m := m, imm := imm }
/-- Each word decodes to its instruction. -/
def decodes (l : List (Nat × Instr)) : Bool := l.all fun e => decodeTableWord 64 e.1 == some e.2
/-- No word of the list is an instruction. -/
def refused (l : List Nat) : Bool := l.all fun n => decodeTableWord 64 n == none
/-- No term of the list is a legal word. -/
def illFormed (l : List Instr) : Bool := l.all fun i => !wellFormed i

/-- R184: words of major 0x00. -/
theorem test_words_00 : decodes [(0x00F0828C000A0000, .iadd (w 4 5 6 0 0x01 2 0x0)), (0x00F082800412FFFD, .isub (w 4 5 0 0 0x82 2 0xFFFD)),
    (0x00F08310081F0000, .iaddc (w 4 6 8 1 0x03 7 0x0)), (0x00F0828002200000, .ineg (w 4 5 0 0 0x44 0 0x0)),
    (0x00F08300002B0000, .iabs (w 4 6 0 0 0x05 3 0x0)), (0x00F0828C00340000, .imin (w 4 5 6 0 0x06 4 0x0)),
    (0x00F0828C003D0000, .imax (w 4 5 6 0 0x07 5 0x0)), (0x00F0828C02460000, .imul (w 4 5 6 0 0x48 6 0x0)),
    (0x00F08310004F0000, .imulh (w 4 6 8 0 0x09 7 0x0)), (0x00F0828C38520000, .imad (w 4 5 6 7 0x0A 2 0x0)),
    (0x00F1028C525A0000, .imadw (w 8 5 6 10 0x4B 2 0x0))] = true := by decide

/-- R185: words of major 0x01. -/
theorem test_words_01 : decodes [(0x01F08280040E00FF, .and (w 4 5 0 0 0x81 6 0xFF)), (0x01F0828C00160000, .or (w 4 5 6 0 0x02 6 0x0)),
    (0x01F08310001F0000, .xor (w 4 6 8 0 0x03 7 0x0)), (0x01F0828C00260000, .andn (w 4 5 6 0 0x04 6 0x0)),
    (0x01F08280002E0000, .not (w 4 5 0 0 0x05 6 0x0)), (0x01F0828004360003, .shl (w 4 5 0 0 0x86 6 0x3)),
    (0x01F0830E003F0000, .shr (w 4 6 7 0 0x07 7 0x0)), (0x01F0828C00460000, .sar (w 4 5 6 0 0x08 6 0x0)),
    (0x01F0828C004E0000, .rot (w 4 5 6 0 0x09 6 0x0))] = true := by decide

/-- R186, R187: words of major 0x02. -/
theorem test_words_02 : decodes [(0x02F08280040A0104, .bfx (w 4 5 0 0 0x81 2 0x104)), (0x02F0828C00160000, .bfi (w 4 5 6 0 0x02 6 0x0)),
    (0x02F08300001F0000, .popc (w 4 6 0 0 0x03 7 0x0)), (0x02F0828000260000, .clz (w 4 5 0 0 0x04 6 0x0)),
    (0x02F08280002E0000, .brev (w 4 5 0 0 0x05 6 0x0)), (0x02F0828C00368F01, .prmb (w 4 5 6 0 0x06 6 0x8F01))] = true := by decide

/-- R189 to R192: words of major 0x03. -/
theorem test_words_03 : decodes [(0x03F0228C280A0000, .icmp (w 1 5 6 5 0x01 2 0x0)), (0x03F0608400100008, .pset (w 3 1 2 0 0x02 0 0x8)),
    (0x03F0800000180000, .pmovR (w 4 0 0 0 0x03 0 0x0)), (0x03F0020000200FFF, .pmovP (w 0 4 0 0 0x04 0 0xFFF)),
    (0x03F0828C582E0000, .sel (w 4 5 6 11 0x05 6 0x0))] = true := by decide

/-- R193 to R198: words of major 0x04. -/
theorem test_words_04 : decodes [(0x04F08300000F0000, .mov (w 4 6 0 0 0x01 7 0x0)), (0x04F0800000101234, .moviLo (w 4 0 0 0 0x02 0 0x1234)),
    (0x04F0800000111234, .moviHi (w 4 0 0 0 0x02 1 0x1234)), (0x04F080000012FFFF, .moviS (w 4 0 0 0 0x02 2 0xFFFF)),
    (0x04F0828000180002, .movk (w 4 5 0 0 0x03 0 0x2)), (0x04F0828000200000, .movx (w 4 5 0 0 0x04 0 0x0)),
    (0x04F0028C00280000, .movxs (w 0 5 6 0 0x05 0 0x0)), (0x04F083100032FFF8, .lea (w 4 6 8 0 0x06 2 0xFFF8)),
    (0x04F08310003C0008, .leaN (w 4 6 8 0 0x07 4 0x8)), (0x04F0800000410005, .widf (w 4 0 0 0 0x08 1 0x5)),
    (0x04F0800000480007, .sysr (w 4 0 0 0 0x09 0 0x7))] = true := by decide

/-- R199, R161: words of major 0x20. -/
theorem test_words_20 : decodes [(0x20F0007FF808FFFE, .bra (w 0 0 63 63 0x01 0 0xFFFE)), (0x20F0030000100000, .brx (w 0 6 0 0 0x02 0 0x0)),
    (0x20F0000008180002, .call (w 0 0 0 1 0x03 0 0x2)), (0x20F0030000200000, .callx (w 0 6 0 0 0x04 0 0x0)),
    (0x20F0000000280000, .ret (w 0 0 0 0 0x05 0 0x0))] = true := by decide

/-- R203, R204: words of major 0x21. -/
theorem test_words_21 : decodes [(0x21F00080000A000A, .shfb (w 0 1 0 0 0x01 2 0xA)), (0x21F0000000100000, .shfe (w 0 0 0 0 0x02 0 0x0))] = true := by decide

/-- R205: words of major 0x22. -/
theorem test_words_22 : decodes [(0x22F000000008004D, .trap (w 0 0 0 0 0x01 0 0x4D)), (0x22F0000000100000, .tret (w 0 0 0 0 0x02 0 0x0)),
    (0x22F0000000110000, .tretN (w 0 0 0 0 0x02 1 0x0)), (0x22F0000000180000, .nop (w 0 0 0 0 0x03 0 0x0)),
    (0x22F0000000200000, .yield (w 0 0 0 0 0x04 0 0x0)), (0x22F0000000280000, .exit (w 0 0 0 0 0x05 0 0x0)),
    (0x22F0000000300000, .pulse (w 0 0 0 0 0x06 0 0x0)), (0x22F0000000380000, .safept (w 0 0 0 0 0x07 0 0x0)),
    (0x22F0000000400000, .wspill (w 0 0 0 0 0x08 0 0x0)), (0x22F0000000480000, .wfill (w 0 0 0 0 0x09 0 0x0)),
    (0x22F0800000510022, .csrr (w 4 0 0 0 0x0A 1 0x22)), (0x22F0020000580000, .csrw (w 0 4 0 0 0x0B 0 0x0))] = true := by decide

/-- R214, R215: words of major 0x23. -/
theorem test_words_23 : decodes [(0x23F0600800100000, .twnx (w 3 0 4 0 0x02 0 0x0)), (0x23F0830000090000, .twlk (w 4 6 0 0 0x01 1 0x0))] = true := by decide

/-- R222: words of major 0x30. -/
theorem test_words_30 : decodes [(0x30F0828C00090000, .fadd (w 4 5 6 0 0x01 1 0x0)), (0x30F0828C04100000, .fsub (w 4 5 6 0 0x82 0 0x0)),
    (0x30F0828C00180000, .fmul (w 4 5 6 0 0x03 0 0x0)), (0x30F0828C38240000, .fma (w 4 5 6 7 0x04 4 0x0)),
    (0x30F0828C00280000, .fmin (w 4 5 6 0 0x05 0 0x0)), (0x30F0828C00300000, .fmax (w 4 5 6 0 0x06 0 0x0)),
    (0x30F0828C00380000, .fminx (w 4 5 6 0 0x07 0 0x0)), (0x30F0828C00400000, .fmaxx (w 4 5 6 0 0x08 0 0x0))] = true := by decide

/-- R224: words of major 0x31. -/
theorem test_words_31 : decodes [(0x31F0828000080000, .fabs (w 4 5 0 0 0x01 0 0x0)), (0x31F0828000100000, .fneg (w 4 5 0 0 0x02 0 0x0)),
    (0x31F0828000180000, .fclass (w 4 5 0 0 0x03 0 0x0)), (0x31F0828000230000, .frnd (w 4 5 0 0 0x04 3 0x0)),
    (0x31F0828004280000, .frcp (w 4 5 0 0 0x85 0 0x0)), (0x31F0828000300000, .fsqrt (w 4 5 0 0 0x06 0 0x0)),
    (0x31F0828000380000, .frsq (w 4 5 0 0 0x07 0 0x0)), (0x31F0828000400000, .fexp2 (w 4 5 0 0 0x08 0 0x0)),
    (0x31F0828000480000, .flog2 (w 4 5 0 0 0x09 0 0x0)), (0x31F0828000500000, .fsin (w 4 5 0 0 0x0A 0 0x0)),
    (0x31F0828004580000, .fcos (w 4 5 0 0 0x8B 0 0x0))] = true := by decide

/-- R227: words of major 0x32. -/
theorem test_words_32 : decodes [(0x32F0228C3C080000, .fcmp (w 1 5 6 7 0x81 0 0x0))] = true := by decide

/-- R228 to R231: words of major 0x33. -/
theorem test_words_33 : decodes [(0x33F0C48001820800, .cvt (w 6 9 0 0 0x30 2 0x800)), (0x33F0828030280184, .cvtBs (w 4 5 0 6 0x05 0 0x184))] = true := by decide

/-- R233: words of major 0x34. -/
theorem test_words_34 : decodes [(0x34F0828C02080000, .hadd2 (w 4 5 6 0 0x41 0 0x0)), (0x34F0828C00110000, .hsub2 (w 4 5 6 0 0x02 1 0x0)),
    (0x34F0828C00180000, .hmul2 (w 4 5 6 0 0x03 0 0x0)), (0x34F0828C38200000, .hfma2 (w 4 5 6 7 0x04 0 0x0))] = true := by decide

/-- R234 to R236: words of major 0x35. -/
theorem test_words_35 : decodes [(0x35F0828C3E090003, .dot4 (w 4 5 6 7 0xC1 1 0x3)), (0x35F0828C3C100004, .dot8 (w 4 5 6 7 0x82 0 0x4)),
    (0x35F0828C3A180000, .dot2h (w 4 5 6 7 0x43 0 0x0)), (0x35F0828C00200000, .qsc (w 4 5 6 0 0x04 0 0x0))] = true := by decide

/-- R232: words of major 0x36. -/
theorem test_words_36 : decodes [(0x36F1C51A00080001, .fkey (w 14 10 13 0 0x01 0 0x1))] = true := by decide

/-- R237: words of major 0x37. -/
theorem test_words_37 : decodes [(0x37F0228C38080010, .wnw (w 1 5 6 7 0x01 0 0x10)), (0x37F0228C00100010, .wnwCt (w 1 5 6 0 0x02 0 0x10)),
    (0x37F0228C38180000, .titheS (w 1 5 6 7 0x03 0 0x0)), (0x37F0028C00200000, .titheC (w 0 5 6 0 0x04 0 0x0)),
    (0x37F0828000280000, .apxexp2 (w 4 5 0 0 0x05 0 0x0)), (0x37F0828000300000, .apxrcp (w 4 5 0 0 0x06 0 0x0))] = true := by decide

/-- R249: words of major 0x48. -/
theorem test_words_48 : decodes [(0x48F08300009B0040, .ld (w 4 6 0 0 0x13 3 0x40))] = true := by decide

/-- R249: words of major 0x49. -/
theorem test_words_49 : decodes [(0x49F003080121FFF8, .st (w 0 6 4 0 0x24 1 0xFFF8))] = true := by decide

/-- R250: words of major 0x4A. -/
theorem test_words_4A : decodes [(0x4AF08280020A0008, .lds (w 4 5 0 0 0x41 2 0x8)), (0x4AF002900015FFF0, .sts (w 0 5 8 0 0x02 5 0xFFF0)),
    (0x4AF0828C38180004, .ldt (w 4 5 6 7 0x03 0 0x4)), (0x4AF0980000200001, .ldk (w 4 48 0 0 0x04 0 0x1))] = true := by decide

/-- R253: words of major 0x4B. -/
theorem test_words_4B : decodes [(0x4BF0830A00080000, .atomAdd (w 4 6 5 0 0x01 0 0x0)), (0x4BF0831001100000, .atomSub (w 4 6 8 0 0x22 0 0x0)),
    (0x4BF0830A00180000, .atomMinN (w 4 6 5 0 0x03 0 0x0)), (0x4BF0830A00200000, .atomMaxN (w 4 6 5 0 0x04 0 0x0)),
    (0x4BF0830A00280000, .atomAnd (w 4 6 5 0 0x05 0 0x0)), (0x4BF0830A00300000, .atomOr (w 4 6 5 0 0x06 0 0x0)),
    (0x4BF0830A00380000, .atomXor (w 4 6 5 0 0x07 0 0x0)), (0x4BF0830A00400000, .atomXchg (w 4 6 5 0 0x08 0 0x0)),
    (0x4BF0830A3A4A0000, .atomCas (w 4 6 5 7 0x49 2 0x0)), (0x4BF0830A00500000, .atomInc (w 4 6 5 0 0x0A 0 0x0)),
    (0x4BF0830A00580000, .atomDec (w 4 6 5 0 0x0B 0 0x0)), (0x4BF0830A06640000, .atomMinS (w 4 6 5 0 0xCC 4 0x0)),
    (0x4BF0830A00680000, .atomMaxS (w 4 6 5 0 0x0D 0 0x0)), (0x4BF0830A01800000, .afadd (w 4 6 5 0 0x30 0 0x0)),
    (0x4BF0830A00880000, .amxf (w 4 6 5 0 0x11 0 0x0)), (0x4BF0831001900000, .amxi (w 4 6 8 0 0x32 0 0x0)),
    (0x4BF6030A040C0000, .red (w 48 6 5 0 0x81 4 0x0)), (0x4BF6030A00800000, .redFadd (w 48 6 5 0 0x10 0 0x0)),
    (0x4BF6030A00880000, .redAmxf (w 48 6 5 0 0x11 0 0x0)), (0x4BF6010801900000, .redAmxi (w 48 2 4 0 0x32 0 0x0))] = true := by decide

/-- R257: words of major 0x4C. -/
theorem test_words_4C : decodes [(0x4CF0030A000A0005, .fence (w 0 6 5 0 0x01 2 0x5)), (0x4CF0030006110000, .pref (w 0 6 0 0 0xC2 1 0x0)),
    (0x4CF0030002190080, .evict (w 0 6 0 0 0x43 1 0x80))] = true := by decide

/-- R260: words of major 0x60. -/
theorem test_words_60 : decodes [(0x60F2831310080001, .bcpG2s (w 20 6 9 34 0x01 0 0x1)), (0x60F2848D10090000, .bcpS2g (w 20 9 6 34 0x01 1 0x0)),
    (0x60F28491100A0002, .bcpS2s (w 20 9 8 34 0x01 2 0x2)), (0x60F28491101001C3, .bcps (w 20 9 8 34 0x02 0 0x1C3)),
    (0x60F283011018003F, .bcpq (w 20 6 0 34 0x03 0 0x3F)), (0x60F28301102003C4, .bcpm (w 20 6 0 34 0x04 0 0x3C4)),
    (0x60F2831310280000, .bcpUnpk4s (w 20 6 9 34 0x05 0 0x0)), (0x60F2831310300000, .bcpUnpk4f (w 20 6 9 34 0x06 0 0x0)),
    (0x60F2831310380000, .bcpUnpk8s (w 20 6 9 34 0x07 0 0x0)), (0x60F2831310400003, .bcpUnpk8f (w 20 6 9 34 0x08 0 0x3))] = true := by decide

/-- R264: words of major 0x61. -/
theorem test_words_61 : decodes [(0x61F0028C00080095, .qdef (w 0 5 6 0 0x01 0 0x95)), (0x61F080000010000F, .qpopE (w 4 0 0 0 0x02 0 0xF)),
    (0x61F1A00000180001, .qpopF (w 13 0 0 0 0x03 0 0x1)), (0x61F0028000200001, .qpushF (w 0 5 0 0 0x04 0 0x1)),
    (0x61F0028000280001, .qpushE (w 0 5 0 0 0x05 0 0x1)), (0x61F0800000300001, .qstat (w 4 0 0 0 0x06 0 0x1))] = true := by decide

/-- R267: words of major 0x62. -/
theorem test_words_62 : decodes [(0x62F0028C00080007, .send (w 0 5 6 0 0x01 0 0x7)), (0x62F080000010FFFF, .recv (w 4 0 0 0 0x02 0 0xFFFF)),
    (0x62F0800030180007, .recvw (w 4 0 0 6 0x03 0 0x7))] = true := by decide

/-- R270: words of major 0x63. -/
theorem test_words_63 : decodes [(0x63F0000C00080003, .tcw (w 0 0 6 0 0x01 0 0x3)), (0x63F0200C00100000, .tcwT (w 1 0 6 0 0x02 0 0x0)),
    (0x63F0020C001B0001, .tlw (w 0 4 6 0 0x03 3 0x1)), (0x63F0220C00240000, .tlwT (w 1 4 6 0 0x04 4 0x0)),
    (0x63F0020C00290000, .tladv (w 0 4 6 0 0x05 1 0x0))] = true := by decide

/-- R271, R274: words of major 0x64. -/
theorem test_words_64 : decodes [(0x64F002800008000F, .bari (w 0 5 0 0 0x01 0 0xF)), (0x64F0800000100001, .bara (w 4 0 0 0 0x02 0 0x1)),
    (0x64F0A980E0180000, .barw (w 5 19 0 28 0x03 0 0x0))] = true := by decide

/-- R276: words of major 0x65. -/
theorem test_words_65 : decodes [(0x65F0830000080002, .coll (w 4 6 0 0 0x01 0 0x2))] = true := by decide

/-- R279, R283: words of major 0x70. -/
theorem test_words_70 : decodes [(0x70F0028000080007, .cvdef (w 0 5 0 0 0x01 0 0x7)), (0x70F0029060107871, .mmaR (w 0 5 8 12 0x02 0 0x7871)),
    (0x70F0041800180211, .mmaS (w 0 8 12 0 0x03 0 0x211)), (0x70F0029060200000, .mmaPR (w 0 5 8 12 0x04 0 0x0)),
    (0x70F0029000280680, .mmaPS (w 0 5 8 0 0x05 0 0x680))] = true := by decide

/-- R292 to R294: words of major 0x71. -/
theorem test_words_71 : decodes [(0x71F000000008000F, .mmaz (w 0 0 0 0 0x01 0 0xF)), (0x71F0828000100003, .maccr (w 4 5 0 0 0x02 0 0x3)),
    (0x71F0029000180003, .maccw (w 0 5 8 0 0x03 0 0x3)), (0x71F000000020FFFF, .maccl (w 0 0 0 0 0x04 0 0xFFFF)),
    (0x71F0000000281234, .maccs (w 0 0 0 0 0x05 0 0x1234))] = true := by decide

/-- R295 to R297: words of major 0x72. -/
theorem test_words_72 : decodes [(0x72F0028000090010, .mscl (w 0 5 0 0 0x01 1 0x10)), (0x72F0030A00140042, .mqnt (w 0 6 5 0 0x02 4 0x42)),
    (0x72F0030000180002, .mamax (w 0 6 0 0 0x03 0 0x2))] = true := by decide

/-- R302, R303: words of major 0x78. -/
theorem test_words_78 : decodes [(0x78F0028C40080000, .mvtx (w 0 5 6 8 0x01 0 0x0)), (0x78F0028C38100000, .mprim (w 0 5 6 7 0x02 0 0x0)),
    (0x78F0028C38181000, .memit (w 0 5 6 7 0x03 0 0x1000))] = true := by decide

/-- R304 to R307: words of major 0x79. -/
theorem test_words_79 : decodes [(0x79F0012E00080000, .vamp (w 0 2 23 0 0x01 0 0x0)), (0x79F0828C00100003, .vwarpX (w 4 5 6 0 0x02 0 0x3)),
    (0x79F0828C00110000, .vwarpY (w 4 5 6 0 0x02 1 0x0)), (0x79F1028000180001, .gzlt (w 8 5 0 0 0x03 0 0x1)),
    (0x79F0828C00200002, .smpl (w 4 5 6 0 0x04 0 0x2))] = true := by decide

/-- R308 to R310: words of major 0x7A. -/
theorem test_words_7A : decodes [(0x7AF0828C0008000F, .tileo (w 4 5 6 0 0x01 0 0xF)), (0x7AF0828C00100004, .lens (w 4 5 6 0 0x02 0 0x4)),
    (0x7AF0828C00180003, .serq (w 4 5 6 0 0x03 0 0x3))] = true := by decide

/-- R311 to R313: words of major 0x7B. -/
theorem test_words_7B : decodes [(0x7BF0849400080004, .texB (w 4 9 10 0 0x01 0 0x4)), (0x7BF084946009000C, .texT (w 4 9 10 12 0x01 1 0xC)),
    (0x7BF08494600A0000, .texA (w 4 9 10 12 0x01 2 0x0)), (0x7BF0849400130002, .texg (w 4 9 10 0 0x02 3 0x2)),
    (0x7BF0849400180002, .texq (w 4 9 10 0 0x03 0 0x2))] = true := by decide

/-- R314 to R320: words of major 0x7C. -/
theorem test_words_7C : decodes [(0x7CF0050000080001, .ryl (w 0 10 0 0 0x01 0 0x1)), (0x7CF0051660100005, .rylV (w 0 10 11 12 0x02 0 0x5)),
    (0x7CF0850000180000, .ryt (w 4 10 0 0 0x03 0 0x0)), (0x7CF0808000200000, .ryrM (w 4 1 0 0 0x04 0 0x0)),
    (0x7CF080BE48210000, .ryrH (w 4 1 31 9 0x04 1 0x0)), (0x7CF1008000280000, .rys (w 8 1 0 0 0x05 0 0x0)),
    (0x7CF0850000300000, .ryh (w 4 10 0 0 0x06 0 0x0)), (0x7CF0050000380000, .ryx (w 0 10 0 0 0x07 0 0x0))] = true := by decide

/-- R162, R163: pair words: NOP and NOP; MOV w1, w2 beside FMIN w3, w4; XOR w0, 6 beside MOVK w1, k5, under other guards. -/
theorem test_words_pair :
    decodeTableWord 64 0x81E0000003C00000 = some (.pairWord ⟨0, 15, 0, false, 0⟩ ⟨0, 15, 0, false, 0⟩) ∧
    decodeTableWord 64 0x85E108003BC62000 = some (.pairWord ⟨2, 15, 1, false, 0x0800⟩ ⟨14, 15, 3, false, 0x1000⟩) ∧
    decodeTableWord 64 0x8C20800656022800 = some (.pairWord ⟨6, 1, 0, true, 6⟩ ⟨21, 8, 1, false, 0x1400⟩) := by decide
/-- R388: the commands by opcode, and the reserved opcodes beside them. -/
theorem test_words_commands :
    [1, 2, 3, 4, 5, 6, 7, 8, 9, 10, 11, 12, 13, 14, 15].map (decodeTableWord 512) =
      [some .launch, some .relay, some .ctxload, some .ctxupd, some .ctxsave, some .ctxres, some .ctxdisc, some .tlbinv, some .pipe,
       some .metadataExport, some .metadataImport, some .viewSetBind, some .viewSetUnbind, some .collective, some .viewSetStatus] ∧
    decodeTableWord 512 0 = none ∧ decodeTableWord 512 16 = none := by decide
/-- R467: the management operations by number. -/
theorem test_management_numbers :
    [1, 2, 3, 4, 5, 6, 7, 8, 9, 10, 11, 12].map (fun n => decodeManagement [n]) =
      [some .claim, some .windowWrite, some .commandQueueSetup, some .faultQueueSetup, some .nodeRange, some .contextRange, some .destinations,
       some .moduleNumber, some .peerRoute, some .peerPortRetrain, some .clearCounters, some .moduleReset] ∧
    decodeManagement [13] = none := by decide
/-- R155, R167, R168: words of zeros and ones; an unassigned major; operation 0 and one past the last; a guard of 12 to 14 is left to where
the word stands; a pair word with bit 0 set. -/
theorem test_words_refused :
    refused [0, 2 ^ 64 - 1, 0x05F0828C000A0000, 0x00F0828C00020000, 0x00F0828C00620000, 0x22F0000000600000, 0x81E0000003C00001] = true := by decide

/-- R168: a bit of FN, of M or of IMM16 that the row does not allow. -/
theorem test_ill_fixed_fields : illFormed [.iadd (w 4 5 6 0 0x21 2 0), .iaddc (w 4 5 6 1 3 2 0), .iadd (w 4 5 6 0 1 2 1), .fabs (w 4 5 0 0 0x81 0 0),
    .fadd (w 4 5 6 0 1 5 0), .mov (w 4 5 0 0 1 5 0), .nop (w 0 0 0 0 3 1 0), .ld (w 4 6 0 0 0x23 0 0), .ld (w 4 6 0 0 3 1 0), .bcpG2s (w 20 6 9 34 1 0 4)] = true := by
  decide
/-- R157, R158, R160: an unused selector that is not 0; a read-only destination; a predicate above p11; a selector above 59; a status register that is no
window register. -/
theorem test_ill_selectors : illFormed [.not (w 4 5 6 0 5 6 0), .ineg (w 4 5 0 1 4 0 0), .nop (w 1 0 0 0 3 0 0), .mov (w 49 5 0 0 1 6 0),
    .icmp (w 12 5 6 0 1 2 0), .mov (w 4 60 0 0 1 6 0), .bcpG2s (w 32 6 9 34 1 0 0), .nop (w 0 1 0 0 3 0 0)] = true := by decide
/-- R159, R245: an odd pair, a pair that is read only as a destination, and a quad that is not a multiple of 4 or not of window registers. -/
theorem test_ill_pairs_and_quads : illFormed [.mov (w 4 5 0 0 1 7 0), .mov (w 5 6 0 0 1 7 0), .mov (w 50 6 0 0 1 7 0), .maccr (w 6 5 0 0 2 0 0),
    .maccr (w 32 5 0 0 2 0 0), .ld (w 6 8 0 0 5 0 0)] = true := by decide
/-- R156: the always guard admits no GN. -/
theorem test_ill_guard : illFormed [.nop { w 0 0 0 0 3 0 0 with gn := true }] = true := by decide
/-- R187, R189, R197, R203, R171, R227: the fields of a bit field, a condition, a work-identifier field, a sheaf, a control register, a comparison. -/
theorem test_ill_control : illFormed [.bfx (w 4 5 0 0 0x81 2 4), .bfx (w 4 5 0 0 0x81 2 (33 * 32)), .bfi (w 4 5 0 0 0x82 6 (8 * 32 + 25)),
    .icmp (w 1 5 6 6 1 2 0), .widf (w 4 0 0 0 8 0 6), .shfb (w 0 1 0 0 1 2 6), .shfb { w 0 1 0 0 1 2 10 with g := 3 }, .csrr (w 4 0 0 0 10 0 0x22),
    .csrr (w 4 0 0 0 10 0 0x1), .csrw (w 0 4 0 0 11 1 0), .fcmp (w 1 5 6 8 1 0 0)] = true := by decide
/-- R228, R229, R231, R237: a reserved format; an element beyond the register; SAT with no FP32 side; the E5M2 bit elsewhere; a block form with two
FP32 sides; a stride of 0. -/
theorem test_ill_formats : illFormed [.cvt (w 4 5 0 0 0xF0 0 0), .cvt (w 4 5 0 0 0x0F 0 0), .cvt (w 4 5 0 0 0x30 0 0x1000), .cvt (w 4 5 0 0 0x10 0 0x1),
    .cvt (w 4 5 0 0 0x68 0 2), .cvtBs (w 4 5 0 6 0x00 0 4), .cvtBs (w 4 5 0 6 0x15 0 4), .wnw (w 1 5 6 7 1 0 0), .wnwCt (w 1 5 6 0 2 0 0)] = true := by decide
/-- R249, R250, R253: a size code of 0 or 6; SX with a word; a RED of order 1; an atomic operation number that is not listed; AMXI without its width bit. -/
theorem test_ill_memory : illFormed [.ld (w 4 6 0 0 0 0 0), .st (w 0 6 4 0 6 0 0), .ld (w 4 6 0 0 0xB 0 0), .lds (w 4 5 0 0 0x41 3 0), .lds (w 4 5 0 0 1 0 0),
    .red (w 48 6 5 0 0x41 1 0), .red (w 48 6 5 0 14 0 0), .red (w 4 6 5 0 1 0 0), .atomAdd (w 48 6 5 0 1 0 0), .amxi (w 4 6 8 0 0x12 0 0),
    .redAmxf (w 48 6 5 0 0xD1 3 0)] = true := by decide
/-- R257, R267, R270: a fence of no class; a SEND of tag 0xFFFF; a timeline word at a scope that is not listed. -/
theorem test_ill_asynchronous : illFormed [.fence (w 0 6 5 0 1 2 0), .send (w 0 5 6 0 1 0 0xFFFF), .tlw (w 0 4 6 0 3 0 0), .tlw (w 0 4 6 0 3 5 0)] = true := by
  decide
/-- R283, R295 to R297, R303, R311: three layout words beyond k15; a fold of a tile with itself; an odd tile pair; MEMIT's IMM16; a texture's base register. -/
theorem test_ill_engines : illFormed [.mmaS (w 0 8 12 0 3 0 0x700), .mscl (w 0 5 0 0 1 0 0x11), .mqnt (w 0 6 5 0 2 0 1), .mamax (w 0 6 0 0 3 0 1),
    .memit (w 0 5 6 7 3 0 0), .memit (w 0 5 6 7 3 0 0x1004), .texB (w 4 9 10 0 1 0 3), .texq (w 4 9 10 0 3 0 14)] = true := by decide
/-- R162, R163, R165: a NOP slot with fields; an opcode above 23; MOVK of an immediate or above k15; register bits beyond A; two memory slots. -/
theorem test_ill_pairs : illFormed [.pairWord ⟨0, 15, 1, false, 0⟩ ⟨0, 15, 0, false, 0⟩, .pairWord ⟨24, 15, 1, false, 0⟩ ⟨0, 15, 0, false, 0⟩,
    .pairWord ⟨21, 15, 1, true, 0⟩ ⟨0, 15, 0, false, 0⟩, .pairWord ⟨21, 15, 1, false, 0x4000⟩ ⟨0, 15, 0, false, 0⟩,
    .pairWord ⟨1, 15, 1, false, 1⟩ ⟨0, 15, 0, false, 0⟩, .pairWord ⟨19, 15, 1, true, 0⟩ ⟨20, 15, 2, true, 1⟩] = true := by decide
/-- R165: MOV w1 beside MOV w1, and three reads of one bank. -/
theorem test_pair_registers : pairRegsOk ⟨1, 15, 1, true, 0⟩ ⟨1, 15, 1, true, 0⟩ id = false ∧
    pairRegsOk ⟨2, 15, 0, false, 0x1000⟩ ⟨2, 15, 8, false, 0⟩ id = false ∧ pairRegsOk ⟨2, 15, 0, false, 0x1000⟩ ⟨2, 15, 1, false, 0x1400⟩ id = true := by decide
/-- R168: no event or command is a word. -/
theorem test_events_are_no_words : illFormed [.heartbeatPeriod, .launch, .rdmaWrite, .copyCompletion 0] = true := by decide

/-- R24 to R26: tables for the page at 0x10000 below a root at 0x1000, and its leaf: readable, writable, executable, coherent. -/
def tables : List Host.Cell :=
  let e (frame : Nat) : List Byte := toBytes 8 (frame * 2 ^ 19 + 1)
  [(0x1000, e 2), (0x2000, e 3), (0x3000, e 4), (0x4080, toBytes 8 (probeLeaf ||| 0x200).toNat)].foldl (fun m p => setBytes m p.1 p.2) []
/-- A thread in the first slot of core 0 that stands at 0x10000 as the gather under issue. Its group's page, mapped to itself, is held for
instructions and for data. Its tenant has a window over the first 2 MiB, four contexts and eight nodes. -/
def base : State :=
  { State.reset with
    hbm := tables
    tenants := [(0, { Tenant.fresh with windows := [(0, 0x3F)], ctxFirst := 0, ctxCount := 4, nodeFirst := 0, nodeCount := 8 })]
    ctxs := [(0, { probeCtx with root := 0x1000 })], groups := [(1, probeGroup 0 0)]
    threads := [(0, { thresherThread 1 0x10000 0 with tid := 0, words := 64 })]
    tlb := [fetchUnit 0, dataUnit 0 0].map fun u => { unit := u, ctx := 0, va := probeVa, bits := 12, level := 0, entry := probeLeaf ||| 0x200 }
    ready := true, portUp := true, upStep := 7, nextGid := 2
    gather := some { core := 0, quad := 0, lanes := [0] }, armed := true }
/-- With registers of its window. -/
def regs (s : State) (l : List (Nat × Word)) : State :=
  s.updThread 0 fun th => { th with stack := l.foldl (fun m e => Store.wr 0 m e.1 e.2) th.stack }
/-- With a change of its thread, its group, its context. -/
def inTh (s : State) (f : Thread → Thread) : State := s.updThread 0 f
def inGr (s : State) (f : Group → Group) : State := s.updGroup 1 f
def inCx (s : State) (f : Ctx → Ctx) : State := s.updCtx 0 f
/-- With bytes of HBM. -/
def mem (s : State) (a : Nat) (bs : List Byte) : State := { s with hbm := setBytes s.hbm a bs }
/-- With bytes above all that HBM holds. -/
def above (s : State) (a : Nat) (bs : List Byte) : State :=
  { s with hbm := s.hbm ++ (bs.zipIdx.filter fun b => b.1 != 0).map fun b => (a + b.2, b.1) }
/-- The state that an outcome gives. -/
def next (o : Host.Outcome State Fault Refusal) : State :=
  match o with
  | .next t => t
  | _ => State.reset
def th0 (s : State) : Thread := (Store.get s.threads 0).getD (thresherThread 0 0 0)
def gr1 (s : State) : Group := (s.group 1).getD (probeGroup 0 0)
/-- A stack word of the thread after an instruction. -/
def after (i : Instr) (s : State) (n : Nat) : Word := Store.rd 0 (th0 (next (exec i s))).stack n

/-- The word issues for a gather of one active lane, which meets a condition of the instruction's own. -/
def alone (i : Instr) (s : State) (ok : Lane → Bool) : Bool :=
  match rowOf i, s.gatherLanes with
  | some (r, x), some [v] =>
    wellFormed i && v.th.late.isNone && !v.guardBad x.g x.gn && (!isThresher v.key || (thresherMay i && !writesUniform r x)) &&
    v.active x.g x.gn && v.free r x && ok v
  | _, _ => false
theorem alone_issues {i : Instr} {s : State} {ok : Lane → Bool} (h : alone i s ok = true) :
    ∃ r x v, Issues i r x s [v] ∧ v.active x.g x.gn = true ∧ ok v = true := by
  unfold alone at h
  split at h
  · rename_i r x v hr hv
    simp only [Bool.and_eq_true, Bool.not_eq_true', Bool.or_eq_true, Option.isNone_iff_eq_none] at h
    obtain ⟨⟨⟨⟨⟨⟨hw, hl⟩, hg⟩, ht⟩, ha⟩, hf⟩, ho⟩ := h
    refine ⟨r, x, v, ⟨hr, hv, hw, ?_, ?_, ?_, ?_⟩, ha, ho⟩ <;> simp only [List.mem_singleton, forall_eq]
    · exact hl
    · exact hg
    · intro h; simp_all
    · intro; exact hf
  · exact absurd h (by simp)
/-- Every instruction of the list so issues. -/
def eachAlone (l : List Instr) (s : State) (ok : Lane → Bool) : Bool := l.all fun i => alone i s ok
/-- R22, as a test. -/
def admitted (s : State) (v : Lane) (a : Nat) : Bool := (s.ctxOf v).any fun c => c.canonical a
theorem admitted_admits {s : State} {v : Lane} {a : Nat} (h : admitted s v a = true) : v.admits s a := by
  unfold admitted at h
  cases hc : s.ctxOf v with
  | none => simp [hc] at h
  | some c => exact ⟨c, hc, by simpa [hc] using h⟩
/-- The page and the address of the data. -/
def dataAt : State := regs base [(6, 0x10800)]
def leaf0 (s : State) (v : Lane) (va : Nat) (kind : AccessKind) : Bool := (v.page s va kind).any fun t => t.peer.isNone && t.kind == 1
def queue2 (mc : Bool) : Queue :=
  { base := 0, size := 256, n := 2, mcast := mc, sender := 0, free := [0, 1], filled := [], slots := [.free, .free], engines := [], sent := 0,
    credits := [2, 2], ring := [] }
/-- With a second member and queues of both kinds. -/
def gang2 (s : State) : State :=
  let g : Group := { gr1 s with gangSize := 2, queues := [(0, queue2 false), (1, queue2 true)] }
  { s with groups := [(1, g), (2, { g with member := 1, core := 1 })] }
/-- A launch of extents 3, 5, 2, 1 whose walker flag is set, with its group in base. -/
def launch1 : Launch :=
  { ctx := 0, record := Inputs.none.record, header := List.replicate 22 0 ++ [2] ++ List.replicate 9 0 ++ [3, 0, 5, 0, 2, 0, 1, 0] ++ List.replicate 472 0,
    args := [], gangs := 1, next := 1, finished := 0, ready := some 0, walker := 0, passes := [], claims := [], noted := [], seed := 0, status := 0 }
def launched : State := inGr { base with launches := [(0, launch1)] } fun g => { g with widths := [8, 8, 8, 8, 8, 8], fields := [0, 0, 0, 0, 0] }
/-- A view set of two views of 1,920 by 96 (R332): frames of 10 ms from counter value 10^9 on, rows of 10 us, network output, 4 cores a die. -/
def setDesc : List Byte := [2, 0, 2, 4] ++ toBytes 2 1920 ++ toBytes 2 96 ++ toBytes 4 1200 ++ toBytes 4 10000000 ++ toBytes 4 10000 ++ toBytes 4 0 ++
  toBytes 8 1000000000 ++ [0, 0, 0, 0, 0, 0, 0, 0] ++ toBytes 8 0x18000 ++ toBytes 8 0x19000 ++ toBytes 8 0
/-- R339's template for x, one segment for y; `m` 1 names a lens mesh. -/
def viewRecord (m : Nat) : List Byte := List.replicate 112 0 ++ [3, 0x11] ++ toBytes 2 (0x10000 - 300) ++ toBytes 2 300 ++ [0, 0] ++ [1, 0, 0, 0, 0, 0, 0, 0] ++
  toBytes 8 (0x10000000 * m) ++ toBytes 8 m
def set1 : ViewSet := { ViewSet.fresh 0 setDesc [viewRecord 0, viewRecord 1] with latchNo := 16, deadNo := 16, row := 480, window := 5, first := 5 }
/-- R339's latch, of frame 5. -/
def latch1 : Latch := { frame := 5, clock := 1050000000, gx := 0x447A2CCD, gy := 0, xb := [breakpoints 1920 (set1.template 0 0) 0x447A2CCD,
  breakpoints 1920 (set1.template 1 0) 0x447A2CCD], yb := [0] }
def viewed : State := { base with views := [(0, { set1 with latches := [(0, latch1)] })] }
/-- A record of context 0 by its opcode, flags, node and PRED, and the bytes from 8 on. -/
def record (opc flags node pred : Nat) (body : List Byte) : Cmd :=
  { tenant := 0, queue := 0, index := 0,
    bytes := toBytes 1 opc ++ toBytes 1 flags ++ toBytes 2 0 ++ toBytes 2 node ++ toBytes 2 pred ++ body ++ List.replicate (56 - body.length) 0 }
def asked (s : State) (c : Cmd) : State := { s with inputs := { Inputs.none with record := c } }
/-- The record stands at the inputs and breaks no rule of the header. -/
def stands (opc : Nat) (c : Cmd) : Bool := (asked base c).inputs.record == c && c.opc == opc && c.headerStatus == 0
/-- An operation of the thread in flight. -/
def flight (k : OpKind) : AOp := { thread := 0, gid := 1, core := 0, pc := 0x10000, dst := [.stack 4], tc := none, kind := k }
def inFlight (s : State) (k : OpKind) : State := { s with ops := [(0, flight k)], nextOp := 1 }
def load1 : LoadOp := { size := 4, sx := false, data := [1, 2, 3, 4], left := 0, remote := [], poison := none, atomic := none }
def write1 : Pending :=
  { pa := 0x10820, size := 4, code := 0, data := [1, 2, 3, 4], cas := [], ra := false, returns := false, op := 0, off := 0, cmp := false, ctx := 0, launch := 0,
    who := 0, va := 0, cl := 0, wp := 0, ep := 0 }
def tile1 : TileOp := { slot := 0, view := 0, strip := 0, col := 0, base := 0, lens := false, frame := 5 }
/-- A collective of one rank over 4 words. -/
def collBody : List Byte := List.replicate 8 0 ++ [0, 3, 0, 0, 1, 0, 0, 0] ++ toBytes 8 0x10900 ++ toBytes 8 0x10A00 ++ toBytes 8 4 ++ toBytes 8 0x10880 ++ List.replicate 16 0
/-- A ring of 16 records at 0x10800 with its control block at 0x10C00, by WIDX and RIDX. -/
def ring (widx ridx : Nat) (c : Cmd) (poison : Store Nat) : State :=
  let s := mem (mem base 0x10800 c.bytes) 0x10C00 (toBytes 8 widx)
  let q : CmdQ := { base := 0x10800, k := 4, ctrl := 0x10C00, ridx := ridx, running := [], waiting := [] }
  { s with poison := poison, tenants := s.tenants.map fun t => (t.1, { t.2 with queues := [(0, q)] }) }

/-- The group's thresher slot as the gather under issue. -/
def inSlot (s : State) : State :=
  { s with
    thresher := [(0, 1)], threads := [(thresherKey 0, { thresherThread 1 0x10000 0 with words := 64 })]
    gather := some { core := 0, quad := 0, lanes := [thresherKey 0] } }

/-! States that meet the hypotheses of the statements about instruction words. -/

theorem witness_IntegerArithmetic : eachAlone
    [.iadd (w 4 5 6 0 0x41 2 0), .isub (w 4 5 0 0 0x82 2 1), .imul (w 4 5 6 0 8 7 0 |> fun x => { x with d := 8, a := 10, b := 12 }), .imad (w 4 5 6 7 10 4 0),
     .ineg (w 4 5 0 0 4 0 0), .iabs (w 4 5 0 0 0x45 1 0), .iaddc (w 4 5 6 1 3 6 0), .imin (w 4 5 6 0 6 2 0), .imax (w 4 5 6 0 7 6 0), .imulh (w 4 5 6 0 9 2 0),
     .imadw (w 4 6 7 8 0x4B 6 0)] base (fun _ => true) = true := by decide +kernel
theorem witness_LogicShiftsAndBitFields : eachAlone
    [.and (w 4 5 6 0 1 6 0), .or (w 4 5 6 0 2 6 0), .xor (w 4 5 6 0 3 6 0), .andn (w 4 5 0 0 0x84 6 15), .not (w 4 5 0 0 5 6 0), .shl (w 4 5 6 0 6 6 0),
     .shr (w 4 6 5 0 7 7 0), .sar (w 4 5 0 0 0x88 6 32), .rot (w 4 5 6 0 9 6 0), .bfx (w 4 5 6 0 1 2 0), .bfi (w 4 5 0 0 0x82 6 (8 * 32 + 24)),
     .popc (w 4 6 0 0 3 7 0), .clz (w 4 5 0 0 4 6 0), .brev (w 4 6 0 0 5 7 0), .prmb (w 4 5 6 0 6 6 0x8F01)] base (fun _ => true) = true := by decide +kernel
theorem witness_ComparesAndPredicates : eachAlone
    [.icmp (w 1 5 6 5 1 2 0), .pset (w 3 1 2 0 2 0 8), .pmovR (w 4 0 0 0 3 0 0), .pmovP (w 0 4 0 0 4 0 0xFFF), .sel (w 4 5 6 11 5 6 0)] base
    (fun _ => true) = true := by decide +kernel
/-- And a MOV of a word with one wrong bit, and of an uncorrectable one with and without ERRPOL.TRAP. -/
theorem witness_MovesAndAddresses : eachAlone
    [.mov (w 4 5 0 0 1 6 0), .moviLo (w 4 0 0 0 2 0 1), .moviHi (w 4 0 0 0 2 1 1), .moviS (w 4 0 0 0 2 2 0xFFFF), .lea (w 4 6 8 0 6 4 0),
     .leaN (w 4 6 8 0 7 0 0), .widf (w 4 0 0 0 8 1 5), .sysr (w 4 0 0 0 9 0 7)] base (fun _ => true) = true ∧
    (let x := w 4 5 0 0 1 6 0
     let ok (s : State) (weak bad : Nat) (traps : Bool) : Bool := match rowOf (.mov x), s.gatherLanes with
      | some (r, _), some [v] => wellFormed (.mov x) && v.th.late.isNone && !v.guardBad 15 false && !isThresher v.key && v.active 15 false && !v.heldBack r.op &&
          (v.rowPlaces r x).all (fun d => !isPending v.th v.g d) && (r.operands x).all (fun o => v.baseOk o.1 o.2) &&
          ((v.rowReads r x).filter fun d => isWeak v.th d.1).length == weak && ((v.rowReads r x).filter fun d => isBad v.th v.g d.1).length == bad &&
          (v.rowReads r x).all (fun d => d.2.poison == 0) && ((s.ctxOf v).map fun c => c.errpol.getLsbD 0).getD false == traps
      | _, _ => false
     let spoiled := inTh base fun th => { th with bad := [5] }
     ok (inTh base fun th => { th with weak := [5] }) 1 0 false && ok spoiled 0 1 false && ok (inCx spoiled fun c => { c with errpol := 1 }) 0 1 true) = true := by
  decide +kernel
/-- At the last index of each. -/
theorem witness_IndexedMoves :
    alone (.movk (w 4 5 0 0 3 0 5)) (regs base [(5, 10)]) (fun v => decide ((v.r32 5).toNat + 5 = 15 ∧ isPending v.th v.g (.uniform 15) = false ∧
      v.sound (.uniform 15) = true)) = true ∧
    eachAlone [.movx (w 4 5 0 0 4 0 0), .movxs (w 0 5 6 0 5 0 0)] (regs base [(5, 31)]) (fun v => decide ((v.r32 5).toNat = 31 ∧
      isPending v.th v.g (.stack 31) = false ∧ v.sound (.stack 31) = true)) = true := by decide +kernel
/-- Outside a sheaf and inside one, to its last instruction; a call with its last words, a return to the first; SHFB with tables of zeros at
the page, SHFE at the end. -/
theorem witness_BranchesAndSheaves :
    let inside (s : State) : State := inTh s fun th => { th with pc := 0x10050, sheaf := some { base := 0x10000, stop := 0x10060, paths := 2, path := 1, tables := [] } }
    let far := regs base [(6, 0x10060)]
    alone (.bra (w 0 0 0 0 1 0 2)) base (fun v => admitted base v 0x10010 && v.th.sheaf.isNone) = true ∧
    alone (.bra (w 0 0 0 0 1 0 2)) (inside base) (fun v => admitted (inside base) v 0x10060 && v.th.sheaf.any fun sh =>
      sh.base + 8 + 24 * sh.paths ≤ 0x10060 && 0x10060 ≤ sh.stop) = true ∧
    alone (.brx (w 0 6 0 0 2 0 0)) far (fun v => admitted far v (v.r64 6).toNat && (v.r64 6).toNat % 8 == 0 && v.th.sheaf.isNone) = true ∧
    eachAlone [.call (w 0 0 0 0 3 0 2), .callx (w 0 6 0 0 4 0 0)] (inTh far fun th => { th with wb := 16 }) (fun v => admitted far v 0x10060 &&
      admitted far v 0x10010 && v.th.sheaf.isNone && v.th.wb + 48 - v.th.sb == v.th.words && !isPending v.th v.g (v.place 30) &&
      !isPending v.th v.g (v.place 31)) = true ∧
    alone (.ret (w 0 0 0 0 5 0 0)) (inTh (regs base [(30, 0x10008)]) fun th => { th with wb := 16 }) (fun v => v.th.sheaf.isNone &&
      v.th.wb - 16 == v.th.sb && admitted base v (v.stackWord 15 ++ v.stackWord 14).toNat && (v.stackWord 15 ++ v.stackWord 14).toNat % 8 == 0 &&
      [v.place 14, v.place 15].all fun d => !isPending v.th v.g d && v.sound d) = true ∧
    alone (.shfb (w 0 1 0 0 1 2 10)) base (fun v => v.th.sheaf.isNone && decide ((v.pred 1).toNat < 2) && !base.setShort v.core (quadOf v.key) v.g.ctx v.th.pc &&
      match (base.tick.fetchBytes 3 (fetchAsker v.key v.g.ctx v.th.pc) (v.th.pc + 8) 48 v.th.peerBuf).2 with
      | .ok bs => tablesOk (dwordsOf 6 bs)
      | .error _ => false) = true ∧
    alone (.shfe (w 0 0 0 0 2 0 0)) (inTh (inside base) fun th => { th with pc := 0x10060 }) (fun v => v.th.sheaf.any fun sh => sh.stop == v.th.pc) = true := by
  decide +kernel
theorem witness_TrapsAndReturns :
    alone (.trap (w 0 0 0 0 1 0 77)) base (fun _ => true) = true ∧
    eachAlone [.tret (w 0 0 0 0 2 0 0), .tretN (w 0 0 0 0 2 1 0)] (inTh base fun th => { th with tcause := 0x10A, tepc := 0x10020 })
      (fun v => v.th.sheaf.isNone && v.th.tcause.getLsbD 8) = true := by decide +kernel
theorem witness_SystemControl :
    let stop := inCx base fun c => { c with stop := some 100 }
    eachAlone [.nop (w 0 0 0 0 3 0 0), .yield (w 0 0 0 0 4 0 0), .exit (w 0 0 0 0 5 0 0), .pulse (w 0 0 0 0 6 0 0)] base (fun _ => true) = true ∧
    alone (.safept (w 0 0 0 0 7 0 0)) base (fun v => (base.ctxOf v).all (fun c => c.stop.isNone) && base.gangStops.isEmpty) = true ∧
    alone (.safept (w 0 0 0 0 7 0 0)) stop (fun v => (stop.ctxOf v).any fun c => c.stop.isSome) = true := by decide +kernel
theorem witness_SpecialRegisters :
    eachAlone ([0, 0x11, 0x20, 0x21, 0x30, 0x31, 0x32, 0x40, 0x50, 0x51, 0x60].map fun a => .csrr (w 4 0 0 0 10 0 a)) base (fun _ => true) = true ∧
    eachAlone ([0x10, 0x22, 0x23, 0x41, 0x52].map fun a => .csrr (w 4 0 0 0 10 1 a)) base (fun _ => true) = true ∧
    eachAlone [.csrw (w 0 4 0 0 11 0 0), .csrw (w 0 4 0 0 11 1 0x10), .csrw (w 0 4 0 0 11 0 0x20), .csrw (w 0 4 0 0 11 1 0x23)] base (fun _ => true) = true := by
  decide +kernel
/-- At the first window and the first index that trap. -/
theorem witness_WindowAndIndexTraps :
    eachAlone [.call (w 0 0 0 0 3 0 2), .callx (w 0 6 0 0 4 0 0)] (inTh base fun th => { th with wb := 32 }) (fun v => v.th.sheaf.isNone &&
      decide (v.th.words < v.th.wb + 48 - v.th.sb) && !isPending v.th v.g (v.place 30) && !isPending v.th v.g (v.place 31)) = true ∧
    alone (.ret (w 0 0 0 0 5 0 0)) (inTh base fun th => { th with wb := 16, sb := 16 }) (fun v => v.th.sheaf.isNone && decide (v.th.wb - 16 < v.th.sb) &&
      [v.place 14, v.place 15].all fun d => !isPending v.th v.g d && v.sound d) = true ∧
    alone (.movk (w 4 5 0 0 3 0 6)) (regs base [(5, 10)]) (fun v => decide (15 < (v.r32 5).toNat + 6)) = true ∧
    eachAlone [.movx (w 4 5 0 0 4 0 0), .movxs (w 0 5 6 0 5 0 0)] (regs base [(5, 32)]) (fun v => decide (31 < (v.r32 5).toNat)) = true := by decide +kernel
/-- Across a boundary of 4 KiB, and ordered at a natural address. -/
theorem witness_LoadsAndStores :
    let s := regs base [(6, 0x10FFD)]
    eachAlone [.ld (w 4 6 0 0 4 0 0), .st (w 0 6 4 0 4 0 0)] s (fun v => admitted s v 0x10FFD && admitted s v 0x11004) = true ∧
    eachAlone [.ld (w 4 6 0 0 0x14 3 3), .st (w 0 6 4 0 0x24 3 3)] s (fun v => admitted s v 0x11000 && admitted s v 0x11007) = true := by decide +kernel
/-- At the end of the scratchpad, a store of the thresher slot too; an element of a layout of one word per element, without and with a mode; the last argument. -/
theorem witness_Scratchpad :
    let s := inGr (regs base [(5, 65520)]) fun g => { g with args := [7] }
    let off (v : Lane) : Int := ((v.r32 5).toNat : Int)
    let layout (s : State) (mode : Nat) (v : Lane) : Bool :=
      let l := Layout.of (v.g.layoutWords 4)
      let ps := l.byteOffsets 0 0 0
      l.legal 4 && l.mode == mode && ps.all (fun o => decide (o < v.g.spLen)) && v.g.spClean (ps.foldl min (ps.headD 0)) ps.length &&
      (layoutPlaces 4).all (fun d => !isPending v.th v.g d.1 && v.sound d.1) && !s.boardBlocks v (v.g.pool 0) (v.g.pool 127) false
    let slot := inSlot (inGr base fun g => { g with spLen := 1024 })
    alone (.lds (w 4 5 0 0 1 5 0)) s (fun v => decide (0 ≤ off v ∧ off v % 16 = 0 ∧ off v + 16 = v.g.spLen ∧
      s.boardBlocks v (v.g.pool (off v).toNat) (v.g.pool ((off v).toNat + 15)) false = false ∧ v.g.spClean (off v).toNat 16 = true)) = true ∧
    alone (.sts (w 0 5 8 0 2 5 0)) s (fun v => decide (0 ≤ off v ∧ off v % 16 = 0 ∧ off v + 16 = v.g.spLen ∧
      s.boardBlocks v (v.g.pool (off v).toNat) (v.g.pool ((off v).toNat + 15)) true = false ∧ isThresher v.key = false)) = true ∧
    alone (.sts (w 0 5 8 0 2 5 0x3F0)) slot (fun v => decide (off v = 0 ∧ 0x3F0 + 16 = v.g.spLen ∧ slot.boardFree v.core ≠ 0 ∧ isThresher v.key = true)) = true ∧
    alone (.ldk (w 4 48 0 0 4 0 0)) s (fun v => decide ((v.r32 48).toNat < v.g.args.length)) = true ∧
    alone (.ldt (w 4 5 6 7 3 0 4)) base (layout base 0) = true ∧
    alone (.ldt (w 4 5 6 7 3 0 4)) (inGr base fun g => { g with k := [(4, 0x200000)] }) (layout (inGr base fun g => { g with k := [(4, 0x200000)] }) 1) = true := by
  decide +kernel
theorem witness_Atomics :
    let s := regs base [(6, 0x10FF8)]
    let ok (v : Lane) : Bool := (v.r64 6).toNat % 8 == 0 && admitted s v 0x10FF8 && admitted s v 0x10FFF
    eachAlone [.atomAdd (w 4 6 5 0 1 0 0), .atomSub (w 4 6 8 0 0x22 0 0), .atomMinN (w 4 6 5 0 3 0 0), .atomMaxN (w 4 6 5 0 4 0 0), .atomAnd (w 4 6 5 0 5 0 0),
      .atomOr (w 4 6 5 0 6 0 0), .atomXor (w 4 6 5 0 7 0 0), .atomXchg (w 4 6 5 0 8 0 0), .atomCas (w 4 6 5 7 0x49 3 0), .atomInc (w 4 6 5 0 10 0 0),
      .atomDec (w 4 6 5 0 11 0 0), .atomMinS (w 4 6 5 0 12 0 0), .atomMaxS (w 4 6 5 0 13 0 0), .afadd (w 4 6 5 0 0x30 0 0), .amxf (w 4 6 5 0 17 0 0),
      .amxi (w 4 6 8 0 0x32 0 0)] s ok = true ∧
    eachAlone [.red (w 48 6 5 0 0x81 4 0), .redFadd (w 48 6 5 0 16 0 0), .redAmxf (w 48 6 5 0 17 0 0), .redAmxi (w 48 6 8 0 0x32 0 0)] s ok = true := by
  decide +kernel
/-- A piece that a thread has sent to a peer. -/
def piece1 : Access :=
  { id := 0, kind := .load, pc := 0, va := 0, size := 4, op := 0, off := 0, data := [], code := 0, ra := false, returns := false, cas := [],
    ordered := false, acquires := false, total := 4, queued := false, stopped := false }
/-- With nothing and with accesses at a peer outstanding, to a page of a kind. -/
theorem witness_FencesAndHints :
    let away (page : Nat) : State := inFlight dataAt (.load { load1 with remote := [{ port := 0, page := page, acc := piece1 }] })
    alone (.fence (w 0 6 5 0 1 2 5)) dataAt (fun v => !dataAt.fenceWaits v (w 0 6 5 0 1 2 5)) = true ∧
    alone (.fence (w 0 6 5 0 1 2 5)) (regs dataAt [(5, 64)]) (fun v => !(regs dataAt [(5, 64)]).fenceWaits v (w 0 6 5 0 1 2 5)) = true ∧
    eachAlone [.pref (w 0 6 0 0 0xC2 1 0), .evict (w 0 6 0 0 0x43 1 0x80)] dataAt (fun v => admitted dataAt v 0x10880 && leaf0 dataAt v 0x10880 .load) = true ∧
    alone (.evict (w 0 6 0 0 0x43 1 0x80)) dataAt (fun v => (v.page dataAt 0x10880 .load).any fun t => t.peer.isNone && !dataAt.bridgeCut v.core t.pa) = true ∧
    eachAlone [.qpopF (w 13 0 0 0 3 0 1), .qpushF (w 0 5 0 0 4 0 1), .bara (w 4 0 0 0 2 0 1), .barw (w 5 19 0 28 3 0 0)] (away 2)
      (fun v => (away 2).ops.any fun o => o.2.thread == v.key && o.2.kind == .load { load1 with remote := [{ port := 0, page := 2, acc := piece1 }] }) = true ∧
    eachAlone [.send (w 0 5 6 0 1 0 7), .tladv (w 0 4 6 0 5 1 0)] (away 1)
      (fun v => (away 1).ops.any fun o => o.2.thread == v.key && o.2.kind == .load { load1 with remote := [{ port := 0, page := 1, acc := piece1 }] }) = true := by
  decide +kernel
theorem witness_WindowSpill :
    let spill := inTh base fun th => { th with wb := 16, wsp := 0x10FC0 }
    let fill := inTh base fun th => { th with wb := 32, sb := 16, wsp := 0x10840 }
    alone (.wspill (w 0 0 0 0 8 0 0)) spill (fun v => v.th.sheaf.isNone && v.th.sb + 16 == v.th.wb && admitted spill v 0x10FC0 && admitted spill v 0x10FFF &&
      leaf0 spill v 0x10FC0 .store && !spill.fencing v.key && v.th.pend.isEmpty && v.th.bad.isEmpty && v.th.weak.isEmpty) = true ∧
    alone (.wfill (w 0 0 0 0 9 0 0)) fill (fun v => v.th.sheaf.isNone && v.th.sb == 16 && v.th.wb + 48 - v.th.sb == v.th.words && admitted fill v 0x10800 &&
      admitted fill v 0x1083F && !fill.fencing v.key && (v.page fill 0x10800 .load).any (fun t => t.peer.isNone &&
        (fill.tick.performLoad v.core v.g.ctx v.key v.th.pc t 64 false).2.2.isNone) && v.th.pend.isEmpty) = true := by decide +kernel

/-- Tiles 0 and 29, the last, and 30, the first outside. -/
theorem witness_Walkers :
    let e (k : Nat) : Nat := launch1.hdr (32 + 2 * (k - 2)) 2
    let n := e 2 * e 3 * e 4 * e 5
    alone (.twnx (w 3 0 4 0 2 0 0)) launched (fun v => decide (Store.get launched.launches v.g.launch = some launch1) && (launch1.hdr 22 1).testBit 1) = true ∧
    (∀ t ∈ [0, 29], alone (.twlk (w 4 6 0 0 1 1 0)) (regs launched [(6, word t)]) (fun v => decide (Store.get launched.launches v.g.launch = some launch1 ∧
      (v.r64 6).toNat < n)) = true) ∧
    alone (.twlk (w 4 6 0 0 1 0 0)) (regs launched [(6, 30)]) (fun v => decide (Store.get launched.launches v.g.launch = some launch1 ∧
      n ≤ (v.r64 6).toNat)) = true := by decide +kernel
/-- On zeros nothing is raised; with every flag enabled a signalling NaN traps. -/
theorem witness_FloatArithmetic :
    let two : List Instr := [.fadd (w 4 5 6 0 1 1 0), .fsub (w 4 5 6 0 0x82 0 0), .fmul (w 4 5 6 0 3 4 0), .fma (w 4 5 6 7 4 2 0), .fmin (w 4 5 6 0 5 0 0),
      .fmax (w 4 5 6 0 6 0 0), .fminx (w 4 5 6 0 7 0 0), .fmaxx (w 4 5 6 0 8 0 0)]
    let one : List Instr := [.frnd (w 4 5 0 0 4 3 0), .frcp (w 4 5 0 0 5 0 0), .fsqrt (w 4 5 0 0 6 0 0), .frsq (w 4 5 0 0 7 0 0), .fexp2 (w 4 5 0 0 8 0 0),
      .flog2 (w 4 5 0 0 9 0 0), .fsin (w 4 5 0 0 10 0 0), .fcos (w 4 5 0 0 11 0 0)]
    let s := inCx (regs base [(5, 0x7F800001)]) fun c => { c with fpten := 0x1F }
    eachAlone (two ++ one) base (fun v => v.traps base == 0) = true ∧
    eachAlone two s (fun v => decide ((opMinMax false false false (v.r32 5).toNat 0).2 &&& v.traps s ≠ 0 ∧
      (flushOut false (fp32.add .rne (f32In false (v.r32 5).toNat) (f32In false 0))).2 &&& v.traps s ≠ 0)) = true ∧
    eachAlone one s (fun v => decide ((opFrnd false .rne (v.r32 5).toNat).2 &&& v.traps s ≠ 0 ∧ (opFrcp false .rne (v.r32 5).toNat).2 &&& v.traps s ≠ 0 ∧
      (opFexp2 false (v.r32 5).toNat).2 &&& v.traps s ≠ 0 ∧ (opTrig true false (v.r32 5).toNat).2 &&& v.traps s ≠ 0)) = true := by decide +kernel
theorem witness_FloatComparesAndConversions :
    let s := inCx (regs base [(5, 0x7F800001), (9, 0x7F800001)]) fun c => { c with fpten := 0x1F }
    eachAlone [.fabs (w 4 5 0 0 1 0 0), .fneg (w 4 5 0 0 2 0 0), .fclass (w 4 5 0 0 3 0 0), .fkey (w 14 10 13 0 1 0 1)] base (fun _ => true) = true ∧
    eachAlone [.fcmp (w 1 5 6 7 0x81 0 0), .cvt (w 6 9 0 0 0x30 2 0x800), .cvtBs (w 4 5 0 6 0x05 0 (4 + 3 * 128)), .cvt (w 4 6 0 0 0x09 0 0)] base
      (fun v => v.traps base == 0) = true ∧
    alone (.fcmp (w 1 5 6 0 1 0 0)) s (fun v => decide ((opFcmp false 0 (v.r32 5).toNat (v.r32 6).toNat).2 &&& v.traps s ≠ 0)) = true ∧
    alone (.cvt (w 6 9 0 0 0x10 0 0)) s (fun v => decide ((opCvt 1 0 false false .rne (v.r32 9).toNat).2 &&& v.traps s ≠ 0)) = true ∧
    alone (.cvtBs (w 4 5 0 6 0x30 0 4)) s (fun v => decide ((opCvtBs 3 0 false (v.r32 5).toNat (v.r32 6).toNat).2 &&& v.traps s ≠ 0)) = true := by decide +kernel
/-- On zeros; and with a signalling NaN in the low half and every flag enabled. -/
theorem witness_PackedAndDots :
    let s := inCx (regs base [(5, 0x7C01), (7, 0x7F800001)]) fun c => { c with fpten := 0x1F }
    let packed : List Instr := [.hadd2 (w 4 5 6 0 1 0 0), .hsub2 (w 4 5 6 0 2 1 0), .hmul2 (w 4 5 6 0 3 0 0), .hfma2 (w 4 5 6 7 4 0 0), .dot2h (w 4 5 6 7 3 0 0)]
    eachAlone (packed ++ [.dot4 (w 4 5 6 7 1 0 4), .dot8 (w 4 5 6 7 0x82 0 0), .dot4 (w 4 5 6 7 0xC1 4 3), .dot8 (w 4 5 6 7 0xC2 0 0), .qsc (w 4 5 6 0 4 0 0)]) base
      (fun v => v.traps base == 0) = true ∧
    eachAlone packed s (fun v => decide ((fp16.add .rne (fp16.decode ((v.r32 5).toNat % 2 ^ 16)) (fp16.decode 0)).2 &&& v.traps s ≠ 0)) = true ∧
    eachAlone [.dot4 (w 4 5 6 7 0xC1 0 0), .dot8 (w 4 5 6 7 0xC2 0 0)] s (fun v =>
      decide ((dotSum .rne [] (fp32.decode (v.r32 7).toNat)).2 &&& v.traps s ≠ 0)) = true ∧
    alone (.qsc (w 4 7 6 0 4 0 0)) s (fun v => decide ((opQsc .rne (v.r32 7).toNat 0).2 &&& v.traps s ≠ 0)) = true := by decide +kernel
/-- At the scratchpad's end, with the enables set and clear. -/
theorem witness_Approximation :
    let s := inCx (regs base [(5, 65416)]) fun c => { c with apxctl := 0xE }
    let ok (s : State) (v : Lane) : Bool := decide ((v.r32 5).toNat + 7 * 16 + 8 = v.g.spLen ∧ v.g.spBad = [] ∧ v.g.spWeak = []) && (Store.get s.ctxs v.g.ctx).isSome &&
      !s.boardBlocks v (v.g.pool (v.r32 5).toNat) (v.g.pool ((v.r32 5).toNat + 119)) false
    (∀ u ∈ [s, regs base [(5, 65416)]], eachAlone [.wnw (w 1 5 6 7 1 0 16), .wnwCt (w 1 5 6 0 2 0 16), .titheS (w 1 5 6 7 3 0 0), .titheC (w 0 5 6 0 4 0 0)] u (ok u) = true) ∧
    eachAlone [.apxexp2 (w 4 5 0 0 5 0 0), .apxrcp (w 4 5 0 0 6 0 0)] s (fun v => v.traps s == 0) = true := by decide +kernel
/-- A shape word of two rows of 64 bytes, of strides 64 and 128. -/
def copyRegs : State := gang2 (regs base [(6, 0x10800), (9, 128), (10, 64 + 2 ^ 21), (11, 4 + 8 * 2 ^ 16)])
def copyAsked (form : Nat) (g2s s2g : Bool) (dst queue mask : Nat) (a : Nat) : CopyOp :=
  { form := form, srcG := g2s, dstG := s2g, src := a, dst := dst, rows := 2, rowBytes := 64, sstr := 4, dstr := 8, queue := queue, mask := mask,
    member := mask % 8, slot := none, dsts := [], engine := 0, pages := [], lost := [] }
theorem witness_Copies :
    let s := copyRegs
    let ok (c : CopyOp) (v : Lane) : Bool := v.producer && (s.copyTrap v c).isNone && !s.copyWaits [v] fun _ => c
    alone (.bcpG2s (w 20 6 9 10 1 0 1)) s (ok (copyAsked 1 true false 128 0 0 0x10800)) = true ∧
    alone (.bcpS2g (w 20 9 6 10 1 1 1)) s (ok (copyAsked 1 false true 0x10800 0 0 128)) = true ∧
    alone (.bcpS2s (w 20 8 9 10 1 2 1)) s (ok (copyAsked 1 false false 128 0 0 0)) = true ∧
    alone (.bcpq (w 20 6 0 10 3 0 0)) s (ok (copyAsked 3 true false 0 0 0 0x10800)) = true ∧
    alone (.bcpm (w 20 6 0 10 4 0 0xC4)) s (ok (copyAsked 4 true false 0 1 3 0x10800)) = true ∧
    alone (.bcps (w 20 8 9 10 2 0 0)) s (ok (copyAsked 2 false false 128 0 0 0)) = true ∧
    alone (.bcpUnpk4s (w 20 6 9 10 5 0 0)) s (ok (copyAsked 5 true false 128 0 0 0x10800)) = true ∧
    alone (.bcpUnpk4f (w 20 6 9 10 6 0 0)) s (ok (copyAsked 6 true false 128 0 0 0x10800)) = true ∧
    alone (.bcpUnpk8s (w 20 6 9 10 7 0 0)) s (ok (copyAsked 7 true false 128 0 0 0x10800)) = true ∧
    alone (.bcpUnpk8f (w 20 6 9 10 8 0 0)) s (ok (copyAsked 8 true false 128 0 0 0x10800)) = true := by decide +kernel

/-- With a queue for q1, and one like it, not multicast, for q0. -/
def queued (q : Queue) : State := gang2 base |> fun s => inGr s fun g => { g with queues := [(0, { q with mcast := false }), (1, q)] }
theorem witness_ScratchpadQueues :
    let q : Queue := queue2 true
    let held : Queue := { q with free := [1], slots := [.held, .free], ring := [0] }
    let at_ (n : Nat) (f : Queue → Bool) (v : Lane) : Bool := (Store.get v.g.queues n).any f
    let geo := regs base [(5, 65408), (6, 2 ^ 17 + 128)]
    let most := regs base [(6, 64 * 2 ^ 17 + 1024)]
    alone (.qdef (w 0 5 6 0 1 0 2)) geo (fun v => decide ((v.r32 5).toNat + 128 = v.g.spLen) && (Store.get v.g.queues 2).isNone && v.g.gangSize == 1) = true ∧
    alone (.qdef (w 0 5 6 0 1 0 2)) most (fun v => decide (64 * 1024 = v.g.spLen) && (Store.get v.g.queues 2).isNone) = true ∧
    alone (.qdef (w 0 5 6 0 1 0 0x31)) (regs (queued q) [(6, 2 ^ 17 + 128)]) (fun v => v.g.gangSize == 2 && at_ 1 (fun p => p.slots.all (· == .free)) v) = true ∧
    alone (.qpopE (w 4 0 0 0 2 0 1)) (queued q) (fun v => decide ((queued q).mode v.g.ctx < 2) && at_ 1 (fun p => p.free == [0, 1]) v) = true ∧
    alone (.qpopF (w 4 0 0 0 3 0 1)) (queued { q with filled := [1] }) (fun v => !(queued q).fencing v.key && at_ 1 (fun p => p.filled == [1]) v) = true ∧
    alone (.qpopE (w 4 0 0 0 2 0 1)) (queued { q with free := [] }) (fun v => at_ 1 (fun p => p.free.isEmpty) v) = true ∧
    alone (.qpopF (w 4 0 0 0 3 0 1)) (queued q) (fun v => at_ 1 (fun p => p.filled.isEmpty) v) = true ∧
    alone (.qpushF (w 0 5 0 0 4 0 1)) (queued held) (fun v => (v.r32 5).toNat == 0 && at_ 1 (fun p => decide (0 < p.n) && p.slots.getD 0 .free == .held) v) = true ∧
    alone (.qpushE (w 0 5 0 0 5 0 0)) (queued held) (fun v => at_ 0 (fun p => !p.mcast && p.slots.getD 0 .free == .held) v) = true ∧
    alone (.qpushE (w 0 5 0 0 5 0 1)) (queued held) (fun v => at_ 1 (fun p => p.mcast && p.ring.head? == some 0) v &&
      ((queued held).memberGid v.g 0).isSome) = true ∧
    alone (.qstat (w 4 0 0 0 6 0 1)) (queued q) (at_ 1 fun _ => true) = true := by decide +kernel
theorem witness_Messages :
    let s := gang2 (regs base [(5, 1)])
    let m : Msg := { tag := 7, payload := 9, sender := 1 }
    let got := inGr s fun g => { g with msgs := [(m, 0)] }
    alone (.send (w 0 5 6 0 1 0 7)) s (fun v => decide ((v.r32 5).toNat < v.g.gangSize) && s.memberGid v.g 1 == some 2 && !s.releasing v.key &&
      (s.group 2).any fun p => decide ((portAfter (p.posts.map Post.tag) p.msgs.length []).2 < 64) && s.mail.isEmpty) = true ∧
    alone (.send (w 0 5 6 0 1 0 7)) (inGr (regs base [(5, 1)]) fun g => { g with gangSize := 2 })
      (fun v => decide ((v.r32 5).toNat < v.g.gangSize) && (base.memberGid v.g 1).isNone && !base.releasing v.key) = true ∧
    ([7, 0xFFFF] : List (BitVec 16)).all (fun tag => eachAlone [.recv (w 4 0 0 0 2 0 tag), .recvw (w 4 0 0 6 3 0 tag)] got
      (fun v => v.g.msgs.head?.any fun p => tag.toNat == p.1.tag || tag == 0xFFFF)) = true ∧
    eachAlone [.recv (w 4 0 0 0 2 0 8), .recvw (w 4 0 0 6 3 0 8)] got (fun v => v.g.msgs.all (fun p => p.1.tag != 8) && decide (v.g.posts.length < 32)) = true := by
  decide +kernel
/-- A timeline word of value 5; a counter of value 5. -/
theorem witness_Timelines :
    let s (n : Word) := inGr (mem (regs base [(4, 0x10800), (6, n)]) 0x10800 [5]) fun g => { g with tcs := List.replicate 4 ⟨5, 5, []⟩ }
    let value (v : Lane) : Nat := (v.g.tcs.getD 0 ⟨0, 0, []⟩).value
    let seen (s : State) (v : Lane) : Bool := admitted s v 0x10800 && admitted s v 0x10807 && !s.fencing v.key && leaf0 s v 0x10800 .load &&
      (v.page s 0x10800 .load).any fun t =>
        let r := s.tick.performLoad v.core v.g.ctx v.key v.th.pc t 8 true
        t.kind == 1 && r.2.2.isNone && ofBytes r.2.1 == 5
    eachAlone [.tcw (w 0 0 6 0 1 0 0), .tcwT (w 1 0 6 0 2 0 0)] (s 5) (fun v => (v.r64 6).toNat == value v) = true ∧
    eachAlone [.tcw (w 0 0 6 0 1 0 0), .tcwT (w 1 0 6 0 2 0 0)] (s 6) (fun v => value v + 1 == (v.r64 6).toNat) = true ∧
    ([5, 6] : List Word).all (fun n => eachAlone [.tlw (w 0 4 6 0 3 1 0), .tlwT (w 1 4 6 0 4 1 0)] (s n) (seen (s n))) = true ∧
    alone (.tladv (w 0 4 6 0 5 1 0)) (s 6) (fun v => leaf0 (s 6) v 0x10800 .atomic && seen (s 6) v && !(s 6).bridgeCut v.core 0x10800 &&
      !(s 6).tick.drainAll.isPoisoned 0x10800 8 && ofBytes ((s 6).tick.drainAll.bytesAt false 0x10800 8) == 5) = true := by decide +kernel
theorem witness_Barriers :
    let b (k : Nat) : State := inGr (regs base [(5, 3)]) fun g => { g with threads := 3, bars := [(1, { expected := 3, arrivals := k, phase := 3 })] }
    let at_ (f : Barrier → Bool) (v : Lane) : Bool := (Store.get v.g.bars 1).any f
    let s := mem dataAt 0x10800 collBody
    alone (.bari (w 0 5 0 0 1 0 1)) (b 0) (fun v => (v.r32 5).toNat == v.g.threads && at_ (fun c => c.arrivals == 0) v) = true ∧
    alone (.bara (w 4 0 0 0 2 0 1)) (b 1) (fun v => decide ((b 1).mode v.g.ctx < 2) && !(b 1).fencing v.key && at_ (fun c => c.arrivals + 1 != c.expected) v) = true ∧
    alone (.bara (w 4 0 0 0 2 0 1)) (b 2) (fun v => decide ((b 2).mode v.g.ctx < 2) && at_ (fun c => c.arrivals + 1 == c.expected) v) = true ∧
    alone (.barw (w 5 5 0 28 3 0 1)) (regs (b 0) [(5, 2)]) (fun v => at_ (fun c => c.phase != v.r32 5) v) = true ∧
    alone (.barw (w 5 5 0 28 3 0 1)) (b 0) (fun v => at_ (fun c => c.phase == v.r32 5) v) = true ∧
    alone (.coll (w 4 6 0 0 1 0 0)) s (fun v => v.producer && admitted s v 0x10800 && admitted s v 0x1083F &&
      match (State.collRead 2 s.tick (dieOf v.core) v.g.ctx 0x10800 64 v.th.peerBuf).2.1 with
      | .bytes d => d == collBody && !(Coll.of d).bad d
      | _ => false) = true := by decide +kernel
/-- A register for INT8 sets of 32 rows and 64 members, with some signed. -/
def signing (fn imm : Nat) (f : Word) (n : Nat) : State :=
  let m (t : Nat) : Signer := { thread := t, tid := t, gather := 0, fn := fn, imm := imm, fmt := f, lay := if fn = 3 ∨ fn = 5 then [0, 0, 0] else [],
                                b := [0, 0, 0, 0], c := [] }
  inGr (regs base [(5, f)]) fun g => { g with
    threads := 64, cvs := [(0, { count := 64, signers := (List.range n).map fun k => m (k + 1), broken := false, diverged := false, sets := 0 })] }
theorem witness_MatrixSets :
    let ok (x : Fields) (v : Lane) : Bool := (Store.get v.g.cvs 0).any (fun c => !c.broken && !mmaBad v x c.count (v.r32 5) (if x.fn.getLsbD 0 then v.g.layoutWords 0 else []) &&
      (c.signers.filter fun m => m.tid % 4 == v.th.tid % 4).length != c.count / 4) && v.g.tileCount == 1 && (v.g.tile 0).pending == 0 &&
      (layoutPlaces 0).all fun d => !isPending v.th v.g d.1 && v.sound d.1
    let alike (x : Fields) (v : Lane) : Bool := (Store.get v.g.cvs 0).any fun c => c.signers.length + 1 == c.count && c.signers.all fun m =>
      m.fn == x.fn.toNat && m.imm == x.imm.toNat && m.fmt == v.r32 5 && m.lay == (if x.fn.getLsbD 0 then v.g.layoutWords 0 else [])
    let forms : List (Fields × (Fields → Instr) × Word) := [(w 0 5 8 12 2 0 0, .mmaR, 0x55), (w 0 5 8 0 3 0 0, .mmaS, 0x55), (w 0 5 8 12 4 0 0, .mmaPR, 0x1055),
      (w 0 5 8 0 5 0 0, .mmaPS, 0x1055)]
    (∀ n ∈ [4, 512], alone (.cvdef (w 0 5 0 0 1 0 7)) (inGr (regs base [(5, word n)]) fun g => { g with threads := 512 }) (fun v => (v.r32 5).toNat == n &&
      decide (n ≤ v.g.threads) && (Store.get v.g.cvs 7).isNone) = true) ∧
    (∀ p ∈ forms, alone (p.2.1 p.1) (signing p.1.fn.toNat 0 p.2.2 62) (ok p.1) = true) ∧
    (∀ p ∈ forms, alone (p.2.1 p.1) (signing p.1.fn.toNat 0 p.2.2 63) (fun v => ok p.1 v && alike p.1 v && decide (base.boardFree v.core ≠ 0)) = true) := by
  decide +kernel
/-- Two tiles; k4 names a layout of words, k8 one of bytes. -/
def tiled : State := inGr dataAt fun g => { g with tileCount := 2, k := [(4, 0x04000000)] }
theorem witness_MatrixTiles :
    let quiet (t : Nat) (v : Lane) : Bool := decide (t < v.g.tileCount) && (v.g.tile t).pending == 0
    let s := regs tiled [(5, 127 + 124 * 128)]
    let sp := regs tiled [(5, 65280), (7, 65408)]
    let window (v : Lane) : Bool := quiet 0 v && (layoutPlaces 4).all (fun d => !isPending v.th v.g d.1 && v.sound d.1) && (Layout.of (v.g.layoutWords 4)).legal 4 && (Layout.of (v.g.layoutWords 4)).esize == 2 &&
      decide (((Layout.of (v.g.layoutWords 4)).hull 32 32).2 < v.g.spLen) && decide (tiled.boardFree v.core ≠ 0)
    let pair (v : Lane) : Bool := quiet 0 v && quiet 1 v && (v.r64 6).toNat % 4 == 0 && admitted tiled v 0x10800 && admitted tiled v 0x109FF
    alone (.mmaz (w 0 0 0 0 1 0 1)) tiled (quiet 1) = true ∧
    eachAlone [.maccr (w 8 5 0 0 2 0 1), .maccw (w 0 5 8 0 3 0 1)] (regs tiled [(5, 124 * 128 + 15)]) (fun v => quiet 1 v && decide ((v.r32 5).toNat < 2 ^ 14)) = true ∧
    eachAlone [.maccr (w 8 5 0 0 2 0 0), .maccw (w 0 5 8 0 3 0 0)] s (fun v => quiet 0 v && (v.r32 5).toNat / 2 ^ 7 % 4 == 0) = true ∧
    eachAlone [.maccl (w 0 0 0 0 4 0 0x0F40), .maccs (w 0 0 0 0 5 0 0x0F40)] tiled window = true ∧
    alone (.mscl (w 0 5 0 0 1 0 0x10)) sp (fun v => quiet 0 v && quiet 1 v && decide ((v.r32 5).toNat + 256 = v.g.spLen) && v.g.spClean 65280 256 &&
      !sp.boardBlocks v (v.g.pool 65280) (v.g.pool 65535) false) = true ∧
    alone (.mqnt (w 0 6 7 0 2 0 0x80)) sp (fun v => pair v && (Layout.of (v.g.layoutWords 8)).legal 8 && (Layout.of (v.g.layoutWords 8)).esize == 0 &&
      decide (((Layout.of (v.g.layoutWords 8)).hull 256 128).2 < v.g.spLen) && decide ((v.r32 7).toNat + 128 = v.g.spLen) && decide (2 ≤ sp.boardFree v.core) &&
      (layoutPlaces 8).all (fun d => !isPending v.th v.g d.1 && v.sound d.1) && (v.amaxWords 0x10800 sp.tick).1.halt.isNone) = true ∧
    alone (.mamax (w 0 6 0 0 3 0 0)) tiled pair = true := by decide +kernel

/-- At the scratchpad's end; a meshlet of one vertex and one primitive, and a full input. -/
theorem witness_Meshlets :
    let ok (s : State) (off n : Nat) (v : Lane) : Bool := (v.r32 5).toNat % 16 == 0 && decide ((v.r32 5).toNat + off + n ≤ v.g.spLen) &&
      !s.boardBlocks v (v.g.pool ((v.r32 5).toNat + off)) (v.g.pool ((v.r32 5).toNat + off) + n - 1) true
    let at_ (b w : Word) : State := regs viewed [(5, b), (6, w)]
    let m : State := inGr (regs viewed [(5, 64), (6, 3)]) fun g => g.spWrite 64 (toBytes 2 1 ++ toBytes 2 1 ++ toBytes 4 8192 ++ toBytes 2 4)
    let ready (v : Lane) : Bool := (m.view v.g.ctx 0).any (fun vs => decide (0 < (v.r32 6).toNat ∧ (v.r32 6).toNat < 2 ^ vs.nview)) && v.g.spBad.isEmpty && v.g.spWeak.isEmpty &&
      ((64, 16) :: meshRanges 64 (v.g.spRead 64 16)).all fun r => decide (r.1 + r.2 ≤ v.g.spLen) && !m.boardBlocks v (v.g.pool r.1) (v.g.pool (r.1 + r.2 - 1)) false
    alone (.mvtx (w 0 5 6 8 1 0 0)) (at_ 61424 255) (fun v => ok viewed (16 + 16 * 255) 16 v && (v.r32 6).toNat == 255) = true ∧
    alone (.mprim (w 0 5 6 7 2 0 0)) (regs (at_ 60400 255) [(7, 0xFFFFFF)]) (fun v => ok viewed (4112 + 4 * 255) 4 v && decide ((v.r32 7).toNat < 2 ^ 24)) = true ∧
    alone (.memit (w 0 5 6 7 3 0 4)) (at_ 65520 (256 + 256 * 2 ^ 16)) (fun v => ok viewed 0 16 v && (v.r32 6).toNat / 2 ^ 25 == 0) = true ∧
    alone (.vamp (w 0 5 6 0 1 0 0)) m ready = true ∧
    alone (.vamp (w 0 5 6 0 1 0 0)) { m with amplifier := [(0, List.replicate 4 { ctx := 0, slot := 0, mask := 1, bytes := [] })] } ready = true := by decide +kernel
/-- Strip 0 is latched, the last strip is not; the last sample of the last tile, beyond the extent. -/
theorem witness_ViewReads :
    let at_ (a b : Word) : State := regs viewed [(5, a), (6, b)]
    let bound (v : Lane) (f : ViewSet → Bool) : Bool := (viewed.view v.g.ctx 0).any f
    let warp (latched : Bool) (v : Lane) : Bool := bound v fun vs => decide ((v.r32 5).toNat < vs.nview ∧ (v.r32 6).toNat < vs.strips) &&
      (Store.get vs.latches (v.r32 6).toNat).isSome == latched
    let tile (latched : Bool) (v : Lane) : Bool := bound v fun vs => let a := (v.r32 5).toNat; decide (a % 8 < vs.nview ∧ a / 2 ^ 3 % 2 ^ 5 = 0 ∧
      a / 2 ^ 24 = 0 ∧ a / 2 ^ 8 % 2 ^ 8 < vs.columns ∧ a / 2 ^ 16 % 2 ^ 8 < vs.strips ∧ (v.r32 6).toNat < 1024) &&
      (Store.get vs.latches (a / 2 ^ 16)).isSome == latched
    let gaze (latched : Bool) (v : Lane) : Bool := bound v fun vs => decide ((v.r32 5).toNat < vs.strips) && (Store.get vs.latches (v.r32 5).toNat).isSome == latched
    eachAlone [.vwarpX (w 8 5 6 0 2 0 0), .vwarpY (w 8 5 6 0 2 1 0)] (at_ 1 0) (warp true) = true ∧
    eachAlone [.vwarpX (w 8 5 6 0 2 0 0), .vwarpY (w 8 5 6 0 2 1 0)] (at_ 1 2) (warp false) = true ∧
    alone (.gzlt (w 8 5 0 0 3 0 0)) (at_ 0 0) (gaze true) = true ∧ alone (.gzlt (w 8 5 0 0 3 0 0)) (at_ 2 0) (gaze false) = true ∧
    alone (.smpl (w 8 5 6 0 4 0 0)) (at_ 0x3B01 1023) (tile true) = true ∧ alone (.smpl (w 8 5 6 0 4 0 0)) (at_ 0x20000 0) (tile false) = true := by decide +kernel
theorem witness_TileOutput :
    let at_ (a b : Word) : State := regs viewed [(5, a), (6, b)]
    let on (s : State) (f : ViewSet → Lane → Bool) (v : Lane) : Bool := (s.view v.g.ctx 0).any fun vs => f vs v
    let word_ (vs : ViewSet) (v : Lane) : Bool := let a := (v.r32 5).toNat; decide (a % 8 < vs.nview ∧ a / 2 ^ 3 % 2 ^ 13 = 0 ∧ a / 2 ^ 24 = 0 ∧ a / 2 ^ 16 < vs.strips)
    let asked (s : State) (near queued late : Bool) : Lane → Bool := on s fun vs v =>
      let f := (v.r32 6).toNat
      let n := (v.r32 5).toNat / 2 ^ 16
      word_ vs v && (vs.frames n).contains f == near && vs.serq.contains (f, (v.r32 5).toNat % 8, n) == queued &&
        ((Store.get vs.latches n).any (fun l => l.frame == f) && decide (vs.deadline f n ≤ ((s.now + 1 : Nat) : Int))) == late
    let serq : Instr := .serq (w 4 5 6 0 3 0 0)
    let hands (lens : Bool) (view : Nat) : Lane → Bool := on viewed fun vs v => v.producer && decide (view < vs.nview) && vs.lensed view == lens &&
      decide ((v.r32 6).toNat / 2 ^ 8 % 2 ^ 8 < vs.columns ∧ (v.r32 6).toNat / 2 ^ 16 < vs.strips ∧ (v.r32 5).toNat % 128 = 0 ∧
      (v.r32 5).toNat + 4096 = v.g.spLen ∧ viewed.lensLoad v.core < 16 ∧ viewed.boardFree v.core ≠ 0)
    alone serq (at_ 1 7) (asked (at_ 1 7) false false false) = true ∧
    alone serq { at_ 1 6 with views := [(0, { set1 with latches := [(0, latch1)], serq := [(6, 1, 0)] })] }
      (asked { at_ 1 6 with views := [(0, { set1 with latches := [(0, latch1)], serq := [(6, 1, 0)] })] } true true false) = true ∧
    alone serq { at_ 1 5 with now := 2000000000 } (asked { at_ 1 5 with now := 2000000000 } true false true) = true ∧
    alone serq (at_ 1 5) (asked (at_ 1 5) true false false) = true ∧
    alone (.tileo (w 4 5 6 0 1 0 4)) (at_ 61440 0x23B00) (hands false 0) = true ∧
    alone (.lens (w 4 5 6 0 2 0 4)) (at_ 61440 0x23B01) (hands true 1) = true := by decide +kernel
/-- A texture of 4 by 2 RGBA8 texels at 0x10C00, whose entry is the first of one at 0x10800. -/
def textured (entry : List Byte) : State := mem (inGr dataAt fun g => { g with k := [(0, 0x10800), (2, 1)] }) 0x10800 entry
def entry1 : List Byte := toBytes 8 0x10C00 ++ toBytes 2 3 ++ toBytes 2 1 ++ [0, 1, 0, 1] ++ List.replicate 16 0
theorem witness_Textures :
    let s := textured entry1
    let bad := textured (List.replicate 32 0)
    let ok (s : State) (good : Bool) (v : Lane) : Bool :=
      let e := (v.startFetch s.tick).read v .texture 0x10800 32
      (layoutPlaces 0).all (fun d => !isPending v.th v.g d.1 && v.sound d.1) && decide ((v.r32 9).toNat < (Store.rd 0 v.g.k 2).toNat) &&
      e.1.halt.isNone && e.1.poison.isNone && textureBad e.2 == !good
    let forms : List Instr := [.texB (w 4 9 10 0 1 0 0), .texT (w 4 9 10 12 1 1 0), .texA (w 4 9 10 12 1 2 0), .texg (w 4 9 10 0 2 3 0), .texq (w 4 9 10 0 3 0 0)]
    eachAlone forms s (fun v =>
      let e := (v.startFetch s.tick).read v .texture 0x10800 32
      let t := Texture.of e.2
      ok s true v && (e.1.bilinear v t 0 0 0).1.halt.isNone && (e.1.trilinear v t 0 0 0).1.halt.isNone && (e.1.anisotropic v t 0 0 0 0 0).1.halt.isNone &&
      (e.1.texel v t 0 1 1).1.halt.isNone) = true ∧
    eachAlone forms bad (ok bad false) = true ∧
    eachAlone forms (regs s [(9, 1)]) (fun v => decide ((Store.rd 0 v.g.k 2).toNat % 2 ^ 16 ≤ (v.r32 9).toNat)) = true := by decide +kernel
/-- A block at the scratchpad's end with flags in CUR; its node at 0x10800. -/
def block (flags : Byte) : State := inGr (regs viewed [(10, 65472), (11, 0x3B00)]) fun g =>
  g.spWrite 65472 (List.replicate 16 0 ++ toBytes 4 0x3F800000 ++ List.replicate 8 0 ++ toBytes 4 0x3F800000 ++ toBytes 8 0x10800 ++ List.replicate 16 0 ++ toBytes 7 0x10800 ++ [flags])
theorem witness_Rays :
    let room (s : State) (store : Bool) (v : Lane) : Bool := (v.r32 10).toNat % 64 == 0 && (v.r32 10).toNat + 64 == v.g.spLen && v.g.spBad.isEmpty && v.g.spWeak.isEmpty &&
      !s.boardBlocks v (v.g.pool 65472) (v.g.pool 65535) store
    let free (s : State) (v : Lane) : Bool := room s false v && decide (s.rayLoad v.core < 256 ∧ s.boardFree v.core ≠ 0)
    let ray (v : Lane) : Ray := Ray.of (v.g.spRead 65472 64)
    let ryt : Instr := .ryt (w 4 10 0 0 3 0 0)
    let ryr : List Instr := [.ryrM (w 4 10 0 0 4 0 0), .ryrH (w 4 10 11 12 4 1 0)]
    eachAlone [.ryl (w 0 10 0 0 1 0 1), .ryx (w 0 10 0 0 7 0 0), .ryh (w 4 10 0 0 6 0 0), .rys (w 4 10 0 0 5 0 0)] (block 0)
      (fun v => room (block 0) true v && !(ray v).susp) = true ∧
    alone (.rylV (w 0 10 11 12 2 0 0)) (block 0) (fun v => room (block 0) true v && ((block 0).view v.g.ctx 0).any fun vs =>
      decide ((v.r32 11).toNat % 8 < vs.nview ∧ (v.r32 12).toNat < 1024) && !tileWordBad vs (v.r32 11).toNat && (Store.get vs.latches 0).isSome) = true ∧
    alone (.rys (w 4 10 0 0 5 0 0)) (block 0xC0) (fun v => room (block 0xC0) false v && (ray v).susp &&
      ((v.startFetch (block 0xC0).tick).read v .ray (ray v).cur 64).1.halt.isNone) = true ∧
    eachAlone (ryt :: ryr) (block 0) (free (block 0)) = true ∧ eachAlone (ryt :: ryr) (block 0xC0) (free (block 0xC0)) = true := by
  decide +kernel
/-- A pair issues for its lane: registers free, memory in bounds, no flag enabled. STS beside IADD, in a thread and in the thresher slot; LDS at the
scratchpad's last word beside a NOP; and in a sheaf a lane whose path runs neither slot, on registers that would meet. -/
theorem witness_Pairs :
    let ok (p q : Slot) (s : State) (runs : Bool) : Bool := wellFormed (.pairWord p q) && match s.gatherLanes with
      | some [v] => v.th.late.isNone && v.th.kept.isEmpty && !v.guardBad p.g false && !v.guardBad q.g false && (v.slotActive p || v.slotActive q) == runs &&
          (!(v.th.sheaf.isNone || runs) || !v.pairRegsBad p q) &&
          (!isThresher v.key || (thresherMay (.pairWord p q) && decide (s.boardFree v.core ≠ 0))) &&
          (v.slotPlaces p ++ v.slotPlaces q).all (fun e => !isPending v.th v.g e.1 && v.sound e.1) &&
          (v.slotWrites p ++ v.slotWrites q).all (fun e => !isPending v.th v.g e.1) && v.traps s == 0 &&
          [p, q].all fun z => !z.isMem || (v.active z.g false && decide (z.src.toNat * 4 + 4 ≤ v.g.spLen) && v.g.spClean (z.src.toNat * 4) 4 &&
            !s.boardBlocks v (v.g.pool (z.src.toNat * 4)) (v.g.pool (z.src.toNat * 4 + 3)) (z.op == 20))
      | _ => false
    let off : State := inTh base fun th => { th with sheaf := some { base := 0x10000, stop := 0x10060, paths := 2, path := 1, tables := List.replicate 6 0 } }
    ok ⟨20, 15, 1, true, 0x100⟩ ⟨2, 15, 4, true, 0x7FFD⟩ base true = true ∧ ok ⟨20, 15, 1, true, 0⟩ ⟨2, 15, 4, true, 0x7FFD⟩ (inSlot base) true = true ∧
    ok ⟨19, 15, 1, true, 0x3FFF⟩ ⟨0, 15, 0, false, 0⟩ base true = true ∧ ok ⟨13, 15, 1, false, 0x0800⟩ ⟨22, 3, 2, false, 0x0C00⟩ base true = true ∧
    ok ⟨1, 12, 1, true, 0⟩ ⟨1, 12, 2, true, 0⟩ off false = true := by decide +kernel

/-! States that meet the hypotheses of the statements about events, commands and requests. -/

/-- A load whose pieces have come, one that a peer answers, a value, bytes for an instruction, a pending write, a late trap. -/
theorem witness_DataReturns :
    let kind (s : State) : Option OpKind := (Store.get s.ops 0).map AOp.kind
    let away : LoadOp := { load1 with remote := [{ port := 0, page := 1, acc := piece1 }] }
    let read : RemoteRead := { bytes := 2, va := 0, size := 2, kind := .texture, port := 0 }
    kind (inFlight base (.load load1)) = some (.load load1) ∧ load1.remote = [] ∧ load1.left = 0 ∧
    kind (inFlight base (.load away)) = some (.load away) ∧ away.remote ≠ [] ∧
    base.inputs.code = 0 ∧ ([1, 2, 3, 4] : List Byte).length = (away.remote.map Remote.bytes).foldl (· + ·) 0 ∧ kind (inFlight base (.value [7] none)) = some (.value [7] none) ∧
    kind (inFlight base (.fetch read)) = some (.fetch read) ∧
    base.portHeld = [] ∧ write1 ∈ ({ base with wq := [write1] } : State).wq ∧ 0 < write1.size ∧ write1.pa / 128 = 0x210 ∧
    (th0 (inTh base fun th => { th with late := some 64 })).late = some 64 ∧ (th0 base).st = .ready := by decide +kernel
/-- Two inputs of a slice's port, of which one was never granted, and of which both were; a request at a bridge port. -/
theorem witness_DataReturns_ports :
    let r (i o : Nat) : PortReq := { input := i, output := o, req := write1 }
    let out := sliceOut write1.pa
    let s (order : List Nat) : State := { base with portHeld := [r 1 out, r 0 out], grants := [(out, order)] }
    let heads (s : State) (o : Nat) : List PortReq := (portHeads o s.portHeld).filter s.admits
    let bridge : State := { base with portHeld := [r 96 96] }
    heads (s [1]) out = [r 1 out, r 0 out] ∧ 0 ∉ ([1] : List Nat) ∧ (heads (s [1]) out).all (fun q => q.input == 1 || q.input == 0) = true ∧
    heads (s [1, 0]) out = [r 1 out, r 0 out] ∧ ([1, 0] : List Nat) = [] ++ 1 :: [0] ∧ out < 96 ∧ 0 < write1.size ∧ sliceOut (128 * (write1.pa / 128)) = out ∧
    (s [1]).portHeld.all (fun q => decide (q.output < 96)) = true ∧ r 96 96 ∈ heads bridge 96 ∧ Store.get bridge.grants 96 = none := by decide +kernel
/-- A miss on its way, alone and beside one for its page; a running walk to the page and one to no page; TLBINV of everything, of a page and of a free context. -/
theorem witness_TranslationEvents :
    let m (vpn : Nat) (run : Bool) : Miss :=
      { die := 0, ctx := 0, tenant := 0, vpn := vpn, running := run,
        waiters := [{ thread := 0, unit := 0, kind := .load, va := vpn * 4096, size := 4, pc := 0x10000, ordered := false, kept := none }] }
    let c := record 8 0 0 0 []
    let page := record 8 0 0 0 ([1] ++ List.replicate 7 0 ++ toBytes 8 0x10000 ++ toBytes 8 0x1000)
    ({ base with enroute := [m 16 false] } : State).enroute = [m 16 false] ∧ (m 16 false).die = 0 ∧
    (match base.walk 0 0 0x10000 with
      | .leaf va b l e => va = 0x10000 && b = 12 && l = 0 && !e.getLsbD 59 && (base.xlat b e 0x10000).permits .load
      | .fault _ _ _ => false) = true ∧
    (match base.walk 0 0 0x11000 with
      | .leaf _ _ _ _ => false
      | .fault c l _ => c == 1 && l == 0) = true ∧ ({ base with misses := [m 16 true] } : State).misses[0]? = some (m 16 true) ∧
    base.lastDetect = none ∧ (m 17 true).waiters ≠ [] ∧ ({ base with lastDetect := some (base.now, 1) } : State).lastDetect = some (base.now, 1) ∧ (m 17 true).rank < 1 ∧
    stands 8 c = true ∧ c.at' 8 1 = 0 ∧ zeros c.bytes 9 16 = true ∧ zeros c.bytes 32 64 = true ∧ base.ctxReady c (· != .free) = true ∧
    stands 8 page = true ∧ page.at' 8 1 = 1 ∧ page.at' 24 8 = 4096 ∧ zeros page.bytes 9 16 = true ∧ zeros page.bytes 32 64 = true ∧
    ({ base with ctxs := [] } : State).ctxReady c (· != .free) = false ∧
    (Store.get (inCx base fun x => { x with pendingCmds := [c] }).ctxs 0).any (fun x => x.pendingCmds.any fun d => d.opc == 8) = true ∧
    base.enroute ++ base.misses = [] := by decide +kernel
def copy0 (form : Nat) : CopyOp :=
  { form := form, srcG := false, dstG := false, src := 0, dst := 1024, rows := 1, rowBytes := 64, sstr := 0, dstr := 0, queue := 0, mask := 3, member := 1,
    slot := none, dsts := [], engine := 0, pages := [], lost := [] }
/-- A request for a slot at the head of its queue; copies of every form that nothing holds; a multicast to two members and to one that is left. -/
theorem witness_CopyEnds :
    let ready (s : State) (c : CopyOp) : Bool := ((Store.get s.ops 0).map AOp.kind) == some (.copy c) && s.copyReady 0 (flight (.copy c)) c
    let queue : State := inGr (inFlight (gang2 base) (.copy (copy0 3))) fun g =>
      { g with queues := [(0, { queue2 false with engines := [{ op := 0, slot := none, finished := false }] })] }
    let receivers (s : State) : Nat := ((maskMembers 3).filterMap fun m => s.memberGid (gr1 s) m).length
    ready queue (copy0 3) = true ∧ (Store.get (gr1 queue).queues 0).any (fun q => q.free == [0, 1] && q.engines.find? (fun e => e.slot.isNone) == some ⟨0, none, false⟩) = true ∧
    ready (inFlight base (.copy (copy0 1))) (copy0 1) = true ∧ ready (inFlight base (.copy { copy0 3 with slot := some 1 })) { copy0 3 with slot := some 1 } = true ∧
    ready (inFlight (gang2 base) (.copy (copy0 2))) (copy0 2) = true ∧ (gang2 base).memberGid (gr1 (gang2 base)) 1 = some 2 ∧
    ready (inFlight (gang2 base) (.copy { copy0 4 with slot := some 1 })) { copy0 4 with slot := some 1 } = true ∧ receivers (gang2 base) = 2 ∧
    receivers base = 1 ∧ ready (inFlight base (.copy { copy0 4 with slot := some 1 })) { copy0 4 with slot := some 1 } = true ∧
    (CopyRun.chunk { s := base, peer := [], index := 0, fails := [] } (flight (.copy (copy0 4))) (copy0 4) 0 [(1, 0)]
      ((copy0 4).chunks.headD [])).fails = [] ∧ (copy0 4).chunks.length = 1 := by decide +kernel
def mma1 : MmaOp := { op := 2, fmt := 0x55, cv := 0, tile := 0, rb := 0, cb := 0, lay := [], aBytes := [], bBytes := [], relaxed := none, tithed := false }
def acc1 (form : AccForm) : AccOp :=
  { form := form, tile := 0, other := 1, rb := 0, cb := 0, m := 32, n := 32, lay := [0, 0, 0], base := 0, words := [], fmt := 0, relaxed := none }
/-- Operations of each kind that nothing holds; a tile in time. -/
theorem witness_EngineEnds :
    let ends (s : State) (k : OpKind) : Bool := ((Store.get (inFlight s k).ops 0).map AOp.kind) == some k && (s.group 1).isSome && !(inFlight s k).opHeld 0 &&
      (inFlight s k).ops.all fun e => decide (0 ≤ e.1)
    let vs := { set1 with latches := [(0, latch1)] }
    let trav (flags : Byte) (resume : Bool) (rep : Option (Nat × Nat)) : Bool :=
      let t : TravOp := { block := 65472, start := (gr1 (block flags)).spRead 65472 64, resume := resume, report := rep }
      let s := inFlight (block flags) (.trav t)
      ends (block flags) (.trav t) && !s.rayAwaits 0 && match s.lanesOf [0] with
      | some [v] =>
        let ray := Ray.of t.start
        let went := ray.run v { s := s, buf := v.th.peerBuf, poison := none, halt := none } resume rep
        if !ray.live then flags == 0 else if ray.susp != resume then true else went.1.halt.isNone && went.2.isSome
      | _ => false
    let lost : State := inFlight { block 0x80 with tlb := [] } (.trav { block := 65472, start := (gr1 (block 0x80)).spRead 65472 64, resume := false, report := none })
    [(none, false), (some 4, false), (some 4, true)].all (fun r => ends base (.mma { mma1 with relaxed := r.1, tithed := r.2 })) = true ∧
    [AccForm.load, .store, .fold, .quantise].all (fun f => ends base (.acc (acc1 f))) = true ∧ ends base (.acc { acc1 .fold with relaxed := some 4 }) = true ∧
    ends base (.value [7] none) = true ∧ ends viewed (.tile { tile1 with strip := 1 }) = true ∧ viewed.view 0 0 = some vs ∧
    viewed.bridgeStopped = false ∧ (gr1 viewed).spPoisoned 0 4096 = false ∧ (viewed.now : Int) ≤ vs.deadline 5 1 ∧ vs.deadNo = 5 * vs.strips + 1 ∧
    trav 0 false none = true ∧ trav 0xC0 false none = true ∧ trav 0x80 false none = true ∧ trav 0xC0 true none = true ∧ trav 0xC0 true (some (0, 0)) = true ∧
    (match lost.lanesOf [0] with
      | some [v] => ((Ray.of ((gr1 (block 0x80)).spRead 65472 64)).run v { s := lost, buf := [], poison := none, halt := none } false none).1.halt ==
          some (.miss 0x10800 16)
      | _ => false) = true := by decide +kernel
/-- A message to a group that is gone, to one with no posted receive for it and to one with its tag or any; words that a TLW waits for. -/
theorem witness_Arrivals :
    let m : Msg := { tag := 7, payload := 9, sender := 0 }
    let mail (gid : Nat) : State := { base with mail := [(0, (gid, m, 0))] }
    let posts (tag : Nat) : State := inGr (mail 1) fun g => { g with posts := [{ thread := 0, tag := tag, dst := [.stack 4], from? := some (.stack 6) }] }
    let waits (peer : Bool) (test : Option Nat) : State := inTh (mem base 0x10800 [5]) fun th => { th with st := .waiting (.word 0x10800 5 true peer test) }
    let lane (s : State) (f : Lane → Bool) : Bool := (s.lanesOf [0]).any fun vs => vs.any f
    (mail 9).group 9 = none ∧ (mail 9).saved = [] ∧ (mail 1).mode 0 = 0 ∧ (gr1 (mail 1)).posts = [] ∧ (gr1 (mail 1)).msgs.length < 64 ∧
    (gr1 (posts 7)).posts.all (fun p => p.tag == m.tag) = true ∧ (gr1 (posts 0xFFFF)).posts.length = 1 ∧
    lane (waits false none) (fun v => v.th.st == .waiting (.word 0x10800 5 true false none) && leaf0 (waits false none) v 0x10800 .load && (v.page (waits false none) 0x10800 .load).any fun t =>
      let r := (waits false none).performLoad v.core v.g.ctx v.key v.th.pc t 8 true
      r.2.2.isNone && decide (5 ≤ ofBytes r.2.1)) = true ∧
    lane (waits true none) (fun v => v.th.st == .waiting (.word 0x10800 5 true true none)) = true ∧
    lane (waits true (some 3)) (fun v => v.th.st == .waiting (.word 0x10800 5 true true (some 3))) = true ∧ (5 : Nat) ≤ ofBytes [5, 0, 0, 0, 0, 0, 0, 0] := by
  decide +kernel
/-- A pop of each kind with a handle; claims of the first tile and past the last; a draining thread; a group that is done; the thresher slot. -/
theorem witness_ThreadAndGroupEvents :
    let pop (filled : Bool) : State := inTh (inGr base fun g => { g with queues := [(0, { queue2 false with filled := [1] })] }) fun th =>
      { th with st := .waiting (.pop 0 filled (.stack 4)) }
    let c : Claim := { thread := 0, launch := 0, pred := 3, dst := [.stack 4, .stack 5] }
    let claimed : State := { launched with claims := [c] }
    let done : State := inGr base fun g => { g with live := 0 }
    let body : State := inGr base fun g => { g with thr := some (0x10040, 4) }
    let serves : State := { body with thresher := [(0, 1)], threads := [(thresherKey 0, thresherThread 1 0x10040 0)] }
    (gr1 (pop true)).queues.all (fun q => q.2.filled == [1] && q.2.free == [0, 1]) = true ∧ (th0 (pop true)).st = .waiting (.pop 0 true (.stack 4)) ∧
    (pop false).mode 0 = 0 ∧ (pop true).firstPopper 1 0 true = some 0 ∧ (pop false).firstPopper 1 0 false = some 0 ∧ (Store.get launched.launches 0).any (fun l => launched.mode l.ctx == 0 && min l.walker l.tiles == 0 && l.tiles == 30) = true ∧
    claimed.claims.find? (fun d => d.thread == 0) = some c ∧ claimed.claims.find? (fun d => d.launch == 0) = some c ∧
    (th0 (inTh base fun th => { th with st := .draining })).pend = [] ∧ (inTh base fun th => { th with st := .draining }).fencing 0 = false ∧
    isThresher 0 = false ∧ isThresher (thresherKey 0) = true ∧ serves.fencing (thresherKey 0) = false ∧ 0 < (gr1 base).live ∧ (gr1 done).live = 0 ∧ done.ops = [] ∧ done.thresherQuiet 1 (gr1 done) = true ∧
    done.passDue = false ∧ done.aborted (gr1 done) = false ∧ Store.get serves.thresher 0 = some 1 ∧ (Store.get serves.threads (thresherKey 0)).any (fun t => t.mayIssue serves.moves) = true ∧
    serves.running (gr1 serves) = true ∧ 0 < (gr1 serves).live ∧ 0 < (gr1 body).live ∧ serves.periodDue = false ∧ body.periodDue = false ∧ Store.get body.thresher 0 = none ∧ body.nextServed 0 = some (1, gr1 body) := by decide +kernel
/-- Meshlets with a bad and a good header; a primitive before a latched strip; records that are stale, that find a slot and that find none. -/
theorem witness_RasterEvents :
    let head (v : Nat) : List Byte := toBytes 2 v ++ toBytes 2 0 ++ toBytes 4 8192 ++ toBytes 2 4 ++ toBytes 6 0
    let amp (v : Nat) : State := { viewed with amplifier := [(0, [{ ctx := 0, slot := 0, mask := 1, bytes := head v }])] }
    let p : Prim := { die := 0, ctx := 0, slot := 0, view := 0, meshlet := 0, index := 0, pts := [(0, 0), (2560, 0), (0, 2560)], strip := 0 }
    let c : Cover := { die := 0, ctx := 0, slot := 0, frame := 5, view := 0, strip := 0, col := 0, bytes := [], taken := none }
    let routed (q : Queue) (dead : Nat) : State := { inGr base (fun g => { g with queues := [(0, q)], leaving := true }) with
      views := [(0, { set1 with latches := [(0, latch1)], deadNo := dead, routes := [{ frame := 5, strip := 0, die := 0, groups := [1] }] })], covers := [c] }
    let target (s : State) (stale : Bool) : Bool := s.coverTarget c == some 1 && (s.view 0 0).any fun vs => s.coverStale vs c 1 == stale &&
      vs.routes.any fun r => r.frame == 5 && r.strip == 0
    headerBad (head 0) = true ∧ headerBad (head 1) = false ∧ (amp 0).view 0 0 = viewed.view 0 0 ∧ Store.get { set1 with latches := [(0, latch1)] }.latches p.strip = some latch1 ∧
    p.die = 0 ∧ target (routed (queue2 false) 16) true = true ∧ target (routed (queue2 false) 15) false = true ∧
    target (routed { queue2 false with free := [] } 15) false = true ∧ (routed (queue2 false) 15).pushWaited = [] ∧ (queue2 false).engines = [] ∧
    [true, false].all (fun meets =>
      let probe := gr1 base
      let taken : State := { routed (queue2 false) 15 with
        covers := [{ c with taken := some (1, 1, 0) }]
        board := [{ op := 9, core := 0, gid := 1, lo := probe.pool (if meets then 511 else 512), hi := probe.pool 600, write := false, empty := false }] }
      taken.covers.all (fun c => c.taken == some (1, 1, 0)) && taken.board.any (fun e => overlaps e.lo e.hi (probe.pool 256) (probe.pool 511)) == meets) = true := by
  decide +kernel
/-- A latch, a deadline met and missed, a row, a gaze frame, and the three moves of a reservation, each at the first counter value that admits it. -/
theorem witness_DisplayEvents :
    let v := { set1 with latches := [(0, latch1)], latchNo := 17, deadNo := 16 }
    let whole := { v with done := (List.range 120).map fun k => (5, k / 60, 1, k % 60) }
    let gaze : List Byte := [0, 0, 1, 2] ++ toBytes 4 1 ++ toBytes 4 0x447A2CCD ++ toBytes 4 0 ++ [0, 0, 0, 0]
    let g : State := { viewed with tenants := [(0, { Tenant.fresh with gazeKey := [1, 2] })], inputs := { Inputs.none with gaze := gaze } }
    set1.latchTime 5 1 = 1054032000 ∧ set1.deadline 5 1 = 1055352000 ∧
    v.deadNo < v.latchNo ∧ v.deadline (v.deadNo / v.strips) (v.deadNo % v.strips) < ((1055352001 : Nat) : Int) ∧
    v.deadline 5 1 ≤ ({ v with row := 512 } : ViewSet).rowTime 5 32 ∧ v.complete 5 1 = false ∧
    Store.get { whole with latches := [(1, latch1)] }.latches 1 = some latch1 ∧
    set1.rowTime (set1.row / set1.ey) (set1.row % set1.ey) = 1055000000 ∧ (set1.rowTime 5 0) < set1.deadline (set1.deadNo / set1.strips) (set1.deadNo % set1.strips) ∧
    g.portUp = true ∧ g.ready = true ∧ g.gazeTarget 0 0 = some 0 ∧ gaze.length = 20 ∧ field gaze 2 2 = field (g.tenant 0).gazeKey 0 2 ∧ zeros gaze 16 20 = true ∧
    set1.inWindow = false ∧ set1.stopSent = false ∧ set1.latchTime set1.window 0 = 1053680000 ∧
    set1.deadline 5 2 + 55000 = 1055759000 ∧ 6 * set1.strips ≤ ({ set1 with latchNo := 18, inWindow := true } : ViewSet).latchNo ∧
    (1055759000 : Int) < set1.latchTime 6 0 ∧
    (set1.first < 6 ∧ ({ v with old := [(1, [{ latch1 with frame := 5 }])] } : ViewSet).latchAt 5 1 = some latch1) := by decide +kernel
theorem witness_DisplayEvents_complete :
    ({ set1 with latches := [(1, latch1)], serq := [(5, 0, 1), (5, 1, 1)], done := (List.range 120).map fun k => (5, k / 60, 1, k % 60) } : ViewSet).complete 5 1 = true := by decide +kernel
/-- A descriptor at 0x10C00 with its records at 0x18000, into a free slot and into one that is bound; an unbind with nothing in flight and with a tile in
flight; a status command. -/
theorem witness_ViewSetCommands :
    let s := above (above base 0x10C00 setDesc) 0x18000 (viewRecord 0 ++ viewRecord 1)
    let bind := record 0x0C 0 0 0 ([1, 0, 0, 0, 0, 0, 0, 0] ++ toBytes 8 0x10C00)
    let unbind := record 0x0D 0 0 0 []
    let status := record 0x0F 0 0 0 ([0, 1, 0, 0, 0, 0, 0, 0] ++ [0, 0, 0, 0, 0, 0, 0, 0] ++ toBytes 8 0x10800)
    let v := ViewSet.fresh 0 setDesc [viewRecord 0, viewRecord 1]
    let bad := above (above base 0x10C00 (setDesc.set 32 5)) 0x18000 (viewRecord 0 ++ viewRecord 1)
    let v5 := ViewSet.fresh 0 (setDesc.set 32 5) []
    stands 0x0C bind = true ∧ bind.at' 8 1 = 1 ∧ zeros bind.bytes 10 16 = true ∧ bind.at' 16 8 % 64 = 0 ∧ zeros bind.bytes 24 64 = true ∧
    (s.readSet bind).2 = (some v, true, false) ∧ v.descOk = true ∧ v.areaOk = true ∧ v.linkOk = true ∧ v.recordOk 0 = true ∧ v.recordOk 1 = true ∧ v.gsrc = 0 ∧
    s.ctxReady bind (· != .free) = true ∧ s.view 0 1 = none ∧ s.views = [] ∧ ({ s with views := [(1, set1)] } : State).view 0 1 = some set1 ∧
    (bad.readSet bind).2 = (some v5, false, false) ∧ v5.descOk = true ∧ v5.areaOk = true ∧ v5.linkOk = true ∧ v5.gsrc = 0 ∧ bad.ctxReady bind (· != .free) = true ∧ bad.view 0 1 = none ∧ bad.views = [] ∧
    ({ bad with views := [(1, set1)] } : State).view 0 1 ≠ none ∧ ({ s with ctxs := [] } : State).ctxReady bind (· != .free) = false ∧
    stands 0x0D unbind = true ∧ zeros unbind.bytes 9 64 = true ∧ viewed.ctxReady unbind (· != .free) = true ∧ (viewed.view 0 0).any (fun v => v.unbind.isNone) = true ∧
    viewed.viewQuiet 0 0 = true ∧ (inFlight viewed (.tile tile1)).viewQuiet 0 0 = false ∧ base.view 0 0 = none ∧
    stands 0x0F status = true ∧ status.at' 9 1 = 1 ∧ zeros status.bytes 10 16 = true ∧ zeros status.bytes 17 24 = true ∧ status.at' 24 8 % 8 = 0 ∧
    zeros status.bytes 32 64 = true ∧ viewed.windowAddr 0 0 3 (status.at' 24 8) 24 = some 0x10800 := by decide +kernel
/-- A record that is poisoned, breaks the header, is a RELAY, is another; the last of the ring; a lap; RELAY of a free, a used and a foreign node. -/
theorem witness_CommandQueues :
    let nop := record 8 0 0 0 []
    let relay := record 2 2 3 0 ((List.range 8).map fun _ => 0xFF)
    let seen (s : State) (f : Nat → CmdQ → Bool) : Bool := (s.cmdQ 0 0).any fun v => let r := s.rawRead v.ctrl 8; !r.2.2 && f (ofBytes r.2.1) v
    let first (w : Nat) (v : CmdQ) : Bool := decide (v.ridx < w ∧ w ≤ v.ridx + 2 ^ v.k)
    let head (s : State) : State × List Byte × Bool := (s.rawRead 0x10C00 8).1.rawRead 0x10800 64
    seen (ring 1 0 nop []) first = true ∧ seen (ring 16 0 nop []) first = true ∧ seen (ring 1 0 nop [(0x10800 / 32, 3)]) first = true ∧
    (head (ring 1 0 nop [(0x10800 / 32, 3)])).2.2 = true ∧ (head (ring 1 0 nop [])).2 = (nop.bytes, false) ∧ nop.headerStatus = 0 ∧ 2 < nop.opc ∧
    (record 16 0 0 0 []).headerStatus = 1 ∧ decodeRecord relay.bytes = some .relay ∧ relay.headerStatus = 0 ∧ relay.opc = 2 ∧
    seen (ring 17 0 nop []) (fun w v => decide (v.ridx + 2 ^ v.k < w)) = true ∧ ((ring 17 0 nop []).lapQueue 0 0 ⟨0x10800, 4, 0x10C00, 0, [], []⟩ 17).cmdQ 0 0 ≠ none ∧
    stands 2 relay = true ∧ zeros relay.bytes 16 64 = true ∧ relay.graph = true ∧ base.ownsNode 0 relay.node = true ∧ Store.get base.nodes relay.node = none ∧
    (let c := { relay with bytes := relay.bytes.set 2 4 }; stands 2 c && zeros c.bytes 16 64 && !base.ownsCtx 0 c.ctx) = true ∧ base.ownsCtx 0 relay.ctx = true ∧
    stands 2 (record 2 0 0 0 []) = true ∧ (record 2 0 0 0 []).graph = false ∧ base.ownsNode 0 8 = false ∧ base.ownsNode 0 7 = true ∧
    Store.get ({ base with nodes := [(3, { counter := 1, record := relay })] } : State).nodes relay.node ≠ none := by decide +kernel
/-- A header of one group of one thread in a window of registers and scratchpad; a second gang is walked when the walker flag is set. -/
def header1 : List Byte := toBytes 8 0x10000 ++ toBytes 4 0x0101 ++ toBytes 2 1 ++ toBytes 2 64 ++ toBytes 4 0 ++ [0, 1, 0, 0] ++ toBytes 8 0 ++
  [1, 0, 1, 0, 1, 0, 1, 0] ++ toBytes 4 0xFFFFFFFF ++ List.replicate 468 0
theorem witness_Launches :
    let s := above base 0x10800 header1
    let c (g : Nat) := record 1 g 0 0 (toBytes 8 0x10800 ++ toBytes 8 0x10C00 ++ toBytes 2 1)
    let h := State.readVirtual 2 s 0 0x10800 512 []
    let a := State.readVirtual 3 h.1 0 0x10C00 4 []
    let l := launchOf a.1 (c 0) header1 [0, 0, 0, 0]
    let waits : State := { s with launches := [(0, { l with ready := some 0 })], now := 110 }
    let pipe := record 9 0 0 0 ([0, 2, 0, 0, 0, 0, 0, 0] ++ [1, 4, 1, 8])
    let p : Pipe := { gfx := false, mins := [1, 1], maxs := [4, 8], targets := [1, 1], since := 0, period := 0 }
    let piped : State := inCx { base with now := 17600 } fun x => { x with pipes := [(0, p)] }
    stands 1 (c 0) = true ∧ stands 1 (c 2) = true ∧ launchBodyOk (c 0) = true ∧ launchBodyOk (c 2) = true ∧ (c 2).graph = true ∧ base.ctxReady (c 0) (· != .free) = true ∧
    ({ base with ctxs := [] } : State).ctxReady (c 0) (· != .free) = false ∧ h.2 = some header1 ∧ a.2 = some [0, 0, 0, 0] ∧
    (State.readVirtual 2 s 0 0x11000 512 []).2 = none ∧ l.gangs = 1 ∧ a.1.launchStatus (c 0) l = 0 ∧ a.1.launchStatus (c 2) l = 0 ∧
    a.1.launchStatus (c 0) (launchOf a.1 (c 0) (header1.set 22 4) []) = 6 ∧
    launch1.ready ≠ none ∧ ({ launch1 with finished := 1 } : Launch).gangs = 1 ∧
    stands 9 pipe = true ∧ pipeBodyOk pipe = true ∧ base.ownsCtx 0 0 = true ∧ (Store.get base.ctxs 0).any (fun x => x.st != .free && x.pipes.isEmpty) = true ∧
    base.stageBusy 0 0 none = false ∧ ({ base with launches := [(0, { launch1 with header := launch1.header.set 23 0x80 })] } : State).stageBusy 0 0 none = true ∧
    waits.passDue = true ∧ waits.ready = true ∧ waits.passNo < (waits.now - waits.epoch) / 110 ∧ waits.candidates = [0] ∧ l.gangSize ≤ waits.widestRegion ∧ Store.rd 0 l.passes 0 < 200 ∧ waits.nextGang 0 { l with ready := some 0 } = some 0 ∧ waits.savedGang 0 0 = [] ∧
    (waits.chooseSpots 0 { l with ready := some 0 } 0).isSome = true ∧ (Store.get waits.ctxs 0).any (fun x => x.st == .active) = true ∧
    (Store.get piped.ctxs 0).any (fun x => decide (x.mode < 2) && Store.get x.pipes 0 == some p) = true ∧ p.since + 17600 * (p.period + 1) ≤ piped.now ∧
    piped.stageMove 0 0 p = none := by decide +kernel
def coll1 : CollOp := { desc := collBody, fail := none, record := none, ctx := 0 }
/-- A command and an instruction's collective of one rank, whose member list can be read, cannot, or has failed; two ranks with the other unreachable,
and reachable through port 0 with its input come. -/
theorem witness_Collectives :
    let s := mem base 0x10800 collBody
    let c : Cmd := { Inputs.none.record with bytes := [0x0E, 0, 0, 0, 0, 0, 0, 0] ++ collBody.drop 8 }
    let two : List Byte := (collBody.set 12 2).set 14 1
    let read (b : List Byte) : Got := (State.collRead (pageFuel (2 * (Coll.of b).nrank)) s 0 0 (Coll.of b).mlist (2 * (Coll.of b).nrank) s.inputs.peer.data).2.1
    let bytes (b : List Byte) : Bool := match read b with
      | .bytes _ => true
      | _ => false
    let run := (Coll.of collBody).chunks.foldl (fun (r : CollRun) p => if r.waits then r else r.chunk 0 0 (Coll.of collBody) [] p)
      { s := s, peer := [], index := 0, fails := [], waits := false }
    stands 0x0E c = true ∧ (Coll.of c.bytes).bad c.bytes = false ∧ base.ctxReady c (· != .free) = true ∧ ({ base with ctxs := [] } : State).ctxReady c (· != .free) = false ∧
    ((Store.get (inFlight s (.coll coll1)).ops 0).map AOp.kind) = some (.coll coll1) ∧ (s.group 1).isSome = true ∧ coll1.fail = none ∧
    ((Store.get (inFlight s (.coll { coll1 with fail := some ⟨4, none⟩ })).ops 0).map AOp.kind) = some (.coll { coll1 with fail := some ⟨4, none⟩ }) ∧
    bytes collBody = true ∧ bytes (collBody.set 42 2) = false ∧ bytes two = true ∧
    ({ s with peerRoutes := [(0, 1)] } : State).reachable 0 = true ∧ s.reachable 0 = false ∧ s.inputs.code = 0 ∧ run.waits = false ∧ run.fails = [] := by decide +kernel
/-- A 256-byte image of a context: root 0x1000, a watchdog period of 1. -/
def image1 : List Byte := List.replicate 8 0 ++ toBytes 8 0x1000 ++ List.replicate 24 0 ++ [1, 0, 0, 0] ++ List.replicate 212 0
theorem witness_ContextCommands :
    let s (image : List Byte) : State := { above base 0x10800 image with ctxs := [] }
    let load := record 3 0 0 0 (List.replicate 8 0 ++ toBytes 8 0x10800)
    let upd (mask : Nat) := record 4 0 0 0 (toBytes 2 mask ++ List.replicate 6 0 ++ List.replicate 16 0 ++ toBytes 4 16000)
    let bare (opc : Nat) := record opc 0 0 0 []
    let meta_ (opc n : Nat) := record opc 0 0 0 (toBytes 8 0x10800 ++ toBytes 8 n ++ [0, 0, 0, 0, 0, 0, 0, 0] ++ toBytes 8 0x11000)
    let shape (c : Cmd) (n : Nat) : Bool := decide (c.at' 8 8 % 256 = 0 ∧ c.at' 16 8 = n ∧ c.at' 24 1 < 16 ∧ c.at' 25 1 < 16) && zeros c.bytes 26 32 && zeros c.bytes 40 64
    let st (x : CtxState) : State := inCx base fun c => { c with st := x }
    let in_ (x : CtxState) : Bool := (Store.get (st x).ctxs 0).any fun c => c.st == x
    stands 3 load = true ∧ zeros load.bytes 9 16 = true ∧ zeros load.bytes 24 64 = true ∧ (s image1).ownsCtx 0 0 = true ∧ Store.get (s image1).ctxs 0 = none ∧
    (s image1).windowAddr 0 0 2 (load.at' 16 8) 256 = some 0x10800 ∧ ((s image1).rawRead 0x10800 256).2 = (image1, false) ∧ (ctxOfImage 0 0 image1).fieldsOk = true ∧
    zeros image1 2 8 = true ∧ zeros image1 64 256 = true ∧ (ctxOfImage 0 0 (image1.set 1 4)).fieldsOk = false ∧ Store.get base.ctxs 0 ≠ none ∧
    (({ s image1 with poison := [(0x10800 / 32, 3)] } : State).rawRead 0x10800 256).2.2 = true ∧
    [32, 511].all (fun m => stands 4 (upd m) && (upd m).at' 8 2 == m && zeros (upd m).bytes 10 16 && zeros (upd m).bytes 49 64) = true ∧
    (Store.get base.ctxs 0).any (fun x => (x.updated (upd 32)).fieldsOk && (x.updated (upd 511)).fieldsOk) = true ∧
    [CtxState.idle, .saved, .active, .restoring].all in_ = true ∧ [5, 6, 7].all (fun o => stands o (bare o) && zeros (bare o).bytes 8 64) = true ∧
    base.ctxReady (bare 7) (· != .free) = true ∧ stands 0x0A (meta_ 0x0A 2) = true ∧ shape (meta_ 0x0A 2) 2 = true ∧
    base.windowAddr 0 0 2 0x10800 512 = some 0x10800 ∧ base.windowAddr 0 0 3 0x11000 1 = some 0x11000 ∧ stands 0x0B (meta_ 0x0B 3) = true ∧ shape (meta_ 0x0B 3) 3 = true ∧
    base.windowAddr 0 0 3 0x10800 768 = some 0x10800 ∧ base.windowAddr 0 0 2 0x11000 2 = some 0x11000 ∧ (base.rawRead 0x11000 2).2.2 = false ∧
    (({ base with poison := [(0x11000 / 32, 3)] } : State).rawRead 0x11000 2).2.2 = true := by decide +kernel
theorem witness_StopsAndSaves :
    let s (st : CtxState) (f : Ctx → Ctx) : State := inCx launched fun c => f { c with st := st, stop := some 0 }
    let stop (saving : Bool) : State := { launched with gangStops := [{ launch := 0, gang := 0, deadline := 0, saving := saving }] }
    let safe (s : State) : Bool := s.groups.all fun e => s.groupSafe e.1 e.2
    let quiet (s : State) : Bool := (s.groups.all fun e => s.keptQuiet e.1) && s.ops.all fun o => o.2.reissued
    let id_ (c : Ctx) : Ctx := c
    let held : SavedGroup := { gid := 1, group := gr1 base, threads := [], board := [] }
    let late : State := { s .active id_ with now := 1100000 }
    let out (s : State) : Bool := ((s.saveGroups s.groups).finishSave 0).2
    let log : State := mem (ring 0 1 Inputs.none.record []) 0x10040 ([1, 0, 0, 0, 0, 0, 0, 0] ++ List.replicate 24 0)
    let replay : State := inCx log fun c => { c with detmode := 0x100003, logb := 0x10000, log := { c.log with wpos := 32 } }
    safe (s .stopping id_) = true ∧ quiet (s .stopping id_) = true ∧ (Store.get (s .stopping id_).ctxs 0).any (fun c => c.st == .stopping && c.stop == some 0 && decide (c.mode ≤ 1)) = true ∧
    ((stop false).gangStops.filter fun t => ((Store.get (stop false).launches t.launch).map Launch.ctx) == some 0) = (stop false).gangStops ∧
    (stop false).gangStops.all (fun t => !t.saving && decide (t.deadline ≤ (stop false).now)) = true ∧ safe (stop false) = true ∧
    (stop true).gangStops.all (fun t => t.saving) = true ∧ quiet (stop true) = true ∧ (Store.get (s .saving id_).ctxs 0).any (fun c => c.st == .saving) = true ∧
    out (s .saving id_) = false ∧ out { s .saving id_ with groups := [] } = true ∧
    ({ s .restoring id_ with saved := [held] } : State).saved.any (fun v => v.group.ctx == 0) = true ∧ (s .restoring id_).saved = [] ∧
    ({ s .restoring id_ with launches := [] } : State).launches = [] ∧
    (Store.get late.ctxs 0).any (fun c => c.st == .active && !c.watchdog && decide (max c.progress c.entered + c.wdper.toNat % 2 ^ 14 * 1100000 ≤ late.now)) = true ∧
    (late.threads.filter fun e => !e.2.external && ((late.group e.2.gid).map Group.ctx) == some 0).length = 1 ∧ launch1.persistent = false ∧
    replay.forcing 0 = true ∧ (match (State.scanLog (replay.orphaned 0) [] 0 1 0 replay).2 with
      | .ok (some (j, e)) => j == 0 && e.kind == 1
      | _ => false) = true := by decide +kernel
theorem witness_FaultService :
    let e : UEvent := { source := 1, core := 0, ctx := 0, tenant := 0, thread := none, wid := 0, pc := 0, addr := 0, count := 1 }
    let f : FRec := { seq := 0, type := 6, ctx := 0, bytes := List.replicate 64 0 }
    let fq : FaultQ := { base := 0x10800, k := 6, ctrl := 0x10C00, widx := 0, ridx := 0, rsm := 0, rsmRead := 0, seq := 1, held := [f], drops := 0, advanced := true, kinds := [(0, f)] }
    let s : State := let b := mem base 0x10C00 (toBytes 8 0 ++ toBytes 8 1 ++ toBytes 8 1)
      { b with uevents := [e], tenants := b.tenants.map fun t => (t.1, { t.2 with fq := fq }), now := 1100 }
    let first (u : State) : Bool := ((u.tenant 0).fq.kinds.find? fun e => decide (e.1 < (u.tenant 0).fq.rsm)).isSome
    let rsm (q : FaultQ) : State := { s with tenants := s.tenants.map fun t => (t.1, { t.2 with fq := q }) }
    let q := (s.tenant 0).fq
    let found (s : State) (core w : Nat) (f : ScrubFind) : ScrubFind :=
      let u := s.patrolTo.strikePool core (4 * w) f
      u.wordError core (4 * w) (u.poolWord core (4 * w))
    let reg (i : Nat) : Nat := 256 * (gr1 s).regBase + (th0 s).tid * (th0 s).words + i
    s.periodDue = true ∧ s.uevents ≠ [] ∧ q.held ≠ [] ∧ q.k ≠ 0 ∧ q.widx - q.ridx < 2 ^ q.k ∧ s.tenants.any (fun t => t.2.fq.advanced) = true ∧
    (s.rawRead (q.ctrl + 8) 8).2 = (toBytes 8 1, false) ∧ (1 : Nat) ≠ q.ridx ∧ (s.rawRead (q.ctrl + 16) 8).2 = (toBytes 8 1, false) ∧
    (1 : Nat) ≠ q.rsmRead ∧ first (rsm { q with rsm := 1 }) = true ∧ first (rsm { q with rsm := 1, kinds := [] }) = false ∧ s.pwrgood = true ∧
    found s 191 (2 ^ 19 - 1) .clean = .clean ∧ found s 191 (2 ^ 19 - 1) .single = .single ∧ found (inTh s fun th => { th with weak := [5] }) 0 (reg 5) .clean = .single ∧
    found (inTh s fun th => { th with weak := [5] }) 0 (reg 5) .single = .double ∧ s.poolWord 0 (1024 * (gr1 s).spBase + 8) = .scratch 1 8 ∧
    (gr1 s).spBad = [] ∧ (gr1 s).spWeak = [] ∧ s.bridgeStopped = false ∧
    s.bridgeRetries < 15 ∧ 15 ≤ ({ s with bridgeRetries := 15 } : State).bridgeRetries := by decide +kernel
theorem witness_PowerAndVote :
    let up (n : Nat) : State := { State.reset with upStep := n }
    let port : State := { up 3 with inputs := { Inputs.none with ports := [15] } }
    let code : State := { up 1 with inputs := { Inputs.none with code := 1 } }
    ({ base with resetN := false } : State).resetN = false ∧ ({ base with pwrgood := false } : State).pwrgood = false ∧
    base.pwrgood = true ∧ (up 1).pwrgood = true ∧ (up 1).resetN = true ∧ (up 1).halted = false ∧ (up 1).failCode = 0 ∧ (up 6).upStep = 6 ∧ (up 3).inputs.ports = [] ∧
    port.inputs.ports = [15] ∧ code.inputs.code = 1 ∧ (code.upStep, code.inputs.code) = (1, 1) ∧ base.ready = true ∧ ({ base with now := 1100 } : State).periodDue = true ∧
    ((base.setVote 5 { base.tileVote 5 with fenced := true }).tileVote 5).fenced = true ∧ (base.tileVote 5).perm = false ∧ (base.tileVote 5).appeal = false := by
  decide +kernel
/-- A management request of the station, with the tag that its key gives. -/
def managing (s : State) (p : List Byte) : State :=
  let f : L2Frame := { kind := 5, src := 7, rqid := 0, payload := p, tag := 0 }
  { s with station := some 7, stationKey := [], inputs := { Inputs.none with frame := { f with tag := Config.hmacTag [] (taggedBytes f) } } }
/-- Such a request is the station's, of its operation and its length. -/
theorem managing_managed (s : State) (p : List Byte) (hp : s.portUp = true) (hr : s.ready = true) :
    (managing s p).managed (field p 0 1) p.length := by
  refine ⟨⟨hp, hr⟩, rfl, rfl, ?_, rfl⟩
  simp only [State.authorised, managing, taggedBytes, beq_self_eq_true, Bool.and_self]
def frame (kind : Byte) (p : List Byte) : State := { base with inputs := { Inputs.none with frame := { kind := kind, src := 7, rqid := 0, payload := p, tag := 0 } } }
/-- A window of tenant 1 that lies in tenant 0's, one that fits beside it, and one beyond HBM. -/
def windowAt (mb2 : Nat) : List Byte := [2, 1, 15] ++ toBytes 16 (1 + mb2 * 2 ^ 21)
theorem witness_HostRequests :
    let w (p : List Byte) : BitVec 128 := windowFields (field p 3 16)
    (base.portUp = true ∧ ({ base with ready := false } : State).ready = false) ∧ (frame 1 []).inputs.frame.kind = 1 ∧
    ((frame 3 [4]).inputs.frame.kind = 3 ∧ (frame 3 [4]).inputs.frame.payload = 4 :: []) ∧
    ((frame 7 (List.replicate 32 0)).inputs.frame.payload.length = 32 ∧ (frame 7 []).ready = true) ∧
    ((frame 5 (1 :: List.replicate 48 0)).manageOp = 1 ∧ (frame 5 []).station = none ∧ (1 :: List.replicate 48 (0 : Byte)).length = 49) ∧
    ((frame 5 [2]).manageOp ≠ 1 ∧ (frame 5 [2]).authorised = false) ∧
    (managing base (windowAt 1)).managed 2 19 ∧ windowFits (w (windowAt 1)) = true ∧ base.windowClash 1 (w (windowAt 1)) = false ∧
    base.windowClash 1 (w (windowAt 0)) = true ∧ windowFits (w (windowAt (2 ^ 30 - 1))) = false ∧ (w (windowAt 0)).getLsbD 0 = true ∧
    (w ([2, 1, 15] ++ toBytes 16 0)).getLsbD 0 = false := by
  refine ⟨?_, ?_, ?_, ?_, ?_, ?_, managing_managed base _ rfl rfl, ?_⟩ <;> decide +kernel
theorem witness_ManagementRequests :
    let m (p : List Byte) : State := managing base p
    let cq (base ctrl : Nat) : List Byte := [3, 0, 5] ++ toBytes 8 base ++ [4] ++ toBytes 8 ctrl
    let fq (base : Nat) : List Byte := [4, 0] ++ toBytes 8 base ++ [6] ++ toBytes 8 0x18000
    let pair (op first count : Nat) : List Byte := toBytes 1 op ++ [1] ++ toBytes 2 first ++ toBytes 2 count
    ((m (cq 0x10800 0x10C00)).managed 3 20 ∧ (m (fq 0x14000)).managed 4 19 ∧ (m (pair 5 8 8)).managed 5 6 ∧ (m (pair 6 4 4)).managed 6 6 ∧
      (m (7 :: 31 :: List.replicate 50 0)).managed 7 52 ∧ (m [8, 0xFF, 3]).managed 8 3 ∧ (m [9, 0xFF, 3, 1, 0]).managed 9 5 ∧ (m [10, 15]).managed 0x0A 2 ∧
      (m [11]).managed 0x0B 1 ∧ (m [12]).managed 0x0C 1) ∧
    (base.inWindowOf 0 0x10800 1024 = true ∧ base.inWindowOf 0 0x10C00 64 = true ∧ base.inWindowOf 0 0x200000 1024 = false ∧ base.cmdQ 0 5 = none ∧
      (ring 1 0 (record 8 0 0 0 []) []).untaken 0 0 = true ∧ base.inWindowOf 0 0x14000 4096 = true ∧ base.inWindowOf 0 0x18000 64 = true ∧
      base.unconsumed 0 = false ∧ (let q : FaultQ := { Tenant.fresh.fq with k := 6, widx := 1, ctrl := 0x18000 }
        ({ base with tenants := [(0, { Tenant.fresh with fq := q })] } : State).unconsumed 0) = true ∧ base.parkedThreads 0 = false ∧ (inTh base fun th => { th with st := .parked 0 }).parkedThreads 0 = true) ∧
    (base.tenants.any (fun v => v.1 != 1 && rangesMeet 7 2 v.2.nodeFirst v.2.nodeCount) = true ∧ base.tenants.any (fun v => v.1 != 1 && rangesMeet 8 8 v.2.nodeFirst v.2.nodeCount) = false ∧
      ({ base with nodes := [(8, { counter := 1, record := Inputs.none.record })] } : State).nodes.any (fun e => decide (8 ≤ e.1 ∧ e.1 < 16)) = true ∧ base.nodes = [] ∧
      base.tenants.any (fun v => v.1 != 1 && rangesMeet 3 1 v.2.ctxFirst v.2.ctxCount) = true ∧ base.tenants.any (fun v => v.1 != 1 && rangesMeet 4 4 v.2.ctxFirst v.2.ctxCount) = false ∧
      ({ base with ctxs := [(4, probeCtx)] } : State).ctxs.any (fun e => decide (4 ≤ e.1 ∧ e.1 < 8)) = true) ∧
    (base.walkedPeer = false ∧ ({ base with walkedPeer := true } : State).walkedPeer = true ∧ (m [10, 15]).inputs.ports = []) := by
  refine ⟨⟨managing_managed base _ rfl rfl, managing_managed base _ rfl rfl, managing_managed base _ rfl rfl, managing_managed base _ rfl rfl,
    managing_managed base _ rfl rfl, managing_managed base _ rfl rfl, managing_managed base _ rfl rfl, managing_managed base _ rfl rfl,
    managing_managed base _ rfl rfl, managing_managed base _ rfl rfl⟩, ?_, ?_, ?_⟩ <;> decide +kernel
/-- To the window's last byte and one beyond it. -/
theorem witness_HostAndPeerAccess :
    let r (o : Nat) : State := { base with inputs := { Inputs.none with rdma := { tenant := 0, rkey := 0, offset := o, data := [1, 2], len := 2 } } }
    let p (kind : PeerKind) (a : Nat) : State := { base with inputs := { Inputs.none with peer := { module := 1, tenant := 0, kind := kind, addr := a, data := [1, 2], len := 2 } } }
    let keyed (s : State) (right : Nat) : Bool := let q := s.inputs.rdma; let w := (s.tenant q.tenant).window (q.rkey.toNat / 2 ^ 23 % 16)
      q.tenant == q.rkey.toNat / 2 ^ 27 % 32 && w.getLsbD 0 && w.getLsbD right && w.toNat / 2 ^ 82 % 2 ^ 23 == q.rkey.toNat % 2 ^ 23 && decide (q.offset + 2 ≤ windowLen w)
    let granted (s : State) (right : Nat) : Bool := (s.tenant 0).windows.any fun v => v.2.getLsbD 0 && v.2.getLsbD right &&
      decide (windowBase v.2 ≤ s.inputs.peer.addr ∧ s.inputs.peer.addr + 2 ≤ windowBase v.2 + windowLen v.2)
    [2, 3].all (fun n => keyed (r (2 ^ 21 - 2)) n && !keyed (r (2 ^ 21 - 1)) n) = true ∧ (r 0).listens ∧ (r 0).inputs.rdma.data ≠ [] ∧ (r 0).inputs.rdma.len ≠ 0 ∧
    [PeerKind.read, .write, .atomic].all (fun k => [4, 5].all fun n => granted (p k (2 ^ 21 - 2)) n && !granted (p k (2 ^ 21 - 1)) n) = true ∧
    (p .read 0).ready = true ∧ 0 < (p .read 0).inputs.peer.len ∧ (p .write 0).inputs.peer.data ≠ [] ∧ (p .atomic 0).inputs.code.toNat < 128 ∧
    (15 : Nat) ∉ base.portsDown ∧ Store.rd 0 base.portReplays 15 < 15 ∧ 15 ≤ Store.rd 0 ({ base with portReplays := [(15, 15)] } : State).portReplays 15 := by
  refine ⟨?_, ⟨rfl, rfl⟩, ?_⟩ <;> decide +kernel
/-- A word at the program counter of the thread. -/
def at0 (w : Nat) : State := mem base 0x10000 (toBytes 8 w)
/-- IADD w4, w5, w6, from the layout of R155. -/
def iaddWord : Nat := 15 * 2 ^ 52 + 4 * 2 ^ 45 + 5 * 2 ^ 39 + 6 * 2 ^ 33 + 2 ^ 19 + 2 * 2 ^ 16
theorem witness_StepRunsTheWord :
    let v (s : State) : Lane := ((s.gatherLanes.getD []).head?).getD (Lane.mk 0 (th0 s) (gr1 s) 0)
    let got (s : State) : Option (List Byte) := ((s.fetchWord (v s)).2.toOption)
    let s : State := at0 iaddWord
    let word? (bs : List Byte) : Option Instr := decodeWord (BitVec.ofNat 64 (ofBytes bs))
    let word_ (s : State) (t : Xlat) (i : Option Instr) : Bool :=
      match (s.readPage { input := 0, core := 0, ctx := 0, thread := some 0, pc := 0x10000 } t 8).2, i with
      | .bytes bs, some i => word? bs == some i
      | .poison, none => true
      | _, _ => false
    let u : State := { s with armed := false, agenda := [(.heartbeatPeriod, Inputs.none)] }
    (s.armed = true ∧ (s.gatherLanes.getD []).length = 1 ∧ ((got s).bind word?) = some (.iadd (w 4 5 6 0 1 2 0)) ∧
      (got (at0 0x0500000000000000)).isSome = true ∧ ((got (at0 0x0500000000000000)).bind word?) = none ∧
      got { s with tlb := [] } = none) ∧
    ((v s).th.pc % 8 = 0 ∧ ((s.tlb.find? fun q => q.covers (fetchUnit (v s).core) (v s).g.ctx (v s).th.pc).map fun e =>
      let t := s.xlat e.bits e.entry (v s).th.pc
      t.permits .fetch && t.peer.isNone && word_ s t (some (.iadd (w 4 5 6 0 1 2 0))) && word_ { s with poison := [(0x10000 / 32, 3)] } t none) = some true) ∧
    (s.dueLatch s.now = none ∧ s.dueLatch (s.now + 1) = none) ∧
    (let due : State := { viewed with now := 1054032000 }
     due.dueLatch due.now = some (0, 0) ∧ ({ due with now := 1054031999 } : State).dueLatch 1054031999 = none ∧ due.armed = true) ∧
    u.dueLatch u.now = none ∧ u.armed = false ∧ u.agenda = (.heartbeatPeriod, Inputs.none) :: [] := by decide +kernel
theorem witness_WordsRoundTrip : wellFormed (.iadd (w 4 5 6 0 1 2 0)) = true ∧ decodeWord (BitVec.ofNat 64 iaddWord) = some (.iadd (w 4 5 6 0 1 2 0)) := by decide
/-- The step of a word gives a next state from canonical memory. -/
theorem witness_StepKeepsMemoryCanonical :
    Memory.wf (at0 iaddWord).hbm = true ∧ Memory.wf (at0 iaddWord).scanout = true ∧ (match step (at0 iaddWord) with | .next _ => true | _ => false) = true := by decide +kernel
theorem witness_TakingATrap :
    let ok (s : State) (cause : Nat) : Bool := (Store.get s.threads 0).isSome && (Store.get s.groups (th0 s).gid).isSome && !isThresher 0 && decide (cause ≤ 0x11)
    let s (vec : Nat) : State := mem (inGr base fun g => { g with code := 0x10010 }) 0x10000 (toBytes 8 vec)
    let vec (s : State) : Option Nat :=
      let va := (gr1 s).code - 16
      (s.tlb.find? fun q => q.covers (fetchUnit (coreOf 0)) (gr1 s).ctx va).bind fun e =>
        let t := s.xlat e.bits e.entry va
        if t.permits .fetch && t.peer.isNone then
          match (s.readPage { input := coreOf 0, core := coreOf 0, ctx := (gr1 s).ctx, thread := some 0, pc := (th0 s).pc } t 8).2 with
          | .bytes bs => some (ofBytes bs)
          | _ => none
        else none
    ok (inTh base fun th => { th with tcause := 0x100 }) 0x0D = true ∧ (th0 (inTh base fun th => { th with tcause := 0x100 })).tcause.getLsbD 8 = true ∧
    ok (s 0x10100) 1 = true ∧ (1 : Nat) ≠ 0x0A ∧ ok (s 0x10100) 0x0D = true ∧ (th0 (s 0)).tcause.getLsbD 8 = false ∧
    vec (s 0x10100) = some 0x10100 ∧ vec (s 0) = some 0 ∧ vec (s 4) = some 4 ∧ (1 : Nat) ≠ 0 ∧ ((gr1 (s 0)).code - 16) % 8 = 0 := by decide +kernel
theorem witness_RegisterFrames :
    eachAlone [.iadd (w 4 5 6 0 1 2 0), .and (w 48 5 6 0 1 6 0), .moviLo (w 32 0 0 0 2 0 5), .icmp (w 1 5 6 0 1 2 0), .pset (w 3 1 2 0 2 0 8)] base (fun _ => true) = true ∧
    base.logPending = [] ∧ (base.ctxs.all fun c => c.2.mode != 3) = true ∧ Store.rising 0 (th0 base).stack = true ∧ Store.rising 0 (gr1 base).k = true := by
  decide +kernel
/-- In one line, and across two. -/
theorem witness_StoreFrames :
    ([0x10800, 0x1087E] : List Nat).all (fun a => alone (.st (w 0 6 4 0 3 0 0)) (regs base [(6, word a)]) fun v =>
      let s := regs base [(6, word a)]
      admitted s v a && admitted s v (a + 3) && v.th.kept.isEmpty && !v.th.isParked && !s.fencing v.key &&
      ((v.page s a .store).any fun t => t.pa == a && t.peer.isNone && t.kind != 0 && !s.bridgeCut v.core t.pa)) = true ∧
    (write1.code = 0 ∧ write1.cmp = false ∧ Memory.wf base.hbm = true) ∧
    alone (.sts (w 0 5 4 0 2 3 0)) (inGr base fun g => { g with spLen := 64 }) (fun v => !isThresher v.key && v.r32 5 == 0 && decide (4 ≤ v.g.spLen) &&
      !(base.boardBlocks v (v.g.pool 0) (v.g.pool 3) true) && Memory.wf v.g.sp) = true := by decide +kernel
/-- A thread with its program's words, after one instruction: its stack words from n on. -/
def gives (i : Instr) (rs : List (Nat × Word)) (n : Nat) (l : List Word) : Bool :=
  (List.range l.length).map (fun k => after i (regs base rs) (n + k)) == l
/-- The cause that a trap leaves in its thread. -/
def trapOf (i : Instr) (s : State) : Word × DWord := let th := th0 (next (exec i s)); (th.tcause, th.tval)

/-- R183's example: IADD.S8 of 0x178 and 20, with SAT and without. -/
theorem test_iadd_s8 : gives (.iadd (w 4 5 0 0 0xC1 0 20)) [(5, 0x178)] 4 [0x7F] = true ∧ gives (.iadd (w 4 5 0 0 0x81 0 20)) [(5, 0x178)] 4 [0xFFFFFF8C] = true := by
  decide +kernel
/-- 0x7FFFFFFF + 1, cut to 32 bits. -/
theorem test_iadd_wraps : gives (.iadd (w 4 4 5 0 1 2 0)) [(4, 0x7FFFFFFF), (5, 1)] 4 [0x80000000] = true := by decide +kernel
/-- 0x80000000 squared is 2^62: its high word, signed and unsigned. -/
theorem test_imulh : gives (.imulh (w 4 5 5 0 9 2 0)) [(5, 0x80000000)] 4 [0x40000000] = true ∧
    gives (.imulh (w 4 5 6 0 9 6 0)) [(5, 0xFFFFFFFF), (6, 0xFFFFFFFF)] 4 [0xFFFFFFFE] = true := by decide +kernel
/-- 0 − 1 of a 64-bit pair. -/
theorem test_isub_pair : gives (.isub (w 4 6 8 0 2 3 0)) [(8, 1)] 4 [0xFFFFFFFF, 0xFFFFFFFF] = true := by decide +kernel
/-- The most negative S32 keeps its bits under IABS. -/
theorem test_iabs : gives (.iabs (w 4 5 0 0 5 2 0)) [(5, 0x80000000)] 4 [0x80000000] = true := by decide +kernel
/-- R188's example: PRMB of selectors 0x8F01. -/
theorem test_prmb : gives (.prmb (w 4 5 6 0 6 6 0x8F01)) [(5, 0x44332211), (6, 0x88776655)] 4 [0x00FF1122] = true := by decide +kernel
/-- 0xF0 rotated by 4, shifted arithmetically by 4 from the top, and its leading zeros and reversal. -/
theorem test_shifts : gives (.rot (w 4 5 0 0 0x89 6 4)) [(5, 0xF0000000)] 4 [0x0000000F] = true ∧
    gives (.sar (w 4 5 0 0 0x88 6 4)) [(5, 0x80000000)] 4 [0xF8000000] = true ∧ gives (.clz (w 4 5 0 0 4 6 0)) [(5, 1)] 4 [31] = true ∧
    gives (.brev (w 4 5 0 0 5 6 0)) [(5, 1)] 4 [0x80000000] = true := by decide +kernel
/-- −1 is below 1 as S32 and above it as N32. -/
theorem test_icmp : ((th0 (next (exec (.icmp (w 1 5 6 2 1 2 0)) (regs base [(5, 0xFFFFFFFF), (6, 1)])))).preds.getLsbD 1,
    (th0 (next (exec (.icmp (w 1 5 6 2 1 6 0)) (regs base [(5, 0xFFFFFFFF), (6, 1)])))).preds.getLsbD 1) = (true, false) := by decide +kernel
/-- R215's example: widths 8, 3, 4, 4, extents 10 and 6, tile 23, F0 = 5 and F1 = 1. -/
theorem test_twlk : (let l : Launch := { launch1 with header := List.replicate 32 0 ++ [10, 0, 6, 0, 1, 0, 1, 0] ++ List.replicate 472 0 }
    let s : State := inTh (inGr { launched with launches := [(0, l)] } fun g => { g with widths := [8, 3, 4, 4, 0, 0], fields := [1, 0, 0, 0, 0] }) fun th =>
      { th with tid := 5 }
    let t := regs s [(6, 23)]
    (after (.twlk (w 4 6 0 0 1 0 0)) t 4, after (.twlk (w 4 6 0 0 1 0 0)) t 5)) = (0x11905, 0) := by decide +kernel
/-- R216: TRAP 7 leaves its number in TVAL. -/
theorem test_trap : trapOf (.trap (w 0 0 0 0 1 0 7)) (inTh base fun th => { th with tcause := 0x10A }) = (0x10A, 0) := by decide +kernel
/-- R134's extremes, decoded. -/
theorem test_formats : fp16.decode 0x7BFF = .fin false 2047 5 ∧ bf16.decode 0x0001 = .fin false 1 (-133) ∧ e4m3.decode 0x7E = .fin false 14 5 ∧
    e5m2.decode 0x7B = .fin false 7 13 ∧ e2m1.decode 7 = .fin false 3 1 ∧ e4m3.decode 0x78 = .fin false 8 5 := by decide +kernel
/-- R177's example: FADD of the immediate 0x1FC0, that is 1.0. -/
theorem test_fadd : gives (.fadd (w 4 5 6 0 1 0 0)) [(5, 0x3F800000), (6, 0x3F800000)] 4 [0x40000000] = true := by decide +kernel
/-- R57's example: 1.0 + 2^24 ties to even. -/
theorem test_afadd : atomicValue 16 32 0x3F800000 0x4B800000 0 = 0x4B800000 ∧ atomicValue 16 32 0x4B800000 0xCB800000 0 = 0 := by decide +kernel
/-- R235's example. -/
theorem test_dot4 : opDotInt 8 4 true true true false 0x807F0102 0x02020303 100 = 107 ∧ opDotInt 8 4 false false true false 0x807F0102 0x02020303 100 = 619 := by
  decide +kernel
/-- R231's example. -/
theorem test_cvt : gives (.cvt (w 6 9 0 0 0x30 2 0x0800)) [(9, 0x43960000), (6, 0x11223344)] 6 [0x117A3344] = true := by decide +kernel
/-- R241's example: 2^3.5 by the cheap path, which raises no flag. -/
theorem test_apxexp2 : opApxExp2 0x40600000 = (0x41350000, 0) := by decide +kernel
/-- R152, by the table of R382: NaN at 19, +0 at 2, −0 at 24, −inf at 6, 3.0 at 5. -/
theorem test_fkey : [opFkey 0xFE01 19, opFkey 0 2, opFkey 0x8000 24, opFkey 0x4200 5] =
    [0xFFFF0000FFFFFFEC, 0x80000000FFFFFFFD, 0x7FFF0000FFFFFFE7, 0xC2000000FFFFFFFA] := by decide +kernel
/-- R238's example: a cluster of 100 with 130 at row 3, column 4. -/
theorem test_wnw : winnowValue (fun y x => if y = 3 ∧ x = 4 then 130 else 100) = 240 := by decide +kernel
/-- R148's example, in FP16. -/
theorem test_mma : matElement false 0 [(fp16.decode 0x5C00).times (fp16.decode 0x5800), (fp16.decode 0xDC00).times (fp16.decode 0x5800),
    (fp16.decode 0x0060).times (fp16.decode 0x0200)] = 0x2F000000 := by decide +kernel
/-- R295's example: a fold of scales 130 and 124. -/
theorem test_mscl : foldElement 130 124 0x4B800000 0x40400000 = 0x4B800002 := by decide +kernel
/-- R71's example. -/
theorem test_copy_status : statusWord 3 3 2 = 0x30018008 := by decide +kernel
/-- R17's example: core 137. -/
theorem test_region : regionOf 137 = 16 := by decide +kernel
/-- R339's example. -/
theorem test_breakpoints : breakpoints 1920 (set1.template 0 0) 0x447A2CCD = [0, 696, 1296] ∧ (latch1.xAxis set1 0).pos 400 = some 0x2EC80 ∧
    (latch1.xAxis set1 0).total = 1260 := by decide +kernel
/-- R344's example. -/
theorem test_lerp : lerpUnorm 10 13 128 = 12 ∧ lerpUnorm 10 13 127 = 11 := by decide +kernel
/-- R27's example: a walk in 48-bit mode of 0x8040605A10, with the four table pages that it indexes, to the leaf 0x10000091A0000B0B of a 64 KiB page. -/
theorem test_walk :
    let leaf : DWord := 0x10000091A0000B0B
    let cells : List (Nat × Nat) := [(0x1008, 2 * 2 ^ 19 + 1), (0x2008, 3 * 2 ^ 19 + 1), (0x3018, 4 * 2 ^ 19 + 1), (0x4028, leaf.toNat)]
    let ws : List (Nat × BitVec 128) := [(0, 0x3F), (1, 0x12340003F)]
    let s : State := { base with hbm := cells.foldl (fun m p => setBytes m p.1 (toBytes 8 p.2)) [], tenants := base.tenants.map fun t => (t.1, { t.2 with windows := ws }) }
    s.walk 0 0 0x8040605A10 = .leaf 0x8040600000 16 0 leaf ∧ (s.xlat 16 leaf 0x8040605A10).pa = 0x123405A10 ∧ (s.xlat 16 leaf 0x8040605A10).kind = 1 := by
  decide +kernel
/-- R110's example, S = 64: the third CALL overflows; after the spill it succeeds; RET at WB = SB underflows. -/
theorem test_windows :
    let at' (wb sb : Nat) : State := inTh (inGr base fun g => { g with code := 0x10010 }) fun th => { th with wb := wb, sb := sb }
    let call : Instr := .call (w 0 0 0 0 3 0 2)
    ((th0 (next (exec call (at' 16 0)))).wb, trapOf call (at' 32 0) |>.1, (th0 (next (exec call (at' 32 16)))).wb,
      trapOf (.ret (w 0 0 0 0 5 0 0)) (at' 16 16) |>.1) = (32, 0x0D, 48, 0x0E) := by decide +kernel
/-- R255's example: AMXF of −1000.0, 3.0 and a NaN on 600.0. -/
theorem test_amxf : [(0x44160000, 0xC47A0000), (0x447A0000, 0x40400000), (0x447A0000, 0xFFC00000)].map (fun p => atomicValue 17 32 p.1 p.2 0) =
    [0x447A0000, 0x447A0000, 0x7FC00000] := by decide +kernel
/-- R145's example: amax 600.0 needs E = 128 in E4M3; a NaN gives 255. -/
theorem test_scale_byte : (scaleByte 0 0x44160000, scaleByte 0 0x7FC00000, scaleByte 0 0) = (128, 255, 127) := by decide +kernel
/-- R92's example: offset 0x310 under mode 1. -/
theorem test_permute : permute 1 0x310 = 0x370 := by decide +kernel
/-- R327's example: 1,000 with 11 excursions, then none, then 5. -/
theorem test_threshold : (adjusted 1000 11, adjusted 875 0, adjusted 929 5) = (875, 929, 929) := by decide +kernel
/-- R443's example: core 137. -/
theorem test_neighbours : neighbours 137 = [124, 125, 126, 136, 138, 148, 149, 150] ∧ neighbours 0 = [1, 12, 13] ∧ neighbours 5 = [4, 6, 16, 17, 18] := by
  decide +kernel
/-- R444's cases: 4 of 8 do not fence core 13; 2 of 3 fence core 0. -/
theorem test_vote :
    let v (core : Nat) (l : List Bool) : TileVote := { TileVote.fresh core with nbrs := l.map fun b => { Nbr.fresh with accuse := b } }
    (base.votedOut 13 (v 13 [true, true, true, true, false, false, false, false]), base.votedOut 0 (v 0 [true, false, true])) = (false, true) := by decide +kernel
/-- R307's example: sample 40 of breakpoints 0, 60, 180 and pitches 2, 1, 2. -/
theorem test_smpl : (⟨300, 0x11, [0, 60, 180]⟩ : Axis).pos 40 = some 18048 ∧ (⟨96, 0, [0]⟩ : Axis).pos 0 = some 0x80 := by decide +kernel
/-- R282's example: the format word 0x1A22 asks for 256 members. -/
theorem test_format_word :
    let v : Lane := Lane.mk 0 (th0 base) (gr1 base) 0
    (mmaBad v (w 0 4 8 12 4 0 0) 256 0x1A22 [], mmaBad v (w 0 4 8 12 4 0 0) 255 0x1A22 [], matRows 0x1A22, matCols 0x1A22) = (false, true, 128, 128) := by
  decide +kernel
/-- R386's example: 300 records in a ring of 256. -/
theorem test_lap :
    let q : CmdQ := { base := 0x10800, k := 8, ctrl := 0x10C00, ridx := 1000, running := [], waiting := [] }
    let s : State := ({ base with tenants := base.tenants.map fun t => (t.1, { t.2 with queues := [(0, q)] }) } : State).lapQueue 0 0 q 1300
    ((s.cmdQ 0 0).map CmdQ.ridx, ofBytes (s.rawRead 0x10C10 8).2.1, ofBytes (s.rawRead 0x10C08 8).2.1) = (some 1044, 44, 1044) := by decide +kernel
/-- R424's example: work identifiers; thread 1,000 of a group on core 0 lies in quadrant 0 at lane column 26. -/
theorem test_thread_place : threadKey 0 1024 (List.range 8) 1000 = 7 * 32 + 26 := by decide +kernel
/-- R17 and R56: a load of a word in memory becomes an operation in flight that returns its bytes. -/
theorem test_ld : (let s := mem dataAt 0x10840 (toBytes 4 0xAABBCCDD)
    let t := next (exec (.ld (w 4 6 0 0 3 0 0x40)) s)
    let u := next (exec (.loadDataReturn 0 []) t)
    (t.ops.length, Store.rd 0 (th0 u).stack 4)) = (1, 0xAABBCCDD) := by decide +kernel
/-- R56: a store's bytes are in memory once its slice performs it, the low byte first. -/
theorem test_st : (let s := regs dataAt [(4, 0xAABBCCDD)]
    let t := next (exec (.st (w 0 6 4 0 3 0 0x20)) s)
    let u := next (exec (.writeQueueApply (0x10820 / 128)) t)
    [0, 1, 2, 3, 4].map fun k => (t.byteAt false (0x10820 + k), u.byteAt false (0x10820 + k))) =
    [(0, 0xDD), (0, 0xCC), (0, 0xBB), (0, 0xAA), (0, 0)] := by decide +kernel
/-- R92, R249: a byte stored in scratchpad reads back sign-extended. -/
theorem test_lds : (let s := regs (inGr base fun g => { g with spLen := 1024 }) [(5, 8), (4, 0x80)]
    let t := next (exec (.sts (w 0 5 4 0 2 1 0)) s)
    after (.lds (w 7 5 0 0 0x41 1 0)) { t with gather := base.gather, armed := true } 7) = 0xFFFFFF80 := by decide +kernel
/-- R161, R200: a branch by −2 words. -/
theorem test_bra : (th0 (next (exec (.bra (w 0 0 63 63 1 0 0xFFFE)) base))).pc = 0xFFF0 := by decide +kernel
/-- R232: a MOV to zr changes no word. -/
theorem test_mov_zr : (th0 (next (exec (.mov (w 48 5 0 0 1 6 0)) (regs base [(5, 9)])))).stack = (th0 (regs base [(5, 9)])).stack := by decide +kernel

end Sys2Proof.Tests
end

section
/-!
PROOFS. HBM and scanout memory in their canonical form over a whole step (R12, R18).
-/
namespace Sys2Proof.Machine

/-- R47, R103, R105: a bit error marks a word; only a pool's word is more than an entry of the upsets. -/
theorem State.strikeWord_canon (s : State) (u : Upset) (h : s.Canon) : (s.strikeWord u).Canon := by
  unfold State.strikeWord
  extract_lets u' held same
  split
  · exact h
  · split
    · exact State.strikePool_canon _ _ _ _ h
    · split <;> exact h

theorem State.strike_canon (s : State) (us : List Upset) (h : s.Canon) : (s.strike us).Canon := by
  unfold State.strike
  split
  · exact h
  · exact canon_foldl State.strikeWord_canon (State.patrolTo_canon s h)

theorem State.clockOf_canon (s : State) (i : Instr) (h : s.Canon) : (s.clockOf i).Canon := by
  unfold State.clockOf
  split
  · exact State.unbindClock_canon s h
  · exact h

/-- Each case of a step is an instruction or event, the issue of the chosen gather, a tick of the clock or the machine's own move. -/
theorem step_canon (s : State) (h : s.Canon) : CanonOut (step s) := by
  unfold step
  split
  case h_1 v _ => exact exec_canon _ s h
  case h_2 =>
    split
    · split
      · exact canonOut_next h
      · exact State.issueNext_canon s h
    · split
      case h_1 i ins rest _ => exact exec_canon i _ (State.clockOf_canon _ i (State.strike_canon _ ins.upsets h))
      case h_2 => exact State.proceed_canon s h

end Sys2Proof.Machine

namespace Sys2Proof

/-- Settles O4: every case of a step keeps the canonical form. -/
theorem stepKeepsMemoryCanonical : Obligations.StepKeepsMemoryCanonical := by
  unfold Obligations.StepKeepsMemoryCanonical
  intro s t hbm scanout ht
  exact (Machine.step_canon s ⟨hbm, scanout⟩).next t ht

end Sys2Proof
end

section
/-!
PROOFS. The module right after reset (R15, R458 to R460).
-/
namespace Sys2Proof.Machine

/-- R59, R61: where every stored byte is 0, every metadata code is 0, the code of a block stored as it stands, so a compressed page
reads 0 as well. -/
theorem State.byteAt_eq_zero_of_stored {s : State} (h : ∀ a, s.stored a = 0) (cmp : Bool) (a : Nat) : s.byteAt cmp a = 0 := by
  have hcode (b : Nat) : s.code b = 0 := by simp [State.code, h]
  have hbytes (b : Nat) : s.storedBytes b 256 = List.replicate 256 0 := by simp only [State.storedBytes, h, List.map_const', List.length_range]
  have hblock (b : Nat) : s.block b = some (List.replicate 256 0) := by rw [State.block, hcode, hbytes, expand, List.take_replicate, Nat.min_self]
  cases cmp with
  | false => exact h a
  | true =>
    rw [State.byteAt, if_pos rfl, hblock, Option.getD_some]
    rw [List.getD_eq_getElem?_getD, List.getElem?_replicate_of_lt (Nat.mod_lt a (by decide)), Option.getD_some]

end Sys2Proof.Machine

namespace Sys2Proof

/-- Settles O5: nothing is listed after reset, and an array with nothing listed reads its default. -/
theorem resetState : Obligations.ResetState := by
  unfold Obligations.ResetState
  obtain ⟨hbm, scanout⟩ := Machine.Memory.wf_reset
  have hstored (a : Nat) : Machine.State.reset.stored a = 0 := rfl
  exact ⟨hbm, scanout, hstored, Machine.State.byteAt_eq_zero_of_stored hstored, fun _ => rfl, fun _ => rfl, fun _ => rfl,
    fun _ => ⟨rfl, rfl⟩, fun _ => rfl, fun _ => rfl, rfl, rfl, rfl, rfl, rfl, rfl⟩

end Sys2Proof
end

section
/-!
PROOFS. Reset, power, bring-up, throttling, the port guard and the self-test (R13, R15, R53, R442 to R449, R458 to R460, R467, R479).
-/
namespace Sys2Proof.Machine

theorem resetNRise_happens {s : State} (h : s.resetN = false) :
    Happens .resetNRise s { s.cold with resetN := true, upStep := if s.pwrgood then 1 else 0 } := by
  change execResetNRise s = _
  simp [execResetNRise, h, happen]

theorem pwrgoodRise_happens {s : State} (h : s.pwrgood = false) : Happens .pwrgoodRise s { s with pwrgood := true } := by
  change execPwrgoodRise s = _
  simp [execPwrgoodRise, h, happen]

theorem thermalShutdown_happens {s : State} (h : s.pwrgood = true) : Happens .thermalShutdown s { s.cold with halted := true } := by
  change execThermalShutdown s = _
  simp [execThermalShutdown, h, happen]

/-- R467: the answer leaves the module before the reset. -/
theorem moduleReset_happens {s : State} (h : s.managed 0x0C 1) : Happens .moduleReset s { (s.answer 6 [0]).cold with upStep := 1 } := by
  obtain ⟨hport, hkind, hop, hauth, hlen⟩ := h
  change execModuleReset s = _
  unfold execModuleReset
  rw [atPort_listens _ _ hport]
  simp [hkind, hop, hauth, hlen, happen]

/-- R459: a step of bring-up runs while the pins are high and nothing has failed. -/
theorem State.bringingUp_of_running {s : State} (h : s.pwrgood = true ∧ s.resetN = true ∧ s.halted = false ∧ s.failCode = 0)
    (h1 : 1 ≤ s.upStep) (h6 : s.upStep ≤ 6) : s.bringingUp = true := by
  obtain ⟨hpwr, hreset, hhalted, hcode⟩ := h
  simp [State.bringingUp, hpwr, hreset, hhalted, hcode, h1, h6]

/-- R459: what the end of step n of bring-up leaves: steps 3, 5 and 6 do more than begin the next. -/
def State.endOfStep (s : State) (n : Nat) : State :=
  let t : State := { s with upStep := n + 1 }
  if n = 3 then t.calibrated else if n = 5 then t.zeroFilled
  else if n = 6 then { t with ready := true, epoch := t.now, periods := 0, patrolled := 0 } else t

theorem State.endOfStep_three (s : State) : s.endOfStep 3 = ({ s with upStep := 4 } : State).calibrated := rfl

theorem bringUpStepEnd_happens {s : State} (h : s.bringingUp = true) : Happens .bringUpStepEnd s (s.endOfStep s.upStep) := by
  change execBringUpStepEnd s = _
  simp [execBringUpStepEnd, State.endOfStep, h, happen]

/-- R459: calibration that fails on no port brings the host port up and changes nothing else. -/
theorem State.calibrated_of_no_ports {s : State} (h : s.inputs.ports = []) : s.calibrated = { s with portUp := true } := by
  have hpdown : satAdd s.pdown 0 = s.pdown := by
    have := s.pdown.isLt
    simp only [satAdd, Nat.add_zero]
    rw [Nat.min_eq_left (by omega)]
    exact BitVec.ofNat_toNat ..
  simp [State.calibrated, h, hpdown]

/-- R459, R474: calibration that fails on one peer port marks it down and counts it. -/
theorem State.calibrated_of_one_port {s : State} {p : Nat} (h : s.inputs.ports = [p]) (hp : p < 16) :
    s.calibrated = { s with portUp := true, portsDown := insertNat p s.portsDown, pdown := satAdd s.pdown 1 } := by
  simp [State.calibrated, h, hp, show p < 18 by omega, List.eraseDups_cons]

theorem bringUpStepTimeout_happens {s : State} {code : Byte} (h : s.bringingUp = true) (hc : s.inputs.code = code)
    (hm : code ∈ stepCodes s.upStep) : Happens .bringUpStepTimeout s { s with failCode := code } := by
  subst hc
  change execBringUpStepTimeout s = _
  simp [execBringUpStepTimeout, h, hm, happen]

/-- R460: each step of bring-up with each of its failure codes. -/
theorem mem_stepCodes : ∀ e ∈ [(1, 1), (2, 2), (2, 3), (3, 4), (3, 5), (4, 6), (5, 7), (6, 8), (6, 9), (6, (10 : Byte))],
    1 ≤ e.1 ∧ e.1 ≤ 6 ∧ e.2 ∈ stepCodes e.1 := by decide

/-- R465: the four bits of a quadrant's throttle level. -/
theorem bits_quad (w quad : Nat) : bits w (4 * quad + 3) (4 * quad) = w / 2 ^ (4 * quad) % 16 := by
  have hwidth : 4 * quad + 3 + 1 - 4 * quad = 4 := by omega
  exact congrArg (fun n => w / 2 ^ (4 * quad) % 2 ^ n) hwidth

theorem hotspotThrottle_happens {s : State} {core quad level : Nat} (hpwr : s.pwrgood = true) (hcore : core < 192) (hquad : quad < 4)
    (hlevel : level < 16) :
    let w := (Store.rd 0 s.throt core).toNat
    Happens (.hotspotThrottle core quad level) s
      { s with throt := Store.wr 0 s.throt core (word (w - w / 2 ^ (4 * quad) % 16 * 2 ^ (4 * quad) + level * 2 ^ (4 * quad))) } := by
  change execHotspotThrottle core quad level s = _
  simp [execHotspotThrottle, hpwr, Nat.not_le.mpr hcore, Nat.not_le.mpr hquad, Nat.not_le.mpr hlevel, bits_quad, happen]

/-- R53: a port within its ceiling. -/
theorem portGuardPeriod_happens_within {s : State} {core beats : Nat} (hready : s.ready = true) (hcore : core < 192)
    (hb : beats ≤ portCeiling) : Happens (.portGuardPeriod core beats) s (s.setVote core { s.tileVote core with pgxNext := false }) := by
  change execPortGuardPeriod core beats s = _
  simp [execPortGuardPeriod, hready, Nat.not_le.mpr hcore, Nat.not_lt.mpr hb, happen]

/-- R53: a port above its ceiling is counted and reported. -/
theorem portGuardPeriod_happens_above {s : State} {core beats : Nat} (hready : s.ready = true) (hcore : core < 192)
    (hb : portCeiling < beats) : Happens (.portGuardPeriod core beats) s
      (({ s with guardOver := Store.wr 0 s.guardOver core (Store.rd 0 s.guardOver core + 1) } : State).setVote core
        { s.tileVote core with pgxNext := true }) := by
  change execPortGuardPeriod core beats s = _
  simp [execPortGuardPeriod, hready, Nat.not_le.mpr hcore, hb, happen, State.tileVote]

/-- R442: the beats of the next period, and no later ones, carry the guard's report. -/
theorem State.judged'_pgx (s : State) (core : Nat) : (s.judged' core).pgx = (s.tileVote core).pgxNext ∧ (s.judged' core).pgxNext = false := by
  unfold State.judged'
  extract_lets v sent w each
  split <;> exact ⟨rfl, rfl⟩

theorem selfTestEnd_happens {s : State} {core : Nat} (pass : Bool) (hfenced : (s.tileVote core).fenced = true)
    (hperm : (s.tileVote core).perm = false) (happeal : (s.tileVote core).appeal = false) :
    Happens (.selfTestEnd core pass) s
      (s.setVote core (if pass then (s.tileVote core).beginAppeal s.periods else { s.tileVote core with perm := true })) := by
  change execSelfTestEnd core pass s = _
  simp [execSelfTestEnd, hfenced, hperm, happeal, happen]

end Sys2Proof.Machine

namespace Sys2Proof
open Machine

/-- Settles O57: one lemma for each event, put together in the order of the statement. -/
theorem powerAndVote : Obligations.PowerAndVote := by
  unfold Obligations.PowerAndVote
  intro s cold running
  have ends (n : Nat) (hr : running) (hn : s.upStep = n) (h1 : 1 ≤ n) (h6 : n ≤ 6) : Happens .bringUpStepEnd s (s.endOfStep n) := by
    subst hn
    exact bringUpStepEnd_happens (State.bringingUp_of_running hr h1 h6)
  refine ⟨rfl, resetNRise_happens, rfl, pwrgoodRise_happens, thermalShutdown_happens, moduleReset_happens, ?begins,
    fun hr hn => ends 5 hr hn (by decide) (by decide), ?calibrates, ?calibratesOne, fun hr hn => ends 6 hr hn (by decide) (by decide),
    ?fails, fun core quad level => hotspotThrottle_happens,
    fun core beats hready hcore => ⟨portGuardPeriod_happens_within hready hcore, portGuardPeriod_happens_above hready hcore⟩,
    s.judged'_pgx, ?votes, fun core pass => selfTestEnd_happens pass⟩
  case begins =>
    rintro hr (hn | hn | hn) <;> rw [hn] <;> exact ends _ hr hn (by decide) (by decide)
  case calibrates =>
    intro hr hn hports
    have h := ends 3 hr hn (by decide) (by decide)
    rwa [State.endOfStep_three, State.calibrated_of_no_ports (s := { s with upStep := 4 }) hports] at h
  case calibratesOne =>
    intro p hr hn hports hp
    have h := ends 3 hr hn (by decide) (by decide)
    rwa [State.endOfStep_three, State.calibrated_of_one_port (s := { s with upStep := 4 }) hports hp] at h
  case fails =>
    intro code hr hm hc
    obtain ⟨h1, h6, hcodes⟩ := mem_stepCodes _ hm
    exact bringUpStepTimeout_happens (State.bringingUp_of_running hr h1 h6) hc hcodes
  case votes =>
    intro hdue
    change execHeartbeatPeriod s = _
    unfold execHeartbeatPeriod
    exact if_neg (by simp only [hdue, Bool.not_true, Bool.false_eq_true, not_false_eq_true])

end Sys2Proof
end

section
/-!
PROOFS. The issue of the copies (R36, R64, R66, R67, R76, R77, R79, R97, R260 to R263).
-/
namespace Sys2Proof.Machine

/-- R260, R261: the copy that a lane asks for, each field as a quotient and a remainder of its operand or immediate. -/
theorem Lane.copyOf_eq (v : Lane) (x : Fields) (form : Nat) (g2s s2g : Bool) :
    v.copyOf x form g2s s2g =
      let rows := (v.r64 x.c).toNat / 2 ^ 21 % 2 ^ 11 + 1
      { form := form, srcG := g2s, dstG := s2g, src := if g2s then (v.r64 x.a).toNat else (v.r32 x.a).toNat,
        dst := if form = 3 ∨ form = 4 then 0 else if s2g then (v.r64 x.b).toNat else (v.r32 x.b).toNat,
        rows := rows, rowBytes := (v.r64 x.c).toNat % 2 ^ 21,
        sstr := if rows = 1 then 0 else (v.r64 x.c).toNat / 2 ^ 32 % 2 ^ 16, dstr := if rows = 1 then 0 else (v.r64 x.c).toNat / 2 ^ 48,
        queue := x.imm.toNat / 2 ^ 2 % 2 ^ 4, mask := x.imm.toNat / 2 ^ 6 % 2 ^ 8, member := x.imm.toNat / 2 ^ 6 % 2 ^ 3, slot := none,
        dsts := [], engine := engineOf v.core, pages := [], lost := [] } := by
  have htop : (v.r64 x.c).toNat / 2 ^ 48 % 2 ^ 16 = (v.r64 x.c).toNat / 2 ^ 48 := Nat.mod_eq_of_lt (by omega)
  simp only [Lane.copyOf, bits, Fields.immBits, Bool.or_eq_true, decide_eq_true_eq, Nat.pow_zero, Nat.div_one, Nat.reduceAdd, Nat.reduceSub, htop]
  rfl

theorem State.copyTrap_tick (s : State) : s.tick.copyTrap = s.copyTrap := rfl
theorem State.copyWaits_tick (s : State) : s.tick.copyWaits = s.copyWaits := rfl

/-- R66, R67, R76, R79, R97: what the issue of a lane's copy leaves: the next number of its counter, its place in its queue, its operation
and scoreboard entries, its engine's grant, its pending status register and its pages asked for. -/
def State.issueCopy (s : State) (v : Lane) (x : Fields) (c : CopyOp) : State :=
  let dst := v.places 1 x.d
  let n := s.takeNumber v.th.gid (x.imm.toNat % 4)
  let place := n.1.takePlace v c n.1.nextOp
  let op := place.1.newOp { thread := v.key, gid := v.th.gid, core := v.core, pc := v.th.pc, dst := dst, tc := some (x.imm.toNat % 4, n.2),
                            kind := .copy place.2 }
  (({ op.1 with board := op.1.board ++ n.1.copyEntries v c n.1.nextOp }.noteGrant (engineKey c.engine) v.core).pendDsts v.key v.th.gid
    dst).askPages op.2 v.g.ctx place.2

theorem Lane.copy_of_allowed {v : Lane} {x : Fields} {c : CopyOp} {s : State} (h : s.copyTrap v c = none) :
    v.copy x c s = .done (s.issueCopy v x c) := by
  have htc : x.immBits 1 0 = x.imm.toNat % 4 := by simp [Fields.immBits]
  simp only [Lane.copy, h, htc, State.issueCopy]

theorem copySpec_eq {i : Instr} {r : Row} {x : Fields} (h : rowOf i = some (r, x)) (form : Nat) (g2s s2g : Bool) :
    copySpec i x form g2s s2g =
      { row := r, x := x, lane := fun v s => v.copy x (v.copyOf x form g2s s2g) s, rule := copyRight, ruleFirst := true,
        stall := fun s vs => s.copyWaits vs fun v => v.copyOf x form g2s s2g,
        why := fun s vs => s.copyStall vs fun v => v.copyOf x form g2s s2g } := by
  rw [copySpec, specOf_eq h]

end Sys2Proof.Machine

namespace Sys2Proof
open Machine

/-- R67, R263: a copy of one active lane, a producer's, that takes no trap and has room is issued. -/
theorem copy_issues {i : Instr} {x : Fields} {s : State} {form : Nat} {g2s s2g : Bool}
    (hexec : exec i s = issue i (copySpec i x form g2s s2g) s) :
    AloneIf i x s (fun v => v.producer = true ∧ s.copyTrap v (v.copyOf x form g2s s2g) = none ∧
        s.copyWaits [v] (fun v => v.copyOf x form g2s s2g) = false)
      (fun v u => u.issueCopy v x (v.copyOf x form g2s s2g)) := by
  rintro r v hi hv ⟨hprod, htrap, hroom⟩
  rw [hexec, copySpec_eq hi.row]
  refine alone_done hi (alone_asks hv rfl ?rule rfl rfl rfl rfl hroom) hv (Lane.copy_of_allowed htrap)
  case rule => simp [copyRight, hprod]

/-- Settles O29: every form issues by the one spec of copies, and differs in its sides alone. -/
theorem copies : Obligations.Copies := by
  unfold Obligations.Copies
  intro x s shape tc request copies
  have hrequest (form : Nat) (g2s s2g : Bool) : request form g2s s2g = fun v => v.copyOf x form g2s s2g :=
    funext fun v => (v.copyOf_eq x form g2s s2g).symm
  have hcopies {i : Instr} {form : Nat} {g2s s2g : Bool} (hexec : exec i s = issue i (copySpec i x form g2s s2g) s) :
      copies i form g2s s2g := by
    simp only [copies, hrequest]
    exact copy_issues hexec
  exact ⟨hcopies rfl, hcopies rfl, hcopies rfl, hcopies rfl, hcopies rfl, hcopies rfl, hcopies rfl, hcopies rfl, hcopies rfl, hcopies rfl⟩

end Sys2Proof
end

section
/-!
PROOFS. The display path: latches, deadlines, rows, bursts, gaze frames and the reservation (R21, R337 to R339, R346 to R352, R470).
-/
namespace Sys2Proof.Machine

theorem State.updView_congr {s : State} {ctx slot : Nat} {v : ViewSet} {f g : ViewSet → ViewSet} (hv : s.view ctx slot = some v)
    (h : f v = g v) : s.updView ctx slot f = s.updView ctx slot g := by
  have hget : Store.get s.views (viewKey ctx slot) = some v := hv
  simp only [State.updView, Store.upd, hget, h]

theorem State.view_updView {s : State} {ctx slot : Nat} {v : ViewSet} (f : ViewSet → ViewSet) (hv : s.view ctx slot = some v) :
    (s.updView ctx slot f).view ctx slot = some (f v) := get_upd_same _ f hv

theorem stripLatch_happens {s : State} {ctx slot : Nat} {v : ViewSet} (hv : s.view ctx slot = some v) (hdue : v.nextLatch ≤ s.now) :
    Happens (.stripLatch ctx slot) s (s.latchStrip ctx slot v (v.latchNo / v.strips) (v.latchNo % v.strips)) := by
  change execStripLatch ctx slot s = _
  simp only [execStripLatch, hv, if_neg (Int.not_lt.mpr hdue), happen]

/-- R346: a complete strip has a latch, and it is that of its frame. -/
theorem ViewSet.complete_frame {v : ViewSet} {f n : Nat} {l : Latch} (hl : Store.get v.latches n = some l) (h : v.complete f n = true) :
    l.frame = f := by
  unfold ViewSet.complete at h
  simp only [hl, Bool.and_eq_true, beq_iff_eq] at h
  exact h.1

/-- R347: a strip complete at its deadline is shown. -/
theorem ViewSet.showAt_of_complete {v : ViewSet} {f n : Nat} {l : Latch} (hl : Store.get v.latches n = some l) (h : v.complete f n = true) :
    v.showAt f n = Store.put v.shown n l := by
  have hat : v.latchAt f n = some l := by simp [ViewSet.latchAt, hl, ViewSet.complete_frame hl h]
  simp only [ViewSet.showAt, h, if_true, hat, Bool.true_or]

/-- R347: the rows of a strip that is missed come from the frame before, where the set has had one. -/
theorem ViewSet.showAt_of_missed {v : ViewSet} {f n : Nat} (h : v.complete f n = false) :
    v.showAt f n = match if v.first < f then v.latchAt (f - 1) n else none with
      | some l => Store.put v.shown n l
      | none => v.shown := by
  simp only [ViewSet.showAt, h, Bool.false_or, decide_eq_true_eq, Bool.false_eq_true, if_false]
  by_cases hfirst : v.first < f
  · simp only [if_pos hfirst] <;> rfl
  · simp only [if_neg hfirst]
    cases v.latchAt (f - 1) n <;> rfl

/-- R347, R352: the deadline of strip n of frame f, for a set v. -/
def ViewSet.served (v : ViewSet) (f n : Nat) : ViewSet :=
  { v with deadNo := v.deadNo + 1, shown := v.showAt f n, miss := if v.complete f n then v.miss else satAdd v.miss 1 }

theorem stripDeadline_happens {s : State} {ctx slot : Nat} {v : ViewSet} {f : ViewSet → ViewSet} (hv : s.view ctx slot = some v)
    (hlatch : v.deadNo < v.latchNo) (hdue : v.nextDeadline < s.now) (hrow : v.nextDeadline ≤ v.nextRow)
    (hf : v.served (v.deadNo / v.strips) (v.deadNo % v.strips) = f v) :
    Happens (.stripDeadline ctx slot) s ((s.updView ctx slot f).releaseLeaving ctx) := by
  change execStripDeadline ctx slot s = _
  have hgo : (v.latchNo ≤ v.deadNo || (s.now : Int) ≤ v.nextDeadline || v.nextRow < v.nextDeadline) = false := by
    simp only [Bool.or_eq_false_iff, decide_eq_false_iff_not]
    omega
  rw [← State.updView_congr (f := fun w => w.served (v.deadNo / v.strips) (v.deadNo % v.strips)) hv hf]
  simp only [execStripDeadline, hv, hgo, Bool.false_eq_true, if_false]
  rfl

theorem displayRowEmit_happens {s : State} {ctx slot : Nat} {v : ViewSet} (hv : s.view ctx slot = some v) (hdue : v.nextRow ≤ s.now)
    (hserved : v.nextRow < v.nextDeadline) : Happens (.displayRowEmit ctx slot) s
      ((s.emitRow slot v (v.row / v.ey) (v.row % v.ey)).updView ctx slot fun w => { w with row := w.row + 1 }) := by
  change execDisplayRowEmit ctx slot s = _
  simp [execDisplayRowEmit, hv, Int.not_lt.mpr hdue, Int.not_le.mpr hserved, happen]

theorem scanoutBurstRetry_happens {s : State} {ctx slot k : Nat} {v : ViewSet} (hv : s.view ctx slot = some v) (hk : 4 ≤ k) :
    Happens (.scanoutBurstRetry ctx slot k) s (s.updView ctx slot fun w => { w with derr := satAdd w.derr 1 }) := by
  change execScanoutBurstRetry ctx slot k s = _
  simp only [execScanoutBurstRetry, if_neg (Nat.not_lt.mpr hk), hv, happen]

/-- R338: when a gaze sample is taken and when it is dropped. -/
theorem ViewSet.takeGaze_eq (w : ViewSet) (q x y : Word) : w.takeGaze q x y =
    if w.gsrc = 0 ∧ 1 ≤ (q - w.q).toNat ∧ (q - w.q).toNat < 2 ^ 31 then { w with q := q, gx := x, gy := y }
    else { w with gdrop := satAdd w.gdrop 1 } := by
  unfold ViewSet.takeGaze
  exact if_congr (by simp [and_assoc]) rfl rfl

/-- R470: a frame with the tenant's key, for a slot that the tenant has bound, is a gaze sample. -/
theorem gazeFrame_happens {s : State} {key : Nat} (hs : s.listens)
    (htarget : s.gazeTarget (field s.inputs.gaze 0 1) (field s.inputs.gaze 1 1) = some key) (hlen : s.inputs.gaze.length = 20)
    (hkey : field s.inputs.gaze 2 2 = field (s.tenant (field s.inputs.gaze 0 1)).gazeKey 0 2) (hzero : zeros s.inputs.gaze 16 20 = true) :
    Happens .gazeFrame s { s with views := Store.upd s.views key (fun w =>
      w.takeGaze (word (field s.inputs.gaze 4 4)) (word (field s.inputs.gaze 8 4)) (word (field s.inputs.gaze 12 4))) } := by
  obtain ⟨hport, hready⟩ := hs
  change execGazeFrame s = _
  simp [execGazeFrame, hport, hready, htarget, hlen, hkey, hzero, happen]

theorem reservationStopRequest_happens {s : State} {ctx slot : Nat} {v : ViewSet} (hv : s.view ctx slot = some v) (hin : v.inWindow = false)
    (hsent : v.stopSent = false) (hdue : v.opens v.window ≤ (s.now : Int) + 27500) :
    let cores := s.holdCores v 0 ++ s.holdCores v 1
    Happens (.reservationStopRequest ctx slot) s
      ((s.updView ctx slot fun w => { w with held := cores, stopSent := true }).clearCores ctx cores (s.now + 27500)) := by
  change execReservationStopRequest ctx slot s = _
  simp [execReservationStopRequest, hv, hin, hsent, Int.not_lt.mpr hdue, stopClocks, happen]

theorem scanoutWindowStart_happens {s : State} {ctx slot : Nat} {v : ViewSet} (hv : s.view ctx slot = some v) (hin : v.inWindow = false)
    (hdue : v.opens v.window ≤ s.now) : Happens (.scanoutWindowStart ctx slot) s (s.openWindow ctx slot v) := by
  change execScanoutWindowStart ctx slot s = _
  simp [execScanoutWindowStart, hv, hin, Int.not_lt.mpr hdue, happen]

/-- R350: a window that closes before the next one opens lets its cores go. -/
theorem scanoutWindowEnd_happens {s : State} {ctx slot : Nat} {v : ViewSet} (hv : s.view ctx slot = some v) (hin : v.inWindow = true)
    (hdue : v.closes ≤ s.now) (hlatch : (v.window + 1) * v.strips ≤ v.latchNo) (hnext : (s.now : Int) < v.opens (v.window + 1)) :
    Happens (.scanoutWindowEnd ctx slot) s
      (s.updView ctx slot fun w => { w with window := w.window + 1, inWindow := false, held := [], stopSent := false }) := by
  change execScanoutWindowEnd ctx slot s = _
  have hgo : (!v.inWindow || decide ((s.now : Int) < v.closes) || decide (v.latchNo < (v.window + 1) * v.strips)) = false := by
    simp [hin, hdue, hlatch]
  have hshut : ¬ v.opens (v.window + 1) ≤ (s.now : Int) := Int.not_le.mpr hnext
  simp only [execScanoutWindowEnd, hv, hgo, Bool.false_eq_true, if_false, State.view_updView _ hv]
  exact congrArg happen (if_neg hshut)

/-- R350: the window's count of too few cores, as one condition. -/
theorem State.openWindow_eq (s : State) (ctx slot : Nat) (v : ViewSet) :
    s.openWindow ctx slot v = (s.updView ctx slot fun w => { w with
        held := s.holdCores v 0 ++ s.holdCores v 1, inWindow := true, stopSent := true
        rshort := if (s.holdCores v 0).length < v.res ∨ (s.holdCores v 1).length < v.res then satAdd w.rshort 1 else w.rshort }).clearCores ctx
      (s.holdCores v 0 ++ s.holdCores v 1) (min (s.now + 27500) (v.opens v.window + 6600).toNat) := by
  simp only [State.openWindow, Bool.or_eq_true, decide_eq_true_eq]
  rfl

end Sys2Proof.Machine

namespace Sys2Proof
open Machine

/-- Settles O49: one lemma for each event, put together in the order of the statement. -/
theorem displayEvents : Obligations.DisplayEvents := by
  unfold Obligations.DisplayEvents
  intro s ctx slot v hv
  refine ⟨stripLatch_happens hv, fun hlatch hdue hrow => ⟨?shown, ?missed⟩, displayRowEmit_happens hv, fun _ => scanoutBurstRetry_happens hv, ?gaze,
    reservationStopRequest_happens hv, ?starts, scanoutWindowEnd_happens hv⟩
  case shown =>
    intro l hl hc
    refine stripDeadline_happens hv hlatch hdue hrow ?_
    simp only [ViewSet.served, ViewSet.showAt_of_complete hl hc, hc, if_true]
  case missed =>
    intro hc
    refine stripDeadline_happens hv hlatch hdue hrow ?_
    simp only [ViewSet.served, ViewSet.showAt_of_missed hc, hc, Bool.false_eq_true, if_false] <;> rfl
  case gaze =>
    rintro t key hs htarget rfl rfl hlen hkey hzero
    simpa only [ViewSet.takeGaze_eq] using gazeFrame_happens hs htarget hlen hkey hzero
  case starts =>
    intro hin hdue
    have h := scanoutWindowStart_happens hv hin hdue
    rwa [State.openWindow_eq] at h

end Sys2Proof
end

section
/-!
PROOFS. Misses entering their queues, the ends of walks, and TLBINV (R34, R36, R37, R41, R42).
-/
namespace Sys2Proof.Machine

/-- R36: the oldest miss of a die joins one for the same page, waits where the queue is full, or enters the queue. -/
theorem translationMiss_happens {s : State} {die : Nat} {m : Miss} {rest : List Miss} (hmiss : s.enroute = m :: rest) (hdie : m.die = die) :
    let same (x : Miss) : Bool := x.die == die && x.ctx == m.ctx && x.vpn == m.vpn
    Happens (.translationMiss die) s
      (if s.misses.any same then
        { s with enroute := rest, misses := s.misses.map fun x => if same x then { x with waiters := x.waiters ++ m.waiters } else x }
       else if 2048 ≤ (s.misses.filter fun x => x.die == die).length then s
       else { s with enroute := rest, misses := assignWalkers die [] (s.misses ++ [m]) }) := by
  intro same
  change execTranslationMiss die s = _
  have hany : (s.enroute.any fun m => m.die == die) = true := by simp [hmiss, hdie]
  have hfind : (s.enroute.find? fun m => m.die == die) = some m := by simp [hmiss, hdie]
  have herase : s.enroute.erase m = rest := by simp [hmiss]
  have hkept : { s with enroute := m :: rest } = s := by rw [← hmiss]
  simp only [execTranslationMiss, hany, if_true, State.takeMiss, hfind, herase, hkept, happen]
  rfl

/-- R37: every waiter of a walk is a thread's, and none a copy engine's. -/
def Miss.ofThreads (m : Miss) : Prop := ∀ w ∈ m.waiters, w.unit < 3000

theorem Miss.ofThreads.threads {m : Miss} (h : m.ofThreads) : (m.waiters.filter fun w => decide (w.unit < 3000)) = m.waiters :=
  List.filter_eq_self.mpr fun w hw => decide_eq_true (h w hw)
theorem Miss.ofThreads.engines {m : Miss} (h : m.ofThreads) : (m.waiters.filter fun w => decide (3000 ≤ w.unit)) = [] :=
  List.filter_eq_nil_iff.mpr fun w hw => by simpa using h w hw

theorem State.judge_fault (s : State) (w : Waiter) (c l : Nat) (e : DWord) : s.judge w (.fault c l e) = .error (c, l, e) := rfl

/-- R37: a leaf of this module that permits the access is the waiter's page. -/
theorem State.judge_leaf {s : State} {w : Waiter} {va b l : Nat} {e : DWord} (hpeer : e.getLsbD 59 = false)
    (hpermits : (s.xlat b e w.va).permits w.kind = true) :
    s.judge w (.leaf va b l e) = .ok { unit := w.unit, ctx := 0, va := va, bits := b, level := l, entry := e } := by
  have hnone : (s.xlat b e w.va).peer = none := by
    simp only [State.xlat, State.isPeer, hpeer, Bool.false_and, Bool.false_eq_true, if_false]
  simp [State.judge, hpermits, hnone]

theorem State.detects_iff {s : State} {m : Miss} :
    s.detects m = true ↔ ∀ t r, s.lastDetect = some (t, r) → s.now ≠ t ∨ r ≤ m.rank := by
  unfold State.detects
  cases s.lastDetect with
  | none => simp
  | some d => obtain ⟨t, r⟩ := d; simp

/-- R37: what the end of a walk leaves in the caches and the queues of the die. -/
def State.walkEnded (s : State) (n : Nat) (m : Miss) : State :=
  let base := (s.walked m.die m.ctx (m.vpn * 4096)).fillWalkCache m.die m.ctx (m.vpn * 4096)
  { base with misses := assignWalkers m.die [] (base.misses.eraseIdx n) }

/-- The one cause of the waiters of a walk that faults. -/
theorem eraseDups_map_const {α β : Type} [BEq β] [LawfulBEq β] {l : List α} (b : β) (h : l ≠ []) : (l.map fun _ => b).eraseDups = [b] :=
  eraseDups_all b _ (by simpa using h) (by simp)

/-- R41, R42: the waiters of a walk that faults park on one record. -/
theorem walkCompletion_faults {s : State} {n c l : Nat} {e : DWord} {m : Miss} (hm : s.misses[n]? = some m) (hrun : m.running = true)
    (hthreads : m.ofThreads) (hwalk : s.walk m.die m.ctx (m.vpn * 4096) = .fault c l e) (hwaits : m.waiters ≠ []) :
    exec (.walkCompletion n) s = if s.detects m then happen (State.parkFault
      { s.walkEnded n m with lastDetect := some ((s.walkEnded n m).now, m.rank) } m.ctx (c, l, e) m.waiters) else .next s := by
  change execWalkCompletion n s = _
  unfold execWalkCompletion
  simp only [hm, hrun, hwalk, hthreads.threads, hthreads.engines, State.judge_fault, List.filterMap_map, Function.comp_def, List.filterMap_eq_map',
    eraseDups_map_const _ hwaits, List.foldl_nil, List.foldl_cons, List.foldl_map, List.filter_map, List.map_map, beq_self_eq_true]
  cases hd : s.detects m
  · simp
  · simp [State.walkEnded]

theorem walkCompletion_serves {s : State} {n va b l : Nat} {e : DWord} {m : Miss} (hm : s.misses[n]? = some m) (hrun : m.running = true)
    (hthreads : m.ofThreads) (hwalk : s.walk m.die m.ctx (m.vpn * 4096) = .leaf va b l e) (hpeer : e.getLsbD 59 = false)
    (hpermits : ∀ w ∈ m.waiters, (s.xlat b e w.va).permits w.kind = true) :
    Happens (.walkCompletion n) s (m.waiters.foldl (fun u w => u.serve (coreOf w.thread) m.ctx w
      { unit := w.unit, ctx := 0, va := va, bits := b, level := l, entry := e }) (s.walkEnded n m)) := by
  change execWalkCompletion n s = _
  have hjudged : (m.waiters.map fun w => (w, s.judge w (.leaf va b l e))) =
      m.waiters.map fun w => (w, .ok { unit := w.unit, ctx := 0, va := va, bits := b, level := l, entry := e }) :=
    List.map_congr_left fun w hw => by rw [State.judge_leaf hpeer (hpermits w hw)]
  unfold execWalkCompletion
  simp only [hm, hrun, hwalk, hthreads.threads, hthreads.engines, hjudged, hpeer, List.filterMap_map, Function.comp_def, List.filterMap_none,
    List.foldl_nil, List.foldl_map]
  simp [happen, State.walkEnded]

/-- R34, R398: the body of a TLBINV record that breaks no rule. -/
def tlbinvBodyOk (c : Cmd) : Prop :=
  c.at' 8 1 ≤ 1 ∧ zeros c.bytes 9 16 = true ∧ zeros c.bytes 32 64 = true ∧ (c.at' 8 1 = 0 ∨ c.at' 24 8 = 0)

theorem tlbinv_status {c : Cmd} (h : tlbinvBodyOk c) (ready : Bool) :
    firstStatus [failing (!(decide (c.at' 8 1 ≤ 1) && zeros c.bytes 9 16 && zeros c.bytes 32 64 && (c.at' 8 1 == 0 || c.at' 24 8 == 0))) 2,
      failing (!ready) 3] = if ready then 0 else 3 := by
  have hbody : (decide (c.at' 8 1 ≤ 1) && zeros c.bytes 9 16 && zeros c.bytes 32 64 && (c.at' 8 1 == 0 || c.at' 24 8 == 0)) = true := by
    simpa [tlbinvBodyOk, and_assoc] using h
  rw [hbody]
  cases ready <;> rfl

/-- R34: TLBINV discards, and stays pending in its context. -/
theorem tlbinv_happens {s : State} {c : Cmd} (hc : s.commanded 8 c) (hbody : tlbinvBodyOk c) (hready : s.ctxReady c (· != .free) = true) :
    Happens .tlbinv s ((s.discardXlat c.ctx (if c.at' 8 1 = 0 then some (c.at' 16 8, c.at' 24 8) else none)).updCtx c.ctx
      fun x => { x with pendingCmds := x.pendingCmds ++ [c] }) := by
  change execTlbinv s = _
  exact command_accepted hc ((tlbinv_status hbody _).trans (if_pos hready))

theorem tlbinv_refused {s : State} {c : Cmd} (hc : s.commanded 8 c) (hbody : tlbinvBodyOk c) (hready : s.ctxReady c (· != .free) = false) :
    Happens .tlbinv s (s.finishRecord c 3) := by
  change execTlbinv s = _
  exact command_refused hc ((tlbinv_status hbody _).trans (if_neg (by simp [hready]))) (by decide)

/-- R34, R398: the pending TLBINVs of a context complete once no walk of it is left. -/
theorem tlbinvCompletion_happens {s : State} {ctx : Nat} {x : Ctx} (hx : Store.get s.ctxs ctx = some x) (hpending : ∃ c ∈ x.pendingCmds, c.opc = 8)
    (hwalks : ∀ m ∈ s.enroute ++ s.misses, m.ctx ≠ ctx) :
    Happens (.tlbinvCompletion ctx) s ((x.pendingCmds.filter fun c => c.opc == 8).foldl (fun u c => u.finishRecord c 0)
      (s.updCtx ctx fun x => { x with pendingCmds := x.pendingCmds.filter fun c => c.opc != 8 })) := by
  have hany : (x.pendingCmds.any fun c => c.opc == 8) = true := by simpa using hpending
  have hnone : ((s.enroute ++ s.misses).any fun m => m.ctx == ctx) = false := List.any_eq_false.mpr fun m hm => by simpa using hwalks m hm
  change execTlbinvCompletion ctx s = _
  simp only [execTlbinvCompletion, State.finishPending, hx, Option.map_some, Option.getD_some, hany, hnone, Bool.not_false, Bool.and_self, if_true,
    happen]

end Sys2Proof.Machine

namespace Sys2Proof
open Machine

/-- Settles O43: one lemma for each event and each end that a walk can have. -/
theorem translationEvents : Obligations.TranslationEvents := by
  unfold Obligations.TranslationEvents
  intro s
  refine ⟨fun die m rest => translationMiss_happens, ?walks,
    fun c hc hrange hzero hrest hwhole =>
      ⟨tlbinv_happens hc ⟨hrange, hzero, hrest, hwhole⟩, tlbinv_refused hc ⟨hrange, hzero, hrest, hwhole⟩⟩,
    fun ctx x => tlbinvCompletion_happens⟩
  case walks =>
    intro n m hm hrun base ended hthreads
    refine ⟨?parks, ?waits, fun va b l e hwalk hpeer hpermits => walkCompletion_serves hm hrun hthreads hwalk hpeer hpermits⟩
    case parks =>
      intro c l e hwalk hwaits hfirst
      exact (walkCompletion_faults hm hrun hthreads hwalk hwaits).trans (if_pos (State.detects_iff.mpr hfirst))
    case waits =>
      intro c l e t r hwalk hwaits hlast hnow hrank
      refine (walkCompletion_faults hm hrun hthreads hwalk hwaits).trans (if_neg fun hd => ?_)
      have := State.detects_iff.mp hd t r hlast
      omega

end Sys2Proof
end

section
/-!
PROOFS. Reports of errors, the service of the fault queue, the patrol scrub and the bridge (R55, R103, R421 to R423, R426).
-/
namespace Sys2Proof.Machine

theorem ueReportPeriod_happens {s : State} (hdue : s.periodDue = true) (hevents : s.uevents ≠ []) :
    Happens .ueReportPeriod s (s.uevents.foldl (fun u e => (u.report e.tenant e.record).1) { s with uevents := [] }) := by
  change execUeReportPeriod s = _
  simp [execUeReportPeriod, State.reportErrors, hdue, hevents, happen]

theorem faultRecordWrite_happens {s : State} {t : Nat} (hheld : (s.tenant t).fq.held ≠ []) (hring : (s.tenant t).fq.k ≠ 0)
    (hroom : (s.tenant t).fq.widx - (s.tenant t).fq.ridx < 2 ^ (s.tenant t).fq.k) : Happens (.faultRecordWrite t) s (s.writeHeld t) := by
  change execFaultRecordWrite t s = _
  simp [execFaultRecordWrite, hheld, hring, Nat.not_le.mpr hroom, happen]

theorem faultQueueFramePeriod_happens {s : State} (hdue : s.periodDue = true) (hadvanced : ∃ t ∈ s.tenants, t.2.fq.advanced = true) :
    Happens .faultQueueFramePeriod s s.sendFaultFrames := by
  have hsome : s.advancedQueues.isEmpty = false := by
    obtain ⟨t, ht, h⟩ := hadvanced
    exact List.isEmpty_eq_false_iff_exists_mem.mpr ⟨t.1, List.mem_map_of_mem (List.mem_filter.mpr ⟨ht, h⟩)⟩
  change execFaultQueueFramePeriod s = _
  simp [execFaultQueueFramePeriod, hsome, hdue, happen]

/-- R421: a change of RIDX that reads without an error is taken. -/
theorem faultRidxNotice_happens {s : State} {t n : Nat} (hring : (s.tenant t).fq.k ≠ 0)
    (hclean : (s.rawRead ((s.tenant t).fq.ctrl + 8) 8).2.2 = false) (hread : ofBytes (s.rawRead ((s.tenant t).fq.ctrl + 8) 8).2.1 = n)
    (hchanged : n ≠ (s.tenant t).fq.ridx) : Happens (.faultRidxNotice t) s
      ((s.rawRead ((s.tenant t).fq.ctrl + 8) 8).1.setTenant t { s.tenant t with fq := { (s.tenant t).fq with ridx := n } }) := by
  change execFaultRidxNotice t s = _
  simp [execFaultRidxNotice, hring, hclean, hread, hchanged, happen]

/-- R423: RSM as a poll finds it: with no error, and another value than the last one read. -/
def State.rsmChanged (s : State) (t : Nat) : Prop :=
  (s.rawRead ((s.tenant t).fq.ctrl + 16) 8).2.2 = false ∧
    ofBytes (s.rawRead ((s.tenant t).fq.ctrl + 16) 8).2.1 ≠ (s.tenant t).fq.rsmRead

section rsmNotice
variable {s : State} {t : Nat} (hring : (s.tenant t).fq.k ≠ 0)
include hring

/-- R423: a change of RSM that frees no record is taken. -/
theorem rsmNotice_takes (hchanged : s.rsmChanged t) :
    let read := s.rawRead ((s.tenant t).fq.ctrl + 16) 8
    let taken := read.1.takeRsm t (ofBytes read.2.1)
    (taken.tenant t).fq.nextResumed = none → Happens (.rsmNotice t) s taken := by
  intro read taken hfirst
  obtain ⟨hclean, hnew⟩ := hchanged
  change execRsmNotice t s = _
  simp [execRsmNotice, hring, hclean, hnew, hfirst, happen, read, taken]

/-- R423: a change of RSM is taken, and its first record resumes. -/
theorem rsmNotice_takes_resumes {f : FRec} (hchanged : s.rsmChanged t) :
    let read := s.rawRead ((s.tenant t).fq.ctrl + 16) 8
    let taken := read.1.takeRsm t (ofBytes read.2.1)
    (taken.tenant t).fq.nextResumed = some f → Happens (.rsmNotice t) s { taken.resumeRecord t f with now := taken.now + 1 } := by
  intro read taken hfirst
  obtain ⟨hclean, hnew⟩ := hchanged
  change execRsmNotice t s = _
  simp [execRsmNotice, hring, hclean, hnew, hfirst, happen, read, taken]

/-- R423: with no change of RSM, the next record below the resume index resumes. -/
theorem rsmNotice_resumes {f : FRec} (hchanged : ¬ s.rsmChanged t) :
    let read := s.rawRead ((s.tenant t).fq.ctrl + 16) 8
    (read.1.tenant t).fq.nextResumed = some f → Happens (.rsmNotice t) s { read.1.resumeRecord t f with now := read.1.now + 1 } := by
  intro read hfirst
  have hold : (!read.2.2 && ofBytes read.2.1 != (s.tenant t).fq.rsmRead) = false := by simpa [State.rsmChanged, read] using hchanged
  change execRsmNotice t s = _
  simp [execRsmNotice, hring, hold, hfirst, happen, read]

end rsmNotice

/-- R103: the visit of a word leaves its place in the patrol behind, when it is the one that was due. -/
def State.visited (s : State) (next : Option Nat) (core w : Nat) : State :=
  match next with
  | some n => if n % patrolWords = core * 2 ^ 19 + w then { s with patrolled := n + 1 } else s
  | none => s

/-- R103: what a patrol visit of a word leaves, by the error that the word holds once it has been struck. -/
def State.scrubbed (struck visited : State) (core w : Nat) : ScrubFind → Host.Outcome State Fault Refusal
  | .clean => .next struck
  | .single => happen ((visited.renewWord core (4 * w) (struck.poolWord core (4 * w))).countCorrected 8)
  | .double => happen (visited.countError 6 core (struck.ownerCtx (struck.poolWord core (4 * w))) none 0 (4 * w))

theorem patrolScrub_eq {s struck visited : State} {core w : Nat} {find : ScrubFind} (hpwr : s.pwrgood = true) (hcore : core < 192)
    (hw : w < 2 ^ 19) (hstruck : s.patrolTo.strikePool core (4 * w) find = struck)
    (hvisited : struck.visited s.patrolTo.nextPatrol core w = visited) :
    exec (.patrolScrub core w find) s = struck.scrubbed visited core w (struck.wordError core (4 * w) (struck.poolWord core (4 * w))) := by
  subst hstruck hvisited
  change execPatrolScrub core w find s = _
  have hgo : (!s.pwrgood || decide (192 ≤ core) || decide (2 ^ 19 ≤ w)) = false := by
    rw [hpwr, decide_eq_false (Nat.not_le.mpr hcore), decide_eq_false (Nat.not_le.mpr hw)]
    rfl
  rw [execPatrolScrub, if_neg (Bool.eq_false_iff.mp hgo)]
  dsimp only
  generalize s.patrolTo.strikePool core (4 * w) find = struck
  cases s.patrolTo.nextPatrol <;> cases struck.wordError core (4 * w) (struck.poolWord core (4 * w)) <;> rfl

/-- A number is not in a list from which it was taken out. -/
theorem filter_ne_of_notMem {n : Nat} {l : List Nat} (h : n ∉ l) : (l.filter fun k => k != n) = l :=
  List.filter_eq_self.mpr fun _ hk => bne_iff_ne.mpr fun e => h (e ▸ hk)

theorem State.updGroup_updGroup (s : State) (k : Nat) (f g : Group → Group) : (s.updGroup k f).updGroup k g = s.updGroup k (g ∘ f) := by
  simp only [State.updGroup, Store.upd_upd]

section strikeScratch
variable {s : State} {core a gid o : Nat} {g : Group} (hp : s.poolWord core a = .scratch gid o) (hg : s.group gid = some g)
  (hbad : o / 4 ∉ g.spBad)
include hp hg hbad

/-- R103: one wrong bit in a clean word of a scratchpad marks it. -/
theorem strikePool_clean (hweak : o / 4 ∉ g.spWeak) :
    s.strikePool core a .single = s.updGroup gid fun g => { g with spWeak := insertNat (o / 4) g.spWeak } := by
  have hold : s.wordError core a (.scratch gid o) = .clean := by simp [State.wordError, hg, hbad, hweak]
  calc s.strikePool core a .single
      = (s.renewWord core a (.scratch gid o)).markWord core a false (.scratch gid o) := by
        simp only [State.strikePool, hp, hold, worseFind, reduceCtorEq, if_false]
        rfl
    _ = s.updGroup gid fun g => { g with spWeak := insertNat (o / 4) g.spWeak } := by
        simp only [State.renewWord, State.markWord, State.updGroup_updGroup]
        exact updGroup_congr hg (by simp [filter_ne_of_notMem hweak])

/-- R103: a second wrong bit makes a word of a scratchpad uncorrectable. -/
theorem strikePool_weak (hweak : o / 4 ∈ g.spWeak) :
    s.strikePool core a .single = s.updGroup gid fun g =>
      { g with spBad := insertNat (o / 4) g.spBad, spWeak := g.spWeak.filter (· != o / 4) } := by
  have hold : s.wordError core a (.scratch gid o) = .single := by simp [State.wordError, hg, hbad, hweak]
  calc s.strikePool core a .single
      = (s.renewWord core a (.scratch gid o)).markWord core a true (.scratch gid o) := by
        simp only [State.strikePool, hp, hold, worseFind, reduceCtorEq, if_false]
        rfl
    _ = _ := by
        simp only [State.renewWord, State.markWord, State.updGroup_updGroup]
        exact updGroup_congr hg (by simp [List.filter_filter])

end strikeScratch

theorem bridgeFlitRetry_passes {s : State} (hpwr : s.pwrgood = true) (hrun : s.bridgeStopped = false) :
    Happens (.bridgeFlitRetry true) s { s with bridgeRetries := 0 } := by
  change execBridgeFlitRetry true s = _
  simp [execBridgeFlitRetry, hpwr, hrun, happen]

/-- R55: the 16th retry in a row that fails stops the bridge. -/
theorem bridgeFlitRetry_fails {s : State} (hpwr : s.pwrgood = true) (hrun : s.bridgeStopped = false) :
    let counted : State := { s with bridgeRetries := s.bridgeRetries + 1 }
    Happens (.bridgeFlitRetry false) s (if 15 ≤ s.bridgeRetries then counted.stopBridge else counted) := by
  change execBridgeFlitRetry false s = _
  simp [execBridgeFlitRetry, hpwr, hrun, happen]

end Sys2Proof.Machine

namespace Sys2Proof
open Machine

/-- Settles O56: one lemma for each event, put together in the order of the statement. -/
theorem faultService : Obligations.FaultService := by
  unfold Obligations.FaultService
  intro s
  refine ⟨ueReportPeriod_happens, fun t => faultRecordWrite_happens, faultQueueFramePeriod_happens, fun t n => faultRidxNotice_happens, ?resumes,
    ?visits, fun core a gid o g hp hg hbad => ⟨strikePool_clean hp hg hbad, strikePool_weak hp hg hbad⟩,
    fun hpwr hrun => ⟨bridgeFlitRetry_passes hpwr hrun, ?counts, ?stops⟩⟩
  case resumes =>
    intro t hring
    exact ⟨fun hc hnone => rsmNotice_takes hring hc (congrArg (Option.map Prod.snd) hnone),
      fun hc i f hsome => rsmNotice_takes_resumes hring hc (congrArg (Option.map Prod.snd) hsome),
      fun hc i f hsome => rsmNotice_resumes hring hc (congrArg (Option.map Prod.snd) hsome)⟩
  case visits =>
    intro core w find hpwr hcore hw struck visited p
    have hvisited : struck.visited s.patrolTo.nextPatrol core w = visited := by
      cases hnext : s.patrolTo.nextPatrol <;> simp only [visited, hnext] <;> rfl
    have h := patrolScrub_eq hpwr hcore hw rfl hvisited
    exact ⟨fun hf => h.trans (congrArg (struck.scrubbed visited core w) hf), fun hf => h.trans (congrArg (struck.scrubbed visited core w) hf),
      fun hf => h.trans (congrArg (struck.scrubbed visited core w) hf)⟩
  case counts =>
    intro hlow
    simpa only [if_neg (Nat.not_le.mpr hlow)] using bridgeFlitRetry_fails hpwr hrun
  case stops =>
    intro hhigh
    simpa only [if_pos hhigh] using bridgeFlitRetry_fails hpwr hrun

end Sys2Proof
end

section
/-!
PROOFS. The commands on contexts and on metadata codes (R63, R397 to R399).
-/
namespace Sys2Proof.Machine

theorem State.updCtx_updCtx (s : State) (k : Nat) (f g : Ctx → Ctx) : (s.updCtx k f).updCtx k g = s.updCtx k (g ∘ f) := by
  simp only [State.updCtx, Store.upd_upd]

/-- R389: a record whose body breaks no rule is refused, with status 3, by its context alone. -/
theorem firstStatus_ready {broken : Bool} (ready : Bool) (h : broken = false) :
    firstStatus [failing broken 2, failing (!ready) 3] = if ready then 0 else 3 := by
  subst h
  cases ready <;> rfl

/-- R399: a context of the tenant is ready in the states that the command allows. -/
theorem State.ctxReady_of_get {s : State} {c : Cmd} {x : Ctx} (ok : CtxState → Bool) (howns : s.ownsCtx c.tenant c.ctx = true)
    (hx : Store.get s.ctxs c.ctx = some x) : s.ctxReady c ok = ok x.st := by
  simp [State.ctxReady, howns, hx]

section ctxload
variable {s : State} {c : Cmd} (hc : s.commanded 3 c) (hzero : zeros c.bytes 9 16 = true) (hrest : zeros c.bytes 24 64 = true)
  (hwindow : c.at' 8 1 < 16)
include hc hzero hrest hwindow

theorem ctxload_refused (h : s.ownsCtx c.tenant c.ctx = false ∨ Store.get s.ctxs c.ctx ≠ none) : Happens .ctxload s (s.finishRecord c 3) := by
  have hbad : (!s.ownsCtx c.tenant c.ctx || (Store.get s.ctxs c.ctx).isSome) = true := by
    simpa [Option.isSome_iff_ne_none] using h
  change execCtxload s = _
  exact command_refused hc (by simp [firstStatus_cons, hzero, hrest, hwindow, hbad]) (by decide)

/-- R397: a CTXLOAD that no rule refuses reads the image, and ends by what it finds there. -/
theorem ctxload_reads {a : Nat} (howns : s.ownsCtx c.tenant c.ctx = true) (hfree : Store.get s.ctxs c.ctx = none)
    (haddr : s.windowAddr c.tenant (c.at' 8 1) 2 (c.at' 16 8) 256 = some a) :
    let r := s.rawRead a 256
    let x := ctxOfImage c.tenant s.now r.2.1
    exec .ctxload s = happen (
      if r.2.2 then (r.1.countPoison a 256 0xFFFF c.ctx none 0).finishRecord c 4
      else if !(x.fieldsOk && zeros r.2.1 2 8 && zeros r.2.1 64 256) then r.1.finishRecord c 2
      else (({ r.1 with ctxs := Store.put r.1.ctxs c.ctx x } : State).openLog c.ctx).finishRecord c 0) := by
  change execCtxload s = _
  exact (command_accepted hc (by simp [firstStatus_cons, hzero, hrest, hwindow, howns, hfree, haddr])).trans (by simp only [haddr, Option.getD_some])

end ctxload

section ctxupd
variable {s : State} {c : Cmd} {x : Ctx} (hc : s.commanded 4 c) (hmask : c.at' 8 2 < 512) (hzero : zeros c.bytes 10 16 = true)
  (hrest : zeros c.bytes 49 64 = true) (howns : s.ownsCtx c.tenant c.ctx = true) (hx : Store.get s.ctxs c.ctx = some x)
  (hfields : (x.updated c).fieldsOk = true)
include hc hmask hzero hrest howns hx hfields

/-- R398: a CTXUPD of sound fields acts where its mask selects no field that an Active context keeps, or the context is not Active. -/
theorem ctxupd_eq : exec .ctxupd s = happen (
    if c.at' 8 2 < 64 ∨ x.st = .idle ∨ x.st = .saved then
      (if (c.at' 8 2).testBit 6 then (s.updCtx c.ctx fun x => x.updated c).openLog c.ctx else s.updCtx c.ctx fun x => x.updated c).finishRecord c 0
    else s.finishRecord c 3) := by
  have hbody : (!(decide (c.at' 8 2 < 512) && zeros c.bytes 10 16 && zeros c.bytes 49 64) ||
      !(((Store.get s.ctxs c.ctx).map fun x => (x.updated c).fieldsOk).getD true)) = false := by simp [hmask, hzero, hrest, hx, hfields]
  have hready := State.ctxReady_of_get (fun st => decide (c.at' 8 2 < 64) || st == .idle || st == .saved) howns hx
  change execCtxupd s = _
  by_cases h : c.at' 8 2 < 64 ∨ x.st = .idle ∨ x.st = .saved
  · rw [if_pos h]
    exact command_accepted hc ((firstStatus_ready _ hbody).trans (if_pos (hready.trans (by simpa [or_assoc] using h))))
  · rw [if_neg h]
    exact command_refused hc ((firstStatus_ready _ hbody).trans (if_neg (by rw [hready]; simpa [or_assoc] using h))) (by decide)

end ctxupd

section bodyless
variable {s : State} {c : Cmd} (hempty : zeros c.bytes 8 64 = true)
include hempty

theorem bodyless_status (ready : Bool) : firstStatus [failing (!noBody c) 2, failing (!ready) 3] = if ready then 0 else 3 :=
  firstStatus_ready ready (by simp [noBody, hempty])

/-- R399: a command with no body acts on a context in a state that it allows. -/
theorem bodyless_accepted {opc : Nat} {act : Cmd → State → State} {ok : CtxState → Bool} (hc : s.commanded opc c)
    (hready : s.ctxReady c ok = true) :
    s.command opc (fun c => firstStatus [failing (!noBody c) 2, failing (!s.ctxReady c ok) 3]) act = happen (act c s) :=
  command_accepted hc ((bodyless_status hempty _).trans (if_pos hready))

/-- R399: in another state it gives status 3. -/
theorem bodyless_refused {opc : Nat} {act : Cmd → State → State} {ok : CtxState → Bool} (hc : s.commanded opc c) (hready : s.ctxReady c ok = false) :
    s.command opc (fun c => firstStatus [failing (!noBody c) 2, failing (!s.ctxReady c ok) 3]) act = happen (s.finishRecord c 3) :=
  command_refused hc ((bodyless_status hempty _).trans (if_neg (Bool.eq_false_iff.mp hready))) (by decide)

/-- R398, R400: a context with nothing on the cores is Saved at once. -/
theorem ctxsave_saves {x : Ctx} (hc : s.commanded 5 c) (howns : s.ownsCtx c.tenant c.ctx = true) (hx : Store.get s.ctxs c.ctx = some x)
    (hst : x.st = .idle ∨ x.st = .saved) :
    Happens .ctxsave s ((s.updCtx c.ctx fun x => { x with st := .saved }).finishRecord c 0) := by
  change execCtxsave s = _
  rw [execCtxsave, bodyless_accepted hempty hc (by rcases hst with h | h <;> simp [State.ctxReady_of_get _ howns hx, h])]
  rcases hst with h | h <;> simp only [hx, Option.map_some, h] <;> rfl

theorem ctxsave_refused {x : Ctx} (hc : s.commanded 5 c) (howns : s.ownsCtx c.tenant c.ctx = true) (hx : Store.get s.ctxs c.ctx = some x)
    (hst : x.st = .restoring) : Happens .ctxsave s (s.finishRecord c 3) := by
  change execCtxsave s = _
  exact bodyless_refused hempty hc (by simp [State.ctxReady_of_get _ howns hx, hst])

/-- R398, R400: an Active context is asked to stop, an earlier deadline standing. -/
theorem ctxsave_stops {x : Ctx} (hc : s.commanded 5 c) (howns : s.ownsCtx c.tenant c.ctx = true) (hx : Store.get s.ctxs c.ctx = some x)
    (hst : x.st = .active) :
    Happens .ctxsave s (s.updCtx c.ctx fun x => { x with
      pendingCmds := x.pendingCmds ++ [c], st := .stopping, stop := some ((x.stop.map fun d => min d (s.now + 27500)).getD (s.now + 27500)) }) := by
  change execCtxsave s = _
  rw [execCtxsave, bodyless_accepted hempty hc (by simp [State.ctxReady_of_get _ howns hx, hst])]
  simp only [hx, Option.map_some, hst, State.requestStop, State.updCtx_updCtx]
  rfl

theorem ctxres_happens {x : Ctx} (hc : s.commanded 6 c) (howns : s.ownsCtx c.tenant c.ctx = true) (hx : Store.get s.ctxs c.ctx = some x)
    (hst : x.st = .saved) :
    Happens .ctxres s (s.updCtx c.ctx fun x => { x with st := .restoring, pendingCmds := x.pendingCmds ++ [c] }) := by
  change execCtxres s = _
  exact bodyless_accepted hempty hc (by simp [State.ctxReady_of_get _ howns hx, hst])

theorem ctxres_refused {x : Ctx} (hc : s.commanded 6 c) (howns : s.ownsCtx c.tenant c.ctx = true) (hx : Store.get s.ctxs c.ctx = some x)
    (hst : x.st ≠ .saved) : Happens .ctxres s (s.finishRecord c 3) := by
  change execCtxres s = _
  exact bodyless_refused hempty hc (by simp [State.ctxReady_of_get _ howns hx, hst])

theorem ctxdisc_happens (hc : s.commanded 7 c) (hready : s.ctxReady c (· != .free) = true) :
    Happens .ctxdisc s ((s.discardCtx c.ctx 3).finishRecord c 0) := by
  change execCtxdisc s = _
  exact bodyless_accepted hempty hc hready

theorem ctxdisc_refused (hc : s.commanded 7 c) (hready : s.ctxReady c (· != .free) = false) : Happens .ctxdisc s (s.finishRecord c 3) := by
  change execCtxdisc s = _
  exact bodyless_refused hempty hc hready

end bodyless

/-- R63: the body of a metadata command that breaks no rule. -/
theorem metadataBodyOk_iff {c : Cmd} : metadataBodyOk c = true ↔ c.at' 8 8 % 256 = 0 ∧ 1 ≤ c.at' 16 8 ∧ c.at' 16 8 ≤ 2 ^ 32 ∧ c.at' 24 1 < 16 ∧
    c.at' 25 1 < 16 ∧ zeros c.bytes 26 32 = true ∧ zeros c.bytes 40 64 = true := by
  simp only [metadataBodyOk, Bool.and_eq_true, beq_iff_eq, decide_eq_true_eq, and_assoc]

section metadata
variable {s : State} {c : Cmd} {blockRight bufferRight a b : Nat}
  (hblocks : s.windowAddr c.tenant (c.at' 24 1) blockRight (c.at' 8 8) (256 * c.at' 16 8) = some a)
  (hbuffer : s.windowAddr c.tenant (c.at' 25 1) bufferRight (c.at' 32 8) (ceilDiv (c.at' 16 8) 2) = some b)
include hblocks hbuffer

theorem State.metadataPlaces_of_windows : s.metadataPlaces c blockRight bufferRight = some (a, b) := by
  simp only [State.metadataPlaces, hblocks, hbuffer]

theorem State.metadataStatus_accepts (hbody : metadataBodyOk c = true) (howns : s.ownsCtx c.tenant c.ctx = true) :
    s.metadataStatus blockRight bufferRight c = 0 := by
  simp [State.metadataStatus, State.metadataPlaces_of_windows hblocks hbuffer, hbody, howns, firstStatus_cons]

end metadata

/-- R63: code i of a run of n, each given by f; the place after an odd run is spare (log 36). -/
def runCode (f : Nat → Nat) (n spare i : Nat) : Nat := if i < n then f i else spare

/-- R63: byte i of the codes, two to a byte. -/
def codeByte (code : Nat → Nat) (i : Nat) : Byte := BitVec.ofNat 8 (code (2 * i) + 16 * code (2 * i + 1))

theorem codeByte_whole {n i : Nat} (f : Nat → Nat) (spare : Nat) (h : 2 * i + 1 < n) : codeByte (runCode f n spare) i = codeByte f i := by
  simp only [codeByte, runCode, if_pos h, if_pos (Nat.lt_of_succ_lt h)]

/-- R63: each two of the codes take a whole byte. -/
theorem codeBytes_whole (f : Nat → Nat) (n spare : Nat) :
    (List.range (n / 2)).map (codeByte (runCode f n spare)) = (List.range (n / 2)).map (codeByte f) :=
  List.map_congr_left fun i hi => codeByte_whole f spare (by have := List.mem_range.mp hi; omega)

/-- R63: an even run of codes fills whole bytes. -/
theorem codeBytes_even {n : Nat} (f : Nat → Nat) (spare : Nat) (h : n % 2 = 0) :
    (List.range (ceilDiv n 2)).map (codeByte (runCode f n spare)) = (List.range (n / 2)).map (codeByte f) := by
  rw [show ceilDiv n 2 = n / 2 by unfold ceilDiv; omega, codeBytes_whole]

/-- R63: of an odd run, the last code shares its byte with the spare half. -/
theorem codeBytes_odd {n : Nat} (f : Nat → Nat) (spare : Nat) (h : n % 2 = 1) :
    (List.range (ceilDiv n 2)).map (codeByte (runCode f n spare)) =
      (List.range (n / 2)).map (codeByte f) ++ [BitVec.ofNat 8 (f (n - 1) + 16 * spare)] := by
  have hlast : codeByte (runCode f n spare) (n / 2) = BitVec.ofNat 8 (f (n - 1) + 16 * spare) := by
    have hplace : 2 * (n / 2) = n - 1 := by omega
    simp only [codeByte, runCode, hplace, if_pos (show n - 1 < n by omega), if_neg (show ¬ n - 1 + 1 < n by omega)]
  rw [show ceilDiv n 2 = n / 2 + 1 by unfold ceilDiv; omega, List.range_succ, List.map_append, codeBytes_whole, List.map_cons, List.map_nil, hlast]

/-- R63: the module with everything pending applied and the dirty copies of a run of lines written back. -/
def State.cleaned (s : State) (first count : Nat) : State :=
  { s.drainAll with lines := s.drainAll.lines.map fun (e : Nat × LineTag) =>
    (e.1, if first ≤ e.1 && e.1 < first + count then { e.2 with dirty := false } else e.2) }

/-- R63: half a byte is its quotient or its remainder by 16. -/
theorem half_byte (b : Byte) (i : Nat) : (if i % 2 = 0 then b.toNat % 16 else b.toNat / 16) = b.toNat / 16 ^ (i % 2) % 16 := by
  rcases Nat.mod_two_eq_zero_or_one i with h | h
  · simp [h]
  · have := b.isLt
    simp only [h, Nat.one_ne_zero, if_false, Nat.pow_one]
    omega

section metadata
variable {s : State} {c : Cmd} {a b : Nat} (hbody : metadataBodyOk c = true) (howns : s.ownsCtx c.tenant c.ctx = true)
include hbody howns

section exportCodes
variable (hc : s.commanded 0x0A c) (hblocks : s.windowAddr c.tenant (c.at' 24 1) 2 (c.at' 8 8) (256 * c.at' 16 8) = some a)
  (hbuffer : s.windowAddr c.tenant (c.at' 25 1) 3 (c.at' 32 8) (ceilDiv (c.at' 16 8) 2) = some b)
include hc hblocks hbuffer

/-- R63: the codes of the blocks, as HBM then holds them, go to the buffer. -/
theorem metadataExport_happens :
    let n := c.at' 16 8
    let u := s.cleaned (a / 128) (2 * n)
    Happens .metadataExport s ((State.rawWrite { u with nextChoice := u.nextChoice + n % 2 } b ((List.range (ceilDiv n 2)).map
      (codeByte (runCode (fun i => u.code (a + 256 * i)) n ((Config.freeWord u.nextChoice).toNat % 16))))).finishRecord c 0) := by
  change execMetadataExport s = _
  refine (command_accepted hc (State.metadataStatus_accepts hblocks hbuffer hbody howns)).trans ?_
  rw [State.metadataPlaces_of_windows hblocks hbuffer]
  rfl

theorem metadataExport_even (h : c.at' 16 8 % 2 = 0) :
    let n := c.at' 16 8
    let u := s.cleaned (a / 128) (2 * n)
    Happens .metadataExport s
      ((u.rawWrite b ((List.range (n / 2)).map (codeByte fun i => u.code (a + 256 * i)))).finishRecord c 0) := by
  have hall := metadataExport_happens hbody howns hc hblocks hbuffer
  dsimp only at hall
  rwa [codeBytes_even _ _ h, h] at hall

theorem metadataExport_odd (h : c.at' 16 8 % 2 = 1) :
    let n := c.at' 16 8
    let u := s.cleaned (a / 128) (2 * n)
    let code := fun i => u.code (a + 256 * i)
    Happens .metadataExport s ((State.rawWrite { u with nextChoice := u.nextChoice + 1 } b ((List.range (n / 2)).map (codeByte code) ++
      [BitVec.ofNat 8 (code (n - 1) + 16 * ((Config.freeWord u.nextChoice).toNat % 16))])).finishRecord c 0) := by
  have hall := metadataExport_happens hbody howns hc hblocks hbuffer
  dsimp only at hall
  rwa [codeBytes_odd _ _ h, h] at hall

end exportCodes

/-- R63: the buffer is read, and without an error its codes go to the blocks, whose copies in the slices are dropped. -/
theorem metadataImport_eq (hc : s.commanded 0x0B c)
    (hblocks : s.windowAddr c.tenant (c.at' 24 1) 3 (c.at' 8 8) (256 * c.at' 16 8) = some a)
    (hbuffer : s.windowAddr c.tenant (c.at' 25 1) 2 (c.at' 32 8) (ceilDiv (c.at' 16 8) 2) = some b) :
    let n := c.at' 16 8
    let r := s.drainAll.rawRead b (ceilDiv n 2)
    let u := (List.range n).foldl (fun u i => u.setCode (a + 256 * i) ((r.2.1.getD (i / 2) 0).toNat / 16 ^ (i % 2) % 16)) r.1
    exec .metadataImport s = happen (
      if r.2.2 then (r.1.countPoison b (ceilDiv n 2) 0xFFFF (r.1.ownedCtx c) none 0).finishRecord c 4
      else ({ u with
        lines := Store.clear u.lines (a / 128) (2 * n)
        upsets := u.upsets.filter fun e => !(e.array == .slice && decide (a / 128 ≤ e.addr / 128) && decide (e.addr / 128 < a / 128 + 2 * n)) } :
          State).finishRecord c 0) := by
  change execMetadataImport s = _
  refine (command_accepted hc (State.metadataStatus_accepts hblocks hbuffer hbody howns)).trans ?_
  simp only [State.metadataPlaces_of_windows hblocks hbuffer, Option.getD_some, half_byte]

end metadata

end Sys2Proof.Machine

namespace Sys2Proof
open Machine

/-- Settles O54: one lemma for each command, put together in the order of the statement. -/
theorem contextCommands : Obligations.ContextCommands := by
  unfold Obligations.ContextCommands
  intro s c empty n shape
  refine ⟨fun hc hzero hrest hwindow => ⟨?loads, ctxload_refused hc hzero hrest hwindow⟩, ?updates, ?saves, ?restores, ?discards, ?exports, ?imports⟩
  case loads =>
    intro a howns hfree haddr r x
    have h := ctxload_reads hc hzero hrest hwindow howns hfree haddr
    have hclean (hp : r.2.2 = false) : ¬ r.2.2 = true := Bool.eq_false_iff.mp hp
    refine ⟨fun hp => h.trans (congrArg happen (if_pos hp)), fun hp hf h2 h64 => h.trans (congrArg happen ((if_neg (hclean hp)).trans (if_neg ?_))),
      fun hp hf => h.trans (congrArg happen ((if_neg (hclean hp)).trans (if_pos ?_)))⟩
    · change ¬ (!(x.fieldsOk && zeros r.2.1 2 8 && zeros r.2.1 64 256)) = true
      rw [hf, h2, h64]
      decide
    · change (!(x.fieldsOk && zeros r.2.1 2 8 && zeros r.2.1 64 256)) = true
      rw [hf]
      rfl
  case updates =>
    intro x hc hmask hzero hrest howns hx hfields
    have h := ctxupd_eq hc hmask hzero hrest howns hx hfields
    refine ⟨fun hlow => h.trans ?_, fun hhigh hst => h.trans ?_, fun hhigh hidle hsaved => h.trans ?_⟩
    · rw [if_pos (.inl hlow), Nat.testBit_lt_two_pow hlow]
      rfl
    · rw [if_pos (.inr hst)]
      rfl
    · rw [if_neg (by simp [hhigh, hidle, hsaved])]
      rfl
  case saves =>
    intro x hc hempty howns hx
    exact ⟨ctxsave_saves hempty hc howns hx, ctxsave_stops hempty hc howns hx, ctxsave_refused hempty hc howns hx⟩
  case restores =>
    intro x hc hempty howns hx
    exact ⟨ctxres_happens hempty hc howns hx, ctxres_refused hempty hc howns hx⟩
  case discards => exact fun hc hempty => ⟨ctxdisc_happens hempty hc, ctxdisc_refused hempty hc⟩
  case exports =>
    intro a b hc hshape howns hblocks hbuffer u code
    have hbody := metadataBodyOk_iff.mpr hshape
    exact ⟨metadataExport_even hbody howns hc hblocks hbuffer, metadataExport_odd hbody howns hc hblocks hbuffer⟩
  case imports =>
    intro a b hc hshape howns hblocks hbuffer r u
    have h := metadataImport_eq (metadataBodyOk_iff.mpr hshape) howns hc hblocks hbuffer
    exact ⟨fun hp => h.trans (congrArg happen (if_neg (Bool.eq_false_iff.mp hp))), fun hp => h.trans (congrArg happen (if_pos hp))⟩

end Sys2Proof
end

section
/-!
PROOFS. Data that returns, the grants of the crossbars, the write queues and late error traps (R51, R52, R54, R56, R105, R117, R249, R254, R368, R425).
-/
namespace Sys2Proof

theorem Store.del_put {α : Type} (m : Store α) (k : Nat) (v : α) : Store.del (Store.put m k v) k = Store.del m k := by
  induction m with
  | nil => simp [Store.put, Store.del]
  | cons e m ih =>
    obtain ⟨i, u⟩ := e
    rcases Nat.lt_trichotomy k i with h | rfl | h
    · simp [Store.put, Store.del, h]
    · simp [Store.put, Store.del]
    · simp [Store.put, Store.del, Nat.lt_asymm h, Nat.ne_of_gt h, ih]

namespace Machine

/-- R117, R249, R254, R425: the value of a load, as the statement gives it. -/
theorem LoadOp.value_eq (l : LoadOp) (data : List Byte) :
    l.value data = if l.poison.isSome then (if l.atomic = some 16 then 0x7FC00000 else 0) else extendLoad l.size l.sx (ofBytes data) := by
  unfold LoadOp.value
  cases l.poison <;> cases l.atomic <;> simp [atomicPoison]

/-- R117, R425: the words of an operation land, with the poison that it met. -/
def State.landWords (s : State) (op : Nat) (o : AOp) (p : Option Nat) (vs : List Word) : State :=
  match p with
  | some a => ((s.endOp op).landDsts o.thread o.gid o.dst vs).poisonLanded o.thread a
  | none => (s.endOp op).landDsts o.thread o.gid o.dst vs

theorem State.landLoad_eq (s : State) (op : Nat) (o : AOp) (l : LoadOp) :
    s.landLoad op o l = s.landWords op o l.poison (wordsOf o.dst.length (l.value l.data)) := by
  unfold State.landLoad State.landWords
  cases l.poison <;> rfl

/-- What an operation in flight held is gone when it ends. -/
theorem State.endOp_of_put (s : State) (op : Nat) (o : AOp) : ({ s with ops := Store.put s.ops op o } : State).endOp op = s.endOp op := by
  simp only [State.endOp, Store.del_put]

theorem State.landWords_of_put (s : State) (op : Nat) (o o' : AOp) (p : Option Nat) (vs : List Word) :
    ({ s with ops := Store.put s.ops op o' } : State).landWords op o p vs = s.landWords op o p vs := by
  simp only [State.landWords, State.endOp_of_put]

/-- R105, R368: the acquires among the pieces of peers that have been performed. -/
def State.acquired (s : State) (core : Nat) (rs : List Remote) : State := if rs.any (fun r => r.acc.acquires) then s.invalidateCache core else s

/-- R117, R249, R254: the bytes of a load once its peers have sent theirs. -/
def LoadOp.filled (l : LoadOp) (bs : List Byte) : List Byte :=
  fillRemote l.data ((l.remote.filter fun r => r.bytes != 0).map fun r => (r.acc.off, r.acc.size)) bs

theorem State.peersDone_eq (s : State) (op : Nat) (o : AOp) (l : LoadOp) (bs : List Byte) :
    s.peersDone op o l bs =
      { s.acquired o.core l.remote with ops := Store.put (s.acquired o.core l.remote).ops op { o with kind := .load { l with data := l.filled bs, remote := [] } } } := by
  unfold State.peersDone State.acquired
  split <;> rfl

/-- A load all of whose pieces are performed lands. -/
theorem loadDataReturn_load {s : State} {op : Nat} {o : AOp} {l : LoadOp} {bs : List Byte} (hop : Store.get s.ops op = some o)
    (hkind : o.kind = .load l) (hleft : l.left = 0) (hcode : l.remote ≠ [] → s.inputs.code = 0)
    (hlen : bs.length = (l.remote.map Remote.bytes).foldl (· + ·) 0) :
    exec (.loadDataReturn op bs) s =
      let u := (s.acquired o.core l.remote).landWords op o l.poison (wordsOf o.dst.length (l.value (l.filled bs)))
      happen (if l.remote.isEmpty then u else u.resumeKept o.thread) := by
  have hrefused : (decide (s.inputs.code ≠ 0) && !l.remote.isEmpty) = false := by
    cases hr : l.remote with
    | nil => simp
    | cons r rs => simp [hcode (by simp [hr])]
  change execLoadDataReturn op bs s = _
  simp only [execLoadDataReturn, hop, hkind, hrefused, hlen, hleft, State.peersDone_eq, Store.get_put, Option.map_some, State.landLoad_eq,
    State.landWords_of_put, ne_eq, not_true_eq_false, decide_false, Bool.false_and, Bool.or_self, Bool.false_eq_true, if_false]
  rfl

/-- R117, R249: the data of a load of this module's memory. -/
theorem loadDataReturn_here {s : State} {op : Nat} {o : AOp} {l : LoadOp} (hop : Store.get s.ops op = some o) (hkind : o.kind = .load l)
    (hremote : l.remote = []) (hleft : l.left = 0) :
    Happens (.loadDataReturn op []) s (s.landWords op o l.poison (wordsOf o.dst.length (l.value l.data))) := by
  refine (loadDataReturn_load hop hkind hleft (fun h => absurd hremote h) (by rw [hremote]; rfl)).trans ?_
  simp [LoadOp.filled, hremote, State.acquired, fillRemote, happen]

/-- R105, R117, R368: the data of a load of which peers hold pieces; what the thread kept back goes on. -/
theorem loadDataReturn_peers {s : State} {op : Nat} {o : AOp} {l : LoadOp} {bs : List Byte} (hop : Store.get s.ops op = some o)
    (hkind : o.kind = .load l) (hremote : l.remote ≠ []) (hleft : l.left = 0) (hcode : s.inputs.code = 0)
    (hlen : bs.length = (l.remote.map Remote.bytes).foldl (· + ·) 0) :
    Happens (.loadDataReturn op bs) s
      (((s.acquired o.core l.remote).landWords op o l.poison (wordsOf o.dst.length (l.value (l.filled bs)))).resumeKept o.thread) :=
  (loadDataReturn_load hop hkind hleft (fun _ => hcode) hlen).trans (congrArg happen (if_neg (by simpa using hremote)))

theorem loadDataReturn_value {s : State} {op : Nat} {o : AOp} {vs : List Word} {p : Option Nat} (hop : Store.get s.ops op = some o)
    (hkind : o.kind = .value vs p) : Happens (.loadDataReturn op []) s (s.landWords op o p vs) := by
  change execLoadDataReturn op [] s = _
  simp only [execLoadDataReturn, hop, hkind]
  cases p <;> rfl

/-- R320: the bytes that a peer sends for an instruction's word, or for its operands, are the thread's. -/
def Thread.fetched (th : Thread) (o : AOp) (r : RemoteRead) (bs : List Byte) (now : Nat) : Thread :=
  let got := if r.kind = .fetch ∧ r.va = o.pc ∧ th.wordBuf = [] ∧ th.reload = false then { th with wordBuf := bs } else { th with peerBuf := th.peerBuf ++ bs }
  match th.st with
  | .waiting (.ray _) => got
  | _ => { got with st := .ready, since := now }

theorem loadDataReturn_fetch {s : State} {op : Nat} {o : AOp} {r : RemoteRead} {bs : List Byte} (hop : Store.get s.ops op = some o)
    (hkind : o.kind = .fetch r) (hcode : s.inputs.code = 0) (hlen : bs.length = r.bytes) :
    Happens (.loadDataReturn op bs) s ((s.endOp op).updThread o.thread fun th => th.fetched o r bs s.now) := by
  change execLoadDataReturn op bs s = _
  simp only [execLoadDataReturn, hop, hkind, hcode, hlen, ne_eq, not_true_eq_false, if_false]
  refine congrArg happen (congrArg _ (funext fun th => ?_))
  by_cases hword : r.kind = .fetch ∧ r.va = o.pc ∧ th.wordBuf = [] ∧ th.reload = false
  · obtain ⟨hk, hva, hbuf, hreload⟩ := hword
    simp only [Thread.fetched, hk, hva, hbuf, hreload, List.isEmpty_nil, decide_true, Bool.not_false, Bool.and_self, and_self, if_true, List.nil_append] <;> rfl
  · have hpeer : (decide (r.kind = .fetch) && decide (r.va = o.pc) && th.wordBuf.isEmpty && !th.reload) = false := by
      simpa [and_assoc] using hword
    simp only [Thread.fetched, if_neg hword, hpeer, Bool.false_eq_true, if_false] <;> rfl

/-- R51: an output that no request is held for grants nothing. -/
theorem State.grant_idle {s : State} {out : Nat} (h : portHeads out s.portHeld = []) : s.grant out = s := by
  simp [State.grant, h, leastRecent]

/-- R56: a line with a pending write is applied; what its ports grant joins it. -/
theorem writeQueueApply_happens {s : State} {line : Nat}
    (h : (∃ p ∈ s.wq, p.inLine line = true) ∨ ∃ r ∈ s.portHeld, r.req.inLine line = true) :
    Happens (.writeQueueApply line) s ((s.beat (128 * line)).applyEntry line) := by
  change execWriteQueueApply line s = _
  exact if_pos (by simpa using h)

theorem Pending.inLine_first {p : Pending} {line : Nat} (hsize : 0 < p.size) (hline : p.pa / 128 = line) : p.inLine line = true := by
  subst hline
  simp only [Pending.inLine, le_refl, decide_true, Bool.true_and, decide_eq_true_eq]
  exact Nat.div_le_div_right (by omega)

/-- R425: a thread at an instruction boundary takes the trap that its poison left due. -/
theorem lateErrorTrap_happens {s : State} {key a : Nat} {th : Thread} (hth : Store.get s.threads key = some th) (hlate : th.late = some a)
    (hst : th.st = .ready ∨ ∃ n y, th.st = .waiting (.stall n y)) :
    Happens (.lateErrorTrap key) s ((s.setThread key { th with late := none, st := .ready }).takeTraps [{ key := key, cause := 0x11, tval := a }]) := by
  change execLateErrorTrap key s = _
  rcases hst with h | ⟨n, y, h⟩ <;> simp only [execLateErrorTrap, hth, hlate, h] <;> rfl

section grants

theorem mem_portHeads {out : Nat} {l : List PortReq} {r : PortReq} (h : r ∈ portHeads out l) : r ∈ l ∧ r.output = out := by
  induction l with
  | nil => cases h
  | cons q l ih =>
    unfold portHeads at h
    split at h
    · next hq =>
      rcases List.mem_cons.mp h with rfl | h
      · exact ⟨List.mem_cons_self, hq⟩
      · obtain ⟨hmem, hout⟩ := ih (List.mem_filter.mp h).1
        exact ⟨List.mem_cons_of_mem _ hmem, hout⟩
    · obtain ⟨hmem, hout⟩ := ih h
      exact ⟨List.mem_cons_of_mem _ hmem, hout⟩

/-- R52: an input has one head request for an output. -/
theorem portHeads_inputs (out : Nat) (l : List PortReq) : (portHeads out l).Pairwise fun q r => q.input ≠ r.input := by
  induction l with
  | nil => exact .nil
  | cons q l ih =>
    unfold portHeads
    split
    · refine List.pairwise_cons.mpr ⟨fun r hr => ?_, ih.filter _⟩
      exact (bne_iff_ne.mp (List.mem_filter.mp hr).2).symm
    · exact ih

/-- In a list with one request of each input, the first of an input is that request. -/
theorem find_input {l : List PortReq} {r : PortReq} (hl : l.Pairwise fun q r => q.input ≠ r.input) (hr : r ∈ l) :
    l.find? (fun q => q.input == r.input) = some r := by
  induction l with
  | nil => cases hr
  | cons q l ih =>
    obtain ⟨hq, hl⟩ := List.pairwise_cons.mp hl
    rcases List.mem_cons.mp hr with rfl | hr
    · simp
    · rw [List.find?_cons_of_neg (by simpa using hq r hr), ih hl hr]

/-- R51: of the inputs that were never granted, the lowest number (log 46). -/
theorem leastRecent_never {order ins : List Nat} {n : Nat} (hn : n ∈ ins) (hnew : n ∉ order) (hlow : ∀ m ∈ ins, m ∉ order → n ≤ m) :
    leastRecent order ins = some n := by
  have hmem : n ∈ ins.filter fun i => !order.contains i := List.mem_filter.mpr ⟨hn, by simpa using hnew⟩
  unfold leastRecent
  cases hf : ins.filter fun i => !order.contains i with
  | nil => rw [hf] at hmem; cases hmem
  | cons i is =>
    change some (is.foldl min i) = some n
    rw [← List.min?_cons', ← hf]
    refine List.min?_eq_some_iff.mpr ⟨hmem, fun m hm => ?_⟩
    obtain ⟨hin, hout⟩ := List.mem_filter.mp hm
    exact hlow m hin (by simpa using hout)

/-- R51: where every input was granted once, the one that was granted least recently. -/
theorem leastRecent_granted {before after ins : List Nat} {n : Nat} (hn : n ∈ ins) (hall : ∀ m ∈ ins, m ∈ before ++ n :: after)
    (hbefore : ∀ m ∈ ins, m ∉ before) : leastRecent (before ++ n :: after) ins = some n := by
  have hnone : (ins.filter fun i => !(before ++ n :: after).contains i) = [] :=
    List.filter_eq_nil_iff.mpr fun m hm => by rw [List.contains_iff_mem.mpr (hall m hm)]; decide
  unfold leastRecent
  rw [hnone]
  simp only
  rw [List.find?_append, List.find?_eq_none.mpr fun m hm => by simpa using fun hi => hbefore m hi hm, Option.none_or,
    List.find?_cons_of_pos (by simpa using hn)]

theorem portHeads_eq_nil {out : Nat} {l : List PortReq} (h : ∀ q ∈ l, q.output ≠ out) : portHeads out l = [] :=
  List.eq_nil_iff_forall_not_mem.mpr fun q hq => h q (mem_portHeads hq).1 (mem_portHeads hq).2

/-- R51, R54: where no request is held for a bridge port, the slice's port alone grants. -/
theorem State.beat_eq_grant {s : State} {line : Nat} (hheld : ∀ q ∈ s.portHeld, q.output < 96) :
    s.beat (128 * line) = s.grant (sliceOut (128 * line)) := by
  have hidle : portHeads (bridgeOut (1 - dieOfAddr (128 * line)) (homeSlice (128 * line) % 4)) s.portHeld = [] :=
    portHeads_eq_nil fun q hq => by
      have := hheld q hq
      unfold bridgeOut
      omega
  rw [State.beat, State.grant_idle hidle]

variable {s : State} {out : Nat} {r : PortReq} (hr : r ∈ (portHeads out s.portHeld).filter s.admits)
  (hleast : leastRecent ((Store.get s.grants out).getD []) (((portHeads out s.portHeld).filter s.admits).map PortReq.input) = some r.input)
include hr hleast

/-- R51, R54, R56: the head request of the input granted least recently is granted. -/
theorem State.grant_of_least :
    let granted : State := ({ s with portHeld := s.portHeld.erase r } : State).noteGrant out r.input
    s.grant out = if out < 96 then { granted with wq := granted.wq ++ [r.req] }
      else { granted with portHeld := granted.portHeld ++
        [{ input := bridgeIn (dieOfAddr r.req.pa) (homeSlice r.req.pa % 4), output := sliceOut r.req.pa, req := r.req }] } := by
  have hfind := find_input ((portHeads_inputs out s.portHeld).filter s.admits) hr
  simp only [State.grant, hleast, Option.bind_some, hfind]

end grants

end Machine

open Machine

/-- Settles O42: one lemma for each kind of data, for the grants and for each event, put together in the order of the statement. -/
theorem dataReturns : Obligations.DataReturns := by
  unfold Obligations.DataReturns
  refine ⟨fun s op o hop => ?returns, fun s out r => ?grants⟩
  case returns =>
    intro landed write value
    have hvalue (l : LoadOp) (data : List Byte) : value l data = wordsOf o.dst.length (l.value data) := by rw [LoadOp.value_eq]
    have hlanded (p : Option Nat) (u : State) (vs : List Word) : landed p (write u vs) = u.landWords op o p vs := by cases p <;> rfl
    refine ⟨?here, ?peers, ?value, fun r bs => loadDataReturn_fetch hop, ?applies, fun key a th => lateErrorTrap_happens⟩
    case here =>
      intro l hkind hremote hleft
      rw [hlanded, hvalue]
      exact loadDataReturn_here hop hkind hremote hleft
    case peers =>
      intro l bs hkind hremote hleft hcode hlen places u
      rw [hlanded, hvalue]
      exact loadDataReturn_peers hop hkind hremote hleft hcode hlen
    case value =>
      intro vs p hkind
      rw [hlanded]
      exact loadDataReturn_value hop hkind
    case applies =>
      intro p line hheld hp hsize hline
      have hidle (out : Nat) : s.grant out = s := State.grant_idle (by rw [hheld]; rfl)
      have h := writeQueueApply_happens (.inl ⟨p, hp, Pending.inLine_first hsize hline⟩)
      rwa [State.beat, hidle, hidle] at h
  case grants =>
    intro heads order hr hchoice granted
    have hleast : leastRecent order (heads.map PortReq.input) = some r.input := by
      have hmem : r.input ∈ heads.map PortReq.input := List.mem_map_of_mem hr
      rcases hchoice with ⟨hnew, hlow⟩ | ⟨hall, before, after, horder, hbefore⟩
      · exact leastRecent_never hmem hnew (List.forall_mem_map.mpr hlow)
      · rw [horder] at hall ⊢
        exact leastRecent_granted hmem (List.forall_mem_map.mpr hall) (List.forall_mem_map.mpr hbefore)
    have hgrant := State.grant_of_least hr hleast
    refine ⟨fun hslice => hgrant.trans (if_pos hslice), fun hbridge => hgrant.trans (if_neg (Nat.not_lt.mpr hbridge)), ?_⟩
    intro line hout hsize hline hheld
    obtain ⟨hin, hto⟩ := mem_portHeads (List.mem_filter.mp hr).1
    have h := writeQueueApply_happens (.inr ⟨r, hin, Pending.inLine_first hsize hline⟩)
    rwa [State.beat_eq_grant hheld, hout, hgrant, if_pos (hto ▸ hheld r hin)] at h

end Sys2Proof
end

section
/-!
PROOFS. What a store leaves unchanged (R51, R56, R246, R249, R250).
-/
namespace Sys2Proof
open Machine

/-- R246: the address of a global access, as a sum of bit strings. -/
theorem address_eq (v : Lane) (x : Fields) : v.address x = (v.r64 x.a + x.imm.signExtend 64).toNat := by
  rw [Lane.address, modPow_eq, sext_eq _ _ (by decide), BitVec.ofNat_toNat, BitVec.setWidth_eq, BitVec.ofInt_add, BitVec.ofInt_natCast,
    BitVec.ofNat_toNat, BitVec.setWidth_eq]
  rfl

/-- R250: the offset of a scratchpad access. -/
theorem spOffset_eq (v : Lane) (x : Fields) : v.spOffset x = ((v.r32 x.a).toNat : Int) + x.imm.toInt := by
  rw [Lane.spOffset, sext_eq _ _ (by decide), BitVec.ofNat_toNat, BitVec.setWidth_eq]

/-- R249: the registers of a size code are those of its bytes. -/
theorem sizeRegs_eq (code : Nat) : Fields.sizeRegs code = Fields.dataRegs (sizeBytes code) := by
  have hpow (k : Nat) (hk : 0 < k) : sizeBytes code = 2 ^ k ↔ code = k + 1 := by
    rw [sizeBytes, Nat.pow_right_inj (by decide)]
    omega
  have h8 : sizeBytes code = 8 ↔ code = 4 := hpow 3 (by decide)
  have h16 : sizeBytes code = 16 ↔ code = 5 := hpow 4 (by decide)
  simp only [Fields.sizeRegs, Fields.dataRegs, h8, h16]

/-- R246: an access within one 4 KiB page is one piece. -/
theorem pieces_one {va n : Nat} (h : va % 4096 + n ≤ 4096) : pieces va n = [(va, n, 0)] := if_pos (by omega)

theorem checkGlobal_admitted {s : State} {v : Lane} {a n : Nat} {k : Act} (hfirst : v.admits s a) (hlast : v.admits s (a + n - 1)) :
    s.checkGlobal v a n false k = k := by
  obtain ⟨c, hc, hfirst⟩ := hfirst
  obtain ⟨d, hd, hlast⟩ := hlast
  obtain rfl : c = d := Option.some.inj (hc.symm.trans hd)
  simp [State.checkGlobal, hc, hfirst, hlast]

/-- R112: a thread that differs from its lane's in its progress alone. -/
def Machine.Lane.onward (v : Lane) (r : Row) (x : Fields) (th : Thread) : Prop :=
  (∀ st pc since ahead clkHi peerBuf wordBuf heldBy,
    { th with st := st, pc := pc, since := since, ahead := ahead, clkHi := clkHi, peerBuf := peerBuf, wordBuf := wordBuf, heldBy := heldBy } =
    { v.th with st := st, pc := pc, since := since, ahead := ahead, clkHi := clkHi, peerBuf := peerBuf, wordBuf := wordBuf, heldBy := heldBy }) ∧
  (readsClock r x = false → th.clkHi = v.th.clkHi)

/-- An instruction that leaves every thread but its lane's, and that one but for its progress, still does when the lane has gone on. -/
theorem finish_onward {s u : State} {v : Lane} {r : Row} {x : Fields} {th : Thread} (hmine : Store.get u.threads v.key = some th)
    (hth : v.onward r x th) (hothers : ∀ k, k ≠ v.key → Store.get u.threads k = Store.get s.threads k) :
    (∀ k, k ≠ v.key → Store.get (u.finish v r x).threads k = Store.get s.threads k) ∧
      ∃ th', Store.get (u.finish v r x).threads v.key = some th' ∧ v.onward r x th' := by
  obtain ⟨hrest, th', hget, hsame, hclock⟩ := finish_thread u v r x th hmine
  exact ⟨fun k hk => (hrest k hk).trans (hothers k hk), th', hget,
    fun _ _ _ _ _ _ _ _ => (hsame ..).trans (hth.1 ..), fun hc => (hclock hc).trans (hth.2 hc)⟩

section st
variable {x : Fields} {s : State} {r : Row} {v : Lane} {t : Xlat}

/-- R249: the access of an ST of one piece. -/
def Machine.Lane.storeAccess (v : Lane) (x : Fields) : Access :=
  { v.blankAccess .store (sizeBytes x.sizeCode) 0 with
    va := v.address x, size := sizeBytes x.sizeCode, data := toBytes (sizeBytes x.sizeCode) (v.rd (Fields.sizeRegs x.sizeCode) x.b) }

theorem store_one (hfirst : v.admits s (v.address x)) (hlast : v.admits s (v.address x + sizeBytes x.sizeCode - 1))
    (hpiece : v.address x % 4096 + sizeBytes x.sizeCode ≤ 4096) (hplain : x.fn.getLsbD 5 = false) :
    v.store x s = .done (s.present v.key [v.storeAccess x]) := by
  have hdata : (toBytes (sizeBytes x.sizeCode) (v.rd (Fields.sizeRegs x.sizeCode) x.b)).take (sizeBytes x.sizeCode) =
      toBytes (sizeBytes x.sizeCode) (v.rd (Fields.sizeRegs x.sizeCode) x.b) := List.take_of_length_le (toBytes_length ..).le
  simp only [Lane.store, hplain, pieces_one hpiece, checkGlobal_admitted hfirst hlast, List.map_cons, List.map_nil, List.drop_zero, hdata]
  rfl

/-- The state in which an ST that translates is performed: its number is taken, and its thread keeps nothing. -/
def Machine.State.storing (s : State) (v : Lane) : State :=
  ({ s with nextOp := s.nextOp + 1 } : State).setThread v.key { v.th with kept := [], ahead := 0 }

theorem exec_st (hi : Issues (.st x) r x s [v]) (hv : v.active x.g x.gn = true) (hfirst : v.admits s (v.address x))
    (hlast : v.admits s (v.address x + sizeBytes x.sizeCode - 1)) (hpiece : v.address x % 4096 + sizeBytes x.sizeCode ≤ 4096)
    (hplain : x.fn.getLsbD 5 = false) (hkept : v.th.kept = []) (hset : v.settled s) (hpage : v.page s (v.address x) .store = some t)
    (hpeer : t.peer = none) (hkind : t.kind ≠ 0) :
    exec (.st x) s = .next (((s.tick.storing v).performStore v.core v.g.ctx t (v.storeAccess x).data).finish v r x).settle.moved := by
  change issue (.st x) (specOf (.st x) fun v s => v.store x s) s = _
  rw [specOf_eq hi.row]
  refine alone_done hi (alone_asks hv rfl rfl rfl rfl rfl rfl rfl) hv ?_
  refine (store_one (s := s.tick) hfirst hlast hpiece hplain).trans (congrArg Act.done ?_)
  exact present_store (gather_thread hi.lanes v (by simp)) (tick_group hi) hkept hpage hpeer hkind hset rfl rfl rfl rfl rfl

end st

/-- R51, R56: what a core asks of its port for one line of a store: a plain write, through the leaf's page. -/
def writeRequest (core ctx : Nat) (t : Xlat) (p : Nat × List Byte) : PortReq :=
  { input := core, output := firstOut core p.1
    req := { pa := p.1, size := p.2.length, code := 0, data := p.2, cas := [], ra := false, returns := false, op := 0, off := 0, cmp := t.cmp, ctx := ctx,
             launch := 0, who := 0, va := 0, cl := t.cl, wp := t.wp, ep := t.ep } }

/-- R51, R56: beside its thread's progress, an ST changes its core's copy of the line and the requests at its core's port. -/
theorem storing_finish_frame {s : State} {r : Row} {x : Fields} {v : Lane} {t : Xlat} {bs : List Byte} (hcut : s.bridgeCut v.core t.pa = false) :
    let u := ((s.tick.storing v).performStore v.core v.g.ctx t bs).finish v r x
    u = { s with
      threads := u.threads, loadCache := u.loadCache, upsets := clearCached s.upsets v.core t.pa bs.length, now := s.now + 1, armed := false,
      gather := none, sensed := [], nextOp := s.nextOp + 1,
      portHeld := s.portHeld ++ (lineParts (bs.length / 128 + 2) t.pa bs).map (writeRequest v.core v.g.ctx t) } := by
  intro u
  have hperform := performStore_frame (s.tick.storing v) v.core v.g.ctx t bs hcut
  have hcache : u.loadCache = ((s.tick.storing v).performStore v.core v.g.ctx t bs).loadCache := State.finish_loadCache ..
  calc u = { (s.tick.storing v).performStore v.core v.g.ctx t bs with threads := u.threads } := finish_frame ..
    _ = _ := by rw [hcache, hperform]; rfl

theorem storing_finish_onward {s : State} {r : Row} {x : Fields} {v : Lane} {t : Xlat} {bs : List Byte} (hcut : s.bridgeCut v.core t.pa = false)
    (hkept : v.th.kept = []) :
    let u := ((s.tick.storing v).performStore v.core v.g.ctx t bs).finish v r x
    (∀ k, k ≠ v.key → Store.get u.threads k = Store.get s.threads k) ∧ ∃ th, Store.get u.threads v.key = some th ∧ v.onward r x th := by
  have hthreads : ((s.tick.storing v).performStore v.core v.g.ctx t bs).threads =
      Store.put s.threads v.key { v.th with kept := [], ahead := 0 } := by
    rw [performStore_frame (s.tick.storing v) v.core v.g.ctx t bs hcut]
    rfl
  refine finish_onward (th := { v.th with kept := [], ahead := 0 }) (by rw [hthreads, Store.get_put]) ?_
    fun k hk => by rw [hthreads, get_put_other _ _ hk]
  rw [← hkept]
  exact ⟨fun _ _ _ _ _ _ _ _ => rfl, fun _ => rfl⟩

section lineParts
variable {a : Nat} {bs : List Byte}

/-- R51: bytes within one line are asked for together. -/
theorem lineParts_one {fuel : Nat} (hbs : bs ≠ []) (h : a % 128 + bs.length ≤ 128) : lineParts (fuel + 1) a bs = [(a, bs)] := by
  have hall : bs.length ≤ 128 - a % 128 := by omega
  have hnone (k : Nat) (b : Nat) : lineParts k b [] = [] := by cases k <;> rfl
  simp [lineParts, hbs, List.take_of_length_le hall, List.drop_of_length_le hall, hnone]

/-- R51: bytes that run into a second line are asked for in two parts. -/
theorem lineParts_two {fuel : Nat} (hsize : bs.length ≤ 128) (h : 128 < a % 128 + bs.length) :
    lineParts (fuel + 2) a bs = [(a, bs.take (128 - a % 128)), (a + (128 - a % 128), bs.drop (128 - a % 128))] := by
  have hbs : bs ≠ [] := fun e => by
    have := Nat.mod_lt a (show 128 > 0 by decide)
    simp only [e, List.length_nil] at h
    omega
  have hrest : bs.drop (128 - a % 128) ≠ [] := by
    simp only [ne_eq, List.drop_eq_nil_iff]
    omega
  rw [lineParts, if_neg (by simpa using hbs)]
  dsimp only
  rw [lineParts_one hrest (by rw [List.length_drop]; omega)]

end lineParts

section apply

theorem allocate_hbm (s : State) (line prio : Nat) (dirty : Bool) : (s.allocate line prio dirty).hbm = s.hbm := by
  unfold State.allocate
  extract_lets set u
  change u.hbm = s.hbm
  unfold u
  split
  · rfl
  · split <;> rfl

theorem touchLine_hbm (s : State) (line cl wp ep : Nat) (store : Bool) : (s.touchLine line cl wp ep store).hbm = s.hbm := by
  unfold State.touchLine
  split
  · rfl
  · split
    · rfl
    · exact allocate_hbm ..

/-- R45 to R48: a plain write to a page without compression changes no stored byte before it is performed. -/
theorem reach_hbm {s : State} {p : Pending} (hcode : p.code = 0) (hcmp : p.cmp = false) : (s.reach p).hbm = s.hbm := by
  simp only [State.reach, hcode, hcmp, if_true, State.checkMerge, Bool.false_eq_true, if_false]
  exact foldl_same State.hbm _ (fun _ _ => touchLine_hbm ..) _ _

/-- R56: a plain write stores its data from its address on. -/
theorem applyOne_plain {s : State} {p : Pending} (hcode : p.code = 0) (hcmp : p.cmp = false) :
    (s.applyOne p).hbm = setBytes s.hbm p.pa p.data := by
  simp only [State.applyOne, hcode, hcmp, if_true, writeBytes_plain, reach_hbm hcode hcmp]

/-- R56: what memory reads as once a plain write is performed. -/
theorem applyOne_byteAt {s : State} {p : Pending} (hcode : p.code = 0) (hcmp : p.cmp = false) (hwf : Memory.wf s.hbm = true) (a : Nat) :
    (s.applyOne p).byteAt false a =
      if p.pa ≤ a ∧ a < p.pa + p.data.length then p.data.getD (a - p.pa) 0 else s.byteAt false a := by
  change Store.rd 0 (s.applyOne p).hbm a = _
  rw [applyOne_plain hcode hcmp, rd_setBytes _ _ _ _ hwf]
  rfl

end apply

section sts
variable {x : Fields} {s : State} {r : Row} {v : Lane} {off : Nat}

/-- R250: an STS of a lane of a group writes its bytes at once. -/
theorem exec_sts (hi : Issues (.sts x) r x s [v]) (hv : v.active x.g x.gn = true) (hlane : isThresher v.key = false)
    (hoff : v.spOffset x = off) (halign : off % sizeBytes x.m.toNat = 0) (hbound : off + sizeBytes x.m.toNat ≤ v.g.spLen)
    (hboard : s.boardBlocks v (v.g.pool off) (v.g.pool (off + sizeBytes x.m.toNat - 1)) true = false) :
    exec (.sts x) s = .next ((s.tick.spWrite v.th.gid off (toBytes (sizeBytes x.m.toNat) (v.rd (Fields.sizeRegs x.m.toNat) x.b))).finish v r
      x).settle.moved := by
  have htrap : v.g.plainTrap off (sizeBytes x.m.toNat) = none := plainTrap_none (by omega) (by omega) (by omega)
  change issue (.sts x) { specOf (.sts x) (fun v s => v.storeScratch x s) with
    stall := fun s vs => scratchWaits x true s (vs.filter fun v => !isThresher v.key) || entryWaits s vs } s = _
  rw [specOf_eq hi.row]
  refine alone_done hi (alone_asks hv rfl rfl rfl rfl rfl rfl ?stall) hv ?lane
  case stall =>
    have hfree : s.tick.boardBlocks v (v.g.pool off) (v.g.pool (off + sizeBytes x.m.toNat - 1)) true = false := hboard
    simp [scratchWaits, entryWaits, State.plainWaits, hlane, hoff, htrap, hfree]
  case lane => simp only [Lane.storeScratch, hoff, htrap, Lane.scratchStore, hlane, Bool.false_eq_true, if_false, Int.toNat_natCast]

/-- R250: beside its thread's progress, an STS changes its own group alone. -/
theorem spWrite_finish_frame (bs : List Byte) :
    let u := (s.tick.spWrite v.th.gid off bs).finish v r x
    u = { s with threads := u.threads, groups := u.groups, now := s.now + 1, armed := false, gather := none, sensed := [] } := by
  intro u
  have hgroups : u.groups = (s.tick.spWrite v.th.gid off bs).groups := State.finish_groups ..
  calc u = { s.tick.spWrite v.th.gid off bs with threads := u.threads } := finish_frame ..
    _ = _ := by rw [hgroups]; rfl

theorem spWrite_finish_onward (bs : List Byte) (hthread : Store.get s.threads v.key = some v.th) :
    let u := (s.tick.spWrite v.th.gid off bs).finish v r x
    (∀ k, k ≠ v.key → Store.get u.threads k = Store.get s.threads k) ∧ ∃ th, Store.get u.threads v.key = some th ∧ v.onward r x th :=
  finish_onward (th := v.th) hthread ⟨fun _ _ _ _ _ _ _ _ => rfl, fun _ => rfl⟩ fun _ _ => rfl

/-- R250: what a scratchpad reads as once bytes are written. -/
theorem spWrite_rd (g : Group) (bs : List Byte) (hwf : Memory.wf g.sp = true) (a : Nat) :
    Store.rd 0 (g.spWrite off bs).sp a = if off ≤ a ∧ a < off + bs.length then bs.getD (a - off) 0 else Store.rd 0 g.sp a :=
  rd_setBytes bs g.sp off a hwf

end sts

/-- Settles O8: an ST asks at its port, its write stores its bytes alone when it is performed, and an STS stores its bytes at once. -/
theorem storeFrames : Obligations.StoreFrames := by
  unfold Obligations.StoreFrames
  intro x s r v hv n va onward size off alone
  have hva : v.address x = va := address_eq v x
  refine ⟨?asks, ?performed, ?scratch⟩
  case asks =>
    intro hi hfirst hlast hpiece hplain hkept _ hset t hpage hpeer hkind hcut bytes asked
    have hbytes : (v.storeAccess x).data = bytes := congrArg (fun k => toBytes n (v.rd k x.b)) (sizeRegs_eq x.sizeCode)
    have hlen : bytes.length = n := toBytes_length ..
    have hn : 1 ≤ n ∧ n ≤ 64 := ⟨Nat.one_le_two_pow, Nat.pow_le_pow_right (n := 2) (by decide) (show x.fn.toNat % 8 - 1 ≤ 6 by omega)⟩
    have hne : bytes ≠ [] := List.ne_nil_of_length_pos (by omega)
    have hexec := exec_st hi hv (hva ▸ hfirst) (hva ▸ hlast) (hva ▸ hpiece) hplain hkept hset (hva ▸ hpage) hpeer hkind
    have hframe := storing_finish_frame (s := s) (r := r) (x := x) (v := v) (t := t) (bs := bytes) hcut
    rw [hbytes] at hexec
    rw [hlen] at hframe
    refine ⟨_, hexec, storing_finish_onward hcut hkept, hframe, fun hin => ?_, fun hout => ?_⟩
    · exact lineParts_one hne (hlen.symm ▸ hin)
    · exact lineParts_two (by omega) (hlen.symm ▸ hout)
  case performed =>
    intro u p hcode hcmp hwf
    refine ⟨fun a ha => ?_, fun k hk => ?_⟩
    · rw [applyOne_byteAt hcode hcmp hwf, if_neg (by omega)]
    · rw [applyOne_byteAt hcode hcmp hwf, if_pos (by omega), Nat.add_sub_cancel_left]
  case scratch =>
    intro hi hlane hpos halign hbound hboard
    have hoff : v.spOffset x = off := (spOffset_eq v x).trans (Int.toNat_of_nonneg hpos).symm
    have hexec := exec_sts hi hv hlane hoff halign hbound hboard
    have hg : Store.get s.groups v.th.gid = some v.g := alone_group hi
    rw [sizeRegs_eq] at hexec
    have hgroups (u : State) : (u.finish v r x).groups = u.groups := State.finish_groups ..
    refine ⟨_, v.g.spWrite off (toBytes size (v.rd (Fields.dataRegs size) x.b)), hexec,
      spWrite_finish_onward _ (gather_thread hi.lanes v (by simp)), spWrite_finish_frame _, fun k hk => ?others, ?mine, rfl,
      fun hwf => ⟨Memory.wf_setBytes _ _ _ hwf, fun a ha => ?outside, fun k hk => ?stored⟩⟩
    case others => rw [hgroups]; exact get_upd_other _ _ hk
    case mine => rw [hgroups]; exact get_upd_same _ _ hg
    case outside => rw [spWrite_rd _ _ hwf, toBytes_length, if_neg (by omega)]
    case stored => rw [spWrite_rd _ _ hwf, toBytes_length, if_pos (by omega), Nat.add_sub_cancel_left]

end Sys2Proof
end

section
/-!
PROOFS. Scratchpad queues (R73 to R77, R264 to R266, R371, R405).
-/
namespace Sys2Proof
open Machine

/-- R169: a gather of one active lane, of an instruction that has nothing of its own but a stall, completes. -/
theorem alone_completes {i : Instr} {r : Row} {x : Fields} {s u : State} {v : Lane} {f : Lane → State → Act} {stall : State → List Lane → Bool}
    (hexec : exec i s = issue i { specOf i f with stall := stall } s) (hi : Issues i r x s [v]) (hv : v.active x.g x.gn = true)
    (hstall : stall s.tick [v] = false) (hlane : f v s.tick = .done u) : exec i s = .next (u.finish v r x).settle.moved := by
  rw [hexec, specOf_eq hi.row]
  exact alone_done hi (alone_asks hv rfl rfl rfl rfl rfl rfl hstall) hv hlane

/-- R118: the same for a lane that waits at its instruction. -/
theorem alone_waits {i : Instr} {r : Row} {x : Fields} {s u : State} {v : Lane} {w : Wait} {f : Lane → State → Act}
    {stall : State → List Lane → Bool}
    (hexec : exec i s = issue i { specOf i f with stall := stall } s) (hi : Issues i r x s [v]) (hv : v.active x.g x.gn = true)
    (hstall : stall s.tick [v] = false) (hlane : f v s.tick = .wait u w) :
    exec i s = .next ((u.waitAt v w).latchClock v (readsClock r x)).settle.moved := by
  rw [hexec, specOf_eq hi.row]
  exact alone_wait hi (alone_asks hv rfl rfl rfl rfl rfl rfl hstall) hv hlane

/-- R371: a fencing synchronisation of a thread with no access at peers does not wait. -/
theorem fencingWaits_settled {v : Lane} {s : State} (h : v.settled s) : fencingWaits s.tick [v] = false := by
  have hfree : s.tick.fencing v.key = false := h
  simp [fencingWaits, hfree]

/-- R367: a release of a thread with no access at peers does not wait. -/
theorem releaseWaits_settled {v : Lane} {s : State} (h : v.settled s) : releaseWaits s.tick [v] = false := by
  have hfree : s.tick.releasing v.key = false := releasing_settled h
  simp [releaseWaits, hfree]

section queues
variable {i : Instr} {r : Row} {x : Fields} {s u : State} {v : Lane} {q : Queue}

/-- R73: the queue that a lane's instruction names, as the lane's group holds it. -/
theorem queue_eq (hu : u.group v.th.gid = some v.g) : v.queue u x = Store.get v.g.queues (x.imm.toNat % 16) := by
  rw [Lane.queue, hu, Option.bind_some, immBits_low]

/-- R264: the words that QDEF accepts: its geometry's fields are legal, its slots fit, and no slot of the queue that it replaces is in use. -/
structure Machine.Lane.DefinesQueue (v : Lane) (x : Fields) : Prop where
  reserved : (v.r32 x.b).toNat < 2 ^ 24
  align : (v.r32 x.b).toNat % 2 ^ 17 % 16 = 0
  size : 0 < (v.r32 x.b).toNat % 2 ^ 17 ∧ (v.r32 x.b).toNat % 2 ^ 17 ≤ 65536
  slots : 0 < (v.r32 x.b).toNat / 2 ^ 17 ∧ (v.r32 x.b).toNat / 2 ^ 17 ≤ 64
  fits : (v.r32 x.a).toNat + (v.r32 x.b).toNat / 2 ^ 17 * ((v.r32 x.b).toNat % 2 ^ 17) ≤ v.g.spLen
  gang : x.imm.getLsbD 4 = true → 1 < v.g.gangSize
  sender : x.imm.toNat / 2 ^ 5 % 2 ^ 3 < v.g.gangSize
  free : ∀ p, Store.get v.g.queues (x.imm.toNat % 16) = some p → ∀ t ∈ p.slots, t = .free

/-- R73, R264: the queue that QDEF sets up. -/
def Machine.Lane.newQueue (v : Lane) (x : Fields) : Queue :=
  { base := (v.r32 x.a).toNat, size := (v.r32 x.b).toNat % 2 ^ 17, n := (v.r32 x.b).toNat / 2 ^ 17, mcast := x.imm.getLsbD 4,
    sender := x.imm.toNat / 2 ^ 5 % 2 ^ 3, free := List.range ((v.r32 x.b).toNat / 2 ^ 17), filled := [],
    slots := List.replicate ((v.r32 x.b).toNat / 2 ^ 17) .free,
    engines := ((Store.get v.g.queues (x.imm.toNat % 16)).map Queue.engines).getD [], sent := 0,
    credits := List.replicate v.g.gangSize ((v.r32 x.b).toNat / 2 ^ 17), ring := [] }

theorem defineQueue_legal (hu : u.group v.th.gid = some v.g) (h : v.DefinesQueue x) :
    v.defineQueue x u = .done (u.updGroup v.th.gid fun g => { g with queues := Store.put g.queues (x.imm.toNat % 16) (v.newQueue x) }) := by
  obtain ⟨hreserved, halign, ⟨hsize, hsize'⟩, ⟨hslots, hslots'⟩, hfits, hgang, hsender, hfree⟩ := h
  have hbits0 : bits (v.r32 x.b).toNat 16 0 = (v.r32 x.b).toNat % 2 ^ 17 := by simp [bits]
  have hbits17 : bits (v.r32 x.b).toNat 23 17 = (v.r32 x.b).toNat / 2 ^ 17 := Nat.mod_eq_of_lt (by omega)
  have hbits24 : bits (v.r32 x.b).toNat 31 24 = 0 := by rw [bits, Nat.div_eq_of_lt hreserved, Nat.zero_mod]
  have hbits5 : x.immBits 7 5 = x.imm.toNat / 2 ^ 5 % 2 ^ 3 := rfl
  have hmulti : (x.imm.getLsbD 4 && decide (v.g.gangSize ≤ 1)) = false := by
    cases hm : x.imm.getLsbD 4
    · rfl
    · simpa using hgang hm
  simp only [Lane.defineQueue, hu, Option.getD_some, hbits0, hbits17, hbits24, hbits5, immBits_low, halign, hmulti, Lane.newQueue]
  refine if_neg fun hbad => ?_
  simp only [Bool.or_eq_true, decide_eq_true_eq, Bool.false_eq_true, or_false] at hbad
  rcases hbad with hbad | hbusy
  · omega
  · split at hbusy
    case h_1 p hq =>
      obtain ⟨t, ht, hused⟩ := List.any_eq_true.mp hbusy
      exact absurd (hfree p hq t ht) (bne_iff_ne.mp hused)
    case h_2 => exact Bool.false_ne_true hbusy

/-- R74: what a pop of handle h leaves of its queue. -/
def Machine.Queue.popped (q : Queue) (filled : Bool) (h : Nat) : Queue :=
  { q with free := if filled then q.free else q.free.filter (· != h), filled := if filled then q.filled.filter (· != h) else q.filled,
           slots := q.slots.set h .held }

/-- R74, R75, R266: a pop outside RECORD and REPLAY takes the head of its list, the filled one as an acquire. -/
theorem pop_head {filled : Bool} {h : Nat} {rest : List Nat} (hu : u.group v.th.gid = some v.g)
    (hq : Store.get v.g.queues (x.imm.toNat % 16) = some q) (hplain : u.mode v.g.ctx < 2) (hlist : (if filled then q.filled else q.free) = h :: rest) :
    v.pop x filled u = .done (
      let w := (v.wr (u.updGroup v.th.gid fun g => g.updQueue (x.imm.toNat % 16) fun p => p.popped filled h) 1 x.d h).progress v.g.ctx
      if filled then w.invalidateCache v.core else if x.imm.toNat % 16 = 0 then w.notePush v.th.gid else w) := by
  simp only [Lane.pop, queue_eq hu, hq, immBits_low, tryPop_some hu hq hplain hlist, places_one, wr_one]
  rfl

/-- R74: a pop of an empty list waits. -/
theorem pop_empty {filled : Bool} (hu : u.group v.th.gid = some v.g) (hq : Store.get v.g.queues (x.imm.toNat % 16) = some q)
    (hplain : u.mode v.g.ctx < 2) (hlist : (if filled then q.filled else q.free) = []) :
    v.pop x filled u = .wait u (.pop (x.imm.toNat % 16) filled ((v.places 1 x.d).headD .zero)) := by
  simp only [Lane.pop, queue_eq hu, hq, immBits_low, tryPop_none hu hq hplain hlist, Bool.false_eq_true, if_false]

/-- R74: a handle that the lane's group holds, as the operand of a push. -/
def Machine.Lane.holds (v : Lane) (x : Fields) (q : Queue) (h : Nat) : Prop :=
  Store.get v.g.queues (x.imm.toNat % 16) = some q ∧ (v.r32 x.a).toNat = h ∧ h < q.n ∧ q.slots.getD h .free = .held

theorem heldHandle_holds {h : Nat} (hu : u.group v.th.gid = some v.g) (hheld : v.holds x q h) : v.heldHandle x u = some (q, h) := by
  obtain ⟨hq, rfl, hlt, hslot⟩ := hheld
  simp only [Lane.heldHandle, queue_eq hu, hq, hslot, hlt, decide_true, beq_self_eq_true, Bool.and_self, if_true]

theorem pushFilled_held {h : Nat} (hu : u.group v.th.gid = some v.g) (hheld : v.holds x q h) :
    v.pushFilled x u = .done ((u.drainAll.updGroup v.th.gid fun g => g.updQueue (x.imm.toNat % 16) fun p =>
      { p with filled := p.filled ++ [h], slots := p.slots.set h .filled }).progress v.g.ctx) := by
  simp only [Lane.pushFilled, heldHandle_holds hu hheld, immBits_low]

/-- R74, R77: what a QPUSH.E of handle h leaves of its queue. -/
def Machine.Queue.emptied (q : Queue) (h : Nat) : Queue :=
  { q with free := q.free ++ [h], slots := q.slots.set h .free, ring := if q.mcast then q.ring.drop 1 else q.ring }

/-- Changes that agree on the lane's queue as it stands leave the same. -/
theorem updGroup_updQueue_congr {f f' : Queue → Queue} {n : Nat} (hu : u.group v.th.gid = some v.g) (hq : Store.get v.g.queues n = some q)
    (h : f q = f' q) : (u.updGroup v.th.gid fun g => g.updQueue n f) = u.updGroup v.th.gid fun g => g.updQueue n f' :=
  updGroup_congr hu (updQueue_congr hq h)

/-- R74: a QPUSH.E on a queue that is no multicast's frees its slot. -/
theorem pushEmpty_held {h : Nat} (hu : u.group v.th.gid = some v.g) (hheld : v.holds x q h) (hmulti : q.mcast = false) :
    v.pushEmpty x u = .done ((u.updGroup v.th.gid fun g => g.updQueue (x.imm.toNat % 16) fun p =>
      { p with free := p.free ++ [h], slots := p.slots.set h .free }).progress v.g.ctx) := by
  rw [← updGroup_updQueue_congr (f := fun p => p.emptied h) hu hheld.1 (by simp [Queue.emptied, hmulti])]
  simp only [Lane.pushEmpty, heldHandle_holds hu hheld, immBits_low, hmulti, Bool.false_and, Bool.false_eq_true, if_false, Queue.emptied]

/-- R77: on a multicast queue the oldest landed slot is freed, and its sender gets the member's unit back. -/
theorem pushEmpty_multicast {h t : Nat} (hu : u.group v.th.gid = some v.g) (hheld : v.holds x q h) (hmulti : q.mcast = true)
    (hring : q.ring.head? = some h) :
    let freed := u.updGroup v.th.gid fun g => g.updQueue (x.imm.toNat % 16) fun p =>
      { p with free := p.free ++ [h], slots := p.slots.set h .free, ring := p.ring.drop 1 }
    freed.memberGid v.g q.sender = some t → v.pushEmpty x u = .done ((freed.updGroup t fun g => g.updQueue (x.imm.toNat % 16) fun p =>
      { p with credits := p.credits.zipIdx.map fun c => if c.2 = v.g.member then c.1 + 1 else c.1 }).progress v.g.ctx) := by
  intro freed ht
  have hfreed : (u.updGroup v.th.gid fun g => g.updQueue (x.imm.toNat % 16) fun p => p.emptied h) = freed :=
    updGroup_updQueue_congr hu hheld.1 (by simp [Queue.emptied, hmulti])
  simp only [Queue.emptied] at hfreed
  simp only [Lane.pushEmpty, heldHandle_holds hu hheld, immBits_low, hmulti, hring, bne_self_eq_false, Bool.and_false, Bool.false_eq_true, if_false,
    if_true, hfreed, ht]

/-- R265: the word of QSTAT, its bit for a multicast written out. -/
theorem status_eq (q : Queue) : q.status = (if q.mcast then 2 ^ 24 else 0) + q.n * 2 ^ 16 + q.free.length * 2 ^ 8 + q.filled.length := by
  unfold Queue.status
  cases q.mcast <;> simp [boolNat]

/-- R265: QSTAT reads the counts of the queue that it names. -/
theorem exec_qstat (hi : Issues (.qstat x) r x s [v]) (hv : v.active x.g x.gn = true) (hq : Store.get v.g.queues (x.imm.toNat % 16) = some q) :
    exec (.qstat x) s = .next ((v.wr s.tick 1 x.d q.status).finish v r x).settle.moved := by
  refine alone_completes (stall := fun _ _ => false) rfl hi hv rfl ?_
  simp only [queue_eq (tick_group hi), hq, wr_one]

end queues

/-- Settles O30: one lemma for each way that an operation of a queue ends, and the stall of the fencing ones. -/
theorem scratchpadQueues : Obligations.ScratchpadQueues := by
  unfold Obligations.ScratchpadQueues
  intro x s q n names held plain upd freed geo
  refine ⟨?qdef, ?popE, ?popF, ?waitE, ?waitF, ?pushF, ?pushE, ?multicast, ?qstat⟩
  case qdef =>
    rintro r v hi hv ⟨hreserved, halign, hsize, hsize', hslots, hslots', hfits, hgang, hsender, hfree⟩
    exact alone_completes (stall := fun _ _ => false) rfl hi hv rfl
      (defineQueue_legal (tick_group hi) ⟨hreserved, halign, ⟨hsize, hsize'⟩, ⟨hslots, hslots'⟩, hfits, hgang, hsender, hfree⟩)
  case popE =>
    rintro h rest r v hi hv ⟨hq, hplain, hlist⟩
    exact alone_completes (stall := fun _ _ => false) rfl hi hv rfl (pop_head (filled := false) (tick_group hi) hq hplain hlist)
  case popF =>
    rintro h rest r v hi hv ⟨hq, hplain, hsettled, hlist⟩
    exact alone_completes rfl hi hv (fencingWaits_settled hsettled) (pop_head (filled := true) (tick_group hi) hq hplain hlist)
  case waitE =>
    rintro r v hi hv ⟨hq, hplain, hlist⟩
    exact alone_waits (stall := fun _ _ => false) rfl hi hv rfl (pop_empty (filled := false) (tick_group hi) hq hplain hlist)
  case waitF =>
    rintro r v hi hv ⟨hq, hplain, hsettled, hlist⟩
    exact alone_waits rfl hi hv (fencingWaits_settled hsettled) (pop_empty (filled := true) (tick_group hi) hq hplain hlist)
  case pushF =>
    rintro h r v hi hv ⟨hheld, hsettled⟩
    exact alone_completes rfl hi hv (fencingWaits_settled hsettled) (pushFilled_held (tick_group hi) hheld)
  case pushE =>
    rintro h r v hi hv ⟨hheld, hmulti⟩
    exact alone_completes (stall := fun _ _ => false) rfl hi hv rfl (pushEmpty_held (tick_group hi) hheld hmulti)
  case multicast =>
    rintro h t r v hi hv ⟨hheld, hmulti, hring, ht⟩
    exact alone_completes (stall := fun _ _ => false) rfl hi hv rfl (pushEmpty_multicast (tick_group hi) hheld hmulti hring ht)
  case qstat =>
    intro r v hi hv hq
    rw [← status_eq]
    exact exec_qstat hi hv hq

end Sys2Proof
end

section
/-!
PROOFS. Waits on timelines, and TLADV (R80 to R84, R270).
-/
namespace Sys2Proof
open Machine

section timelines
variable {i : Instr} {r : Row} {x : Fields} {s u : State} {v : Lane} {t : Xlat}

/-- R80: the value of the counter that a lane's instruction names, as the lane's group holds it. -/
theorem tcValue_eq (hu : u.group v.th.gid = some v.g) (tc : Nat) : u.tcValue v.th.gid tc = (v.g.tcs.getD tc ⟨0, 0, []⟩).value := by
  rw [State.tcValue, hu, Option.map_some, Option.getD_some]

theorem immBits_counter (x : Fields) : x.immBits 1 0 = x.imm.toNat % 4 := by simp [Fields.immBits]

/-- R80, R105: TCW goes on, as an acquire, or waits. -/
theorem timelineWait_eq (hu : u.group v.th.gid = some v.g) : v.timelineWait x u =
    if (v.r64 x.b).toNat ≤ (v.g.tcs.getD (x.imm.toNat % 4) ⟨0, 0, []⟩).value then .done (u.invalidateCache v.core)
    else .wait u (.timeline (x.imm.toNat % 4) (v.r64 x.b).toNat) := by
  simp only [Lane.timelineWait, tcValue_eq hu, immBits_counter]

/-- R80, R105: TCW.T writes whether the value is reached, and is an acquire when it is. -/
theorem exec_tcwT (hi : Issues (.tcwT x) r x s [v]) (hv : v.active x.g x.gn = true) {ok : Bool}
    (hok : decide ((v.r64 x.b).toNat ≤ (v.g.tcs.getD (x.imm.toNat % 4) ⟨0, 0, []⟩).value) = ok) :
    exec (.tcwT x) s = .next ((v.wrPred (if ok then s.tick.invalidateCache v.core else s.tick) x.d ok).finish v r x).settle.moved := by
  subst hok
  refine alone_completes (stall := fun _ _ => false) rfl hi hv rfl ?_
  simp only [tcValue_eq (tick_group hi), immBits_counter]

/-- R82: the word of a memory-resident timeline as a lane's instruction finds it: aligned, its page held, of this module and of the right kind. -/
structure Machine.Lane.FindsWord (v : Lane) (s : State) (x : Fields) (kind : AccessKind) (t : Xlat) : Prop where
  align : (v.r64 x.a).toNat % 8 = 0
  first : v.admits s (v.r64 x.a).toNat
  last : v.admits s ((v.r64 x.a).toNat + 7)
  page : v.page s (v.r64 x.a).toNat kind = some t
  here : t.peer = none
  kind : t.kind = 1
  settled : v.settled s

/-- R82: a word that passes the checks is handed to what is done with it. -/
theorem timelineWord_finds {kind : AccessKind} {k : State → Xlat → Act} (h : v.FindsWord u x kind t) : v.timelineWord x u kind k = k u t := by
  obtain ⟨halign, hfirst, hlast, hpage, hhere, hkind, hsettled⟩ := h
  rw [Lane.timelineWord, if_neg (not_not.mpr halign), access_page hfirst hlast hpage hhere hsettled, if_neg (not_not.mpr hkind)]

/-- R82: the word of a timeline as it is read at its home slice. -/
def Machine.Lane.readWord (v : Lane) (u : State) (t : Xlat) : State × List Byte × Option Nat := u.performLoad v.core v.g.ctx v.key v.th.pc t 8 true

/-- R82, R425: a word that holds no error is the timeline's value. -/
theorem timelineValue_clean (hclean : (v.readWord u t).2.2 = none) :
    u.timelineValue v t = ((v.readWord u t).1, ofBytes (v.readWord u t).2.1) := by
  have hread : (u.performLoad v.core v.g.ctx v.key v.th.pc t 8 true).2.2 = none := hclean
  simp only [State.timelineValue, hread, Lane.readWord]

/-- R83: a word that a lane's TLW or TLW.T sees, and its value. -/
def Machine.Lane.seesWord (v : Lane) (u : State) (x : Fields) (t : Xlat) (k : Nat) : Prop :=
  v.FindsWord u x .load t ∧ (v.readWord u t).2.2 = none ∧ ofBytes (v.readWord u t).2.1 = k

/-- R83, R105: TLW goes on, as an acquire, once its word is at least n. -/
theorem watch_reached {k : Nat} (h : v.seesWord u x t k) (hle : (v.r64 x.b).toNat ≤ k) :
    v.watch x none u = .done ((v.readWord u t).1.invalidateCache v.core) := by
  obtain ⟨hfinds, hclean, rfl⟩ := h
  simp only [Lane.watch, timelineWord_finds hfinds, hfinds.here, Option.isSome_none, Bool.false_eq_true, if_false, timelineValue_clean hclean, hle,
    decide_true, if_true]

/-- R83: TLW waits while its word is below n. -/
theorem watch_waits {k : Nat} (h : v.seesWord u x t k) (hlt : k < (v.r64 x.b).toNat) :
    v.watch x none u = .wait (v.readWord u t).1 (.word (v.r64 x.a).toNat (v.r64 x.b).toNat (x.imm.getLsbD 0) false none) := by
  obtain ⟨hfinds, hclean, rfl⟩ := h
  simp only [Lane.watch, timelineWord_finds hfinds, hfinds.here, Option.isSome_none, Option.isNone_none, Bool.and_true, Bool.false_eq_true, if_false,
    timelineValue_clean hclean, decide_eq_false (Nat.not_le.mpr hlt)]

/-- R83, R105: TLW.T writes whether its word is at least n, and is an acquire when it is. -/
theorem watch_tests {k : Nat} (h : v.seesWord u x t k) : v.watch x (some x.d.toNat) u = .done (v.wrPred
    (if (v.r64 x.b).toNat ≤ k then (v.readWord u t).1.invalidateCache v.core else (v.readWord u t).1) x.d (decide ((v.r64 x.b).toNat ≤ k))) := by
  obtain ⟨hfinds, hclean, rfl⟩ := h
  simp only [Lane.watch, timelineWord_finds hfinds, hfinds.here, Option.isSome_none, Bool.false_eq_true, if_false, timelineValue_clean hclean,
    decide_eq_true_eq, Lane.wrPred]

/-- R82: the atomic by which TLADV raises its word to the operand. -/
def Machine.Lane.raiseRequest (v : Lane) (x : Fields) (t : Xlat) : Pending :=
  { pa := t.pa, size := 8, code := 4, data := toBytes 8 (v.r64 x.b).toNat, cas := [], ra := false, returns := false, op := 0, off := 0, cmp := t.cmp,
    ctx := v.g.ctx, launch := v.g.launch, who := v.wid, va := (v.r64 x.a).toNat, cl := t.cl, wp := t.wp, ep := t.ep }

/-- R82: what TLADV leaves once everything earlier has been performed: the word raised. -/
def Machine.State.raiseWord (u : State) (v : Lane) (x : Fields) (t : Xlat) : State :=
  ((u.dropCopies v.core t.pa 8).request v.core (v.raiseRequest x t)).drainFor t.pa 8

/-- R55: what memory does leaves the bridge as it stands. -/
theorem bridgeCut_drainAll (u : State) (core a : Nat) : u.drainAll.bridgeCut core a = u.bridgeCut core a := by
  rw [State.bridgeCut, State.portCut, (drainAll_mem u).frame]
  rfl

/-- R82, R428: TLADV raises its word at the home slice, a progress event when it was below the operand. -/
theorem tladvance_raises (h : v.FindsWord u x .atomic t) (hcut : u.bridgeCut v.core t.pa = false) :
    v.tladvance x u = .done (
      if (u.drainAll.raiseWord v x t).isPoisoned t.pa 8 = false ∧ ofBytes (u.drainAll.bytesAt t.cmp t.pa 8) < (v.r64 x.b).toNat
      then (u.drainAll.raiseWord v x t).progress v.g.ctx else u.drainAll.raiseWord v x t) := by
  simp only [Lane.tladvance, timelineWord_finds h, h.here, bridgeCut_drainAll, hcut, Bool.false_eq_true, if_false]
  refine congrArg Act.done (if_congr ?_ rfl rfl)
  rw [Bool.and_eq_true, Bool.not_eq_true', decide_eq_true_eq]
  rfl

end timelines

/-- Settles O32: one lemma for each way that an operation of a timeline ends. -/
theorem timelines : Obligations.Timelines := by
  unfold Obligations.Timelines
  intro x s t n a tc value word_ read seen
  have hfinds {v : Lane} {kind : AccessKind} (h : word_ v kind) : v.FindsWord s.tick x kind t := by
    obtain ⟨halign, hfirst, hlast, hpage, hhere, hkind, hsettled⟩ := h
    exact ⟨halign, hfirst, hlast, hpage, hhere, hkind, hsettled⟩
  have hsees {v : Lane} {k : Nat} (h : seen v k) : v.seesWord s.tick x t k := by
    obtain ⟨hword, hclean, hvalue⟩ := h
    exact ⟨hfinds hword, hclean, hvalue⟩
  refine ⟨?tcwReached, ?tcwWaits, ?tcwTrue, ?tcwFalse, ?tlwReached, ?tlwWaits, ?tlwTests, ?advances⟩
  case tcwReached =>
    intro r v hi hv hle
    exact alone_completes (stall := fun _ _ => false) rfl hi hv rfl ((timelineWait_eq (tick_group hi)).trans (if_pos hle))
  case tcwWaits =>
    intro r v hi hv hlt
    exact alone_waits (stall := fun _ _ => false) rfl hi hv rfl ((timelineWait_eq (tick_group hi)).trans (if_neg (Nat.not_le.mpr hlt)))
  case tcwTrue =>
    intro r v hi hv hle
    have h := exec_tcwT hi hv (decide_eq_true hle)
    rwa [if_pos rfl] at h
  case tcwFalse =>
    intro r v hi hv hlt
    have h := exec_tcwT hi hv (decide_eq_false (Nat.not_le.mpr hlt))
    rwa [if_neg Bool.false_ne_true] at h
  case tlwReached =>
    rintro k r v hi hv ⟨hseen, hle⟩
    exact alone_completes (stall := fun _ _ => false) rfl hi hv rfl (watch_reached (hsees hseen) hle)
  case tlwWaits =>
    rintro k r v hi hv ⟨hseen, hlt⟩
    exact alone_waits (stall := fun _ _ => false) rfl hi hv rfl (watch_waits (hsees hseen) hlt)
  case tlwTests =>
    intro k r v hi hv hseen
    exact alone_completes (stall := fun _ _ => false) rfl hi hv rfl (watch_tests (hsees hseen))
  case advances =>
    rintro r v hi hv ⟨hword, hcut⟩
    have hfound := hfinds hword
    exact alone_completes rfl hi hv (releaseWaits_settled hfound.settled) (tladvance_raises hfound hcut)

end Sys2Proof
end

section
/-!
PROOFS. The ends of copies (R69 to R71, R76, R78, R97).
-/
namespace Sys2Proof.Machine

section copies
variable {s : State} {op : Nat} {o : AOp} {c : CopyOp}

/-- R76: the queue once its request of a copy has taken handle h. -/
def Queue.requested (q : Queue) (op h : Nat) (rest : List Nat) : Queue :=
  { q with free := rest, slots := q.slots.set h .engine, engines := q.engines.map fun r => if r.op == op then { r with slot := some h } else r }

/-- R76, R97: what a copy that takes handle h leaves: its queue, its destination, and the interval of its entries. -/
def State.slotTaken (s : State) (op : Nat) (o : AOp) (c : CopyOp) (g : Group) (q : Queue) (h : Nat) (rest : List Nat) : State :=
  let a := q.base + h * q.size
  let u := s.updGroup o.gid fun g => { g with queues := Store.put g.queues c.queue (q.requested op h rest) }
  { u with
    ops := Store.put u.ops op { o with kind := .copy { c with slot := some h, dsts := [a] } }
    board := u.board.map fun b => if b.op == op && b.empty then { b with lo := g.pool a, hi := g.pool (a + q.size - 1), empty := false } else b }

theorem bcpqSlotTaken_happens {g : Group} {q : Queue} {h : Nat} {rest : List Nat} {r : EngReq} (hop : Store.get s.ops op = some o)
    (hkind : o.kind = .copy c) (hform : c.form = 3) (hg : s.group o.gid = some g) (hq : Store.get g.queues c.queue = some q)
    (hfree : q.free = h :: rest) (hfirst : q.engines.find? (fun e => e.slot.isNone) = some r) (hmine : r.op = op) :
    Happens (.bcpqSlotTaken op) s (s.slotTaken op o c g q h rest) := by
  change execBcpqSlotTaken op s = _
  have hgo : (decide (c.form ≠ 3) || decide (r.op ≠ op)) = false := by simp [hform, hmine]
  simp only [execBcpqSlotTaken, hop, hkind, hg, hq, hfree, hfirst, hgo, Option.bind_some, Option.map_some, Bool.false_eq_true, if_false]
  rfl

/-- R71: the chunks of a copy, moved to its spots. -/
def State.copied (s : State) (o : AOp) (c : CopyOp) (spots : List (Nat × Nat)) : CopyRun :=
  c.chunks.foldl (fun r gs => CopyRun.chunk r o c (((s.group o.gid).map Group.ctx).getD 0) spots gs)
    { s := s, peer := s.inputs.peer.data, index := 0, fails := [] }

/-- R43: the record of a copy's first translation failure stands. -/
def State.copyRecorded (s : State) (o : AOp) (c : CopyOp) (spots : List (Nat × Nat)) : State :=
  (s.copied o c spots).s.copyRecord o c (((s.group o.gid).map Group.ctx).getD 0) (s.widOf o.thread o.gid) (s.copied o c spots).fails

/-- R69, R71: a copy completes with the status of failures: a code, the first chunk that failed and the number of failures. -/
def State.completeFailed (s : State) (op : Nat) (o : AOp) (code first n : Nat) : State :=
  (s.statusField n).1.complete op o [word (code * 2 ^ 28 + first * 2 ^ 15 + (s.statusField n).2 * 4)]

/-- R71: a copy with every receiver left completes with status 0 when no chunk failed. -/
theorem runCopy_clean {spots : List (Nat × Nat)} (h : (s.copied o c spots).fails = []) :
    s.runCopy op o c spots 0 false = (s.copyRecorded o c spots).complete op o [0] := by
  unfold State.copied at h
  simp only [State.runCopy, State.copyRecorded, State.copied, h, List.head?_nil, Option.map_none, Bool.false_eq_true, if_false, if_true]

/-- R69, R71: with every receiver left, the first chunk that failed is reported. -/
theorem runCopy_fails {spots : List (Nat × Nat)} {f : Nat × ChunkFail} {fs : List (Nat × ChunkFail)} (h : (s.copied o c spots).fails = f :: fs) :
    s.runCopy op o c spots 0 false = (s.copyRecorded o c spots).completeFailed op o f.2.code f.1 (fs.length + 1) := by
  unfold State.copied at h
  simp only [State.runCopy, State.copyRecorded, State.copied, State.completeFailed, statusWord, h, List.head?_cons, Option.map_some, List.length_cons,
    Nat.mul_zero, Nat.add_zero, Bool.false_eq_true, if_false, if_true]

/-- R69, R78: every chunk fails once for each receiver that is lost. -/
theorem runCopy_lost {spots : List (Nat × Nat)} {lost : Nat} (hlost : 0 < lost) (h : (s.copied o c spots).fails = []) :
    s.runCopy op o c spots lost false = (s.copyRecorded o c spots).completeFailed op o 5 0 (c.chunks.length * lost) := by
  unfold State.copied at h
  simp only [State.runCopy, State.copyRecorded, State.copied, State.completeFailed, statusWord, h, List.find?_nil, Option.map_none, Option.getD_none,
    List.length_nil, Nat.sub_zero, Nat.zero_add, hlost.ne', Bool.false_eq_true, if_false]

/-- R76: a BCPQ that has completed stands finished in its queue's order. -/
def State.pushed (u : State) (op : Nat) (o : AOp) (c : CopyOp) : State :=
  if c.form = 3 then u.updGroup o.gid fun g => g.updQueue c.queue fun q => q.finish op else u

/-- R71: a copy that is no multicast, with its slot taken and its receiver left, completes. -/
theorem copyCompletion_happens {t : Nat} (hop : Store.get s.ops op = some o) (hkind : o.kind = .copy c) (hready : s.copyReady op o c = true)
    (hsingle : c.form ≠ 4) (hslot : c.form = 3 → c.slot ≠ none)
    (htarget : (if c.form = 2 then (s.group o.gid).bind fun g => s.memberGid g c.member else some o.gid) = some t) :
    Happens (.copyCompletion op) s ((s.runCopy op o c [(t, c.dsts.headD 0)] 0 false).pushed op o c) := by
  change execCopyCompletion op s = _
  have hgo : (decide (c.form = 4) || decide (c.form = 3) && c.slot.isNone || !s.copyReady op o c) = false := by
    simpa [hsingle, hready] using fun h3 => Option.isSome_iff_ne_none.mpr (hslot h3)
  simp only [execCopyCompletion, hop, hkind, hgo, htarget, Bool.false_eq_true, if_false, Option.toList_some, List.map_cons, List.map_nil,
    Option.isNone_some]
  rfl

/-- R77: the receivers of a multicast whose groups are left, each with the offset of its slot. -/
def State.receivers (s : State) (c : CopyOp) (g : Group) : List (Nat × Nat) :=
  (maskMembers c.mask).filterMap fun m => (s.memberGid g m).map fun r => (r, c.dsts.getD m 0)

/-- R78: the slot of a multicast is appended on every receiver. -/
def State.landedOn (u : State) (c : CopyOp) (spots : List (Nat × Nat)) : State :=
  spots.foldl (fun u r => u.updGroup r.1 fun g => g.updQueue c.queue fun q =>
    { q with filled := q.filled ++ [c.slot.getD 0], slots := q.slots.set (c.slot.getD 0) .filled }) u

theorem bcpmCompletion_happens {g : Group} (hop : Store.get s.ops op = some o) (hkind : o.kind = .copy c) (hready : s.copyReady op o c = true)
    (hform : c.form = 4) (hg : s.group o.gid = some g) :
    Happens (.bcpmCompletion op) s ((s.runCopy op o c (s.receivers c g) ((maskMembers c.mask).length - (s.receivers c g).length) false).landedOn c
      (s.receivers c g)) := by
  change execBcpmCompletion op s = _
  have hgo : (decide (c.form ≠ 4) || !s.copyReady op o c) = false := by simp [hform, hready]
  simp only [execBcpmCompletion, hop, hkind, hg, hgo, Bool.false_eq_true, if_false]
  rfl

end copies

/-- R69: a count that its 13 bits hold stands; another is a free value of 13 bits. -/
theorem statusField_eq (s : State) (n : Nat) : (n < 8192 → s.statusField n = (s, n)) ∧ (8192 ≤ n → (s.statusField n).2 < 8192) := by
  refine ⟨fun h => if_pos h, fun h => ?_⟩
  rw [State.statusField, if_neg (Nat.not_lt.mpr h)]
  exact Nat.mod_lt _ (by decide)

end Sys2Proof.Machine

namespace Sys2Proof
open Machine

/-- Settles O44: the run of the chunks, put into the end of each kind of copy. -/
theorem copyEnds : Obligations.CopyEnds := by
  unfold Obligations.CopyEnds
  intro s op o c hop hkind ctx ready run recorded failed ended pushed landed receivers
  have hended (spots : List (Nat × Nat)) : s.runCopy op o c spots 0 false = ended spots := by
    cases hfails : (run spots).fails with
    | nil =>
      simp only [ended, hfails]
      exact runCopy_clean hfails
    | cons f fs =>
      simp only [ended, hfails]
      exact runCopy_fails hfails
  refine ⟨?takes, ?completes, ?sends, ?multicast, ?lost, statusField_eq s⟩
  case takes =>
    intro g q h rest r hform hg hq hfree hfirst hmine
    exact bcpqSlotTaken_happens hop hkind hform hg hq hfree hfirst hmine
  case completes =>
    intro hready hsingle hlocal hslot
    rw [← hended]
    exact copyCompletion_happens hop hkind hready hsingle hslot (if_neg hlocal)
  case sends =>
    intro g r hready hform hg hr
    have h := copyCompletion_happens (t := r) hop hkind hready (by omega) (by omega) (by simp [hform, hg, hr])
    rwa [State.pushed, if_neg (by omega), hended] at h
  case multicast =>
    intro g hready hform hg hall
    have h := bcpmCompletion_happens hop hkind hready hform hg
    have hlost : (maskMembers c.mask).length - (s.receivers c g).length = 0 := Nat.sub_eq_zero_of_le hall.ge
    rwa [hlost, hended] at h
  case lost =>
    intro g hready hform hg hsome hclean
    have h := bcpmCompletion_happens hop hkind hready hform hg
    have hlost : 0 < (maskMembers c.mask).length - (s.receivers c g).length := Nat.sub_pos_of_lt hsome
    rwa [runCopy_lost (spots := s.receivers c g) hlost hclean] at h

end Sys2Proof
end

section
/-!
PROOFS. Messages that arrive, and the changes of a word that a TLW notices (R82, R83, R105, R268, R269).
-/
namespace Sys2Proof.Machine

section mail
variable {s : State} {id gid : Nat} {m : Msg} {wid : DWord}

/-- R268: an earlier message of the same thread to the same port is still on its way. -/
def State.mailBehind (s : State) (id gid : Nat) (m : Msg) (wid : DWord) : Bool :=
  s.mail.any fun e => decide (e.1 < id) && e.2.1 == gid && e.2.2.2 == wid && e.2.2.1.sender == m.sender

theorem mailBehind_first (h : ∀ e ∈ s.mail, e.1 < id → e.2.1 = gid → e.2.2.2 = wid → e.2.2.1.sender ≠ m.sender) :
    s.mailBehind id gid m wid = false := by
  refine List.any_eq_false.mpr fun e he => ?_
  simp only [Bool.and_eq_true, decide_eq_true_eq, beq_iff_eq]
  rintro ⟨⟨⟨hearlier, hport⟩, hwid⟩, hsender⟩
  exact h e he hearlier hport hwid hsender

/-- R268: a message for a group that is gone is dropped and counted. -/
theorem messageArrival_drops (hmail : Store.get s.mail id = some (gid, m, wid)) (hg : s.group gid = none) (hsaved : ∀ v ∈ s.saved, v.gid ≠ gid) :
    Happens (.messageArrival id) s { s with mail := Store.del s.mail id, mailDrops := satAdd s.mailDrops 1 } := by
  have hgone : (s.saved.any fun v => v.gid == gid) = false := List.any_eq_false.mpr fun v hv => by simpa using hsaved v hv
  change execMessageArrival id s = _
  simp only [execMessageArrival, State.deliverMail, hmail, hg, hgone, Bool.false_eq_true, if_false, if_true, happen]

variable {g : Group} (hmail : Store.get s.mail id = some (gid, m, wid)) (hfirst : s.mailBehind id gid m wid = false) (hg : s.group gid = some g)
  (hplain : s.mode g.ctx < 2)
include hmail hfirst hg hplain

/-- R268: a message that matches no posted receive joins the overflow queue of its port. -/
theorem messageArrival_queues (hposts : ∀ p ∈ g.posts, p.tag ≠ m.tag ∧ p.tag ≠ 0xFFFF) (hroom : g.msgs.length < 64) :
    Happens (.messageArrival id) s
      (({ s with mail := Store.del s.mail id } : State).updGroup gid fun g => { g with msgs := g.msgs ++ [(m, wid)] }) := by
  have hnone : takeFirst (fun p : Post => tagMatches p.tag m.tag) g.posts = none := takeFirst_none fun p hp => tag_false (hposts p hp)
  have hgo : (s.mailBehind id gid m wid || decide (portRoom ≤ g.msgs.length)) = false := by
    rw [hfirst, Bool.false_or, portRoom, decide_eq_false (Nat.not_le.mpr hroom)]
  unfold State.mailBehind at hgo
  change execMessageArrival id s = _
  simp only [execMessageArrival, State.deliverMail, hmail, hg, hnone, hgo, plain_turn hplain, Option.isNone_none, Bool.true_and, Bool.not_true,
    Bool.false_eq_true, if_false, if_true, happen]

/-- R268: a message goes to the oldest posted receive that matches it, and a RECVW goes on with it. -/
theorem messageArrival_matches {before after : List Post} {p : Post} (hposts : g.posts = before ++ p :: after)
    (htag : p.tag = m.tag ∨ p.tag = 0xFFFF) (holdest : ∀ q ∈ before, q.tag ≠ m.tag ∧ q.tag ≠ 0xFFFF) :
    let u := (({ s with mail := Store.del s.mail id } : State).updGroup gid fun g => { g with posts := before ++ after }).deliverMsg p gid m wid
    Happens (.messageArrival id) s (if p.from?.isSome then u.retire p.thread else u) := by
  have hsome : takeFirst (fun p : Post => tagMatches p.tag m.tag) g.posts = some (p, before ++ after) := by
    rw [hposts]
    exact takeFirst_some (tag_true htag) fun q hq => tag_false (holdest q hq)
  have hgo := hfirst
  unfold State.mailBehind at hgo
  change execMessageArrival id s = _
  simp only [execMessageArrival, State.deliverMail, hmail, hg, hsome, hgo, plain_turn hplain, Option.isNone_some, Bool.false_and, Bool.or_self,
    Bool.not_true, Bool.false_eq_true, if_false, if_true, happen]

end mail

section notice
variable {s : State} {v : Lane} {a n : Nat} {host : Bool} (hlane : s.lanesOf [v.key] = some [v])
include hlane

/-- R83, R105: a TLW whose word in this module has reached n goes on. -/
theorem tlwChangeNoticed_reached {t : Xlat} (hst : v.th.st = .waiting (.word a n host false none)) (hpage : v.page s a .load = some t)
    (hhere : t.peer = none) (hclean : (v.readWord s t).2.2 = none) (hle : n ≤ ofBytes (v.readWord s t).2.1) :
    Happens (.tlwChangeNoticed v.key) s (((v.readWord s t).1.invalidateCache v.core).retire v.key) := by
  change execTlwChangeNoticed v.key s = _
  simp only [execTlwChangeNoticed, hlane, hst, lookup_page hpage, hhere, timelineValue_clean hclean, hle, Option.isSome_none, decide_true,
    Bool.false_eq_true, if_false, if_true, happen]

variable (hlen : s.inputs.peer.data.length = 8)
include hlen

/-- R83, R105: a TLW goes on with a word of a peer that has reached n. -/
theorem tlwChangeNoticed_peer (hst : v.th.st = .waiting (.word a n host true none)) (hle : n ≤ ofBytes s.inputs.peer.data) :
    Happens (.tlwChangeNoticed v.key) s ((s.invalidateCache v.core).retire v.key) := by
  change execTlwChangeNoticed v.key s = _
  simp only [execTlwChangeNoticed, hlane, hst, hlen, hle, decide_true, if_true, happen]

/-- R83, R105: a TLW.T goes on with the word of a peer, whatever its value. -/
theorem tlwChangeNoticed_tests {p : Nat} (hst : v.th.st = .waiting (.word a n host true (some p))) :
    let ok := decide (n ≤ ofBytes s.inputs.peer.data)
    Happens (.tlwChangeNoticed v.key) s (((if ok then s.invalidateCache v.core else s).updThread v.key fun th => th.setPred p ok).retire v.key) := by
  change execTlwChangeNoticed v.key s = _
  simp only [execTlwChangeNoticed, hlane, hst, hlen, if_true, happen]

end notice

end Sys2Proof.Machine

namespace Sys2Proof
open Machine

/-- Settles O46: one lemma for each way that a message arrives, and for each word that a waiting thread looks at. -/
theorem arrivals : Obligations.Arrivals := by
  unfold Obligations.Arrivals
  intro s
  refine ⟨?arrives, ?notices⟩
  case arrives =>
    intro id gid m wid hmail hbehind taken
    have hfirst := mailBehind_first hbehind
    exact ⟨messageArrival_drops hmail, fun g => messageArrival_queues hmail hfirst,
      fun g before p after hg hplain hposts htag holdest => messageArrival_matches hmail hfirst hg hplain hposts htag holdest⟩
  case notices =>
    intro v a n host hlane
    exact ⟨fun t => tlwChangeNoticed_reached hlane,
      fun hst hlen hle => tlwChangeNoticed_peer hlane hlen hst hle, fun p hst hlen => tlwChangeNoticed_tests hlane hlen hst⟩

end Sys2Proof
end

section
/-!
PROOFS. Blocked pops, the walker's answers, freed threads, completed groups and the thresher slot (R74, R75, R119, R131, R209, R214, R378).
-/
namespace Sys2Proof.Machine

/-- R74, R75, R266: the blocked pop that issued first takes the head of its list. -/
theorem blockedPopRelease_happens {s : State} {key n h : Nat} {filled : Bool} {dst : Dst} {th : Thread} {g : Group} {q : Queue} {rest : List Nat}
    (hth : Store.get s.threads key = some th) (hst : th.st = .waiting (.pop n filled dst)) (hg : s.group th.gid = some g)
    (hq : Store.get g.queues n = some q) (hplain : s.mode g.ctx < 2) (hfirst : s.firstPopper th.gid n filled = some key)
    (hlist : (if filled then q.filled else q.free) = h :: rest) :
    let given := ((s.updGroup th.gid fun g => g.updQueue n fun q => q.popped filled h).putDst key th.gid dst (word h)).progress g.ctx
    Happens (.blockedPopRelease key) s
      ((if filled then given.invalidateCache (coreOf key) else if n = 0 then given.notePush th.gid else given).retire key) := by
  intro given
  change execBlockedPopRelease key s = _
  have hgo : (!s.forcing (((s.group th.gid).map Group.ctx).getD 512) && s.firstPopper th.gid n filled != some key) = false := by simp [hfirst]
  simp only [execBlockedPopRelease, hth, hst, hgo, tryPop_some hg hq hplain hlist, Bool.false_eq_true, if_false, if_true]
  rfl

/-- R214: what the answer to a claim leaves: the claim and its tile gone, the predicate and the pair written. -/
def State.answered (s : State) (c : Claim) (l : Launch) (gid n : Nat) : State :=
  let served : State := { s with
    claims := s.claims.filter fun d => d.thread != c.thread
    launches := Store.put s.launches c.launch { l with walker := if n < l.tiles then n + 1 else l.walker } }
  ((served.updThread c.thread fun th => th.setPred c.pred (decide (n < l.tiles))).putDsts c.thread gid c.dst (wordsOf 2 n)).retire c.thread

/-- R214: where no choice is forced or recorded, a claim is answered. -/
theorem answerClaim_plain {s : State} {c : Claim} {l : Launch} {th : Thread} (hth : Store.get s.threads c.thread = some th) (hplain : s.mode l.ctx < 2)
    (n : Nat) : s.answerClaim c l n = s.answered c l th.gid n := by
  simp only [State.answerClaim, hth]
  rw [plain_log hplain]
  rfl

/-- R214: the first claim of a launch gets its next tile, or the count. -/
theorem twnxAnswer_happens {s : State} {c : Claim} {l : Launch} {th : Thread} (hth : Store.get s.threads c.thread = some th)
    (hl : Store.get s.launches c.launch = some l) (hplain : s.mode l.ctx < 2) (hclaim : s.claims.find? (fun d => d.thread == c.thread) = some c)
    (hfirst : s.claims.find? (fun d => d.launch == c.launch) = some c) :
    Happens (.twnxAnswer c.thread) s (s.answered c l th.gid (min l.walker l.tiles)) := by
  change execTwnxAnswer c.thread s = _
  simp only [execTwnxAnswer, hclaim, hth, hl, plain_none hplain, hfirst, Option.map_some, beq_self_eq_true, if_true, answerClaim_plain hth hplain,
    happen]

/-- R119, R209: a draining thread with nothing pending frees its slot, or leaves the thresher slot. -/
theorem threadDrainEnd_happens {s : State} {key : Nat} {th : Thread} (hth : Store.get s.threads key = some th) (hst : th.st = .draining)
    (hpend : th.pend = []) (hkept : th.kept = []) (hfence : s.fencing key = false) :
    Happens (.threadDrainEnd key) s
      (if isThresher key then { s with threads := Store.del s.threads key } else s.freeThread key th.gid) := by
  have hdrained : s.drained key th = true := by simp [State.drained, hst, hpend, hkept, hfence]
  change execThreadDrainEnd key s = _
  simp only [execThreadDrainEnd, hth, hdrained, Bool.not_true, Bool.false_eq_true, if_false, happen]

theorem performSts_launches (s : State) (op : Nat) : (s.performSts op).launches = s.launches := by
  unfold State.performSts
  split
  · rfl
  · split
    · split <;> rfl
    · rfl

/-- R101, R378: what leaves the module with a group leaves the launches as they stand. -/
theorem dropGroup_launches (s : State) (gid : Nat) : (s.dropGroup gid).launches = s.launches :=
  foldl_same State.launches _ (fun s _ => performSts_launches s _) _ _

theorem drainAll_launches (s : State) : s.drainAll.launches = s.launches := by rw [(drainAll_mem s).frame]

theorem aborted_congr {s u : State} (h : u.launches = s.launches) (g : Group) : u.aborted g = s.aborted g := by rw [State.aborted, State.aborted, h]

/-- R131, R378, R428: a group that is done ends, with a fencing release and a progress event. -/
theorem groupCompletion_happens {s : State} {gid : Nat} {g : Group} (hg : s.group gid = some g) (hlive : g.live = 0)
    (hops : ∀ e ∈ s.ops, e.2.gid ≠ gid) (hquiet : s.thresherQuiet gid g = true) (hpass : s.passDue = false) (habort : s.aborted g = false) :
    Happens (.groupCompletion gid) s (((s.drainAll.dropGroup gid).progress g.ctx).finishGang g.launch g.gang) := by
  have hnone : (s.ops.any fun o => o.2.gid == gid) = false := List.any_eq_false.mpr fun e he => by simpa using hops e he
  have hdone : (s.groupDone gid g && !s.passDue) = true := by simp [State.groupDone, hlive, hnone, hquiet, hpass]
  have hkept : (s.drainAll.dropGroup gid).aborted g = false := by
    rw [aborted_congr ((dropGroup_launches _ _).trans (drainAll_launches s)), habort]
  change execGroupCompletion gid s = _
  simp only [execGroupCompletion, hg, hdone, hkept, Bool.false_eq_true, if_false, if_true, happen]

section thresher
variable {s : State} {core : Nat} {th : Thread} {g : Group}

/-- R131: the slot's thread is chosen to issue. -/
def State.thresherChosen (s : State) (core : Nat) : State :=
  { s with gather := some { core := core, quad := 0, lanes := [thresherKey core] }, armed := true }

/-- R131: once it serves a group, the slot issues while that group runs and has a thread left. -/
theorem thresherIssue_begun {u : State} (hu : s.beginThresher core = u) (hth : Store.get u.threads (thresherKey core) = some th)
    (hg : u.group th.gid = some g) (hmay : th.mayIssue u.moves = true) (hrun : u.running g = true) (hlive : 0 < g.live)
    (hperiod : u.periodDue = false) :
    exec (.thresherIssue core) s = .next (u.thresherChosen core) := by
  subst hu
  have hgo : (th.mayIssue (s.beginThresher core).moves && (s.beginThresher core).running g && decide (0 < g.live) &&
      !(s.beginThresher core).periodDue) = true := by simp [hmay, hrun, hlive, hperiod]
  change execThresherIssue core s = _
  simp only [execThresherIssue, hth, hg, hgo, if_true, State.thresherChosen]

theorem beginThresher_serving {gid : Nat} (h : Store.get s.thresher core = some gid) : s.beginThresher core = s := by
  rw [State.beginThresher, h, Option.isSome_some, if_pos rfl]

/-- R131, R132: the slot that serves none begins the group placed first. -/
theorem beginThresher_next {gid entry len : Nat} (hidle : Store.get s.thresher core = none) (hnext : s.nextServed core = some (gid, g))
    (hthr : g.thr = some (entry, len)) : s.beginThresher core =
      ({ s with thresher := Store.put s.thresher core gid } : State).setThread (thresherKey core) (thresherThread gid entry s.now) := by
  simp only [State.beginThresher, hidle, hnext, hthr, Option.isSome_none, Bool.false_eq_true, if_false, Option.map_some, Option.getD_some]

end thresher

end Sys2Proof.Machine

namespace Sys2Proof
open Machine

/-- Settles O47: one lemma for each event; the thresher slot serves its group, or first begins the next. -/
theorem threadAndGroupEvents : Obligations.ThreadAndGroupEvents := by
  unfold Obligations.ThreadAndGroupEvents
  intro s
  refine ⟨?pops, ?answers, ?frees, ?completes, ?serves, ?begins⟩
  case pops =>
    intro key n h filled dst th g q rest hth hst hg hq hplain hfirst hlist took given gave
    have hgave : (if filled then gave.invalidateCache (coreOf key) else gave) =
        if filled then given.invalidateCache (coreOf key) else if n = 0 then given.notePush th.gid else given := by
      by_cases hf : filled = true <;> simp only [gave, hf, and_false, and_true, Bool.true_eq_false, Bool.false_eq_true, if_false, if_true]
    rw [hgave]
    exact blockedPopRelease_happens hth hst hg hq hplain hfirst hlist
  case answers =>
    intro c th l hth hl hplain hclaim hfirst
    exact twnxAnswer_happens hth hl hplain hclaim hfirst
  case frees =>
    intro key th hth hst hpend hkept hfence
    exact threadDrainEnd_happens hth hst hpend hkept hfence
  case completes =>
    intro gid g hg hlive hops hquiet hpass habort
    exact groupCompletion_happens hg hlive hops hquiet hpass habort
  case serves =>
    intro core th g hslot hth hg hmay hrun hlive hperiod
    exact thresherIssue_begun (beginThresher_serving hslot) hth hg hmay hrun hlive hperiod
  case begins =>
    intro core gid entry len g hidle hnext hg hthr hrun hlive hperiod
    exact thresherIssue_begun (beginThresher_next hidle hnext hthr) (Store.get_put ..) hg rfl hrun hlive hperiod

end Sys2Proof
end

section
/-!
PROOFS. Moves, addresses and system values (R193, R196 to R198), and a MOV's source words with a bit error (R103, R425, R426).
-/
namespace Sys2Proof
open Machine

/-- R169: an instruction with no condition of its own, whose word fixes what each active lane leaves. -/
theorem completes_plain {i : Instr} {x : Fields} {s : State} {f : Lane → State → Act} {w : Lane → State → State}
    (hexec : exec i s = issue i (specOf i f) s) (hlane : ∀ r vs, Issues i r x s vs → ∀ v u, f v u = .done (w v u)) : Completes i x s w :=
  fun r vs hi => hexec.trans (issue_plain w hi (hlane r vs hi))

section values

/-- R193: the upper half of MOVI.HI over the lower half of its destination. -/
theorem moviHi_value (x : Fields) (w : Word) : x.imm.toNat * 65536 + w.toNat % 65536 = (x.imm ++ w.extractLsb' 0 16).toNat := by
  rw [append_toNat, BitVec.extractLsb'_toNat, Nat.shiftRight_zero, show 65536 = 2 ^ 16 from rfl]

/-- R193: the sign-extended immediate of MOVI.S. -/
theorem moviS_value (x : Fields) : modPow (sext x.imm.toNat 16) 32 = (x.imm.signExtend 32).toNat := by
  rw [modPow_eq, sext_eq _ _ (by decide), BitVec.ofNat_toNat, BitVec.setWidth_eq, BitVec.signExtend]

/-- R196: the sum of LEA as a sum of bit strings, whatever its index. -/
theorem leaSum_eq (v : Lane) (x : Fields) (idx : Int) :
    v.leaSum x idx = (v.r64 x.a + (BitVec.ofInt 64 idx <<< x.m.toNat) + x.imm.signExtend 64).toNat := by
  have hshift : BitVec.ofInt 64 (idx * (2 ^ x.m.toNat : Nat)) = BitVec.ofInt 64 idx <<< x.m.toNat := by
    rw [BitVec.ofInt_mul, BitVec.ofInt_natCast, BitVec.shiftLeft_eq_mul_twoPow]
    exact congrArg _ (BitVec.eq_of_toNat_eq (by simp))
  rw [Lane.leaSum, modPow_eq, sext_eq _ _ (by decide), BitVec.ofNat_toNat, BitVec.setWidth_eq, BitVec.ofInt_add, BitVec.ofInt_add, hshift,
    BitVec.ofInt_natCast, BitVec.ofNat_toNat, BitVec.setWidth_eq]
  rfl

/-- R196: the signed index of LEA. -/
theorem ofInt_sext_word (w : Word) : BitVec.ofInt 64 (sext w.toNat 32) = w.signExtend 64 := by
  rw [sext_eq _ _ (by decide), BitVec.ofNat_toNat, BitVec.setWidth_eq, BitVec.signExtend]

/-- R197: a field of a work identifier as a shift and a mask. -/
theorem widField_eq (widths : List Nat) (wid : DWord) (n : Nat) :
    widField widths wid.toNat n = (wid >>> widShift widths n &&& dword (2 ^ widths.getD n 0 - 1)).toNat := by
  rw [widField, dword, BitVec.toNat_and, BitVec.toNat_ushiftRight, BitVec.toNat_ofNat, Nat.shiftRight_eq_div_pow]
  generalize hq : wid.toNat / 2 ^ widShift widths n = q
  have hlt : q < 2 ^ 64 := hq ▸ lt_of_le_of_lt (Nat.div_le_self ..) wid.isLt
  generalize widths.getD n 0 = k
  apply Nat.eq_of_testBit_eq
  intro j
  rw [Nat.testBit_mod_two_pow, Nat.testBit_and, Nat.testBit_mod_two_pow, Nat.testBit_two_pow_sub_one]
  by_cases hj : j < 64
  · simp [hj, Bool.and_comm]
  · have hq : q.testBit j = false := Nat.testBit_lt_two_pow (lt_of_lt_of_le hlt (Nat.pow_le_pow_right (by decide) (Nat.le_of_not_lt hj)))
    simp [hq]

/-- A result of one register keeps its low word. -/
theorem wr_one_setWidth (v : Lane) (u : State) (d : BitVec 6) (f : DWord) : v.wr u 1 d (f.setWidth 32).toNat = v.wr u 1 d f.toNat := by
  rw [wr_one, wr_one]
  congr 1
  apply BitVec.eq_of_toNat_eq
  simp [word]

/-- R198: a system value is a word as it stands. -/
theorem wr_one_word (v : Lane) (u : State) (d : BitVec 6) (w : Word) : v.wr u 1 d w.toNat = v.wr32 u d w := by
  rw [wr_one, word, BitVec.ofNat_toNat, BitVec.setWidth_eq]

end values

section bitErrors
variable {i : Instr} {p : Spec} {r : Row} {x : Fields} {s : State} {v : Lane}

/-- R169: a gather of one active lane that may issue its word takes that lane's step, whatever bit errors its operands hold. -/
theorem issue_lane (hlanes : s.gatherLanes = some [v]) (hlegal : wellFormed i = true) (hlate : v.th.late = none)
    (hguard : v.guardBad p.x.g p.x.gn = false) (hslot : isThresher v.key = false) (hv : v.active p.x.g p.x.gn = true)
    (hheld : v.heldBack p.row.op = false) (hpend : ∀ d ∈ v.rowPlaces p.row p.x, isPending v.th v.g d = false)
    (hbad : p.bad v = false) (hrule : p.rule v = none) (honce : p.once = false) (hextra : p.extra v = [])
    (hstall : p.stall s.tick [v] = false) (hafter : p.after = fun s => (s, [])) :
    issue i p s = happen ((laneStep p v s.tick).1.takeTraps (laneStep p v s.tick).2) := by
  have hrules : ruleTraps i p [v] = [] := ruleTraps_nil (by simp [hslot]) (by simpa [alone_active hv] using hrule)
  have hfree : ((v.rowPlaces p.row p.x).any fun d => isPending v.th v.g d) = false :=
    List.any_eq_false.mpr fun d hd => by simp [hpend d hd]
  simp only [issue, hlanes, hlegal, hlate, hguard, hbad, hrules, hv, hheld, hextra, hfree, hstall, honce, hafter, List.any_cons, List.any_nil,
    List.map_nil, List.append_nil, List.filter_cons, List.filter_nil, List.foldl_nil, runLanes, List.foldl_cons, List.nil_append,
    Option.isSome_none, Bool.or_self, Bool.not_true, Bool.not_false, Bool.false_eq_true, if_false, if_true]

/-- R425, R426: what the report of a lane's uncorrectable words leaves: each is counted, and SERR is set. -/
def Machine.State.reported (s : State) (v : Lane) (bad : List (Dst × PFmt)) : State :=
  (bad.foldl (fun u d => u.countError 1 v.core v.g.ctx (some v.key) v.th.pc (v.poolByte d.1)) s).updThread v.key fun th =>
    { th with errst := th.errst ||| 1 }

/-- R425: ERRPOL.TRAP of a lane's context. -/
def Machine.State.trapsErrors (s : State) (v : Lane) : Bool := ((s.ctxOf v).map fun c => c.errpol.getLsbD 0).getD false

/-- R425: a lane as it reads words that are uncorrectable. -/
def Machine.Lane.readsPoison (v : Lane) (bad : List (Dst × PFmt)) : Lane := bad.foldl (fun w d => w.poisoned d.1 d.2) v

variable {reads bad ds : List (Dst × PFmt)} {d : Dst × PFmt}

theorem deliverPoison_correctable (h : (reads.filter fun d => isBad v.th v.g d.1) = []) : deliverPoison v s reads = (v, s.correct v reads, none) := by
  simp only [deliverPoison, h]

theorem deliverPoison_stays (h : (reads.filter fun d => isBad v.th v.g d.1) = d :: ds)
    (htraps : ((s.correct v reads).reported v (d :: ds)).trapsErrors v = false) :
    deliverPoison v s reads = (v.readsPoison (d :: ds), (s.correct v reads).reported v (d :: ds), none) := by
  unfold State.trapsErrors State.reported at htraps
  simp only [deliverPoison, h, htraps, Bool.false_eq_true, if_false, Lane.readsPoison, State.reported]

theorem deliverPoison_traps (h : (reads.filter fun d => isBad v.th v.g d.1) = d :: ds)
    (htraps : ((s.correct v reads).reported v (d :: ds)).trapsErrors v = true) :
    deliverPoison v s reads = (v.readsPoison (d :: ds), (s.correct v reads).reported v (d :: ds), some (v.poolByte d.1)) := by
  unfold State.trapsErrors State.reported at htraps
  simp only [deliverPoison, h, htraps, if_true, Lane.readsPoison, State.reported]

/-- R169: an instruction whose checks of its own and further reads are none. -/
structure Machine.Spec.Bare (p : Spec) (v : Lane) : Prop where
  base : ∀ o ∈ p.row.operands p.x, v.baseOk o.1 o.2 = true
  reads : p.reads = fun _ l => l
  extra : p.extra = fun _ => []

theorem laneStep_goes {w : Lane} {u : State} (hp : p.Bare v) (h : deliverPoison v s (v.rowReads p.row p.x) = (w, u, none)) :
    laneStep p v s = u.apply v (readsClock p.row p.x) (p.lane w u) := by
  obtain ⟨hbase, hreads, hextra⟩ := hp
  simp only [laneStep, List.all_eq_true.mpr hbase, hreads, hextra, List.append_nil, h, Bool.not_true, Bool.false_eq_true, if_false]

theorem laneStep_spoils {w : Lane} {u : State} {a : Nat} (hp : p.Bare v) (h : deliverPoison v s (v.rowReads p.row p.x) = (w, u, some a)) :
    laneStep p v s = (p.spoil v u, [{ key := v.key, cause := causeUncorrectable, tval := a }]) := by
  obtain ⟨hbase, hreads, hextra⟩ := hp
  simp only [laneStep, List.all_eq_true.mpr hbase, hreads, hextra, List.append_nil, h, Bool.not_true, Bool.false_eq_true, if_false]

end bitErrors

section mov
variable {r : Row} {x : Fields} {s : State} {v : Lane} {d : Dst × PFmt} {ds : List (Dst × PFmt)}

theorem mov_ms (h : wellFormed (.mov x) = true) : x.m.toNat ∈ [6, 7] := by
  simp only [wellFormed, legalWord, rowOf_mov, Bool.and_eq_true] at h
  exact row_ms (r := { op := 4, fn := 1, d := .dst x.regs, a := .src x.regs .int, ms := [6, 7] }) h.1.1

/-- R193: MOV copies its operand. -/
theorem mov_lane (hm : x.m.toNat ∈ [6, 7]) (v : Lane) (u : State) :
    Act.done (v.wr u x.regs x.d (v.rd x.regs x.a)) = .done (v.wr u x.regs x.d (v.operand x x.a).toNat) := by
  rw [operand_toNat hm]

/-- R425: the poison of an integer instruction's word is 0. -/
theorem mov_reads_int (h : rowOf (.mov x) = some (r, x)) : ∀ d ∈ v.rowReads r x, d.2.poison = 0 := by
  obtain rfl : _ = r := congrArg Prod.fst (Option.some.inj h)
  simp only [Lane.rowReads, Row.operands, Role.reads, List.flatMap_cons, List.flatMap_nil, Bool.false_eq_true, if_false, if_true, List.append_nil,
    List.nil_append, List.mem_map]
  rintro d ⟨_, -, rfl⟩
  rfl

/-- R169: a MOV of one active lane that may issue. -/
structure Machine.Lane.Moves (v : Lane) (s : State) (r : Row) (x : Fields) : Prop where
  row : rowOf (.mov x) = some (r, x)
  lanes : s.gatherLanes = some [v]
  legal : wellFormed (.mov x) = true
  late : v.th.late = none
  guard : v.guardBad x.g x.gn = false
  slot : isThresher v.key = false
  active : v.active x.g x.gn = true
  held : v.heldBack r.op = false
  pend : ∀ d ∈ v.rowPlaces r x, isPending v.th v.g d = false
  base : ∀ o ∈ r.operands x, v.baseOk o.1 o.2 = true

/-- What MOV does in a lane. -/
def movSpec (r : Row) (x : Fields) : Spec := { row := r, x := x, lane := fun v u => .done (v.wr u x.regs x.d (v.rd x.regs x.a)) }

theorem exec_mov (h : v.Moves s r x) :
    exec (.mov x) s = happen ((laneStep (movSpec r x) v s.tick).1.takeTraps (laneStep (movSpec r x) v s.tick).2) := by
  change issue (.mov x) (specOf (.mov x) fun v u => .done (v.wr u x.regs x.d (v.rd x.regs x.a))) s = _
  rw [specOf_eq h.row]
  exact issue_lane (p := movSpec r x) h.lanes h.legal h.late h.guard h.slot h.active h.held h.pend rfl rfl rfl rfl rfl rfl

theorem movSpec_bare (h : v.Moves s r x) : (movSpec r x).Bare v := ⟨h.base, rfl, rfl⟩

/-- R103: the words of a MOV that hold one wrong bit are corrected. -/
theorem exec_mov_correctable (h : v.Moves s r x) (hbad : ((v.rowReads r x).filter fun d => isBad v.th v.g d.1) = []) :
    exec (.mov x) s = .next ((v.wr (s.tick.correct v (v.rowReads r x)) x.regs x.d (v.operand x x.a).toNat).finish v r x).settle.moved := by
  rw [exec_mov h, laneStep_goes (movSpec_bare h) (deliverPoison_correctable hbad)]
  simp only [movSpec, mov_lane (mov_ms h.legal)]
  rfl

/-- R425: an uncorrectable word of a MOV reads as 0 and is reported. -/
theorem exec_mov_poisoned (h : v.Moves s r x) (hbad : ((v.rowReads r x).filter fun d => isBad v.th v.g d.1) = d :: ds)
    (htraps : ((s.tick.correct v (v.rowReads r x)).reported v (d :: ds)).trapsErrors v = false) :
    exec (.mov x) s = .next (((v.readsPoison (d :: ds)).wr ((s.tick.correct v (v.rowReads r x)).reported v (d :: ds)) x.regs x.d
      ((v.readsPoison (d :: ds)).operand x x.a).toNat).finish v r x).settle.moved := by
  rw [exec_mov h, laneStep_goes (movSpec_bare h) (deliverPoison_stays hbad htraps)]
  simp only [movSpec, mov_lane (mov_ms h.legal)]
  rfl

/-- R425: with ERRPOL.TRAP a MOV of an uncorrectable word traps and writes nothing. -/
theorem exec_mov_traps (h : v.Moves s r x) (hbad : ((v.rowReads r x).filter fun d => isBad v.th v.g d.1) = d :: ds)
    (htraps : ((s.tick.correct v (v.rowReads r x)).reported v (d :: ds)).trapsErrors v = true) :
    exec (.mov x) s = .next (((s.tick.correct v (v.rowReads r x)).reported v (d :: ds)).takeTraps
      [{ key := v.key, cause := 0x11, tval := v.poolByte d.1 }]).settle.moved := by
  rw [exec_mov h, laneStep_spoils (movSpec_bare h) (deliverPoison_traps hbad htraps)]
  rfl

end mov

/-- Settles O12: each form's value as a bit string, and a MOV's words with bit errors. -/
theorem movesAndAddresses : Obligations.MovesAndAddresses := by
  unfold Obligations.MovesAndAddresses
  intro x s
  refine ⟨?mov, ?moviLo, ?moviHi, ?moviS, ?lea, ?leaN, ?widf, ?sysr, ?errors⟩
  case mov => exact completes_plain rfl fun r vs hi => mov_lane (mov_ms hi.legal)
  case moviLo =>
    refine completes_plain rfl fun r vs hi v u => ?_
    rw [BitVec.toNat_setWidth_of_le (by decide)]
  case moviHi =>
    refine completes_plain rfl fun r vs hi v u => ?_
    rw [moviHi_value]
  case moviS =>
    refine completes_plain rfl fun r vs hi v u => ?_
    rw [moviS_value]
  case lea =>
    refine completes_plain rfl fun r vs hi v u => ?_
    rw [leaSum_eq, ofInt_sext_word]
  case leaN =>
    refine completes_plain rfl fun r vs hi v u => ?_
    rw [leaSum_eq, BitVec.ofInt_natCast, BitVec.ofNat_toNat]
  case widf =>
    refine completes_plain rfl fun r vs hi v u => ?_
    simp only [widField_eq, wr_one_setWidth]
  case sysr =>
    refine completes_plain rfl fun r vs hi v u => ?_
    rw [wr_one_word]
    congr 2
    unfold State.systemValue
    generalize x.imm.toNat = n
    match n with
    | 0 | 1 | 2 | 3 | 4 | 6 => rfl
    | 5 => cases v.g.stage <;> rfl
    | k + 7 => cases isThresher v.key <;> rfl
  case errors =>
    intro r v hrow hlanes hlegal hlate hguard hslot hv hheld hpend hbase weak bad corrected reported read traps
    have h : v.Moves s r x := ⟨hrow, hlanes, hlegal, hlate, hguard, hslot, hv, hheld, hpend, hbase⟩
    refine ⟨mov_reads_int hrow, exec_mov_correctable h, fun hbad htraps => ?poisoned, fun d ds hbad htraps => ?trapped⟩
    case poisoned =>
      obtain ⟨d, ds, hbad⟩ := List.exists_cons_of_ne_nil hbad
      have hmoved := exec_mov_poisoned h hbad
      rw [← hbad] at hmoved
      exact hmoved htraps
    case trapped =>
      have hmoved := exec_mov_traps h hbad
      rw [← hbad] at hmoved
      exact hmoved htraps

end Sys2Proof
end

section
/-!
PROOFS. The scratchpad forms (R90, R92 to R94, R96, R97, R99, R250 to R252).
-/
namespace Sys2Proof
open Machine

/-- R169: each active lane of an instruction with further reads and a stall of its own completes; Q holds as the lanes go on. -/
theorem completes_lanes {i : Instr} {r : Row} {x : Fields} {s : State} {vs : List Lane} {f : Lane → State → Act} {extra : Lane → List (Dst × PFmt)}
    {stall : State → List Lane → Bool} (Q : State → Prop) (w : Lane → State → State)
    (hexec : exec i s = issue i { specOf i f with extra := extra, stall := stall } s) (hi : Issues i r x s vs)
    (hstall : stall s.tick (activeLanes x vs) = false)
    (hextra : ∀ v ∈ activeLanes x vs, ∀ d ∈ extra v, isPending v.th v.g d.1 = false ∧ v.sound d.1 = true)
    (hlane : ∀ v ∈ activeLanes x vs, ∀ u, Q u → f v u = .done (w v u) ∧ Q ((w v u).finish v r x))
    (hs : Q ((idleLanes x vs).foldl (fun s v => s.retire v.key) s.tick)) :
    exec i s = .next (s.completeAll r x vs w).settle.moved := by
  rw [hexec, specOf_eq hi.row]
  exact issue_done (p := { row := r, x := x, lane := f, extra := extra, stall := stall }) Q w hi
    ⟨fun _ _ => rfl, fun _ _ => rfl, rfl, rfl, rfl, fun v hv d hd => (hextra v hv d hd).1, fun v hv d hd => (hextra v hv d hd).2, hstall⟩ hlane hs

/-- R169: the same where what a lane does rests on its own registers and group alone. -/
theorem completes_stalling {i : Instr} {r : Row} {x : Fields} {s : State} {vs : List Lane} {f : Lane → State → Act}
    {stall : State → List Lane → Bool} (w : Lane → State → State)
    (hexec : exec i s = issue i { specOf i f with stall := stall } s) (hi : Issues i r x s vs) (hstall : stall s.tick (activeLanes x vs) = false)
    (hlane : ∀ v ∈ activeLanes x vs, ∀ u, f v u = .done (w v u)) : exec i s = .next (s.completeAll r x vs w).settle.moved :=
  completes_lanes (extra := fun _ => []) (fun _ => True) w (hexec.trans (by cases h : rowOf i <;> simp only [specOf, h])) hi hstall (by simp)
    (fun v hv u _ => ⟨hlane v hv u, trivial⟩) trivial

section scratch

/-- What a read of scratchpad rests on: the bytes and the words with bit errors of each group (R103). -/
def Machine.State.scratch (s : State) (gid : Nat) : Option (Store Byte × List Nat × List Nat) := (s.group gid).map fun g => (g.sp, g.spBad, g.spWeak)

theorem scratch_updGroup (s : State) (k : Nat) {f : Machine.Group → Machine.Group}
    (hf : ∀ g, ((f g).sp, (f g).spBad, (f g).spWeak) = (g.sp, g.spBad, g.spWeak)) : (s.updGroup k f).scratch = s.scratch := by
  funext gid
  unfold State.scratch State.group State.updGroup
  by_cases hk : gid = k
  · subst hk
    cases hg : Store.get s.groups gid with
    | none => simp only [Store.upd, hg]
    | some g => simp only [get_upd_same _ _ hg, Option.map_some, hf]
  · simp only [get_upd_other _ _ hk]

theorem scratch_putDst (s : State) (key gid : Nat) (d : Dst) (w : Word) : (s.putDst key gid d w).scratch = s.scratch := by
  cases d with
  | stack i => rfl
  | uniform i => exact scratch_updGroup _ _ fun _ => rfl
  | zero => rfl

theorem scratch_wr (v : Lane) (s : State) (n : Nat) (d : BitVec 6) (a : Nat) : (v.wr s n d a).scratch = s.scratch :=
  foldl_same State.scratch _ (fun _ _ => scratch_putDst ..) _ _

theorem scratch_finish (s : State) (v : Lane) (r : Row) (x : Fields) : (s.finish v r x).scratch = s.scratch := by
  funext gid
  simp only [State.scratch, State.group, State.finish_groups]

theorem scratch_idle (s : State) (vs : List Lane) : (vs.foldl (fun s v => s.retire v.key) s.tick).scratch = s.scratch :=
  (foldl_same State.scratch (fun (s : State) (v : Lane) => s.retire v.key) (fun _ _ => rfl) _ _).trans rfl

/-- The scratchpad of a gathered lane's group. -/
theorem scratch_gather {s : State} {vs : List Lane} (h : s.gatherLanes = some vs) {v : Lane} (hv : v ∈ vs) :
    s.scratch v.th.gid = some (v.g.sp, v.g.spBad, v.g.spWeak) := by
  have hg : s.group v.th.gid = some v.g := gather_group h v hv
  rw [State.scratch, hg, Option.map_some]

/-- R103: a plain load of clean bytes reads them as the gather found them, whatever its other lanes have written. -/
theorem plainLoad_scratch {v : Lane} {u : State} {o n : Nat} {k : State → List Byte → Act}
    (hu : u.scratch v.th.gid = some (v.g.sp, v.g.spBad, v.g.spWeak)) (hclean : v.g.spClean o n = true) :
    v.plainLoad u o n k = k u (v.g.spRead o n) := by
  obtain ⟨g, hg, h⟩ := Option.map_eq_some_iff.mp hu
  simp only [Prod.mk.injEq] at h
  exact plainLoad_clean hg h.1 h.2.1 h.2.2 hclean

theorem plainWaits_free {s : State} {v : Lane} {o : Int} {n : Nat} {store : Bool}
    (h : s.boardBlocks v (v.g.pool o.toNat) (v.g.pool (o.toNat + n - 1)) store = false) : s.tick.plainWaits v o n store = false := by
  have htick : s.tick.boardBlocks v (v.g.pool o.toNat) (v.g.pool (o.toNat + n - 1)) store = false := h
  rw [State.plainWaits, htick, Bool.and_false]

theorem ofBytes_lt (bs : List Byte) : ofBytes bs < 256 ^ bs.length := by
  induction bs with
  | nil => simp [ofBytes]
  | cons b bs ih =>
    have := b.isLt
    rw [ofBytes, List.length_cons, pow_succ]
    omega

/-- R181: sign extension to a word. -/
theorem modPow_sext {n : Nat} (hn : 0 < n) (u : Nat) : modPow (sext u n) 32 = ((BitVec.ofNat n u).signExtend 32).toNat := by
  rw [modPow_eq, sext_eq _ _ hn, BitVec.signExtend]

end scratch

section lds
variable {x : Fields} {v : Lane} {u : State}

/-- R90, R250: an offset that a plain access of n bytes may have. -/
def Machine.Lane.inScratch (v : Lane) (x : Fields) (n : Nat) : Prop := 0 ≤ v.spOffset x ∧ v.spOffset x % (n : Int) = 0 ∧ v.spOffset x + n ≤ v.g.spLen

/-- R249: LDS extends the sign of data narrower than a word alone. -/
theorem extendLoad_eq {n : Nat} {sx : Bool} (hn : 0 < n) (h : sx = true → n < 4) (a : Nat) :
    extendLoad n sx a = if sx then ((BitVec.ofNat (8 * n) a).signExtend 32).toNat else a := by
  cases sx with
  | false => rfl
  | true => simp only [extendLoad, h rfl, decide_true, Bool.and_self, if_true, modPow_sext (show 0 < 8 * n by omega)]

theorem lds_extends (h : wellFormed (.lds x) = true) : x.fn.getLsbD 6 = true → sizeBytes x.m.toNat < 4 := by
  intro hsx
  have hsat : x.sat = true := hsx
  simp only [wellFormed, legalWord, rowOf_lds, extraOk, hsat, Bool.and_eq_true, Bool.not_true, Bool.false_or, decide_eq_true_eq] at h
  have : sizeBytes x.m.toNat ≤ 2 ^ 1 := Nat.pow_le_pow_right (by decide) (by omega)
  omega

/-- R250: LDS of clean bytes. -/
theorem loadScratch_clean (hlegal : wellFormed (.lds x) = true) (hin : v.inScratch x (sizeBytes x.m.toNat))
    (hu : u.scratch v.th.gid = some (v.g.sp, v.g.spBad, v.g.spWeak)) (hclean : v.g.spClean (v.spOffset x).toNat (sizeBytes x.m.toNat) = true) :
    v.loadScratch x u = .done (
      let a := ofBytes (v.g.spRead (v.spOffset x).toNat (sizeBytes x.m.toNat))
      v.wr u (Fields.dataRegs (sizeBytes x.m.toNat)) x.d
        (if x.fn.getLsbD 6 then ((BitVec.ofNat (8 * sizeBytes x.m.toNat) a).signExtend 32).toNat else a)) := by
  obtain ⟨hpos, halign, hbound⟩ := hin
  have hn : 0 < sizeBytes x.m.toNat := Nat.two_pow_pos _
  simp only [Lane.loadScratch, plainTrap_none hpos halign hbound, plainLoad_scratch hu hclean, sizeRegs_eq,
    ← extendLoad_eq hn (lds_extends hlegal)]
  rfl

/-- R97, R250: STS at an offset that it may have. -/
theorem storeScratch_in (hin : v.inScratch x (sizeBytes x.m.toNat)) :
    v.storeScratch x u = .done (v.scratchStore u (v.spOffset x).toNat
      (toBytes (sizeBytes x.m.toNat) (v.rd (Fields.dataRegs (sizeBytes x.m.toNat)) x.b))) := by
  obtain ⟨hpos, halign, hbound⟩ := hin
  simp only [Lane.storeScratch, plainTrap_none hpos halign hbound, sizeRegs_eq]

end lds

section ldt
variable {x : Fields} {v : Lane} {u : State}

/-- R93: an element rests on the bytes of its group alone. -/
theorem element_congr {g h : Machine.Group} (hsp : g.sp = h.sp) (l : Layout) (i j k : Nat) : g.element l i j k = h.element l i j k := by
  simp only [Group.element, hsp]

/-- R93: an element of four bytes is a word. -/
theorem element_lt {g : Machine.Group} {l : Layout} (h : l.esize = 2) (i j k : Nat) : g.element l i j k < 2 ^ 32 := by
  have hlen : (l.byteOffsets i j k).length = 4 := by simp [Layout.byteOffsets, Layout.bytes, h]
  have hlt := ofBytes_lt ((l.byteOffsets i j k).map fun o => Store.rd 0 g.sp o)
  rw [List.length_map, hlen] at hlt
  simpa [Group.element, h] using hlt

/-- R251: the bits of an element. -/
def Machine.Layout.width (l : Layout) : Nat := if l.esize = 3 then 4 else 8 * l.bytes

theorem width_cases_layout (l : Layout) : 0 < l.width ∧ (l.width < 32 ∨ (l.width = 32 ∧ l.esize = 2)) := by
  unfold Layout.width Layout.bytes
  split_ifs with h3 h1 h2 <;> simp_all

/-- R251: LDT extends the sign of an element narrower than a word alone. -/
theorem ldt_extends {g : Machine.Group} (l : Layout) (sx : Bool) (i j k : Nat) :
    (if sx && decide (l.width < 32) then modPow (sext (g.element l i j k) l.width) 32 else g.element l i j k) =
      if sx then ((BitVec.ofNat l.width (g.element l i j k)).signExtend 32).toNat else g.element l i j k := by
  obtain ⟨hpos, hw⟩ := width_cases_layout l
  cases sx with
  | false => rfl
  | true =>
    rcases hw with hw | ⟨hw, he⟩
    · simp only [hw, decide_true, Bool.and_self, if_true, modPow_sext hpos]
    · rw [hw, if_neg (by simp), if_pos rfl, BitVec.signExtend_eq, BitVec.toNat_ofNat, Nat.mod_eq_of_lt (element_lt he i j k)]

/-- R251: LDT of a clean element in bounds. -/
theorem loadTensor_clean (hlegal : (v.ldtLayout x).legal (x.immBits 3 0) = true) (hbound : ∀ o ∈ v.ldtByte x, o < v.g.spLen)
    (hu : u.scratch v.th.gid = some (v.g.sp, v.g.spBad, v.g.spWeak))
    (hclean : v.g.spClean ((v.ldtByte x).foldl min ((v.ldtByte x).headD 0)) (v.ldtByte x).length = true) :
    v.loadTensor x u = .done (
      let e := v.g.element (v.ldtLayout x) (v.r32 x.a).toNat (v.r32 x.b).toNat (v.r32 x.c).toNat
      v.wr u 1 x.d (if x.fn.getLsbD 6 then ((BitVec.ofNat (v.ldtLayout x).width e).signExtend 32).toNat else e)) := by
  obtain ⟨g, hg, hsame⟩ := Option.map_eq_some_iff.mp hu
  simp only [Prod.mk.injEq] at hsame
  obtain ⟨hsp, hbad, -⟩ := hsame
  have hin : ((v.ldtByte x).any fun o => decide (v.g.spLen ≤ o)) = false := List.any_eq_false.mpr fun o ho => by
    simpa using hbound o ho
  have hsound : g.spPoisoned ((v.ldtByte x).foldl min ((v.ldtByte x).headD 0)) (v.ldtByte x).length = false := by
    rw [Group.spPoisoned, hbad]
    exact spClean_sound hclean
  simp only [Lane.loadTensor, hlegal, hin, Bool.not_true, Bool.false_eq_true, if_false, plainLoad_scratch hu hclean, hg, Option.getD_some, hsound,
    element_congr hsp, ← ldt_extends]
  rfl

end ldt

/-- Settles O20: one lemma for each form's lane; the bytes of a group's scratchpad stand while the lanes of a gather read them. -/
theorem scratchpad : Obligations.Scratchpad := by
  unfold Obligations.Scratchpad
  intro x s n off inside plain layout places low high
  have hin {v : Lane} (h : inside v) : v.inScratch x (sizeBytes x.m.toNat) := by
    rwa [Lane.inScratch, spOffset_eq]
  have hread {r : Row} {vs : List Lane} {i : Instr} (hi : Issues i r x s vs) {u : State} (hu : u.scratch = s.scratch) {v : Lane}
      (hv : v ∈ activeLanes x vs) : u.scratch v.th.gid = some (v.g.sp, v.g.spBad, v.g.spWeak) := by
    rw [hu, scratch_gather hi.lanes (mem_active hv)]
  have hlayout (v : Lane) : v.ldtLayout x = layout v := by rw [Lane.ldtLayout, immBits_low]
  have hplaces (v : Lane) : v.ldtByte x = places v := by rw [Lane.ldtByte, hlayout]
  refine ⟨?lds, ?sts, ?thresher, ?ldt, ?ldk⟩
  case lds =>
    intro r vs hi hok
    refine completes_lanes (extra := fun _ => []) (fun u => u.scratch = s.scratch) _ rfl hi ?stall (by simp) (fun v hv u hu => ⟨?lane, ?keeps⟩)
      (scratch_idle s _)
    case stall =>
      refine List.any_eq_false.mpr fun v hv => ?_
      obtain ⟨⟨-, hboard⟩, -⟩ := hok v hv
      rw [spOffset_eq, Bool.not_eq_true]
      exact plainWaits_free hboard
    case lane =>
      obtain ⟨⟨hinside, -⟩, hclean⟩ := hok v hv
      rw [loadScratch_clean hi.legal (hin hinside) (hread hi hu hv) (by rw [spOffset_eq]; exact hclean), spOffset_eq]
      rfl
    case keeps => rw [scratch_finish, scratch_wr, hu]
  case sts =>
    intro r vs hi hok
    refine completes_stalling _ rfl hi ?stall fun v hv u => ?lane
    case stall =>
      have hwaits : scratchWaits x true s.tick ((activeLanes x vs).filter fun v => !isThresher v.key) = false := by
        refine List.any_eq_false.mpr fun v hv => ?_
        obtain ⟨-, -, hboard⟩ := hok v (List.mem_filter.mp hv).1
        rw [spOffset_eq, Bool.not_eq_true]
        exact plainWaits_free hboard
      have hentry : entryWaits s.tick (activeLanes x vs) = false := List.any_eq_false.mpr fun v hv => by simp [(hok v hv).1]
      rw [hwaits, hentry]
      rfl
    case lane =>
      obtain ⟨hslot, hinside, -⟩ := hok v hv
      rw [storeScratch_in (hin hinside), Lane.scratchStore, hslot, spOffset_eq]
      rfl
  case thresher =>
    intro r vs hi hok
    refine completes_stalling _ rfl hi ?stall fun v hv u => ?lane
    case stall =>
      have hnone : (activeLanes x vs).filter (fun v => !isThresher v.key) = [] := List.filter_eq_nil_iff.mpr fun v hv => by simp [(hok v hv).1]
      have hentry : entryWaits s.tick (activeLanes x vs) = false := List.any_eq_false.mpr fun v hv => by
        obtain ⟨-, -, hfree⟩ := hok v hv
        simp [show s.tick.boardFree v.core ≠ 0 from hfree]
      rw [hnone, hentry]
      rfl
    case lane =>
      obtain ⟨hslot, hinside, -⟩ := hok v hv
      rw [storeScratch_in (hin hinside), Lane.scratchStore, hslot, spOffset_eq, toBytes_length]
      rfl
  case ldt =>
    intro r vs hi hok
    refine completes_lanes (fun u => u.scratch = s.scratch) _ rfl hi ?stall ?extra (fun v hv u hu => ⟨?lane, ?keeps⟩) (scratch_idle s _)
    case stall =>
      refine List.any_eq_false.mpr fun v hv => ?_
      obtain ⟨-, -, -, -, hboard⟩ := hok v hv
      simp only [hplaces, hlayout, Bool.and_eq_true, not_and, Bool.not_eq_true]
      exact fun _ => hboard
    case extra =>
      intro v hv d hd
      obtain ⟨-, -, -, hregs, -⟩ := hok v hv
      exact hregs d (by rwa [← immBits_low])
    case lane =>
      obtain ⟨hlegal, hbound, hclean, -⟩ := hok v hv
      rw [loadTensor_clean (by rwa [hlayout, immBits_low]) (by rwa [hplaces]) (hread hi hu hv) (by rwa [hplaces]), hlayout]
      rfl
    case keeps => rw [scratch_finish, scratch_wr, hu]
  case ldk =>
    intro r vs hi hok
    refine completes_stalling (stall := fun _ _ => false) _ rfl hi rfl fun v hv u => ?_
    have hlt := hok v hv
    exact if_neg (Nat.not_le.mpr hlt)

end Sys2Proof
end

section
/-!
PROOFS. Meshlets: their records in scratchpad, and VAMP (R99, R300, R302 to R304).
-/
namespace Sys2Proof
open Machine

section stores
variable {i : Instr} {x : Fields} {s u : State} {v : Lane} {m : MeshStore}

/-- R303: a meshlet store that takes no trap: its index in range, its base aligned, its bytes in the allocation. -/
structure Machine.Lane.Meshes (v : Lane) (x : Fields) (m : MeshStore) : Prop where
  index : m.index = none
  align : (v.r32 x.a).toNat % 16 = 0
  bound : (v.r32 x.a).toNat + m.off + m.bytes.length ≤ v.g.spLen

theorem meshTrap_none (h : v.Meshes x m) : v.meshTrap (v.r32 x.a).toNat m.off m.bytes.length m.index = none := by
  obtain ⟨hindex, halign, hbound⟩ := h
  simp only [Lane.meshTrap, hindex, halign, ne_eq, not_true_eq_false, if_false, Nat.not_lt.mpr hbound]

theorem meshStore_done (h : v.Meshes x m) : v.meshStore x m u = .done (u.spWrite v.th.gid ((v.r32 x.a).toNat + m.off) m.bytes) := by
  simp only [Lane.meshStore, meshTrap_none h]

/-- R303, R99: a meshlet store whose lanes take no trap and are not held stores its part of their records. -/
theorem mesh_completes {f : Lane → MeshStore} (hexec : exec i s = issue i (meshSpec i x f) s) :
    CompletesIf i x s (fun v => v.Meshes x (f v) ∧
        s.boardBlocks v (v.g.pool ((v.r32 x.a).toNat + (f v).off)) (v.g.pool ((v.r32 x.a).toNat + (f v).off) + (f v).bytes.length - 1) true = false)
      fun v u => u.spWrite v.th.gid ((v.r32 x.a).toNat + (f v).off) (f v).bytes := by
  intro r vs hi hok
  refine completes_stalling _ hexec hi ?stall fun v hv u => ?lane
  case stall =>
    refine List.any_eq_false.mpr fun v hv => ?_
    obtain ⟨-, hboard⟩ := hok v hv
    simp only [Bool.and_eq_true, not_and, Bool.not_eq_true]
    exact fun _ => hboard
  case lane =>
    obtain ⟨hmesh, -⟩ := hok v hv
    exact meshStore_done hmesh

/-- R303: a counts word that keeps its rules. -/
theorem countsBad_legal {w : Nat} (h9 : w / 2 ^ 9 % 2 ^ 7 = 0) (h25 : w / 2 ^ 25 = 0) (hpos : 0 < w % 2 ^ 9) (hv : w % 2 ^ 9 ≤ 256)
    (hp : w / 2 ^ 16 % 2 ^ 9 ≤ 256) : countsBad w = false := by
  simp only [countsBad, bits, Nat.reduceAdd, Nat.reduceSub, h9, h25, Nat.pow_zero, Nat.div_one, Nat.zero_mod, bne_self_eq_false, Bool.false_or,
    Bool.or_eq_false_iff, beq_eq_false_iff_ne, decide_eq_false_iff_not, Nat.not_lt]
  exact ⟨⟨hpos.ne', hv⟩, decide_eq_false (Nat.not_lt.mpr hp)⟩

end stores

section vamp
variable {x : Fields} {s u : State} {v : Lane} {vs : ViewSet}

/-- R304: the ranges that a lane's VAMP reads. -/
def Machine.Lane.parts (v : Lane) (x : Fields) : List (Nat × Nat) := meshRanges (v.r32 x.a).toNat (v.g.spRead (v.r32 x.a).toNat 16)

/-- R300, R301, R304: a lane whose VAMP takes no trap: its set is bound, its views are the set's, and its ranges lie in the allocation. -/
structure Machine.Lane.Amplifies (v : Lane) (s : State) (x : Fields) (vs : ViewSet) : Prop where
  group : s.group v.th.gid = some v.g
  view : s.view v.g.ctx (x.imm.toNat % 4) = some vs
  mask : 0 < (v.r32 x.b).toNat ∧ (v.r32 x.b).toNat < 256 ∧ (v.r32 x.b).toNat < 2 ^ vs.nview
  align : (v.r32 x.a).toNat % 16 = 0
  header : (v.r32 x.a).toNat + 16 ≤ v.g.spLen
  bound : ∀ r ∈ v.parts x, r.1 + r.2 ≤ v.g.spLen

theorem vampRanges_ok (h : v.Amplifies s x vs) : v.vampRanges x s = .ok (v.parts x) := by
  obtain ⟨hgroup, hview, ⟨hpos, hlt, hviews⟩, halign, hheader, hbound⟩ := h
  have hread : s.spRead v.th.gid (v.r32 x.a).toNat 16 = v.g.spRead (v.r32 x.a).toNat 16 := by rw [State.spRead, hgroup]; rfl
  have hin : (v.parts x).filter (fun r => decide (v.g.spLen < r.1 + r.2)) = [] := List.filter_eq_nil_iff.mpr fun r hr => by simpa using hbound r hr
  unfold Lane.parts at hin ⊢
  simp only [Lane.vampRanges, State.viewOf, immBits_counter, hview, hread, hin, List.map_nil, Nat.mod_eq_of_lt hlt, hpos.ne',
    Nat.not_le.mpr hlt, Nat.not_le.mpr hviews, halign, Nat.not_lt.mpr hheader, decide_false, Bool.or_self, Bool.false_eq_true, ne_eq,
    not_true_eq_false, if_false]

/-- R304, R99: what makes VAMP's gather wait at issue: entries over the header, or over the ranges that it leads to. -/
def vampWaits (x : Fields) (s : State) (vs : List Lane) : Bool := vs.any fun v =>
  let base := (v.r32 x.a).toNat
  let blocked (rs : List (Nat × Nat)) : Bool := rs.any fun r => s.boardBlocks v (v.g.pool r.1) (v.g.pool (r.1 + r.2 - 1)) false
  (base % 16 == 0 && decide (base + 16 ≤ v.g.spLen) && blocked [(base, 16)]) || match v.vampRanges x s with
    | .ok rs => blocked rs
    | .error _ => false

theorem vampWaits_free (h : v.Amplifies s x vs) (hfree : ∀ r ∈ ((v.r32 x.a).toNat, 16) :: v.parts x,
    s.boardBlocks v (v.g.pool r.1) (v.g.pool (r.1 + r.2 - 1)) false = false) : vampWaits x s [v] = false := by
  have hheader := hfree _ (List.mem_cons_self ..)
  have hparts : ((v.parts x).any fun r => s.boardBlocks v (v.g.pool r.1) (v.g.pool (r.1 + r.2 - 1)) false) = false :=
    List.any_eq_false.mpr fun r hr => by simp [hfree r (by simp [hr])]
  simp only [vampWaits, vampRanges_ok h, hheader, hparts, List.any_cons, List.any_nil, Bool.or_self, Bool.and_false]

/-- R304: plain loads of clean ranges join their bytes. -/
theorem plainLoads_clean {k : State → List Byte → Act} (hg : u.group v.th.gid = some v.g) (rs : List (Nat × Nat))
    (hclean : ∀ r ∈ rs, v.g.spClean r.1 r.2 = true) (bs : List Byte) :
    v.plainLoads k rs bs u = k u (bs ++ rs.flatMap fun r => v.g.spRead r.1 r.2) := by
  induction rs generalizing bs with
  | nil => simp [Lane.plainLoads]
  | cons r rs ih =>
    rw [Lane.plainLoads, plainLoad_clean hg rfl rfl rfl (hclean r (by simp)), ih (fun q hq => hclean q (by simp [hq])), List.flatMap_cons,
      List.append_assoc]

/-- R304: the meshlet of a lane's VAMP enters an amplifier with a place left. -/
theorem amplify_enters (h : v.Amplifies u x vs) (hclean : ∀ r ∈ v.parts x, v.g.spClean r.1 r.2 = true)
    (hroom : (Store.rd [] u.amplifier v.core).length < 4) :
    v.amplify x u = .done { u with amplifier := Store.put u.amplifier v.core (Store.rd [] u.amplifier v.core ++
      [{ ctx := v.g.ctx, slot := x.imm.toNat % 4, mask := (v.r32 x.b).toNat, bytes := (v.parts x).flatMap fun r => v.g.spRead r.1 r.2 }]) } := by
  simp only [Lane.amplify, vampRanges_ok h, Nat.not_le.mpr hroom, if_false, plainLoads_clean h.group _ hclean, List.nil_append, immBits_counter]

theorem amplify_waits (h : v.Amplifies u x vs) (hfull : 4 ≤ (Store.rd [] u.amplifier v.core).length) :
    v.amplify x u = .wait u (.stall u.moves .issue) := by
  simp only [Lane.amplify, vampRanges_ok h, hfull, if_true]

end vamp

/-- Settles O36: the three stores are one, and VAMP's ranges are read or its amplifier is full. -/
theorem meshlets : Obligations.Meshlets := by
  unfold Obligations.Meshlets
  intro x s vs base w room stores parts ready
  have hstores {i : Instr} {ok : Lane → Prop} {off : Lane → Nat} {bytes : Lane → List Byte} {f : Lane → MeshStore}
      (hexec : exec i s = issue i (meshSpec i x f) s) (hoff : (fun v => (f v).off) = off) (hbytes : (fun v => (f v).bytes) = bytes)
      (hindex : ∀ v, ok v → (f v).index = none) : stores i ok off bytes := by
    subst hoff hbytes
    intro r vs hi hok
    refine mesh_completes hexec r vs hi fun v hv => ?_
    obtain ⟨hrule, halign, hbound, hboard⟩ := hok v hv
    exact ⟨⟨hindex v hrule, halign, hbound⟩, hboard⟩
  have hamplifies {r : Row} {v : Lane} (hi : Issues (.vamp x) r x s [v]) (h : ready v) : v.Amplifies s.tick x vs := by
    obtain ⟨hview, hpos, hlt, hviews, halign, hranges, -⟩ := h
    exact ⟨tick_group hi, hview, ⟨hpos, hlt, hviews⟩, halign, (hranges _ (List.mem_cons_self ..)).1,
      fun r hr => (hranges r (List.mem_cons_of_mem _ hr)).1⟩
  have hstall {r : Row} {v : Lane} (hi : Issues (.vamp x) r x s [v]) (h : ready v) : vampWaits x s.tick [v] = false := by
    obtain ⟨-, -, -, -, -, hranges, -⟩ := id h
    exact vampWaits_free (hamplifies hi h) fun r hr => (hranges r hr).2
  refine ⟨?mvtx, ?mprim, ?memit, ?enters, ?waits⟩
  case mvtx => exact hstores (f := fun v => v.mvtx x) rfl rfl rfl fun v h => if_neg (Nat.not_lt.mpr h)
  case mprim =>
    refine hstores (f := fun v => v.mprim x) rfl rfl rfl fun v h => ?_
    obtain ⟨hindex, hword⟩ := h
    exact (if_neg (Nat.not_lt.mpr hindex)).trans (if_neg (Nat.not_le.mpr hword))
  case memit =>
    refine hstores (f := fun v => v.memit x) rfl rfl ?bytes fun v h => ?index
    case bytes =>
      funext v
      simp [Lane.memit, bits, w]
    case index =>
      obtain ⟨h9, h25, hpos, hv, hp⟩ := h
      exact if_neg (by rw [countsBad_legal h9 h25 hpos hv hp]; exact Bool.false_ne_true)
  case enters =>
    rintro r v hi hv ⟨hready, hroom⟩
    obtain ⟨-, -, -, -, -, -, hclean⟩ := id hready
    exact alone_completes rfl hi hv (hstall hi hready) (amplify_enters (hamplifies hi hready) hclean hroom)
  case waits =>
    rintro r v hi hv ⟨hready, hfull⟩
    exact alone_waits rfl hi hv (hstall hi hready) (amplify_waits (hamplifies hi hready) hfull)

end Sys2Proof
end

section
/-!
PROOFS. The ray instructions (R90, R97, R99, R314, R316 to R318).
-/
namespace Sys2Proof
open Machine

section bytes
variable {g : Machine.Group} {a o n m : Nat}

/-- A part of consecutive bytes. -/
theorem range_part {α : Type} (f : Nat → α) (h : o + n ≤ m) :
    (((List.range m).map f).drop o).take n = (List.range n).map fun i => f (o + i) := by
  refine List.ext_getElem (by simp; omega) fun i h1 h2 => ?_
  simp

theorem spRead_part (h : o + n ≤ m) : ((g.spRead a m).drop o).take n = g.spRead (a + o) n := by
  simp only [Group.spRead, range_part _ h, Nat.add_assoc]

theorem spSound_part (h : o + n ≤ m) : ((g.spSound a m).drop o).take n = g.spSound (a + o) n := by
  simp only [Group.spSound, range_part _ h, Nat.add_assoc]

/-- R425: a clean part of a block reads as it stands, whatever the rest of the block holds. -/
theorem spSound_part_clean (h : o + n ≤ m) (hclean : g.spClean (a + o) n = true) : ((g.spSound a m).drop o).take n = ((g.spRead a m).drop o).take n := by
  rw [spSound_part h, spSound_clean (spClean_sound hclean), spRead_part h]

theorem field_clean (h : o + n ≤ m) (hclean : g.spClean (a + o) n = true) : field (g.spSound a m) o n = field (g.spRead a m) o n :=
  congrArg ofBytes (spSound_part_clean h hclean)

/-- R103: bytes among clean bytes are clean. -/
theorem spClean_within {o' n' : Nat} (h : g.spClean o n = true) (hlo : o ≤ o') (hhi : o' + n' ≤ o + n) (hpos : 0 < n') : g.spClean o' n' = true := by
  rw [spClean_iff] at h ⊢
  intro w hw hin
  exact h w hw (by omega)

/-- Consecutive words as consecutive bytes. -/
theorem flatMap_words {α : Type} (f : Nat → α) (k : Nat) :
    ((List.range k).flatMap fun w => (List.range 4).map fun i => f (4 * w + i)) = (List.range (4 * k)).map f := by
  induction k with
  | zero => rfl
  | succ k ih =>
    rw [List.range_succ (n := k), List.flatMap_append, ih, Nat.mul_succ, List.range_add, List.map_append, List.flatMap_singleton, List.map_map]
    rfl

/-- R314, R425: a clean block reads as it stands. -/
theorem rayBlock_clean (h : g.spClean a 64 = true) : g.rayBlock a = g.spRead a 64 := by
  have hwords : ∀ w ∈ List.range 16, (if w < 8 && g.spBad.contains (a / 4 + w) then toBytes 4 PFmt.f32.poison.toNat else g.spSound (a + 4 * w) 4) =
      (List.range 4).map fun i => Store.rd 0 g.sp (a + (4 * w + i)) := by
    intro w hw
    have hw := List.mem_range.mp hw
    have hgood : g.spBad.contains (a / 4 + w) = false := by
      by_contra hbad
      exact spClean_iff.mp h (a / 4 + w) (by simpa using .inl (by simpa using hbad)) (by omega)
    rw [hgood, Bool.and_false, if_neg Bool.false_ne_true,
      spSound_clean (spClean_sound (spClean_within h (by omega) (by omega) (by decide)))]
    simp only [Group.spRead, Nat.add_assoc]
  rw [Group.rayBlock, List.flatMap_congr hwords, flatMap_words fun i => Store.rd 0 g.sp (a + i)]
  rfl

/-- R317: the ranges that RYS reads lie in the block. -/
theorem rys_reads_clean (h : g.spClean a 64 = true) : ∀ r ∈ [(0, 32), (56, 8)], g.spClean (a + r.1) r.2 = true := by
  simp only [List.forall_mem_cons, List.not_mem_nil, false_imp_iff, implies_true, and_true]
  exact ⟨spClean_within h (by omega) (by omega) (by decide), spClean_within h (by omega) (by omega) (by decide)⟩

/-- R317: the last byte of CUR with LIVE and SUSP clear. -/
theorem and_low_six (b : Byte) : b &&& 0x3F = BitVec.ofNat 8 (b.toNat % 2 ^ 6) := by
  apply BitVec.eq_of_toNat_eq
  rw [BitVec.toNat_and, BitVec.toNat_ofNat, show (0x3F : Byte).toNat = 2 ^ 6 - 1 from rfl, Nat.and_two_pow_sub_one_eq_mod]
  exact (Nat.mod_eq_of_lt (by omega)).symm

end bytes

section blocks
variable {x : Fields} {s u : State} {v : Lane} {store : Bool}

/-- R90, R99, R301: a lane names a block that is aligned, in its allocation and not held. -/
structure Machine.Lane.NamesBlock (v : Lane) (s : State) (x : Fields) (store : Bool) : Prop where
  align : (v.r32 x.a).toNat % 64 = 0
  bound : (v.r32 x.a).toNat + 64 ≤ v.g.spLen
  free : s.boardBlocks v (v.g.pool (v.r32 x.a).toNat) (v.g.pool ((v.r32 x.a).toNat + 63)) store = false

theorem blockTrap_none (h : v.NamesBlock s x store) : v.blockTrap (v.r32 x.a).toNat = none := by
  simp only [Lane.blockTrap, h.align, Nat.not_lt.mpr h.bound, ne_eq, not_true_eq_false, if_false]

theorem blockWaits_free (h : v.NamesBlock s x store) : blockWaits x store s [v] = false := by
  simp only [blockWaits, h.free, List.any_cons, List.any_nil, Bool.and_false, Bool.or_self]

/-- R103: a plain read of clean ranges counts no error and is done with the group as it stands. -/
theorem plainRead_clean {k : State → Machine.Group → Act} {rs : List (Nat × Nat)} (hg : u.group v.th.gid = some v.g)
    (hclean : ∀ r ∈ rs, v.g.spClean r.1 r.2 = true) : v.plainRead u rs k = k u v.g := by
  have hcount : rs.foldl (fun s r => s.senseScratch v.th.gid v.g.ctx (some v.key) v.th.pc r.1 r.2) u = u := by
    induction rs with
    | nil => rfl
    | cons r rs ih => rw [List.foldl_cons, senseScratch_clean hg (hclean r (by simp)), ih fun q hq => hclean q (by simp [hq])]
  have hsound : rs.find? (fun r => v.g.spPoisoned r.1 r.2) = none := List.find?_eq_none.mpr fun r hr => by simp [spClean_sound (hclean r hr)]
  simp only [Lane.plainRead, hg, Option.getD_some, hcount, hsound]

/-- R314: what is done with a block whose ranges that are read are clean. -/
theorem block64_clean {k : State → Nat → List Byte → Act} {rs : List (Nat × Nat)} (h : v.NamesBlock s x store) (hg : u.group v.th.gid = some v.g)
    (hclean : ∀ r ∈ rs, v.g.spClean ((v.r32 x.a).toNat + r.1) r.2 = true) :
    v.block64 x rs u k = k u (v.r32 x.a).toNat (v.g.spSound (v.r32 x.a).toNat 64) := by
  have hranges : ∀ r ∈ rs.map (fun r => ((v.r32 x.a).toNat + r.1, r.2)), v.g.spClean r.1 r.2 = true := by
    simp only [List.mem_map]
    rintro _ ⟨r, hr, rfl⟩
    exact hclean r hr
  simp only [Lane.block64, blockTrap_none h, plainRead_clean hg hranges]

/-- R317: what RYL leaves of a block from HPRIM on: no hit, an empty trail, and the root as the live current node. -/
theorem rylTail_eq (root : Nat) (cb : Bool) : rylTail root cb = toBytes 4 (2 ^ 32 - 1) ++ toBytes 4 0 ++ toBytes 4 0 ++ toBytes 4 0 ++
    toBytes 8 (root / 2 ^ 6 % 2 ^ 51 * 2 ^ 6 + 2 ^ 63 + if cb then 2 ^ 61 else 0) := by
  cases cb <;> rfl

/-- R300, R307: a sample of a tile of a bound set whose strip is latched. -/
structure Machine.Lane.Samples (v : Lane) (s : State) (slot tile n : Nat) (vs : ViewSet) (l : Latch) : Prop where
  view : s.view v.g.ctx slot = some vs
  lens : tile % 8 < vs.nview
  word : tileWordBad vs tile = false
  index : n < 1024
  latch : Store.get vs.latches (tile / 2 ^ 16 % 2 ^ 8) = some l

theorem immBits_view (x : Fields) : x.immBits 2 1 = x.imm.toNat / 2 % 4 := by simp [Fields.immBits]

theorem sample_latched {slot tile n : Nat} {vs : ViewSet} {l : Latch} {k : ViewSet → Option (Nat × Nat) → Act} (h : v.Samples u slot tile n vs l) :
    v.sample slot tile n u none k = k vs (samplePos vs l tile n) := by
  obtain ⟨hview, hlens, hword, hindex, hlatch⟩ := h
  have hstrip : Store.get vs.latches (tileStrip tile) = some l := hlatch
  simp only [Lane.sample, State.viewOf, hview, tileView, Nat.not_le.mpr hlens, hword, Nat.not_le.mpr hindex, Lane.latched, hstrip,
    Bool.false_eq_true, if_false]

end blocks

section travels
variable {i : Instr} {r : Row} {x : Fields} {s : State} {v : Lane} {resume : Bool} {report : Option (Nat × Nat)}

theorem raysWait_free (h : v.NamesBlock s x false) (hload : s.rayLoad v.core < 256) (hboard : s.boardFree v.core ≠ 0) :
    raysWait x s [v] = false := by
  have hmine : ([v].filter fun v => (v.blockTrap (v.r32 x.a).toNat).isNone) = [v] := by simp [blockTrap_none h]
  simp only [raysWait, hmine, blockWaits_free h, rayRoom, List.length_nil, Bool.or_false, Bool.or_eq_false_iff, decide_eq_false_iff_not]
  exact ⟨by omega, decide_eq_false (Nat.not_le.mpr hload)⟩

/-- R97, R318: the issue of a traversal of a clean block: its operation, its write entry and its pending result. -/
theorem traverse_starts {u : State} (h : v.NamesBlock u x false) (hg : u.group v.th.gid = some v.g) (hload : u.rayLoad v.core < 256)
    (hclean : v.g.spClean (v.r32 x.a).toNat 64 = true) :
    let a := (v.r32 x.a).toNat
    let kind := OpKind.trav { block := a, start := v.g.spRead a 64, resume := resume, report := report }
    let o := u.newOp { thread := v.key, gid := v.th.gid, core := v.core, pc := v.th.pc, dst := v.places 1 x.d, tc := none, kind := kind }
    let e : SbEntry :=
      { op := o.2, core := v.core, gid := v.th.gid, lo := v.g.pool a, hi := v.g.pool (a + 63), write := true, empty := false }
    v.traverse x resume report u = .wait ((o.1.enter e).pendDsts v.key v.th.gid (v.places 1 x.d)) (.ray o.2) := by
  intro a kind o e
  have hroom : (decide (rayRoom ≤ u.rayLoad v.core) || u.boardBlocks v (v.g.pool (v.r32 x.a).toNat) (v.g.pool ((v.r32 x.a).toNat + 63)) false) =
      false := by
    rw [h.free, Bool.or_false]
    exact decide_eq_false (Nat.not_le.mpr hload)
  simp only [Lane.traverse, blockTrap_none h, hroom, Bool.false_eq_true, if_false, plainRead_clean (rs := [(_, 64)]) hg (by simpa using hclean),
    rayBlock_clean hclean]
  rfl

end travels

/-- Settles O40: each form by what its checks and its plain reads come to on such a block (`blockTrap_none`, `block64_clean`). -/
theorem rays : Obligations.Rays := by
  unfold Obligations.Rays
  intro x s vs l a room bytes at_ fresh cb tile n sampled dir eye ray leaf quad travels
  have hnames {store : Bool} {reads : List (Nat × Nat)} {v : Lane} (h : room store reads v) : v.NamesBlock s.tick x store := by
    obtain ⟨halign, hbound, -, hfree⟩ := h
    exact ⟨halign, hbound, hfree⟩
  have hclean {store : Bool} {reads : List (Nat × Nat)} {v : Lane} (h : room store reads v) :
      ∀ r ∈ reads, v.g.spClean (a v + r.1) r.2 = true := by
    obtain ⟨-, -, hclean, -⟩ := h
    exact hclean
  have htail (v : Lane) : rylTail (field (bytes v) 32 8) cb = fresh v cb := rylTail_eq _ _
  have htravel {i : Instr} {resume : Bool} {report : Lane → Option (Nat × Nat)}
      (hexec : exec i s = issue i (raySpec i x resume report) s) : travels i resume report := by
    rintro r v hi hv ⟨hroom, hload, hboard⟩
    exact alone_waits hexec hi hv (raysWait_free (hnames hroom) hload hboard)
      (traverse_starts (hnames hroom) (tick_group hi) hload (hclean hroom (0, 64) (by simp)))
  refine ⟨?ryl, ?rylV, ?ryx, ?ryh, ?idle, ?leaf, htravel rfl, htravel rfl, htravel rfl⟩
  case ryl =>
    intro r v hi hv hroom
    refine alone_completes rfl hi hv (blockWaits_free (hnames hroom)) ?_
    rw [block64_clean (hnames hroom) (tick_group hi) (hclean hroom), field_clean (by decide) (hclean hroom (32, 8) (by simp)), htail]
  case rylV =>
    rintro r v hi hv ⟨hroom, hview, hlens, hword, hindex, hlatch⟩
    refine alone_completes rfl hi hv (blockWaits_free (hnames hroom)) ?_
    have hsample : v.Samples s.tick (x.immBits 2 1) (tile v) (n v) vs l :=
      ⟨(congrArg (s.view v.g.ctx) (immBits_view x)).trans hview, hlens, hword, hindex, hlatch⟩
    have hroot := hclean hroom (32, 8) (by simp)
    simp only [blockTrap_none (hnames hroom)]
    rw [sample_latched hsample, block64_clean (hnames hroom) (tick_group hi) (hclean hroom), field_clean (by decide) hroot,
      spSound_part_clean (by decide) hroot, htail]
    rfl
  case ryx =>
    intro r v hi hv hroom
    refine alone_completes rfl hi hv (blockWaits_free (hnames hroom)) ?_
    rw [block64_clean (hnames hroom) (tick_group hi) (hclean hroom), updGroup_congr (tick_group hi)]
    have hlast : at_ v 63 1 = (Store.rd 0 v.g.sp (a v + 63)).toNat := by
      refine (congrArg ofBytes (spRead_part (by decide))).trans ?_
      simp [Group.spRead, ofBytes]
    rw [hlast, and_low_six]
  case ryh =>
    intro r v hi hv hroom
    refine alone_completes rfl hi hv (blockWaits_free (hnames hroom)) ?_
    have hprim := hclean hroom (28, 4) (by simp)
    have hrest : v.g.spClean ((v.r32 x.a).toNat + 40) 12 = true := hclean hroom (40, 12) (by simp)
    have hword (o : Nat) (hlo : 40 ≤ o) (hhi : o + 4 ≤ 52) : field (v.g.spSound (v.r32 x.a).toNat 64) o 4 = at_ v o 4 :=
      field_clean (by omega) (spClean_within hrest (by omega) (by omega) (by decide))
    rw [block64_clean (hnames hroom) (tick_group hi) (hclean hroom), field_clean (by decide) hprim, hword 40 (by decide) (by decide),
      hword 44 (by decide) (by decide), hword 48 (by decide) (by decide)]
    rfl
  case idle =>
    rintro r v hi hv ⟨hroom, hsusp⟩
    refine alone_completes rfl hi hv (blockWaits_free (hnames hroom)) ?_
    have hall : v.g.spClean (v.r32 x.a).toNat 64 = true := hclean hroom (0, 64) (by simp)
    have hidle : (Ray.of (v.g.spRead (v.r32 x.a).toNat 64)).susp = false := hsusp
    rw [block64_clean (hnames hroom) (tick_group hi) (rys_reads_clean hall), tick_group hi, Option.getD_some, rayBlock_clean hall]
    simp only [hidle, Bool.not_false, if_true]
  case leaf =>
    rintro r v hi hv ⟨hroom, hsusp, hhalt⟩
    refine alone_completes rfl hi hv (blockWaits_free (hnames hroom)) ?_
    have hall : v.g.spClean (v.r32 x.a).toNat 64 = true := hclean hroom (0, 64) (by simp)
    have hleaf : (Ray.of (v.g.spRead (v.r32 x.a).toNat 64)).susp = true := hsusp
    have hread : ((v.startFetch s.tick).read v .ray (Ray.of (v.g.spRead (v.r32 x.a).toNat 64)).cur 64).1.halt = none := hhalt
    rw [block64_clean (hnames hroom) (tick_group hi) (rys_reads_clean hall), tick_group hi, Option.getD_some, rayBlock_clean hall]
    simp only [hleaf, hread, Bool.not_true, Bool.false_eq_true, if_false]
    rfl

end Sys2Proof
end

section
/-!
PROOFS. Ends of the operations of the matrix engine, the tile writer and the ray unit (R99, R287 to R289, R291, R293 to R296, R308, R318, R330).
-/
namespace Sys2Proof.Machine

section
variable {s : State} {op : Nat} {o : AOp} {g : Group}

/-- R289: the sets of a tile end in their order: no earlier set of the group works on the tile. -/
def State.FirstOnTile (s : State) (op : Nat) (o : AOp) (m : MmaOp) : Prop :=
  ∀ e ∈ s.ops, e.1 < op → e.2.gid = o.gid → ∀ n, e.2.kind = .mma n → n.tile ≠ m.tile

/-- R287, R289: what a set leaves of its tile, on the window `w`. -/
def State.setEnded (s : State) (op : Nat) (o : AOp) (m : MmaOp) (w : List (List Word)) : State :=
  ((s.updTile o.gid m.tile fun t => { t.putWindow (32 * m.rb) (32 * m.cb) w with
    pending := t.pending - 1, opened := t.opened || m.op == 4 || m.op == 5 }).endOp op).retireEntries op

/-- R287, R289, R330: the end of a set, by what `State.relaxed` makes of its window. -/
theorem mmaSet_happens {m : MmaOp} {r : State × List (List Word)} (hop : Store.get s.ops op = some o) (hg : s.group o.gid = some g)
    (hheld : s.opHeld op = false) (hkind : o.kind = .mma m) (hfirst : s.FirstOnTile op o m)
    (hr : (s.readOperand o m.operand).relaxed m.relaxed (m.compute g) = r) :
    Happens (.mmaSetCompletion op) s
      ((if m.tithed then r.1.countTithe g.ctx 1 (boolNat (r.2 != m.compute g)) 0 else r.1).setEnded op o m (if m.tithed then m.compute g else r.2)) := by
  change execMmaSetCompletion op s = _
  subst hr
  simp only [execMmaSetCompletion, hop, hkind, hg, hheld, Bool.false_or]
  rw [if_neg]
  · rfl
  · rw [Bool.not_eq_true, List.any_eq_false]
    intro e he hmatch
    obtain ⟨hmine, hset⟩ := Bool.and_eq_true_iff.mp hmatch
    obtain ⟨hbefore, hgroup⟩ := Bool.and_eq_true_iff.mp hmine
    cases hk : e.2.kind with
    | mma n =>
      rw [hk] at hset
      exact hfirst e he (of_decide_eq_true hbefore) (eq_of_beq hgroup) n hk (eq_of_beq hset)
    | _ =>
      rw [hk] at hset
      cases hset

/-- R330: a tithe counts a window that differs. -/
theorem boolNat_bne {α : Type} [BEq α] [LawfulBEq α] [DecidableEq α] (a b : α) : boolNat (a != b) = if a = b then 0 else 1 := by
  by_cases h : a = b <;> simp [boolNat, h]

/-- R293 to R296: the end of an accumulator operation, by what its form does. -/
theorem accOp_happens {a : AccOp} (hop : Store.get s.ops op = some o) (hg : s.group o.gid = some g)
    (hheld : s.opHeld op = false) (hkind : o.kind = .acc a) :
    Happens (.accOpCompletion op) s (((s.runAcc o g a).endOp op).retireEntries op) := by
  change execAccOpCompletion op s = _
  simp only [execAccOpCompletion, hop, hkind, hg, hheld, Bool.false_eq_true, if_false]
  rfl

/-- R293: MACCR's values are written. -/
theorem values_happen {vs : List Word} {p : Option Nat} (hop : Store.get s.ops op = some o) (hg : s.group o.gid = some g)
    (hkind : o.kind = .value vs p) : Happens (.accOpCompletion op) s ((s.endOp op).landDsts o.thread o.gid o.dst vs) := by
  change execAccOpCompletion op s = _
  simp only [execAccOpCompletion, hop, hkind, hg]
  rfl

/-- R308: the end of a tile of a set that is still bound. -/
theorem tileWrite_happens {t : TileOp} {vs : ViewSet} (hop : Store.get s.ops op = some o) (hg : s.group o.gid = some g)
    (hheld : s.opHeld op = false) (hkind : o.kind = .tile t) (hview : s.view g.ctx t.slot = some vs) :
    Happens (.tileWriteCompletion op) s (s.writeTile op o t g vs) := by
  change execTileWriteCompletion op s = _
  simp only [execTileWriteCompletion, hop, hkind, hg, hview, hheld, Bool.false_eq_true, if_false]
  rfl

/-- R308: a tile that is in time, of sound bytes, and not cut off from the scanout memory, is written whole before its status word. -/
theorem writeTile_written {t : TileOp} {vs : ViewSet} (hbridge : s.bridgeStopped = true → dieOf o.core ≠ 1)
    (hsound : g.spPoisoned t.base 4096 = false) (htime : (s.now : Int) ≤ vs.deadline t.frame t.strip)
    (hdead : vs.deadNo ≤ t.frame * vs.strips + t.strip) :
    let read := s.readScratch o o.gid t.base 4096
    let d := (t.frame, t.view, t.strip, t.col)
    s.writeTile op o t g vs = ((({ read with
        scanout := setBytes read.scanout (vs.tileAt t.frame t.view t.strip t.col) (g.spRead t.base 4096) } : State).updView g.ctx t.slot fun v =>
          { v with done := if v.done.contains d then v.done else v.done ++ [d] }).complete op o [0]).progress g.ctx := by
  intro read d
  have hopen : (s.bridgeStopped && dieOf o.core == 1) = false := by
    rw [Bool.and_eq_false_imp]
    exact fun h => beq_eq_false_iff_ne.mpr (hbridge h)
  have hlate : (decide (vs.deadline t.frame t.strip < (s.now : Int)) || decide (t.frame * vs.strips + t.strip < vs.deadNo)) = false := by
    simp only [Bool.or_eq_false_iff, decide_eq_false_iff_not, not_lt]
    exact ⟨htime, hdead⟩
  simp only [State.writeTile, hopen, hsound, hlate, Bool.false_eq_true, if_false, if_true]
  rfl

variable {t : TravOp} {v : Lane}

/-- R318: the end of a traversal that came to a result. -/
theorem traversal_happens {f : Fetch} {bs : Option (List Byte)} {n : Nat} (hop : Store.get s.ops op = some o)
    (hheld : s.opHeld op = false) (hkind : o.kind = .trav t) (hlane : s.lanesOf [o.thread] = some [v]) (hready : s.rayAwaits o.thread = false)
    (hout : t.outcome v s = (f, some (bs, n))) :
    Happens (.traversalCompletion op) s (f.s.endTraversal op o t bs n f.poison) := by
  change execTraversalCompletion op s = _
  simp only [execTraversalCompletion, hop, hkind, hlane, hheld, hready, hout, Bool.or_self, Bool.false_eq_true, if_false]
  rfl

/-- R320: a traversal whose reads miss a translation asks for it. -/
theorem traversal_misses {f : Fetch} {va n : Nat} (hop : Store.get s.ops op = some o)
    (hheld : s.opHeld op = false) (hkind : o.kind = .trav t) (hlane : s.lanesOf [o.thread] = some [v]) (hready : s.rayAwaits o.thread = false)
    (hout : t.outcome v s = (f, none)) (hhalt : f.halt = some (.miss va n)) :
    Happens (.traversalCompletion op) s (f.s.sendMiss v.core v.g.ctx va
      { thread := v.key, unit := dataUnit v.core (quadOf v.key), kind := .ray, va := va, size := n, pc := v.th.pc, ordered := false,
        kept := none }) := by
  change execTraversalCompletion op s = _
  simp only [execTraversalCompletion, hop, hkind, hlane, hheld, hready, hout, hhalt, Bool.or_self, Bool.false_eq_true, if_false]
  rfl

theorem outcome_dead (h : (Ray.of t.start).live = false) : t.outcome v s = (v.startFetch s, some (none, 5)) := by
  simp only [TravOp.outcome, h, Bool.not_false, if_true]

theorem outcome_mismatched (hlive : (Ray.of t.start).live = true) (hsusp : (Ray.of t.start).susp ≠ t.resume) :
    t.outcome v s = (v.startFetch s, some (none, 6)) := by
  simp [TravOp.outcome, hlive, hsusp]

theorem outcome_run (hlive : (Ray.of t.start).live = true) (hsusp : (Ray.of t.start).susp = t.resume) :
    let q := (Ray.of t.start).run v (v.startFetch s) t.resume t.report
    t.outcome v s = (q.1, if q.1.halt.isSome then none else q.2.map fun e => (some (e.1.bytes t.start), e.2)) := by
  simp [TravOp.outcome, hlive, hsusp]

end
end Sys2Proof.Machine

namespace Sys2Proof
open Machine

/-- Settles O45: each event by its own rule, on what its operation's kind says. -/
theorem engineEnds : Obligations.EngineEnds := by
  unfold Obligations.EngineEnds
  intro s op o g hop hg hheld gone set
  refine ⟨?set, ?acc, ?value, ?tile, ?trav⟩
  case set =>
    intro m hkind hfirst read exact
    refine ⟨fun hexact hplain => ?_, fun l hrelaxed hplain => ?_, fun l hrelaxed htithed => ?_⟩
    · have h := mmaSet_happens hop hg hheld hkind hfirst (r := (read, exact)) (by rw [hexact]; rfl)
      rw [hplain] at h
      exact h
    · have h := mmaSet_happens hop hg hheld hkind hfirst (r := read.relaxWindow l exact) (by rw [hrelaxed]; rfl)
      rw [hplain] at h
      exact h
    · intro r
      have h := mmaSet_happens hop hg hheld hkind hfirst (r := r) (by rw [hrelaxed]; rfl)
      rw [htithed, if_pos rfl, if_pos rfl, boolNat_bne] at h
      exact h
  case acc =>
    intro a hkind
    have h := accOp_happens hop hg hheld hkind
    refine ⟨fun hform => ?_, fun hform => ?_, fun r hform hexact hrelaxed => ?_, fun hform => ?_⟩
    · simpa only [State.runAcc, hform] using h
    · simpa only [State.runAcc, hform] using h
    · have hr : s.relaxed a.relaxed (a.folded (g.tile a.tile) (g.tile a.other)) = r := by
        cases hl : a.relaxed with
        | none => exact (hexact hl).symm
        | some l => exact (hrelaxed l hl).symm
      simpa only [State.runAcc, hform, hr] using h
    · simpa only [State.runAcc, hform] using h
  case value =>
    intro vs p hkind
    exact values_happen hop hg hkind
  case tile =>
    intro t vs hkind hview hbridge hsound htime hdead
    have h := tileWrite_happens hop hg hheld hkind hview
    rwa [writeTile_written hbridge hsound htime hdead] at h
  case trav =>
    intro t v hkind hlane hready ray went landed ends
    refine ⟨fun hdead => ?_, fun hlive hsusp => ?_, fun out n hlive hsusp hgoes hwent => ?_, fun va n hlive hsusp hmiss => ?_⟩
    · have h := traversal_happens hop hheld hkind hlane hready (outcome_dead hdead)
      exact h
    · have h := traversal_happens hop hheld hkind hlane hready (outcome_mismatched hlive hsusp)
      exact h
    · have hout : t.outcome v s = (went.1, some (some (out.bytes t.start), n)) := by
        rw [outcome_run hlive hsusp]
        change (went.1, if went.1.halt.isSome then none else went.2.map _) = _
        rw [hgoes, hwent]
        rfl
      have h := traversal_happens hop hheld hkind hlane hready hout
      exact h
    · have hout : t.outcome v s = (went.1, none) := by
        rw [outcome_run hlive hsusp]
        change (went.1, if went.1.halt.isSome then none else went.2.map _) = _
        rw [hmiss]
        rfl
      exact traversal_misses hop hheld hkind hlane hready hout hmiss

end Sys2Proof
end

section
/-!
PROOFS. Registers named by an index (R122, R194, R195), and the traps of an index or of a window out of range (R110).
-/
namespace Sys2Proof
open Machine

section lanes
variable {i : Instr} {r : Row} {x : Fields} {s : State} {vs : List Lane} {f : Lane → State → Act} {rule : Lane → Option Nat}
  {extra : Lane → List (Dst × PFmt)} {stall : State → List Lane → Bool}

/-- R169: the checks of an instruction's own that stand in no active lane's way. -/
structure Unhindered (x : Fields) (s : State) (vs : List Lane) (rule : Lane → Option Nat) (extra : Lane → List (Dst × PFmt))
    (stall : State → List Lane → Bool) : Prop where
  rule : ∀ v ∈ activeLanes x vs, rule v = none
  extra : ∀ v ∈ activeLanes x vs, ∀ d ∈ extra v, isPending v.th v.g d.1 = false ∧ v.sound d.1 = true
  stall : stall s.tick (activeLanes x vs) = false

theorem Unhindered.clear (h : Unhindered x s vs rule extra stall) :
    Spec.Clear { row := r, x := x, lane := f, rule := rule, extra := extra, stall := stall } s vs :=
  ⟨fun _ _ => rfl, h.rule, rfl, rfl, rfl, fun v hv d hd => (h.extra v hv d hd).1, fun v hv d hd => (h.extra v hv d hd).2, h.stall⟩

/-- R416: an instruction whose every active lane traps, whatever the state in which its turn comes. -/
theorem traps_lanes (cause : Nat) (tval : Lane → Nat)
    (hexec : exec i s = issue i { specOf i f with rule := rule, extra := extra, stall := stall } s) (hi : Issues i r x s vs)
    (hclear : Unhindered x s vs rule extra stall) (hlane : ∀ v ∈ activeLanes x vs, ∀ u, f v u = .trap cause (tval v)) :
    exec i s = .next (((idleLanes x vs).foldl (fun s v => s.retire v.key) s.tick).takeTraps
      ((activeLanes x vs).map fun v => { key := v.key, cause := cause, tval := tval v })).settle.moved := by
  rw [hexec, specOf_eq hi.row]
  exact issue_traps (fun _ => cause) tval hi hclear.clear fun v hv => hlane v hv _

/-- R169: an instruction whose every active lane completes, whatever the state in which its turn comes. -/
theorem completes_unhindered (w : Lane → State → State)
    (hexec : exec i s = issue i { specOf i f with rule := rule, extra := extra, stall := stall } s) (hi : Issues i r x s vs)
    (hclear : Unhindered x s vs rule extra stall) (hlane : ∀ v ∈ activeLanes x vs, ∀ u, f v u = .done (w v u)) :
    exec i s = .next (s.completeAll r x vs w).settle.moved := by
  rw [hexec, specOf_eq hi.row]
  exact issue_done (fun _ => True) w hi hclear.clear (fun v hv u _ => ⟨hlane v hv u, trivial⟩) trivial

/-- R118, R169: an instruction that reads one further register in each active lane completes when none of them is pending or in error. -/
theorem completes_reading (d : Lane → Dst) (w : Lane → State → State) (hexec : exec i s = issue i { specOf i f with extra := extra } s)
    (hi : Issues i r x s vs) (hextra : ∀ v ∈ activeLanes x vs, extra v = [(d v, .int)])
    (hread : ∀ v ∈ activeLanes x vs, isPending v.th v.g (d v) = false ∧ v.sound (d v) = true)
    (hlane : ∀ v ∈ activeLanes x vs, ∀ u, f v u = .done (w v u)) : exec i s = .next (s.completeAll r x vs w).settle.moved := by
  refine completes_unhindered (rule := fun _ => none) (stall := fun _ _ => false) w (hexec.trans (by rw [specOf_eq hi.row])) hi
    ⟨by simp, fun v hv e he => ?_, rfl⟩ hlane
  obtain rfl : e = (d v, .int) := by simpa [hextra v hv] using he
  exact hread v hv

/-- R169: an instruction that reads no further register in its active lanes, and has no other check of its own. -/
theorem unhindered_of_no_reads (h : ∀ v ∈ activeLanes x vs, extra v = []) : Unhindered x s vs (fun _ => none) extra (fun _ _ => false) :=
  ⟨by simp, fun v hv d hd => by simp [h v hv] at hd, rfl⟩

end lanes

/-- Settles O13: an index in range names one further register, which the lane waits for and reads, or writes. -/
theorem indexedMoves : Obligations.IndexedMoves := by
  unfold Obligations.IndexedMoves
  intro x s at_ k
  refine ⟨fun r vs hi hok => ?movk, fun r vs hi hok => ?movx, fun r vs hi hok => ?movxs⟩
  case movk =>
    refine completes_reading (fun v => .uniform (k v)) _ rfl hi (fun v hv => if_pos (hok v hv).1) (fun v hv => (hok v hv).2) fun v hv u => ?_
    exact (if_neg (Nat.not_lt.mpr (hok v hv).1)).trans (congrArg Act.done (wr_one_word ..).symm)
  case movx =>
    refine completes_reading at_ _ rfl hi (fun v hv => if_pos (hok v hv).1) (fun v hv => (hok v hv).2) fun v hv u => ?_
    exact (if_neg (Nat.not_lt.mpr (hok v hv).1)).trans (congrArg Act.done (wr_one_word ..).symm)
  case movxs =>
    refine completes_stalling _ rfl hi ?stall fun v hv u => ?lane
    case stall =>
      refine List.any_eq_false.mpr fun v hv => ?_
      have hfree : isPending v.th v.g (v.indexed x) = false := (hok v hv).2
      simp [hfree]
    case lane => exact if_neg (Nat.not_lt.mpr (hok v hv).1)

section windows
variable {x : Fields} {s : State} {vs : List Lane}

/-- R127: outside a sheaf nothing bars a lane. -/
theorem barred_none {v : Lane} (h : v.th.sheaf = none) : v.barred = none := by simp [Lane.barred, h]

/-- R127, R201: a CALL outside a sheaf, whose window's w30 and w31 are not pending, is free to issue. -/
theorem call_unhindered (hsheaf : ∀ v ∈ activeLanes x vs, v.th.sheaf = none)
    (hfree : ∀ v ∈ activeLanes x vs, isPending v.th v.g (v.place 30) = false ∧ isPending v.th v.g (v.place 31) = false) :
    Unhindered x s vs Lane.barred (fun _ => []) callWaits where
  rule := fun v hv => barred_none (hsheaf v hv)
  extra := by simp
  stall := List.any_eq_false.mpr fun v hv => by simp [hfree v hv]

/-- R110, R201: a call for which the stack has no room. -/
theorem call_overflows {v : Lane} {t : Nat} (hlast : v.th.wb / 16 ≠ 65535) (hfull : v.th.words < v.th.wb + 48 - v.th.sb) (u : State) :
    v.call u t = .trap 0x0D v.th.wstat.toNat := (if_neg hlast).trans (if_pos hfull)

/-- R110, R202: a return below the words that are still in the stack. -/
theorem ret_underflows {v : Lane} (hframe : 16 ≤ v.th.wb) (hspilled : v.th.wb - 16 < v.th.sb) (u : State) :
    v.ret u = .trap 0x0E v.th.wstat.toNat := (if_neg (Nat.not_lt.mpr hframe)).trans (if_pos hspilled)

end windows

/-- Settles O18: no check of an instruction's own hinders a lane whose window or index is out of range, and the lane traps. -/
theorem windowAndIndexTraps : Obligations.WindowAndIndexTraps := by
  unfold Obligations.WindowAndIndexTraps
  intro x s wstat full k
  have hcall {vs : List Lane} (hok : ∀ v ∈ activeLanes x vs, full v) : Unhindered x s vs Lane.barred (fun _ => []) callWaits :=
    call_unhindered (fun v hv => (hok v hv).1) fun v hv => have ⟨_, _, _, hfree⟩ := hok v hv; hfree
  have hover {vs : List Lane} (hok : ∀ v ∈ activeLanes x vs, full v) (t : Lane → Nat) :
      ∀ v ∈ activeLanes x vs, ∀ u, v.call u (t v) = .trap 0x0D (wstat v) :=
    fun v hv => have ⟨_, hlast, hfull, _⟩ := hok v hv; call_overflows hlast hfull
  refine ⟨fun r vs hi hok => traps_lanes _ _ rfl hi (hcall hok) (hover hok _), fun r vs hi hok => traps_lanes _ _ rfl hi (hcall hok) (hover hok _),
    fun r vs hi hok => traps_lanes (stall := fun _ _ => false) _ _ rfl hi ⟨?rule, ?reads, rfl⟩ ?under,
    fun r vs hi hok => ?movk, fun r vs hi hok => ?movx, fun r vs hi hok => ?movxs⟩
  case rule => exact fun v hv => barred_none (hok v hv).1
  case reads =>
    intro v hv d hd
    obtain ⟨-, -, hspilled⟩ := hok v hv
    have hret : v.retOk = false := by simp [Lane.retOk, hspilled]
    simp [hret] at hd
  case under => exact fun v hv => have ⟨_, hframe, hspilled⟩ := hok v hv; ret_underflows hframe hspilled
  case movk =>
    exact traps_lanes _ _ rfl hi (unhindered_of_no_reads fun v hv => if_neg (Nat.not_le.mpr (hok v hv))) fun v hv u => if_pos (hok v hv)
  case movx =>
    exact traps_lanes _ _ rfl hi (unhindered_of_no_reads fun v hv => if_neg (Nat.not_le.mpr (hok v hv))) fun v hv u => if_pos (hok v hv)
  case movxs =>
    refine traps_lanes (rule := fun _ => none) (extra := fun _ => []) _ _ rfl hi ⟨by simp, by simp, List.any_eq_false.mpr fun v hv => ?_⟩
      fun v hv u => if_pos (hok v hv)
    have hout : ¬ (v.r32 x.a).toNat ≤ 31 := Nat.not_le.mpr (hok v hv)
    simp [hout]

end Sys2Proof
end

section
/-!
PROOFS. Branches, calls and returns, and the entry and the end of a sheaf (R110, R122 to R124, R128, R199 to R204).
-/
namespace Sys2Proof
open Machine

section targets
variable {s u : State} {v : Lane} {t : Nat} {k : Act}

/-- R22: which addresses a lane's context admits rests on the contexts alone. -/
theorem admits_congr (hctxs : u.ctxs = s.ctxs) (h : v.admits s t) : v.admits u t := by
  obtain ⟨c, hc, hadmits⟩ := h
  exact ⟨c, (congrArg (Store.get · v.g.ctx) hctxs).trans hc, hadmits⟩

/-- R200: a target that a branch may have. -/
theorem branchTo_admitted (halign : t % 8 = 0) (h : v.admits u t) : u.branchTo v t k = k := by
  obtain ⟨c, hc, hadmits⟩ := h
  simp [State.branchTo, halign, hc, hadmits]

/-- R127, R200: a branch to an address inside the lane's sheaf, if it is in one. -/
theorem branch_inside (halign : t % 8 = 0) (h : v.admits u t)
    (hin : ∀ sh, v.th.sheaf = some sh → sh.base + 8 + 24 * sh.paths ≤ t ∧ t ≤ sh.stop) : v.branch u t = .jump u t := by
  unfold Lane.branch
  split
  case h_1 sh hsh => simp [Sheaf.contains, hin sh hsh, branchTo_admitted halign h]
  case h_2 => exact branchTo_admitted halign h

/-- R201: what a call leaves: its return address in w30 and w31 of the caller's window, and the window slid. -/
def Machine.Lane.slideWindow (v : Lane) (u : State) : State :=
  (u.putDsts v.key v.th.gid [v.place 30, v.place 31] [word (v.th.pc + 8), word ((v.th.pc + 8) / 2 ^ 32)]).updThread v.key
    fun th => { th with wb := th.wb + 16 }

/-- R110, R201: a call for which the stack has room. -/
theorem call_slides (hlast : v.th.wb / 16 ≠ 65535) (hroom : v.th.wb + 48 - v.th.sb ≤ v.th.words) (halign : t % 8 = 0) (h : v.admits u t) :
    v.call u t = .jump (v.slideWindow u) t := by
  have hret : wordsOf 2 (v.th.pc + 8) = [word (v.th.pc + 8), word ((v.th.pc + 8) / 2 ^ 32)] := by simp [wordsOf, List.range_succ]
  simp only [Lane.call, hlast, if_false, Nat.not_lt.mpr hroom, hret]
  exact branchTo_admitted halign h

/-- R202: outside a sheaf the return address is read in w14 and w15. -/
theorem r64_return (hsheaf : v.th.sheaf = none) : v.r64 14 = v.stackWord 15 ++ v.stackWord 14 := by
  simp [Lane.r64, Thread.rename, hsheaf, Lane.readRaw]

/-- R110, R202: a return to a window that is still in the stack. -/
theorem ret_slides (hsheaf : v.th.sheaf = none) (hframe : 16 ≤ v.th.wb) (hkept : v.th.sb ≤ v.th.wb - 16)
    (ht : (v.stackWord 15 ++ v.stackWord 14).toNat = t) (halign : t % 8 = 0) (h : v.admits u t) :
    v.ret u = .jump (u.updThread v.key fun th => { th with wb := th.wb - 16 }) t := by
  simp only [Lane.ret, Nat.not_lt.mpr hframe, Nat.not_lt.mpr hkept, if_false, r64_return hsheaf, ht]
  exact branchTo_admitted halign h

end targets

section lanes
variable {i : Instr} {r : Row} {x : Fields} {s : State} {vs : List Lane} {f : Lane → State → Act} {rule : Lane → Option Nat}
  {extra : Lane → List (Dst × PFmt)} {stall : State → List Lane → Bool}

/-- R199: an instruction whose every active lane goes on at an address of its own, where the lanes before it have left the contexts. -/
theorem jumps_lanes (w : Lane → State → State) (pc : Lane → Nat)
    (hexec : exec i s = issue i { specOf i f with rule := rule, extra := extra, stall := stall } s) (hi : Issues i r x s vs)
    (hclear : Unhindered x s vs rule extra stall) (hctxs : ∀ v u, (w v u).ctxs = u.ctxs)
    (hlane : ∀ v ∈ activeLanes x vs, ∀ u, u.ctxs = s.ctxs → f v u = .jump (w v u) (pc v)) :
    exec i s = .next (s.commit x vs fun v s => (w v s).finishAt v r x (pc v)).settle.moved := by
  rw [hexec, specOf_eq hi.row]
  refine issue_jump (fun u => u.ctxs = s.ctxs) w pc hi hclear.clear (fun v hv u hu => ⟨hlane v hv u hu, ?_⟩) ?_
  · exact (State.finishAt_ctxs ..).trans ((hctxs v u).trans hu)
  · exact (foldl_same State.ctxs (fun (s : State) (v : Lane) => s.retire v.key) (fun _ _ => rfl) _ _).trans rfl

/-- R169: a gather of one active lane that goes on at another address. -/
theorem alone_jumps {v : Lane} {u : State} {pc : Nat} (hexec : exec i s = issue i { specOf i f with rule := rule, stall := stall } s)
    (hi : Issues i r x s [v]) (hv : v.active x.g x.gn = true) (hrule : rule v = none) (hstall : stall s.tick [v] = false)
    (hlane : f v s.tick = .jump u pc) : exec i s = .next (u.finishAt v r x pc).settle.moved := by
  rw [hexec, specOf_eq hi.row]
  exact issue_alone (a := .jump u pc) hi (alone_asks hv rfl hrule rfl rfl rfl rfl hstall) hv hlane rfl

end lanes

section sheaves
variable {x : Fields} {s u : State} {v : Lane} {bs : List Byte}

/-- R123: the path that a lane's predicates name. -/
theorem pathId_eq (hpaths : x.m.toNat ∈ [2, 3, 4]) :
    v.pathId x = (v.pred x.a).toNat + (if x.m.toNat = 2 then 0 else 2 * (v.pred x.b).toNat) := by
  have hnat (b : Bool) : boolNat b = b.toNat := by cases b <;> rfl
  have htwo : 2 < x.m.toNat ↔ ¬ x.m.toNat = 2 := by
    simp only [List.mem_cons, List.not_mem_nil, or_false] at hpaths
    omega
  simp only [Lane.pathId, hnat, htwo, ite_not]

/-- R168, R203: SHFB stands under no guard, so a lane outside a sheaf is active. -/
theorem shfb_active (h : extraOk (.shfb x) = true) (hsheaf : v.th.sheaf = none) : v.active x.g x.gn = true := by
  simp only [extraOk, Bool.and_eq_true, beq_iff_eq] at h
  obtain ⟨⟨hguard, -⟩, -⟩ := h
  simp [Lane.active, hsheaf, hguard]

/-- R123, R124, R203: a lane on one of the paths enters the sheaf with the tables that it fetches. -/
theorem enterSheaf_enters (hpath : v.pathId x < x.m.toNat) (hset : s.setShort v.core (quadOf v.key) v.g.ctx v.th.pc = false)
    (hfetch : s.fetchBytes 3 (fetchAsker v.key v.g.ctx v.th.pc) (v.th.pc + 8) (24 * x.m.toNat) v.th.peerBuf = (u, .ok bs))
    (htables : tablesOk (dwordsOf (3 * x.m.toNat) bs) = true) :
    v.enterSheaf x s = .jump (u.updThread v.key fun th =>
      { th with sheaf := some { base := v.th.pc, stop := v.th.pc + 8 * x.imm.toNat, paths := x.m.toNat, path := v.pathId x,
                                tables := dwordsOf (3 * x.m.toNat) bs } }) (v.th.pc + 8 + 24 * x.m.toNat) := by
  have hfetch' : s.fetchBytes 3 { input := v.core, core := v.core, ctx := v.g.ctx, thread := some v.key, pc := v.th.pc } (v.th.pc + 8)
      (24 * x.m.toNat) v.th.peerBuf = (u, .ok bs) := hfetch
  simp only [Lane.enterSheaf, Nat.not_le.mpr hpath, if_false, hset, Bool.false_eq_true, hfetch', htables, Bool.not_true]

/-- R129: a lane for which a table set is held or free does not wait for one. -/
theorem sheafWaits_free (hset : s.setShort v.core (quadOf v.key) v.g.ctx v.th.pc = false) : sheafWaits x s.tick [v] = false := by
  have htick : s.tick.setShort v.core (quadOf v.key) v.g.ctx v.th.pc = false := hset
  simp [sheafWaits, htick]

/-- R128, R204: SHFE at the end of the lane's sheaf takes it out. -/
theorem leaveSheaf_ends {sh : Sheaf} (hsheaf : v.th.sheaf = some sh) (hstop : sh.stop = v.th.pc) :
    v.leaveSheaf u = .done (u.updThread v.key fun th => { th with sheaf := none }) := by
  simp only [Lane.leaveSheaf, hsheaf, hstop, ne_eq, not_true_eq_false, if_false]

end sheaves

/-- Settles O14: a target that is aligned, admitted and inside the sheaf is gone to; what each form changes on the way is one lemma. -/
theorem branchesAndSheaves : Obligations.BranchesAndSheaves := by
  unfold Obligations.BranchesAndSheaves
  intro x s near far target inside fits slide back path enter
  have hcall {vs : List Lane} {t : Lane → Nat} (hok : ∀ v ∈ activeLanes x vs, fits v ∧ target v (t v)) :
      Unhindered x s vs Lane.barred (fun _ => []) callWaits ∧
        ∀ v ∈ activeLanes x vs, ∀ u : State, u.ctxs = s.ctxs → v.call u (t v) = .jump (slide v u) (t v) := by
    refine ⟨call_unhindered (fun v hv => (hok v hv).1.1) fun v hv => have ⟨⟨_, _, _, hfree⟩, _⟩ := hok v hv; hfree, fun v hv u hu => ?_⟩
    obtain ⟨⟨-, hlast, hroom, -⟩, halign, hadmits⟩ := hok v hv
    exact call_slides hlast hroom halign (admits_congr hu hadmits)
  have hslide (v : Lane) (u : State) : (slide v u).ctxs = u.ctxs := State.putDsts_ctxs ..
  have hbranch {vs : List Lane} {t : Lane → Nat} (hok : ∀ v ∈ activeLanes x vs, target v (t v) ∧ inside v (t v)) :
      ∀ v ∈ activeLanes x vs, ∀ u : State, u.ctxs = s.ctxs → v.branch u (t v) = .jump u (t v) := by
    intro v hv u hu
    obtain ⟨⟨halign, hadmits⟩, hin⟩ := hok v hv
    exact branch_inside halign (admits_congr hu hadmits) hin
  have hplain {vs : List Lane} : Unhindered x s vs (fun _ => none) (fun _ => []) (fun _ _ => false) := ⟨by simp, by simp, rfl⟩
  refine ⟨fun r vs hi hok => jumps_lanes _ _ rfl hi hplain (fun _ _ => rfl) (hbranch hok),
    fun r vs hi hok => jumps_lanes _ _ rfl hi hplain (fun _ _ => rfl) (hbranch hok),
    fun r vs hi hok => jumps_lanes _ _ rfl hi (hcall hok).1 hslide (hcall hok).2,
    fun r vs hi hok => jumps_lanes _ _ rfl hi (hcall hok).1 hslide (hcall hok).2,
    fun r vs hi hok => ?ret, fun r v bs u hi hsheaf hpath hset hfetch htables => ?enters, fun r vs hi hok => ?leaves⟩
  case ret =>
    refine jumps_lanes (stall := fun _ _ => false) _ _ rfl hi ⟨fun v hv => ?rule, fun v hv d hd => ?reads, rfl⟩ (fun _ _ => rfl)
      fun v hv u hu => ?lane
    all_goals obtain ⟨hsheaf, hframe, hkept, ⟨halign, hadmits⟩, hreads⟩ := hok v hv
    case rule => exact barred_none hsheaf
    case reads =>
      have hret : v.retOk = true := by simp [Lane.retOk, hframe, hkept]
      simp only [hret, if_true] at hd
      exact hreads d.1 (List.mem_map_of_mem (f := Prod.fst) hd)
    case lane => exact ret_slides hsheaf hframe hkept rfl halign (admits_congr hu hadmits)
  case enters =>
    obtain rfl : _ = r := congrArg Prod.fst (Option.some.inj hi.row)
    have hid : v.pathId x = path v := pathId_eq (ms_of hi)
    have hv : v.active x.g x.gn = true := shfb_active hi.ok.2 hsheaf
    have hlane := enterSheaf_enters (s := s.tick) (hid ▸ hpath) hset hfetch htables
    rw [hid] at hlane
    exact alone_jumps rfl hi hv (barred_none hsheaf) (sheafWaits_free hset) hlane
  case leaves =>
    refine completes_unhindered (extra := fun _ => []) (stall := fun _ _ => false) _ rfl hi ⟨fun v hv => ?_, by simp, rfl⟩ fun v hv u => ?_
    · simp [(hok v hv).1]
    · obtain ⟨-, sh, hsheaf, hstop⟩ := hok v hv
      exact leaveSheaf_ends hsheaf hstop

end Sys2Proof
end

section
/-!
PROOFS. LD and ST present their accesses (R117, R246, R249).
-/
namespace Sys2Proof
open Machine

section global
variable {s u : State} {v : Lane} {x : Fields}

/-- R246, R249, R253: an access whose first and last byte the lane's context admits, and which is aligned where it must be. -/
theorem checkGlobal_passes {a n : Nat} {aligned : Bool} {k : Act} (hfirst : v.admits s a) (hlast : v.admits s (a + n - 1))
    (halign : aligned = true → a % n = 0) : s.checkGlobal v a n aligned k = k := by
  cases aligned with
  | false => exact checkGlobal_admitted hfirst hlast
  | true => simpa [State.checkGlobal, halign rfl] using checkGlobal_admitted (k := k) hfirst hlast

/-- R246: the checks that an access passes in a state that accesses alone have left. -/
theorem checkGlobal_after {a n : Nat} {aligned : Bool} {k : Act} (h : AccessOnly s u)
    (hok : v.admits s a ∧ v.admits s (a + n - 1) ∧ (aligned = true → a % n = 0)) : u.checkGlobal v a n aligned k = k := by
  obtain ⟨hfirst, hlast, halign⟩ := hok
  exact checkGlobal_passes ((h.admits v _).mpr hfirst) ((h.admits v _).mpr hlast) halign

/-- R117, R246, R249: what an LD leaves: its destination pending on a new operation, and its pieces presented. -/
def Machine.Lane.presentLoad (v : Lane) (x : Fields) (u : State) : State :=
  let cut := pieces (v.address x) (sizeBytes x.sizeCode)
  let op := v.newLoad u (sizeBytes x.sizeCode) cut.length (x.fn.getLsbD 3) (v.places (Fields.sizeRegs x.sizeCode) x.d) none
  op.1.present v.key (cut.map fun p => { v.blankAccess .load (sizeBytes x.sizeCode) op.2 with
    va := p.1, size := p.2.1, off := p.2.2, acquires := x.fn.getLsbD 4 && x.m.toNat != 0 })

/-- R246, R249: what an ST leaves: its data presented in pieces. -/
def Machine.Lane.presentStore (v : Lane) (x : Fields) (u : State) : State :=
  let data := toBytes (sizeBytes x.sizeCode) (v.rd (Fields.sizeRegs x.sizeCode) x.b)
  u.present v.key ((pieces (v.address x) (sizeBytes x.sizeCode)).map fun p => { v.blankAccess .store (sizeBytes x.sizeCode) 0 with
    va := p.1, size := p.2.1, data := (data.drop p.2.2).take p.2.1, ordered := x.fn.getLsbD 5 })

theorem presentLoad_access (v : Lane) (x : Fields) (u : State) : AccessOnly u (v.presentLoad x u) :=
  (newLoad_access ..).trans (present_access ..)

theorem presentStore_access (v : Lane) (x : Fields) (u : State) : AccessOnly u (v.presentStore x u) := present_access ..

end global

/-- R246: an instruction whose active lanes make accesses alone completes, where the lanes before have done no more. -/
theorem completes_accesses {i : Instr} {r : Row} {x : Fields} {s : State} {vs : List Lane} {f : Lane → State → Act} (w : Lane → State → State)
    (hexec : exec i s = issue i (specOf i f) s) (hi : Issues i r x s vs) (haccess : ∀ v u, AccessOnly u (w v u))
    (hlane : ∀ v ∈ activeLanes x vs, ∀ u, AccessOnly s.tick u → f v u = .done (w v u)) :
    exec i s = .next (s.completeAll r x vs w).settle.moved := by
  rw [hexec, specOf_eq hi.row]
  refine issue_done (p := { row := r, x := x, lane := f }) (AccessOnly s.tick) w hi
    ⟨fun _ _ => rfl, fun _ _ => rfl, rfl, rfl, rfl, by simp, by simp, rfl⟩
    (fun v hv u hu => ⟨hlane v hv u hu, (hu.trans (haccess v u)).trans (finish_access ..)⟩) ?_
  exact AccessOnly.foldl (fun _ _ => retire_access ..) _ _

/-- Settles O19: the checks rest on the contexts, which the accesses of the lanes before leave, and then the pieces are presented. -/
theorem loadsAndStores : Obligations.LoadsAndStores := by
  unfold Obligations.LoadsAndStores
  intro x s n addr ok
  have hok {ordered : Bool} {v : Lane} (h : ok ordered v) : v.admits s.tick (v.address x) ∧ v.admits s.tick (v.address x + n - 1) ∧
      (ordered = true → v.address x % n = 0) := by
    rw [address_eq]
    exact h
  have hscope : (x.m != 0) = (x.m.toNat != 0) := by
    rw [Bool.eq_iff_iff, bne_iff_ne, bne_iff_ne, ne_eq, ne_eq, ← BitVec.toNat_inj]
    rfl
  have hregs : Fields.dataRegs n = Fields.sizeRegs x.sizeCode := (sizeRegs_eq x.sizeCode).symm
  have haddr : addr = fun v => v.address x := funext fun v => (address_eq v x).symm
  refine ⟨fun r vs hi hlanes => ?load, fun r vs hi hlanes => ?store⟩
  case load =>
    rw [haddr, hregs, hscope]
    exact completes_accesses (fun v u => v.presentLoad x u) rfl hi (fun v u => presentLoad_access v x u)
      fun v hv u hu => checkGlobal_after hu (hok (hlanes v hv))
  case store =>
    rw [haddr, hregs]
    exact completes_accesses (fun v u => v.presentStore x u) rfl hi (fun v u => presentStore_access v x u)
      fun v hv u hu => checkGlobal_after hu (hok (hlanes v hv))

end Sys2Proof
end

section
/-!
PROOFS. WSPILL and WFILL (R111, R112).
-/
namespace Sys2Proof
open Machine

section spill
variable {s : State} {v : Lane} {t : Xlat}

/-- R111: the stack words that WSPILL stores or WFILL reads, from lo on. -/
def Machine.Lane.spillWords (v : Lane) (lo : Nat) : List Nat := (List.range 16).map fun i => (lo + i) % v.th.words

theorem block_eq (lo : Nat) : v.block lo = (v.spillWords lo).map Dst.stack := by
  rw [Lane.spillWords, List.map_map]
  rfl

/-- R363: an access of a thread with nothing unperformed at a peer does not wait for its order. -/
theorem orderWaits_settled {va : Nat} {kind : AccKind} (hset : v.settled s) (hpage : v.page s va (v.blankAccess kind 64 0).accessKind = some t) :
    s.orderWaits v va kind = false := by
  unfold State.orderWaits
  extract_lets blank a
  have hlookup : s.lookup (dataUnit v.core (quadOf v.key)) v.core v.g.ctx va a.accessKind = (s, some t) := lookup_page hpage
  have hplain : a.ordered = false := rfl
  simp [hlookup, State.holds, acquiring_settled hset, peerHolds_settled hset, hplain]

/-- R111: WSP after a spill, its bits above 56 zero. -/
theorem wsp_spilled (w : DWord) : dword ((w.toNat + 64) % 2 ^ 57) = ((w + 64).setWidth 57).setWidth 64 := by
  apply BitVec.eq_of_toNat_eq
  have hstep : (64 : DWord).toNat = 64 := rfl
  simp only [dword, BitVec.toNat_ofNat, BitVec.toNat_setWidth, BitVec.toNat_add, hstep]
  omega

/-- R111: WSP after a fill. -/
theorem fillAt_eq (v : Lane) : v.fillAt = (v.th.wsp - 64).toNat := by
  have hstep : (64 : DWord).toNat = 64 := rfl
  have := v.th.wsp.isLt
  rw [Lane.fillAt, modPow, BitVec.toNat_sub, hstep]
  omega

/-- R111: the 64 bytes that WSPILL stores. -/
def Machine.Lane.spillBytes (v : Lane) : List Byte := (v.spillWords v.th.sb).flatMap fun i => toBytes 4 (Store.rd 0 v.th.stack i).toNat

/-- R111: a spill for which there is a window to store, to a page of this module. -/
theorem spill_stores (hroom : v.th.sb + 16 ≤ v.th.wb) (halign : v.th.wsp.toNat % 64 = 0) (hfirst : v.admits s v.th.wsp.toNat)
    (hlast : v.admits s (v.th.wsp.toNat + 63)) (hpage : v.page s v.th.wsp.toNat .store = some t) (hpeer : t.peer = none) (hset : v.settled s) :
    v.spill s = .done ((s.performLocal v.key v.g { v.blankAccess .store 64 0 with va := v.th.wsp.toNat, size := 64, data := v.spillBytes } t).updThread
      v.key fun th => { th with wsp := ((th.wsp + 64).setWidth 57).setWidth 64, sb := th.sb + 16 }) := by
  simp only [Lane.spill, Nat.not_lt.mpr hroom, halign, ne_eq, not_true_eq_false, if_false,
    access_page (n := 64) hfirst hlast hpage hpeer hset, State.performAccess, hpeer, block_eq, List.flatMap_map, wsp_spilled]
  rfl

/-- R111: what a fill leaves of the bytes that it has read. -/
def Machine.Lane.filled (v : Lane) (u : State) (bs : List Byte) : State :=
  (u.putDsts v.key v.th.gid ((v.spillWords (v.th.sb - 16)).map Dst.stack)
    ((List.range 16).map fun i => word (ofBytes ((bs.drop (4 * i)).take 4)))).updThread v.key
  fun th => { th with wsp := v.th.wsp - 64, sb := th.sb - 16 }

/-- R111: a fill for which there is a window to read and room in the stack, from a page of this module without poison. -/
theorem fill_reads (hspilled : 16 ≤ v.th.sb) (hroom : v.th.wb + 48 - v.th.sb ≤ v.th.words) (halign : v.th.wsp.toNat % 64 = 0)
    (hfirst : v.admits s (v.th.wsp - 64).toNat) (hlast : v.admits s ((v.th.wsp - 64).toNat + 63))
    (hpage : v.page s (v.th.wsp - 64).toNat .load = some t) (hpeer : t.peer = none) (hset : v.settled s)
    (hclean : (s.performLoad v.core v.g.ctx v.key v.th.pc t 64 false).2.2 = none) :
    v.fill s = .done (v.filled (s.performLoad v.core v.g.ctx v.key v.th.pc t 64 false).1 (s.performLoad v.core v.g.ctx v.key v.th.pc t 64 false).2.1) := by
  have hwsp : dword (v.th.wsp - 64).toNat = v.th.wsp - 64 := by rw [dword, BitVec.ofNat_toNat, BitVec.setWidth_eq]
  simp only [Lane.fill, Nat.not_lt.mpr hspilled, Nat.not_lt.mpr hroom, decide_false, Bool.or_self, Bool.false_eq_true, halign, ne_eq,
    not_true_eq_false, if_false, fillAt_eq, access_page (n := 64) hfirst hlast hpage hpeer hset, hpeer, hclean, block_eq, hwsp]
  rfl

end spill

/-- R169: a gather of one active lane, of an instruction whose own checks do not stand in its way, completes. -/
theorem alone_completes_unhindered {i : Instr} {r : Row} {x : Fields} {s u : State} {v : Lane} {f : Lane → State → Act} {rule : Lane → Option Nat}
    {extra : Lane → List (Dst × PFmt)} {stall : State → List Lane → Bool}
    (hexec : exec i s = issue i { specOf i f with rule := rule, extra := extra, stall := stall } s) (hi : Issues i r x s [v])
    (hv : v.active x.g x.gn = true) (hrule : rule v = none) (hextra : ∀ d ∈ extra v, isPending v.th v.g d.1 = false ∧ v.sound d.1 = true)
    (hstall : stall s.tick [v] = false) (hlane : f v s.tick = .done u) : exec i s = .next (u.finish v r x).settle.moved := by
  rw [hexec, specOf_eq hi.row]
  exact alone_done hi (alone_asks_with hv rfl hrule rfl rfl rfl hextra hstall) hv hlane

/-- Settles O23: the page that the quadrant holds is stored to or read at once, and WSP and SB move. -/
theorem windowSpill : Obligations.WindowSpill := by
  unfold Obligations.WindowSpill
  intro x s t low words read
  refine ⟨fun r v hi hv hok => ?spills, fun r v hi hv hok => ?fills⟩
  case spills =>
    obtain ⟨hsheaf, hroom, halign, hfirst, hlast, hpage, hpeer, hset, hclean⟩ := hok
    refine alone_completes_unhindered rfl hi hv (barred_none hsheaf) ?reads ?stall (spill_stores hroom halign hfirst hlast hpage hpeer hset)
    case reads =>
      intro d hd
      have hspill : v.spillOk = true := by simp [Lane.spillOk, hroom, halign]
      simp only [hspill, if_true, block_eq, List.map_map, List.mem_map] at hd
      obtain ⟨i, hi, rfl⟩ := hd
      obtain ⟨hpend, hbad, hweak⟩ := hclean i hi
      simp [isPending, Lane.sound, isBad, isWeak, hpend, hbad, hweak]
    case stall =>
      have hfree : s.tick.orderWaits v v.th.wsp.toNat .store = false := orderWaits_settled (t := t) hset hpage
      simp [hfree]
  case fills =>
    obtain ⟨hsheaf, hspilled, hroom, halign, hfirst, hlast, hpage, hpeer, hset, hclean, hpend⟩ := hok
    refine alone_completes_unhindered (extra := fun _ => []) rfl hi hv (barred_none hsheaf) (by simp) ?stall
      (fill_reads hspilled hroom halign hfirst hlast hpage hpeer hset hclean)
    case stall =>
      have hfree : s.tick.orderWaits v v.fillAt .load = false := orderWaits_settled (t := t) hset (by rw [fillAt_eq]; exact hpage)
      have hland : ((v.block (v.th.sb - 16)).any fun d => isPending v.th v.g d) = false := by
        rw [block_eq, List.any_map]
        exact List.any_eq_false.mpr fun i hi => by simpa [isPending] using hpend i hi
      simp [hfree, hland]

end Sys2Proof
end

section
/-!
PROOFS. What the arithmetic, logic, move and compare instructions leave unchanged (R112, R115, R117, R156, R180).
-/
namespace Sys2Proof
open Machine

section forms

/-- R181: the forms that extend or clamp an integer result. -/
def integerForms (x : Fields) : List Instr :=
  [.iadd x, .isub x, .imul x, .imad x, .ineg x, .iabs x, .imin x, .imax x, .imulh x]

/-- R184 to R188, R192, R193: the other arithmetic, logic and move forms that write D alone. -/
def otherForms (x : Fields) : List Instr :=
  [.imadw x, .and x, .or x, .xor x, .andn x, .not x, .shl x, .shr x, .sar x, .rot x, .bfx x, .bfi x, .popc x, .clz x, .brev x, .prmb x, .sel x,
   .mov x, .moviLo x, .moviHi x, .moviS x]

/-- R112: a form whose every active lane writes the registers of D, with a value that its own registers give. -/
def WritesD (i : Instr) (x : Fields) : Prop :=
  ∀ r s vs, Issues i r x s vs → ∃ value : Lane → Nat, exec i s = .next (s.completeAll r x vs fun v u => v.wr u r.d.regs x.d (value v)).settle.moved

/-- R115: a form whose every active lane writes the predicate that D names. -/
def WritesPred (i : Instr) (x : Fields) : Prop :=
  ∀ r s vs, Issues i r x s vs → ∃ value : Lane → Bool, exec i s = .next (s.completeAll r x vs fun v u => v.wrPred u x.d (value v)).settle.moved

variable {i : Instr} {r : Row} {x : Fields}

theorem writesD_of {n : Nat} (value : Lane → Nat) (hrow : rowOf i = some (r, x)) (hregs : r.d.regs = n)
    (hexec : ∀ s, exec i s = issue i (specOf i fun v u => .done (v.wr u n x.d (value v))) s) : WritesD i x := by
  intro r' s vs hi
  obtain rfl : r = r' := congrArg Prod.fst (Option.some.inj (hrow.symm.trans hi.row))
  exact ⟨value, (hexec s).trans (issue_plain _ hi fun v u => by rw [hregs])⟩

/-- R181: an integer operation writes its result as its type extends it. -/
theorem writesD_int (result : Lane → Int) (hrow : rowOf i = some (r, x)) (hregs : r.d.regs = x.regs)
    (hexec : ∀ s, exec i s = issue i (intSpec i x result) s) : WritesD i x := by
  refine writesD_of (fun v => x.extended (if x.sat then x.saturated (result v) else BitVec.ofInt x.width (result v))) hrow hregs fun s => ?_
  simp only [hexec, intSpec, dstInt_eq]

theorem writesPred_of (value : Lane → Bool) (hexec : ∀ s, exec i s = issue i (specOf i fun v u => .done (v.wrPred u x.d (value v))) s) :
    WritesPred i x :=
  fun _ s _ hi => ⟨value, (hexec s).trans (issue_plain _ hi fun _ _ => rfl)⟩

theorem integerForms_writeD (x : Fields) : ∀ i ∈ integerForms x, WritesD i x := by
  simp only [integerForms, List.forall_mem_cons, List.not_mem_nil, false_imp_iff, implies_true, and_true]
  and_intros <;> exact writesD_int _ rfl rfl fun _ => rfl

theorem otherForms_writeD (x : Fields) : ∀ i ∈ otherForms x, WritesD i x := by
  simp only [otherForms, List.forall_mem_cons, List.not_mem_nil, false_imp_iff, implies_true, and_true]
  and_intros <;> exact writesD_of _ rfl rfl fun _ => rfl

theorem compareForms_writePred (x : Fields) : ∀ i ∈ [Instr.icmp x, .pset x], WritesPred i x := by
  simp only [List.forall_mem_cons, List.not_mem_nil, false_imp_iff, implies_true, and_true]
  exact ⟨writesPred_of _ fun _ => rfl, writesPred_of _ fun _ => rfl⟩

end forms

section frames

/-- R112: what no register instruction changes in a thread: its program counter and what goes with it, its registers and their marks, its
predicates and clk.hi are left out. -/
def Machine.Thread.fixed (th : Thread) : Thread :=
  { th with st := .ready, pc := 0, since := 0, ahead := 0, peerBuf := [], wordBuf := [], heldBy := none, stack := [], bad := [], weak := [],
            pend := [], preds := 0, clkHi := 0 }

/-- R112, R116, R117: a thread after an instruction that writes registers of dst. -/
structure RegisterFrame (dst : List Dst) (clk : Bool) (before after : Thread) : Prop where
  fixed : after.fixed = before.fixed
  clock : clk = false → after.clkHi = before.clkHi
  preds : after.preds = before.preds
  stack : Store.rising 0 before.stack = true → Store.rising 0 after.stack = true ∧
    ∀ n, Dst.stack n ∉ dst → Store.rd 0 after.stack n = Store.rd 0 before.stack n

/-- R115, R116: a thread after an instruction that writes predicate p. -/
structure PredFrame (p : Nat) (clk : Bool) (before after : Thread) : Prop where
  fixed : after.fixed = before.fixed
  clock : clk = false → after.clkHi = before.clkHi
  stack : after.stack = before.stack
  bad : after.bad = before.bad
  weak : after.weak = before.weak
  pend : after.pend = before.pend
  preds : ∀ q, q ≠ p → after.preds.getLsbD q = before.preds.getLsbD q

/-- R113, R117: a group after an instruction that writes uniform registers that meet a condition. -/
structure UniformFrame (written : Nat → Prop) (before after : Group) : Prop where
  fixed : after = { before with k := after.k, kbad := after.kbad, kpend := after.kpend }
  uniform : Store.rising 0 before.k = true → Store.rising 0 after.k = true ∧
    ∀ n, ¬ written n → Store.rd 0 after.k n = Store.rd 0 before.k n

variable {dst : List Dst} {clk : Bool} {th th' : Thread} {p : Nat}

theorem RegisterFrame.refl (dst : List Dst) (clk : Bool) (th : Thread) : RegisterFrame dst clk th th :=
  ⟨rfl, fun _ => rfl, rfl, fun h => ⟨h, fun _ _ => rfl⟩⟩
theorem RegisterFrame.goto (h : RegisterFrame dst clk th th') (pc now : Nat) : RegisterFrame dst clk th (th'.goto pc now) :=
  ⟨h.fixed, h.clock, h.preds, h.stack⟩
theorem RegisterFrame.latch (h : RegisterFrame dst true th th') (w : Word) : RegisterFrame dst true th { th' with clkHi := w } :=
  ⟨h.fixed, nofun, h.preds, h.stack⟩

/-- R117: a write to a stack word of the destination. -/
theorem RegisterFrame.putWord (h : RegisterFrame dst clk th th') {i : Nat} (hi : Dst.stack i ∈ dst) (w : Word) :
    RegisterFrame dst clk th (th'.putWord i w) where
  fixed := h.fixed
  clock := h.clock
  preds := h.preds
  stack := fun hrise => by
    obtain ⟨hrise', hsame⟩ := h.stack hrise
    refine ⟨rising_wr _ _ _ hrise', fun n hn => ?_⟩
    have hne : n ≠ i := fun e => hn (e ▸ hi)
    exact (Store.rd_wr_ne 0 th'.stack w hne 0 hrise').trans (hsame n hn)

theorem PredFrame.refl (p : Nat) (clk : Bool) (th : Thread) : PredFrame p clk th th := ⟨rfl, fun _ => rfl, rfl, rfl, rfl, rfl, fun _ _ => rfl⟩
theorem PredFrame.goto (h : PredFrame p clk th th') (pc now : Nat) : PredFrame p clk th (th'.goto pc now) :=
  ⟨h.fixed, h.clock, h.stack, h.bad, h.weak, h.pend, h.preds⟩
theorem PredFrame.latch (h : PredFrame p true th th') (w : Word) : PredFrame p true th { th' with clkHi := w } :=
  ⟨h.fixed, nofun, h.stack, h.bad, h.weak, h.pend, h.preds⟩

/-- R115: setting a predicate leaves every other. -/
theorem setPred_other (th : Thread) (b : Bool) {q : Nat} (h : q ≠ p) : (th.setPred p b).preds.getLsbD q = th.preds.getLsbD q := by
  have hmask : (BitVec.ofNat 12 (2 ^ p)).getLsbD q = false := by
    rw [BitVec.getLsbD_ofNat, Nat.testBit_two_pow_of_ne h.symm, Bool.and_false]
  unfold Thread.setPred
  generalize BitVec.ofNat 12 (2 ^ p) = mask at hmask ⊢
  cases b with
  | true => simp [hmask]
  | false =>
    by_cases hq : q < 12
    · simp [BitVec.getLsbD_and, BitVec.getLsbD_not, hmask, hq, -BitVec.getLsbD_eq_getElem]
    · simp [BitVec.getLsbD_of_ge _ q (Nat.le_of_not_lt hq)]

theorem PredFrame.setPred (h : PredFrame p clk th th') (b : Bool) : PredFrame p clk th (th'.setPred p b) :=
  ⟨h.fixed, h.clock, h.stack, h.bad, h.weak, h.pend, fun q hq => (setPred_other th' b hq).trans (h.preds q hq)⟩

variable {written : Nat → Prop} {g g' : Group}

theorem UniformFrame.refl (written : Nat → Prop) (g : Group) : UniformFrame written g g := ⟨rfl, fun h => ⟨h, fun _ _ => rfl⟩⟩

/-- R117: a write to a uniform register. -/
theorem UniformFrame.putUniform (h : UniformFrame written g g') {i : Nat} (hi : written i) (w : Word) : UniformFrame written g (g'.putUniform i w) where
  fixed := by rw [h.fixed]; rfl
  uniform := fun hrise => by
    obtain ⟨hrise', hsame⟩ := h.uniform hrise
    refine ⟨rising_wr _ _ _ hrise', fun n hn => ?_⟩
    have hne : n ≠ i := fun e => hn (e ▸ hi)
    exact (Store.rd_wr_ne 0 g'.k w hne 0 hrise').trans (hsame n hn)

/-- R112: threads that agree in what no register instruction changes agree whatever the rest is set to. -/
theorem fixed_onward (h : th'.fixed = th.fixed) (st pc since ahead peerBuf wordBuf heldBy stack bad weak pend preds clkHi) :
    { th' with st := st, pc := pc, since := since, ahead := ahead, peerBuf := peerBuf, wordBuf := wordBuf, heldBy := heldBy, stack := stack,
               bad := bad, weak := weak, pend := pend, preds := preds, clkHi := clkHi } =
    { th with st := st, pc := pc, since := since, ahead := ahead, peerBuf := peerBuf, wordBuf := wordBuf, heldBy := heldBy, stack := stack,
              bad := bad, weak := weak, pend := pend, preds := preds, clkHi := clkHi } :=
  congrArg (fun t : Thread => { t with
    st := st, pc := pc, since := since, ahead := ahead, peerBuf := peerBuf, wordBuf := wordBuf, heldBy := heldBy, stack := stack, bad := bad,
    weak := weak, pend := pend, preds := preds, clkHi := clkHi }) h

end frames

section gather
variable {s u : State} {vs : List Lane} {T : Lane → Thread → Prop} {G : Lane → Group → Prop} {r : Row} {x : Fields}

/-- R106: a gather names a thread by its slot. -/
theorem gather_lane_eq (hl : s.gatherLanes = some vs) {v w : Lane} (hv : v ∈ vs) (hw : w ∈ vs) (h : v.key = w.key) : v = w := by
  have hth : v.th = w.th := Option.some.inj ((gather_thread hl v hv).symm.trans (h ▸ gather_thread hl w hw))
  have hg : v.g = w.g := Option.some.inj ((gather_group hl v hv).symm.trans (hth ▸ gather_group hl w hw))
  have hnow : v.now = w.now := (gather_now hl v hv).trans (gather_now hl w hw).symm
  obtain ⟨key, th, g, now⟩ := v
  obtain ⟨key', th', g', now'⟩ := w
  simp_all

/-- R112, R117: a thread of the gather, and a group of its threads, while the lanes write the registers of D. -/
def Machine.Lane.keepsThread (r : Row) (x : Fields) (v : Lane) : Thread → Prop := RegisterFrame (v.places r.d.regs x.d) (readsClock r x) v.th
def Machine.Lane.keepsGroup (r : Row) (x : Fields) (vs : List Lane) (v : Lane) : Group → Prop :=
  UniformFrame (fun n => ∃ w ∈ vs, w.th.gid = v.th.gid ∧ Dst.uniform n ∈ w.places r.d.regs x.d) v.g

/-- R117: a lane's write to a register of D. -/
theorem kept_putDst (hl : s.gatherLanes = some vs) {w : Lane} (hw : w ∈ vs) {d : Dst} (hd : d ∈ w.places r.d.regs x.d) (value : Word)
    (h : Kept s vs (Lane.keepsThread r x) (Lane.keepsGroup r x vs) u) :
    Kept s vs (Lane.keepsThread r x) (Lane.keepsGroup r x vs) (u.putDst w.key w.th.gid d value) := by
  cases d with
  | stack n =>
    refine h.updThread w hw _ fun v hv hkey th hth => ?_
    obtain rfl := gather_lane_eq hl hv hw hkey
    exact hth.putWord hd value
  | uniform n => exact h.updGroup w hw _ fun v hv hgid g hg => hg.putUniform ⟨w, hw, hgid.symm, hd⟩ value
  | zero => exact h

/-- R112: a lane's write to D. -/
theorem kept_wr (hl : s.gatherLanes = some vs) {w : Lane} (hw : w ∈ vs) (value : Nat)
    (h : Kept s vs (Lane.keepsThread r x) (Lane.keepsGroup r x vs) u) :
    Kept s vs (Lane.keepsThread r x) (Lane.keepsGroup r x vs) (w.wr u r.d.regs x.d value) :=
  Kept.foldl _ _ (fun _ p hp hu => kept_putDst hl hw (List.of_mem_zip hp).1 p.2 hu) _ h

theorem registers_kept (hl : s.gatherLanes = some vs) (value : Lane → Nat) :
    Kept s vs (Lane.keepsThread r x) (Lane.keepsGroup r x vs) (s.completeAll r x vs fun v u => v.wr u r.d.regs x.d (value v)) := by
  refine Kept.commit (Kept.start hl (fun v _ => RegisterFrame.refl ..) fun v _ => UniformFrame.refl ..) ?goto ?latch
    fun v hv u hu => kept_wr hl hv (value v) hu
  case goto => exact fun v th pc now hth => hth.goto pc now
  case latch =>
    intro v th w hclk hth
    rw [Lane.keepsThread, hclk] at hth ⊢
    exact hth.latch w

theorem preds_kept (hl : s.gatherLanes = some vs) (value : Lane → Bool) :
    Kept s vs (fun v => PredFrame x.d.toNat (readsClock r x) v.th) (fun _ _ => True)
      (s.completeAll r x vs fun v u => v.wrPred u x.d (value v)) := by
  refine Kept.commit (Kept.start hl (fun v _ => PredFrame.refl ..) fun _ _ => trivial) ?goto ?latch
    fun v hv u hu => hu.updThread v hv _ fun _ _ _ _ hth => hth.setPred _
  case goto => exact fun v th pc now hth => hth.goto pc now
  case latch =>
    intro v th w hclk hth
    rw [hclk] at hth ⊢
    exact hth.latch w

/-- R115: writing predicates changes no group. -/
theorem preds_groups (value : Lane → Bool) : (s.completeAll r x vs fun v u => v.wrPred u x.d (value v)).groups = s.groups := by
  refine (foldl_same State.groups (fun (u : State) (v : Lane) => (v.wrPred u x.d (value v)).finish v r x) (fun _ _ => ?_) _ _).trans ?_
  · exact State.finish_groups ..
  · exact foldl_same State.groups (fun (u : State) (v : Lane) => u.retire v.key) (fun _ _ => rfl) _ _

/-- R112: after an instruction that keeps to its gather, memory reads as before, no other thread has changed, and nothing need follow. -/
theorem Kept.calm (h : Kept s vs T G u) :
    u = { s with threads := u.threads, groups := u.groups, now := s.now + 1, armed := false, gather := none, sensed := [] } ∧
      (∀ cmp a, u.byteAt cmp a = s.byteAt cmp a) ∧
      (∀ k, (∀ v ∈ vs, v.key ≠ k) → Store.get u.threads k = Store.get s.threads k) ∧
      (s.logPending = [] → (∀ c ∈ s.ctxs, c.2.mode ≠ 3) → u.settle = u) := by
  refine ⟨h.frame, fun cmp a => ?_, h.other, fun hlog hmodes => settle_calm ?_ ?_⟩
  · rw [h.frame]; rfl
  · rw [h.frame]; exact hlog
  · rw [h.frame]; exact hmodes

end gather

/-- Settles O7: each form writes its destination alone, and such writes, lane by lane, keep the frame of every thread and group. -/
theorem registerFrames : Obligations.RegisterFrames := by
  unfold Obligations.RegisterFrames
  intro x s i r vs hi dst calm onward clock
  refine ⟨fun hform => ?registers, fun hform => ?predicates⟩
  case registers =>
    have hwrites : WritesD i x := List.forall_mem_append.mpr ⟨integerForms_writeD x, otherForms_writeD x⟩ i hform
    obtain ⟨value, hexec⟩ := hwrites r s vs hi
    have h := registers_kept (r := r) (x := x) hi.lanes value
    refine ⟨_, hexec, h.calm, fun v hv => ?thread, fun v hv => ?group, h.rest⟩
    case thread =>
      obtain ⟨th, hth, hframe⟩ := h.mine v hv
      exact ⟨th, hth, fixed_onward hframe.fixed, hframe.clock, hframe.preds, hframe.stack⟩
    case group =>
      obtain ⟨g, hg, hframe⟩ := h.group v hv
      refine ⟨g, hg, hframe.fixed, fun hrise => ⟨(hframe.uniform hrise).1, fun n hn => (hframe.uniform hrise).2 n ?_⟩⟩
      rintro ⟨w, hw, hgid, hd⟩
      exact hn w hw hgid hd
  case predicates =>
    obtain ⟨value, hexec⟩ := compareForms_writePred x i hform r s vs hi
    have h := preds_kept (r := r) (x := x) hi.lanes value
    refine ⟨_, hexec, h.calm, preds_groups value, fun v hv => ?_⟩
    obtain ⟨th, hth, hframe⟩ := h.mine v hv
    exact ⟨th, hth, fixed_onward hframe.fixed, hframe.clock, hframe.stack, hframe.bad, hframe.weak, hframe.pend, hframe.preds⟩

end Sys2Proof
end

section
/-!
PROOFS. What taking a trap saves in a thread of a quadrant, and where the thread goes on (R130, R416 to R420).
-/
namespace Sys2Proof
open Machine

section fetch
variable {s : State} {w : Asker} {va : Nat} {e : TlbEntry} {bs : List Byte}

theorem lookup_threads (s : State) (unit core ctx va : Nat) (kind : AccessKind) : (s.lookup unit core ctx va kind).1.threads = s.threads := by
  unfold State.lookup
  split
  · rfl
  · split
    · dsimp only
      split <;> rfl
    · rfl

theorem readPage_threads (s : State) (w : Asker) (t : Xlat) (n : Nat) : (s.readPage w t n).1.threads = s.threads := by
  rw [(readPage_mem s w t n).frame]

/-- R154: a fetch changes no thread. -/
theorem fetchBytes_threads (fuel : Nat) (s : State) (w : Asker) (va n : Nat) (buf : List Byte) :
    (s.fetchBytes fuel w va n buf).1.threads = s.threads := by
  induction fuel generalizing s va n buf with
  | zero => rfl
  | succ fuel ih =>
    unfold State.fetchBytes
    extract_lets m r rest
    have hr : r.1.threads = s.threads := lookup_threads ..
    have hrest (u : State) (bs buf : List Byte) (hu : u.threads = s.threads) : (rest u bs buf).1.threads = s.threads := by
      unfold rest
      split
      · exact hu
      · exact (ih ..).trans hu
    split
    · exact hr
    · split
      · split
        · exact hr
        · split
          · exact hrest _ _ _ hr
          · exact hr
      · exact hrest _ _ _ ((readPage_threads ..).trans hr)

/-- R154: an aligned word of a page that the unit's first level holds, and that this module holds, is read at once. -/
theorem fetchBytes_word (halign : va % 8 = 0) (hfind : (s.tlb.find? fun q => q.covers (fetchUnit w.core) w.ctx va) = some e)
    (hpermits : (s.xlat e.bits e.entry va).permits .fetch = true) (hpeer : (s.xlat e.bits e.entry va).peer = none)
    (hread : (s.readPage w (s.xlat e.bits e.entry va) 8).2 = .bytes bs) (buf : List Byte) :
    s.fetchBytes 1 w va 8 buf = ((s.readPage w (s.xlat e.bits e.entry va) 8).1, .ok bs) := by
  have hlookup : s.lookup (fetchUnit w.core) w.core w.ctx va .fetch = (s, some (s.xlat e.bits e.entry va)) := by
    simp only [State.lookup, hfind, hpermits, if_true]
  have hwithin : min 8 (4096 - va % 4096) = 8 := by omega
  simp only [State.fetchBytes, hlookup, hpeer, hwithin, le_refl, if_true, hread, PageRead.orZeros]

end fetch

section vector
variable {s u : State} {key : Nat} {th : Thread} {g : Group} {cause tval o : Nat} {bs : List Byte}

/-- R419: a cause with no vector, and a trap in a handler, go to the fault queue. -/
theorem readVector_queue (h : th.inHandler = true ∨ vectorOffset cause = none) : s.readVector key th g cause = (s, .queue) := by
  unfold State.readVector
  split
  · rfl
  · next hvector =>
    rcases h with h | h
    · simp [h]
    · cases hvector.symm.trans h

/-- R419: who asks for a thread's vector. -/
def vectorAsker (key : Nat) (th : Thread) (g : Group) : Asker :=
  { input := coreOf key, core := coreOf key, ctx := g.ctx, thread := some key, pc := th.pc }

/-- R419: a vector that is read names a handler, unless it is zero or unaligned. -/
theorem readVector_reads (hoffset : vectorOffset cause = some o) (hinh : th.inHandler = false) (hk : isThresher key = false)
    (hfetch : s.fetchBytes 1 (vectorAsker key th g) (g.code - o) 8 th.peerBuf = (u, .ok bs)) :
    s.readVector key th g cause = (u, if ofBytes bs = 0 || ofBytes bs % 8 ≠ 0 then .queue else .handler (ofBytes bs)) := by
  unfold vectorAsker at hfetch
  simp only [State.readVector, hoffset, hinh, hk, Bool.or_self, Bool.false_eq_true, if_false, hfetch]

theorem readVector_threads (s : State) (key : Nat) (th : Thread) (g : Group) (cause : Nat) :
    (s.readVector key th g cause).1.threads = s.threads := by
  unfold State.readVector
  split
  · rfl
  · split
    · rfl
    · extract_lets core r
      have hr : r.1.threads = s.threads := fetchBytes_threads ..
      split <;> exact hr

end vector

section deliver
variable {s u : State} {key : Nat} {th : Thread} {g : Group} {cause tval : Nat}

theorem deliver_handler {pc : Nat} (hth : Store.get s.threads key = some th) (hg : Store.get s.groups th.gid = some g)
    (hread : s.readVector key th g cause = (u, .handler pc)) :
    s.deliver cause [⟨key, cause, tval⟩] = u.setThread key (th.enterHandler cause tval th.pc pc u.now) := by
  simp only [State.deliver, List.foldl_cons, List.foldl_nil, hth, hg, hread]
  rfl

theorem deliver_queue (hth : Store.get s.threads key = some th) (hg : Store.get s.groups th.gid = some g)
    (hread : s.readVector key th g cause = (u, .queue)) : s.deliver cause [⟨key, cause, tval⟩] = u.parkAll cause [⟨key, cause, tval⟩] := by
  simp only [State.deliver, List.foldl_cons, List.foldl_nil, hth, hg, hread, List.nil_append]

theorem deliver_wait {f : FetchStop} (hth : Store.get s.threads key = some th) (hg : Store.get s.groups th.gid = some g)
    (hread : s.readVector key th g cause = (u, .wait f)) : s.deliver cause [⟨key, cause, tval⟩] = u.awaitFetch key f 8 := by
  simp only [State.deliver, List.foldl_cons, List.foldl_nil, hth, hg, hread]
  rfl

/-- R41: a thread that awaits its fetch changes no other thread. -/
theorem awaitFetch_other (s : State) (f : FetchStop) (n : Nat) {k : Nat} (h : k ≠ key) :
    Store.get (s.awaitFetch key f n).threads k = Store.get s.threads k := by
  cases f with
  | miss va =>
    simp only [State.awaitFetch, State.awaitPage]
    split
    · rfl
    · exact get_put_other _ _ h
  | peer va port m =>
    simp only [State.awaitFetch, State.awaitBytes]
    split
    · rfl
    · exact get_put_other _ _ h

/-- R416: delivering a thread's trap changes no other thread. -/
theorem deliver_other (hth : Store.get s.threads key = some th) (hg : Store.get s.groups th.gid = some g) (hk : isThresher key = false) {k : Nat}
    (h : k ≠ key) : Store.get (s.deliver cause [⟨key, cause, tval⟩]).threads k = Store.get s.threads k := by
  rcases hread : s.readVector key th g cause with ⟨u, v⟩
  have hthreads : u.threads = s.threads := by
    have := readVector_threads s key th g cause
    rwa [hread] at this
  cases v with
  | handler pc => rw [deliver_handler hth hg hread, ← hthreads]; exact get_put_other _ _ h
  | queue => rw [deliver_queue hth hg hread, ← hthreads]; exact (parkAll_one u key cause tval th (hthreads ▸ hth) hk).2 k h
  | wait f => rw [deliver_wait hth hg hread, ← hthreads]; exact awaitFetch_other u f 8 h

end deliver

section saved
variable {s u : State} {key : Nat} {th : Thread} {cause tval : Nat}

/-- R418: the bits of TCAUSE. -/
theorem trapCause_eq (th : Thread) (cause : Nat) (inh : Bool) :
    trapCause th cause inh = word (cause + (if inh then 256 else 0) + (if th.sheaf.isSome then 512 else 0)) := by
  unfold trapCause
  cases inh <;> cases th.sheaf <;> rfl

/-- R416, R418, R420: a thread that has parked on its trap, by the number of its record. -/
def Machine.Thread.parkedOn (th : Thread) (cause tval : Nat) (n : Nat) : Thread :=
  let inh := th.tcause.getLsbD 8
  { th with
    fflags := if cause = 0x0F then th.fflags ||| word tval else th.fflags, st := .parked n, heldBy := none
    tcause := if inh then th.tcause else word (cause + (if th.sheaf.isSome then 512 else 0))
    tepc := if inh then th.tepc else dword th.pc, tval := if inh then th.tval else dword tval }

/-- R424: the flags of a floating-point trap join FFLAGS. -/
def Machine.Thread.flagged (th : Thread) (cause tval : Nat) : Thread :=
  { th with fflags := if cause = 0x0F then th.fflags ||| word tval else th.fflags }

theorem flagged_parked (th : Thread) (cause tval n : Nat) :
    { (th.flagged cause tval).trapped cause tval (th.flagged cause tval).pc with st := .parked n, heldBy := none } = th.parkedOn cause tval n := by
  have hinh : (th.flagged cause tval).inHandler = th.tcause.getLsbD 8 := rfl
  simp only [Thread.trapped, hinh, trapCause_eq, Thread.parkedOn]
  cases th.tcause.getLsbD 8 <;> rfl

/-- R416, R420: a trap that goes to the fault queue parks its thread, whatever reading its vector has done beside. -/
theorem parkAll_parks (hth : Store.get u.threads key = some (th.flagged cause tval)) (hk : isThresher key = false) :
    ∃ n, Store.get (u.parkAll cause [⟨key, cause, tval⟩]).threads key = some (th.parkedOn cause tval n) := by
  obtain ⟨⟨n, hn⟩, -⟩ := parkAll_one u key cause tval _ hth hk
  exact ⟨n, hn.trans (congrArg some (flagged_parked ..))⟩

/-- R424: the state in which a trap is delivered. -/
def Machine.State.flagged (s : State) (key cause tval : Nat) : State :=
  if cause = causeFloat then s.updThread key fun th => { th with fflags := th.fflags ||| word tval } else s

theorem flagged_thread (hth : Store.get s.threads key = some th) : Store.get (s.flagged key cause tval).threads key = some (th.flagged cause tval) := by
  unfold State.flagged Thread.flagged causeFloat
  split
  · exact get_upd_same _ _ hth
  · exact hth

theorem flagged_other {k : Nat} (h : k ≠ key) : Store.get (s.flagged key cause tval).threads k = Store.get s.threads k := by
  unfold State.flagged
  split
  · exact get_upd_other _ _ h
  · rfl

theorem flagged_groups : (s.flagged key cause tval).groups = s.groups := by
  unfold State.flagged
  split <;> rfl

end saved

/-- Settles O6: the trap is delivered to the handler that its vector names, or else parks its thread. -/
theorem takingATrap : Obligations.TakingATrap := by
  unfold Obligations.TakingATrap
  intro s key th g cause tval hth hg hk hcause u flags code inh asker parks va
  have hu : u = (s.flagged key cause tval).deliver cause [⟨key, cause, tval⟩] := takeTraps_one s ⟨key, cause, tval⟩ hcause
  have hth' : Store.get (s.flagged key cause tval).threads key = some (th.flagged cause tval) := flagged_thread hth
  have hg' : Store.get (s.flagged key cause tval).groups (th.flagged cause tval).gid = some g := by
    rw [flagged_groups]
    exact hg
  have hqueue (w : State) (hread : (s.flagged key cause tval).readVector key (th.flagged cause tval) g cause = (w, .queue)) : parks := by
    have hthreads := readVector_threads (s.flagged key cause tval) key (th.flagged cause tval) g cause
    rw [hread] at hthreads
    obtain ⟨n, hn⟩ := parkAll_parks (hthreads ▸ hth') hk
    exact ⟨n, th.parkedOn cause tval n, by rw [hu, deliver_queue hth' hg' hread]; exact hn, rfl⟩
  refine ⟨fun h => hqueue _ (readVector_queue ?novector), fun e t bs hinh hvector halign hfind ht hpermits hpeer hread => ?vector, fun k hne => ?others⟩
  case novector =>
    rcases h with hinh | ⟨hsoftware, hoverflow, hunderflow⟩
    · exact .inl hinh
    · exact .inr (by simp [vectorOffset, causeSoftware, causeOverflow, causeUnderflow, hsoftware, hoverflow, hunderflow])
  case vector =>
    have hfloat : cause ≠ 0x0F := by omega
    have hstate : s.flagged key cause tval = s := if_neg hfloat
    have hthread : th.flagged cause tval = th := by simp only [Thread.flagged, hfloat, if_false]
    have hoffset : vectorOffset cause = some (if cause = 0x0A then 8 else 16) := by
      rcases hvector with rfl | rfl | rfl <;> rfl
    subst ht
    have hvalue := readVector_reads hoffset hinh hk (fetchBytes_word (w := vectorAsker key th g) halign hfind hpermits hpeer hread th.peerBuf)
    simp only [hstate, hthread] at hu hqueue hth' hg'
    refine ⟨fun hzero haligned => ?handler, fun hbad => ?queue⟩
    case handler =>
      rw [if_neg (by simp [hzero, haligned])] at hvalue
      refine ⟨_, ?_, rfl⟩
      rw [hu, deliver_handler hth' hg' hvalue]
      have hnow : (s.readPage (vectorAsker key th g) (s.xlat e.bits e.entry va) 8).1.now = s.now := by rw [(readPage_mem ..).frame]
      exact (Store.get_put ..).trans (congrArg some (by simp only [Thread.enterHandler, trapCause_eq, hnow]; rfl))
    case queue =>
      rw [if_pos (by simpa using hbad)] at hvalue
      exact hqueue _ hvalue
  case others => exact hu ▸ (deliver_other hth' hg' hk hne).trans (flagged_other hne)

end Sys2Proof
end

section
/-!
PROOFS. The encoder and the decoder undo each other, and words of the tables (R155, R162, R167, R168, R387, R388).
-/
namespace Sys2Proof
open Machine

/-- R167: of each well-formed format F word the decoder's table answers the constructor that it was encoded from. -/
theorem ctorOf_wellFormed (i : Instr) : Laws.F.Statement i := by
  open Laws in
  cases i with
  | iadd x => exact F.iadd x | isub x => exact F.isub x | iaddc x => exact F.iaddc x | ineg x => exact F.ineg x | iabs x => exact F.iabs x
  | imin x => exact F.imin x | imax x => exact F.imax x | imul x => exact F.imul x | imulh x => exact F.imulh x | imad x => exact F.imad x
  | imadw x => exact F.imadw x | and x => exact F.and x | or x => exact F.or x | xor x => exact F.xor x | andn x => exact F.andn x
  | not x => exact F.not x | shl x => exact F.shl x | shr x => exact F.shr x | sar x => exact F.sar x | rot x => exact F.rot x
  | bfx x => exact F.bfx x | bfi x => exact F.bfi x | popc x => exact F.popc x | clz x => exact F.clz x | brev x => exact F.brev x
  | prmb x => exact F.prmb x | icmp x => exact F.icmp x | pset x => exact F.pset x | pmovR x => exact F.pmovR x | pmovP x => exact F.pmovP x
  | sel x => exact F.sel x | mov x => exact F.mov x | moviLo x => exact F.moviLo x | moviHi x => exact F.moviHi x | moviS x => exact F.moviS x
  | movk x => exact F.movk x | movx x => exact F.movx x | movxs x => exact F.movxs x | lea x => exact F.lea x | leaN x => exact F.leaN x
  | widf x => exact F.widf x | sysr x => exact F.sysr x | bra x => exact F.bra x | brx x => exact F.brx x | call x => exact F.call x
  | callx x => exact F.callx x | ret x => exact F.ret x | shfb x => exact F.shfb x | shfe x => exact F.shfe x | trap x => exact F.trap x
  | tret x => exact F.tret x | tretN x => exact F.tretN x | nop x => exact F.nop x | yield x => exact F.yield x | exit x => exact F.exit x
  | pulse x => exact F.pulse x | safept x => exact F.safept x | wspill x => exact F.wspill x | wfill x => exact F.wfill x | csrr x => exact F.csrr x
  | csrw x => exact F.csrw x | twnx x => exact F.twnx x | twlk x => exact F.twlk x | fadd x => exact F.fadd x | fsub x => exact F.fsub x
  | fmul x => exact F.fmul x | fma x => exact F.fma x | fmin x => exact F.fmin x | fmax x => exact F.fmax x | fminx x => exact F.fminx x
  | fmaxx x => exact F.fmaxx x | fabs x => exact F.fabs x | fneg x => exact F.fneg x | fclass x => exact F.fclass x | frnd x => exact F.frnd x
  | frcp x => exact F.frcp x | fsqrt x => exact F.fsqrt x | frsq x => exact F.frsq x | fexp2 x => exact F.fexp2 x | flog2 x => exact F.flog2 x
  | fsin x => exact F.fsin x | fcos x => exact F.fcos x | fcmp x => exact F.fcmp x | cvt x => exact F.cvt x | cvtBs x => exact F.cvtBs x
  | hadd2 x => exact F.hadd2 x | hsub2 x => exact F.hsub2 x | hmul2 x => exact F.hmul2 x | hfma2 x => exact F.hfma2 x | dot4 x => exact F.dot4 x
  | dot8 x => exact F.dot8 x | dot2h x => exact F.dot2h x | qsc x => exact F.qsc x | fkey x => exact F.fkey x | wnw x => exact F.wnw x
  | wnwCt x => exact F.wnwCt x | titheS x => exact F.titheS x | titheC x => exact F.titheC x | apxexp2 x => exact F.apxexp2 x
  | apxrcp x => exact F.apxrcp x | ld x => exact F.ld x | st x => exact F.st x | lds x => exact F.lds x | sts x => exact F.sts x
  | ldt x => exact F.ldt x | ldk x => exact F.ldk x | atomAdd x => exact F.atomAdd x | atomSub x => exact F.atomSub x
  | atomMinN x => exact F.atomMinN x | atomMaxN x => exact F.atomMaxN x | atomAnd x => exact F.atomAnd x | atomOr x => exact F.atomOr x
  | atomXor x => exact F.atomXor x | atomXchg x => exact F.atomXchg x | atomCas x => exact F.atomCas x | atomInc x => exact F.atomInc x
  | atomDec x => exact F.atomDec x | atomMinS x => exact F.atomMinS x | atomMaxS x => exact F.atomMaxS x | afadd x => exact F.afadd x
  | amxf x => exact F.amxf x | amxi x => exact F.amxi x | red x => exact F.red x | redFadd x => exact F.redFadd x | redAmxf x => exact F.redAmxf x
  | redAmxi x => exact F.redAmxi x | fence x => exact F.fence x | pref x => exact F.pref x | evict x => exact F.evict x
  | bcpG2s x => exact F.bcpG2s x | bcpS2g x => exact F.bcpS2g x | bcpS2s x => exact F.bcpS2s x | bcps x => exact F.bcps x | bcpq x => exact F.bcpq x
  | bcpm x => exact F.bcpm x | bcpUnpk4s x => exact F.bcpUnpk4s x | bcpUnpk4f x => exact F.bcpUnpk4f x | bcpUnpk8s x => exact F.bcpUnpk8s x
  | bcpUnpk8f x => exact F.bcpUnpk8f x | qdef x => exact F.qdef x | qpopE x => exact F.qpopE x | qpopF x => exact F.qpopF x
  | qpushF x => exact F.qpushF x | qpushE x => exact F.qpushE x | qstat x => exact F.qstat x | send x => exact F.send x | recv x => exact F.recv x
  | recvw x => exact F.recvw x | tcw x => exact F.tcw x | tcwT x => exact F.tcwT x | tlw x => exact F.tlw x | tlwT x => exact F.tlwT x
  | tladv x => exact F.tladv x | bari x => exact F.bari x | bara x => exact F.bara x | barw x => exact F.barw x | coll x => exact F.coll x
  | cvdef x => exact F.cvdef x | mmaR x => exact F.mmaR x | mmaS x => exact F.mmaS x | mmaPR x => exact F.mmaPR x | mmaPS x => exact F.mmaPS x
  | mmaz x => exact F.mmaz x | maccr x => exact F.maccr x | maccw x => exact F.maccw x | maccl x => exact F.maccl x | maccs x => exact F.maccs x
  | mscl x => exact F.mscl x | mqnt x => exact F.mqnt x | mamax x => exact F.mamax x | mvtx x => exact F.mvtx x | mprim x => exact F.mprim x
  | memit x => exact F.memit x | vamp x => exact F.vamp x | vwarpX x => exact F.vwarpX x | vwarpY x => exact F.vwarpY x | gzlt x => exact F.gzlt x
  | smpl x => exact F.smpl x | tileo x => exact F.tileo x | lens x => exact F.lens x | serq x => exact F.serq x | texB x => exact F.texB x
  | texT x => exact F.texT x | texA x => exact F.texA x | texg x => exact F.texg x | texq x => exact F.texq x | ryl x => exact F.ryl x
  | rylV x => exact F.rylV x | ryt x => exact F.ryt x | ryrM x => exact F.ryrM x | ryrH x => exact F.ryrH x | rys x => exact F.rys x
  | ryh x => exact F.ryh x | ryx x => exact F.ryx x
  | _ => exact F.of_none rfl

/-- R168: a word decodes to what its tables name, where that is well-formed. -/
theorem decodeWord_eq_some {w : BitVec 64} {i : Instr} : decodeWord w = some i ↔ rawDecode w = some i ∧ wellFormed i = true := by
  unfold decodeWord
  cases rawDecode w with
  | none => simp
  | some j =>
    by_cases hj : wellFormed j = true
    · simp only [hj, if_true, Option.some.injEq]
      exact ⟨fun h => ⟨h, h ▸ hj⟩, And.left⟩
    · simp only [hj, if_false, reduceCtorEq, Option.some.injEq, false_iff, not_and, Bool.false_eq_true]
      exact fun h => h ▸ hj

section formatF
variable {i : Instr} {r : Row} {x : Fields}

theorem encode_of_row (h : rowOf i = some (r, x)) : encode i = some (encodeF r.op x) := by simp only [encode, h]

/-- R155: a format F word's own operation and fields name its constructor again. -/
theorem rawDecode_encodeF {op : Nat} {k : Fields → Instr} (hop : op < 128) (hk : ctorOf op x = some k) : rawDecode (encodeF op x) = some (k x) := by
  have hnumber : (opOf (encodeF op x)).toNat = op := by rw [opOf_encodeF, BitVec.toNat_ofNat, Nat.mod_eq_of_lt hop]
  simp only [rawDecode, encodeF_top, Bool.false_eq_true, if_false, hnumber, fieldsOf_encodeF, hk, Option.map_some]

/-- R155: a format F word that names a constructor is the one word of its instruction. -/
theorem encode_of_ctor {w : BitVec 64} {k : Fields → Instr} (hw : w.getLsbD 63 = false) (hk : ctorOf (opOf w).toNat (fieldsOf w) = some k) :
    encode (k (fieldsOf w)) = some w := by
  obtain ⟨r, hrow, hop⟩ := row_of_ctor _ _ _ hk
  rw [encode_of_row hrow, hop, encodeF_fields w hw]

end formatF

section formatP

theorem ofBool_getLsbD {n : Nat} (z : BitVec n) (k : Nat) : BitVec.ofBool (z.getLsbD k) = z.extractLsb' k 1 := by
  apply BitVec.eq_of_getLsbD_eq
  intro j hj
  obtain rfl : j = 0 := by omega
  simp

/-- R162: the five fields of a slot are all of its bits. -/
theorem encodeSlot_slotOf (z : BitVec 31) : encodeSlot (slotOf z) = z := by
  simp (disch := rfl) only [encodeSlot, slotOf, ofBool_getLsbD, BitVec.extractLsb'_append_extractLsb'_eq_extractLsb']
  exact BitVec.extractLsb'_eq_self

theorem pair_top (p q : BitVec 31) : (1#1 ++ p ++ q ++ 0#1 : BitVec 64).getLsbD 63 = true := by
  rw [pair_bits]
  simp (disch := omega) only [append_high]
  rfl

theorem pair_bottom (p q : BitVec 31) : (1#1 ++ p ++ q ++ 0#1 : BitVec 64).getLsbD 0 = false := by
  rw [pair_bits]
  simp (disch := omega) only [append_low]
  rfl

/-- R162: a format P word is its top bit, its two slots and its bottom bit. -/
theorem pair_of_bits {w : BitVec 64} (htop : w.getLsbD 63 = true) (hbottom : w.getLsbD 0 = false) :
    (1#1 ++ w.extractLsb' 32 31 ++ w.extractLsb' 1 31 ++ 0#1 : BitVec 64) = w := by
  have h63 : 1#1 = w.extractLsb' 63 1 := by rw [← ofBool_getLsbD, htop]; rfl
  have h0 : 0#1 = w.extractLsb' 0 1 := by rw [← ofBool_getLsbD, hbottom]; rfl
  rw [h63, h0]
  simp (disch := rfl) only [BitVec.extractLsb'_append_extractLsb'_eq_extractLsb']
  exact BitVec.extractLsb'_eq_self

theorem rawDecode_pair (p q : Slot) : rawDecode (1#1 ++ encodeSlot p ++ encodeSlot q ++ 0#1) = some (.pairWord p q) := by
  obtain ⟨hp, hq⟩ := pair_slots (encodeSlot p) (encodeSlot q)
  simp only [rawDecode, pair_top, pair_bottom, hp, hq, slotOf_encodeSlot, if_true, Bool.false_eq_true, if_false]

end formatP

/-- R155, R162: what a well-formed instruction encodes to names it again. -/
theorem rawDecode_encode {i : Instr} (h : wellFormed i = true) : ∃ w, encode i = some w ∧ rawDecode w = some i := by
  cases hrow : rowOf i with
  | some rx =>
    obtain ⟨r, x⟩ := rx
    obtain ⟨hop, k, hk, rfl⟩ := ctorOf_wellFormed i r x hrow h
    exact ⟨_, encode_of_row hrow, rawDecode_encodeF hop hk⟩
  | none =>
    obtain ⟨p, q, rfl⟩ : ∃ p q, i = .pairWord p q := by
      unfold wellFormed legalWord at h
      rw [hrow] at h
      split at h
      · contradiction
      · split at h
        · exact ⟨_, _, rfl⟩
        · contradiction
    exact ⟨_, rfl, rawDecode_pair p q⟩

/-- R155, R162: a word that names an instruction is what the instruction encodes to. -/
theorem encode_of_rawDecode {w : BitVec 64} {i : Instr} (h : rawDecode w = some i) : encode i = some w := by
  unfold rawDecode at h
  cases htop : w.getLsbD 63 with
  | false =>
    rw [htop] at h
    simp only [Bool.false_eq_true, if_false, Option.map_eq_some_iff] at h
    obtain ⟨k, hk, rfl⟩ := h
    exact encode_of_ctor htop hk
  | true =>
    rw [htop] at h
    cases hbottom : w.getLsbD 0 with
    | true => simp [hbottom] at h
    | false =>
      simp only [hbottom, if_true, Bool.false_eq_true, if_false, Option.some.injEq] at h
      subst h
      change some (1#1 ++ encodeSlot (slotOf _) ++ encodeSlot (slotOf _) ++ 0#1) = some w
      rw [encodeSlot_slotOf, encodeSlot_slotOf, pair_of_bits htop hbottom]

/-- Settles O3: encoding and the tables undo each other, and the decoder adds the checks that well-formedness names. -/
theorem wordsRoundTrip : Obligations.WordsRoundTrip := by
  unfold Obligations.WordsRoundTrip
  refine ⟨fun i hi => ?decodes, fun w i hw => ?encodes⟩
  case decodes =>
    obtain ⟨w, hencode, hdecode⟩ := rawDecode_encode hi
    exact ⟨w, hencode, decodeWord_eq_some.mpr ⟨hdecode, hi⟩⟩
  case encodes =>
    obtain ⟨hdecode, hi⟩ := decodeWord_eq_some.mp hw
    exact ⟨hi, encode_of_rawDecode hdecode⟩

/-- Settles O2: each word's fields are read off its bits, and its row admits them or not. -/
theorem wordsOfTheTables : Obligations.WordsOfTheTables := by
  unfold Obligations.WordsOfTheTables
  exact ⟨rfl, rfl, rfl, rfl, rfl, rfl, rfl, rfl, rfl, rfl, rfl, rfl, rfl, rfl⟩

end Sys2Proof
end

section
/-!
PROOFS. CSRR and CSRW on every special register (R170, R171, R213).
-/
namespace Sys2Proof
open Machine

section values

/-- R170: the five IEEE flags are the low bits of FFLAGS. -/
theorem word_mod_flags (a : Word) : word (a.toNat % 32) = a &&& 0x1F := by
  apply BitVec.eq_of_toNat_eq
  change a.toNat % 32 % 2 ^ 32 = a.toNat &&& (2 ^ 5 - 1)
  rw [Nat.and_two_pow_sub_one_eq_mod]
  omega

/-- The bits j to j + k - 1 of a number, in their places. -/
theorem mod_div_mul_eq_and (n j k : Nat) : n % 2 ^ (j + k) / 2 ^ j * 2 ^ j = n &&& (2 ^ k - 1) * 2 ^ j := by
  apply Nat.eq_of_testBit_eq
  intro i
  simp only [Nat.testBit_mul_two_pow, Nat.testBit_div_two_pow, Nat.testBit_mod_two_pow, Nat.testBit_and, Nat.testBit_two_pow_sub_one]
  by_cases hi : j ≤ i
  · have hbit : i < j + k ↔ i - j < k := by omega
    simp [hi, hbit, Bool.and_comm]
  · simp [hi]

/-- R171: WSP is 64-byte aligned and of 57 bits. -/
theorem dword_spill_bits (a : DWord) : dword (a.toNat % 2 ^ 57 / 64 * 64) = a &&& 0x01FFFFFFFFFFFFC0 := by
  apply BitVec.eq_of_toNat_eq
  rw [dword, BitVec.toNat_ofNat, Nat.mod_eq_of_lt (by omega)]
  exact mod_div_mul_eq_and a.toNat 6 51

theorem Machine.Thread.csrWrite_fflags (th : Thread) (a : Word) : th.csrWrite 0x000 a.toNat = { th with fflags := a &&& 0x1F } :=
  congrArg (fun f => { th with fflags := f }) (word_mod_flags a)

theorem Machine.Thread.csrWrite_wsp (th : Thread) (a : DWord) : th.csrWrite 0x010 a.toNat = { th with wsp := a &&& 0x01FFFFFFFFFFFFC0 } :=
  congrArg (fun p => { th with wsp := p }) (dword_spill_bits a)

theorem Machine.Thread.csrWrite_errst (th : Thread) (a : Word) : th.csrWrite 0x020 a.toNat = { th with errst := th.errst &&& ~~~a } := by
  rw [Thread.csrWrite, word, BitVec.ofNat_toNat, BitVec.setWidth_eq]

end values

/-- R170: the address of a well-formed CSRR or CSRW is listed, and M gives the register's width. -/
theorem csr_listed {i : Instr} {r : Row} {x : Fields} {s : State} {vs : List Lane} (hi : Issues i r x s vs) (hcsr : extraOk i = csrOk x) :
    csrRegs x.imm.toNat = some (x.m.toNat + 1) := by
  have h : csrOk x = true := hcsr ▸ hi.ok.2
  simpa only [csrOk, beq_iff_eq] using h

/-- R213: M = 0 names a register of one word, M = 1 one of two. -/
theorem rd_csr_one (v : Lane) {x : Fields} (h : some 1 = some (x.m.toNat + 1)) : v.rd (if x.m = 1 then 2 else 1) x.a = (v.r32 x.a).toNat := by
  have hm : x.m = 0 := BitVec.eq_of_toNat_eq (by simpa using h)
  rw [hm]
  rfl

theorem rd_csr_two (v : Lane) {x : Fields} (h : some 2 = some (x.m.toNat + 1)) : v.rd (if x.m = 1 then 2 else 1) x.a = (v.r64 x.a).toNat := by
  have hm : x.m = 1 := BitVec.eq_of_toNat_eq (by simpa using h.symm)
  rw [hm]
  rfl

/-- Settles O17: CSRR reads and CSRW writes at each of the listed addresses, and a well-formed word has no other. The cases stand in the
order of the arms of `csrRegs`: FFLAGS is the first, WSP the second, ERRST the fourth, and the last is an address that is not listed. -/
theorem specialRegisters : Obligations.SpecialRegisters := by
  unfold Obligations.SpecialRegisters
  intro x s n
  refine ⟨completes_plain rfl fun r vs hi v u => ?reads, completes_plain rfl fun r vs hi v u => ?writes⟩
  case reads =>
    have hlisted := csr_listed hi rfl
    refine congrArg (fun a => Act.done (v.wr u n x.d a)) ?_
    generalize x.imm.toNat = address at hlisted ⊢
    unfold csrRegs at hlisted
    split at hlisted
    case h_17 => contradiction
    all_goals rfl
  case writes =>
    have hlisted := csr_listed hi rfl
    refine congrArg (fun f => Act.done (u.updThread v.key f)) (funext fun th => ?_)
    generalize x.imm.toNat = address at hlisted ⊢
    unfold csrRegs at hlisted
    split at hlisted
    case h_1 => exact (congrArg _ (rd_csr_one v hlisted)).trans (th.csrWrite_fflags _)
    case h_2 => exact (congrArg _ (rd_csr_two v hlisted)).trans (th.csrWrite_wsp _)
    case h_4 => exact (congrArg _ (rd_csr_one v hlisted)).trans (th.csrWrite_errst _)
    case h_17 => contradiction
    all_goals rfl

end Sys2Proof
end

section
/-!
PROOFS. A step: a due latch first, then the chosen gather's word, else the agenda (R153, R154, R167, R168, R338, R352).
-/
namespace Sys2Proof
open Machine

section order
variable {s : State}

theorem step_latch {w : Nat × Nat} (h : s.dueLatch s.now = some w) : step s = exec (.stripLatch w.1 w.2) s := by
  simp only [step, h]

/-- R338: no gather issues in the clock of a latch. -/
theorem step_before_latch (h : s.dueLatch s.now = none) (harmed : s.armed = true) (hnext : s.dueLatch (s.now + 1) ≠ none) :
    step s = .next { s with now := s.now + 1 } := by
  simp only [step, h, harmed, if_true, Option.isSome_iff_ne_none.mpr hnext]

theorem step_issue (h : s.dueLatch s.now = none) (hnext : s.dueLatch (s.now + 1) = none) (harmed : s.armed = true) : step s = s.issueNext := by
  simp only [step, h, hnext, harmed, if_true, Option.isSome_none, Bool.false_eq_true, if_false]

theorem step_agenda {i : Instr} {ins : Inputs} {rest : List (Instr × Inputs)} (h : s.dueLatch s.now = none) (harmed : s.armed = false)
    (hagenda : s.agenda = (i, ins) :: rest) :
    step s = exec i ((({ s with agenda := rest, inputs := ins } : State).strike ins.upsets).clockOf i) := by
  simp only [step, h, harmed, Bool.false_eq_true, if_false, hagenda]

theorem strike_nil (s : State) : s.strike [] = s := rfl

/-- R300, R352: an unbind alone has a clock of its own. -/
theorem clockOf_other {i : Instr} (h : i ≠ .viewSetUnbind) : s.clockOf i = s := by
  unfold State.clockOf
  split
  · contradiction
  · rfl

end order

section word
variable {s u : State} {v : Lane} {vs : List Lane} {bs : List Byte}

/-- R154, R168: a fetched word that is an instruction is executed. -/
theorem issueNext_word {i : Instr} (hv : s.gatherLanes = some (v :: vs)) (hfetch : s.fetchWord v = (u, .ok bs))
    (hword : decodeWord (BitVec.ofNat 64 (ofBytes bs)) = some i) : s.issueNext = exec i u := by
  simp only [State.issueNext, hv, hfetch, hword]

theorem issueNext_illegal (hv : s.gatherLanes = some (v :: vs)) (hfetch : s.fetchWord v = (u, .ok bs))
    (hword : decodeWord (BitVec.ofNat 64 (ofBytes bs)) = none) : s.issueNext = issueIllegal u := by
  simp only [State.issueNext, hv, hfetch, hword]

theorem issueNext_stopped {f : FetchStop} (hv : s.gatherLanes = some (v :: vs)) (hfetch : s.fetchWord v = (u, .error f)) :
    s.issueNext = happen (u.missFetch (v :: vs) f) := by
  simp only [State.issueNext, hv, hfetch]

/-- R154: a lane's aligned word of a page that the core holds, and that this module holds, is a read of that page; bad data reads as zeros. -/
theorem fetchWord_held {e : TlbEntry} (halign : v.th.pc % 8 = 0)
    (hfind : (s.tlb.find? fun q => q.covers (fetchUnit v.core) v.g.ctx v.th.pc) = some e)
    (hpermits : (s.xlat e.bits e.entry v.th.pc).permits .fetch = true) (hpeer : (s.xlat e.bits e.entry v.th.pc).peer = none) :
    s.fetchWord v =
      let r := s.readPage (fetchAsker v.key v.g.ctx v.th.pc) (s.xlat e.bits e.entry v.th.pc) 8
      (r.1, .ok (r.2.orZeros 8)) := by
  have hlookup : s.lookup (fetchUnit (coreOf v.key)) (coreOf v.key) v.g.ctx v.th.pc .fetch = (s, some (s.xlat e.bits e.entry v.th.pc)) := by
    unfold Lane.core at hfind
    simp only [State.lookup, hfind, hpermits, if_true]
  have hwithin : min 8 (4096 - v.th.pc % 4096) = 8 := by omega
  simp only [State.fetchWord, State.fetchBytes, fetchAsker, hlookup, hpeer, hwithin, le_refl, if_true]

/-- R167, R168: major 0x00 has no operation 0, so zeros are no instruction. -/
theorem decodeWord_zeros : decodeWord (BitVec.ofNat 64 (ofBytes (List.replicate 8 0))) = none := rfl

/-- R154: bad data reads as no instruction. -/
theorem decodeWord_bad {r : PageRead} (h : r = .poison ∨ r = .reserved) : decodeWord (BitVec.ofNat 64 (ofBytes (r.orZeros 8))) = none := by
  rcases h with rfl | rfl <;> exact decodeWord_zeros

end word

/-- Settles O1: the branches of a step, and of the issue of a fetched word. -/
theorem stepRunsTheWord : Obligations.StepRunsTheWord := by
  unfold Obligations.StepRunsTheWord
  intro s word?
  refine ⟨fun w => step_latch, step_before_latch, fun v vs h hnext harmed hv => ?gather, fun i ins rest h harmed hagenda => ?agenda⟩
  case gather =>
    intro r asker
    have hstep : step s = s.issueNext := step_issue h hnext harmed
    refine ⟨fun bs i hr hword => ?word, fun bs hr hword => ?illegal, fun f hr => ?stopped, fun e t halign hfind ht hpermits hpeer => ?held⟩
    case word => exact hstep.trans (issueNext_word hv (Prod.ext rfl hr) hword)
    case illegal => exact hstep.trans (issueNext_illegal hv (Prod.ext rfl hr) hword)
    case stopped => exact hstep.trans (issueNext_stopped hv (Prod.ext rfl hr))
    case held =>
      subst ht
      have hfetch := fetchWord_held halign hfind hpermits hpeer
      refine ⟨fun bs i hread hword => ?bytes, fun hbad => ?bad⟩
      case bytes => exact hstep.trans (issueNext_word hv hfetch (hread.symm ▸ hword))
      case bad => exact hstep.trans (issueNext_illegal hv hfetch (decodeWord_bad hbad))
  case agenda =>
    have hstep := step_agenda h harmed hagenda
    refine ⟨hstep, fun hupsets hi => ?_⟩
    rw [hstep, hupsets, strike_nil, clockOf_other hi]

end Sys2Proof
end

section
/-!
PROOFS. Pair words: what each slot reads, gives and leaves, and the issue of a pair for a gather of one lane (R162 to R166, R221).
-/
namespace Sys2Proof.Machine

section meaning

/-- R163, R164: the source of a slot as a word. -/
def Lane.srcWord (v : Lane) (z : Slot) : Word :=
  if z.i then (match z.op.toNat with
    | 13 | 14 | 15 | 16 => z.src.setWidth 32 <<< 17
    | 17 | 18 => z.src.setWidth 32 * 2 * 65537
    | 22 => z.src.signExtend 32 * 4
    | _ => z.src.signExtend 32)
  else if z.op = 22 then v.w z.a * 4 else v.w z.a

/-- R164: the scratchpad offset of a slot. -/
def Lane.slotAt (v : Lane) (z : Slot) : Int := if z.i then z.src.toInt * 4 else (v.w z.a).toNat

/-- R163: the result of a slot with its flags, on bit strings. -/
def Lane.slotResult (v : Lane) (z : Slot) : Word × Nat :=
  let d := v.w z.d.toNat
  let b := v.srcWord z
  let float (r : Nat × Nat) : Word × Nat := (word r.1, r.2)
  match z.op.toNat with
  | 1 => (b, 0)
  | 2 | 22 => (d + b, 0)
  | 3 => (d - b, 0)
  | 4 => (d &&& b, 0)
  | 5 => (d ||| b, 0)
  | 6 => (d ^^^ b, 0)
  | 7 => (d <<< (b.toNat % 32), 0)
  | 8 => (d >>> (b.toNat % 32), 0)
  | 9 => (d.sshiftRight (b.toNat % 32), 0)
  | 10 => (if d.toInt ≤ b.toInt then d else b, 0)
  | 11 => (if d.toInt ≤ b.toInt then b else d, 0)
  | 12 => (d * b, 0)
  | 13 => float (opFadd false .rne d.toNat b.toNat)
  | 14 => float (opFmul false .rne d.toNat b.toNat)
  | 15 => float (opMinMax false false false d.toNat b.toNat)
  | 16 => float (opMinMax true false false d.toNat b.toNat)
  | 17 => float (opHadd2 fp16 .rne d.toNat b.toNat)
  | 18 => float (opHmul2 fp16 .rne d.toNat b.toNat)
  | 19 => (word (ofBytes (v.g.spRead (v.slotAt z).toNat 4)), 0)
  | 21 => (Store.rd 0 v.g.k z.a, 0)
  | 23 => (if v.th.preds.getLsbD 0 then d else b, 0)
  | _ => (0, 0)

/-- R163, R166: what a slot leaves in a lane. -/
def Lane.slotEffect (v : Lane) (z : Slot) (u : State) : State :=
  if v.active z.g false = false ∨ z.op = 0 then u
  else if z.op = 20 then
    if isThresher v.key then v.scratchStore u (v.slotAt z).toNat (toBytes 4 (v.w z.d.toNat).toNat)
    else u.spWrite v.th.gid (v.slotAt z).toNat (toBytes 4 (v.w z.d.toNat).toNat)
  else (u.putDst v.key v.th.gid (v.place (v.th.rename z.d.toNat)) (v.slotResult z).1).updThread v.key fun th =>
    { th with fflags := th.fflags ||| word (v.slotResult z).2 }

/-- R90, R99, R103, R221: a slot that acts takes no trap and is not held: its access is aligned, in bounds, clean where it is read and not
held, and it raises no enabled flag. -/
def Lane.SlotSound (v : Lane) (s : State) (z : Slot) : Prop :=
  v.active z.g false = true ∧ z.op ≠ 0 →
    ((z.op = 19 ∨ z.op = 20) → 0 ≤ v.slotAt z ∧ v.slotAt z % 4 = 0 ∧ v.slotAt z + 4 ≤ v.g.spLen ∧
      (z.op = 19 → v.g.spClean (v.slotAt z).toNat 4 = true) ∧
      (isThresher v.key = false ∨ z.op = 19 →
        s.boardBlocks v (v.g.pool (v.slotAt z).toNat) (v.g.pool ((v.slotAt z).toNat + 3)) (z.op == 20) = false)) ∧
    (v.slotResult z).2 &&& v.traps s = 0

end meaning

section words

theorem word_toNat (d : Word) : word d.toNat = d := by rw [word, BitVec.ofNat_toNat, BitVec.setWidth_eq]

theorem word_add (d b : Word) : word ((d.toNat + b.toNat) % 2 ^ 32) = d + b := word_toNat (d + b)

theorem word_sub (d b : Word) : word ((d.toNat + 2 ^ 32 - b.toNat) % 2 ^ 32) = d - b := by
  rw [← word_toNat (d - b), BitVec.toNat_sub]
  congr 2
  omega

theorem word_mul (d b : Word) : word (d.toNat * b.toNat % 2 ^ 32) = d * b := word_toNat (d * b)

theorem word_and (d b : Word) : word (d.toNat &&& b.toNat) = d &&& b := word_toNat (d &&& b)
theorem word_or (d b : Word) : word (d.toNat ||| b.toNat) = d ||| b := word_toNat (d ||| b)
theorem word_xor (d b : Word) : word (d.toNat ^^^ b.toNat) = d ^^^ b := word_toNat (d ^^^ b)

theorem word_shl (d : Word) (k : Nat) : word (d.toNat * 2 ^ k % 2 ^ 32) = d <<< k := by
  rw [← word_toNat (d <<< k), BitVec.toNat_shiftLeft, Nat.shiftLeft_eq]

theorem word_shr (d : Word) (k : Nat) : word (d.toNat / 2 ^ k) = d >>> k := by
  rw [← word_toNat (d >>> k), BitVec.toNat_ushiftRight, Nat.shiftRight_eq_div_pow]

theorem sext_word (d : Word) : sext d.toNat 32 = d.toInt := by rw [sext_eq _ _ (by decide), BitVec.ofNat_toNat, BitVec.setWidth_eq]

theorem word_sar (d : Word) (k : Nat) : word (modPow (sext d.toNat 32 / 2 ^ k) 32) = d.sshiftRight k := by
  rw [modPow_eq, word_toNat, sext_word, BitVec.sshiftRight, Int.shiftRight_eq_div_pow]
  rfl

theorem word_ite (c : Prop) [Decidable c] (d b : Word) : word (if c then d.toNat else b.toNat) = if c then d else b := by
  split <;> exact word_toNat _

theorem word_min (d b : Word) : word (if sext d.toNat 32 ≤ sext b.toNat 32 then d.toNat else b.toNat) = if d.toInt ≤ b.toInt then d else b := by
  rw [sext_word, sext_word, word_ite]

theorem word_max (d b : Word) : word (if sext d.toNat 32 ≤ sext b.toNat 32 then b.toNat else d.toNat) = if d.toInt ≤ b.toInt then b else d := by
  rw [sext_word, sext_word, word_ite]

end words

section source

/-- R164: an immediate of a floating-point slot is the upper bits of its word. -/
theorem floatImm_toNat (a : BitVec 15) : (a.setWidth 32 <<< 17).toNat = a.toNat * 2 ^ 17 := by
  rw [BitVec.toNat_shiftLeft, BitVec.toNat_setWidth, Nat.shiftLeft_eq]
  omega

/-- R164: an immediate of a packed slot stands in both halves. -/
theorem halfImm_toNat (a : BitVec 15) : (a.setWidth 32 * 2 * 65537).toNat = a.toNat * 2 * 65537 := by
  rw [BitVec.toNat_mul, BitVec.toNat_mul, BitVec.toNat_setWidth]
  change a.toNat % 2 ^ 32 * 2 % 2 ^ 32 * 65537 % 2 ^ 32 = _
  omega

theorem slotImm_eq (z : Slot) : z.immInt = z.src.toInt := by rw [Slot.immInt, sext_eq _ _ (by decide), BitVec.ofNat_toNat, BitVec.setWidth_eq]

theorem signedImm_toNat (z : Slot) : (z.src.signExtend 32).toNat = modPow (z.immInt * 1) 32 := by
  rw [slotImm_eq, modPow_eq, Int.mul_one, BitVec.signExtend]

theorem scaledImm_toNat (z : Slot) : (z.src.signExtend 32 * 4).toNat = modPow (z.immInt * 4) 32 := by
  rw [slotImm_eq, modPow_eq, BitVec.ofInt_mul, BitVec.signExtend]
  rfl

/-- R164: the word that a slot reads beside D: an immediate of opcodes 13 to 18, 22 or another, or a register. -/
theorem srcWord_toNat (v : Lane) (z : Slot) : (v.srcWord z).toNat = v.slotSrc z := by
  unfold Lane.slotSrc Lane.srcWord
  cases hi : z.i with
  | false =>
    simp only [Bool.false_eq_true, if_false]
    split
    · rw [BitVec.toNat_mul]
      rfl
    · rfl
  | true =>
    simp only [if_true]
    generalize z.op.toNat = op
    split
    case h_5 | h_6 => exact halfImm_toNat z.src
    case h_7 => exact scaledImm_toNat z
    case h_8 h13 h14 h15 h16 h17 h18 h22 =>
      have hfloat : (decide (13 ≤ op) && decide (op ≤ 16)) = false := by grind
      have hhalf : (decide (op = 17) || decide (op = 18)) = false := by grind
      simp only [hfloat, hhalf, Bool.false_eq_true, if_false, if_neg h22]
      exact signedImm_toNat z
    all_goals exact floatImm_toNat z.src

theorem slotOffset_eq (v : Lane) (z : Slot) : v.slotOffset z = v.slotAt z := by
  unfold Lane.slotOffset Lane.slotAt
  rw [slotImm_eq]

/-- R163: what each opcode but a load gives. The cases stand in the order of the arms of `slotResult`: opcodes 1, 2, 22, 3 to 19, 21, 23 and
the others. -/
theorem slotResult_eq (v : Lane) (z : Slot) (hload : z.op.toNat ≠ 19) :
    v.slotResult z = (word (v.slotValue z).1, (v.slotValue z).2) := by
  unfold Lane.slotResult Lane.slotValue
  rw [← srcWord_toNat]
  generalize v.w z.d.toNat = d
  generalize v.srcWord z = b
  generalize z.op.toNat = op at *
  dsimp only
  split
  case h_1 => exact congrArg (·, 0) (word_toNat b).symm
  case h_2 | h_3 => exact congrArg (·, 0) (word_add d b).symm
  case h_4 => exact congrArg (·, 0) (word_sub d b).symm
  case h_5 => exact congrArg (·, 0) (word_and d b).symm
  case h_6 => exact congrArg (·, 0) (word_or d b).symm
  case h_7 => exact congrArg (·, 0) (word_xor d b).symm
  case h_8 => exact congrArg (·, 0) (word_shl d _).symm
  case h_9 => exact congrArg (·, 0) (word_shr d _).symm
  case h_10 => exact congrArg (·, 0) (word_sar d _).symm
  case h_11 => exact congrArg (·, 0) (word_min d b).symm
  case h_12 => exact congrArg (·, 0) (word_max d b).symm
  case h_13 => exact congrArg (·, 0) (word_mul d b).symm
  case h_20 => contradiction
  case h_21 => exact congrArg (·, 0) (word_toNat _).symm
  case h_22 => exact congrArg (·, 0) (word_ite _ d b).symm
  case h_23 =>
    split
    case h_22 => rfl
    all_goals contradiction
  all_goals rfl

end source

section slot
variable {v : Lane} {s u : State} {z : Slot}

/-- R166, R169: what a slot does that takes no trap. -/
def SlotAct.settles : SlotAct → Prop
  | .trap _ _ => False
  | _ => True

/-- R163, R166: a slot comes to an act that leaves its effect. -/
def Lane.SlotRuns (v : Lane) (z : Slot) (u : State) : Prop :=
  ∃ a, v.slotRun z u = (u, a) ∧ a.settles ∧ ∀ t, v.slotPut z t a = v.slotEffect z t

theorem slotRun_idle (h : v.active z.g false = false ∨ z.op = 0) : v.SlotRuns z u := by
  have hidle : (!v.slotActive z || decide (z.op.toNat = 0)) = true := by
    rcases h with h | h <;> simp [Lane.slotActive, h]
  refine ⟨.nothing, ?_, trivial, fun t => ?_⟩
  · simp only [Lane.slotRun, hidle, if_true]
  · rw [Lane.slotEffect, if_pos h]
    rfl

/-- R162, R163: a slot whose guard holds and whose opcode is not 0 acts. -/
theorem slot_not_idle (hact : v.active z.g false = true) (hop : z.op ≠ 0) : (!v.slotActive z || decide (z.op.toNat = 0)) = false := by
  have hnumber : z.op.toNat ≠ 0 := fun h => hop (BitVec.eq_of_toNat_eq h)
  simp [Lane.slotActive, hact, hnumber]

theorem slotEffect_acts (hact : v.active z.g false = true) (hop : z.op ≠ 0) (t : State) :
    v.slotEffect z t =
      if z.op = 20 then v.scratchStore t (v.slotAt z).toNat (toBytes 4 (v.w z.d.toNat).toNat)
      else v.raiseFlags (t.putDst v.key v.th.gid (v.place (v.th.rename z.d.toNat)) (v.slotResult z).1) (v.slotResult z).2 := by
  rw [Lane.slotEffect, if_neg (not_or.mpr ⟨by simp [hact], hop⟩)]
  congr 1
  by_cases hthr : isThresher v.key = true
  · rw [if_pos hthr]
  · rw [if_neg hthr, Lane.scratchStore, if_neg hthr]

/-- R163, R164: a load of clean words within the scratchpad. -/
theorem slotRun_load (hact : v.active z.g false = true) (hop : z.op = 19) (hg : u.group v.th.gid = some v.g)
    (htrap : v.g.plainTrap (v.slotAt z) 4 = none) (hclean : v.g.spClean (v.slotAt z).toNat 4 = true) : v.SlotRuns z u := by
  have hnumber : z.op.toNat = pairLds := by rw [hop]; rfl
  have hzero : z.op ≠ 0 := by rw [hop]; decide
  refine ⟨.write (ofBytes (v.g.spRead (v.slotAt z).toNat 4)) 0, ?_, trivial, fun t => ?_⟩
  · simp only [Lane.slotRun, slot_not_idle hact hzero, Bool.false_eq_true, if_false, slotOffset_eq, htrap]
    simp only [hnumber, if_true, plainLoad_clean hg rfl rfl rfl hclean]
  · rw [slotEffect_acts hact hzero, if_neg (by rw [hop]; decide), Lane.slotResult, hnumber]
    rfl

/-- R163, R164: a store within the scratchpad. -/
theorem slotRun_store (hact : v.active z.g false = true) (hop : z.op = 20) (htrap : v.g.plainTrap (v.slotAt z) 4 = none) : v.SlotRuns z u := by
  have hnumber : z.op.toNat = pairSts := by rw [hop]; rfl
  have hzero : z.op ≠ 0 := by rw [hop]; decide
  have hload : pairSts ≠ pairLds := by decide
  refine ⟨.store (v.slotAt z).toNat (v.w z.d.toNat).toNat, ?_, trivial, fun t => ?_⟩
  · simp only [Lane.slotRun, slot_not_idle hact hzero, Bool.false_eq_true, if_false, slotOffset_eq, htrap]
    simp only [hnumber, hload, if_false, if_true]
  · rw [slotEffect_acts hact hzero, if_pos hop]
    rfl

/-- R163, R221: a slot that computes a value and raises no enabled flag. -/
theorem slotRun_value (hact : v.active z.g false = true) (hop : z.op ≠ 0) (hload : z.op ≠ 19) (hstore : z.op ≠ 20)
    (hflags : (v.slotResult z).2 &&& v.traps u = 0) : v.SlotRuns z u := by
  have hload' : z.op.toNat ≠ pairLds := fun h => hload (BitVec.eq_of_toNat_eq h)
  have hstore' : z.op.toNat ≠ pairSts := fun h => hstore (BitVec.eq_of_toNat_eq h)
  have hresult := slotResult_eq v z hload'
  rw [hresult] at hflags
  have hclear : ((v.slotValue z).2 &&& ((u.ctxOf v).map fun c => c.fpten.toNat).getD 0 != 0) = false := bne_eq_false_iff_eq.mpr hflags
  refine ⟨.write (v.slotValue z).1 (v.slotValue z).2, ?_, trivial, fun t => ?_⟩
  · simp only [Lane.slotRun, slot_not_idle hact hop, hload', hstore', hclear, Bool.false_eq_true, if_false]
  · rw [slotEffect_acts hact hop, if_neg hstore, hresult]
    rfl

/-- R163, R166: a sound slot has its effect. -/
theorem slotRun_sound (hg : u.group v.th.gid = some v.g) (h : v.SlotSound u z) : v.SlotRuns z u := by
  by_cases hidle : v.active z.g false = false ∨ z.op = 0
  · exact slotRun_idle hidle
  obtain ⟨hact, hop⟩ := not_or.mp hidle
  rw [Bool.not_eq_false] at hact
  obtain ⟨hmem, hflags⟩ := h ⟨hact, hop⟩
  by_cases hload : z.op = 19
  · obtain ⟨hlow, halign, hhigh, hclean, -⟩ := hmem (.inl hload)
    exact slotRun_load hact hload hg (plainTrap_none hlow halign hhigh) (hclean hload)
  by_cases hstore : z.op = 20
  · obtain ⟨hlow, halign, hhigh, -⟩ := hmem (.inr hstore)
    exact slotRun_store hact hstore (plainTrap_none hlow halign hhigh)
  · exact slotRun_value hact hop hload hstore hflags

/-- R99: a sound slot is not held. -/
theorem slotWaits_sound (h : v.SlotSound s z) : s.slotWaits v z = false := by
  unfold State.slotWaits
  by_cases hact : v.slotActive z = true
  swap
  · simp [hact]
  by_cases hmem : z.op = 19 ∨ z.op = 20
  swap
  · have hplain : z.isMem = false := by simpa [Slot.isMem] using hmem
    simp [hplain]
  have hop : z.op ≠ 0 := by rcases hmem with hmem | hmem <;> rw [hmem] <;> decide
  obtain ⟨-, -, -, -, hblocks⟩ := (h ⟨hact, hop⟩).1 hmem
  by_cases hheld : isThresher v.key = true ∧ z.op = 20
  · simp [hheld]
  have hplain : isThresher v.key = false ∨ z.op = 19 := by
    rcases hmem with hload | hstore
    · exact .inr hload
    · exact .inl (Bool.eq_false_iff.mpr fun hthr => hheld ⟨hthr, hstore⟩)
  have hfree : s.plainWaits v (v.slotOffset z) 4 (z.op == 20) = false := by
    rw [slotOffset_eq]
    exact (congrArg _ (hblocks hplain)).trans (Bool.and_false _)
  rw [hfree, Bool.and_false]

end slot

section pair
variable {v : Lane} {s : State} {p q : Slot}

/-- R165, R166: two sound slots have their effects on the operands as they stood. -/
theorem pair_done (hregs : v.slotActive p = true ∨ v.slotActive q = true → v.pairRegsBad p q = false) {u : State} (hp : v.SlotRuns p u)
    (hq : v.SlotRuns q u) : v.pair p q u = .done (v.slotEffect q (v.slotEffect p u)) := by
  obtain ⟨a, hrunp, hsetp, hputp⟩ := hp
  obtain ⟨b, hrunq, hsetq, hputq⟩ := hq
  have hlegal : ((v.slotActive p || v.slotActive q) && v.pairRegsBad p q) = false := by
    rw [Bool.and_eq_false_imp, Bool.or_eq_true]
    exact hregs
  rw [← hputp, ← hputq]
  simp only [Lane.pair, hlegal, Bool.false_eq_true, if_false, hrunp, hrunq]
  split
  · contradiction
  · contradiction
  · rfl

end pair

section issue
variable {v : Lane} {s : State} {p q : Slot}

/-- R162: a pair word names no operand in the fields of format F, so nothing of them holds a lane with no access awaiting translation. -/
theorem pair_free (hkept : v.th.kept = []) : v.free (pairSpec p q).row pairFields = true := by
  have hplaces (n : BitVec 6) : v.places 0 n = [] := by
    unfold Lane.places
    exact ite_self []
  have hbase (n : BitVec 6) : v.baseOk .none n = true := by
    unfold Lane.baseOk
    split
    · rfl
    · split <;> rfl
  refine Lane.free_iff.mpr ⟨by simp [Lane.heldBack, hkept], ?_, ?_, ?_⟩
  all_goals simp [pairSpec, Lane.rowPlaces, Lane.rowReads, Row.operands, Role.regs, Role.reads, hplaces, hbase]

/-- R156, R162: the guard of a pair word itself is legal wherever it stands. -/
theorem pair_guard (v : Lane) : v.guardBad pairFields.g pairFields.gn = false := by
  unfold Lane.guardBad
  split <;> rfl

/-- R165: what a pair word asks of where it stands. -/
theorem pair_fits (hp : v.guardBad p.g false = false) (hq : v.guardBad q.g false = false)
    (hregs : v.th.sheaf = none → v.pairRegsBad p q = false) : (pairSpec p q).bad v = false := by
  have hnone : (v.th.sheaf.isNone && v.pairRegsBad p q) = false := by
    rw [Bool.and_eq_false_imp, Option.isNone_iff_eq_none]
    exact hregs
  simp only [pairSpec, Lane.slotGuardBad, hp, hq, hnone, Bool.or_self]

/-- R156: a lane in which the guard of a slot holds is active in the pair word, which has no guard of its own. -/
theorem active_of_guard {g : BitVec 4} (h : v.active g false = true) : v.active pairFields.g pairFields.gn = true := by
  unfold Lane.active at h ⊢
  split at h
  · next sh _ =>
    have hpath : sh.path < 4 := BitVec.lt_of_getLsbD h
    change (15#4).getLsbD sh.path = true
    interval_cases sh.path <;> rfl
  · rfl

/-- R97, R99, R118: a pair of sound slots whose destinations are not pending issues. -/
theorem pair_stalls (hwrites : ∀ e ∈ v.slotWrites p ++ v.slotWrites q, isPending v.th v.g e.1 = false) (hp : v.SlotSound s p) (hq : v.SlotSound s q)
    (hboard : isThresher v.key = true → p.op = 20 ∨ q.op = 20 → s.boardFree v.core ≠ 0) : (pairSpec p q).stall s.tick [v] = false := by
  have hpend : ((v.slotWrites p ++ v.slotWrites q).any fun d => isPending v.th v.g d.1) = false :=
    List.any_eq_false.mpr fun e he => by simp [hwrites e he]
  have hroom : (isThresher v.key && ((v.slotActive p && isSts p) || (v.slotActive q && isSts q)) && s.tick.boardFree v.core == 0) = false := by
    by_cases hstore : isThresher v.key = true ∧ (p.op = 20 ∨ q.op = 20)
    · have hfree : s.tick.boardFree v.core ≠ 0 := hboard hstore.1 hstore.2
      simp [hfree]
    · have hnone : (isThresher v.key && ((v.slotActive p && isSts p) || (v.slotActive q && isSts q))) = false := by
        rw [Bool.and_eq_false_imp]
        intro hthr
        obtain ⟨hp, hq⟩ := not_or.mp fun h => hstore ⟨hthr, h⟩
        simp only [isSts, beq_eq_false_iff_ne.mpr hp, beq_eq_false_iff_ne.mpr hq, Bool.and_false, Bool.or_self]
      rw [hnone, Bool.false_and]
  have hwaits {z : Slot} (h : v.SlotSound s z) : s.tick.slotWaits v z = false := slotWaits_sound (s := s.tick) h
  simp only [pairSpec, List.any_cons, List.any_nil, Bool.or_false, hwaits hp, hwaits hq, hpend, hroom]

end issue

end Sys2Proof.Machine

namespace Sys2Proof
open Machine

/-- R169: a gather of one lane at a legal word that no rule hinders: the lane runs, or it is inactive and goes on. -/
theorem issue_single {i : Instr} {p : Spec} {s : State} {v : Lane} (hlanes : s.gatherLanes = some [v]) (hlate : v.th.late = none)
    (hlegal : wellFormed i = true) (hguard : v.guardBad p.x.g p.x.gn = false) (hbad : p.bad v = false) (hrules : ruleTraps i p [v] = [])
    (hfree : v.free p.row p.x = true) (honce : p.once = false) (hafter : p.after = fun s => (s, []))
    (hextra : ∀ d ∈ p.extra v, isPending v.th v.g d.1 = false) (hstall : p.stall s.tick (activeLanes p.x [v]) = false) :
    issue i p s = (let e := runLanes p (activeLanes p.x [v]) ((idleLanes p.x [v]).foldl (fun s v => s.retire v.key) s.tick)
      happen (e.1.takeTraps e.2)) := by
  obtain ⟨hheld, hplaces, -, -⟩ := Lane.free_iff.mp hfree
  have hpend : (((v.rowPlaces p.row p.x) ++ (p.extra v).map Prod.fst).any fun d => isPending v.th v.g d) = false := by
    rw [List.any_eq_false]
    intro d hd
    rcases List.mem_append.mp hd with hd | hd
    · simp [hplaces d hd]
    · obtain ⟨e, he, rfl⟩ := List.mem_map.mp hd
      simp [hextra e he]
  unfold activeLanes idleLanes at *
  cases hactive : v.active p.x.g p.x.gn
  all_goals
    simp only [hactive, List.filter_cons, List.filter_nil, Bool.false_eq_true, if_false, if_true] at hstall
    simp only [issue, hlanes, hlegal, hlate, hguard, hbad, hrules, hactive, hheld, hpend, hstall, honce, hafter, List.any_cons, List.any_nil,
      List.append_nil, List.filter_cons, List.filter_nil, List.nil_append, Option.isSome_none, Bool.or_self, Bool.not_true, Bool.not_false,
      Bool.false_eq_true, if_false, if_true]

theorem inactive_active {x : Fields} {v : Lane} (h : v.active x.g x.gn = false) : activeLanes x [v] = [] := by simp [activeLanes, h]
theorem inactive_idle {x : Fields} {v : Lane} (h : v.active x.g x.gn = false) : idleLanes x [v] = [v] := by simp [idleLanes, h]

section pair
variable {p q : Slot} {s : State} {v : Lane}

/-- R162, R165, R166: what the issue of a pair word for a gather of one lane leaves. -/
theorem pairWord_effects (hlanes : s.gatherLanes = some [v]) (hlegal : wellFormed (.pairWord p q) = true) (hlate : v.th.late = none)
    (hkept : v.th.kept = []) (hguardp : v.guardBad p.g false = false) (hguardq : v.guardBad q.g false = false)
    (hregs : v.th.sheaf = none ∨ v.slotActive p = true ∨ v.slotActive q = true → v.pairRegsBad p q = false)
    (hthr : isThresher v.key = true → thresherMay (.pairWord p q) = true ∧ (p.op = 20 ∨ q.op = 20 → s.boardFree v.core ≠ 0))
    (hreads : ∀ e ∈ v.slotPlaces p ++ v.slotPlaces q, isPending v.th v.g e.1 = false ∧ v.sound e.1 = true)
    (hwrites : ∀ e ∈ v.slotWrites p ++ v.slotWrites q, isPending v.th v.g e.1 = false) (hp : v.SlotSound s p) (hq : v.SlotSound s q) :
    exec (.pairWord p q) s = .next ((v.slotEffect q (v.slotEffect p s.tick)).retire v.key).settle.moved := by
  have hfree : v.free (pairSpec p q).row (pairSpec p q).x = true := pair_free hkept
  have hrules : ruleTraps (.pairWord p q) (pairSpec p q) [v] = [] := ruleTraps_nil (by simpa using fun h => ⟨(hthr h).1, rfl⟩) (fun _ _ => rfl)
  have hfits : (pairSpec p q).bad v = false := pair_fits hguardp hguardq fun h => hregs (.inl h)
  have hissue := issue_single (p := pairSpec p q) hlanes hlate hlegal (pair_guard v) hfits hrules hfree rfl rfl fun d hd => (hreads d hd).1
  change issue _ (pairSpec p q) s = _
  cases hactive : v.active (pairSpec p q).x.g (pairSpec p q).x.gn with
  | false =>
    have hidle (z : Slot) (t : State) : v.slotEffect z t = t :=
      if_pos (.inl (Bool.eq_false_iff.mpr fun h => Bool.false_ne_true (hactive.symm.trans (active_of_guard h))))
    have hnone := inactive_active hactive
    rw [hissue (by rw [hnone]; rfl), hnone, inactive_idle hactive, hidle, hidle]
    rfl
  | true =>
    have hgroup : s.tick.group v.th.gid = some v.g := gather_group hlanes v (by simp)
    have hlane : (pairSpec p q).lane v s.tick = .done (v.slotEffect q (v.slotEffect p s.tick)) :=
      pair_done (fun h => hregs (.inr h)) (slotRun_sound hgroup hp) (slotRun_sound hgroup hq)
    have hstep := laneStep_effect (p := pairSpec p q) rfl hfree (fun d hd => (hreads d hd).2) (by rw [hlane]; rfl)
    have hall := alone_active hactive
    rw [hissue (by rw [hall]; exact pair_stalls hwrites hp hq fun h => (hthr h).2), hall, alone_idle hactive]
    simp only [runLanes, List.foldl_cons, List.foldl_nil, hstep, Spec.effect_done hlane]
    rfl

end pair

/-- Settles O41: a slot's effect in the words of the statement is its effect on bit strings. -/
theorem pairs : Obligations.Pairs := by
  unfold Obligations.Pairs
  intro p q s v d a src at_ float value acts sound effect hlanes hlegal hlate hkept hguardp hguardq hregs hthr hreads hwrites hp hq
  exact pairWord_effects hlanes hlegal hlate hkept hguardp hguardq hregs hthr hreads hwrites hp hq

end Sys2Proof
end

section
/-!
PROOFS. Integer arithmetic in every type, form and saturation (R181 to R184).
-/
namespace Sys2Proof
open Machine

section values
variable {w : Nat}

/-- R184: the magnitude of a bit string, wrapped. -/
theorem ofInt_natAbs_toInt (u : BitVec w) : BitVec.ofInt w (u.toInt.natAbs : Int) = u.abs := by
  cases hsign : u.msb with
  | true =>
    have hneg : u.toInt ≤ 0 := by
      rw [BitVec.msb_eq_toInt, decide_eq_true_eq] at hsign
      exact hsign.le
    rw [Int.ofNat_natAbs_of_nonpos hneg, BitVec.ofInt_neg, BitVec.ofInt_toInt, BitVec.abs, if_pos hsign, BitVec.neg_eq]
  | false =>
    have hpos : 0 ≤ u.toInt := by
      rw [BitVec.msb_eq_toInt, decide_eq_false_iff_not, not_lt] at hsign
      exact hsign
    rw [Int.natAbs_of_nonneg hpos, BitVec.ofInt_toInt, BitVec.abs, hsign, if_neg Bool.false_ne_true]

/-- R184: the quotient of a product by the range of its low half is its high half, wrapped. -/
theorem ofInt_ediv_two_pow (p : Int) : BitVec.ofInt w (p / (2 ^ w : Nat)) = (BitVec.ofInt (2 * w) p).extractLsb' w w := by
  apply BitVec.eq_of_toNat_eq
  rw [BitVec.extractLsb'_toNat, BitVec.toNat_ofInt, BitVec.toNat_ofInt, Nat.shiftRight_eq_div_pow, two_mul, pow_add, Nat.cast_mul]
  have hb : ((2 ^ w : Nat) : Int) ≠ 0 := by positivity
  generalize 2 ^ w = b at hb ⊢
  generalize hr : (p % (b * b)).toNat = r
  have hp : p = r + b * (b * (p / (b * b))) := by
    rw [← hr, Int.toNat_of_nonneg (Int.emod_nonneg _ (mul_ne_zero hb hb)), ← mul_assoc, Int.emod_add_mul_ediv]
  rw [hp, Int.add_mul_ediv_left _ _ hb, Int.add_mul_emod_self_left]
  norm_cast

/-- R184: IMADW's clamp to 64 bits. -/
theorem clampInt_64 (signed : Bool) (r : Int) :
    clampInt 64 signed r =
      (let lo : Int := if signed then -2 ^ 63 else 0
       let hi : Int := if signed then 2 ^ 63 - 1 else 2 ^ 64 - 1
       if r < lo then lo else if hi < r then hi else r) := by
  cases signed <;> simp only [clampInt, Bool.false_eq_true, if_false, if_true] <;> split_ifs <;> omega

end values

section types
variable {x : Fields} {i : Instr} {s : State}

/-- R181: an unsigned result of 32 or 64 bits is written as it is. -/
theorem extended_unsigned (h : x.m.toNat ∈ [6, 7]) (u : BitVec x.width) : x.extended u = u.toNat := by
  obtain ⟨⟨hwidth, hregs⟩ | ⟨-, hregs⟩, hsigned⟩ := m67 h
  · simp only [Fields.extended, hregs, hsigned, Nat.reduceEqDiff, Bool.false_eq_true, if_false]
    exact BitVec.toNat_setWidth_of_le hwidth.le
  · rw [Fields.extended, if_pos hregs]

theorem value_signed (h : x.m.toNat ∈ [0, 1, 2, 3]) (u : BitVec x.width) : x.value u = u.toInt := by
  have hm : x.m.toNat < 4 := by
    simp only [List.mem_cons, List.not_mem_nil, or_false] at h
    omega
  simp [Fields.value, Fields.signed, hm]

/-- R181, R183: an integer operation writes the exact result that its operands give, wrapped, or with SAT clamped. -/
theorem completes_integer {result : Lane → Int} (exact : Lane → Int) (wrapped : Lane → BitVec x.width)
    (hexec : exec i s = issue i (intSpec i x result) s) (hexact : result = exact)
    (hwrapped : ∀ r vs, Issues i r x s vs → ∀ v, BitVec.ofInt x.width (exact v) = wrapped v) :
    Completes i x s fun v u => v.wr u x.regs x.d (x.extended (if x.sat then x.saturated (exact v) else wrapped v)) :=
  completes_plain hexec fun r vs hi v u => by rw [dstInt_eq, hexact, hwrapped r vs hi]

/-- R179, R184: an operation whose row admits no saturating form. -/
theorem arith_sat_false {n : Nat} {ms : List Nat} {c : Role} {vs : List Lane} (hn : n.testBit 6 = false)
    (hi : Issues i (rowArith n 0x80 ms c x) x s vs) : x.sat = false :=
  sat_false hi (show (0xFF - 0x80 : Nat).testBit 6 = true from rfl) hn

/-- R183: the same for an operation with no saturating form. -/
theorem completes_wrapping {n : Nat} {ms : List Nat} {c : Role} {result : Lane → Int} (exact : Lane → Int) (wrapped : Lane → BitVec x.width)
    (hexec : exec i s = issue i (intSpec i x result) s) (hexact : result = exact) (hrow : rowOf i = some (rowArith n 0x80 ms c x, x))
    (hn : n.testBit 6 = false) (hwrapped : ∀ v, BitVec.ofInt x.width (exact v) = wrapped v) :
    Completes i x s fun v u => v.wr u x.regs x.d (x.extended (wrapped v)) :=
  completes_plain hexec fun r vs hi v u => by
    obtain rfl : _ = r := congrArg Prod.fst (Option.some.inj (hrow.symm.trans hi.row))
    rw [dstInt_eq, hexact, arith_sat_false hn hi, if_neg Bool.false_ne_true, hwrapped]

/-- The bit that stands for a truth value. -/
theorem boolNat_eq_toNat (b : Bool) : boolNat b = b.toNat := by cases b <;> rfl

/-- R184: the sum of two unsigned operands and a carry. -/
theorem ofInt_carry {w : Nat} (a b : BitVec w) (c : Bool) :
    BitVec.ofInt w ((a.toNat : Int) + b.toNat + (c.toNat : Int)) = a + b + BitVec.ofNat w c.toNat := by
  rw [BitVec.ofInt_add, BitVec.ofInt_add]
  simp only [BitVec.ofInt_natCast, BitVec.ofNat_toNat, BitVec.setWidth_eq]

/-- R184: a type's order is that of its values. -/
theorem ofInt_min_value (a b : BitVec x.width) : BitVec.ofInt x.width (min (x.value a) (x.value b)) = if x.value a ≤ x.value b then a else b := by
  rw [min_def, apply_ite (BitVec.ofInt x.width), ofInt_value, ofInt_value]
theorem ofInt_max_value (a b : BitVec x.width) : BitVec.ofInt x.width (max (x.value a) (x.value b)) = if x.value a ≤ x.value b then b else a := by
  rw [max_def, apply_ite (BitVec.ofInt x.width), ofInt_value, ofInt_value]

end types

/-- Settles O9: each form's exact result is a number that the values of its operands give, and its wrapped result the same operation on
bit strings. -/
theorem integerArithmetic : Obligations.IntegerArithmetic := by
  unfold Obligations.IntegerArithmetic
  intro x s put
  refine ⟨completes_integer _ _ rfl ?_ fun r vs hi v => ?add, completes_integer _ _ rfl ?_ fun r vs hi v => ?sub,
    completes_integer _ _ rfl ?_ fun r vs hi v => ?mul, completes_integer _ _ rfl ?_ fun r vs hi v => ?mad,
    completes_integer _ _ rfl ?_ fun r vs hi v => ?neg, completes_integer _ _ rfl ?_ fun r vs hi v => ?abs,
    completes_plain rfl fun r vs hi v u => ?addc, completes_wrapping _ _ rfl ?_ rfl rfl fun v => ofInt_min_value ..,
    completes_wrapping _ _ rfl ?_ rfl rfl fun v => ofInt_max_value .., completes_wrapping _ _ rfl ?_ rfl rfl fun v => ofInt_ediv_two_pow _,
    completes_plain rfl fun r vs hi v u => ?madw⟩
  case add => rw [BitVec.ofInt_add, ofInt_value, ofInt_value]
  case sub => rw [Int.sub_eq_add_neg, BitVec.ofInt_add, BitVec.ofInt_neg, ofInt_value, ofInt_value, BitVec.sub_eq_add_neg]
  case mul => rw [BitVec.ofInt_mul, ofInt_value, ofInt_value]
  case mad => rw [BitVec.ofInt_add, BitVec.ofInt_mul, ofInt_value, ofInt_value, ofInt_value]
  case neg => rw [BitVec.ofInt_neg, ofInt_value]
  case abs =>
    obtain rfl : _ = r := congrArg Prod.fst (Option.some.inj hi.row)
    rw [value_signed (ms_of hi), ofInt_natAbs_toInt]
  case addc =>
    obtain rfl : _ = r := congrArg Prod.fst (Option.some.inj hi.row)
    have hm : x.m.toNat ∈ [6, 7] := ms_of hi
    have hunsigned := value_unsigned (m67 hm).2
    simp only [dstInt_eq, arith_sat_false rfl hi, src_eq, srcB_eq, hunsigned, boolNat_eq_toNat, ofInt_carry, extended_unsigned hm,
      Bool.false_eq_true, if_false]
    norm_cast
  case madw =>
    simp only [src_eq, srcB_eq, modPow_eq, clampInt_64, sext_eq _ 64 (by decide), BitVec.ofNat_toNat, BitVec.setWidth_eq]
  all_goals simp only [src_eq, srcB_eq]

end Sys2Proof
end

section
/-!
PROOFS. Bitwise operations, shifts, bit fields, counts, reversal and the byte permute (R182, R185 to R188).
-/
namespace Sys2Proof
open Machine

section words
variable {x : Fields} {i : Instr} {s : State}

/-- R185, R186: a logic operation, of types U32 and U64 alone, writes the bit string that its operands give. -/
theorem completes_logic {r : Row} {result : Lane → Nat} (value : Lane → BitVec x.width) (hexec : exec i s = issue i (logicSpec i x result) s)
    (hrow : rowOf i = some (r, x)) (hms : r.ms = [6, 7]) (hvalue : x.m.toNat ∈ [6, 7] → ∀ v, result v = (value v).toNat) :
    Completes i x s fun v u => v.wr u x.regs x.d (value v).toNat :=
  completes_plain hexec fun r' vs hi v u => by
    obtain rfl : r = r' := congrArg Prod.fst (Option.some.inj (hrow.symm.trans hi.row))
    rw [hvalue (hms ▸ ms_of hi)]

/-- R185: SAR is the arithmetic shift. -/
theorem sar_toNat {w : Nat} (hw : 0 < w) (a : BitVec w) (n : Nat) : modPow (sext a.toNat w / (2 ^ n : Nat)) w = (a.sshiftRight n).toNat := by
  rw [modPow_eq, sext_eq _ _ hw, BitVec.ofNat_toNat, BitVec.setWidth_eq, BitVec.sshiftRight, Int.shiftRight_eq_div_pow]

/-- R185: ROT is the rotation to the left. -/
theorem rotl_toNat {w n : Nat} (a : BitVec w) (hn : n < w) : rotl a.toNat w n = (a.rotateLeft n).toNat := by
  rw [rotl_or hn a.isLt, BitVec.toNat_rotateLeft, Nat.mod_eq_of_lt hn]

/-- R186: POPC counts the set bits. -/
theorem popCount_toNat {w : Nat} (a : BitVec w) : popCount w a.toNat = (List.range w).countP fun k => a.getLsbD k := by
  rw [List.countP_eq_length_filter]
  rfl

/-- R188: a selector of PRMB. -/
theorem immBits_selector (x : Fields) (k : Nat) : x.immBits (4 * k + 3) (4 * k) = (x.imm.extractLsb' (4 * k) 4).toNat := by
  have hlen : 4 * k + 3 + 1 - 4 * k = 4 := by omega
  rw [Fields.immBits, hlen, BitVec.extractLsb'_toNat, Nat.shiftRight_eq_div_pow]

/-- R187: a field's place and length, from the immediate or from B, which a length past the word's end cuts. -/
theorem posLen_eq (v : Lane) (x : Fields) :
    let pos := if x.immForm then x.imm.toNat % 32 else (v.r32 x.b).toNat % 32
    v.posLen x = (pos, if x.immForm then x.imm.toNat / 32 % 64 else min ((v.r32 x.b).toNat / 32 % 64) (32 - pos)) := by
  cases hform : x.immForm <;> simp [Lane.posLen, hform, Fields.immBits, bits]

/-- R168, R187: the field of a well-formed BFI lies in its word. -/
theorem posLen_inside (v : Lane) {x : Fields} (h : bitFieldOk x = true) : (v.posLen x).1 + (v.posLen x).2 ≤ 32 := by
  unfold Lane.posLen
  cases hform : x.immForm with
  | true =>
    simp only [bitFieldOk, hform, Bool.not_true, Bool.false_or, Bool.and_eq_true, decide_eq_true_eq] at h
    exact h.2
  | false =>
    simp only [Bool.false_eq_true, if_false]
    omega

end words

/-- Settles O10: each form is its operation on bit strings, of the operands by type or, for the fields, of 32-bit words. -/
theorem logicShiftsAndBitFields : Obligations.LogicShiftsAndBitFields := by
  unfold Obligations.LogicShiftsAndBitFields
  intro x s b n put pos len
  have ha (hm : x.m.toNat ∈ [6, 7]) (v : Lane) : v.rd x.regs x.a = (v.operand x x.a).toNat := (operand_toNat hm v x.a).symm
  have hb (hm : x.m.toNat ∈ [6, 7]) (v : Lane) : v.logicB x x.regs = (b v).toNat := (logicB_toNat hm v).symm
  have hn (v : Lane) : v.shiftCount x = n v := rfl
  have hfield (v : Lane) : v.posLen x = (pos v, len v) := posLen_eq v x
  refine ⟨completes_logic _ rfl rfl rfl fun hm v => ?and, completes_logic _ rfl rfl rfl fun hm v => ?or,
    completes_logic _ rfl rfl rfl fun hm v => ?xor, completes_logic _ rfl rfl rfl fun hm v => ?andn,
    completes_logic _ rfl rfl rfl fun hm v => ?not, completes_logic _ rfl rfl rfl fun hm v => ?shl,
    completes_logic _ rfl rfl rfl fun hm v => ?shr, completes_logic _ rfl rfl rfl fun hm v => ?sar,
    completes_logic _ rfl rfl rfl fun hm v => ?rot, completes_plain rfl fun r vs hi v u => ?bfx, completes_plain rfl fun r vs hi v u => ?bfi,
    completes_plain rfl fun r vs hi v u => ?popc, completes_plain rfl fun r vs hi v u => ?clz, completes_logic _ rfl rfl rfl fun hm v => ?brev,
    completes_plain rfl fun r vs hi v u => ?prmb⟩
  case and => rw [ha hm, hb hm, BitVec.toNat_and]
  case or => rw [ha hm, hb hm, BitVec.toNat_or]
  case xor => rw [ha hm, hb hm, BitVec.toNat_xor]
  case andn => rw [ha hm, hb hm, Nat.mod_eq_of_lt (b v).isLt, BitVec.toNat_and, BitVec.toNat_not]
  case not => rw [ha hm, BitVec.toNat_not]
  case shl => rw [ha hm, hn, BitVec.toNat_shiftLeft, Nat.shiftLeft_eq]
  case shr => rw [ha hm, hn, BitVec.toNat_ushiftRight, Nat.shiftRight_eq_div_pow]
  case sar => rw [ha hm, hn, sar_toNat (width_pos x)]
  case rot => rw [ha hm, hn, rotl_toNat _ (Nat.mod_lt _ (width_pos x))]
  case bfx => simp only [hfield, bfx_eq]
  case bfi =>
    have hinside := posLen_inside v (x := x) hi.ok.2
    rw [hfield] at hinside
    simp only [hfield, bfi_eq _ _ _ _ hinside]
  case popc =>
    obtain rfl : _ = r := congrArg Prod.fst (Option.some.inj hi.row)
    rw [ha (ms_of hi), popCount_toNat]
  case clz =>
    obtain rfl : _ = r := congrArg Prod.fst (Option.some.inj hi.row)
    rw [ha (ms_of hi), clz_bitLen (width_pos x)]
  case brev => rw [ha hm, bitReverse_eq]
  case prmb =>
    simp only [immBits_selector, permByte_eq, List.range_succ, List.range_zero, List.nil_append, List.map_cons, List.map_nil, List.cons_append,
      ofBytes_four]

end Sys2Proof
end

section
/-!
PROOFS. Compares, predicates and the select (R189 to R192).
-/
namespace Sys2Proof
open Machine

/-- R190: PSET's truth table is read at the number that its two predicates make. -/
theorem truthTable_eq (table : BitVec 16) (a b : Bool) :
    table.toNat.testBit (2 * boolNat a + boolNat b) = table.getLsbD (match a, b with
      | false, false => 0
      | false, true => 1
      | true, false => 2
      | true, true => 3) := by
  cases a <;> cases b <;> rfl

/-- Settles O11: conditions compare the values of the operands by type, and predicates are bits of a table or of a register. -/
theorem comparesAndPredicates : Obligations.ComparesAndPredicates := by
  unfold Obligations.ComparesAndPredicates
  intro x s
  refine ⟨completes_plain rfl fun r vs hi v u => ?icmp, completes_plain rfl fun r vs hi v u => ?pset,
    completes_plain rfl fun r vs hi v u => rfl, completes_plain rfl fun r vs hi v u => ?pmovP, completes_plain rfl fun r vs hi v u => ?sel⟩
  case icmp =>
    rw [src_eq, srcB_eq]
    rfl
  case pset => exact congrArg (fun b => Act.done (v.wrPred u x.d b)) (truthTable_eq ..)
  case pmovP => simp only [BitVec.setWidth_eq_extractLsb' (show 12 ≤ 16 by decide), BitVec.setWidth_eq_extractLsb' (show 12 ≤ 32 by decide)]
  case sel =>
    obtain rfl : _ = r := congrArg Prod.fst (Option.some.inj hi.row)
    dsimp only
    rw [apply_ite BitVec.toNat, operand_toNat (ms_of hi), logicB_toNat (ms_of hi)]

end Sys2Proof
end

section
/-!
PROOFS. TRAP and the returns from a handler (R206, R207, R418).
-/
namespace Sys2Proof
open Machine

section returns
variable {x : Fields} {s : State} {vs : List Lane}

/-- R169: an instruction with no condition of its own hinders no lane. -/
theorem unhindered_plain : Unhindered x s vs (fun _ => none) (fun _ => []) (fun _ _ => false) := ⟨by simp, by simp, rfl⟩

/-- R207: a lane outside a sheaf, in a handler, leaves it. -/
theorem trapReturn_leaves {v : Lane} (hsheaf : v.th.sheaf = none) (hhandler : v.th.tcause.getLsbD 8 = true) (skip : Nat) (u : State) :
    v.trapReturn skip u =
      .jump (u.updThread v.key fun th => th.leaveHandler (v.th.tepc + dword skip).toNat) (v.th.tepc + dword skip).toNat := by
  have ht : (v.th.tepc.toNat + skip) % 2 ^ 64 = (v.th.tepc + dword skip).toNat := by
    rw [BitVec.toNat_add, dword, BitVec.toNat_ofNat, Nat.add_mod_mod]
  simp only [Lane.trapReturn, hsheaf, Thread.inHandler, hhandler, ht, Option.isSome_none, Bool.not_true, Bool.or_self, Bool.false_eq_true, if_false]

end returns

/-- Settles O15: every active lane takes the software trap, or leaves its handler for the address that TEPC gives. -/
theorem trapsAndReturns : Obligations.TrapsAndReturns := by
  unfold Obligations.TrapsAndReturns
  intro x s back leave
  refine ⟨fun r vs hi _ => traps_lanes _ _ rfl hi unhindered_plain fun _ _ _ => rfl,
    fun r vs hi hok => jumps_lanes _ _ rfl hi unhindered_plain (fun _ _ => rfl) fun v hv u _ => ?_,
    fun r vs hi hok => jumps_lanes _ _ rfl hi unhindered_plain (fun _ _ => rfl) fun v hv u _ => ?_⟩
  all_goals exact trapReturn_leaves (hok v hv).1 (hok v hv).2 _ u

end Sys2Proof
end

section
/-!
PROOFS. NOP, YIELD, EXIT, PULSE and SAFEPT (R205, R208 to R211).
-/
namespace Sys2Proof
open Machine

section lanes
variable {i : Instr} {p : Spec} {r : Row} {x : Fields} {s : State} {vs : List Lane}

/-- R169: each active lane is left as an effect says, while the lanes before it keep what the effect rests on. -/
theorem issue_leaves (Q : State → Prop) (w : Lane → State → State) (hi : Issues i p.row p.x s vs) (hp : p.Clear s vs)
    (hstart : Q ((idleLanes p.x vs).foldl (fun u v => u.retire v.key) s.tick))
    (hlane : ∀ v ∈ activeLanes p.x vs, ∀ u, Q u → (p.lane v u).settles = true ∧ p.effect v u = w v u ∧ Q (w v u)) :
    issue i p s = .next (s.commit p.x vs w).settle.moved := by
  have hkeeps : ∀ v ∈ activeLanes p.x vs, ∀ u, Q u → (p.lane v u).settles = true ∧ Q (p.effect v u) := by
    intro v hv u hu
    obtain ⟨hsettles, heffect, hkept⟩ := hlane v hv u hu
    exact ⟨hsettles, heffect.symm ▸ hkept⟩
  have hsame : s.commit p.x vs p.effect = s.commit p.x vs w := by
    refine (List.foldl_rel (r := fun a b => a = b ∧ Q b) ⟨rfl, hstart⟩ ?_).1
    rintro v hv _ u ⟨rfl, hu⟩
    exact (hlane v hv _ hu).2
  rw [issue_effects Q hi hp hkeeps hstart, hsame]
  rfl

/-- R156: the lanes that go on before the first active lane change no field but the threads. -/
theorem idle_same {β : Type} (part : State → β) (htick : part s.tick = part s) (hretire : ∀ (u : State) (k : Nat), part (u.retire k) = part u) :
    part ((idleLanes x vs).foldl (fun u v => u.retire v.key) s.tick) = part s :=
  (foldl_same part (fun (u : State) (v : Lane) => u.retire v.key) (fun u v => hretire u v.key) _ _).trans htick

end lanes

section exit
variable {v : Lane} {s : State}

/-- R209: what EXIT leaves of a lane: a free slot, or a thread that drains. -/
def Machine.State.exited (s : State) (v : Lane) : State :=
  match Store.get s.threads v.key with
  | some th => if th.pend.isEmpty && th.kept.isEmpty && !s.fencing v.key then s.freeThread v.key v.th.gid
      else s.updThread v.key fun th => { th with st := .draining }
  | none => s

/-- R209: EXIT frees the slot of a lane with nothing outstanding. -/
theorem exit_eq (v : Lane) (s : State) : v.exit s = .raw (s.exited v) := by
  unfold Lane.exit State.exited
  cases Store.get s.threads v.key with
  | none => rfl
  | some th =>
    dsimp only
    split <;> rfl

end exit

section stops
variable {s u : State} {v : Lane}

/-- R211, R400: a stop is pending for a lane's context, or for its gang. -/
theorem stopPending_iff : s.stopPending v = true ↔ (∃ c, s.ctxOf v = some c ∧ c.stop ≠ none) ∨
    ∃ q ∈ s.gangStops, q.launch = v.g.launch ∧ q.gang = v.g.gang := by
  cases hctx : s.ctxOf v <;> simp [State.stopPending, hctx, Option.isSome_iff_ne_none]

/-- What a pending stop rests on. -/
structure Machine.State.SameStops (s u : State) : Prop where
  ctxs : u.ctxs = s.ctxs
  gangs : u.gangStops = s.gangStops

theorem Machine.State.SameStops.stopPending (h : s.SameStops u) (v : Lane) : u.stopPending v = s.stopPending v := by
  simp only [State.stopPending, State.ctxOf, h.ctxs, h.gangs]

theorem Machine.State.SameStops.finish (h : s.SameStops u) (v : Lane) (r : Row) (x : Fields) : s.SameStops (u.finish v r x) :=
  ⟨(State.finish_ctxs ..).trans h.ctxs, (State.finish_gangStops ..).trans h.gangs⟩

theorem sameStops_started (x : Fields) (vs : List Lane) (s : State) : s.SameStops ((idleLanes x vs).foldl (fun u v => u.retire v.key) s.tick) :=
  ⟨idle_same State.ctxs rfl fun _ _ => rfl, idle_same State.gangStops rfl fun _ _ => rfl⟩

theorem Machine.State.updThread_updThread (s : State) (k : Nat) (f g : Thread → Thread) :
    (s.updThread k f).updThread k g = s.updThread k (g ∘ f) := by
  simp only [State.updThread, Store.upd_upd]

end stops

/-- Settles O16: NOP and YIELD go on at once; EXIT leaves each lane freed or draining; PULSE acts once for its gather; and no lane of a gather
changes what a pending stop rests on, so SAFEPT finds for each what stood before. -/
theorem systemControl : Obligations.SystemControl := by
  unfold Obligations.SystemControl
  intro x s stopping
  refine ⟨completes_plain rfl fun _ _ _ _ _ => rfl, completes_plain rfl fun _ _ _ _ _ => rfl, fun r vs hi _ => ?exit, fun r v vs hi hv => ?pulse,
    fun r vs hi hok => ?goes, fun r vs hi hok => ?stops⟩
  all_goals obtain rfl : _ = r := congrArg Prod.fst (Option.some.inj hi.row)
  case exit =>
    exact issue_leaves (fun _ => True) (fun v u => u.exited v) hi unhindered_plain.clear trivial fun v _ u _ =>
      have h := exit_eq v u
      ⟨congrArg Act.settles h, Spec.effect_raw h, trivial⟩
  case pulse => exact issue_once hi ⟨fun _ _ => rfl, fun _ _ => rfl, rfl, rfl, rfl, fun _ _ => nofun, fun _ _ => nofun, rfl⟩ hv rfl
  case goes =>
    refine issue_done (s.SameStops ·) _ hi unhindered_plain.clear (fun v hv u hu => ⟨if_neg ?_, ?_⟩) (sameStops_started x vs s)
    · exact hu.stopPending v ▸ mt stopPending_iff.mp (hok v hv)
    · exact hu.finish v _ x
  case stops =>
    refine issue_leaves (s.SameStops ·) _ hi unhindered_plain.clear (sameStops_started x vs s) fun v hv u hu => ?_
    have hstop : u.stopPending v = true := hu.stopPending v ▸ stopPending_iff.mpr (hok v hv)
    refine ⟨congrArg Act.settles (if_pos hstop), Eq.trans (Spec.effect_wait (w := .safePoint) (if_pos hstop)) ?_, hu.ctxs, hu.gangs⟩
    exact State.updThread_updThread ..

end Sys2Proof
end

section
/-!
PROOFS. The tile walker: claims, and the work identifier of a tile (R214, R215, R391, R393).
-/
namespace Sys2Proof
open Machine

section tiles
variable {s : State} {v : Lane} {l : Launch}

/-- R391: the tiles of a launch. -/
theorem tiles_eq (l : Launch) : l.tiles = l.hdr 32 2 * l.hdr 34 2 * l.hdr 36 2 * l.hdr 38 2 := by
  simp only [Launch.tiles, Launch.extents, List.range_succ, List.range_zero, List.nil_append, List.map_cons, List.map_nil, List.cons_append,
    List.foldl_cons, List.foldl_nil, Nat.one_mul, Nat.mul_zero, Nat.mul_one, Nat.add_zero, Nat.reduceMul, Nat.reduceAdd]

/-- R215, R393: the fields of a tile number, by the extents of its launch. -/
theorem splitTile_extents (l : Launch) (m : BitVec 3) (a : Nat) :
    let e (k : Nat) : Nat := l.hdr (32 + 2 * (k - 2)) 2
    splitTile l.extents (m == 1) a =
      if m = 1 then [a / e 3 % e 2, a % e 3, a / (e 2 * e 3) % e 4, a / (e 2 * e 3 * e 4)]
      else [a % e 2, a / e 2 % e 3, a / (e 2 * e 3) % e 4, a / (e 2 * e 3 * e 4)] := by
  intro e
  by_cases hm : m = 1
  · rw [if_pos hm, beq_iff_eq.mpr hm]
    rfl
  · rw [if_neg hm, beq_eq_false_iff_ne.mpr hm]
    rfl

/-- R214: a lane's claim in a launch with a walker. -/
theorem claim_sent (x : Fields) (hl : Store.get s.launches v.g.launch = some l) (hwalker : (l.hdr 22 1).testBit 1 = true) :
    v.claim x s =
      .wait { s with claims := s.claims ++ [{ thread := v.key, launch := v.g.launch, pred := x.d.toNat, dst := v.places 2 x.b }] } .walker := by
  have hhas : l.hasWalker = true := hwalker
  simp only [Lane.claim, hl, hhas, Bool.not_true, Bool.false_eq_true, if_false]

theorem tileWid_outside {a : Nat} (swap : Bool) (hl : Store.get s.launches v.g.launch = some l) (h : l.tiles ≤ a) :
    s.tileWid v swap a = 2 ^ 64 - 1 := by
  simp only [State.tileWid, hl, h, if_true]

/-- R215: a lane's work identifier with the fields from F2 on replaced. -/
def Machine.Lane.withFields (v : Lane) (fs : List Nat) : Nat := fs.zipIdx.foldl (fun w p => setField v.g.widths w (p.2 + 2) p.1) v.wid.toNat

theorem tileWid_inside {a : Nat} (swap : Bool) (hl : Store.get s.launches v.g.launch = some l) (h : a < l.tiles) :
    s.tileWid v swap a = v.withFields (splitTile l.extents swap a) := by
  simp only [State.tileWid, hl, Nat.not_le.mpr h, if_false, Lane.withFields]

end tiles

/-- Settles O24: a claim goes to the scheduler of a launch with a walker, and a tile number inside the launch splits by its extents. -/
theorem walkers : Obligations.Walkers := by
  unfold Obligations.Walkers
  intro x s l mine e place fields
  have htiles : l.tiles = e 2 * e 3 * e 4 * e 5 := tiles_eq l
  refine ⟨fun r v hi hv hok => ?claims, fun r v hi hv hok => ?outside, fun r v hi hv hok => ?inside⟩
  all_goals
    obtain ⟨hl, hok⟩ := hok
    obtain rfl : _ = r := congrArg Prod.fst (Option.some.inj hi.row)
  case claims => exact alone_wait hi unhindered_plain.clear hv (claim_sent x hl hok)
  case outside =>
    have hwid := tileWid_outside (s := s.tick) (x.m == 1) hl (htiles ▸ hok)
    exact alone_done hi unhindered_plain.clear hv (congrArg (fun a => Act.done (v.wr s.tick 2 x.d a)) hwid)
  case inside =>
    have hsplit : splitTile l.extents (x.m == 1) (v.r64 x.a).toNat = fields (v.r64 x.a).toNat := splitTile_extents l _ _
    have hwid := (tileWid_inside (s := s.tick) (x.m == 1) hl (htiles ▸ hok)).trans (congrArg (v.withFields) hsplit)
    exact alone_done hi unhindered_plain.clear hv (congrArg (fun a => Act.done (v.wr s.tick 2 x.d a)) hwid)

end Sys2Proof
end

section
/-!
PROOFS. Floating-point arithmetic: each operation's value and flags (R221 to R225, R424).
-/
namespace Sys2Proof
open Machine

/-- Settles O25: every operation gives its value under its flags, FTZ and rounding mode, by the one rule of R221. -/
theorem floatArithmetic : Obligations.FloatArithmetic := by
  unfold Obligations.FloatArithmetic
  intro x s ftz mode a b c gives
  exact ⟨gives_f32 _ rfl, gives_f32 _ rfl, gives_f32 _ rfl, gives_f32 _ rfl, gives_f32 _ rfl, gives_f32 _ rfl, gives_f32 _ rfl, gives_f32 _ rfl,
    gives_f32 _ rfl, gives_f32 _ rfl, gives_f32 _ rfl, gives_f32 _ rfl, gives_f32 _ rfl, gives_f32 _ rfl, gives_f32 _ rfl, gives_f32 _ rfl⟩

end Sys2Proof
end

section
/-!
PROOFS. Signs, the class mask, compares, conversions and the maximum key (R224, R226, R227, R230 to R232).
-/
namespace Sys2Proof
open Machine

/-- R221: an instruction that completes in each lane with flags, whatever it writes. -/
theorem floats_writing {i : Instr} {x : Fields} {s : State} {f : Lane → State → Act} {flags : Lane → Nat} {write : Lane → State → State}
    (hexec : exec i s = issue i (specOf i f) s) (hlane : ∀ v u, f v u = v.floatDone u (flags v) (write v))
    (hwrite : ∀ v u, (write v u).ctxs = u.ctxs) : Floats i x s flags write := by
  obtain rfl : f = fun v u => v.floatDone u (flags v) (write v) := funext₂ hlane
  exact floats_of (fun r vs hi => by rw [hexec, specOf_eq hi.row]) hwrite

/-- R226: the class of a word by its sign, exponent and fraction. -/
theorem classBits_eq (a : Word) :
    classBits a.toNat =
      (let ex := (a.extractLsb' 23 8).toNat
      let fr := (a.extractLsb' 0 23).toNat
      if ex = 255 then (if fr = 0 then (if a.msb then 1 else 0x80) else if a.getLsbD 22 then 0x200 else 0x100)
      else if ex = 0 then (if fr = 0 then (if a.msb then 8 else 0x10) else if a.msb then 4 else 0x20)
      else if a.msb then 2 else 0x40) := by
  have hsign : a.toNat.testBit 31 = a.msb := (BitVec.msb_eq_getLsbD_last a).symm
  have hquiet : (a.toNat % 2 ^ 23).testBit 22 = a.getLsbD 22 := by rw [Nat.testBit_mod_two_pow]; rfl
  have hex : bits a.toNat 30 23 = (a.extractLsb' 23 8).toNat := by rw [BitVec.extractLsb'_toNat, Nat.shiftRight_eq_div_pow]; rfl
  have hfr : a.toNat % 2 ^ 23 = (a.extractLsb' 0 23).toNat := by rw [BitVec.extractLsb'_toNat, Nat.shiftRight_zero]
  simp only [classBits, hsign, hquiet, hex, ← hfr]
  split_ifs <;> rfl

/-- R232: an index counts down in the low word of its key. -/
theorem opFkey_eq (h : Nat) (b : Word) : opFkey h b.toNat =
    (if 0x7C00 < h % 0x8000 then 0xFFFF else if h < 0x8000 then h + 0x8000 else 0xFFFF - h) * 2 ^ 48 + (~~~b).toNat := by
  rw [BitVec.toNat_not]
  rfl

/-- R230: what a conversion's result leaves: its element, the rest of a narrow destination kept. -/
def Machine.Lane.putConverted (v : Lane) (x : Fields) (r : Nat × Nat) (s : State) : State :=
  if cvtWidth x.dstFmt = 64 then v.wr s 2 x.d r.1
  else if cvtWidth x.dstFmt = 32 then v.wr s 1 x.d r.1
  else v.wr s 1 x.d (putElem (cvtWidth x.dstFmt) (x.immBits 12 10) (v.r32 x.d).toNat r.1)

theorem cvtResult_eq (v : Lane) (x : Fields) (s : State) (r : Nat × Nat) : v.cvtResult x s r = v.floatDone s r.2 (v.putConverted x r) := by
  simp only [Lane.cvtResult, ← wr_one]
  rfl

theorem putConverted_ctxs (v : Lane) (x : Fields) (r : Nat × Nat) (s : State) : (v.putConverted x r s).ctxs = s.ctxs := by
  unfold Lane.putConverted
  split_ifs <;> exact wr_ctxs ..

/-- Settles O26: the sign operations, the mask and the key are values of words; a compare and the conversions complete with their flags. -/
theorem floatComparesAndConversions : Obligations.FloatComparesAndConversions := by
  unfold Obligations.FloatComparesAndConversions
  intro x s w from_ src at_ put cvt block cmp
  refine ⟨completes_plain rfl fun r vs hi v u => ?fabs, completes_plain rfl fun r vs hi v u => ?fneg,
    completes_plain rfl fun r vs hi v u => ?fclass, floats_writing rfl (fun v u => rfl) fun v u => rfl,
    floats_writing rfl (fun v u => cvtResult_eq v x u (cvt v)) fun v u => putConverted_ctxs v x (cvt v) u,
    floats_writing rfl (fun v u => cvtResult_eq v x u (block v)) fun v u => putConverted_ctxs v x (block v) u,
    completes_plain rfl fun r vs hi v u => ?fkey⟩
  case fabs => rw [wr_one_word]
  case fneg => rw [wr_one_word]
  case fclass => rw [wr_one, ← classBits_eq]; rfl
  case fkey => rw [Lane.nb, opFkey_eq]; rfl

end Sys2Proof
end

section
/-!
PROOFS. Packed arithmetic, dot products and the block scale (R233 to R236).
-/
namespace Sys2Proof
open Machine

/-- R221: an instruction whose lanes give a floating-point value. -/
theorem gives_value {i : Instr} {x : Fields} {s : State} {f : Lane → State → Act} (r : Lane → Nat × Nat)
    (hexec : exec i s = issue i (specOf i f) s) (hlane : ∀ v u, f v u = v.f32 x u (r v)) :
    Floats i x s (fun v => (r v).2) fun v s => v.wr s 1 x.d (r v).1 := by
  obtain rfl : f = fun v u => v.f32 x u (r v) := funext₂ hlane
  exact gives_f32 r hexec

section elements

/-- R233: the low and the high half of a word are its elements of width 16. -/
theorem elemOf_low (a : Word) : elemOf 16 0 a.toNat = a.toNat % 2 ^ 16 := congrArg (· % 2 ^ 16) (Nat.div_one a.toNat)
theorem elemOf_high (a : Word) : elemOf 16 1 a.toNat = a.toNat / 2 ^ 16 :=
  Nat.mod_eq_of_lt (Nat.div_lt_of_lt_mul a.isLt)

/-- R233: a packed operation is its operation on the low halves and on the high halves of its operands. -/
theorem packed_halves (t : Fmt) (f : (Word → FP) → Nat × Nat) :
    let lo := f fun a => t.decode (a.toNat % 2 ^ 16)
    let hi := f fun a => t.decode (a.toNat / 2 ^ 16)
    packed (fun n => f fun a => t.decode (elemOf 16 n a.toNat)) = (lo.1 + 2 ^ 16 * hi.1, lo.2 ||| hi.2) := by
  simp only [packed, elemOf_low, elemOf_high]
  rfl

/-- R234: an element of an integer dot product, by its sign. -/
def dotElement (w : Nat) (signed : Bool) (k : Nat) (a : Word) : Int :=
  if signed then ((a >>> (w * k)).setWidth w).toInt else ((a >>> (w * k)).setWidth w).toNat

theorem dotElement_eq {w : Nat} (hw : 0 < w) (signed : Bool) (k : Nat) (a : Word) :
    (if signed then sext (elemOf w k a.toNat) w else (elemOf w k a.toNat : Int)) = dotElement w signed k a := by
  have helem : elemOf w k a.toNat = ((a >>> (w * k)).setWidth w).toNat := by
    rw [BitVec.toNat_setWidth, BitVec.toNat_ushiftRight, Nat.shiftRight_eq_div_pow]
    rfl
  rw [helem, sext_eq _ _ hw, BitVec.ofNat_toNat, BitVec.setWidth_eq, dotElement]

end elements

section dots
variable {x : Fields}

/-- R234: the exact value of an integer dot product of n elements of width w: kind 0 is signed, kind 1 has B unsigned, kind 2 is unsigned. -/
def Machine.Lane.dotTotal (v : Lane) (x : Fields) (w n : Nat) : Int :=
  (List.range n).foldl (fun acc k => acc + dotElement w (x.kind != 2) k (v.r32 x.a) * dotElement w (x.kind == 0) k (v.r32 x.b))
    (if x.kind = 2 then ((v.r32 x.c).toNat : Int) else (v.r32 x.c).toInt)

/-- R234: the clamp of a saturating dot product. -/
def dotClamp (x : Fields) (r : Int) : Int := if x.kind = 2 then max 0 (min (2 ^ 32 - 1) r) else max (-2 ^ 31) (min (2 ^ 31 - 1) r)

theorem opDotInt_eq {w : Nat} (hw : 0 < w) (n : Nat) (v : Lane) :
    opDotInt w n (x.kind != 2) (x.kind == 0) (x.kind != 2) (x.imm.getLsbD 2) (v.na x) (v.nb x) (v.nc x) =
      (BitVec.ofInt 32 (if x.imm.getLsbD 2 then dotClamp x (v.dotTotal x w n) else v.dotTotal x w n)).toNat := by
  simp only [opDotInt, Lane.na, Lane.nb, Lane.nc, dotElement_eq hw, modPow_eq]
  by_cases hkind : x.kind = 2
  · simp only [Lane.dotTotal, dotClamp, hkind, bne_self_eq_false, Bool.false_eq_true, if_false, if_true]
  · simp only [Lane.dotTotal, dotClamp, bne_iff_ne.mpr hkind, hkind, if_false, if_true, sext_eq _ 32 (by decide), BitVec.ofNat_toNat,
      BitVec.setWidth_eq]

/-- R234: a dot product of an integer kind. -/
theorem dot_integer {w : Nat} (hw : 0 < w) (hkind : x.kind ≠ 3) (n : Nat) (ta tb : Fmt) (v : Lane) (u : State) : v.dot x w n ta tb u =
    .done (v.wr u 1 x.d (BitVec.ofInt 32 (if x.imm.getLsbD 2 then dotClamp x (v.dotTotal x w n) else v.dotTotal x w n)).toNat) := by
  rw [Lane.dot, if_neg hkind, opDotInt_eq hw, wr_one]

end dots

/-- Settles O27: a packed operation works on both halves; a dot product of kind 3 is floating-point, of another kind an exact integer sum. -/
theorem packedAndDots : Obligations.PackedAndDots := by
  unfold Obligations.PackedAndDots
  intro x s mode half lo hi gives both kind el dot int sum clamp ints
  have hboth (f : (Word → FP) → Nat × Nat) (v : Lane) (u : State) :
      v.f32 x u (packed fun n => f fun a => half.decode (elemOf 16 n a.toNat)) = v.f32 x u (both f) := congrArg _ (packed_halves half f)
  refine ⟨gives_value _ rfl fun v u => ?add, gives_value _ rfl fun v u => ?sub, gives_value _ rfl fun v u => ?mul, gives_value _ rfl fun v u => ?fma,
    fun hk => completes_plain rfl fun _ _ _ => dot_integer (by decide) hk 4 _ _,
    fun hk => completes_plain rfl fun _ _ _ => dot_integer (by decide) hk 8 _ _,
    fun hk => gives_value _ rfl fun v u => if_pos hk, fun hk => gives_value _ rfl fun v u => if_pos hk, gives_f32 _ rfl, gives_f32 _ rfl⟩
  case add => exact hboth (fun e => half.add mode (e (v.r32 x.a)) (e (v.r32 x.b))) v u
  case sub => exact hboth (fun e => half.add mode (e (v.r32 x.a)) (e (v.r32 x.b)).negate) v u
  case mul => exact hboth (fun e => half.mul mode (e (v.r32 x.a)) (e (v.r32 x.b))) v u
  case fma => exact hboth (fun e => half.fma mode (e (v.r32 x.a)) (e (v.r32 x.b)) (e (v.r32 x.c))) v u

end Sys2Proof
end

section
/-!
PROOFS. Winnow, tithe, and the approximate exponential and reciprocal (R237 to R242, R322 to R328).
-/
namespace Sys2Proof
open Machine

section enables
variable {u : State} {v : Lane} {c : Ctx}

/-- R324: an enable of APXCTL that is in effect: its bit is set, in a mode that leaves choices free. -/
def Machine.Ctx.enables (c : Ctx) (n : Nat) : Bool := c.apxctl.getLsbD n && decide (c.mode < 2)
/-- R324: a cheap choice of enable n that the mode of context c suppresses is counted. -/
def Machine.Lane.forced (v : Lane) (c : Ctx) (n : Nat) (cheap : Bool) (u : State) : State :=
  if cheap && c.apxctl.getLsbD n && !decide (c.mode < 2) then u.countTithe v.g.ctx 0 0 1 else u

theorem modeFree_eq (hc : u.ctxOf v = some c) : v.modeFree u = decide (c.mode < 2) := by
  have hget : Store.get u.ctxs v.g.ctx = some c := hc
  rw [Lane.modeFree, State.mode, hget, Option.map_some, Option.getD_some]
theorem apxBit_eq (hc : u.ctxOf v = some c) (n : Nat) : v.apxBit u n = c.apxctl.getLsbD n := by
  rw [Lane.apxBit, hc, Option.map_some, Option.getD_some]
theorem effective_eq (hc : u.ctxOf v = some c) (n : Nat) : v.effective u n = c.enables n := by
  rw [Lane.effective, apxBit_eq hc, modeFree_eq hc, Ctx.enables]
theorem countForced_eq (hc : u.ctxOf v = some c) (n : Nat) (cheap : Bool) : v.countForced u n cheap = v.forced c n cheap u := by
  rw [Lane.countForced, apxBit_eq hc, modeFree_eq hc, Lane.forced]

/-- R323: a count changes no field of its context but TCNT. -/
theorem ctxOf_forced (hc : u.ctxOf v = some c) (n : Nat) (cheap : Bool) : ∃ t, (v.forced c n cheap u).ctxOf v = some { c with tcnt := t } := by
  rw [Lane.forced]
  split_ifs
  · exact ⟨_, get_upd_same _ _ hc⟩
  · exact ⟨c.tcnt, hc⟩

end enables

section winnow
variable {s u : State} {v : Lane} {x : Fields} {c : Ctx}

/-- R238: the winnow value rests on its 64 samples. -/
theorem winnowValue_congr {l m : Nat → Nat → Nat} (h : ∀ y < 8, ∀ k < 8, l y k = m y k) : winnowValue l = winnowValue m := by
  unfold winnowValue
  refine List.foldl_ext _ _ _ fun acc y hy => ?_
  have hy : y < 8 := List.mem_range.mp hy
  refine congrArg (fun d : List Nat => acc + d.foldl (· + ·) 0) (List.map_congr_left fun k hk => ?_)
  have hk : k < 7 := (by decide : ∀ k ∈ [1, 2, 3, 4, 5, 6], k < 7) k hk
  have hrow := h y hy
  have hcolumn (j : Nat) (hj : j < 8) := h j hj y hy
  rw [hrow (k - 1) (by omega), hrow k (by omega), hrow (k + 1) (by omega), hcolumn (k - 1) (by omega), hcolumn k (by omega),
    hcolumn (k + 1) (by omega)]

/-- R237, R238: the winnow value of a lane's block in scratchpad. -/
def Machine.Lane.winnowOf (v : Lane) (x : Fields) : Nat :=
  winnowValue fun y k => (Store.rd 0 v.g.sp ((v.r32 x.a).toNat + y * x.imm.toNat + k)).toNat

/-- R90, R99, R103, R237: a lane whose winnow reads rows that are in the allocation, clean, and not held. -/
structure Machine.Lane.Winnows (v : Lane) (s : State) (x : Fields) : Prop where
  bound : (v.r32 x.a).toNat + 7 * x.imm.toNat + 8 ≤ v.g.spLen
  clean : ∀ y < 8, v.g.spClean ((v.r32 x.a).toNat + y * x.imm.toNat) 8 = true
  free : s.boardBlocks v (v.g.pool (v.r32 x.a).toNat) (v.g.pool ((v.r32 x.a).toNat + 7 * x.imm.toNat + 7)) false = false

theorem winnowWaits_free (h : v.Winnows s x) : winnowWaits x s.tick [v] = false := by
  have hfree : s.tick.boardBlocks v (v.g.pool (v.na x)) (v.g.pool (v.winnowEnd x - 1)) false = false := h.free
  simp only [winnowWaits, hfree, List.any_cons, List.any_nil, Bool.and_false, Bool.or_self]

/-- R103: clean samples read as they stand. -/
theorem winnowValue_clean (h : v.Winnows s x) :
    winnowValue (fun y k => ((v.g.spSound (v.na x + y * x.imm.toNat + k) 1).headD 0).toNat) = v.winnowOf x := by
  refine winnowValue_congr fun y hy k hk => ?_
  have hclean : v.g.spClean (v.na x + y * x.imm.toNat + k) 1 = true :=
    spClean_within (h.clean y hy) (Nat.le_add_right ..) (Nat.add_le_add_left (Nat.succ_le_of_lt hk) _) Nat.one_pos
  rw [spSound_clean (spClean_sound hclean)]
  rfl

/-- R237, R238: what a winnow with a threshold leaves. -/
def Machine.Lane.winnowed (v : Lane) (x : Fields) (c : Ctx) (thr : Nat) (u : State) : State :=
  v.wrPred (v.wr (v.forced c 1 (decide (v.winnowOf x < thr)) u) 1 x.b (v.winnowOf x)) x.d (decide (thr ≤ v.winnowOf x) || !c.enables 1)

theorem winnow_reads (h : v.Winnows s x) (hg : u.group v.th.gid = some v.g) (hc : u.ctxOf v = some c) (thr : Nat) :
    v.winnow x thr u = .done (v.winnowed x c thr u) := by
  have hrows : ∀ r ∈ (v.winnowRows x).map fun o => (o, 8), v.g.spClean r.1 r.2 = true := by
    simp only [Lane.winnowRows, List.mem_map, List.mem_range]
    rintro _ ⟨_, ⟨y, hy, rfl⟩, rfl⟩
    exact h.clean y hy
  have hbound : ¬v.g.spLen < v.winnowEnd x := Nat.not_lt.mpr h.bound
  obtain ⟨t, hcounted⟩ := ctxOf_forced hc 1 (decide (v.winnowOf x < thr))
  simp only [Lane.winnow, hbound, if_false, plainRead_clean hg hrows, winnowValue_clean h, countForced_eq hc, effective_eq hcounted, ← wr_one]
  rfl

/-- R237, R238: a winnow of one active lane completes. -/
theorem winnow_completes {i : Instr} {r : Row} {thr : Lane → State → Nat}
    (hexec : exec i s = issue i { specOf i (fun v u => v.winnow x (thr v u) u) with stall := winnowWaits x } s) (hi : Issues i r x s [v])
    (hv : v.active x.g x.gn = true) (hc : s.ctxOf v = some c) (h : v.Winnows s x) :
    exec i s = .next ((v.winnowed x c (thr v s.tick) s.tick).finish v r x).settle.moved :=
  alone_completes hexec hi hv (winnowWaits_free h) (winnow_reads h (tick_group hi) hc _)

/-- R322: the threshold of a lane's context. -/
theorem threshold_eq (hc : u.ctxOf v = some c) : ((u.ctxOf v).map Ctx.threshold).getD 0 = c.apxctl.toNat / 2 ^ 16 := by
  rw [hc]
  exact Nat.mod_eq_of_lt (Nat.div_lt_of_lt_mul c.apxctl.isLt)

end winnow

section tithe
variable {u : State} {v : Lane} {x : Fields} {c : Ctx}

/-- R240: an excursion counts 1. -/
theorem boolNat_decide (p : Prop) [Decidable p] : boolNat (decide p) = if p then 1 else 0 := by simp only [boolNat, decide_eq_true_eq]

/-- R239, R325: a lane's selection by the seed and the exponent of its context. -/
def Machine.Lane.selected (v : Lane) (x : Fields) (c : Ctx) : Bool :=
  titheSelected (v.r32 x.a).toNat ((v.r32 x.b).toNat / 2 ^ 16 % 8) ((v.r32 x.b).toNat % 2 ^ 16) (v.r32 x.c).toNat c.tseed.toNat
    (c.apxctl.toNat / 2 ^ 12 % 16)

/-- R239: TITHE.S writes the selection that its enable leaves. -/
theorem tithe_selects (hc : u.ctxOf v = some c) :
    v.tithe x u = .done (v.wrPred (v.forced c 3 (v.selected x c) u) x.d (v.selected x c && c.enables 3)) := by
  simp only [Lane.tithe, hc, countForced_eq hc, effective_eq hc]
  rfl

end tithe

section approximate
variable {i : Instr} {s u : State} {v : Lane} {x : Fields} {c : Ctx}

/-- R221: a value whose flags are not enabled is written, and its flags join FFLAGS. -/
theorem f32_done {r : Nat × Nat} (hc : u.ctxOf v = some c) (hflags : r.2 &&& c.fpten.toNat = 0) :
    v.f32 x u r = .done (v.raiseFlags (v.wr u 1 x.d r.1) r.2) := by
  simp only [Lane.f32, Lane.floatDone, hc, Option.map_some, Option.getD_some, hflags, bne_self_eq_false, Bool.false_eq_true, if_false, wr_one]

/-- R241, R242: an approximate form gives its cheap value where it has one and its enable is in effect, else its exact value. -/
theorem approximate_completes {r : Row} {f : Lane → State → Act} (cheap : Lane → Bool) (quick exact_ : Lane → Nat × Nat)
    (hexec : exec i s = issue i (specOf i f) s)
    (hlane : ∀ v u, f v u = v.f32 x (v.countForced u 2 (cheap v)) (if cheap v && v.effective u 2 then quick v else exact_ v))
    (hi : Issues i r x s [v]) (hv : v.active x.g x.gn = true) (hc : s.ctxOf v = some c)
    (hflags : (if cheap v && c.enables 2 then quick v else exact_ v).2 &&& c.fpten.toNat = 0) :
    let value := if cheap v && c.enables 2 then quick v else exact_ v
    exec i s = .next ((v.raiseFlags (v.wr (v.forced c 2 (cheap v) s.tick) 1 x.d value.1) value.2).finish v r x).settle.moved := by
  intro value
  have hc' : s.tick.ctxOf v = some c := hc
  obtain ⟨t, hcounted⟩ := ctxOf_forced hc' 2 (cheap v)
  have hdone : f v s.tick = .done (v.raiseFlags (v.wr (v.forced c 2 (cheap v) s.tick) 1 x.d value.1) value.2) := by
    rw [hlane, countForced_eq hc', effective_eq hc']
    exact f32_done hcounted hflags
  rw [hexec, specOf_eq hi.row]
  exact alone_done hi unhindered_plain.clear hv hdone

/-- R242: the cheap range of APXRCP. -/
theorem rcpCheap_eq (a : Nat) : rcpCheap a = decide (2 ≤ a / 2 ^ 23 % 256 ∧ a / 2 ^ 23 % 256 < 253) := (Bool.decide_and ..).symm

end approximate

/-- Settles O28: the enable and the mode of a lane's context decide what each form does; a count changes neither, so the value and the flags
that follow it rest on the context as it stood. -/
theorem approximation : Obligations.Approximation := by
  unfold Obligations.Approximation
  intro x s c mine free forced on base luma d value readable winnow selected apx two recip gives
  have hvalue (v : Lane) : v.winnowOf x = value v := rfl
  refine ⟨fun r v hi hv hok => ?wnw, fun r v hi hv hok => ?wnwCt, fun r v hi hv hc => ?titheS, fun r v hi hv hc => ?titheC,
    fun r v hi hv hok => ?apxexp2, fun r v hi hv hok => ?apxrcp⟩
  case wnw =>
    obtain ⟨hc, hbound, hclean, hfree⟩ := hok
    have hdone := winnow_completes rfl hi hv hc ⟨hbound, hclean, hfree⟩
    rw [Lane.winnowed, hvalue] at hdone
    exact hdone
  case wnwCt =>
    obtain ⟨hc, hbound, hclean, hfree⟩ := hok
    have hdone := winnow_completes rfl hi hv hc ⟨hbound, hclean, hfree⟩
    rw [threshold_eq (u := s.tick) hc, Lane.winnowed, hvalue] at hdone
    exact hdone
  case titheS => exact alone_completes (stall := fun _ _ => false) rfl hi hv rfl (tithe_selects (u := s.tick) hc)
  case titheC =>
    have hexcursion : boolNat (decide (v.nb x < v.na x)) = if v.r32 x.b < v.r32 x.a then 1 else 0 := boolNat_decide _
    refine alone_completes (stall := fun _ _ => false) rfl hi hv rfl ?_
    dsimp only
    rw [hexcursion, effective_eq (u := s.tick) hc, countForced_eq (u := s.tick) hc]
    rfl
  case apxexp2 =>
    obtain ⟨hc, hflags⟩ := hok
    exact approximate_completes (fun v => exp2Cheap (v.r32 x.a).toNat) (fun v => opApxExp2 (v.r32 x.a).toNat)
      (fun v => opFexp2 false (v.r32 x.a).toNat) rfl (fun _ _ => rfl) hi hv hc hflags
  case apxrcp =>
    obtain ⟨hc, hflags⟩ := hok
    exact approximate_completes (fun v => decide (2 ≤ (v.r32 x.a).toNat / 2 ^ 23 % 256 ∧ (v.r32 x.a).toNat / 2 ^ 23 % 256 < 253))
      (fun v => opApxRcp (v.r32 x.a).toNat) (fun v => opFrcp false .rne (v.r32 x.a).toNat)
      rfl (fun v u => by rw [← rcpCheap_eq]; rfl) hi hv hc hflags

end Sys2Proof
end

section
/-!
PROOFS. Atomics and reductions present their operation (R253 to R256).
-/
namespace Sys2Proof
open Machine

section atomics
variable {i : Instr} {s u : State} {v : Lane} {x : Fields}

/-- A scope other than the thread's own, in M (R253, R257). -/
theorem scope_ne_zero (m : BitVec 3) : (m != 0) = (m.toNat != 0) := by
  rw [Bool.eq_iff_iff, bne_iff_ne, bne_iff_ne, ne_eq, ne_eq, ← BitVec.toNat_inj]
  rfl

/-- R253: the bytes of an atomic's word. -/
theorem atomBytes_eq (x : Fields) :
    atomBytes x = if x.fn.toNat % 32 = 18 then 8 else if x.fn.toNat % 32 = 16 ∨ x.fn.toNat % 32 = 17 then 4 else if x.fn.getLsbD 5 then 8 else 4 := by
  rw [atomBytes]
  exact if_congr Iff.rfl rfl (if_congr (by rw [Bool.or_eq_true, decide_eq_true_eq, decide_eq_true_eq]) rfl rfl)

/-- R253: the access of an atomic, whose prior value operation op receives. -/
def Machine.Lane.atomicAccess (v : Lane) (x : Fields) (returns ra : Bool) (op : Nat) : Access :=
  { v.blankAccess .atomic (atomBytes x) op with
    va := v.address x, size := atomBytes x, data := toBytes (atomBytes x) (v.rd (atomBytes x / 4) x.b), code := x.fn.toNat % 32, ra := ra,
    returns := returns, cas := if x.fn.toNat % 32 = 9 then toBytes (atomBytes x) (v.rd (atomBytes x / 4) x.c) else [],
    ordered := x.fn.toNat / 64 != 0, acquires := x.fn.toNat / 64 % 2 == 1 && x.m != 0 }

/-- R117, R253 to R256: what an atomic leaves: a returning form's destination pending on a new operation, and its one access presented. -/
def Machine.Lane.presentAtomic (v : Lane) (x : Fields) (returns : Bool) (u : State) : State :=
  let ra := u.ignoreRa v.g.ctx (x.fn.toNat % 32 == 16 && x.fn.getLsbD 5)
  let ld := if returns then v.newLoad ra.1 (atomBytes x) 1 false (v.places (atomBytes x / 4) x.d) (some (x.fn.toNat % 32)) else (ra.1, 0)
  ld.1.present v.key [v.atomicAccess x returns ra.2 ld.2]

theorem presentAtomic_access (v : Lane) (x : Fields) (returns : Bool) (u : State) : AccessOnly u (v.presentAtomic x returns u) := by
  cases returns with
  | true => exact ((ignoreRa_access ..).trans (newLoad_access ..)).trans (present_access ..)
  | false => exact (ignoreRa_access ..).trans (present_access ..)

/-- R253: an aligned atomic whose word the lane's context admits, where accesses alone have come before it in its gather. -/
theorem atomic_presents (returns : Bool) (h : AccessOnly s u) (halign : v.address x % atomBytes x = 0) (hfirst : v.admits s (v.address x))
    (hlast : v.admits s (v.address x + atomBytes x - 1)) : v.atomic x returns u = .done (v.presentAtomic x returns u) := by
  refine (checkGlobal_after h ⟨hfirst, hlast, fun _ => halign⟩).trans ?_
  simp only [Lane.presentAtomic, Lane.atomicAccess, scope_ne_zero]
  rfl

/-- R253 to R256: a form of the atomics or of the reductions completes. -/
theorem atomic_completes (returns : Bool) (hexec : exec i s = issue i (specOf i fun v u => v.atomic x returns u) s) :
    CompletesIf i x s (fun v => v.address x % atomBytes x = 0 ∧ v.admits s (v.address x) ∧ v.admits s (v.address x + atomBytes x - 1))
      (fun v u => v.presentAtomic x returns u) := by
  intro r vs hi hok
  refine completes_accesses _ hexec hi (fun v u => presentAtomic_access v x returns u) fun v hv u hu => ?_
  obtain ⟨halign, hfirst, hlast⟩ := hok v hv
  exact atomic_presents (s := s.tick) returns hu halign hfirst hlast

end atomics

/-- Settles O21: the forms differ in their operation's number alone, which their words carry in FN. -/
theorem atomics : Obligations.Atomics := by
  unfold Obligations.Atomics
  intro x s op n addr ok effect
  have hforms (returns : Bool) {i : Instr} (hexec : exec i s = issue i (specOf i fun v u => v.atomic x returns u) s) :
      CompletesIf i x s ok (effect returns) := by
    have hpresent := atomic_completes returns hexec
    simp only [address_eq, atomBytes_eq, Lane.presentAtomic, Lane.atomicAccess] at hpresent
    exact hpresent
  have hreturns {i : Instr} : exec i s = issue i (atomSpec i x) s → CompletesIf i x s ok (effect true) := hforms true
  have hreduces {i : Instr} : exec i s = issue i (redSpec i x) s → CompletesIf i x s ok (effect false) := hforms false
  simp only [List.forall_mem_cons]
  exact ⟨⟨hreturns rfl, hreturns rfl, hreturns rfl, hreturns rfl, hreturns rfl, hreturns rfl, hreturns rfl, hreturns rfl, hreturns rfl, hreturns rfl,
      hreturns rfl, hreturns rfl, hreturns rfl, hreturns rfl, hreturns rfl, hreturns rfl, List.forall_mem_nil _⟩,
    hreduces rfl, hreduces rfl, hreduces rfl, hreduces rfl, List.forall_mem_nil _⟩

end Sys2Proof
end

section
/-!
PROOFS. FENCE, the hints, and the instructions that wait for a thread's accesses at peers (R257 to R259, R367, R371).
-/
namespace Sys2Proof
open Machine

section fence
variable {s u : State} {v : Lane} {x : Fields}

/-- R257, R258: what FENCE leaves of a lane with nothing to wait for. -/
def Machine.Lane.fenced (v : Lane) (x : Fields) (u : State) : State :=
  if v.r32 x.b = 0 then u else if x.imm.getLsbD 0 && x.m != 0 then u.drainAll.invalidateCache v.core else u.drainAll

theorem fence_done (v : Lane) (x : Fields) (u : State) : v.fence x u = .done (v.fenced x u) := by
  have hlength : (v.r32 x.b).toNat = 0 ↔ v.r32 x.b = 0 := BitVec.toNat_inj (y := 0)
  simp only [Lane.fence, Lane.fenced, hlength, scope_ne_zero, apply_ite Act.done]

end fence

section hints
variable {s u w : State} {v : Lane} {x : Fields} {t : Xlat}

/-- What holds the registers, and what decides where they are: no hint changes any of it. -/
structure Machine.State.SameThreads (s u : State) : Prop where
  threads : u.threads = s.threads
  groups : u.groups = s.groups
  ctxs : u.ctxs = s.ctxs

theorem Machine.State.SameThreads.refl (s : State) : s.SameThreads s := ⟨rfl, rfl, rfl⟩
theorem Machine.State.SameThreads.trans (h : s.SameThreads u) (k : u.SameThreads w) : s.SameThreads w :=
  ⟨k.threads.trans h.threads, k.groups.trans h.groups, k.ctxs.trans h.ctxs⟩
theorem Machine.MemOnly.sameThreads (h : MemOnly s u) : s.SameThreads u := by
  rw [h.frame]
  exact ⟨rfl, rfl, rfl⟩

/-- R33: translating moves entries between the translation caches alone. -/
theorem lookup_sameThreads (s : State) (unit core ctx va : Nat) (k : AccessKind) : s.SameThreads (s.lookup unit core ctx va k).1 := by
  unfold State.lookup
  split
  · exact .refl s
  · split
    · dsimp only
      split <;> exact ⟨rfl, rfl, rfl⟩
    · exact .refl s

/-- R259: what a hint leaves that does k where its address translates to this module's memory. -/
def Machine.Lane.hinted (v : Lane) (x : Fields) (k : State → Xlat → State) (u : State) : State :=
  if ((u.ctxOf v).map fun c => c.canonical (v.address x)).getD false then
    let r := u.lookup (dataUnit v.core (quadOf v.key)) v.core v.g.ctx (v.address x) .load
    match r.2 with
    | some t => if t.peer.isSome || r.1.bridgeCut v.core t.pa then r.1 else k r.1 t
    | none => r.1
  else u

theorem hint_done (v : Lane) (x : Fields) (u : State) (k : State → Xlat → State) : v.hint x u k = .done (v.hinted x k u) := by
  cases hadmits : ((u.ctxOf v).map fun c => c.canonical (v.address x)).getD false with
  | false => simp only [Lane.hint, Lane.hinted, hadmits, Bool.not_false, Bool.false_eq_true, if_false, if_true]
  | true =>
    cases hpage : (u.lookup (dataUnit v.core (quadOf v.key)) v.core v.g.ctx (v.address x) .load).2 <;>
      simp only [Lane.hint, Lane.hinted, hadmits, hpage, Bool.not_true, Bool.false_eq_true, if_false, if_true, apply_ite Act.done]

theorem hinted_sameThreads {k : State → Xlat → State} (hk : ∀ (u : State) t, u.SameThreads (k u t)) (v : Lane) (x : Fields) (u : State) :
    u.SameThreads (v.hinted x k u) := by
  have hlookup := lookup_sameThreads u (dataUnit v.core (quadOf v.key)) v.core v.g.ctx (v.address x) .load
  unfold Lane.hinted
  split
  · dsimp only
    split
    · split
      · exact hlookup
      · exact hlookup.trans (hk _ _)
    · exact hlookup
  · exact .refl u

/-- R259: a hint whose page the quadrant holds, with its memory in reach, is applied there. -/
theorem hinted_applies (k : State → Xlat → State) (hadmits : v.admits u (v.address x)) (hpage : v.page u (v.address x) .load = some t)
    (hpeer : t.peer = none) (hcut : u.bridgeCut v.core t.pa = false) : v.hinted x k u = k u t := by
  obtain ⟨c, hc, hcanonical⟩ := hadmits
  simp only [Lane.hinted, hc, Option.map_some, hcanonical, Option.getD_some, lookup_page hpage, hpeer, Option.isSome_none, hcut, Bool.or_self,
    Bool.false_eq_true, if_true, if_false]

/-- R259: what PREF does with the line of its address. -/
def Machine.Lane.prefetched (v : Lane) (x : Fields) (u : State) (t : Xlat) : State :=
  let line := t.pa / 128
  let r := ((u.drainLine line).sense (128 * line) 128).checkCode t.cmp (128 * line) 128 v.core v.g.ctx (some v.key) v.th.pc
  let a := if t.cl = 0 then r else r.allocate line x.kind (((Store.get r.lines line).map LineTag.dirty).getD false)
  if x.m = 1 && t.cl = 2 then a.fillLines v.core { t with pa := 128 * line } 128 else a

/-- R105: filling a load cache changes memory alone. -/
theorem fillLines_mem (s : State) (core : Nat) (x : Xlat) (n : Nat) : MemOnly s (s.fillLines core x n) := by
  unfold State.fillLines
  refine MemOnly.foldl (fun s l => ?_) _ _
  split
  · exact .refl s
  · exact fillCache_mem ..

theorem prefetched_mem (v : Lane) (x : Fields) (u : State) (t : Xlat) : MemOnly u (v.prefetched x u t) := by
  have hread := ((drainLine_mem u (t.pa / 128)).trans (sense_mem _ (128 * (t.pa / 128)) 128)).trans
    (checkCode_mem _ t.cmp (128 * (t.pa / 128)) 128 v.core v.g.ctx (some v.key) v.th.pc)
  unfold Lane.prefetched
  dsimp only
  split_ifs
  · exact hread.trans (fillLines_mem ..)
  · exact (hread.trans (allocate_mem ..)).trans (fillLines_mem ..)
  · exact hread
  · exact hread.trans (allocate_mem ..)

/-- R259: what EVICT does with the line of its address. -/
def evictLine (x : Fields) (u : State) (t : Xlat) : State :=
  { u with lines := Store.upd u.lines (t.pa / 128) fun l => { l with prio := x.fn.toNat / 64, dirty := l.dirty && x.m != 1 } }

theorem evictLine_mem (x : Fields) (u : State) (t : Xlat) : MemOnly u (evictLine x u t) := ⟨rfl, id⟩

/-- R259: a hint completes in every lane. -/
theorem hint_completes {i : Instr} {k : Lane → State → Xlat → State} (hexec : exec i s = issue i (specOf i fun v u => v.hint x u (k v)) s) :
    Completes i x s fun v u => v.hinted x (k v) u :=
  completes_plain hexec fun _ _ _ v u => hint_done v x u (k v)

end hints

section stalls
variable {i : Instr} {r : Row} {x : Fields} {s : State} {v : Lane} {f : Lane → State → Act} {stall : State → List Lane → Bool}

/-- R99, R107: a gather of one active lane that waits at issue. -/
def Machine.State.stalled (s : State) (v : Lane) : State := (s.tick.noteHolders [v]).stallAll [v] .issue

/-- R107, R169: an instruction that stalls changes nothing else. -/
theorem alone_stalls (hexec : exec i s = issue i { specOf i f with stall := stall } s) (hi : Issues i r x s [v]) (hv : v.active x.g x.gn = true)
    (hstall : stall s.tick [v] = true) : exec i s = .next (s.stalled v) := by
  obtain ⟨hheld, hpend, -, -⟩ := Lane.free_iff.mp (hi.free v (by simp) hv)
  have hlate : v.th.late.isSome = false := by rw [hi.late v (by simp), Option.isSome_none]
  have hguard : v.guardBad x.g x.gn = false := hi.guard v (by simp)
  have hwaits : ((v.rowPlaces r x).any fun d => isPending v.th v.g d) = false := List.any_eq_false.mpr fun d hd => by simp [hpend d hd]
  have hrules : ruleTraps i { row := r, x := x, lane := f, stall := stall } [v] = [] := ruleTraps_nil hi.thresher (by simp)
  rw [hexec, specOf_eq hi.row]
  simp only [issue, hi.lanes, hlate, hi.legal, hguard, hrules, hv, hheld, hwaits, hstall, List.any_cons, List.any_nil, List.map_nil, List.append_nil,
    List.filter_cons, List.filter_nil, Bool.or_self, Bool.not_true, Bool.not_false, Bool.false_eq_true, if_false, if_true]
  rfl

/-- R107: what a stall changes, said field by field. -/
theorem stalled_frame (s : State) (v : Lane) :
    s.stalled v = { s with threads := (s.stalled v).threads, now := s.now + 1, armed := false, gather := none, sensed := [] } := rfl

theorem stalled_other (s : State) (v : Lane) {k : Nat} (hk : k ≠ v.key) : Store.get (s.stalled v).threads k = Store.get s.threads k :=
  (get_upd_other _ _ hk).trans (get_upd_other _ _ hk)

theorem stalled_thread (hth : Store.get s.threads v.key = some v.th) :
    ∃ th, Store.get (s.stalled v).threads v.key = some th ∧
      th = { v.th with st := .waiting (.stall s.moves .issue), since := s.now + 1, heldBy := th.heldBy } :=
  ⟨_, get_upd_same _ _ (get_upd_same _ _ hth), rfl⟩

/-- R371: an access of the thread that a peer has not performed. -/
theorem fencingWaits_remote {op : Nat} {o : AOp} {l : LoadOp} (ho : (op, o) ∈ s.ops) (hthread : o.thread = v.key) (hkind : o.kind = .load l)
    (hremote : l.remote ≠ []) : fencingWaits s.tick [v] = true := by
  obtain ⟨m, ms, hm⟩ := List.exists_cons_of_ne_nil hremote
  have hholds : s.tick.fencing v.key = true := List.any_eq_true.mpr ⟨(op, o), ho, by simp [hthread, hkind, hm]⟩
  simp [fencingWaits, hholds]

/-- R367: an access of the thread, to a page that is not UO, that a peer has not performed. -/
theorem releaseWaits_remote {op : Nat} {o : AOp} {l : LoadOp} {m : Remote} (ho : (op, o) ∈ s.ops) (hthread : o.thread = v.key)
    (hkind : o.kind = .load l) (hm : m ∈ l.remote) (hpage : m.page ≠ 2) : releaseWaits s.tick [v] = true := by
  have hany : (l.remote.any fun r => r.page != kindUO) = true := List.any_eq_true.mpr ⟨m, hm, bne_iff_ne.mpr hpage⟩
  have hholds : s.tick.releasing v.key = true := List.any_eq_true.mpr ⟨(op, o), ho, by simp [hthread, hkind, hany]⟩
  simp [releaseWaits, hholds]

end stalls

/-- Settles O22: FENCE and the hints complete lane by lane, and an instruction that fences or releases stalls while a peer holds an access. -/
theorem fencesAndHints : Obligations.FencesAndHints := by
  unfold Obligations.FencesAndHints
  intro x s addr
  refine ⟨fun r vs hi hok => ?fence, ?hints, fun r v t hadmits hpage hpeer hcut hi hv => ?evict, fun i r v hi hv => ?stalls⟩
  case fence =>
    refine completes_stalling _ rfl hi ?_ fun v hv u => fence_done v x u
    exact List.any_eq_false.mpr fun v hv => Bool.eq_false_iff.mp (hok v hv)
  case hints =>
    have hhint {i : Instr} {k : Lane → State → Xlat → State} (hexec : exec i s = issue i (specOf i fun v u => v.hint x u (k v)) s)
        (hk : ∀ v u t, MemOnly u (k v u t)) : ∃ effect : Lane → State → State, Completes i x s effect ∧
          ∀ v u, (effect v u).threads = u.threads ∧ (effect v u).groups = u.groups ∧ (effect v u).ctxs = u.ctxs :=
      ⟨_, hint_completes hexec, fun v u =>
        have h := hinted_sameThreads (fun u t => (hk v u t).sameThreads) v x u
        ⟨h.threads, h.groups, h.ctxs⟩⟩
    simp only [List.forall_mem_cons]
    exact ⟨hhint (k := fun v => v.prefetched x) rfl fun v => prefetched_mem v x, hhint (k := fun _ => evictLine x) rfl fun _ => evictLine_mem x,
      List.forall_mem_nil _⟩
  case evict =>
    have haddr : addr v = v.address x := (address_eq v x).symm
    rw [haddr] at hadmits hpage
    refine alone_completes (stall := fun _ _ => false) rfl hi hv rfl ?_
    exact (hint_done v x s.tick (evictLine x)).trans (congrArg Act.done (hinted_applies _ hadmits hpage hpeer hcut))
  case stalls =>
    intro waits
    have hwaits (h : exec i s = .next (s.stalled v)) : waits :=
      ⟨_, h, stalled_frame s v, fun k => stalled_other s v, stalled_thread (gather_thread hi.lanes v (by simp))⟩
    refine ⟨fun hform hremote => ?fences, fun hform hremote => ?releases⟩
    case fences =>
      obtain ⟨op, o, l, ho, hthread, hkind, hremote⟩ := hremote
      have hstall := fencingWaits_remote (s := s) ho hthread hkind hremote
      simp only [List.mem_cons, List.not_mem_nil, or_false] at hform
      obtain rfl | rfl | rfl | rfl := hform
      all_goals exact hwaits (alone_stalls rfl hi hv hstall)
    case releases =>
      obtain ⟨op, o, l, m, ho, hthread, hkind, hm, hpage⟩ := hremote
      have hstall := releaseWaits_remote (s := s) ho hthread hkind hm hpage
      simp only [List.mem_cons, List.not_mem_nil, or_false] at hform
      obtain rfl | rfl := hform
      · exact hwaits (alone_stalls rfl hi hv (Bool.or_eq_true_iff.mpr (.inl hstall)))
      · exact hwaits (alone_stalls rfl hi hv hstall)

end Sys2Proof
end

section
/-!
PROOFS. Messages (R267 to R269, R367).
-/
namespace Sys2Proof
open Machine

section messages
variable {s u : State} {v : Lane} {x : Fields}

/-- R268: the port of a member's group has a posted receive that matches a SEND, or room, once the messages on their way have come. -/
def Machine.State.portTakes (s : State) (t tag : Nat) : Prop :=
  ∀ p, s.group t = some p →
    let after := portAfter (p.posts.map Post.tag) p.msgs.length ((s.mail.filter fun m => m.2.1 == t).map fun m => m.2.2.1.tag)
    (∃ k ∈ after.1, k = tag ∨ k = 0xFFFF) ∨ after.2 < 64

/-- R268: a SEND to a port that takes its message, or to a member that is gone, does not stall. -/
theorem sendWaits_free (h : ∀ t, s.memberGid v.g (v.r32 x.a).toNat = some t → s.portTakes t x.imm.toNat) : s.sendWaits x [v] [] = false := by
  unfold State.sendWaits
  split
  · rfl
  · rename_i t p hport
    obtain ⟨t', hmember, hgroup⟩ := Option.bind_eq_some_iff.mp hport
    obtain ⟨p', hp, hpair⟩ := Option.map_eq_some_iff.mp hgroup
    obtain ⟨rfl, rfl⟩ := Prod.mk.inj hpair
    have hno : (([] : List Nat).filter (· == t')).length = 0 := rfl
    simp only [hno, List.replicate_zero, List.append_nil, State.sendWaits, Bool.or_false, Bool.and_eq_false_iff, Bool.not_eq_false',
      List.any_eq_true, decide_eq_false_iff_not, Nat.not_le]
    exact (h t' hmember p' hp).imp (fun ⟨k, hk, hmatch⟩ => ⟨k, hk, tag_true hmatch⟩) id

/-- R367: a thread whose accesses a release need not wait for does not stall. -/
theorem releaseWaits_free (h : s.releasing v.key = false) : releaseWaits s.tick [v] = false := by
  have hfree : s.tick.releasing v.key = false := h
  simp [releaseWaits, hfree]

/-- R367: what memory does leaves the groups of a gang as they stand. -/
theorem memberGid_drainAll (u : State) (g : Machine.Group) (m : Nat) : u.drainAll.memberGid g m = u.memberGid g m := by
  rw [State.memberGid, (drainAll_mem u).frame]
  rfl

/-- R267: the message of a lane's SEND. -/
def Machine.Lane.message (v : Lane) (x : Fields) : Msg := { tag := x.imm.toNat, payload := v.r64 x.b, sender := v.g.member }

/-- R267, R367: a SEND to a member that is there puts its message on its way, as a release. -/
theorem send_reaches {t : Nat} (hmember : (v.r32 x.a).toNat < v.g.gangSize) (ht : u.memberGid v.g (v.r32 x.a).toNat = some t) :
    v.send x u = .done { u.drainAll with
      nextOp := u.drainAll.nextOp + 1, mail := Store.put u.drainAll.mail u.drainAll.nextOp (t, v.message x, v.wid) } := by
  simp only [Lane.send, Nat.not_le.mpr hmember, if_false, memberGid_drainAll, ht, Lane.message]

/-- R268: a SEND to a member that is gone is dropped and counted. -/
theorem send_dropped (hmember : (v.r32 x.a).toNat < v.g.gangSize) (ht : u.memberGid v.g (v.r32 x.a).toNat = none) :
    v.send x u = .done { u.drainAll with mailDrops := satAdd u.drainAll.mailDrops 1 } := by
  simp only [Lane.send, Nat.not_le.mpr hmember, if_false, memberGid_drainAll, ht]

/-- R268: the receive of a lane, with the register for its sender. -/
def Machine.Lane.post (v : Lane) (x : Fields) (from? : Option Dst) : Post :=
  { thread := v.key, tag := x.imm.toNat, dst := v.places 2 x.d, from? := from? }

/-- R268: the oldest message of a lane's port that its receive matches, and the others. -/
def Machine.Lane.oldest (v : Lane) (x : Fields) (m : Msg) (wid : DWord) (rest : List (Msg × DWord)) : Prop :=
  takeFirst (fun m : Msg × DWord => tagMatches x.imm.toNat m.1.tag) v.g.msgs = some ((m, wid), rest)
/-- R268: no message of a lane's port matches its receive. -/
def Machine.Lane.unmatched (v : Lane) (x : Fields) : Prop :=
  takeFirst (fun m : Msg × DWord => tagMatches x.imm.toNat m.1.tag) v.g.msgs = none

theorem receiveStall_matched {m : Msg} {wid : DWord} {rest : List (Msg × DWord)} (hg : u.group v.th.gid = some v.g) (h : v.oldest x m wid rest) :
    receiveStall x u [v] = false := by
  unfold Lane.oldest at h
  simp only [receiveStall, List.head?_cons, Option.bind_some, hg, Option.map_some, Option.getD_some, State.receiveWaits, h]

theorem receiveStall_room (hg : u.group v.th.gid = some v.g) (h : v.unmatched x) (hroom : v.g.posts.length < 32) : receiveStall x u [v] = false := by
  unfold Lane.unmatched at h
  simp only [receiveStall, List.head?_cons, Option.bind_some, hg, Option.map_some, Option.getD_some, State.receiveWaits, h, Bool.or_false,
    decide_eq_false_iff_not, Nat.not_le, hroom]

/-- R268: a receive takes the oldest message that matches. -/
theorem receive_takes {m : Msg} {wid : DWord} {rest : List (Msg × DWord)} (from? : Option Dst) (hg : u.group v.th.gid = some v.g)
    (h : v.oldest x m wid rest) : v.receive x from? u =
      .done ((u.updGroup v.th.gid fun g => { g with msgs := rest }).deliverMsg (v.post x from?) v.th.gid m wid) := by
  unfold Lane.oldest at h
  simp only [Lane.receive, hg, Option.getD_some, h, Lane.post]

/-- R117, R268: a lane's receive is posted, with its registers pending. -/
def Machine.Lane.postReceive (v : Lane) (x : Fields) (from? : Option Dst) (u : State) : State :=
  (u.updGroup v.th.gid fun g => { g with posts := g.posts ++ [v.post x from?] }).pendDsts v.key v.th.gid (v.places 2 x.d ++ from?.toList)

theorem receive_posts (from? : Option Dst) (hg : u.group v.th.gid = some v.g) (h : v.unmatched x) :
    v.receive x from? u = if from?.isSome then .wait (v.postReceive x from? u) .message else .done (v.postReceive x from? u) := by
  unfold Lane.unmatched at h
  simp only [Lane.receive, hg, Option.getD_some, h, Lane.post, Lane.postReceive]

end messages

/-- Settles O31: a SEND that does not stall has its message taken or counted, and a receive finds its message or is posted. -/
theorem messages : Obligations.Messages := by
  unfold Obligations.Messages
  intro x s member tag first noMatch post gives posts sender coming room
  have holdest {v : Lane} {m : Msg} {wid : DWord} {rest : List (Msg × DWord)} (h : first v m wid rest) : v.oldest x m wid rest := by
    obtain ⟨before, after, hmsgs, rfl, hmatch, hbefore⟩ := h
    rw [Lane.oldest, hmsgs]
    exact takeFirst_some (tag_true hmatch) fun p hp => tag_false (hbefore p hp)
  have hunmatched {v : Lane} (h : noMatch v) : v.unmatched x := takeFirst_none fun p hp => tag_false (h p hp)
  refine ⟨fun t r v hi hv hok => ?reaches, fun r v hi hv hok => ?dropped, fun m wid rest r v hi hv hfirst => ?recv,
    fun m wid rest r v hi hv hfirst => ?recvw, fun r v hi hv hok => ?posted, fun r v hi hv hok => ?waits⟩
  case reaches =>
    obtain ⟨hmember, ht, hreleased, hroom⟩ := hok
    have htakes : ∀ t', s.memberGid v.g (member v) = some t' → s.portTakes t' tag := fun t' ht' =>
      Option.some.inj (ht.symm.trans ht') ▸ hroom
    exact alone_completes rfl hi hv (Bool.or_eq_false_iff.mpr ⟨releaseWaits_free hreleased, sendWaits_free (s := s.tick) htakes⟩)
      (send_reaches hmember ht)
  case dropped =>
    obtain ⟨hmember, ht, hreleased⟩ := hok
    have htakes : ∀ t', s.memberGid v.g (member v) = some t' → s.portTakes t' tag := fun t' ht' => absurd (ht.symm.trans ht') nofun
    exact alone_completes rfl hi hv (Bool.or_eq_false_iff.mpr ⟨releaseWaits_free hreleased, sendWaits_free (s := s.tick) htakes⟩)
      (send_dropped hmember ht)
  case recv =>
    have hg := tick_group hi
    exact alone_completes rfl hi hv (receiveStall_matched hg (holdest hfirst)) (receive_takes none hg (holdest hfirst))
  case recvw =>
    have hg := tick_group hi
    exact alone_completes rfl hi hv (receiveStall_matched hg (holdest hfirst)) (receive_takes (sender v) hg (holdest hfirst))
  case posted =>
    obtain ⟨hnone, hroom⟩ := hok
    have hg := tick_group hi
    exact alone_completes rfl hi hv (receiveStall_room hg (hunmatched hnone) hroom) (receive_posts none hg (hunmatched hnone))
  case waits =>
    obtain ⟨hnone, hroom⟩ := hok
    have hg := tick_group hi
    have hsender : (sender v).isSome = true := by simp only [sender, places_one, List.head?_cons, Option.isSome_some]
    exact alone_waits rfl hi hv (receiveStall_room hg (hunmatched hnone) hroom) ((receive_posts (sender v) hg (hunmatched hnone)).trans (if_pos hsender))

end Sys2Proof
end

section
/-!
PROOFS. Barriers and COLL (R271 to R276, R371).
-/
namespace Sys2Proof
open Machine

section barriers
variable {s u : State} {v : Lane} {x : Fields} {b : Barrier}

/-- R271: the barrier that a lane's instruction names, as the lane's group holds it. -/
theorem barrier_eq (hu : u.group v.th.gid = some v.g) : v.barrier u x = Store.get v.g.bars (x.imm.toNat % 16) := by
  rw [Lane.barrier, hu, Option.bind_some, immBits_low]

/-- R272: BARI sets a barrier at which nobody has arrived. -/
theorem barrierInit_sets (hu : u.group v.th.gid = some v.g) (hzero : v.r32 x.a ≠ 0) (hfits : (v.r32 x.a).toNat ≤ v.g.threads)
    (hidle : ∀ c, Store.get v.g.bars (x.imm.toNat % 16) = some c → c.arrivals = 0) :
    v.barrierInit x u = .done (u.setBarrier v.th.gid (x.imm.toNat % 16) { expected := (v.r32 x.a).toNat, arrivals := 0, phase := 0 }) := by
  have hcount : (v.r32 x.a).toNat ≠ 0 := mt (BitVec.toNat_inj (y := 0)).mp hzero
  have hbusy : ((Store.get v.g.bars (x.imm.toNat % 16)).map fun b => b.arrivals != 0).getD false = false := by
    cases hbar : Store.get v.g.bars (x.imm.toNat % 16) with
    | none => rfl
    | some c => simp [hidle c hbar]
  simp only [Lane.barrierInit, barrier_eq hu, immBits_low, hbusy, hcount, Nat.not_lt.mpr hfits, decide_false, Bool.or_self, Bool.false_eq_true, if_false]

/-- R451: performing what is pending, and writing a register, leave the mode of a context. -/
theorem mode_drainAll (u : State) (c : Nat) : u.drainAll.mode c = u.mode c := by
  rw [State.mode, (drainAll_mem u).frame]
  rfl
theorem mode_wr (v : Lane) (u : State) (n : Nat) (d : BitVec 6) (a c : Nat) : (v.wr u n d a).mode c = u.mode c := by
  rw [State.mode, wr_ctxs]
  rfl

/-- R273, R367: outside RECORD and REPLAY BARA releases, returns the phase and counts; the last arrival ends the phase. -/
theorem arrive_counts (hu : u.group v.th.gid = some v.g) (hb : Store.get v.g.bars (x.imm.toNat % 16) = some b) (hplain : u.mode v.g.ctx < 2) :
    let w := v.wr u.drainAll 1 x.d b.phase.toNat
    v.arrive x u = .done (if b.arrivals + 1 = b.expected then
        (w.setBarrier v.th.gid (x.imm.toNat % 16) { b with arrivals := 0, phase := b.phase + 1 }).wakeBarrier v.th.gid (x.imm.toNat % 16) b.phase
      else w.setBarrier v.th.gid (x.imm.toNat % 16) { b with arrivals := b.arrivals + 1 }) := by
  intro w
  have hphase : v.wr32 u.drainAll x.d b.phase = w := (wr_one_word ..).symm
  have hlog (r : LogRec) (hr : r.ctx = v.g.ctx) : w.logChoice r = w :=
    plain_log (by rw [hr, mode_wr, mode_drainAll]; exact hplain)
  simp only [Lane.arrive, barrier_eq hu, immBits_low, hb, plain_turn hplain, Bool.not_true, Bool.false_eq_true, if_false, hphase, hlog, apply_ite Act.done]

/-- R274, R368: BARW goes on with the phase, as an acquire, once its token is old, and else waits. -/
theorem barrierWait_eq (hu : u.group v.th.gid = some v.g) (hb : Store.get v.g.bars (x.imm.toNat % 16) = some b) :
    v.barrierWait x u = if b.phase = v.r32 x.a then
        .wait u (.barrier (x.imm.toNat % 16) (v.r32 x.a) x.d.toNat ((v.places 1 x.c).headD .zero))
      else .done (v.wr (v.wrPred (u.invalidateCache v.core) x.d (decide (b.phase ≠ v.r32 x.a + 1))) 1 x.c b.phase.toNat) := by
  have hold : b.phase - v.r32 x.a = 0 ↔ b.phase = v.r32 x.a := sub_eq_zero
  have hlapped : (b.phase - v.r32 x.a != 1) = decide (b.phase ≠ v.r32 x.a + 1) := by
    rw [Bool.eq_iff_iff, bne_iff_ne, decide_eq_true_eq, ne_eq, sub_eq_iff_eq_add']
  simp only [Lane.barrierWait, barrier_eq hu, immBits_low, hb, hold, hlapped, wr_one_word]

end barriers

section collectives
variable {s u : State} {v : Lane} {x : Fields}

/-- R276: what the acceptance of a descriptor leaves: the next number of the counter, and the operation with its status register pending. -/
def Machine.State.acceptColl (u : State) (v : Lane) (x : Fields) (desc : List Byte) : State :=
  let k := (u.updThread v.key fun th => { th with peerBuf := [] }).takeNumber v.th.gid (x.imm.toNat % 4)
  (k.1.newOp { thread := v.key, gid := v.th.gid, core := v.core, pc := v.th.pc, dst := v.places 1 x.d, tc := some (x.imm.toNat % 4, k.2),
               kind := .coll { desc := desc, fail := none, record := none, ctx := v.g.ctx } }).1.pendDsts v.key v.th.gid (v.places 1 x.d)

/-- R276: COLL whose descriptor is read and breaks no rule runs. -/
theorem collective_accepted {desc rest : List Byte} (hfirst : v.admits s (v.r64 x.a).toNat) (hlast : v.admits s ((v.r64 x.a).toNat + 63))
    (hread : State.collRead 2 s (dieOf v.core) v.g.ctx (v.r64 x.a).toNat 64 v.th.peerBuf = (u, .bytes desc, rest))
    (hlegal : (Coll.of desc).bad desc = false) : v.collective x s = .done (u.acceptColl v x desc) := by
  obtain ⟨c, hc, hfirst⟩ := hfirst
  obtain ⟨d, hd, hlast⟩ := hlast
  obtain rfl : c = d := Option.some.inj (hc.symm.trans hd)
  simp only [Lane.collective, hc, Option.map_some, Option.getD_some, hfirst, hlast, Bool.and_self, Bool.not_true, Bool.false_eq_true, if_false, hread,
    hlegal, immBits_counter]
  rfl

end collectives

/-- Settles O33: one lemma for each way that an operation of a barrier ends, the stall of the fencing ones, and the acceptance of a descriptor. -/
theorem barriers : Obligations.Barriers := by
  unfold Obligations.Barriers
  intro x s b n names plain put at_
  refine ⟨?bari, ?counts, ?ends, ?passes, ?waits, ?coll⟩
  case bari =>
    rintro r v hi hv ⟨hzero, hfits, hidle⟩
    exact alone_completes (stall := fun _ _ => false) rfl hi hv rfl (barrierInit_sets (tick_group hi) hzero hfits hidle)
  case counts =>
    rintro r v hi hv ⟨hb, hplain, hsettled, hmore⟩
    exact alone_completes rfl hi hv (fencingWaits_settled hsettled)
      ((arrive_counts (tick_group hi) hb hplain).trans (congrArg Act.done (if_neg hmore)))
  case ends =>
    rintro r v hi hv ⟨hb, hplain, hsettled, hlast⟩
    exact alone_completes rfl hi hv (fencingWaits_settled hsettled)
      ((arrive_counts (tick_group hi) hb hplain).trans (congrArg Act.done (if_pos hlast)))
  case passes =>
    rintro r v hi hv ⟨hb, hsettled, hold⟩
    exact alone_completes rfl hi hv (fencingWaits_settled hsettled) ((barrierWait_eq (tick_group hi) hb).trans (if_neg hold))
  case waits =>
    rintro r v hi hv ⟨hb, hsettled, hcurrent⟩
    exact alone_waits rfl hi hv (fencingWaits_settled hsettled) ((barrierWait_eq (tick_group hi) hb).trans (if_pos hcurrent))
  case coll =>
    rintro u desc rest r v hi hv ⟨hproducer, hfirst, hlast, hread, hlegal⟩
    exact alone_completes_unhindered (stall := fun _ _ => false) (extra := fun _ => []) rfl hi hv (if_pos hproducer) (by simp) rfl
      (collective_accepted hfirst hlast hread hlegal)

end Sys2Proof
end

section
/-!
PROOFS. Collective commands and the end of a collective (R276, R389, R477, R478).
-/
namespace Sys2Proof
open Machine

section commands
variable {s : State} {c : Cmd} (hc : s.commanded 0x0E c) (hlegal : (Coll.of c.bytes).bad c.bytes = false)
include hc hlegal

/-- R389, R477: a collective command of a context that is ready runs as an operation. -/
theorem collective_happens (hready : s.ctxReady c (· != .free) = true) :
    Happens .collective s (s.newOp { thread := 0xFFFFFFFF, gid := 0, core := 0, pc := 0, dst := [], tc := none,
                                     kind := .coll { desc := c.bytes, fail := none, record := some c, ctx := c.ctx } }).1 := by
  change execCollective s = _
  exact command_accepted hc ((firstStatus_ready _ hlegal).trans (if_pos hready))

theorem collective_refused (hready : s.ctxReady c (· != .free) = false) : Happens .collective s (s.finishRecord c 3) := by
  change execCollective s = _
  exact command_refused hc ((firstStatus_ready _ hlegal).trans (if_neg (Bool.eq_false_iff.mp hready))) (by decide)

end commands

section runs
variable {u : State} {op : Nat} {o : AOp} {k : CollOp} {c : Coll} {list peer : List Byte} {inputs : List (List Byte)}

/-- R477: a rank of a collective other than its own. -/
def Machine.Coll.other (c : Coll) (r : Nat) : Prop := r < c.nrank ∧ r ≠ c.rank

/-- R474, R477: whether a module list names another rank's module to which no port leads. -/
def Machine.State.cutOff (u : State) (c : Coll) (list : List Byte) : Bool :=
  ((List.range c.nrank).map fun r => field list (2 * r) 2).zipIdx.any fun m => m.2 != c.rank && !u.reachable m.1

theorem cutOff_iff : u.cutOff c list = true ↔ ∃ r, c.other r ∧ u.reachable (field list (2 * r) 2) = false := by
  simp only [State.cutOff, Coll.other, List.any_eq_true, Prod.exists, List.mk_mem_zipIdx_iff_getElem?, List.getElem?_eq_some_iff, List.length_map,
    List.length_range, List.getElem_map, List.getElem_range, Bool.and_eq_true, bne_iff_ne, Bool.not_eq_true']
  constructor
  · rintro ⟨_, r, ⟨hr, rfl⟩, hne, hout⟩
    exact ⟨r, ⟨hr, hne⟩, hout⟩
  · rintro ⟨r, ⟨hr, hne⟩, hout⟩
    exact ⟨_, r, ⟨hr, rfl⟩, hne, hout⟩

/-- R70, R477: what the chunks of a collective come to, one after another. -/
def Machine.State.runChunks (u : State) (o : AOp) (k : CollOp) (c : Coll) (inputs : List (List Byte)) (peer : List Byte) : CollRun :=
  c.chunks.foldl (fun (r : CollRun) p => if r.waits then r else r.chunk (dieOf o.core) k.ctx c inputs p)
    { s := u, peer := peer, index := 0, fails := [], waits := false }

/-- R477: a collective that is cut off ends with code 6, all its chunks unwritten. -/
theorem runColl_cutOff (hcut : u.cutOff c list = true) :
    u.runColl op o k c list inputs peer = (u.collEnd op o k 6 0 c.chunks.length, true) := by
  unfold State.cutOff at hcut
  simp only [State.runColl, hcut, Bool.true_or, if_true]

/-- R71, R477: how a collective ends by what its chunks came to: with the status of the first that failed, if one did. -/
def Machine.CollRun.ended (run : CollRun) (op : Nat) (o : AOp) (k : CollOp) : State :=
  match run.fails with
  | [] => run.s.collEnd op o k 0 0 0
  | f :: fs => (run.s.collRecord o k run.fails).collEnd op o k f.2.code f.1 (fs.length + 1)

/-- R477, R478: a collective that every rank reaches, and whose inputs have come, moves its chunks and ends. -/
theorem runColl_ends {run : CollRun} (hcut : u.cutOff c list = false) (hcode : u.inputs.code = 0) (hinputs : c.othersOk inputs = true)
    (hrun : u.runChunks o k c inputs peer = run) (hcome : run.waits = false) :
    u.runColl op o k c list inputs peer = (run.ended op o k, true) := by
  unfold State.cutOff at hcut
  unfold State.runChunks at hrun
  simp only [State.runColl, hcut, hcode, hinputs, hrun, hcome, ne_eq, not_true_eq_false, decide_false, Bool.or_self, Bool.not_true,
    Bool.false_eq_true, if_false]
  obtain ⟨w, left, index, fails, waits⟩ := run
  cases fails <;> rfl

end runs

section completion
variable {s : State} {op : Nat} {o : AOp} {k : CollOp} {inputs : List (List Byte)} (hop : Store.get s.ops op = some o) (hkind : o.kind = .coll k)
  (hgroup : k.record = none → s.group o.gid ≠ none)

/-- R276, R477: the module list of a collective, as the module reads it. -/
def Machine.CollOp.modules (k : CollOp) (o : AOp) (s : State) : State × Got × List Byte :=
  let c := Coll.of k.desc
  State.collRead (pageFuel (2 * c.nrank)) s (dieOf o.core) k.ctx c.mlist (2 * c.nrank) s.inputs.peer.data

include hgroup in
/-- R71: a collective of a command, or of a thread whose group is there, may complete. -/
theorem collective_owned : (k.record.isNone && (s.group o.gid).isNone) = false := by
  cases hrecord : k.record with
  | none => simpa [Option.isSome_iff_ne_none] using hgroup hrecord
  | some c => rfl

include hop hkind hgroup

/-- R276: a collective whose descriptor could not be read fails. -/
theorem completion_no_descriptor {f : ChunkFail} (hfail : k.fail = some f) :
    Happens (.collectiveCompletion op inputs) s (s.failColl op o k f) := by
  change execCollectiveCompletion op inputs s = _
  simp only [execCollectiveCompletion, hop, hkind, collective_owned hgroup, Bool.false_eq_true, if_false, hfail]
  rfl

/-- R477: a collective whose module list cannot be read fails. -/
theorem completion_no_list {f : ChunkFail} (hfail : k.fail = none) (hlist : (k.modules o s).2.1 = .failed f) :
    Happens (.collectiveCompletion op inputs) s ((k.modules o s).1.failColl op o k f) := by
  unfold CollOp.modules at hlist ⊢
  change execCollectiveCompletion op inputs s = _
  simp only [execCollectiveCompletion, hop, hkind, collective_owned hgroup, Bool.false_eq_true, if_false, hfail, hlist]
  rfl

/-- R477: a collective whose module list has been read runs, and ends. -/
theorem completion_runs {list : List Byte} {w : State} (hfail : k.fail = none) (hlist : (k.modules o s).2.1 = .bytes list)
    (hrun : (k.modules o s).1.runColl op o k (Coll.of k.desc) list inputs (k.modules o s).2.2 = (w, true)) :
    Happens (.collectiveCompletion op inputs) s w := by
  unfold CollOp.modules at hlist hrun
  change execCollectiveCompletion op inputs s = _
  simp only [execCollectiveCompletion, hop, hkind, collective_owned hgroup, Bool.false_eq_true, if_false, hfail, hlist, hrun, if_true]
  rfl

end completion

/-- Settles O53: a command runs or is refused, and a collective ends by its descriptor, its module list, the ranks that it reaches and its
chunks, in this order. -/
theorem collectives : Obligations.Collectives := by
  unfold Obligations.Collectives
  intro s
  refine ⟨fun c hc hlegal => ⟨collective_happens hc hlegal, collective_refused hc hlegal⟩, ?_⟩
  intro op o k inputs hop hkind hgroup c l
  refine ⟨fun f => completion_no_descriptor hop hkind hgroup, fun f => completion_no_list hop hkind hgroup, fun list hfail hlist => ?_⟩
  intro other run
  have hruns {w : State} : l.1.runColl op o k c list inputs l.2.2 = (w, true) → Happens (.collectiveCompletion op inputs) s w :=
    completion_runs hop hkind hgroup hfail hlist
  refine ⟨fun hcut => hruns (runColl_cutOff (cutOff_iff.mpr hcut)), fun hreached hcode hcount hlengths hcome => ?_⟩
  have hcut : l.1.cutOff c list = false := by
    rw [Bool.eq_false_iff, ne_eq, cutOff_iff]
    rintro ⟨r, hr, hout⟩
    exact Bool.false_ne_true (hout.symm.trans (hreached r hr))
  have hinputs : c.othersOk inputs = true := by simpa [Coll.othersOk, hcount] using hlengths
  have hended := hruns (runColl_ends hcut hcode hinputs (run := run) rfl hcome)
  refine ⟨fun hfails => ?_, fun f fs hfails => ?_⟩
  all_goals
    simp only [CollRun.ended, hfails] at hended ⊢
    exact hended

end Sys2Proof
end

section
/-!
PROOFS. Host accesses, peers' requests, and peer ports (R253, R467, R468, R473 to R476).
-/
namespace Sys2Proof
open Machine

section host
variable {s : State}

/-- R468: the window that the R_Key of the host's access names. -/
def Machine.State.hostWindow (s : State) : BitVec 128 := (s.tenant s.inputs.rdma.tenant).window (s.inputs.rdma.rkey.toNat / 2 ^ 23 % 16)

/-- R468: the host's access of n bytes has the key of an enabled window that grants it, and lies inside. -/
def Machine.State.hostKeyed (s : State) (right n : Nat) : Prop :=
  s.inputs.rdma.tenant = s.inputs.rdma.rkey.toNat / 2 ^ 27 % 32 ∧ s.hostWindow.getLsbD 0 = true ∧ s.hostWindow.getLsbD right = true ∧
    s.hostWindow.toNat / 2 ^ 82 % 2 ^ 23 = s.inputs.rdma.rkey.toNat % 2 ^ 23 ∧ s.inputs.rdma.offset + n ≤ windowLen s.hostWindow

theorem rdmaOk_iff (right n : Nat) : s.rdmaOk s.inputs.rdma right n = true ↔ s.hostKeyed right n := by
  simp only [State.rdmaOk, Bool.and_eq_true, beq_iff_eq, decide_eq_true_eq, and_assoc]
  simp only [State.hostKeyed, State.hostWindow, rdmaWindow, bits, Nat.reduceAdd, Nat.reduceSub, Nat.reducePow, Nat.div_one]

/-- R468: the address of the host's access. -/
theorem rdmaAddr_eq : rdmaAddr s.inputs.rdma s = windowBase s.hostWindow + s.inputs.rdma.offset := rfl

variable (hport : s.listens)
include hport

/-- R62, R468: a WRITE that its window grants is performed raw before it is acknowledged. -/
theorem rdmaWrite_happens (hkeyed : s.hostKeyed 3 s.inputs.rdma.data.length) (hdata : s.inputs.rdma.data ≠ []) :
    let u := s.rawWrite (windowBase s.hostWindow + s.inputs.rdma.offset) s.inputs.rdma.data
    Happens .rdmaWrite s { u with sent := .ack s.inputs.rdma.tenant :: u.sent } := by
  intro u
  change execRdmaWrite s = _
  rw [execRdmaWrite, atPort_listens _ _ hport]
  simp only [(rdmaOk_iff ..).mpr hkeyed, List.isEmpty_eq_false_iff.mpr hdata, Bool.not_true, Bool.false_eq_true, if_false, rdmaAddr_eq]
  rfl

theorem rdmaWrite_refused (hkeyed : ¬ s.hostKeyed 3 s.inputs.rdma.data.length) : Happens .rdmaWrite s (s.nak s.inputs.rdma) := by
  change execRdmaWrite s = _
  rw [execRdmaWrite, atPort_listens _ _ hport]
  simp only [Bool.eq_false_iff.mpr (mt (rdmaOk_iff ..).mp hkeyed), Bool.not_false, if_true]
  rfl

/-- R62, R468: a READ that its window grants is performed raw. -/
theorem rdmaRead_happens (hkeyed : s.hostKeyed 2 s.inputs.rdma.len) (hlen : s.inputs.rdma.len ≠ 0) :
    let r := s.rawRead (windowBase s.hostWindow + s.inputs.rdma.offset) s.inputs.rdma.len
    Happens .rdmaRead s { r.1 with sent := .readData s.inputs.rdma.tenant r.2.1 :: r.1.sent } := by
  intro r
  change execRdmaRead s = _
  rw [execRdmaRead, atPort_listens _ _ hport]
  simp only [(rdmaOk_iff ..).mpr hkeyed, hlen, Bool.not_true, Bool.false_eq_true, if_false, rdmaAddr_eq]
  rfl

theorem rdmaRead_refused (hkeyed : ¬ s.hostKeyed 2 s.inputs.rdma.len) : Happens .rdmaRead s (s.nak s.inputs.rdma) := by
  change execRdmaRead s = _
  rw [execRdmaRead, atPort_listens _ _ hport]
  simp only [Bool.eq_false_iff.mpr (mt (rdmaOk_iff ..).mp hkeyed), Bool.not_false, if_true]
  rfl

end host

section peers
variable {s : State}

/-- R476: an enabled window of the peer's tenant grants its access of n bytes. -/
def Machine.State.peerGranted (s : State) (right n : Nat) : Prop :=
  ∃ v ∈ (s.tenant s.inputs.peer.tenant).windows, v.2.getLsbD 0 = true ∧ v.2.getLsbD right = true ∧
    windowBase v.2 ≤ s.inputs.peer.addr ∧ s.inputs.peer.addr + n ≤ windowBase v.2 + windowLen v.2

/-- R476: the right that a peer's access needs. -/
def PeerKind.right (k : PeerKind) : Nat := if k = .read then 4 else 5

theorem peerAdmits_iff (n : Nat) : s.peerAdmits s.inputs.peer n = true ↔ s.peerGranted s.inputs.peer.kind.right n := by
  simp only [State.peerAdmits, State.peerGranted, PeerKind.right, List.any_eq_true, Bool.and_eq_true, decide_eq_true_eq, and_assoc]

/-- R476: a refused access is answered and counted. -/
def Machine.State.refusePeer (s : State) : State :=
  { s with peerRefusals := satAdd s.peerRefusals 1, sent := .peerRefused s.inputs.peer.module :: s.sent }

/-- R476: the bytes of a peer's access. -/
def PeerReq.bytes (q : PeerReq) : Nat := if q.kind = .write then q.data.length else q.len

/-- R58, R253, R476: what a peer's access that is granted leaves, by its kind. -/
def Machine.State.servePeer (s : State) : State :=
  let q := s.inputs.peer
  match q.kind with
  | .read =>
    let r := s.readPage (peerAsker q.addr) (peerXlat q.addr) q.len
    { r.1 with sent := .peerData q.module (r.2.orZeros q.len) :: r.1.sent }
  | .write => s.writePage (peerAsker q.addr) (peerXlat q.addr) q.data
  | .atomic => s.peerAtomic q

theorem servePeer_read (h : s.inputs.peer.kind = .read) :
    let r := s.readPage (peerAsker s.inputs.peer.addr) (peerXlat s.inputs.peer.addr) s.inputs.peer.len
    s.servePeer = { r.1 with sent := .peerData s.inputs.peer.module (r.2.orZeros s.inputs.peer.len) :: r.1.sent } := by
  simp only [State.servePeer, h]
theorem servePeer_write (h : s.inputs.peer.kind = .write) :
    s.servePeer = s.writePage (peerAsker s.inputs.peer.addr) (peerXlat s.inputs.peer.addr) s.inputs.peer.data := by
  simp only [State.servePeer, h]
theorem servePeer_atomic (h : s.inputs.peer.kind = .atomic) : s.servePeer = s.peerAtomic s.inputs.peer := by
  simp only [State.servePeer, h]

/-- R476: a peer's request is served or refused, as a window grants it. -/
theorem peerRequest_eq (hready : s.ready = true) (hbytes : s.inputs.peer.bytes ≠ 0) :
    exec .peerRequest s = happen (if s.peerAdmits s.inputs.peer s.inputs.peer.bytes then s.servePeer else s.refusePeer) := by
  have hup : (!s.ready) = false := by rw [hready]; rfl
  unfold PeerReq.bytes at hbytes ⊢
  change execPeerRequest s = _
  cases hadmits : s.peerAdmits s.inputs.peer (if s.inputs.peer.kind = .write then s.inputs.peer.data.length else s.inputs.peer.len) with
  | false =>
    simp only [execPeerRequest, hup, hbytes, hadmits, Bool.not_false, Bool.false_eq_true, if_false, if_true]
    rfl
  | true =>
    simp only [execPeerRequest, hup, hbytes, hadmits, Bool.not_true, Bool.false_eq_true, if_false, if_true, State.servePeer]
    cases s.inputs.peer.kind <;> rfl

end peers

section peerAtomics
variable {s : State} {q : PeerReq}

/-- R58, R253: the operation that a peer's atomic asks the home slice for. -/
def peerPending (s : State) (q : PeerReq) (op : Nat) : Pending :=
  { pa := q.addr, size := q.len, code := s.inputs.code.toNat, data := q.data.take q.len, cas := q.data.drop q.len, ra := false, returns := false,
    op := op, off := 0, cmp := false, ctx := 512, launch := 0, who := 0, va := 0, cl := 0, wp := 0, ep := 0 }

/-- R253: a peer's atomic that does not ask for the prior value is performed at once at its home slice. -/
theorem peerAtomic_performed (hcode : s.inputs.code.toNat < 128) :
    let u := ((s.drainFor q.addr q.len).pass (peerAsker q.addr).input q.addr).sense q.addr q.len
    s.peerAtomic q = u.applyOne (peerPending s q u.nextOp) := by
  intro u
  have hmod : s.inputs.code.toNat % 128 = s.inputs.code.toNat := Nat.mod_eq_of_lt hcode
  have hinputs : (u.applyOne (peerPending s q u.nextOp)).inputs = s.inputs := by
    rw [(((drainFor_mem s q.addr q.len).trans (pass_mem ..)).trans ((sense_mem ..).trans (applyOne_mem ..))).frame]
  rw [peerPending] at hinputs
  simp only [State.peerAtomic, hmod, peerPending]
  rw [hinputs, if_neg (Nat.not_le.mpr hcode)]

end peerAtomics

section ports
variable {s : State} {port : Nat} (hpwr : s.pwrgood = true) (hport : port < 16) (hup : port ∉ s.portsDown)
include hpwr hport hup

theorem port_up : (decide (16 ≤ port) || s.portsDown.contains port || !s.pwrgood) = false := by
  simp [hpwr, Nat.not_le.mpr hport, hup]

/-- R473: a replay of a flit that passes clears the count of its port. -/
theorem flitReplay_passes : Happens (.peerFlitReplay port true) s { s with portReplays := Store.del s.portReplays port } := by
  change execPeerFlitReplay port true s = _
  simp only [execPeerFlitReplay, port_up hpwr hport hup, Bool.false_eq_true, if_false, if_true]
  rfl

/-- R473, R474: a replay that fails is counted, and the sixteenth takes its port down. -/
theorem flitReplay_fails : Happens (.peerFlitReplay port false) s
    (if 15 ≤ Store.rd 0 s.portReplays port then s.portDown port
      else { s with portReplays := Store.put s.portReplays port (Store.rd 0 s.portReplays port + 1) }) := by
  have hlast : 16 ≤ Store.rd 0 s.portReplays port + 1 ↔ 15 ≤ Store.rd 0 s.portReplays port := by omega
  change execPeerFlitReplay port false s = _
  simp only [execPeerFlitReplay, port_up hpwr hport hup, Bool.false_eq_true, if_false, hlast]
  rfl

/-- R474: silence takes a port down. -/
theorem peerPortDown_happens : Happens (.peerPortDown port) s (s.portDown port) := by
  change execPeerPortDown port s = _
  simp only [execPeerPortDown, port_up hpwr hport hup, Bool.false_eq_true, if_false]
  rfl

end ports

/-- Settles O60: a host's access is decided by the key of its window, a peer's by the windows of its tenant, and a port by its count of replays. -/
theorem hostAndPeerAccess : Obligations.HostAndPeerAccess := by
  unfold Obligations.HostAndPeerAccess
  intro s r w a keyed nak q granted read u
  have hserved {right n : Nat} (hready : s.ready = true) (hbytes : q.bytes = n) (hpos : n ≠ 0) (hright : q.kind.right = right)
      (h : granted right n) : Happens .peerRequest s s.servePeer := by
    subst hbytes hright
    exact (peerRequest_eq hready hpos).trans (congrArg happen (if_pos ((peerAdmits_iff _).mpr h)))
  have hrefused {right n : Nat} (hready : s.ready = true) (hbytes : q.bytes = n) (hpos : n ≠ 0) (hright : q.kind.right = right)
      (h : ¬ granted right n) : Happens .peerRequest s s.refusePeer := by
    subst hbytes hright
    exact (peerRequest_eq hready hpos).trans (congrArg happen (if_neg (mt (peerAdmits_iff _).mp h)))
  refine ⟨rdmaWrite_happens, rdmaWrite_refused, rdmaRead_happens, rdmaRead_refused, fun hready hkind hlen => ⟨?read, ?readRefused⟩,
    fun hready hkind hdata => ⟨?write, ?writeRefused⟩, fun hready hkind hlen hgranted hcode => ?atomic,
    fun port hpwr hport hup => ⟨flitReplay_passes hpwr hport hup, fun hfew => ?counted, fun hmany => ?down, peerPortDown_happens hpwr hport hup⟩⟩
  case read =>
    intro hgranted
    have hread := hserved hready (by simp [PeerReq.bytes, hkind]) (Nat.pos_iff_ne_zero.mp hlen) (by rw [hkind]; rfl) hgranted
    rwa [servePeer_read hkind] at hread
  case readRefused => exact hrefused hready (by simp [PeerReq.bytes, hkind]) (Nat.pos_iff_ne_zero.mp hlen) (by rw [hkind]; rfl)
  case write =>
    intro hgranted
    have hwrite := hserved hready (by simp [PeerReq.bytes, hkind]) (mt List.length_eq_zero_iff.mp hdata) (by rw [hkind]; rfl) hgranted
    rwa [servePeer_write hkind] at hwrite
  case writeRefused =>
    exact hrefused hready (by simp [PeerReq.bytes, hkind]) (mt List.length_eq_zero_iff.mp hdata) (by rw [hkind]; rfl)
  case atomic =>
    have hatomic := hserved hready (by simp [PeerReq.bytes, hkind]) (Nat.pos_iff_ne_zero.mp hlen) (by rw [hkind]; rfl) hgranted
    rwa [servePeer_atomic hkind, peerAtomic_performed hcode] at hatomic
  all_goals have hcounted := flitReplay_fails hpwr hport hup
  case counted => rwa [if_neg (by omega)] at hcounted
  case down => rwa [if_pos hmany] at hcounted

end Sys2Proof
end

section
/-!
PROOFS. Safe points, saves and restores, the watchdog, and a replay that diverges (R290, R399 to R402, R422, R427 to R429, R455).
-/
namespace Sys2Proof.Machine

/-- R427: the period of the watchdog. -/
theorem Ctx.period_eq (c : Ctx) : c.period = c.wdper.toNat % 2 ^ 14 * 1100000 := by simp [Ctx.period, bits]

section saves
variable {s : State} {ctx : Nat} {c : Ctx}

/-- R400: groups at safe positions. -/
theorem State.allSafe_iff {gs : List (Nat × Group)} : s.allSafe gs = true ↔ ∀ e ∈ gs, s.groupSafe e.1 e.2 = true := List.all_eq_true

/-- R402: a group of which nothing is in flight but what is reissued at the restore. -/
theorem State.groupQuiet_iff {gid : Nat} :
    s.groupQuiet gid = true ↔ s.keptQuiet gid = true ∧ ∀ o ∈ s.ops, o.2.gid = gid → o.2.reissued = true := by
  simp only [State.groupQuiet, Bool.and_eq_true, Bool.not_eq_true', List.any_eq_false, beq_iff_eq, not_and, Bool.not_eq_false]

/-- R290: the signings of the groups' partial rounds are withdrawn. -/
def State.withdrawAll (s : State) (gs : List (Nat × Group)) : State := gs.foldl (fun u e => u.withdrawSignings e.1) s

variable (hc : Store.get s.ctxs ctx = some c)
include hc

/-- R399, R400: a stopping context whose groups are all safe begins its save. -/
theorem safePointSave_begins (hst : c.st = .stopping) (hsafe : s.allSafe (s.groupsOf ctx) = true) :
    Happens (.safePointSave ctx) s (s.updCtx ctx fun c => { c with st := .saving }) := by
  change execSafePointSave ctx s = _
  simp only [execSafePointSave, hc, hst, hsafe, decide_true, Bool.and_self, if_true]
  rfl

/-- R400: of the gangs that are to stop, the first begins its save where it is safe. -/
theorem safePointSave_gang {t : GangStop} {rest : List GangStop} (hst : c.st ≠ .stopping) (hgangs : s.stopsOf ctx = t :: rest)
    (hwaits : t.saving = false) (hsafe : s.allSafe (s.gangOf t) = true) : Happens (.safePointSave ctx) s (s.beginGangSave t) := by
  change execSafePointSave ctx s = _
  simp only [execSafePointSave, hc, hst, decide_false, Bool.false_and, Bool.false_eq_true, if_false, hgangs, List.find?_cons, hwaits, hsafe,
    Bool.not_false, Bool.and_self]
  rfl

/-- R400, R429: past its deadline a context that may be forced begins its save with its signings withdrawn. -/
theorem forcedSave_begins {d : Nat} (hst : c.st = .stopping) (hstop : c.stop = some d) (hlate : d ≤ s.now)
    (hforce : c.mode ≤ 1 ∨ c.watchdog = true) :
    Happens (.forcedSave ctx) s ((s.withdrawAll (s.groupsOf ctx)).updCtx ctx fun c => { c with st := .saving }) := by
  have hallowed : (decide (c.mode ≤ 1) || c.watchdog) = true := by simpa using hforce
  change execForcedSave ctx s = _
  simp only [execForcedSave, hc, hst, hstop, hlate, hallowed, decide_true, Option.map_some, Option.getD_some, Bool.and_self, if_true]
  rfl

/-- R400: the same for the first of the gangs that are to stop. -/
theorem forcedSave_gang {t : GangStop} {rest : List GangStop} (hst : c.st ≠ .stopping) (hgangs : s.stopsOf ctx = t :: rest)
    (hwaits : t.saving = false) (hlate : t.deadline ≤ s.now) (hmode : c.mode ≤ 1) :
    Happens (.forcedSave ctx) s ((s.withdrawAll (s.gangOf t)).beginGangSave t) := by
  change execForcedSave ctx s = _
  simp only [execForcedSave, hc, hst, decide_false, Bool.false_and, Bool.false_eq_true, if_false, hgangs, List.find?_cons, hwaits, hlate, hmode,
    decide_true, Bool.not_false, Bool.and_self]
  rfl

/-- R402: the groups of a quiet context leave the cores, and the save ends as its image does. -/
theorem saveCompletion_ends (hst : c.st = .saving) (hquiet : ∀ e ∈ s.groupsOf ctx, s.groupQuiet e.1 = true) {u : State} {written : Bool}
    (hout : (State.saveGroups { s with gangStops := s.gangStops.filter fun t => !(s.stopsOf ctx).contains t } (s.groupsOf ctx)).finishSave ctx =
      (u, written)) :
    Happens (.saveCompletion ctx) s (if written
      then (u.updCtx ctx fun c => { c with st := .saved, stop := none, watchdog := false }).finishPending ctx 5 0 else u) := by
  have hall : ((s.groupsOf ctx).all fun e => s.groupQuiet e.1) = true := List.all_eq_true.mpr hquiet
  change execSaveCompletion ctx s = _
  simp only [execSaveCompletion, hc, hst, if_true, hall, Bool.not_true, Bool.false_eq_true, if_false, hout]
  rfl

/-- R402: the same for the first of the gangs whose save has begun. -/
theorem saveCompletion_gang {t : GangStop} {rest : List GangStop} (hst : c.st ≠ .saving) (hgangs : s.stopsOf ctx = t :: rest)
    (hsaving : t.saving = true) (hquiet : ∀ e ∈ s.gangOf t, s.groupQuiet e.1 = true) :
    Happens (.saveCompletion ctx) s
      ((State.saveGroups { s with gangStops := s.gangStops.filter fun w => w != t } (s.gangOf t)).finishSave ctx).1 := by
  have hall : ((s.gangOf t).all fun e => s.groupQuiet e.1) = true := List.all_eq_true.mpr hquiet
  change execSaveCompletion ctx s = _
  simp only [execSaveCompletion, hc, hst, if_false, hgangs, List.find?_cons, hsaving, hall, Bool.and_self]
  rfl

/-- R399: a restored context is Active, or Idle when nothing of it was saved. -/
theorem restoreCompletion_ends (hst : c.st = .restoring) :
    Happens (.restoreCompletion ctx) s ((s.updCtx ctx fun c =>
      { c with st := if s.saved.any fun v => v.group.ctx == ctx then .active else .idle, entered := s.now }).finishPending ctx 6 0) := by
  change execRestoreCompletion ctx s = _
  simp only [execRestoreCompletion, hc, hst, ne_eq, not_true_eq_false, if_false]
  rfl

/-- R422, R427 to R429: a context without progress for its period, none of whose groups is persistent, stops with its record and its frame. -/
theorem watchdogFire_stops (hst : c.st = .active ∨ c.st = .stopping) (hfired : c.watchdog = false)
    (hlate : c.lastProgress + c.period ≤ s.now) (hjudged : s.judged ctx ≠ 0)
    (hpersistent : ∀ e ∈ s.groupsOf ctx, ((Store.get s.launches e.2.launch).map Launch.persistent).getD false = false) :
    let r := s.report c.tenant { type := 4, cause := 1, ctx := ctx, core := 0xFFFF, flags := 0, acc := 0, slot := 0, count := s.judged ctx, wid := 0,
                                 pc := 0, fva := c.lastProgress, entry := c.wdper.toNat }
    let stopped := (r.1.updCtx ctx fun c => { c with watchdog := true, stop := if c.mode ≤ 1 then c.stop else none }).requestStop ctx
    Happens (.watchdogFire ctx) s (stopped.sendEvent c.tenant 6 0 0 ctx 0xFFFF 0 (r.2.getD 0)) := by
  have hlive : (c.st == .active || c.st == .stopping) = true := by simpa using hst
  have hnone : (s.groups.any fun e => e.2.ctx == ctx && ((Store.get s.launches e.2.launch).map Launch.persistent).getD false) = false := by
    rw [← List.any_filter]
    exact List.any_eq_false.mpr fun e he => Bool.eq_false_iff.mp (hpersistent e he)
  change execWatchdogFire ctx s = _
  simp only [execWatchdogFire, hc, hlive, hfired, Nat.not_lt.mpr hlate, hjudged, hnone, Bool.not_true, Bool.or_self, decide_false,
    Bool.false_eq_true, if_false]
  rfl

/-- R455: a replay whose log has a record that no later choice can consume diverges. -/
theorem replayDivergence_happens (hforcing : s.forcing ctx = true) {u : State} {e : Nat × LogEntry}
    (hscan : State.scanLog (s.orphaned c.tenant) c.log.ahead ctx (min (c.log.wpos / 32 - c.log.rpos / 32) 65536) (c.log.rpos / 32) s =
      (u, .ok (some e))) : Happens (.replayDivergence ctx) s (u.diverge ctx) := by
  change execReplayDivergence ctx s = _
  simp only [execReplayDivergence, hc, hforcing, Bool.not_true, Bool.false_eq_true, if_false, hscan]
  rfl

end saves

end Sys2Proof.Machine

namespace Sys2Proof
open Machine

/-- Settles O55: one lemma for each way that a stop, a save, a restore or the watchdog goes, put together in the order of the statement. -/
theorem stopsAndSaves : Obligations.StopsAndSaves := by
  unfold Obligations.StopsAndSaves
  intro s ctx c hc mine gangs gang quiet safe begin withdraw saving judged
  have hquiets {gs : List (Nat × Machine.Group)} (h : quiet gs) : ∀ e ∈ gs, s.groupQuiet e.1 = true := fun e he => State.groupQuiet_iff.mpr (h e he)
  refine ⟨fun hst hsafe => safePointSave_begins hc hst (State.allSafe_iff.mpr hsafe),
    fun t rest hst hgangs hwaits hsafe => safePointSave_gang hc hst hgangs hwaits (State.allSafe_iff.mpr hsafe),
    fun d hst hstop hlate hforce => forcedSave_begins hc hst hstop hlate hforce,
    fun t rest hst hgangs hwaits hlate hmode => forcedSave_gang hc hst hgangs hwaits hlate hmode,
    fun hst hquiet => ?saved, fun t rest hst hgangs hsaving hquiet => saveCompletion_gang hc hst hgangs hsaving (hquiets hquiet),
    fun hst hsome => ?restored, fun hst hnone => ?idle, fun hst hfired hlate hjudged hpersistent => ?watchdog,
    fun hforcing u j e hscan => replayDivergence_happens hc hforcing hscan⟩
  case saved => exact ⟨fun u => saveCompletion_ends hc hst (hquiets hquiet), fun u => saveCompletion_ends hc hst (hquiets hquiet)⟩
  case restored =>
    have hends := restoreCompletion_ends hc hst
    rwa [List.any_eq_true.mpr (hsome.imp fun v hv => ⟨hv.1, beq_iff_eq.mpr hv.2⟩)] at hends
  case idle =>
    have hends := restoreCompletion_ends hc hst
    rwa [List.any_eq_false.mpr fun v hv => mt beq_iff_eq.mp (hnone v hv)] at hends
  case watchdog =>
    rw [← Ctx.period_eq] at hlate
    exact watchdogFire_stops hc hst hfired hlate hjudged hpersistent

end Sys2Proof
end

section
/-!
PROOFS. Accumulator tiles (R289, R292 to R297).
-/
namespace Sys2Proof
open Machine

section tiles
variable {s u : State} {v : Lane} {x : Fields}

/-- R95, R289: a tile that a lane's group has and that no operation works on. -/
def Machine.Lane.quietTile (v : Lane) (t : Nat) : Prop := t < v.g.tileCount ∧ (v.g.tile t).pending = 0

theorem tile_eq (hu : u.group v.th.gid = some v.g) (t : Nat) : u.tile v.th.gid t = v.g.tile t := by
  rw [State.tile, hu, Option.map_some, Option.getD_some]

/-- R95, R168: an instruction that names tiles of the group's alone. -/
theorem tileBad_quiet {ts : List Nat} (h : ∀ t ∈ ts, v.quietTile t) : tileBad ts v = false :=
  List.any_eq_false.mpr fun t ht => by simpa using (h t ht).1

/-- R118, R289: a lane none of whose tiles is pending does not wait. -/
theorem tilePending_quiet (hu : u.group v.th.gid = some v.g) {ts : List Nat} (h : ∀ t ∈ ts, v.quietTile t) : u.tilePending [v] ts = false := by
  simp only [State.tilePending, List.any_cons, List.any_nil, Bool.or_false, tile_eq hu]
  exact List.any_eq_false.mpr fun t ht => by simp [(h t ht).2]

/-- R292: what the lowest lane column asks for an instruction that acts once. -/
theorem lowest_false {ask : Lane → Bool} (h : ask v = false) : (([v] : List Lane).take 1).any ask = false := by
  simp only [List.take_succ_cons, List.take_zero, List.any_cons, List.any_nil, h, Bool.or_self]

/-- R169, R292: a gather of one active lane, of an instruction on tiles that the lane's group has, completes. -/
theorem tiles_complete {i : Instr} {r : Row} {f : Lane → State → Act} {extra : Lane → List (Dst × PFmt)}
    {stall : State → List Lane → Bool} {once : Bool} {named : List Nat}
    (hexec : exec i s = issue i { specOf i f with bad := tileBad named, extra := extra, stall := stall, once := once } s)
    (hi : Issues i r x s [v]) (hv : v.active x.g x.gn = true) (hnamed : ∀ t ∈ named, v.quietTile t)
    (hextra : ∀ d ∈ extra v, isPending v.th v.g d.1 = false ∧ v.sound d.1 = true) (hstall : stall s.tick [v] = false)
    (hlane : f v s.tick = .done u) : exec i s = .next (u.finish v r x).settle.moved := by
  rw [hexec, specOf_eq hi.row]
  have hasks : Spec.Asks { row := r, x := x, lane := f, bad := tileBad named, extra := extra, stall := stall, once := once } s [v] once := by
    refine ⟨by simpa using tileBad_quiet hnamed, fun _ _ => rfl, rfl, rfl, rfl, ?pend, ?clean, ?stall⟩ <;> rw [alone_active hv]
    case pend => simpa using fun d f hd => (hextra (d, f) hd).1
    case clean => simpa using fun d f hd => (hextra (d, f) hd).2
    case stall => exact hstall
  cases once with
  | false => exact alone_done hi hasks hv hlane
  | true => exact once_done hi hasks hv hlane

/-- R293: a legal index of an element. -/
theorem accIndexBad_false {n : Nat} (hlow : n < 2 ^ 14) (hcol : n / 2 ^ 7 % 4 = 0) : accIndexBad n = false := by
  have hcolumn : n / 128 % 4 = 0 := hcol
  simp only [accIndexBad, Nat.not_le.mpr hlow, hcolumn, decide_false, bne_self_eq_false, Bool.or_self]

/-- R293: MACCR reads four elements of a row into its pending quad. -/
theorem accRead_done (hu : u.group v.th.gid = some v.g) (hindex : accIndexBad (v.r32 x.a).toNat = false) :
    let n := (v.r32 x.a).toNat
    let dst := v.places 4 x.d
    v.accRead x u = .done ((u.newOp {
      thread := v.key, gid := v.th.gid, core := v.core, pc := v.th.pc, dst := dst, tc := none,
      kind := .value ([0, 1, 2, 3].map fun i => (v.g.tile (x.imm.toNat % 16)).elem (n % 128) (n / 128 + i)) none }).1.pendDsts v.key v.th.gid dst) := by
  simp only [Lane.accRead, hindex, Bool.false_eq_true, if_false, immBits_low, tile_eq hu]

/-- R293: MACCW writes four elements of a row. -/
theorem accWrite_done (hindex : accIndexBad (v.r32 x.a).toNat = false) :
    let n := (v.r32 x.a).toNat
    v.accWrite x u = .done (u.updTile v.th.gid (x.imm.toNat % 16) fun t =>
      { t with elems := (v.r128 x.b).zipIdx.foldl (fun m e => Store.wr 0 m (n % 128 * 128 + n / 128 + e.2) e.1) t.elems }) := by
  simp only [Lane.accWrite, hindex, Bool.false_eq_true, if_false, immBits_low]

/-- R294: what MACCL and MACCS ask of their window and its layout. -/
structure Machine.Lane.MovesWindow (v : Lane) (x : Fields) : Prop where
  rows : 32 * 2 ^ x.immBits 13 12 ≤ 128
  cols : 32 * 2 ^ x.immBits 15 14 ≤ 128
  bottom : 32 * x.immBits 9 8 + 32 * 2 ^ x.immBits 13 12 ≤ 128
  right : 32 * x.immBits 11 10 + 32 * 2 ^ x.immBits 15 14 ≤ 128
  legal : (Layout.of (v.g.layoutWords (x.immBits 7 4))).legal (x.immBits 7 4) = true
  words : (Layout.of (v.g.layoutWords (x.immBits 7 4))).esize = 2
  bound : ((Layout.of (v.g.layoutWords (x.immBits 7 4))).hull (32 * 2 ^ x.immBits 15 14) (32 * 2 ^ x.immBits 13 12)).2 < v.g.spLen

/-- R94: the layout word of a legal layout lies in the uniform registers. -/
theorem legal_register {l : Layout} {n : Nat} (h : l.legal n = true) : n ≤ 13 := by
  simp only [Layout.legal, Bool.and_eq_true, decide_eq_true_eq] at h
  exact h.1.1.1.1.1.1

/-- R294: MACCL or MACCS of the window under its layout, with its scoreboard entry. -/
def Machine.Lane.moveWindow (v : Lane) (x : Fields) (form : AccForm) (u : State) : State :=
  let lay := v.g.layoutWords (x.immBits 7 4)
  let m := 32 * 2 ^ x.immBits 13 12
  let n := 32 * 2 ^ x.immBits 15 14
  let hull := (Layout.of lay).hull n m
  v.issueAcc u
    { form := form, tile := x.imm.toNat % 16, other := 0, rb := x.immBits 9 8, cb := x.immBits 11 10, m := m, n := n, lay := lay, base := 0,
      words := [], fmt := 0, relaxed := none }
    [(hull.1, hull.2, form == .store)] [x.imm.toNat % 16]

theorem accMove_done (form : AccForm) (h : v.MovesWindow x) : v.accMove x form u = .done (v.moveWindow x form u) := by
  have hrows : x.immBits 13 12 ≠ 3 := fun e => absurd h.rows (by rw [e]; decide)
  have hcols : x.immBits 15 14 ≠ 3 := fun e => absurd h.cols (by rw [e]; decide)
  simp only [Lane.accMove, hrows, hcols, Nat.not_lt.mpr h.bottom, Nat.not_lt.mpr h.right, Nat.not_lt.mpr (legal_register h.legal), h.legal, h.words,
    Nat.not_le.mpr h.bound, immBits_low, ne_eq, not_true_eq_false, decide_false, Bool.not_true, Bool.or_self, Bool.false_eq_true, if_false,
    Lane.moveWindow]

/-- R294: a window that a lane may move, of a quiet tile and with a clean layout word, is moved where the scoreboard has room. -/
theorem accMove_completes {i : Instr} {r : Row} (form : AccForm) (hexec : exec i s = issue i (accMoveSpec i x form) s) (hi : Issues i r x s [v])
    (hv : v.active x.g x.gn = true) (hquiet : ∀ t ∈ [x.immBits 3 0], v.quietTile t)
    (hclean : ∀ d ∈ layoutPlaces (x.immBits 7 4), isPending v.th v.g d.1 = false ∧ v.sound d.1 = true) (hroom : s.boardFree v.core ≠ 0)
    (h : v.MovesWindow x) : exec i s = .next ((v.moveWindow x form s.tick).finish v r x).settle.moved := by
  have hboard : (s.tick.boardFree v.core == 0) = false := beq_eq_false_iff_ne.mpr hroom
  exact tiles_complete (once := true) hexec hi hv hquiet hclean
    (Bool.or_eq_false_iff.mpr ⟨tilePending_quiet (tick_group hi) hquiet, lowest_false hboard⟩) (accMove_done form h)

/-- R295: MSCL reads clean scale bytes and folds. -/
theorem fold_done (hu : u.group v.th.gid = some v.g) (hbound : (v.r32 x.a).toNat + 256 ≤ v.g.spLen)
    (hclean : v.g.spClean (v.r32 x.a).toNat 256 = true) :
    let rl := v.relaxes u (x.m == 1)
    v.fold x u = .done (v.issueAcc rl.1 {
      form := .fold, tile := x.imm.toNat % 16, other := x.immBits 7 4, rb := 0, cb := 0, m := 128, n := 128, lay := [],
      base := 0, words := (v.g.spRead (v.r32 x.a).toNat 256).map fun b => b.setWidth 32, fmt := 0, relaxed := rl.2 }
      [] [x.imm.toNat % 16, x.immBits 7 4]) := by
  have hword (b : Byte) : word b.toNat = b.setWidth 32 := BitVec.ofNat_toNat ..
  simp only [Lane.fold, Nat.not_lt.mpr hbound, if_false, plainLoad_clean hu rfl rfl rfl hclean, immBits_low, hword]

/-- R22: a lane's context admits both ends of an access. -/
theorem admits_both {a b : Nat} (ha : v.admits u a) (hb : v.admits u b) :
    ((u.ctxOf v).map fun c => c.canonical a && c.canonical b).getD false = true := by
  obtain ⟨c, hc, ha⟩ := ha
  obtain ⟨d, hd, hb⟩ := hb
  obtain rfl : c = d := Option.some.inj (hc.symm.trans hd)
  rw [hc, Option.map_some, Option.getD_some, ha, hb, Bool.and_self]

/-- R296: what MQNT leaves of the reads of its amax words: the peer's bytes used up, and poison that they found landed. -/
def Machine.Lane.amaxRead (v : Lane) (f : Fetch) : State :=
  match f.poison with
  | some p => (f.s.clearBuf v.key).poisonLanded v.key p
  | none => f.s.clearBuf v.key

/-- R296: MQNT whose checks pass and whose reads do not halt quantises. -/
theorem quantiseTile_done {f : Fetch} {ws : List Word} (hlegal : (Layout.of (v.g.layoutWords (x.immBits 7 4))).legal (x.immBits 7 4) = true)
    (hsize : (Layout.of (v.g.layoutWords (x.immBits 7 4))).esize = if x.m = 2 ∨ x.m = 4 then 3 else 0) (halign : (v.r64 x.a).toNat % 4 = 0)
    (hfirst : v.admits u (v.r64 x.a).toNat) (hlast : v.admits u ((v.r64 x.a).toNat + 511))
    (hhull : ((Layout.of (v.g.layoutWords (x.immBits 7 4))).hull 256 128).2 < v.g.spLen) (hscales : (v.r32 x.b).toNat + 128 ≤ v.g.spLen)
    (hread : v.amaxWords (v.r64 x.a).toNat u = (f, ws)) (hhalt : f.halt = none) :
    let lay := v.g.layoutWords (x.immBits 7 4)
    let hull := (Layout.of lay).hull 256 128
    let b := (v.r32 x.b).toNat
    v.quantiseTile x u = .done (v.issueAcc (v.amaxRead f) {
      form := .quantise, tile := x.imm.toNat % 16, other := 0, rb := 0, cb := 0, m := 128, n := 256, lay := lay, base := b, words := ws, fmt := x.m.toNat,
      relaxed := none } [(hull.1, hull.2, true), (b, b + 127, true)]
      [x.imm.toNat % 16, x.imm.toNat % 16 + 1]) := by
  have hformat : x.m = 2 ∨ x.m = 4 ↔ x.m.toNat = 2 ∨ x.m.toNat = 4 := or_congr BitVec.toNat_inj.symm BitVec.toNat_inj.symm
  have hpoison : (f.poison.map fun p => (f.s.clearBuf v.key).poisonLanded v.key p).getD (f.s.clearBuf v.key) = v.amaxRead f := by
    rw [Lane.amaxRead]
    cases f.poison <;> rfl
  simp only [Lane.quantiseTile, hlegal, hsize, halign, admits_both hfirst hlast, Nat.not_le.mpr hhull, Nat.not_lt.mpr hscales, hread, hhalt, hpoison,
    hformat, immBits_low, Bool.or_eq_true, decide_eq_true_eq, ne_eq, not_true_eq_false, decide_false, Bool.not_true, Bool.or_self, Bool.false_eq_true, if_false]

/-- R297: MAMAX presents the 128 maxima of a tile pair. -/
theorem tileMax_done (halign : (v.r64 x.a).toNat % 4 = 0) (hfirst : v.admits u (v.r64 x.a).toNat) (hlast : v.admits u ((v.r64 x.a).toNat + 511)) :
    v.tileMax x u = .done (u.present v.key ((List.range 128).map fun b =>
      { v.blankAccess .atomic 4 0 with va := (v.r64 x.a).toNat + 4 * b, size := 4, code := 17,
                                       data := toBytes 4 (u.rowMax v.th.gid (x.imm.toNat % 16) b).toNat })) := by
  simp only [Lane.tileMax, halign, admits_both hfirst hlast, immBits_low, ne_eq, not_true_eq_false, Bool.not_true, Bool.false_eq_true, if_false]

end tiles

/-- Settles O35: on tiles that the group has and that nothing works on, each form has its effect, whose own checks pass. -/
theorem matrixTiles : Obligations.MatrixTiles := by
  unfold Obligations.MatrixTiles
  intro x s imm tile other quiet edit busy index indexed clean lay layout start rb cb m n window move at_ pairOk size
  have htile : tile = x.immBits 3 0 := (immBits_low x).symm
  have hone {v : Lane} (h : quiet tile v) : ∀ t ∈ [x.immBits 3 0], v.quietTile t := List.forall_mem_singleton.mpr (htile ▸ h)
  have hpair {v : Lane} {t : Nat} (h : quiet tile v) (h' : quiet t v) : ∀ k ∈ [x.immBits 3 0, t], v.quietTile k :=
    List.forall_mem_cons.mpr ⟨htile ▸ h, List.forall_mem_singleton.mpr h'⟩
  refine ⟨fun r v hi hv hok => ?mmaz, fun r v hi hv hok => ?maccr, fun r v hi hv hok => ?maccw, fun r v hi hv hok => ?maccl,
    fun r v hi hv hok => ?maccs, fun r v hi hv hok => ?mscl, fun f ws r v hi hv hok => ?mqnt, fun r v hi hv hok => ?mamax⟩
  all_goals have hg := tick_group hi
  case mmaz =>
    exact tiles_complete (extra := fun _ => []) rfl hi hv (hone hok) (by simp) (tilePending_quiet hg (hone hok)) (by rw [immBits_low]; rfl)
  case maccr =>
    obtain ⟨hquiet, hlow, hcol⟩ := hok
    exact tiles_complete (extra := fun _ => []) (once := false) rfl hi hv (hone hquiet) (by simp) (tilePending_quiet hg (hone hquiet))
      (accRead_done hg (accIndexBad_false hlow hcol))
  case maccw =>
    obtain ⟨hquiet, hlow, hcol⟩ := hok
    exact tiles_complete (extra := fun _ => []) (once := false) rfl hi hv (hone hquiet) (by simp) (tilePending_quiet hg (hone hquiet))
      (accWrite_done (accIndexBad_false hlow hcol))
  case maccl =>
    obtain ⟨hquiet, hrows, hcols, hbottom, hright, hclean, hlegal, hwords, hbound, hroom⟩ := hok
    exact accMove_completes .load rfl hi hv (hone hquiet) hclean hroom ⟨hrows, hcols, hbottom, hright, hlegal, hwords, hbound⟩
  case maccs =>
    obtain ⟨hquiet, hrows, hcols, hbottom, hright, hclean, hlegal, hwords, hbound, hroom⟩ := hok
    exact accMove_completes .store rfl hi hv (hone hquiet) hclean hroom ⟨hrows, hcols, hbottom, hright, hlegal, hwords, hbound⟩
  case mscl =>
    obtain ⟨hquiet, hother, hbound, hsound, hfree⟩ := hok
    have hheld : s.tick.boardBlocks v (v.g.pool (v.r32 x.a).toNat) (v.g.pool ((v.r32 x.a).toNat + 255)) false = false := hfree
    exact tiles_complete (extra := fun _ => []) rfl hi hv (hpair hquiet hother) (by simp)
      (Bool.or_eq_false_iff.mpr ⟨tilePending_quiet hg (hpair hquiet hother), lowest_false (Bool.and_eq_false_imp.mpr fun _ => hheld)⟩)
      (fold_done hg hbound hsound)
  case mqnt =>
    obtain ⟨⟨hquiet, hnext, halign, hfirst, hlast⟩, hclean, hlegal, hsize, hhull, hscales, hroom, hread, hhalt⟩ := hok
    have hboard : decide (s.tick.boardFree v.core < 2) = false := decide_eq_false (Nat.not_lt.mpr hroom)
    rw [htile] at hnext
    exact tiles_complete rfl hi hv (List.forall_mem_singleton.mpr hnext) hclean
      (Bool.or_eq_false_iff.mpr ⟨tilePending_quiet hg (hpair hquiet hnext), lowest_false hboard⟩)
      (quantiseTile_done hlegal hsize halign hfirst hlast hhull hscales hread hhalt)
  case mamax =>
    obtain ⟨hquiet, hnext, halign, hfirst, hlast⟩ := hok
    rw [htile] at hnext
    exact tiles_complete (extra := fun _ => []) rfl hi hv (List.forall_mem_singleton.mpr hnext) (by simp)
      (tilePending_quiet hg (hpair hquiet hnext)) (tileMax_done halign hfirst hlast)

end Sys2Proof
end

section
/-!
PROOFS. Convergence registers and the MMA forms (R280 to R286, R289, R291, R324, R330).
-/
namespace Sys2Proof
open Machine

section registers
variable {s u : State} {v : Lane} {x : Fields} {c : Conv}

theorem immBits_conv (x : Fields) : x.immBits 2 0 = x.imm.toNat % 8 := by simp [Fields.immBits]

/-- R280: a convergence register of a lane's group. -/
theorem conv_eq (hu : u.group v.th.gid = some v.g) (n : Nat) : u.conv v.th.gid n = Store.get v.g.cvs n := by
  rw [State.conv, hu, Option.bind_some]

/-- R280: a register that has just been set reads so. -/
theorem conv_setConv {gid n : Nat} {d : Conv} (h : (u.setConv gid n c).conv gid n = some d) : d = c := by
  cases hg : u.group gid with
  | none =>
    have hupd : (u.setConv gid n c).group gid = none := by
      have hget : Store.get u.groups gid = none := hg
      simp only [State.setConv, State.group, State.updGroup_groups, Store.upd, hget]
    rw [State.conv, hupd] at h
    cases h
  | some g =>
    rw [State.conv, State.setConv, upd_group hg, Option.bind_some, Store.get_put] at h
    exact (Option.some.inj h).symm

/-- R280: what a register holds rests on the groups. -/
theorem conv_congr {t : State} (h : t.groups = u.groups) (gid n : Nat) : t.conv gid n = u.conv gid n := by
  simp only [State.conv, State.group, h]

/-- R285: a register that is not broken causes no trap. -/
theorem brokenTraps_sound {gid n : Nat} (h : ∀ d, u.conv gid n = some d → d.broken = false) : u.brokenTraps gid n = (u, []) := by
  rw [State.brokenTraps]
  cases hd : u.conv gid n with
  | none => rfl
  | some d => simp only [h d hd, Bool.not_false, Bool.true_or, if_true]

/-- R280: CVDEF of a legal count defines a register that no member has signed. -/
theorem convDefine_done (hu : u.group v.th.gid = some v.g) (hwhole : (v.r32 x.a).toNat % 4 = 0) (hlow : 4 ≤ (v.r32 x.a).toNat)
    (hhigh : (v.r32 x.a).toNat ≤ 512) (hthreads : (v.r32 x.a).toNat ≤ v.g.threads)
    (hidle : ∀ c, Store.get v.g.cvs (x.imm.toNat % 8) = some c → c.signers = []) :
    v.convDefine x u = .done (u.setConv v.th.gid (x.imm.toNat % 8)
      { count := (v.r32 x.a).toNat, signers := [], broken := false, diverged := false, sets := 0 }) := by
  have hbusy : ((Store.get v.g.cvs (x.imm.toNat % 8)).map fun c => !c.signers.isEmpty).getD false = false := by
    cases hc : Store.get v.g.cvs (x.imm.toNat % 8) with
    | none => rfl
    | some c => simp [hidle c hc]
  simp only [Lane.convDefine, immBits_conv, conv_eq hu, hbusy, hwhole, Nat.not_lt.mpr hlow, Nat.not_lt.mpr hhigh, Nat.not_lt.mpr hthreads, ne_eq,
    not_true_eq_false, decide_false, Bool.or_self, Bool.false_eq_true, if_false]

/-- R284: what a lane stages as it signs. -/
def Machine.Lane.signing (v : Lane) (x : Fields) (gather : Nat) : Signer :=
  { thread := v.key, tid := v.th.tid, gather := gather, fn := x.fn.toNat, imm := x.imm.toNat, fmt := v.r32 x.a, lay := mmaLayout v x,
    b := v.r128 x.b, c := if mmaScratch x then [] else v.r128 x.c }

/-- R282, R284, R289: a lane that may sign a register that is not broken, with its tile quiet and a clean layout word. -/
structure Machine.Lane.Signs (v : Lane) (x : Fields) (c : Conv) : Prop where
  conv : Store.get v.g.cvs (x.imm.toNat % 8) = some c
  sound : c.broken = false
  legal : mmaBad v x c.count (v.r32 x.a) (mmaLayout v x) = false
  room : (c.signers.filter fun m => m.tid % 4 == v.th.tid % 4).length ≠ c.count / 4
  tile : v.quietTile (mmaTile x)
  layout : mmaScratch x = true → ∀ d ∈ layoutPlaces (x.immBits 10 7), isPending v.th v.g d.1 = false ∧ v.sound d.1 = true

/-- R284: a member before the last stages its operands and waits. -/
theorem sign_stages (hu : u.group v.th.gid = some v.g) (h : v.Signs x c) (hmore : c.signers.length + 1 < c.count) :
    v.sign x u = .wait (u.setConv v.th.gid (x.imm.toNat % 8) { c with signers := c.signers ++ [v.signing x u.moves] }) (.sign (x.imm.toNat % 8)) := by
  have hlength : (c.signers ++ [v.signing x u.moves]).length < c.count := by simpa using hmore
  rw [Lane.signing] at hlength
  simp only [Lane.sign, immBits_conv, conv_eq hu, h.conv, h.sound, h.legal, h.room, hlength, Bool.false_eq_true, if_false, if_true, Lane.signing]

/-- R284 to R286: the last member issues the set when all have signed alike. -/
theorem sign_issues (hu : u.group v.th.gid = some v.g) (h : v.Signs x c) (hlast : c.signers.length + 1 = c.count)
    (halike : ∀ m ∈ c.signers, m.fn = x.fn.toNat ∧ m.imm = x.imm.toNat ∧ m.fmt = v.r32 x.a ∧ m.lay = mmaLayout v x) :
    v.sign x u = .done (v.issueSet x c (c.signers ++ [v.signing x u.moves]) (v.r32 x.a) (mmaLayout v x) u) := by
  have hlength : ¬ (c.signers ++ [v.signing x u.moves]).length < c.count := by simp [hlast]
  have hsame : ((c.signers ++ [v.signing x u.moves]).any fun m =>
      m.fn != x.fn.toNat || m.imm != x.imm.toNat || m.fmt != v.r32 x.a || m.lay != mmaLayout v x) = false := by
    refine List.any_eq_false.mpr fun m hm => ?_
    rcases List.mem_append.mp hm with hm | hm
    · obtain ⟨hfn, himm, hfmt, hlay⟩ := halike m hm
      simp [hfn, himm, hfmt, hlay]
    · simp [List.mem_singleton.mp hm, Lane.signing]
  rw [Lane.signing] at hlength hsame
  simp only [Lane.sign, immBits_conv, conv_eq hu, h.conv, h.sound, h.legal, h.room, hlength, hsame, Bool.false_eq_true, if_false, Lane.signing]

/-- R118, R289: a lane whose tile is quiet waits for nothing but a scoreboard entry, and that only for a set which it completes. -/
theorem mmaWaits_false (hu : u.group v.th.gid = some v.g) (h : v.Signs x c) (hcount : c.signers.length + 1 ≤ c.count)
    (hroom : c.signers.length + 1 = c.count → mmaScratch x = true → u.boardFree v.core ≠ 0) : mmaWaits x u [v] = false := by
  have htile : u.tilePending [v] [mmaTile x] = false := tilePending_quiet hu (List.forall_mem_singleton.mpr h.tile)
  refine Bool.or_eq_false_iff.mpr ⟨htile, Bool.and_eq_false_imp.mpr fun hscratch => lowest_false ?_⟩
  simp only [immBits_conv, conv_eq hu, h.conv, decide_eq_false_iff_not, List.length_singleton]
  rcases Nat.lt_or_eq_of_le hcount with hmore | hlast
  · rw [Nat.div_eq_of_lt hmore]
    exact Nat.not_lt_zero _
  · have hone : (c.signers.length + 1) / c.count = 1 := by rw [hlast]; exact Nat.div_self (by omega)
    have := hroom hlast hscratch
    omega

/-- R286: the members that go on leave the register as the issue of their set left it. -/
theorem issueSet_conv {ss : List Signer} {f : Word} {lay : List Word} {d : Conv}
    (h : (v.issueSet x c ss f lay u).conv v.th.gid (x.imm.toNat % 8) = some d) : d.broken = c.broken := by
  rw [Lane.issueSet, conv_congr (foldl_same State.groups (fun (s : State) (m : Signer) => if m.thread = v.key then s else s.retire m.thread)
    (fun s m => by split <;> rfl) _ _), immBits_conv] at h
  rw [conv_setConv h]

/-- R284: the rows of the MMA forms; a form that does not read its operand A from scratchpad has it in a quad. -/
theorem mma_row {i : Instr} {r : Row} (hmem : i ∈ [Instr.mmaR x, .mmaS x, .mmaPR x, .mmaPS x]) (hi : Issues i r x s [v]) :
    exec i s = issue i (mmaSpec i x (convGroups s)) s ∧ ∃ fn role imm, r = rowMma fn role imm ∧ (mmaScratch x = false → role = s4) := by
  have hfn : r.fnMask = 0 → x.fn.toNat = r.fn := row_fn_exact hi.ok.1
  have hscratch (hop : x.fn.toNat = 3 ∨ x.fn.toNat = 5) : mmaScratch x = true := by
    rcases hop with hop | hop <;> simp [mmaScratch, mmaOp, hop]
  simp only [List.mem_cons, List.not_mem_nil, or_false] at hmem
  rcases hmem with rfl | rfl | rfl | rfl <;> obtain rfl : _ = r := congrArg Prod.fst (Option.some.inj hi.row)
  · exact ⟨rfl, _, _, _, rfl, fun _ => rfl⟩
  · exact ⟨rfl, _, _, _, rfl, fun h => absurd (hscratch (.inl (hfn rfl))) (by simp [h])⟩
  · exact ⟨rfl, _, _, _, rfl, fun _ => rfl⟩
  · exact ⟨rfl, _, _, _, rfl, fun h => absurd (hscratch (.inr (hfn rfl))) (by simp [h])⟩

/-- R425: the operands of a member that is free to execute are clean, whatever formats they are read in. -/
theorem mmaReads_clean {fn imm : Nat} {role : Role} (hfree : v.free (rowMma fn role imm) x = true) (hrole : mmaScratch x = false → role = s4) :
    ∀ d ∈ mmaReads x v (v.rowReads (rowMma fn role imm) x), v.sound d.1 = true := by
  have hformat : ∀ d ∈ v.places 1 x.a, v.sound d = true := free_clean hfree (f := .int) (by simp [Row.operands, rowMma, s1])
  have hb : ∀ d ∈ v.places 4 x.b, v.sound d = true := free_clean hfree (f := .int) (by simp [Row.operands, rowMma, s4])
  simp only [mmaReads, List.mem_append, List.mem_map]
  rintro d ((⟨e, he, rfl⟩ | ⟨e, he, rfl⟩) | hd)
  · exact hformat e he
  · exact hb e he
  · cases hscratch : mmaScratch x with
    | true => simp [hscratch] at hd
    | false =>
      rw [hrole hscratch] at hfree
      simp only [hscratch, Bool.false_eq_true, if_false, List.mem_map] at hd
      obtain ⟨e, he, rfl⟩ := hd
      exact free_clean hfree (f := .int) (by simp [Row.operands, rowMma, s4]) e he

/-- R284: a lane that may sign does what its signing comes to, and no other lane traps. -/
theorem mma_acts {i : Instr} {r : Row} {a : Act} (hmem : i ∈ [Instr.mmaR x, .mmaS x, .mmaPR x, .mmaPS x]) (hi : Issues i r x s [v])
    (hv : v.active x.g x.gn = true) (h : v.Signs x c) (hcount : c.signers.length + 1 ≤ c.count)
    (hroom : c.signers.length + 1 = c.count → mmaScratch x = true → s.boardFree v.core ≠ 0) (ha : v.sign x s.tick = a) (ht : a.settles = true)
    (hsound : ∀ d, (s.tick.apply v (readsClock r x) a).1.conv v.th.gid (x.imm.toNat % 8) = some d → d.broken = false) :
    exec i s = .next (s.tick.apply v (readsClock r x) a).1.settle.moved := by
  obtain ⟨hexec, fn, role, imm, rfl, hrole⟩ := mma_row hmem hi
  have hextra : ∀ d ∈ (if mmaScratch x then layoutPlaces (x.immBits 10 7) else []), isPending v.th v.g d.1 = false ∧ v.sound d.1 = true := by
    intro d hd
    cases hscratch : mmaScratch x with
    | false => simp [hscratch] at hd
    | true => exact h.layout hscratch d (by simpa [hscratch] using hd)
  have hgroups : convGroups s = [v.th.gid] := by
    rw [convGroups, hi.lanes]
    rfl
  rw [hexec, mmaSpec, specOf_eq hi.row]
  refine issue_after (a := a) hi hv (tileBad_quiet (List.forall_mem_singleton.mpr h.tile)) rfl rfl ?reads (fun d hd => (hextra d hd).1)
    (mmaWaits_false (tick_group hi) h hcount hroom) ha ht ?after
  case reads =>
    intro d hd
    rcases List.mem_append.mp hd with hd | hd
    · exact mmaReads_clean (hi.free v (by simp) hv) hrole d hd
    · exact (hextra d hd).2
  case after =>
    simp only [hgroups, List.foldl_cons, List.foldl_nil, immBits_conv, brokenTraps_sound hsound, List.append_nil]

end registers

/-- Settles O34: a member that is not the last is staged, and the last issues the set. -/
theorem matrixSets : Obligations.MatrixSets := by
  unfold Obligations.MatrixSets
  intro x s c cv tile op scratch base f lay me put signs alike start
  have hsigns {v : Lane} (h : signs v) : v.Signs x c := by
    obtain ⟨hconv, hsound, hlegal, hroom, htile, hpending, hlayout⟩ := h
    exact ⟨hconv, hsound, hlegal, hroom, ⟨htile, hpending⟩, hlayout⟩
  have hstart (v : Lane) : v.issueSet x c (c.signers ++ [me v]) (f v) (lay v) s.tick = start v s.tick := by
    simp only [Lane.issueSet, Lane.relaxes, Lane.tithes, immBits_conv]
    rfl
  refine ⟨fun r v hi hv hok => ?cvdef, fun i hmem => ⟨fun r v hi hv hok => ?stages, fun r v hi hv hok => ?issues⟩⟩
  case cvdef =>
    obtain ⟨hwhole, hlow, hhigh, hthreads, hidle⟩ := hok
    exact alone_completes (stall := fun _ _ => false) rfl hi hv rfl (convDefine_done (tick_group hi) hwhole hlow hhigh hthreads hidle)
  case stages =>
    obtain ⟨h, hmore⟩ := hok
    have hlane := sign_stages (tick_group hi) (hsigns h) hmore
    have hwaits := mma_acts hmem hi hv (hsigns h) hmore.le (fun hlast => absurd hlast hmore.ne) hlane rfl fun d hd => by
      rw [State.apply, conv_congr (State.latchClock_groups ..), conv_congr (State.waitIn_groups ..)] at hd
      rw [conv_setConv hd]
      exact (hsigns h).sound
    exact hwaits
  case issues =>
    obtain ⟨h, hlast, halike, hroom⟩ := hok
    have hlane := sign_issues (tick_group hi) (hsigns h) hlast halike
    have hdone := mma_acts hmem hi hv (hsigns h) hlast.le (fun _ => hroom) hlane rfl fun d hd => by
      rw [State.apply, conv_congr (State.latchClock_groups ..), conv_congr (State.retire_groups ..)] at hd
      rw [issueSet_conv hd]
      exact (hsigns h).sound
    rw [← hstart]
    exact hdone

end Sys2Proof
end

section
/-!
PROOFS. VWARP, GZLT and SMPL (R300, R305 to R307, R334, R336).
-/
namespace Sys2Proof
open Machine

section views
variable {i : Instr} {x : Fields} {s u : State} {v : Lane} {vs : ViewSet} {l : Latch}

/-- R169: an instruction that reads the view sets, and whose active lanes leave them. -/
theorem completes_viewing {f : Lane → State → Act} {ok : Lane → Prop} (w : Lane → State → State) (hexec : exec i s = issue i (specOf i f) s)
    (hkeeps : ∀ v u, (w v u).views = u.views) (hlane : ∀ v, ok v → ∀ u, u.views = s.views → f v u = .done (w v u)) : CompletesIf i x s ok w := by
  intro r vs hi hok
  rw [hexec, specOf_eq hi.row]
  refine issue_done (fun u => u.views = s.views) w hi unhindered_plain.clear (fun v hv u hu => ⟨hlane v (hok v hv) u hu, ?_⟩)
    (idle_same State.views rfl fun _ _ => rfl)
  exact (State.finish_views ..).trans ((hkeeps v u).trans hu)

theorem wrWords_views (v : Lane) (u : State) (d : BitVec 6) (ws : List Word) : (v.wrWords u d ws).views = u.views := State.putDsts_views ..

/-- R300: the set of a slot rests on the view sets. -/
theorem view_congr (hu : u.views = s.views) (ctx slot : Nat) : u.view ctx slot = s.view ctx slot := congrArg (Store.get · _) hu

theorem latched_some {slot strip : Nat} {k : Latch → Act} (h : Store.get vs.latches strip = some l) : Lane.latched u vs slot strip k = k l := by
  simp only [Lane.latched, h]
theorem latched_none {slot strip : Nat} {k : Latch → Act} (h : Store.get vs.latches strip = none) :
    Lane.latched u vs slot strip k = .wait u (.latch slot) := by
  simp only [Lane.latched, h]

/-- R337: the latch sequence number as a word. -/
theorem word_latchSeq (vs : ViewSet) (f n : Nat) : word (latchSeq vs f n) = word (f * vs.strips + n) :=
  BitVec.eq_of_toNat_eq (by simp [word, latchSeq])

/-- R305: the image of an axis with its sequence number. -/
theorem warpImage_eq (vs : ViewSet) (a : Axis) (f n : Nat) :
    let at_ (k : Nat) : Nat := (a.breaks[k]?).getD 0xFFFF
    warpImage a (latchSeq vs f n) = [word (at_ 1 * 2 ^ 16 + at_ 0), word (at_ 3 * 2 ^ 16 + at_ 2),
      word (a.ext * 2 ^ 16 + a.breaks.length * 2 ^ 8 + a.codes), word (f * vs.strips + n)] := by
  simp only [warpImage, word_latchSeq]
  rfl

section bound
variable (hview : u.view v.g.ctx (x.imm.toNat % 4) = some vs)
include hview

theorem warp_reads (axis : Nat) (hlens : (v.r32 x.a).toNat < vs.nview) (hstrip : (v.r32 x.b).toNat < vs.strips) :
    v.warp x axis u = Lane.latched u vs (x.imm.toNat % 4) (v.r32 x.b).toNat fun l => .done (v.wrWords u x.d
      (warpImage (if axis = 0 then l.xAxis vs (v.r32 x.a).toNat else l.yAxis vs) (latchSeq vs l.frame (v.r32 x.b).toNat))) := by
  simp only [Lane.warp, State.viewOf, immBits_counter, hview, Nat.not_le.mpr hlens, Nat.not_le.mpr hstrip, if_false]

theorem gazeOf_reads (hstrip : (v.r32 x.a).toNat < vs.strips) :
    v.gazeOf x u = Lane.latched u vs (x.imm.toNat % 4) (v.r32 x.a).toNat fun l =>
      .done (v.wrWords u x.d [l.gx, l.gy, word l.clock, word (l.frame * vs.strips + (v.r32 x.a).toNat)]) := by
  simp only [Lane.gazeOf, State.viewOf, immBits_counter, hview, Nat.not_le.mpr hstrip, if_false, word_latchSeq]

theorem sample_reads {tile n : Nat} {k : ViewSet → Option (Nat × Nat) → Act} (hlens : tile % 8 < vs.nview)
    (hword : tileWordBad vs tile = false) (hindex : n < 1024) : v.sample (x.imm.toNat % 4) tile n u none k =
      Lane.latched u vs (x.imm.toNat % 4) (tile / 2 ^ 16 % 2 ^ 8) fun l => k vs (samplePos vs l tile n) := by
  simp only [Lane.sample, State.viewOf, hview, tileView, Nat.not_le.mpr hlens, hword, Nat.not_le.mpr hindex, Bool.false_eq_true, if_false]
  rfl

end bound

/-- R300, R307: a tile word that keeps its rules. -/
theorem tileWordBad_false {w : Nat} (hlow : w / 2 ^ 3 % 2 ^ 5 = 0) (hhigh : w / 2 ^ 24 = 0) (hcol : w / 2 ^ 8 % 2 ^ 8 < vs.columns)
    (hstrip : w / 2 ^ 16 % 2 ^ 8 < vs.strips) : tileWordBad vs w = false := by
  have hlow : bits w 7 3 = 0 := hlow
  have hhigh : bits w 31 24 = 0 := by rw [bits, hhigh, Nat.zero_mod]
  have hcol : ¬ vs.columns ≤ tileCol w := Nat.not_le.mpr hcol
  have hstrip : ¬ vs.strips ≤ tileStrip w := Nat.not_le.mpr hstrip
  simp only [tileWordBad, hlow, hhigh, hcol, hstrip, bne_self_eq_false, decide_false, Bool.or_self]

/-- R307: the words of a sample's position. -/
def sampleWords (p : Option (Nat × Nat)) : List Word :=
  match p with
  | some (px, py) => [word px, word py]
  | none => [0xFFFFFFFF, 0xFFFFFFFF]

theorem sampleWords_eq (vs : ViewSet) (l : Latch) (tile n : Nat) : sampleWords (samplePos vs l tile n) =
    match (l.xAxis vs (tile % 8)).pos (32 * (tile / 2 ^ 8 % 2 ^ 8) + n % 32), (l.yAxis vs).pos (32 * (tile / 2 ^ 16 % 2 ^ 8) + n / 32) with
    | some px, some py => [word px, word py]
    | _, _ => [0xFFFFFFFF, 0xFFFFFFFF] := by
  have hx : (l.xAxis vs (tileView tile)).pos (32 * tileCol tile + n % 32) = (l.xAxis vs (tile % 8)).pos (32 * (tile / 2 ^ 8 % 2 ^ 8) + n % 32) := rfl
  have hy : (l.yAxis vs).pos (32 * tileStrip tile + n / 32) = (l.yAxis vs).pos (32 * (tile / 2 ^ 16 % 2 ^ 8) + n / 32) := rfl
  rw [samplePos, hx, hy]
  cases (l.xAxis vs (tile % 8)).pos (32 * (tile / 2 ^ 8 % 2 ^ 8) + n % 32) with
  | none => rfl
  | some px => cases (l.yAxis vs).pos (32 * (tile / 2 ^ 16 % 2 ^ 8) + n / 32) <;> rfl

end views

/-- Settles O37: past its checks each form reads the latch of its strip, or waits for it. -/
theorem viewReads : Obligations.ViewReads := by
  unfold Obligations.ViewReads
  intro x s vs l slot a b bound latched waits warp tile seq image holds
  have hbound {v : Lane} {u : State} (h : bound v) (hu : u.views = s.views) : u.view v.g.ctx (x.imm.toNat % 4) = some vs :=
    (view_congr hu _ _).trans h
  have hword {v : Lane} (h : tile v) : tileWordBad vs (a v) = false := by
    obtain ⟨-, hlow, hhigh, hcol, hstrip, -⟩ := h
    exact tileWordBad_false hlow hhigh hcol hstrip
  have hsmpl {v : Lane} {u : State} (h : tile v) (hview : u.view v.g.ctx (x.imm.toNat % 4) = some vs) := by
    obtain ⟨hlens, -, -, -, -, hindex⟩ := id h
    exact sample_reads (k := fun _ p => .done (v.wrWords u x.d (sampleWords p))) hview hlens (hword h) hindex
  refine ⟨completes_viewing _ rfl (fun v u => wrWords_views ..) ?warpX, completes_viewing _ rfl (fun v u => wrWords_views ..) ?warpY,
    completes_viewing _ rfl (fun v u => wrWords_views ..) ?gaze, completes_viewing _ rfl (fun v u => wrWords_views ..) ?smpl,
    ?waitsX, ?waitsY, ?waitsGaze, ?waitsSmpl⟩
  case warpX =>
    rintro v ⟨⟨hlens, hstrip⟩, hview, hl⟩ u hu
    rw [warp_reads (hbound hview hu) 0 hlens hstrip, latched_some hl, warpImage_eq]
    rfl
  case warpY =>
    rintro v ⟨⟨hlens, hstrip⟩, hview, hl⟩ u hu
    rw [warp_reads (hbound hview hu) 1 hlens hstrip, latched_some hl, warpImage_eq]
    rfl
  case gaze =>
    rintro v ⟨hstrip, hview, hl⟩ u hu
    rw [gazeOf_reads (hbound hview hu) hstrip, latched_some hl]
  case smpl =>
    rintro v ⟨htile, hview, hl⟩ u hu
    rw [immBits_counter]
    refine (hsmpl htile (hbound hview hu)).trans ?_
    rw [latched_some hl, sampleWords_eq] <;> rfl
  case waitsX =>
    rintro r v hi hv ⟨⟨hlens, hstrip⟩, hview, hl⟩
    exact alone_waits (stall := fun _ _ => false) rfl hi hv rfl ((warp_reads (hbound (u := s.tick) hview rfl) 0 hlens hstrip).trans (latched_none hl))
  case waitsY =>
    rintro r v hi hv ⟨⟨hlens, hstrip⟩, hview, hl⟩
    exact alone_waits (stall := fun _ _ => false) rfl hi hv rfl ((warp_reads (hbound (u := s.tick) hview rfl) 1 hlens hstrip).trans (latched_none hl))
  case waitsGaze =>
    rintro r v hi hv ⟨hstrip, hview, hl⟩
    exact alone_waits (stall := fun _ _ => false) rfl hi hv rfl ((gazeOf_reads (hbound (u := s.tick) hview rfl) hstrip).trans (latched_none hl))
  case waitsSmpl =>
    rintro r v hi hv ⟨htile, hview, hl⟩
    refine alone_waits (stall := fun _ _ => false) rfl hi hv rfl ?_
    rw [immBits_counter]
    exact (hsmpl htile (hbound (u := s.tick) hview rfl)).trans (latched_none hl)

end Sys2Proof
end

section
/-!
PROOFS. SERQ, TILEO and LENS (R308 to R310, R346, R352).
-/
namespace Sys2Proof
open Machine

section serq
variable {i : Instr} {x : Fields} {s u : State} {v : Lane} {vs : ViewSet} {f view strip now : Nat}

/-- R310: a SERQ whose word keeps its rules, of a set that is bound. -/
structure Machine.Lane.AsksStrip (v : Lane) (u : State) (x : Fields) (vs : ViewSet) : Prop where
  view : u.view v.g.ctx (x.imm.toNat % 4) = some vs
  lens : (v.r32 x.a).toNat % 8 < vs.nview
  low : (v.r32 x.a).toNat / 2 ^ 3 % 2 ^ 13 = 0
  high : (v.r32 x.a).toNat / 2 ^ 24 = 0
  strip : (v.r32 x.a).toNat / 2 ^ 16 % 2 ^ 8 < vs.strips

/-- R310, R352: STATE of a strip: 3 of a frame that is neither current nor next, 1 queued, 2 past its deadline, 0 free to be queued. -/
def Machine.ViewSet.serqState (vs : ViewSet) (f view strip now : Nat) : Nat :=
  if !(vs.frames strip).contains f then 3
  else if vs.isQueued f view strip then 1
  else if ((Store.get vs.latches strip).map Latch.frame) == some f && decide (vs.deadline f strip ≤ (now : Int)) then 2 else 0

/-- R352: the deadline of a strip's current frame has passed. -/
def Machine.ViewSet.latePast (vs : ViewSet) (f strip now : Nat) : Prop :=
  (∃ l, Store.get vs.latches strip = some l ∧ l.frame = f) ∧ vs.deadline f strip ≤ (now : Int)

theorem latePast_iff : (((Store.get vs.latches strip).map Latch.frame) == some f && decide (vs.deadline f strip ≤ (now : Int))) = true ↔
    vs.latePast f strip now := by
  rw [Bool.and_eq_true, beq_iff_eq, Option.map_eq_some_iff, decide_eq_true_eq, ViewSet.latePast]

theorem serqState_far (h : f ∉ vs.frames strip) : vs.serqState f view strip now = 3 := if_pos (by simpa using h)

theorem serqState_queued (h : f ∈ vs.frames strip) (hqueued : (f, view, strip) ∈ vs.serq) : vs.serqState f view strip now = 1 :=
  (if_neg (by simpa using h)).trans (if_pos (List.contains_iff_mem.mpr hqueued))

theorem serqState_late (h : f ∈ vs.frames strip) (hqueued : (f, view, strip) ∉ vs.serq) (hlate : vs.latePast f strip now) :
    vs.serqState f view strip now = 2 :=
  (if_neg (by simpa using h)).trans ((if_neg (mt List.contains_iff_mem.mp hqueued)).trans (if_pos (latePast_iff.mpr hlate)))

theorem serqState_free (h : f ∈ vs.frames strip) (hqueued : (f, view, strip) ∉ vs.serq) (hlate : ¬ vs.latePast f strip now) :
    vs.serqState f view strip now = 0 :=
  (if_neg (by simpa using h)).trans ((if_neg (mt List.contains_iff_mem.mp hqueued)).trans (if_neg (mt latePast_iff.mp hlate)))

/-- R310: what SERQ answers and, where STATE is 0, queues. -/
theorem queueStrip_answers (h : v.AsksStrip u x vs) :
    let w := (v.r32 x.a).toNat
    let f := (v.r32 x.b).toNat
    let d := u.tilesDone vs f (w % 8) (w / 2 ^ 16 % 2 ^ 8)
    let state := vs.serqState f (w % 8) (w / 2 ^ 16 % 2 ^ 8) v.now
    v.queueStrip x u = .done (v.wr (if state = 0 then
        d.1.updView v.g.ctx (x.imm.toNat % 4) fun vs => { vs with serq := vs.serq ++ [(f, w % 8, w / 2 ^ 16 % 2 ^ 8)] } else d.1)
      1 x.d (d.2 * 2 ^ 8 + state)) := by
  have hlens : ¬ vs.nview ≤ tileView (v.r32 x.a).toNat := Nat.not_le.mpr h.lens
  have hlow : bits (v.r32 x.a).toNat 15 3 = 0 := h.low
  have hhigh : bits (v.r32 x.a).toNat 31 24 = 0 := by rw [bits, h.high, Nat.zero_mod]
  have hstrip : ¬ vs.strips ≤ tileStrip (v.r32 x.a).toNat := Nat.not_le.mpr h.strip
  simp only [wr_one, Lane.queueStrip, State.viewOf, immBits_counter, h.view, hlens, hlow, hhigh, hstrip, bne_self_eq_false, decide_false, Bool.or_self, Bool.false_eq_true,
    if_false]
  rfl

end serq

section tileo
variable {x : Fields} {s u : State} {v : Lane} {vs : ViewSet} {lens : Bool}

/-- R308, R346: a TILEO or LENS that takes no trap: its set is bound, its view is of the form's kind, its tile word keeps its rules, and its
tile lies in the allocation. -/
structure Machine.Lane.HandsTile (v : Lane) (u : State) (x : Fields) (lens : Bool) (vs : ViewSet) : Prop where
  view : u.view v.g.ctx (x.imm.toNat % 4) = some vs
  inside : (v.r32 x.b).toNat % 8 < vs.nview
  kind : vs.lensed ((v.r32 x.b).toNat % 8) = lens
  word : tileWordBad vs (v.r32 x.b).toNat = false
  align : (v.r32 x.a).toNat % 128 = 0
  bound : (v.r32 x.a).toNat + 4096 ≤ v.g.spLen

theorem tileTrap_none (h : v.HandsTile u x lens vs) : v.tileTrap x lens u = none := by
  have hview : ¬ vs.nview ≤ tileView (v.r32 x.b).toNat := Nat.not_le.mpr h.inside
  have hkind : vs.lensed (tileView (v.r32 x.b).toNat) = lens := h.kind
  simp only [Lane.tileTrap, State.viewOf, immBits_counter, h.view, hview, hkind, h.word, h.align, Nat.not_lt.mpr h.bound, decide_false,
    bne_self_eq_false, Bool.or_self, Bool.false_eq_true, ne_eq, not_true_eq_false, if_false]

/-- R100, R309: a core with a place in its lens queue and a scoreboard entry left does not make a tile wait. -/
theorem tilesWait_free (h : v.HandsTile u x lens vs) (hload : u.lensLoad v.core < 16) (hboard : u.boardFree v.core ≠ 0) :
    tilesWait x lens u [v] = false := by
  have hmine : ([v].filter fun v => (v.tileTrap x lens u).isNone) = [v] := by simp [tileTrap_none h]
  simp only [tilesWait, hmine, List.length_nil, Bool.or_eq_false_iff, decide_eq_false_iff_not]
  exact ⟨by omega, Nat.not_le.mpr hload⟩

/-- R308, R309: the request of a tile: its number, its operation, its read entry, and its pending status register. -/
theorem tileOut_hands (h : v.HandsTile u x lens vs) (hload : u.lensLoad v.core < 16) :
    let a := (v.r32 x.a).toNat
    let b := (v.r32 x.b).toNat
    let counter := x.imm.toNat / 2 ^ 2 % 2 ^ 2
    let n := u.takeNumber v.th.gid counter
    let o : TileOp := { slot := x.imm.toNat % 4, view := b % 8, strip := b / 2 ^ 16 % 2 ^ 8, col := b / 2 ^ 8 % 2 ^ 8, base := a, lens := lens,
                        frame := ((Store.get vs.latches (b / 2 ^ 16 % 2 ^ 8)).map Latch.frame).getD vs.first }
    let r := n.1.newOp { thread := v.key, gid := v.th.gid, core := v.core, pc := v.th.pc, dst := v.places 1 x.d, tc := some (counter, n.2),
                         kind := .tile o }
    v.tileOut x lens u = .done ((r.1.enter { op := r.2, core := v.core, gid := v.th.gid, lo := v.g.pool a, hi := v.g.pool (a + 4095),
                                             write := false, empty := false }).pendDsts v.key v.th.gid (v.places 1 x.d)) := by
  have hroom : ¬ lensRoom ≤ u.lensLoad v.core := Nat.not_le.mpr hload
  simp only [Lane.tileOut, tileTrap_none h, State.viewOf, immBits_counter, h.view, hroom, if_false]
  rfl

end tileo

/-- Settles O38: SERQ answers by the state of its strip; TILEO and LENS are one request, of a view with or without a lens. -/
theorem tileOutput : Obligations.TileOutput := by
  unfold Obligations.TileOutput
  intro x s vs slot counter bound a b strip done near queued late word_ answers hands
  have hasks {v : Lane} (h : word_ v) : v.AsksStrip s.tick x vs := by
    obtain ⟨hview, hlens, hlow, hhigh, hstrip⟩ := h
    exact ⟨hview, hlens, hlow, hhigh, hstrip⟩
  have hnow {r : Row} {v : Lane} (hi : Issues (.serq x) r x s [v]) : v.now = s.now := gather_now hi.lanes v (by simp)
  have hanswers {ok : Lane → Prop} {state : Nat} (hne : state ≠ 0)
      (h : ∀ v, ok v → v.now = s.now → vs.serqState (b v) (a v % 8) (strip (a v)) v.now = state) : answers ok state := by
    rintro r v hi hv ⟨hword, hok⟩
    refine alone_completes (stall := fun _ _ => false) rfl hi hv rfl ((queueStrip_answers (hasks hword)).trans ?_)
    rw [h v hok (hnow hi), if_neg hne]
  have hhands {i : Instr} {lens : Bool} (hexec : exec i s = issue i (tileSpec i x lens) s) : hands i lens := by
    rintro r v hi hv ⟨hproducer, hview, hlens, hkind, hlow, hhigh, hcol, hstrip, halign, hlen, hload, hboard⟩
    have htile : v.HandsTile s.tick x lens vs := ⟨hview, hlens, hkind, tileWordBad_false hlow hhigh hcol hstrip, halign, hlen⟩
    have hspec : tileSpec i x lens =
        { specOf i (fun v s => v.tileOut x lens s) with rule := copyRight, extra := fun _ => [], stall := tilesWait x lens } := by
      rw [tileSpec, specOf_eq hi.row]
    exact alone_completes_unhindered (hexec.trans (by rw [hspec])) hi hv (if_pos hproducer) (by simp) (tilesWait_free htile hload hboard)
      (tileOut_hands htile hload)
  refine ⟨hanswers (by decide) fun v h _ => serqState_far h, hanswers (by decide) fun v h _ => serqState_queued h.1 h.2,
    hanswers (by decide) fun v h hv => ?late, ?free, hhands rfl, hhands rfl⟩
  case late =>
    obtain ⟨hnear, hqueued, hlate⟩ := h
    rw [hv]
    exact serqState_late hnear hqueued hlate
  case free =>
    rintro r v hi hv ⟨hword, hnear, hqueued, hlate⟩
    refine alone_completes (stall := fun _ _ => false) rfl hi hv rfl ((queueStrip_answers (hasks hword)).trans ?_)
    rw [hnow hi, serqState_free hnear hqueued hlate, if_pos rfl, Nat.add_zero]

end Sys2Proof
end

section
/-!
PROOFS. TEX, TEXG and TEXQ (R311 to R313, R343 to R345).
-/
namespace Sys2Proof
open Machine

section textures
variable {x : Fields} {s u : State} {v : Lane} {f : Fetch} {ws : List Word} {k : Fetch → Texture → Fetch × List Word}

/-- R311: the entry that a lane names: where it stands, and its read. -/
def Machine.Lane.textureAt (v : Lane) (x : Fields) : Nat :=
  (Store.rd 0 v.g.k (x.immBits 3 0)).toNat + (Store.rd 0 v.g.k (x.immBits 3 0 + 1)).toNat * 2 ^ 32 + 32 * (v.r32 x.a).toNat
def Machine.Lane.textureEntry (v : Lane) (x : Fields) (u : State) : Fetch × List Byte := (v.startFetch u).read v .texture (v.textureAt x) 32

/-- R311, R313: an index below the count, and an entry that is read without a stop or an error. -/
structure Machine.Lane.ReadsEntry (v : Lane) (x : Fields) (u : State) : Prop where
  index : (v.r32 x.a).toNat < (Store.rd 0 v.g.k (x.immBits 3 0 + 2)).toNat % 2 ^ 16
  halt : (v.textureEntry x u).1.halt = none
  sound : (v.textureEntry x u).1.poison = none

/-- R312, R313: a lane's quad is left pending on words, or on zeros where one of its reads was poisoned. -/
def Machine.Lane.pendQuad (v : Lane) (x : Fields) (f : Fetch) (ws : List Word) : State :=
  let vals : List Word := if f.poison.isSome then [0, 0, 0, 0] else ws
  let o : AOp := { thread := v.key, gid := v.th.gid, core := v.core, pc := v.th.pc, dst := v.places 4 x.d, tc := none, kind := .value vals f.poison }
  ((f.s.clearBuf v.key).newOp o).1.pendDsts v.key v.th.gid (v.places 4 x.d)

theorem texture_traps (h : (Store.rd 0 v.g.k (x.immBits 3 0 + 2)).toNat % 2 ^ 16 ≤ (v.r32 x.a).toNat) :
    v.texture x u k = .trap causeIndex (v.r32 x.a).toNat := if_pos h

section entry
variable (h : v.ReadsEntry x u)
include h

theorem texture_index : ¬ (Store.rd 0 v.g.k (x.immBits 3 0 + 2)).toNat % 65536 ≤ (v.r32 x.a).toNat := Nat.not_le.mpr h.index

/-- R311 to R313: an entry that keeps its rules gives the words that the form makes of its texture. -/
theorem texture_filtered (hgood : textureBad (v.textureEntry x u).2 = false)
    (hk : k (v.textureEntry x u).1 (Texture.of (v.textureEntry x u).2) = (f, ws)) (hf : f.halt = none) :
    v.texture x u k = .done (v.pendQuad x f ws) := by
  obtain ⟨-, hhalt, hsound⟩ := id h
  unfold Lane.textureEntry Lane.textureAt at *
  simp only [Lane.texture, texture_index h, hhalt, hsound, hgood, hk, hf, if_false, Option.isSome_none, Bool.false_eq_true]
  rfl

theorem texture_refused (hbad : textureBad (v.textureEntry x u).2 = true) :
    v.texture x u k = .trapIn ((v.textureEntry x u).1.s.clearBuf v.key) causeTexture (v.r32 x.a).toNat := by
  obtain ⟨-, hhalt, hsound⟩ := id h
  unfold Lane.textureEntry Lane.textureAt at *
  simp only [Lane.texture, texture_index h, hhalt, hsound, hbad, if_false, if_true, Option.isSome_none, Bool.false_eq_true]

end entry

end textures

/-- R169: a gather of one active lane, of an instruction with further reads, that traps. -/
theorem alone_traps_reading {i : Instr} {r : Row} {x : Fields} {s u : State} {v : Lane} {f : Lane → State → Act} {extra : Lane → List (Dst × PFmt)}
    {cause tval : Nat} (hexec : exec i s = issue i { specOf i f with extra := extra } s) (hi : Issues i r x s [v]) (hv : v.active x.g x.gn = true)
    (hextra : ∀ d ∈ extra v, isPending v.th v.g d.1 = false ∧ v.sound d.1 = true) (hlane : f v s.tick = .trapIn u cause tval) :
    exec i s = .next (u.takeTraps [{ key := v.key, cause := cause, tval := tval }]).settle.moved := by
  rw [hexec, specOf_eq hi.row]
  exact alone_trap hi (alone_asks_with hv rfl rfl rfl rfl rfl hextra rfl) hv hlane

/-- R344: the upper half word of a pair. -/
theorem bits_top (w : DWord) : bits w.toNat 63 48 = w.toNat / 2 ^ 48 :=
  Nat.mod_eq_of_lt (Nat.div_lt_of_lt_mul w.isLt)

/-- Settles O39: every form reads its entry and differs in what it makes of it. -/
theorem textures : Obligations.Textures := by
  unfold Obligations.Textures
  intro x s f ws kn k index entry texture named ready leave tu tv c gives
  have hkn : x.immBits 3 0 = kn := immBits_low x
  have hentry (v : Lane) : v.textureEntry x s.tick = entry v := by rw [Lane.textureEntry, Lane.textureAt, hkn]; rfl
  have hreads {v : Lane} (h : ready v) : v.ReadsEntry x s.tick := by
    obtain ⟨-, hindex, hhalt, hsound⟩ := h
    exact ⟨by rw [hkn]; exact hindex, by rw [hentry]; exact hhalt, by rw [hentry]; exact hsound⟩
  have hnamed {v : Lane} (h : named v) : ∀ d ∈ layoutPlaces (x.immBits 3 0), isPending v.th v.g d.1 = false ∧ v.sound d.1 = true := by
    rw [hkn]
    exact h
  have hgives {i : Instr} {r m : Lane → Fetch → Texture → Fetch × List Word} (hexec : exec i s = issue i (texSpec i x m) s)
      (hm : ∀ v g t, m v g t = r v g t) : gives i r := by
    have hstall {q : Row} {vs : List Lane} (hi : Issues i q x s vs) : exec i s = issue i
        { specOf i (fun v s => v.texture x s (m v)) with extra := fun _ => layoutPlaces (x.immBits 3 0), stall := fun _ _ => false } s := by
      rw [hexec, texSpec, specOf_eq hi.row]
    refine ⟨?filters, ?index, ?descriptor⟩
    case filters =>
      rintro q v hi hv ⟨hready, hgood, hr, hf⟩
      have hnamed' := hnamed hready.1
      refine alone_completes_unhindered (rule := fun _ => none) ((hstall hi).trans (by rw [specOf_eq hi.row])) hi hv rfl hnamed' rfl ?_
      exact texture_filtered (hreads hready) (by rw [hentry]; exact hgood) (by rw [hm, hentry]; exact hr) hf
    case index =>
      intro q vs hi hok
      refine traps_lanes (rule := fun _ => none) _ _ ((hstall hi).trans (by rw [specOf_eq hi.row])) hi
        ⟨fun _ _ => rfl, fun v hv => hnamed (hok v hv).1, rfl⟩ fun v hv u => texture_traps ?_
      rw [hkn]
      exact (hok v hv).2
    case descriptor =>
      intro q v hi hv hready hbad
      have h := alone_traps_reading (hexec.trans rfl) hi hv (hnamed hready.1) (texture_refused (hreads hready) (by rw [hentry]; exact hbad))
      rwa [hentry] at h
  clear_value gives
  refine ⟨hgives rfl fun _ _ _ => rfl, hgives rfl fun _ _ _ => rfl, hgives rfl fun v g t => ?anisotropic, hgives rfl fun v g t => ?gather,
    hgives rfl fun _ _ _ => rfl⟩
  case anisotropic =>
    simp only [bits_top]
    rfl
  case gather =>
    simp only [List.foldl_cons, List.foldl_nil, Int.add_zero]
    rfl

end Sys2Proof
end

section
/-!
PROOFS. The amplifier, the raster test and the delivery of coverage records (R304, R335, R340 to R342, R405).
-/
namespace Sys2Proof
open Machine

section first
variable {α : Type} {t : α → Bool} {f : α → Option α} {before after : List α} {a : α}

/-- The oldest element that meets a test is changed where it stands. -/
theorem changeFirst_at (ha : t a = true) (hbefore : ∀ b ∈ before, t b = false) :
    changeFirst t f (before ++ a :: after) = before ++ (f a).toList ++ after := by
  induction before with
  | nil => simp only [List.nil_append, changeFirst, ha, if_true]
  | cons b l ih =>
    have hb : t b = false := hbefore b (by simp)
    simp only [List.cons_append, changeFirst, hb, Bool.false_eq_true, if_false, ih fun c hc => hbefore c (by simp [hc])]

theorem find?_at (ha : t a = true) (hbefore : ∀ b ∈ before, t b = false) : (before ++ a :: after).find? t = some a :=
  List.find?_eq_some_iff_append.mpr ⟨ha, before, after, rfl, fun b hb => by simp [hbefore b hb]⟩

end first

section amplifier
variable {s : State} {core : Nat} {m : Meshlet} {rest : List Meshlet} {vs : ViewSet} (hqueue : Store.rd [] s.amplifier core = m :: rest)
  (hview : s.view m.ctx m.slot = some vs)
include hqueue hview

/-- R304: the amplifier has handed on its oldest meshlet and counted n dropped primitives. -/
def Machine.State.amplified (s : State) (core : Nat) (m : Meshlet) (rest : List Meshlet) (n : Nat) : State :=
  State.updView { s with amplifier := Store.wr [] s.amplifier core rest } m.ctx m.slot fun v => { v with pdrop := satAdd v.pdrop n }

theorem amplifyProject_drops (hbad : headerBad m.bytes = true) : Happens (.amplifyProject core) s (s.amplified core m rest 1) := by
  change execAmplifyProject core s = _
  have hview' : State.view { s with amplifier := Store.wr [] s.amplifier core rest } m.ctx m.slot = some vs := hview
  simp only [execAmplifyProject, hqueue, hview', hbad, if_true]
  rfl

/-- R335: every primitive of a meshlet in every view of its mask, in ascending primitive and view. -/
def Machine.Meshlet.all (m : Meshlet) (vs : ViewSet) : List (Nat × Nat × Option (List (Int × Int))) :=
  (List.range (field m.bytes 2 2)).flatMap fun i => ((List.range 8).filter fun n => m.mask.testBit n).map fun n => (i, n, m.prim vs n i)

/-- R335: those that are kept, as the engines of a die take them. -/
def Machine.Meshlet.kept (m : Meshlet) (vs : ViewSet) (die : Nat) : List Prim :=
  (m.all vs).filterMap fun p => p.2.2.map fun pts =>
    { die := die, ctx := m.ctx, slot := m.slot, view := p.2.1, meshlet := word (field m.bytes 12 4), index := p.1, pts := pts, strip := 0 }

theorem amplifyProject_hands (hgood : headerBad m.bytes = false) : Happens (.amplifyProject core) s
    { s.amplified core m rest ((m.all vs).length - (m.kept vs (dieOf core)).length) with prims := s.prims ++ m.kept vs (dieOf core) } := by
  change execAmplifyProject core s = _
  have hview' : State.view { s with amplifier := Store.wr [] s.amplifier core rest } m.ctx m.slot = some vs := hview
  simp only [execAmplifyProject, hqueue, hview', hgood, Bool.false_eq_true, if_false]
  rfl

end amplifier

section raster
variable {s : State} {die : Nat} {p : Prim} {before after : List Prim} {vs : ViewSet} {l : Latch}

/-- R340: the oldest primitive of a die is tested against a latched strip. -/
theorem rasterTest_happens (hprims : s.prims = before ++ p :: after) (hdie : p.die = die) (hbefore : ∀ q ∈ before, q.die ≠ die)
    (hview : s.view p.ctx p.slot = some vs) (hlatch : Store.get vs.latches p.strip = some l) : Happens (.rasterTest die) s { s with
      prims := before ++ (if p.strip + 1 < vs.strips then [{ p with strip := p.strip + 1 }] else []) ++ after
      covers := s.covers ++ p.records vs l p.strip } := by
  change execRasterTest die s = _
  have hp : (p.die == die) = true := beq_iff_eq.mpr hdie
  have hq : ∀ q ∈ before, (q.die == die) = false := fun q hq => beq_eq_false_iff_ne.mpr (hbefore q hq)
  have hused : p.latch vs p.strip = some (some l) := by simp only [Prim.latch, hlatch]
  have hnext : (if p.strip + 1 < vs.strips then some { p with strip := p.strip + 1 } else none).toList =
      if p.strip + 1 < vs.strips then [{ p with strip := p.strip + 1 }] else [] := by split <;> rfl
  simp only [execRasterTest, hprims, find?_at (t := fun q : Prim => q.die == die) hp hq, hview, hused,
    changeFirst_at (t := fun q : Prim => q.die == die) hp hq, hnext]
  rfl

end raster

section route
variable {s : State} {c : Cover} {vs : ViewSet}

/-- R342: the list of a strip that has been fixed stands. -/
theorem fixRoute_fixed (hview : s.view c.ctx c.slot = some vs) (hroute : ∃ r ∈ vs.routes, r.frame = c.frame ∧ r.strip = c.strip) :
    s.fixRoute c = s := by
  obtain ⟨r, hr, hframe, hstrip⟩ := hroute
  have hany : (vs.routes.any fun r => r.frame == c.frame && r.strip == c.strip) = true :=
    List.any_eq_true.mpr ⟨r, hr, by simp [hframe, hstrip]⟩
  simp only [State.fixRoute, hview, hany, if_true]

end route

section covers
variable {s : State} {die : Nat} {c : Cover} {before after : List Cover} (hcovers : s.covers = before ++ c :: after) (hdie : c.die = die)
  (hbefore : ∀ q ∈ before, q.die ≠ die)

/-- R341: the coverage records without the one that is delivered. -/
def Machine.State.withCovers (s : State) (cs : List Cover) : State := { s with covers := cs }

include hcovers hdie hbefore

theorem oldestCover : s.covers.find? (fun q => q.die == die) = some c := by
  rw [hcovers]
  exact find?_at (beq_iff_eq.mpr hdie) fun q hq => beq_eq_false_iff_ne.mpr (hbefore q hq)

theorem changeCover (f : Cover → Option Cover) : changeFirst (fun q => q.die == die) f s.covers = before ++ (f c).toList ++ after := by
  rw [hcovers]
  exact changeFirst_at (beq_iff_eq.mpr hdie) fun q hq => beq_eq_false_iff_ne.mpr (hbefore q hq)

section untaken
variable {gid : Nat} {vs : ViewSet} (hview : s.view c.ctx c.slot = some vs) (hroute : ∃ r ∈ vs.routes, r.frame = c.frame ∧ r.strip = c.strip)
  (htarget : s.coverTarget c = some gid) (htaken : c.taken = none)

include hview hroute htarget htaken

/-- R405: a stale record is discarded and counted. -/
theorem coverageDelivery_discards (hstale : s.coverStale vs c gid = true) : Happens (.coverageDelivery die) s
    (((s.updView c.ctx c.slot fun v => { v with late := satAdd v.late 1 }).withCovers (before ++ after)).releaseLeaving c.ctx) := by
  change execCoverageDelivery die s = _
  have hdrop := changeCover hcovers hdie hbefore fun _ => none
  simp only [Option.toList_none, List.append_nil] at hdrop
  simp only [execCoverageDelivery, oldestCover hcovers hdie hbefore, htaken, fixRoute_fixed hview hroute, hview, htarget, hstale, if_true]
  unfold State.updView State.withCovers
  simp only [hdrop]
  rfl

variable {g : Machine.Group} {q : Queue} (hfresh : s.coverStale vs c gid = false) (hg : s.group gid = some g) (hq : Store.get g.queues 0 = some q)
include hfresh hg hq

/-- R341, R76: a record takes the oldest free slot when no engine waits for one. -/
theorem coverageDelivery_takes {h : Nat} {rest : List Nat} (hfree : q.free = h :: rest) (hengines : ∀ e ∈ q.engines, e.slot ≠ none) :
    let q1 := { q with free := rest, slots := q.slots.set h .engine, engines := q.engines ++ [⟨s.nextOp, some h, false⟩] }
    Happens (.coverageDelivery die) s { s with
      groups := Store.put s.groups gid { g with queues := Store.put g.queues 0 q1 }
      nextOp := s.nextOp + 1
      covers := before ++ { c with taken := some (gid, h, s.nextOp) } :: after } := by
  change execCoverageDelivery die s = _
  have hidle : (q.engines.any fun e => e.slot.isNone) = false := List.any_eq_false.mpr fun e he => by simpa using hengines e he
  have htake := changeCover hcovers rfl (hdie ▸ hbefore) fun q => some { q with taken := some (gid, h, s.nextOp) }
  simp only [Option.toList_some, List.append_assoc, List.singleton_append] at htake
  simp only [execCoverageDelivery, oldestCover hcovers hdie hbefore, htaken, fixRoute_fixed hview hroute, hview, htarget, hfresh, hg, hq,
    State.takeCover, hfree, hidle, htake, Bool.false_eq_true, if_false]
  rfl

/-- R405: a record for which its queue has no slot waits, and its group is noted once. -/
theorem coverageDelivery_waits (hfull : q.free = []) (hnew : gid ∉ s.pushWaited) :
    Happens (.coverageDelivery die) s { s with pushWaited := insertNat gid s.pushWaited } := by
  change execCoverageDelivery die s = _
  have hnoted : s.pushWaited.contains gid = false := by simpa using hnew
  simp only [execCoverageDelivery, oldestCover hcovers hdie hbefore, htaken, fixRoute_fixed hview hroute, hview, htarget, hfresh, hg, hq,
    State.takeCover, hfull, hnoted, Bool.false_eq_true, if_false]
  rfl

end untaken

section taken
variable {gid h op : Nat} {g : Machine.Group} {q : Queue} (htaken : c.taken = some (gid, h, op)) (hg : s.group gid = some g)
  (hq : Store.get g.queues 0 = some q)

/-- R374: a scoreboard entry that stands over a slot of a group's queue. -/
def Machine.SbEntry.meets (e : SbEntry) (g : Machine.Group) (q : Queue) (h : Nat) : Bool :=
  e.core == g.core && !e.empty && overlaps e.lo e.hi (g.pool (q.base + h * q.size)) (g.pool (q.base + h * q.size + q.size - 1))

include htaken hg hq

/-- R341, R374: the record is written into its slot and pushed. -/
theorem coverageDelivery_pushes (hfree : (s.board.any fun e => e.meets g q h) = false) : Happens (.coverageDelivery die) s
    (let g1 := { g.spWrite (q.base + h * q.size) c.bytes with queues := Store.put g.queues 0 (q.finish op) }
     (State.progress { s with covers := before ++ after, groups := Store.put s.groups gid g1 } c.ctx).releaseLeaving c.ctx) := by
  change execCoverageDelivery die s = _
  unfold SbEntry.meets at hfree
  have hdrop := changeCover hcovers hdie hbefore fun _ => none
  simp only [Option.toList_none, List.append_nil] at hdrop
  simp only [execCoverageDelivery, oldestCover hcovers hdie hbefore, htaken, hg, State.pushCover, hq, hfree, hdrop, Bool.false_eq_true, if_false]
  rfl

/-- R374: a record waits for the entries over its slot. -/
theorem coverageDelivery_held (hheld : (s.board.any fun e => e.meets g q h) = true) : exec (.coverageDelivery die) s = .next s := by
  change execCoverageDelivery die s = _
  unfold SbEntry.meets at hheld
  simp only [execCoverageDelivery, oldestCover hcovers hdie hbefore, htaken, hg, State.pushCover, hq, hheld, if_true]

end taken
end covers

/-- Settles O48: one lemma for each event and each way that a record fares, put together in the order of the statement. -/
theorem rasterEvents : Obligations.RasterEvents := by
  unfold Obligations.RasterEvents
  intro s
  refine ⟨fun core m rest vs hqueue hview => ⟨amplifyProject_drops hqueue hview, amplifyProject_hands hqueue hview⟩,
    fun die p before after vs l => rasterTest_happens, fun die gid c before after vs hcovers hdie hbefore hview hroute htarget htaken => ?untaken,
    ?taken⟩
  case untaken =>
    exact ⟨coverageDelivery_discards hcovers hdie hbefore hview hroute htarget htaken,
      fun g q h rest hfresh hg hq => coverageDelivery_takes hcovers hdie hbefore hview hroute htarget htaken hfresh hg hq,
      fun g q hfresh hg hq => coverageDelivery_waits hcovers hdie hbefore hview hroute htarget htaken hfresh hg hq⟩
  case taken =>
    intro die gid h op c before after g q hcovers hdie hbefore htaken hg hq a meets
    have hmeets (e : SbEntry) : e.meets g q h = true ↔ meets e := by
      simp only [SbEntry.meets, Bool.and_eq_true, beq_iff_eq, Bool.not_eq_true', and_assoc, meets, a]
    refine ⟨fun hfree => coverageDelivery_pushes hcovers hdie hbefore htaken hg hq ?_,
      fun hheld => coverageDelivery_held hcovers hdie hbefore htaken hg hq ?_⟩
    · exact List.any_eq_false.mpr fun e he => mt (hmeets e).mp (hfree e he)
    · obtain ⟨e, he, hmeet⟩ := hheld
      exact List.any_eq_true.mpr ⟨e, he, (hmeets e).mpr hmeet⟩

end Sys2Proof
end

section
/-!
PROOFS. Binding, unbinding and asking the status of a view set (R333, R351, R472).
-/
namespace Sys2Proof
open Machine

section bind
variable {s u : State} {c : Cmd} {v : ViewSet}

/-- R333: a bind whose body breaks no rule. -/
structure Machine.Cmd.Binds (s : State) (c : Cmd) : Prop where
  commanded : s.commanded 0x0C c
  slot : c.at' 8 1 < 4
  window : c.at' 9 1 < 16
  low : zeros c.bytes 10 16 = true
  align : c.at' 16 8 % 64 = 0
  high : zeros c.bytes 24 64 = true

/-- R332, R333: a descriptor that keeps its rules, and a gaze source inside its window. -/
structure Machine.ViewSet.Legal (v : ViewSet) (u : State) (c : Cmd) : Prop where
  desc : v.descOk = true
  area : v.areaOk = true
  link : v.linkOk = true
  gaze : v.gsrc = 1 → v.moff + 8 ≤ windowLen ((u.tenant c.tenant).window v.mwin)

/-- R333: the context is not loaded, the slot is bound, or another set holds scanout memory or the output that this one asks for. -/
def Machine.State.bindTaken (u : State) (c : Cmd) (v : ViewSet) : Bool :=
  !u.ctxReady c (· != .free) || (u.view c.ctx (c.at' 8 1)).isSome || u.views.any fun e => v.overlapsSet e.2 || (v.out != 2 && e.2.out == v.out)

/-- R333: the gaze window of a set that reads its gaze from memory does not grant the reads. -/
def Machine.ViewSet.gazeBarred (v : ViewSet) (u : State) (c : Cmd) : Bool :=
  v.gsrc == 1 && !(((u.tenant c.tenant).window v.mwin).getLsbD 0 && ((u.tenant c.tenant).window v.mwin).getLsbD 1)

theorem bindTaken_iff : u.bindTaken c v = true ↔ u.ctxReady c (· != .free) = false ∨ u.view c.ctx (c.at' 8 1) ≠ none ∨
    ∃ e ∈ u.views, v.overlapsSet e.2 = true ∨ (v.out ≠ 2 ∧ e.2.out = v.out) := by
  simp only [State.bindTaken, Bool.or_eq_true, Bool.not_eq_true', Option.isSome_iff_ne_none, List.any_eq_true, Bool.and_eq_true, bne_iff_ne,
    beq_iff_eq, or_assoc]

theorem bindBody_ok (h : Cmd.Binds s c) : bindBodyOk c = true := by
  obtain ⟨-, hslot, hwindow, hlow, halign, hhigh⟩ := h
  simp only [bindBodyOk, hslot, hwindow, hlow, halign, hhigh, decide_true, beq_self_eq_true, Bool.and_self]

/-- R333: a set as it has been read, with its records or without them, decides how its bind ends. -/
theorem viewSetBind_reads {granted : Bool} (h : Cmd.Binds s c) (hread : s.readSet c = (u, some v, granted, false)) :
    exec .viewSetBind s = happen (
      if u.bindStatus c (some v, granted, false) ≠ 0 then u.finishRecord c (u.bindStatus c (some v, granted, false))
      else ({ u with views := Store.put u.views (viewKey c.ctx (c.at' 8 1)) (v.started u.now) } : State).finishRecord c 0) := by
  change execViewSetBind s = _
  refine (command_accepted h.commanded (by rw [bindBody_ok h]; rfl)).trans ?_
  simp only [hread, Bool.false_eq_true, if_false]

/-- R333: of the reasons that remain to a body and a descriptor without fault, those of status 3 come first. -/
theorem firstStatus_placed (a b c d : Bool) :
    firstStatus [failing false 2, failing false 2, failing false 2, failing a 3, failing b 3, failing c 4, failing d 4] =
      if a || b then 3 else if c || d then 4 else 0 := by
  revert a b c d
  decide

/-- R333: what is left to refuse a set of a legal descriptor: its place, records that cannot be read, and its gaze window. -/
theorem bindStatus_legal {granted : Bool} (h : v.Legal u c) (hrecords : granted = true → ∀ n < v.nview, v.recordOk n = true) :
    u.bindStatus c (some v, granted, false) = if u.bindTaken c v then 3 else if !granted || v.gazeBarred u c then 4 else 0 := by
  obtain ⟨hdesc, harea, hlink, hgaze⟩ := h
  have hfields : (!(v.descOk && v.areaOk && v.linkOk)) = false := by rw [hdesc, harea, hlink]; rfl
  have hrecords : (granted && !((List.range v.nview).all fun n => v.recordOk n)) = false := by
    simpa only [Bool.and_eq_false_imp, Bool.not_eq_false', List.all_eq_true, List.mem_range] using hrecords
  have hgaze : (v.gsrc == 1 && decide (windowLen ((u.tenant c.tenant).window v.mwin) < v.moff + 8)) = false := by
    simpa only [Bool.and_eq_false_imp, beq_iff_eq, decide_eq_false_iff_not, Nat.not_lt] using hgaze
  simp only [State.bindStatus, Option.isSome_some, Option.getD_some, Bool.true_and, Bool.not_false, Bool.and_true, hfields, hrecords, hgaze]
  exact firstStatus_placed ..

theorem viewSetBind_binds (h : Cmd.Binds s c) (hread : s.readSet c = (u, some v, true, false)) (hlegal : v.Legal u c)
    (hrecords : ∀ n < v.nview, v.recordOk n = true) (hfree : u.bindTaken c v = false) (hgaze : v.gazeBarred u c = false) :
    Happens .viewSetBind s
      (({ u with views := Store.put u.views (viewKey c.ctx (c.at' 8 1)) (v.started u.now) } : State).finishRecord c 0) := by
  have hstatus : u.bindStatus c (some v, true, false) = 0 := by
    rw [bindStatus_legal hlegal fun _ => hrecords, hfree, hgaze]
    rfl
  exact (viewSetBind_reads h hread).trans (by rw [hstatus]; rfl)

/-- R333: a set whose place is taken is refused, whether its records can be read or not. -/
theorem viewSetBind_taken {granted : Bool} (h : Cmd.Binds s c) (hread : s.readSet c = (u, some v, granted, false)) (hlegal : v.Legal u c)
    (hrecords : granted = true → ∀ n < v.nview, v.recordOk n = true) (htaken : u.bindTaken c v = true) :
    Happens .viewSetBind s (u.finishRecord c 3) := by
  have hstatus : u.bindStatus c (some v, granted, false) = 3 := (bindStatus_legal hlegal hrecords).trans (if_pos htaken)
  exact (viewSetBind_reads h hread).trans (by rw [hstatus]; rfl)

theorem viewSetBind_unread (h : Cmd.Binds s c) (hread : s.readSet c = (u, some v, false, false)) (hlegal : v.Legal u c)
    (hfree : u.bindTaken c v = false) : Happens .viewSetBind s (u.finishRecord c 4) := by
  have hstatus : u.bindStatus c (some v, false, false) = 4 := by
    rw [bindStatus_legal hlegal (by simp), hfree]
    rfl
  exact (viewSetBind_reads h hread).trans (by rw [hstatus]; rfl)

end bind

section unbind
variable {s : State} {c : Cmd} (hc : s.commanded 0x0D c) (hslot : c.at' 8 1 < 4) (hzero : zeros c.bytes 9 64 = true)
include hc hslot hzero

/-- R333: an unbind of a set that no other unbind has asked for ends it once no tile of it is in flight, and else waits. -/
theorem viewSetUnbind_eq {v : ViewSet} (hloaded : s.ctxReady c (· != .free) = true) (hview : s.view c.ctx (c.at' 8 1) = some v)
    (hagain : v.unbind = none ∨ v.unbind = some c) : exec .viewSetUnbind s = happen (
      if s.viewQuiet c.ctx (c.at' 8 1) then ((s.unbindView c.ctx (c.at' 8 1)).releaseLeaving c.ctx).finishRecord c 0
      else s.updView c.ctx (c.at' 8 1) fun w => { w with unbind := some c }) := by
  have hrecord : s.inputs.record = c := hc.1
  have hsame : (v.unbind.isSome && v.unbind != some c) = false := by
    rcases hagain with h | h <;> simp [h]
  change execViewSetUnbind s = _
  unfold execViewSetUnbind
  rw [hrecord]
  refine command_accepted hc ?_
  simp only [hview, Option.bind_some, hslot, hzero, hloaded, hsame, decide_true, Bool.and_self, Bool.not_true, Option.isNone_some, Bool.or_self]
  rfl

theorem viewSetUnbind_refused (h : ¬ s.ctxReady c (· != .free) = true ∨ s.view c.ctx (c.at' 8 1) = none) :
    Happens .viewSetUnbind s (s.finishRecord c 3) := by
  have hbad : (!s.ctxReady c (· != .free) || (s.view c.ctx (c.at' 8 1)).isNone) = true := by simpa using h
  change execViewSetUnbind s = _
  unfold execViewSetUnbind
  refine command_refused (n := 3) hc ?_ (by decide)
  simp only [hbad, hslot, hzero, decide_true, Bool.and_self, Bool.not_true, Bool.true_or]
  rfl

end unbind

section status
variable {s : State} {c : Cmd} (hc : s.commanded 0x0F c) (hslot : c.at' 8 1 < 4) (hclear : c.at' 9 1 ≤ 1) (hlow : zeros c.bytes 10 16 = true)
  (hwindow : c.at' 16 1 < 16) (hmid : zeros c.bytes 17 24 = true) (halign : c.at' 24 8 % 8 = 0) (hhigh : zeros c.bytes 32 64 = true)
include hc hslot hclear hlow hwindow hmid halign hhigh

theorem viewSetStatus_stores {v : ViewSet} {a : Nat} (hloaded : s.ctxReady c (· != .free) = true) (hview : s.view c.ctx (c.at' 8 1) = some v)
    (haddr : s.windowAddr c.tenant (c.at' 16 1) 3 (c.at' 24 8) 24 = some a) :
    let stored := s.rawWrite a (v.counters.flatMap fun w => toBytes 4 w.toNat)
    Happens .viewSetStatus s ((if c.at' 9 1 = 1 then stored.updView c.ctx (c.at' 8 1) fun w =>
      { w with miss := 0, pdrop := 0, gdrop := 0, derr := 0, rshort := 0, late := 0 } else stored).finishRecord c 0) := by
  change execViewSetStatus s = _
  refine (command_accepted hc ?_).trans (by simp only [hview, haddr, Option.map_some, Option.getD_some]; rfl)
  simp only [hslot, hclear, hlow, hwindow, hmid, halign, hhigh, hloaded, hview, haddr, decide_true, beq_self_eq_true, Bool.and_self, Bool.not_true,
    Option.isNone_some, Bool.or_self]
  rfl

theorem viewSetStatus_refused (h : ¬ s.ctxReady c (· != .free) = true ∨ s.view c.ctx (c.at' 8 1) = none) :
    Happens .viewSetStatus s (s.finishRecord c 3) := by
  have hbad : (!s.ctxReady c (· != .free) || (s.view c.ctx (c.at' 8 1)).isNone) = true := by simpa using h
  change execViewSetStatus s = _
  refine command_refused (n := 3) hc ?_ (by decide)
  simp only [hbad, hslot, hclear, hlow, hwindow, hmid, halign, hhigh, decide_true, beq_self_eq_true, Bool.and_self, Bool.not_true]
  rfl

end status

/-- Settles O50: a bind by what it reads and by what is taken, an unbind and a status by the set of their slot. -/
theorem viewSetCommands : Obligations.ViewSetCommands := by
  unfold Obligations.ViewSetCommands
  intro s c slot loaded
  refine ⟨fun hc hslot hwindow hlow halign hhigh u v hread hdesc harea hlink hrecords hgaze => ?binds,
    fun hc hslot hwindow hlow halign hhigh u v hread hdesc harea hlink hgaze => ?unread,
    fun hc hslot hzero => ⟨fun v hloaded hview hagain => ?unbinds, viewSetUnbind_refused hc hslot hzero⟩,
    fun hc hslot hclear hlow hwindow hmid halign hhigh =>
      ⟨fun v a => viewSetStatus_stores hc hslot hclear hlow hwindow hmid halign hhigh,
        viewSetStatus_refused hc hslot hclear hlow hwindow hmid halign hhigh⟩⟩
  case binds =>
    have hbody : Cmd.Binds s c := ⟨hc, hslot, hwindow, hlow, halign, hhigh⟩
    have hlegal : v.Legal u c := ⟨hdesc, harea, hlink, fun h => (hgaze h).2.2⟩
    refine ⟨fun hloaded hunbound hroom => viewSetBind_binds hbody hread hlegal hrecords ?_ ?_,
      fun h => viewSetBind_taken hbody hread hlegal (fun _ => hrecords) (bindTaken_iff.mpr h)⟩
    · refine Bool.eq_false_iff.mpr fun htaken => ?_
      rcases bindTaken_iff.mp htaken with h | h | ⟨e, he, h⟩
      · exact absurd hloaded (Bool.eq_false_iff.mp h)
      · exact h hunbound
      · obtain ⟨hapart, hout⟩ := hroom e he
        rcases h with h | ⟨htwo, hsame⟩
        · exact absurd h (Bool.eq_false_iff.mp hapart)
        · exact hout.elim htwo fun hother => hother hsame
    · refine Bool.and_eq_false_imp.mpr fun h => ?_
      obtain ⟨h0, h1, -⟩ := hgaze (beq_iff_eq.mp h)
      rw [h0, h1]
      rfl
  case unread =>
    have hbody : Cmd.Binds s c := ⟨hc, hslot, hwindow, hlow, halign, hhigh⟩
    have hlegal : v.Legal u c := ⟨hdesc, harea, hlink, hgaze⟩
    split
    · next h => exact viewSetBind_taken hbody hread hlegal (by simp) (bindTaken_iff.mpr h)
    · next h => exact viewSetBind_unread hbody hread hlegal (Bool.eq_false_iff.mpr (mt bindTaken_iff.mp h))
  case unbinds =>
    have h := viewSetUnbind_eq hc hslot hzero hloaded hview hagain
    exact ⟨fun hquiet => h.trans (congrArg happen (if_pos hquiet)), fun hquiet => h.trans (congrArg happen (if_neg (Bool.eq_false_iff.mp hquiet)))⟩

end Sys2Proof
end

section
/-!
PROOFS. Command rings and RELAY (R385 to R387, R389, R394).
-/
namespace Sys2Proof
open Machine

section rings
variable {s : State} {t q : Nat} {v : CmdQ}

theorem cmdQ_rawRead (s : State) (a n t q : Nat) : (s.rawRead a n).1.cmdQ t q = s.cmdQ t q := by
  rw [(rawRead_mem s a n).frame]
  rfl

theorem widxNotice_takes (hv : s.cmdQ t q = some v) (hclean : (s.rawRead v.ctrl 8).2.2 = false)
    (hmore : v.ridx < ofBytes (s.rawRead v.ctrl 8).2.1) (hlap : ofBytes (s.rawRead v.ctrl 8).2.1 ≤ v.ridx + 2 ^ v.k) :
    exec (.widxNotice t q) s = happen ((s.rawRead v.ctrl 8).1.takeRecord t q v) := by
  have hnone : ¬ 2 ^ v.k < ofBytes (s.rawRead v.ctrl 8).2.1 - v.ridx := by omega
  change execWidxNotice t q s = _
  simp only [execWidxNotice, hv, hclean, Bool.false_eq_true, if_false, if_neg (Nat.not_le.mpr hmore), if_neg hnone, cmdQ_rawRead]

/-- R386: a producer more than a ring ahead has overwritten records: the lap comes first, and what the queue then is is taken from. -/
theorem widxNotice_laps {v' : CmdQ} (hv : s.cmdQ t q = some v) (hclean : (s.rawRead v.ctrl 8).2.2 = false)
    (hlap : v.ridx + 2 ^ v.k < ofBytes (s.rawRead v.ctrl 8).2.1)
    (hv' : ((s.rawRead v.ctrl 8).1.lapQueue t q v (ofBytes (s.rawRead v.ctrl 8).2.1)).cmdQ t q = some v') :
    exec (.widxNotice t q) s = happen (((s.rawRead v.ctrl 8).1.lapQueue t q v (ofBytes (s.rawRead v.ctrl 8).2.1)).takeRecord t q v') := by
  have hmore : ¬ ofBytes (s.rawRead v.ctrl 8).2.1 ≤ v.ridx := Nat.not_le.mpr (Nat.lt_of_le_of_lt (Nat.le_add_right ..) hlap)
  have hfar : 2 ^ v.k < ofBytes (s.rawRead v.ctrl 8).2.1 - v.ridx := Nat.lt_sub_iff_add_lt'.mpr hlap
  change execWidxNotice t q s = _
  simp only [execWidxNotice, hv, hclean, Bool.false_eq_true, if_false, if_neg hmore, if_pos hfar, hv']

/-- R385: the address of the next record of a queue. -/
def Machine.CmdQ.slot (v : CmdQ) : Nat := v.base + 64 * (v.ridx % 2 ^ v.k)

/-- R385: the next record of a queue, as it is read. -/
def Machine.State.recordRead (s : State) (t q : Nat) (v : CmdQ) : Cmd :=
  { tenant := t, queue := q, index := v.ridx, bytes := (s.rawRead v.slot 64).2.1 }

/-- R385: RIDX is written, and the record is in progress. -/
def Machine.State.recordTaken (s : State) (t q : Nat) (v : CmdQ) : State :=
  ((s.rawRead v.slot 64).1.rawWrite (v.ctrl + 8) (toBytes 8 (v.ridx + 1))).updCmdQ t q fun v =>
    { v with ridx := v.ridx + 1, running := v.running ++ [v.ridx] }

theorem takeRecord_poisoned (hp : (s.rawRead v.slot 64).2.2 = true) : s.takeRecord t q v =
    ((s.recordTaken t q v).countPoison v.slot 64 0xFFFF ((s.recordTaken t q v).ownedCtx (s.recordRead t q v)) none 0).finishRecord
      (s.recordRead t q v) 4 := by
  unfold State.takeRecord
  change (s.rawRead (v.base + 64 * (v.ridx % 2 ^ v.k)) 64).2.2 = true at hp
  simp only [hp, if_true]
  rfl

theorem takeRecord_badHeader (hp : (s.rawRead v.slot 64).2.2 = false) (hbad : (s.recordRead t q v).headerStatus ≠ 0) :
    s.takeRecord t q v = (s.recordTaken t q v).finishRecord (s.recordRead t q v) (s.recordRead t q v).headerStatus := by
  unfold State.takeRecord
  change (s.rawRead (v.base + 64 * (v.ridx % 2 ^ v.k)) 64).2.2 = false at hp
  simp only [hp, Bool.false_eq_true, if_false]
  exact if_pos hbad

theorem takeRecord_next {i : Instr} (hp : (s.rawRead v.slot 64).2.2 = false) (hok : (s.recordRead t q v).headerStatus = 0)
    (hopc : (s.recordRead t q v).opc ≤ 2) (hi : decodeRecord (s.recordRead t q v).bytes = some i) :
    s.takeRecord t q v = { s.recordTaken t q v with
      agenda := (s.recordTaken t q v).agenda ++ [(i, { (s.recordTaken t q v).inputs with record := s.recordRead t q v })] } := by
  unfold State.takeRecord
  change (s.rawRead (v.base + 64 * (v.ridx % 2 ^ v.k)) 64).2.2 = false at hp
  change decodeRecord (s.rawRead (v.base + 64 * (v.ridx % 2 ^ v.k)) 64).2.1 = some i at hi
  simp only [hp, hi, Bool.false_eq_true, if_false]
  exact (if_neg (not_not.mpr hok)).trans (if_pos hopc)

theorem takeRecord_enters (hp : (s.rawRead v.slot 64).2.2 = false) (hok : (s.recordRead t q v).headerStatus = 0)
    (hopc : 2 < (s.recordRead t q v).opc) : s.takeRecord t q v = (s.recordTaken t q v).enterRecord (s.recordRead t q v) := by
  unfold State.takeRecord
  change (s.rawRead (v.base + 64 * (v.ridx % 2 ^ v.k)) 64).2.2 = false at hp
  simp only [hp, Bool.false_eq_true, if_false]
  exact (if_neg (not_not.mpr hok)).trans (if_neg (Nat.not_le.mpr hopc))

end rings

section relay
variable {s : State} {c : Cmd} (hc : s.commanded 2 c) (hzero : zeros c.bytes 16 64 = true)
include hc hzero

theorem relay_notOwned (howns : s.ownsCtx c.tenant c.ctx = false) : Happens .relay s (s.finishRecord c 3) := by
  change execRelay s = _
  refine command_refused (n := 3) hc ?_ (by decide)
  simp [firstStatus_cons, hzero, howns]

theorem relay_enters (howns : s.ownsCtx c.tenant c.ctx = true) (hnode : s.nodeStatus c = 0) :
    Happens .relay s ((s.occupy c).enterRecord c) := by
  change execRelay s = _
  refine command_accepted hc ?_
  simp [firstStatus_cons, hzero, howns, hnode]

theorem relay_nodeRefused (howns : s.ownsCtx c.tenant c.ctx = true) (hnode : s.nodeStatus c = 5) : Happens .relay s (s.finishRecord c 5) := by
  change execRelay s = _
  refine command_refused (n := 5) hc ?_ (by decide)
  simp [firstStatus_cons, hzero, howns, hnode]

end relay

section nodes
variable {s : State} {c : Cmd}

/-- R394: a record outside the task graph has no node to refuse. -/
theorem nodeStatus_of_plain (h : c.graph = false) : s.nodeStatus c = 0 := by
  simp [State.nodeStatus, h]

theorem nodeStatus_of_free (howns : s.ownsNode c.tenant c.node = true) (hfree : Store.get s.nodes c.node = none) : s.nodeStatus c = 0 := by
  simp [State.nodeStatus, howns, hfree]

theorem nodeStatus_of_taken (hg : c.graph = true) (h : s.ownsNode c.tenant c.node = false ∨ Store.get s.nodes c.node ≠ none) :
    s.nodeStatus c = 5 := by
  rcases h with h | h
  · simp [State.nodeStatus, hg, h]
  · simp [State.nodeStatus, hg, Option.isNone_eq_false_iff.mpr (Option.isSome_iff_ne_none.mpr h)]

theorem occupy_plain (h : c.graph = false) : s.occupy c = s := by
  simp [State.occupy, h]

theorem occupy_graph (h : c.graph = true) :
    s.occupy c = { s with nodes := Store.put s.nodes c.node { counter := c.pred, record := c } } := if_pos h

end nodes

/-- Settles O51: a notice of WIDX by the record that it takes, a RELAY by its context and its node. -/
theorem commandQueues : Obligations.CommandQueues := by
  unfold Obligations.CommandQueues
  intro s
  refine ⟨fun t q v hv hclean hmore hlap => ?takes, fun t q v hv hclean hlap => ?laps,
    fun c => relay_notOwned, fun c hc hzero howns => ⟨fun hg => ?plain, fun hg hnode hfree => ?graph, fun hg h =>
      relay_nodeRefused hc hzero howns (nodeStatus_of_taken hg h)⟩⟩
  case takes =>
    have htake := widxNotice_takes hv hclean hmore hlap
    exact ⟨fun hp => htake.trans (congrArg happen (takeRecord_poisoned hp)),
      fun hp hbad => htake.trans (congrArg happen (takeRecord_badHeader hp hbad)),
      fun i hp hok hopc hi => htake.trans (congrArg happen (takeRecord_next hp hok hopc hi)),
      fun hp hok hopc => htake.trans (congrArg happen (takeRecord_enters hp hok hopc))⟩
  case laps =>
    intro w lapped v' hv'
    exact widxNotice_laps hv hclean hlap hv'
  case plain => simpa only [occupy_plain hg] using relay_enters hc hzero howns (nodeStatus_of_plain hg)
  case graph => simpa only [occupy_graph hg] using relay_enters hc hzero howns (nodeStatus_of_free hnode hfree)

end Sys2Proof
end

section
/-!
PROOFS. Launches, pipelines, placement, balance and the end of a launch (R389 to R396, R403, R405, R408).
-/
namespace Sys2Proof
open Machine

theorem Store.put_of_get {α : Type} {m : Store α} {k : Nat} {v : α} (h : Store.get m k = some v) : Store.put m k v = m := by
  induction m with
  | nil => simp [Store.get] at h
  | cons p m ih =>
    obtain ⟨i, u⟩ := p
    by_cases hlt : k < i
    · simp [Store.get, hlt] at h
    · by_cases heq : k = i
      · simp only [Store.get, if_neg hlt, if_pos heq, Option.some.injEq] at h
        rw [Store.put, if_neg hlt, if_pos heq, h, heq]
      · simp only [Store.get, if_neg hlt, if_neg heq] at h
        simp only [Store.put, if_neg hlt, if_neg heq, ih h]

/-- A context that an update leaves as it is leaves the state as it is. -/
theorem State.updCtx_of_fixed {s : State} {ctx : Nat} {x : Ctx} {f : Ctx → Ctx} (hx : Store.get s.ctxs ctx = some x) (hf : f x = x) :
    s.updCtx ctx f = s := by
  have hctxs : Store.upd s.ctxs ctx f = s.ctxs := by
    rw [Store.upd, hx]
    exact (congrArg _ hf).trans (Store.put_of_get hx)
  unfold State.updCtx
  rw [hctxs]

section launch
variable {s : State} {c : Cmd} (hc : s.commanded 1 c) (hbody : launchBodyOk c = true)
include hc hbody

theorem launch_notReady (hready : s.ctxReady c (· != .free) = false) : Happens .launch s (s.finishRecord c 3) := by
  change execLaunch s = _
  refine command_refused (n := 3) hc ?_ (by decide)
  rw [hbody, hready]
  rfl

variable (hready : s.ctxReady c (· != .free) = true) {h a : State × Option (List Byte)}
  (hheader : State.readVirtual 2 s c.ctx (c.at' 8 8) 512 s.inputs.peer.data = h)
  (hargs : State.readVirtual 3 h.1 c.ctx (c.at' 16 8) (4 * c.at' 24 2) (s.inputs.peer.data.drop 512) = a)
include hready hheader hargs

theorem launch_unread (hnone : h.2 = none ∨ a.2 = none) : Happens .launch s (a.1.finishRecord c 4) := by
  change execLaunch s = _
  refine (command_accepted hc (by rw [hbody, hready]; rfl)).trans ?_
  simp only [hheader, hargs]
  rcases hnone with hnone | hnone
  · rw [hnone]
    rfl
  · rw [hnone]
    cases h.2 <;> rfl

/-- R391, R392: a launch whose header and arguments have been read ends with its status, or takes its node and enters its queue. -/
theorem launch_read {hb ab : List Byte} (hh : h.2 = some hb) (ha : a.2 = some ab) : exec .launch s = happen (
    if a.1.launchStatus c (launchOf a.1 c hb ab) ≠ 0 then a.1.finishRecord c (a.1.launchStatus c (launchOf a.1 c hb ab))
    else (({ a.1 with launches := Store.put a.1.launches (Store.free 0 a.1.launches) (launchOf a.1 c hb ab) } : State).occupy c).enterRecord c) := by
  change execLaunch s = _
  refine (command_accepted hc (by rw [hbody, hready]; rfl)).trans ?_
  simp only [hheader, hargs, hh, ha]

end launch

/-- R396: every gang of a launch that was ready has ended. -/
theorem launchCompletion_ends {s : State} {key : Nat} {l : Launch} (hl : Store.get s.launches key = some l) (hready : l.ready ≠ none)
    (hall : l.finished = l.gangs) : Happens (.launchCompletion key) s
      (((({ s.drainAll with launches := Store.del s.launches key } : State).closeNode l.record).restCtx l.ctx).finishRecord l.record l.status) := by
  have hstands : ¬ (l.ready.isNone || decide (l.finished ≠ l.gangs)) = true := by simpa [hall] using hready
  change execLaunchCompletion key s = _
  rw [execLaunchCompletion, hl]
  exact if_neg hstands

section pipe
variable {s : State} {c : Cmd} {x : Ctx}

/-- R403: another pipeline of the context is the graphics pipeline. -/
def Machine.Ctx.otherGfx (x : Ctx) (slot : Nat) : Bool := x.pipes.any fun q => q.1 != slot && q.2.gfx

/-- R403: the slot that a PIPE asks for is in use, or it would be a second graphics pipeline. -/
def Machine.State.pipeClash (s : State) (c : Cmd) (x : Ctx) : Bool :=
  s.stageBusy c.ctx (c.at' 8 1) none || ((pipeOf c 0).gfx && x.otherGfx (c.at' 8 1))

theorem pipeClash_iff : s.pipeClash c x = true ↔
    s.stageBusy c.ctx (c.at' 8 1) none = true ∨ ((pipeOf c s.now).gfx = true ∧ ∃ q ∈ x.pipes, q.1 ≠ c.at' 8 1 ∧ q.2.gfx = true) := by
  simp only [State.pipeClash, Ctx.otherGfx, Bool.or_eq_true, Bool.and_eq_true, List.any_eq_true, bne_iff_ne]
  rfl

theorem pipe_checks (hbody : pipeBodyOk c = true) (howns : s.ownsCtx c.tenant c.ctx = true) (hx : Store.get s.ctxs c.ctx = some x)
    (hloaded : x.st ≠ .free) :
    firstStatus [failing (!pipeBodyOk c) 2, failing (!s.ctxReady c (· != .free) || s.stageBusy c.ctx (c.at' 8 1) none || ((pipeOf c 0).gfx &&
      ((Store.get s.ctxs c.ctx).map fun x => x.pipes.any fun p => p.1 != c.at' 8 1 && p.2.gfx).getD false)) 3] =
      if s.pipeClash c x then 3 else 0 := by
  rw [hbody, State.ctxReady_of_get _ howns hx, bne_iff_ne.mpr hloaded, hx]
  change firstStatus [0, failing (s.pipeClash c x) 3] = _
  cases s.pipeClash c x <;> rfl

variable (hc : s.commanded 9 c) (hbody : pipeBodyOk c = true) (howns : s.ownsCtx c.tenant c.ctx = true) (hx : Store.get s.ctxs c.ctx = some x)
  (hloaded : x.st ≠ .free)
include hc hbody howns hx hloaded

theorem pipe_declares (hfree : s.pipeClash c x = false) : Happens .pipe s
    ((s.updCtx c.ctx fun x => { x with pipes := Store.put x.pipes (c.at' 8 1) (pipeOf c s.now) }).finishRecord c 0) := by
  change execPipe s = _
  exact command_accepted hc ((pipe_checks hbody howns hx hloaded).trans (if_neg (Bool.eq_false_iff.mp hfree)))

theorem pipe_refused (hclash : s.pipeClash c x = true) : Happens .pipe s (s.finishRecord c 3) := by
  change execPipe s = _
  exact command_refused (n := 3) hc ((pipe_checks hbody howns hx hloaded).trans (if_pos hclash)) (by decide)

end pipe

section placement
variable {s : State}

theorem placementPass_tries (hdue : s.passDue = true) :
    Happens .placementPass s { s.candidates.foldl (fun u k => u.tryGang k) s with passNo := (s.now - s.epoch) / 110 } := by
  change execPlacementPass s = _
  rw [execPlacementPass, hdue]
  rfl

/-- R408: a pass is due to a single candidate. -/
theorem passDue_of_candidate {key : Nat} (hready : s.ready = true) (hperiod : s.passNo < (s.now - s.epoch) / 110) (hone : s.candidates = [key]) :
    s.passDue = true := by
  have hperiod : s.passNo < s.passPeriod := hperiod
  simp [State.passDue, hready, hperiod, hone]

theorem enrol_ctxs (s : State) (gid : Nat) (g : Group) : (s.enrol gid g).ctxs = s.ctxs := by
  unfold State.enrol
  rw [(invalidateCache_mem ..).frame]

theorem placeNew_ctxs (s : State) (key : Nat) (l : Launch) (n m : Nat) (p : Spot) : (s.placeNew key l n m p).ctxs = s.ctxs :=
  (foldl_same State.ctxs (fun u tid => u.setThread (threadKey p.core l.threads p.rows tid) (l.thread s.nextGid n m tid u.now)) (fun _ _ => rfl)
    _ _).trans (enrol_ctxs ..)

/-- R407: a launch whose next gang has been placed. -/
def Machine.Launch.placed (l : Launch) (gang : Nat) : Launch :=
  { l with next := l.next + 1, passes := Store.del l.passes gang, claims := Store.del l.claims gang }

/-- R407, R409: a gang that claims nothing and for which there are spots is placed there, in a context that is Active already. -/
theorem tryGang_places {key gang : Nat} {l : Launch} {spots : List Spot} {x : Ctx} (hl : Store.get s.launches key = some l)
    (hfits : l.gangSize ≤ s.widestRegion) (hgang : s.nextGang key l = some gang) (hyoung : Store.rd 0 l.passes gang < 200)
    (hnew : s.savedGang key gang = []) (hspots : s.chooseSpots key l gang = some spots) (hx : Store.get s.ctxs l.ctx = some x)
    (hactive : x.st = .active) :
    s.tryGang key =
      let placed := spots.zipIdx.foldl (fun u p => u.placeNew key l gang p.2 p.1) s
      { placed with launches := Store.put placed.launches key (l.placed gang) } := by
  have hclaim : s.claimFor l gang = l := by
    simp [State.claimFor, Nat.not_le.mpr hyoung]
  have hkept : Store.get (spots.zipIdx.foldl (fun u p => u.placeNew key l gang p.2 p.1) s).ctxs l.ctx = some x := by
    rw [foldl_same State.ctxs _ fun _ _ => placeNew_ctxs ..]
    exact hx
  unfold State.tryGang
  simp only [hl, if_neg (Nat.not_lt.mpr hfits), hgang, hclaim, Store.put_of_get hl, hspots, hnew, List.isEmpty_nil, if_true]
  exact State.updCtx_of_fixed hkept (by simp [hactive])

end placement

section balance
variable {s : State} {ctx slot : Nat} {x : Ctx} {p : Pipe}

/-- R405: a context that neither records nor replays moves as its scores say. -/
theorem decideMove_plain (hx : Store.get s.ctxs ctx = some x) (hmode : x.mode < 2) : s.decideMove ctx slot p = (s, s.stageMove ctx slot p) := by
  have hplain : s.mode ctx < 2 := by simpa [State.mode, hx] using hmode
  have hfree : s.forcing ctx = false := by
    simp only [State.forcing, hx, beq_eq_false_iff_ne.mpr (Nat.ne_of_lt (Nat.lt_succ_of_lt hmode)), Bool.false_and]
  unfold State.decideMove
  simp only [hx, hfree, Bool.false_eq_true, if_false]
  cases s.stageMove ctx slot p with
  | none => rfl
  | some m => exact congrArg (·, some m) (plain_log hplain)

/-- R405: a balance period of a pipeline is over. -/
def Machine.State.periodEnded (s : State) (ctx slot : Nat) : State :=
  (s.clearWaited ctx slot).updCtx ctx fun c => { c with pipes := Store.upd c.pipes slot fun p => { p with period := p.period + 1 } }

theorem balancePeriod_moves (hx : Store.get s.ctxs ctx = some x) (hp : Store.get x.pipes slot = some p) (hmode : x.mode < 2)
    (hdue : p.since + 17600 * (p.period + 1) ≤ s.now) :
    exec (.balancePeriod ctx slot) s = happen (((s.stageMove ctx slot p).elim s (s.moveStage ctx slot p)).periodEnded ctx slot) := by
  change execBalancePeriod ctx slot s = _
  simp only [execBalancePeriod, hx, Option.bind_some, hp, balanceClocks, if_neg (Nat.not_lt.mpr hdue), decideMove_plain hx hmode]
  cases s.stageMove ctx slot p <;> rfl

end balance

/-- Settles O52: each command and event by the rule of its arm; the gang of a single candidate by the pass that tries it alone. -/
theorem launches : Obligations.Launches := by
  unfold Obligations.Launches
  intro s
  refine ⟨fun c hc hbody => ?launch, fun key l hl hready hall => launchCompletion_ends hl hready hall, fun c x hc hbody howns hx hloaded => ?pipe,
    placementPass_tries, fun key l gang spots x hready hperiod hone hl hfits hgang hyoung hnew hspots hx hactive => ?places,
    fun ctx slot x p hx hp hmode hdue => ?balance⟩
  case launch =>
    refine ⟨launch_notReady hc hbody, fun hready hnone => launch_unread hc hbody hready rfl rfl hnone, fun hb ab hready hh ha => ?_⟩
    have hread := launch_read hc hbody hready rfl rfl hh ha
    refine ⟨fun hbad => hread.trans (congrArg happen (if_pos hbad)), fun hok hg => ?_, fun hok hg => ?_⟩
    · exact hread.trans (congrArg happen ((if_neg (not_not.mpr hok)).trans (by rw [occupy_plain hg])))
    · exact hread.trans (congrArg happen ((if_neg (not_not.mpr hok)).trans (by rw [occupy_graph hg])))
  case pipe =>
    exact ⟨fun hfree => pipe_declares hc hbody howns hx hloaded (Bool.eq_false_iff.mpr (mt pipeClash_iff.mp hfree)),
      fun hclash => pipe_refused hc hbody howns hx hloaded (pipeClash_iff.mpr hclash)⟩
  case places =>
    refine (placementPass_tries (passDue_of_candidate hready hperiod hone)).trans (congrArg happen ?_)
    rw [hone, List.foldl_cons, List.foldl_nil, tryGang_places hl hfits hgang hyoung hnew hspots hx hactive]
    rfl
  case balance =>
    have hmoves := balancePeriod_moves hx hp hmode hdue
    exact ⟨fun hnone => hmoves.trans (by rw [hnone]; rfl), fun lose gain hsome => hmoves.trans (by rw [hsome]; rfl)⟩

end Sys2Proof
end

section
/-!
PROOFS. Frames of the host: discovery, status, attestation, claim and windows (R460, R462 to R464, R466, R467).
-/
namespace Sys2Proof
open Machine

/-- R463: an answer to the frame of s, given in u. -/
def Machine.State.reply (s u : State) (kind : Byte) (bs : List Byte) : State :=
  { u with sent := .answer s.inputs.frame.src kind s.inputs.frame.rqid bs :: u.sent }

theorem answer_eq_reply {s u : State} (kind : Byte) (bs : List Byte) (h : u.inputs = s.inputs) : u.answer kind bs = s.reply u kind bs := by
  unfold State.answer State.reply
  rw [h]

/-- R460: discovery and status need only the port. -/
theorem atPort_up {s : State} (act : State → Host.Outcome State Fault Refusal) (h : s.portUp = true) : s.atPort true act = act s := by
  simp [State.atPort, h]

section management
variable {s : State} {op len : Nat} {check : State → Nat} {act : State → State} (h : s.managed op len)
include h

/-- R467: a management request that breaks no rule, and leaves the frame at the inputs, is answered with 0. -/
theorem manage_accepts {u : State} (hcheck : check s = 0) (hact : act s = u) (hinputs : u.inputs = s.inputs) :
    s.manage op len check act = happen (s.reply u 6 [0]) := by
  rw [manage_done h hcheck, hact, answer_eq_reply 6 [0] hinputs]

theorem manage_refuses {n : Nat} {b : Byte} (hcheck : check s = n) (hn : n ≠ 0) (hb : toBytes 1 n = [b]) :
    s.manage op len check act = happen (s.reply s 6 [b]) := by
  rw [manage_refused h (by rwa [hcheck]), hcheck, hb]
  rfl

end management

section frames
variable {s : State}

theorem frameDropped_early (hport : s.portUp = true) (hready : s.ready = false) :
    Happens .frameDropped s { s with rxdrop := satAdd s.rxdrop 1 } := by
  change execFrameDropped s = _
  simp only [execFrameDropped, State.atPort, hport, hready, Bool.not_true, Bool.not_false, Bool.and_self, Bool.false_eq_true, if_false, if_true]
  rfl

theorem frameDropped_late (hport : s.listens) : Happens .frameDropped s { s with rxdrop := satAdd s.rxdrop 1 } := by
  change execFrameDropped s = _
  rw [execFrameDropped, atPort_listens _ _ hport]
  rfl

theorem discoveryRequest_answered (hport : s.portUp = true) (hkind : s.inputs.frame.kind = 1) :
    Happens .discoveryRequest s (s.reply s 2 (partNumber ++ Config.fusedIdentity ++ toBytes 2 s.moduleNumber ++ toBytes 1 (boolNat s.ready) ++
      toBytes 6 Config.portMac.toNat)) := by
  change execDiscoveryRequest s = _
  rw [execDiscoveryRequest, atPort_up _ hport, if_neg (not_not.mpr hkind)]
  rfl

theorem statusRequest_answered {b : Byte} {rest : List Byte} (hport : s.portUp = true) (hkind : s.inputs.frame.kind = 3)
    (hpage : s.inputs.frame.payload = b :: rest) : Happens .statusRequest s (s.reply s 4 (s.statusPage b.toNat)) := by
  change execStatusRequest s = _
  rw [execStatusRequest, atPort_up _ hport, if_neg (not_not.mpr hkind), hpage]
  rfl

theorem attestationRequest_answered (hport : s.listens) (hkind : s.inputs.frame.kind = 7) (hnonce : s.inputs.frame.payload.length = 32) :
    let body := s.inputs.frame.payload ++ Config.fusedIdentity ++ Config.imageMeasurement ++ toBytes 2 s.moduleNumber ++ toBytes 1 s.upStep ++
      Config.devicePublicKeys
    Happens .attestationRequest s (s.reply s 8 (body ++ Config.attestationSignatures body)) := by
  intro body
  change execAttestationRequest s = _
  rw [execAttestationRequest, atPort_listens _ _ hport, if_neg (not_not.mpr hkind), if_neg (not_not.mpr hnonce)]
  rfl

end frames

section claim
variable {s : State} (hport : s.listens) (hkind : s.inputs.frame.kind = 5)
include hport hkind

/-- R466: the first claim makes its source the station; a later one is dropped. -/
theorem claim_eq (hop : s.manageOp = 1) : exec .claim s =
    if s.station.isSome then happen s.refuseRequest
    else if s.inputs.frame.payload.length ≠ 49 then happen (s.answer 6 [2])
    else happen (({ s with station := some s.inputs.frame.src, stationKey := s.inputs.frame.payload.drop 1 } : State).answer 6 [0]) := by
  change execClaim s = _
  rw [execClaim, atPort_listens _ _ hport]
  simp only [hkind, hop, ne_eq, not_true_eq_false, decide_false, Bool.or_self, Bool.false_eq_true, if_false]

theorem claim_first (hop : s.manageOp = 1) (hnone : s.station = none) (hlen : s.inputs.frame.payload.length = 49) :
    Happens .claim s (s.reply { s with station := some s.inputs.frame.src, stationKey := s.inputs.frame.payload.drop 1 } 6 [0]) := by
  refine (claim_eq hport hkind hop).trans ?_
  rw [hnone, if_neg (not_not.mpr hlen)]
  rfl

theorem claim_later (hop : s.manageOp = 1) (hsome : s.station ≠ none) : Happens .claim s { s with mauth := satAdd s.mauth 1 } :=
  (claim_eq hport hkind hop).trans (if_pos (Option.isSome_iff_ne_none.mpr hsome))

theorem managementAuthFail_counted (hop : s.manageOp ≠ 1) (hauth : s.authorised = false) :
    Happens .managementAuthFail s { s with mauth := satAdd s.mauth 1 } := by
  change execManagementAuthFail s = _
  rw [execManagementAuthFail, atPort_listens _ _ hport]
  simp only [hkind, hop, hauth, ne_eq, not_true_eq_false, decide_false, Bool.and_false, Bool.or_self, Bool.not_false, Bool.false_eq_true, if_false,
    if_true]
  rfl

end claim

section windows
variable {s : State}

theorem askPage_inputs (s : State) (op ctx engine va : Nat) (dst : Bool) : (s.askPage op ctx engine va dst).inputs = s.inputs := by
  unfold State.askPage
  dsimp only
  split <;> rfl

theorem forgetPages_inputs (s : State) (ctx : Nat) (hit : Nat → Nat → Bool) : (s.forgetPages ctx hit).inputs = s.inputs := by
  unfold State.forgetPages
  refine foldl_same State.inputs _ (fun u e => ?_) _ _
  split
  · split
    · exact foldl_same State.inputs _ (fun u p => askPage_inputs ..) _ _
    · rfl
  · rfl

theorem discardTenant_inputs (s : State) (t : Nat) : (s.discardTenant t).inputs = s.inputs := by
  unfold State.discardTenant
  exact foldl_same State.inputs _ (fun u e => forgetPages_inputs ..) _ _

/-- R467: the window that a request asks for. -/
def Machine.State.askedWindow (s : State) : BitVec 128 := windowFields (s.arg 3 16)

variable (h : s.managed 2 19) (htenant : s.arg 1 1 < 32) (hindex : s.arg 2 1 < 16)
include h htenant hindex

theorem windowWrite_unfit (hon : s.askedWindow.getLsbD 0 = true) (hfit : windowFits s.askedWindow = false) :
    Happens .windowWrite s (s.reply s 6 [2]) := by
  unfold State.askedWindow at hon hfit
  change execWindowWrite s = _
  refine manage_refuses (n := 2) h ?_ (by decide) rfl
  simp [Nat.not_le.mpr htenant, Nat.not_le.mpr hindex, hon, hfit]

theorem windowWrite_clash (hon : s.askedWindow.getLsbD 0 = true) (hfit : windowFits s.askedWindow = true)
    (hclash : s.windowClash (s.arg 1 1) s.askedWindow = true) : Happens .windowWrite s (s.reply s 6 [1]) := by
  unfold State.askedWindow at hon hfit hclash
  change execWindowWrite s = _
  refine manage_refuses (n := 1) h ?_ (by decide) rfl
  simp [Nat.not_le.mpr htenant, Nat.not_le.mpr hindex, hon, hfit, hclash]

/-- R30, R32: a window that is off, or fits and overlaps no other tenant's, is written, and the tenant's translations are discarded. -/
theorem windowWrite_writes
    (hfree : s.askedWindow.getLsbD 0 = true → windowFits s.askedWindow = true ∧ s.windowClash (s.arg 1 1) s.askedWindow = false) :
    Happens .windowWrite s (s.reply ((s.setTenant (s.arg 1 1) { s.tenant (s.arg 1 1) with
      windows := Store.wr 0 (s.tenant (s.arg 1 1)).windows (s.arg 2 1) s.askedWindow }).discardTenant (s.arg 1 1)) 6 [0]) := by
  unfold State.askedWindow at hfree ⊢
  change execWindowWrite s = _
  refine manage_accepts h ?_ rfl (discardTenant_inputs ..)
  have hplace : (decide (32 ≤ s.arg 1 1) || decide (16 ≤ s.arg 2 1)) = false := by simp [htenant, hindex]
  cases hon : (windowFields (s.arg 3 16)).getLsbD 0 with
  | false => simp only [hplace, hon, Bool.false_and, Bool.false_eq_true, if_false]
  | true =>
    obtain ⟨hfit, hclash⟩ := hfree hon
    simp only [hplace, hfit, hclash, Bool.not_true, Bool.and_false, Bool.false_eq_true, if_false]

end windows

/-- Settles O58: each frame by its kind, a management request by what its check finds. -/
theorem hostRequests : Obligations.HostRequests := by
  unfold Obligations.HostRequests
  intro s p ans arg t done refused w
  exact ⟨frameDropped_early, frameDropped_late, discoveryRequest_answered, fun b rest => statusRequest_answered, attestationRequest_answered,
    fun hport hkind hop => ⟨claim_first hport hkind hop, claim_later hport hkind hop⟩, managementAuthFail_counted,
    fun h htenant hindex => ⟨windowWrite_unfit h htenant hindex, windowWrite_clash h htenant hindex, windowWrite_writes h htenant hindex⟩⟩

end Sys2Proof
end

section
/-!
PROOFS. Management requests of the station (R463, R464, R466, R467).
-/
namespace Sys2Proof
open Machine

theorem arg_rawWrite (s : State) (a : Nat) (bs : List Byte) (o n : Nat) : (s.rawWrite a bs).arg o n = s.arg o n := by
  unfold State.arg
  rw [rawWrite_inputs]

theorem tenant_rawWrite (s : State) (a : Nat) (bs : List Byte) (t : Nat) : (s.rawWrite a bs).tenant t = s.tenant t := by
  unfold State.tenant
  rw [rawWrite_tenants]

section commandQueue
variable {s : State}

/-- R384: a request for a command queue whose fields break no rule. -/
structure Machine.State.AsksQueue (s : State) : Prop where
  managed : s.managed 3 20
  tenant : s.arg 1 1 < 32
  queue : s.arg 2 1 < 64
  align : s.arg 3 8 % 64 = 0
  low : 4 ≤ s.arg 11 1
  high : s.arg 11 1 ≤ 16

/-- R384: what a request with legal fields for a command queue is refused with: its windows come before its untaken records. -/
theorem commandQueueSetup_check (h : s.AsksQueue) :
    (if decide (32 ≤ s.arg 1 1) || decide (64 ≤ s.arg 2 1) || decide (s.arg 3 8 % 64 ≠ 0) || decide (s.arg 11 1 < 4) || decide (16 < s.arg 11 1)
      then 2
      else if !s.inWindowOf (s.arg 1 1) (s.arg 3 8) (64 * 2 ^ s.arg 11 1) || !s.inWindowOf (s.arg 1 1) (s.arg 12 8) 64 then 1
      else if s.untaken (s.arg 1 1) (s.arg 2 1) then 3 else 0) =
    if !s.inWindowOf (s.arg 1 1) (s.arg 3 8) (64 * 2 ^ s.arg 11 1) || !s.inWindowOf (s.arg 1 1) (s.arg 12 8) 64 then 1
      else if s.untaken (s.arg 1 1) (s.arg 2 1) then 3 else 0 := by
  obtain ⟨-, htenant, hqueue, halign, hlow, hhigh⟩ := h
  refine if_neg ?_
  simp only [Bool.or_eq_true, decide_eq_true_eq]
  omega

theorem commandQueueSetup_outside (h : s.AsksQueue) (hring : s.inWindowOf (s.arg 1 1) (s.arg 3 8) (64 * 2 ^ s.arg 11 1) = false) :
    Happens .commandQueueSetup s (s.reply s 6 [1]) := by
  change execCommandQueueSetup s = _
  refine manage_refuses (n := 1) h.managed ((commandQueueSetup_check h).trans ?_) (by decide) rfl
  rw [hring]
  rfl

theorem commandQueueSetup_untaken (h : s.AsksQueue) (hring : s.inWindowOf (s.arg 1 1) (s.arg 3 8) (64 * 2 ^ s.arg 11 1) = true)
    (hctrl : s.inWindowOf (s.arg 1 1) (s.arg 12 8) 64 = true) (huntaken : s.untaken (s.arg 1 1) (s.arg 2 1) = true) :
    Happens .commandQueueSetup s (s.reply s 6 [3]) := by
  change execCommandQueueSetup s = _
  refine manage_refuses (n := 3) h.managed ((commandQueueSetup_check h).trans ?_) (by decide) rfl
  rw [hring, hctrl, huntaken]
  rfl

/-- R384: a queue that the tenant did not have is set up behind a cleared control block. -/
theorem commandQueueSetup_new (h : s.AsksQueue) (hring : s.inWindowOf (s.arg 1 1) (s.arg 3 8) (64 * 2 ^ s.arg 11 1) = true)
    (hctrl : s.inWindowOf (s.arg 1 1) (s.arg 12 8) 64 = true) (hnew : s.cmdQ (s.arg 1 1) (s.arg 2 1) = none) :
    let u := s.rawWrite (s.arg 12 8) (List.replicate 64 0)
    let q : CmdQ := { base := s.arg 3 8, k := s.arg 11 1, ctrl := s.arg 12 8, ridx := 0, running := [], waiting := [] }
    Happens .commandQueueSetup s (s.reply (u.setTenant (s.arg 1 1) { u.tenant (s.arg 1 1) with
      queues := Store.put (u.tenant (s.arg 1 1)).queues (s.arg 2 1) q }) 6 [0]) := by
  intro u q
  have huntaken : s.untaken (s.arg 1 1) (s.arg 2 1) = false := by
    rw [State.untaken, hnew]
  have hold : Store.get (u.tenant (s.arg 1 1)).queues (s.arg 2 1) = none := by
    rw [tenant_rawWrite]
    exact hnew
  change execCommandQueueSetup s = _
  refine manage_accepts h.managed ((commandQueueSetup_check h).trans (by rw [hring, hctrl, huntaken]; rfl)) ?_
    ((State.setTenant_inputs ..).trans (rawWrite_inputs ..))
  simp only [arg_rawWrite]
  rw [hold]
  rfl

end commandQueue

section faultQueue
variable {s : State}

/-- R421: a request for a fault queue whose fields break no rule and whose bytes lie in windows of its tenant. -/
structure Machine.State.AsksFaultQueue (s : State) : Prop where
  managed : s.managed 4 19
  tenant : s.arg 1 1 < 32
  align : s.arg 2 8 % 64 = 0
  low : 6 ≤ s.arg 10 1
  high : s.arg 10 1 ≤ 16
  ring : s.inWindowOf (s.arg 1 1) (s.arg 2 8) (64 * 2 ^ s.arg 10 1) = true
  ctrl : s.inWindowOf (s.arg 1 1) (s.arg 11 8) 64 = true

theorem faultQueueSetup_check (h : s.AsksFaultQueue) :
    (if decide (32 ≤ s.arg 1 1) || decide (s.arg 2 8 % 64 ≠ 0) || decide (s.arg 10 1 < 6) || decide (16 < s.arg 10 1) then 2
      else if !s.inWindowOf (s.arg 1 1) (s.arg 2 8) (64 * 2 ^ s.arg 10 1) || !s.inWindowOf (s.arg 1 1) (s.arg 11 8) 64 then 1
      else if s.unconsumed (s.arg 1 1) || s.parkedThreads (s.arg 1 1) then 3 else 0) =
    if s.unconsumed (s.arg 1 1) || s.parkedThreads (s.arg 1 1) then 3 else 0 := by
  obtain ⟨-, htenant, halign, hlow, hhigh, hring, hctrl⟩ := h
  rw [hring, hctrl]
  refine if_neg ?_
  simp only [Bool.or_eq_true, decide_eq_true_eq]
  omega

theorem faultQueueSetup_inUse (h : s.AsksFaultQueue) (huse : s.unconsumed (s.arg 1 1) = true ∨ s.parkedThreads (s.arg 1 1) = true) :
    Happens .faultQueueSetup s (s.reply s 6 [3]) := by
  change execFaultQueueSetup s = _
  exact manage_refuses (n := 3) h.managed ((faultQueueSetup_check h).trans (if_pos ((Bool.or_eq_true ..).mpr huse))) (by decide) rfl

/-- R421: a fault queue is set up empty, behind a cleared control block. -/
theorem faultQueueSetup_new (h : s.AsksFaultQueue) (hconsumed : s.unconsumed (s.arg 1 1) = false) (hparked : s.parkedThreads (s.arg 1 1) = false) :
    let u := s.rawWrite (s.arg 11 8) (List.replicate 64 0)
    let q : FaultQ := { base := s.arg 2 8, k := s.arg 10 1, ctrl := s.arg 11 8, widx := 0, ridx := 0, rsm := 0, rsmRead := 0, seq := 0, held := [],
                        drops := 0, advanced := false, kinds := [] }
    Happens .faultQueueSetup s (s.reply (u.setTenant (s.arg 1 1) { u.tenant (s.arg 1 1) with fq := q }) 6 [0]) := by
  intro u q
  change execFaultQueueSetup s = _
  refine manage_accepts h.managed ((faultQueueSetup_check h).trans (by rw [hconsumed, hparked]; rfl)) ?_
    ((State.setTenant_inputs ..).trans (rawWrite_inputs ..))
  simp only [arg_rawWrite]
  rfl

end faultQueue

section ranges
variable {s : State}

/-- R467: another tenant holds numbers of the range of n from a. -/
def Machine.State.rangeMeets (s : State) (t a n : Nat) (first count : Tenant → Nat) : Bool :=
  s.tenants.any fun v => v.1 != t && rangesMeet a n (first v.2) (count v.2)

theorem rangeMeets_iff {t a n : Nat} {first count : Tenant → Nat} : s.rangeMeets t a n first count = true ↔
    ∃ v ∈ s.tenants, v.1 ≠ t ∧ rangesMeet a n (first v.2) (count v.2) = true := by
  simp only [State.rangeMeets, List.any_eq_true, Bool.and_eq_true, bne_iff_ne]

/-- R467: a number of the range of n from a is in use. -/
def rangeUsed {α : Type} (m : Store α) (a n : Nat) : Bool := m.any fun e => decide (a ≤ e.1) && decide (e.1 < a + n)

theorem rangeUsed_iff {α : Type} {m : Store α} {a n : Nat} : rangeUsed m a n = true ↔ ∃ e ∈ m, a ≤ e.1 ∧ e.1 < a + n := by
  simp only [rangeUsed, List.any_eq_true, Bool.and_eq_true, decide_eq_true_eq]

/-- R467: a range inside its numbers is refused for another tenant's range first, then for a number in use. -/
theorem range_check {t a n top : Nat} (ht : t < 32) (hin : a + n ≤ top) (meets used : Bool) :
    (if decide (32 ≤ t) || decide (top < a + n) then 2 else if meets then 1 else if used then 3 else 0) =
      if meets then 1 else if used then 3 else 0 := by
  refine if_neg ?_
  simp only [Bool.or_eq_true, decide_eq_true_eq]
  omega

variable {op top : Nat} {i : Instr} {first count : Tenant → Nat} {set : State → State}

/-- R467: how a request for a range ends, by whether it meets another tenant's and whether a number of it is in use. -/
theorem range_ends {α : Type} {m : State → Store α} (h : s.managed op 6)
    (hexec : exec i s = s.manage op 6 (fun s => if 32 ≤ s.arg 1 1 || top < s.arg 2 2 + s.arg 4 2 then 2
      else if s.rangeMeets (s.arg 1 1) (s.arg 2 2) (s.arg 4 2) first count then 1
      else if rangeUsed (m s) (s.arg 2 2) (s.arg 4 2) then 3 else 0) set)
    (hset : (set s).inputs = s.inputs) (ht : s.arg 1 1 < 32) (hin : s.arg 2 2 + s.arg 4 2 ≤ top) :
    let meets := ∃ v ∈ s.tenants, v.1 ≠ s.arg 1 1 ∧ rangesMeet (s.arg 2 2) (s.arg 4 2) (first v.2) (count v.2) = true
    let used := ∃ e ∈ m s, s.arg 2 2 ≤ e.1 ∧ e.1 < s.arg 2 2 + s.arg 4 2
    (meets → Happens i s (s.reply s 6 [1])) ∧ (¬ meets → used → Happens i s (s.reply s 6 [3])) ∧
      (¬ meets → ¬ used → Happens i s (s.reply (set s) 6 [0])) := by
  intro meets used
  refine ⟨fun hmeets => hexec.trans (manage_refuses (n := 1) h ((range_check ht hin ..).trans ?_) (by decide) rfl),
    fun hmeets hused => hexec.trans (manage_refuses (n := 3) h ((range_check ht hin ..).trans ?_) (by decide) rfl),
    fun hmeets hused => hexec.trans (manage_accepts h ((range_check ht hin ..).trans ?_) rfl hset)⟩
  · exact if_pos (rangeMeets_iff.mpr hmeets)
  · exact (if_neg (mt rangeMeets_iff.mp hmeets)).trans (if_pos (rangeUsed_iff.mpr hused))
  · exact (if_neg (mt rangeMeets_iff.mp hmeets)).trans (if_neg (mt rangeUsed_iff.mp hused))

/-- R467: the ranges of numbers that a request gives to its tenant. -/
def Machine.State.giveNodes (s : State) : State :=
  s.setTenant (s.arg 1 1) { s.tenant (s.arg 1 1) with nodeFirst := s.arg 2 2, nodeCount := s.arg 4 2 }
def Machine.State.giveContexts (s : State) : State :=
  s.setTenant (s.arg 1 1) { s.tenant (s.arg 1 1) with ctxFirst := s.arg 2 2, ctxCount := s.arg 4 2 }

end ranges

section fields
variable {s : State}

theorem destinations_set (h : s.managed 7 52) (ht : s.arg 1 1 < 32) : Happens .destinations s (s.reply (s.setTenant (s.arg 1 1)
    { s.tenant (s.arg 1 1) with dest := (s.inputs.frame.payload.drop 2).take 48, gazeKey := (s.inputs.frame.payload.drop 50).take 2 }) 6 [0]) := by
  change execDestinations s = _
  exact manage_accepts h (if_neg (Nat.not_le.mpr ht)) rfl rfl

theorem moduleNumber_set (h : s.managed 8 3) (hn : s.arg 1 2 ≤ 1023) (hfree : s.walkedPeer = false) :
    Happens .moduleNumber s (s.reply { s with moduleNumber := s.arg 1 2 } 6 [0]) := by
  change execModuleNumber s = _
  exact manage_accepts h ((if_neg (Nat.not_lt.mpr hn)).trans (if_neg (Bool.eq_false_iff.mp hfree))) rfl rfl

theorem moduleNumber_walked (h : s.managed 8 3) (hn : s.arg 1 2 ≤ 1023) (hwalked : s.walkedPeer = true) :
    Happens .moduleNumber s (s.reply s 6 [3]) := by
  change execModuleNumber s = _
  exact manage_refuses (n := 3) h ((if_neg (Nat.not_lt.mpr hn)).trans (if_pos hwalked)) (by decide) rfl

theorem peerRoute_set (h : s.managed 9 5) (hn : s.arg 1 2 ≤ 1023) :
    Happens .peerRoute s (s.reply { s with peerRoutes := Store.wr 0 s.peerRoutes (s.arg 1 2) (s.arg 3 2) } 6 [0]) := by
  change execPeerRoute s = _
  exact manage_accepts h (if_neg (Nat.not_lt.mpr hn)) rfl rfl

/-- R474: a port whose training passes comes up with no replays counted. -/
theorem peerPortRetrain_up (h : s.managed 0x0A 2) (hport : s.arg 1 1 < 16) (hpasses : s.arg 1 1 ∉ s.inputs.ports) :
    Happens .peerPortRetrain s (s.reply { s with
      portsDown := s.portsDown.filter (· != s.arg 1 1), portReplays := Store.del s.portReplays (s.arg 1 1) } 6 [0]) := by
  change execPeerPortRetrain s = _
  exact manage_accepts h (if_neg (Nat.not_le.mpr hport)) (if_neg (mt List.contains_iff_mem.mp hpasses)) rfl

theorem clearCounters_clears (h : s.managed 0x0B 1) : Happens .clearCounters s (s.reply { s with errors := [], orphan := [], rxdrop := 0 } 6 [0]) := by
  change execClearCounters s = _
  exact manage_accepts h rfl rfl rfl

end fields

/-- Settles O59: each request by what its check finds. -/
theorem managementRequests : Obligations.ManagementRequests := by
  unfold Obligations.ManagementRequests
  intro s p ans arg t done refused
  refine ⟨fun h htenant hqueue halign hlow hhigh => ?queue, fun h htenant halign hlow hhigh hring hctrl => ?faultQueue,
    fun h htenant hin => range_ends (i := .nodeRange) (set := State.giveNodes) (first := Tenant.nodeFirst) (count := Tenant.nodeCount) (m := State.nodes) h rfl rfl htenant hin,
    fun h htenant hin => range_ends (i := .contextRange) (set := State.giveContexts) (first := Tenant.ctxFirst) (count := Tenant.ctxCount) (m := State.ctxs) h rfl rfl htenant hin,
    destinations_set, fun h hn => ⟨moduleNumber_set h hn, moduleNumber_walked h hn⟩, peerRoute_set, peerPortRetrain_up, clearCounters_clears⟩
  case queue =>
    have hasks : s.AsksQueue := ⟨h, htenant, hqueue, halign, hlow, hhigh⟩
    exact ⟨commandQueueSetup_outside hasks, commandQueueSetup_untaken hasks, commandQueueSetup_new hasks⟩
  case faultQueue =>
    have hasks : s.AsksFaultQueue := ⟨h, htenant, halign, hlow, hhigh, hring, hctrl⟩
    exact ⟨faultQueueSetup_inUse hasks, faultQueueSetup_new hasks⟩

end Sys2Proof
end
